-- ==== Sys2Proof/Word.lean ====
section
/-!
DEFINITION. Word and byte types of the S9 (04 R81, R82; 01 R12) and the plainest arithmetic on them.
-/

namespace Sys2Proof

/-- One byte of memory. -/
abbrev Byte := BitVec 8

/-- A 32-bit main-file register (R81). -/
abbrev Word := BitVec 32

/-- A 64-bit operand-file entry, latch, address or instruction word (R82, R59). -/
abbrev DWord := BitVec 64

/-- `len` bits of `v` from bit `lo` up, as a number: the manual's v[lo+len-1:lo] (R6, R30). -/
def bits {n : Nat} (v : BitVec n) (lo len : Nat) : Nat := v.toNat / 2 ^ lo % 2 ^ len

/-- Bit `i` of `v`. -/
def bit {n : Nat} (v : BitVec n) (i : Nat) : Bool := v.getLsbD i

/-- `v` with `len` bits from bit `lo` up replaced by `x` mod 2^len. -/
def setBits {n : Nat} (v : BitVec n) (lo len x : Nat) : BitVec n :=
  BitVec.ofNat n (v.toNat - bits v lo len * 2 ^ lo + (x % 2 ^ len) * 2 ^ lo)

/-- A Bool as a one-bit number. -/
def b2n (b : Bool) : Nat := if b then 1 else 0

end Sys2Proof
end

