-- ==== Sys2Proof/Syntax.lean ====
section
/-!
DEFINITION. The instruction syntax: one constructor of `Instr` for each row of spec/opcode_table.json.
Rows 0 to 131 are instruction words (03 R59 to R79); rows 132 to 246 are steps of the device's agents and of the outside.
-/

namespace Sys2Proof

/-! ### Operands (03 R62 to R66, 01 R16, R23) -/

/-- A full-form guard (R62): always, or one of p0 to p11, perhaps negated. -/
inductive Guard where
  | always
  | pred (i : Fin 12) (neg : Bool)
  deriving DecidableEq, Repr

/-- A source operand (R63). -/
inductive Src where
  | g (i : BitVec 8)
  | o (i : BitVec 3)
  | lat
  | imm (v : BitVec 8)
  deriving DecidableEq, Repr

/-- A destination operand (R63): a discard names nothing. -/
inductive Dst where
  | g (i : BitVec 8)
  | o (i : BitVec 3)
  | lat
  | discard
  deriving DecidableEq, Repr

/-- A destination that may not be discarded (two-address shapes R71, DOT accumulators R130). -/
inductive RDst where
  | g (i : BitVec 8)
  | o (i : BitVec 3)
  | lat
  deriving DecidableEq, Repr

/-- The destination of a load: main file or operand file (R195). -/
inductive LDst where
  | g (i : BitVec 8)
  | o (i : BitVec 3)
  deriving DecidableEq, Repr

/-- A memory base or address field: level 00, 01 or 10 (R179, R215). -/
inductive Base where
  | g (i : BitVec 8)
  | o (i : BitVec 3)
  | lat
  deriving DecidableEq, Repr

/-- A predicate specifier (R84). -/
abbrev PReg := Fin 12

/-- The signedness field (R88). -/
inductive Sg where
  | none | s | z
  deriving DecidableEq, Repr

/-- CMP conditions (R103). -/
inductive Cond where
  | eq | ne | lt | le | gt | ge | tst
  deriving DecidableEq, Repr

/-- FCMP conditions (R126). -/
inductive FCond where
  | eq | ne | lt | le | gt | ge | un
  deriving DecidableEq, Repr

/-- Rounding modes (R121). -/
inductive Rm where
  | rne | rz | ru | rd
  deriving DecidableEq, Repr

/-- Special registers (R85). -/
inductive SReg where
  | lane | plane | tsize | team | grid | core | grove | depth | argp | tcret | tags | fflags | status | time | cycle | lk
  deriving DecidableEq, Repr

/-- Special registers that SETS may write (R85, R106). -/
inductive WSReg where
  | fflags | lk
  deriving DecidableEq, Repr

/-- CVT register types (R131). -/
inductive RTy where
  | f32 | s32 | z32 | s64 | z64 | f16 | bf16
  deriving DecidableEq, Repr

/-- A format slot index (R121). -/
abbrev FSlot := BitVec 3

/-- Memory spaces (R179). -/
inductive Space where
  | g | s | k
  deriving DecidableEq, Repr

/-- Access widths (R194). -/
inductive MW where
  | b | h | w | d | q
  deriving DecidableEq, Repr

/-- Replacement hints (R186). -/
inductive Hint where
  | none | ef | el
  deriving DecidableEq, Repr

/-- Scopes (R230), in code order. -/
inductive Scope where
  | team | core | grove | part | tenant | dev | sys | fab
  deriving DecidableEq, Repr

/-- Orders of ATOM and RED (R194). -/
inductive Order where
  | rlx | acq | rel | ar
  deriving DecidableEq, Repr

/-- Orders of FENCE: 00 faults (R194). -/
inductive FOrder where
  | acq | rel | ar
  deriving DecidableEq, Repr

/-- Atomic operations (R202). -/
inductive AOp where
  | add | and | or | xor | mins | maxs | minz | maxz | xchg | cas | fadd | inc | dec
  deriving DecidableEq, Repr

/-! ### Operand bundles of the full form -/

/-- D, A, B with signedness and width. -/
structure Alu2 where
  gd : Guard
  d : Dst
  a : Src
  b : Src
  sg : Sg
  w : Bool
  deriving DecidableEq, Repr

/-- D, A, B with width only (signedness faults, R91). -/
structure Log2 where
  gd : Guard
  d : Dst
  a : Src
  b : Src
  w : Bool
  deriving DecidableEq, Repr

/-- D, A, B, C with signedness and width. -/
structure Alu3 where
  gd : Guard
  d : Dst
  a : Src
  b : Src
  c : Src
  sg : Sg
  w : Bool
  deriving DecidableEq, Repr

/-- D, A, B, C at 32 bits, no modifier (R96, R100). -/
structure Tri where
  gd : Guard
  d : Dst
  a : Src
  b : Src
  c : Src
  deriving DecidableEq, Repr

/-- D, A with signedness and width. -/
structure Alu1 where
  gd : Guard
  d : Dst
  a : Src
  sg : Sg
  w : Bool
  deriving DecidableEq, Repr

/-- D, A with width. -/
structure Log1 where
  gd : Guard
  d : Dst
  a : Src
  w : Bool
  deriving DecidableEq, Repr

structure BfxArg where
  gd : Guard
  d : Dst
  a : Src
  b : Src
  len : BitVec 7
  sg : Sg
  w : Bool
  deriving DecidableEq, Repr

structure BfiArg where
  gd : Guard
  d : Dst
  a : Src
  b : Src
  c : Src
  len : BitVec 7
  w : Bool
  deriving DecidableEq, Repr

structure SelArg where
  gd : Guard
  d : Dst
  a : Src
  b : Src
  p : PReg
  neg : Bool
  w : Bool
  deriving DecidableEq, Repr

structure LeaArg where
  gd : Guard
  d : Dst
  a : Src
  b : Src
  n : BitVec 3
  sg : Sg
  w : Bool
  deriving DecidableEq, Repr

structure CmpArg where
  gd : Guard
  p : PReg
  a : Src
  b : Src
  cond : Cond
  sg : Sg
  w : Bool
  deriving DecidableEq, Repr

structure PredArg where
  gd : Guard
  pd : PReg
  pa : PReg
  pb : PReg
  na : Bool
  nb : Bool
  deriving DecidableEq, Repr

structure PnotArg where
  gd : Guard
  pd : PReg
  pa : PReg
  deriving DecidableEq, Repr

/-- PMOV's two directions (R105). -/
inductive PmovDir where
  | toReg (d : Dst)
  | fromReg (a b : Src)
  deriving DecidableEq, Repr

structure PmovArg where
  gd : Guard
  dir : PmovDir
  deriving DecidableEq, Repr

structure GetsArg where
  gd : Guard
  d : Dst
  sr : SReg
  w : Bool
  deriving DecidableEq, Repr

structure SetsArg where
  gd : Guard
  sr : WSReg
  a : Src
  w : Bool
  deriving DecidableEq, Repr

structure F2 where
  gd : Guard
  d : Dst
  a : Src
  b : Src
  rm : Rm
  deriving DecidableEq, Repr

structure F3 where
  gd : Guard
  d : Dst
  a : Src
  b : Src
  c : Src
  rm : Rm
  deriving DecidableEq, Repr

structure F2n where
  gd : Guard
  d : Dst
  a : Src
  b : Src
  deriving DecidableEq, Repr

structure F1r where
  gd : Guard
  d : Dst
  a : Src
  rm : Rm
  deriving DecidableEq, Repr

structure F1 where
  gd : Guard
  d : Dst
  a : Src
  deriving DecidableEq, Repr

structure FcmpArg where
  gd : Guard
  p : PReg
  a : Src
  b : Src
  cond : FCond
  deriving DecidableEq, Repr

structure H2 where
  gd : Guard
  d : Dst
  a : Src
  b : Src
  bf : Bool
  rm : Rm
  deriving DecidableEq, Repr

structure Doth where
  gd : Guard
  d : RDst
  a : Src
  b : Src
  bf : Bool
  deriving DecidableEq, Repr

structure CvtArg where
  gd : Guard
  d : Dst
  a : Src
  toSlot : Bool
  rt : RTy
  slot : FSlot
  rm : Rm
  sat : Bool
  deriving DecidableEq, Repr

structure PackArg where
  gd : Guard
  d : Dst
  a : Src
  b : Src
  slot : FSlot
  e : BitVec 3
  rm : Rm
  sat : Bool
  deriving DecidableEq, Repr

structure UnpackArg where
  gd : Guard
  d : Dst
  a : Src
  slot : FSlot
  e : BitVec 3
  deriving DecidableEq, Repr

structure FmtqArg where
  gd : Guard
  d : Dst
  a : Src
  slot : FSlot
  deriving DecidableEq, Repr

/-- DOT8 and DOT4; `s` is present exactly when the operation is block-scaled (R134). -/
structure DotArg where
  gd : Guard
  d : RDst
  a : Src
  b : Src
  s : Option Src
  sa : FSlot
  sb : FSlot
  deriving DecidableEq, Repr

/-- MMA; `c = none` means C = 0 (R146). -/
structure MmaArg where
  gd : Guard
  d : BitVec 8
  a : BitVec 8
  b : BitVec 8
  c : Option (BitVec 8)
  sa : FSlot
  sb : FSlot
  fuse : BitVec 2
  deriving DecidableEq, Repr

structure MmasArg where
  gd : Guard
  d : BitVec 8
  a : BitVec 8
  b : BitVec 8
  s : BitVec 8
  sa : FSlot
  sb : FSlot
  fuse : BitVec 2
  deriving DecidableEq, Repr

structure MzeroArg where
  gd : Guard
  d : BitVec 8
  cd : Bool
  deriving DecidableEq, Repr

structure GOnly where
  gd : Guard
  deriving DecidableEq, Repr

/-- LDFR and STFR: fragment register, address base, stride (R146). -/
structure FragArg where
  gd : Guard
  r : BitVec 8
  base : BitVec 8
  stride : Src
  sp : Space
  cd : Bool
  deriving DecidableEq, Repr

structure McvtArg where
  gd : Guard
  d : BitVec 8
  a : BitVec 8
  slot : FSlot
  h : BitVec 2
  rm : Rm
  sat : Bool
  deriving DecidableEq, Repr

structure MtrnArg where
  gd : Guard
  d : BitVec 8
  a : BitVec 8
  w32 : Bool
  deriving DecidableEq, Repr

structure BraArg where
  gd : Guard
  off : BitVec 30
  deriving DecidableEq, Repr

structure BrxArg where
  gd : Guard
  a : Src
  tag : BitVec 8
  deriving DecidableEq, Repr

structure PadArg where
  tag : BitVec 8
  deriving DecidableEq, Repr

structure YieldArg where
  gd : Guard
  k : BitVec 4
  deriving DecidableEq, Repr

/-- TCALL and TCALLS: `cntm1` is the callee count less one (R157). -/
structure TcallArg where
  gd : Guard
  a : Src
  b : Src
  tag : BitVec 8
  cntm1 : BitVec 3
  deriving DecidableEq, Repr

/-- TVOTE's modes with the destination each admits (R157, R169). -/
inductive Vote where
  | all (p : PReg)
  | any (p : PReg)
  | uni (p : PReg)
  | ballot (d : Dst) (b : Src)
  | count (d : Dst)
  deriving DecidableEq, Repr

structure TvoteArg where
  gd : Guard
  ps : PReg
  neg : Bool
  mode : Vote
  deriving DecidableEq, Repr

structure TxchArg where
  gd : Guard
  d : Dst
  a : Src
  b : Src
  w : Bool
  deriving DecidableEq, Repr

structure TmigrArg where
  gd : Guard
  a : Src
  deriving DecidableEq, Repr

structure LdArg where
  gd : Guard
  d : LDst
  base : Base
  off : Src
  w : MW
  sp : Space
  hint : Hint
  yld : Bool
  sx : Bool
  deriving DecidableEq, Repr

structure StArg where
  gd : Guard
  base : Base
  off : Src
  data : Src
  w : MW
  sp : Space
  hint : Hint
  deriving DecidableEq, Repr

structure LdaArg where
  gd : Guard
  d : LDst
  base : Base
  off : Src
  w : MW
  sp : Space
  hint : Hint
  yld : Bool
  scope : Scope
  deriving DecidableEq, Repr

structure StlArg where
  gd : Guard
  base : Base
  off : Src
  data : Src
  w : MW
  sp : Space
  hint : Hint
  scope : Scope
  deriving DecidableEq, Repr

/-- ATOM; `d = none` is a discard; `c` is present exactly for `.cas` (R194). -/
structure AtomArg where
  gd : Guard
  d : Option LDst
  base : Base
  b : Src
  c : Option Src
  w : Bool
  scr : Bool
  op : AOp
  order : Order
  scope : Scope
  deriving DecidableEq, Repr

structure RedArg where
  gd : Guard
  base : Base
  b : Src
  w : Bool
  scr : Bool
  op : AOp
  rel : Bool
  scope : Scope
  deriving DecidableEq, Repr

structure FenceArg where
  gd : Guard
  order : FOrder
  scope : Scope
  deriving DecidableEq, Repr

structure PrefArg where
  gd : Guard
  base : Base
  off : Src
  konst : Bool
  hint : Hint
  l2 : Bool
  deriving DecidableEq, Repr

structure LineArg where
  gd : Guard
  base : Base
  off : Src
  deriving DecidableEq, Repr

/-- CPY: `dscr` is a scratchpad destination; `ssp` the source space (R215). -/
structure CpyArg where
  gd : Guard
  db : Base
  sb : Base
  len : Src
  dscr : Bool
  ssp : Space
  bar : Option Base
  tag : BitVec 6
  deriving DecidableEq, Repr

/-- CPYT and CPYG: `desc` is the first register of the descriptor (R215). -/
structure CpydArg where
  gd : Guard
  db : Base
  sb : Base
  desc : BitVec 8
  dscr : Bool
  ssp : Space
  bar : Option Base
  tag : BitVec 6
  deriving DecidableEq, Repr

structure BarArg where
  gd : Guard
  bar : Base
  a : Src
  deriving DecidableEq, Repr

structure BaraArg where
  gd : Guard
  d : Option LDst
  bar : Base
  deriving DecidableEq, Repr

structure TagArg where
  gd : Guard
  a : Src
  deriving DecidableEq, Repr

structure FfrArg where
  gd : Guard
  d : Dst
  a : Src
  clr : Bool
  deriving DecidableEq, Repr

/-- EMIT and QRD: `r` is the first register of the record (R270). -/
structure QueArg where
  gd : Guard
  ds : Bool
  a : Src
  r : BitVec 8
  deriving DecidableEq, Repr

structure QlenArg where
  gd : Guard
  ds : Bool
  d : Dst
  a : Src
  deriving DecidableEq, Repr

structure MloadArg where
  gd : Guard
  a : Src
  b : Src
  deriving DecidableEq, Repr

structure SlotArg where
  gd : Guard
  a : Src
  deriving DecidableEq, Repr

structure MstatArg where
  gd : Guard
  d : BitVec 8
  a : Src
  b : Src
  deriving DecidableEq, Repr

structure WaitArg where
  gd : Guard
  ld : BitVec 6
  st : BitVec 6
  cp : BitVec 6
  tl : BitVec 6
  deriving DecidableEq, Repr

structure DOnly where
  gd : Guard
  d : Dst
  deriving DecidableEq, Repr

structure TrapArg where
  gd : Guard
  n : BitVec 8
  a : Src
  deriving DecidableEq, Repr

structure BrkArg where
  gd : Guard
  n : BitVec 8
  deriving DecidableEq, Repr

structure ServArg where
  gd : Guard
  a : Base
  b : Src
  deriving DecidableEq, Repr

/-! ### The pair and literal forms (03 R70 to R77) -/

/-- Restricted binary operations other than CMP (R76). -/
inductive RBin where
  | add | sub | mul | and | or | xor | andn | shl | shr | sar | mins | minz | maxs | maxz | fadd | fsub | fmul | fmin | fmax
  deriving DecidableEq, Repr

/-- Restricted unary operations (R76). -/
inductive RUn where
  | mov | not | neg
  deriving DecidableEq, Repr

/-- Restricted comparisons (R76): eq and ne carry no signedness. -/
inductive RCmp where
  | eq | ne | lts | ltz | les | lez | gts | gtz | ges | gez
  deriving DecidableEq, Repr

/-- A restricted guard (R70): always, or p0 to p6. -/
abbrev RGuard := Option (Fin 7)

/-- What one half of a pair word does (R71). -/
inductive HalfOp where
  | two (op : RBin) (d : RDst) (s : Src)
  | split (op : RBin) (d : Dst) (a b : BitVec 5)
  | cmp (c : RCmp) (p : PReg) (a b : BitVec 5)
  | una (op : RUn) (d : Dst) (s : Src)
  | ld (dbl : Bool) (sp : Space) (d : LDst) (base : Base)
  | st (dbl : Bool) (scr : Bool) (data : Src) (base : Base)
  | bra (imm : BitVec 8)
  | ret
  deriving DecidableEq, Repr

structure Half where
  gd : RGuard
  op : HalfOp
  deriving DecidableEq, Repr

/-- What a literal word does (R75); `dbl` selects `.d`. -/
inductive LitOp where
  | bin (op : RBin) (dbl : Bool) (d : Dst) (a : Src) (lit : BitVec 32)
  | cmp (c : RCmp) (p : PReg) (a : Src) (lit : BitVec 32)
  | una (op : RUn) (dbl : Bool) (d : Dst) (lit : BitVec 32)
  | ld (dbl : Bool) (sp : Space) (d : LDst) (base : Base) (lit : BitVec 32)
  | st (dbl : Bool) (scr : Bool) (data : Src) (base : Base) (lit : BitVec 32)
  | bra (lit : BitVec 32)
  deriving DecidableEq, Repr

structure LitWord where
  gd : RGuard
  op : LitOp
  deriving DecidableEq, Repr

/-! ### Data that agents and the outside bring to a step -/

/-- An ATS Translation Completion (R335): granted with a host frame and its permissions, or refused. -/
inductive XAns where
  | granted (frame : Nat) (r w : Bool)
  | refused
  deriving DecidableEq, Repr

/-- A PRG Response (R336). -/
inductive PriAns where
  | success | invalid | failure
  deriving DecidableEq, Repr

/-- How a port trained (R387). -/
inductive PortMode where
  | down | cxl | pcie
  deriving DecidableEq, Repr

/-- The firmware image the boot ROM reads (R403): what its checks find and its SVN. -/
structure BootImage where
  edOk : Bool
  mlOk : Bool
  svn : BitVec 16
  digest : BitVec 384
  deriving DecidableEq, Repr, Inhabited

/-- A change of the device's own tables by the operator (R317, R318). -/
inductive TableWrite where
  | part (p : Nat) (e : BitVec 256)
  | vf (v : Nat) (e : BitVec 64)
  deriving DecidableEq, Repr

/-- The operand of a host CXL.mem access (R391). -/
inductive CxlAccess where
  | read (len : Nat)
  | write (data : List Byte)
  deriving DecidableEq, Repr

/-- A transfer arriving over Canopy (R394): the package it names, its TAG, its address, payload and completion word. -/
structure CanopyIn where
  pkg : BitVec 8
  tag : BitVec 16
  va : BitVec 64
  data : List Byte
  cva : BitVec 64
  deriving DecidableEq, Repr

/-- What the Canopy switches bring to a delivery (R397): the element, the op, and what other packages contributed there: their
combined value and their number. -/
structure RedIn where
  elem : BitVec 64
  op : AOp
  dbl : Bool
  val : BitVec 64
  count : Nat
  deriving DecidableEq, Repr

/-- Where an SPDM request comes from, a logical device or from 16 up MCTP, and the measurement it asks for (R404). -/
structure SpdmReq where
  ld : Nat
  idx : Nat
  deriving DecidableEq, Repr

/-- A port's lanes, and its rate in tenths of a GT/s (R387). -/
structure LinkSpeed where
  width : Nat
  rate : Nat
  deriving DecidableEq, Repr

/-- A companion core's partition and a physical address (R333). -/
structure CoreAddr where
  part : Nat
  pa : Nat
  deriving DecidableEq, Repr

/-- One of the 247 rows of the opcode table. -/
inductive Instr where
  | add (x : Alu2) | sub (x : Alu2) | mul (x : Alu2) | mulh (x : Alu2) | mad (x : Alu3) | div (x : Alu2) | rem (x : Alu2)
  | and (x : Log2) | or (x : Log2) | xor (x : Log2) | andn (x : Log2) | orn (x : Log2) | not (x : Log1)
  | shl (x : Log2) | shr (x : Log2) | sar (x : Log2) | rol (x : Log2) | ror (x : Log2) | shf (x : Tri)
  | min (x : Alu2) | max (x : Alu2) | abs (x : Alu1) | neg (x : Alu1)
  | popc (x : Log1) | clz (x : Log1) | ctz (x : Log1) | brev (x : Log1)
  | bfx (x : BfxArg) | bfi (x : BfiArg) | bperm (x : Tri) | sel (x : SelArg) | mov (x : Log1) | lea (x : LeaArg) | cmp (x : CmpArg)
  | pand (x : PredArg) | por (x : PredArg) | pxor (x : PredArg) | pnot (x : PnotArg) | pmov (x : PmovArg)
  | gets (x : GetsArg) | sets (x : SetsArg)
  | fadd (x : F2) | fsub (x : F2) | fmul (x : F2) | ffma (x : F3) | fdiv (x : F2) | fscale (x : F2)
  | fmin (x : F2n) | fmax (x : F2n) | fcmp (x : FcmpArg) | fclass (x : F1)
  | frcp (x : F1r) | fsqrt (x : F1r) | frsq (x : F1) | fexp2 (x : F1) | flog2 (x : F1) | fsin (x : F1) | fcos (x : F1) | ftanh (x : F1)
  | hfma2 (x : F3) | bfma2 (x : F3) | hadd2 (x : H2) | hmul2 (x : H2) | doth2 (x : Doth)
  | cvt (x : CvtArg) | pack (x : PackArg) | unpack (x : UnpackArg) | fmtq (x : FmtqArg) | dot8 (x : DotArg) | dot4 (x : DotArg)
  | mma (x : MmaArg) | mmas (x : MmasArg) | mzero (x : MzeroArg) | mfence (x : GOnly) | ldfr (x : FragArg) | stfr (x : FragArg)
  | mcvt (x : McvtArg) | mtrn (x : MtrnArg)
  | bra (x : BraArg) | call (x : BraArg) | brx (x : BrxArg) | callx (x : BrxArg) | ret (x : GOnly) | pad (x : PadArg)
  | rejoin (x : GOnly) | yld (x : YieldArg) | nop (x : GOnly) | exit (x : GOnly)
  | tcall (x : TcallArg) | tcalls (x : TcallArg) | tret (x : GOnly) | tbar (x : GOnly) | tvote (x : TvoteArg) | txch (x : TxchArg)
  | tmigr (x : TmigrArg) | glaunch (x : TxchArg)
  | ld (x : LdArg) | st (x : StArg) | lda (x : LdaArg) | stl (x : StlArg) | atom (x : AtomArg) | red (x : RedArg)
  | fence (x : FenceArg) | pref (x : PrefArg) | disc (x : LineArg) | clean (x : LineArg)
  | cpy (x : CpyArg) | cpyt (x : CpydArg) | cpyg (x : CpydArg)
  | bari (x : BarArg) | bara (x : BaraArg) | barx (x : BarArg) | barw (x : BarArg)
  | waitany (x : TagArg) | waitall (x : TagArg) | ffr (x : FfrArg)
  | emit (x : QueArg) | qrd (x : QueArg) | qlen (x : QlenArg)
  | mload (x : MloadArg) | marm (x : SlotArg) | mdis (x : SlotArg) | mstat (x : MstatArg)
  | wait (x : WaitArg) | cntr (x : DOnly) | amb (x : DOnly) | boost (x : F1)
  | trap (x : TrapArg) | brk (x : BrkArg) | serv (x : ServArg)
  | pairFormWord (h1 h2 : Half) | literalFormWord (x : LitWord)
  -- steps of the cores' own engines
  | permitRetry (slot : Nat) | loadComplete (op : Nat) | storePerformed (op : Nat) | atomicPerformed (op : Nat)
  | fragmentAccessComplete (op : Nat) | matrixEntryAdmit (core : Nat) | matrixGrant (copse : Nat)
  | matrixComplete (copse entry : Nat) | copyStart (core : Nat) | copyComplete (op : Nat)
  | tcallEntryGrant (team ctx : Nat) | regroupReadmit (core rec : Nat) | rejoinHoldTimeout (slot : Nat)
  | yieldBackoffEnd (slot : Nat) | pollBackoffEnd (slot : Nat)
  -- teams, grids, amber, boost
  | teamMigration (team : Nat) | teamRetire (team : Nat) | gridRetire (grid : Nat)
  | gridCreate (req : Nat) (gid : BitVec 32) | placerStep (part : Nat)
  | amberRevolution (grove : Nat) | boostRefill | boostLeaseExpire (part ctx : Nat) | droopStretch (grove : Nat)
  | arbitrationEscalate (op : Nat)
  -- queues
  | hostAppend (ld stream off : Nat) (data : List Byte) | emitAccept (op : Nat) | stalledAppendAdmit (stream : Nat)
  | qrdServe (op : Nat) | qlenSample (op : Nat) | queueTableWrite (part stream k : Nat) (v : BitVec 64)
  | fbptrHeadWrite (part : Nat) (head : BitVec 32) | fbdoneReplay (part : Nat) (idx : BitVec 32)
  | fbdoneFail (part : Nat) (idx : BitVec 32) (code : BitVec 8)
  -- automata
  | mloadAtUnit (op : Nat) | marmAtUnit (op : Nat) | mdisAtUnit (op : Nat) | mstatSample (op : Nat)
  | rowanTakeEvent (slot : Nat) | rowanTakeTimer (slot : Nat) | watermarkExpire (slot : Nat)
  | rowanEmitAccepted (slot : Nat) | rowanRoomFreed (slot : Nat) | candidateMove (slot seq : Nat)
  -- translation and heat
  | tlbiStart (part : Nat) (v : BitVec 64) | tlbiComplete (part : Nat)
  | translationCompletion (ld pasid vpn : Nat) (ans : XAns) | invalidateRequest (ld pasid vpn log : Nat)
  | invalidationCompletion (ld : Nat)
  | priReqSend (part : Nat) (v : BitVec 64) | priReqSelect (part : Nat) (v : BitVec 64)
  | prgResponse (part prg : Nat) (ans : PriAns)
  | heatSweep (part line : Nat) | htcWrite (part : Nat) (v : BitVec 64) | hrdvRead (part : Nat)
  -- park window, services
  | pkcmdReplay (core : Nat) (rec : Fin 4) | pkcmdSkip (core : Nat) (rec : Fin 4) | pkcmdKill (core : Nat) (rec : Fin 4)
  | pkcmdDetach (core : Nat) (rec : Fin 4) | pkipClear (core : Nat) (v : BitVec 64)
  | threadViewWrite (core off : Nat) (v : BitVec 64) (wide : Bool) | svreplyDeliver (part : Nat) (v : BitVec 64)
  -- control-window commands
  | slcmdMload (part slot : Nat) | slcmdMarm (part slot : Nat) | slcmdMdis (part slot : Nat) | slcmdMstat (part slot : Nat)
  | lbcmdBind (part : Nat) (ctx : BitVec 16) (entry : Nat) | lbcmdUnbind (part : Nat)
  | vacateGo (part : Nat) (v : BitVec 64) | vacateRelease (part : Nat) (v : BitVec 64)
  | quantumEntryWrite (part k : Nat) (v : BitVec 64) | quantumExpire (part : Nat)
  -- saves and rollback
  | contextSave (part ctx : Nat) | contextRestore (part ctx : Nat) | teamSave (team : Nat) | teamRestore (part : Nat)
  | rollbackCheckpoint (team : Nat) | rollback (team : Nat)
  -- mailbox
  | setOp (ld : Nat) | setState (ld : Nat) | bind (ld entry : Nat) | unbind (ld : Nat) | qset (ld : Nat)
  | slotMload (ld : Nat) | slotMarm (ld : Nat) | slotMdis (ld : Nat) | slotMstat (ld : Nat)
  | kill (ld : Nat) | qtab (ld : Nat) | image (ld : Nat)
  -- power, tables, bring-up
  | railTransitionStep (reg : Fin 4) | powerCapWrite (watts : Nat) | partitionTableWrite (x : TableWrite)
  | svnCommand | spdmRequest (x : SpdmReq) | deviceReset (img : Option BootImage) | thermalTrip (temp : Nat)
  | linkTrain (port : Fin 4) (mode : PortMode) (speed : LinkSpeed)
  -- host memory, CXL, Canopy
  | hostCxlMemAccess (ld hpa : Nat) (x : CxlAccess) | hostAtomicopToBar (ld : Nat) | cxlSnoop (ld line : Nat)
  | atomicopCompletion (op : Nat) (ok : Bool) | uioTimeout (op : Nat)
  | canopyOpStart (part i : Nat) | canopyPutComplete (n : Nat) | canopyAllreduceComplete (n : Nat) (others : Option (List (List Word)))
  | canopyTimeout (n : Nat) | canopyTransferIn (x : CanopyIn)
  | reductionDeliver (part n : Nat) (x : RedIn) | rwinClear (part n : Nat)
  | controlRegisterWrite (part : Nat) (off : Nat) (v : BitVec 64)
  | instructionFetch (slot : Nat) | cxlCacheOwnership (op : Nat) (granted : Bool)
  | companionCoreWrite (dst : CoreAddr) (key : Fin 16) (data : List Byte) | powerRemoval
  deriving DecidableEq, Repr

end Sys2Proof
end

