-- ==== Sys2Proof/Machine/Arith.lean ====
section
/-!
DEFINITION. The integer results of majors 0x00 to 0x1F (04 R90 to R103). Operands are read as exact integers, the result
is computed exactly and narrowed to W bits at the end (R90). A value of width W stands in the low W bits of a DWord.
-/

namespace Sys2Proof.Machine

/-- W (R90). -/
def wid (w : Bool) : Nat := if w then 64 else 32

/-- z(v) at width W. -/
def zv (w : Bool) (v : DWord) : Nat := v.toNat % 2 ^ wid w

/-- s(v) at width W. -/
def sv (w : Bool) (v : DWord) : Int :=
  let z := zv w v
  if 2 ^ (wid w - 1) ≤ z then (z : Int) - (2 ^ wid w : Nat) else z

/-- X(v): z(v) under `.z`, else s(v) (R90). -/
def xv (sg : Sg) (w : Bool) (v : DWord) : Int := if sg = .z then zv w v else sv w v

/-- An integer modulo 2^W. -/
def nar (w : Bool) (x : Int) : DWord := BitVec.ofNat 64 (x % (2 ^ wid w : Nat)).toNat

/-- The binary operations of R92 and R94. -/
inductive IOp where
  | add | sub | mul | mulh | and | or | xor | andn | orn | min | max | div | rem
  deriving DecidableEq, Repr

/-- The quotient of R94. -/
def divOf (sg : Sg) (w : Bool) (a b : DWord) : DWord :=
  if zv w b = 0 then nar w (-1)
  else if sg = .z then nar w (zv w a / zv w b : Nat)
  else nar w ((sv w a).tdiv (sv w b))

/-- The remainder of R94: the dividend when B is zero. -/
def remOf (sg : Sg) (w : Bool) (a b : DWord) : DWord :=
  if zv w b = 0 then nar w (zv w a)
  else if sg = .z then nar w (zv w a % zv w b : Nat)
  else nar w ((sv w a).tmod (sv w b))

/-- The result of a binary integer operation. -/
def IOp.result (op : IOp) (sg : Sg) (w : Bool) (a b : DWord) : DWord :=
  match op with
  | .add => nar w (zv w a + zv w b : Nat)
  | .sub => nar w ((zv w a : Int) - zv w b)
  | .mul => nar w (zv w a * zv w b : Nat)
  | .mulh => nar w (xv sg w a * xv sg w b / (2 ^ wid w : Nat))
  | .and => nar w (zv w a &&& zv w b : Nat)
  | .or => nar w (zv w a ||| zv w b : Nat)
  | .xor => nar w (zv w a ^^^ zv w b : Nat)
  | .andn => nar w (zv w (a &&& ~~~b))
  | .orn => nar w (zv w (a ||| ~~~b))
  | .min => if xv sg w a ≤ xv sg w b then nar w (zv w a) else nar w (zv w b)
  | .max => if xv sg w b ≤ xv sg w a then nar w (zv w a) else nar w (zv w b)
  | .div => divOf sg w a b
  | .rem => remOf sg w a b

/-- MAD (R93). -/
def madOf (w : Bool) (a b c : DWord) : DWord := nar w (zv w a * zv w b + zv w c : Nat)

/-- The shifts and rotates of R95. -/
inductive SOp where
  | shl | shr | sar | rol | ror
  deriving DecidableEq, Repr

/-- The amount modulo W, from B read as 32 bits. -/
def amount (w : Bool) (b : DWord) : Nat := b.toNat % wid w

def SOp.result (op : SOp) (w : Bool) (a b : DWord) : DWord :=
  let n := amount w b
  match op with
  | .shl => nar w (zv w a * 2 ^ n : Nat)
  | .shr => nar w (zv w a / 2 ^ n : Nat)
  | .sar => nar w (sv w a / (2 ^ n : Nat))
  | .rol => nar w (zv w a * 2 ^ n + zv w a / 2 ^ (wid w - n) : Nat)
  | .ror => nar w (zv w a / 2 ^ n + zv w a * 2 ^ (wid w - n) : Nat)

/-- SHF (R96). -/
def shfOf (a b c : DWord) : DWord :=
  nar false ((zv false a * 2 ^ 32 + zv false b) / 2 ^ (c.toNat % 64) : Nat)

/-- NOT, NEG, ABS, MOV (R97). -/
inductive UOp where
  | not | neg | abs | mov
  deriving DecidableEq, Repr

def UOp.result (op : UOp) (w : Bool) (a : DWord) : DWord :=
  match op with
  | .not => nar w ((2 ^ wid w : Nat) - 1 - (zv w a : Int))
  | .neg => nar w (-(zv w a : Int))
  | .abs => nar w (if 0 ≤ sv w a then sv w a else -sv w a)
  | .mov => nar w (zv w a)

/-- The number of 1 bits among the low `k` bits. -/
def popcount : Nat → Nat → Nat
  | 0, _ => 0
  | k + 1, v => v % 2 + popcount k (v / 2)

/-- The number of 0 bits below the lowest 1 bit, at most `k`. -/
def trailing : Nat → Nat → Nat
  | 0, _ => 0
  | k + 1, v => if v % 2 = 1 then 0 else 1 + trailing k (v / 2)

/-- The low `k` bits in reverse order. -/
def reverseBits : Nat → Nat → Nat
  | 0, _ => 0
  | k + 1, v => v % 2 * 2 ^ k + reverseBits k (v / 2)

/-- POPC, CLZ, CTZ, BREV (R98). -/
inductive BOp where
  | popc | clz | ctz | brev
  deriving DecidableEq, Repr

def BOp.result (op : BOp) (w : Bool) (a : DWord) : DWord :=
  match op with
  | .popc => BitVec.ofNat 64 (popcount (wid w) (zv w a))
  | .clz => BitVec.ofNat 64 (trailing (wid w) (reverseBits (wid w) (zv w a)))
  | .ctz => BitVec.ofNat 64 (trailing (wid w) (zv w a))
  | .brev => BitVec.ofNat 64 (reverseBits (wid w) (zv w a))

/-- BFX (R99): a field cut at bit W - 1 takes its sign there. -/
def bfxOf (sg : Sg) (w : Bool) (a b : DWord) (len : Nat) : DWord :=
  let pos := amount w b
  let l := min len (wid w - pos)
  let f := zv w a / 2 ^ pos % 2 ^ l
  if l = 0 then 0
  else if sg = .z then nar w f
  else nar w (if 2 ^ (l - 1) ≤ f then (f : Int) - (2 ^ l : Nat) else f)

/-- BFI (R99). -/
def bfiOf (w : Bool) (a b c : DWord) (len : Nat) : DWord :=
  let pos := amount w c
  let l := min len (wid w - pos)
  let old := zv w b / 2 ^ pos % 2 ^ l
  nar w (zv w b - old * 2 ^ pos + zv w a % 2 ^ l * 2 ^ pos : Nat)

/-- BPERM (R100). -/
def bpermOf (a b c : DWord) : DWord :=
  let v := zv false b * 2 ^ 32 + zv false a
  let byte (i : Nat) : Nat :=
    let k := c.toNat / 2 ^ (4 * i) % 16
    if 8 ≤ k then 0 else v / 2 ^ (8 * k) % 256
  BitVec.ofNat 64 (byte 0 + 2 ^ 8 * byte 1 + 2 ^ 16 * byte 2 + 2 ^ 24 * byte 3)

/-- LEA (R102): B is 32 bits. -/
def leaOf (sg : Sg) (w : Bool) (a b : DWord) (n : Nat) : DWord :=
  nar w ((zv w a : Int) + xv sg false b * (2 ^ n : Nat))

/-- CMP's predicate (R103). -/
def cmpOf (c : Cond) (sg : Sg) (w : Bool) (a b : DWord) : Bool :=
  match c with
  | .eq => zv w a == zv w b
  | .ne => zv w a != zv w b
  | .lt => decide (xv sg w a < xv sg w b)
  | .le => decide (xv sg w a ≤ xv sg w b)
  | .gt => decide (xv sg w b < xv sg w a)
  | .ge => decide (xv sg w b ≤ xv sg w a)
  | .tst => (zv w a &&& zv w b) != 0

end Sys2Proof.Machine
end

