-- ==== Sys2Proof/WellFormed.lean ====
section
/-!
DEFINITION. Which instruction words the decoder accepts: the operand, subfield and pairing checks that the types of
Syntax.lean do not already make (03 R63 to R79 and the encoding tables of 04 to 16). Each check names the encoding
fault it raises; a well-formed instruction raises none.
-/

namespace Sys2Proof

/-- The encoding faults the decoder raises (R79), lowest code first. -/
inductive EncFault where
  /-- 0x01: unassigned opcode. -/
  | unassigned
  /-- 0x02: a reserved bit or value. -/
  | reserved
  /-- 0x03: a guard that names no predicate. -/
  | guard
  /-- 0x05: a pair word that breaks R72. -/
  | pairing
  /-- 0x06: an operand that is not admitted. -/
  | operand
  deriving DecidableEq, Repr

/-- The fault code of an encoding fault. -/
def EncFault.code : EncFault → BitVec 8
  | .unassigned => 0x01
  | .reserved => 0x02
  | .guard => 0x03
  | .pairing => 0x05
  | .operand => 0x06

/-- The lowest code of a list of encoding faults (R79). -/
def lowestCode : List EncFault → Option (BitVec 8)
  | [] => none
  | e :: es =>
    match lowestCode es with
    | none => some e.code
    | some c => some (if e.code.toNat ≤ c.toNat then e.code else c)

/-- A fault unless `b`. -/
def need (b : Bool) (e : EncFault) : List EncFault := if b then [] else [e]

/-! ### Operands against the allocation (R63, R65) -/

/-- A main-file index: below the allocation, and even in a 64-bit position. -/
def chkG (regs : Nat) (wide : Bool) (i : BitVec 8) : List EncFault :=
  need (decide (i.toNat < regs) && (!wide || i.toNat % 2 == 0)) .operand

/-- A range of `n` main-file registers from an index that is a multiple of `al`. -/
def chkRange (regs n al : Nat) (i : BitVec 8) : List EncFault :=
  need (decide (i.toNat + n ≤ regs) && i.toNat % al == 0) .operand

def Src.chk (regs : Nat) (wide : Bool) : Src → List EncFault
  | .g i => chkG regs wide i
  | .o _ => []
  | .lat => []
  | .imm _ => []

def Dst.chk (regs : Nat) (wide : Bool) : Dst → List EncFault
  | .g i => chkG regs wide i
  | .o _ => []
  | .lat => []
  | .discard => []

def RDst.chk (regs : Nat) (wide : Bool) : RDst → List EncFault
  | .g i => chkG regs wide i
  | .o _ => []
  | .lat => []

def Base.chk (regs : Nat) (wide : Bool) : Base → List EncFault
  | .g i => chkG regs wide i
  | .o _ => []
  | .lat => []

def MW.wide : MW → Bool
  | .d => true
  | _ => false

/-- A load destination by its width (R195). -/
def LDst.chk (regs : Nat) (mw : MW) : LDst → List EncFault
  | .g i => match mw with
    | .q => chkRange regs 4 4 i
    | _ => chkG regs mw.wide i
  | .o _ => need (mw != .q) .operand

/-- Store data by its width (R195). -/
def chkData (regs : Nat) (mw : MW) (s : Src) : List EncFault :=
  match mw with
  | .q => match s with
    | .g i => chkRange regs 4 4 i
    | _ => [.operand]
  | _ => s.chk regs mw.wide

/-- A memory base: a pair in space `.g`, else a 32-bit register (R179). -/
def chkBase (regs : Nat) (sp : Space) (b : Base) : List EncFault := b.chk regs (sp == Space.g)

def optChk {α : Type} (f : α → List EncFault) : Option α → List EncFault
  | none => []
  | some a => f a

/-- Two register ranges meet. -/
def overlap (a n b m : Nat) : Bool := decide (a < b + m) && decide (b < a + n)

/-! ### The checks of each bundle -/

def Alu2.chk (r : Nat) (x : Alu2) : List EncFault := x.d.chk r x.w ++ x.a.chk r x.w ++ x.b.chk r x.w
def Log2.chk (r : Nat) (x : Log2) : List EncFault := x.d.chk r x.w ++ x.a.chk r x.w ++ x.b.chk r x.w
/-- Shifts and rotates: B is a 32-bit operand (R91). -/
def Log2.chkShift (r : Nat) (x : Log2) : List EncFault := x.d.chk r x.w ++ x.a.chk r x.w ++ x.b.chk r false
def Alu3.chk (r : Nat) (x : Alu3) : List EncFault := x.d.chk r x.w ++ x.a.chk r x.w ++ x.b.chk r x.w ++ x.c.chk r x.w
def Tri.chk (r : Nat) (x : Tri) : List EncFault := x.d.chk r false ++ x.a.chk r false ++ x.b.chk r false ++ x.c.chk r false
def Alu1.chk (r : Nat) (x : Alu1) : List EncFault := x.d.chk r x.w ++ x.a.chk r x.w
def Log1.chk (r : Nat) (x : Log1) : List EncFault := x.d.chk r x.w ++ x.a.chk r x.w
/-- POPC, CLZ, CTZ: a 32-bit D (R98). -/
def Log1.chkCount (r : Nat) (x : Log1) : List EncFault := x.d.chk r false ++ x.a.chk r x.w
def lenOk (len : BitVec 7) (w : Bool) : List EncFault := need (decide (len.toNat ≤ if w then 64 else 32)) .reserved
def BfxArg.chk (r : Nat) (x : BfxArg) : List EncFault :=
  x.d.chk r x.w ++ x.a.chk r x.w ++ x.b.chk r false ++ lenOk x.len x.w
def BfiArg.chk (r : Nat) (x : BfiArg) : List EncFault :=
  x.d.chk r x.w ++ x.a.chk r x.w ++ x.b.chk r x.w ++ x.c.chk r false ++ lenOk x.len x.w
def SelArg.chk (r : Nat) (x : SelArg) : List EncFault := x.d.chk r x.w ++ x.a.chk r x.w ++ x.b.chk r x.w
def LeaArg.chk (r : Nat) (x : LeaArg) : List EncFault := x.d.chk r x.w ++ x.a.chk r x.w ++ x.b.chk r false
def CmpArg.chk (r : Nat) (x : CmpArg) : List EncFault := x.a.chk r x.w ++ x.b.chk r x.w
def PmovArg.chk (r : Nat) (x : PmovArg) : List EncFault :=
  match x.dir with
  | .toReg d => d.chk r false
  | .fromReg a b => a.chk r false ++ b.chk r false
def F2.chk (r : Nat) (x : F2) : List EncFault := x.d.chk r false ++ x.a.chk r false ++ x.b.chk r false
def F2n.chk (r : Nat) (x : F2n) : List EncFault := x.d.chk r false ++ x.a.chk r false ++ x.b.chk r false
def F3.chk (r : Nat) (x : F3) : List EncFault := x.d.chk r false ++ x.a.chk r false ++ x.b.chk r false ++ x.c.chk r false
def RTy.wide : RTy → Bool
  | .s64 => true
  | .z64 => true
  | _ => false
def CvtArg.chk (r : Nat) (x : CvtArg) : List EncFault :=
  x.d.chk r (x.rt.wide && !x.toSlot) ++ x.a.chk r (x.rt.wide && x.toSlot)
def DotArg.chk (r : Nat) (x : DotArg) : List EncFault :=
  x.d.chk r false ++ x.a.chk r false ++ x.b.chk r false ++ optChk (Src.chk r false) x.s

/-- MMA: the ranges, and A and B clear of D, and C equal to D or clear of it (R146). -/
def MmaArg.chk (r : Nat) (x : MmaArg) : List EncFault :=
  chkRange r 32 1 x.d ++ chkRange r 16 1 x.a ++ chkRange r 16 1 x.b ++ optChk (chkRange r 32 1) x.c
    ++ need (!overlap x.d.toNat 32 x.a.toNat 16 && !overlap x.d.toNat 32 x.b.toNat 16) .operand
    ++ optChk (fun c => need (c == x.d || !overlap c.toNat 32 x.d.toNat 32) .operand) x.c
def MmasArg.chk (r : Nat) (x : MmasArg) : List EncFault :=
  chkRange r 32 1 x.d ++ chkRange r 16 1 x.a ++ chkRange r 16 1 x.b ++ chkRange r 2 1 x.s
    ++ need (!overlap x.d.toNat 32 x.a.toNat 16 && !overlap x.d.toNat 32 x.b.toNat 16
        && !overlap x.d.toNat 32 x.s.toNat 2) .operand
/-- The registers of an `.ab` (16) or `.cd` (32) fragment. -/
def fragLen (cd : Bool) : Nat := if cd then 32 else 16
def FragArg.chk (r : Nat) (x : FragArg) : List EncFault :=
  chkRange r (fragLen x.cd) 1 x.r ++ chkG r (x.sp == Space.g) x.base ++ x.stride.chk r false
def McvtArg.chk (r : Nat) (x : McvtArg) : List EncFault :=
  chkRange r 16 1 x.d ++ chkRange r 32 1 x.a ++ need (!overlap x.d.toNat 16 x.a.toNat 32) .operand
def MtrnArg.chk (r : Nat) (x : MtrnArg) : List EncFault :=
  let n := fragLen x.w32
  chkRange r n 1 x.d ++ chkRange r n 1 x.a ++ need (x.a == x.d || !overlap x.d.toNat n x.a.toNat n) .operand

def LdArg.chk (r : Nat) (x : LdArg) : List EncFault :=
  x.d.chk r x.w ++ chkBase r x.sp x.base ++ x.off.chk r false
    ++ need (x.sp != .s || x.hint == .none) .reserved ++ need (!x.sx || x.w == .b || x.w == .h) .reserved
def StArg.chk (r : Nat) (x : StArg) : List EncFault :=
  chkData r x.w x.data ++ chkBase r x.sp x.base ++ x.off.chk r false
    ++ need (x.sp != .s || x.hint == .none) .reserved ++ need (x.sp != .k) .reserved
def LdaArg.chk (r : Nat) (x : LdaArg) : List EncFault :=
  x.d.chk r x.w ++ chkBase r x.sp x.base ++ x.off.chk r false ++ need (x.sp != .s || x.hint == .none) .reserved
def StlArg.chk (r : Nat) (x : StlArg) : List EncFault :=
  chkData r x.w x.data ++ chkBase r x.sp x.base ++ x.off.chk r false
    ++ need (x.sp != .s || x.hint == .none) .reserved ++ need (x.sp != .k) .reserved
def wOf (d : Bool) : MW := if d then .d else .w
def AtomArg.chk (r : Nat) (x : AtomArg) : List EncFault :=
  optChk (LDst.chk r (wOf x.w)) x.d ++ x.base.chk r (!x.scr) ++ x.b.chk r x.w ++ optChk (Src.chk r x.w) x.c
    ++ need (x.op != .fadd || !x.w) .reserved ++ need ((x.op == .cas) == x.c.isSome) .reserved
def RedArg.chk (r : Nat) (x : RedArg) : List EncFault :=
  x.base.chk r (!x.scr) ++ x.b.chk r x.w
    ++ need (x.op != .fadd || !x.w) .reserved ++ need (x.op != .xchg && x.op != .cas) .reserved
def PrefArg.chk (r : Nat) (x : PrefArg) : List EncFault := x.base.chk r (!x.konst) ++ x.off.chk r false
def LineArg.chk (r : Nat) (x : LineArg) : List EncFault := x.base.chk r true ++ x.off.chk r false
def CpyArg.chk (r : Nat) (x : CpyArg) : List EncFault :=
  x.db.chk r (!x.dscr) ++ chkBase r x.ssp x.sb ++ x.len.chk r false ++ optChk (Base.chk r false) x.bar
/-- CPYT (8 registers) and CPYG (4 registers). -/
def CpydArg.chk (r n : Nat) (x : CpydArg) : List EncFault :=
  x.db.chk r (!x.dscr) ++ chkBase r x.ssp x.sb ++ chkRange r n n x.desc ++ optChk (Base.chk r false) x.bar
def BarArg.chk (r : Nat) (x : BarArg) : List EncFault := x.bar.chk r false ++ x.a.chk r false
def BaraArg.chk (r : Nat) (x : BaraArg) : List EncFault := optChk (LDst.chk r .w) x.d ++ x.bar.chk r false
def TagArg.chk (r : Nat) (x : TagArg) : List EncFault := x.a.chk r true
def FfrArg.chk (r : Nat) (x : FfrArg) : List EncFault := x.d.chk r false ++ x.a.chk r true
def QueArg.chk (r : Nat) (x : QueArg) : List EncFault := x.a.chk r false ++ chkRange r 8 8 x.r
def QlenArg.chk (r : Nat) (x : QlenArg) : List EncFault := x.d.chk r false ++ x.a.chk r false
def TcallArg.chk (r : Nat) (aWide : Bool) (x : TcallArg) : List EncFault := x.a.chk r aWide ++ x.b.chk r false
def TvoteArg.chk (r : Nat) (x : TvoteArg) : List EncFault :=
  match x.mode with
  | .ballot d b => d.chk r true ++ b.chk r false
  | .count d => d.chk r false
  | _ => []
/-- D is as wide as A: a register pair under `.d`, since it takes a value of A (R157, R170; log 74). -/
def TxchArg.chk (r : Nat) (x : TxchArg) : List EncFault := x.d.chk r x.w ++ x.a.chk r x.w ++ x.b.chk r false

/-! ### Pair and literal words -/

/-- What a half of a pair word reads and writes, as far as R72 asks. -/
structure HalfUse where
  /-- main-file registers read -/
  reads : List Nat
  /-- main-file registers written -/
  gs : List Nat
  os : List Nat
  ps : List Nat
  lat : Bool
  mem : Bool
  ctl : Bool
  deriving DecidableEq, Repr

def HalfUse.none : HalfUse := ⟨[], [], [], [], false, false, false⟩

def gOf (i : BitVec 8) (wide : Bool) : List Nat := if wide then [i.toNat, i.toNat + 1] else [i.toNat]

def Src.gRead (wide : Bool) : Src → List Nat
  | .g i => gOf i wide
  | _ => []

def Base.gRead (wide : Bool) : Base → List Nat
  | .g i => gOf i wide
  | _ => []

def HalfUse.withDst (u : HalfUse) (wide : Bool) : Dst → HalfUse
  | .g i => { u with gs := gOf i wide }
  | .o i => { u with os := [i.toNat] }
  | .lat => { u with lat := true }
  | .discard => u

def RDst.toDst : RDst → Dst
  | .g i => .g i
  | .o i => .o i
  | .lat => .lat

def RDst.toSrc : RDst → Src
  | .g i => .g i
  | .o i => .o i
  | .lat => .lat

def LDst.toDst : LDst → Dst
  | .g i => .g i
  | .o i => .o i

/-- What a half reads and writes (R72). -/
def HalfOp.use : HalfOp → HalfUse
  | .two _ d s => ({ HalfUse.none with reads := d.toSrc.gRead false ++ s.gRead false }).withDst false d.toDst
  | .split _ d a b => ({ HalfUse.none with reads := [a.toNat, b.toNat] }).withDst false d
  | .cmp _ p a b => { HalfUse.none with reads := [a.toNat, b.toNat], ps := [p.val] }
  | .una _ d s => ({ HalfUse.none with reads := s.gRead false }).withDst false d
  | .ld dbl sp d base => ({ HalfUse.none with reads := base.gRead (sp == Space.g), mem := true }).withDst dbl d.toDst
  | .st dbl scr data base => { HalfUse.none with reads := data.gRead dbl ++ base.gRead (!scr), mem := true }
  | .bra _ => { HalfUse.none with ctl := true }
  | .ret => { HalfUse.none with ctl := true }

/-- Some element of the first list is in the second. -/
def meets (a b : List Nat) : Bool := a.any (fun x => b.contains x)

/-- The four pairing rules of R72. -/
def pairOk (u v : HalfUse) : Bool :=
  !meets (u.reads.map (· % 4)) (v.reads.map (· % 4))
    && !meets u.gs v.gs && !meets u.os v.os && !meets u.ps v.ps && !(u.lat && v.lat)
    && !(u.mem && v.mem) && !u.ctl

def chk5 (regs : Nat) (i : BitVec 5) : List EncFault := need (decide (i.toNat < regs)) .operand

def HalfOp.chk (r : Nat) : HalfOp → List EncFault
  | .two _ d s => d.chk r false ++ s.chk r false
  | .split _ d a b => d.chk r false ++ chk5 r a ++ chk5 r b
  | .cmp _ _ a b => chk5 r a ++ chk5 r b
  | .una _ d s => d.chk r false ++ s.chk r false
  | .ld dbl sp d base => d.chk r (wOf dbl) ++ chkBase r sp base
  | .st dbl scr data base => data.chk r dbl ++ base.chk r (!scr)
  | .bra _ => []
  | .ret => []

/-- The restricted codes whose literal form has a `.d` (R76). -/
def RBin.hasD : RBin → Bool
  | .add => true
  | .sub => true
  | .and => true
  | .or => true
  | .xor => true
  | _ => false

/-- A `.d` operand of a literal word: neither the operand file nor the latch (R77). -/
def Src.noOL : Src → List EncFault
  | .o _ => [.operand]
  | .lat => [.operand]
  | _ => []

def Dst.noOL : Dst → List EncFault
  | .o _ => [.operand]
  | .lat => [.operand]
  | _ => []

def LitOp.chk (r : Nat) : LitOp → List EncFault
  | .bin op dbl d a _ => need (!dbl || op.hasD) .reserved ++ d.chk r dbl ++ a.chk r dbl
      ++ (if dbl then d.noOL ++ a.noOL else [])
  | .cmp _ _ a _ => a.chk r false
  | .una op dbl d _ => need (!dbl || op == .mov) .reserved ++ d.chk r dbl ++ (if dbl then d.noOL else [])
  | .ld dbl sp d base _ => d.chk r (wOf dbl) ++ chkBase r sp base
  | .st dbl scr data base _ => data.chk r dbl ++ base.chk r (!scr)
  | .bra lit => need (lit.toNat % 8 == 0) .operand

/-! ### All instructions -/

/-- The encoding faults an instruction word holds under an allocation of `r` registers (R79). A step of an agent or of
the outside has no encoding and holds none. -/
def Instr.chk (r : Nat) : Instr → List EncFault
  | .add x | .sub x | .mul x | .mulh x | .div x | .rem x | .min x | .max x => x.chk r
  | .mad x => x.chk r
  | .and x | .or x | .xor x | .andn x | .orn x => x.chk r
  | .shl x | .shr x | .sar x | .rol x | .ror x => x.chkShift r
  | .not x | .mov x | .brev x => x.chk r
  | .popc x | .clz x | .ctz x => x.chkCount r
  | .shf x | .bperm x => x.chk r
  | .abs x => x.chk r ++ need (x.sg != .z) .reserved
  | .neg x => x.chk r
  | .bfx x => x.chk r
  | .bfi x => x.chk r
  | .sel x => x.chk r
  | .lea x => x.chk r
  | .cmp x => x.chk r
  | .pand _ | .por _ | .pxor _ | .pnot _ => []
  | .pmov x => x.chk r
  | .gets x => x.d.chk r x.w
  | .sets x => x.a.chk r x.w
  | .fadd x | .fsub x | .fmul x | .fdiv x | .fscale x => x.chk r
  | .ffma x | .hfma2 x | .bfma2 x => x.chk r
  | .fmin x | .fmax x => x.chk r
  | .fcmp x => x.a.chk r false ++ x.b.chk r false
  | .frcp x | .fsqrt x => x.d.chk r false ++ x.a.chk r false
  | .fclass x | .frsq x | .fexp2 x | .flog2 x | .fsin x | .fcos x | .ftanh x | .boost x => x.d.chk r false ++ x.a.chk r false
  | .hadd2 x | .hmul2 x => x.d.chk r false ++ x.a.chk r false ++ x.b.chk r false
  | .doth2 x => x.d.chk r false ++ x.a.chk r false ++ x.b.chk r false
  | .cvt x => x.chk r
  | .pack x => x.d.chk r false ++ x.a.chk r false ++ x.b.chk r false
  | .unpack x => x.d.chk r false ++ x.a.chk r false
  | .fmtq x => x.d.chk r false ++ x.a.chk r false
  | .dot8 x | .dot4 x => x.chk r
  | .mma x => x.chk r
  | .mmas x => x.chk r
  | .mzero x => chkRange r (fragLen x.cd) 1 x.d
  | .ldfr x => x.chk r
  | .stfr x => x.chk r ++ need (x.sp != .k) .reserved
  | .mcvt x => x.chk r
  | .mtrn x => x.chk r
  | .bra _ | .call _ | .pad _ => []
  | .brx x | .callx x => x.a.chk r true
  | .mfence _ | .ret _ | .rejoin _ | .nop _ | .exit _ | .tret _ | .tbar _ => []
  | .yld x => need (decide (x.k.toNat ≤ 6)) .reserved
  | .tcall x => x.chk r true
  | .tcalls x => x.chk r false
  | .tvote x => x.chk r
  | .txch x => x.chk r
  | .tmigr x => x.a.chk r false
  | .glaunch x => x.chk r ++ need (!x.w) .reserved
  | .ld x => x.chk r
  | .st x => x.chk r
  | .lda x => x.chk r
  | .stl x => x.chk r
  | .atom x => x.chk r
  | .red x => x.chk r
  | .fence _ => []
  | .pref x => x.chk r
  | .disc x | .clean x => x.chk r
  | .cpy x => x.chk r
  | .cpyt x => x.chk r 8
  | .cpyg x => x.chk r 4
  | .bari x | .barx x | .barw x => x.chk r
  | .bara x => x.chk r
  | .waitany x | .waitall x => x.chk r
  | .ffr x => x.chk r
  | .emit x | .qrd x => x.chk r
  | .qlen x => x.chk r
  | .mload x => x.a.chk r false ++ x.b.chk r true
  | .marm x | .mdis x => x.a.chk r false
  | .mstat x => chkG r true x.d ++ x.a.chk r false ++ x.b.chk r false
  | .wait _ => []
  | .cntr x | .amb x => x.d.chk r false
  | .trap x => x.a.chk r true
  | .brk _ => []
  | .serv x => x.a.chk r false ++ x.b.chk r false
  | .pairFormWord h k => h.op.chk r ++ k.op.chk r ++ need (pairOk h.op.use k.op.use) .pairing
  | .literalFormWord x => x.op.chk r
  | _ => []

/-- The instruction holds no encoding fault under an allocation of `r` registers. -/
def Instr.wf (r : Nat) (i : Instr) : Bool := i.chk r == []

end Sys2Proof
end

