-- ==== Sys2Proof/Decode.lean ====
section
/-!
DEFINITION. The decoder of instruction words (03 R59 to R79 and the encoding tables of 04 to 16), total on every word and
on any bytes, and after it the encoder. Decoding collects every encoding fault a word holds; the lowest code is raised
(R79). Field positions are those of R61, R70 and R74.
-/

namespace Sys2Proof

/-! ### Codes of the enumerated subfields -/

def Sg.code : Sg → BitVec 2 | .none => 0 | .s => 1 | .z => 2
def Sg.ofCode (c : BitVec 2) : Option Sg :=
  if c = 0 then some .none else if c = 1 then some .s else if c = 2 then some .z else Option.none

def Cond.code : Cond → BitVec 3 | .eq => 0 | .ne => 1 | .lt => 2 | .le => 3 | .gt => 4 | .ge => 5 | .tst => 6
def Cond.ofCode (c : BitVec 3) : Option Cond :=
  if c = 0 then some .eq else if c = 1 then some .ne else if c = 2 then some .lt else if c = 3 then some .le
  else if c = 4 then some .gt else if c = 5 then some .ge else if c = 6 then some .tst else none

def FCond.code : FCond → BitVec 3 | .eq => 0 | .ne => 1 | .lt => 2 | .le => 3 | .gt => 4 | .ge => 5 | .un => 6
def FCond.ofCode (c : BitVec 3) : Option FCond :=
  if c = 0 then some .eq else if c = 1 then some .ne else if c = 2 then some .lt else if c = 3 then some .le
  else if c = 4 then some .gt else if c = 5 then some .ge else if c = 6 then some .un else none

def Rm.code : Rm → BitVec 2 | .rne => 0 | .rz => 1 | .ru => 2 | .rd => 3
def Rm.ofCode (c : BitVec 2) : Rm := if c = 0 then .rne else if c = 1 then .rz else if c = 2 then .ru else .rd

def SReg.code : SReg → BitVec 7
  | .lane => 0 | .plane => 1 | .tsize => 2 | .team => 3 | .grid => 4 | .core => 5 | .grove => 6 | .depth => 7
  | .argp => 8 | .tcret => 9 | .tags => 10 | .fflags => 11 | .status => 12 | .time => 13 | .cycle => 14 | .lk => 15
def SReg.ofCode (c : BitVec 7) : Option SReg :=
  match c.toNat with
  | 0 => some .lane | 1 => some .plane | 2 => some .tsize | 3 => some .team | 4 => some .grid | 5 => some .core
  | 6 => some .grove | 7 => some .depth | 8 => some .argp | 9 => some .tcret | 10 => some .tags | 11 => some .fflags
  | 12 => some .status | 13 => some .time | 14 => some .cycle | 15 => some .lk | _ => none

def WSReg.code : WSReg → BitVec 7 | .fflags => 11 | .lk => 15
def WSReg.ofCode (c : BitVec 7) : Option WSReg := if c = 11 then some .fflags else if c = 15 then some .lk else none

def RTy.code : RTy → BitVec 3 | .f32 => 0 | .s32 => 1 | .z32 => 2 | .s64 => 3 | .z64 => 4 | .f16 => 5 | .bf16 => 6
def RTy.ofCode (c : BitVec 3) : Option RTy :=
  if c = 0 then some .f32 else if c = 1 then some .s32 else if c = 2 then some .z32 else if c = 3 then some .s64
  else if c = 4 then some .z64 else if c = 5 then some .f16 else if c = 6 then some .bf16 else none

def Space.code : Space → BitVec 2 | .g => 0 | .s => 1 | .k => 2
def Space.ofCode (c : BitVec 2) : Option Space :=
  if c = 0 then some .g else if c = 1 then some .s else if c = 2 then some .k else none

def MW.code : MW → BitVec 3 | .b => 0 | .h => 1 | .w => 2 | .d => 3 | .q => 4
def MW.ofCode (c : BitVec 3) : Option MW :=
  if c = 0 then some .b else if c = 1 then some .h else if c = 2 then some .w else if c = 3 then some .d
  else if c = 4 then some .q else none

def Hint.code : Hint → BitVec 2 | .none => 0 | .ef => 1 | .el => 2
def Hint.ofCode (c : BitVec 2) : Option Hint :=
  if c = 0 then some .none else if c = 1 then some .ef else if c = 2 then some .el else Option.none

def Scope.code : Scope → BitVec 3
  | .team => 0 | .core => 1 | .grove => 2 | .part => 3 | .tenant => 4 | .dev => 5 | .sys => 6 | .fab => 7
def Scope.ofCode (c : BitVec 3) : Scope :=
  if c = 0 then .team else if c = 1 then .core else if c = 2 then .grove else if c = 3 then .part
  else if c = 4 then .tenant else if c = 5 then .dev else if c = 6 then .sys else .fab

def Order.code : Order → BitVec 2 | .rlx => 0 | .acq => 1 | .rel => 2 | .ar => 3
def Order.ofCode (c : BitVec 2) : Order := if c = 0 then .rlx else if c = 1 then .acq else if c = 2 then .rel else .ar

def FOrder.code : FOrder → BitVec 2 | .acq => 1 | .rel => 2 | .ar => 3
def FOrder.ofCode (c : BitVec 2) : Option FOrder :=
  if c = 1 then some .acq else if c = 2 then some .rel else if c = 3 then some .ar else none

def AOp.code : AOp → BitVec 4
  | .add => 0 | .and => 1 | .or => 2 | .xor => 3 | .mins => 4 | .maxs => 5 | .minz => 6 | .maxz => 7
  | .xchg => 8 | .cas => 9 | .fadd => 10 | .inc => 11 | .dec => 12
def AOp.ofCode (c : BitVec 4) : Option AOp :=
  match c.toNat with
  | 0 => some .add | 1 => some .and | 2 => some .or | 3 => some .xor | 4 => some .mins | 5 => some .maxs
  | 6 => some .minz | 7 => some .maxz | 8 => some .xchg | 9 => some .cas | 10 => some .fadd | 11 => some .inc
  | 12 => some .dec | _ => none

/-! ### Parsing with a list of the faults found -/

/-- A parser that collects encoding faults. -/
abbrev Dec := StateM (List EncFault)

def err (e : EncFault) : Dec Unit := modify (e :: ·)

/-- A fault unless `b`. -/
def must (b : Bool) (e : EncFault) : Dec Unit := if b then pure () else err e

/-- A value the subfield must assign (R67), else 0x02 and a stand-in. -/
def assigned {α : Type} (o : Option α) (dflt : α) : Dec α :=
  match o with
  | some a => pure a
  | none => do err .reserved; pure dflt

/-- Bits an instruction does not define (R67), or a specifier it does not use (R66). -/
def zero {n : Nat} (v : BitVec n) : Dec Unit := must (v == 0) .reserved

def pGuard (neg : BitVec 1) (pidx : BitVec 4) : Dec Guard :=
  if h : pidx.toNat < 12 then pure (.pred ⟨pidx.toNat, h⟩ (neg == 1))
  else if pidx = 15 ∧ neg = 0 then pure .always
  else do err .guard; pure .always

def pSrc (s : BitVec 10) : Dec Src :=
  let lv := s.extractLsb' 8 2
  let ix := s.extractLsb' 0 8
  if lv = 0 then pure (.g ix)
  else if lv = 1 then do zero (s.extractLsb' 3 5); pure (.o (s.extractLsb' 0 3))
  else if lv = 2 then do zero ix; pure .lat
  else pure (.imm ix)

def pDst (s : BitVec 10) : Dec Dst :=
  let lv := s.extractLsb' 8 2
  let ix := s.extractLsb' 0 8
  if lv = 0 then pure (.g ix)
  else if lv = 1 then do zero (s.extractLsb' 3 5); pure (.o (s.extractLsb' 0 3))
  else if lv = 2 then do zero ix; pure .lat
  else do zero ix; pure .discard

def pRDst (s : BitVec 10) : Dec RDst := do
  match ← pDst s with
  | .g i => pure (.g i)
  | .o i => pure (.o i)
  | .lat => pure .lat
  | .discard => do err .operand; pure .lat

def pLDst (s : BitVec 10) : Dec LDst := do
  match ← pDst s with
  | .g i => pure (.g i)
  | .o i => pure (.o i)
  | .lat => do err .operand; pure (.o 0)
  | .discard => do err .operand; pure (.o 0)

/-- A load destination or a discard (ATOM, BARA). -/
def pLDstOpt (s : BitVec 10) : Dec (Option LDst) := do
  match ← pDst s with
  | .g i => pure (some (.g i))
  | .o i => pure (some (.o i))
  | .lat => do err .operand; pure none
  | .discard => pure none

def pBase (s : BitVec 10) : Dec Base := do
  match ← pSrc s with
  | .g i => pure (.g i)
  | .o i => pure (.o i)
  | .lat => pure .lat
  | .imm _ => do err .operand; pure .lat

/-- A destination at level 00 only. -/
def pGDst (s : BitVec 10) : Dec (BitVec 8) := do
  match ← pDst s with
  | .g i => pure i
  | _ => do err .operand; pure 0

/-- A source at level 00 only. -/
def pGSrc (s : BitVec 10) : Dec (BitVec 8) := do
  match ← pSrc s with
  | .g i => pure i
  | _ => do err .operand; pure 0

/-- A predicate specifier (R84). -/
def pPred (s : BitVec 10) : Dec PReg := do
  zero (s.extractLsb' 4 6)
  let i := (s.extractLsb' 0 4).toNat
  if h : i < 12 then pure ⟨i, h⟩ else do err .operand; pure 0

/-- The fields of a full-form word (R61). -/
structure Fields where
  major : BitVec 7
  neg : BitVec 1
  pidx : BitVec 4
  dst : BitVec 10
  sa : BitVec 10
  sb : BitVec 10
  sc : BitVec 10
  func : BitVec 11
  deriving DecidableEq, Repr

def Fields.ofWord (w : DWord) : Fields where
  major := w.extractLsb' 56 7
  neg := w.extractLsb' 55 1
  pidx := w.extractLsb' 51 4
  dst := w.extractLsb' 41 10
  sa := w.extractLsb' 31 10
  sb := w.extractLsb' 21 10
  sc := w.extractLsb' 11 10
  func := w.extractLsb' 0 11

def Fields.toWord (f : Fields) : DWord :=
  (0#1 ++ f.major ++ f.neg ++ f.pidx ++ f.dst ++ f.sa ++ f.sb ++ f.sc ++ f.func : BitVec 64)

/-- Bits [50:21] as one field (R157, R347). -/
def Fields.wide30 (f : Fields) : BitVec 30 := (f.dst ++ f.sa ++ f.sb : BitVec 30)

def Fields.gd (f : Fields) : Dec Guard := pGuard f.neg f.pidx

/-! ### Majors 0x00 to 0x1F (04 R88 to R106) -/

/-- The signedness subfield where it is admitted. -/
def pSg (f : BitVec 11) : Dec Sg := assigned (Sg.ofCode (f.extractLsb' 1 2)) .none

/-- func with only sg and d. -/
def pSgD (f : BitVec 11) : Dec (Sg × Bool) := do
  zero (f.extractLsb' 3 8)
  pure (← pSg f, f.getLsbD 0)

/-- func with only d. -/
def pD (f : BitVec 11) : Dec Bool := do
  zero (f.extractLsb' 1 10)
  pure (f.getLsbD 0)

def pAlu2 (f : Fields) : Dec Alu2 := do
  let gd ← f.gd; let d ← pDst f.dst; let a ← pSrc f.sa; let b ← pSrc f.sb; zero f.sc
  let (sg, w) ← pSgD f.func
  pure ⟨gd, d, a, b, sg, w⟩

def pLog2 (f : Fields) : Dec Log2 := do
  let gd ← f.gd; let d ← pDst f.dst; let a ← pSrc f.sa; let b ← pSrc f.sb; zero f.sc
  let w ← pD f.func
  pure ⟨gd, d, a, b, w⟩

def pAlu3 (f : Fields) : Dec Alu3 := do
  let gd ← f.gd; let d ← pDst f.dst; let a ← pSrc f.sa; let b ← pSrc f.sb; let c ← pSrc f.sc
  let (sg, w) ← pSgD f.func
  pure ⟨gd, d, a, b, c, sg, w⟩

def pTri (f : Fields) : Dec Tri := do
  let gd ← f.gd; let d ← pDst f.dst; let a ← pSrc f.sa; let b ← pSrc f.sb; let c ← pSrc f.sc
  zero f.func
  pure ⟨gd, d, a, b, c⟩

def pAlu1 (f : Fields) : Dec Alu1 := do
  let gd ← f.gd; let d ← pDst f.dst; let a ← pSrc f.sa; zero f.sb; zero f.sc
  let (sg, w) ← pSgD f.func
  pure ⟨gd, d, a, sg, w⟩

def pLog1 (f : Fields) : Dec Log1 := do
  let gd ← f.gd; let d ← pDst f.dst; let a ← pSrc f.sa; zero f.sb; zero f.sc
  let w ← pD f.func
  pure ⟨gd, d, a, w⟩

/-- As `pLog1` with func[10:8] a selector that the caller has read. -/
def pLog1Sel (f : Fields) : Dec Log1 := do
  let gd ← f.gd; let d ← pDst f.dst; let a ← pSrc f.sa; zero f.sb; zero f.sc
  zero (f.func.extractLsb' 1 7)
  pure ⟨gd, d, a, f.func.getLsbD 0⟩

def pBfx (f : Fields) : Dec BfxArg := do
  let gd ← f.gd; let d ← pDst f.dst; let a ← pSrc f.sa; let b ← pSrc f.sb; zero f.sc
  zero (f.func.extractLsb' 10 1)
  let sg ← pSg f.func
  pure ⟨gd, d, a, b, f.func.extractLsb' 3 7, sg, f.func.getLsbD 0⟩

def pBfi (f : Fields) : Dec BfiArg := do
  let gd ← f.gd; let d ← pDst f.dst; let a ← pSrc f.sa; let b ← pSrc f.sb; let c ← pSrc f.sc
  zero (f.func.extractLsb' 10 1); zero (f.func.extractLsb' 1 2)
  pure ⟨gd, d, a, b, c, f.func.extractLsb' 3 7, f.func.getLsbD 0⟩

def pSel (f : Fields) : Dec SelArg := do
  let gd ← f.gd; let d ← pDst f.dst; let a ← pSrc f.sa; let b ← pSrc f.sb; let p ← pPred f.sc
  zero (f.func.extractLsb' 4 7); zero (f.func.extractLsb' 1 2)
  pure ⟨gd, d, a, b, p, f.func.getLsbD 3, f.func.getLsbD 0⟩

def pLea (f : Fields) : Dec LeaArg := do
  let gd ← f.gd; let d ← pDst f.dst; let a ← pSrc f.sa; let b ← pSrc f.sb; zero f.sc
  zero (f.func.extractLsb' 6 5)
  let sg ← pSg f.func
  pure ⟨gd, d, a, b, f.func.extractLsb' 3 3, sg, f.func.getLsbD 0⟩

def pCmp (f : Fields) : Dec CmpArg := do
  let gd ← f.gd; let p ← pPred f.dst; let a ← pSrc f.sa; let b ← pSrc f.sb; zero f.sc
  zero (f.func.extractLsb' 6 5)
  let c ← assigned (Cond.ofCode (f.func.extractLsb' 3 3)) .eq
  let sg ← pSg f.func
  pure ⟨gd, p, a, b, c, sg, f.func.getLsbD 0⟩

def pPredOp (f : Fields) : Dec PredArg := do
  let gd ← f.gd; let pd ← pPred f.dst; let pa ← pPred f.sa; let pb ← pPred f.sb; zero f.sc
  zero (f.func.extractLsb' 2 6)
  pure ⟨gd, pd, pa, pb, f.func.getLsbD 0, f.func.getLsbD 1⟩

def pPnot (f : Fields) : Dec PnotArg := do
  let gd ← f.gd; let pd ← pPred f.dst; let pa ← pPred f.sa; zero f.sb; zero f.sc
  zero (f.func.extractLsb' 0 8)
  pure ⟨gd, pd, pa⟩

def pPmov (f : Fields) : Dec PmovArg := do
  let gd ← f.gd; zero f.sc; zero (f.func.extractLsb' 1 7)
  if f.func.getLsbD 0 then do
    zero f.dst; let a ← pSrc f.sa; let b ← pSrc f.sb
    pure ⟨gd, .fromReg a b⟩
  else do
    let d ← pDst f.dst; zero f.sa; zero f.sb
    pure ⟨gd, .toReg d⟩

def pGets (f : Fields) : Dec GetsArg := do
  let gd ← f.gd; let d ← pDst f.dst; zero f.sa; zero f.sb; zero f.sc
  let r ← assigned (SReg.ofCode (f.func.extractLsb' 0 7)) .lane
  pure ⟨gd, d, r, f.func.getLsbD 7⟩

def pSets (f : Fields) : Dec SetsArg := do
  let gd ← f.gd; zero f.dst; let a ← pSrc f.sa; zero f.sb; zero f.sc
  let r ← assigned (WSReg.ofCode (f.func.extractLsb' 0 7)) .lk
  pure ⟨gd, r, a, f.func.getLsbD 7⟩

/-- The stand-in beside an unassigned opcode (0x01). -/
def unassigned : Dec Instr := do err .unassigned; pure (.nop ⟨.always⟩)

def sel (f : Fields) : Nat := (f.func.extractLsb' 8 3).toNat

def dec00 (f : Fields) (lo : Nat) : Dec Instr :=
  match lo with
  | 0x0 => do pure (.add (← pAlu2 f))
  | 0x1 => do pure (.sub (← pAlu2 f))
  | 0x2 => do pure (.mul (← pAlu2 f))
  | 0x3 => do pure (.mulh (← pAlu2 f))
  | 0x4 => do pure (.mad (← pAlu3 f))
  | 0x5 => do pure (.div (← pAlu2 f))
  | 0x6 => do pure (.rem (← pAlu2 f))
  | 0x7 => do pure (.and (← pLog2 f))
  | 0x8 => do pure (.or (← pLog2 f))
  | 0x9 => do pure (.xor (← pLog2 f))
  | 0xA => do pure (.andn (← pLog2 f))
  | 0xB => do pure (.orn (← pLog2 f))
  | 0xC => do pure (.not (← pLog1 f))
  | 0xD => do pure (.shl (← pLog2 f))
  | 0xE => do pure (.shr (← pLog2 f))
  | 0xF => do pure (.sar (← pLog2 f))
  | _ => unassigned

def dec10 (f : Fields) (lo : Nat) : Dec Instr :=
  match lo with
  | 0x0 => do pure (.rol (← pLog2 f))
  | 0x1 => do pure (.ror (← pLog2 f))
  | 0x2 => do pure (.shf (← pTri f))
  | 0x3 => do pure (.min (← pAlu2 f))
  | 0x4 => do pure (.max (← pAlu2 f))
  | 0x5 => do pure (.abs (← pAlu1 f))
  | 0x6 => do pure (.neg (← pAlu1 f))
  | 0x7 => match sel f with
    | 0 => do pure (.popc (← pLog1Sel f))
    | 1 => do pure (.clz (← pLog1Sel f))
    | 2 => do pure (.ctz (← pLog1Sel f))
    | 3 => do pure (.brev (← pLog1Sel f))
    | _ => unassigned
  | 0x8 => do pure (.bfx (← pBfx f))
  | 0x9 => do pure (.bfi (← pBfi f))
  | 0xA => do pure (.bperm (← pTri f))
  | 0xB => do pure (.sel (← pSel f))
  | 0xC => do pure (.mov (← pLog1 f))
  | 0xD => do pure (.lea (← pLea f))
  | 0xE => do pure (.cmp (← pCmp f))
  | 0xF => match sel f with
    | 0 => do pure (.pand (← pPredOp f))
    | 1 => do pure (.por (← pPredOp f))
    | 2 => do pure (.pxor (← pPredOp f))
    | 3 => do pure (.pnot (← pPnot f))
    | 4 => do pure (.pmov (← pPmov f))
    | 5 => do pure (.gets (← pGets f))
    | 6 => do pure (.sets (← pSets f))
    | _ => unassigned
  | _ => unassigned

/-! ### Majors 0x20 to 0x3F (05 R122 to R134, 06 R146) -/

def pRm (f : BitVec 11) : Rm := Rm.ofCode (f.extractLsb' 4 2)

def pF2 (f : Fields) : Dec F2 := do
  let gd ← f.gd; let d ← pDst f.dst; let a ← pSrc f.sa; let b ← pSrc f.sb; zero f.sc
  zero (f.func.extractLsb' 6 5); zero (f.func.extractLsb' 0 4)
  pure ⟨gd, d, a, b, pRm f.func⟩

def pF2n (f : Fields) : Dec F2n := do
  let gd ← f.gd; let d ← pDst f.dst; let a ← pSrc f.sa; let b ← pSrc f.sb; zero f.sc; zero f.func
  pure ⟨gd, d, a, b⟩

def pF3 (f : Fields) : Dec F3 := do
  let gd ← f.gd; let d ← pDst f.dst; let a ← pSrc f.sa; let b ← pSrc f.sb; let c ← pSrc f.sc
  zero (f.func.extractLsb' 6 5); zero (f.func.extractLsb' 0 4)
  pure ⟨gd, d, a, b, c, pRm f.func⟩

def pF1 (f : Fields) : Dec F1 := do
  let gd ← f.gd; let d ← pDst f.dst; let a ← pSrc f.sa; zero f.sb; zero f.sc; zero f.func
  pure ⟨gd, d, a⟩

/-- As `pF1` with func[10:8] a selector that the caller has read. -/
def pF1Sel (f : Fields) : Dec F1 := do
  let gd ← f.gd; let d ← pDst f.dst; let a ← pSrc f.sa; zero f.sb; zero f.sc; zero (f.func.extractLsb' 0 8)
  pure ⟨gd, d, a⟩

def pF1rSel (f : Fields) : Dec F1r := do
  let gd ← f.gd; let d ← pDst f.dst; let a ← pSrc f.sa; zero f.sb; zero f.sc
  zero (f.func.extractLsb' 6 2); zero (f.func.extractLsb' 0 4)
  pure ⟨gd, d, a, pRm f.func⟩

def pFcmp (f : Fields) : Dec FcmpArg := do
  let gd ← f.gd; let p ← pPred f.dst; let a ← pSrc f.sa; let b ← pSrc f.sb; zero f.sc
  zero (f.func.extractLsb' 3 8)
  let c ← assigned (FCond.ofCode (f.func.extractLsb' 0 3)) .eq
  pure ⟨gd, p, a, b, c⟩

def pH2 (f : Fields) : Dec H2 := do
  let gd ← f.gd; let d ← pDst f.dst; let a ← pSrc f.sa; let b ← pSrc f.sb; zero f.sc
  zero (f.func.extractLsb' 6 5); zero (f.func.extractLsb' 0 3)
  pure ⟨gd, d, a, b, f.func.getLsbD 3, pRm f.func⟩

def pDoth (f : Fields) : Dec Doth := do
  let gd ← f.gd; let d ← pRDst f.dst; let a ← pSrc f.sa; let b ← pSrc f.sb; zero f.sc
  zero (f.func.extractLsb' 4 7); zero (f.func.extractLsb' 0 3)
  pure ⟨gd, d, a, b, f.func.getLsbD 3⟩

def pCvt (f : Fields) : Dec CvtArg := do
  let gd ← f.gd; let d ← pDst f.dst; let a ← pSrc f.sa; zero f.sb; zero f.sc
  zero (f.func.extractLsb' 0 1)
  let rt ← assigned (RTy.ofCode (f.func.extractLsb' 7 3)) .f32
  pure ⟨gd, d, a, f.func.getLsbD 10, rt, f.func.extractLsb' 4 3, Rm.ofCode (f.func.extractLsb' 2 2), f.func.getLsbD 1⟩

def pPack (f : Fields) : Dec PackArg := do
  let gd ← f.gd; let d ← pDst f.dst; let a ← pSrc f.sa; let b ← pSrc f.sb; zero f.sc
  zero (f.func.extractLsb' 0 2)
  pure ⟨gd, d, a, b, f.func.extractLsb' 8 3, f.func.extractLsb' 5 3, Rm.ofCode (f.func.extractLsb' 3 2), f.func.getLsbD 2⟩

def pUnpack (f : Fields) : Dec UnpackArg := do
  let gd ← f.gd; let d ← pDst f.dst; let a ← pSrc f.sa; zero f.sb; zero f.sc
  zero (f.func.extractLsb' 0 5)
  pure ⟨gd, d, a, f.func.extractLsb' 8 3, f.func.extractLsb' 5 3⟩

def pFmtq (f : Fields) : Dec FmtqArg := do
  let gd ← f.gd; let d ← pDst f.dst; let a ← pSrc f.sa; zero f.sb; zero f.sc
  zero (f.func.extractLsb' 0 8)
  pure ⟨gd, d, a, f.func.extractLsb' 8 3⟩

def pDot (f : Fields) : Dec DotArg := do
  let gd ← f.gd; let d ← pRDst f.dst; let a ← pSrc f.sa; let b ← pSrc f.sb
  zero (f.func.extractLsb' 0 4)
  if f.func.getLsbD 4 then do
    let s ← pSrc f.sc
    pure ⟨gd, d, a, b, some s, f.func.extractLsb' 8 3, f.func.extractLsb' 5 3⟩
  else do
    zero f.sc
    pure ⟨gd, d, a, b, none, f.func.extractLsb' 8 3, f.func.extractLsb' 5 3⟩

def pMma (f : Fields) : Dec MmaArg := do
  let gd ← f.gd; let d ← pGDst f.dst; let a ← pGSrc f.sa; let b ← pGSrc f.sb
  zero (f.func.extractLsb' 0 3)
  let c ← (if f.sc = 0x300 then pure none else do pure (some (← pGSrc f.sc)) : Dec (Option (BitVec 8)))
  pure ⟨gd, d, a, b, c, f.func.extractLsb' 8 3, f.func.extractLsb' 5 3, f.func.extractLsb' 3 2⟩

def pMmas (f : Fields) : Dec MmasArg := do
  let gd ← f.gd; let d ← pGDst f.dst; let a ← pGSrc f.sa; let b ← pGSrc f.sb; let s ← pGSrc f.sc
  zero (f.func.extractLsb' 0 3)
  pure ⟨gd, d, a, b, s, f.func.extractLsb' 8 3, f.func.extractLsb' 5 3, f.func.extractLsb' 3 2⟩

def pMzero (f : Fields) : Dec MzeroArg := do
  let gd ← f.gd; let d ← pGDst f.dst; zero f.sa; zero f.sb; zero f.sc; zero (f.func.extractLsb' 1 10)
  pure ⟨gd, d, f.func.getLsbD 0⟩

/-- An instruction that carries a guard and nothing else. -/
def pGOnly (f : Fields) : Dec GOnly := do
  let gd ← f.gd; zero f.dst; zero f.sa; zero f.sb; zero f.sc; zero f.func
  pure ⟨gd⟩

/-- As `pGOnly` with func[10:8] a selector that the caller has read. -/
def pGOnlySel (f : Fields) : Dec GOnly := do
  let gd ← f.gd; zero f.dst; zero f.sa; zero f.sb; zero f.sc; zero (f.func.extractLsb' 0 8)
  pure ⟨gd⟩

/-- LDFR (`store = false`) and STFR, whose data register stands in dst and is read. -/
def pFrag (store : Bool) (f : Fields) : Dec FragArg := do
  let gd ← f.gd
  let r ← if store then pGSrc f.dst else pGDst f.dst
  let b ← pGSrc f.sa; let st ← pSrc f.sb; zero f.sc; zero (f.func.extractLsb' 0 8)
  let sp ← assigned (Space.ofCode (f.func.extractLsb' 9 2)) .g
  pure ⟨gd, r, b, st, sp, f.func.getLsbD 8⟩

def pMcvt (f : Fields) : Dec McvtArg := do
  let gd ← f.gd; let d ← pGDst f.dst; let a ← pGSrc f.sa; zero f.sb; zero f.sc; zero (f.func.extractLsb' 0 3)
  pure ⟨gd, d, a, f.func.extractLsb' 8 3, f.func.extractLsb' 6 2, pRm f.func, f.func.getLsbD 3⟩

def pMtrn (f : Fields) : Dec MtrnArg := do
  let gd ← f.gd; let d ← pGDst f.dst; let a ← pGSrc f.sa; zero f.sb; zero f.sc; zero (f.func.extractLsb' 1 10)
  pure ⟨gd, d, a, f.func.getLsbD 0⟩

def dec20 (f : Fields) (lo : Nat) : Dec Instr :=
  match lo with
  | 0x0 => do pure (.fadd (← pF2 f))
  | 0x1 => do pure (.fsub (← pF2 f))
  | 0x2 => do pure (.fmul (← pF2 f))
  | 0x3 => do pure (.ffma (← pF3 f))
  | 0x4 => do pure (.fmin (← pF2n f))
  | 0x5 => do pure (.fmax (← pF2n f))
  | 0x6 => do pure (.fcmp (← pFcmp f))
  | 0x7 => do pure (.fclass (← pF1 f))
  | 0x8 => do pure (.fdiv (← pF2 f))
  | 0x9 => match sel f with
    | 0 => do pure (.frcp (← pF1rSel f))
    | 1 => do pure (.frsq (← pF1Sel f))
    | 2 => do pure (.fsqrt (← pF1rSel f))
    | 3 => do pure (.fexp2 (← pF1Sel f))
    | 4 => do pure (.flog2 (← pF1Sel f))
    | 5 => do pure (.fsin (← pF1Sel f))
    | 6 => do pure (.fcos (← pF1Sel f))
    | _ => do pure (.ftanh (← pF1Sel f))
  | 0xA => do pure (.fscale (← pF2 f))
  | 0xB => do pure (.hfma2 (← pF3 f))
  | 0xC => do pure (.bfma2 (← pF3 f))
  | 0xD => do pure (.hadd2 (← pH2 f))
  | 0xE => do pure (.hmul2 (← pH2 f))
  | 0xF => do pure (.cvt (← pCvt f))
  | _ => unassigned

def dec30 (f : Fields) (lo : Nat) : Dec Instr :=
  match lo with
  | 0x0 => do pure (.pack (← pPack f))
  | 0x1 => do pure (.unpack (← pUnpack f))
  | 0x2 => do pure (.dot8 (← pDot f))
  | 0x3 => do pure (.dot4 (← pDot f))
  | 0x4 => do pure (.doth2 (← pDoth f))
  | 0x5 => do pure (.fmtq (← pFmtq f))
  | 0x8 => do pure (.mma (← pMma f))
  | 0x9 => do pure (.mmas (← pMmas f))
  | 0xA => do pure (.mzero (← pMzero f))
  | 0xB => do pure (.mfence (← pGOnly f))
  | 0xC => do pure (.ldfr (← pFrag false f))
  | 0xD => do pure (.stfr (← pFrag true f))
  | 0xE => do pure (.mcvt (← pMcvt f))
  | 0xF => do pure (.mtrn (← pMtrn f))
  | _ => unassigned

/-! ### Majors 0x40 to 0x4F (07 R157) -/

def pBra (f : Fields) : Dec BraArg := do
  let gd ← f.gd; zero f.sc; zero f.func
  pure ⟨gd, f.wide30⟩

def pBrx (f : Fields) : Dec BrxArg := do
  let gd ← f.gd; zero f.dst; let a ← pSrc f.sa; zero f.sb; zero f.sc; zero (f.func.extractLsb' 8 3)
  pure ⟨gd, a, f.func.extractLsb' 0 8⟩

def pPad (f : Fields) : Dec PadArg := do
  let gd ← f.gd; must (gd == .always && f.pidx == 15 && f.neg == 0) .reserved
  zero f.dst; zero f.sa; zero f.sb; zero f.sc; zero (f.func.extractLsb' 8 3)
  pure ⟨f.func.extractLsb' 0 8⟩

def pYield (f : Fields) : Dec YieldArg := do
  let gd ← f.gd; zero f.dst; zero f.sa; zero f.sb; zero f.sc; zero (f.func.extractLsb' 4 4)
  pure ⟨gd, f.func.extractLsb' 0 4⟩

def pTcall (f : Fields) : Dec TcallArg := do
  let gd ← f.gd; zero f.dst; let a ← pSrc f.sa; let b ← pSrc f.sb; zero f.sc
  pure ⟨gd, a, b, f.func.extractLsb' 3 8, f.func.extractLsb' 0 3⟩

def pTvote (f : Fields) : Dec TvoteArg := do
  let gd ← f.gd; let ps ← pPred f.sa; zero f.sc; zero (f.func.extractLsb' 1 7)
  let neg := f.func.getLsbD 0
  match sel f with
  | 0 => do zero f.sb; pure ⟨gd, ps, neg, .all (← pPred f.dst)⟩
  | 1 => do zero f.sb; pure ⟨gd, ps, neg, .any (← pPred f.dst)⟩
  | 2 => do zero f.sb; pure ⟨gd, ps, neg, .uni (← pPred f.dst)⟩
  | 3 => do let b ← pSrc f.sb; pure ⟨gd, ps, neg, .ballot (← pDst f.dst) b⟩
  | 4 => do zero f.sb; pure ⟨gd, ps, neg, .count (← pDst f.dst)⟩
  | _ => do err .reserved; pure ⟨gd, ps, neg, .all 0⟩

def pTxch (f : Fields) : Dec TxchArg := do
  let gd ← f.gd; let d ← pDst f.dst; let a ← pSrc f.sa; let b ← pSrc f.sb; zero f.sc; zero (f.func.extractLsb' 1 10)
  pure ⟨gd, d, a, b, f.func.getLsbD 0⟩

def pGlaunch (f : Fields) : Dec TxchArg := do
  let gd ← f.gd; let d ← pDst f.dst; let a ← pSrc f.sa; let b ← pSrc f.sb; zero f.sc; zero f.func
  pure ⟨gd, d, a, b, false⟩

def pTmigr (f : Fields) : Dec TmigrArg := do
  let gd ← f.gd; zero f.dst; let a ← pSrc f.sa; zero f.sb; zero f.sc; zero f.func
  pure ⟨gd, a⟩

def dec40 (f : Fields) (lo : Nat) : Dec Instr :=
  match lo with
  | 0x0 => do pure (.bra (← pBra f))
  | 0x1 => do pure (.brx (← pBrx f))
  | 0x2 => do pure (.call (← pBra f))
  | 0x3 => do pure (.callx (← pBrx f))
  | 0x4 => do pure (.ret (← pGOnly f))
  | 0x5 => do pure (.pad (← pPad f))
  | 0x6 => match sel f with
    | 0 => do pure (.rejoin (← pGOnlySel f))
    | 1 => do pure (.yld (← pYield f))
    | 2 => do pure (.nop (← pGOnlySel f))
    | _ => unassigned
  | 0x7 => do pure (.exit (← pGOnly f))
  | 0x8 => do pure (.tcall (← pTcall f))
  | 0x9 => do pure (.tcalls (← pTcall f))
  | 0xA => do pure (.tret (← pGOnly f))
  | 0xB => do pure (.tbar (← pGOnly f))
  | 0xC => do pure (.tvote (← pTvote f))
  | 0xD => do pure (.txch (← pTxch f))
  | 0xE => do pure (.tmigr (← pTmigr f))
  | 0xF => do pure (.glaunch (← pGlaunch f))
  | _ => unassigned

/-! ### Majors 0x50 to 0x5F (08 R194, R195) -/

def pMW (f : BitVec 11) : Dec MW := assigned (MW.ofCode (f.extractLsb' 8 3)) .w
def pSp (f : BitVec 11) : Dec Space := assigned (Space.ofCode (f.extractLsb' 6 2)) .g
def pHint (f : BitVec 11) : Dec Hint := assigned (Hint.ofCode (f.extractLsb' 4 2)) .none
def pScope (f : BitVec 11) : Scope := Scope.ofCode (f.extractLsb' 0 3)

def pLd (f : Fields) : Dec LdArg := do
  let gd ← f.gd; let d ← pLDst f.dst; let b ← pBase f.sa; let o ← pSrc f.sb; zero f.sc
  let w ← pMW f.func; let sp ← pSp f.func; let h ← pHint f.func; zero (f.func.extractLsb' 0 2)
  pure ⟨gd, d, b, o, w, sp, h, f.func.getLsbD 3, f.func.getLsbD 2⟩

def pSt (f : Fields) : Dec StArg := do
  let gd ← f.gd; zero f.dst; let b ← pBase f.sa; let o ← pSrc f.sb; let dt ← pSrc f.sc
  let w ← pMW f.func; let sp ← pSp f.func; let h ← pHint f.func; zero (f.func.extractLsb' 0 4)
  pure ⟨gd, b, o, dt, w, sp, h⟩

def pLda (f : Fields) : Dec LdaArg := do
  let gd ← f.gd; let d ← pLDst f.dst; let b ← pBase f.sa; let o ← pSrc f.sb; zero f.sc
  let w ← pMW f.func; let sp ← pSp f.func; let h ← pHint f.func
  pure ⟨gd, d, b, o, w, sp, h, f.func.getLsbD 3, pScope f.func⟩

def pStl (f : Fields) : Dec StlArg := do
  let gd ← f.gd; zero f.dst; let b ← pBase f.sa; let o ← pSrc f.sb; let dt ← pSrc f.sc
  let w ← pMW f.func; let sp ← pSp f.func; let h ← pHint f.func; zero (f.func.extractLsb' 3 1)
  pure ⟨gd, b, o, dt, w, sp, h, pScope f.func⟩

def pAtom (f : Fields) : Dec AtomArg := do
  let gd ← f.gd; let d ← pLDstOpt f.dst; let base ← pBase f.sa; let b ← pSrc f.sb
  let op ← assigned (AOp.ofCode (f.func.extractLsb' 5 4)) .add
  let w := f.func.getLsbD 10; let scr := f.func.getLsbD 9
  let od := Order.ofCode (f.func.extractLsb' 3 2)
  if op = .cas then do
    let c ← pSrc f.sc
    pure ⟨gd, d, base, b, some c, w, scr, op, od, pScope f.func⟩
  else do
    zero f.sc
    pure ⟨gd, d, base, b, none, w, scr, op, od, pScope f.func⟩

def pRed (f : Fields) : Dec RedArg := do
  let gd ← f.gd; zero f.dst; let base ← pBase f.sa; let b ← pSrc f.sb; zero f.sc
  let op ← assigned (AOp.ofCode (f.func.extractLsb' 5 4)) .add
  zero (f.func.extractLsb' 3 1)
  pure ⟨gd, base, b, f.func.getLsbD 10, f.func.getLsbD 9, op, f.func.getLsbD 4, pScope f.func⟩

def pFence (f : Fields) : Dec FenceArg := do
  let gd ← f.gd; zero f.dst; zero f.sa; zero f.sb; zero f.sc; zero (f.func.extractLsb' 5 6)
  let od ← assigned (FOrder.ofCode (f.func.extractLsb' 3 2)) .ar
  pure ⟨gd, od, pScope f.func⟩

def pPref (f : Fields) : Dec PrefArg := do
  let gd ← f.gd; zero f.dst; let b ← pBase f.sa; let o ← pSrc f.sb; zero f.sc
  zero (f.func.extractLsb' 8 3); zero (f.func.extractLsb' 6 1); zero (f.func.extractLsb' 0 3)
  let h ← pHint f.func
  pure ⟨gd, b, o, f.func.getLsbD 7, h, f.func.getLsbD 3⟩

def pLine (f : Fields) : Dec LineArg := do
  let gd ← f.gd; zero f.dst; let b ← pBase f.sa; let o ← pSrc f.sb; zero f.sc; zero f.func
  pure ⟨gd, b, o⟩

def dec50 (f : Fields) (lo : Nat) : Dec Instr :=
  match lo with
  | 0x0 => do pure (.ld (← pLd f))
  | 0x1 => do pure (.st (← pSt f))
  | 0x2 => do pure (.lda (← pLda f))
  | 0x3 => do pure (.stl (← pStl f))
  | 0x4 => do pure (.atom (← pAtom f))
  | 0x5 => do pure (.red (← pRed f))
  | 0x6 => do pure (.fence (← pFence f))
  | 0x7 => do pure (.pref (← pPref f))
  | 0x8 => do pure (.disc (← pLine f))
  | 0x9 => do pure (.clean (← pLine f))
  | _ => unassigned

/-! ### Majors 0x60 to 0x77 (09 R215, 11 R270, 12 R297, 15 R347 to R358, 16 R370) -/

/-- The destination space, source space, barrier and tag of a copy. -/
def pCpyTail (f : Fields) : Dec (Bool × Space × Option Base) := do
  zero (f.func.extractLsb' 10 1)
  let ssp ← assigned (Space.ofCode (f.func.extractLsb' 7 2)) .g
  if f.func.getLsbD 6 then do
    let b ← pBase f.sc
    pure (f.func.getLsbD 9, ssp, some b)
  else do
    zero f.sc
    pure (f.func.getLsbD 9, ssp, none)

def pCpy (f : Fields) : Dec CpyArg := do
  let gd ← f.gd; let db ← pBase f.dst; let sb ← pBase f.sa; let len ← pSrc f.sb
  let (ds, ssp, bar) ← pCpyTail f
  pure ⟨gd, db, sb, len, ds, ssp, bar, f.func.extractLsb' 0 6⟩

def pCpyd (f : Fields) : Dec CpydArg := do
  let gd ← f.gd; let db ← pBase f.dst; let sb ← pBase f.sa; let de ← pGSrc f.sb
  let (ds, ssp, bar) ← pCpyTail f
  pure ⟨gd, db, sb, de, ds, ssp, bar, f.func.extractLsb' 0 6⟩

def pBar (f : Fields) : Dec BarArg := do
  let gd ← f.gd; zero f.dst; let b ← pBase f.sa; let a ← pSrc f.sb; zero f.sc; zero f.func
  pure ⟨gd, b, a⟩

def pBara (f : Fields) : Dec BaraArg := do
  let gd ← f.gd; let d ← pLDstOpt f.dst; let b ← pBase f.sa; zero f.sb; zero f.sc; zero f.func
  pure ⟨gd, d, b⟩

def pTag (f : Fields) : Dec TagArg := do
  let gd ← f.gd; zero f.dst; let a ← pSrc f.sa; zero f.sb; zero f.sc; zero (f.func.extractLsb' 0 8)
  pure ⟨gd, a⟩

def pFfr (f : Fields) : Dec FfrArg := do
  let gd ← f.gd; let d ← pDst f.dst; let a ← pSrc f.sa; zero f.sb; zero f.sc; zero (f.func.extractLsb' 1 7)
  pure ⟨gd, d, a, f.func.getLsbD 0⟩

def pEmit (f : Fields) : Dec QueArg := do
  let gd ← f.gd; zero f.dst; let a ← pSrc f.sa; let r ← pGSrc f.sb; zero f.sc; zero (f.func.extractLsb' 1 10)
  pure ⟨gd, f.func.getLsbD 0, a, r⟩

def pQrd (f : Fields) : Dec QueArg := do
  let gd ← f.gd; let r ← pGDst f.dst; let a ← pSrc f.sa; zero f.sb; zero f.sc; zero (f.func.extractLsb' 1 10)
  pure ⟨gd, f.func.getLsbD 0, a, r⟩

def pQlen (f : Fields) : Dec QlenArg := do
  let gd ← f.gd; let d ← pDst f.dst; let a ← pSrc f.sa; zero f.sb; zero f.sc; zero (f.func.extractLsb' 1 10)
  pure ⟨gd, f.func.getLsbD 0, d, a⟩

def pMload (f : Fields) : Dec MloadArg := do
  let gd ← f.gd; zero f.dst; let a ← pSrc f.sa; let b ← pSrc f.sb; zero f.sc; zero f.func
  pure ⟨gd, a, b⟩

def pSlot (f : Fields) : Dec SlotArg := do
  let gd ← f.gd; zero f.dst; let a ← pSrc f.sa; zero f.sb; zero f.sc; zero f.func
  pure ⟨gd, a⟩

def pMstat (f : Fields) : Dec MstatArg := do
  let gd ← f.gd; let d ← pGDst f.dst; let a ← pSrc f.sa; let b ← pSrc f.sb; zero f.sc; zero f.func
  pure ⟨gd, d, a, b⟩

def pWait (f : Fields) : Dec WaitArg := do
  let gd ← f.gd; zero f.sc; zero f.func
  let v := f.wide30
  zero (v.extractLsb' 0 6)
  pure ⟨gd, v.extractLsb' 24 6, v.extractLsb' 18 6, v.extractLsb' 12 6, v.extractLsb' 6 6⟩

def pDOnly (f : Fields) : Dec DOnly := do
  let gd ← f.gd; let d ← pDst f.dst; zero f.sa; zero f.sb; zero f.sc; zero f.func
  pure ⟨gd, d⟩

def pTrap (f : Fields) : Dec TrapArg := do
  let gd ← f.gd; zero f.dst; let a ← pSrc f.sa; zero f.sb; zero f.sc; zero (f.func.extractLsb' 8 3)
  pure ⟨gd, f.func.extractLsb' 0 8, a⟩

def pBrk (f : Fields) : Dec BrkArg := do
  let gd ← f.gd; zero f.dst; zero f.sa; zero f.sb; zero f.sc; zero (f.func.extractLsb' 8 3)
  pure ⟨gd, f.func.extractLsb' 0 8⟩

def pServ (f : Fields) : Dec ServArg := do
  let gd ← f.gd; zero f.dst; let a ← pBase f.sa; let b ← pSrc f.sb; zero f.sc; zero f.func
  pure ⟨gd, a, b⟩

def dec60 (f : Fields) (lo : Nat) : Dec Instr :=
  match lo with
  | 0x0 => do pure (.cpy (← pCpy f))
  | 0x1 => do pure (.cpyt (← pCpyd f))
  | 0x2 => do pure (.cpyg (← pCpyd f))
  | 0x3 => do pure (.bari (← pBar f))
  | 0x4 => do pure (.bara (← pBara f))
  | 0x5 => do pure (.barx (← pBar f))
  | 0x6 => do pure (.barw (← pBar f))
  | 0x7 => match sel f with
    | 0 => do pure (.waitany (← pTag f))
    | 1 => do pure (.waitall (← pTag f))
    | 2 => do pure (.ffr (← pFfr f))
    | _ => unassigned
  | 0x8 => do pure (.emit (← pEmit f))
  | 0x9 => do pure (.qrd (← pQrd f))
  | 0xA => do pure (.qlen (← pQlen f))
  | 0xC => do pure (.mload (← pMload f))
  | 0xD => do pure (.marm (← pSlot f))
  | 0xE => do pure (.mdis (← pSlot f))
  | 0xF => do pure (.mstat (← pMstat f))
  | _ => unassigned

def dec70 (f : Fields) (lo : Nat) : Dec Instr :=
  match lo with
  | 0x0 => do pure (.wait (← pWait f))
  | 0x1 => do pure (.cntr (← pDOnly f))
  | 0x2 => do pure (.amb (← pDOnly f))
  | 0x3 => do pure (.boost (← pF1 f))
  | 0x4 => do pure (.trap (← pTrap f))
  | 0x5 => do pure (.serv (← pServ f))
  | 0x6 => do pure (.brk (← pBrk f))
  | _ => unassigned

/-- A full-form word (R68). -/
def decFull (f : Fields) : Dec Instr :=
  let lo := (f.major.extractLsb' 0 4).toNat
  match (f.major.extractLsb' 4 3).toNat with
  | 0 => dec00 f lo
  | 1 => dec10 f lo
  | 2 => dec20 f lo
  | 3 => dec30 f lo
  | 4 => dec40 f lo
  | 5 => dec50 f lo
  | 6 => dec60 f lo
  | _ => dec70 f lo

/-! ### Pair and literal words (R70 to R77) -/

/-- What a restricted opcode and its mod bit name (R76). -/
inductive ROpc where
  | bin (op : RBin)
  | una (op : RUn)
  | cmp (c : RCmp)
  | ld (dbl : Bool) (sp : Space)
  | st (dbl : Bool) (scr : Bool)
  | bra
  | ret
  deriving DecidableEq, Repr

/-- The restricted opcode table. The mod bit chooses the signedness of codes 0x0A, 0x0B and 0x12 to 0x15. -/
def ropOf (c : BitVec 6) (m : Bool) : Option ROpc :=
  match c.toNat with
  | 0x00 => some (.bin .add) | 0x01 => some (.bin .sub) | 0x02 => some (.bin .mul) | 0x03 => some (.bin .and)
  | 0x04 => some (.bin .or) | 0x05 => some (.bin .xor) | 0x06 => some (.bin .andn) | 0x07 => some (.bin .shl)
  | 0x08 => some (.bin .shr) | 0x09 => some (.bin .sar)
  | 0x0A => some (.bin (if m then .minz else .mins)) | 0x0B => some (.bin (if m then .maxz else .maxs))
  | 0x0C => some (.una .mov) | 0x0D => some (.una .not) | 0x0E => some (.una .neg)
  | 0x10 => some (.cmp .eq) | 0x11 => some (.cmp .ne)
  | 0x12 => some (.cmp (if m then .ltz else .lts)) | 0x13 => some (.cmp (if m then .lez else .les))
  | 0x14 => some (.cmp (if m then .gtz else .gts)) | 0x15 => some (.cmp (if m then .gez else .ges))
  | 0x18 => some (.bin .fadd) | 0x19 => some (.bin .fsub) | 0x1A => some (.bin .fmul) | 0x1B => some (.bin .fmin)
  | 0x1C => some (.bin .fmax)
  | 0x20 => some (.ld false .g) | 0x21 => some (.ld false .s) | 0x22 => some (.ld false .k)
  | 0x23 => some (.ld true .g) | 0x24 => some (.ld true .s) | 0x25 => some (.ld true .k)
  | 0x26 => some (.st false false) | 0x27 => some (.st false true) | 0x28 => some (.st true false)
  | 0x29 => some (.st true true)
  | 0x30 => some .bra | 0x31 => some .ret
  | _ => none

/-- The codes whose mod bit chooses the signedness. -/
def modSigned (c : BitVec 6) : Bool := c == 0x0A || c == 0x0B || (decide (0x12 ≤ c.toNat) && decide (c.toNat ≤ 0x15))

def pRGuard (g : BitVec 3) : RGuard := if h : g.toNat = 0 then none else some ⟨g.toNat - 1, by omega⟩

/-- A half of a pair word (R70, R71). -/
def pHalf (h : BitVec 31) : Dec Half := do
  let c := h.extractLsb' 25 6
  let gd := pRGuard (h.extractLsb' 22 3)
  let dst := h.extractLsb' 12 10
  let srcf := h.extractLsb' 2 10
  let m1 := h.getLsbD 1
  let m0 := h.getLsbD 0
  let a := srcf.extractLsb' 5 5
  let b := srcf.extractLsb' 0 5
  match ropOf c m0 with
  | none => do err .unassigned; pure ⟨gd, .ret⟩
  | some r => do
    must (!m0 || modSigned c) .reserved
    match r with
    | .bin op =>
      if m1 then do
        let d ← pDst dst
        pure ⟨gd, .split op d a b⟩
      else do
        let d ← pRDst dst; let s ← pSrc srcf
        pure ⟨gd, .two op d s⟩
    | .una op => do
      must (!m1) .reserved; let d ← pDst dst; let s ← pSrc srcf
      pure ⟨gd, .una op d s⟩
    | .cmp k => do
      must m1 .reserved; let p ← pPred dst
      pure ⟨gd, .cmp k p a b⟩
    | .ld dbl sp => do
      must (!m1) .reserved; let d ← pLDst dst; let bs ← pBase srcf
      pure ⟨gd, .ld dbl sp d bs⟩
    | .st dbl scr => do
      must (!m1) .reserved; let d ← pSrc dst; let bs ← pBase srcf
      pure ⟨gd, .st dbl scr d bs⟩
    | .bra => do
      must (!m1) .reserved; zero dst
      match ← pSrc srcf with
      | .imm i => pure ⟨gd, .bra i⟩
      | _ => do err .operand; pure ⟨gd, .bra 0⟩
    | .ret => do
      must (!m1) .reserved; zero dst; zero srcf
      pure ⟨gd, .ret⟩

/-- The main-file registers a raw specifier names. -/
def rawG (s : BitVec 10) (wide : Bool) : List Nat := if s.extractLsb' 8 2 = 0 then gOf (s.extractLsb' 0 8) wide else []

def rawDst (u : HalfUse) (s : BitVec 10) (wide : Bool) : HalfUse :=
  let lv := s.extractLsb' 8 2
  if lv = 0 then { u with gs := gOf (s.extractLsb' 0 8) wide }
  else if lv = 1 then { u with os := [(s.extractLsb' 0 3).toNat] }
  else if lv = 2 then { u with lat := true }
  else u

/-- What a half with an operand that is not admitted names for the rules of R72: its fields as they stand. -/
def rawUse (h : BitVec 31) : HalfUse :=
  let dst := h.extractLsb' 12 10
  let srcf := h.extractLsb' 2 10
  let ab := [(srcf.extractLsb' 5 5).toNat, (srcf.extractLsb' 0 5).toNat]
  match ropOf (h.extractLsb' 25 6) (h.getLsbD 0) with
  | none => HalfUse.none
  | some (.bin _) =>
    if h.getLsbD 1 then rawDst { HalfUse.none with reads := ab } dst false
    else rawDst { HalfUse.none with reads := rawG dst false ++ rawG srcf false } dst false
  | some (.una _) => rawDst { HalfUse.none with reads := rawG srcf false } dst false
  | some (.cmp _) => { HalfUse.none with reads := ab, ps := [(dst.extractLsb' 0 4).toNat] }
  | some (.ld dbl sp) => rawDst { HalfUse.none with reads := rawG srcf (sp == Space.g), mem := true } dst dbl
  | some (.st dbl scr) => { HalfUse.none with reads := rawG dst dbl ++ rawG srcf (!scr), mem := true }
  | some .bra => { HalfUse.none with ctl := true }
  | some .ret => { HalfUse.none with ctl := true }

/-- A literal-form word (R74, R75). -/
def pLit (w : DWord) : Dec LitWord := do
  let c := w.extractLsb' 56 6
  let gd := pRGuard (w.extractLsb' 53 3)
  let dst := w.extractLsb' 43 10
  let srcf := w.extractLsb' 33 10
  let m := w.getLsbD 32
  let lit := w.extractLsb' 0 32
  match ropOf c m with
  | none => do err .unassigned; pure ⟨gd, .bra 0⟩
  | some r => do
    match r with
    | .bin op => do
      must (!m || modSigned c || op.hasD) .reserved
      let d ← pDst dst; let a ← pSrc srcf
      pure ⟨gd, .bin op (m && op.hasD) d a lit⟩
    | .una op => do
      must (!m || op == .mov) .reserved
      let d ← pDst dst; zero srcf
      pure ⟨gd, .una op m d lit⟩
    | .cmp k => do
      must (!m || modSigned c) .reserved
      let p ← pPred dst; let a ← pSrc srcf
      pure ⟨gd, .cmp k p a lit⟩
    | .ld dbl sp => do
      must (!m) .reserved
      let d ← pLDst dst; let bs ← pBase srcf
      pure ⟨gd, .ld dbl sp d bs lit⟩
    | .st dbl scr => do
      must (!m) .reserved
      let d ← pSrc dst; let bs ← pBase srcf
      pure ⟨gd, .st dbl scr d bs lit⟩
    | .bra => do
      must (!m) .reserved; zero dst; zero srcf
      pure ⟨gd, .bra lit⟩
    | .ret => do err .unassigned; pure ⟨gd, .bra 0⟩

/-! ### The decoder -/

/-- Every encoding fault of a word, and the instruction it is when it holds none. -/
def decodeAll (regs : Nat) (w : DWord) : List EncFault × Instr :=
  if w.getLsbD 63 then
    if w.getLsbD 62 then
      let (x, e) := (pLit w).run []
      (e ++ (Instr.literalFormWord x).chk regs, .literalFormWord x)
    else
      let b1 := w.extractLsb' 31 31
      let b2 := w.extractLsb' 0 31
      let (h1, e1) := (pHalf b1).run []
      let (h2, e2) := (pHalf b2).run []
      let u1 := if e1 = [] then h1.op.use else rawUse b1
      let u2 := if e2 = [] then h2.op.use else rawUse b2
      (e1 ++ e2 ++ h1.op.chk regs ++ h2.op.chk regs ++ need (pairOk u1 u2) .pairing, .pairFormWord h1 h2)
  else
    let (i, e) := (decFull (Fields.ofWord w)).run []
    (e ++ i.chk regs, i)

/-- The instruction a word is under an allocation of `regs` registers, or the encoding fault it raises. -/
def decodeWord (regs : Nat) (w : DWord) : Except (BitVec 8) Instr :=
  let (e, i) := decodeAll regs w
  match lowestCode e with
  | none => .ok i
  | some c => .error c

/-- A value of `n` bytes, least significant first (R32, R59). -/
def leNat : List Byte → Nat
  | [] => 0
  | b :: bs => b.toNat + 256 * leNat bs

/-- The low `n` bytes of a value, least significant first. -/
def leBytes : Nat → Nat → List Byte
  | 0, _ => []
  | n + 1, v => BitVec.ofNat 8 v :: leBytes n (v / 256)

/-- Decoding eight bytes in memory order (R59); fewer bytes are no word. -/
def decodeBytes (regs : Nat) (bs : List Byte) : Option Instr :=
  if bs.length < 8 then none
  else
    match decodeWord regs (BitVec.ofNat 64 (leNat (bs.take 8))) with
    | .ok i => some i
    | .error _ => none

/-- The instruction the decoder reads from a word given as a number (bit 0 least significant), with the full
allocation of 256 registers. -/
def decodeTableWord (nbits w : Nat) : Option Instr :=
  if nbits ≤ 64 then decodeBytes 256 (leBytes 8 (w % 2 ^ nbits)) else none

/-! ### The encoder -/

def Src.enc : Src → BitVec 10
  | .g i => (0#2 ++ i : BitVec 10)
  | .o i => (1#2 ++ 0#5 ++ i : BitVec 10)
  | .lat => 0x200
  | .imm v => (3#2 ++ v : BitVec 10)

def Dst.enc : Dst → BitVec 10
  | .g i => (0#2 ++ i : BitVec 10)
  | .o i => (1#2 ++ 0#5 ++ i : BitVec 10)
  | .lat => 0x200
  | .discard => 0x300

def RDst.enc (d : RDst) : BitVec 10 := d.toDst.enc
def LDst.enc (d : LDst) : BitVec 10 := d.toDst.enc
def ldstOptEnc : Option LDst → BitVec 10
  | none => 0x300
  | some d => d.enc
def Base.enc : Base → BitVec 10
  | .g i => (0#2 ++ i : BitVec 10)
  | .o i => (1#2 ++ 0#5 ++ i : BitVec 10)
  | .lat => 0x200
def gEnc (i : BitVec 8) : BitVec 10 := (0#2 ++ i : BitVec 10)
def predEnc (p : PReg) : BitVec 10 := BitVec.ofNat 10 p.val
def bb (b : Bool) : BitVec 1 := BitVec.ofBool b

/-- A full-form word from its guard and fields. -/
def full (gd : Guard) (major : BitVec 7) (dst sa sb sc : BitVec 10) (func : BitVec 11) : Option DWord :=
  match gd with
  | .always => some (Fields.toWord ⟨major, 0, 15, dst, sa, sb, sc, func⟩)
  | .pred i neg => some (Fields.toWord ⟨major, bb neg, BitVec.ofNat 4 i.val, dst, sa, sb, sc, func⟩)

def fSgD (sg : Sg) (w : Bool) : BitVec 11 := (0#8 ++ sg.code ++ bb w : BitVec 11)
def fD (w : Bool) : BitVec 11 := (0#10 ++ bb w : BitVec 11)
def fSelD (s : BitVec 3) (w : Bool) : BitVec 11 := (s ++ 0#7 ++ bb w : BitVec 11)
def fRm (rm : Rm) : BitVec 11 := (0#5 ++ rm.code ++ 0#4 : BitVec 11)
def fSelRm (s : BitVec 3) (rm : Rm) : BitVec 11 := (s ++ 0#2 ++ rm.code ++ 0#4 : BitVec 11)
def fSel (s : BitVec 3) : BitVec 11 := (s ++ 0#8 : BitVec 11)
def fTag (t : BitVec 8) : BitVec 11 := (0#3 ++ t : BitVec 11)
def fMem (w : MW) (sp : Space) (h : Hint) (low : BitVec 4) : BitVec 11 := (w.code ++ sp.code ++ h.code ++ low : BitVec 11)

def Alu2.enc (m : BitVec 7) (x : Alu2) : Option DWord := full x.gd m x.d.enc x.a.enc x.b.enc 0 (fSgD x.sg x.w)
def Log2.enc (m : BitVec 7) (x : Log2) : Option DWord := full x.gd m x.d.enc x.a.enc x.b.enc 0 (fD x.w)
def Alu3.enc (m : BitVec 7) (x : Alu3) : Option DWord := full x.gd m x.d.enc x.a.enc x.b.enc x.c.enc (fSgD x.sg x.w)
def Tri.enc (m : BitVec 7) (x : Tri) : Option DWord := full x.gd m x.d.enc x.a.enc x.b.enc x.c.enc 0
def Alu1.enc (m : BitVec 7) (x : Alu1) : Option DWord := full x.gd m x.d.enc x.a.enc 0 0 (fSgD x.sg x.w)
def Log1.enc (m : BitVec 7) (x : Log1) : Option DWord := full x.gd m x.d.enc x.a.enc 0 0 (fD x.w)
def Log1.encSel (m : BitVec 7) (s : BitVec 3) (x : Log1) : Option DWord := full x.gd m x.d.enc x.a.enc 0 0 (fSelD s x.w)
def F2.enc (m : BitVec 7) (x : F2) : Option DWord := full x.gd m x.d.enc x.a.enc x.b.enc 0 (fRm x.rm)
def F2n.enc (m : BitVec 7) (x : F2n) : Option DWord := full x.gd m x.d.enc x.a.enc x.b.enc 0 0
def F3.enc (m : BitVec 7) (x : F3) : Option DWord := full x.gd m x.d.enc x.a.enc x.b.enc x.c.enc (fRm x.rm)
def F1.encSel (m : BitVec 7) (s : BitVec 3) (x : F1) : Option DWord := full x.gd m x.d.enc x.a.enc 0 0 (fSel s)
def F1r.encSel (m : BitVec 7) (s : BitVec 3) (x : F1r) : Option DWord := full x.gd m x.d.enc x.a.enc 0 0 (fSelRm s x.rm)
def H2.enc (m : BitVec 7) (x : H2) : Option DWord :=
  full x.gd m x.d.enc x.a.enc x.b.enc 0 (0#5 ++ x.rm.code ++ bb x.bf ++ 0#3 : BitVec 11)
def PredArg.enc (s : BitVec 3) (x : PredArg) : Option DWord :=
  full x.gd 0x1F (predEnc x.pd) (predEnc x.pa) (predEnc x.pb) 0 (s ++ 0#6 ++ bb x.nb ++ bb x.na : BitVec 11)
def DotArg.enc (m : BitVec 7) (x : DotArg) : Option DWord :=
  match x.s with
  | none => full x.gd m x.d.enc x.a.enc x.b.enc 0 (x.sa ++ x.sb ++ 0#5 : BitVec 11)
  | some s => full x.gd m x.d.enc x.a.enc x.b.enc s.enc (x.sa ++ x.sb ++ 1#1 ++ 0#4 : BitVec 11)
def GOnly.enc (m : BitVec 7) (func : BitVec 11) (x : GOnly) : Option DWord := full x.gd m 0 0 0 0 func
def FragArg.enc (m : BitVec 7) (x : FragArg) : Option DWord :=
  full x.gd m (gEnc x.r) (gEnc x.base) x.stride.enc 0 (x.sp.code ++ bb x.cd ++ 0#8 : BitVec 11)
def BraArg.enc (m : BitVec 7) (x : BraArg) : Option DWord :=
  full x.gd m (x.off.extractLsb' 20 10) (x.off.extractLsb' 10 10) (x.off.extractLsb' 0 10) 0 0
def BrxArg.enc (m : BitVec 7) (x : BrxArg) : Option DWord := full x.gd m 0 x.a.enc 0 0 (fTag x.tag)
def TcallArg.enc (m : BitVec 7) (x : TcallArg) : Option DWord :=
  full x.gd m 0 x.a.enc x.b.enc 0 (x.tag ++ x.cntm1 : BitVec 11)
def TvoteArg.enc (x : TvoteArg) : Option DWord :=
  let f (s : BitVec 3) : BitVec 11 := (s ++ 0#7 ++ bb x.neg : BitVec 11)
  match x.mode with
  | .all p => full x.gd 0x4C (predEnc p) (predEnc x.ps) 0 0 (f 0)
  | .any p => full x.gd 0x4C (predEnc p) (predEnc x.ps) 0 0 (f 1)
  | .uni p => full x.gd 0x4C (predEnc p) (predEnc x.ps) 0 0 (f 2)
  | .ballot d b => full x.gd 0x4C d.enc (predEnc x.ps) b.enc 0 (f 3)
  | .count d => full x.gd 0x4C d.enc (predEnc x.ps) 0 0 (f 4)
def TxchArg.enc (m : BitVec 7) (x : TxchArg) : Option DWord := full x.gd m x.d.enc x.a.enc x.b.enc 0 (fD x.w)
def AtomArg.enc (x : AtomArg) : Option DWord :=
  full x.gd 0x54 (ldstOptEnc x.d) x.base.enc x.b.enc (match x.c with | none => 0 | some c => c.enc)
    (bb x.w ++ bb x.scr ++ x.op.code ++ x.order.code ++ x.scope.code : BitVec 11)
def RedArg.enc (x : RedArg) : Option DWord :=
  full x.gd 0x55 0 x.base.enc x.b.enc 0
    (bb x.w ++ bb x.scr ++ x.op.code ++ bb x.rel ++ 0#1 ++ x.scope.code : BitVec 11)
def cpyFunc (dscr : Bool) (ssp : Space) (bar : Option Base) (tag : BitVec 6) : BitVec 11 :=
  (0#1 ++ bb dscr ++ ssp.code ++ bb bar.isSome ++ tag : BitVec 11)
def barEnc : Option Base → BitVec 10
  | none => 0
  | some b => b.enc
def CpydArg.enc (m : BitVec 7) (x : CpydArg) : Option DWord :=
  full x.gd m x.db.enc x.sb.enc (gEnc x.desc) (barEnc x.bar) (cpyFunc x.dscr x.ssp x.bar x.tag)
def BarArg.enc (m : BitVec 7) (x : BarArg) : Option DWord := full x.gd m 0 x.bar.enc x.a.enc 0 0
def LineArg.enc (m : BitVec 7) (x : LineArg) : Option DWord := full x.gd m 0 x.base.enc x.off.enc 0 0
def TagArg.enc (s : BitVec 3) (x : TagArg) : Option DWord := full x.gd 0x67 0 x.a.enc 0 0 (fSel s)

def RBin.code : RBin → BitVec 6
  | .add => 0x00 | .sub => 0x01 | .mul => 0x02 | .and => 0x03 | .or => 0x04 | .xor => 0x05 | .andn => 0x06
  | .shl => 0x07 | .shr => 0x08 | .sar => 0x09 | .mins => 0x0A | .minz => 0x0A | .maxs => 0x0B | .maxz => 0x0B
  | .fadd => 0x18 | .fsub => 0x19 | .fmul => 0x1A | .fmin => 0x1B | .fmax => 0x1C
def RBin.mod : RBin → Bool
  | .minz => true
  | .maxz => true
  | _ => false
def RUn.code : RUn → BitVec 6 | .mov => 0x0C | .not => 0x0D | .neg => 0x0E
def RCmp.code : RCmp → BitVec 6
  | .eq => 0x10 | .ne => 0x11 | .lts => 0x12 | .ltz => 0x12 | .les => 0x13 | .lez => 0x13
  | .gts => 0x14 | .gtz => 0x14 | .ges => 0x15 | .gez => 0x15
def RCmp.mod : RCmp → Bool
  | .ltz => true
  | .lez => true
  | .gtz => true
  | .gez => true
  | _ => false
def ldCode (dbl : Bool) : Space → BitVec 6
  | .g => if dbl then 0x23 else 0x20
  | .s => if dbl then 0x24 else 0x21
  | .k => if dbl then 0x25 else 0x22
def stCode (dbl scr : Bool) : BitVec 6 :=
  if dbl then (if scr then 0x29 else 0x28) else (if scr then 0x27 else 0x26)
def rgEnc : RGuard → BitVec 3
  | none => 0
  | some p => BitVec.ofNat 3 (p.val + 1)

def halfWord (c : BitVec 6) (gd : RGuard) (dst srcf : BitVec 10) (m1 m0 : Bool) : BitVec 31 :=
  (c ++ rgEnc gd ++ dst ++ srcf ++ bb m1 ++ bb m0 : BitVec 31)

def Half.enc (h : Half) : BitVec 31 :=
  match h.op with
  | .two op d s => halfWord op.code h.gd d.enc s.enc false op.mod
  | .split op d a b => halfWord op.code h.gd d.enc (a ++ b : BitVec 10) true op.mod
  | .cmp c p a b => halfWord c.code h.gd (predEnc p) (a ++ b : BitVec 10) true c.mod
  | .una op d s => halfWord op.code h.gd d.enc s.enc false false
  | .ld dbl sp d b => halfWord (ldCode dbl sp) h.gd d.enc b.enc false false
  | .st dbl scr d b => halfWord (stCode dbl scr) h.gd d.enc b.enc false false
  | .bra i => halfWord 0x30 h.gd 0 (3#2 ++ i : BitVec 10) false false
  | .ret => halfWord 0x31 h.gd 0 0 false false

def litWord (c : BitVec 6) (gd : RGuard) (dst srcf : BitVec 10) (m : Bool) (lit : BitVec 32) : DWord :=
  (3#2 ++ c ++ rgEnc gd ++ dst ++ srcf ++ bb m ++ lit : BitVec 64)

def LitWord.enc (x : LitWord) : DWord :=
  match x.op with
  | .bin op dbl d a lit => litWord op.code x.gd d.enc a.enc (op.mod || dbl) lit
  | .cmp c p a lit => litWord c.code x.gd (predEnc p) a.enc c.mod lit
  | .una op dbl d lit => litWord op.code x.gd d.enc 0 dbl lit
  | .ld dbl sp d b lit => litWord (ldCode dbl sp) x.gd d.enc b.enc false lit
  | .st dbl scr d b lit => litWord (stCode dbl scr) x.gd d.enc b.enc false lit
  | .bra lit => litWord 0x30 x.gd 0 0 false lit

/-- The word of an instruction; a step of an agent or of the outside has none. -/
def encode : Instr → Option DWord
  | .add x => x.enc 0x00 | .sub x => x.enc 0x01 | .mul x => x.enc 0x02 | .mulh x => x.enc 0x03 | .mad x => x.enc 0x04
  | .div x => x.enc 0x05 | .rem x => x.enc 0x06 | .and x => x.enc 0x07 | .or x => x.enc 0x08 | .xor x => x.enc 0x09
  | .andn x => x.enc 0x0A | .orn x => x.enc 0x0B | .not x => x.enc 0x0C | .shl x => x.enc 0x0D | .shr x => x.enc 0x0E
  | .sar x => x.enc 0x0F | .rol x => x.enc 0x10 | .ror x => x.enc 0x11 | .shf x => x.enc 0x12 | .min x => x.enc 0x13
  | .max x => x.enc 0x14 | .abs x => x.enc 0x15 | .neg x => x.enc 0x16
  | .popc x => x.encSel 0x17 0 | .clz x => x.encSel 0x17 1 | .ctz x => x.encSel 0x17 2 | .brev x => x.encSel 0x17 3
  | .bfx x => full x.gd 0x18 x.d.enc x.a.enc x.b.enc 0 (0#1 ++ x.len ++ x.sg.code ++ bb x.w : BitVec 11)
  | .bfi x => full x.gd 0x19 x.d.enc x.a.enc x.b.enc x.c.enc (0#1 ++ x.len ++ 0#2 ++ bb x.w : BitVec 11)
  | .bperm x => x.enc 0x1A
  | .sel x => full x.gd 0x1B x.d.enc x.a.enc x.b.enc (predEnc x.p) (0#7 ++ bb x.neg ++ 0#2 ++ bb x.w : BitVec 11)
  | .mov x => x.enc 0x1C
  | .lea x => full x.gd 0x1D x.d.enc x.a.enc x.b.enc 0 (0#5 ++ x.n ++ x.sg.code ++ bb x.w : BitVec 11)
  | .cmp x => full x.gd 0x1E (predEnc x.p) x.a.enc x.b.enc 0 (0#5 ++ x.cond.code ++ x.sg.code ++ bb x.w : BitVec 11)
  | .pand x => x.enc 0 | .por x => x.enc 1 | .pxor x => x.enc 2
  | .pnot x => full x.gd 0x1F (predEnc x.pd) (predEnc x.pa) 0 0 (fSel 3)
  | .pmov x => match x.dir with
    | .toReg d => full x.gd 0x1F d.enc 0 0 0 (fSelD 4 false)
    | .fromReg a b => full x.gd 0x1F 0 a.enc b.enc 0 (fSelD 4 true)
  | .gets x => full x.gd 0x1F x.d.enc 0 0 0 (5#3 ++ bb x.w ++ x.sr.code : BitVec 11)
  | .sets x => full x.gd 0x1F 0 x.a.enc 0 0 (6#3 ++ bb x.w ++ x.sr.code : BitVec 11)
  | .fadd x => x.enc 0x20 | .fsub x => x.enc 0x21 | .fmul x => x.enc 0x22 | .ffma x => x.enc 0x23
  | .fmin x => x.enc 0x24 | .fmax x => x.enc 0x25
  | .fcmp x => full x.gd 0x26 (predEnc x.p) x.a.enc x.b.enc 0 (0#8 ++ x.cond.code : BitVec 11)
  | .fclass x => x.encSel 0x27 0 | .fdiv x => x.enc 0x28
  | .frcp x => x.encSel 0x29 0 | .frsq x => x.encSel 0x29 1 | .fsqrt x => x.encSel 0x29 2 | .fexp2 x => x.encSel 0x29 3
  | .flog2 x => x.encSel 0x29 4 | .fsin x => x.encSel 0x29 5 | .fcos x => x.encSel 0x29 6 | .ftanh x => x.encSel 0x29 7
  | .fscale x => x.enc 0x2A | .hfma2 x => x.enc 0x2B | .bfma2 x => x.enc 0x2C | .hadd2 x => x.enc 0x2D | .hmul2 x => x.enc 0x2E
  | .cvt x => full x.gd 0x2F x.d.enc x.a.enc 0 0 (bb x.toSlot ++ x.rt.code ++ x.slot ++ x.rm.code ++ bb x.sat ++ 0#1 : BitVec 11)
  | .pack x => full x.gd 0x30 x.d.enc x.a.enc x.b.enc 0 (x.slot ++ x.e ++ x.rm.code ++ bb x.sat ++ 0#2 : BitVec 11)
  | .unpack x => full x.gd 0x31 x.d.enc x.a.enc 0 0 (x.slot ++ x.e ++ 0#5 : BitVec 11)
  | .dot8 x => x.enc 0x32 | .dot4 x => x.enc 0x33
  | .doth2 x => full x.gd 0x34 x.d.enc x.a.enc x.b.enc 0 (0#7 ++ bb x.bf ++ 0#3 : BitVec 11)
  | .fmtq x => full x.gd 0x35 x.d.enc x.a.enc 0 0 (x.slot ++ 0#8 : BitVec 11)
  | .mma x => full x.gd 0x38 (gEnc x.d) (gEnc x.a) (gEnc x.b) (match x.c with | none => 0x300 | some c => gEnc c)
      (x.sa ++ x.sb ++ x.fuse ++ 0#3 : BitVec 11)
  | .mmas x => full x.gd 0x39 (gEnc x.d) (gEnc x.a) (gEnc x.b) (gEnc x.s) (x.sa ++ x.sb ++ x.fuse ++ 0#3 : BitVec 11)
  | .mzero x => full x.gd 0x3A (gEnc x.d) 0 0 0 (fD x.cd)
  | .mfence x => x.enc 0x3B 0
  | .ldfr x => x.enc 0x3C | .stfr x => x.enc 0x3D
  | .mcvt x => full x.gd 0x3E (gEnc x.d) (gEnc x.a) 0 0 (x.slot ++ x.h ++ x.rm.code ++ bb x.sat ++ 0#3 : BitVec 11)
  | .mtrn x => full x.gd 0x3F (gEnc x.d) (gEnc x.a) 0 0 (fD x.w32)
  | .bra x => x.enc 0x40 | .brx x => x.enc 0x41 | .call x => x.enc 0x42 | .callx x => x.enc 0x43
  | .ret x => x.enc 0x44 0
  | .pad x => full .always 0x45 0 0 0 0 (fTag x.tag)
  | .rejoin x => x.enc 0x46 (fSel 0)
  | .yld x => full x.gd 0x46 0 0 0 0 (1#3 ++ 0#4 ++ x.k : BitVec 11)
  | .nop x => x.enc 0x46 (fSel 2)
  | .exit x => x.enc 0x47 0
  | .tcall x => x.enc 0x48 | .tcalls x => x.enc 0x49
  | .tret x => x.enc 0x4A 0 | .tbar x => x.enc 0x4B 0
  | .tvote x => x.enc
  | .txch x => x.enc 0x4D
  | .tmigr x => full x.gd 0x4E 0 x.a.enc 0 0 0
  | .glaunch x => x.enc 0x4F
  | .ld x => full x.gd 0x50 x.d.enc x.base.enc x.off.enc 0 (fMem x.w x.sp x.hint (bb x.yld ++ bb x.sx ++ 0#2 : BitVec 4))
  | .st x => full x.gd 0x51 0 x.base.enc x.off.enc x.data.enc (fMem x.w x.sp x.hint 0)
  | .lda x => full x.gd 0x52 x.d.enc x.base.enc x.off.enc 0 (fMem x.w x.sp x.hint (bb x.yld ++ x.scope.code : BitVec 4))
  | .stl x => full x.gd 0x53 0 x.base.enc x.off.enc x.data.enc (fMem x.w x.sp x.hint (0#1 ++ x.scope.code : BitVec 4))
  | .atom x => x.enc
  | .red x => x.enc
  | .fence x => full x.gd 0x56 0 0 0 0 (0#6 ++ x.order.code ++ x.scope.code : BitVec 11)
  | .pref x => full x.gd 0x57 0 x.base.enc x.off.enc 0 (0#3 ++ bb x.konst ++ 0#1 ++ x.hint.code ++ bb x.l2 ++ 0#3 : BitVec 11)
  | .disc x => x.enc 0x58 | .clean x => x.enc 0x59
  | .cpy x => full x.gd 0x60 x.db.enc x.sb.enc x.len.enc (barEnc x.bar) (cpyFunc x.dscr x.ssp x.bar x.tag)
  | .cpyt x => x.enc 0x61 | .cpyg x => x.enc 0x62
  | .bari x => x.enc 0x63
  | .bara x => full x.gd 0x64 (ldstOptEnc x.d) x.bar.enc 0 0 0
  | .barx x => x.enc 0x65 | .barw x => x.enc 0x66
  | .waitany x => x.enc 0 | .waitall x => x.enc 1
  | .ffr x => full x.gd 0x67 x.d.enc x.a.enc 0 0 (fSelD 2 x.clr)
  | .emit x => full x.gd 0x68 0 x.a.enc (gEnc x.r) 0 (fD x.ds)
  | .qrd x => full x.gd 0x69 (gEnc x.r) x.a.enc 0 0 (fD x.ds)
  | .qlen x => full x.gd 0x6A x.d.enc x.a.enc 0 0 (fD x.ds)
  | .mload x => full x.gd 0x6C 0 x.a.enc x.b.enc 0 0
  | .marm x => full x.gd 0x6D 0 x.a.enc 0 0 0
  | .mdis x => full x.gd 0x6E 0 x.a.enc 0 0 0
  | .mstat x => full x.gd 0x6F (gEnc x.d) x.a.enc x.b.enc 0 0
  | .wait x =>
    let v : BitVec 30 := (x.ld ++ x.st ++ x.cp ++ x.tl ++ 0#6 : BitVec 30)
    full x.gd 0x70 (v.extractLsb' 20 10) (v.extractLsb' 10 10) (v.extractLsb' 0 10) 0 0
  | .cntr x => full x.gd 0x71 x.d.enc 0 0 0 0
  | .amb x => full x.gd 0x72 x.d.enc 0 0 0 0
  | .boost x => full x.gd 0x73 x.d.enc x.a.enc 0 0 0
  | .trap x => full x.gd 0x74 0 x.a.enc 0 0 (fTag x.n)
  | .serv x => full x.gd 0x75 0 x.a.enc x.b.enc 0 0
  | .brk x => full x.gd 0x76 0 0 0 0 (fTag x.n)
  | .pairFormWord h k => some (2#2 ++ h.enc ++ k.enc : BitVec 64)
  | .literalFormWord x => some x.enc
  | _ => none

end Sys2Proof
end

