-- ==== Sys2Proof/Config.lean ====
section
/-!
DEFINITION. What an implementation fixes and the manual leaves open: the free values (log 5). Each is an opaque constant
with no body, so nothing can be proved about its value, and a statement holds whatever it is.
-/

namespace Sys2Proof.Config

/-- The n-th free yes-or-no choice between outcomes the manual allows ("both allowed", 01 to 17). -/
opaque freeBool : Nat → Bool

/-- The n-th free 32-bit value: an unpredictable register (R141, R142, R151). -/
opaque freeWord : Nat → Word

/-- The n-th free byte: memory the manual calls unpredictable (R151, R192, R217). -/
opaque freeByte : Nat → Byte

/-- The n-th free number: a choice of one among several (R182 and others name each use). -/
opaque freeNat : Nat → Nat

/-- The two 256-bit keys of the n-th draw (R191, R403). -/
opaque drawnKey : Nat → BitVec 512

/-- The number of sets of an L1, as an exponent, and the place of a line number among them (R187 gives the ways no number). -/
opaque l1SetLog : Nat
opaque l1Index : Nat → Nat

/-- Whether FRSQ (0), FEXP2 (1) or FLOG2 (2) returns the upper of the two bracketing values for an input: a fixed
function of the input bits (R128). -/
opaque approxUp : Nat → Word → Bool

/-- What FSIN (0), FCOS (1) and FTANH (2) return for an input, before the bound of R128 is imposed: a fixed function of
the input bits. -/
opaque approxFn : Nat → Word → Word

/-- The compressed size of a 128-byte line, less one, in 32-byte sectors (R188, R189 give no algorithm). -/
opaque compSize : List Byte → BitVec 2

/-- How far a reading of device time lies behind it, mod 3 (R359: within 2 ns). -/
opaque timeSkew : Nat → Nat

/-- What the boot ROM's checks find in a recovery image supplied through IMAGE, by its bytes (R403: the signature algorithms and the
fused keys are not the model's). -/
opaque recoveryImage : List (Nat × Byte) → BootImage

/-- The n-th ECDSA P-384 signature of the SPDM responder (R404). -/
opaque spdmSignature : Nat → BitVec 768

/-- What a measurement index gives for what it covers, numbered (R404: SHA-384 over contents that the model does not hold). -/
opaque measure : Nat → List Nat → BitVec 384

/-- Whether a page of a logical device's host addresses lies in the memory of another package of the Canopy domain, outside the host
domain (R230, R255: `.fab` covers it and `.sys` does not; no table of the manual says which host addresses these are). -/
opaque farPage : Nat → Nat → Bool

end Sys2Proof.Config
end

