-- ==== Sys2Proof/Machine/Flags.lean ====
section
/-!
DEFINITION. Number formats, exact values, rounding and every floating-point flag (05 R107 to R118, R128; 01 R34, R35).
A finite value is a sign, a natural significand and a binary exponent, so sums, products and roundings are exact.
-/

namespace Sys2Proof.Machine

/-- sr.fflags [4:0]: nx, uf, of, dz, nv from bit 4 down (R108). -/
abbrev Fl := BitVec 5

def nv : Fl := 1
def dz : Fl := 2
def ovf : Fl := 4
def unf : Fl := 8
def nx : Fl := 16
def flIf (b : Bool) (f : Fl) : Fl := if b then f else 0

/-- The floating formats of R110. -/
inductive FFmt where
  | f32 | f16 | bf16 | e4m3 | e5m2 | e2m1
  deriving DecidableEq, Repr

/-- Mantissa width. -/
def FFmt.mw : FFmt → Nat
  | .f32 => 23 | .f16 => 10 | .bf16 => 7 | .e4m3 => 3 | .e5m2 => 2 | .e2m1 => 1

/-- Exponent width. -/
def FFmt.ew : FFmt → Nat
  | .f32 => 8 | .f16 => 5 | .bf16 => 8 | .e4m3 => 4 | .e5m2 => 5 | .e2m1 => 2

def FFmt.bias : FFmt → Nat
  | .f32 => 127 | .f16 => 15 | .bf16 => 127 | .e4m3 => 7 | .e5m2 => 15 | .e2m1 => 1

/-- Width in bits. -/
def FFmt.width (f : FFmt) : Nat := 1 + f.ew + f.mw

/-- The format has infinities, at the top exponent. -/
def FFmt.ieee : FFmt → Bool
  | .e4m3 => false | .e2m1 => false | _ => true

/-- Magnitude bits of the largest finite value. -/
def FFmt.maxEnc : FFmt → Nat
  | .f32 => 0x7F7FFFFF | .f16 => 0x7BFF | .bf16 => 0x7F7F | .e4m3 => 0x7E | .e5m2 => 0x7B | .e2m1 => 0x7

/-- Magnitude bits of infinity, where there is one. -/
def FFmt.infEnc : FFmt → Nat
  | .f32 => 0x7F800000 | .f16 => 0x7C00 | .bf16 => 0x7F80 | .e4m3 => 0x7F | .e5m2 => 0x7C | .e2m1 => 0x7

/-- The canonical NaN (R111); e2m1 has none and takes +0 (R113). -/
def FFmt.nanEnc : FFmt → Nat
  | .f32 => 0x7FC00000 | .f16 => 0x7E00 | .bf16 => 0x7FC0 | .e4m3 => 0x7F | .e5m2 => 0x7E | .e2m1 => 0

/-- An exact value: (-1)^neg × m × 2^e, an infinity, or NaN. A zero has m = 0 and keeps its sign. -/
inductive FV where
  | fin (neg : Bool) (m : Nat) (e : Int)
  | inf (neg : Bool)
  | nan
  deriving DecidableEq, Repr

def FV.isNan : FV → Bool
  | .nan => true
  | _ => false

def FV.isZero : FV → Bool
  | .fin _ m _ => m == 0
  | _ => false

/-- `V(fmt, bits)` (R110, R113). -/
def V (f : FFmt) (b : Nat) : FV :=
  let mag := b % 2 ^ (f.ew + f.mw)
  let neg := b / 2 ^ (f.ew + f.mw) % 2 == 1
  let E := mag / 2 ^ f.mw
  let M := mag % 2 ^ f.mw
  if f.ieee && mag == f.infEnc then .inf neg
  else if (f.ieee && decide (f.infEnc < mag)) || (f == .e4m3 && mag == 0x7F) then .nan
  else if E = 0 then .fin neg M (1 - f.bias - f.mw)
  else .fin neg (2 ^ f.mw + M) (E - f.bias - f.mw)

/-- A signalling NaN of f32, f16 or bf16 (R111). -/
def isSnan (f : FFmt) (b : Nat) : Bool :=
  match f with
  | .f32 => (V f b).isNan && b / 2 ^ 22 % 2 == 0
  | .f16 => (V f b).isNan && b / 2 ^ 9 % 2 == 0
  | .bf16 => (V f b).isNan && b / 2 ^ 6 % 2 == 0
  | _ => false

/-- The flag of reading an operand (R111). -/
def readFl (f : FFmt) (b : Nat) : Fl := flIf (isSnan f b) nv

/-- Number of bits of a natural number. -/
def bitLen (m : Nat) : Nat := if m = 0 then 0 else Nat.log2 m + 1

/-- What rounding does with the bits it drops: nothing, less than half, exactly half, more than half a unit. -/
inductive Rest where
  | exact | below | half | above
  deriving DecidableEq, Repr

/-- `m / 2^k` cut to an integer, with what was dropped. -/
def cut (m k : Nat) : Nat × Rest :=
  if k = 0 then (m, .exact)
  else if bitLen m + 1 < k then (0, if m = 0 then .exact else .below)
  else
    let n := m / 2 ^ k
    let r := m % 2 ^ k
    let h := 2 ^ (k - 1)
    (n, if r = 0 then .exact else if r < h then .below else if r = h then .half else .above)

/-- Whether a magnitude is rounded up (R34). -/
def roundUp (rm : Rm) (neg : Bool) (n : Nat) (r : Rest) : Bool :=
  match r with
  | .exact => false
  | _ =>
    match rm with
    | .rne => r == .above || (r == .half && n % 2 == 1)
    | .rz => false
    | .ru => !neg
    | .rd => neg

/-- The magnitude `m × 2^e` rounded to precision `p` at quantum at least `2^qmin`: (n, q, inexact) for n × 2^q. -/
def roundAt (rm : Rm) (neg : Bool) (m : Nat) (e q : Int) : Nat × Bool :=
  if q ≤ e then (m * 2 ^ (e - q).toNat, false)
  else
    let (n, r) := cut m (q - e).toNat
    (if roundUp rm neg n r then n + 1 else n, r != .exact)

/-- Magnitude bits that an overflow gives (R34). -/
def overEnc (f : FFmt) (rm : Rm) (neg : Bool) (inf : Nat) : Nat :=
  match rm with
  | .rne => inf
  | .rz => f.maxEnc
  | .ru => if neg then f.maxEnc else inf
  | .rd => if neg then inf else f.maxEnc

/-- Sign and magnitude put together. -/
def signed (f : FFmt) (neg : Bool) (mag : Nat) : Nat := (if neg then 2 ^ (f.ew + f.mw) else 0) + mag

/-- `Round(fmt, x, mode)` with the flags it sets; with `sat`, `Sat` follows (R34, R35, R113). -/
def round (f : FFmt) (rm : Rm) (sat : Bool) (x : FV) : Nat × Fl :=
  match x with
  | .nan => (f.nanEnc, flIf (f == .e2m1) nv)
  | .inf neg => (signed f neg (if sat then f.maxEnc else f.infEnc), flIf (!f.ieee) nv)
  | .fin neg m e =>
    if m = 0 then (signed f neg 0, 0)
    else
      let emin : Int := 1 - f.bias
      let top : Int := e + bitLen m - 1
      let qmin : Int := emin - f.mw
      let q := max (top - f.mw) qmin
      let (n, inex) := roundAt rm neg m e q
      let enc := (q - qmin).toNat * 2 ^ f.mw + n
      let (n2, _) := roundAt rm neg m e (top - f.mw)
      let tiny := decide (top < emin) && !(n2 == 2 ^ (f.mw + 1) && decide (top + 1 = emin))
      if f.maxEnc < enc then
        (signed f neg (overEnc f rm neg (if sat then f.maxEnc else f.infEnc)), ovf ||| nx)
      else (signed f neg enc, flIf inex nx ||| flIf (inex && tiny) unf)

/-- `RoundF32` on a value, as a word. -/
def roundF32 (rm : Rm) (x : FV) : Word × Fl :=
  let (b, fl) := round .f32 rm false x
  (BitVec.ofNat 32 b, fl)

/-! ### Exact operations and the invalid flag (R124, R114) -/

def FV.negate : FV → FV
  | .fin s m e => .fin (!s) m e
  | .inf s => .inf (!s)
  | .nan => .nan

/-- The exact sum of two finite values; a zero sum takes its sign by R114. -/
def addFin (rm : Rm) (s : Bool) (m : Nat) (e : Int) (t : Bool) (n : Nat) (g : Int) : FV :=
  let q := min e g
  let a : Int := (m * 2 ^ (e - q).toNat : Nat)
  let b : Int := (n * 2 ^ (g - q).toNat : Nat)
  let v := (if s then -a else a) + (if t then -b else b)
  if v = 0 then .fin (if s == t then s else rm == .rd) 0 0
  else .fin (decide (v < 0)) v.natAbs q

/-- The exact sum, and nv for ∞ - ∞. A zero operand leaves the other's exponent alone. -/
def fadd (rm : Rm) (a b : FV) : FV × Fl :=
  match a, b with
  | .nan, _ => (.nan, 0)
  | _, .nan => (.nan, 0)
  | .inf s, .inf t => if s == t then (.inf s, 0) else (.nan, nv)
  | .inf s, _ => (.inf s, 0)
  | _, .inf t => (.inf t, 0)
  | .fin s m e, .fin t n g =>
    if m = 0 && n != 0 then (b, 0) else if n = 0 && m != 0 then (a, 0)
    else (addFin rm s m e t n g, 0)

/-- The exact product, and nv for 0 × ∞. -/
def fmul (a b : FV) : FV × Fl :=
  match a, b with
  | .nan, _ => (.nan, 0)
  | _, .nan => (.nan, 0)
  | .inf s, .inf t => (.inf (s != t), 0)
  | .inf s, .fin t n _ => if n = 0 then (.nan, nv) else (.inf (s != t), 0)
  | .fin s m _, .inf t => if m = 0 then (.nan, nv) else (.inf (s != t), 0)
  | .fin s m e, .fin t n g => (.fin (s != t) (m * n) (e + g), 0)

/-- a × b + c with one rounding to come; 0 × ∞ sets nv even beside a NaN c. -/
def ffma (rm : Rm) (a b c : FV) : FV × Fl :=
  let (p, f1) := fmul a b
  let (r, f2) := fadd rm p c
  (r, f1 ||| f2)

/-- The quotient, exact but for a sticky last bit below every rounding position (R124). -/
def fdiv (a b : FV) : FV × Fl :=
  match a, b with
  | .nan, _ => (.nan, 0)
  | _, .nan => (.nan, 0)
  | .inf _, .inf _ => (.nan, nv)
  | .inf s, .fin t _ _ => (.inf (s != t), 0)
  | .fin s _ _, .inf t => (.fin (s != t) 0 0, 0)
  | .fin s m e, .fin t n g =>
    if n = 0 then (if m = 0 then (.nan, nv) else (.inf (s != t), dz))
    else if m = 0 then (.fin (s != t) 0 0, 0)
    else
      let k := bitLen n + 64
      let a := m * 2 ^ k
      let q := a / n
      (.fin (s != t) (2 * q + (if a % n = 0 then 0 else 1)) (e - g - k - 1), 0)

/-- Integer square root, by `fuel` steps of Newton's method from above. -/
def isqrtFrom : Nat → Nat → Nat → Nat
  | 0, _, x => x
  | fuel + 1, n, x => if x = 0 then 0 else
      let y := (x + n / x) / 2
      if x ≤ y then x else isqrtFrom fuel n y

def isqrt (n : Nat) : Nat := isqrtFrom (bitLen n + 8) n (2 ^ (bitLen n / 2 + 1))

/-- The square root, exact but for a sticky last bit (R128). -/
def fsqrt (a : FV) : FV × Fl :=
  match a with
  | .nan => (.nan, 0)
  | .inf s => if s then (.nan, nv) else (.inf false, 0)
  | .fin s m e =>
    if m = 0 then (.fin s 0 0, 0) else if s then (.nan, nv)
    else
      let (m, e) := if e % 2 = 0 then (m, e) else (2 * m, e - 1)
      let n := m * 2 ^ 120
      let r := isqrt n
      (.fin false (2 * r + (if r * r = n then 0 else 1)) (e / 2 - 61), 0)

/-! ### The approximations (R128) -/

/-- One of the two f32 values that bracket a value, or the value when it is one; which is `up`'s choice. -/
def bracket (up : Bool) (x : FV) : Word :=
  let lo := (roundF32 .rd x).1
  let hi := (roundF32 .ru x).1
  if lo = hi then lo else if up then hi else lo

/-- 1 / √(m × 2^e) with a sticky last bit. -/
def rsqrtV (m : Nat) (e : Int) : FV :=
  let (m, e) := if e % 2 = 0 then (m, e) else (2 * m, e - 1)
  let k : Nat := 100
  let n := 2 ^ (2 * k) / m
  let q := isqrt n
  .fin false (2 * q + (if q * q * m = 2 ^ (2 * k) then 0 else 1)) (-(e / 2) - k - 1)

/-- Fraction bits of the fixed-point sums of this section. -/
def fixP : Nat := 320

/-- 2^f in fixed point for the fraction whose top `j` bits are the low bits of `f`: a product of iterated square roots. -/
def exp2Frac : Nat → Nat → Nat → Nat → Nat
  | 0, _, _, acc => acc
  | j + 1, f, root, acc =>
    exp2Frac j f (isqrt (root * 2 ^ fixP)) (if f / 2 ^ j % 2 = 1 then acc * root / 2 ^ fixP else acc)

/-- 2^x for a finite x, |x| below 2^9, exact for an integer x, else with a sticky last bit. -/
def exp2V (neg : Bool) (m : Nat) (e : Int) : FV :=
  if 0 ≤ e then
    let v : Int := (m * 2 ^ e.toNat : Nat)
    .fin false 1 (if neg then -v else v)
  else
    let j := (-e).toNat
    let n : Int := if neg then -(m : Int) else m
    let ip := n / (2 ^ j : Nat)
    let fp := (n % (2 ^ j : Nat)).toNat
    if fp = 0 then .fin false 1 ip
    else .fin false (2 * exp2Frac j fp (isqrt (2 * 2 ^ (2 * fixP))) (2 ^ fixP) + 1) (ip - fixP - 1)

/-- The leading `k` bits of log2 of a fixed-point t in [1, 2), by repeated squaring. -/
def log2Bits : Nat → Nat → Nat → Nat
  | 0, _, acc => acc
  | k + 1, t, acc =>
    let s := t * t / 2 ^ fixP
    if 2 ^ (fixP + 1) ≤ s then log2Bits k (s / 2) (2 * acc + 1) else log2Bits k s (2 * acc)

/-- log2 of m × 2^e, exact for a power of two, else with a sticky last bit. -/
def log2V (m : Nat) (e : Int) : FV :=
  let top : Int := e + bitLen m - 1
  let t := m * 2 ^ fixP / 2 ^ (bitLen m - 1)
  if m = 2 ^ (bitLen m - 1) then .fin (decide (top < 0)) top.natAbs 0
  else
    let k : Nat := 80
    let v : Int := (top * 2 ^ k + log2Bits k t 0) * 2 + 1
    .fin (decide (v < 0)) v.natAbs (-(k + 1))

/-- π × 2^200. -/
def piFix : Nat := 3141592653589793238462643383279502884197169399375105820974944592307816406286208998628 * 2 ^ 200 / 10 ^ 84

/-- A fixed-point number with 200 fraction bits. -/
def toFix (neg : Bool) (m : Nat) (e : Int) : Int :=
  let v : Int := if 0 ≤ e + 200 then (m * 2 ^ (e + 200).toNat : Nat) else (m / 2 ^ (-(e + 200)).toNat : Nat)
  if neg then -v else v

/-- The alternating series from term `t` with step factor -x²/(k(k+1)). -/
def trigSeries : Nat → Nat → Int → Int → Int → Int
  | 0, _, _, _, acc => acc
  | fuel + 1, k, x2, t, acc =>
    let t' := -(t * x2 / 2 ^ 200) / (k * (k + 1) : Nat)
    trigSeries fuel (k + 2) x2 t' (acc + t')

/-- The argument reduced to [-π, π). -/
def reducePi (x : Int) : Int := (x + piFix) % (2 * piFix) - piFix

def sinFix (x : Int) : Int :=
  let r := reducePi x
  trigSeries 40 2 (r * r / 2 ^ 200) r r

def cosFix (x : Int) : Int :=
  let r := reducePi x
  trigSeries 40 1 (r * r / 2 ^ 200) (2 ^ 200) (2 ^ 200)

def expSeries : Nat → Nat → Int → Int → Int → Int
  | 0, _, _, _, acc => acc
  | fuel + 1, k, x, t, acc =>
    let t' := t * x / 2 ^ 200 / (k : Nat)
    expSeries fuel (k + 1) x t' (acc + t')

def squareTimes : Nat → Int → Int
  | 0, v => v
  | k + 1, v => squareTimes k (v * v / 2 ^ 200)

/-- tanh x = (e^2x - 1) / (e^2x + 1); from |x| = 16 on it lies between 1 - 2^-45 and 1, so that every f32 as near to 1 as 2^-22 on the
inner side is within the bound, and 1 + 2^-22 is not. -/
def tanhFix (x : Int) : Int :=
  if 16 * 2 ^ 200 ≤ x then 2 ^ 200 - 1 else if x ≤ -(16 * 2 ^ 200) then -(2 ^ 200 - 1)
  else
    let y := 2 * x / 2 ^ 6
    let ex := squareTimes 6 (expSeries 40 1 y (2 ^ 200) (2 ^ 200))
    (ex - 2 ^ 200) * 2 ^ 200 / (ex + 2 ^ 200)

/-- Fixed point as an exact value. -/
def fixV (v : Int) : FV := .fin (decide (v < 0)) v.natAbs (-200)

/-- The most by which a candidate may lie from the exact value: 2^-22 in fixed point, less what the fixed-point sums may err by; on the
outer side of ±1 `tanhFix` leaves nothing to take off (log 16). -/
def withinBound (approx : Int) : Nat := if approx.natAbs = 2 ^ 200 - 1 then 2 ^ 178 else 2 ^ 178 - 2 ^ 100

/-- A candidate within 2^-22 of the exact value stands; any other gives way to the rounded approximation (R128). -/
def within (cand : Word) (approx : Int) : Word :=
  match V .f32 cand.toNat with
  | .fin s m e =>
    if (toFix s m e - approx).natAbs ≤ withinBound approx ∧ e + bitLen m ≤ 2 then cand else (roundF32 .rne (fixV approx)).1
  | _ => (roundF32 .rne (fixV approx)).1

/-- A candidate in [-1, 1] stands; any other gives way to +0 (R128, |x| above 2^15). -/
def inUnit (cand : Word) : Word := if cand.toNat % 2 ^ 31 ≤ 0x3F800000 then cand else 0

def one32 : Word := 0x3F800000
def nan32 : Word := 0x7FC00000
def inf32 : Word := 0x7F800000

def frsqOf (a : Word) : Word × Fl :=
  match V .f32 a.toNat with
  | .nan => (nan32, readFl .f32 a.toNat)
  | .inf s => if s then (nan32, nv) else (0, 0)
  | .fin s m e =>
    if m = 0 then ((if s then 0xFF800000 else inf32), dz) else if s then (nan32, nv)
    else (bracket (Config.approxUp 0 a) (rsqrtV m e), 0)

/-- FEXP2 with its two overflow and two underflow cases (R128). At exactly 2^-150, which is in neither of the latter, it returns one of
the two bracketing values with no flag (log 16). -/
def fexp2Of (a : Word) : Word × Fl :=
  match V .f32 a.toNat with
  | .nan => (nan32, readFl .f32 a.toNat)
  | .inf s => if s then (0, 0) else (inf32, 0)
  | .fin s m e =>
    if m = 0 then (one32, 0)
    else if 8 ≤ e + bitLen m ∧ !s then (inf32, ovf ||| nx)
    else if 9 ≤ e + bitLen m ∧ s then (0, unf ||| nx)
    else
      let x := exp2V s m e
      let lo := (roundF32 .rd x).1
      let r := bracket (Config.approxUp 1 a) x
      match x with
      | .fin _ n g =>
        let top := g + bitLen n - 1
        if r = inf32 then (r, ovf ||| nx)
        else if lo = 0 ∧ top < -150 then (0, unf ||| nx)
        else if r = 0 ∧ n ≠ 1 then (0, unf ||| nx)
        else (r, 0)
      | _ => (r, 0)

def flog2Of (a : Word) : Word × Fl :=
  match V .f32 a.toNat with
  | .nan => (nan32, readFl .f32 a.toNat)
  | .inf s => if s then (nan32, nv) else (inf32, 0)
  | .fin s m e =>
    if m = 0 then (0xFF800000, dz) else if s then (nan32, nv)
    else (bracket (Config.approxUp 2 a) (log2V m e), 0)

/-- FSIN (`k = 0`) and FCOS (`k = 1`). -/
def trigOf (k : Nat) (a : Word) : Word × Fl :=
  match V .f32 a.toNat with
  | .nan => (nan32, readFl .f32 a.toNat)
  | .inf _ => (nan32, nv)
  | .fin s m e =>
    if m = 0 then (if k = 0 then a else one32, 0)
    else if 16 < e + bitLen m ∨ (e + bitLen m = 16 ∧ m ≠ 2 ^ (bitLen m - 1)) then (inUnit (Config.approxFn k a), 0)
    else
      let x := toFix s m e
      (within (Config.approxFn k a) (if k = 0 then sinFix x else cosFix x), 0)

def ftanhOf (a : Word) : Word × Fl :=
  match V .f32 a.toNat with
  | .nan => (nan32, readFl .f32 a.toNat)
  | .inf s => (if s then 0xBF800000 else one32, 0)
  | .fin s m e =>
    if m = 0 then (a, 0) else (within (Config.approxFn 2 a) (tanhFix (toFix s m e)), 0)

/-! ### Scalar f32 operations (R124 to R128) -/

/-- The flags of reading f32 operands. -/
def readFls (l : List Word) : Fl := l.foldl (fun f w => f ||| readFl .f32 w.toNat) 0

def v32 (w : Word) : FV := V .f32 w.toNat

def roundWith (rm : Rm) (r : FV × Fl) (fl : Fl) : Word × Fl :=
  let (w, f) := roundF32 rm r.1
  (w, f ||| r.2 ||| fl)

def faddOf (rm : Rm) (a b : Word) : Word × Fl := roundWith rm (fadd rm (v32 a) (v32 b)) (readFls [a, b])
def fsubOf (rm : Rm) (a b : Word) : Word × Fl := roundWith rm (fadd rm (v32 a) (v32 b).negate) (readFls [a, b])
def fmulOf (rm : Rm) (a b : Word) : Word × Fl := roundWith rm (fmul (v32 a) (v32 b)) (readFls [a, b])
def ffmaOf (rm : Rm) (a b c : Word) : Word × Fl := roundWith rm (ffma rm (v32 a) (v32 b) (v32 c)) (readFls [a, b, c])
def fdivOf (rm : Rm) (a b : Word) : Word × Fl := roundWith rm (fdiv (v32 a) (v32 b)) (readFls [a, b])
def frcpOf (rm : Rm) (a : Word) : Word × Fl := roundWith rm (fdiv (.fin false 1 0) (v32 a)) (readFls [a])
def fsqrtOf (rm : Rm) (a : Word) : Word × Fl := roundWith rm (fsqrt (v32 a)) (readFls [a])

/-- a × 2^s(B); beyond ±1024 the result no longer changes. -/
def fscaleOf (rm : Rm) (a b : Word) : Word × Fl :=
  match v32 a with
  | .fin s m e => if m = 0 then (a, 0) else roundF32 rm (.fin s m (e + max (-1024) (min 1024 b.toInt)))
  | .inf _ => (a, 0)
  | .nan => (nan32, readFl .f32 a.toNat)

/-- The order of two values that are no NaN, -0 equal to +0. -/
def fvLt (a b : FV) : Bool :=
  match a, b with
  | .nan, _ => false
  | _, .nan => false
  | .inf s, .inf t => s && !t
  | .inf s, _ => s
  | _, .inf t => !t
  | .fin s m e, .fin t n g =>
    let q := min e g
    let x : Int := (m * 2 ^ (e - q).toNat : Nat)
    let y : Int := (n * 2 ^ (g - q).toNat : Nat)
    decide ((if s then -x else x) < (if t then -y else y))

def fvEq (a b : FV) : Bool := !a.isNan && !b.isNan && !fvLt a b && !fvLt b a

/-- A's sign bit is set. -/
def signBit (w : Word) : Bool := w.getLsbD 31

/-- FMIN (`max = false`) and FMAX (R125). -/
def fminmaxOf (max : Bool) (a b : Word) : Word × Fl :=
  let x := v32 a
  let y := v32 b
  let fl := readFls [a, b]
  if x.isNan && y.isNan then (nan32, fl)
  else if x.isNan then (b, fl)
  else if y.isNan then (a, fl)
  else
    let aLess := fvLt x y || (fvEq x y && signBit a && !signBit b)
    (if aLess != max then a else b, fl)

/-- FCMP's predicate and flag (R126). -/
def fcmpOf (c : FCond) (a b : Word) : Bool × Fl :=
  let x := v32 a
  let y := v32 b
  let un := x.isNan || y.isNan
  let sn := readFls [a, b]
  let on := flIf un nv
  match c with
  | .eq => (fvEq x y, sn)
  | .ne => (!fvEq x y, sn)
  | .lt => (fvLt x y, on)
  | .le => (!un && !fvLt y x, on)
  | .gt => (fvLt y x, on)
  | .ge => (!un && !fvLt x y, on)
  | .un => (un, sn)

/-- FCLASS's mask (R127). -/
def fclassOf (a : Word) : Word :=
  let s := signBit a
  match v32 a with
  | .nan => if isSnan .f32 a.toNat then 0x100 else 0x200
  | .inf _ => if s then 0x001 else 0x080
  | .fin _ m _ =>
    if m = 0 then (if s then 0x008 else 0x010)
    else if m < 2 ^ 23 then (if s then 0x004 else 0x020)
    else (if s then 0x002 else 0x040)

/-! ### Packed halves and dot products (R115, R116, R129, R130, R134) -/

/-- An element-wise operation of two 16-bit elements a register. -/
def packed2 (f : FFmt) (rm : Rm) (op : FV → FV → FV → FV × Fl) (a b c : Word) : Word × Fl :=
  let el (w : Word) (e : Nat) : Nat := w.toNat / 2 ^ (16 * e) % 2 ^ 16
  let one (e : Nat) : Nat × Fl :=
    let r := op (V f (el a e)) (V f (el b e)) (V f (el c e))
    let (v, fl) := round f rm false r.1
    (v, fl ||| r.2 ||| readFl f (el a e) ||| readFl f (el b e) ||| readFl f (el c e))
  let lo := one 0
  let hi := one 1
  (BitVec.ofNat 32 (lo.1 + 2 ^ 16 * hi.1), lo.2 ||| hi.2)

/-- The numeric formats a slot holds (R118). -/
inductive NFmt where
  | fl (f : FFmt)
  | scale
  | int (w : Nat) (sg : Bool)
  deriving DecidableEq, Repr

def NFmt.width : NFmt → Nat
  | .fl f => f.width
  | .scale => 8
  | .int w _ => w

/-- The format of a slot's code; `none` for empty and reserved codes. -/
def slotFmt (code : Nat) : Option NFmt :=
  match code with
  | 1 => some (.fl .f32) | 2 => some (.fl .f16) | 3 => some (.fl .bf16) | 4 => some (.fl .e4m3) | 5 => some (.fl .e5m2)
  | 6 => some (.fl .e2m1) | 7 => some .scale | 8 => some (.int 8 true) | 9 => some (.int 8 false) | 10 => some (.int 4 true)
  | 11 => some (.int 4 false) | 12 => some (.int 16 true) | 13 => some (.int 16 false) | _ => none

/-- An integer of `w` bits, two's complement when `sg`. -/
def intOf (w : Nat) (sg : Bool) (b : Nat) : Int :=
  let v := b % 2 ^ w
  if sg && decide (2 ^ (w - 1) ≤ v) then (v : Int) - (2 ^ w : Nat) else v

def intV (x : Int) : FV := .fin (decide (x < 0)) x.natAbs 0

/-- The value of an element (R110, R112). -/
def elemV (f : NFmt) (b : Nat) : FV :=
  match f with
  | .fl g => V g b
  | .scale => if b % 256 = 255 then .nan else .fin false 1 ((b % 256 : Nat) - 127)
  | .int w sg => intV (intOf w sg b)

/-- The flag of reading an element (R116). -/
def elemFl (f : NFmt) (b : Nat) : Fl :=
  match f with
  | .fl g => readFl g b
  | _ => 0

/-- Element `e` of a word in a format of width `w` (R120). -/
def elemBits (w e : Nat) (x : Word) : Nat := x.toNat / 2 ^ (w * e) % 2 ^ w

/-- The scale exponent of a byte, or none for NaN (R116). -/
def scaleExp (b : Nat) : Option Int := if b % 256 = 255 then none else some ((b % 256 : Nat) - 127)

/-- One accumulation step: acc + a × b × 2^k rounded to f32, RNE (R115, R116). -/
def accStep (acc : Word × Fl) (fa fb : NFmt) (a b : Nat) (k : Option Int) : Word × Fl :=
  let (p, f1) := fmul (elemV fa a) (elemV fb b)
  let term := match p, k with
    | .fin s m e, some k => .fin s m (e + k)
    | p, some _ => p
    | _, none => FV.nan
  let (r, f2) := fadd .rne (v32 acc.1) term
  let (w, f3) := roundF32 .rne r
  (w, acc.2 ||| (if (v32 acc.1).isNan then 0 else f1) ||| f2 ||| f3 ||| elemFl fa a ||| elemFl fb b)

/-- The steps of one dot product over pairs of elements, ascending. -/
def dotSteps (acc : Word × Fl) (fa fb : NFmt) : List (Nat × Nat × Option Int) → Word × Fl
  | [] => acc
  | (a, b, k) :: l => dotSteps (accStep acc fa fb a b k) fa fb l

/-- The sum of two scale exponents, none when either is NaN. -/
def addExp : Option Int → Option Int → Option Int
  | some a, some b => some (a + b)
  | _, _ => none

/-! ### Conversions (R131 to R133) -/

/-- Round a value to an integer by rm: the integer and whether it differs. -/
def toIntBy (rm : Rm) (neg : Bool) (m : Nat) (e : Int) : Int × Bool :=
  let (n, inex) := roundAt rm neg m e 0
  (if neg then -(n : Int) else n, inex)

def intMin (w : Nat) (sg : Bool) : Int := if sg then -((2 ^ (w - 1) : Nat) : Int) else 0
def intMax (w : Nat) (sg : Bool) : Int := if sg then ((2 ^ (w - 1) : Nat) : Int) - 1 else ((2 ^ w : Nat) : Int) - 1

/-- An integer as `w` bits. -/
def intBits (w : Nat) (x : Int) : Nat := (x % (2 ^ w : Nat)).toNat

/-- A value converted to an integer format (R131). -/
def toIntFmt (w : Nat) (sg : Bool) (rm : Rm) (sat : Bool) (x : FV) : Nat × Fl :=
  match x with
  | .nan => (0, nv)
  | .inf s => (intBits w (if s then intMin w sg else intMax w sg), flIf (!sat) nv)
  | .fin s m e =>
    let (n, inex) := toIntBy rm s m e
    if n < intMin w sg then (intBits w (intMin w sg), flIf (!sat) nv)
    else if intMax w sg < n then (intBits w (intMax w sg), flIf (!sat) nv)
    else (intBits w n, flIf inex nx)

/-- Conversion of an element to a format (R131). Converting to e8m0 is refused by the caller. -/
def convert (src dst : NFmt) (b : Nat) (rm : Rm) (sat : Bool) : Nat × Fl :=
  match dst with
  | .scale => (0, 0)
  | .fl g =>
    let (r, fl) := round g rm sat (elemV src b)
    (r, fl ||| elemFl src b)
  | .int w sg =>
    match src with
    | .int v s =>
      let x := intOf v s b
      (if sat then intBits w (max (intMin w sg) (min (intMax w sg) x)) else intBits w x, 0)
    | _ =>
      let (r, fl) := toIntFmt w sg rm sat (elemV src b)
      (r, fl ||| elemFl src b)

/-- The number format of a CVT register type. -/
def RTy.fmt : RTy → NFmt
  | .f32 => .fl .f32 | .s32 => .int 32 true | .z32 => .int 32 false | .s64 => .int 64 true | .z64 => .int 64 false
  | .f16 => .fl .f16 | .bf16 => .fl .bf16

/-- FMTQ's emax for the formats it admits. -/
def fmtqMax : NFmt → Option Nat
  | .fl .e4m3 => some 8 | .fl .e5m2 => some 15 | .fl .e2m1 => some 2 | .fl .f16 => some 15 | .fl .bf16 => some 127
  | _ => none

/-- FMTQ (R133). -/
def fmtqOf (emax : Nat) (a : Word) : Word :=
  match v32 a with
  | .fin _ m e => if m = 0 then 0 else BitVec.ofInt 32 (min (max (e + bitLen m - 1 - emax + 127) 0) 254)
  | _ => 0xFF

end Sys2Proof.Machine
end

