-- ==== Sys2Proof/Machine/Map.lean ====
section
/-!
DEFINITION. Sparse maps with numeric keys in one canonical form: keys strictly rising, and no entry equal to the default,
so equal maps are equal lists. Registers, scratchpads, memory and the device's tables are such maps.
-/

namespace Sys2Proof.Machine

/-- A map from numbers, sorted by key, holding only entries that differ from the default. -/
abbrev SMap (α : Type) := List (Nat × α)

variable {α : Type}

/-- The entry of a key, if the map lists one. -/
def SMap.find? : SMap α → Nat → Option α
  | [], _ => none
  | (j, v) :: m, k => if k = j then some v else find? m k

/-- The value at a key. -/
def SMap.get (d : α) (m : SMap α) (k : Nat) : α := (find? m k).getD d

/-- The map without a key. -/
def SMap.erase : SMap α → Nat → SMap α
  | [], _ => []
  | (j, v) :: m, k => if k = j then erase m k else (j, v) :: erase m k

/-- The map with a listed entry at a key. -/
def SMap.put : SMap α → Nat → α → SMap α
  | [], k, x => [(k, x)]
  | (j, v) :: m, k, x => if k < j then (k, x) :: (j, v) :: m else if k = j then (k, x) :: m else (j, v) :: put m k x

/-- The map with a value at a key; writing the default removes the entry. -/
def SMap.set [DecidableEq α] (d : α) (m : SMap α) (k : Nat) (x : α) : SMap α := if x = d then erase m k else put m k x

/-- Every key of the map is above `lo`, and the keys rise strictly. -/
def SMap.sortedFrom (lo : Option Nat) : SMap α → Bool
  | [] => true
  | (j, _) :: m => (match lo with | none => true | some l => decide (l < j)) && sortedFrom (some j) m

/-- The canonical form: strictly rising keys, and no entry equal to the default. -/
def SMap.wf [DecidableEq α] (d : α) (m : SMap α) : Bool := sortedFrom none m && m.all (fun e => decide (e.2 ≠ d))

/-- A map of optional things: the entry changed or removed by a function of what it was. -/
def SMap.alter (m : SMap α) (k : Nat) (f : Option α → Option α) : SMap α :=
  match f (find? m k) with
  | none => erase m k
  | some x => put m k x

/-- The listed entry at a key changed, if there is one. -/
def SMap.upd (m : SMap α) (k : Nat) (f : α → α) : SMap α :=
  match find? m k with
  | none => m
  | some x => put m k (f x)


/-- Device memory: bytes by address; an unlisted byte reads 0x00 (log 1). -/
abbrev Memory := SMap Byte

/-- What an unlisted address reads as (log 1: DESIGN CHOICE, R178 leaves it open). -/
def Memory.unlisted : Byte := 0

def Memory.read (m : Memory) (a : Nat) : Byte := SMap.get unlisted m a

def Memory.write (m : Memory) (a : Nat) (b : Byte) : Memory := SMap.set unlisted m a b

/-- The canonical form of a memory. -/
def Memory.wf (m : Memory) : Bool := SMap.wf unlisted m

/-- `n` bytes from an address, in address order. -/
def Memory.readN (m : Memory) (a : Nat) : Nat → List Byte
  | 0 => []
  | n + 1 => read m a :: readN m (a + 1) n

/-- Bytes stored from an address up. -/
def Memory.writeN (m : Memory) (a : Nat) : List Byte → Memory
  | [] => m
  | b :: bs => writeN (write m a b) (a + 1) bs


end Sys2Proof.Machine
end

