-- ==== Sys2Proof/Machine/Types.lean ====
section
/-!
DEFINITION. The parts the state is made of: threads, teams, grids, cores, groves, copses, outstanding operations, memory
lines (02 R38, 04 R80, 06 R135, 07 R154, 08 R178, 09 R206, 13 R303, 14 R323, 15 R344, 16 R361).
Keys: a core is grove × 24 + core in grove (0 to 767); a thread slot is core × 512 + slot; a scratchpad byte is
core × 2^18 + offset.
-/

namespace Sys2Proof.Machine

def slotsPerCore : Nat := 512
def scrBytes : Nat := 0x40000
def coresPerGrove : Nat := 24

/-- A register a mark can stand on: g0 to g255 are 0 to 255, o0 to o7 are 256 to 263, the latch is 264 (R178, R197). -/
abbrev RegId := Nat
def latId : RegId := 264

/-- The four classes of outstanding operations (R345). -/
inductive Cls where
  | ld | st | cp | tl
  deriving DecidableEq, Repr

/-- The outstanding-operation counters (R344). -/
structure Counts where
  ld : Nat
  st : Nat
  cp : Nat
  tl : Nat
  deriving DecidableEq, Repr

/-- Where an access acts once it is translated (R182, R180, R202). -/
inductive Place where
  /-- HBM or the CXL tier: physical address, key id, compressed, budget index, heat enable. -/
  | dev (pa key : Nat) (comp : Bool) (bix : Nat) (he : Bool)
  /-- A host-translated page: logical device and untranslated address. -/
  | host (ld : Nat) (addr : Nat)
  /-- A multi-chip reduction window of a partition. -/
  | rwin (part n off : Nat)
  /-- A scratchpad, by core and offset; `win` when reached through the grove window. -/
  | scr (core off : Nat) (win : Bool)
  /-- Not yet translated: the engine translates when it performs the access. -/
  | later
  deriving DecidableEq, Repr

/-- What an outstanding operation is. -/
inductive OpKind where
  | load (d : LDst) (mw : MW) (sx yld : Bool) (hint : Hint)
  | store (data : List Byte) (hint : Hint)
  | atom (d : Option LDst) (dbl : Bool) (op : AOp) (b c : DWord)
  | red (dbl : Bool) (op : AOp) (b : DWord)
  | disc
  | clean
  | bari (count : Nat)
  | bara (d : Option LDst)
  | barx (v : Nat)
  | frag (store cd : Bool) (r : Nat) (stride : Int) (sp : Space)
  /-- A copy: rows of (source, destination, bytes); an index list still to be read (address, rows, stride, row bytes). -/
  | copy (rows : List (Nat × Nat × Nat)) (idx : Option (Nat × Nat × Nat × Nat)) (total : Nat) (sbase dbase : Nat)
      (dscr : Bool) (ssp : Space) (tag : Nat) (bar : Option Nat) (started : Bool)
  | emit (q : Nat) (words : List Word)
  | qrd (q : Nat) (r : Nat)
  | qlen (q : Nat) (d : Dst)
  | mload (slot : Nat) (addr : Nat)
  | marm (slot : Nat)
  | mdis (slot : Nat)
  | mstat (slot : Nat) (d : Nat) (sel : Nat)
  deriving DecidableEq, Repr

/-- Who asks for a translation: a lane, an operation of a slot, or a unit of the base die by its engine number (R268) and what it
works on. -/
inductive Asker where
  | lane (slot : Nat)
  | op (slot id : Nat)
  | unit (engine k : Nat)
  deriving DecidableEq, Repr

/-- A host's answer to a Translation Request as one access that waited for it takes it, where no ATC entry holds it: the page, whether
it was a refusal, and the frame granted for reading by an answer that denied another access to write (R335, R418). -/
structure Denial where
  vpn : Nat
  refused : Bool
  frame : Option Nat
  deriving DecidableEq, Repr

/-- An operation between issue and completion (R197, R345). -/
structure Op where
  id : Nat
  slot : Nat
  part : Nat
  pc : DWord
  cls : Cls
  kind : OpKind
  /-- The address it names: virtual, scratchpad or constant-block. -/
  va : DWord
  place : Place
  n : Nat
  /-- Registers that hold its pending marks. -/
  marks : List RegId
  rel : Option Scope
  acq : Option Scope
  /-- For a store that the L1 domain already sees: the order in which it came there (R183). -/
  l1 : Option Nat
  /-- The fault-buffer record that holds it (R190, R337). -/
  held : Option Nat
  /-- While a copy or fragment access is held: the address that faulted (R218). -/
  hva : DWord
  /-- The fault of a copy whose destination is still to become unpredictable, where the host's translations are awaited (R218). -/
  failed : Option (BitVec 8 × DWord)
  /-- Arbitration class and the grove cycle since which it has waited (R316). -/
  arb : Nat
  since : Nat
  /-- Operations of its lane below this number are performed first (R203, R210). -/
  after : Nat
  /-- Pieces still to be performed, as offset and size, and the bytes read so far (R228). -/
  todo : List (Nat × Nat)
  buf : List Byte
  /-- For an operation that acts through CXL.cache or an AtomicOp: an answer is awaited (R393). For an EMIT: it is stalled at
  its queue (R264). -/
  sent : Bool
  /-- An atomic routed through CXL.cache ownership (R393). -/
  viaCxl : Bool
  /-- The issue that made it: the number of the issue's first operation (R415). -/
  iss : Nat
  /-- L1 sectors filled before this are not hit: what its address was computed from was read later (R234). -/
  dep : Nat
  /-- Held by a compression overflow: it translates again when it is performed, its place being where it stood (R190, R332). -/
  again : Bool
  /-- A store that another thread of its L1 domain has read there, or that a release within the domain has passed: it stays seen
  there (R232). -/
  shown : Bool
  /-- An access that an overflowing write of its thread to the line held up: it goes past the L1 (R183, R190). -/
  bypass : Bool
  /-- An overflow has held it: till it is performed, later accesses of its thread to its lines wait (R190). -/
  stood : Bool
  /-- Lines at which its request has been counted (R340). -/
  heated : List Nat
  /-- The fill stamp of the latest data read so far (R229). -/
  got : Nat
  deriving DecidableEq, Repr

/-- A fault met after issue, recorded and not yet taken (R198, R218, R151). -/
structure Defer where
  code : BitVec 8
  pc : DWord
  va : DWord
  cls : Cls
  marks : List RegId
  /-- The operation that met it, for a replay. -/
  op : Op
  deriving DecidableEq, Repr

/-- States of a slot that holds a thread (R48); a free slot holds none. -/
inductive SlotState where
  | ready | waiting | parked | returned | spawned | exited
  deriving DecidableEq, Repr

/-- What a parked lane records (R362, R366). -/
structure Park where
  code : BitVec 8
  pc : DWord
  fpc : DWord
  va : DWord
  aux : DWord
  /-- The deferred fault it parked for, if it is one. -/
  defer : Option Defer
  /-- Detached: service-pending, under no record (R368). -/
  svc : Bool
  /-- The fault-buffer record that reports it (R337). -/
  frec : Option Nat
  deriving DecidableEq, Repr

/-- Why a ready thread is held besides back-off: an open collective (R166), a GLAUNCH to be created (R177), a translation
request (R335), the access of a deferred fault that is to be performed again once there is room for it (R209, R346, R368). -/
inductive Hold where
  | none
  | coll
  | glaunch (req : Nat)
  | xlate (vpn : Nat)
  | replay (o : Op)
  deriving DecidableEq, Repr

/-- The registers of an outstanding matrix operation of a lane (R141): those whose change spoils the lane's results, the
quarter's results, and the result registers; what has been spoilt. -/
structure Win where
  entry : Nat
  /-- The number the next operation of the machine had at the issue: loads below it were issued before. -/
  since : Nat
  ac : List (Nat × Nat)
  bs : List (Nat × Nat)
  ds : List (Nat × Nat)
  spoiltLane : Bool
  spoiltQuarter : Bool
  spoiltRegs : List Nat
  /-- Values of operand registers, older than their present ones, that the engine may read (R142). -/
  olds : List (Nat × Word)
  /-- The window of an STFR's data registers, which only spoils the words it stores (R151). -/
  store : Bool
  deriving DecidableEq, Repr

/-- The operations below which a fence orders those of its thread, by what its scope covers: its L1 domain, the device, the
host domain, the fabric domain (R203, R230, R237). -/
structure FenceN where
  near : Nat
  dev : Nat
  sys : Nat
  fab : Nat
  deriving DecidableEq, Repr

def FenceN.zero : FenceN := ⟨0, 0, 0, 0⟩

/-- The latest fence of any scope. -/
def FenceN.last (v : FenceN) : Nat := max (max v.near v.dev) (max v.sys v.fab)

/-- A thread (R38, R80, R135, R154, R178, R206, R344, R361). -/
structure Thread where
  st : SlotState
  team : Nat
  lane : Nat
  plane : Nat
  tsize : Nat
  tcret : BitVec 8
  /-- Context-table entry of its team or sub-team (R173). -/
  ctx : Nat
  /-- sr.lane and sr.tsize pushed at each nesting level, outermost first (R173). -/
  pushed : List (Nat × Nat)
  g : SMap Word
  o : SMap DWord
  lat : DWord
  preds : BitVec 12
  lk : DWord
  /-- PC[54:3]: the PC has 55 bits, and [2:0] are zero (R154). -/
  pcw : BitVec 52
  fflags : Fl
  step : Bool
  ylevel : Nat
  landing : Option (BitVec 8)
  cnt : Counts
  pend : List RegId
  fmark : List RegId
  defers : List Defer
  poll : Option (DWord × Nat)
  qseq : Nat
  /-- Barrier wait: object address and phase (R206). -/
  bwait : Option (Nat × Word)
  /-- Yield back-off by YIELD and by a polling load: the grove cycle at which each ends (R162, R201). -/
  yieldUntil : Option Nat
  pollUntil : Option Nat
  /-- Retry after no permit was free: the grove cycle at which it may try again (R363). -/
  retry : Option Nat
  /-- The first grove cycle in which it was held at a REJOIN (R162); none once released. -/
  rejoinSince : Option Nat
  rejoinDone : Bool
  park : Option Park
  /-- A step trap not yet taken: the PC of the retired word (R369). -/
  due : Option DWord
  cycOff : Int
  hold : Hold
  /-- Fences passed: `.rel` holds later stores until the operations below are performed, `.acq` later accesses until the reads
  below have completed, `.ar` later accesses until the operations below are performed (R203, R236). -/
  fRel : FenceN
  fAcq : FenceN
  fAr : FenceN
  /-- An acquiring fence beyond the L1 domain: the next access it ordered hits no sector filled before (R183, R203). -/
  renew : Bool
  /-- Operations below these numbers are performed before a copy of the own scratchpad, of the grove window, of `.g` (R210). -/
  relCore : Nat
  relGrove : Nat
  relDev : Nat
  /-- Stores of other threads that this one has read before they were performed, by the load that did so (R229, R238); and those
  read by fragment accesses that no WAIT has seen complete (R236, R240). -/
  early : List (Nat × Nat)
  earlyTl : List Nat
  /-- L1 sectors filled before this are not hit (R183); before the second, once a WAIT has seen the tile operations complete
  (R240). -/
  acqStamp : Nat
  tlStamp : Nat
  wins : List Win
  /-- Values of main-file registers that the matrix engine may still read (R142). -/
  olds : List (Nat × Word)
  /-- Issue turns of its bough since it last issued (R52). -/
  age : Nat
  deriving DecidableEq, Repr

/-- The PC as a code address (R154, R155). -/
def Thread.pc (t : Thread) : DWord := t.pcw.setWidth 64 <<< 3

/-- A code address as the PC holds it: bits [54:3] (R154). -/
def pcOf (v : DWord) : BitVec 52 := v.extractLsb' 3 52

/-- A lane's arrival at a collective, with the operands read then (R166). -/
structure Arr where
  slot : Nat
  contrib : Bool
  a : DWord
  b : DWord
  v : Bool
  deriving DecidableEq, Repr

/-- An open collective record (R154, R166). `wait` is set while its call waits for context-table entries (R174); `pcs` then holds
the callee entries that were read when it was complete (R171). -/
structure Coll where
  word : DWord
  pc : DWord
  arrs : List Arr
  wait : Option Nat
  pcs : Option (List DWord)
  deriving DecidableEq, Repr

/-- A context-table entry: the team's own (entry 0) or a sub-team's (R154, R173, R378). -/
structure CtxEnt where
  /-- 1 active, 2 in a call, 3 waiting for entries (R378); a free entry is absent. -/
  state : Nat
  level : Nat
  parent : Nat
  callee : Nat
  /-- Thread slots in lane order. -/
  lanes : List Nat
  /-- Return PC of the call that made it. -/
  ret : DWord
  coll : Option Coll
  /-- While in a call: the bit mask of the callees called, and the call's return PC. -/
  called : BitVec 8
  callRet : DWord
  /-- Slots that arrived at the call and were given to no callee: they await its rejoin. -/
  idle : List Nat
  deriving DecidableEq, Repr

/-- The quarter-collective operations (R136, R138). -/
inductive MatOp where
  | mma (x : MmaArg)
  | mmas (x : MmasArg)
  | mtrn (x : MtrnArg)
  deriving DecidableEq, Repr

/-- An open entry of a quarter (R135, R138): arrivals by position, contributing or not. -/
structure QEnt where
  id : Nat
  ctx : Nat
  quarter : Nat
  seq : Nat
  word : DWord
  pc : DWord
  op : MatOp
  arrs : List (Nat × Bool)
  deriving DecidableEq, Repr

/-- Where a closed entry stands: waiting in its core's request queue, admitted, granted (R144). -/
inductive MStage where
  | queued | admitted | granted
  deriving DecidableEq, Repr

/-- A closed entry (R144): contributing slots by position. -/
structure MEnt where
  id : Nat
  core : Nat
  team : Nat
  ctx : Nat
  quarter : Nat
  seq : Nat
  prio : Nat
  op : MatOp
  slots : List (Option Nat)
  stage : MStage
  /-- Entries fused with it share one place of the table: the number of the group's first (R143, R144). -/
  grp : Nat
  /-- Grove cycle of its admission, for the bound of R144. -/
  since : Nat
  /-- Results computed at the grant, by contributing slot: register, value; and the flags (R140). -/
  res : List (Nat × List (Nat × Word) × Fl)
  deriving DecidableEq, Repr

/-- A team (R44, R45, R154, R379). -/
structure Team where
  grid : Nat
  index : Nat
  core : Nat
  first : Nat
  n : Nat
  argp : Nat
  region : Nat
  /-- Core tags it holds, in the order of its own numbers (R207). -/
  tags : List Nat
  ctxs : SMap CtxEnt
  opens : List QEnt
  /-- Migration under way: the core and first slot it moves to (R53). -/
  moving : Option (Nat × Nat)
  /-- It is to be saved (R374, R376). -/
  leaving : Bool
  /-- Rollback: segment held, interval recoverable, already rolled back (R379 to R383). -/
  seg : Option Nat
  recov : Bool
  rolled : Bool
  /-- An uncorrectable error has been consumed: the team stops for its rollback or kill (R383). -/
  rbDue : Bool
  /-- A write of its rollback overflowed and waits for this record (R189, R383; log 70). -/
  rbHeld : Option Nat
  /-- Lines whose error the team has met since (R383). -/
  met : List Nat
  /-- A TBAR that waits to start an interval (R380). -/
  ckpt : Bool
  deriving DecidableEq, Repr

/-- A grid (R38, R303, R309). -/
structure Grid where
  gid : BitVec 32
  part : Nat
  /-- Its copy of the launch record (R309). -/
  lrec : List Byte
  depth : Nat
  remaining : Nat
  next : Nat
  children : Nat
  parent : Option Nat
  ctx : BitVec 16
  age : Nat
  handle : BitVec 32
  args : List Byte
  /-- In the pending list (R309). -/
  pending : Bool
  /-- Device time since which its next team waits (R313). -/
  since : Nat
  deriving DecidableEq, Repr

/-- A park record, one of a core's four permits (R366). -/
structure ParkRec where
  dfr : Bool
  code : BitVec 8
  pc : DWord
  fpc : DWord
  va : DWord
  aux : DWord
  mask : List Nat
  deriving DecidableEq, Repr

/-- The state of a copy tag (R206, R208). -/
structure TagSt where
  rdy : Bool
  count : Nat
  owner : Option Nat
  deriving DecidableEq, Repr

/-- A bough (R38, R303, R344, R361). Regrouped boughs use numbers from 16 up. -/
structure Bough where
  grid : Option Nat
  prio : Nat
  age : Nat
  starve : Nat
  lastPick : Nat
  wait : Nat
  k : Nat
  /-- PCs at which it was last held for amber: their words are known and priced, also while they are fetched again (R354). -/
  want : List DWord
  /-- Slots of threads held short of amber since its wait count began, and whether one was during this revolution (R353). -/
  short : List Nat
  shortRev : Bool
  deriving DecidableEq, Repr

/-- A regroup record (R165). -/
structure Regroup where
  grid : Nat
  pc : DWord
  slots : List Nat
  /-- Grove cycle of its first spawn. -/
  since : Nat
  admitted : Bool
  deriving DecidableEq, Repr

/-- A 32-byte sector of an L1 line (R178): its bytes, its line's hint, the key id it was read under, when it was filled, when it
was last used. -/
structure Sector where
  data : List Byte
  hint : Hint
  key : Nat
  fill : Nat
  used : Nat
  deriving DecidableEq, Repr

/-- A core (R38, R154, R178, R206, R303, R344, R361). -/
structure CoreSt where
  pool : Nat
  resv : Option Nat
  boughs : SMap Bough
  withheld : Bool
  recs : SMap ParkRec
  pkip : BitVec 2
  pkie : BitVec 2
  pksel : BitVec 9
  pkcmdm : BitVec 512
  tags : SMap TagSt
  /-- Copy queue: operations in queue order (R209). -/
  cq : List Nat
  regroup : SMap Regroup
  deriving DecidableEq, Repr

/-- A grove (R178, R344, R360). -/
structure GroveSt where
  fused : Bool
  en : Bool
  fmax : Nat
  rate : Nat
  share : Nat
  /-- AMBCFG as written, in force from the next revolution (R352). -/
  cfgNext : Option DWord
  float : Nat
  /-- Needy queue of (core in grove, bough) (R354). -/
  needy : List (Nat × Nat)
  /-- Cycles of the grove clock, the remainder of its advance in MHz·ns, and the cycle of the last revolution. -/
  cycle : Nat
  rem : Nat
  lastRev : Nat
  boosted : Bool
  /-- Bough picked by each port last, and the pick counter (R315). -/
  picks : Nat
  deriving DecidableEq, Repr

/-- An entry of a key table: the number of the draw that gave its two keys, if one did, and the doublewords that firmware has
written since (R191). -/
structure KeyEnt where
  draw : Option Nat
  words : SMap DWord
  deriving DecidableEq, Repr

def KeyEnt.blank : KeyEnt := ⟨none, []⟩

/-- What a line is stored under: the keys, and the key id that stands in the tweak (R191). -/
structure KeyTag where
  ent : KeyEnt
  kid : Nat
  /-- The line's address in the tweak. -/
  la : Nat
  deriving DecidableEq, Repr

/-- A line in an L2 slice (R178, R186, R193). -/
structure L2Line where
  data : List Byte
  dirty : Bool
  poison : Bool
  hint : Hint
  used : Nat
  key : KeyTag
  /-- The partition whose key table the key stands in (R192). -/
  part : Nat
  /-- An uncorrectable error of the slice's array that no read has met yet (R193). -/
  err : Bool
  deriving DecidableEq, Repr

/-- A line of a core's instruction cache: device code by its physical line, or code of a host page by logical device and line,
with the bytes it holds and the team that fetched it (R185). -/
structure ILine where
  core : Nat
  ld : Option Nat
  line : Nat
  team : Nat
  data : List Byte
  deriving DecidableEq, Repr

/-- A cached walk (R331): the engine that holds it (a core below 768, else 768 and its number of R268), partition, first
address, page size exponent, the leaf entry. -/
structure Tlb where
  unit : Nat
  part : Nat
  base : Nat
  log : Nat
  leaf : DWord
  deriving DecidableEq, Repr

/-- An ATC entry (R335): logical device, PASID, va[54:12], host frame, whether it admits writes. -/
structure Atc where
  ld : Nat
  pasid : Nat
  vpn : Nat
  frame : Nat
  w : Bool
  deriving DecidableEq, Repr

/-- An outstanding Translation Request with those that wait for it, each with whether it is to write; `stale` once an Invalidate
Request has covered it (R335). -/
structure XReq where
  ld : Nat
  pasid : Nat
  vpn : Nat
  stale : Bool
  waiters : List (Asker × Bool)
  deriving DecidableEq, Repr

/-- A pending fault record's life in the model: its number (given when it is written), code, page, replayable, engine, time, resolved (R338, R339). -/
structure FRec where
  /-- The reports it stands for: its own and those merged into it (R338). -/
  rids : List Nat
  idx : Nat
  code : BitVec 8
  vpn : Nat
  rep : Bool
  engine : Nat
  /-- In the merge table, with the time its record was written. -/
  merge : Option Nat
  pending : Bool
  /-- Written to the ring, or waiting for room (R267). -/
  written : Bool
  bytes : List Byte
  core : Nat
  deriving DecidableEq, Repr

end Sys2Proof.Machine
end

