-- ==== Sys2Proof/Machine/Types2.lean ====
section
/-!
DEFINITION. The parts the state is made of: queues, automata, partitions, the outside (11 R257, 12 R271, 13 R303, 16 R361,
17 R386), and the model's own agenda.
-/

namespace Sys2Proof.Machine

/-! ### Queues (R257 to R268) -/

/-- An event record as its eight words, low word first (R14, R259). -/
abbrev EvRec := List Word

/-- A queue-table entry (R260) with its pool records, spill staging and stalled requests (R257, R264). -/
structure Queue where
  v : Bool
  part : BitVec 5
  cmode : Bool
  mtch : BitVec 2
  pol : BitVec 2
  min : BitVec 18
  cap : BitVec 18
  rlog : BitVec 5
  rbase : BitVec 43
  rhead : BitVec 24
  rcnt : BitVec 25
  held : Bool
  drops : BitVec 32
  /-- Pool records with their append order, oldest first; PCNT is their number. -/
  pool : List (Nat × EvRec)
  /-- Append order of the ring records, oldest first. -/
  ringSeq : List Nat
  /-- Append order the next accepted record takes. -/
  seq : Nat
  staging : Option EvRec
  /-- A refill read (rather than a spill write) awaits resolution (R265). -/
  refill : Bool
  /-- The fault-buffer record that holds the spill write or refill read. -/
  heldBy : Option Nat
  /-- Requests waiting at the unit under POL 00: an EMIT's operation, or a slot's emit (R264, R292). -/
  stalled : List (Nat ⊕ Nat)
  /-- Host appends that the unit holds with a fault of theirs, until the fault buffer has space (R267). -/
  hostq : List EvRec
  /-- A refill waits for the same. -/
  stuck : Bool
  deriving DecidableEq, Repr

/-! ### Automata (R271 to R295) -/

/-- A candidate (R289). `cv` bit k: capture slot k valid. -/
structure Cand where
  state : Nat
  cv : BitVec 4
  key : Word
  s0 : Nat
  s1 : Nat
  s2 : Nat
  s3 : Nat
  seq : Nat
  cidx : Nat
  /-- Its place in the spill area, when it is not in the pool (R289, R290). -/
  spill : Option Nat
  /-- Time of the item that brought it into its state (R288). -/
  since : Nat
  deriving DecidableEq, Repr

/-- An item: an event of a stream with its append order, or a candidate's timer (R281); a move of a candidate that waits for
its access is held like an item (R290, R294). -/
inductive Item where
  | event (time stream seq : Nat) (ev : EvRec)
  | timer (deadline cand tr : Nat)
  | move (cand : Nat)
  deriving DecidableEq, Repr

/-- A transition being applied to a candidate and how far it has come: its capture, the slots it reads for the action and
what they gave, its emit, its spilled image (R284, R291, R292, R294). -/
inductive Doing where
  | capture (cand tr : Nat)
  | slots (cand tr : Nat) (got : List Byte)
  | emit (cand stream : Nat) (r : EvRec)
  | image (cand : Nat)
  deriving DecidableEq, Repr

/-- A held item: the candidates still to take it, whether the initial transition is still to come, and the transition it
stopped in (R282, R294). -/
structure HeldItem where
  item : Item
  rest : List Nat
  init : Bool
  doing : Option Doing
  /-- The fault-buffer record it waits for. -/
  heldBy : Option Nat
  deriving DecidableEq, Repr

/-- An automaton slot (R271, R272). -/
structure Slot where
  part : BitVec 5
  own : Bool
  unit : BitVec 2
  code : BitVec 8
  st : Nat
  pat : List Byte
  /-- Cursor of each stream: the append order of the next record to take (R280). -/
  cursors : List Nat
  cands : List Cand
  nextSeq : Nat
  held : Option HeldItem
  /-- Saved with its context: its candidates and held item are in the image (R295, R375). -/
  saved : Bool
  created : Nat
  accepted : Nat
  expired : Nat
  inhibited : Nat
  lost : Nat
  lastTime : Nat
  taken : Nat
  deriving DecidableEq, Repr

/-! ### Partitions (R225, R267, R303, R307, R317 to R324, R332, R336, R343, R361, R379, R386) -/

/-- A launch-table entry (R307). -/
structure LEntry where
  bytes : List Byte
  b : Bool
  gen : BitVec 16
  ctx : BitVec 16
  live : Nat
  deriving DecidableEq, Repr

/-- A quantum-table entry (R319); its STATE follows the scheduler. -/
structure QEntry where
  v : Bool
  ctx : BitVec 16
  quant : BitVec 16
  prio : BitVec 3
  weight : BitVec 8
  deriving DecidableEq, Repr

/-- A saved team: the team, its threads by lane, its region's bytes (R374, R378). -/
structure TeamImg where
  /-- The team's number in the model. -/
  id : Nat
  team : Team
  threads : List Thread
  region : List Byte
  tags : List TagSt
  /-- Cycle count of each thread at the save (R360). -/
  cycles : List Int
  /-- Stalled EMITs that the image carries (R346). -/
  emits : List Op
  /-- Records of its parked sub-groups (R374). -/
  recs : List ParkRec
  deriving DecidableEq, Repr

/-- A context image (R375, R378). -/
structure CtxImg where
  ctx : BitVec 16
  time : Nat
  lease : Option Nat
  allow : Nat
  grids : List (Nat × Grid)
  teams : List TeamImg
  /-- Saved automata: slot, state, the capture block of each candidate (R295). -/
  autos : List (Nat × Slot × List (List Byte))
  deriving DecidableEq, Repr

/-- An entry of a rollback log: the line, how the write that it precedes reached it, the line's old bytes (R381). -/
structure RbEnt where
  la : Nat
  key : Nat
  comp : Bool
  bix : Nat
  old : List Byte
  deriving DecidableEq, Repr

/-- A partition. -/
structure Partition where
  v : Bool
  vf : BitVec 4
  reg : BitVec 2
  afb : Bool
  groves : BitVec 32
  slices : BitVec 64
  cquota : BitVec 18
  rsvt : BitVec 16
  policy : BitVec 6
  ttb : DWord
  trc : DWord
  budg : DWord
  htc : DWord
  tlbi : DWord
  tlbBusy : Bool
  /-- TLBI writes that arrived while BUSY (R332). -/
  tlbQ : List DWord
  fbcfg : DWord
  head : BitVec 32
  tail : BitVec 32
  fbdes : DWord
  /-- FBDONE as last written (R339). -/
  fbdone : DWord
  frecs : List FRec
  prireq : DWord
  /-- Groups with a request pending, and the answers of groups that hold one (R336). -/
  priPend : List Nat
  priAns : SMap (BitVec 2)
  hrda : DWord
  hrdv : DWord
  vacate : DWord
  rbcfg : DWord
  killst : DWord
  fabcfg : DWord
  canq : BitVec 128
  rwin : SMap (BitVec 128)
  /-- A reduction window whose V is 0, as it was when V was last 1: its partial combinations are delivered by it (R397). -/
  rwas : SMap (BitVec 128)
  svdata : List Byte
  svreply : DWord
  svteam : DWord
  svst : BitVec 2
  slcmd : DWord
  slarg : DWord
  slres : DWord
  slBusy : Bool
  slst : BitVec 8
  /-- The fault-buffer record that holds an MLOAD given through SLCMD (R321). -/
  slHeld : Option Nat
  lbcmd : DWord
  lbaddr : DWord
  lbres : DWord
  /-- Key table (R191, R192). -/
  keys : SMap KeyEnt
  /-- HLOG has been changed with HON = 1: no heat value is defined until HON is 0 again (R342). -/
  heatLost : Bool
  ltab : SMap LEntry
  gridAge : Nat
  /-- Reservation of R313: grid and core. -/
  resv : Option (Nat × Nat)
  quanta : SMap QEntry
  /-- The resident context, the entry it was chosen by, the context being saved (false) or restored (true), and when the
  quantum began (R319, R375). -/
  resident : Option (BitVec 16)
  chosen : Nat
  swap : Option (BitVec 16 × Bool)
  /-- The save or restore of an automaton waits for a fault record: the record and the slot (R295, R337). -/
  swapHeld : Option (Nat × Nat)
  quantStart : Nat
  /-- Boost allowance and lease of each context, in µs; the lease's remainder in ns (R357). -/
  allow : SMap Nat
  lease : SMap Nat
  images : List CtxImg
  teamImgs : List TeamImg
  /-- Rollback segments in use: shadow, and log oldest first (R379, R381). -/
  shadows : SMap TeamImg
  rlogs : SMap (List RbEnt)
  vote : BitVec 3
  deriving DecidableEq, Repr

/-! ### The outside (R386 to R404) -/

/-- An SPDM measurement response: the index, its measurements, the signature (R404). -/
structure SpdmRsp where
  idx : Nat
  blocks : List (BitVec 384)
  sig : BitVec 768
  deriving DecidableEq, Repr

/-- A logical device: its virtual-function entry and BAR 0 (R318, R389), HDM decoder (R391), requested state (R400). -/
structure LDev where
  v : Bool
  port : BitVec 2
  parts : BitVec 32
  bar : SMap Byte
  go : Bool
  cmd : BitVec 16
  sts : BitVec 16
  killst : DWord
  reqState : BitVec 2
  /-- HDM decoder: host base, size, device base, when enabled. -/
  hdm : Option (Nat × Nat × Nat)
  /-- Outstanding invalidations: the operations that used a removed entry (R335). -/
  invs : List (List Nat)
  /-- An MLOAD given through the mailbox waits for this record of this partition's fault buffer (R298). -/
  mbHeld : Option (Nat × Nat)
  /-- Page Request Groups that its host has allocated (R334, R336; log 69). -/
  priAlloc : Nat
  /-- The last SPDM response through its DOE mailbox (R388, R404). -/
  spdm : Option SpdmRsp
  deriving DecidableEq, Repr

/-- A host port: how it trained, its width in lanes, its rate in tenths of a GT/s (R387). -/
structure Port where
  mode : PortMode
  width : Nat
  rate : Nat
  deriving DecidableEq, Repr

/-- A rail: the point its clock runs at, the point its voltage holds, the point it moves to, and the time at which the next
change is due (R399). -/
structure Rail where
  clk : BitVec 3
  volt : BitVec 3
  goal : BitVec 3
  due : Option Nat
  deriving DecidableEq, Repr

/-- A Canopy operation in progress, or a transfer that arrived (R394 to R396): its class (1 put, 2 all-reduce, 0 an arrived
transfer), its descriptor once read, what it still writes (the completion word last), the record it waits for. -/
structure CanOp where
  id : Nat
  part : Nat
  ctx : BitVec 16
  cls : Nat
  daddr : Nat
  desc : Option (List Byte)
  start : Nat
  writes : List (Nat × List Byte)
  held : Option Nat
  /-- The CANQ stream whose record started it, as its fault records name it (R268). -/
  stream : Nat
  deriving DecidableEq, Repr

/-- A partial combination in a reduction window: element address, op, width, value, contributions (R397). -/
structure RedPart where
  part : Nat
  n : Nat
  addr : Nat
  op : AOp
  dbl : Bool
  val : DWord
  count : Nat
  /-- Its delivery waits for this record (R337). -/
  held : Option Nat
  deriving DecidableEq, Repr

/-- What became of the device: running, or held in recovery with BOOT's reason (R403). -/
structure DevSt where
  /-- The board supplies power (R402). -/
  powered : Bool
  /-- DEVST.STATE: 0 run, 1 idle, 2 park, 3 off, 4 booting, 5 recovery. -/
  state : BitVec 4
  boot : BitVec 4
  svn : BitVec 16
  fuseSvn : BitVec 16
  fuseHash1 : BitVec 384
  fuseHash2 : BitVec 384
  digest : BitVec 384
  cap : BitVec 16
  unmet : Bool
  hbmT : BitVec 8
  dieT : BitVec 8
  trip : Bool
  /-- Recovery image bytes supplied so far (R390 IMAGE). -/
  image : SMap Byte
  /-- What index 5 covers as it was last measured: the partition table's fields and the virtual-function table's, in order; and the
  digests of the loaded policy plug-ins in load order (R404). -/
  meas5 : List Nat
  plugins : List (BitVec 384)
  /-- The last SPDM response over MCTP. -/
  spdm : Option SpdmRsp
  deriving DecidableEq, Repr

/-- A grid creation that waits to be done: by GLAUNCH (thread slot), or by an accepting transition (R177, R291, R309). -/
structure GReq where
  id : Nat
  part : Nat
  handle : BitVec 32
  depth : Nat
  parent : Option Nat
  args : List Byte
  slot : Option Nat
  /-- The automaton slot whose accepting transition asks for it (R291). -/
  auto : Option Nat
  d : Dst
  /-- Operations below this number must be performed first (R177). -/
  after : Nat
  /-- For an accepting launch, the record and its context as they stood when it was handed over (R291, R309). -/
  copied : Option (List Byte × BitVec 16)
  deriving DecidableEq, Repr

/-- The issuing set of the word being executed (R51, R52): its core, its bough number, its slots, its PC. -/
structure Issue where
  core : Nat
  bough : Nat
  slots : List Nat
  pc : DWord
  deriving DecidableEq, Repr

/-- An act still to come: a step of an agent, the passing of device time, an issue by one port (core × 4 + port), or a step in the
model's own order (log 3, log 4). -/
inductive Turn where
  | ev (i : Instr)
  | advance (ns : Nat)
  | port (key : Nat)
  | own
  /-- What the outside does that no row of the table names (log 2, log 71): a host's store and its atomic in its own memory, its
  allocation of page requests; an unknown mailbox command; an uncorrectable error of a line of memory, and of a slice's array; sensor
  readings; a size that firmware records as it maps a page; a walk that an engine makes ahead of need; the verification of a recovery
  image; a policy plug-in loaded. -/
  | hostWrite (ld addr : Nat) (data : List Byte)
  | hostAtomic (ld addr : Nat) (dbl : Bool) (op : AOp) (b c : BitVec 64)
  | priAlloc (ld n : Nat)
  | badCommand (ld code : Nat)
  | memError (pa : Nat)
  | sliceError (part pa : Nat)
  | temps (hbm die : Nat)
  | setSize (la : Nat) (code : BitVec 2)
  | walkAhead (unit part va : Nat)
  | recover
  | plugin (digest : BitVec 384)
  deriving DecidableEq, Repr

end Sys2Proof.Machine
end

