-- ==== Sys2Proof/Machine/State.lean ====
section
/-!
DEFINITION. The state of the S9 as plain data, its value at reset, and the reasons a step can stop.
INVENTORY.md lists every piece with the rule that names it.
-/

namespace Sys2Proof.Machine

/-- The state of the machine. -/
structure State where
  /-- Threads by slot key; a slot with no entry is free. -/
  threads : SMap Thread
  teams : SMap Team
  grids : SMap Grid
  /-- Cores by core key; an unlisted core is as at reset. -/
  cores : SMap CoreSt
  groves : SMap GroveSt
  /-- Closed matrix entries, in closing order (R144). -/
  ments : List MEnt
  parts : SMap Partition
  /-- HBM and the CXL tier, by physical address. -/
  mem : Memory
  /-- Key each line of memory was last stored under, by line address (R191). -/
  keyTags : SMap KeyTag
  /-- Lines of memory in error (R193). -/
  bad : SMap Bool
  /-- Compressed-size codes by line address (R188). -/
  sizes : SMap (BitVec 2)
  /-- L2 lines by slice × 2^52 + line address. -/
  l2 : SMap L2Line
  /-- L1 sectors by L1 domain and physical sector address: domain × 2^52 + address. -/
  l1 : SMap Sector
  /-- Instruction caches (R185). -/
  icache : List ILine
  /-- Scratchpads. -/
  scr : Memory
  /-- Host memory by logical device × 2^64 + address (log 2). -/
  host : Memory
  tlb : List Tlb
  atc : List Atc
  xreqs : List XReq
  /-- Answers of the host that accesses have waited for, that no ATC entry holds, and that are not yet taken (R335). -/
  xans : List (Asker × Denial)
  /-- Lanes that left an issue to wait for the host: the issue they left (R415). -/
  late : SMap Nat
  /-- For each thread slot: for a register, the fill stamp of the latest data its value was computed from (R229 dep); predicates
  are 265 up. -/
  deps : SMap (SMap Nat)
  /-- Sampling counters by slice (R341). -/
  heat : SMap Nat
  ops : List Op
  greqs : List GReq
  queues : SMap Queue
  slots : SMap Slot
  lds : SMap LDev
  /-- The fused or configured part of the outside. -/
  ports : SMap Port
  tiermap : SMap DWord
  rails : SMap Rail
  dev : DevSt
  canops : List CanOp
  redparts : List RedPart
  /-- Host lines held through CXL.cache, as logical device × 2^64 + address (R393). -/
  owned : List Nat
  /-- Device time in ns (R359). -/
  time : Nat
  /-- Device time of the last boost refill (R357), and of the last queue stamp (R259). -/
  refill : Nat
  stamped : Nat
  /-- The model's own: acts to come, the issuing set, the number of free values taken, next numbers, the fill stamp of L1
  sectors (log 3, log 5). -/
  agenda : List Turn
  cur : Issue
  fresh : Nat
  nextOp : Nat
  nextTeam : Nat
  nextEnt : Nat
  stamp : Nat
  /-- Draws of keys made so far (R191, R403). -/
  keyDraws : Nat
  deriving DecidableEq, Repr

/-- Why a step stops with a fault. -/
inductive Fault where
  /-- Raised by `step` alone, when the board has removed power: no agent of the device acts until a reset (R402). Safe: no next
  state. -/
  | powerRemoved
  deriving DecidableEq, Repr

/-- Why a step is refused. -/
inductive Refusal where
  /-- Raised by an arm of `exec` with no meaning yet. Safe: no next state. -/
  | notModelled (mnemonic : String)
  deriving DecidableEq, Repr

/-- A core as at reset: pool 64, nothing bound, everything free (R38, R206, R344, R361). -/
def CoreSt.reset : CoreSt where
  pool := 64
  resv := none
  boughs := []
  withheld := false
  recs := []
  pkip := 0
  pkie := 0
  pksel := 0
  pkcmdm := 0
  tags := []
  cq := []
  regroup := []

/-- A grove as at reset: separate L1s, AMBCFG at its reset value, nothing needy (R178, R352). -/
def GroveSt.reset : GroveSt where
  fused := false
  en := true
  fmax := 0x600
  rate := 0x600
  share := 0x40
  cfgNext := none
  float := 0
  needy := []
  cycle := 0
  rem := 0
  lastRev := 0
  boosted := false
  picks := 0

/-- A bough as at reset (R303). -/
def Bough.reset : Bough := ⟨none, 0, 0, 0, 0, 0, 0, [], [], false⟩

/-- A tag as at reset (R206). -/
def TagSt.reset : TagSt := ⟨false, 0, none⟩

/-- A queue-table entry as at reset (R260). -/
def Queue.reset : Queue where
  v := false
  part := 0
  cmode := false
  mtch := 0
  pol := 0
  min := 0
  cap := 0
  rlog := 0
  rbase := 0
  rhead := 0
  rcnt := 0
  held := false
  drops := 0
  pool := []
  ringSeq := []
  seq := 0
  staging := none
  refill := false
  heldBy := none
  stalled := []
  hostq := []
  stuck := false

/-- An automaton slot as at reset (R272). -/
def Slot.reset : Slot where
  part := 0
  own := false
  unit := 0
  code := 0
  st := 0
  pat := []
  cursors := []
  cands := []
  nextSeq := 0
  held := none
  saved := false
  created := 0
  accepted := 0
  expired := 0
  inhibited := 0
  lost := 0
  lastTime := 0
  taken := 0

/-- A launch-table entry as at reset (R307). -/
def LEntry.reset : LEntry := ⟨[], false, 0, 0, 0⟩

/-- A quantum-table entry as at reset (R319). -/
def QEntry.reset : QEntry := ⟨false, 0, 0, 0, 0⟩

/-- A partition's registers as at reset (R317, R324, R267 and the tables of 13 to 17; log 7 for the command registers). -/
def Partition.reset : Partition where
  v := false
  vf := 0
  reg := 0
  afb := false
  groves := 0
  slices := 0
  cquota := 0
  rsvt := 0x03E8
  policy := 0x2A
  ttb := 0
  trc := 0
  budg := 0x8080808080808080
  htc := 0x4003
  tlbi := 0
  tlbBusy := false
  tlbQ := []
  fbcfg := 0x60000
  head := 0
  tail := 0
  fbdes := 0
  fbdone := 0
  frecs := []
  prireq := 0
  priPend := []
  priAns := []
  hrda := 0
  hrdv := 0
  vacate := 0
  rbcfg := 0
  killst := 0
  fabcfg := 0
  canq := 0
  rwin := []
  rwas := []
  svdata := []
  svreply := 0
  svteam := 0
  svst := 0
  slcmd := 0
  slarg := 0
  slres := 0
  slBusy := false
  slst := 0
  slHeld := none
  lbcmd := 0
  lbaddr := 0
  lbres := 0
  keys := []
  heatLost := false
  ltab := []
  gridAge := 0
  resv := none
  quanta := []
  resident := none
  chosen := 0
  swap := none
  swapHeld := none
  quantStart := 0
  allow := []
  lease := []
  images := []
  teamImgs := []
  shadows := []
  rlogs := []
  vote := 0

/-- A logical device as at reset: disabled, BAR 0 zero, requesting run (R318, R389; log 9). -/
def LDev.reset : LDev where
  v := false
  port := 0
  parts := 0
  bar := []
  go := false
  cmd := 0
  sts := 0
  killst := 0
  reqState := 0
  hdm := none
  invs := []
  mbHeld := none
  priAlloc := 512
  spdm := none

/-- A port as at reset: down (R386). -/
def Port.reset : Port := ⟨.down, 0, 0⟩

/-- A rail as at reset: OP0, the point of a rail with no vote (R399). -/
def Rail.reset : Rail := ⟨0, 0, 0, none⟩

/-- The device as at reset: booting, cap 1800 W, fuses zero (R389, R386; log 10). -/
def DevSt.reset : DevSt where
  powered := true
  state := 4
  boot := 0
  svn := 0
  fuseSvn := 0
  fuseHash1 := 0
  fuseHash2 := 0
  digest := 0
  cap := 1800
  unmet := false
  hbmT := 0
  dieT := 0
  trip := false
  image := []
  meas5 := []
  plugins := []
  spdm := none

/-- The machine right after reset. -/
def State.reset : State where
  threads := []
  teams := []
  grids := []
  cores := []
  groves := []
  ments := []
  parts := []
  mem := []
  keyTags := []
  bad := []
  sizes := []
  l2 := []
  l1 := []
  icache := []
  scr := []
  host := []
  tlb := []
  atc := []
  xreqs := []
  xans := []
  late := []
  deps := []
  heat := []
  ops := []
  greqs := []
  queues := []
  slots := []
  lds := []
  ports := []
  tiermap := []
  rails := []
  dev := DevSt.reset
  canops := []
  redparts := []
  owned := []
  time := 0
  refill := 0
  stamped := 0
  agenda := []
  cur := ⟨0, 0, [], 0⟩
  fresh := 0
  nextOp := 0
  nextTeam := 0
  nextEnt := 0
  stamp := 0
  keyDraws := 0

end Sys2Proof.Machine
end

