-- ==== Sys2Proof/Machine/Access.lean ====
section
/-!
DEFINITION. Accessors of the state, the geometry of the device, launch-record fields, free values and choices.
Every read and write of a part of the state goes through these.
-/

namespace Sys2Proof.Machine

/-! ### Geometry (00 R2, 02 R45, R51) -/

def coreOf (k : Nat) : Nat := k / slotsPerCore
def slotNo (k : Nat) : Nat := k % slotsPerCore
def boughOf (k : Nat) : Nat := slotNo k / 32
def groveOf (c : Nat) : Nat := c / coresPerGrove
def coreInGrove (c : Nat) : Nat := c % coresPerGrove
def copseOf (c : Nat) : Nat := c / 4
def scrKey (c off : Nat) : Nat := c * scrBytes + off

/-- A bough of the device: core × 32 + number; 16 up are regrouped boughs (R315). -/
def boughKey (c b : Nat) : Nat := c * 32 + b

/-! ### Parts of the state -/

def State.thread? (s : State) (k : Nat) : Option Thread := s.threads.find? k
def State.setThread (s : State) (k : Nat) (t : Thread) : State := { s with threads := s.threads.put k t }
def State.updThread (s : State) (k : Nat) (f : Thread → Thread) : State := { s with threads := s.threads.upd k f }
def State.freeThread (s : State) (k : Nat) : State := { s with threads := s.threads.erase k, deps := s.deps.erase k }

def State.team? (s : State) (k : Nat) : Option Team := s.teams.find? k
def State.updTeam (s : State) (k : Nat) (f : Team → Team) : State := { s with teams := s.teams.upd k f }
def State.grid? (s : State) (k : Nat) : Option Grid := s.grids.find? k
def State.updGrid (s : State) (k : Nat) (f : Grid → Grid) : State := { s with grids := s.grids.upd k f }

def State.core (s : State) (c : Nat) : CoreSt := s.cores.get CoreSt.reset c
def State.updCore (s : State) (c : Nat) (f : CoreSt → CoreSt) : State :=
  { s with cores := s.cores.set CoreSt.reset c (f (s.core c)) }
def State.grove (s : State) (g : Nat) : GroveSt := s.groves.get GroveSt.reset g
def State.updGrove (s : State) (g : Nat) (f : GroveSt → GroveSt) : State :=
  { s with groves := s.groves.set GroveSt.reset g (f (s.grove g)) }
def State.part (s : State) (p : Nat) : Partition := s.parts.get Partition.reset p
def State.updPart (s : State) (p : Nat) (f : Partition → Partition) : State :=
  { s with parts := s.parts.set Partition.reset p (f (s.part p)) }
def State.queue (s : State) (j : Nat) : Queue := s.queues.get Queue.reset j
def State.updQueue (s : State) (j : Nat) (f : Queue → Queue) : State :=
  { s with queues := s.queues.set Queue.reset j (f (s.queue j)) }
def State.slot (s : State) (a : Nat) : Slot := s.slots.get Slot.reset a
def State.updSlot (s : State) (a : Nat) (f : Slot → Slot) : State :=
  { s with slots := s.slots.set Slot.reset a (f (s.slot a)) }
def State.ld (s : State) (v : Nat) : LDev := s.lds.get LDev.reset v
def State.updLd (s : State) (v : Nat) (f : LDev → LDev) : State :=
  { s with lds := s.lds.set LDev.reset v (f (s.ld v)) }
def State.rail (s : State) (r : Nat) : Rail := s.rails.get Rail.reset r
def State.updRail (s : State) (r : Nat) (f : Rail → Rail) : State :=
  { s with rails := s.rails.set Rail.reset r (f (s.rail r)) }
def State.op? (s : State) (id : Nat) : Option Op := s.ops.find? (fun o => o.id == id)
def State.updOp (s : State) (id : Nat) (f : Op → Op) : State :=
  { s with ops := s.ops.map (fun o => if o.id == id then f o else o) }
def State.dropOp (s : State) (id : Nat) : State := { s with ops := s.ops.filter (fun o => o.id != id) }

/-- A bough, as at reset when it was never used. -/
def CoreSt.bough (c : CoreSt) (b : Nat) : Bough := c.boughs.get Bough.reset b
def CoreSt.updBough (c : CoreSt) (b : Nat) (f : Bough → Bough) : CoreSt :=
  { c with boughs := c.boughs.set Bough.reset b (f (c.bough b)) }
def CoreSt.tag (c : CoreSt) (t : Nat) : TagSt := c.tags.get TagSt.reset t
def CoreSt.updTag (c : CoreSt) (t : Nat) (f : TagSt → TagSt) : CoreSt :=
  { c with tags := c.tags.set TagSt.reset t (f (c.tag t)) }

/-! ### Partitions (R317, R318) -/

/-- The lowest number below `n` that satisfies a test. -/
def firstBelow (n : Nat) (p : Nat → Bool) : Option Nat := (List.range n).find? p

def partitions : Nat := 32

/-- The valid partition that owns a grove. -/
def State.partOfGrove (s : State) (g : Nat) : Option Nat :=
  firstBelow partitions (fun p => (s.part p).v && (s.part p).groves.getLsbD g)

def State.partOfCore (s : State) (c : Nat) : Option Nat := s.partOfGrove (groveOf c)

/-- Positions of the set bits below `n`, ascending. -/
def setBitsOf {w : Nat} (v : BitVec w) (n : Nat) : List Nat := (List.range n).filter (fun i => v.getLsbD i)

/-- The groves of a partition, ascending: sr.grove is the rank in this list. -/
def Partition.groveList (p : Partition) : List Nat := setBitsOf p.groves 32

/-- sr.grove: the rank of a grove among its partition's groves (R317). -/
def Partition.rank (p : Partition) (g : Nat) : Nat := (setBitsOf p.groves g).length

/-- Cores of a partition in order of grove and core. -/
def Partition.cores (p : Partition) : List Nat :=
  p.groveList.flatMap (fun g => (List.range coresPerGrove).map (fun i => g * coresPerGrove + i))

/-- The logical device of a partition. -/
def State.ldOf (s : State) (p : Nat) : Nat := (s.part p).vf.toNat

/-- The port of a logical device. -/
def State.portOf (s : State) (v : Nat) : Port := s.ports.get Port.reset (s.ld v).port.toNat

/-! ### Registers with reserved fields (R320) -/

/-- The named fields (low bit, length) of a written word: what is reserved or read-only stays zero. -/
def keep (v : DWord) (l : List (Nat × Nat)) : DWord :=
  BitVec.ofNat 64 ((l.map (fun f => bits v f.1 f.2 * 2 ^ f.1)).sum)

/-! ### Launch-record fields (R304) -/

/-- Word `n` of a little-endian byte string. -/
def wordAt (bs : List Byte) (n : Nat) : Nat := leNat ((bs.drop (4 * n)).take 4)

/-- Bits of word `n`. -/
def fieldAt (bs : List Byte) (n lo len : Nat) : Nat := wordAt bs n / 2 ^ lo % 2 ^ len

/-- The doubleword at words `n` and `n + 1`. -/
def dwordAt (bs : List Byte) (n : Nat) : Nat := wordAt bs n + 2 ^ 32 * wordAt bs (n + 1)

def lrRegs (r : List Byte) : Nat := 8 * fieldAt r 0 18 6
def lrTeam (r : List Byte) : Nat := fieldAt r 0 8 10
def lrFuse (r : List Byte) : Bool := fieldAt r 0 7 1 == 1
def lrPrio (r : List Byte) : Nat := fieldAt r 0 4 3
def lrRb (r : List Byte) : Bool := fieldAt r 0 3 1 == 1
def lrRsp (r : List Byte) : Nat := fieldAt r 1 27 5
def lrFan (r : List Byte) : Nat := fieldAt r 1 23 4
def lrDep (r : List Byte) : Nat := fieldAt r 1 19 4
def lrTags (r : List Byte) : Nat := fieldAt r 1 12 7
def lrScr (r : List Byte) : Nat := fieldAt r 2 0 19
def lrEntry (r : List Byte) : Nat := dwordAt r 4
def lrCblk (r : List Byte) : Nat := dwordAt r 6
def lrClen (r : List Byte) : Nat := wordAt r 8
def lrKlen (r : List Byte) : Nat := wordAt r 9
def lrKbase (r : List Byte) : Nat := dwordAt r 10
def lrTeams (r : List Byte) : Nat := (wordAt r 12 + 1) * (wordAt r 13 + 1) * (wordAt r 14 + 1)
/-- The code of format slot `k` (R118). -/
def lrFmt (r : List Byte) (k : Nat) : Nat := (r.getD (64 + k) 0).toNat % 32

/-- The grid of a thread's team. -/
def State.gridOf (s : State) (t : Thread) : Option Grid :=
  match s.team? t.team with
  | none => none
  | some m => s.grid? m.grid

/-- The launch record of a thread's grid; empty when the thread has none. -/
def State.lrecOf (s : State) (t : Thread) : List Byte :=
  match s.gridOf t with
  | none => []
  | some g => g.lrec

/-- The register allocation of a slot's thread. -/
def State.regsOf (s : State) (k : Nat) : Nat :=
  match s.thread? k with
  | none => 0
  | some t => lrRegs (s.lrecOf t)

/-- The partition a thread runs in: that of its core. -/
def State.partOf (s : State) (k : Nat) : Nat := (s.partOfCore (coreOf k)).getD 0

/-! ### Free values and choices (log 5) -/

/-- One of two outcomes the manual allows, by the n-th free choice when they differ. -/
def choose {α : Type} [DecidableEq α] (n : Nat) (a b : α) : α :=
  if a = b then a else if Config.freeBool n then a else b

/-- `n` free bytes from free number `f`. -/
def freeBytes (f n : Nat) : List Byte := (List.range n).map (fun i => Config.freeByte (f + i))

/-- One of two outcomes the manual allows; a free choice is taken only when they differ. -/
def State.pick {α : Type} [DecidableEq α] (s : State) (a b : α) : State × α :=
  if a = b then (s, a) else ({ s with fresh := s.fresh + 1 }, if Config.freeBool s.fresh then a else b)

def State.takeFresh (s : State) (n : Nat) : State := { s with fresh := s.fresh + n }

/-! ### Time (R359, R360) -/

/-- Cycles of the clock of a core's grove. -/
def State.cycleOf (s : State) (c : Nat) : Nat := (s.grove (groveOf c)).cycle

end Sys2Proof.Machine
end

