-- ==== Sys2Proof/Machine/Aes.lean ====
section
/-!
DEFINITION. The memory engines' cipher: AES-256 and its XTS mode over a 128-byte line (08 R191; the cipher itself is the
standard one that the rule names, FIPS 197 and IEEE 1619).
-/

namespace Sys2Proof.Machine

/-! ### AES-256 -/

/-- The substitution box and its inverse, entry `b` in bits [8b+7:8b]. -/
def sboxTable : Nat := 0x16bb54b00f2d99416842e6bf0d89a18cdf2855cee9871e9b948ed9691198f8e19e1dc186b95735610ef6034866b53e708a8bbd4b1f74dde8c6b4a61c2e2578ba08ae7a65eaf4566ca94ed58d6d37c8e779e4959162acd3c25c2406490a3a32e0db0b5ede14b8ee4688902a22dc4f816073195d643d7ea7c41744975fec130ccdd2f3ff1021dab6bcf5389d928f40a351a89f3c507f02f94585334d43fbaaefd0cf584c4a39becb6a5bb1fc20ed00d153842fe329b3d63b52a05a6e1b1a2c830975b227ebe28012079a059618c323c7041531d871f1e5a534ccf73f362693fdb7c072a49cafa2d4adf04759fa7dc982ca76abd7fe2b670130c56f6bf27b777c63

def invSboxTable : Nat := 0x7d0c2155631469e126d677ba7e042b17619953833cbbebc8b0f52aae4d3be0a0ef9cc9939f7ae52d0d4ab519a97f51605fec8027591012b131c7078833a8dd1ff45acd78fec0db9a2079d2c64b3e56fc1bbe18aa0e62b76f89c5291d711af1476edf751ce837f9e28535ade72274ac9673e6b4f0cecff297eadc674f4111913a6b8a130103bdafc1020f3fca8f1e2cd00645b3b80558e4f70ad3bc8c00abd890849d8da75746155edab9edfd5048706c92b6655dcc5ca4d41698688664f6f87225d18b6d49a25b76b224d92866a12e084ec3fa420b954cee3d23c2a632947b54cbe9dec444438e3487ff2f9b8239e37cfbd7f3819ea340bf38a53630d56a0952

def boxAt (t b : Nat) : Nat := t / 2 ^ (8 * b) % 256

def subByte (b : Nat) : Nat := boxAt sboxTable b
def invSubByte (b : Nat) : Nat := boxAt invSboxTable b

/-- Multiplication by x in the field of 2^8 elements. -/
def xtime (b : Nat) : Nat := if 2 * b < 256 then 2 * b else (2 * b) ^^^ 0x11B

/-- Multiplication by a constant below 16. -/
def fieldMul (c b : Nat) : Nat :=
  let b2 := xtime b
  let b4 := xtime b2
  let b8 := xtime b4
  (if c % 2 = 1 then b else 0) ^^^ (if c / 2 % 2 = 1 then b2 else 0) ^^^ (if c / 4 % 2 = 1 then b4 else 0)
    ^^^ (if c / 8 % 2 = 1 then b8 else 0)

def xorBytes (a b : List Nat) : List Nat := List.zipWith (fun x y => x ^^^ y) a b

/-- Row `r`, column `c` of the state is byte 4c + r. -/
def permute (f : Nat → Nat → Nat) (st : List Nat) : List Nat :=
  (List.range 16).map (fun i => st.getD (4 * f (i % 4) (i / 4) + i % 4) 0)

def shiftRows (st : List Nat) : List Nat := permute (fun r c => (c + r) % 4) st
def invShiftRows (st : List Nat) : List Nat := permute (fun r c => (c + 4 - r) % 4) st

/-- Each column multiplied by the circulant matrix whose first row is given. -/
def mixWith (m : List Nat) (st : List Nat) : List Nat :=
  (List.range 16).map (fun i =>
    (List.range 4).foldl (fun acc j => acc ^^^ fieldMul (m.getD ((j + 4 - i % 4) % 4) 0) (st.getD (i / 4 * 4 + j) 0)) 0)

def mixColumns (st : List Nat) : List Nat := mixWith [2, 3, 1, 1] st
def invMixColumns (st : List Nat) : List Nat := mixWith [14, 11, 13, 9] st

/-- The key schedule's words, newest first, extended by `fuel` words from number `i`. -/
def expandKey : Nat → Nat → List (List Nat) → List (List Nat)
  | 0, _, ws => ws
  | fuel + 1, i, ws =>
    let t := ws.getD 0 []
    let t :=
      if i % 8 = 0 then xorBytes ((t.drop 1 ++ t.take 1).map subByte) [2 ^ (i / 8 - 1), 0, 0, 0]
      else if i % 8 = 4 then t.map subByte
      else t
    expandKey fuel (i + 1) (xorBytes (ws.getD 7 []) t :: ws)

/-- The fifteen round keys of a 32-byte key. -/
def roundKeys (key : List Nat) : List (List Nat) :=
  let ws := (expandKey 52 8 ((List.range 8).map (fun i => (key.drop (4 * i)).take 4)).reverse).reverse
  (List.range 15).map (fun r => ((ws.drop (4 * r)).take 4).flatten)

/-- A block encrypted under its round keys. -/
def aesEncrypt (ks : List (List Nat)) (b : List Nat) : List Nat :=
  let st := (List.range 13).foldl (fun st r => xorBytes (mixColumns (shiftRows (st.map subByte))) (ks.getD (r + 1) []))
    (xorBytes b (ks.getD 0 []))
  xorBytes (shiftRows (st.map subByte)) (ks.getD 14 [])

/-- A block decrypted. -/
def aesDecrypt (ks : List (List Nat)) (b : List Nat) : List Nat :=
  let st := (List.range 13).foldl
    (fun st r => invMixColumns (xorBytes ((invShiftRows st).map invSubByte) (ks.getD (13 - r) [])))
    (xorBytes b (ks.getD 14 []))
  xorBytes ((invShiftRows st).map invSubByte) (ks.getD 0 [])

/-! ### XTS -/

/-- The next tweak of a line: multiplication by x in the field of 2^128 elements, low byte first. -/
def nextTweak (t : List Nat) : List Nat :=
  let n := t.foldr (fun b acc => b + 256 * acc) 0
  let d := if 2 * n < 2 ^ 128 then 2 * n else (2 * n - 2 ^ 128) ^^^ 0x87
  (List.range 16).map (fun i => d / 256 ^ i % 256)

/-- The blocks of a line, each passed through a block function between two additions of its tweak. -/
def xtsBlocks (f : List Nat → List Nat) : Nat → List Nat → List Nat → List Nat
  | 0, _, _ => []
  | n + 1, t, bs => xorBytes (f (xorBytes (bs.take 16) t)) t ++ xtsBlocks f n (nextTweak t) (bs.drop 16)

/-- The tweak of a line: key id in bits [127:124], line address in [51:0] (R191). -/
def lineTweak (kid la : Nat) : Nat := kid % 16 * 2 ^ 124 + la / 128 * 128 % 2 ^ 52

/-- The bytes of a number, low byte first. -/
def natBytes (n v : Nat) : List Nat := (List.range n).map (fun i => v / 256 ^ i % 256)

/-- A 128-byte line under two keys, the low 256 bits the data key and the high 256 bits the tweak key, bytes low first (log 8). -/
def xtsLine (enc : Bool) (keys : BitVec 512) (kid la : Nat) (line : List Byte) : List Byte :=
  let k1 := roundKeys (natBytes 32 (keys.toNat % 2 ^ 256))
  let k2 := roundKeys (natBytes 32 (keys.toNat / 2 ^ 256))
  let t := aesEncrypt k2 (natBytes 16 (lineTweak kid la))
  (xtsBlocks (if enc then aesEncrypt k1 else aesDecrypt k1) 8 t (line.map BitVec.toNat)).map (BitVec.ofNat 8)

end Sys2Proof.Machine
end

