-- ==== Sys2Proof/Machine/Memory.lean ====
section
/-!
DEFINITION. The memory hierarchy: L2 slices with replacement, compression, encryption keys and poison; L1 domains; heat
sampling; rollback logging (08 R182 to R193, 14 R340 to R342, 16 R381, R382).
-/

namespace Sys2Proof.Machine

/-! ### Addresses (R182) -/

def lineOf (a : Nat) : Nat := a / 128 * 128
def sectorOf (a : Nat) : Nat := a / 32 * 32
def inHbm (pa : Nat) : Bool := decide (pa < 0x6000000000)
def inCxl (pa : Nat) : Bool := decide (0x10000000000 ≤ pa) && decide (pa < 0x22000000000)

/-- The L2 slice of a physical address under a partition (R182). -/
def State.sliceOf (s : State) (part pa : Nat) : Nat :=
  if inHbm pa then pa / 0x180000000
  else
    let l := setBitsOf (s.part part).slices 64
    l.getD (pa / 128 % l.length) 0

/-- A tier address inside the ranges of R182 and the slices of the partition (R328). -/
def State.owns (s : State) (part pa : Nat) : Bool :=
  if inHbm pa then (s.part part).slices.getLsbD (pa / 0x180000000) else inCxl pa

/-- An access as an L2 slice takes it. -/
structure Acc where
  part : Nat
  pa : Nat
  key : Nat
  comp : Bool
  bix : Nat
  he : Bool
  hint : Hint
  /-- The team it is made for (R381). -/
  team : Option Nat
  deriving DecidableEq, Repr

/-- The access of a walker, of the heat unit and of the host decoder: key id 0, no compression, no heat (R325, R391). -/
def Acc.plain (part pa : Nat) : Acc := ⟨part, pa, 0, false, 0, false, .none, none⟩

def Acc.at (a : Acc) (pa : Nat) : Acc := { a with pa := pa }

/-- An L2 line's key in the state. -/
def State.l2Key (s : State) (a : Acc) : Nat := s.sliceOf a.part a.pa * 2 ^ 52 + lineOf a.pa

/-- Where memory holds a line: HBM by its address, the CXL tier by the port and pool address that its TIERMAP entry gives (R392). -/
def State.memAt (s : State) (pa : Nat) : Nat :=
  if inHbm pa then pa
  else
    let e := s.tiermap.get 0 ((pa - 0x10000000000) / 2 ^ 36)
    (1 + bits e 61 2) * 2 ^ 52 + bits e 36 16 * 2 ^ 36 + (pa - 0x10000000000) % 2 ^ 36

/-! ### Keys (R191, R192) -/

/-- The two keys of an entry as one value. -/
def KeyEnt.value (e : KeyEnt) : BitVec 512 :=
  let base := match e.draw with
    | none => 0
    | some n => (Config.drawnKey n).toNat
  BitVec.ofNat 512 (((List.range 8).map (fun j =>
    (match e.words.find? j with
      | none => base / 2 ^ (64 * j) % 2 ^ 64
      | some w => w.toNat) * 2 ^ (64 * j))).sum)

/-- What an access encrypts its line under: its partition's entry for its key id, with the tweak. -/
def State.keyTag (s : State) (a : Acc) : KeyTag := ⟨(s.part a.part).keys.get KeyEnt.blank a.key, a.key, lineOf a.pa⟩

/-- A line stored under one tag as it reads under another: encrypted as the first says, decrypted as the second says (R191). -/
def rekeyed (old new : KeyTag) (line : List Byte) : List Byte :=
  xtsLine false new.ent.value new.kid new.la (xtsLine true old.ent.value old.kid old.la line)

/-- What a line of memory reads as under the key of an access. Whether the mapping that wrote it and the one that reads it are of a
compressed page makes no difference to its bytes: R188 does not say what one reads of a line that the other wrote (log 36: DESIGN
CHOICE). -/
def State.memLine (s : State) (a : Acc) : List Byte :=
  let m := s.memAt (lineOf a.pa)
  let line := Memory.readN s.mem m 128
  match s.keyTags.find? m with
  | none => line
  | some t => if t = s.keyTag a then line else rekeyed t (s.keyTag a) line

/-- The line of memory was written under another key. -/
def State.misKeyed (s : State) (a : Acc) : Bool :=
  match s.keyTags.find? (s.memAt (lineOf a.pa)) with
  | none => false
  | some t => t != s.keyTag a

/-! ### L2 slices (R186, R187, R193) -/

/-- A line written to memory from a slice. -/
def State.writeBack (s : State) (la : Nat) (ln : L2Line) : State :=
  let m := s.memAt la
  { s with mem := Memory.writeN s.mem m ln.data, keyTags := s.keyTags.put m ln.key, bad := s.bad.set false m (ln.poison || ln.err) }

def hintRank : Hint → Nat
  | .ef => 0
  | .none => 1
  | .el => 2

/-- The lines that share a set with a line (R182): same slice, same a[17:7]. -/
def sameSet (k j : Nat) : Bool := k / 2 ^ 52 == j / 2 ^ 52 && k / 128 % 2048 == j / 128 % 2048

/-- A line of a cache as its replacement sees it: key, hint, last use. -/
abbrev Way := Nat × Hint × Nat

/-- The victim of a set: by hint, then the least recently used (R187). -/
def oldest : List Way → Option Nat
  | [] => none
  | e :: es => some (es.foldl (fun (m : Way) f =>
      if hintRank f.2.1 < hintRank m.2.1 ∨ (hintRank f.2.1 = hintRank m.2.1 ∧ f.2.2 < m.2.2) then f else m) e).1

/-- The lines of a slice's set. -/
def State.l2Set (s : State) (k : Nat) : List Way :=
  (s.l2.filter (fun e => sameSet e.1 k)).map (fun e => (e.1, e.2.hint, e.2.used))

/-- A full set gives up its victim (R187). -/
def State.makeRoom (s : State) (k : Nat) : State :=
  if (s.l2Set k).length < 16 then s
  else
    match oldest (s.l2Set k) with
    | none => s
    | some j =>
      let s := match s.l2.find? j with
        | none => s
        | some ln => if ln.dirty || ln.poison || ln.err then s.writeBack (j % 2 ^ 52) ln else s
      { s with l2 := s.l2.erase j }

/-- A thirteenth evict-last line demotes the set's least recently used one (R187). -/
def State.capLast (s : State) (k : Nat) : State :=
  let last := (s.l2Set k).filter (fun w => w.2.1 == .el)
  if last.length ≤ 12 then s
  else
    match oldest last with
    | none => s
    | some j => { s with l2 := s.l2.upd j (fun ln => { ln with hint := .none }) }

/-- An access brings its line into the slice and gives it its hint (R186); whether memory gave it in error (R193). -/
def State.enter (s : State) (a : Acc) : State × Bool :=
  let k := s.l2Key a
  match s.l2.find? k with
  | some ln =>
    let ln' := { ln with hint := if a.hint = .none then ln.hint else a.hint, used := s.stamp }
    (State.capLast { s with l2 := s.l2.put k ln', stamp := s.stamp + 1 } k, false)
  | none =>
    let bad := (a.comp && s.misKeyed a) || s.bad.get false (s.memAt (lineOf a.pa))
    let ln : L2Line := ⟨s.memLine a, false, bad, a.hint, s.stamp, s.keyTag a, a.part, false⟩
    let s := s.makeRoom k
    (State.capLast { s with l2 := s.l2.put k ln, stamp := s.stamp + 1 } k, bad)

/-- A read of a line at its slice meets its error: 0x40 for the access that finds it, 0x17 for a line already poisoned (R193). -/
def State.touch (s : State) (a : Acc) : State × Option (BitVec 8) :=
  let (s, bad) := s.enter a
  match s.l2.find? (s.l2Key a) with
  | none => (s, none)
  | some ln =>
    if ln.err then
      ({ s with l2 := s.l2.put (s.l2Key a) { ln with err := false, poison := true } }, some 0x40)
    else (s, if bad then some 0x40 else if ln.poison then some 0x17 else none)

/-- The present data of a line, without touching it. -/
def State.peekLine (s : State) (a : Acc) : List Byte :=
  match s.l2.find? (s.l2Key a) with
  | some ln => ln.data
  | none => s.memLine a

/-- `n` bytes of one line, without touching it (walks). -/
def State.peek (s : State) (a : Acc) (n : Nat) : List Byte := ((s.peekLine a).drop (a.pa % 128)).take n

/-- Instruction-cache lines of a physical line leave every core before a write of it is visible (R185). -/
def State.dropCode (s : State) (pa : Nat) : State :=
  { s with icache := s.icache.filter (fun c => c.ld.isSome || c.line != lineOf pa) }

/-! ### Heat (R340 to R342) -/

def Partition.heatOn (p : Partition) : Bool := bit p.htc 63
def Partition.heatBase (p : Partition) : Nat := bits p.htc 25 27 * 2 ^ 25
/-- P, with PLOG clamped to 4 to 12. -/
def Partition.heatP (p : Partition) : Nat := 2 ^ max 4 (min 12 (bits p.htc 12 4))
/-- H in ns, with HLOG clamped to 10. -/
def Partition.heatH (p : Partition) : Nat := 2 ^ min 10 (bits p.htc 0 4) * 1000000

/-- The frame index of a physical address (R341). -/
def frameOf (pa : Nat) : Nat := if inHbm pa then pa / 2 ^ 16 else 0x600000 + (pa - 0x10000000000) / 2 ^ 16

/-- Bytes of one line stored at a slice with no check: the heat table, decoded host writes and table writes. -/
def State.poke (s : State) (a : Acc) (bs : List Byte) : State :=
  let k := s.l2Key a
  let s := (s.enter a).1.dropCode a.pa
  match s.l2.find? k with
  | none => s
  | some ln =>
    let o := a.pa % 128
    let whole := decide (128 ≤ bs.length)
    { s with l2 := s.l2.put k { ln with data := ln.data.take o ++ bs ++ ln.data.drop (o + bs.length), dirty := true,
                                        poison := ln.poison && !whole, err := ln.err && !whole, key := s.keyTag a, part := a.part } }

/-- An access of several pieces has written a whole line: its error is gone (R193). -/
def State.unpoison (s : State) (a : Acc) : State :=
  { s with l2 := s.l2.upd (s.l2Key a) (fun ln => { ln with poison := false, err := false }) }

def halve (k : Nat) (v : Nat) : Nat := v / 2 ^ k

/-- The line of the heat table that holds a frame's byte, brought up to the present epoch; its bytes are free ones while no heat value is
defined (R342). -/
def State.heatSettle (s : State) (part f : Nat) : State :=
  let p := s.part part
  let epoch := s.time / p.heatH
  let ea := Acc.plain part (p.heatBase + 0x1800000 + 2 * (f / 128))
  let k := (epoch + 2 ^ 16 - leNat (s.peek ea 2)) % 2 ^ 16
  if k = 0 then s
  else
    let la := Acc.plain part (p.heatBase + f / 128 * 128)
    let line := if p.heatLost then freeBytes s.fresh 128 else (s.peek la 128).map (fun b => BitVec.ofNat 8 (halve (min k 8) b.toNat))
    let s := if p.heatLost then s.takeFresh 128 else s
    ((s.poke la line).poke ea (leBytes 2 (epoch % 2 ^ 16)))

/-- The heat of a frame: its stored byte; unpredictable once HLOG has been changed with HON = 1 (R342). -/
def State.heatByte (s : State) (part f : Nat) : Nat :=
  if (s.part part).heatLost then Config.freeNat s.fresh % 256
  else leNat (s.peek (Acc.plain part ((s.part part).heatBase + f)) 1)

/-- A free number has gone into a heat value. -/
def State.heatTaken (s : State) (part : Nat) : State := if (s.part part).heatLost then s.takeFresh 1 else s

/-- Every byte of a partition's heat table becomes a free one: HLOG has been changed with HON = 1, and no heat value is defined (R342). -/
def State.loseHeat (s : State) (part : Nat) : State :=
  (List.range 0x30000).foldl (fun s i =>
    (s.takeFresh 128).poke (Acc.plain part ((s.part part).heatBase + 128 * i)) (freeBytes s.fresh 128)) s

/-- A counted request at a slice (R340, R341). -/
def State.heatReq (s : State) (a : Acc) : State :=
  let p := s.part a.part
  if !(a.he && p.heatOn) then s
  else
    let sl := s.sliceOf a.part a.pa
    let c := ((s.heat.find? sl).getD p.heatP) - 1
    if c = 0 then
      let f := frameOf a.pa
      let s := State.heatSettle { s with heat := s.heat.put sl p.heatP } a.part f
      (s.poke (Acc.plain a.part (p.heatBase + f)) (leBytes 1 (min 255 (s.heatByte a.part f + 1)))).heatTaken a.part
    else { s with heat := s.heat.put sl c }

/-! ### Rollback logging (R381, R382) -/

def Partition.rbLog (p : Partition) : Nat := 2 ^ max 4 (min 16 (bits p.rbcfg 0 5))
def Partition.rbSegs (p : Partition) : Nat := bits p.rbcfg 8 8
/-- The first byte of rollback segment `i` (R379). -/
def Partition.rbBase (p : Partition) (i : Nat) : Nat := bits p.rbcfg 20 32 * 2 ^ 20 + i * (0x100000 + 256 * p.rbLog)

def State.endRecov (s : State) (team : Nat) : State := s.updTeam team (fun t => { t with recov := false })

/-- The partition of a team. -/
def State.partOfTeam (s : State) (team : Nat) : Nat :=
  match s.team? team with
  | none => 0
  | some t => (s.partOfCore t.core).getD 0

/-- A write is about to be performed at a line: the writing team's interval logs it, and every other team whose interval
logged it becomes non-recoverable. -/
def State.noteWrite (s : State) (a : Acc) (wr : Option Nat) : State :=
  let la := lineOf a.pa
  s.teams.foldl (fun s e =>
    match e.2.seg with
    | none => s
    | some i =>
      if !e.2.recov then s
      else
        let p := s.partOfTeam e.1
        let log := (s.part p).rlogs.get [] i
        let seen := log.any (fun x => x.la == la)
        if wr == some e.1 then
          if seen then s
          else if (s.part p).rbLog ≤ log.length then s.endRecov e.1
          else
            let old := s.peekLine a
            let at' := (s.part p).rbBase i + 0x100000 + 256 * log.length
            let s := (s.poke (Acc.plain p at') (leBytes 128 la)).poke (Acc.plain p (at' + 128)) old
            s.updPart p (fun q => { q with rlogs := q.rlogs.put i (log ++ [⟨la, a.key, a.comp, a.bix, old⟩]) })
        else if seen then s.endRecov e.1
        else s) s

/-! ### Compression (R188 to R190) -/

/-- Allotment of a budget index, clamped to 32 to 128 (R324). -/
def Partition.allot (p : Partition) (bix : Nat) : Nat := max 32 (min 128 (bits p.budg (8 * bix) 8))

/-- The sum of the sizes of a 4 KiB region, one line's code replaced (R188). -/
def State.regionSum (s : State) (la : Nat) (code : BitVec 2) : Nat :=
  let base := la / 4096 * 4096
  ((List.range 32).map (fun i =>
    let l := base + 128 * i
    (if l = la then code.toNat else (s.sizes.get 0 l).toNat) + 1)).sum

/-- The write of a line of a compressed page overflows: it raises its size and lifts the sum above the allotment (R189). -/
def State.overflows (s : State) (a : Acc) (data : List Byte) : Bool :=
  let la := lineOf a.pa
  let code := Config.compSize data
  a.comp && decide ((s.sizes.get 0 la).toNat < code.toNat) && decide ((s.part a.part).allot a.bix < s.regionSum la code)

/-! ### Reads and writes of one line at its slice -/

/-- `n` bytes of one line read at its slice, or the error met. -/
def State.devRead (s : State) (a : Acc) (n : Nat) : State × Except (BitVec 8) (List Byte) :=
  let (s, e) := (s.heatReq a).touch a
  match e with
  | some c => (s, .error c)
  | none => (s, .ok (s.peek a n))

/-- The line of an access with some bytes replaced. -/
def State.patched (s : State) (a : Acc) (bs : List Byte) : List Byte :=
  let l := s.peekLine a
  l.take (a.pa % 128) ++ bs ++ l.drop (a.pa % 128 + bs.length)

/-- Bytes of one line written at its slice; `false` when the write overflows and is not performed. -/
def State.devWrite (s : State) (a : Acc) (bs : List Byte) : State × Bool :=
  let s := ((s.heatReq a).enter a).1
  let data := s.patched a bs
  if s.overflows a data then (s, false)
  else
    let s := s.noteWrite a a.team
    let s := if a.comp then { s with sizes := s.sizes.set 0 (lineOf a.pa) (Config.compSize data) } else s
    (s.poke a bs, true)

/-! ### L1 domains (R178, R183, R184, R186, R187) -/

/-- The L1 domain of a core: the core, or its whole grove in fused mode. -/
def State.domain (s : State) (c : Nat) : Nat := if (s.grove (groveOf c)).fused then 768 + groveOf c else c

def l1Key (dom pa : Nat) : Nat := dom * 2 ^ 52 + sectorOf pa

/-- The sectors of the line of an address. -/
def l1Keys (dom pa : Nat) : List Nat := (List.range 4).map (fun i => l1Key dom (lineOf pa + 32 * i))

/-- Sets of one core's L1, and the lines each holds: 1024 lines in all (log 11). -/
def l1Sets : Nat := 2 ^ (Config.l1SetLog % 8)
def l1Ways : Nat := 1024 / l1Sets

/-- The core whose L1 holds a line, and its set there: in fused mode core (a[51:7]) mod 24 of the grove. -/
def l1Bank (dom pa : Nat) : Nat × Nat :=
  (if dom < 768 then dom else (dom - 768) * coresPerGrove + pa / 128 % coresPerGrove, Config.l1Index (pa / 128) % l1Sets)

/-- The lines whose sectors are listed, in order: by the key of their first byte. -/
def l1Lines : List (Nat × Sector) → List Way
  | [] => []
  | e :: es =>
    match l1Lines es with
    | [] => [(lineOf e.1, e.2.hint, e.2.used)]
    | (k, h, u) :: ws =>
      if k = lineOf e.1 then (k, h, max u e.2.used) :: ws else (lineOf e.1, e.2.hint, e.2.used) :: (k, h, u) :: ws

/-- The lines of the set where an address lives. -/
def State.l1Set (s : State) (dom pa : Nat) : List Way :=
  l1Lines (s.l1.filter (fun e => e.1 / 2 ^ 52 == dom && decide (l1Bank dom (e.1 % 2 ^ 52) = l1Bank dom pa)))

/-- The hint of a line that an L1 holds. -/
def State.l1LineHint (s : State) (dom pa : Nat) : Option Hint :=
  (l1Keys dom pa).findSome? (fun k => (s.l1.find? k).map (·.hint))

/-- The sectors of a line changed. -/
def State.l1Upd (s : State) (dom pa : Nat) (f : Sector → Sector) : State :=
  { s with l1 := (l1Keys dom pa).foldl (fun m k => m.upd k f) s.l1 }

/-- The sectors of a line leave an L1 (R205, R183, R187). -/
def State.l1DropLine (s : State) (dom pa : Nat) : State :=
  { s with l1 := (l1Keys dom pa).foldl (fun m k => m.erase k) s.l1 }

/-- One sector leaves an L1. -/
def State.l1DropSector (s : State) (dom pa : Nat) : State := { s with l1 := s.l1.erase (l1Key dom pa) }

/-- A seventh evict-last line demotes the set's least recently used one (R187). -/
def State.l1Cap (s : State) (dom pa : Nat) : State :=
  let last := (s.l1Set dom pa).filter (fun w => w.2.1 == .el)
  if last.length ≤ 6 then s
  else
    match oldest last with
    | none => s
    | some k => s.l1Upd dom (k % 2 ^ 52) (fun x => { x with hint := .none })

/-- An access of a line that an L1 holds: it is the last used, and every sector takes a hint given (R186, R187). -/
def State.l1Hint (s : State) (dom pa : Nat) (h : Hint) : State :=
  if (s.l1LineHint dom pa).isNone then s
  else
    let s := { s.l1Upd dom pa (fun x => { x with used := s.stamp, hint := if h = .none then x.hint else h }) with stamp := s.stamp + 1 }
    if h = .el then s.l1Cap dom pa else s

/-- A line that is not there finds a place: a full set gives up its victim (R187). -/
def State.l1Room (s : State) (dom pa : Nat) : State :=
  if (s.l1LineHint dom pa).isSome then s
  else
    match oldest (s.l1Set dom pa) with
    | none => s
    | some k => if (s.l1Set dom pa).length < l1Ways then s else s.l1DropLine dom (k % 2 ^ 52)

/-- A sector fills from its slice. -/
def State.l1Fill (s : State) (dom : Nat) (a : Acc) : State :=
  let s := s.l1Room dom a.pa
  let x : Sector := ⟨s.peek (a.at (sectorOf a.pa)) 32, (s.l1LineHint dom a.pa).getD .none, a.key, s.stamp, s.stamp⟩
  State.l1Hint { s with l1 := s.l1.put (l1Key dom a.pa) x, stamp := s.stamp + 1 } dom a.pa a.hint

/-- A store of a domain, performed, updates the sector its L1 holds and gives the line its hint. -/
def State.l1Store (s : State) (dom pa : Nat) (bs : List Byte) (h : Hint) : State :=
  let o := pa % 32
  State.l1Hint { s with l1 := s.l1.upd (l1Key dom pa) (fun x =>
    { x with data := x.data.take o ++ bs ++ x.data.drop (o + bs.length) }) } dom pa h

/-- The bytes of a sector piece that stores of the domain have already brought to its L1, laid over a value (R183). -/
def overlay (stores : List (Nat × Nat × List Byte)) (pa n : Nat) (v : List Byte) : List Byte :=
  (List.range n).map (fun i =>
    match stores.find? (fun st => decide (st.2.1 ≤ pa + i) && decide (pa + i < st.2.1 + st.2.2.length)) with
    | none => v.getD i 0
    | some st => st.2.2.getD (pa + i - st.2.1) 0)

/-- What a load through an L1 got: its bytes, when their data came from the slice, and whether they came just now. -/
structure L1Got where
  bytes : List Byte
  fill : Nat
  miss : Bool

/-- A piece of at most 16 bytes loaded through an L1: the sector it holds, when filled no earlier than `acq`, or the
slice's data; either may be returned when they differ, since an L1 may replace a line at any time (R183, R242). -/
def State.l1Read (s : State) (dom acq : Nat) (a : Acc) (n : Nat) : State × Except (BitVec 8) L1Got :=
  let k := l1Key dom a.pa
  let hit := match s.l1.find? k with
    | none => none
    | some x => if acq ≤ x.fill then some (⟨(x.data.drop (a.pa % 32)).take n, x.fill, false⟩ : L1Got) else none
  let now := s.peek a n
  let err := (s.touch a).2
  let (s, hit) := match hit with
    | none => (s, none)
    | some v =>
      if v.bytes = now ∧ err = none then (s, hit)
      else
        let (s, b) := s.pick true false
        (s, if b then hit else none)
  match hit with
  | some v =>
    (s.l1Hint dom a.pa a.hint, .ok v)
  | none =>
    let (s, r) := s.devRead a n
    match r with
    | .error c => (s, .error c)
    | .ok v => (s.l1Fill dom a, .ok ⟨v, s.stamp, true⟩)

/-! ### DISC and CLEAN (R205) -/

/-- Every L1 domain of a grove. -/
def groveDomains (g : Nat) : List Nat := (768 + g) :: (List.range coresPerGrove).map (fun i => g * coresPerGrove + i)

/-- The line leaves every L1 of the grove and its slice; each sector keeps its value or returns to that of memory. -/
def State.discard (s : State) (g : Nat) (a : Acc) : State :=
  let s := (groveDomains g).foldl (fun s d => s.l1DropLine d a.pa) s
  let k := s.l2Key a
  match s.l2.find? k with
  | none => s
  | some ln =>
    let old := s.memLine a
    let (s, data) := (List.range 4).foldl (fun (acc : State × List Byte) i =>
      let (s, x) := acc.1.pick ((ln.data.drop (32 * i)).take 32) ((old.drop (32 * i)).take 32)
      (s, acc.2 ++ x)) (s, [])
    let s := if data = old then s
      else s.writeBack (lineOf a.pa) { ln with data := data, poison := s.bad.get false (s.memAt (lineOf a.pa)), err := false }
    { s with l2 := s.l2.erase k }

/-- The slice's data of a line goes to memory, and the line stays. -/
def State.clean (s : State) (a : Acc) : State :=
  let k := s.l2Key a
  match s.l2.find? k with
  | none => s
  | some ln => if ln.dirty then { s.writeBack (lineOf a.pa) ln with l2 := s.l2.put k { ln with dirty := false } } else s

/-- Before a key changes, every L2 line that it covers is written back and dropped; the L1s of the partition keep no sector read
under it either, since the earlier owner's data may not be read (R192). -/
def State.flushKey (s : State) (part key : Nat) : State :=
  let s := (s.l2.filter (fun e => e.2.part == part && e.2.key.kid == key)).foldl (fun s e =>
    let s := if e.2.dirty || e.2.poison || e.2.err then s.writeBack (e.1 % 2 ^ 52) e.2 else s
    { s with l2 := s.l2.erase e.1 }) s
  let groves := (s.part part).groves
  { s with l1 := s.l1.filter (fun e =>
      let d := e.1 / 2 ^ 52
      !(e.2.key == key && groves.getLsbD (if d < 768 then groveOf d else d - 768))) }

/-- Memory leaves its owner: every L2 line of its slices is written back and dropped, so that a new owner reads what was stored under
its own keys alone, and the L1s and instruction caches of its groves are emptied (R192). -/
def State.leaveMemory (s : State) (groves : BitVec 32) (slices : BitVec 64) : State :=
  let s := (s.l2.filter (fun e => slices.getLsbD (e.1 / 2 ^ 52))).foldl (fun s e =>
    let s := if e.2.dirty || e.2.poison || e.2.err then s.writeBack (e.1 % 2 ^ 52) e.2 else s
    { s with l2 := s.l2.erase e.1 }) s
  { s with
    l1 := s.l1.filter (fun e =>
      let d := e.1 / 2 ^ 52
      !groves.getLsbD (if d < 768 then groveOf d else d - 768))
    icache := s.icache.filter (fun c => !groves.getLsbD (groveOf c.core)) }

/-! ### Accesses of any length by physical address -/

/-- The pieces of an access as offset and size (R228), by fuel. -/
def piecesFrom : Nat → Nat → Nat → Nat → List (Nat × Nat)
  | 0, _, _, _ => []
  | f + 1, a, off, n =>
    if n = 0 then []
    else
      let p := ([16, 8, 4, 2].find? (fun p => decide (p ≤ n) && a % p == 0)).getD 1
      (off, p) :: piecesFrom f (a + p) (off + p) (n - p)

def pieces (a n : Nat) : List (Nat × Nat) := piecesFrom n a 0 n

/-- Bytes read piece by piece at their slices with no translation: Heartwood, decoder and table reads. -/
def State.peekN (s : State) (part pa n : Nat) : List Byte :=
  (pieces pa n).flatMap (fun x => s.peek (Acc.plain part (pa + x.1)) x.2)

/-- Bytes written piece by piece at their slices with no translation. -/
def State.pokeN (s : State) (part pa : Nat) (bs : List Byte) : State :=
  (pieces pa bs.length).foldl (fun s x =>
    let a := Acc.plain part (pa + x.1)
    (s.noteWrite a none).poke a ((bs.drop x.1).take x.2)) s

end Sys2Proof.Machine
end

