-- ==== Sys2Proof/Machine/Translate.lean ====
section
/-!
DEFINITION. Translation: page-table entries, the walk, translation caches, host translation (14 R323 to R335).
-/

namespace Sys2Proof.Machine

/-- What an access asks of a page (R328). -/
inductive Need where
  | read | write | fetch
  deriving DecidableEq, Repr

/-! ### Entries (R326, R327) -/

def pteV (e : DWord) : Bool := bit e 63
def pteKind (e : DWord) : Nat := bits e 61 2
def pteW (e : DWord) : Bool := bit e 60
def pteX (e : DWord) : Bool := bit e 59
def pteTier (e : DWord) : Nat := bits e 57 2
def pteC (e : DWord) : Bool := bit e 56
def pteBix (e : DWord) : Nat := bits e 53 3
def pteHe (e : DWord) : Bool := bit e 52
def pteAddr (e : DWord) : Nat := bits e 7 45 * 128
def pteKey (e : DWord) : Nat := bits e 3 4
def pteCont (e : DWord) : Nat := bits e 1 2

/-- The fields a pointer must have zero: W, X, TIER, C, BIX, HE, KEY, CONT and bit 0. -/
def pteBare (e : DWord) : Bool := bits e 52 9 == 0 && bits e 0 7 == 0

/-- A leaf whose frame is aligned to 2^log, not of a malformed tier; CONT only where `cont` admits it. -/
def leafOk (log : Nat) (cont : Bool) (e : DWord) : Bool :=
  !bit e 0 && pteTier e != 3
    && (if cont then pteCont e != 3 else pteCont e == 0)
    && (if pteTier e == 2 then pteAddr e == 0 && !pteC e && pteBix e == 0 && !pteHe e && pteKey e == 0 && pteCont e == 0
        else pteAddr e % 2 ^ log == 0)

/-- Where a walk ends: a leaf and the exponent of its page size, or a fault (R327, R328). -/
inductive Walk where
  | leaf (log : Nat) (e : DWord)
  | absent
  | malformed
  /-- The line of a table is in error, or poisoned (R193). -/
  | error (table : Nat) (code : BitVec 8)
  deriving DecidableEq, Repr

/-- The entry at an index of a table, read at its slice under key id 0 (R325). -/
def State.pte (s : State) (part table i : Nat) : DWord :=
  BitVec.ofNat 64 (leNat (s.peek (Acc.plain part (table + 8 * i)) 8))

/-- The error that a read of a line would meet: 0x40 where it finds it, 0x17 in a poisoned line (R193). -/
def State.lineErr (s : State) (a : Acc) : Option (BitVec 8) :=
  match s.l2.find? (s.l2Key a) with
  | some ln => if ln.err then some 0x40 else if ln.poison then some 0x17 else none
  | none => if (a.comp && s.misKeyed a) || s.bad.get false (s.memAt (lineOf a.pa)) then some 0x40 else none

/-- The entry at an index of a table goes on to a further step of the walk, unless its line is in error or it is not valid. -/
def State.pteThen (s : State) (part table i : Nat) (k : DWord → Walk) : Walk :=
  match s.lineErr (Acc.plain part (table + 8 * i)) with
  | some c => .error (table + 8 * i) c
  | none =>
    let e := s.pte part table i
    if pteV e then k e else .absent

/-- A pointer to a next table, of a kind (R326). -/
def State.pointer (s : State) (part kind : Nat) (aligned : Bool) (e : DWord) : Bool :=
  pteKind e == kind && pteBare e && (!aligned || pteAddr e % 2 ^ 16 == 0) && s.owns part (pteAddr e)

/-- The walk of a virtual address (R325 to R328). -/
def State.walk (s : State) (part va : Nat) : Walk :=
  s.pteThen part (bits (s.part part).ttb 16 36 * 2 ^ 16) (va / 2 ^ 42 % 2 ^ 13) (fun e1 =>
    if !s.pointer part 1 true e1 then .malformed
    else s.pteThen part (pteAddr e1) (va / 2 ^ 29 % 2 ^ 13) (fun e2 =>
      if pteKind e2 == 0 then (if leafOk 29 false e2 then .leaf 29 e2 else .malformed)
      else if !s.pointer part 1 true e2 then .malformed
      else s.pteThen part (pteAddr e2) (va / 2 ^ 16 % 2 ^ 13) (fun e3 =>
        if pteKind e3 == 0 then (if leafOk 16 true e3 then .leaf 16 e3 else .malformed)
        else if !s.pointer part 2 false e3 then .malformed
        else s.pteThen part (pteAddr e3) (va / 2 ^ 12 % 16) (fun e4 =>
          if pteKind e4 == 0 && leafOk 12 false e4 then .leaf 12 e4 else .malformed))))

/-- The level-3 entry of an address, for the group of R329. -/
def State.pte3 (s : State) (part va : Nat) : DWord :=
  let e1 := s.pte part (bits (s.part part).ttb 16 36 * 2 ^ 16) (va / 2 ^ 42 % 2 ^ 13)
  s.pte part (pteAddr (s.pte part (pteAddr e1) (va / 2 ^ 29 % 2 ^ 13))) (va / 2 ^ 16 % 2 ^ 13)

/-- The group of a CONT leaf as one page of 2 MiB or 32 MiB, from its first entry; none where the entry promises nothing or the
first entry is no leaf (R329). -/
def State.extended (s : State) (part va : Nat) (e : DWord) : Option (Nat × DWord) :=
  if pteCont e == 0 then none
  else
    let log := if pteCont e == 1 then 21 else 25
    let f := s.pte3 part (va / 2 ^ log * 2 ^ log)
    if pteV f && pteKind f == 0 && leafOk 16 true f && pteTier f != 2 then some (log, f) else none

/-! ### Translation caches (R323, R331) -/

/-- The translation cache an asker uses: its core's, or that of an engine of the base die. -/
def Asker.cache : Asker → Nat
  | .lane slot | .op slot _ => coreOf slot
  | .unit engine _ => 768 + engine

/-- A cached walk covers an address. -/
def Tlb.covers (t : Tlb) (unit part va : Nat) : Bool :=
  t.unit == unit && t.part == part && decide (t.base ≤ va) && decide (va < t.base + 2 ^ t.log)

/-- The cached walks that cover an address. -/
def State.cached (s : State) (unit part va : Nat) : List Tlb := s.tlb.filter (fun t => t.covers unit part va)

/-- A walk is cached. -/
def State.cacheWalk (s : State) (unit part va log : Nat) (e : DWord) : State :=
  let t : Tlb := ⟨unit, part, va / 2 ^ log * 2 ^ log, log, e⟩
  if s.tlb.any (fun x => x == t) then s else { s with tlb := s.tlb ++ [t] }

/-! ### The result of a translation -/

/-- Where an address leads: a tier, a host page, the fault of R196 step 4, or a translation the host must give first. -/
inductive Xl where
  | dev (pa key : Nat) (comp : Bool) (bix : Nat) (he : Bool) (log : Nat)
  | host (ld addr : Nat)
  | fault (code : BitVec 8)
  /-- A tier-10 page with no ATC entry: its leaf, for the host path (R335). -/
  | ask (vpn : Nat)
  /-- A tier-10 page met by an access that requests no host translation (R205). -/
  | tier10
  deriving DecidableEq, Repr

/-- What the present tables give an access: the walk, or for a leaf of a CONT group its own entry or the group's page (R329). -/
def State.walkNow (s : State) (part va : Nat) : List Walk :=
  let w := s.walk part va
  match w with
  | .leaf _ e =>
    match s.extended part va e with
    | none => [w]
    | some (log, f) => [w, .leaf log f]
  | _ => [w]

/-- Which walk an access uses: one that the present tables give, or any that its engine's cache holds (R331). A walk that ends in a
leaf is cached. -/
def State.walkPick (s : State) (unit part va : Nat) : State × Walk :=
  let l := (s.walkNow part va ++ (s.cached unit part va).map (fun t => Walk.leaf t.log t.leaf)).dedup
  let (s, w) := match l with
    | [] => (s, Walk.absent)
    | [w] => (s, w)
    | w :: _ => (s.takeFresh 1, l.getD (Config.freeNat s.fresh % l.length) w)
  match w with
  | .leaf log e => (s.cacheWalk unit part va log e, w)
  | _ => (s, w)

/-- An engine walks ahead of need, and caches the entry if it is valid (R331). -/
def State.walkAhead (s : State) (unit part va : Nat) : State :=
  match s.walk part va with
  | .leaf log e => s.cacheWalk unit part va log e
  | _ => s

/-- TIERMAP covers a CXL-tier address (R392). -/
def State.tierValid (s : State) (pa : Nat) : Bool :=
  bit (s.tiermap.get 0 ((pa - 0x10000000000) / 2 ^ 36)) 63

/-- The host's answer that an asker has waited for, where no ATC entry holds it (R335). -/
def State.answerTo (s : State) (who : Asker) : Option Denial := (s.xans.find? (fun x => x.1 == who)).map (·.2)

/-- A host page's translation: from the ATC where its entry admits the access, from the answer to the request that the access
waited for, or still to be asked for (R335). -/
def State.useHost (s : State) (who : Asker) (part va : Nat) (need : Need) : Xl :=
  let ld := s.ldOf part
  match s.atc.find? (fun a => a.ld == ld && a.pasid == bits (s.part part).trc 43 20 && a.vpn == va / 4096
      && (need != .write || a.w)) with
  | some a => .host ld (a.frame * 4096 + va % 4096)
  | none =>
    match s.answerTo who with
    | some x =>
      if x.vpn != va / 4096 then .ask (va / 4096)
      else
        match x.frame with
        | some f => if need == .write then .fault 0x11 else .host ld (f * 4096 + va % 4096)
        | none => .fault (if x.refused then 0x16 else 0x11)
    | none => .ask (va / 4096)

/-- A leaf applied to an address. -/
def State.useLeaf (s : State) (who : Asker) (part va : Nat) (need : Need) (hostPath : Bool) (log : Nat) (e : DWord) : Xl :=
  if (need == .write && !pteW e) || (need == .fetch && !pteX e) then .fault 0x12
  else if pteTier e == 2 then
    if !hostPath then .tier10
    else if !bit (s.part part).trc 63 then .fault 0x16
    else s.useHost who part va need
  else
    let pa := pteAddr e + va % 2 ^ log
    let inTier := if pteTier e == 0 then inHbm pa else inCxl pa && s.tierValid pa
    if !(inTier && s.owns part pa) then .fault 0x12
    else .dev pa (pteKey e) (pteC e) (pteBix e) (pteHe e) (if pteCont e == 0 then log else 16)

/-- The translation of an address (R325 to R335). -/
def State.translate (s : State) (who : Asker) (part va : Nat) (need : Need) (hostPath : Bool := true) : State × Xl :=
  if 2 ^ 55 ≤ va then (s, .fault 0x12)
  else
    let (s, w) := s.walkPick who.cache part va
    match w with
    | .absent => (s, .fault 0x11)
    | .malformed => (s, .fault 0x12)
    | .error table c => ((s.touch (Acc.plain part table)).1, .fault c)
    | .leaf log e => (s, s.useLeaf who part va need hostPath log e)

/-- The end of the page that maps an address: the leaf's page, or the host's 4 KiB (R196 step 5). -/
def Xl.pageLog : Xl → Nat
  | .dev _ _ _ _ _ log => log
  | _ => 12

/-- The place of a translated access. -/
def Xl.place : Xl → Place
  | .dev pa key comp bix he _ => .dev pa key comp bix he
  | .host ld addr => .host ld addr
  | .fault _ => .later
  | .ask _ => .later
  | .tier10 => .later

/-- The team of a thread slot. -/
def State.teamOf (s : State) (slot : Nat) : Option Nat :=
  match s.thread? slot with
  | none => none
  | some t => some t.team

/-- The slice access of a translated place at an offset. -/
def Place.acc (p : Place) (part off : Nat) (hint : Hint) (team : Option Nat) : Option Acc :=
  match p with
  | .dev pa key comp bix he => some ⟨part, pa + off, key, comp, bix, he, hint, team⟩
  | _ => none

/-- A Translation Request is outstanding, and the asker waits for it, to write or not (R335). -/
def State.askHost (s : State) (who : Asker) (part vpn : Nat) (wr : Bool) : State :=
  let ld := s.ldOf part
  let pasid := bits (s.part part).trc 43 20
  let mine (x : XReq) : Bool := x.ld == ld && x.pasid == pasid && x.vpn == vpn
  if s.xreqs.any mine then
    { s with xreqs := s.xreqs.map (fun x =>
        if mine x && !x.waiters.any (fun w => w == (who, wr)) then { x with waiters := x.waiters ++ [(who, wr)] } else x) }
  else { s with xreqs := s.xreqs ++ [⟨ld, pasid, vpn, false, [(who, wr)]⟩] }

/-- An asker goes on: its answer, if it had one, is used up, and a later access asks the host again (R335). -/
def State.usedAnswer (s : State) (who : Asker) : State :=
  if s.xans.isEmpty then s else { s with xans := s.xans.filter (fun x => x.1 != who) }

/-- An asker of a slot that has moved. -/
def Asker.move (f : Nat → Nat) : Asker → Asker
  | .lane slot => .lane (f slot)
  | .op slot id => .op (f slot) id
  | w => w

/-- What awaits the host for a slot goes on for the slot it has moved to. -/
def State.moveAskers (s : State) (f : Nat → Nat) : State :=
  { s with
    xans := s.xans.map (fun x => (x.1.move f, x.2))
    xreqs := s.xreqs.map (fun x => { x with waiters := x.waiters.map (fun w => (w.1.move f, w.2)) }) }

/-- What a slot has asked of the host goes with the thread that leaves it. -/
def State.dropAskers (s : State) (slots : List Nat) : State :=
  let gone (a : Asker) : Bool := match a with
    | .lane k | .op k _ => slots.contains k
    | .unit _ _ => false
  { s with
    xans := s.xans.filter (fun x => !gone x.1)
    xreqs := s.xreqs.map (fun x => { x with waiters := x.waiters.filter (fun w => !gone w.1) }) }

/-- An answer reaches an access that waits for it. -/
def State.giveAnswer (s : State) (who : Asker) (x : Denial) : State :=
  let waits : Bool := match who with
    | .lane slot => match s.thread? slot with
      | none => false
      | some t => t.hold == .xlate x.vpn || t.hold == .coll
    | .op _ id => (s.op? id).isSome
    | .unit _ _ => true
  if waits then { s.usedAnswer who with xans := (s.usedAnswer who).xans ++ [(who, x)] } else s

end Sys2Proof.Machine
end

