-- ==== Sys2Proof/Machine/Operands.lean ====
section
/-!
DEFINITION. Operand forms: how an instruction reads its sources and writes its destinations on one lane, and which
registers it reads or writes (03 R63 to R65, 04 R81 to R84, 06 R141, R142, 08 R197).
-/

namespace Sys2Proof

open Sys2Proof.Machine

def Base.toSrc : Base → Src
  | .g i => .g i
  | .o i => .o i
  | .lat => .lat

/-! ### Which registers an instruction reads or writes (R197) -/

def Src.ids (w : Bool) : Src → List RegId
  | .g i => gOf i w
  | .o i => [256 + i.toNat]
  | .lat => [latId]
  | .imm _ => []

def Dst.ids (w : Bool) : Dst → List RegId
  | .g i => gOf i w
  | .o i => [256 + i.toNat]
  | .lat => [latId]
  | .discard => []

def Base.ids (w : Bool) (b : Base) : List RegId := b.toSrc.ids w

def rangeIds (i : BitVec 8) (n : Nat) : List RegId := (List.range n).map (fun j => i.toNat + j)

def MW.bytes : MW → Nat
  | .b => 1
  | .h => 2
  | .w => 4
  | .d => 8
  | .q => 16

/-- The registers a load writes. -/
def LDst.ids (mw : MW) : LDst → List RegId
  | .g i => match mw with
    | .q => rangeIds i 4
    | _ => gOf i mw.wide
  | .o i => [256 + i.toNat]

def dataIds (mw : MW) (x : Src) : List RegId :=
  match mw, x with
  | .q, .g i => rangeIds i 4
  | _, x => x.ids mw.wide

def optIds {α : Type} (f : α → List RegId) : Option α → List RegId
  | none => []
  | some a => f a

def Half.regs (h : Half) : List RegId :=
  match h.op with
  | .two _ d s => latId :: (d.toDst.ids false ++ s.ids false)
  | .split _ d a b => latId :: a.toNat :: b.toNat :: d.ids false
  | .cmp _ _ a b => [latId, a.toNat, b.toNat]
  | .una _ d s => latId :: (d.ids false ++ s.ids false)
  | .ld dbl sp d base => d.ids (wOf dbl) ++ base.ids (sp == .g)
  | .st dbl scr data base => data.ids dbl ++ base.ids (!scr)
  | .bra _ => []
  | .ret => []

def LitWord.regs (x : LitWord) : List RegId :=
  match x.op with
  | .bin _ dbl d a _ => latId :: (d.ids dbl ++ a.ids dbl)
  | .cmp _ _ a _ => latId :: a.ids false
  | .una _ dbl d _ => latId :: d.ids dbl
  | .ld dbl sp d base _ => d.ids (wOf dbl) ++ base.ids (sp == .g)
  | .st dbl scr data base _ => data.ids dbl ++ base.ids (!scr)
  | .bra _ => []

/-- The registers, the latch included, that a word reads or writes at issue. The operands of MMA, MMAS and MTRN are read
and written by the engine later and are not among them (R140 to R142). -/
def Instr.regs : Instr → List RegId
  | .add x | .sub x | .mul x | .mulh x | .div x | .rem x | .min x | .max x =>
    latId :: (x.d.ids x.w ++ x.a.ids x.w ++ x.b.ids x.w)
  | .mad x => latId :: (x.d.ids x.w ++ x.a.ids x.w ++ x.b.ids x.w ++ x.c.ids x.w)
  | .and x | .or x | .xor x | .andn x | .orn x => latId :: (x.d.ids x.w ++ x.a.ids x.w ++ x.b.ids x.w)
  | .shl x | .shr x | .sar x | .rol x | .ror x => latId :: (x.d.ids x.w ++ x.a.ids x.w ++ x.b.ids false)
  | .not x | .mov x | .brev x => latId :: (x.d.ids x.w ++ x.a.ids x.w)
  | .popc x | .clz x | .ctz x => latId :: (x.d.ids false ++ x.a.ids x.w)
  | .shf x | .bperm x => latId :: (x.d.ids false ++ x.a.ids false ++ x.b.ids false ++ x.c.ids false)
  | .abs x | .neg x => latId :: (x.d.ids x.w ++ x.a.ids x.w)
  | .bfx x => latId :: (x.d.ids x.w ++ x.a.ids x.w ++ x.b.ids false)
  | .bfi x => latId :: (x.d.ids x.w ++ x.a.ids x.w ++ x.b.ids x.w ++ x.c.ids false)
  | .sel x => latId :: (x.d.ids x.w ++ x.a.ids x.w ++ x.b.ids x.w)
  | .lea x => latId :: (x.d.ids x.w ++ x.a.ids x.w ++ x.b.ids false)
  | .cmp x => latId :: (x.a.ids x.w ++ x.b.ids x.w)
  | .pand _ | .por _ | .pxor _ | .pnot _ => [latId]
  | .pmov x => latId :: (match x.dir with
    | .toReg d => d.ids false
    | .fromReg a b => a.ids false ++ b.ids false)
  | .gets x => latId :: x.d.ids x.w
  | .sets x => latId :: x.a.ids x.w
  | .fadd x | .fsub x | .fmul x | .fdiv x | .fscale x => latId :: (x.d.ids false ++ x.a.ids false ++ x.b.ids false)
  | .ffma x | .hfma2 x | .bfma2 x => latId :: (x.d.ids false ++ x.a.ids false ++ x.b.ids false ++ x.c.ids false)
  | .fmin x | .fmax x => latId :: (x.d.ids false ++ x.a.ids false ++ x.b.ids false)
  | .fcmp x => latId :: (x.a.ids false ++ x.b.ids false)
  | .frcp x | .fsqrt x => latId :: (x.d.ids false ++ x.a.ids false)
  | .fclass x | .frsq x | .fexp2 x | .flog2 x | .fsin x | .fcos x | .ftanh x | .boost x =>
    latId :: (x.d.ids false ++ x.a.ids false)
  | .hadd2 x | .hmul2 x => latId :: (x.d.ids false ++ x.a.ids false ++ x.b.ids false)
  | .doth2 x => latId :: (x.d.toDst.ids false ++ x.a.ids false ++ x.b.ids false)
  | .cvt x => latId :: (x.d.ids (x.rt.wide && !x.toSlot) ++ x.a.ids (x.rt.wide && x.toSlot))
  | .pack x => latId :: (x.d.ids false ++ x.a.ids false ++ x.b.ids false)
  | .unpack x => latId :: (x.d.ids false ++ x.a.ids false)
  | .fmtq x => latId :: (x.d.ids false ++ x.a.ids false)
  | .dot8 x | .dot4 x => latId :: (x.d.toDst.ids false ++ x.a.ids false ++ x.b.ids false ++ optIds (Src.ids false) x.s)
  | .mma _ | .mmas _ | .mtrn _ | .mfence _ => []
  | .mzero x => rangeIds x.d (fragLen x.cd)
  | .ldfr x | .stfr x => rangeIds x.r (fragLen x.cd) ++ gOf x.base (x.sp == .g) ++ x.stride.ids false
  | .mcvt x => rangeIds x.d 16 ++ rangeIds x.a 32
  | .bra _ | .call _ | .ret _ | .pad _ | .rejoin _ | .yld _ | .nop _ | .exit _ => []
  | .brx x | .callx x => x.a.ids true
  | .tcall x => x.a.ids true ++ x.b.ids false
  | .tcalls x => x.a.ids false ++ x.b.ids false
  | .tret _ | .tbar _ => []
  | .tvote x => latId :: (match x.mode with
    | .ballot d b => d.ids true ++ b.ids false
    | .count d => d.ids false
    | _ => [])
  | .txch x => latId :: (x.d.ids x.w ++ x.a.ids x.w ++ x.b.ids false)
  | .tmigr x => x.a.ids false
  | .glaunch x => latId :: (x.d.ids x.w ++ x.a.ids x.w ++ x.b.ids false)
  | .ld x => x.d.ids x.w ++ x.base.ids (x.sp == .g) ++ x.off.ids false
  | .lda x => x.d.ids x.w ++ x.base.ids (x.sp == .g) ++ x.off.ids false
  | .st x => dataIds x.w x.data ++ x.base.ids (x.sp == .g) ++ x.off.ids false
  | .stl x => dataIds x.w x.data ++ x.base.ids (x.sp == .g) ++ x.off.ids false
  | .atom x => optIds (LDst.ids (wOf x.w)) x.d ++ x.base.ids (!x.scr) ++ x.b.ids x.w ++ optIds (Src.ids x.w) x.c
  | .red x => x.base.ids (!x.scr) ++ x.b.ids x.w
  | .fence _ => []
  | .pref x => x.base.ids (!x.konst) ++ x.off.ids false
  | .disc x | .clean x => x.base.ids true ++ x.off.ids false
  | .cpy x => x.db.ids (!x.dscr) ++ x.sb.ids (x.ssp == .g) ++ x.len.ids false ++ optIds (Base.ids false) x.bar
  | .cpyt x => x.db.ids (!x.dscr) ++ x.sb.ids (x.ssp == .g) ++ rangeIds x.desc 8 ++ optIds (Base.ids false) x.bar
  | .cpyg x => x.db.ids (!x.dscr) ++ x.sb.ids (x.ssp == .g) ++ rangeIds x.desc 4 ++ optIds (Base.ids false) x.bar
  | .bari x | .barx x | .barw x => x.bar.ids false ++ x.a.ids false
  | .bara x => optIds (LDst.ids .w) x.d ++ x.bar.ids false
  | .waitany x | .waitall x => x.a.ids true
  | .ffr x => latId :: (x.d.ids false ++ x.a.ids true)
  | .emit x => x.a.ids false ++ rangeIds x.r 8
  | .qrd x => latId :: (x.a.ids false ++ rangeIds x.r 8)
  | .qlen x => latId :: (x.d.ids false ++ x.a.ids false)
  | .mload x => x.a.ids false ++ x.b.ids true
  | .marm x | .mdis x => x.a.ids false
  | .mstat x => latId :: (gOf x.d true ++ x.a.ids false ++ x.b.ids false)
  | .wait _ => []
  | .cntr x | .amb x => latId :: x.d.ids false
  | .trap x => x.a.ids true
  | .brk _ => []
  | .serv x => x.a.ids false ++ x.b.ids false
  | .pairFormWord h k => h.regs ++ k.regs
  | .literalFormWord x => x.regs
  | _ => []

/-! ### What a result is computed from (R229, R234) -/

/-- A predicate among the registers through which values pass. -/
def predId (p : PReg) : RegId := 265 + p.val

def Half.dsts (h : Half) : List RegId :=
  match h.op with
  | .two _ d _ => latId :: d.toDst.ids false
  | .split _ d _ _ => latId :: d.ids false
  | .cmp _ p _ _ => [latId, predId p]
  | .una _ d _ => latId :: d.ids false
  | .ld dbl _ d _ => d.ids (wOf dbl)
  | .st .. | .bra _ | .ret => []

def Half.srcs (h : Half) : List RegId :=
  match h.op with
  | .two _ d s => d.toDst.ids false ++ s.ids false
  | .split _ _ a b => [a.toNat, b.toNat]
  | .cmp _ _ a b => [a.toNat, b.toNat]
  | .una _ _ s => s.ids false
  | .ld _ sp _ base => base.ids (sp == .g)
  | .st dbl scr data base => data.ids dbl ++ base.ids (!scr)
  | .bra _ | .ret => []

def LitWord.dsts (x : LitWord) : List RegId :=
  match x.op with
  | .bin _ dbl d _ _ => latId :: d.ids dbl
  | .cmp _ p _ _ => [latId, predId p]
  | .una _ dbl d _ => latId :: d.ids dbl
  | .ld dbl _ d _ _ => d.ids (wOf dbl)
  | .st .. | .bra _ => []

/-- The registers, the latch and the predicates that a word writes at issue, and those that its loads write. -/
def Instr.dsts : Instr → List RegId
  | .add x | .sub x | .mul x | .mulh x | .div x | .rem x | .min x | .max x => latId :: x.d.ids x.w
  | .mad x => latId :: x.d.ids x.w
  | .and x | .or x | .xor x | .andn x | .orn x => latId :: x.d.ids x.w
  | .shl x | .shr x | .sar x | .rol x | .ror x => latId :: x.d.ids x.w
  | .not x | .mov x | .brev x => latId :: x.d.ids x.w
  | .popc x | .clz x | .ctz x => latId :: x.d.ids false
  | .shf x | .bperm x => latId :: x.d.ids false
  | .abs x | .neg x => latId :: x.d.ids x.w
  | .bfx x => latId :: x.d.ids x.w
  | .bfi x => latId :: x.d.ids x.w
  | .sel x => latId :: x.d.ids x.w
  | .lea x => latId :: x.d.ids x.w
  | .cmp x => [latId, predId x.p]
  | .pand x | .por x | .pxor x => [latId, predId x.pd]
  | .pnot x => [latId, predId x.pd]
  | .pmov x => latId :: (match x.dir with
    | .toReg d => d.ids false
    | .fromReg _ _ => (List.finRange 12).map predId)
  | .gets x => latId :: x.d.ids x.w
  | .sets _ => [latId]
  | .fadd x | .fsub x | .fmul x | .fdiv x | .fscale x => latId :: x.d.ids false
  | .ffma x | .hfma2 x | .bfma2 x => latId :: x.d.ids false
  | .fmin x | .fmax x => latId :: x.d.ids false
  | .fcmp x => [latId, predId x.p]
  | .frcp x | .fsqrt x => latId :: x.d.ids false
  | .fclass x | .frsq x | .fexp2 x | .flog2 x | .fsin x | .fcos x | .ftanh x | .boost x => latId :: x.d.ids false
  | .hadd2 x | .hmul2 x => latId :: x.d.ids false
  | .doth2 x => latId :: x.d.toDst.ids false
  | .cvt x => latId :: x.d.ids (x.rt.wide && !x.toSlot)
  | .pack x => latId :: x.d.ids false
  | .unpack x => latId :: x.d.ids false
  | .fmtq x => latId :: x.d.ids false
  | .dot8 x | .dot4 x => latId :: x.d.toDst.ids false
  | .mzero x => rangeIds x.d (fragLen x.cd)
  | .mcvt x => rangeIds x.d 16
  | .tvote x => latId :: (match x.mode with
    | .all p | .any p | .uni p => [predId p]
    | .ballot d _ => d.ids true
    | .count d => d.ids false)
  | .txch x => latId :: x.d.ids x.w
  | .glaunch x => latId :: x.d.ids x.w
  | .ld x => x.d.ids x.w
  | .lda x => x.d.ids x.w
  | .atom x => optIds (LDst.ids (wOf x.w)) x.d
  | .bara x => optIds (LDst.ids .w) x.d
  | .ffr x => latId :: x.d.ids false
  | .cntr x | .amb x => latId :: x.d.ids false
  | .pairFormWord h k => h.dsts ++ k.dsts
  | .literalFormWord x => x.dsts
  | _ => []

/-- The registers that a word only reads: those it names, less one occurrence of each that it writes; and the predicates it
computes with. An accumulating word reads its destination too. -/
def Instr.srcs : Instr → List RegId
  | .doth2 x => x.d.toDst.ids false ++ x.a.ids false ++ x.b.ids false
  | .dot8 x | .dot4 x => x.d.toDst.ids false ++ x.a.ids false ++ x.b.ids false ++ optIds (Src.ids false) x.s
  | .sel x => predId x.p :: (x.a.ids x.w ++ x.b.ids x.w)
  | .pand x | .por x | .pxor x => [predId x.pa, predId x.pb]
  | .pnot x => [predId x.pa]
  | .pmov x => match x.dir with
    | .toReg _ => (List.finRange 12).map predId
    | .fromReg a b => a.ids false ++ b.ids false
  | .tvote x => predId x.ps :: (match x.mode with
    | .ballot _ b => b.ids false
    | _ => [])
  | .pairFormWord h k => h.srcs ++ k.srcs
  | i => i.regs.diff i.dsts

end Sys2Proof

namespace Sys2Proof.Machine

/-! ### Registers of a thread -/

def Thread.gVal (t : Thread) (i : Nat) : Word := SMap.get 0 t.g i
def Thread.oVal (t : Thread) (i : Nat) : DWord := SMap.get 0 t.o i
def Thread.pred (t : Thread) (p : PReg) : Bool := t.preds.getLsbD p.val

def inRanges (i : Nat) (l : List (Nat × Nat)) : Bool := l.any (fun r => decide (r.1 ≤ i) && decide (i < r.1 + r.2))

/-- A register that an outstanding matrix operation of the lane reads or writes (R141). -/
def Thread.windowed (t : Thread) (i : Nat) : Bool := t.wins.any (fun w => !w.store && (inRanges i w.ac || inRanges i w.bs || inRanges i w.ds))

/-- What a write to register `i` spoils of an outstanding operation; `later` when it was issued after it, `dest` when it spoils
the registers that the operation writes, or an STFR stores (R141, R151). -/
def Win.spoil (i : Nat) (later dest : Bool) (w : Win) : Win :=
  { w with
    spoiltLane := w.spoiltLane || (later && inRanges i w.ac)
    spoiltQuarter := w.spoiltQuarter || (later && inRanges i w.bs)
    spoiltRegs := if dest && inRanges i w.ds then i :: w.spoiltRegs else w.spoiltRegs }

/-- What a write leaves the engine of the values before it: a matrix instruction's write is seen at once, any other leaves
the old value readable too (R140, R142). -/
def keepOld (mat : Bool) (i : Nat) (old v : Word) (l : List (Nat × Word)) : List (Nat × Word) :=
  if mat then l.filter (fun x => x.1 != i) else if old = v ∨ (i, old) ∈ l then l else l ++ [(i, old)]

/-- A window under a write to register `i`, by operation `born` or, when none, by an instruction at issue. Of the writes of
earlier operations, only those of LDFR are ordered before the engine's own (R140); an STFR's data are open until it ends. -/
def Win.written (mat : Bool) (born : Option Nat) (i : Nat) (old v : Word) (w : Win) : Win :=
  let later := match born with
    | none => true
    | some b => decide (w.since ≤ b)
  let w := w.spoil i later (later || !mat || w.store)
  if later || !(inRanges i w.ac || inRanges i w.bs) then w else { w with olds := keepOld mat i old v w.olds }

/-- A main-file write. `mat`: by a matrix instruction. `born`: the operation that makes it (R141, R142). -/
def Thread.wrG (t : Thread) (mat : Bool) (born : Option Nat) (i : Nat) (v : Word) : Thread :=
  let old := t.gVal i
  { t with
    g := t.g.set 0 i v
    wins := t.wins.map (Win.written mat born i old v)
    olds := keepOld mat i old v t.olds }

/-- A main-file write by the matrix engine: it resolves overlaps with its own later operations in program order (R140). -/
def Thread.wrD (t : Thread) (i : Nat) (v : Word) : Thread :=
  { t with
    g := t.g.set 0 i v
    wins := t.wins.map (fun w => if w.store then w.spoil i true true else { w with olds := keepOld true i 0 0 w.olds })
    olds := keepOld true i 0 0 t.olds }

/-- A main-file write of an instruction at issue. -/
def Thread.setG (t : Thread) (i : Nat) (v : Word) : Thread := t.wrG false none i v
def Thread.setO (t : Thread) (i : Nat) (v : DWord) : Thread := { t with o := t.o.set 0 i v }
def Thread.setLat (t : Thread) (v : DWord) : Thread := { t with lat := v }
def Thread.setPred (t : Thread) (p : PReg) (b : Bool) : Thread :=
  { t with preds := if b then t.preds ||| BitVec.twoPow 12 p.val else t.preds &&& ~~~BitVec.twoPow 12 p.val }
def Thread.orFl (t : Thread) (f : Fl) : Thread := { t with fflags := t.fflags ||| f }
def Thread.setPc (t : Thread) (pc : DWord) : Thread := { t with pcw := pcOf pc }
/-- The next word: PC + 8, in the 55 bits of a code address (R32, R155). -/
def Thread.next (t : Thread) : Thread := { t with pcw := t.pcw + 1 }

/-- The low 32 bits, zero-extended (R82). -/
def low32 (v : DWord) : DWord := (v.setWidth 32).setWidth 64

/-- A result of width W, extended by R82. -/
def extW (w : Bool) (v : DWord) : DWord := if w then v else low32 v

/-! ### A lane of an issue -/

/-- One lane of the issuing set: the state before the word, the slot, the thread, and the first of its free numbers. -/
structure Lane where
  s : State
  slot : Nat
  t : Thread
  f : Nat

/-- A main-file read; unpredictable inside a matrix window (R141). `pos` tells the operands of one word apart. -/
def Lane.g (l : Lane) (pos i : Nat) : Word := if l.t.windowed i then Config.freeWord (l.f + 256 * pos + i) else l.t.gVal i

/-- A main-file read by a matrix instruction: R141 leaves it the values of registers that an outstanding operation merely reads; those of
results still to come are unpredictable. -/
def Lane.gm (l : Lane) (pos i : Nat) : Word :=
  if l.t.wins.any (fun w => !w.store && inRanges i w.ds) then Config.freeWord (l.f + 256 * pos + i) else l.t.gVal i

def Lane.g64 (l : Lane) (pos i : Nat) : DWord := (l.g pos (i + 1) ++ l.g pos i : BitVec 64)

/-- A source at width W (R63 to R65, R82); an immediate is sign-extended (R64). -/
def Lane.src (l : Lane) (pos : Nat) (w : Bool) : Src → DWord
  | .g i => if w then l.g64 pos i.toNat else (l.g pos i.toNat).setWidth 64
  | .o i => extW w (l.t.oVal i.toNat)
  | .lat => extW w l.t.lat
  | .imm v => extW w (v.signExtend 64)

/-- A 32-bit source. -/
def Lane.src32 (l : Lane) (pos : Nat) (x : Src) : Word := (l.src pos false x).setWidth 32

/-- A 32-bit source of a matrix instruction (R141). -/
def Lane.srcm (l : Lane) (pos : Nat) : Src → Word
  | .g i => l.gm pos i.toNat
  | x => l.src32 pos x

/-- An address base (R179). -/
def Lane.base (l : Lane) (wide : Bool) (b : Base) : DWord := l.src 0 wide b.toSrc

/-- A destination of width W (R63, R82). -/
def Thread.setDst (t : Thread) (w : Bool) (d : Dst) (v : DWord) : Thread :=
  match d with
  | .g i => if w then (t.setG i.toNat (v.setWidth 32)).setG (i.toNat + 1) ((v >>> 32).setWidth 32)
            else t.setG i.toNat (v.setWidth 32)
  | .o i => t.setO i.toNat (extW w v)
  | .lat => t.setLat (extW w v)
  | .discard => t

/-- A register result of an instruction that writes the latch (R20, R83). -/
def Thread.result (t : Thread) (w : Bool) (d : Dst) (v : DWord) : Thread := (t.setDst w d v).setLat (extW w v)

end Sys2Proof.Machine

namespace Sys2Proof
open Sys2Proof.Machine

/-- The guard of a word on a thread (R62). -/
def Guard.holds (gd : Guard) (t : Thread) : Bool :=
  match gd with
  | .always => true
  | .pred i neg => t.pred i != neg

/-- A restricted guard (R70). -/
def RGuard.holds (gd : RGuard) (t : Thread) : Bool :=
  match gd with
  | none => true
  | some i => t.preds.getLsbD i.val

end Sys2Proof

namespace Sys2Proof.Machine

/-- The latest fill that the values of some registers of a thread were computed from (R229). -/
def State.depOf (s : State) (slot : Nat) (l : List RegId) : Nat :=
  match s.deps.find? slot with
  | none => 0
  | some m => (l.map (fun r => SMap.get 0 m r)).foldl max 0

/-- Registers of a thread hold values computed from data no older than a fill. -/
def State.setDeps (s : State) (slot : Nat) (l : List RegId) (n : Nat) : State :=
  { s with deps := s.deps.set [] slot (l.foldl (fun m r => SMap.set 0 m r n) (s.deps.get [] slot)) }

/-- The format in a slot of the thread's kernel; none when empty (R118). -/
def State.fmtOf (s : State) (t : Thread) (k : FSlot) : Option NFmt := Sys2Proof.Machine.slotFmt (lrFmt (s.lrecOf t) k.toNat)

/-- Formats MMA and MMAS admit (R148). -/
def mmaAdmits : NFmt → Bool
  | .fl .f16 | .fl .bf16 | .fl .e4m3 | .fl .e5m2 | .fl .e2m1 => true
  | .int w _ => w == 16 || w == 8 || w == 4
  | _ => false

/-- Both slots hold admitted formats of equal width (R148). -/
def State.mmaSlots (s : State) (t : Thread) (sa sb : FSlot) : Option (NFmt × NFmt) :=
  match s.fmtOf t sa, s.fmtOf t sb with
  | some a, some b => if mmaAdmits a && mmaAdmits b && a.width == b.width then some (a, b) else none
  | _, _ => none

end Sys2Proof.Machine
end

