-- ==== Sys2Proof/Machine/Ops.lean ====
section
/-!
DEFINITION. The shared operations: reporting a fault to the fault buffer (11 R267, R268, 14 R338), taking an exception (a
lane parks, 16 R362, R363, R369, R383), issuing and completing an outstanding operation (15 R345, 08 R197, R198).
-/

namespace Sys2Proof.Machine

/-! ### The fault buffer (R267, R268, R338) -/

/-- What an engine reports. `core` is a core of the device; none for a base-die engine. -/
structure Rep where
  code : BitVec 8
  engine : Nat
  w : Bool
  core : Option Nat
  bough : Nat
  source : Nat
  va : DWord
  pc : DWord
  deriving DecidableEq, Repr

def Partition.fbLog (p : Partition) : Nat :=
  let l := bits p.fbcfg 16 5
  if 6 ≤ l ∧ l ≤ 16 then l else 6
def Partition.fbBase (p : Partition) : Nat := bits p.fbcfg 21 43 * 4096
/-- The merge window in ns; values above 64 µs act as 64. -/
def Partition.mwin (p : Partition) : Nat := min 64 (bits p.fbcfg 9 7) * 1000
def Partition.fbFull (p : Partition) : Bool := p.tail - p.head == BitVec.ofNat 32 (2 ^ p.fbLog)

/-- Only 0x11 and 0x13 are replayable, and only they merge. -/
def replayable (c : BitVec 8) : Bool := c == 0x11 || c == 0x13

/-- The 32 bytes of a fault record (R268). -/
def State.recBytes (s : State) (part : Nat) (x : Rep) : List Byte :=
  let p := s.part part
  let (g, c) := match x.core with
    | none => (0, 0)
    | some k => (p.rank (groveOf k), coreInGrove k)
  leBytes 4 (x.bough % 16 * 2 ^ 26 + g * 2 ^ 21 + c * 2 ^ 16 + b2n (replayable x.code) * 2 ^ 13 + b2n x.w * 2 ^ 12
      + x.engine * 2 ^ 8 + x.code.toNat)
    ++ leBytes 4 x.source ++ leBytes 8 s.time ++ leBytes 8 x.va.toNat ++ leBytes 8 x.pc.toNat

/-- A write of bytes in a partition's address space by a device engine, where its pages admit all of it; `false` and no write where
one does not. Fault-record writes are not counted as heat (R340). -/
def State.engineWrite (s : State) (who : Asker) (part va : Nat) (bs : List Byte) : State × Bool :=
  let step (acc : State × Bool) (x : Nat × Nat) : State × Bool :=
    if !acc.2 then acc
    else
      let (s, r) := acc.1.translate who part (va + x.1) .write
      let d := (bs.drop x.1).take x.2
      match r with
      | .dev pa key comp bix _ _ => s.devWrite ⟨part, pa, key, comp, bix, false, .none, none⟩ d
      | .host ld addr => ({ s with host := Memory.writeN s.host (ld * 2 ^ 64 + addr) d }, true)
      | .ask vpn => (s.askHost who part vpn true, false)
      | _ => (s, false)
  (pieces va bs.length).foldl step (s, true)

/-- The companion core a record signals: that of its core, or the one FBDES names (R365). -/
def State.signalled (s : State) (part : Nat) (engine : Nat) (core : Nat) : Nat :=
  if engine == 0 || engine == 1 || engine == 2 || engine == 8 then core
  else
    let p := s.part part
    p.groveList.getD (bits p.fbdes 5 5) 0 * coresPerGrove + bits p.fbdes 0 5

/-- The engine number that stands for the fault buffer's own writes among translation caches. -/
def fbEngine : Nat := 15

/-- Something of the device read device time: no reading in hb after it is smaller (R359). -/
def State.timeRead (s : State) : State := { s with stamped := s.time }

/-- A record of a report that waits to be written, under a new report number. -/
def State.addRec (s : State) (part : Nat) (x : Rep) : State :=
  let r : FRec := ⟨[s.nextEnt], 0, x.code, x.va.toNat % 2 ^ 55 / 4096, replayable x.code, x.engine, none, replayable x.code, false,
    s.recBytes part x, s.signalled part x.engine (x.core.getD 0)⟩
  { (s.updPart part (fun p => { p with frecs := p.frecs ++ [r] })).timeRead with nextEnt := s.nextEnt + 1 }

/-- A write of the ring overflowed: it is reported as 0x13 like any overflowing write (R190), with the engine of the record that it
writes, once while a record of that page's overflow is pending. R267 gives the buffer's own writes no engine number (log 22: DESIGN
CHOICE). -/
def State.ringOverflow (s : State) (part va engine : Nat) : State :=
  if (s.part part).frecs.any (fun q => q.code == 0x13 && q.vpn == va % 2 ^ 55 / 4096 && q.pending) then s
  else s.addRec part ⟨0x13, engine, true, none, 0, 0, BitVec.ofNat 64 va, 0⟩

/-- Record TAIL is written to its entry and signalled (R267, R365); `false` where the ring does not take the write now. R267 does not
say what becomes of a record whose ring page does not translate: it stays unwritten, TAIL unchanged, and later records wait behind it
(log 22: DESIGN CHOICE). -/
def State.writeRec (s : State) (part : Nat) (r : FRec) : State × Bool :=
  let p := s.part part
  let va := p.fbBase + 32 * (p.tail.toNat % 2 ^ p.fbLog)
  let who : Asker := .unit fbEngine part
  let (s', ok) := s.engineWrite who part va r.bytes
  let s' := s'.usedAnswer who
  if !ok then
    match (s.translate who part va .write).2 with
    | .dev _ _ _ _ _ _ => (s'.ringOverflow part va r.engine, false)
    | _ => (s', false)
  else
    let s := s'.updPart part (fun p => { p with tail := p.tail + 1 })
    (s.updCore r.core (fun c => { c with pkip := c.pkip ||| 2 }), true)

/-- The merge table keeps 64 entries: the oldest leaves it (R338). -/
def trimMerge (l : List FRec) : List FRec :=
  if (l.filter (fun r => r.merge.isSome)).length ≤ 64 then l
  else
    let rec drop : List FRec → List FRec
      | [] => []
      | r :: rs => if r.merge.isSome then { r with merge := Option.none } :: rs else r :: drop rs
    drop l

/-- The recent record, still pending, that a report of a code and page merges with (R338). -/
def State.mergeFor (s : State) (part : Nat) (code : BitVec 8) (vpn : Nat) : Option FRec :=
  let p := s.part part
  if !replayable code then none
  else p.frecs.find? (fun r => r.code == code && r.vpn == vpn && r.pending && (match r.merge with
    | none => false
    | some t => decide (s.time < t + p.mwin)))

/-- A record can be written at once: none waits, and the ring has room (R267). -/
def State.fbRoom (s : State) (part : Nat) : Bool := !(s.part part).fbFull && (s.part part).frecs.all (fun r => r.written)

/-- An engine must hold a fault with its operation: the fault is of an engine that has no other place for it, and cannot be written
now (R267). -/
def State.mustHold (s : State) (part : Nat) (c : BitVec 8) : Bool := !replayable c && !s.fbRoom part

/-- Records that wait are written while there is room, oldest first, each taking the number TAIL has then, unless it now merges
with one written since it was reported; `n` bounds their number (R267, R338). -/
def State.drainRecs (s : State) (part : Nat) : Nat → State
  | 0 => s
  | n + 1 =>
    let p := s.part part
    match p.frecs.find? (fun r => !r.written) with
    | none => s
    | some r =>
      match s.mergeFor part r.code r.vpn with
      | some m => drainRecs (s.updPart part (fun p => { p with frecs := (p.frecs.filter (fun q => q.rids != r.rids)).map (fun q =>
          if q.rids == m.rids then { q with rids := q.rids ++ r.rids } else q) })) part n
      | none =>
        if p.fbFull then s
        else
          match s.writeRec part r with
          | (s, false) => s
          | (s, true) =>
            let f (q : FRec) : FRec := if q.rids == r.rids then
              { q with idx := p.tail.toNat, written := true, merge := if q.rep then some s.time else none } else q
            drainRecs (s.updPart part (fun p =>
              { p with frecs := trimMerge ((p.frecs.map f).filter (fun q => q.pending || !q.written)) })) part n

/-- A report: merged under a recent record of the same code and page, or a record of its own, written as soon as there is room.
Answers the report's number, under which the access is held (R267, R338). -/
def State.report (s : State) (part : Nat) (x : Rep) : State × Nat :=
  let vpn := x.va.toNat % 2 ^ 55 / 4096
  match s.mergeFor part x.code vpn with
  | some r => (s, r.rids.headD 0)
  | none =>
    let s' := s.addRec part x
    (s'.drainRecs part (s'.part part).frecs.length, s.nextEnt)

/-! ### Taking an exception: a lane parks (R362, R363, R366) -/

/-- A lane that faults: where it parks, the faulting word and address, and what a resume needs. -/
structure LFault where
  slot : Nat
  code : BitVec 8
  pc : DWord
  fpc : DWord
  va : DWord
  aux : DWord
  w : Bool
  /-- Met by instruction fetch (engine 8), not by the thread (engine 0). -/
  fetch : Bool
  defer : Option Defer
  deriving DecidableEq, Repr

/-- A lane stops under a park record: its back-offs end with it (R201). -/
def Thread.stop (t : Thread) (p : Park) : Thread :=
  { t with st := .parked, park := some p, retry := none, yieldUntil := none, pollUntil := none, due := none,
           rejoinSince := none, rejoinDone := false,
           defers := match p.defer with
             | none => t.defers
             | some d => t.defers.filter (fun e => e.op.id != d.op.id) }

/-- A thread leaves its regroup record, which is free when no thread remains in it (R165). -/
def State.leaveRegroup (s : State) (slot : Nat) : State :=
  s.updCore (coreOf slot) (fun c =>
    let l : SMap Regroup := (c.regroup.map (fun e => (e.1, { e.2 with slots := e.2.slots.filter (fun k => k != slot) }))).filter
      (fun e => !e.2.slots.isEmpty)
    { c with regroup := l, boughs := c.boughs.filter (fun b => decide (b.1 < 16) || (SMap.find? l (b.1 - 16)).isSome) })

/-- The lowest free trap permit of a core (R361). -/
def CoreSt.freePermit (c : CoreSt) : Option Nat := firstBelow 4 (fun n => (c.recs.find? n).isNone)

/-- The reports of a sub-group that faulted with 0x11 or 0x13: one for each page and home bough, with the bough's lane
mask and the address of its lowest lane (R268, R363, R420). The list runs from the highest lane down. Answers each slot's
record. -/
def State.reportLanes (s : State) (core : Nat) (all : List LFault) : List LFault → State × List (Nat × Nat)
  | [] => (s, [])
  | l :: ls =>
    let (s, out) := s.reportLanes core all ls
    if !replayable l.code then (s, out)
    else
      let same := all.filter (fun m => m.va.toNat / 4096 == l.va.toNat / 4096 && boughOf m.slot == boughOf l.slot)
      match ls.find? (fun m => m.va.toNat / 4096 == l.va.toNat / 4096 && boughOf m.slot == boughOf l.slot) with
      | some m => (s, (l.slot, ((out.find? (fun e => e.1 == m.slot)).map (·.2)).getD 0) :: out)
      | none =>
        let mask := (same.map (fun m => 2 ^ (slotNo m.slot % 32))).sum
        let part := s.partOf l.slot
        let (s, idx) := s.report part ⟨l.code, if l.fetch then 8 else 0, l.w, some core, boughOf l.slot, mask, l.va, l.fpc⟩
        (s, (l.slot, idx) :: out)

/-- One sub-group takes a permit and parks, or stays ready and backs off (R362, R363). -/
def State.parkGroup (s : State) (core bough : Nat) (ls : List LFault) (recs : List (Nat × Nat)) : State :=
  match ls with
  | [] => s
  | l :: _ =>
    match (s.core core).freePermit with
    | some n =>
      let s := s.updCore core (fun c =>
        let c := c.updBough bough (fun b => { b with k := 0 })
        { c with recs := c.recs.put n ⟨l.defer.isSome, l.code, l.pc, l.fpc, l.va, l.aux, ls.map (·.slot)⟩,
                 pkip := c.pkip ||| 1 })
      ls.foldl (fun s (m : LFault) => s.updThread m.slot (fun t =>
        t.stop ⟨m.code, m.pc, m.fpc, m.va, m.aux, m.defer, false, (recs.find? (fun e => e.1 == m.slot)).map (·.2)⟩)) s
        |> fun s => if s.cores.any (fun e => !e.2.regroup.isEmpty) then ls.foldl (fun s (m : LFault) => s.leaveRegroup m.slot) s else s
    | none =>
      let k := ((s.core core).bough bough).k
      let until' := s.cycleOf core + 64 * 2 ^ k
      let s := s.updCore core (fun c => c.updBough bough (fun b => { b with k := min 6 (b.k + 1) }))
      ls.foldl (fun s (m : LFault) => s.updThread m.slot (fun t =>
        { t with retry := some until', due := if m.code = (0x60 : BitVec 8) then some m.fpc else t.due })) s

/-- A team launched with rollback stops for its rollback, or for the kill of its context, when a lane consumes an
uncorrectable error (R383). -/
def State.consumesError (s : State) (l : LFault) : Bool :=
  (l.code == 0x40 || l.code == 0x17) && (match s.teamOf l.slot with
    | none => false
    | some m => match s.team? m with
      | none => false
      | some t => t.seg.isSome)

/-- The lines whose error an access of a thread has met, where its team was launched with rollback: a table's, where its walk met one
(R383). -/
def State.metLines (s : State) (slot : Nat) (code : BitVec 8) (va : DWord) : List Nat :=
  match s.teamOf slot with
  | none => []
  | some m => match s.team? m with
    | none => []
    | some t => if t.seg.isSome && (code == 0x40 || code == 0x17) then
        match s.walk (s.partOf slot) va.toNat with
        | .error table _ => [lineOf table]
        | _ => match (s.translate (.lane slot) (s.partOf slot) va.toNat .read).2 with
        | .dev pa .. => [lineOf pa, lineOf (pa + 15)]
        | _ => []
      else []

/-- A team launched with rollback has met the error of a line (R383). -/
def State.meets (s : State) (slot : Nat) (code : BitVec 8) (va : DWord) : State :=
  if (s.metLines slot code va).isEmpty then s
  else s.updTeam ((s.teamOf slot).getD 0) (fun t => { t with met := t.met ++ s.metLines slot code va })

/-- The distinct codes of a list of faults, in rising order. -/
def codesOf (ls : List LFault) : List (BitVec 8) :=
  ((List.range 256).map (BitVec.ofNat 8)).filter (fun c => ls.any (fun l => l.code == c))

/-- Taking an exception: the lanes of one issue that fault, one sub-group for each code (R36, R362, R363, R383). -/
def State.fault (s : State) (core bough : Nat) (ls : List LFault) : State :=
  if ls.isEmpty then s
  else
    let s := ls.foldl (fun s l => s.usedAnswer (.lane l.slot)) s
    let s := (ls.filter s.consumesError).foldl (fun s l =>
      (s.meets l.slot l.code l.va).updTeam ((s.teamOf l.slot).getD 0) (fun t => { t with rbDue := true })) s
    let ls := ls.filter (fun l => !s.consumesError l)
    (codesOf ls).foldl (fun s c =>
      let g := ls.filter (fun l => l.code == c)
      let (s, recs) := s.reportLanes core g g.reverse
      s.parkGroup core bough g recs) s

/-! ### Outstanding operations (R197, R198, R345) -/

def Counts.get (c : Counts) : Cls → Nat
  | .ld => c.ld
  | .st => c.st
  | .cp => c.cp
  | .tl => c.tl

def Counts.add (c : Counts) (k : Cls) : Counts :=
  match k with
  | .ld => { c with ld := c.ld + 1 }
  | .st => { c with st := c.st + 1 }
  | .cp => { c with cp := c.cp + 1 }
  | .tl => { c with tl := c.tl + 1 }

def Counts.sub (c : Counts) (k : Cls) : Counts :=
  match k with
  | .ld => { c with ld := c.ld - 1 }
  | .st => { c with st := c.st - 1 }
  | .cp => { c with cp := c.cp - 1 }
  | .tl => { c with tl := c.tl - 1 }

/-- CNTR's packing (R349). -/
def Counts.pack (c : Counts) : Nat := c.ld + c.st * 2 ^ 8 + c.cp * 2 ^ 16 + c.tl * 2 ^ 24

/-- A thread as it issues a counted operation: its class rises and its marks are set. -/
def Thread.counted (t : Thread) (k : Cls) (marks : List RegId) : Thread :=
  { t with cnt := t.cnt.add k, pend := t.pend ++ marks }

/-- The marks of an operation leave a thread. -/
def dropMarks (marks : List RegId) (l : List RegId) : List RegId := l.filter (fun r => !marks.contains r)

/-- A thread as one of its operations completes. -/
def Thread.completed (t : Thread) (k : Cls) (marks : List RegId) : Thread :=
  { t with cnt := t.cnt.sub k, pend := dropMarks marks t.pend }

/-- The page of an access is the host's. -/
def Op.onHost (o : Op) : Bool := match o.place with
  | .host _ _ => true
  | _ => false

/-- The page of an access is the host's, in memory of another package (R230). -/
def Op.onFar (o : Op) : Bool := match o.place with
  | .host ld a => Config.farPage ld (a / 4096)
  | _ => false

/-- The memory of an access lies at most `k` out, by the scopes that cover it (R230): 0 that of the device, which every scope covers; 1
that of the host domain, which `.sys` covers; 2 that of another package, which `.fab` alone covers. -/
def Op.within (o : Op) (k : Nat) : Bool := match k with
  | 0 => !o.onHost
  | 1 => !o.onFar
  | _ => true

/-! ### Bytes that operations share (R190) -/

/-- Operations that stand in program order: all but copies, fragments and requests to units. -/
def OpKind.inPo : OpKind → Bool
  | .load .. | .store .. | .atom .. | .red .. | .disc | .clean | .bari _ | .bara _ | .barx _ => true
  | _ => false

/-- Two intervals of addresses meet. -/
def meet (a n b m : Nat) : Bool := decide (a < b + m) && decide (b < a + n)

def OpKind.wholeLine : OpKind → Bool
  | .disc | .clean => true
  | _ => false

/-- The bytes an operation covers at its place: whole lines for DISC, CLEAN and a write that an overflow has held, until the replayed
write is performed (R190). -/
def Op.span (o : Op) (a : Nat) : Nat × Nat :=
  if o.kind.wholeLine then (lineOf a, 128)
  else if o.stood then (lineOf a, lineOf (a + o.n - 1) + 128 - lineOf a)
  else (a, o.n)

/-- Two operations share a byte; one whose place was never known shares its lines (R190). -/
def overlaps (o p : Op) : Bool :=
  let both (a b : Nat) : Bool := meet (o.span a).1 (o.span a).2 (p.span b).1 (p.span b).2
  match o.place, p.place with
  | .dev a .., .dev b .. => both a b
  | .host l a, .host m b => l == m && both a b
  | .scr c a _, .scr d b _ => c == d && both a b
  | .rwin .., .rwin .. => both o.va.toNat p.va.toNat
  | .later, _ => meet (lineOf o.va.toNat) (128 + o.n) (lineOf p.va.toNat) (128 + p.n)
  | _, .later => meet (lineOf o.va.toNat) (128 + o.n) (lineOf p.va.toNat) (128 + p.n)
  | _, _ => false

/-- A write of its thread that an overflow has held is still to be performed at the line of a new access: the access goes past the L1
(R183, R190). -/
def State.behindHeld (s : State) (o : Op) : Bool := s.ops.any (fun p => p.slot == o.slot && p.stood && overlaps o p)

/-! ### The operations a fence or a release waits for (R200, R203, R229, R236, R237, R269) -/

/-- Loads, stores, atomics, reductions and barrier accesses of a lane: the accesses of R197. -/
def OpKind.access : OpKind → Bool
  | .load .. | .store .. | .atom .. | .red .. | .bari _ | .bara _ | .barx _ => true
  | _ => false

/-- What releases and fences order: the accesses, and the queue events of R269. -/
def OpKind.ordered : OpKind → Bool
  | .emit .. | .qrd .. | .qlen .. => true
  | k => k.access

/-- Reads and read-modify-writes: what an acquire fence waits for. -/
def OpKind.reads : OpKind → Bool
  | .load .. | .atom .. | .red .. | .bara _ | .barx _ | .qrd .. | .qlen .. => true
  | _ => false

/-- A store that its L1 domain already sees. -/
def Op.seen (p : Op) : Bool := match p.kind with
  | .store .. => p.l1.isSome
  | _ => false

/-- A load below `n` of a thread read a store of another thread that is still to be performed (R229). -/
def State.earlyBelow (s : State) (slot n : Nat) : Bool :=
  match s.thread? slot with
  | none => false
  | some t => t.early.any (fun e => decide (e.1 < n) && (s.op? e.2).isSome)

/-- An earlier access of a thread is still to be performed: what a request to a base-die unit waits for (R270, R296). -/
def State.unperformed (s : State) (slot n : Nat) : Bool :=
  s.ops.any (fun o => o.slot == slot && decide (o.id < n) && o.kind.access) || s.earlyBelow slot n

/-- Something that a release at operation `n` of a thread follows is still to be performed, in memory at most `k` out: its own
accesses, and the stores they read (R229, R230, R236, R237). -/
def State.belowIn (s : State) (k slot n : Nat) : Bool :=
  s.ops.any (fun o => o.slot == slot && decide (o.id < n) && o.kind.ordered && o.within k)
    || s.earlyBelow slot n

/-- The same wherever the memory lies. -/
def State.accessBelow (s : State) (slot n : Nat) : Bool := s.belowIn 2 slot n

/-- The same for a release whose scope is the L1 domain: stores need only be seen there (R183, R237). -/
def State.l1Below (s : State) (slot n : Nat) : Bool :=
  s.ops.any (fun o => o.slot == slot && decide (o.id < n) && o.kind.ordered && !o.seen && !o.onHost)

/-- Reads below operation `n` have not completed: what an acquire fence waits for, whatever its scope (R203). -/
def State.readBelow (s : State) (slot n : Nat) : Bool :=
  s.ops.any (fun o => o.slot == slot && decide (o.id < n) && o.kind.reads)

/-- What fences wait for at operations in memory at most `k` out has not come about. -/
def State.fenceBelow (s : State) (slot : Nat) (v : FenceN) (k : Nat) : Bool :=
  s.accessBelow slot v.fab || (decide (k ≤ 1) && s.belowIn 1 slot v.sys)
    || (decide (k = 0) && (s.belowIn 0 slot v.dev || s.l1Below slot v.near))

/-- What an earlier `.acq` or `.ar` fence of a thread waits for has not come about, for an access of memory `k` out: every earlier read
for both (R203), and for `.ar` what its scope orders before the access (R236, R237). -/
def State.acqHolds (s : State) (slot : Nat) (t : Thread) (k : Nat) : Bool :=
  s.readBelow slot (max t.fAcq.last t.fAr.last) || s.fenceBelow slot t.fAr k

/-- The same for an earlier `.rel` fence and a write. -/
def State.relHolds (s : State) (slot : Nat) (t : Thread) (k : Nat) : Bool := s.fenceBelow slot t.fRel k

/-- The first access that an acquiring fence beyond the L1 domain ordered: no sector filled before it is hit (R183, R236). -/
def State.renewed (s : State) (o : Op) : State :=
  match s.thread? o.slot with
  | none => s
  | some t =>
    if t.renew && o.kind.access && !s.acqHolds o.slot t 0 then
      s.updThread o.slot (fun t => { t with renew := false, acqStamp := s.stamp })
    else s

/-- An operation issues: it takes the next number, its lane's counter and marks rise. -/
def State.issueOp (s : State) (o : Op) : State :=
  { (s.renewed o).updThread o.slot (fun t => t.counted o.cls o.marks) with
    ops := s.ops ++ [{ o with id := s.nextOp }], nextOp := s.nextOp + 1 }

/-! ### The end of an operation, and replays that wait for room (R197, R198, R209, R346) -/

/-- The core's tag that a team names `k` changed. -/
def State.updTeamTag (s : State) (team k : Nat) (f : TagSt → TagSt) : State :=
  match s.team? team with
  | none => s
  | some m => match m.tags[k]? with
    | none => s
    | some t => s.updCore m.core (fun c => c.updTag t f)

/-- The copy enters its core's queue, and its tag is no longer ready (R208, R209). -/
def State.enqueueCopy (s : State) (o : Op) : State :=
  match o.kind with
  | .copy _ _ _ _ _ _ _ tag _ _ =>
    let s := s.updCore (coreOf o.slot) (fun c => { c with cq := c.cq ++ [o.id] })
    match s.teamOf o.slot with
    | none => s
    | some m => s.updTeamTag m tag (fun g => { g with rdy := false, count := g.count + 1 })
  | _ => s

/-- Requests of the load and store classes in memory. -/
def OpKind.request : OpKind → Bool
  | .disc | .clean => true
  | k => k.access

/-- Requests of a core's threads that count toward its 512 (R2, R197). -/
def State.coreRequests (s : State) (c : Nat) : Nat := (s.ops.filter (fun o => coreOf o.slot == c && o.kind.request)).length

/-- An access that is performed again can issue: its class, and for a copy its core's queue, have room, and its core's requests are
below 512 (R2, R197, R209, R346). -/
def State.replayRoom (s : State) (t : Thread) (o : Op) : Bool :=
  decide (t.cnt.get o.cls < 63) && (o.cls != .cp || decide ((s.core (coreOf o.slot)).cq.length < 256))
    && (!o.kind.request || decide (s.coreRequests (coreOf o.slot) < 512))

/-- A lane's access that is to be performed again issues as soon as there is room; the lane is held till then (R368). -/
def State.tryReplay (s : State) (slot : Nat) : State :=
  match s.thread? slot with
  | none => s
  | some t => match t.hold with
    | .replay o =>
      if s.replayRoom t o then
        let s := s.updThread slot (fun t => { t with hold := .none })
        (s.issueOp { o with bypass := s.behindHeld o }).enqueueCopy { o with id := s.nextOp }
      else s
    | _ => s

/-- The lanes that an operation's end may let go on: those of its core. -/
def State.tryReplays (s : State) (o : Op) : State :=
  ((s.threads.filter (fun e => coreOf e.1 == coreOf o.slot && (match e.2.hold with
    | .replay _ => true
    | _ => false))).map (·.1)).foldl State.tryReplay s

/-- An operation completes: it leaves the outstanding operations, and its lane's counter and marks fall. -/
def State.finishOp (s : State) (o : Op) : State :=
  ((s.dropOp o.id).updThread o.slot (fun t => t.completed o.cls o.marks)).tryReplays o

/-- An operation meets a fault after issue: the fault is recorded and the operation counts as complete; its pending marks
become fault marks (R198, R345). -/
def State.deferOp (s : State) (o : Op) (code : BitVec 8) (va : DWord) : State :=
  (((s.usedAnswer (.op o.slot o.id)).meets o.slot code va).finishOp o).updThread o.slot (fun t =>
    { t with fmark := t.fmark ++ o.marks, defers := t.defers ++ [⟨code, o.pc, va, o.cls, o.marks, o⟩] })

/-- An operation waits for a fault-buffer record; it translates again when that is resolved (R337, R339). -/
def State.holdOp (s : State) (o : Op) (idx : Nat) : State :=
  (s.usedAnswer (.op o.slot o.id)).updOp o.id (fun p => { p with held := some idx, again := true })

/-! ### Teams -/

/-- The slots of a team in lane order. -/
def Team.slots (m : Team) : List Nat := (List.range m.n).map (fun i => m.core * slotsPerCore + m.first + i)

/-- An EMIT that waits in its queue's stalled requests (R264, R270). -/
def Op.stalledEmit (o : Op) : Bool := match o.kind with
  | .emit .. => o.sent
  | _ => false

/-- A stalled EMIT, or one that waits behind a stalled EMIT of its lane and for nothing else: neither a save nor a move waits for it
(R235, R270, R346). -/
def State.emitWaits (s : State) (o : Op) : Bool :=
  let below (p : Op) : Bool := p.slot == o.slot && decide (p.id ≤ o.id)
  let emit (p : Op) : Bool := match p.kind with
    | .emit .. => true
    | _ => false
  emit o && s.ops.any (fun p => below p && p.stalledEmit) && s.ops.all (fun p => !(below p && p.kind.ordered) || emit p)

/-- The operations of a team that are outstanding, closed matrix entries among them and stalled EMITs apart (R53, R145,
R346), and the stores its threads read early: a move is a FENCE.ar at .dev (R237). -/
def State.teamBusy (s : State) (m : Team) : Bool :=
  s.ops.any (fun o => m.slots.contains o.slot && !s.emitWaits o)
    || m.slots.any (fun k => s.earlyBelow k s.nextOp || (match s.thread? k with
      | none => false
      | some t => match t.hold with
        | .replay _ => true
        | _ => false))
    || s.ments.any (fun e => e.slots.any (fun o => match o with
      | none => false
      | some k => m.slots.contains k))

end Sys2Proof.Machine
end

