-- ==== Sys2Proof/Machine/Lane.lean ====
section
/-!
DEFINITION. One issue: which lanes take the word (15 R346 to R351, 02 R50), what a lane's part of it gives, and how the
lanes' parts come together (03 R79, 07 R156, R161, 08 R197, R198, 16 R362, R369).
-/

namespace Sys2Proof.Machine

/-! ### Guards and footprints on a thread -/

end Sys2Proof.Machine

namespace Sys2Proof
open Sys2Proof.Machine

/-- The guard of a word on a thread; a pair word has one for each half, and a step of an agent has none. -/
def Instr.on (i : Instr) (t : Thread) : Bool :=
  match i with
  | .add x | .sub x | .mul x | .mulh x | .div x | .rem x | .min x | .max x => x.gd.holds t
  | .mad x => x.gd.holds t
  | .and x | .or x | .xor x | .andn x | .orn x | .shl x | .shr x | .sar x | .rol x | .ror x => x.gd.holds t
  | .not x | .mov x | .brev x | .popc x | .clz x | .ctz x => x.gd.holds t
  | .shf x | .bperm x => x.gd.holds t
  | .abs x | .neg x => x.gd.holds t
  | .bfx x => x.gd.holds t
  | .bfi x => x.gd.holds t
  | .sel x => x.gd.holds t
  | .lea x => x.gd.holds t
  | .cmp x => x.gd.holds t
  | .pand x | .por x | .pxor x => x.gd.holds t
  | .pnot x => x.gd.holds t
  | .pmov x => x.gd.holds t
  | .gets x => x.gd.holds t
  | .sets x => x.gd.holds t
  | .fadd x | .fsub x | .fmul x | .fdiv x | .fscale x => x.gd.holds t
  | .ffma x | .hfma2 x | .bfma2 x => x.gd.holds t
  | .fmin x | .fmax x => x.gd.holds t
  | .fcmp x => x.gd.holds t
  | .frcp x | .fsqrt x => x.gd.holds t
  | .fclass x | .frsq x | .fexp2 x | .flog2 x | .fsin x | .fcos x | .ftanh x | .boost x => x.gd.holds t
  | .hadd2 x | .hmul2 x => x.gd.holds t
  | .doth2 x => x.gd.holds t
  | .cvt x => x.gd.holds t
  | .pack x => x.gd.holds t
  | .unpack x => x.gd.holds t
  | .fmtq x => x.gd.holds t
  | .dot8 x | .dot4 x => x.gd.holds t
  | .mma x => x.gd.holds t
  | .mmas x => x.gd.holds t
  | .mzero x => x.gd.holds t
  | .mfence x | .ret x | .rejoin x | .nop x | .exit x | .tret x | .tbar x => x.gd.holds t
  | .ldfr x | .stfr x => x.gd.holds t
  | .mcvt x => x.gd.holds t
  | .mtrn x => x.gd.holds t
  | .bra x | .call x => x.gd.holds t
  | .brx x | .callx x => x.gd.holds t
  | .yld x => x.gd.holds t
  | .tcall x | .tcalls x => x.gd.holds t
  | .tvote x => x.gd.holds t
  | .txch x | .glaunch x => x.gd.holds t
  | .tmigr x => x.gd.holds t
  | .ld x => x.gd.holds t
  | .st x => x.gd.holds t
  | .lda x => x.gd.holds t
  | .stl x => x.gd.holds t
  | .atom x => x.gd.holds t
  | .red x => x.gd.holds t
  | .fence x => x.gd.holds t
  | .pref x => x.gd.holds t
  | .disc x | .clean x => x.gd.holds t
  | .cpy x => x.gd.holds t
  | .cpyt x | .cpyg x => x.gd.holds t
  | .bari x | .barx x | .barw x => x.gd.holds t
  | .bara x => x.gd.holds t
  | .waitany x | .waitall x => x.gd.holds t
  | .ffr x => x.gd.holds t
  | .emit x | .qrd x => x.gd.holds t
  | .qlen x => x.gd.holds t
  | .mload x => x.gd.holds t
  | .marm x | .mdis x => x.gd.holds t
  | .mstat x => x.gd.holds t
  | .wait x => x.gd.holds t
  | .cntr x | .amb x => x.gd.holds t
  | .trap x => x.gd.holds t
  | .brk x => x.gd.holds t
  | .serv x => x.gd.holds t
  | .literalFormWord x => RGuard.holds x.gd t
  | _ => true

/-- The registers a word reads or writes on a thread: none where its guard is false (R156, R197). -/
def Instr.regsOn (i : Instr) (t : Thread) : List RegId :=
  match i with
  | .pairFormWord h k => (if RGuard.holds h.gd t then h.regs else []) ++ (if RGuard.holds k.gd t then k.regs else [])
  | i => if i.on t then i.regs else []

end Sys2Proof

namespace Sys2Proof.Machine

/-- How a word touches memory, for the limit of R197 and the fences of R203 and R236: DISC and CLEAN are accesses that only
acquires hold, and EMIT, QRD and QLEN are events at a queue and no requests of memory. -/
inductive MemUse where
  | none | load | store | line | unit
  deriving DecidableEq, Repr

end Sys2Proof.Machine

namespace Sys2Proof
open Sys2Proof.Machine

def HalfOp.cls : HalfOp → Option Cls
  | .ld .. => some .ld
  | .st .. => some .st
  | _ => none

/-- The class a guard-true lane's instruction counts in (R345). -/
def Instr.cls : Instr → Option Cls
  | .ld _ | .lda _ | .atom _ | .qrd _ | .qlen _ | .mstat _ => some .ld
  | .st _ | .stl _ | .red _ | .disc _ | .clean _ | .bari _ | .bara _ | .barx _ | .emit _ | .mload _ | .marm _ | .mdis _ =>
    some .st
  | .cpy _ | .cpyt _ | .cpyg _ => some .cp
  | .ldfr _ | .stfr _ | .mma _ | .mmas _ | .mtrn _ => some .tl
  | .literalFormWord x => match x.op with
    | .ld .. => some .ld
    | .st .. => some .st
    | _ => none
  | _ => none

/-- The class on a thread: at most one half of a pair word counts (R72). -/
def Instr.clsOn (i : Instr) (t : Thread) : Option Cls :=
  match i with
  | .pairFormWord h k =>
    match if RGuard.holds h.gd t then h.op.cls else none with
    | some c => some c
    | none => if RGuard.holds k.gd t then k.op.cls else none
  | i => if i.on t then i.cls else none

end Sys2Proof

namespace Sys2Proof.Machine

def clsUse : Option Cls → MemUse
  | some .ld => .load
  | some .st => .store
  | _ => .none

end Sys2Proof.Machine

namespace Sys2Proof
open Sys2Proof.Machine

/-- What a word's results are computed from, on a thread: for each part of it that takes effect, the registers read and those written; a
half of a pair word whose guard is false writes nothing (R73, R229). -/
def Instr.flows (i : Instr) (t : Thread) : List (List RegId × List RegId) :=
  match i with
  | .pairFormWord h k => (if RGuard.holds h.gd t then [(h.srcs, h.dsts)] else []) ++ (if RGuard.holds k.gd t then [(k.srcs, k.dsts)] else [])
  | i => [(i.srcs, i.dsts)]

/-- The registers that the one access of a word reads, on a thread. -/
def Instr.opSrcs (i : Instr) (t : Thread) : List RegId :=
  match i with
  | .pairFormWord h k => if RGuard.holds h.gd t && h.op.cls.isSome then h.srcs else k.srcs
  | i => i.srcs

/-- How a word's access counts for the fences (R203): loads, stores (STL, RED, barrier writes and arrivals among them). -/
def Instr.useOn (i : Instr) (t : Thread) : MemUse :=
  match i with
  | .ld _ | .lda _ | .barw _ => if i.on t then .load else .none
  | .st _ | .stl _ | .red _ | .atom _ | .bari _ | .bara _ | .barx _ => if i.on t then .store else .none
  | .disc _ | .clean _ => if i.on t then .line else .none
  | .emit _ | .qrd _ | .qlen _ => if i.on t then .unit else .none
  | .pairFormWord _ _ => clsUse (i.clsOn t)
  | .literalFormWord _ => clsUse (i.clsOn t)
  | _ => .none

end Sys2Proof

namespace Sys2Proof.Machine

/-! ### Tags of a team (R207) -/

def Team.tagIn (m : Team) (s : State) (k : Nat) : Bool :=
  match m.tags[k]? with
  | none => false
  | some t => ((s.core m.core).tag t).rdy

/-- sr.tags: the ready bits of a team's tags. -/
def State.tagBits (s : State) (team : Nat) : DWord :=
  match s.team? team with
  | none => 0
  | some m => BitVec.ofNat 64 (((List.range m.tags.length).map (fun k => if m.tagIn s k then 2 ^ k else 0)).sum)

def State.tagCount (s : State) (team : Nat) : Nat := match s.team? team with
  | none => 0
  | some m => m.tags.length

/-- A mask names a tag at or above k (R207). -/
def State.tagsBeyond (s : State) (team : Nat) (m : DWord) : Bool := decide (2 ^ s.tagCount team ≤ m.toNat)

/-- The access waits for earlier acquiring fences. -/
def MemUse.fenced : MemUse → Bool
  | .none => false
  | _ => true

/-- The access counts toward the core's 512 requests (R197). -/
def MemUse.requests : MemUse → Bool
  | .load | .store | .line => true
  | _ => false

/-! ### Whether a thread passes (R50) -/

/-- A back-off is not over at a grove cycle. -/
def heldUntil (u : Option Nat) (now : Nat) : Bool := match u with
  | none => false
  | some c => decide (now < c)

/-- A ready thread that nothing holds back at a grove cycle, whatever its next word (R50, R162, R201, R363). -/
def Thread.open (t : Thread) (now : Nat) : Bool :=
  t.st == .ready && t.hold == .none && t.due.isNone && !heldUntil t.retry now && !heldUntil t.yieldUntil now && !heldUntil t.pollUntil now

/-- The thread's team is not stopped for a move, a save, a rollback or the start of an interval. -/
def State.teamRuns (s : State) (t : Thread) : Bool :=
  match s.team? t.team with
  | none => false
  | some m => m.moving.isNone && !m.leaving && !m.rbDue && !m.ckpt

/-- A word satisfies the landing check of a thread (R161). -/
def landingOk (i : Instr) (t : Thread) : Bool :=
  match t.landing with
  | none => true
  | some tag => match i with
    | .pad x => x.tag == tag
    | _ => false

def limitOk (lim : BitVec 6) (n : Nat) : Bool := lim == 63 || decide (n ≤ lim.toNat)

/-- The core and offset a scratchpad address names, seen from a core (R180). -/
def scrTarget (core x : Nat) : Nat × Nat :=
  (if x / 2 ^ 23 % 2 = 0 then core else groveOf core * coresPerGrove + x / 2 ^ 18 % 32, x % 2 ^ 18)

/-- Operations of a thread are outstanding on scratchpad bytes that a word is to read as it issues (R232). -/
def State.scrBusy (s : State) (slot x n : Nat) : Bool :=
  let a := scrTarget (coreOf slot) x
  s.ops.any (fun o => o.slot == slot && (match o.place with
    | .scr c off _ => c == a.1 && decide (off < a.2 + n) && decide (a.2 < off + o.n)
    | _ => false))

/-- The same for the thread's own region alone: bytes of another core are reached when the request arrives there (R433, R218). -/
def State.ownBusy (s : State) (slot x n : Nat) : Bool := decide (x / 2 ^ 23 % 2 = 0) && s.scrBusy slot x n

/-- A word satisfies what it reads of the scratchpad at issue: barrier objects (R433, R218), index lists (R217), the arguments of
GLAUNCH (R177). -/
def State.scrSettled (s : State) (slot : Nat) (t : Thread) (i : Instr) : Bool :=
  let l : Lane := ⟨s, slot, t, s.fresh⟩
  let bar (o : Option Base) : Bool := match o with
    | none => false
    | some b => s.ownBusy slot (l.src32 3 b.toSrc).toNat 16
  match i with
  | .barw x => !s.ops.any (fun o => o.slot == slot && o.acq.isSome) && !s.scrBusy slot (l.src32 0 x.bar.toSrc).toNat 16
  | .bara x => !s.ownBusy slot (l.src32 0 x.bar.toSrc).toNat 16
  | .barx x => !s.ownBusy slot (l.src32 0 x.bar.toSrc).toNat 16
  | .glaunch x => t.lane != 0 || !s.scrBusy slot (l.src32 1 x.b).toNat 128
  | .cpy x => !bar x.bar
  | .cpyt x => !bar x.bar
  | .cpyg x =>
    let w (j : Nat) : Nat := (l.g 2 (x.desc.toNat + j)).toNat
    !bar x.bar && !s.ownBusy slot (w 3) (4 * min (w 1) 4096)
  | _ => true

/-- The global address of a word's one access, for LD, LDA, ST, STL, ATOM and RED. -/
def Lane.wordVa (l : Lane) (i : Instr) : Option Nat :=
  let at' (b : Base) (off : Option Src) : Nat := (l.base true b + (match off with
    | none => 0
    | some x => (l.src32 1 x).signExtend 64)).toNat
  match i with
  | .ld x => if x.sp == .g then some (at' x.base (some x.off)) else none
  | .lda x => if x.sp == .g then some (at' x.base (some x.off)) else none
  | .st x => if x.sp == .g then some (at' x.base (some x.off)) else none
  | .stl x => if x.sp == .g then some (at' x.base (some x.off)) else none
  | .atom x => if x.scr then none else some (at' x.base none)
  | .red x => if x.scr then none else some (at' x.base none)
  | _ => none

/-- How far out the memory of a word's access lies (R230), as `Op.within` counts: fences order it from there on. A page counts as the
host's where every walk that it may use says so, and as another package's once its translation is known. -/
def State.wordReach (s : State) (slot : Nat) (t : Thread) (i : Instr) : Nat :=
  match Lane.wordVa ⟨s, slot, t, s.fresh⟩ i with
  | none => 0
  | some va =>
    if (s.walkNow (s.partOf slot) va ++ (s.cached (coreOf slot) (s.partOf slot) va).map (fun c => Walk.leaf c.log c.leaf)).all (fun w => match w with
      | .leaf _ e => pteTier e == 2
      | _ => false) then
      match s.useHost (.lane slot) (s.partOf slot) va .read with
      | .host ld a => if Config.farPage ld (a / 4096) then 2 else 1
      | _ => 1
    else 0

/-- The lane passes the WAIT conditions and tag waits of a word (R50, R197, R203, R223, R346, R347). For a REJOIN, a ready thread
counts in its home bough also while it issues from a regrouped one (log 59: DESIGN CHOICE); a sub-team is a team of its own (R173). -/
def State.passes (s : State) (slot : Nat) (t : Thread) (i : Instr) : Bool :=
  !landingOk i t ||
    ((i.regsOn t).all (fun r => !t.pend.contains r)
      && (match i.clsOn t with
        | none => true
        | some c => decide (t.cnt.get c ≤ 62))
      && (!(i.useOn t).requests || decide (s.coreRequests (coreOf slot) < 512))
      && (i.useOn t != .store || !s.relHolds slot t 0 || !s.relHolds slot t (s.wordReach slot t i))
      && (!(i.useOn t).fenced || !s.acqHolds slot t 0 || !s.acqHolds slot t (s.wordReach slot t i))
      && (!i.on t || s.scrSettled slot t i)
      && (match i with
        | .wait x => !i.on t || (limitOk x.ld t.cnt.ld && limitOk x.st t.cnt.st && limitOk x.cp t.cnt.cp && limitOk x.tl t.cnt.tl)
        | .waitany x =>
          let m := Lane.src ⟨s, slot, t, s.fresh⟩ 0 true x.a
          !i.on t || s.tagsBeyond t.team m || m == 0 || s.tagBits t.team &&& m != 0
        | .waitall x =>
          let m := Lane.src ⟨s, slot, t, s.fresh⟩ 0 true x.a
          !i.on t || s.tagsBeyond t.team m || s.tagBits t.team &&& m == m
        | .tbar _ => !i.on t || !s.accessBelow slot s.nextOp
        | .cpy _ | .cpyt _ | .cpyg _ => !i.on t || decide ((s.core (coreOf slot)).cq.length < 256)
        | .rejoin _ => t.rejoinDone || (match t.rejoinSince with
            | none => false
            | some c => decide (c + 256 ≤ s.cycleOf (coreOf slot))) || !(s.threads.any (fun e =>
            e.1 != slot && e.2.st == .ready && e.2.team == t.team && e.2.ctx == t.ctx && coreOf e.1 == coreOf slot && boughOf e.1 == boughOf slot
              && decide (e.2.pc.toNat < t.pc.toNat)))
        | _ => true))

/-! ### Deferred faults a word meets (R198, R218, R348) -/

/-- The word needs an operation of a class on a thread: a WAIT limit below the count plus one (R348). -/
def waitNeeds (i : Instr) (t : Thread) (c : Cls) : Bool :=
  match i with
  | .wait x =>
    let lim : BitVec 6 := match c with
      | .ld => x.ld
      | .st => x.st
      | .cp => x.cp
      | .tl => x.tl
    decide (lim.toNat < t.cnt.get c + 1) && lim != 63
  | _ => false

/-- A FENCE, STL or TBAR, where the faults of stores and copies are taken. -/
def isRelease : Instr → Bool
  | .fence _ | .stl _ | .tbar _ => true
  | _ => false

/-- A deferred fault that waits for a FENCE, STL or TBAR too: one with no fault mark, of a store or a copy (R198, R218). -/
def Defer.atRelease (d : Defer) : Bool := d.marks.isEmpty && d.cls != .tl

/-- The deferred fault a word takes on a thread, the oldest first. -/
def deferHit (i : Instr) (t : Thread) : Option Defer :=
  t.defers.find? (fun d =>
    (i.regsOn t).any (fun r => d.marks.contains r && t.fmark.contains r)
      || (i.on t && (waitNeeds i t d.cls || (isRelease i && d.atRelease))))

/-! ### Amber (R350, R351) -/

end Sys2Proof.Machine

namespace Sys2Proof
open Sys2Proof.Machine

/-- The instruction is wide. -/
def Instr.isWide : Instr → Bool
  | .dot8 _ | .dot4 _ | .doth2 _ | .frcp _ | .frsq _ | .fsqrt _ | .fexp2 _ | .flog2 _ | .fsin _ | .fcos _ | .ftanh _
  | .mma _ | .mmas _ | .mtrn _ | .ldfr _ | .stfr _ | .mzero _ | .mcvt _ | .mfence _ | .cpy _ | .cpyt _ | .cpyg _ => true
  | _ => false

end Sys2Proof

namespace Sys2Proof.Machine

/-- The quarter of a thread: its team or sub-team and floor(sr.lane / 8) (R136). -/
def Thread.quarter (t : Thread) : Nat × Nat × Nat := (t.team, t.ctx, t.lane / 8)

/-- Distinct elements. -/
def distinct {α : Type} [DecidableEq α] : List α → List α
  | [] => []
  | a :: l => if a ∈ l then distinct l else a :: distinct l

/-- The open entry of a thread's quarter at its sequence number (R138). -/
def State.openEnt (s : State) (t : Thread) : Option QEnt :=
  match s.team? t.team with
  | none => none
  | some m => m.opens.find? (fun e => e.ctx == t.ctx && e.quarter == t.lane / 8 && e.seq == t.qseq)

/-- Total bytes of a CPYT or CPYG (R217). -/
def cpydTotal (tiled : Bool) (l : Lane) (r : BitVec 8) : Nat :=
  let w (j : Nat) := (l.g 2 (r.toNat + j)).toNat
  if tiled then w 0 * w 1 * w 2 else w 0 * w 1

/-- Total bytes of a lane's copy. -/
def copyTotal (i : Instr) (l : Lane) : Nat :=
  match i with
  | .cpy x => (l.src32 2 x.len).toNat
  | .cpyt x => cpydTotal true l x.desc
  | .cpyg x => cpydTotal false l x.desc
  | _ => 0

/-- A lane that issues a quarter word arrives at its entry: no fault of its own turns it away (R138, R148). -/
def State.arrives4 (s : State) (i : Instr) (t : Thread) : Bool :=
  landingOk i t && (deferHit i t).isNone && (!i.on t || (match i with
    | .mma x => (s.mmaSlots t x.sa x.sb).isSome
    | .mmas x => (s.mmaSlots t x.sa x.sb).isSome
    | _ => true))

/-- The amber price of an issue to a set of lanes (R350, R216, R147). A quarter is that of R136: of a team or sub-team. An issue that
holds lanes of several sub-teams, or of several boughs regrouped, is priced once for each quarter of each of them, so its price can pass
the 36 that R350 gives as the largest; the manual counts no such issue (log 76: DESIGN CHOICE). -/
def State.price (s : State) (core : Nat) (i : Instr) (lanes : List Nat) : Nat :=
  let ts := lanes.filterMap (fun k => (s.thread? k).map (fun t => (k, t)))
  let on := ts.filter (fun e => i.on e.2)
  if !(s.grove (groveOf core)).en || on.isEmpty then 0
  else
    let quarters := (distinct (on.map (fun e => e.2.quarter))).length
    let opened := (distinct ((on.filter (fun e => ts.any (fun f =>
      f.2.quarter = e.2.quarter && (s.openEnt f.2).isNone && s.arrives4 i f.2))).map (fun e => e.2.quarter))).length
    match i with
    | .dot8 _ | .dot4 _ => 2
    | .doth2 _ | .frcp _ | .frsq _ | .fsqrt _ | .fexp2 _ | .flog2 _ | .fsin _ | .fcos _ | .ftanh _ => 1
    | .mma _ => 8 * opened
    | .mmas _ => 9 * opened
    | .mtrn _ => 2 * opened
    | .ldfr _ | .stfr _ | .mzero _ | .mcvt _ | .mfence _ => quarters
    | .cpy _ | .cpyt _ | .cpyg _ =>
      let totals := (on.map (fun e => copyTotal i ⟨s, e.1, e.2, s.fresh⟩)).filter (fun n => decide (n ≤ 65536))
      max 1 ((totals.foldl max 0 + 1023) / 1024)
    | _ => 0

/-- The set affords its price (R351). -/
def State.affords (s : State) (core bough price : Nat) : Bool :=
  price == 0 || (decide (price ≤ (s.core core).pool) && (match (s.core core).resv with
    | none => true
    | some b => b == bough))

/-- Lanes in order while there is room for what some of them take. -/
def takeRoom (takes : Nat → Bool) : Nat → List Nat → List Nat
  | _, [] => []
  | n, k :: ks =>
    if !takes k then k :: takeRoom takes n ks
    else
      match n with
      | 0 => takeRoom takes 0 ks
      | m + 1 => k :: takeRoom takes m ks

/-- The lanes for which a core's requests and its copy queue have room, in lane order (R197, R206). -/
def State.withRoom (s : State) (i : Instr) (l : List Nat) : List Nat :=
  let is (p : Thread → Bool) (k : Nat) : Bool := match s.thread? k with
    | none => false
    | some t => p t
  takeRoom (is (fun t => i.cls == some .cp && i.on t)) (256 - (s.core s.cur.core).cq.length)
    (takeRoom (is (fun t => (i.useOn t).requests)) (512 - s.coreRequests s.cur.core) l)

/-- The lanes that issue a word: those of the issuing set at this PC that nothing holds and that pass, when they afford it. -/
def State.issueSet (s : State) (i : Instr) : List Nat :=
  let l := s.withRoom i (s.cur.slots.filter (fun k => match s.thread? k with
    | none => false
    | some t => t.open (s.cycleOf (coreOf k)) && s.teamRuns t && t.pc == s.cur.pc && s.passes k t i))
  if s.affords s.cur.core s.cur.bough (s.price s.cur.core i l) then l else []

/-- A wide issue pays its price; its bough's reservation ends, and its wait count where a thread that was held short of amber is among
those that issue (R351, R353, R354). -/
def State.charge (s : State) (i : Instr) (lanes : List Nat) : State :=
  if !i.isWide || lanes.isEmpty then s
  else
    let p := s.price s.cur.core i lanes
    s.updCore s.cur.core (fun c =>
      { c.updBough s.cur.bough (fun b => if b.short.any (fun k => lanes.contains k) then { b with wait := 0 } else b) with
        pool := c.pool - p
        resv := if c.resv = some s.cur.bough then none else c.resv })

/-! ### A lane's part of a word -/

/-- What a word does on one lane: its register and flag writes, the operations it issues, the walks it caches, the grid it
asks for, and where it goes if not to the next word. -/
structure Fx where
  th : Thread → Thread := fun t => t
  ops : List Op := []
  tlb : List Tlb := []
  req : Option GReq := none
  jump : Option DWord := none

/-- The outcome of a word on one lane: its effect; a fault with its address, AUX and access kind; a host translation to wait
for, to write or not (R335). -/
inductive LaneRes where
  | ok (fx : Fx)
  | fault (code : BitVec 8) (va aux : DWord) (w : Bool)
  | ask (vpn : Nat) (w : Bool)

/-- The same, with guard and checks taken in; a lane that waits for the host keeps the number of its issue (R415). -/
inductive LaneOut where
  | off
  | ok (fx : Fx)
  | fault (f : LFault)
  | ask (vpn : Nat) (w : Bool) (iss : Nat)

/-- Free numbers one lane of an issue may use (log 5). -/
def laneFree : Nat := 4096

/-- The number of the issue that a lane's word belongs to: the one it left to wait for the host, or that of this issue (R415). -/
def State.issOf (s : State) (slot : Nat) : Nat := (s.late.find? slot).getD s.nextOp

/-- A lane goes on from its word: no answer of the host and no issue left behind stand any longer. -/
def State.onward (s : State) (slot : Nat) : State :=
  let s := s.usedAnswer (.lane slot)
  if s.late.isEmpty then s else { s with late := s.late.erase slot }

/-- One lane of an issue: landing check, deferred faults, guard, then the word (R161, R198, R156). -/
def State.laneOut (s : State) (i : Instr) (gd : Thread → Bool) (f : Lane → LaneRes) (base slot : Nat) (t : Thread) : LaneOut :=
  if !landingOk i t then .fault ⟨slot, 0x04, t.pc, t.pc, 0, 0, false, false, none⟩
  else
    match deferHit i t with
    | some d => .fault ⟨slot, d.code, t.pc, d.pc, d.va, 0, d.cls != .ld, false, some d⟩
    | none =>
      if !gd t then .off
      else
        match f ⟨{ s with fresh := base + 3072 }, slot, t, base⟩ with
        | .ok fx => .ok { fx with ops := fx.ops.map (fun o => { o with dep := s.depOf slot (i.opSrcs t) }) }
        | .fault c va aux w => .fault ⟨slot, c, t.pc, t.pc, va, aux, w, false, none⟩
        | .ask vpn w => .ask vpn w (s.issOf slot)

/-- What an issue left: the state, the lanes on which the word took effect, and those whose guard was false. -/
structure Issued where
  s : State
  took : List Nat
  off : List Nat
  faults : List LFault

/-- A lane asks for a grid and is held until it is created (R177). -/
def State.askGrid (s : State) (slot : Nat) (r : GReq) : State :=
  { s.updThread slot (fun t => { t with hold := .glaunch s.nextEnt }) with
    greqs := s.greqs ++ [{ r with id := s.nextEnt, after := s.nextOp }], nextEnt := s.nextEnt + 1 }

/-- A lane's outcome takes effect. -/
def State.applyLane (s : State) (slot : Nat) (o : LaneOut) : State :=
  match o with
  | .off => (s.onward slot).updThread slot (fun t => t.next)
  | .fault _ => s.onward slot
  | .ask vpn w iss =>
    State.askHost { (s.usedAnswer (.lane slot)).updThread slot (fun t => { t with hold := .xlate vpn }) with late := s.late.put slot iss }
      (.lane slot) (s.partOf slot) vpn w
  | .ok fx =>
    let s := (s.onward slot).updThread slot (fun t => match fx.jump with
      | none => (fx.th t).next
      | some pc => (fx.th t).setPc pc)
    let s := fx.ops.foldl (fun s o => s.issueOp o) s
    let s := match fx.req with
      | none => s
      | some r => s.askGrid slot r
    { s with tlb := s.tlb ++ fx.tlb.filter (fun t => !s.tlb.contains t) }

/-- The outcomes of the lanes of an issue, all from the state before it. -/
def State.outcomes (s : State) (i : Instr) (gd : Thread → Bool) (f : Lane → LaneRes) : Nat → List Nat → List (Nat × LaneOut)
  | _, [] => []
  | base, k :: ks =>
    match s.thread? k with
    | none => outcomes s i gd f (base + laneFree) ks
    | some t => (k, s.laneOut i gd f base k t) :: outcomes s i gd f (base + laneFree) ks

def LaneOut.isOk : LaneOut → Bool
  | .ok _ => true
  | _ => false

def LaneOut.isOff : LaneOut → Bool
  | .off => true
  | _ => false

def faultsOf : List (Nat × LaneOut) → List LFault
  | [] => []
  | (_, .fault f) :: l => f :: faultsOf l
  | _ :: l => faultsOf l

/-- What the results of a word on a lane were computed from, by the lane's thread before the word (R229). -/
def State.noteDep (s : State) (i : Instr) (slot : Nat) (t : Thread) : State :=
  ((i.flows t).map (fun f => (f.2, s.depOf slot f.1))).foldl (fun s f => s.setDeps slot f.1 f.2) s

/-- The same on the lanes that took it; `s0` is the state before the word. -/
def State.noteDeps (s s0 : State) (i : Instr) (outs : List (Nat × LaneOut)) : State :=
  if s.deps.isEmpty then s
  else (outs.filter (fun e => e.2.isOk)).foldl (fun s e => match s0.thread? e.1 with
    | none => s
    | some t => s.noteDep i e.1 t) s

/-- The word on its lanes: effects in lane order, then the faults by sub-group (R36, R362). -/
def State.runLanes (s : State) (i : Instr) (gd : Thread → Bool) (f : Lane → LaneRes) : Issued :=
  let lanes := s.issueSet i
  let outs := s.outcomes i gd f s.fresh lanes
  let s1 := (outs.foldl (fun s e => s.applyLane e.1 e.2) (s.charge i lanes)).noteDeps s i outs
  let s2 := { s1 with fresh := s1.fresh + laneFree * lanes.length }
  let fl := faultsOf outs
  ⟨s2.fault s.cur.core s.cur.bough fl, (outs.filter (fun e => e.2.isOk)).map (·.1), (outs.filter (fun e => e.2.isOff)).map (·.1), fl⟩

/-- Lanes whose step bit is set trap after the word they retired: they park at the next PC with 0x60 (R369). -/
def State.stepTrapsOn (s : State) (core bough : Nat) (pc : DWord) (lanes : List Nat) : State :=
  s.fault core bough (lanes.filterMap (fun k => match s.thread? k with
    | none => none
    | some t => if t.step && t.st == .ready && t.hold == .none then some ⟨k, 0x60, t.pc, pc, 0, 0, false, false, none⟩ else none))

/-- The same for the lanes of the issue. -/
def State.stepTraps (s : State) (pc : DWord) (lanes : List Nat) : State := s.stepTrapsOn s.cur.core s.cur.bough pc lanes

/-- A word that completes as it issues, on every lane that takes it. -/
def State.issue (s : State) (i : Instr) (gd : Thread → Bool) (f : Lane → LaneRes) : Host.Outcome State Fault Refusal :=
  let r := s.runLanes i gd f
  .next (r.s.stepTraps s.cur.pc (r.took ++ r.off))

/-- A lane's part that only writes registers and flags. -/
def regFx (f : Lane → Thread → Thread) (l : Lane) : LaneRes := .ok { th := f l }

end Sys2Proof.Machine
end

