-- ==== Sys2Proof/Machine/Float.lean ====
section
/-!
DEFINITION. The meanings of majors 0x20 to 0x35: floating point, packed halves, conversions, dot products (05 R119 to R134).
-/

namespace Sys2Proof.Machine

/-! ### Immediates in float positions (R64) -/

/-- An integer immediate as a value. -/
def immV (v : BitVec 8) : FV := intV v.toInt

/-- An immediate converted exactly to a format. -/
def immBits (f : FFmt) (v : BitVec 8) : Nat := (round f .rne false (immV v)).1

/-- A scalar f32 source. -/
def Lane.srcF (l : Lane) (pos : Nat) (x : Src) : Word :=
  match x with
  | .imm v => BitVec.ofNat 32 (immBits .f32 v)
  | x => l.src32 pos x

/-- A source of two packed 16-bit elements. -/
def Lane.srcH (l : Lane) (pos : Nat) (f : FFmt) (x : Src) : Word :=
  match x with
  | .imm v => BitVec.ofNat 32 (immBits f v + 2 ^ 16 * immBits f v)
  | x => l.src32 pos x

/-- A source of elements in a slot's format: an immediate is converted in a scalar float position, stands in both elements
of a packed 16-bit float, and is its sign-extended pattern otherwise (R64). -/
def Lane.srcSlot (l : Lane) (pos : Nat) (scalar : Bool) (f : NFmt) (x : Src) : Word :=
  match x, f with
  | .imm v, .fl .f32 => BitVec.ofNat 32 (immBits .f32 v)
  | .imm v, .fl .f16 => BitVec.ofNat 32 (immBits .f16 v + if scalar then 0 else 2 ^ 16 * immBits .f16 v)
  | .imm v, .fl .bf16 => BitVec.ofNat 32 (immBits .bf16 v + if scalar then 0 else 2 ^ 16 * immBits .bf16 v)
  | x, _ => l.src32 pos x

/-! ### A lane's part, by shape -/

/-- A 32-bit result with flags (R109, R123). -/
def Thread.fresult (t : Thread) (d : Dst) (r : Word × Fl) : Thread := (t.result false d (r.1.setWidth 64)).orFl r.2

def fop2 (f : Rm → Word → Word → Word × Fl) (x : F2) (l : Lane) (t : Thread) : Thread :=
  t.fresult x.d (f x.rm (l.srcF 0 x.a) (l.srcF 1 x.b))

def fscale2 (x : F2) (l : Lane) (t : Thread) : Thread := t.fresult x.d (fscaleOf x.rm (l.srcF 0 x.a) (l.src32 1 x.b))

def fma3 (x : F3) (l : Lane) (t : Thread) : Thread := t.fresult x.d (ffmaOf x.rm (l.srcF 0 x.a) (l.srcF 1 x.b) (l.srcF 2 x.c))

def fop2n (f : Word → Word → Word × Fl) (x : F2n) (l : Lane) (t : Thread) : Thread :=
  t.fresult x.d (f (l.srcF 0 x.a) (l.srcF 1 x.b))

def fcmp2 (x : FcmpArg) (l : Lane) (t : Thread) : Thread :=
  let r := fcmpOf x.cond (l.srcF 0 x.a) (l.srcF 1 x.b)
  (t.setPred x.p r.1 |>.setLat (if r.1 then 1 else 0)).orFl r.2

def fop1 (f : Word → Word × Fl) (x : F1) (l : Lane) (t : Thread) : Thread := t.fresult x.d (f (l.srcF 0 x.a))

def fop1r (f : Rm → Word → Word × Fl) (x : F1r) (l : Lane) (t : Thread) : Thread := t.fresult x.d (f x.rm (l.srcF 0 x.a))

def hfma3 (f : FFmt) (x : F3) (l : Lane) (t : Thread) : Thread :=
  t.fresult x.d (packed2 f x.rm (fun a b c => ffma x.rm a b c) (l.srcH 0 f x.a) (l.srcH 1 f x.b) (l.srcH 2 f x.c))

def halfFmt (bf : Bool) : FFmt := if bf then .bf16 else .f16

/-- HADD2, HMUL2: no third operand. -/
def hop2 (f : Rm → FV → FV → FV × Fl) (x : H2) (l : Lane) (t : Thread) : Thread :=
  let h := halfFmt x.bf
  t.fresult x.d (packed2 h x.rm (fun a b _ => f x.rm a b) (l.srcH 0 h x.a) (l.srcH 1 h x.b) 0)

def doth (x : Doth) (l : Lane) (t : Thread) : Thread :=
  let h := halfFmt x.bf
  let a := l.srcH 0 h x.a
  let b := l.srcH 1 h x.b
  let d := l.src32 3 x.d.toSrc
  t.fresult x.d.toDst (dotSteps (d, readFl .f32 d.toNat) (.fl h) (.fl h)
    ((List.range 2).map (fun k => (elemBits 16 k a, elemBits 16 k b, some 0))))

/-! ### Slots (R118, R119) -/

/-- The format of a slot of the lane's grid; none when it is empty. -/
def Lane.slotFmt (l : Lane) (k : FSlot) : Option NFmt := Sys2Proof.Machine.slotFmt (lrFmt (l.s.lrecOf l.t) k.toNat)

/-- 0x07 at issue (R119). -/
def slotFault : LaneRes := .fault 0x07 0 0 false

/-- CVT (R131). Direction 0 reads the slot's format, direction 1 writes it; e8m0 is a source only. -/
def cvt1 (x : CvtArg) (l : Lane) : LaneRes :=
  match l.slotFmt x.slot with
  | none => slotFault
  | some f =>
    if x.toSlot then
      if f = .scale then slotFault
      else
        let a : Nat := if x.rt.wide then (l.src 0 true x.a).toNat else (l.srcSlot 0 true (RTy.fmt x.rt) x.a).toNat
        let r := convert (RTy.fmt x.rt) f (a % 2 ^ (RTy.fmt x.rt).width) x.rm x.sat
        .ok { th := fun t => (t.result false x.d (BitVec.ofNat 64 r.1)).orFl r.2 }
    else
      let a := (l.srcSlot 0 true f x.a).toNat
      let r := convert f (RTy.fmt x.rt) (a % 2 ^ f.width) x.rm x.sat
      .ok { th := fun t => (t.result x.rt.wide x.d (BitVec.ofNat 64 r.1)).orFl r.2 }

/-- The element of a slot of width 4 to 16 that an index names; none where R119 faults. -/
def elemAt (f : Option NFmt) (scale : Bool) (e : BitVec 3) : Option NFmt :=
  match f with
  | none => none
  | some g => if g.width ≤ 16 ∧ (scale || g != .scale) ∧ e.toNat < 32 / g.width then some g else none

/-- PACK (R132). An immediate B of an f16 or bf16 slot is its sign-extended pattern, into which the element goes as into a
register: R64 and R132 do not say whether it is a plain pattern or two packed halves (log 78: DESIGN CHOICE). -/
def pack1 (x : PackArg) (l : Lane) : LaneRes :=
  match elemAt (l.slotFmt x.slot) false x.e with
  | none => slotFault
  | some f =>
    let a := l.srcF 0 x.a
    let r := convert (.fl .f32) f a.toNat x.rm x.sat
    let b := l.src32 1 x.b
    .ok { th := fun t => t.fresult x.d (setBits b (f.width * x.e.toNat) f.width r.1, r.2) }

/-- UNPACK (R132): exact, NaN canonical. -/
def unpack1 (x : UnpackArg) (l : Lane) : LaneRes :=
  match elemAt (l.slotFmt x.slot) true x.e with
  | none => slotFault
  | some f =>
    let b := elemBits f.width x.e.toNat (l.srcSlot 0 false f x.a)
    .ok { th := fun t => t.fresult x.d ((roundF32 .rne (elemV f b)).1, elemFl f b) }

/-- FMTQ (R133). -/
def fmtq1 (x : FmtqArg) (l : Lane) : LaneRes :=
  match (l.slotFmt x.slot).bind fmtqMax with
  | none => slotFault
  | some e => .ok { th := fun t => t.fresult x.d (fmtqOf e (l.srcF 0 x.a), 0) }

/-- The formats DOT8 and DOT4 admit (R134). -/
def dotAdmits (w : Nat) (f : NFmt) : Bool :=
  if w = 8 then f == .fl .e4m3 || f == .fl .e5m2 || f == .int 8 true || f == .int 8 false
  else f == .fl .e2m1 || f == .int 4 true || f == .int 4 false

/-- DOT8 and DOT4 (R134). -/
def dotN (w : Nat) (x : DotArg) (l : Lane) : LaneRes :=
  match l.slotFmt x.sa, l.slotFmt x.sb with
  | some fa, some fb =>
    if !(dotAdmits w fa && dotAdmits w fb) then slotFault
    else
      let a := l.src32 0 x.a
      let b := l.src32 1 x.b
      let d := l.src32 3 x.d.toSrc
      let k := match x.s with
        | none => some 0
        | some z =>
          let v := l.src32 2 z
          addExp (scaleExp (v.toNat % 256)) (scaleExp (v.toNat / 256 % 256))
      let r := dotSteps (d, readFl .f32 d.toNat) fa fb ((List.range (32 / w)).map (fun i => (elemBits w i a, elemBits w i b, k)))
      .ok { th := fun t => t.fresult x.d.toDst r }
  | _, _ => slotFault

/-! ### The meanings -/

/-- FADD (R124). -/
def execFadd (x : F2) (s : State) : Host.Outcome State Fault Refusal := s.issue (.fadd x) x.gd.holds (regFx (fop2 faddOf x))

/-- FSUB (R124). -/
def execFsub (x : F2) (s : State) : Host.Outcome State Fault Refusal := s.issue (.fsub x) x.gd.holds (regFx (fop2 fsubOf x))

/-- FMUL (R124). -/
def execFmul (x : F2) (s : State) : Host.Outcome State Fault Refusal := s.issue (.fmul x) x.gd.holds (regFx (fop2 fmulOf x))

/-- FFMA (R124). -/
def execFfma (x : F3) (s : State) : Host.Outcome State Fault Refusal := s.issue (.ffma x) x.gd.holds (regFx (fma3 x))

/-- FDIV (R124). -/
def execFdiv (x : F2) (s : State) : Host.Outcome State Fault Refusal := s.issue (.fdiv x) x.gd.holds (regFx (fop2 fdivOf x))

/-- FSCALE (R124). -/
def execFscale (x : F2) (s : State) : Host.Outcome State Fault Refusal := s.issue (.fscale x) x.gd.holds (regFx (fscale2 x))

/-- FMIN (R125). -/
def execFmin (x : F2n) (s : State) : Host.Outcome State Fault Refusal := s.issue (.fmin x) x.gd.holds (regFx (fop2n (fminmaxOf false) x))

/-- FMAX (R125). -/
def execFmax (x : F2n) (s : State) : Host.Outcome State Fault Refusal := s.issue (.fmax x) x.gd.holds (regFx (fop2n (fminmaxOf true) x))

/-- FCMP (R126). -/
def execFcmp (x : FcmpArg) (s : State) : Host.Outcome State Fault Refusal := s.issue (.fcmp x) x.gd.holds (regFx (fcmp2 x))

/-- FCLASS (R127). -/
def execFclass (x : F1) (s : State) : Host.Outcome State Fault Refusal := s.issue (.fclass x) x.gd.holds (regFx (fop1 (fun a => (fclassOf a, 0)) x))

/-- FRCP (R128). -/
def execFrcp (x : F1r) (s : State) : Host.Outcome State Fault Refusal := s.issue (.frcp x) x.gd.holds (regFx (fop1r frcpOf x))

/-- FSQRT (R128). -/
def execFsqrt (x : F1r) (s : State) : Host.Outcome State Fault Refusal := s.issue (.fsqrt x) x.gd.holds (regFx (fop1r fsqrtOf x))

/-- FRSQ (R128). -/
def execFrsq (x : F1) (s : State) : Host.Outcome State Fault Refusal := s.issue (.frsq x) x.gd.holds (regFx (fop1 frsqOf x))

/-- FEXP2 (R128). -/
def execFexp2 (x : F1) (s : State) : Host.Outcome State Fault Refusal := s.issue (.fexp2 x) x.gd.holds (regFx (fop1 fexp2Of x))

/-- FLOG2 (R128). -/
def execFlog2 (x : F1) (s : State) : Host.Outcome State Fault Refusal := s.issue (.flog2 x) x.gd.holds (regFx (fop1 flog2Of x))

/-- FSIN (R128). -/
def execFsin (x : F1) (s : State) : Host.Outcome State Fault Refusal := s.issue (.fsin x) x.gd.holds (regFx (fop1 (trigOf 0) x))

/-- FCOS (R128). -/
def execFcos (x : F1) (s : State) : Host.Outcome State Fault Refusal := s.issue (.fcos x) x.gd.holds (regFx (fop1 (trigOf 1) x))

/-- FTANH (R128). -/
def execFtanh (x : F1) (s : State) : Host.Outcome State Fault Refusal := s.issue (.ftanh x) x.gd.holds (regFx (fop1 ftanhOf x))

/-- HFMA2 (R129). -/
def execHfma2 (x : F3) (s : State) : Host.Outcome State Fault Refusal := s.issue (.hfma2 x) x.gd.holds (regFx (hfma3 .f16 x))

/-- BFMA2 (R129). -/
def execBfma2 (x : F3) (s : State) : Host.Outcome State Fault Refusal := s.issue (.bfma2 x) x.gd.holds (regFx (hfma3 .bf16 x))

/-- HADD2 (R129). -/
def execHadd2 (x : H2) (s : State) : Host.Outcome State Fault Refusal := s.issue (.hadd2 x) x.gd.holds (regFx (hop2 fadd x))

/-- HMUL2 (R129). -/
def execHmul2 (x : H2) (s : State) : Host.Outcome State Fault Refusal := s.issue (.hmul2 x) x.gd.holds (regFx (hop2 (fun _ => Sys2Proof.Machine.fmul) x))

/-- DOTH2 (R130). -/
def execDoth2 (x : Doth) (s : State) : Host.Outcome State Fault Refusal := s.issue (.doth2 x) x.gd.holds (regFx (doth x))

/-- CVT (R131). -/
def execCvt (x : CvtArg) (s : State) : Host.Outcome State Fault Refusal := s.issue (.cvt x) x.gd.holds (cvt1 x)

/-- PACK (R132). -/
def execPack (x : PackArg) (s : State) : Host.Outcome State Fault Refusal := s.issue (.pack x) x.gd.holds (pack1 x)

/-- UNPACK (R132). -/
def execUnpack (x : UnpackArg) (s : State) : Host.Outcome State Fault Refusal := s.issue (.unpack x) x.gd.holds (unpack1 x)

/-- FMTQ (R133). -/
def execFmtq (x : FmtqArg) (s : State) : Host.Outcome State Fault Refusal := s.issue (.fmtq x) x.gd.holds (fmtq1 x)

/-- DOT8 (R134). -/
def execDot8 (x : DotArg) (s : State) : Host.Outcome State Fault Refusal := s.issue (.dot8 x) x.gd.holds (dotN 8 x)

/-- DOT4 (R134). -/
def execDot4 (x : DotArg) (s : State) : Host.Outcome State Fault Refusal := s.issue (.dot4 x) x.gd.holds (dotN 4 x)

end Sys2Proof.Machine
end

