-- ==== Sys2Proof/Machine/Reach.lean ====
section
/-!
DEFINITION. How a lane's access reaches its bytes: addresses and the checks made at issue, in the order of R196 (08 R179 to
R182, R196; 10 R226; 17 R397), and the operation it issues.
-/

namespace Sys2Proof.Machine

/-! ### Scopes (R226, R230) -/

/-- The scope an instruction acts at: itself, `.tenant` under demotion, none where the policy denies it. -/
def State.scopeOf (s : State) (part : Nat) (sc : Scope) : Option Scope :=
  let field (lo : Nat) : Option Scope :=
    let v := bits (s.part part).policy lo 2
    if v = 0 then some sc else if v = 1 then some .tenant else none
  match sc with
  | .dev => field 0
  | .sys => field 2
  | .fab => field 4
  | _ => some sc

/-- The scope's domain is wider than the L1 domain of a core (R183, R230). -/
def State.beyondL1 (s : State) (core : Nat) (sc : Scope) : Bool :=
  match sc with
  | .team => false
  | .core => false
  | .grove => !(s.grove (groveOf core)).fused
  | _ => true

/-! ### Addresses (R179, R180) -/

/-- The address of a memory operand in its space. -/
def Lane.addr (l : Lane) (sp : Space) (base : Base) (off : Src) : DWord :=
  let o := (l.src32 1 off).signExtend 64
  match sp with
  | .g => l.base true base + o
  | _ => low32 (l.base false base + o)

/-- The bytes lie inside the team's own region (R180). -/
def Team.holds (m : Team) (off n : Nat) : Bool := decide (m.argp ≤ off) && decide (off + n ≤ m.argp + m.region)

/-- The place of a scratchpad address; none where it faults at issue (R180). -/
def Lane.scrPlace (l : Lane) (x n : Nat) : Option Place :=
  let core := x / 2 ^ 18 % 32
  let off := x % 2 ^ 18
  if x / 2 ^ 24 ≠ 0 ∨ scrBytes < off + n then none
  else if x / 2 ^ 23 % 2 = 0 then
    match l.s.team? l.t.team with
    | none => none
    | some m => if core = 0 && m.holds off n then some (.scr (coreOf l.slot) off false) else none
  else if core < coresPerGrove then some (.scr (groveOf (coreOf l.slot) * coresPerGrove + core) off true)
  else none

/-- A window access finds its bytes in the region of a team of the same grid on the named core (R180). -/
def State.windowHit (s : State) (slot core off n : Nat) : Bool :=
  match s.thread? slot with
  | none => false
  | some t => match s.team? t.team with
    | none => false
    | some mine => s.teams.any (fun e => e.2.core == core && e.2.grid == mine.grid && e.2.holds off n)

/-- The scratchpad access of an operation finds its bytes when it arrives. -/
def State.arrives (s : State) (slot n : Nat) (p : Place) : Bool :=
  match p with
  | .scr core off win => !win || s.windowHit slot core off n
  | _ => true

/-! ### Translation at issue (R196 steps 4 and 5) -/

/-- Where an access leads at issue. -/
inductive Found where
  | here (p : Place) (tlb : List Tlb)
  | fault (code : BitVec 8)
  | ask (vpn : Nat) (w : Bool)

def Lane.part (l : Lane) : Nat := l.s.partOf l.slot

/-- The reduction window that holds an address: its number and offset (R397). -/
def Partition.rwinAt (p : Partition) (va : Nat) : Option (Nat × Nat) :=
  let inside (n : Nat) : Bool :=
    let r := p.rwin.get 0 n
    let size := 2 ^ max 16 (min 40 (bits r 64 6))
    let base := bits r 73 55
    bit r 63 && decide (base ≤ va) && decide (va < base + size)
  (firstBelow 4 inside).map (fun n => (n, va - bits (p.rwin.get 0 n) 73 55))

/-- A translated access of `n` bytes at a virtual address. -/
def Lane.globalAt (l : Lane) (va n : Nat) (need : Need) (hostPath : Bool := true) : Found :=
  let (s', x) := l.s.translate (.lane l.slot) l.part va need hostPath
  match x with
  | .fault c => .fault c
  | .ask vpn => .ask vpn (need == .write)
  | .tier10 => .here .later []
  | x => if 2 ^ x.pageLog < va % 2 ^ x.pageLog + n then .fault 0x10 else .here x.place (s'.tlb.drop l.s.tlb.length)

/-- The virtual address a constant-block offset stands for (R328). -/
def Lane.constVa (l : Lane) (k : Nat) : Nat := lrCblk (l.s.lrecOf l.t) + k

/-- The range fault of a space (R179). -/
def Lane.rangeFault (l : Lane) (sp : Space) (va n : Nat) : Option (BitVec 8) :=
  match sp with
  | .g => if 2 ^ 55 ≤ va then some 0x12 else none
  | .s => if (l.scrPlace va n).isNone then some 0x18 else none
  | .k => if lrClen (l.s.lrecOf l.t) < va + n then some 0x12 else none

/-- Where an address in range leads. -/
def Lane.find (l : Lane) (sp : Space) (va n : Nat) (need : Need) (hostPath : Bool := true) : Found :=
  match sp with
  | .g => l.globalAt va n need hostPath
  | .k => l.globalAt (l.constVa va) n .read
  | .s => match l.scrPlace va n with
    | none => .fault 0x18
    | some p => .here p []

/-- The address an operation carries: the translated one for the constant block. -/
def Lane.opVa (l : Lane) (sp : Space) (va : DWord) : DWord :=
  match sp with
  | .k => BitVec.ofNat 64 (l.constVa va.toNat)
  | _ => va

/-! ### Operations -/

/-- A new operation of a lane. -/
def Lane.op (l : Lane) (cls : Cls) (kind : OpKind) (va : DWord) (p : Place) (n : Nat) (marks : List RegId) : Op where
  id := 0
  slot := l.slot
  part := l.part
  pc := l.t.pc
  cls := cls
  kind := kind
  va := va
  place := p
  n := n
  marks := marks
  rel := none
  acq := none
  l1 := none
  held := none
  hva := 0
  failed := none
  arb := 1
  since := l.s.cycleOf (coreOf l.slot)
  after := 0
  todo := pieces va.toNat n
  buf := List.replicate n 0
  sent := false
  viaCxl := false
  iss := l.s.issOf l.slot
  dep := 0
  again := false
  shown := false
  bypass := false
  stood := false
  heated := []
  got := 0

/-- What an access asks for besides its bytes. -/
structure Want where
  cls : Cls
  kind : OpKind
  sp : Space
  need : Need
  /-- LDA, STL, ATOM and RED must be aligned (R196 step 1). -/
  aligned : Bool := false
  scope : Option Scope := none
  acq : Bool := false
  rel : Bool := false
  marks : List RegId := []
  hostPath : Bool := true

/-- The checks of R196 on one lane, and the operation; `more` is step 6. -/
def Lane.access (l : Lane) (w : Want) (va : DWord) (n : Nat) (more : Place → Option (BitVec 8)) : LaneRes :=
  let wr := w.need == .write
  let ova := l.opVa w.sp va
  if w.aligned && va.toNat % n != 0 then .fault 0x10 ova 0 wr
  else
    match l.rangeFault w.sp va.toNat n with
    | some c => .fault c ova 0 wr
    | none =>
      let sc := match w.scope with
        | none => some Scope.team
        | some sc => l.s.scopeOf l.part sc
      match sc with
      | none => .fault 0x14 ova 0 wr
      | some sc =>
        match l.find w.sp va.toNat n w.need w.hostPath with
        | .fault c => .fault c ova 0 wr
        | .ask vpn w => .ask vpn w
        | .here p tlb =>
          match more p with
          | some c => .fault c ova 0 wr
          | none =>
            let o := l.op w.cls w.kind ova p n w.marks
            .ok { ops := [{ o with acq := if w.acq then some sc else none, rel := if w.rel then some sc else none,
                                   bypass := l.s.behindHeld o }], tlb := tlb }

end Sys2Proof.Machine
end

