-- ==== Sys2Proof/Machine/Perform.lean ====
section
/-!
DEFINITION. Performing an outstanding access: when it may be, what it reads and writes, and how it ends (08 R183, R189,
R190, R193, R197 to R202; 10 R228, R232, R235; 17 R393, R397).
-/

namespace Sys2Proof.Machine

/-! ### Order among the operations of a lane (R232, R235; log 12) -/

def OpKind.forwards : OpKind → Bool
  | .load .. | .store .. => true
  | _ => false

def OpKind.isLoad : OpKind → Bool
  | .load .. => true
  | _ => false

/-- The scope covers the memory of the device alone (R230). -/
def devScope (sc : Option Scope) : Bool := match sc with
  | none => false
  | some sc => decide (sc.code.toNat ≤ 5)

/-- The scope leaves the memory of an operation out: a host page from `.dev` inwards, a page of another package from `.sys` inwards
(R230, R237, R255). -/
def leavesOut (sc : Option Scope) (o : Op) : Bool :=
  (devScope sc && o.onHost) || (sc == some .sys && o.onFar)

/-- One of two operations lies in memory that the scope which would order them leaves out. -/
def outOfScope (sc : Option Scope) (o p : Op) : Bool := leavesOut sc o || leavesOut sc p

/-- An operation of the same lane that must end before another is performed. `early`: the question is only whether it may
become visible in its L1 domain; `near`: the other's release reaches no further than that domain, where stores seen are enough. A
store seen there holds up no plain access of its bytes, unless an overflow has held it (R190). -/
def holdsUp (early near : Bool) (o p : Op) : Bool :=
  p.slot == o.slot && decide (p.id < o.id) && o.kind.inPo
    && ((p.kind.inPo && overlaps o p && !((early || o.kind.isLoad) && o.kind.forwards && p.seen && !p.stood))
      || (p.acq.isSome && !outOfScope p.acq o p)
      || (o.rel.isSome && p.kind.ordered && !(near && p.seen) && !outOfScope o.rel o p))

/-- The release of an operation stays within the L1 domain of its core (R230). -/
def State.nearRel (s : State) (o : Op) : Bool := match o.rel with
  | none => false
  | some sc => !s.beyondL1 (coreOf o.slot) sc

/-- Nothing of its own lane holds an operation up, nor, for a release that reaches beyond the L1 domain, a store that the lane read
early (R236). -/
def State.mayGo (s : State) (early : Bool) (o : Op) : Bool :=
  o.held.isNone && !s.ops.any (holdsUp early (s.nearRel o) o)
    && (o.rel.isNone || s.nearRel o || outOfScope o.rel o o || !s.earlyBelow o.slot o.id)

/-- The operation may be performed now. -/
def State.mayPerform (s : State) (o : Op) : Bool := s.mayGo false o

/-! ### Stores seen early in an L1 domain (R183, R238) -/

/-- An outstanding plain store to device memory by a thread of a domain; held ones only where the domain has been shown them
(R190, R232). -/
def State.storesOf (s : State) (dom : Nat) : List Op :=
  s.ops.filter (fun p => s.domain (coreOf p.slot) == dom && (p.held.isNone || p.shown) && (match p.kind, p.place with
    | .store .., .dev .. => true
    | _, _ => false))

/-- A fence within the L1 domain has ordered a store of its thread (R203). -/
def State.fencedNear (s : State) (o : Op) : Bool := match s.thread? o.slot with
  | none => false
  | some t => decide (o.id < max t.fRel.near t.fAr.near)

/-- The store reaches its L1; it stays seen there once a release within the domain follows it. -/
def State.stampStore (s : State) (id : Nat) : State :=
  { s.updOp id (fun p => { p with l1 := some s.stamp, shown := p.shown || s.fencedNear p }) with stamp := s.stamp + 1 }

/-- The stores of a thread below a number that may reach its L1 do so, in order, and stay seen there. -/
def State.letPass (s : State) (slot n : Nat) : State :=
  let s := ((s.storesOf (s.domain (coreOf slot))).filter (fun p => p.slot == slot && decide (p.id < n) && p.l1.isNone)).foldl (fun s p =>
    if s.mayGo true p then s.stampStore p.id else s) s
  if s.ops.any (fun p => p.slot == slot && decide (p.id < n) && p.seen && !p.shown) then
    { s with ops := s.ops.map (fun p => if p.slot == slot && decide (p.id < n) && p.seen then { p with shown := true } else p) }
  else s

/-- The same before an operation whose release stays within the L1 domain (R200). -/
def State.letRelease (s : State) (o : Op) : State := if s.nearRel o then s.letPass o.slot o.id else s

/-- A store reaches the L1 when it may. -/
def State.reachL1 (s : State) (p : Op) : State :=
  let s := s.letRelease p
  if s.mayGo true p then s.stampStore p.id else s

/-- A load's own earlier stores to its bytes reach the L1 before it; those of others may (R183, R199). -/
def State.letSee (s : State) (o : Op) : State :=
  ((s.storesOf (s.domain (coreOf o.slot))).filter (fun p => overlaps o p && p.l1.isNone)).foldl (fun s p =>
    if p.slot == o.slot && p.id < o.id then s.reachL1 p
    else
      let (s, b) := s.pick true false
      if b then s.reachL1 p else s) s

/-- The stores of other threads that a load's pieces find in the L1 before they are performed (R238). -/
def State.earlyStores (s : State) (o : Op) (l : List (Nat × Nat)) : List Nat :=
  ((s.storesOf (s.domain (coreOf o.slot))).filter (fun p => p.slot != o.slot && p.l1.isSome && (match o.place, p.place with
    | .dev a .., .dev b .. => l.any (fun x => p.todo.any (fun y => meet (a + x.1) x.2 (b + y.1) y.2))
    | _, _ => false))).map (·.id)

/-- Stores that another thread has read early stay seen in the domain (R232). -/
def State.show (s : State) (w : List Nat) : State :=
  { s with ops := s.ops.map (fun p => if w.contains p.id then { p with shown := true } else p) }

/-- A load notes them: a later release of its thread follows them too (R229). -/
def State.noteEarly (s : State) (o : Op) (l : List (Nat × Nat)) : State :=
  let w := s.earlyStores o l
  if w.isEmpty then s
  else (s.show w).updThread o.slot (fun t =>
    { t with early := t.early.filter (fun e => (s.op? e.2).isSome) ++ w.map (fun i => (o.id, i)) })

/-- A fragment access notes them until a WAIT sees it complete (R240). -/
def State.noteEarlyTl (s : State) (o : Op) (l : List (Nat × Nat)) : State :=
  let w := s.earlyStores o l
  if w.isEmpty then s
  else (s.show w).updThread o.slot (fun t => { t with earlyTl := t.earlyTl.filter (fun i => (s.op? i).isSome) ++ w })

/-- The stores a domain sees, newest first: stamp, address, bytes of each piece still to be performed. -/
def State.seenStores (s : State) (dom : Nat) : List (Nat × Nat × List Byte) :=
  let l := (s.storesOf dom).flatMap (fun p => match p.kind, p.place, p.l1 with
    | .store data _, .dev pa .., some n => p.todo.map (fun x => (n, pa + x.1, (data.drop x.1).take x.2))
    | _, _, _ => [])
  l.insertionSort (fun a b => b.1 ≤ a.1)

/-- A store seen in its domain comes before a write that shares bytes with it. -/
def seenBefore (o p : Op) : Bool :=
  p.id != o.id && overlaps o p && p.l1.isSome && (match o.l1, p.l1 with
    | some a, some b => decide (b < a)
    | _, _ => true)

/-- An older store of the same domain, seen there and sharing bytes, is still to be performed. -/
def State.olderSeen (s : State) (o : Op) : Bool := (s.storesOf (s.domain (coreOf o.slot))).any (seenBefore o)

/-! ### Translating again after a hold (R190, R339) -/

def Op.need (o : Op) : Need := match o.kind with
  | .load .. | .clean | .frag false .. => .read
  | _ => .write

/-- The report of a lane's operation to the fault buffer by the thread, copy or matrix engine; the manual gives the source
word of the last two no meaning, so it is free (R268). -/
def State.reportOp (s : State) (o : Op) (engine : Nat) (code : BitVec 8) (wr : Bool) (va : DWord) : State × Nat :=
  if engine == 0 then
    s.report o.part ⟨code, 0, wr, some (coreOf o.slot), boughOf o.slot, 2 ^ (slotNo o.slot % 32), va, o.pc⟩
  else (s.takeFresh 1).report o.part ⟨code, engine, wr, some (coreOf o.slot), 0, (Config.freeWord s.fresh).toNat, va, 0⟩

end Sys2Proof.Machine

namespace Sys2Proof
open Sys2Proof.Machine

/-- The operations that are PCIe AtomicOps (R202). -/
def AOp.pcie : AOp → Bool
  | .add | .xchg | .cas => true
  | _ => false

end Sys2Proof

namespace Sys2Proof.Machine

/-- The partition's atomics can fall back on CXL.cache: AFB is 1 and the port carries CXL (R202, R393). -/
def State.canFallBack (s : State) (part : Nat) : Bool := (s.part part).afb && (s.portOf (s.ldOf part)).mode == .cxl

def OpKind.atomArgs : OpKind → Option (AOp × Bool × DWord × DWord × Option LDst)
  | .atom d dbl op b c => some (op, dbl, b, c, d)
  | .red dbl op b => some (op, dbl, b, 0, none)
  | _ => none

/-- An atomic that a host page takes: by an AtomicOp, or through CXL.cache ownership; none where neither serves it (R202, R393). -/
def State.hostRoute (s : State) (part : Nat) (k : OpKind) : Option Bool :=
  match k.atomArgs with
  | none => some false
  | some (op, _) => if op.pcie then some false else if s.canFallBack part then some true else none

/-- An operation with its place known: as it stands, or translated afresh; else what became of it: held, faulted, or waiting
for the host. A write that is found to be to a host page ends its team's interval (R382). One that meets 0x11 now,
performed again for a replay or translating afresh, is held under its record, since no thread takes 0x11 deferred (R198, log 68). -/
def State.placed (s : State) (o : Op) : State × Option Op :=
  if o.place ≠ .later ∧ o.again = false then (s, some o)
  else
    let (s, x) := s.translate (.op o.slot o.id) o.part o.va.toNat o.need (!o.kind.wholeLine)
    match x with
    | .fault c =>
      if c == 0x11 then
        let (s, idx) := s.reportOp o 0 c (o.need == .write) o.va
        (s.holdOp o idx, none)
      else (s.deferOp o c o.va, none)
    | .ask vpn => (s.askHost (.op o.slot o.id) o.part vpn (o.need == .write), none)
    | .tier10 => (s.finishOp o, none)
    | x =>
      let onHost := match x with
        | .host _ _ => true
        | _ => false
      match if onHost then s.hostRoute o.part o.kind else some false with
      | none => (s.deferOp o 0x15 o.va, none)
      | some cxl =>
        let o' := { o with place := x.place, again := false, viaCxl := cxl }
        let s := (s.usedAnswer (.op o.slot o.id)).updOp o.id (fun p => { p with place := x.place, again := false, viaCxl := cxl })
        (if onHost && o.need == .write then (match s.teamOf o.slot with
          | none => s
          | some m => s.endRecov m) else s, some o')

/-! ### Pieces (R228) -/

/-- The pieces performed now: all that remain, or a free one of several. -/
def State.somePieces (s : State) (o : Op) : State × List (Nat × Nat) :=
  if o.todo.length ≤ 1 then (s, o.todo)
  else
    let k := Config.freeNat s.fresh % (o.todo.length + 1)
    (s.takeFresh 1, match o.todo[k]? with
      | none => o.todo
      | some p => [p])

/-- Bytes put at an offset of a buffer. -/
def splice (buf : List Byte) (off : Nat) (bs : List Byte) : List Byte := buf.take off ++ bs ++ buf.drop (off + bs.length)

/-! ### Scratchpad writes and the threads that wait on a barrier object (R211, R212, R222) -/

/-- A barrier object. -/
structure BarObj where
  phase : Word
  remaining : Nat
  count : Nat
  pending : Int
  valid : Bool
  deriving DecidableEq, Repr

def State.barAt (s : State) (core off : Nat) : BarObj :=
  let v := leNat (Memory.readN s.scr (scrKey core off) 16)
  { phase := BitVec.ofNat 32 v
    remaining := v / 2 ^ 32 % 2 ^ 16
    count := v / 2 ^ 48 % 2 ^ 16
    pending := intOf 32 true (v / 2 ^ 64 % 2 ^ 32)
    valid := v / 2 ^ 96 == 1 }

/-- BARW returns: an acquire at .dev (R222). A lane whose step bit is set then traps (R369). -/
def State.barReturn (s : State) (slot : Nat) : State :=
  match s.thread? slot with
  | none => s
  | some t =>
    let s := s.setThread slot { t.next with st := .ready, bwait := none, acqStamp := s.stamp }
    State.stepTrapsOn { s with stamp := s.stamp + 1 } (coreOf slot) (boughOf slot) t.pc [slot]

/-- The thread waits on an object that shares bytes with a write, and whose phase is no longer the one it waits on. -/
def State.barLeft (s : State) (slot : Nat) (t : Thread) (core off n : Nat) : Bool :=
  t.st == .waiting && (match t.bwait with
    | none => false
    | some (x, ph) =>
      let (c, o) := scrTarget (coreOf slot) x
      c == core && meet o 16 off n && (s.barAt c o).phase != ph)

/-- Bytes written in a scratchpad by whatever means; every thread whose phase has ended thereby becomes ready (R206, R222). -/
def State.scrWrite (s : State) (core off : Nat) (bs : List Byte) : State :=
  let s := { s with scr := Memory.writeN s.scr (scrKey core off) bs }
  (s.threads.filter (fun e => s.barLeft e.1 e.2 core off bs.length)).foldl (fun s e => s.barReturn e.1) s

/-- The access of an operation at a slice, to read or write: its request is counted once for a line (R340). -/
def State.accOf (s : State) (o : Op) (wr : Bool) (pa key : Nat) (comp : Bool) (bix : Nat) (he : Bool) (hint : Hint) : Acc :=
  let counted := match s.op? o.id with
    | none => false
    | some p => p.heated.contains (lineOf pa + b2n wr)
  ⟨o.part, pa, key, comp, bix, he && !counted, hint, s.teamOf o.slot⟩

/-- The request of an operation at a line has been counted. -/
def State.noteHeat (s : State) (o : Op) (wr : Bool) (a : Acc) : State :=
  if a.he then s.updOp o.id (fun p => { p with heated := (lineOf a.pa + b2n wr) :: p.heated }) else s

/-- `n` bytes read at a place for a load, and the fill stamp of their data. -/
def State.readPiece (s : State) (o : Op) (acq off n : Nat) (hint : Hint) : State × Except (BitVec 8) (List Byte × Nat) :=
  match o.place with
  | .dev pa key comp bix he =>
    let dom := s.domain (coreOf o.slot)
    let a := s.accOf o false (pa + off) key comp bix he hint
    let seen := s.seenStores dom
    let from' (s : State) (v : List Byte) (fill : Nat) : State × Except (BitVec 8) (List Byte × Nat) :=
      let forwarded := (List.range n).all (fun i => seen.any (fun st =>
        decide (st.2.1 ≤ a.pa + i) && decide (a.pa + i < st.2.1 + st.2.2.length)))
      (s, .ok (overlay seen (pa + off) n v, if forwarded then 0 else fill))
    if o.bypass then
      match s.devRead a n with
      | (s, .error c) => (s, .error c)
      | (s, .ok v) => from' ((s.noteHeat o false a).l1DropLine dom a.pa) v s.stamp
    else
      match s.l1Read dom (max acq o.dep) a n with
      | (s, .error c) => (s, .error c)
      | (s, .ok g) => from' (if g.miss then s.noteHeat o false a else s) g.bytes g.fill
  | .host ld addr => (s, .ok (Memory.readN s.host (ld * 2 ^ 64 + addr + off) n, s.stamp))
  | .scr core off' _ => (s, .ok (Memory.readN s.scr (scrKey core (off' + off)) n, s.stamp))
  | _ => (s, .ok (List.replicate n 0, 0))

/-- Bytes written at a place; `false` on a compression overflow. -/
def State.writePiece (s : State) (o : Op) (off : Nat) (bs : List Byte) (hint : Hint) : State × Bool :=
  match o.place with
  | .dev pa key comp bix he =>
    let a := s.accOf o true (pa + off) key comp bix he hint
    let (s, ok) := s.devWrite a bs
    let s := s.noteHeat o true a
    (if ok then s.l1Store (s.domain (coreOf o.slot)) (pa + off) bs hint else s, ok)
  | .host ld addr => ({ s with host := Memory.writeN s.host (ld * 2 ^ 64 + addr + off) bs }, true)
  | .scr core off' _ => (s.scrWrite core (off' + off) bs, true)
  | _ => (s, true)

/-! ### Ends of operations -/

/-- An acquire beyond the L1 domain that completes: no later load of its thread hits a sector filled before (R183). -/
def State.acquired (s : State) (o : Op) : State :=
  let wide := match o.acq with
    | none => false
    | some sc => s.beyondL1 (coreOf o.slot) sc
  { s.updThread o.slot (fun t => if wide then { t with acqStamp := s.stamp } else t) with stamp := s.stamp + 1 }

/-- A loaded value as its destination takes it (R82, R195, R199). -/
def loadValue (mw : MW) (sx : Bool) (bs : List Byte) : Nat :=
  let v := leNat bs
  let n := 8 * mw.bytes
  if sx && decide (2 ^ (n - 1) ≤ v) then v + 2 ^ 32 - 2 ^ n else v

/-- A loaded value written by operation `born`. -/
def Thread.loaded (t : Thread) (born : Nat) (d : LDst) (mw : MW) (v : Nat) : Thread :=
  match d with
  | .o i => t.setO i.toNat (BitVec.ofNat 64 v)
  | .g i => (List.range ((mw.bytes + 3) / 4)).foldl (fun t j =>
      t.wrG false (some born) (i.toNat + j) (BitVec.ofNat 32 (v / 2 ^ (32 * j)))) t

/-- Poll (R201): `now` is the cycle. -/
def Thread.polled (t : Thread) (now : Nat) (pc : DWord) (v : Nat) : Thread :=
  let y := if t.poll = some (pc, v) then min (t.ylevel + 1) 7 else 0
  { t with ylevel := y, poll := some (pc, v),
           pollUntil := if 0 < y ∧ t.st ≠ .waiting ∧ t.st ≠ .parked then some (now + 32 * 2 ^ y) else t.pollUntil }

/-- A load's pieces: read in turn, into its buffer. -/
def State.readPieces (s : State) (o : Op) (acq : Nat) (hint : Hint) : List (Nat × Nat) → State × Except (BitVec 8) Op
  | [] => (s, .ok o)
  | (off, n) :: l =>
    let (s, r) := s.readPiece o acq off n hint
    match r with
    | .error c => (s, .error c)
    | .ok (v, fill) =>
      readPieces s { o with buf := splice o.buf off v, todo := o.todo.filter (fun p => p.1 != off), got := max o.got fill } acq hint l

/-- A load performs pieces, and completes with the last (R197, R199). -/
def State.performLoad (s : State) (o : Op) : State :=
  match o.kind with
  | .load d mw sx yld hint =>
    let s0 := s.letSee o
    if !s0.mayPerform o then s
    else
      match s0.placed o with
      | (s, none) => s
      | (s, some o) =>
        if !s.arrives o.slot o.n o.place then s.deferOp o 0x18 o.va
        else
          let acq := ((s.thread? o.slot).map (·.acqStamp)).getD 0
          let (s, l) := s.somePieces o
          let (s, r) := s.readPieces o acq hint l
          match r with
          | .error c => s.deferOp o c o.va
          | .ok o' =>
            let s := s.noteEarly o l
            if !o'.todo.isEmpty then s.updOp o.id (fun p => { p with buf := o'.buf, todo := o'.todo, got := o'.got })
            else
              let v := loadValue mw sx o'.buf
              let s := s.updThread o.slot (fun t =>
                let t := t.loaded o.id d mw v
                if yld then t.polled (s.cycleOf (coreOf o.slot)) o.pc v else t)
              let s := s.setDeps o.slot (d.ids mw) (max o.dep o'.got)
              (s.acquired o).finishOp o
  | _ => s

/-- A store's pieces: written in turn; those left when one overflows. -/
def State.writePieces (s : State) (o : Op) (data : List Byte) (hint : Hint) : List (Nat × Nat) → State × Option (Nat × Nat)
  | [] => (s, none)
  | (off, n) :: l =>
    let (s', ok) := s.writePiece o off ((data.drop off).take n) hint
    if ok then writePieces (s'.updOp o.id (fun p => { p with todo := p.todo.filter (fun q => q.1 != off) })) o data hint l
    else (s', some (off, n))

/-- A write that overflows is held in the fault buffer (R190); where its L1 domain has been shown it, it stays seen there (R232). -/
def State.holdWrite (s : State) (o : Op) (off : Nat) : State :=
  let (s, idx) := s.reportOp o 0 0x13 true (o.va + BitVec.ofNat 64 off)
  let s := s.updOp o.id (fun p => { p with held := some idx, again := true, stood := true, l1 := if p.shown then p.l1 else none })
  { s with ops := s.ops.map (fun p =>
      if p.slot == o.slot && decide (o.id < p.id) && p.kind.inPo && overlaps p { o with stood := true } then { p with bypass := true } else p) }

/-- A store performs pieces, and ends with the last (R189, R190, R345). -/
def State.performStore (s : State) (o : Op) : State :=
  match o.kind with
  | .store data hint =>
    let s := s.letRelease o
    if !s.mayPerform o || s.olderSeen o then s
    else
      match s.placed o with
      | (s, none) => s
      | (s, some o) =>
        if !s.arrives o.slot o.n o.place then s.deferOp o 0x18 o.va
        else
          let (s, l) := s.somePieces o
          let (s, rest) := s.writePieces o data hint l
          match rest with
          | some (off, _) => s.holdWrite o off
          | none =>
            match s.op? o.id with
            | none => s
            | some p => if p.todo.isEmpty then s.finishOp p else s
  | _ => s

/-! ### Atomics (R202, R393, R397) -/

end Sys2Proof.Machine

namespace Sys2Proof
open Sys2Proof.Machine

/-- The new value of an atomic; none when `.cas` writes nothing. -/
def AOp.apply (op : AOp) (dbl : Bool) (old b c : DWord) : Option DWord :=
  let w := if dbl then 64 else 32
  let z (v : DWord) : Nat := v.toNat % 2 ^ w
  let sg (v : DWord) : Int := intOf w true (z v)
  let out (v : DWord) : DWord := extW dbl v
  match op with
  | .add => some (out (old + b))
  | .and => some (out (old &&& b))
  | .or => some (out (old ||| b))
  | .xor => some (out (old ^^^ b))
  | .mins => some (out (if sg b < sg old then b else old))
  | .maxs => some (out (if sg old < sg b then b else old))
  | .minz => some (out (if z b < z old then b else old))
  | .maxz => some (out (if z old < z b then b else old))
  | .xchg => some (out b)
  | .cas => if z old = z c then (if z b = z old then none else some (out b)) else none
  | .fadd => some ((faddOf .rne (old.setWidth 32) (b.setWidth 32)).1.setWidth 64)
  | .inc => some (out (if z b ≤ z old then 0 else old + 1))
  | .dec => some (out (if z old = 0 ∨ z b < z old then b else old - 1))

end Sys2Proof

namespace Sys2Proof.Machine

/-- One indivisible step at an atomic's place: the old value; an error met; or an overflow. It bypasses the L1 (R183), and the sector
that its domain holds of the place leaves it, so that no later load finds data older than what was read or written (R232 to R234,
R238). -/
inductive AtomRes where
  | done (old : DWord)
  | error (code : BitVec 8)
  | overflow

def State.atomStep (s : State) (o : Op) (op : AOp) (dbl : Bool) (b c : DWord) : State × AtomRes :=
  let n := if dbl then 8 else 4
  let put (s : State) (o' : Op) (old : DWord) : State × AtomRes :=
    match op.apply dbl old b c with
    | none => (s, .done old)
    | some v =>
      let (s, ok) := s.writePiece o' 0 (leBytes n v.toNat) .none
      (s, if ok then .done old else .overflow)
  match o.place with
  | .dev pa key comp bix he =>
    let a := s.accOf o false pa key comp bix he .none
    let (s, r) := s.devRead a n
    match r with
    | .error e => (s, .error e)
    | .ok v => put ((s.noteHeat o false a).l1DropSector (s.domain (coreOf o.slot)) pa) { o with place := .dev pa key comp bix false }
        (BitVec.ofNat 64 (leNat v))
  | .host ld addr => put s o (BitVec.ofNat 64 (leNat (Memory.readN s.host (ld * 2 ^ 64 + addr) n)))
  | .scr core off _ => put s o (BitVec.ofNat 64 (leNat (Memory.readN s.scr (scrKey core off) n)))
  | _ => (s, .done 0)

/-- The atomic is performed at its place, and completes (R202). -/
def State.doAtom (s : State) (o : Op) : State :=
  match o.kind.atomArgs with
  | none => s
  | some (op, dbl, b, c, d) =>
    let (s, r) := s.atomStep o op dbl b c
    match r with
    | .error e => s.deferOp o e o.va
    | .overflow => s.holdWrite o 0
    | .done old =>
      let s := match d with
        | none => s
        | some d => (s.updThread o.slot (fun t => t.loaded o.id d (if dbl then .d else .w) old.toNat)).setDeps o.slot (d.ids (wOf dbl)) s.stamp
      (s.acquired o).finishOp o

/-- The reduction window that combinations belong to: the register's, or with V = 0 the last that it held (R397). -/
def Partition.window (p : Partition) (n : Nat) : BitVec 128 := if bit (p.rwin.get 0 n) 63 then p.rwin.get 0 n else p.rwas.get 0 n

/-- The number of contributions a reduction window combines (R397). -/
def State.redN (s : State) (part n : Nat) : Nat := bits ((s.part part).window n) 0 8

/-- A contribution to a reduction window goes to the switches (R397). -/
def State.contribute (s : State) (part n : Nat) (op : AOp) (dbl : Bool) (va : Nat) (b : DWord) : State :=
  let same (r : RedPart) : Bool := r.part == part && r.n == n && r.addr == va && r.op == op && r.dbl == dbl
    && decide (r.count < s.redN part n) && r.held.isNone
  if s.redparts.any same then
    { s with redparts := s.redparts.map (fun r =>
        if same r then { r with val := (op.apply dbl r.val b 0).getD r.val, count := r.count + 1 } else r) }
  else { s with redparts := s.redparts ++ [⟨part, n, va, op, dbl, b, 1, none⟩] }

/-- A lower lane of the same issue has its AtomicOp unfinished, or still waits for the host's translation or, performed again, for room
or its place: they are performed one lane at a time, in lane order (R415). -/
def State.laneBefore (s : State) (o : Op) : Bool :=
  s.ops.any (fun p => p.iss == o.iss && decide (p.slot < o.slot) && p.kind.atomArgs.isSome && (p.onHost || decide (p.place = .later)))
    || s.threads.any (fun e => decide (e.1 < o.slot) && (match e.2.hold with
      | .replay p => p.iss == o.iss && p.kind.atomArgs.isSome
      | _ => false))
    || s.late.any (fun e => e.2 == o.iss && decide (e.1 < o.slot))

/-- An ATOM or RED at its place: performed there, sent to the host, or handed to the switches. -/
def State.performAtom (s : State) (o : Op) : State :=
  let s := s.letRelease o
  if !s.mayPerform o || o.sent || s.olderSeen o then s
  else
    match s.placed o with
    | (s, none) => s
    | (s, some o) =>
      if !s.arrives o.slot o.n o.place then s.deferOp o 0x18 o.va
      else
        match o.place, o.kind.atomArgs with
        | .host _ _, _ => if s.laneBefore o then s else s.updOp o.id (fun p => { p with sent := true })
        | .rwin part n _, some (op, dbl, b, _, _) => (s.contribute part n op dbl o.va.toNat b).finishOp o
        | _, _ => s.doAtom o

/-! ### DISC and CLEAN (R205) -/

def State.performLine (s : State) (o : Op) : State :=
  if !s.mayPerform o then s
  else
    match s.placed o with
    | (s, none) => s
    | (s, some o) =>
      match o.place.acc o.part 0 .none none with
      | none => s.finishOp o
      | some a =>
        match o.kind with
        | .disc => (s.discard (groveOf (coreOf o.slot)) a).finishOp o
        | _ => (s.clean a).finishOp o

end Sys2Proof.Machine
end

