-- ==== Sys2Proof/Machine/MemInstr.lean ====
section
/-!
DEFINITION. The meanings of majors 0x50 to 0x59: loads, stores, atomics, fences, prefetches, line operations (08 R194 to R205),
and of the events that perform them.
-/

namespace Sys2Proof.Machine

/-! ### Rollback intervals (R382) -/

def OpKind.barrier : OpKind → Bool
  | .bari _ | .bara _ | .barx _ => true
  | _ => false

/-- An operation that ends its team's interval: a write to another core's scratchpad or to a host page, or a barrier operation through
the grove window, whatever core it names. -/
def Op.crosses (o : Op) : Bool := o.need == .write && (match o.place with
  | .scr core _ win => win && (o.kind.barrier || core != coreOf o.slot)
  | .host _ _ => true
  | _ => false)

def State.endIntervals (s : State) (slots : List Nat) : State :=
  slots.foldl (fun s k => match s.teamOf k with
    | none => s
    | some m => s.endRecov m) s

/-- The intervals that a word ends: those of `always`'s lanes, and of lanes that issued a crossing operation. -/
def State.noteIntervals (s : State) (from' : Nat) (always : List Nat) : State :=
  (s.endIntervals always).endIntervals ((s.ops.filter (fun o => decide (from' ≤ o.id) && o.crosses)).map (·.slot))

/-- A memory word: issued on its lanes; `ends` when it always ends a rollback interval. -/
def State.issueMem (s : State) (i : Instr) (gd : Thread → Bool) (ends : Bool) (f : Lane → LaneRes) :
    Host.Outcome State Fault Refusal :=
  let r := s.runLanes i gd f
  .next ((r.s.noteIntervals s.nextOp (if ends then r.took else [])).stepTraps s.cur.pc (r.took ++ r.off))

/-! ### A lane's part -/

/-- A load of width `mw` (R199, R200). -/
def Lane.loadAt (l : Lane) (d : LDst) (mw : MW) (sp : Space) (sx yld : Bool) (hint : Hint) (acq : Option Scope) (va : DWord) :
    LaneRes :=
  l.access { cls := .ld, kind := .load d mw sx yld hint, sp := sp, need := .read, aligned := acq.isSome, scope := acq,
             acq := acq.isSome, marks := d.ids mw } va mw.bytes (fun _ => none)

/-- The bytes a store writes (R195). -/
def Lane.storeData (l : Lane) (mw : MW) (x : Src) : List Byte :=
  match mw, x with
  | .q, .g i => (List.range 4).flatMap (fun j => leBytes 4 (l.g 3 (i.toNat + j)).toNat)
  | mw, x => leBytes mw.bytes (l.src 3 mw.wide x).toNat

/-- A store of width `mw` (R199, R200). -/
def Lane.storeAt (l : Lane) (mw : MW) (sp : Space) (hint : Hint) (rel : Option Scope) (data : Src) (va : DWord) : LaneRes :=
  l.access { cls := .st, kind := .store (l.storeData mw data) hint, sp := sp, need := .write, aligned := rel.isSome,
             scope := rel, rel := rel.isSome } va mw.bytes (fun _ => none)

def ldFx (x : LdArg) (l : Lane) : LaneRes := l.loadAt x.d x.w x.sp x.sx x.yld x.hint none (l.addr x.sp x.base x.off)

def ldaFx (x : LdaArg) (l : Lane) : LaneRes := l.loadAt x.d x.w x.sp false x.yld x.hint (some x.scope) (l.addr x.sp x.base x.off)

def stFx (x : StArg) (l : Lane) : LaneRes := l.storeAt x.w x.sp x.hint none x.data (l.addr x.sp x.base x.off)

def stlFx (x : StlArg) (l : Lane) : LaneRes := l.storeAt x.w x.sp x.hint (some x.scope) x.data (l.addr x.sp x.base x.off)

/-- The operations the switches combine (R397). -/
def combines : AOp → Bool
  | .add | .fadd | .mins | .maxs | .minz | .maxz => true
  | _ => false

/-- ATOM and RED on one lane (R196, R202, R397): `red` for RED. -/
def Lane.atomAt (l : Lane) (red scr dbl : Bool) (op : AOp) (order : Order) (scope : Scope) (d : Option LDst) (va b c : DWord) :
    LaneRes :=
  let win := if scr then none else (l.s.part l.part).rwinAt va.toNat
  let step6 (p : Place) : Option (BitVec 8) :=
    match win, p with
    | some _, _ => if red && combines op then none else some 0x15
    | none, .host _ _ => if op.pcie || l.s.canFallBack l.part then none else some 0x15
    | _, _ => none
  let r := l.access {
    cls := if red then .st else .ld
    kind := if red then .red dbl op b else .atom d dbl op b c
    sp := if scr then .s else .g
    need := .write
    aligned := true
    scope := some scope
    acq := order = .acq ∨ order = .ar
    rel := order = .rel ∨ order = .ar
    marks := optIds (LDst.ids (wOf dbl)) d } va (if dbl then 8 else 4) step6
  match r with
  | .ok fx => .ok { fx with ops := fx.ops.map (fun o =>
      match win, o.place with
      | some (n, off), _ => { o with place := .rwin l.part n off }
      | none, .host _ _ => { o with viaCxl := !op.pcie }
      | _, _ => o) }
  | r => r

/-- The B operand of an atomic: under `.fadd` its position is a floating one, where an immediate is converted (R64, R202). -/
def Lane.atomB (l : Lane) (op : AOp) (w : Bool) (b : Src) : DWord := if op = .fadd then (l.srcF 1 b).setWidth 64 else l.src 1 w b

def atomFx (x : AtomArg) (l : Lane) : LaneRes :=
  l.atomAt false x.scr x.w x.op x.order x.scope x.d (l.base (!x.scr) x.base) (l.atomB x.op x.w x.b) ((x.c.map (l.src 2 x.w)).getD 0)

def redFx (x : RedArg) (l : Lane) : LaneRes :=
  l.atomAt true x.scr x.w x.op (if x.rel then .rel else .rlx) x.scope none (l.base (!x.scr) x.base) (l.atomB x.op x.w x.b) 0

/-- FENCE (R203, R236): its scope is checked as R226 says. -/
def fenceFx (x : FenceArg) (l : Lane) : LaneRes :=
  match l.s.scopeOf l.part x.scope with
  | none => .fault 0x14 0 0 false
  | some sc =>
    let n := l.s.nextOp
    let acq := x.order != .rel
    let rel := x.order != .acq
    let far := l.s.beyondL1 (coreOf l.slot) sc
    let put (p : Bool) (v : FenceN) : FenceN :=
      if !p then v
      else if !far then { v with near := n }
      else if devScope (some sc) then { v with dev := n }
      else if sc == .sys then { v with sys := n }
      else { v with fab := n }
    .ok { th := fun t => { t with
      fRel := put rel t.fRel
      fAcq := put acq t.fAcq
      fAr := put (x.order == .ar) t.fAr
      relCore := if rel && decide (1 ≤ sc.code.toNat) then n else t.relCore
      relGrove := if rel && decide (2 ≤ sc.code.toNat) then n else t.relGrove
      relDev := if rel && decide (5 ≤ sc.code.toNat) then n else t.relDev
      renew := t.renew || (acq && far)
      acqStamp := if acq && far then l.s.stamp else t.acqStamp } }

/-- The line a PREF names, when its access would not fault (R204). -/
def Lane.prefLine (l : Lane) (sp : Space) (va : Nat) (hint : Hint) : Option Acc :=
  if (l.rangeFault sp va 1).isSome then none
  else
    match l.find sp va 1 .read false with
    | .here p _ => p.acc l.part 0 hint none
    | _ => none

/-- The line is brought into the slice, and all of it into the L1 (R186, R204). -/
def State.prefetch (s : State) (core : Nat) (l2 : Bool) (a : Acc) : State :=
  let bad := match s.l2.find? (s.l2Key a) with
    | some ln => ln.poison || ln.err
    | none => (a.comp && s.misKeyed a) || s.bad.get false (s.memAt (lineOf a.pa))
  if bad then s
  else
    let s := (s.touch a).1
    if l2 then s
    else
      let dom := s.domain core
      (List.range 4).foldl (fun s i =>
        let b := a.at (lineOf a.pa + 32 * i)
        if (s.l1.find? (l1Key dom b.pa)).isSome then s.l1Hint dom b.pa b.hint else s.l1Fill dom b) s

/-- DISC and CLEAN on one lane (R196, R205): NOP on a tier-10 page. -/
def Lane.lineAt (l : Lane) (disc : Bool) (va : DWord) : LaneRes :=
  let r := l.access { cls := .st, kind := if disc then .disc else .clean, sp := .g, need := if disc then .write else .read,
                      hostPath := false } va 1 (fun _ => none)
  match r with
  | .ok fx => .ok { fx with ops := (fx.ops.filter (fun o => o.place != .later)).map (fun o => { o with arb := if disc then 1 else 3 }) }
  | r => r

/-! ### The meanings -/

/-- LD (R199). -/
def execLd (x : LdArg) (s : State) : Host.Outcome State Fault Refusal := s.issueMem (.ld x) x.gd.holds false (ldFx x)

/-- ST (R199). -/
def execSt (x : StArg) (s : State) : Host.Outcome State Fault Refusal := s.issueMem (.st x) x.gd.holds false (stFx x)

/-- The scope is wider than `.team` after demotion, on the issuing core's partition (R382). -/
def State.widerThanTeam (s : State) (sc : Scope) : Bool :=
  match s.scopeOf ((s.partOfCore s.cur.core).getD 0) sc with
  | some .team => false
  | _ => true

/-- LDA (R200). -/
def execLda (x : LdaArg) (s : State) : Host.Outcome State Fault Refusal := s.issueMem (.lda x) x.gd.holds false (ldaFx x)

/-- STL (R200). -/
def execStl (x : StlArg) (s : State) : Host.Outcome State Fault Refusal :=
  s.issueMem (.stl x) x.gd.holds (s.widerThanTeam x.scope) (stlFx x)

/-- ATOM (R202). -/
def execAtom (x : AtomArg) (s : State) : Host.Outcome State Fault Refusal :=
  s.issueMem (.atom x) x.gd.holds (s.widerThanTeam x.scope) (atomFx x)

/-- RED (R202). -/
def execRed (x : RedArg) (s : State) : Host.Outcome State Fault Refusal :=
  s.issueMem (.red x) x.gd.holds (s.widerThanTeam x.scope) (redFx x)

/-- FENCE (R203). -/
def execFence (x : FenceArg) (s : State) : Host.Outcome State Fault Refusal :=
  let r := s.runLanes (.fence x) x.gd.holds (fenceFx x)
  let ends := x.order != .acq && s.widerThanTeam x.scope
  let s1 := r.s.noteIntervals s.nextOp (if ends then r.took else [])
  let s2 := if x.order == .acq then s1 else r.took.foldl (fun z k =>
    match s.scopeOf (s.partOf k) x.scope with
    | none => z
    | some sc => if s.beyondL1 (coreOf k) sc then z else z.letPass k s.nextOp) s1
  .next (s2.stepTraps s.cur.pc (r.took ++ r.off))

/-- PREF (R204). -/
def execPref (x : PrefArg) (s : State) : Host.Outcome State Fault Refusal :=
  let sp := if x.konst then Space.k else Space.g
  let r := s.runLanes (.pref x) x.gd.holds (fun _ => .ok {})
  let lines := r.took.filterMap (fun k => (s.thread? k).bind (fun t =>
    let l : Lane := ⟨s, k, t, s.fresh⟩
    l.prefLine sp (l.addr sp x.base x.off).toNat x.hint))
  .next ((lines.foldl (fun s a => s.prefetch s.cur.core x.l2 a) r.s).stepTraps s.cur.pc (r.took ++ r.off))

/-- DISC (R205). -/
def execDisc (x : LineArg) (s : State) : Host.Outcome State Fault Refusal :=
  s.issueMem (.disc x) x.gd.holds true (fun l => l.lineAt true (l.addr .g x.base x.off))

/-- CLEAN (R205). -/
def execClean (x : LineArg) (s : State) : Host.Outcome State Fault Refusal :=
  s.issueMem (.clean x) x.gd.holds false (fun l => l.lineAt false (l.addr .g x.base x.off))

end Sys2Proof.Machine
end

