-- ==== Sys2Proof/Machine/Copy.lean ====
section
/-!
DEFINITION. Copies, tags and barriers: the meanings of majors 0x60 to 0x67, and the copy engine (09 R206 to R224, R433).
-/

namespace Sys2Proof.Machine

/-! ### Barrier objects (R211, R212) -/

/-- The object's 16 bytes; an invalid one is written with word 3 zero. -/
def BarObj.bytes (o : BarObj) : List Byte :=
  leBytes 4 o.phase.toNat ++ leBytes 2 o.remaining ++ leBytes 2 o.count ++ leBytes 4 (intBits 32 o.pending) ++ leBytes 4 (b2n o.valid)

/-- An object changed as a whole; threads whose phase it ends become ready (R212). -/
def State.setBar (s : State) (core off : Nat) (o : BarObj) : State :=
  s.scrWrite core off o.bytes

/-- The check of R211. -/
def BarObj.ok (o : BarObj) : Bool := o.valid && o.count != 0 && decide (o.remaining ≤ o.count)

/-- The completion test. -/
def BarObj.test (o : BarObj) : BarObj :=
  if o.remaining = 0 ∧ o.pending = 0 then { o with phase := o.phase + 1, remaining := o.count } else o

/-- An object after an operation: tested and stored, and the waiters on an ended phase woken (R212). -/
def State.barDone (s : State) (core off : Nat) (o : BarObj) : State := s.setBar core off o.test

/-- BARI's object, BARA's and BARX's change, or the fault 0x22 (R219 to R221). -/
def BarObj.arrive (o : BarObj) : Option BarObj := if o.ok && o.remaining != 0 then some { o with remaining := o.remaining - 1 } else none

def BarObj.expect (o : BarObj) (v : Nat) : Option BarObj :=
  if o.ok && decide (v < 2 ^ 31) && decide (o.pending + v < 2 ^ 31) then some { o with pending := o.pending + v } else none

/-- What a barrier operation makes of its object: the new object, or none for 0x22. -/
def OpKind.barStep (k : OpKind) (o : BarObj) : Option BarObj :=
  match k with
  | .bari c => some ⟨0, c, c, 0, true⟩
  | .bara _ => o.arrive
  | .barx v => o.expect v
  | _ => some o

/-- A barrier operation is performed at the scratchpad that holds the object (R212, R216, R433). -/
def State.performBar (s : State) (o : Op) : State :=
  let s := s.letRelease o
  if !s.mayPerform o then s
  else
    match o.place with
    | .scr core off win =>
      if win && !s.windowHit o.slot core off 16 then s.deferOp o 0x18 o.va
      else
        let b := s.barAt core off
        match o.kind.barStep b with
        | none => s.deferOp o 0x22 o.va
        | some b' =>
          let s := match o.kind with
            | .bari _ => s.setBar core off b'
            | .bara (some d) =>
              ((s.updThread o.slot (fun t => t.loaded o.id d .w b.phase.toNat)).setDeps o.slot (d.ids .w) s.stamp).barDone core off b'
            | _ => s.barDone core off b'
          (s.acquired o).finishOp o
    | _ => s

/-! ### Barrier instructions at issue (R219 to R222, R433) -/

/-- The address checks of R433, and the object's place. -/
def Lane.barPlace (l : Lane) (x : Word) : Except (BitVec 8) Place :=
  if x.toNat % 16 ≠ 0 then .error 0x10
  else match l.scrPlace x.toNat 16 with
    | none => .error 0x18
    | some p => .ok p

/-- BARI, BARA and BARX on one lane. An own object is checked here, any other where the operation is performed (R211, R433). -/
def Lane.barAt (l : Lane) (bar : Base) (kind : OpKind) (marks : List RegId) (rel : Option Scope) : LaneRes :=
  let x := l.src32 0 bar.toSrc
  let va := x.setWidth 64
  match l.barPlace x with
  | .error c => .fault c va 0 true
  | .ok p =>
    let bad := match p with
      | .scr core off false => (kind.barStep (l.s.barAt core off)).isNone
      | _ => false
    if bad then .fault 0x22 va 0 true
    else .ok { ops := [{ l.op .st kind va p 16 marks with rel := rel }] }

def bariFx (x : BarArg) (l : Lane) : LaneRes :=
  let c := (l.src32 1 x.a).toNat
  match l.barPlace (l.src32 0 x.bar.toSrc) with
  | .ok _ => if c = 0 ∨ 65535 < c then .fault 0x22 ((l.src32 0 x.bar.toSrc).setWidth 64) 0 true else l.barAt x.bar (.bari c) [] none
  | .error c => .fault c ((l.src32 0 x.bar.toSrc).setWidth 64) 0 true

def baraFx (x : BaraArg) (l : Lane) : LaneRes := l.barAt x.bar (.bara x.d) (optIds (LDst.ids .w) x.d) (some .grove)

def barxFx (x : BarArg) (l : Lane) : LaneRes := l.barAt x.bar (.barx (l.src32 1 x.a).toNat) [] none

/-- BARW on one lane: it passes, waits at its word, or faults (R222, R433). -/
def barwFx (x : BarArg) (l : Lane) : LaneRes :=
  let a := l.src32 0 x.bar.toSrc
  let ph := l.src32 1 x.a
  let va := a.setWidth 64
  match l.barPlace a with
  | .error c => .fault c va 0 false
  | .ok p =>
    match p with
    | .scr core off win =>
      if win && !l.s.windowHit l.slot core off 16 then .fault 0x18 va 0 false
      else
        let b := l.s.barAt core off
        if !b.ok then .fault 0x22 va 0 false
        else if b.phase ≠ ph then .ok { th := fun t => { t with acqStamp := l.s.stamp } }
        else .ok { th := fun t => { t with st := .waiting, bwait := some (a.toNat, ph), yieldUntil := none, pollUntil := none },
                   jump := some l.t.pc }
    | _ => .fault 0x18 va 0 false

/-- BARI (R219). -/
def execBari (x : BarArg) (s : State) : Host.Outcome State Fault Refusal := s.issueMem (.bari x) x.gd.holds false (bariFx x)

/-- BARA (R220). -/
def execBara (x : BaraArg) (s : State) : Host.Outcome State Fault Refusal := s.issueMem (.bara x) x.gd.holds false (baraFx x)

/-- BARX (R221). -/
def execBarx (x : BarArg) (s : State) : Host.Outcome State Fault Refusal := s.issueMem (.barx x) x.gd.holds false (barxFx x)

/-- BARW (R222). -/
def execBarw (x : BarArg) (s : State) : Host.Outcome State Fault Refusal := s.issueMem (.barw x) x.gd.holds false (barwFx x)

/-! ### Tag waits (R223, R224) -/

/-- WAITANY and WAITALL on a lane that passes: it observes the ready copies (R210). -/
def tagWaitFx (any : Bool) (x : TagArg) (l : Lane) : LaneRes :=
  let m := l.src 0 true x.a
  if l.s.tagsBeyond l.t.team m || (any && m == 0) then .fault 0x24 0 0 false
  else .ok { th := fun t => { t with acqStamp := l.s.stamp } }

/-- The lowest ready tag of a mask, or 64 (R224). -/
def Lane.ffr (l : Lane) (m : DWord) : Nat := ((List.range 64).find? (fun k => (l.s.tagBits l.t.team &&& m).getLsbD k)).getD 64

def ffrFx (x : FfrArg) (l : Lane) : LaneRes :=
  let m := l.src 0 true x.a
  if l.s.tagsBeyond l.t.team m then .fault 0x24 0 0 false
  else
    let k := l.ffr m
    .ok { th := fun t =>
      let t := t.result false x.d (BitVec.ofNat 64 k)
      if k < 64 then { t with acqStamp := l.s.stamp } else t }

/-- WAITANY (R223). -/
def execWaitany (x : TagArg) (s : State) : Host.Outcome State Fault Refusal := s.issue (.waitany x) x.gd.holds (tagWaitFx true x)

/-- WAITALL (R223). -/
def execWaitall (x : TagArg) (s : State) : Host.Outcome State Fault Refusal := s.issue (.waitall x) x.gd.holds (tagWaitFx false x)

/-- FFR (R224): with `.clr` the tags found are cleared. -/
def execFfr (x : FfrArg) (s : State) : Host.Outcome State Fault Refusal :=
  let r := s.runLanes (.ffr x) x.gd.holds (ffrFx x)
  let s' := if !x.clr then r.s
    else r.took.foldl (fun z k => match r.s.thread? k with
      | none => z
      | some t => z.updTeamTag t.team t.lat.toNat (fun g => { g with rdy := false })) r.s
  .next (s'.stepTraps s.cur.pc (r.took ++ r.off))

/-! ### Copies at issue (R215 to R218) -/

/-- A copy as its operands give it: rows known at issue, or an index list in the window. -/
structure CopyReq where
  dscr : Bool
  ssp : Space
  tag : Nat
  bar : Option Word
  src : Nat
  dst : Nat
  /-- Everything that must be a multiple of 16. -/
  grains : List Nat
  total : Nat
  rows : List (Nat × Nat × Nat)
  /-- CPYG: index address, rows, stride, row bytes. -/
  idx : Option (Nat × Nat × Nat × Nat)

/-- An address of a space after wrapping. -/
def wrapSp (glob : Bool) (a : Nat) : Nat := a % 2 ^ (if glob then 64 else 32)

def sgn32 (w : Word) : Int := w.toInt

/-- Base plus a signed offset, wrapped. -/
def addSp (glob : Bool) (a : Nat) (x : Int) : Nat := ((a + x) % ((2 ^ (if glob then 64 else 32) : Nat) : Int)).toNat

/-- The rows of a gathered copy, their indices given (R217). -/
def gatherRows (sg dg : Bool) (src dst st len : Nat) (idx : List Nat) : List (Nat × Nat × Nat) :=
  (List.range idx.length).map (fun j => (wrapSp sg (src + idx.getD j 0 * st), wrapSp dg (dst + j * len), len))

/-- Row indices at a scratchpad place. -/
def State.indices (s : State) (core off n : Nat) : List Nat :=
  (List.range n).map (fun j => leNat (Memory.readN s.scr (scrKey core (off + 4 * j)) 4))

def Lane.copyBases (l : Lane) (db sb : Base) (dscr : Bool) (ssp : Space) : Nat × Nat :=
  ((l.src 0 (!dscr) db.toSrc).toNat, (l.src 1 (ssp == .g) sb.toSrc).toNat)

def cpyReq (x : CpyArg) (l : Lane) : CopyReq :=
  let (d, s) := l.copyBases x.db x.sb x.dscr x.ssp
  let n := (l.src32 2 x.len).toNat
  ⟨x.dscr, x.ssp, x.tag.toNat, x.bar.map (fun b => l.src32 3 b.toSrc), s, d, [n, s, d], n, if n = 0 then [] else [(s, d, n)], none⟩

def cpytReq (x : CpydArg) (l : Lane) : CopyReq :=
  let (d, s) := l.copyBases x.db x.sb x.dscr x.ssp
  let w (j : Nat) : Word := l.g 2 (x.desc.toNat + j)
  let len := (w 0).toNat
  let n1 := (w 1).toNat
  let n2 := (w 2).toNat
  let total := len * n1 * n2
  let rows := if total = 0 ∨ 65536 < total then [] else
    (List.range n2).flatMap (fun (i2 : Nat) => (List.range n1).map (fun (i1 : Nat) =>
      (addSp (x.ssp == .g) s (i1 * sgn32 (w 3) + i2 * sgn32 (w 4)),
       addSp (!x.dscr) d (i1 * sgn32 (w 5) + i2 * sgn32 (w 6)), len)))
  ⟨x.dscr, x.ssp, x.tag.toNat, x.bar.map (fun b => l.src32 3 b.toSrc), s, d,
    [len, s, d, (w 3).toNat, (w 4).toNat, (w 5).toNat, (w 6).toNat], total, rows, none⟩

def cpygReq (x : CpydArg) (l : Lane) : CopyReq :=
  let (d, s) := l.copyBases x.db x.sb x.dscr x.ssp
  let w (j : Nat) : Nat := (l.g 2 (x.desc.toNat + j)).toNat
  let (core, off) := scrTarget (coreOf l.slot) (w 3)
  let known := w 3 / 2 ^ 23 % 2 = 0
  let total := w 0 * w 1
  let rows := if known ∧ total ≠ 0 ∧ w 1 ≤ 4096 then
      gatherRows (x.ssp == .g) (!x.dscr) s d (w 2) (w 0) (l.s.indices core off (w 1)) else []
  ⟨x.dscr, x.ssp, x.tag.toNat, x.bar.map (fun b => l.src32 3 b.toSrc), s, d, [w 0, s, d, w 2], total, rows,
    some (w 3, w 1, w 2, w 0)⟩

/-- What R218 step 3 checks of scratchpad bytes: those of the own region all of it, those through the grove window only the
core that they name. -/
def Lane.scrAtIssue (l : Lane) (a n : Nat) : Bool :=
  if a / 2 ^ 23 % 2 = 1 then a / 2 ^ 24 == 0 && decide (a / 2 ^ 18 % 32 < coresPerGrove) else (l.scrPlace a n).isSome

/-- The code of a scratchpad or constant row at issue, if it faults (R218 step 3). -/
def Lane.rowFault (l : Lane) (sp : Space) (a n : Nat) : Option (BitVec 8) :=
  match sp with
  | .g => none
  | .s => if n = 0 then none else if l.scrAtIssue a n then none else some 0x18
  | .k => if n ≠ 0 ∧ lrClen (l.s.lrecOf l.t) < a + n then some 0x12 else none

/-- The codes of the rows of a copy: 0x18 before 0x12. -/
def Lane.rowsFault (l : Lane) (dscr : Bool) (ssp : Space) (rows : List (Nat × Nat × Nat)) : Option (BitVec 8 × Nat) :=
  let f := rows.flatMap (fun r => (match l.rowFault ssp r.1 r.2.2 with
      | none => []
      | some c => [(c, r.1)])
    ++ (if dscr then match l.rowFault .s r.2.1 r.2.2 with
      | none => []
      | some c => [(c, r.2.1)] else []))
  match f.find? (fun e => e.1 == (0x18 : BitVec 8)) with
  | some e => some e
  | none => f.head?

/-- An index list out of reach at issue (R218 step 3). -/
def Lane.idxFault (l : Lane) (q : CopyReq) : Option (BitVec 8 × Nat) :=
  match q.idx with
  | some (x, n, _, _) => if n ≠ 0 ∧ !l.scrAtIssue x (4 * n) then some (0x18, x) else none
  | none => none

/-- The barrier's place and check at issue (R218 steps 3 and 4). -/
def Lane.creditFault (l : Lane) (q : CopyReq) : Option (BitVec 8 × Nat) :=
  match q.bar with
  | none => none
  | some b => match l.scrPlace b.toNat 16 with
    | none => some (0x18, b.toNat)
    | some (.scr core off false) => if (l.s.barAt core off).ok then none else some (0x22, b.toNat)
    | _ => none

/-- The checks of R218 in order. -/
def Lane.copyFault (l : Lane) (q : CopyReq) : Option (BitVec 8 × Nat) :=
  if l.s.tagCount l.t.team ≤ q.tag then some (0x24, 0)
  else if q.grains.any (fun g => g % 16 != 0) || decide (65536 < q.total) || (match q.idx with
      | some (x, n, _, _) => decide (4096 < n) || x % 4 != 0
      | none => false) || (match q.bar with
      | some b => b.toNat % 16 != 0
      | none => false) then some (0x10, q.dst)
  else
    let e (o : Option (BitVec 8 × Nat)) : List (BitVec 8 × Nat) := match o with
      | none => []
      | some x => [x]
    let known := match q.idx with
      | none => true
      | some (x, _, _, _) => x / 2 ^ 23 % 2 == 0
    let dests := match q.idx with
      | none => []
      | some (_, n, _, len) => if known ∨ !q.dscr ∨ q.total = 0 then [] else
          (List.range n).map (fun j => (0, wrapSp false (q.dst + j * len), len))
    let step3 := e (l.idxFault q) ++ (if known then e (l.rowsFault q.dscr q.ssp q.rows) else e (l.rowsFault q.dscr .g dests))
      ++ e (l.creditFault q)
    match step3.find? (fun x => x.1 == (0x18 : BitVec 8)) with
    | some x => some x
    | none => match step3.find? (fun x => x.1 == (0x12 : BitVec 8)) with
      | some x => some x
      | none => step3.head?

/-- The rows of a constant-block source by virtual address. -/
def Lane.copyRows (l : Lane) (q : CopyReq) : List (Nat × Nat × Nat) :=
  match q.ssp with
  | .k => q.rows.map (fun r => (l.constVa r.1, r.2))
  | _ => q.rows

/-- A copy on one lane. -/
def copyFx (req : Lane → CopyReq) (l : Lane) : LaneRes :=
  let q := req l
  match l.copyFault q with
  | some (c, va) => .fault c (BitVec.ofNat 64 va) 0 true
  | none =>
    let rows := l.copyRows q
    let pend := match q.idx with
      | some (x, n, st, len) => if x / 2 ^ 23 % 2 = 1 ∧ q.total ≠ 0 then some (x, n, st, len) else none
      | none => none
    let far (x : Nat) : Bool := x / 2 ^ 23 % 2 == 1
    let after := if !q.dscr || q.ssp != .s then l.t.relDev
      else if far q.src || far q.dst || q.rows.any (fun r => far r.1 || far r.2.1) then l.t.relGrove else l.t.relCore
    let o := l.op .cp (.copy rows pend q.total q.src q.dst q.dscr q.ssp q.tag (q.bar.map (·.toNat)) false)
      (BitVec.ofNat 64 q.dst) .later 0 []
    .ok { ops := [{ o with arb := 2, after := after,
                           todo := (List.range ((rows.map (fun r => r.2.2)).sum / 16)).map (fun i => (16 * i, 16)) }] }

/-! ### The copy engine (R209, R210, R213, R217, R218) -/

/-- A credit to a barrier object; the code of a lost or overrunning one. -/
def State.credit (s : State) (slot x total : Nat) : State × Option (BitVec 8) :=
  let (core, off) := scrTarget (coreOf slot) x
  if x / 2 ^ 23 % 2 = 1 ∧ !s.windowHit slot core off 16 then (s, some 0x18)
  else
    let b := s.barAt core off
    if !b.ok then (s, some 0x22)
    else if b.pending - total < -2 ^ 31 then (s.setBar core off { b with valid := false }, some 0x22)
    else (s.barDone core off { b with pending := b.pending - total }, none)

/-- A copy completes, in the steps of R210; `met` is the fault that the engine met, with its address. Where the credit fails too, the
lane takes the engine's fault alone: R213 and R218 do not say whether two are taken (log 77: DESIGN CHOICE). -/
def State.endCopy (s : State) (o : Op) (met : Option (BitVec 8 × DWord)) : State :=
  match o.kind with
  | .copy _ _ total _ _ _ _ tag bar _ =>
    let s := s.updCore (coreOf o.slot) (fun c => { c with cq := c.cq.filter (fun i => i != o.id) })
    let s := match s.teamOf o.slot with
      | none => s
      | some m => s.updTeamTag m tag (fun g => { g with rdy := if g.count = 1 then true else g.rdy, count := g.count - 1 })
    let s := s.finishOp o
    let (s, lost) := match bar with
      | none => (s, none)
      | some x => match s.credit o.slot x total with
        | (s, none) => (s, none)
        | (s, some c) => (s, some (c, BitVec.ofNat 64 x))
    match met, lost with
    | some (c, va), _ => (s.meets o.slot c va).updThread o.slot (fun t => { t with defers := t.defers ++ [⟨c, o.pc, va, .cp, [], o⟩] })
    | none, some (c, va) => s.updThread o.slot (fun t => { t with defers := t.defers ++ [⟨c, o.pc, va, .cp, [], o⟩] })
    | none, none => s
  | _ => s

/-- The row of the copy's bytes at a linear offset, and their place in it. -/
def rowAt : List (Nat × Nat × Nat) → Nat → Option (Nat × Nat × Nat)
  | [], _ => none
  | (a, b, m) :: l, off => if off < m then some (a, b, off) else rowAt l (off - m)

/-- A place an engine's access to 16 bytes of a space leads to, or what it met. -/
inductive EngineAt where
  | here (p : Place)
  | fault (code : BitVec 8)
  | ask (vpn : Nat)

/-- The place of an engine's access to byte `k` of a row, for a lane: translated, or a scratchpad checked where it arrives. A row
that runs past the end of a window core's scratchpad misses there (R180, R218). -/
def State.engineAt (s : State) (o : Op) (scr : Bool) (row k n : Nat) (need : Need) : State × EngineAt :=
  let a := row + k
  if scr then
    let (core, off) := scrTarget (coreOf o.slot) a
    let win := row / 2 ^ 23 % 2 = 1
    if win ∧ (scrBytes < row % 2 ^ 18 + k + n ∨ !s.windowHit o.slot core off n) then (s, .fault 0x18) else (s, .here (.scr core off win))
  else
    let (s, x) := s.translate (.op o.slot o.id) o.part a need
    match x with
    | .fault c => (s.usedAnswer (.op o.slot o.id), .fault c)
    | .ask vpn => (s, .ask vpn)
    | .tier10 => (s, .fault 0x16)
    | x => (s, .here x.place)

/-- Bytes an engine reads at a place, past every L1. -/
def State.engineRead (s : State) (o : Op) (p : Place) (n : Nat) : State × Except (BitVec 8) (List Byte) :=
  match p with
  | .dev pa key comp bix he =>
    let a := { s.accOf o false pa key comp bix he .none with team := none }
    let (s, r) := s.devRead a n
    (s.noteHeat o false a, r)
  | .host ld addr => (s, .ok (Memory.readN s.host (ld * 2 ^ 64 + addr) n))
  | .scr core off _ => (s, .ok (Memory.readN s.scr (scrKey core off) n))
  | _ => (s, .ok (List.replicate n 0))

/-- Bytes an engine writes at a place; `false` on an overflow. A write to a host page or to another core's scratchpad ends the
team's rollback interval (R382). The own L1 domain keeps no older copy of what the lane's engine has written (R239). -/
def State.engineStore (s : State) (o : Op) (p : Place) (bs : List Byte) : State × Bool :=
  let team := s.teamOf o.slot
  let crossed (s : State) : State := match team with
    | none => s
    | some m => s.endRecov m
  match p with
  | .dev pa key comp bix he =>
    let a := s.accOf o true pa key comp bix he .none
    let (s, ok) := s.devWrite a bs
    let s := s.noteHeat o true a
    (if ok then s.l1DropLine (s.domain (coreOf o.slot)) pa else s, ok)
  | .host ld addr => (crossed { s with host := Memory.writeN s.host (ld * 2 ^ 64 + addr) bs }, true)
  | .scr core off win =>
    let s := s.scrWrite core off bs
    (if win && core != coreOf o.slot then crossed s else s, true)
  | _ => (s, true)

/-- The frame of a host page, as the ATC gives it (R335). -/
def State.hostFrame (s : State) (part va : Nat) : Option Nat :=
  (s.atc.find? (fun a => a.ld == s.ldOf part && a.pasid == bits (s.part part).trc 43 20 && a.vpn == va / 4096)).map (·.frame)

/-- The bytes of a row by the place that holds them, as intervals: a device byte by its physical address, a scratchpad byte by core and
offset, a byte of a host page by its frame, one of a page not yet translated by its virtual address; they are kept apart by high
bits. -/
def State.rowSpans (s : State) (o : Op) (scr : Bool) (a n : Nat) : List (Nat × Nat) :=
  if scr then
    let (core, off) := scrTarget (coreOf o.slot) a
    [(2 ^ 80 + scrKey core off, n)]
  else
    (List.range (n / 4096 + 2)).filterMap (fun i =>
      let b := if i = 0 then a else (a / 4096 + i) * 4096
      let e := min (a + n) ((a / 4096 + i + 1) * 4096)
      if e ≤ b then none
      else some (match s.walk o.part b with
        | .leaf log l =>
          if pteTier l == 2 then (match s.hostFrame o.part b with
            | some f => 2 ^ 81 + f * 4096 + b % 4096
            | none => 2 ^ 82 + b)
          else pteAddr l + b % 2 ^ log
        | _ => 2 ^ 83 + b, e - b))

/-- A byte at a destination is one that the copy also reads, or writes twice: it ends unpredictable (R217). -/
def clobbered (srcs dsts : List (Nat × Nat)) (b : Nat) : Bool :=
  let on (x : Nat × Nat) : Bool := decide (x.1 ≤ b) && decide (b < x.1 + x.2)
  srcs.any on || decide (1 < (dsts.filter on).length)

/-- Which of the 16 bytes at a destination address end unpredictable. -/
def State.spoilt (s : State) (o : Op) (rows : List (Nat × Nat × Nat)) (dscr : Bool) (ssp : Space) (b : Nat) : List Bool :=
  let srcs := rows.flatMap (fun r => s.rowSpans o (ssp == .s) r.1 r.2.2)
  let dsts := rows.flatMap (fun r => s.rowSpans o dscr r.2.1 r.2.2)
  let at' := ((s.rowSpans o dscr b 16).headD (b, 16)).1
  (List.range 16).map (fun i => clobbered srcs dsts (at' + i))

/-- Free bytes where marked. -/
def freed (bad : List Bool) (fresh : Nat) (v : List Byte) : List Byte :=
  if bad.all (fun x => !x) then v
  else (List.range 16).map (fun i => if bad.getD i false then Config.freeByte (fresh + i) else v.getD i 0)

/-- The copy writes all of the destination line that holds an address, and its last piece there is the one at a linear offset. -/
def lineFilled (rows : List (Nat × Nat × Nat)) (todo : List (Nat × Nat)) (off b : Nat) : Bool :=
  let la := lineOf b
  (List.range 8).all (fun i => rows.any (fun r => decide (r.2.1 ≤ la + 16 * i) && decide (la + 16 * i < r.2.1 + r.2.2)))
    && !todo.any (fun x => x.1 != off && (match rowAt rows x.1 with
      | none => false
      | some (_, d, k) => lineOf (d + k) == la))

/-- A write of a whole line by an engine's pieces clears its error (R193). -/
def State.cleared (s : State) (o : Op) (p : Place) (whole : Bool) : State :=
  match whole, p.acc o.part 0 .none none with
  | true, some a => s.unpoison a
  | _, _ => s

/-- What became of a piece of a copy: moved; held under a record; stopped by a fault; waiting for the host. -/
inductive PieceRes where
  | moved
  | held (idx va : Nat)
  | fault (code : BitVec 8) (va : Nat)
  | waits

/-- One 16-byte piece moves (R209, R217, R218). -/
def State.movePiece (s : State) (o : Op) (rows : List (Nat × Nat × Nat)) (dscr : Bool) (ssp : Space) (off : Nat) :
    State × PieceRes :=
  match rowAt rows off with
  | none => (s, .moved)
  | some (ra, rb, k) =>
    let a := ra + k
    let b := rb + k
    let meets (s : State) (c : BitVec 8) (wr : Bool) (va : Nat) : State × PieceRes :=
      if replayable c then
        let (s, idx) := s.reportOp o 1 c wr (BitVec.ofNat 64 va)
        (s, .held idx va)
      else (s, .fault c va)
    match s.engineAt o (ssp == .s) ra k 16 .read with
    | (s, .fault c) => meets s c false a
    | (s, .ask vpn) => (s.askHost (.op o.slot o.id) o.part vpn false, .waits)
    | (s, .here p) =>
      match s.engineAt o dscr rb k 16 .write with
      | (s, .fault c) => meets s c true b
      | (s, .ask vpn) => (s.askHost (.op o.slot o.id) o.part vpn true, .waits)
      | (s, .here q) =>
        match s.engineRead o p 16 with
        | (s, .error c) => meets s c false a
        | (s, .ok v) =>
          let (s, ok) := (s.takeFresh 16).engineStore o q (freed (s.spoilt o rows dscr ssp b) s.fresh v)
          let todo := match s.op? o.id with
            | none => []
            | some p => p.todo
          if ok then (s.cleared o q (lineFilled rows todo off b), .moved) else meets s 0x13 true b

/-- Once all of a copy's host pages are translated, its bytes in frames that source and destination share are unpredictable, those of
earlier pieces too (R217). -/
def State.smear (s : State) (o : Op) (rows : List (Nat × Nat × Nat)) (dscr : Bool) (ssp : Space) : State :=
  if dscr || !rows.any (fun r => (s.rowSpans o false r.2.1 r.2.2).any (fun x => decide (2 ^ 81 ≤ x.1))) then s
  else
    rows.foldl (fun s r => (List.range (r.2.2 / 16)).foldl (fun s i =>
      let bad := s.spoilt o rows dscr ssp (r.2.1 + 16 * i)
      if bad.all (fun x => !x) then s
      else match s.engineAt o dscr r.2.1 (16 * i) 16 .write with
        | (s, .here q) => match s.engineRead o q 16 with
          | (s, .ok v) => ((s.takeFresh 16).engineStore o q (freed bad s.fresh v)).1
          | (s, .error _) => s
        | _ => s) s) s

/-- Pieces of the destination of a copy that met a fault become unpredictable (R218); those that await the host's translation remain,
and a page that it denies keeps its bytes. -/
def State.scramble (s : State) (o : Op) (dscr : Bool) (rows : List (Nat × Nat × Nat)) : List (Nat × Nat) → State × List (Nat × Nat)
  | [] => (s, [])
  | (off, n) :: l =>
    match rowAt rows off with
    | none => scramble s o dscr rows l
    | some (_, b, k) =>
      match s.engineAt o dscr b k 16 .write with
      | (s', .here p) => scramble ((s'.takeFresh 16).engineStore o p (freeBytes s'.fresh 16)).1 o dscr rows l
      | (s', .fault _) => scramble { s' with xans := s.xans } o dscr rows l
      | (s', .ask vpn) =>
        let (s', rest) := scramble (s'.askHost (.op o.slot o.id) o.part vpn true) o dscr rows l
        (s', (off, n) :: rest)

/-- The pieces of all rows of a copy. -/
def rowPieces (rows : List (Nat × Nat × Nat)) : List (Nat × Nat) :=
  (List.range ((rows.map (fun r => r.2.2)).sum / 16)).map (fun i => (16 * i, 16))

def OpKind.withRows (rows : List (Nat × Nat × Nat)) : OpKind → OpKind
  | .copy _ idx total sb db dscr ssp tag bar started => .copy rows idx total sb db dscr ssp tag bar started
  | k => k

/-- A copy with a fault goes on to its end: pieces of its destination become unpredictable, and with the last it completes (R218). -/
def State.failOn (s : State) (o : Op) (dscr : Bool) (rows : List (Nat × Nat × Nat)) (todo : List (Nat × Nat))
    (met : Option (BitVec 8 × DWord)) : State :=
  let (s, rest) := s.scramble o dscr rows todo
  let s := s.usedAnswer (.op o.slot o.id)
  if rest.isEmpty then s.endCopy o met
  else s.updOp o.id (fun p => { p with kind := p.kind.withRows rows, todo := rest, failed := met, held := none })

/-- A copy meets a fault: its whole destination is unpredictable, and it completes (R218). -/
def State.failCopy (s : State) (o : Op) (dscr : Bool) (rows : List (Nat × Nat × Nat)) (met : Option (BitVec 8 × DWord)) : State :=
  s.failOn o dscr rows (rowPieces rows) met

/-- Pieces of a copy in turn, until one is held, faults or waits. -/
def State.movePieces (s : State) (o : Op) (rows : List (Nat × Nat × Nat)) (dscr : Bool) (ssp : Space) :
    List (Nat × Nat) → State × PieceRes
  | [] => (s, .moved)
  | (off, _) :: l =>
    match s.movePiece o rows dscr ssp off with
    | (s, .moved) => movePieces (s.updOp o.id (fun p => { p with todo := p.todo.filter (fun q => q.1 != off) })) o rows dscr ssp l
    | r => r

/-- A copy moves pieces, and completes with the last (R210, R218). -/
def State.performCopy (s : State) (o : Op) : State :=
  match o.kind with
  | .copy rows _ _ _ _ dscr ssp _ _ started =>
    if !started || o.held.isSome || s.accessBelow o.slot o.after then s
    else if o.failed.isSome then s.failOn o dscr rows o.todo o.failed
    else
      let (s, l) := s.somePieces o
      match s.movePieces o rows dscr ssp l with
      | (s, .held i va) => s.updOp o.id (fun p => { p with held := some i, hva := BitVec.ofNat 64 va })
      | (s, .waits) => s
      | (s, .fault c va) => s.failCopy o dscr rows (some (c, BitVec.ofNat 64 va))
      | (s, .moved) =>
        match s.op? o.id with
        | none => s
        | some p => if p.todo.isEmpty then (s.smear o rows dscr ssp).endCopy p none else s
  | _ => s

/-- Rows of a constant-block source by virtual address. -/
def State.constRows (s : State) (slot : Nat) (ssp : Space) (rows : List (Nat × Nat × Nat)) : List (Nat × Nat × Nat) :=
  match s.thread? slot with
  | none => rows
  | some t => if ssp == .k then rows.map (fun r => (Lane.constVa ⟨s, slot, t, s.fresh⟩ r.1, r.2)) else rows

/-- The engine starts a copy: an index list in the window is read now (R218). -/
def State.startCopy (s : State) (o : Op) : State :=
  match o.kind with
  | .copy rows idx total src dst dscr ssp tag bar _ =>
    match idx with
    | none => s.updOp o.id (fun p => { p with kind := .copy rows none total src dst dscr ssp tag bar true })
    | some (x, n, st, len) =>
      let (core, off) := scrTarget (coreOf o.slot) x
      let dest := (List.range n).map (fun j => (0, wrapSp (!dscr) (dst + j * len), len))
      let started (rows : List (Nat × Nat × Nat)) : OpKind := .copy rows idx total src dst dscr ssp tag bar true
      if !s.windowHit o.slot core off (4 * n) then
        (s.updOp o.id (fun p => { p with kind := started dest })).failCopy o dscr dest (some (0x18, BitVec.ofNat 64 x))
      else
        let rows := gatherRows (ssp == .g) (!dscr) src dst st len (s.indices core off n)
        let bad := match s.thread? o.slot with
          | none => none
          | some t =>
            let l : Lane := ⟨s, o.slot, t, s.fresh⟩
            l.rowsFault dscr ssp rows
        match bad with
        | some (c, va) =>
          (s.updOp o.id (fun p => { p with kind := started dest })).failCopy o dscr dest (some (c, BitVec.ofNat 64 va))
        | none => s.updOp o.id (fun p => { p with
            kind := started (s.constRows o.slot ssp rows)
            todo := (List.range (total / 16)).map (fun i => (16 * i, 16)) })
  | _ => s

/-! ### The copy words -/

/-- A copy word: its copies enter the queue; one of no bytes completes at issue (R217). -/
def State.issueCopy (s : State) (i : Instr) (gd : Thread → Bool) (req : Lane → CopyReq) : Host.Outcome State Fault Refusal :=
  let r := s.runLanes i gd (copyFx req)
  let new := r.s.ops.filter (fun o => decide (s.nextOp ≤ o.id))
  let s' := new.foldl (fun z o =>
    let z := z.enqueueCopy o
    match o.kind with
    | .copy _ _ total _ dst dscr _ _ bar _ =>
      let other (x : Nat) : Bool := x / 2 ^ 23 % 2 == 1 && (scrTarget (coreOf o.slot) x).1 != coreOf o.slot
      let crosses := (dscr && other dst) || (match bar with
        | none => false
        | some x => other x)
      let z := if crosses then z.endIntervals [o.slot] else z
      if total = 0 then z.endCopy o none else z
    | _ => z) r.s
  .next (s'.stepTraps s.cur.pc (r.took ++ r.off))

/-- CPY (R217). -/
def execCpy (x : CpyArg) (s : State) : Host.Outcome State Fault Refusal := s.issueCopy (.cpy x) x.gd.holds (cpyReq x)

/-- CPYT (R217). -/
def execCpyt (x : CpydArg) (s : State) : Host.Outcome State Fault Refusal := s.issueCopy (.cpyt x) x.gd.holds (cpytReq x)

/-- CPYG (R217). -/
def execCpyg (x : CpydArg) (s : State) : Host.Outcome State Fault Refusal := s.issueCopy (.cpyg x) x.gd.holds (cpygReq x)

/-- COPY_START (R209): the first copy of the queue that has not started. -/
def execCopyStart (core : Nat) (s : State) : Host.Outcome State Fault Refusal :=
  match (s.core core).cq.find? (fun i => match s.op? i with
    | some o => (match o.kind with
      | .copy _ _ _ _ _ _ _ _ _ started => !started
      | _ => false)
    | none => false) with
  | none => .next s
  | some i => match s.op? i with
    | none => .next s
    | some o => .next (s.startCopy o)

/-- COPY_COMPLETE (R210): pieces of a started copy move, and it completes with the last. -/
def execCopyComplete (op : Nat) (s : State) : Host.Outcome State Fault Refusal :=
  match s.op? op with
  | none => .next s
  | some o => .next (s.performCopy o)

end Sys2Proof.Machine
end

