-- ==== Sys2Proof/Machine/Matrix.lean ====
section
/-!
DEFINITION. The meanings of majors 0x38 to 0x3F: quarter entries, the matrix engine, fragments (06 R135 to R153).
-/

namespace Sys2Proof.Machine

/-! ### Arriving at a quarter's entry (R138, R139) -/

/-- The slot at a position of a quarter of a context entry, where the position is present. -/
def CtxEnt.at (c : CtxEnt) (quarter pos : Nat) : Option Nat := c.lanes[8 * quarter + pos]?

/-- The registers of a lane that an operation reads (of its own row, of the quarter) and writes (R141). -/
def MatOp.ranges : MatOp → List (Nat × Nat) × List (Nat × Nat) × List (Nat × Nat)
  | .mma x => ((x.a.toNat, 16) :: (match x.c with
      | none => []
      | some c => [(c.toNat, 32)]), [(x.b.toNat, 16)], [(x.d.toNat, 32)])
  | .mmas x => ([(x.a.toNat, 16), (x.d.toNat, 32)], [(x.b.toNat, 16), (x.s.toNat, 2)], [(x.d.toNat, 32)])
  | .mtrn x => let n := if x.w32 then 32 else 16
    ([], [(x.a.toNat, n)], [(x.d.toNat, n)])

/-- The window a contributing lane opens. -/
def Thread.matWin (t : Thread) (entry since : Nat) (op : MatOp) : Win :=
  let (ac, bs, ds) := op.ranges
  ⟨entry, since, ac, bs, ds, false, false, [], t.olds.filter (fun x => inRanges x.1 ac || inRanges x.1 bs), false⟩

/-- A lane arrives at its quarter's entry: it opens the entry or joins it. -/
def State.arriveMat (s : State) (slot : Nat) (contrib : Bool) (word : DWord) (pc : DWord) (op : MatOp) : State :=
  match s.thread? slot with
  | none => s
  | some t =>
    let pos := t.lane % 8
    let (s, id) := match s.openEnt t with
      | some e => (s.updTeam t.team (fun (m : Team) => { m with opens := m.opens.map (fun (f : QEnt) =>
          if f.id = e.id then { f with arrs := f.arrs ++ [(pos, contrib)] } else f) }), e.id)
      | none =>
        let e : QEnt := ⟨s.nextEnt, t.ctx, t.lane / 8, t.qseq, word, pc, op, [(pos, contrib)]⟩
        ({ s.updTeam t.team (fun (m : Team) => { m with opens := m.opens ++ [e] }) with nextEnt := s.nextEnt + 1 }, s.nextEnt)
    s.updThread slot (fun t =>
      let t := { t with qseq := (t.qseq + 1) % 2 ^ 16 }
      if contrib then { t.counted .tl [] with wins := t.wins ++ [t.matWin id s.nextOp op] } else t)

/-- Every position of an open entry has arrived or does not contribute. -/
def State.entryFull (s : State) (m : Team) (e : QEnt) : Bool :=
  match m.ctxs.find? e.ctx with
  | none => true
  | some c => (List.range 8).all (fun p => match c.at e.quarter p with
    | none => true
    | some k => e.arrs.any (fun a => a.1 == p) || (match s.thread? k with
      | none => true
      | some t => t.st == .exited || t.st == .returned))

/-- An entry closes: it waits in its core's request queue, and the count of every position that did not arrive is raised. -/
def State.closeEntry (s : State) (team : Nat) (e : QEnt) : State :=
  match s.team? team with
  | none => s
  | some m =>
    let lanes := match m.ctxs.find? e.ctx with
      | none => []
      | some c => (List.range 8).map (fun p => c.at e.quarter p)
    let slots := (List.range 8).map (fun p => if e.arrs.contains (p, true) then lanes.getD p none else none)
    let prio := match s.grid? m.grid with
      | none => 0
      | some g => lrPrio g.lrec
    let s := s.updTeam team (fun m => { m with opens := m.opens.filter (fun f => f.id != e.id) })
    let s := { s with ments := s.ments ++ [⟨e.id, m.core, team, e.ctx, e.quarter, e.seq, prio, e.op, slots, .queued, e.id, 0, []⟩] }
    (lanes.filterMap (fun x => x)).foldl (fun s k => s.updThread k (fun t =>
      if t.qseq = e.seq then { t with qseq := (t.qseq + 1) % 2 ^ 16 } else t)) s

/-- Sequence number `a` comes before `b`, modulo 2^16. -/
def seqBefore (a b : Nat) : Bool := decide (2 ^ 15 ≤ (a + 2 ^ 16 - b) % 2 ^ 16)

/-- Entries of a list closed, those of lower sequence number first. -/
def State.closeAll (s : State) (team : Nat) (l : List QEnt) : State :=
  (l.insertionSort (fun a b => seqBefore b.seq a.seq = false)).foldl (fun s e => s.closeEntry team e) s

/-- The entries of a team that are full close. -/
def State.closeFull (s : State) (team : Nat) : State :=
  match s.team? team with
  | none => s
  | some m => s.closeAll team (m.opens.filter (s.entryFull m))

/-- A collective of a team or sub-team closes its open entries (R138). -/
def State.closeCtx (s : State) (team ctx : Nat) : State :=
  match s.team? team with
  | none => s
  | some m => s.closeAll team (m.opens.filter (fun e => e.ctx == ctx))

/-! ### Fusion (R143) -/

/-- The bough and the quarter of it where all the lanes of an entry stand. -/
def MEnt.standsAt (e : MEnt) : Option (Nat × Nat) :=
  match e.slots.filterMap (fun x => x) with
  | [] => none
  | k :: ks => if ks.all (fun j => j / 8 == k / 8) then some (k / 32, k / 8 % 4) else none

/-- The fuse mode, the slots and the base registers of A and B that a word names. -/
def MatOp.fusing : MatOp → Option (Nat × Bool × FSlot × FSlot × Nat × Nat)
  | .mma x => some (x.fuse.toNat, false, x.sa, x.sb, x.a.toNat, x.b.toNat)
  | .mmas x => some (x.fuse.toNat, true, x.sa, x.sb, x.a.toNat, x.b.toNat)
  | .mtrn _ => none

/-- A fragment of an entry's quarter as it stands, absent positions zero. -/
def State.frag16 (s : State) (e : MEnt) (base : Nat) : List Word :=
  (List.range 8).flatMap (fun p => (List.range 16).map (fun j => match e.slots.getD p none with
    | none => 0
    | some k => match s.thread? k with
      | none => 0
      | some t => t.gVal (base + j)))

/-- Two entries that closed on one issue in quarters `i` and `j` of a bough share what their fuse mode shares between them. -/
def State.shares (s : State) (e f : MEnt) (i j : Nat) : Bool :=
  match e.op.fusing, f.op.fusing with
  | some (m, k, sa, sb, a, b), some (m', k', sa', sb', a', b') =>
    let sameA := decide (a = a') && s.frag16 e a == s.frag16 f a'
    let sameB := decide (b = b') && s.frag16 e b == s.frag16 f b'
    decide (m = m') && k == k' && sa == sa' && sb == sb' && (match m with
      | 1 => sameB
      | 2 => (if i / 2 = j / 2 then sameB else true) && (if i % 2 = j % 2 then sameA else true)
      | 3 => sameA
      | _ => false)
  | _, _ => false

/-- Entries that closed on one issue fuse where the four quarters of a bough meet every condition: they then share one place of
the reservation table (R143, R144). -/
def State.fuse (s : State) (before : List MEnt) : State :=
  let new := s.ments.filter (fun e => !before.any (fun f => f.id == e.id))
  let at' (b q : Nat) : Option MEnt := new.find? (fun e => e.standsAt == some (b, q))
  let boughs := distinct (new.filterMap (fun e => e.standsAt.map (·.1)))
  boughs.foldl (fun s b => match at' b 0, at' b 1, at' b 2, at' b 3 with
    | some e0, some e1, some e2, some e3 =>
      let l := [e0, e1, e2, e3]
      let all := (List.range 4).all (fun i => (List.range 4).all (fun j => s.shares (l.getD i e0) (l.getD j e0) i j))
      if all then { s with ments := s.ments.map (fun e => if l.any (fun f => f.id == e.id) then { e with grp := e0.id } else e) }
      else s
    | _, _, _, _ => s) s

/-! ### The quarter words at issue (R139, R146 to R148) -/

/-- The word or PC differs from that of the quarter's open entry of the lane's number (R139). -/
def Lane.entryClash (l : Lane) (word : DWord) : Bool :=
  match l.s.openEnt l.t with
  | none => false
  | some e => e.word != word || e.pc != l.t.pc

/-- A quarter word: its lanes arrive, and full entries close, fused where they may be. A lane with both faults takes 0x07 before
0x22 (log 60: DESIGN CHOICE). -/
def State.issueQuarter (s : State) (i : Instr) (gd : Thread → Bool) (op : MatOp) (check : Lane → Option (BitVec 8)) :
    Host.Outcome State Fault Refusal :=
  let word := (encode i).getD 0
  let r := s.runLanes i (fun _ => true) (fun l =>
    match if gd l.t then check l else none with
    | some c => .fault c 0 0 false
    | none => if l.entryClash word then .fault 0x22 0 0 false else .ok {})
  let s1 := r.took.foldl (fun z k => z.arriveMat k (match s.thread? k with
    | none => false
    | some t => gd t) word s.cur.pc op) r.s
  let teams := distinct (r.took.filterMap s.teamOf)
  .next (((teams.foldl (fun z m => z.closeFull m) s1).fuse s.ments).stepTraps s.cur.pc r.took)

def slotCheck (sa sb : FSlot) (l : Lane) : Option (BitVec 8) := if (l.s.mmaSlots l.t sa sb).isNone then some 0x07 else none

/-- MMA (R148). -/
def execMma (x : MmaArg) (s : State) : Host.Outcome State Fault Refusal :=
  s.issueQuarter (.mma x) x.gd.holds (.mma x) (slotCheck x.sa x.sb)

/-- MMAS (R148). -/
def execMmas (x : MmasArg) (s : State) : Host.Outcome State Fault Refusal :=
  s.issueQuarter (.mmas x) x.gd.holds (.mmas x) (slotCheck x.sa x.sb)

/-- MTRN (R153). -/
def execMtrn (x : MtrnArg) (s : State) : Host.Outcome State Fault Refusal :=
  s.issueQuarter (.mtrn x) x.gd.holds (.mtrn x) (fun _ => none)

/-! ### The reservation table (R144) -/

/-- The places of a copse's reservation table in use: a fused group takes one. -/
def State.placesUsed (s : State) (copse : Nat) : Nat :=
  (distinct ((s.ments.filter (fun e => copseOf e.core == copse && e.stage != .queued)).map (·.grp))).length

/-- MATRIX_ENTRY_ADMIT: the first waiting entry of a core, with those fused with it, takes a free place of its copse's 64. -/
def execMatrixEntryAdmit (core : Nat) (s : State) : Host.Outcome State Fault Refusal :=
  match s.ments.find? (fun e => e.core == core && e.stage == .queued) with
  | none => .next s
  | some e => if 64 ≤ s.placesUsed (copseOf core) then .next s else .next { s with ments := s.ments.map (fun f =>
      if f.grp = e.grp then { f with stage := .admitted, since := s.cycleOf core } else f) }

/-- Outstanding LDFRs of a lane issued before an entry, on registers it uses (R140). -/
def State.fragBefore (s : State) (slot since : Nat) (op : MatOp) : Bool :=
  let (ac, bs, ds) := op.ranges
  s.ops.any (fun o => o.slot == slot && decide (o.id < since) && (match o.kind with
    | .frag false cd r _ _ => (List.range (fragLen cd)).any (fun j => inRanges (r + j) ac || inRanges (r + j) bs || inRanges (r + j) ds)
    | _ => false))

/-- The entry is the next of its quarter and of each of its lanes, and no earlier LDFR is outstanding (R140). -/
def State.grantable (s : State) (e : MEnt) : Bool :=
  !s.ments.any (fun f => f.id != e.id && f.team == e.team && f.ctx == e.ctx && f.quarter == e.quarter && seqBefore f.seq e.seq)
    && (e.slots.filterMap (fun x => x)).all (fun k => match s.thread? k with
      | none => true
      | some t => match t.wins.find? (fun w => !w.store) with
        | none => true
        | some w => w.entry == e.id && !s.fragBefore k w.since e.op)

/-- `a` is granted before `b`: one that has waited 2048 cycles before every younger, then priority, then age (R144). -/
def grantBefore (now : Nat) (a b : MEnt) : Bool :=
  let old (e : MEnt) : Bool := decide (e.since + 2048 ≤ now)
  if old a || old b then decide (a.since ≤ b.since)
  else if a.prio != b.prio then decide (b.prio < a.prio)
  else decide (a.since ≤ b.since)

def firstGrant (now : Nat) : List MEnt → Option MEnt
  | [] => none
  | a :: l => match firstGrant now l with
    | none => some a
    | some b => if grantBefore now a b then some a else some b

/-! ### What the engine computes (R137, R148, R153) -/

/-- The registers the engine reads of one position: absent ones read as zero; of a register written without an MFENCE, any of
the values R142 allows. `role` tells the operands apart. -/
def State.engineReg (s : State) (e : MEnt) (pos role i : Nat) : Word :=
  match e.slots.getD pos none with
  | none => 0
  | some k => match s.thread? k with
    | none => 0
    | some t =>
      let olds := match t.wins.find? (fun w => !w.store && w.entry == e.id) with
        | none => []
        | some w => (w.olds.filter (fun x => x.1 == i)).map (·.2)
      let v := t.gVal i
      if olds.all (fun x => x == v) then v
      else (v :: olds).getD (Config.freeNat (s.fresh + 1024 * pos + 256 * role + i) % (olds.length + 1)) v

/-- Element (row, k) of an A or B fragment based at a register. -/
def State.fragElem (s : State) (e : MEnt) (role base w m k : Nat) : Nat :=
  elemBits w (k % (32 / w)) (s.engineReg e (m / 2) role (base + 8 * (m % 2) + k / (32 / w)))

/-- The scale exponent of a row or column for a block. -/
def State.scaleAt (s : State) (e : MEnt) (reg m blk : Nat) : Option Int :=
  scaleExp (elemBits 8 (2 * (m % 2) + blk) (s.engineReg e (m / 2) 3 reg))

/-- One element of D with its flags; the scales are those of MMAS. -/
def State.mmaElem (s : State) (e : MEnt) (fa fb : NFmt) (a b : Nat) (c : Option Nat) (sc : Option Nat) (m n : Nat) : Word × Fl :=
  let w := fa.width
  let acc : Word × Fl := match c with
    | none => (0, 0)
    | some c =>
      let v := s.engineReg e (m / 2) 2 (c + 16 * (m % 2) + n)
      (v, readFl .f32 v.toNat)
  dotSteps acc fa fb ((List.range (256 / w)).map (fun k =>
    (s.fragElem e 0 a w m k, s.fragElem e 1 b w n k, match sc with
      | none => some 0
      | some r => addExp (s.scaleAt e r m (k / 32)) (s.scaleAt e (r + 1) n (k / 32)))))

/-- The D registers of one position. -/
def State.mmaRows (s : State) (e : MEnt) (fa fb : NFmt) (d a b : Nat) (c sc : Option Nat) (pos : Nat) : List (Nat × Word) × Fl :=
  let l := (List.range 32).map (fun j => (d + j, s.mmaElem e fa fb a b c sc (2 * pos + j / 16) (j % 16)))
  (l.map (fun x => (x.1, x.2.1)), l.foldl (fun f x => f ||| x.2.2) 0)

/-- The result registers of MTRN at one position. -/
def State.mtrnRegs (s : State) (e : MEnt) (w32 : Bool) (d a pos : Nat) : List (Nat × Word) :=
  if w32 then (List.range 32).map (fun j =>
    (d + j, s.engineReg e (j % 16 / 2) 0 (a + 16 * (j % 16 % 2) + (2 * pos + j / 16))))
  else (List.range 16).map (fun j =>
    let m := 2 * pos + j / 8
    let half (c : Nat) : Nat := elemBits 16 (m % 2) (s.engineReg e (c / 2) 0 (a + 8 * (c % 2) + m / 2))
    (d + j, BitVec.ofNat 32 (half (2 * (j % 8)) + 2 ^ 16 * half (2 * (j % 8) + 1))))

/-- The format of a slot of a team's grid. -/
def State.teamFmt (s : State) (team : Nat) (k : FSlot) : NFmt :=
  let r := match s.team? team with
    | none => []
    | some m => match s.grid? m.grid with
      | none => []
      | some g => g.lrec
  (Sys2Proof.Machine.slotFmt (lrFmt r k.toNat)).getD (.fl .f32)

/-- An entry's results at one position. -/
def State.entryRes (s : State) (e : MEnt) (pos : Nat) : List (Nat × Word) × Fl :=
  match e.op with
  | .mma x => s.mmaRows e (s.teamFmt e.team x.sa) (s.teamFmt e.team x.sb) x.d.toNat x.a.toNat x.b.toNat (x.c.map (·.toNat)) none pos
  | .mmas x => s.mmaRows e (s.teamFmt e.team x.sa) (s.teamFmt e.team x.sb) x.d.toNat x.a.toNat x.b.toNat (some x.d.toNat)
      (some x.s.toNat) pos
  | .mtrn x => (s.mtrnRegs e x.w32 x.d.toNat x.a.toNat pos, 0)

/-- Every contributing position of an entry with its slot. -/
def MEnt.contributors (e : MEnt) : List (Nat × Nat) :=
  (List.range 8).filterMap (fun p => (e.slots.getD p none).map (fun k => (p, k)))

/-- Every entry of a fused group is grantable. -/
def State.groupReady (s : State) (e : MEnt) : Bool := s.ments.all (fun f => f.grp != e.grp || s.grantable f)

/-- MATRIX_GRANT: the arbiter grants the first entry of its copse, with those fused with it, and the engine reads the operands
(R140, R143, R144). -/
def execMatrixGrant (copse : Nat) (s : State) : Host.Outcome State Fault Refusal :=
  let l := s.ments.filter (fun e => copseOf e.core == copse && e.stage == .admitted && s.groupReady e)
  match firstGrant (s.cycleOf (4 * copse)) l with
  | none => .next s
  | some e => .next { s.takeFresh 8192 with ments := s.ments.map (fun f =>
      if f.grp = e.grp then { f with stage := .granted, res := f.contributors.map (fun pk => (pk.2, s.entryRes f pk.1)) } else f) }

/-- A lane's D registers as an entry completes: those spoilt are unpredictable, and then no flag is set (R141). -/
def Thread.matDone (t : Thread) (entry free : Nat) (quarterSpoilt : Bool) (r : List (Nat × Word) × Fl) : Thread :=
  let w := t.wins.find? (fun w => !w.store && w.entry == entry)
  let all := quarterSpoilt || (match w with
    | none => false
    | some w => w.spoiltLane)
  let one (i : Nat) : Bool := match w with
    | none => false
    | some w => w.spoiltRegs.contains i
  let t := { t with wins := t.wins.filter (fun w => w.store || w.entry != entry) }
  let t := r.1.foldl (fun t x => t.wrD x.1 (if all || one x.1 then Config.freeWord (free + x.1) else x.2)) t
  (if all then t else t.orFl r.2).completed .tl []

/-- Some contributing lane wrote a B, S or MTRN source register in the window (R141). -/
def State.quarterSpoilt (s : State) (e : MEnt) : Bool :=
  (e.slots.filterMap (fun x => x)).any (fun k => match s.thread? k with
    | none => false
    | some t => t.wins.any (fun w => !w.store && w.entry == e.id && w.spoiltQuarter))

/-- What a lane's results of an entry were computed from, of its own registers (R229). -/
def State.matDeps (s : State) (slot : Nat) (op : MatOp) : State :=
  if s.deps.isEmpty then s
  else
    let ids (l : List (Nat × Nat)) : List RegId := l.flatMap (fun r => (List.range r.2).map (fun j => r.1 + j))
    let (ac, bs, ds) := op.ranges
    s.setDeps slot (ids ds) (s.depOf slot (ids (ac ++ bs)))

/-- MATRIX_COMPLETE: D is written for contributing positions, and their tile counters fall (R140). -/
def execMatrixComplete (copse entry : Nat) (s : State) : Host.Outcome State Fault Refusal :=
  match s.ments.find? (fun e => e.id == entry && copseOf e.core == copse && e.stage == .granted) with
  | none => .next s
  | some e =>
    let spoilt := s.quarterSpoilt e
    let s1 := (e.res.zip (List.range 8)).foldl (fun z x =>
      (z.updThread x.1.1 (fun t => t.matDone e.id (s.fresh + 256 * x.2) spoilt x.1.2)).matDeps x.1.1 e.op) (s.takeFresh 2048)
    .next { s1 with ments := s1.ments.filter (fun f => f.id != entry) }

/-! ### MZERO, MFENCE, MCVT (R149, R150, R152) -/

def mzeroFx (x : MzeroArg) (_ : Lane) : LaneRes :=
  .ok { th := fun t => (List.range (fragLen x.cd)).foldl (fun t j => t.wrG true none (x.d.toNat + j) 0) t }

/-- MZERO (R149). -/
def execMzero (x : MzeroArg) (s : State) : Host.Outcome State Fault Refusal := s.issue (.mzero x) x.gd.holds (mzeroFx x)

/-- MFENCE (R150): the engine may no longer read what completed writes replaced (R142). -/
def execMfence (x : GOnly) (s : State) : Host.Outcome State Fault Refusal :=
  s.issue (.mfence x) x.gd.holds (fun _ => .ok { th := fun t => { t with olds := [] } })

/-- Formats MCVT admits (R152). -/
def mcvtAdmits : NFmt → Bool := mmaAdmits

/-- MCVT (R152). Of a register written by an ordinary instruction with no MFENCE between, it reads the value written, and so it does of
the bits of its destination that it keeps; R142 and R150 speak of matrix instructions' operands without naming MCVT's, which is read at
issue (log 75: DESIGN CHOICE). -/
def mcvtFx (x : McvtArg) (l : Lane) : LaneRes :=
  match l.slotFmt x.slot with
  | none => slotFault
  | some f =>
    let w := f.width
    let h := x.h.toNat
    if !mcvtAdmits f ∨ 16 / w ≤ h then slotFault
    else
      let conv (i : Nat) : Nat × Fl := convert (.fl .f32) f (l.gm 1 (x.a.toNat + i)).toNat x.rm x.sat
      let fl := (List.range 32).foldl (fun a i => a ||| (conv i).2) 0
      let put (t : Thread) (i : Nat) : Thread :=
        let k := 16 * h + i % 16
        let reg := x.d.toNat + 8 * (i / 16) + k / (32 / w)
        t.wrG true none reg (setBits (t.gVal reg) (w * (k % (32 / w))) w (conv i).1)
      .ok { th := fun t => ((List.range 32).foldl put t).orFl fl }

/-- MCVT (R152). -/
def execMcvt (x : McvtArg) (s : State) : Host.Outcome State Fault Refusal := s.issue (.mcvt x) x.gd.holds (mcvtFx x)

/-! ### LDFR and STFR (R151) -/

/-- Bytes of a row. -/
def rowBytes (cd : Bool) : Nat := if cd then 64 else 32

/-- The address of row `r`. -/
def rowVa (sp : Space) (base : Nat) (stride : Int) (r : Nat) : Nat := addSp (sp == .g) base (r * stride)

/-- A protection fault of a row that shows at issue; one that is not present is met by the engine (R151). -/
def Lane.rowAtIssue (l : Lane) (sp : Space) (a n : Nat) (need : Need) : Option (BitVec 8) :=
  let one (va : Nat) : Option (BitVec 8) := match (l.s.translate (.lane l.slot) l.part va need).2 with
    | .fault c => if c == 0x11 then none else some c
    | _ => none
  match l.rangeFault sp a n with
  | some c => some c
  | none => match sp with
    | .s => none
    | .g => (one a).or (one (a + n - 1))
    | .k => (one (l.constVa a)).or (one (l.constVa (a + n - 1)))

/-- A register as STFR's engine reads it: of one written without an MFENCE, any of the values R142 allows. -/
def Lane.storeWord (l : Lane) (i : Nat) : Word :=
  let olds := (l.t.olds.filter (fun x => x.1 == i)).map (·.2)
  let v := l.t.gVal i
  if olds.all (fun x => x == v) then v else (v :: olds).getD (Config.freeNat (l.f + 2048 + i) % (olds.length + 1)) v

/-- LDFR (`store = false`) and STFR on one lane. -/
def fragFx (store : Bool) (x : FragArg) (l : Lane) : LaneRes :=
  let n := rowBytes x.cd
  let wide := x.sp == .g
  let base : DWord := if wide then (l.gm 0 (x.base.toNat + 1) ++ l.gm 0 x.base.toNat : BitVec 64) else (l.gm 0 x.base.toNat).setWidth 64
  let stride := (l.srcm 1 x.stride).toInt
  let row (r : Nat) : Nat := rowVa x.sp base.toNat stride r
  let need : Need := if store then .write else .read
  let bad : Option (BitVec 8 × Nat) :=
    match [0, 1].find? (fun r => row r % 16 != 0) with
    | some r => some (0x10, row r)
    | none => [0, 1].findSome? (fun r => (l.rowAtIssue x.sp (row r) n need).map (fun c => (c, row r)))
  match bad with
  | some (c, va) => .fault c (l.opVa x.sp (BitVec.ofNat 64 va)) 0 store
  | none =>
    let r := x.r.toNat
    let win : Win := ⟨l.s.nextOp, l.s.nextOp, [], [], [(r, fragLen x.cd)], false, false,
      ((List.range (fragLen x.cd)).map (fun j => r + j)).filter (fun i => l.t.wins.any (fun w => !w.store && inRanges i w.ds)), [], true⟩
    let o := l.op .tl (.frag store x.cd r stride x.sp) (l.opVa x.sp base) .later (2 * n) []
    let data := (List.range (fragLen x.cd)).flatMap (fun j => leBytes 4 (l.storeWord (r + j)).toNat)
    .ok { ops := [{ o with todo := (List.range (2 * n / 16)).map (fun i => (16 * i, 16)), buf := if store then data else o.buf }]
          th := fun t => if store then { t with wins := t.wins ++ [win] } else t }

/-- The number of an STFR's window is that of the operation it will get: lanes of one issue take numbers in lane order. -/
def State.nameStores (s : State) (from' : Nat) : State :=
  (s.ops.filter (fun o => decide (from' ≤ o.id))).foldl (fun s o => s.updThread o.slot (fun t =>
    { t with wins := t.wins.map (fun w => if w.store && w.entry == from' then { w with entry := o.id, since := o.id } else w) })) s

/-- LDFR (R151). -/
def execLdfr (x : FragArg) (s : State) : Host.Outcome State Fault Refusal := s.issue (.ldfr x) x.gd.holds (fragFx false x)

/-- STFR (R151). -/
def execStfr (x : FragArg) (s : State) : Host.Outcome State Fault Refusal :=
  let r := s.runLanes (.stfr x) x.gd.holds (fragFx true x)
  .next ((r.s.nameStores s.nextOp).stepTraps s.cur.pc (r.took ++ r.off))

/-- The address of a fragment's bytes from a linear offset. -/
def Op.fragVa (o : Op) (cd : Bool) (stride : Int) (sp : Space) (off : Nat) : Nat :=
  addSp (sp != .s) o.va.toNat ((off / rowBytes cd : Nat) * stride) + off % rowBytes cd

/-- The words an STFR stores: unpredictable where the register was written meanwhile (R151). -/
def State.fragData (s : State) (o : Op) (r : Nat) : List Byte :=
  let spoilt := match s.thread? o.slot with
    | none => []
    | some t => match List.find? (fun (w : Win) => w.store && w.entry == o.id) t.wins with
      | none => []
      | some w => w.spoiltRegs
  (List.range o.buf.length).map (fun i => if spoilt.contains (r + i / 4) then Config.freeByte (s.fresh + i) else o.buf.getD i 0)

/-- An STFR writes all of the line that holds a piece, and the piece is its last there (R193). -/
def Op.fragLine (o : Op) (cd : Bool) (stride : Int) (sp : Space) (todo : List (Nat × Nat)) (off : Nat) : Bool :=
  let line (k : Nat) : Nat := lineOf (o.fragVa cd stride sp k)
  let parts := (List.range (2 * rowBytes cd / 16)).filter (fun i => line (16 * i) == line off)
  (distinct (parts.map (fun i => o.fragVa cd stride sp (16 * i)))).length == 8
    && !todo.any (fun x => x.1 != off && line x.1 == line off)

/-- One 16-byte piece of a fragment access. -/
def State.fragPiece (s : State) (o : Op) (store cd : Bool) (r : Nat) (stride : Int) (sp : Space) (off : Nat) : State × PieceRes :=
  let a := o.fragVa cd stride sp off
  let row := a - off % rowBytes cd
  let meets (s : State) (c : BitVec 8) : State × PieceRes :=
    if replayable c then
      let (s, idx) := s.reportOp o 2 c store (BitVec.ofNat 64 a)
      (s, .held idx a)
    else (s, .fault c a)
  let done (s : State) : State × PieceRes :=
    (s.updOp o.id (fun p => { p with todo := p.todo.filter (fun q => q.1 != off) }), .moved)
  match s.engineAt o (sp == Space.s) row (off % rowBytes cd) 16 (if store then .write else .read) with
  | (s, .fault c) => meets s c
  | (s, .ask vpn) => (s.askHost (.op o.slot o.id) o.part vpn store, .waits)
  | (s, .here p) =>
    if store then
      let bs := ((s.fragData o r).drop off).take 16
      let (s, ok) := (s.takeFresh 128).engineStore o p bs
      let todo := match s.op? o.id with
        | none => []
        | some q => q.todo
      if ok then done (s.cleared o p (o.fragLine cd stride sp todo off)) else meets s 0x13
    else
      let o' := { o with place := p }
      let acq := ((s.thread? o.slot).map (·.acqStamp)).getD 0
      match (s.letSee o').readPiece o' acq 0 16 .none with
      | (s, .error c) => meets s c
      | (s, .ok (v, fill)) =>
        let s := (s.noteEarlyTl o' [(0, 16)]).updThread o.slot (fun t => { t with tlStamp := max t.tlStamp fill })
        done (s.updOp o.id (fun q => { q with buf := splice q.buf off v, got := max q.got fill }))

def State.fragPieces (s : State) (o : Op) (store cd : Bool) (r : Nat) (stride : Int) (sp : Space) :
    List (Nat × Nat) → State × PieceRes
  | [] => (s, .moved)
  | (off, _) :: l =>
    match s.fragPiece o store cd r stride sp off with
    | (s, .moved) => fragPieces s o store cd r stride sp l
    | x => x

/-- A fragment access ends: LDFR writes its registers, and a fault met leaves them, or the rows, unpredictable (R151). -/
def State.endFrag (s : State) (o : Op) (store cd : Bool) (r : Nat) (stride : Int) (sp : Space) (met : Option (BitVec 8 × Nat)) :
    State :=
  let n := fragLen cd
  let s : State := match store, met with
    | false, _ => ((s.takeFresh 32).updThread o.slot (fun t => (List.range n).foldl (fun t j =>
        t.wrG true (some o.id) (r + j)
          (if met.isSome then Config.freeWord (s.fresh + j) else BitVec.ofNat 32 (leNat ((o.buf.drop (4 * j)).take 4)))) t)).setDeps
        o.slot ((List.range n).map (fun j => r + j)) (max o.dep o.got)
    | true, none => s
    | true, some _ => (List.range (2 * rowBytes cd / 16)).foldl (fun s i =>
        let a := o.fragVa cd stride sp (16 * i)
        match s.engineAt o (sp == Space.s) (a - 16 * i % rowBytes cd) (16 * i % rowBytes cd) 16 .write with
        | (s', .here p) => ((s'.takeFresh 16).engineStore o p (freeBytes s'.fresh 16)).1
        | _ => s) s
  let s := (s.finishOp o).updThread o.slot (fun t => { t with wins := t.wins.filter (fun w => !(w.store && w.entry == o.id)) })
  match met with
  | none => s
  | some (c, va) => (s.meets o.slot c (BitVec.ofNat 64 va)).updThread o.slot (fun t =>
      { t with defers := t.defers ++ [⟨c, o.pc, BitVec.ofNat 64 va, .tl, [], o⟩] })

/-- FRAGMENT_ACCESS_COMPLETE: pieces are accessed, and the operation ends with the last (R151). -/
def execFragmentAccessComplete (op : Nat) (s : State) : Host.Outcome State Fault Refusal :=
  match s.op? op with
  | none => .next s
  | some o => match o.kind with
    | .frag store cd r stride sp =>
      if o.held.isSome then .next s
      else
        let (s, l) := s.somePieces o
        match s.fragPieces o store cd r stride sp l with
        | (s, .held i va) => .next (s.updOp op (fun p => { p with held := some i, hva := BitVec.ofNat 64 va }))
        | (s, .waits) => .next s
        | (s, .fault c va) => .next (s.endFrag o store cd r stride sp (some (c, va)))
        | (s, .moved) => match s.op? op with
          | none => .next s
          | some p => if p.todo.isEmpty then .next (s.endFrag p store cd r stride sp none) else .next s
    | _ => .next s

end Sys2Proof.Machine
end

