-- ==== Sys2Proof/Machine/MemEvents.lean ====
section
/-!
DEFINITION. The events that perform the operations of threads, and the answers of hosts and of the CXL fabric to them (08 R197,
R202, R393, 15 R345, 17 R392, R393, 20 R415).
-/

namespace Sys2Proof.Machine

/-- LOAD_COMPLETE (R197): a load is performed, or a piece of it. -/
def execLoadComplete (op : Nat) (s : State) : Host.Outcome State Fault Refusal :=
  match s.op? op with
  | none => .next s
  | some o => match o.kind with
    | .load .. => .next (s.performLoad o)
    | _ => .next s

/-- STORE_PERFORMED (R345): a store, reduction, line operation or barrier operation is performed. -/
def execStorePerformed (op : Nat) (s : State) : Host.Outcome State Fault Refusal :=
  match s.op? op with
  | none => .next s
  | some o => match o.kind with
    | .store .. => .next (s.performStore o)
    | .red .. => .next (s.performAtom o)
    | .disc | .clean => .next (s.performLine o)
    | .bari _ | .bara _ | .barx _ => .next (s.performBar o)
    | _ => .next s

/-- ATOMIC_PERFORMED (R202). -/
def execAtomicPerformed (op : Nat) (s : State) : Host.Outcome State Fault Refusal :=
  match s.op? op with
  | none => .next s
  | some o => match o.kind with
    | .atom .. => .next (s.performAtom o)
    | _ => .next s

/-- ATOMICOP_COMPLETION (R202, R393): the host has performed the AtomicOp, or answers Unsupported Request. -/
def execAtomicopCompletion (op : Nat) (ok : Bool) (s : State) : Host.Outcome State Fault Refusal :=
  match s.op? op with
  | none => .next s
  | some o =>
    if !o.sent || o.viaCxl || o.kind.atomArgs.isNone then .next s
    else if ok then .next (s.doAtom o)
    else if s.canFallBack o.part then .next (s.updOp op (fun p => { p with viaCxl := true }))
    else .next (s.deferOp o 0x15 o.va)

/-- The host line an operation owns while it is performed. -/
def Op.hostLine (o : Op) : Option Nat := match o.place with
  | .host ld addr => some (ld * 2 ^ 64 + lineOf addr)
  | _ => none

/-- CXL_CACHE_OWNERSHIP (R393): the line is owned and the atomic performed in it, or ownership is refused. -/
def execCxlCacheOwnership (op : Nat) (granted : Bool) (s : State) : Host.Outcome State Fault Refusal :=
  match s.op? op with
  | none => .next s
  | some o =>
    if !o.sent || !o.viaCxl || o.kind.atomArgs.isNone then .next s
    else if !granted then .next (s.deferOp o 0x15 o.va)
    else
      match o.hostLine with
      | none => .next s
      | some l => .next { s.doAtom o with owned := if s.owned.contains l then s.owned else s.owned ++ [l] }

/-- CXL_SNOOP (R393): a line owned for an atomic that is complete goes back to the host. -/
def execCxlSnoop (ld line : Nat) (s : State) : Host.Outcome State Fault Refusal :=
  .next { s with owned := s.owned.filter (fun l => l != ld * 2 ^ 64 + lineOf line) }

/-! ### UIO_TIMEOUT (R392) -/

/-- A line of the CXL tier that its slice does not hold comes there poisoned. -/
def State.poisonFill (s : State) (a : Acc) : State :=
  let s := s.makeRoom (s.l2Key a)
  State.capLast { s with l2 := s.l2.put (s.l2Key a) ⟨s.memLine a, false, true, a.hint, s.stamp, s.keyTag a, a.part, false⟩, stamp := s.stamp + 1 } (s.l2Key a)

/-- The line of the CXL tier that an access at a place is waiting for. -/
def State.uioAcc (s : State) (o : Op) (p : Place) (off : Nat) : Option Acc :=
  match p.acc o.part off .none (s.teamOf o.slot) with
  | none => none
  | some a => if inCxl a.pa && (s.l2.find? (s.l2Key a)).isNone then some a else none

/-- The place and the address of the next byte that an engine reads for an operation. -/
def State.nextSource (s : State) (o : Op) : Option (Place × Nat) :=
  let at' (scr : Bool) (a : Nat) : Option (Place × Nat) := match (s.engineAt o scr a 0 16 .read).2 with
    | .here p => some (p, a)
    | _ => none
  match o.kind, if o.failed.isSome then [] else o.todo with
  | .copy rows _ _ _ _ _ ssp _ _ true, (off, _) :: _ => match rowAt rows off with
    | none => none
    | some (a, _, k) => at' (ssp == Space.s) (a + k)
  | .frag false cd _ stride sp, (off, _) :: _ => at' (sp == Space.s) (o.fragVa cd stride sp off)
  | _, _ => none

/-- UIO_TIMEOUT (R392, R193): the read that waits for the pool meets an uncorrectable error. -/
def execUioTimeout (op : Nat) (s : State) : Host.Outcome State Fault Refusal :=
  match s.op? op with
  | none => .next s
  | some o =>
    if o.held.isSome then .next s
    else
      let off := (o.todo.head?.map (·.1)).getD 0
      match o.kind with
      | .load .. | .atom .. | .red .. => match s.uioAcc o o.place off with
        | none => .next s
        | some a => .next ((s.poisonFill a).deferOp o 0x40 o.va)
      | .store .. => match s.uioAcc o o.place off with
        | none => .next s
        | some a => .next (s.poisonFill a)
      | .copy rows _ _ _ _ dscr _ _ _ _ => match s.nextSource o with
        | none => .next s
        | some (p, va) => match s.uioAcc o p 0 with
          | none => .next s
          | some a => .next ((s.poisonFill a).failCopy o dscr rows (some (0x40, BitVec.ofNat 64 va)))
      | .frag false cd r stride sp => match s.nextSource o with
        | none => .next s
        | some (p, va) => match s.uioAcc o p 0 with
          | none => .next s
          | some a => .next ((s.poisonFill a).endFrag o false cd r stride sp (some (0x40, va)))
      | _ => .next s

end Sys2Proof.Machine
end

