-- ==== Sys2Proof/Machine/Int.lean ====
section
/-!
DEFINITION. The meanings of majors 0x00 to 0x1F: integers, bit fields, predicates, special registers (04 R92 to R106).
Each is one issue whose lanes write their destination and the latch.
-/

namespace Sys2Proof.Machine

/-! ### A lane's part, by shape -/

def alu2 (op : IOp) (x : Alu2) (l : Lane) (t : Thread) : Thread :=
  t.result x.w x.d (op.result x.sg x.w (l.src 0 x.w x.a) (l.src 1 x.w x.b))

def log2 (op : IOp) (x : Log2) (l : Lane) (t : Thread) : Thread :=
  t.result x.w x.d (op.result .none x.w (l.src 0 x.w x.a) (l.src 1 x.w x.b))

def shift2 (op : SOp) (x : Log2) (l : Lane) (t : Thread) : Thread :=
  t.result x.w x.d (op.result x.w (l.src 0 x.w x.a) (l.src 1 false x.b))

def alu1 (op : UOp) (x : Alu1) (l : Lane) (t : Thread) : Thread := t.result x.w x.d (op.result x.w (l.src 0 x.w x.a))

def log1 (op : UOp) (x : Log1) (l : Lane) (t : Thread) : Thread := t.result x.w x.d (op.result x.w (l.src 0 x.w x.a))

/-- POPC, CLZ, CTZ: a 32-bit D. -/
def count1 (op : BOp) (x : Log1) (l : Lane) (t : Thread) : Thread := t.result false x.d (op.result x.w (l.src 0 x.w x.a))

def brev1 (x : Log1) (l : Lane) (t : Thread) : Thread := t.result x.w x.d (BOp.brev.result x.w (l.src 0 x.w x.a))

def mad3 (x : Alu3) (l : Lane) (t : Thread) : Thread :=
  t.result x.w x.d (madOf x.w (l.src 0 x.w x.a) (l.src 1 x.w x.b) (l.src 2 x.w x.c))

def tri (f : DWord → DWord → DWord → DWord) (x : Tri) (l : Lane) (t : Thread) : Thread :=
  t.result false x.d (f (l.src 0 false x.a) (l.src 1 false x.b) (l.src 2 false x.c))

def bfx2 (x : BfxArg) (l : Lane) (t : Thread) : Thread :=
  t.result x.w x.d (bfxOf x.sg x.w (l.src 0 x.w x.a) (l.src 1 false x.b) x.len.toNat)

def bfi3 (x : BfiArg) (l : Lane) (t : Thread) : Thread :=
  t.result x.w x.d (bfiOf x.w (l.src 0 x.w x.a) (l.src 1 x.w x.b) (l.src 2 false x.c) x.len.toNat)

/-- SEL (R101): the predicate read at issue chooses. -/
def sel2 (x : SelArg) (l : Lane) (t : Thread) : Thread :=
  t.result x.w x.d (if l.t.pred x.p != x.neg then l.src 0 x.w x.a else l.src 1 x.w x.b)

def lea2 (x : LeaArg) (l : Lane) (t : Thread) : Thread :=
  t.result x.w x.d (leaOf x.sg x.w (l.src 0 x.w x.a) (l.src 1 false x.b) x.n.toNat)

/-- A predicate result: the predicate and the latch (R83). -/
def Thread.predResult (t : Thread) (p : PReg) (b : Bool) : Thread := (t.setPred p b).setLat (if b then 1 else 0)

def cmp2 (x : CmpArg) (l : Lane) (t : Thread) : Thread :=
  t.predResult x.p (cmpOf x.cond x.sg x.w (l.src 0 x.w x.a) (l.src 1 x.w x.b))

def predOp (f : Bool → Bool → Bool) (x : PredArg) (l : Lane) (t : Thread) : Thread :=
  t.predResult x.pd (f (l.t.pred x.pa != x.na) (l.t.pred x.pb != x.nb))

/-- PMOV (R105). -/
def pmov1 (x : PmovArg) (l : Lane) (t : Thread) : Thread :=
  match x.dir with
  | .toReg d => t.result false d (l.t.preds.setWidth 64)
  | .fromReg a b =>
    let m : BitVec 12 := (l.src 1 false b).setWidth 12
    let v : BitVec 12 := (l.t.preds &&& ~~~m) ||| ((l.src 0 false a).setWidth 12 &&& m)
    { t with preds := v }.setLat (v.setWidth 64)

/-! ### Special registers (R85 to R87, R106) -/

/-- sr.cycle: the grove's cycles and the thread's offset (R360). -/
def State.cycleSr (s : State) (slot : Nat) (t : Thread) : DWord := BitVec.ofInt 64 ((s.cycleOf (coreOf slot) : Int) + t.cycOff)

/-- A reading of device time: up to 2 ns behind it, and never falling (R359; log 6). One ahead of it could be passed by a later stamp
of a queue, which reads the time itself. -/
def timeReading (t : Nat) : Nat := ((List.range 3).map (fun i => t - i - Config.timeSkew (t - i) % 3)).foldl max 0

/-- A reading in a state: no smaller than the last stamp of a queue, and not ahead of device time (R259, R359). -/
def State.reading (s : State) : Nat := min s.time (max s.stamped (timeReading s.time))

/-- sr.status (R86). -/
def Thread.status (t : Thread) : Nat := b2n t.step * 8 + t.ylevel

/-- The value of a special register at issue. -/
def Lane.sreg (l : Lane) (r : SReg) : DWord :=
  let s := l.s
  let t := l.t
  let m := s.team? t.team
  match r with
  | .lane => BitVec.ofNat 64 t.lane
  | .plane => BitVec.ofNat 64 t.plane
  | .tsize => BitVec.ofNat 64 t.tsize
  | .team => BitVec.ofNat 64 ((m.map (·.index)).getD 0)
  | .grid => ((s.gridOf t).map (fun g => g.gid.setWidth 64)).getD 0
  | .core => BitVec.ofNat 64 (coreInGrove (coreOf l.slot))
  | .grove => BitVec.ofNat 64 ((s.part (s.partOf l.slot)).rank (groveOf (coreOf l.slot)))
  | .depth => BitVec.ofNat 64 (((s.gridOf t).map (·.depth)).getD 0)
  | .argp => BitVec.ofNat 64 ((m.map (·.argp)).getD 0)
  | .tcret => t.tcret.setWidth 64
  | .tags => s.tagBits t.team
  | .fflags => t.fflags.setWidth 64
  | .status => BitVec.ofNat 64 t.status
  | .time => BitVec.ofNat 64 s.reading
  | .cycle => s.cycleSr l.slot t
  | .lk => t.lk

def gets1 (x : GetsArg) (l : Lane) (t : Thread) : Thread := t.result x.w x.d (extW x.w (l.sreg x.sr))

def sets1 (x : SetsArg) (l : Lane) (t : Thread) : Thread :=
  let v := l.src 0 x.w x.a
  (match x.sr with
    | .fflags => { t with fflags := v.setWidth 5 }
    | .lk => { t with lk := v }).setLat v

/-! ### The meanings -/

/-- ADD (R92). -/
def execAdd (x : Alu2) (s : State) : Host.Outcome State Fault Refusal := s.issue (.add x) x.gd.holds (regFx (alu2 .add x))

/-- SUB (R92). -/
def execSub (x : Alu2) (s : State) : Host.Outcome State Fault Refusal := s.issue (.sub x) x.gd.holds (regFx (alu2 .sub x))

/-- MUL (R92). -/
def execMul (x : Alu2) (s : State) : Host.Outcome State Fault Refusal := s.issue (.mul x) x.gd.holds (regFx (alu2 .mul x))

/-- MULH (R92). -/
def execMulh (x : Alu2) (s : State) : Host.Outcome State Fault Refusal := s.issue (.mulh x) x.gd.holds (regFx (alu2 .mulh x))

/-- MAD (R93). -/
def execMad (x : Alu3) (s : State) : Host.Outcome State Fault Refusal := s.issue (.mad x) x.gd.holds (regFx (mad3 x))

/-- DIV (R94). -/
def execDiv (x : Alu2) (s : State) : Host.Outcome State Fault Refusal := s.issue (.div x) x.gd.holds (regFx (alu2 .div x))

/-- REM (R94). -/
def execRem (x : Alu2) (s : State) : Host.Outcome State Fault Refusal := s.issue (.rem x) x.gd.holds (regFx (alu2 .rem x))

/-- AND (R92). -/
def execAnd (x : Log2) (s : State) : Host.Outcome State Fault Refusal := s.issue (.and x) x.gd.holds (regFx (log2 .and x))

/-- OR (R92). -/
def execOr (x : Log2) (s : State) : Host.Outcome State Fault Refusal := s.issue (.or x) x.gd.holds (regFx (log2 .or x))

/-- XOR (R92). -/
def execXor (x : Log2) (s : State) : Host.Outcome State Fault Refusal := s.issue (.xor x) x.gd.holds (regFx (log2 .xor x))

/-- ANDN (R92). -/
def execAndn (x : Log2) (s : State) : Host.Outcome State Fault Refusal := s.issue (.andn x) x.gd.holds (regFx (log2 .andn x))

/-- ORN (R92). -/
def execOrn (x : Log2) (s : State) : Host.Outcome State Fault Refusal := s.issue (.orn x) x.gd.holds (regFx (log2 .orn x))

/-- NOT (R97). -/
def execNot (x : Log1) (s : State) : Host.Outcome State Fault Refusal := s.issue (.not x) x.gd.holds (regFx (log1 .not x))

/-- SHL (R95). -/
def execShl (x : Log2) (s : State) : Host.Outcome State Fault Refusal := s.issue (.shl x) x.gd.holds (regFx (shift2 .shl x))

/-- SHR (R95). -/
def execShr (x : Log2) (s : State) : Host.Outcome State Fault Refusal := s.issue (.shr x) x.gd.holds (regFx (shift2 .shr x))

/-- SAR (R95). -/
def execSar (x : Log2) (s : State) : Host.Outcome State Fault Refusal := s.issue (.sar x) x.gd.holds (regFx (shift2 .sar x))

/-- ROL (R95). -/
def execRol (x : Log2) (s : State) : Host.Outcome State Fault Refusal := s.issue (.rol x) x.gd.holds (regFx (shift2 .rol x))

/-- ROR (R95). -/
def execRor (x : Log2) (s : State) : Host.Outcome State Fault Refusal := s.issue (.ror x) x.gd.holds (regFx (shift2 .ror x))

/-- SHF (R96). -/
def execShf (x : Tri) (s : State) : Host.Outcome State Fault Refusal := s.issue (.shf x) x.gd.holds (regFx (tri shfOf x))

/-- MIN (R92). -/
def execMin (x : Alu2) (s : State) : Host.Outcome State Fault Refusal := s.issue (.min x) x.gd.holds (regFx (alu2 .min x))

/-- MAX (R92). -/
def execMax (x : Alu2) (s : State) : Host.Outcome State Fault Refusal := s.issue (.max x) x.gd.holds (regFx (alu2 .max x))

/-- ABS (R97). -/
def execAbs (x : Alu1) (s : State) : Host.Outcome State Fault Refusal := s.issue (.abs x) x.gd.holds (regFx (alu1 .abs x))

/-- NEG (R97). -/
def execNeg (x : Alu1) (s : State) : Host.Outcome State Fault Refusal := s.issue (.neg x) x.gd.holds (regFx (alu1 .neg x))

/-- POPC (R98). -/
def execPopc (x : Log1) (s : State) : Host.Outcome State Fault Refusal := s.issue (.popc x) x.gd.holds (regFx (count1 .popc x))

/-- CLZ (R98). -/
def execClz (x : Log1) (s : State) : Host.Outcome State Fault Refusal := s.issue (.clz x) x.gd.holds (regFx (count1 .clz x))

/-- CTZ (R98). -/
def execCtz (x : Log1) (s : State) : Host.Outcome State Fault Refusal := s.issue (.ctz x) x.gd.holds (regFx (count1 .ctz x))

/-- BREV (R98). -/
def execBrev (x : Log1) (s : State) : Host.Outcome State Fault Refusal := s.issue (.brev x) x.gd.holds (regFx (brev1 x))

/-- BFX (R99). -/
def execBfx (x : BfxArg) (s : State) : Host.Outcome State Fault Refusal := s.issue (.bfx x) x.gd.holds (regFx (bfx2 x))

/-- BFI (R99). -/
def execBfi (x : BfiArg) (s : State) : Host.Outcome State Fault Refusal := s.issue (.bfi x) x.gd.holds (regFx (bfi3 x))

/-- BPERM (R100). -/
def execBperm (x : Tri) (s : State) : Host.Outcome State Fault Refusal := s.issue (.bperm x) x.gd.holds (regFx (tri bpermOf x))

/-- SEL (R101). -/
def execSel (x : SelArg) (s : State) : Host.Outcome State Fault Refusal := s.issue (.sel x) x.gd.holds (regFx (sel2 x))

/-- MOV (R97). -/
def execMov (x : Log1) (s : State) : Host.Outcome State Fault Refusal := s.issue (.mov x) x.gd.holds (regFx (log1 .mov x))

/-- LEA (R102). -/
def execLea (x : LeaArg) (s : State) : Host.Outcome State Fault Refusal := s.issue (.lea x) x.gd.holds (regFx (lea2 x))

/-- CMP (R103). -/
def execCmp (x : CmpArg) (s : State) : Host.Outcome State Fault Refusal := s.issue (.cmp x) x.gd.holds (regFx (cmp2 x))

/-- PAND (R104). -/
def execPand (x : PredArg) (s : State) : Host.Outcome State Fault Refusal := s.issue (.pand x) x.gd.holds (regFx (predOp (fun a b => a && b) x))

/-- POR (R104). -/
def execPor (x : PredArg) (s : State) : Host.Outcome State Fault Refusal := s.issue (.por x) x.gd.holds (regFx (predOp (fun a b => a || b) x))

/-- PXOR (R104). -/
def execPxor (x : PredArg) (s : State) : Host.Outcome State Fault Refusal := s.issue (.pxor x) x.gd.holds (regFx (predOp (fun a b => a != b) x))

def pnot1 (x : PnotArg) (l : Lane) (t : Thread) : Thread := t.predResult x.pd (!l.t.pred x.pa)

/-- PNOT (R104). -/
def execPnot (x : PnotArg) (s : State) : Host.Outcome State Fault Refusal := s.issue (.pnot x) x.gd.holds (regFx (pnot1 x))

/-- PMOV (R105). -/
def execPmov (x : PmovArg) (s : State) : Host.Outcome State Fault Refusal := s.issue (.pmov x) x.gd.holds (regFx (pmov1 x))

/-- GETS (R106). -/
def execGets (x : GetsArg) (s : State) : Host.Outcome State Fault Refusal := s.issue (.gets x) x.gd.holds (regFx (gets1 x))

/-- SETS (R106). -/
def execSets (x : SetsArg) (s : State) : Host.Outcome State Fault Refusal := s.issue (.sets x) x.gd.holds (regFx (sets1 x))

end Sys2Proof.Machine
end

