-- ==== Sys2Proof/Machine/Place.lean ====
section
/-!
DEFINITION. What teams claim of a core and where a team fits: slots, registers, context-table entries, tags, scratchpad
(02 R43 to R45, R54, 13 R311, R312).
-/

namespace Sys2Proof.Machine

/-- Slots a team of `n` threads takes: its own, or whole boughs (R45). -/
def slotSpan (n : Nat) : Nat := if n ≤ 32 then n else (n + 31) / 32 * 32

/-- Bytes a region takes (R312). -/
def regionSpan (region : Nat) : Nat := (region + 127) / 128 * 128

/-- What a team asks of a core (R43). -/
structure Need43 where
  n : Nat
  bytes : Nat
  ents : Nat
  tags : Nat
  region : Nat
  deriving DecidableEq, Repr

/-- The claim of a launch record's teams. -/
def needOf (r : List Byte) : Need43 := ⟨lrTeam r, lrTeam r * lrRegs r * 4, 1 + lrFan r * lrDep r, lrTags r, max (lrScr r) 128⟩

/-- The team fits an empty core (R43). -/
def Need43.fitsEmpty (x : Need43) : Bool :=
  decide (x.n ≤ 512) && decide (x.bytes ≤ 393216) && decide (x.ents ≤ 128) && decide (x.tags ≤ 64) && decide (regionSpan x.region ≤ scrBytes)

/-- A claim held on a core: by a team there, or by one that is moving there. -/
structure Claim where
  team : Nat
  grid : Nat
  first : Nat
  argp : Nat
  need : Need43
  deriving DecidableEq, Repr

def State.lrecOfTeam (s : State) (m : Team) : List Byte := match s.grid? m.grid with
  | none => []
  | some g => g.lrec

/-- The claims held on a core. -/
def State.claims (s : State) (c : Nat) : List Claim :=
  s.teams.flatMap (fun e =>
    let need := needOf (s.lrecOfTeam e.2)
    (if e.2.core = c then [⟨e.1, e.2.grid, e.2.first, e.2.argp, need⟩] else [])
      ++ (match e.2.moving with
        | none => []
        | some (d, f) => if d = c then [⟨e.1, e.2.grid, f, e.2.argp, need⟩] else []))

/-- No claim covers a slot. -/
def slotFree (l : List Claim) (k : Nat) : Bool := !l.any (fun x => decide (x.first ≤ k) && decide (k < x.first + slotSpan x.need.n))

def boughEmpty (l : List Claim) (b : Nat) : Bool := (List.range 32).all (fun i => slotFree l (32 * b + i))

/-- The lowest run of `n` free slots of a bough. -/
def freeRun (l : List Claim) (b n : Nat) : Option Nat :=
  (firstBelow (33 - n) (fun i => (List.range n).all (fun j => slotFree l (32 * b + i + j)))).map (fun i => 32 * b + i)

/-- The first slot a team of a grid takes on a core (R45, R312). -/
def firstSlot (l : List Claim) (grid n : Nat) : Option Nat :=
  if n ≤ 32 then
    let mine (b : Nat) : Bool := l.any (fun x => x.grid == grid && decide (x.first < 32 * (b + 1)) && decide (32 * b < x.first + slotSpan x.need.n))
    match firstBelow 16 (fun b => mine b && (freeRun l b n).isSome) with
    | some b => freeRun l b n
    | none => (firstBelow 16 (boughEmpty l)).map (fun b => 32 * b)
  else
    let k := (n + 31) / 32
    (firstBelow (17 - k) (fun b => (List.range k).all (fun j => boughEmpty l (b + j)))).map (fun b => 32 * b)

/-- Scratchpad bytes that no claim covers. -/
def scrFree (l : List Claim) (off len : Nat) : Bool :=
  decide (off + len ≤ scrBytes) && l.all (fun x => decide (x.argp + regionSpan x.need.region ≤ off) || decide (off + len ≤ x.argp))

/-- The lowest free region of a size (R312); the end of a claim is the only place it can begin besides 0. -/
def scrFor (l : List Claim) (len : Nat) : Option Nat :=
  (((0 :: l.map (fun x => x.argp + regionSpan x.need.region)).filter (fun o => scrFree l o len)).foldl
    (fun (a : Option Nat) o => match a with
      | none => some o
      | some b => some (min b o)) none)

/-- The accounts that are sums hold the claim too. -/
def sumsFit (l : List Claim) (x : Need43) : Bool :=
  decide ((l.map (fun c => c.need.bytes)).sum + x.bytes ≤ 393216) && decide ((l.map (fun c => c.need.ents)).sum + x.ents ≤ 128)
    && decide ((l.map (fun c => c.need.tags)).sum + x.tags ≤ 64)

/-- Where a team of a grid fits among claims: first slot and region offset; at a given offset when one is named (R54). -/
def fitAmong (l : List Claim) (grid : Nat) (x : Need43) (argp : Option Nat) : Option (Nat × Nat) :=
  if !sumsFit l x then none
  else
    let o := match argp with
      | some o => if scrFree l o (regionSpan x.region) then some o else none
      | none => scrFor l (regionSpan x.region)
    match firstSlot l grid x.n, o with
    | some f, some o => some (f, o)
    | _, _ => none

def State.fitOn (s : State) (c grid : Nat) (x : Need43) (argp : Option Nat) : Option (Nat × Nat) := fitAmong (s.claims c) grid x argp

/-- The boughs that a team's slots touch. -/
def boughsFrom (first n : Nat) : List Nat := (List.range ((first % 32 + n + 31) / 32)).map (fun i => first / 32 + i)

/-- The boughs of newly taken slots are bound to the grid, with its priority and age stamp where they were not (R38, R312). -/
def State.bindBoughs (s : State) (c grid first n : Nat) : State :=
  match s.grid? grid with
  | none => s
  | some g => s.updCore c (fun k => (boughsFrom first n).foldl (fun k b =>
      if (k.bough b).grid = some grid then k
      else k.updBough b (fun x => { x with grid := some grid, prio := lrPrio g.lrec, age := g.age })) k)

/-- Boughs that hold no claim any more are unbound (R38). -/
def State.unbindBoughs (s : State) (c : Nat) : State :=
  let l := s.claims c
  s.updCore c (fun k => (List.range 16).foldl (fun k b =>
    if (k.bough b).grid.isSome && boughEmpty l b then k.updBough b (fun _ => Bough.reset) else k) k)

/-- The lowest-numbered tags of a core that no team holds (R207, R312). -/
def State.freeTags (s : State) (c n : Nat) : List Nat :=
  ((List.range 64).filter (fun k => !s.teams.any (fun e => e.2.core == c && e.2.tags.contains k))).take n

end Sys2Proof.Machine
end

