-- ==== Sys2Proof/Machine/Team.lean ====
section
/-!
DEFINITION. Team collectives, team-call and leaving a team: TCALL, TCALLS, TRET, TBAR, TVOTE, TXCH, TMIGR, EXIT (07 R163, R166 to
R176).
-/

namespace Sys2Proof.Machine

/-! ### Parts of a team -/

def State.ctx? (s : State) (team ctx : Nat) : Option CtxEnt := (s.team? team).bind (fun m => SMap.find? m.ctxs ctx)

def State.updCtx (s : State) (team ctx : Nat) (f : CtxEnt → CtxEnt) : State :=
  s.updTeam team (fun m => { m with ctxs := SMap.upd m.ctxs ctx f })

/-- Boughs of some slots. -/
def boughsOf (slots : List Nat) : List Nat := distinct (slots.map boughOf)

/-- Step traps of lanes whose word completed after issue, one sub-group for each home bough (R369). -/
def State.stepTrapsHome (s : State) (pc : DWord) (slots : List Nat) : State :=
  (boughsOf slots).foldl (fun s b =>
    let l := slots.filter (fun k => boughOf k == b)
    s.stepTrapsOn (coreOf (l.headD 0)) b pc l) s

/-- Lanes held at a word fault there after its issue, one sub-group for each home bough. -/
def State.faultHome (s : State) (code : BitVec 8) (va : Nat) (slots : List Nat) : State :=
  let s := slots.foldl (fun s k => s.updThread k (fun t => { t with hold := .none })) s
  (boughsOf slots).foldl (fun s b =>
    let l := slots.filter (fun k => boughOf k == b)
    s.fault (coreOf (l.headD 0)) b (l.filterMap (fun k => (s.thread? k).map (fun t =>
      ⟨k, code, t.pc, t.pc, BitVec.ofNat 64 va, 0, false, false, none⟩)))) s

/-! ### Arriving (R166, R167) -/

/-- A lane's operands at its arrival, and whether it contributes. -/
def Lane.arrival (l : Lane) (i : Instr) : Arr :=
  let z : Arr := ⟨l.slot, i.on l.t, 0, 0, false⟩
  match i with
  | .tcall x => { z with a := l.src 0 true x.a, b := l.src 1 false x.b }
  | .tcalls x =>
    let a := l.src 0 false x.a
    { z with a := a, b := l.src 1 false x.b, contrib := z.contrib && decide (a.toNat ≤ x.cntm1.toNat) }
  | .tvote x => { z with
      v := l.t.pred x.ps != x.neg
      b := match x.mode with
        | .ballot _ b => l.src 1 false b
        | _ => 0 }
  | .txch x => { z with a := l.src 0 x.w x.a, b := l.src 1 false x.b }
  | .tmigr x => { z with a := l.src 0 false x.a }
  | _ => z

/-- The open record of a lane's team or sub-team is at another word or PC. -/
def Lane.collClash (l : Lane) (word : DWord) : Bool :=
  match (l.s.ctx? l.t.team l.t.ctx).bind (·.coll) with
  | none => false
  | some r => r.word != word || r.pc != l.t.pc

/-- A lane's arrival is recorded, and the lane leaves its regroup record (R165). -/
def State.joinColl (s : State) (word pc : DWord) (a : Arr) : State :=
  match s.thread? a.slot with
  | none => s
  | some t => (s.updCtx t.team t.ctx (fun c => { c with coll := some (match c.coll with
      | none => ⟨word, pc, [a], none, none⟩
      | some r => { r with arrs := r.arrs ++ [a] }) })).leaveRegroup a.slot

/-! ### Completion of a collective (R166) -/

/-- A lane is awaited no more: it has exited, or returned. -/
def State.gone (s : State) (k : Nat) : Bool := match s.thread? k with
  | none => true
  | some t => t.st == .exited || t.st == .returned

def State.collReady (s : State) (c : CtxEnt) (r : Coll) : Bool :=
  c.lanes.all (fun k => s.gone k || r.arrs.any (fun a => a.slot == k))

/-- Every arrived lane leaves at PC + 8 with its change, and the record closes. -/
def State.releaseColl (s : State) (team ctx : Nat) (r : Coll) (f : Arr → Thread → Thread) : State :=
  let s := s.updCtx team ctx (fun c => { c with coll := none, state := 1 })
  let s := r.arrs.foldl (fun s a => s.updThread a.slot (fun t => { (f a t).next with hold := .none })) s
  s.stepTrapsHome r.pc (r.arrs.map (·.slot))

/-- A lane's index in its team or sub-team. -/
def State.laneOf (s : State) (k : Nat) : Nat := match s.thread? k with
  | none => 0
  | some t => t.lane

def insertBy {α : Type} (f : α → Nat) (a : α) : List α → List α
  | [] => [a]
  | b :: l => if f a ≤ f b then a :: b :: l else b :: insertBy f a l

def sortBy {α : Type} (f : α → Nat) : List α → List α
  | [] => []
  | a :: l => insertBy f a (sortBy f l)

/-- The contributors in ascending lane index. -/
def State.contributors (s : State) (r : Coll) : List Arr := sortBy (fun a => s.laneOf a.slot) (r.arrs.filter (·.contrib))

/-! ### TVOTE and TXCH (R169, R170) -/

/-- The contributor of a lane index. -/
def State.atLane (s : State) (con : List Arr) (lane : Nat) : Option Arr := con.find? (fun a => s.laneOf a.slot == lane)

def State.ballot (s : State) (con : List Arr) (b : DWord) : DWord :=
  BitVec.ofNat 64 (((List.range 64).map (fun j => match s.atLane con (64 * (b.toNat % 8) + j) with
    | none => 0
    | some a => if a.v then 2 ^ j else 0)).sum)

/-- A contributor's result of a vote. -/
def State.voted (s : State) (mode : Vote) (con : List Arr) (a : Arr) (t : Thread) : Thread :=
  match mode with
  | .all p => t.predResult p (con.all (·.v))
  | .any p => t.predResult p (con.any (·.v))
  | .uni p => t.predResult p (con.all (·.v) || !con.any (·.v))
  | .ballot d _ => t.result true d (s.ballot con a.b)
  | .count d => t.result false d (BitVec.ofNat 64 (con.filter (·.v)).length)

/-- A contributor's result of an exchange. -/
def State.exchanged (s : State) (w : Bool) (d : Dst) (con : List Arr) (a : Arr) (t : Thread) : Thread :=
  t.result w d (if a.b.toNat < t.tsize then ((s.atLane con a.b.toNat).map (·.a)).getD 0 else 0)

/-- Spawned threads of a record come back to their slots. -/
def State.unspawn (s : State) (slots : List Nat) : State :=
  slots.foldl (fun s k => s.updThread k (fun t => { t with st := if t.st = .spawned then .ready else t.st })) s

/-- A team begins a move or a save: the records that gather its threads are dissolved, and its threads leave regrouped boughs
(R165, R374). -/
def State.dissolve (s : State) (m : Team) : State :=
  let mine (r : Regroup) : Bool := r.slots.any (fun k => m.slots.contains k)
  let recs := ((s.core m.core).regroup.filter (fun e => !e.2.admitted && mine e.2)).map (·.2)
  let s := recs.foldl (fun s r => r.slots.foldl (fun s k => s.leaveRegroup k) (s.unspawn r.slots)) s
  m.slots.foldl (fun s k => s.leaveRegroup k) s

/-! ### TMIGR (R176) -/

/-- TMIGR completes: nothing moves, or the team begins its move to a core that has room (R53, R54). With no contributor there is no A,
and nothing moves (log 61: DESIGN CHOICE). -/
def State.completeMigr (s : State) (team ctx : Nat) (m : Team) (r : Coll) : State :=
  let con := s.contributors r
  let go (s : State) : State := s.releaseColl team ctx r (fun _ t => t)
  match con with
  | [] => go s
  | a :: _ =>
    let c := groveOf m.core * coresPerGrove + a.a.toNat
    let room := if a.a.toNat < coresPerGrove ∧ ctx = 0 then s.fitOn c m.grid (needOf (s.lrecOfTeam m)) (some m.argp) else none
    if a.a.toNat < coresPerGrove ∧ ctx = 0 ∧ c = m.core then go s
    else
      match room with
      | none =>
        let s := s.releaseColl team ctx { r with arrs := r.arrs.filter (fun b => !b.contrib) } (fun _ t => t)
        s.faultHome 0x23 a.a.toNat (con.map (·.slot))
      | some (f, _) =>
        let s := (go s).dissolve m
        (s.updTeam team (fun m => { m with moving := some (c, f) })).bindBoughs c m.grid f m.n

/-! ### Team-call (R171 to R174) -/

/-- The position of the largest number, the first of equals. -/
def largest : List Nat → Nat
  | [] => 0
  | a :: l => if l.all (fun b => decide (b ≤ a)) then 0 else largest l + 1

/-- `r` further lanes, each to the callee of the largest remainder not yet chosen. -/
def giveRest : Nat → List Nat → List Nat → List Nat
  | 0, q, _ => q
  | r + 1, q, f =>
    let c := largest f
    giveRest r (q.set c (q.getD c 0 + 1)) (f.set c 0)

/-- Lanes for each callee of TCALL (R172). -/
def shares (n : Nat) (w : List Nat) : List Nat :=
  let W := w.sum
  if W = 0 then w.map (fun _ => 0)
  else
    let q := w.map (fun x => n * x / W)
    giveRest (n - q.sum) q (w.map (fun x => n * x % W))

/-- A list cut into pieces of the given lengths. -/
def cutInto {α : Type} : List Nat → List α → List (List α)
  | [], _ => []
  | n :: ns, l => l.take n :: cutInto ns (l.drop n)

/-- The contributors of each callee (R172). -/
def callParts (byWeight : Bool) (cnt : Nat) (con : List Arr) : List (List Nat) :=
  if byWeight then
    let a := (con.headD ⟨0, false, 0, 0, false⟩).a
    cutInto (shares con.length ((List.range cnt).map (fun c => bits a (8 * c) 8))) (con.map (·.slot))
  else (List.range cnt).map (fun c => (con.filter (fun a => a.a.toNat == c)).map (·.slot))

/-- A callee's entry: an address, a fault with its address, or a host translation to wait for. -/
inductive Entry where
  | pc (a : DWord)
  | fault (code : BitVec 8) (va : Nat)
  | ask (vpn : Nat)

/-- The address checks of R155; of an address that breaks both, 0x12 is taken (log 62: DESIGN CHOICE). -/
def badTarget (a : DWord) : Option (BitVec 8) :=
  if 2 ^ 55 ≤ a.toNat then some 0x12 else if a.toNat % 8 ≠ 0 then some 0x10 else none

/-- An entry of the callee table, read as LD.d.k on a lane would (R171). -/
def State.tableEntry (s : State) (slot off : Nat) : State × Entry :=
  match s.thread? slot with
  | none => (s, .fault 0x12 0)
  | some t =>
    let l : Lane := ⟨{ s with fresh := s.fresh + 1 }, slot, t, s.fresh⟩
    let va := l.constVa off
    match l.rangeFault .k off 8 with
    | some c => (s, .fault c va)
    | none =>
      match l.find .k off 8 .read with
      | .fault c => (s, .fault c va)
      | .ask vpn _ => (s, .ask vpn)
      | .here p _ =>
        let o := { l.op .ld .clean (BitVec.ofNat 64 va) p 8 [] with todo := pieces va 8 }
        let (s, r) := (s.takeFresh 8).readPieces o t.acqStamp .none o.todo
        match r with
        | .error c => (s, .fault c va)
        | .ok o =>
          let a := BitVec.ofNat 64 (leNat o.buf)
          match badTarget a with
          | some c => (s, .fault c a.toNat)
          | none => (s, .pc a)

/-- The entries of the callees called, in order, or what the first bad one met. -/
def State.tableEntries (s : State) (slot base : Nat) : List Nat → State × (List DWord ⊕ Entry)
  | [] => (s, .inl [])
  | c :: cs =>
    match s.tableEntry slot ((base + 8 * c) % 2 ^ 32) with
    | (s, .pc a) => match tableEntries s slot base cs with
      | (s, .inl l) => (s, .inl (a :: l))
      | x => x
    | (s, e) => (s, .inr e)

/-- The contributors of a call are withdrawn and park; the record stays open (R171). -/
def State.callFault (s : State) (team ctx : Nat) (con : List Arr) (code : BitVec 8) (va : Nat) : State :=
  let s := s.updCtx team ctx (fun c => { c with state := 1, coll := c.coll.map (fun r =>
    { r with arrs := r.arrs.filter (fun a => !con.any (fun b => b.slot == a.slot)), wait := none, pcs := none }) })
  s.faultHome code va (con.map (·.slot))

/-- Free context-table entries of a nesting level (R174). -/
def Team.freeEntries (m : Team) (fan level : Nat) : List Nat :=
  ((List.range fan).map (fun i => 1 + fan * (level - 1) + i)).filter (fun e => (SMap.find? m.ctxs e).isNone)

/-- A call of the same level has waited longer for entries (R174). -/
def Team.aheadOf (m : Team) (c : CtxEnt) (r : Coll) : Bool :=
  m.ctxs.any (fun e => e.2.level == c.level && (match e.2.coll with
    | none => false
    | some q => q.pcs.isSome && (match q.wait, r.wait with
      | some w, some v => decide (w < v)
      | some _, none => true
      | none, _ => false)))

/-- A complete call waits, for the host's translation of its table or, its callees' entries read, for context-table entries. -/
def State.waitCall (s : State) (team ctx : Nat) (pcs : Option (List DWord)) : State :=
  { s.updCtx team ctx (fun c => { c with state := 3, coll := c.coll.map (fun r =>
      { r with wait := some (r.wait.getD s.stamp), pcs := r.pcs.or pcs }) }) with stamp := s.stamp + 1 }

/-- A lane enters a callee (R173). -/
def Thread.enter (t : Thread) (ctx lane size : Nat) (pc : DWord) (tag : BitVec 8) : Thread :=
  { t with pushed := t.pushed ++ [(t.lane, t.tsize)], plane := if t.ctx = 0 then t.lane else t.plane,
           lane := lane, tsize := size, ctx := ctx, pcw := pcOf pc, landing := some tag, hold := .none }

/-- The split (R173): `subs` gives each callee called, its context-table entry, its address and its lanes. -/
def State.split (s : State) (team ctx : Nat) (c : CtxEnt) (r : Coll) (tag : BitVec 8) (subs : List (Nat × Nat × DWord × List Nat)) :
    State :=
  let inSub (k : Nat) : Bool := subs.any (fun x => x.2.2.2.contains k)
  let idle := (r.arrs.map (·.slot)).filter (fun k => !inSub k)
  let s := s.closeCtx team ctx
  let s := s.updCtx team ctx (fun c => { c with
    state := 2, coll := none, called := BitVec.ofNat 8 ((subs.map (fun x => 2 ^ x.1)).sum), callRet := r.pc + 8, idle := idle })
  let s := subs.foldl (fun s (callee, e, pc, lanes) =>
    let s := s.updTeam team (fun m => { m with ctxs := m.ctxs.put e ⟨1, c.level + 1, ctx, callee, lanes, r.pc + 8, none, 0, 0, []⟩ })
    lanes.zipIdx.foldl (fun s (k, i) => s.updThread k (fun t => t.enter e i lanes.length pc tag)) s) s
  let s := idle.foldl (fun s k => s.updThread k (fun t =>
    { t.next with st := .returned, hold := .none, due := if t.step then some r.pc else none })) s
  s.stepTrapsHome r.pc (subs.flatMap (fun x => x.2.2.2))

/-- The entries of the callees called: read now, or when the call was first complete (R171). -/
def State.callEntries (s : State) (r : Coll) (a : Arr) (called : List Nat) : State × (List DWord ⊕ Entry) :=
  match r.pcs with
  | some pcs => (s, .inl pcs)
  | none => s.tableEntries a.slot a.b.toNat called

/-- A call completes: it faults, calls no callee, waits for entries, or splits (R171 to R174). The callees' entries are read as it
completes, before it waits for entries of the context table. Where a 0x20 of R174 and a fault of the table both hold, the contributors
take 0x20, and of several entries that fault they take the code of the first callee called: the manual gives no order (log 79: DESIGN
CHOICE). -/
def State.completeCall (s : State) (team ctx : Nat) (m : Team) (c : CtxEnt) (r : Coll) (byWeight : Bool) (cnt : Nat)
    (tag : BitVec 8) : State :=
  let rec' := s.lrecOfTeam m
  let con := s.contributors r
  if !con.isEmpty && (decide (lrFan rec' < cnt) || c.level == lrDep rec') then s.callFault team ctx con 0x20 0
  else
    let parts := callParts byWeight cnt con
    let called := (List.range cnt).filter (fun i => !(parts.getD i []).isEmpty)
    if called.isEmpty then (s.closeCtx team ctx).releaseColl team ctx r (fun _ t => { t with tcret := 0 })
    else
      let first := con.headD ⟨0, false, 0, 0, false⟩
      match s.callEntries r first called with
      | (s, .inr (.fault code va)) => (s.usedAnswer (.lane first.slot)).callFault team ctx con code va
      | (s, .inr (.ask vpn)) => (s.askHost (.lane first.slot) (s.partOfTeam team) vpn false).waitCall team ctx none
      | (s, .inr (.pc _)) => s
      | (s, .inl pcs) =>
        let free := m.freeEntries (lrFan rec') (c.level + 1)
        if free.length < called.length ∨ m.aheadOf c r then s.waitCall team ctx (some pcs)
        else s.split team ctx c r tag ((called.zip (free.zip pcs)).map (fun (i, e, pc) => (i, e, pc, parts.getD i [])))

/-! ### The effect of each collective -/

/-- The effect of a collective that is complete, by its word. -/
def State.completeColl (s : State) (team ctx : Nat) (m : Team) (c : CtxEnt) (r : Coll) : State :=
  let con := s.contributors r
  match decodeWord 256 r.word with
  | .ok (.tbar _) =>
    let s := (s.closeCtx team ctx).releaseColl team ctx r (fun _ t => t)
    if m.seg.isSome && ctx == 0 then s.updTeam team (fun m => { m with ckpt := true }) else s
  | .ok (.tvote x) => s.releaseColl team ctx r (fun a t => if a.contrib then s.voted x.mode con a t else t)
  | .ok (.txch x) => s.releaseColl team ctx r (fun a t => if a.contrib then s.exchanged x.w x.d con a t else t)
  | .ok (.tmigr _) => s.completeMigr team ctx m r
  | .ok (.tcall x) => s.completeCall team ctx m c r true (x.cntm1.toNat + 1) x.tag
  | .ok (.tcalls x) => s.completeCall team ctx m c r false (x.cntm1.toNat + 1) x.tag
  | _ => s

/-- The collective of a team or sub-team completes if every lane it awaits has arrived (R166). -/
def State.tryColl (s : State) (team ctx : Nat) : State :=
  match s.team? team with
  | none => s
  | some m => match SMap.find? m.ctxs ctx with
    | none => s
    | some c => match c.coll with
      | none => s
      | some r => if r.wait.isSome || !s.collReady c r then s else s.completeColl team ctx m c r

/-! ### The rejoin (R173) -/

/-- A lane comes back to its parent. -/
def Thread.rejoined (t : Thread) (ctx : Nat) (called : BitVec 8) (ret : DWord) : Thread :=
  match t.pushed.reverse with
  | [] => t
  | (lane, size) :: up =>
    { t with pushed := up.reverse, lane := lane, tsize := size, ctx := ctx, tcret := called
             st := if t.st = .returned then .ready else t.st
             pcw := if t.st = .returned then pcOf ret else t.pcw }

/-- The call of a team or sub-team rejoins if every lane of every sub-team of it has returned or exited. -/
def State.tryRejoin (s : State) (team ctx : Nat) : State :=
  match s.team? team with
  | none => s
  | some m => match SMap.find? m.ctxs ctx with
    | none => s
    | some c =>
      let subs := m.ctxs.filter (fun e => e.2.level == c.level + 1 && e.2.parent == ctx)
      if c.state != 2 || !subs.all (fun e => e.2.state == 1 && e.2.lanes.all s.gone) then s
      else
        let s := subs.foldl (fun s e =>
          e.2.lanes.foldl (fun s k => s.updThread k (fun t => t.rejoined ctx c.called c.callRet)) s) s
        let s := c.idle.foldl (fun s k => s.updThread k (fun t =>
          { t with tcret := c.called, st := if t.st = .returned then .ready else t.st })) s
        s.updTeam team (fun m => { m with
          ctxs := SMap.upd (m.ctxs.filter (fun e => !subs.any (fun x => x.1 == e.1))) ctx (fun c => { c with
            state := 1, called := 0, callRet := 0, idle := [] }) })

/-- What a team's lanes that arrived, returned or exited bring about: entries close, collectives complete, calls rejoin. -/
def State.settleTeam (s : State) (team : Nat) : State :=
  let s := s.closeFull team
  let keys : List Nat := match s.team? team with
    | none => []
    | some m => (m.ctxs.map (·.1)).reverse
  let s := keys.foldl (fun (s : State) k => s.tryColl team k) s
  keys.foldl (fun s k => s.tryRejoin team k) s

/-! ### The meanings -/

/-- The lanes of a collective word arrive and wait; one whose word or PC differs from the open record's faults (R166, R167). -/
def State.arriveColl (s : State) (i : Instr) : State × List Nat :=
  let word := (encode i).getD 0
  let r := s.runLanes i (fun _ => true) (fun l =>
    if l.collClash word then .fault 0x22 0 0 false else .ok { th := fun t => { t with hold := .coll }, jump := some l.t.pc })
  (r.took.zipIdx.foldl (fun z (k, j) => match s.thread? k with
    | none => z
    | some t => z.joinColl word s.cur.pc (Lane.arrival ⟨s, k, t, s.fresh + laneFree * j⟩ i)) r.s, r.took)

/-- A collective word: its lanes arrive and wait, and the collective completes with the last (R166). -/
def State.issueColl (s : State) (i : Instr) : Host.Outcome State Fault Refusal :=
  let r := s.arriveColl i
  .next ((distinct (r.2.filterMap s.teamOf)).foldl (fun z m => z.settleTeam m) r.1)

/-- TCALL (R171 to R174). -/
def execTcall (x : TcallArg) (s : State) : Host.Outcome State Fault Refusal := s.issueColl (.tcall x)

/-- TCALLS (R171 to R174). -/
def execTcalls (x : TcallArg) (s : State) : Host.Outcome State Fault Refusal := s.issueColl (.tcalls x)

/-- TBAR (R168). -/
def execTbar (x : GOnly) (s : State) : Host.Outcome State Fault Refusal := s.issueColl (.tbar x)

/-- TVOTE (R169). -/
def execTvote (x : TvoteArg) (s : State) : Host.Outcome State Fault Refusal := s.issueColl (.tvote x)

/-- TXCH (R170). -/
def execTxch (x : TxchArg) (s : State) : Host.Outcome State Fault Refusal := s.issueColl (.txch x)

/-- TMIGR (R176). -/
def execTmigr (x : TmigrArg) (s : State) : Host.Outcome State Fault Refusal := s.issueColl (.tmigr x)

/-- Lanes that left by TRET or EXIT leave their regroup records, and what awaited them goes on (R165). -/
def State.departed (s : State) (slots : List Nat) : State :=
  let s' := slots.foldl (fun z k => z.leaveRegroup k) s
  (distinct (slots.filterMap s.teamOf)).foldl (fun z m => z.settleTeam m) s'

/-- TRET (R173): the returned lane awaits the rejoin; with an empty stack 0x20 (R174). -/
def execTret (x : GOnly) (s : State) : Host.Outcome State Fault Refusal :=
  let r := s.runLanes (.tret x) x.gd.holds (fun l =>
    if l.t.ctx = 0 then .fault 0x20 0 0 false
    else .ok { th := fun t => { t with st := .returned, due := if t.step then some t.pc else none }, jump := some l.t.pc })
  .next ((r.s.departed r.took).stepTraps s.cur.pc r.off)

/-- EXIT (R163). -/
def execExit (x : GOnly) (s : State) : Host.Outcome State Fault Refusal :=
  let r := s.runLanes (.exit x) x.gd.holds (fun l => .ok { th := fun t => { t with st := .exited }, jump := some l.t.pc })
  .next ((r.s.departed r.took).stepTraps s.cur.pc r.off)

/-- TCALL_ENTRY_GRANT (R174): a call that waits for entries is tried again. -/
def execTcallEntryGrant (team ctx : Nat) (s : State) : Host.Outcome State Fault Refusal :=
  match s.team? team with
  | none => .next s
  | some m => match SMap.find? m.ctxs ctx with
    | none => .next s
    | some c => match c.coll with
      | none => .next s
      | some r => if r.wait.isSome && s.collReady c r then .next (s.completeColl team ctx m c r) else .next s

end Sys2Proof.Machine
end

