-- ==== Sys2Proof/Machine/Control.lean ====
section
/-!
DEFINITION. Transfers of control, hints, respawn and the regrouper, and the ends of waits (07 R155 to R165, 08 R201, 16 R363).
-/

namespace Sys2Proof.Machine

/-! ### Respawn and the regrouper (R164, R165) -/

/-- Units of spawn memory a thread of a grid takes (R164). -/
def spawnUnits (r : List Byte) : Nat := (4 * lrRegs r + 128 + 127) / 128

/-- Units in use on a core. -/
def State.unitsUsed (s : State) (c : Nat) : Nat :=
  ((s.threads.filter (fun e => coreOf e.1 == c && e.2.st == .spawned)).map (fun e => spawnUnits (s.lrecOf e.2))).sum

/-- The record a minority joins: one that gathers the same grid and PC with room, or a free one. -/
def CoreSt.spawnRec (c : CoreSt) (grid : Nat) (pc : DWord) (m : Nat) : Option Nat :=
  match firstBelow 8 (fun i => match SMap.find? c.regroup i with
    | none => false
    | some r => !r.admitted && r.grid == grid && r.pc == pc && decide (r.slots.length + m ≤ 32)) with
  | some i => some i
  | none => firstBelow 8 (fun i => (SMap.find? c.regroup i).isNone)

/-- One minority moves to spawn memory, if a record and units are free (R164). -/
def State.spawn (s : State) (pc : DWord) (slots : List Nat) : State :=
  let core := s.cur.core
  match (slots.head?).bind s.thread? with
  | none => s
  | some t =>
    let grid := ((s.team? t.team).map (·.grid)).getD 0
    match (s.core core).spawnRec grid pc slots.length with
    | none => s
    | some i =>
      if 768 < s.unitsUsed core + spawnUnits (s.lrecOf t) * slots.length then s
      else
        let now := s.cycleOf core
        let s := s.updCore core (fun c => { c with regroup := SMap.alter c.regroup i (fun r => match r with
          | none => some ⟨grid, pc, slots, now, false⟩
          | some r => some { r with slots := r.slots ++ slots }) })
        slots.foldl (fun s k => s.updThread k (fun t => { t with st := .spawned })) s

/-- A part of a divided issuing set comes before another as majority: larger, or as large with the lower PC. -/
def majorOf : List (DWord × List Nat) → Option (DWord × List Nat)
  | [] => none
  | p :: l => match majorOf l with
    | none => some p
    | some q =>
      if q.2.length < p.2.length ∨ (q.2.length = p.2.length ∧ p.1.toNat < q.1.toNat) then some p else some q

/-- The minorities of a branch are respawned where they can be (R164). Lanes whose guard was false count among those at the next
word, and do not spawn (R156). Where records or units do not suffice for all, the minorities are served by ascending target PC
(log 63: DESIGN CHOICE). -/
def State.respawn (s : State) (took off : List Nat) : State :=
  if 16 ≤ s.cur.bough then s
  else
    let live := (took ++ off).filterMap (fun k => match s.thread? k with
      | none => none
      | some t => if t.st == .ready then some (k, t.pc) else none)
    let parts := (distinct (live.map (·.2))).map (fun pc => (pc, (live.filter (fun e => e.2 == pc)).map (·.1)))
    match majorOf parts, (took.head?).bind s.thread? with
    | some major, some t =>
      let limit := lrRsp (s.lrecOf t)
      ((sortBy (fun p => p.1.toNat) parts).filter (fun p => p.1 != major.1 && decide (p.2.length ≤ limit))).foldl
        (fun s p => s.spawn p.1 (p.2.filter (fun k => took.contains k))) s
    | _, _ => s

/-- The team of a slot, or the sub-team that it is in, has an open collective (R165, R173). -/
def State.collOpen (s : State) (slot : Nat) : Bool :=
  match s.thread? slot with
  | none => false
  | some t => match (s.team? t.team).bind (fun m => m.ctxs.find? t.ctx) with
    | none => false
    | some c => c.coll.isSome

/-- REGROUP_READMIT (R165): a record that is full, 256 cycles old, or awaited by a collective becomes a regrouped bough. -/
def execRegroupReadmit (core rec' : Nat) (s : State) : Host.Outcome State Fault Refusal :=
  match SMap.find? (s.core core).regroup rec' with
  | none => .next s
  | some r =>
    if r.admitted || !(decide (32 ≤ r.slots.length) || decide (r.since + 256 ≤ s.cycleOf core) || r.slots.any s.collOpen) then .next s
    else
      let g := s.grid? r.grid
      let s := s.updCore core (fun c =>
        { c.updBough (16 + rec') (fun b => { b with
            grid := some r.grid, prio := (g.map (fun g => lrPrio g.lrec)).getD 0, age := (g.map (·.age)).getD 0 }) with
          regroup := c.regroup.put rec' { r with admitted := true } })
      .next (s.unspawn r.slots)

/-! ### Transfers of control (R155, R159, R160) -/

/-- A branch target from a PC and a signed word offset. -/
def relTarget (pc : DWord) (off : Int) : DWord := pc + BitVec.ofInt 64 (8 * off)

/-- A transfer to an address from a register, checked (R155). -/
def jumpTo (a : DWord) (th : Thread → Thread) : LaneRes :=
  match badTarget a with
  | some c => .fault c a 0 false
  | none => .ok { th := th, jump := some a }

/-- A word that branches: step traps, then respawn (R164). -/
def State.issueBranch (s : State) (i : Instr) (gd : Thread → Bool) (f : Lane → LaneRes) : Host.Outcome State Fault Refusal :=
  let r := s.runLanes i gd f
  .next ((r.s.stepTraps s.cur.pc (r.took ++ r.off)).respawn r.took r.off)

/-- BRA (R159). -/
def execBra (x : BraArg) (s : State) : Host.Outcome State Fault Refusal :=
  s.issueBranch (.bra x) x.gd.holds (fun l => .ok { jump := some (relTarget l.t.pc x.off.toInt) })

/-- CALL (R159). -/
def execCall (x : BraArg) (s : State) : Host.Outcome State Fault Refusal :=
  s.issue (.call x) x.gd.holds (fun l =>
    .ok { th := fun t => { t with lk := l.t.pc + 8 }, jump := some (relTarget l.t.pc x.off.toInt) })

/-- BRX (R160). -/
def execBrx (x : BrxArg) (s : State) : Host.Outcome State Fault Refusal :=
  s.issueBranch (.brx x) x.gd.holds (fun l => jumpTo (l.src 0 true x.a) (fun t => { t with landing := some x.tag }))

/-- CALLX (R160). -/
def execCallx (x : BrxArg) (s : State) : Host.Outcome State Fault Refusal :=
  s.issue (.callx x) x.gd.holds (fun l =>
    jumpTo (l.src 0 true x.a) (fun t => { t with landing := some x.tag, lk := l.t.pc + 8 }))

/-- RET (R160). -/
def execRet (x : GOnly) (s : State) : Host.Outcome State Fault Refusal := s.issue (.ret x) x.gd.holds (fun l => jumpTo l.t.lk (fun t => t))

/-! ### PAD and the hints (R161, R162) -/

/-- PAD (R161): a lane whose check is set passes it here only with the PAD's own tag. -/
def execPad (x : PadArg) (s : State) : Host.Outcome State Fault Refusal :=
  s.issue (.pad x) (fun _ => true) (fun _ => .ok { th := fun t => { t with landing := none } })

/-- REJOIN (R162, R165): the hold is over; a lane that executes it leaves its regroup record. -/
def execRejoin (x : GOnly) (s : State) : Host.Outcome State Fault Refusal :=
  let r := s.runLanes (.rejoin x) x.gd.holds (fun _ => .ok {})
  let s1 := r.took.foldl (fun z k => z.leaveRegroup k) r.s
  let s2 := (r.took ++ r.off).foldl (fun z k => z.updThread k (fun t => { t with rejoinSince := none, rejoinDone := false })) s1
  .next (s2.stepTraps s.cur.pc (r.took ++ r.off))

/-- YIELD (R162). -/
def execYld (x : YieldArg) (s : State) : Host.Outcome State Fault Refusal :=
  s.issue (.yld x) x.gd.holds (fun l =>
    .ok { th := fun t => { t with yieldUntil := some (s.cycleOf (coreOf l.slot) + 64 * 2 ^ x.k.toNat) } })

/-- NOP (R162). -/
def execNop (x : GOnly) (s : State) : Host.Outcome State Fault Refusal := s.issue (.nop x) x.gd.holds (fun _ => .ok {})

/-- REJOIN_HOLD_TIMEOUT (R162): 256 cycles after its first held cycle, a hold ends. -/
def execRejoinHoldTimeout (slot : Nat) (s : State) : Host.Outcome State Fault Refusal :=
  match s.thread? slot with
  | none => .next s
  | some t => match t.rejoinSince with
    | none => .next s
    | some c =>
      if c + 256 ≤ s.cycleOf (coreOf slot) then .next (s.updThread slot (fun t => { t with rejoinDone := true })) else .next s

/-! ### Ends of back-off (R162, R201, R363) -/

/-- YIELD_BACKOFF_END (R162). -/
def execYieldBackoffEnd (slot : Nat) (s : State) : Host.Outcome State Fault Refusal :=
  match (s.thread? slot).bind (·.yieldUntil) with
  | none => .next s
  | some c => if c ≤ s.cycleOf (coreOf slot) then .next (s.updThread slot (fun t => { t with yieldUntil := none })) else .next s

/-- POLL_BACKOFF_END (R201). -/
def execPollBackoffEnd (slot : Nat) (s : State) : Host.Outcome State Fault Refusal :=
  match (s.thread? slot).bind (·.pollUntil) with
  | none => .next s
  | some c => if c ≤ s.cycleOf (coreOf slot) then .next (s.updThread slot (fun t => { t with pollUntil := none })) else .next s

/-- PERMIT_RETRY (R363, R369): the wait is over, and a step trap that waited is tried again with the lanes of its bough that
wait alike; any other fault comes with the instruction's own next attempt. -/
def execPermitRetry (slot : Nat) (s : State) : Host.Outcome State Fault Refusal :=
  match s.thread? slot with
  | none => .next s
  | some t =>
    let over' := match t.retry with
      | none => t.due.isSome
      | some c => decide (c ≤ s.cycleOf (coreOf slot))
    if t.st != .ready || !over' then .next s
    else
      match t.due with
      | none => .next (s.updThread slot (fun t => { t with retry := none }))
      | some pc =>
        let alike := (s.threads.filter (fun e => coreOf e.1 == coreOf slot && boughOf e.1 == boughOf slot && e.2.st == .ready
          && e.2.hold == .none && e.2.retry == t.retry && e.2.due == t.due && e.2.pc == t.pc)).map (·.1)
        let s := alike.foldl (fun s k => s.updThread k (fun t => { t with retry := none, due := none })) s
        .next (s.stepTrapsOn (coreOf slot) (boughOf slot) pc alike)

end Sys2Proof.Machine
end

