-- ==== Sys2Proof/Machine/Image.lean ====
section
/-!
DEFINITION. The bytes of a team in an image or a shadow (16 R378, R380).
-/

namespace Sys2Proof.Machine

/-- Bytes put at offsets of a field of zeros of a length. -/
def layout (n : Nat) (l : List (Nat × List Byte)) : List Byte := l.foldl (fun b x => splice b x.1 x.2) (List.replicate n 0)

/-- A list of numbers as equal little-endian fields. -/
def fields (n : Nat) (l : List Nat) : List Byte := l.flatMap (fun v => leBytes n v)

/-- The sum of 2^i over some positions. -/
def maskOf (l : List Nat) : Nat := (distinct l).foldl (fun v i => v + 2 ^ i) 0

/-! ### Threads -/

/-- The slot state's code; a spawned thread was re-admitted before the save. -/
def SlotState.code : SlotState → Nat
  | .ready => 1
  | .waiting => 2
  | .parked => 3
  | .returned => 4
  | .spawned => 5
  | .exited => 6

/-- The open matrix entry of a thread's quarter and sequence number, and whether the thread has arrived at it: its word, its PC,
the arrival. -/
def Team.entryOf (m : Team) (t : Thread) : Nat × Nat × Nat :=
  match m.opens.find? (fun e => e.ctx == t.ctx && e.quarter == t.lane / 8) with
  | none => (0, 0, 0)
  | some e => (e.word.toNat, e.pc.toNat, b2n (e.arrs.any (fun a => a.1 == t.lane % 8)))

/-- A thread record, of 0x140 + 4 × regs bytes; `cycle` is sr.cycle. -/
def Thread.bytes (t : Thread) (m : Team) (regs : Nat) (cycle : Int) : List Byte :=
  let p := t.park.getD ⟨0, 0, 0, 0, 0, none, false, none⟩
  let (ew, epc, arrived) := m.entryOf t
  let (bx, ph) := t.bwait.getD (0, 0)
  let (ppc, pv) := t.poll.getD (0, 0)
  layout (0x140 + 4 * regs) [
    (0x00, [BitVec.ofNat 8 t.st.code]),
    (0x01, [BitVec.ofNat 8 (b2n p.svc + 2 * b2n p.defer.isSome + 4 * b2n t.landing.isSome)]),
    (0x02, [BitVec.ofNat 8 t.ctx, t.landing.getD 0]),
    (0x04, fields 2 [t.lane, t.tsize, t.plane]),
    (0x0A, [t.tcret, p.code]),
    (0x0C, leBytes 4 t.status),
    (0x10, fields 8 [t.pc.toNat, t.lk.toNat, t.lat.toNat]),
    (0x28, fields 4 [t.preds.toNat, t.fflags.toNat, t.cnt.pack, t.qseq]),
    (0x38, leBytes 8 (BitVec.ofInt 64 cycle).toNat),
    (0x40, fields 8 ((List.range 8).map (fun i => (t.oVal i).toNat))),
    (0x80, fields 4 [bx % 2 ^ 31 + 2 ^ 31 * b2n t.bwait.isSome, ph.toNat]),
    (0x88, fields 8 [p.fpc.toNat, p.va.toNat, p.aux.toNat, ew, epc]),
    (0xB0, leBytes 4 arrived),
    (0xB8, leBytes 40 (maskOf (t.fmark.filter (fun r => r != latId)))),
    (0xE0, fields 4 (t.pushed.map (fun x => x.1 + x.2 * 2 ^ 9))),
    (0x100, leBytes 8 ppc.toNat ++ leBytes 4 (b2n t.poll.isSome)),
    (0x110, leBytes 16 pv),
    (0x140, fields 4 ((List.range regs).map (fun i => (t.gVal i).toNat)))]

/-! ### Teams -/

/-- A context-table entry, 96 bytes; the arrival mask has one bit for each of the team's threads, from its first slot. -/
def CtxEnt.bytes (c : CtxEnt) (first : Nat) : List Byte :=
  let (w, pc, arr) := match c.coll with
    | none => (0, 0, 0)
    | some r => (r.word.toNat, r.pc.toNat, maskOf (r.arrs.map (fun a => a.slot - first)))
  [BitVec.ofNat 8 c.state, BitVec.ofNat 8 c.level, BitVec.ofNat 8 c.parent, BitVec.ofNat 8 c.callee]
    ++ leBytes 4 c.lanes.length ++ fields 8 [c.ret.toNat, w, pc] ++ leBytes 64 arr

/-- A team record: header, thread records, region. -/
def TeamImg.bytes (x : TeamImg) (gid : BitVec 32) (regs : Nat) : List Byte :=
  let m := x.team
  let first := m.core * slotsPerCore + m.first
  let seg := m.seg.getD 0
  layout 0x2000 ([
      (0x000, fields 4 [gid.toNat, m.index, m.n, m.argp, m.region,
        b2n m.seg.isSome + 2 * b2n m.recov + 4 * b2n m.rolled + seg % 256 * 256]),
      (0x018, leBytes 8 (maskOf ((List.range x.tags.length).filter (fun i => (x.tags.getD i TagSt.reset).rdy)))),
      (0x020, fields 2 (x.tags.map (·.count))),
      (0x0A0, leBytes 4 (m.ctxs.length - 1))]
    ++ m.ctxs.map (fun e => (0x100 + 96 * e.1, e.2.bytes first)))
    ++ x.threads.zipIdx.flatMap (fun (t, i) => t.bytes m regs (x.cycles.getD i 0))
    ++ x.region.take m.region

/-- The bytes of a team's shadow in its segment (R380). -/
def State.writeShadow (s : State) (part seg : Nat) (img : TeamImg) : State :=
  match s.grid? img.team.grid with
  | none => s
  | some g =>
    let bs := img.bytes g.gid (lrRegs g.lrec)
    let base := (s.part part).rbBase seg
    (List.range ((bs.length + 127) / 128)).foldl (fun s i => s.poke (Acc.plain part (base + 128 * i)) ((bs.drop (128 * i)).take 128)) s

end Sys2Proof.Machine
end

