-- ==== Sys2Proof/Machine/Issue.lean ====
section
/-!
DEFINITION. Clocks, instruction fetch and the choice of the next issue (02 R50 to R52, 03 R79, 07 R155, 13 R315, 15 R357 to
R360, 17 R398, R400).
-/

namespace Sys2Proof.Machine

/-! ### Clocks (R357, R359, R360, R398, R400) -/

/-- The arithmetic clock of an operating point, in MHz (R398). -/
def pointMHz (op : BitVec 3) : Nat := [400, 600, 750, 900, 1050, 1200, 1350, 1500].getD op.toNat 400

/-- Some resident context with a team on the grove holds an unexpired lease; a save suspends it (R357). -/
def State.leased (s : State) (g : Nat) : Bool :=
  s.teams.any (fun e => groveOf e.2.core == g && (match s.grid? e.2.grid with
    | none => false
    | some gr => (s.part gr.part).resident == some gr.ctx && (s.part gr.part).lease.get 0 gr.ctx.toNat != 0))

/-- The clock of a grove in MHz: gated, boosted, or its rail's point (R357, R398, R400). -/
def State.groveMHz (s : State) (g : Nat) : Nat :=
  if 2 ≤ s.dev.state.toNat ∨ (s.dev.state = 1 ∧ !s.teams.any (fun e => groveOf e.2.core == g)) then 0
  else
    match s.partOfGrove g with
    | none => 0
    | some p =>
      let r := s.rail (s.part p).reg.toNat
      if r.clk = 7 && s.leased g then 1800 else pointMHz r.clk

/-- A grove's clock over some ns of device time. -/
def GroveSt.advance (x : GroveSt) (mhz ns : Nat) : GroveSt :=
  let n := x.rem + mhz * ns
  { x with cycle := x.cycle + n / 1000, rem := n % 1000 }

/-- A lease falls with device time while its context is resident (R357). -/
def Partition.spend (p : Partition) (ns : Nat) : Partition :=
  { p with lease := p.lease.map (fun e => if (p.resident.map (·.toNat)) == some e.1 then (e.1, e.2 - ns) else e) }

/-- Device time passes at the clocks of now (R359): the groves' clocks and the leases run with it. -/
def State.tickOnce (s : State) (ns : Nat) : State :=
  let gs := (s.parts.filter (fun e => e.2.v)).flatMap (fun e => e.2.groveList)
  let s' := gs.foldl (fun s g => s.updGrove g (fun x => x.advance (s.groveMHz g) ns)) s
  { s' with time := s'.time + ns, parts := s'.parts.map (fun e => (e.1, e.2.spend ns)) }

/-- The first lease of a resident context to end within some ns. -/
def State.leaseEnd (s : State) (ns : Nat) : Option Nat :=
  (s.parts.filterMap (fun e => match e.2.resident with
    | none => none
    | some c => (e.2.lease.find? c.toNat).filter (fun l => decide (0 < l) && decide (l < ns)))).foldl (fun a l => match a with
      | none => some l
      | some b => some (min b l)) none

/-- The same where leases end meanwhile: a grove's clock changes with the lease; `n` bounds their number. -/
def State.tickN (s : State) (ns : Nat) : Nat → State
  | 0 => s.tickOnce ns
  | n + 1 => match s.leaseEnd ns with
    | none => s.tickOnce ns
    | some l => tickN (s.tickOnce l) (ns - l) n

/-- Device time passes (R357, R359, R360). -/
def State.tick (s : State) (ns : Nat) : State := s.tickN ns s.parts.length

/-! ### Fetch (R155, R185) -/

/-- The word at a thread's PC: an instruction, an encoding fault, a fetch fault, or a host translation to wait for. -/
inductive Fetched where
  | word (i : Instr)
  | bad (code : BitVec 8)
  | fault (code : BitVec 8)
  | ask (vpn : Nat)
  deriving DecidableEq, Repr

/-- A core's instruction cache holds a line, which for a host page counts for the team that fetched it (R185). -/
def State.codeLine (s : State) (core : Nat) (ld : Option Nat) (line team : Nat) : Option ILine :=
  s.icache.find? (fun c => c.core == core && c.ld == ld && c.line == line && (ld.isNone || c.team == team))

/-- A line enters a core's instruction cache. -/
def State.holdCode (s : State) (c : ILine) : State :=
  { s with icache := s.icache.filter (fun x => !(x.core == c.core && x.ld == c.ld && x.line == c.line && x.team == c.team)) ++ [c] }

/-- The 8 bytes of the word at a slot's address, and the state with the walk and the line cached. Device lines are coherent: a word
is that of its slice. A host line may be read from the copy that the team fetched, or fetched afresh (R185). A fill is counted (R340)
and enters the slice; an error that it meets poisons the line (R193). -/
def State.fetchBytes (s : State) (slot team : Nat) (pc : DWord) : State × Except Fetched DWord :=
  let part := s.partOf slot
  let core := coreOf slot
  let word (bs : List Byte) : DWord := BitVec.ofNat 64 (leNat bs)
  let (s, x) := s.translate (.lane slot) part pc.toNat .fetch
  match x with
  | .fault c => (s, .error (.fault c))
  | .ask vpn => (s, .error (.ask vpn))
  | .tier10 => (s, .error (.fault 0x16))
  | .host ld addr =>
    let now := Memory.readN s.host (ld * 2 ^ 64 + lineOf addr) 128
    let (s, data) := match s.codeLine core (some ld) (lineOf addr) team with
      | none => (s, now)
      | some c => s.pick c.data now
    (s.holdCode ⟨core, some ld, lineOf addr, team, data⟩, .ok (word ((data.drop (addr % 128)).take 8)))
  | .dev pa key comp bix he _ =>
    let a : Acc := ⟨part, pa, key, comp, bix, he, .none, none⟩
    if (s.codeLine core none (lineOf pa) team).isSome then (s, .ok (word (s.peek a 8)))
    else
      let s' := ((s.heatReq a).touch a).1
      match s.lineErr a with
      | some c => (s', .error (.fault c))
      | none => (s'.holdCode ⟨core, none, lineOf pa, team, []⟩, .ok (word (s.peek a 8)))

/-- A thread's next word, decoded under its grid's allocation (R79). -/
def State.fetch (s : State) (slot : Nat) (t : Thread) : State × Fetched :=
  let (s', w) := s.fetchBytes slot t.team t.pc
  match w with
  | .error e => (s', e)
  | .ok w =>
    match decodeWord (s.regsOf slot) w with
    | .error c => (s', .bad c)
    | .ok i => (s', .word i)

/-! ### Which threads may issue (R50) -/

/-- The bough a thread issues with: a regrouped bough (16 up) or its home bough (R165, R315). -/
def State.issueBough (s : State) (slot : Nat) : Nat :=
  match List.find? (fun (e : Nat × Regroup) => e.2.admitted && e.2.slots.contains slot) (s.core (coreOf slot)).regroup with
  | some e => 16 + e.1
  | none => boughOf slot

/-- The port that serves a bough: of a regrouped bough, that of its lowest home bough (R51, R165). -/
def State.portOfBough (s : State) (core b : Nat) : Nat :=
  if b < 16 then b / 4
  else
    match SMap.find? (s.core core).regroup (b - 16) with
    | none => 0
    | some r => (r.slots.map boughOf).foldl min 15 / 4

/-- A candidate of the issue: slot, thread, bough and word. -/
structure IssueCand where
  slot : Nat
  t : Thread
  bough : Nat
  word : Fetched

/-- The thread may issue its word, amber apart. -/
def IssueCand.ready (s : State) (c : IssueCand) : Bool :=
  match c.word with
  | .word i => s.passes c.slot c.t i
  | _ => true

/-- The device issues only in the states run and idle (R400). -/
def State.issues (s : State) : Bool := s.dev.state.toNat ≤ 1

/-- The open threads, with their boughs and words. -/
def State.openCands (s : State) : List IssueCand :=
  if !s.issues then []
  else
    s.threads.filterMap (fun e =>
      if e.2.open (s.cycleOf (coreOf e.1)) && s.teamRuns e.2 then some ⟨e.1, e.2, s.issueBough e.1, (s.fetch e.1 e.2).2⟩ else none)

/-- The open threads that pass. -/
def State.issueCands (s : State) : List IssueCand := s.openCands.filter (fun c => c.ready s)

/-- Threads held at a REJOIN take the cycle from which their hold counts (R162). -/
def State.noteHolds (s : State) : State :=
  (s.openCands.filter (fun c => !c.ready s && (match c.word with
    | .word (.rejoin _) => c.t.rejoinSince.isNone
    | _ => false))).foldl (fun s c =>
      s.updThread c.slot (fun t => { t with rejoinSince := some (s.cycleOf (coreOf c.slot)) })) s

/-- Candidates at one PC of one bough. -/
def together (c d : IssueCand) : Bool := coreOf c.slot == coreOf d.slot && c.bough == d.bough && c.t.pc == d.t.pc

/-- The candidates whose set affords its price (R351). -/
def State.affordable (s : State) (l : List IssueCand) : List IssueCand :=
  l.filter (fun c => match c.word with
    | .word i =>
      let core := coreOf c.slot
      s.affords core c.bough (s.price core i ((l.filter (together c)).map (·.slot)))
    | _ => true)

/-- The bough pick of R315: the better of two boughs of one port. Of two that are equal in all that R315 compares, and were never
picked, the lower number is better: R315 names no further tie-break (log 82: DESIGN CHOICE). -/
def boughBefore (b c : Nat × Bough) : Bool :=
  if 32 ≤ b.2.starve ∨ 32 ≤ c.2.starve then
    decide (c.2.starve < b.2.starve) || (b.2.starve == c.2.starve && decide (b.1 < c.1))
  else if b.2.prio ≠ c.2.prio then decide (c.2.prio < b.2.prio)
  else if b.2.age ≠ c.2.age then decide (b.2.age < c.2.age)
  else if b.2.lastPick ≠ c.2.lastPick then decide (b.2.lastPick < c.2.lastPick)
  else decide (b.1 < c.1)

def bestBough : List (Nat × Bough) → Option (Nat × Bough)
  | [] => none
  | b :: l =>
    match bestBough l with
    | none => some b
    | some c => if boughBefore b c then some b else some c

/-- The PC a bough issues: the lowest, unless a thread has waited 32 of its turns (R52). -/
def pickPc : List IssueCand → Option (Nat × DWord)
  | [] => none
  | c :: l =>
    match pickPc l with
    | none => some (c.t.age, c.t.pc)
    | some (a, pc) =>
      if 32 ≤ c.t.age ∨ 32 ≤ a then
        if a < c.t.age ∨ (a = c.t.age ∧ c.t.pc.toNat < pc.toNat) then some (c.t.age, c.t.pc) else some (a, pc)
      else if c.t.pc.toNat < pc.toNat then some (c.t.age, c.t.pc) else some (a, pc)

/-- Ports with a candidate, as core × 4 + port, each with the pick at which it last issued (log 4). -/
def State.portKey (s : State) (c : IssueCand) : Nat := coreOf c.slot * 4 + s.portOfBough (coreOf c.slot) c.bough

def State.portLast (s : State) (key : Nat) : Nat :=
  let core := key / 4
  ((List.range 24).map (fun b => if s.portOfBough core b == key % 4 then ((s.core core).bough b).lastPick else 0)).foldl max 0

/-- The port that issues next in the model's order: the one that issued longest ago (log 4). -/
def State.nextPort (s : State) : List Nat → Option Nat
  | [] => none
  | k :: l =>
    match nextPort s l with
    | none => some k
    | some j => if s.portLast k < s.portLast j ∨ (s.portLast k = s.portLast j ∧ k < j) then some k else some j

/-- The issue of one port among candidates: the issuing set and its word (R51, R52, R315). -/
def State.issueOn (s : State) (l : List IssueCand) (key : Nat) : Option (Issue × Fetched) :=
  let core := key / 4
  let mine := l.filter (fun c => s.portKey c == key)
  match bestBough ((distinct (mine.map (·.bough))).map (fun b => (b, (s.core core).bough b))) with
  | none => none
  | some (b, _) =>
    let inB := mine.filter (fun c => c.bough == b)
    match pickPc inB with
    | none => none
    | some (_, pc) =>
      let set := inB.filter (fun c => c.t.pc == pc)
      match set with
      | [] => none
      | c :: _ => some (⟨core, b, set.map (·.slot), pc⟩, c.word)

/-- The issue of a port that the agenda names (log 4). -/
def State.portIssue (s : State) (key : Nat) : Option (Issue × Fetched) := s.issueOn (s.affordable s.issueCands) key

/-- The next issue in the model's own order. -/
def State.nextIssue (s : State) : Option (Issue × Fetched) :=
  let l := s.affordable s.issueCands
  match s.nextPort (distinct (l.map s.portKey)) with
  | none => none
  | some key => s.issueOn l key

/-- Boughs that hold no eligible thread in a cycle of their port lose their starvation count (R315); `on` are those whose port's cycle
passes, by core and number. -/
def State.clearStarveOf (s : State) (on : Nat → Nat → Bool) : State :=
  if s.cores.all (fun e => e.2.boughs.all (fun b => b.2.starve == 0)) then s
  else
    let l := s.affordable s.issueCands
    { s with cores := s.cores.map (fun e => (e.1, { e.2 with boughs := e.2.boughs.map (fun b =>
        if !on e.1 b.1 || l.any (fun c => coreOf c.slot == e.1 && c.bough == b.1) then b else (b.1, { b.2 with starve := 0 })) })) }

/-- A cycle of every port. -/
def State.clearStarve (s : State) : State := s.clearStarveOf (fun _ _ => true)

/-- Device time passes with no issue. -/
def State.idle (s : State) (ns : Nat) : State := s.clearStarve.tick ns

/-- The records of a pick: starvation counts, last picks, and the turns each thread has waited (R52, R315). A thread's turns count
from its placement or arrival, and go with it between its home bough and a regrouped one (log 64: DESIGN CHOICE). -/
def State.notePick (s : State) (i : Issue) : State :=
  let l := (s.affordable s.issueCands).filter (fun c => coreOf c.slot == i.core)
  let port := s.portOfBough i.core i.bough
  let n := s.stamp
  let s' := { s with stamp := s.stamp + 1 }.updCore i.core (fun c =>
    (List.range 24).foldl (fun c b =>
      if s.portOfBough i.core b != port then c
      else c.updBough b (fun x =>
        if b == i.bough then { x with starve := 0, lastPick := n + 1 }
        else if l.any (fun d => d.bough == b) then { x with starve := min 63 (x.starve + 1) }
        else { x with starve := 0 })) c)
  { s' with
    threads := s'.threads.map (fun e =>
      if coreOf e.1 == i.core && s.issueBough e.1 == i.bough then
        (e.1, { e.2 with age := if i.slots.contains e.1 then 0 else e.2.age + 1 })
      else e)
    cur := i }

/-! ### Faults before execution -/

/-- Every lane of the issuing set takes the word's lowest encoding fault; a lane whose landing check fails takes the lower
of it and 0x04 (R79, R161). -/
def State.encodingFault (s : State) (code : BitVec 8) : State :=
  s.fault s.cur.core s.cur.bough (s.cur.slots.filterMap (fun k => (s.thread? k).map (fun t =>
    let c := if t.landing.isSome ∧ 0x04 < code.toNat then 0x04 else code
    ⟨k, c, t.pc, t.pc, 0, 0, false, false, none⟩)))

/-- The lanes whose fetch faults park at the target (R155, R337). -/
def State.fetchFault (s : State) (code : BitVec 8) : State :=
  s.fault s.cur.core s.cur.bough (s.cur.slots.filterMap (fun k => (s.thread? k).map (fun t =>
    ⟨k, code, t.pc, t.pc, t.pc, 0, false, true, none⟩)))

/-- Lanes that wait for the host translation of their code page (R335). -/
def State.fetchAsk (s : State) (vpn : Nat) : State :=
  s.cur.slots.foldl (fun s k =>
    (s.updThread k (fun t => { t with hold := .xlate vpn })).askHost (.lane k) (s.partOf k) vpn false) s

/-! ### A word placed at the next fetch (the host's probe; log 13) -/

/-- A launch record for one team of one thread with 256 registers, entry PC 0. -/
def probeRecord : List Byte := leBytes 4 (2 ^ 24 + 32 * 2 ^ 18 + 2 ^ 8) ++ List.replicate 124 0

/-- The page table of the probe: one 64 KiB page at virtual address 0, readable, writable and executable. -/
def probeTables (m : Memory) : Memory :=
  let m := Memory.writeN m 0x10000 (leBytes 8 (2 ^ 63 + 2 ^ 61 + 0x20000))
  let m := Memory.writeN m 0x20000 (leBytes 8 (2 ^ 63 + 2 ^ 61 + 0x30000))
  Memory.writeN m 0x30000 (leBytes 8 (2 ^ 63 + 2 ^ 60 + 2 ^ 59 + 0x40000))

/-- A thread as placement makes it (R46). -/
def Thread.placed (team lane tsize : Nat) (pc : DWord) (off : Int) : Thread where
  st := .ready
  team := team
  lane := lane
  plane := lane
  tsize := tsize
  tcret := 0
  ctx := 0
  pushed := []
  g := []
  o := []
  lat := 0
  preds := 0
  lk := 0
  pcw := pcOf pc
  fflags := 0
  step := false
  ylevel := 0
  landing := none
  cnt := ⟨0, 0, 0, 0⟩
  pend := []
  fmark := []
  defers := []
  poll := none
  qseq := 0
  bwait := none
  yieldUntil := none
  pollUntil := none
  retry := none
  rejoinSince := none
  rejoinDone := false
  park := none
  due := none
  cycOff := off
  hold := .none
  fRel := FenceN.zero
  fAcq := FenceN.zero
  fAr := FenceN.zero
  renew := false
  relCore := 0
  relGrove := 0
  relDev := 0
  early := []
  earlyTl := []
  acqStamp := 0
  tlStamp := 0
  wins := []
  olds := []
  age := 0

/-- A context-table entry of a team's own (R173). -/
def CtxEnt.own (slots : List Nat) : CtxEnt := ⟨1, 0, 0, 0, slots, 0, none, 0, 0, []⟩

/-- A grid of a record with nothing placed (R309). -/
def Grid.ofRecord (gid : BitVec 32) (part : Nat) (r : List Byte) (ctx : BitVec 16) (age : Nat) : Grid where
  gid := gid
  part := part
  lrec := r
  depth := 0
  remaining := lrTeams r
  next := 0
  children := 0
  parent := none
  ctx := ctx
  age := age
  handle := 0
  args := []
  pending := true
  since := 0

/-- A team newly placed (R44, R45). -/
def Team.placed (grid index core first n argp region : Nat) (tags : List Nat) : Team where
  grid := grid
  index := index
  core := core
  first := first
  n := n
  argp := argp
  region := region
  tags := tags
  ctxs := [(0, CtxEnt.own ((List.range n).map (fun i => core * slotsPerCore + first + i)))]
  opens := []
  moving := none
  leaving := false
  seg := none
  recov := false
  rolled := false
  rbDue := false
  rbHeld := none
  met := []
  ckpt := false

/-- Partition 0 with grove 0 and slice 0, translating through the probe's tables. -/
def probePart : Partition :=
  { Partition.reset with v := true, groves := 1, slices := 1, ttb := 0x10000, quanta := [(0, ⟨true, 0, 1000, 0, 0⟩)], resident := some 0 }

/-- The bytes of a word stand at the PC of the one thread that can issue. -/
def State.placeWord (s : State) (bs : List Byte) : State :=
  { s with
    mem := Memory.writeN (probeTables s.mem) 0x40000 bs
    keyTags := []
    bad := []
    l2 := []
    tlb := []
    icache := []
    parts := [(0, probePart)]
    dev := { s.dev with state := 0 }
    cores := []
    grids := [(1, { Grid.ofRecord 1 0 probeRecord 0 0 with next := 1, pending := false })]
    teams := [(0, Team.placed 1 0 0 0 1 0 128 [])]
    threads := [(0, Thread.placed 0 0 1 0 0)]
    nextTeam := 1
    time := 0
    agenda := [] }

end Sys2Proof.Machine
end

