-- ==== Sys2Proof/Machine/Launch.lean ====
section
/-!
DEFINITION. GLAUNCH, the creation and retirement of grids, placement, retirement and migration of teams (02 R41 to R56, 07 R177,
13 R303, R306, R309 to R314).
-/

namespace Sys2Proof.Machine

/-! ### Handles and contexts (R306, R319) -/

def Partition.lentry (p : Partition) (i : Nat) : LEntry := p.ltab.get LEntry.reset i
def Partition.updLentry (p : Partition) (i : Nat) (f : LEntry → LEntry) : Partition :=
  { p with ltab := p.ltab.set LEntry.reset i (f (p.lentry i)) }

/-- The entry a handle names, when it names a bound record (R306). -/
def Partition.named (p : Partition) (h : BitVec 32) : Option LEntry :=
  let e := p.lentry (h.toNat % 4096)
  if h.toNat / 2 ^ 28 = 0 ∧ e.b ∧ e.gen.toNat = h.toNat / 4096 % 2 ^ 16 then some e else none

/-- A grid of the device: its partition and its sr.grid. -/
def gridKey (part : Nat) (gid : BitVec 32) : Nat := part * 2 ^ 32 + gid.toNat

/-- The context of a partition has a grid that has not retired, resident or in its image (R319). -/
def State.ctxHasGrid (s : State) (part : Nat) (ctx : BitVec 16) : Bool :=
  s.grids.any (fun e => e.2.part == part && e.2.ctx == ctx)
    || (s.part part).images.any (fun i => i.ctx == ctx && !i.grids.isEmpty)

/-! ### GLAUNCH (R177) -/

/-- GLAUNCH on one lane: the leader is held until its grid is created; any other lane writes zero. -/
def glaunchFx (x : TxchArg) (l : Lane) : LaneRes :=
  let b := l.src32 1 x.b
  let depth := ((l.s.gridOf l.t).map (·.depth)).getD 0
  if l.t.lane ≠ 0 then .ok { th := fun t => t.result false x.d 0 }
  else if depth = 10 then .fault 0x21 0 0 false
  else if b.toNat % 16 ≠ 0 then .fault 0x10 (b.setWidth 64) 0 false
  else
    match l.s.team? l.t.team with
    | none => .fault 0x18 (b.setWidth 64) 0 false
    | some m =>
      if !m.holds b.toNat 128 then .fault 0x18 (b.setWidth 64) 0 false
      else
        .ok { jump := some l.t.pc
              req := some ⟨0, l.s.partOf l.slot, l.src32 0 x.a, depth + 1, some m.grid,
                Memory.readN l.s.scr (scrKey (coreOf l.slot) b.toNat) 128, some l.slot, none, x.d, 0, none⟩ }

/-- GLAUNCH (R177). -/
def execGlaunch (x : TxchArg) (s : State) : Host.Outcome State Fault Refusal :=
  let r := s.runLanes (.glaunch x) x.gd.holds (glaunchFx x)
  .next ((r.s.endIntervals r.took).stepTraps s.cur.pc ((r.took.filter (fun k => s.laneOf k != 0)) ++ r.off))

/-! ### The scheduler (R319) -/

def Partition.quantum (p : Partition) (k : Nat) : QEntry := p.quanta.get QEntry.reset k

/-- The valid entries after one, in round-robin order, that one last. -/
def Partition.roundRobin (p : Partition) : List Nat :=
  ((List.range 8).map (fun i => (p.chosen + 1 + i) % 8)).filter (fun k => (p.quantum k).v)

/-- The first of a list of entries of the highest PRIO. -/
def Partition.topPrio (p : Partition) : List Nat → Option Nat
  | [] => none
  | k :: l => match topPrio p l with
    | none => some k
    | some j => if (p.quantum k).prio < (p.quantum j).prio then some j else some k

/-- The entry the scheduler chooses: the ready one of highest PRIO; with none ready, the resident's own, or any valid one. -/
def State.chooseEntry (s : State) (part : Nat) : Option Nat :=
  let p := s.part part
  let l := p.roundRobin
  (p.topPrio (l.filter (fun k => s.ctxHasGrid part (p.quantum k).ctx))).or
    ((l.find? (fun k => p.resident == some (p.quantum k).ctx)).or l.head?)

/-- The resident entry still makes the resident context `c` resident: it is valid and names it. -/
def Partition.entryStands (p : Partition) (c : BitVec 16) : Bool := (p.quantum p.chosen).v && (p.quantum p.chosen).ctx == c

/-- The scheduler must choose again: the resident entry's quantum is over, or an entry of a higher PRIO is ready. -/
def State.mustChoose (s : State) (part : Nat) : Bool :=
  let p := s.part part
  let e := p.quantum p.chosen
  decide (p.quantStart + max 1 e.quant.toNat * 1000 ≤ s.time)
    || (List.range 8).any (fun j => (p.quantum j).v && decide (e.prio < (p.quantum j).prio) && s.ctxHasGrid part (p.quantum j).ctx)

/-- The resident context begins its save; a reservation of a grid of it ends (R313, R375). -/
def Partition.leaveCtx (p : Partition) (c : BitVec 16) : Partition := { p with resident := none, swap := some (c, false), resv := none }

/-- The scheduler's choice is made where one is due: the resident goes on, or its save begins, as it does where the resident entry is
cleared or given another context, though a second entry name the same one (R319, R375). -/
def State.schedule (s : State) (part : Nat) : State :=
  let p := s.part part
  match p.resident with
  | none => s
  | some c =>
    if !p.entryStands c then s.updPart part (·.leaveCtx c)
    else if !s.mustChoose part then s
    else
      match s.chooseEntry part with
      | some k =>
        if (p.quantum k).ctx = c then s.updPart part (fun p => { p with chosen := k, quantStart := s.time })
        else s.updPart part (·.leaveCtx c)
      | none => s.updPart part (·.leaveCtx c)

/-! ### Creating a grid (R41, R42, R309) -/

/-- Grids of a partition's pending list. -/
def State.pendingGrids (s : State) (part : Nat) : Nat :=
  (s.grids.filter (fun e => e.2.part == part && e.2.pending)).length

/-- A grid id no live grid of the partition has, saved ones among them. -/
def State.gidFree (s : State) (part : Nat) (gid : BitVec 32) : Bool :=
  (s.grid? (gridKey part gid)).isNone && !(s.part part).images.any (fun i => i.grids.any (fun e => e.2.gid == gid))

/-- A grid counts as made from an entry's present binding (R307). -/
def Partition.countLive (p : Partition) (handle : BitVec 32) : Partition :=
  p.updLentry (handle.toNat % 4096) (fun e => { e with live := min (e.live + 1) (2 ^ 31 - 1) })

/-- The grid of a record and context comes to be, and stands in the pending list. -/
def State.createGrid (s : State) (r : GReq) (lrec : List Byte) (ctx : BitVec 16) (gid : BitVec 32) : State :=
  let age := ((s.part r.part).gridAge + 1) % 2 ^ 48
  let g := { Grid.ofRecord gid r.part lrec ctx age with
    depth := r.depth, parent := r.parent, handle := r.handle, args := r.args, since := s.time }
  let s := { s with grids := s.grids.put (gridKey r.part gid) g, greqs := s.greqs.filter (fun q => q.id != r.id) }
  let s := s.updPart r.part (fun p => { p with gridAge := age })
  match r.parent with
  | none => s
  | some k => s.updGrid k (fun g => { g with children := g.children + 1 })

/-- What a request's grid is made of: the copy taken when an accepting launch was handed over, or for a GLAUNCH the record that its
handle names now, of the launching grid's context (R309). -/
def State.madeOf (s : State) (r : GReq) : Option (List Byte × BitVec 16) :=
  if r.slot.isNone then r.copied
  else match (s.part r.part).named r.handle with
    | none => none
    | some e => if (r.parent.bind s.grid?).map (·.ctx) = some e.ctx then some (e.bytes, e.ctx) else none

/-- A leader leaves its GLAUNCH with its grid's id (R177). -/
def State.launched (s : State) (slot : Nat) (d : Dst) (gid : BitVec 32) : State :=
  let pc := ((s.thread? slot).map (·.pc)).getD 0
  let s := s.updThread slot (fun t => { (t.result false d (gid.setWidth 64)).next with hold := .none })
  s.stepTrapsHome pc [slot]

/-- GRID_CREATE (R177, R309): one creation, under an id that firmware chose; those of one automaton in the order they were handed
over. A context of higher PRIO that is ready thereby is switched to at once (R319). -/
def execGridCreate (req : Nat) (gid : BitVec 32) (s : State) : Host.Outcome State Fault Refusal :=
  match s.greqs.find? (fun r => r.id == req) with
  | none => .next s
  | some r =>
    let blocked := match r.slot with
      | none => s.greqs.any (fun q => q.auto == r.auto && decide (q.id < r.id))
      | some k => s.accessBelow k r.after
    if blocked || decide (65536 ≤ s.pendingGrids r.part) || !s.gidFree r.part gid then .next s
    else
      match s.madeOf r, r.slot with
      | some (l, ctx), none => .next ((s.createGrid r l ctx gid).schedule r.part)
      | some (l, ctx), some k =>
        .next ((((s.updPart r.part (·.countLive r.handle)).createGrid r l ctx gid).launched k r.d gid).schedule r.part)
      | none, none => .next { s with greqs := s.greqs.filter (fun q => q.id != req) }
      | none, some k =>
        .next (State.faultHome { s with greqs := s.greqs.filter (fun q => q.id != req) } 0x12 r.handle.toNat [k])

/-! ### Retirement (R55, R56) -/

/-- Nothing that a team's threads issued is outstanding. -/
def State.teamQuiet (s : State) (m : Team) : Bool :=
  !s.ops.any (fun o => m.slots.contains o.slot) && m.opens.isEmpty
    && !s.ments.any (fun e => e.slots.any (fun o => match o with
      | none => false
      | some k => m.slots.contains k))

/-- A team leaves its core: its slots, tags and claims are free, what its threads have asked of the host goes with them, and the code of host pages that it fetched is held no more (R185). -/
def State.vacateTeam (s : State) (id : Nat) (m : Team) : State :=
  let s := { s with icache := s.icache.filter (fun c => !(c.core == m.core && c.ld.isSome && c.team == id)) }
  let s := m.slots.foldl (fun s k => s.freeThread k) (s.dropAskers m.slots)
  let s := s.updCore m.core (fun c => m.tags.foldl (fun c t => c.updTag t (fun _ => TagSt.reset)) c)
  State.unbindBoughs { s with teams := s.teams.erase id } m.core

/-- TEAM_RETIRE (R55). -/
def execTeamRetire (team : Nat) (s : State) : Host.Outcome State Fault Refusal :=
  match s.team? team with
  | none => .next s
  | some m =>
    let done := m.slots.all (fun k => match s.thread? k with
      | none => true
      | some t => t.st == .exited)
    if !done || !s.teamQuiet m then .next s
    else
      let part := s.partOfTeam team
      let s := s.vacateTeam team m
      let s := match m.seg with
        | none => s
        | some i => s.updPart part (fun p => { p with shadows := p.shadows.erase i, rlogs := p.rlogs.erase i })
      .next (s.updGrid m.grid (fun g => { g with remaining := g.remaining - 1 }))

/-- GRID_RETIRE (R56, R307, R309). -/
def execGridRetire (grid : Nat) (s : State) : Host.Outcome State Fault Refusal :=
  match s.grid? grid with
  | none => .next s
  | some g =>
    if g.remaining ≠ 0 ∨ g.children ≠ 0 then .next s
    else
      let s := { s with grids := s.grids.erase grid }
      let s := s.updPart g.part (fun p => p.updLentry (g.handle.toNat % 4096) (fun e =>
        if e.gen.toNat = g.handle.toNat / 4096 % 2 ^ 16 then { e with live := e.live - 1 } else e))
      let s := match g.parent with
        | none => s
        | some k => s.updGrid k (fun q => { q with children := q.children - 1 })
      .next s

/-! ### The placer (R310 to R313) -/

/-- No team stands on, or moves to, a core of a grove. -/
def State.groveEmpty (s : State) (g : Nat) : Bool :=
  !s.teams.any (fun e => groveOf e.2.core == g || (match e.2.moving with
    | none => false
    | some (c, _) => groveOf c == g))

/-- The grove's L1 mode is the record's, or may be switched (R184, R311). -/
def State.modeFits (s : State) (c : Nat) (r : List Byte) : Bool :=
  (s.grove (groveOf c)).fused == lrFuse r || s.groveEmpty (groveOf c)

/-- A core that can take a grid's next team, its free slots, and where it fits. -/
structure Room where
  core : Nat
  free : Nat
  first : Nat
  argp : Nat
  right : Bool

/-- The eligible cores of a partition for a grid's team (R311); `argp` when the region's place is given (R314). -/
def State.rooms (s : State) (part grid : Nat) (r : List Byte) (argp : Option Nat) (ok : Nat → Bool) : List Room :=
  let p := s.part part
  p.cores.filterMap (fun c =>
    let kept := match p.resv with
      | none => false
      | some (g, d) => d == c && (g != grid || argp.isSome)
    if (s.core c).withheld || kept || !s.modeFits c r || !ok c then none
    else
      match s.fitOn c grid (needOf r) argp with
      | none => none
      | some (f, o) => some ⟨c, 512 - ((s.claims c).map (fun x => slotSpan x.need.n)).sum, f, o,
          (s.grove (groveOf c)).fused == lrFuse r⟩)

/-- The core of a list with the most free slots, the earliest of equals. -/
def mostFree : List Room → Option Room
  | [] => none
  | a :: l => match mostFree l with
    | none => some a
    | some b => if b.free ≤ a.free then some a else some b

/-- The chosen core: the reserved one for the waiting team of the grid that holds a reservation, else one of the right mode, else one whose mode
is switched (R311, R313). -/
def State.chooseRoom (s : State) (part grid : Nat) (r : List Byte) (argp : Option Nat) (ok : Nat → Bool) : Option Room :=
  let l := s.rooms part grid r argp ok
  match (s.part part).resv with
  | some (g, c) => if g = grid ∧ argp = none then l.find? (fun x => x.core == c) else
    (mostFree (l.filter (·.right))).or (mostFree l)
  | none => (mostFree (l.filter (·.right))).or (mostFree l)

/-- Sublists of a length. -/
def combos {α : Type} : Nat → List α → List (List α)
  | 0, _ => [[]]
  | _ + 1, [] => []
  | n + 1, a :: l => (combos n l).map (fun x => a :: x) ++ combos (n + 1) l

/-- How few of a core's teams must retire before a team of a grid fits there (R313). -/
def State.mustRetire (s : State) (c grid : Nat) (x : Need43) : Option Nat :=
  let l := s.claims c
  firstBelow (l.length + 1) (fun k => (combos k l).any (fun gone => (fitAmong (l.filter (fun y => !gone.contains y)) grid x none).isSome))

/-- The grove's L1 mode would be the record's, or could be switched, if the core were empty (R313). -/
def State.modeCould (s : State) (c : Nat) (r : List Byte) : Bool :=
  let elsewhere (d : Nat) : Bool := d != c && groveOf d == groveOf c
  (s.grove (groveOf c)).fused == lrFuse r || !s.teams.any (fun e => elsewhere e.2.core || (match e.2.moving with
    | none => false
    | some (d, _) => elsewhere d))

/-- The core reserved for a waiting grid (R313). -/
def State.reserveFor (s : State) (part grid : Nat) (r : List Byte) : Option Nat :=
  let l := (s.part part).cores.filterMap (fun c =>
    if (s.core c).withheld || !s.modeCould c r then none else (s.mustRetire c grid (needOf r)).map (fun k => (k, c)))
  ((l.foldl (fun (a : Option (Nat × Nat)) x => match a with
    | none => some x
    | some y => if x.1 < y.1 then some x else a) none)).map (·.2)

/-- Rollback segments of a partition that no team holds. -/
def State.freeSeg (s : State) (part : Nat) : Option Nat :=
  let p := s.part part
  let held (i : Nat) : Bool := s.teams.any (fun e => e.2.seg == some i && s.partOfTeam e.1 == part)
    || p.teamImgs.any (fun x => x.team.seg == some i) || p.images.any (fun x => x.teams.any (fun y => y.team.seg == some i))
  firstBelow p.rbSegs (fun i => !held i)

/-- The mode of a grove is switched: its L1s hold nothing (R184). -/
def State.setMode (s : State) (g : Nat) (fused : Bool) : State :=
  if (s.grove g).fused == fused then s
  else { s.updGrove g (fun x => { x with fused := fused }) with
         l1 := s.l1.filter (fun e => !(groveDomains g).contains (e.1 / 2 ^ 52)) }

/-- The bytes of a region read zero (R46). -/
def State.clearScr (s : State) (core off len : Nat) : State :=
  { s with scr := s.scr.filter (fun e => !(decide (scrKey core off ≤ e.1) && decide (e.1 < scrKey core (off + len)))) }

/-- A team's state as an image holds it (R378, R380). -/
def State.imgOf (s : State) (id : Nat) (m : Team) : TeamImg where
  id := id
  team := m
  threads := m.slots.filterMap s.thread?
  region := Memory.readN s.scr (scrKey m.core m.argp) (regionSpan m.region)
  tags := m.tags.map (fun k => (s.core m.core).tag k)
  cycles := m.slots.map (fun k => match s.thread? k with
    | none => 0
    | some t => s.cycleOf m.core + t.cycOff)
  emits := []
  recs := []

/-- A grid's next team is placed (R44 to R47, R312). -/
def State.placeTeam (s : State) (grid : Nat) (g : Grid) (x : Room) (seg : Option Nat) : State :=
  let r := g.lrec
  let need := needOf r
  let id := s.nextTeam
  let s := s.setMode (groveOf x.core) (lrFuse r)
  let tags := s.freeTags x.core need.tags
  let m := { Team.placed grid g.next x.core x.first need.n x.argp need.region tags with seg := seg, recov := seg.isSome }
  let off : Int := -(s.cycleOf x.core : Int)
  let s := s.clearScr x.core x.argp (regionSpan need.region)
  let s := if g.next = 0 then { s with scr := Memory.writeN s.scr (scrKey x.core x.argp) g.args } else s
  let s := (List.range need.n).foldl (fun s i => s.setThread (x.core * slotsPerCore + x.first + i)
    { Thread.placed id i need.n (BitVec.ofNat 64 (lrEntry r)) off with acqStamp := s.stamp }) s
  let s := { s with teams := s.teams.put id m, nextTeam := id + 1, stamp := s.stamp + 1 }
  let s := s.bindBoughs x.core grid x.first need.n
  let s := s.updCore x.core (fun c => tags.foldl (fun c t => c.updTag t (fun _ => { TagSt.reset with owner := some id })) c)
  let s := s.updGrid grid (fun g => { g with
    next := g.next + 1, pending := decide (g.next + 1 < lrTeams r), since := s.time })
  let s := s.updPart g.part (fun p => { p with
    resv := match p.resv with
      | none => none
      | some y => if y.1 = grid then none else some y })
  match seg with
  | none => s
  | some i =>
    let img := s.imgOf id m
    State.writeShadow (s.updPart g.part (fun p => { p with shadows := p.shadows.put i img, rlogs := p.rlogs.erase i })) g.part i img

/-- The pending grids of the resident contexts, in the order of R310. A grid whose saved teams wait to be restored waits with
them (R376). -/
def State.order310 (s : State) (part : Nat) : List (Nat × Grid) :=
  let p := s.part part
  let l := s.grids.filter (fun e => e.2.part == part && e.2.pending && p.resident == some e.2.ctx
    && !p.teamImgs.any (fun x => x.team.grid == e.1))
  sortBy (fun e => (7 - lrPrio e.2.lrec) * 2 ^ 48 + e.2.age) l

/-- The first team that can be placed; `before` are the grids passed over (R310, R313). -/
def State.placeFirst (s : State) (part : Nat) (before : List (Nat × Grid)) : List (Nat × Grid) → Option State
  | [] => none
  | (k, g) :: l =>
    let seg := if lrRb g.lrec then s.freeSeg part else none
    let segOk := !lrRb g.lrec || seg.isSome
    match if segOk then s.chooseRoom part k g.lrec none (fun _ => true) else none with
    | none => placeFirst s part (before ++ [(k, g)]) l
    | some x =>
      let late := before.find? (fun e => decide (e.2.since + (s.part part).rsvt.toNat * 1000 < s.time))
      match if (s.part part).resv.isNone then late else none with
      | none => some (s.placeTeam k g x seg)
      | some w =>
        match s.reserveFor part w.1 w.2.lrec with
        | none => some (s.placeTeam k g x seg)
        | some c =>
          let s := s.updPart part (fun p => { p with resv := some (w.1, c) })
          match s.chooseRoom part k g.lrec none (fun _ => true) with
          | some y => some (s.placeTeam k g y seg)
          | none => (placeFirst s part (before ++ [(k, g)]) l).or (some s)

/-- PLACER_STEP (R310 to R313). -/
def execPlacerStep (part : Nat) (s : State) : Host.Outcome State Fault Refusal :=
  let p := s.part part
  if !p.v then .next s
  else
    let s := match p.resv with
      | none => s
      | some (k, _) => match s.grid? k with
        | some g => if p.resident = some g.ctx then s else s.updPart part (fun p => { p with resv := none })
        | none => s.updPart part (fun p => { p with resv := none })
    .next ((s.placeFirst part [] (s.order310 part)).getD s)

/-! ### Moving a team (R53, R54, R145, R237) -/

/-- A slot of a team after its first slot has moved. -/
def rebase (old new k : Nat) : Nat := new + (k - old)

def Defer.rebase (f : Nat → Nat) (d : Defer) : Defer := { d with op := { d.op with slot := f d.op.slot } }

/-- A thread as it arrives at another core: back-offs end, and its accesses are ordered as by FENCE.ar (R237). -/
def Thread.arrive (t : Thread) (f : Nat → Nat) (stamp : Nat) (off : Int) : Thread :=
  { t with
    defers := t.defers.map (Defer.rebase f)
    park := t.park.map (fun p => { p with defer := p.defer.map (Defer.rebase f) })
    hold := match t.hold with
      | .xlate _ => .none
      | h => h
    yieldUntil := none, pollUntil := none, retry := none, rejoinSince := none, rejoinDone := false
    renew := false, acqStamp := stamp, tlStamp := stamp, cycOff := off, age := 0 }

/-- A team's tables with its slots renamed. -/
def Team.rebase (m : Team) (f : Nat → Nat) (core first argp : Nat) (tags : List Nat) : Team :=
  { m with
    core := core, first := first, argp := argp, tags := tags, moving := none, leaving := false
    ctxs := m.ctxs.map (fun e => (e.1, { e.2 with
      lanes := e.2.lanes.map f
      idle := e.2.idle.map f
      coll := e.2.coll.map (fun c => { c with arrs := c.arrs.map (fun a => { a with slot := f a.slot }) }) })) }

/-- A waiting thread re-arms: it finds a phase that has ended meanwhile (R54, R222). The phase is compared with the bytes of the object
as they stand, with no check that a window object still lies in a resident region or is valid: R222 does not say what a re-arm finds
otherwise (log 80: DESIGN CHOICE). -/
def State.rearm (s : State) (slot : Nat) : State :=
  match s.thread? slot with
  | none => s
  | some t => match t.st, t.bwait with
    | .waiting, some (x, ph) =>
      let (core, off) := scrTarget (coreOf slot) x
      if (s.barAt core off).phase = ph then s else s.barReturn slot
    | _, _ => s

/-- The park records that hold slots of a team, on its core. -/
def State.recsOf (s : State) (m : Team) : List (Nat × ParkRec) :=
  (s.core m.core).recs.filter (fun e => e.2.mask.any (fun k => m.slots.contains k))

/-- The team's sub-groups leave their permits. -/
def State.leavePermits (s : State) (m : Team) : State :=
  s.updCore m.core (fun c => { c with recs := (c.recs.map (fun e =>
    (e.1, { e.2 with mask := e.2.mask.filter (fun k => !m.slots.contains k) }))).filter (fun e => !e.2.mask.isEmpty) })

/-- Sub-groups take permits of a core. -/
def State.takePermits (s : State) (core : Nat) (f : Nat → Nat) (l : List ParkRec) : State :=
  l.foldl (fun s r => match (s.core core).freePermit with
    | none => s
    | some n => s.updCore core (fun c => { c with
        recs := c.recs.put n { r with mask := r.mask.map f }
        pkip := c.pkip ||| 1 })) s

/-- Free permits of a core. -/
def State.permits (s : State) (core : Nat) : Nat := 4 - (s.core core).recs.length

/-- TEAM_MIGRATION (R53): the team stands on its new core. Where sub-groups of it are parked and the core has too few free permits, it
waits, stopped, where it is (log 65: DESIGN CHOICE). -/
def execTeamMigration (team : Nat) (s : State) : Host.Outcome State Fault Refusal :=
  match s.team? team with
  | none => .next s
  | some m => match m.moving with
    | none => .next s
    | some (core, first) =>
      let recs := s.recsOf m
      if s.teamBusy m || decide (s.permits core < recs.length) then .next s
      else
        let s := s.dissolve m
        let img := s.imgOf team m
        let old := m.core * slotsPerCore + m.first
        let f := rebase old (core * slotsPerCore + first)
        let fs (k : Nat) : Nat := if m.slots.contains k then f k else k
        let tags := s.freeTags core m.tags.length
        let s := (s.leavePermits m).moveAskers fs
        let s := s.vacateTeam team m
        let s := { s with
          teams := s.teams.put team (m.rebase f core first m.argp tags)
          ops := s.ops.map (fun (o : Op) => { o with slot := fs o.slot })
          greqs := s.greqs.map (fun (r : GReq) => { r with slot := r.slot.map fs })
          late := s.late.foldl (fun l (e : Nat × Nat) => l.put (fs e.1) e.2) []
          scr := Memory.writeN s.scr (scrKey core m.argp) img.region }
        let s := img.threads.zipIdx.foldl (fun (s : State) (t, i) => s.setThread (core * slotsPerCore + first + i)
          (t.arrive f s.stamp (img.cycles.getD i 0 - s.cycleOf core))) s
        let s := { s with stamp := s.stamp + 1 }
        let s := s.updCore core (fun c => (tags.zip img.tags).foldl (fun (c : CoreSt) (x : Nat × TagSt) =>
          c.updTag x.1 (fun _ => { x.2 with owner := some team })) c)
        let s := s.takePermits core f (recs.map (fun (e : Nat × ParkRec) => { e.2 with mask := e.2.mask.filter (fun k => m.slots.contains k) }))
        let s := s.bindBoughs core m.grid first m.n
        .next ((List.range m.n).foldl (fun s i => s.rearm (core * slotsPerCore + first + i)) s)

end Sys2Proof.Machine
end

