-- ==== Sys2Proof/Machine/Pattern.lean ====
section
/-!
DEFINITION. Pattern records: their fields, what makes one valid, and how a transition matches (12 R274 to R278, R283, R288).
-/

namespace Sys2Proof.Machine

def patternBytes : Nat := 2432

/-! ### The header (R275) -/

def patStates (p : List Byte) : Nat := fieldAt p 0 16 5
def patTrans (p : List Byte) : Nat := fieldAt p 0 0 7
def patKeyed (p : List Byte) : Bool := fieldAt p 1 31 1 == 1
def patOvf (p : List Byte) : Nat := fieldAt p 1 29 2
def patUnit (p : List Byte) : Nat := fieldAt p 1 24 5
def patStreams (p : List Byte) : Nat := fieldAt p 1 20 4
def patLate (p : List Byte) : Nat := dwordAt p 2
def patCap (p : List Byte) : Nat := fieldAt p 4 0 17
def patSpl (p : List Byte) : Nat := fieldAt p 5 0 24
def patSbase (p : List Byte) : Nat := dwordAt p 6
def patCbase (p : List Byte) : Nat := dwordAt p 8
def patSid (p : List Byte) (i : Nat) : Nat := fieldAt p (16 + i) 0 18

/-- The streams of a pattern, in order. -/
def patSids (p : List Byte) : List Nat := (List.range (patStreams p)).map (patSid p)

/-! ### States (R276) -/

def patNear (p : List Byte) (q : Nat) : Bool := fieldAt p (32 + 4 * q) 31 1 == 1
def patNinh (p : List Byte) (q : Nat) : Nat := fieldAt p (32 + 4 * q) 29 2

/-- A class test: mask and value in the halves of a word. -/
def classTest (w c : Nat) : Bool := c &&& (w / 65536) == (w % 65536) &&& (w / 65536)

/-- An event of class `c` meets an inhibit of a state. -/
def patInhibits (p : List Byte) (q c : Nat) : Bool :=
  (List.range (patNinh p q)).any (fun j => classTest (wordAt p (33 + 4 * q + j)) c)

/-! ### Transitions (R277) -/

/-- Word `j` of transition `i`. -/
def trWord (p : List Byte) (i j : Nat) : Nat := wordAt p (96 + 8 * i + j)
def trField (p : List Byte) (i j lo len : Nat) : Nat := fieldAt p (96 + 8 * i + j) lo len
def trV (p : List Byte) (i : Nat) : Bool := trField p i 0 31 1 == 1
def trTmr (p : List Byte) (i : Nat) : Bool := trField p i 0 30 1 == 1
def trAcc (p : List Byte) (i : Nat) : Bool := trField p i 0 29 1 == 1
def trFrom (p : List Byte) (i : Nat) : Nat := trField p i 0 24 4
def trTo (p : List Byte) (i : Nat) : Nat := trField p i 0 20 4
def trRst (p : List Byte) (i c : Nat) : Bool := trField p i 0 (16 + c) 1 == 1
def trCe (p : List Byte) (i : Nat) : Bool := trField p i 0 15 1 == 1
def trCslot (p : List Byte) (i : Nat) : Nat := trField p i 0 13 2
def trAk (p : List Byte) (i : Nat) : Bool := trField p i 0 12 1 == 1
def trGe (p : List Byte) (i : Nat) : Bool := trField p i 2 31 1 == 1
def trGc (p : List Byte) (i : Nat) : Nat := trField p i 2 29 2
def trGop (p : List Byte) (i : Nat) : Nat := trField p i 2 27 2
def trGk (p : List Byte) (i : Nat) : Nat := trField p i 2 0 24
def trFe (p : List Byte) (i : Nat) : Bool := trField p i 3 31 1 == 1
def trFop (p : List Byte) (i : Nat) : Nat := trField p i 3 26 3

/-- The valid transitions of a pattern, ascending. -/
def patLive (p : List Byte) : List Nat := (List.range (patTrans p)).filter (trV p)

/-- The valid transitions out of a state. -/
def patOut (p : List Byte) (q : Nat) : List Nat := (patLive p).filter (fun i => trFrom p i == q)

/-! ### Validity (R278; log 28) -/

def allZero (p : List Byte) (words : List Nat) : Bool := words.all (fun i => wordAt p i == 0)

/-- The checks of the header. Bits [17:0] of the stream words at and beyond NSM are not checked: R275 does not say what they hold
(log 28: DESIGN CHOICE). -/
def headerOk (p : List Byte) : Bool :=
  fieldAt p 0 24 8 == 1 && fieldAt p 0 21 3 == 0 && fieldAt p 0 7 9 == 0 && decide (1 ≤ patStates p) && decide (patStates p ≤ 16)
    && decide (1 ≤ patTrans p) && decide (patTrans p ≤ 64) && decide (patUnit p ≤ 20) && decide (1 ≤ patStreams p)
    && decide (patStreams p ≤ 8) && fieldAt p 1 0 20 == 0 && decide (patLate p < 2 ^ 48) && fieldAt p 4 17 15 == 0
    && decide (1 ≤ patCap p) && decide (patCap p ≤ 65536) && fieldAt p 5 24 8 == 0 && patSbase p % 4096 == 0
    && patCbase p % 4096 == 0 && allZero p (List.range' 10 6) && allZero p (List.range' 24 8)
    && (List.range 8).all (fun i => fieldAt p (16 + i) 18 14 == 0)

def streamsOk (p : List Byte) : Bool :=
  (patSids p).all (fun j => decide (j < 147456)) && (distinct (patSids p)).length == patStreams p

def statesOk (p : List Byte) : Bool :=
  (List.range 16).all (fun i => fieldAt p (32 + 4 * i) 0 29 == 0) && !patNear p 0 && patNinh p 0 == 0

/-- The checks of a valid transition. Word 5 is not checked where ACC is 0: R277 does not say what it then holds (log 28: DESIGN
CHOICE). -/
def transOk (p : List Byte) (i : Nat) : Bool :=
  let tmr := trTmr p i
  trField p i 0 28 1 == 0 && trField p i 0 0 12 == 0 && trField p i 2 24 3 == 0 && trField p i 3 0 26 == 0
    && trWord p i 7 == 0 && trFop p i != 7 && decide (trFrom p i < patStates p)
    && (if trAcc p i then trTo p i == 0 else !trAk p i && decide (1 ≤ trTo p i) && decide (trTo p i < patStates p))
    && (!tmr || (trFrom p i != 0 && trWord p i 1 == 0 && !trFe p i && !trCe p i && trGe p i && trGop p i == 3))
    && (tmr || !trGe p i || trFrom p i != 0 || decide (trGop p i ≤ 1))
    && (if trAcc p i && trAk p i then decide (trWord p i 5 < 147456) && trField p i 6 16 8 == 0 else trWord p i 6 == 0)

/-- The launch handles of a pattern. -/
def patHandles (p : List Byte) : List (BitVec 32) :=
  ((patLive p).filter (fun i => trAcc p i && !trAk p i)).map (fun i => BitVec.ofNat 32 (trWord p i 5))

def handlesOk (q : Partition) (p : List Byte) : Bool :=
  let ents := (patHandles p).map q.named
  ents.all (·.isSome) && (distinct (ents.map (fun e => e.map (·.ctx)))).length ≤ 1

def areasOk (p : List Byte) : Bool :=
  let caught := (patLive p).any (fun i => trCe p i || (trAcc p i && !trAk p i))
  (patSpl p == 0 || patSbase p != 0) && (!caught || patCbase p != 0) && decide (patSbase p + 64 * patSpl p < 2 ^ 55)
    && decide (patCbase p + 128 * (patCap p + patSpl p) < 2 ^ 55)

/-- A record is valid for a partition (R278). -/
def patternOk (q : Partition) (p : List Byte) : Bool :=
  p.length == patternBytes && headerOk p && streamsOk p && statesOk p && (patLive p).all (transOk p)
    && (p.drop (4 * (96 + 8 * patTrans p))).all (fun b => b == 0)
    && (patLive p).any (fun i => trFrom p i == 0) && handlesOk q p && areasOk p

/-! ### Matching (R283, R288) -/

def evClass (e : EvRec) : Nat := (e.getD 0 0).toNat % 65536

/-- The guard of a transition at a clock's reading. -/
def guardHolds (p : List Byte) (i v : Nat) : Bool :=
  !trGe p i || (match trGop p i with
    | 0 => decide (v < trGk p i)
    | 1 => decide (v ≤ trGk p i)
    | 2 => decide (trGk p i < v)
    | _ => decide (trGk p i ≤ v))

/-- The field test of a transition on an event. -/
def fieldHolds (p : List Byte) (i : Nat) (e : EvRec) : Bool :=
  let v := (e.getD (4 + trField p i 3 29 2) 0).toNat
  let k := trWord p i 4
  !trFe p i || (match trFop p i with
    | 0 => v == k
    | 1 => v != k
    | 2 => decide (v < k)
    | 3 => decide (v ≤ k)
    | 4 => decide (k < v)
    | 5 => decide (k ≤ v)
    | _ => v &&& k != 0)

def Cand.start (x : Cand) (c : Nat) : Nat := [x.s0, x.s1, x.s2, x.s3].getD c 0

/-- The lowest-index transition of state `q` that matches an event, the clocks read by `clock`. -/
def patMatch (p : List Byte) (q : Nat) (e : EvRec) (clock : Nat → Nat) : Option Nat :=
  (patOut p q).find? (fun i =>
    !trTmr p i && classTest (trWord p i 1) (evClass e) && fieldHolds p i e && guardHolds p i (clock (trGc p i)))

/-- A clock of a candidate at a time. -/
def Cand.clock (p : List Byte) (x : Cand) (t c : Nat) : Nat := (t - x.start c) / 2 ^ patUnit p

/-- The deadline of a timer transition for a candidate (R285). -/
def Cand.deadline (p : List Byte) (x : Cand) (i : Nat) : Nat := x.start (trGc p i) + trGk p i * 2 ^ patUnit p

/-- What one transition adds to a candidate's bound; none for an unbounded one (R288). -/
def Cand.boundBy (p : List Byte) (x : Cand) (i : Nat) : Option Nat :=
  if trTmr p i then some (x.deadline p i)
  else if !trGe p i then none
  else match trGop p i with
    | 0 => some (x.deadline p i)
    | 1 => some (x.start (trGc p i) + (trGk p i + 1) * 2 ^ patUnit p)
    | _ => none

/-- A candidate's bound (R288). -/
def Cand.bound (p : List Byte) (x : Cand) : Option Nat :=
  let l := (patOut p x.state).map (x.boundBy p)
  if l.isEmpty then some x.since
  else if l.any (·.isNone) then none
  else some ((l.filterMap id).foldl max 0)

/-- A time lies beyond a candidate's bound. -/
def Cand.expires (p : List Byte) (x : Cand) (t : Nat) : Bool := match x.bound p with
  | none => false
  | some b => decide (b < t)

end Sys2Proof.Machine
end

