-- ==== Sys2Proof/Machine/Queue.lean ====
section
/-!
DEFINITION. Queues: records, pool admission, spill rings, the full policy, append windows, and EMIT, QRD, QLEN (11 R257 to R270,
17 R388).
-/

namespace Sys2Proof.Machine

/-! ### Streams, fields and records (R258 to R260) -/

def hostQueues : Nat := 131072
def streams : Nat := 147456

/-- The ring's size exponent as it acts: 0 for none (R260). -/
def Queue.ringLog (q : Queue) : Nat :=
  let r := q.rlog.toNat
  if 6 ≤ r ∧ r ≤ 24 ∧ q.rbase.toNat * 4096 % max 4096 (2 ^ (r + 5)) = 0 then r else 0

def Queue.ringVa (q : Queue) (i : Nat) : Nat := q.rbase.toNat * 4096 + 32 * i

def Queue.dropped (q : Queue) : Queue := { q with drops := if q.drops = 0xFFFFFFFF then q.drops else q.drops + 1 }

/-- A record as accepted: the time, the source and the spilled bit (R259). -/
def stampRec (r : EvRec) (time src : Nat) (spilled : Bool) : EvRec :=
  let w (i : Nat) : Word := r.getD i 0
  [BitVec.ofNat 32 (bits (w 0) 0 16 + (src + 4 * b2n spilled) * 2 ^ 16 + bits (w 0) 24 8 * 2 ^ 24), w 1,
    BitVec.ofNat 32 time, BitVec.ofNat 32 (time / 2 ^ 32), w 4, w 5, w 6, w 7]

def recToBytes (r : EvRec) : List Byte := (List.range 8).flatMap (fun i => leBytes 4 (r.getD i 0).toNat)

def bytesToRec (bs : List Byte) : EvRec := (List.range 8).map (fun i => BitVec.ofNat 32 (wordAt bs i))

/-- Time of a record. -/
def recTime (r : EvRec) : Nat := (r.getD 2 0).toNat + 2 ^ 32 * (r.getD 3 0).toNat

/-! ### Pool admission (R262) -/

def poolSize : Nat := 262144

/-- Free pool entries. -/
def State.poolFree (s : State) : Nat := poolSize - (s.queues.map (fun e => e.2.pool.length)).sum

/-- Entries kept for the guarantees of valid queues. -/
def State.poolOwed (s : State) : Nat := (s.queues.map (fun e => if e.2.v then e.2.min.toNat - e.2.pool.length else 0)).sum

def State.admits (s : State) (j : Nat) : Bool :=
  let q := s.queue j
  decide (q.pool.length < q.min.toNat) || (decide (q.pool.length < q.cap.toNat) && decide (s.poolOwed < s.poolFree))

/-! ### Accesses of a base-die unit within one line (R265, R294, R298) -/

/-- What an access of a unit met. -/
inductive UnitRes where
  | ok (bs : List Byte)
  | fault (code : BitVec 8)
  | ask (vpn : Nat)

/-- An access of a unit in a partition's address space, within one 128-byte line: a write of bytes, or a read of `n`; `counted` where
it can count as heat (R340). -/
def State.unitAccess (s : State) (who : Asker) (part va n : Nat) (wr : Option (List Byte)) (counted : Bool := true) : State × UnitRes :=
  let (s, x) := s.translate who part va (if wr.isSome then .write else .read)
  match x with
  | .ask vpn => (s.askHost who part vpn wr.isSome, .ask vpn)
  | .fault c => (s.usedAnswer who, .fault c)
  | .tier10 => (s, .fault 0x16)
  | .host ld addr =>
    let s := s.usedAnswer who
    match wr with
    | some bs => ({ s with host := Memory.writeN s.host (ld * 2 ^ 64 + addr) bs }, .ok bs)
    | none => (s, .ok (Memory.readN s.host (ld * 2 ^ 64 + addr) n))
  | .dev pa key comp bix he _ =>
    let a : Acc := ⟨part, pa, key, comp, bix, he && counted, .none, none⟩
    let s := s.usedAnswer who
    match wr with
    | some bs =>
      let (s, ok) := s.devWrite a bs
      (s, if ok then .ok bs else .fault 0x13)
    | none =>
      let (s, r) := s.devRead a n
      match r with
      | .error c => (s, .fault c)
      | .ok v => (s, .ok v)

/-! ### The ring (R263, R265) -/

/-- A spill write or refill read of record `i` of a queue's ring. -/
def State.ringAccess (s : State) (j : Nat) (q : Queue) (i : Nat) (wr : Option EvRec) : State × UnitRes :=
  s.unitAccess (.unit (if wr.isSome then 5 else 6) j) q.part.toNat (q.ringVa i) 32 (wr.map recToBytes)

/-- A queue engine's report (R268). -/
def State.reportQueue (s : State) (j engine : Nat) (code : BitVec 8) (va : Nat) : State × Nat :=
  s.report (s.queue j).part.toNat ⟨code, engine, engine == 5, none, 0, j, BitVec.ofNat 64 va, 0⟩

/-- The ring's oldest record leaves it. -/
def Queue.advance (q : Queue) : Queue :=
  { q with rhead := BitVec.ofNat 24 ((q.rhead.toNat + 1) % 2 ^ q.ringLog), rcnt := q.rcnt - 1, ringSeq := q.ringSeq.drop 1 }

/-- The refill of a queue; `n` bounds the records moved (R263, R265). -/
def State.refillQ (s : State) (j : Nat) : Nat → State
  | 0 => s
  | n + 1 =>
    let q := s.queue j
    if q.rcnt = 0 ∨ q.held ∨ !s.admits j then s
    else
      match s.ringAccess j q q.rhead.toNat none with
      | (s, .ok bs) => refillQ (s.updQueue j (fun q =>
          { q.advance with pool := q.pool ++ [(q.ringSeq.headD 0, bytesToRec bs)] })) j n
      | (s, .ask _) => s.updQueue j (fun q => { q with held := true, refill := true, heldBy := none })
      | (s, .fault c) =>
        if s.mustHold q.part.toNat c then s.updQueue j (fun q => { q with stuck := true })
        else
          let (s, idx) := s.reportQueue j 6 c (q.ringVa q.rhead.toNat)
          if c == 0x11 then s.updQueue j (fun q => { q with held := true, refill := true, heldBy := some idx })
          else refillQ (s.updQueue j (fun q => q.advance.dropped)) j n

/-! ### Records leave a queue that automata read (R280) -/

/-- An armed or held automaton. -/
def Slot.live (x : Slot) : Bool := decide (2 ≤ x.st) && decide (x.st ≤ 5)

/-- An automaton's cursor in a stream it lists. -/
def Slot.cursor (x : Slot) (j : Nat) : Option Nat := (((patSids x.pat).zip x.cursors).find? (fun e => e.1 == j)).map (·.2)

/-- Firmware is moving an automaton between units: its streams do not all name one (R295). -/
def State.inTransit (s : State) (x : Slot) : Bool := (distinct (((patSids x.pat).filter (fun k => (s.queue k).v)).map (fun k => (s.queue k).mtch))).length != 1

/-- Records below this append order have been taken by every automaton that lists the queue, of its unit or on its way there (R280,
R295). -/
def State.takenUpTo (s : State) (j : Nat) : Nat :=
  let q := s.queue j
  (s.slots.filterMap (fun e => if e.2.live && (e.2.unit == q.mtch || s.inTransit e.2) then e.2.cursor j else none)).foldl Nat.min q.seq

/-- The records that all have taken leave the pool. -/
def State.leaveQ (s : State) (j : Nat) : State :=
  let q := s.queue j
  if !q.v || q.cmode then s
  else
    let upTo := s.takenUpTo j
    s.updQueue j (fun q => { q with pool := q.pool.filter (fun e => decide (upTo ≤ e.1)) })

/-- Records leave and refill runs, until nothing more moves; `n` bounds the rounds (R263, R280). -/
def State.settleQ (s : State) (j : Nat) : Nat → State
  | 0 => s.leaveQ j
  | n + 1 =>
    let s := s.leaveQ j
    let t := s.refillQ j (s.queue j).rcnt.toNat
    if (t.queue j).rcnt = (s.queue j).rcnt then t else settleQ t j n

def State.refillAll (s : State) (j : Nat) : State :=
  let s := if (s.queue j).stuck then s.updQueue j (fun q => { q with stuck := false }) else s
  s.settleQ j ((s.queue j).rcnt.toNat + 1)

/-! ### Placing a record (R263, R264) -/

/-- What became of a record offered to a queue: placed; lost in the ring path; neither pooled nor spilled; or its fault is held with
it, since the fault buffer is full (R267). -/
inductive Placed where
  | ok
  | lost
  | full
  | stuck
  deriving DecidableEq, Repr

/-- The record is written to the ring's tail (R263, R265). -/
def State.spillRec (s : State) (j : Nat) (r : EvRec) (src : Nat) : State × Placed :=
  let q := s.queue j
  let i := (q.rhead.toNat + q.rcnt.toNat) % 2 ^ q.ringLog
  let r := stampRec r s.time src true
  let inRing (q : Queue) : Queue := { q with rcnt := q.rcnt + 1, ringSeq := q.ringSeq ++ [q.seq], seq := q.seq + 1 }
  match s.ringAccess j q i (some r) with
  | (s, .ok _) => ({ s.updQueue j inRing with stamped := s.time }, .ok)
  | (s, .ask _) =>
    ({ s.updQueue j (fun q => { inRing q with held := true, refill := false, staging := some r, heldBy := none }) with stamped := s.time }, .ok)
  | (s, .fault c) =>
    if s.mustHold q.part.toNat c then (s, .stuck)
    else
      let (s, idx) := s.reportQueue j 5 c (q.ringVa i)
      if replayable c then
        ({ s.updQueue j (fun q => { inRing q with held := true, refill := false, staging := some r, heldBy := some idx }) with
           stamped := s.time }, .ok)
      else (s.updQueue j Queue.dropped, .lost)

/-- A record offered to a queue (R263). -/
def State.placeRec (s : State) (j : Nat) (r : EvRec) (src : Nat) : State × Placed :=
  let q := s.queue j
  if q.rcnt = 0 ∧ !q.held ∧ s.admits j then
    ({ s.updQueue j (fun q => { q with pool := q.pool ++ [(q.seq, stampRec r s.time src false)], seq := q.seq + 1 }) with
       stamped := s.time }, .ok)
  else if q.ringLog ≠ 0 ∧ !q.held ∧ q.rcnt.toNat < 2 ^ q.ringLog then s.spillRec j r src
  else (s, .full)

/-- The full policy as it acts (R260): 0 stall, 1 drop, 2 fault. -/
def Queue.policy (q : Queue) : Nat := Nat.min q.pol.toNat 2

/-- A host's record: placed, or discarded by the full policy; none while its fault must be held (R264, R267). -/
def State.offerHost (s : State) (j : Nat) (r : EvRec) : Option State :=
  let q := s.queue j
  match if q.stalled.isEmpty then s.placeRec j r 0 else (s, .full) with
  | (_, .stuck) => none
  | (s, .full) =>
    if q.policy = 2 then
      if s.mustHold q.part.toNat 0x32 then none else some ((s.updQueue j Queue.dropped).reportQueue j 7 0x32 0).1
    else some (s.updQueue j Queue.dropped)
  | (s, _) => some (s.refillAll j)

/-- What a producer's record came to: accepted or dropped; a fault 0x32; it waits behind others (R264); or it has not been taken yet,
the queue's unit holding a fault (R267). -/
inductive Offered where
  | done
  | fault
  | wait
  | stuck
  deriving DecidableEq, Repr

/-- A host append arrives at the unit (R264). -/
def State.hostRec (s : State) (j : Nat) (r : EvRec) : State :=
  let push := s.updQueue j (fun q => { q with hostq := q.hostq ++ [r] })
  if (s.queue j).hostq.isEmpty then (s.offerHost j r).getD push else push

/-- A record offered by an EMIT (01) or a Rowan emit (10) (R264). -/
def State.offerRec (s : State) (j : Nat) (r : EvRec) (src : Nat) : State × Offered :=
  let q := s.queue j
  if !q.hostq.isEmpty then (s, .stuck)
  else
    match if q.stalled.isEmpty then s.placeRec j r src else (s, .full) with
    | (s, .ok) | (s, .lost) => (s.refillAll j, .done)
    | (_, .stuck) => (s, .stuck)
    | (s, .full) =>
      if q.policy = 0 || !q.stalled.isEmpty then (s, .wait)
      else if q.policy = 1 then (s.updQueue j Queue.dropped, .done)
      else (s.updQueue j Queue.dropped, .fault)

/-- What the unit held for a full fault buffer is tried again: host appends first, or a refill (R267). -/
def State.retryHeld (s : State) (j : Nat) : State :=
  match (s.queue j).hostq with
  | r :: rest => (State.offerHost (s.updQueue j (fun q => { q with hostq := rest })) j r).getD s
  | [] => s.refillAll j

/-! ### EMIT, QRD and QLEN at issue (R270) -/

/-- The stream an operand names, or none where it is out of range. -/
def streamOf (ds : Bool) (n : Nat) : Option Nat :=
  if ds then (if n < 16384 then some (hostQueues + n) else none) else if n < hostQueues then some n else none

def emitFx (x : QueArg) (l : Lane) : LaneRes :=
  let n := l.src32 0 x.a
  match streamOf x.ds n.toNat with
  | none => .fault 0x12 (n.setWidth 64) 0 true
  | some j =>
    let rec' := (List.range 8).map (fun i => l.g 1 (x.r.toNat + i))
    .ok { ops := [{ l.op .st (.emit j rec') 0 .later 0 [] with arb := 2 }] }

def qrdFx (x : QueArg) (l : Lane) : LaneRes :=
  let n := l.src32 0 x.a
  match streamOf x.ds n.toNat with
  | none => .fault 0x12 (n.setWidth 64) 0 false
  | some j => .ok { ops := [{ l.op .ld (.qrd j x.r.toNat) 0 .later 0 (latId :: rangeIds x.r 8) with acq := some .sys }] }

def qlenFx (x : QlenArg) (l : Lane) : LaneRes :=
  let n := l.src32 0 x.a
  match streamOf x.ds n.toNat with
  | none => .fault 0x12 (n.setWidth 64) 0 false
  | some j => .ok { ops := [l.op .ld (.qlen j x.d) 0 .later 0 (latId :: x.d.ids false)] }

/-- EMIT (R270). -/
def execEmit (x : QueArg) (s : State) : Host.Outcome State Fault Refusal := s.issueMem (.emit x) x.gd.holds true (emitFx x)

/-- QRD (R270). -/
def execQrd (x : QueArg) (s : State) : Host.Outcome State Fault Refusal := s.issueMem (.qrd x) x.gd.holds false (qrdFx x)

/-- QLEN (R270). -/
def execQlen (x : QlenArg) (s : State) : Host.Outcome State Fault Refusal := s.issueMem (.qlen x) x.gd.holds false (qlenFx x)

/-! ### At the queue unit (R270) -/

/-- Requests that go to a base-die unit. -/
def OpKind.toUnit : OpKind → Bool
  | .emit .. | .qrd .. | .qlen .. | .mload .. | .marm _ | .mdis _ | .mstat .. => true
  | _ => false

/-- An operation's turn at a unit: the lanes of one issue in order, a lane's requests in program order, and none while an
earlier acquire of the lane is incomplete; a stalled EMIT keeps no one waiting but its own queue (R264, R270). -/
def State.unitTurn (s : State) (o : Op) : Bool :=
  !s.ops.any (fun p => decide (p.id < o.id) && ((p.kind.toUnit && !p.sent && (p.iss == o.iss || p.slot == o.slot))
    || (p.slot == o.slot && p.acq.isSome)))

/-- A register result of an operation that a unit answers: D and the latch. -/
def Thread.answered (t : Thread) (born : Nat) (d : Dst) (v : Word) : Thread :=
  (match d with
    | .g i => t.wrG false (some born) i.toNat v
    | d => t.setDst false d (v.setWidth 64)).setLat (v.setWidth 64)

/-- The queue is valid and belongs to the partition of an operation. -/
def State.ownsQueue (s : State) (j part : Nat) : Bool := (s.queue j).v && (s.queue j).part.toNat == part

/-- EMIT_ACCEPT (R270): the record arrives at the unit, once all that its release follows is performed, earlier EMITs of its lane among
it (R235, R269). -/
def execEmitAccept (op : Nat) (s : State) : Host.Outcome State Fault Refusal :=
  match s.op? op with
  | none => .next s
  | some o => match o.kind with
    | .emit j r =>
      if o.sent || !s.unitTurn o || s.accessBelow o.slot o.id then .next s
      else if !s.ownsQueue j o.part then .next (s.deferOp o 0x12 0)
      else
        match s.offerRec j r 1 with
        | (s, .done) => .next (s.finishOp o)
        | (s, .fault) => .next (s.deferOp o 0x32 0)
        | (_, .stuck) => .next s
        | (s, .wait) => .next ((s.updOp op (fun p => { p with sent := true })).updQueue j (fun q => { q with stalled := q.stalled ++ [.inl op] }))
    | _ => .next s

/-- QRD_SERVE (R269, R270): the pool's head, or zero. -/
def execQrdServe (op : Nat) (s : State) : Host.Outcome State Fault Refusal :=
  match s.op? op with
  | none => .next s
  | some o => match o.kind with
    | .qrd j r =>
      if !s.unitTurn o then .next s
      else if !s.ownsQueue j o.part || !(s.queue j).cmode then .next (s.deferOp o 0x12 0)
      else
        match (s.queue j).pool with
        | [] => .next ((s.updThread o.slot (fun t =>
            ((List.range 8).foldl (fun t i => t.wrG false (some o.id) (r + i) 0) t).setLat 0)).finishOp o)
        | (_, rec') :: rest =>
          let s := (s.updQueue j (fun q => { q with pool := rest })).refillAll j
          let s := s.updThread o.slot (fun t =>
            { (List.range 8).foldl (fun t i => t.wrG false (some o.id) (r + i) (rec'.getD i 0)) t with lat := 1, acqStamp := s.stamp })
          .next ((State.endIntervals { s with stamp := s.stamp + 1 } [o.slot]).finishOp o)
    | _ => .next s

/-- QLEN_SAMPLE (R270). -/
def execQlenSample (op : Nat) (s : State) : Host.Outcome State Fault Refusal :=
  match s.op? op with
  | none => .next s
  | some o => match o.kind with
    | .qlen j d =>
      if !s.unitTurn o then .next s
      else if !s.ownsQueue j o.part then .next (s.deferOp o 0x12 0)
      else .next ((s.updThread o.slot (fun t =>
        t.answered o.id d (BitVec.ofNat 32 ((s.queue j).pool.length + (s.queue j).rcnt.toNat)))).finishOp o)
    | _ => .next s

/-! ### Host appends (R261, R264, R266, R388) -/

/-- A logical device reaches a queue: it is enabled and the queue is valid and of one of its partitions. -/
def State.reaches (s : State) (ld j : Nat) : Bool :=
  (s.ld ld).v && (s.queue j).v && (s.ld ld).parts.getLsbD (s.queue j).part.toNat

/-- The device answers appends: not while off, booting or in recovery (R389, R400, R403). -/
def State.takesAppends (s : State) : Bool := decide (s.dev.state.toNat ≤ 2)

/-- HOST_APPEND (R266): a write of a host to an append window. -/
def execHostAppend (ld stream off : Nat) (data : List Byte) (s : State) : Host.Outcome State Fault Refusal :=
  if !s.takesAppends || hostQueues ≤ stream || !s.reaches ld stream || off != 0 || (data.length != 32 && data.length != 64) then .next s
  else .next (s.hostRec stream (bytesToRec data))

/-- Bytes 32 to 47 of an append window (R266). -/
def State.windowStatus (s : State) (ld j : Nat) : List Byte :=
  if !s.reaches ld j then List.replicate 16 0
  else
    let q := s.queue j
    let room := (q.min.toNat - q.pool.length) + (if q.ringLog = 0 then 0 else 2 ^ q.ringLog - q.rcnt.toNat)
    leBytes 4 (if q.held || !q.stalled.isEmpty then 0 else room) ++ leBytes 4 q.drops.toNat ++ leBytes 4 q.pool.length
      ++ leBytes 4 q.rcnt.toNat

/-- What a read of `n` bytes of an append window returns: zero but for the status (R266). -/
def State.windowBytes (s : State) (ld j off n : Nat) : List Byte :=
  ((List.replicate 32 0 ++ s.windowStatus ld j ++ List.replicate 16 0).drop off).take n

/-! ### Resolving a held spill write or refill read (R265, R339) -/

/-- The access is repeated, or takes a code. -/
def State.resolveQueue (s : State) (j : Nat) (code : Option (BitVec 8)) : State :=
  let q := s.queue j
  if !q.held then s
  else
    let s := s.updQueue j (fun q => { q with held := false, heldBy := none })
    let drop (s : State) : State := s.updQueue j (fun q => { q.dropped with rcnt := q.rcnt - 1, ringSeq := q.ringSeq.dropLast, staging := none })
    let s := match q.refill, q.staging, code with
      | true, _, none => s
      | true, _, some _ => s.updQueue j (fun q => q.advance.dropped)
      | false, none, _ => s
      | false, some _, some _ => drop s
      | false, some r, none =>
        let i := (q.rhead.toNat + q.rcnt.toNat + 2 ^ q.ringLog - 1) % 2 ^ q.ringLog
        match s.ringAccess j q i (some r) with
        | (s, .ok _) => s.updQueue j (fun q => { q with staging := none })
        | (s, .ask _) => s.updQueue j (fun q => { q with held := true, heldBy := none })
        | (s, .fault c) =>
          if s.mustHold q.part.toNat c then s.updQueue j (fun q => { q with held := true, heldBy := none })
          else
          let (s, idx) := s.reportQueue j 5 c (q.ringVa i)
          if replayable c then s.updQueue j (fun q => { q with held := true, heldBy := some idx }) else drop s
    s.refillAll j

end Sys2Proof.Machine
end

