-- ==== Sys2Proof/Machine/Rowan.lean ====
section
/-!
DEFINITION. Automata: MLOAD, MARM, MDIS, MSTAT, and Rowan matching: items, candidates, accepting, holds (12 R271 to R302).
-/

namespace Sys2Proof.Machine

/-! ### Slots (R272, R301) -/

def slotCount : Nat := 4096

/-- The status word (R272). -/
def Slot.status (x : Slot) : DWord :=
  BitVec.ofNat 64 (x.part.toNat * 2 ^ 59 + b2n x.own * 2 ^ 58 + x.unit.toNat * 2 ^ 56 + x.code.toNat * 2 ^ 48 + x.st)

def sat64 (n : Nat) : Nat := if n + 1 < 2 ^ 64 then n + 1 else 2 ^ 64 - 1

def Slot.onDie (x : Slot) : Nat := (x.cands.filter (fun c => c.spill.isNone)).length
def Slot.spilled (x : Slot) : Nat := (x.cands.filter (fun c => c.spill.isSome)).length

/-- The value of an MSTAT selector (R301). -/
def Slot.stat (x : Slot) (sel : Nat) : DWord :=
  if sel = 0 then x.status
  else if x.st ≤ 1 then 0
  else BitVec.ofNat 64 ([0, x.onDie, x.spilled, x.created, x.accepted, x.expired, x.inhibited, x.lost, x.lastTime, x.taken].getD sel 0)

/-! ### The unit's accesses (R294) -/

/-- Where a unit's work on an item stops: held under a record (ST 3); waiting for the host's translation, or with a fault for space in
the fault buffer (R267), to be tried again from there; for room (ST 4), on an emit (ST 5), or stopped with a code (ST 6). -/
inductive Halt where
  | record (idx : Nat)
  | wait
  | room
  | emit
  | fault (code : BitVec 8)

/-- A report of a Rowan unit: engine 3 or 4, word 1 the slot number (R268, R294). -/
def State.reportSlot (s : State) (part a engine : Nat) (code : BitVec 8) (wr : Bool) (va : Nat) : State × Nat :=
  s.report part ⟨code, engine, wr, none, 0, a, BitVec.ofNat 64 va, 0⟩

/-- A spill (engine 3) or capture (engine 4) access of an automaton. -/
def State.slotAccess (s : State) (a va n : Nat) (wr : Option (List Byte)) (engine : Nat) : State × Except Halt (List Byte) :=
  let part := (s.slot a).part.toNat
  match s.unitAccess (.unit engine a) part va n wr with
  | (s, .ok bs) => (s, .ok bs)
  | (s, .ask _) => (s, .error .wait)
  | (s, .fault c) =>
    if s.mustHold part c then (s, .error .wait)
    else
    let (s, idx) := s.reportSlot part a engine c wr.isSome va
    (s, .error (if replayable c then .record idx else .fault c))

/-! ### Candidates (R286 to R290) -/

def Slot.cand? (x : Slot) (seq : Nat) : Option Cand := x.cands.find? (fun c => c.seq == seq)
def Slot.updCand (x : Slot) (seq : Nat) (f : Cand → Cand) : Slot := { x with cands := x.cands.map (fun c => if c.seq == seq then f c else c) }
def Slot.dropCand (x : Slot) (seq : Nat) : Slot := { x with cands := x.cands.filter (fun c => c.seq != seq) }

/-- A candidate's 64 bytes (R289). -/
def Cand.bytes (c : Cand) : List Byte :=
  leBytes 4 (2 ^ 31 + c.state * 2 ^ 24 + c.cv.toNat * 2 ^ 20) ++ leBytes 4 c.key.toNat ++ leBytes 8 c.s0 ++ leBytes 8 c.s1
    ++ leBytes 8 c.s2 ++ leBytes 8 c.s3 ++ leBytes 8 c.seq ++ leBytes 4 c.cidx ++ leBytes 12 0

def Slot.capVa (x : Slot) (c : Cand) (k : Nat) : Nat := patCbase x.pat + 128 * c.cidx + 32 * k
def Slot.spillVa (x : Slot) (place : Nat) : Nat := patSbase x.pat + 64 * place

/-- Candidates on die, of a partition and of all (R271). -/
def State.onDieOf (s : State) (part : Nat) : Nat := ((s.slots.filter (fun e => e.2.part.toNat == part)).map (fun e => e.2.onDie)).sum
def State.onDieAll (s : State) : Nat := (s.slots.map (fun e => e.2.onDie)).sum

/-- The pool takes one more candidate of an automaton (R286). -/
def State.poolRoom (s : State) (a : Nat) : Bool :=
  let x := s.slot a
  decide (x.onDie < patCap x.pat) && decide (s.onDieOf x.part.toNat < (s.part x.part.toNat).cquota.toNat) && decide (s.onDieAll < 131072)

/-- The lowest free place of the spill area, when fewer than SPL are spilled. -/
def Slot.spillRoom (x : Slot) : Option Nat := firstBelow (patSpl x.pat) (fun j => !x.cands.any (fun c => c.spill == some j))

/-- Where a new candidate goes: the pool, or a place in the spill area. -/
def State.candRoom (s : State) (a : Nat) : Option (Option Nat) :=
  if s.poolRoom a then some none else (s.slot a).spillRoom.map some

/-- The lowest free capture block. -/
def Slot.freeBlock (x : Slot) : Nat := (firstBelow (x.cands.length + 1) (fun i => !x.cands.any (fun c => c.cidx == i))).getD 0

/-- A new candidate at a place and block (R286). -/
def Slot.addCand (x : Slot) (t : Nat) (key : Word) (place : Option Nat) (block : Nat) : Slot :=
  { x with
    cands := x.cands ++ [⟨0, 0, key, t, t, t, t, x.nextSeq, block, place, t⟩]
    nextSeq := x.nextSeq + 1
    created := sat64 x.created }

/-- A creation (R286, R287): the candidate's number; none when it is dropped; or a halt. -/
def State.create (s : State) (a t : Nat) (key : Word) : State × Except Halt (Option Nat) :=
  let x := s.slot a
  let lose (s : State) : State := s.updSlot a (fun x => { x with lost := sat64 x.lost })
  match s.candRoom a with
  | some place => (s.updSlot a (fun x => x.addCand t key place x.freeBlock), .ok (some x.nextSeq))
  | none =>
    match patOvf x.pat, x.cands with
    | 1, c :: _ => ((lose s).updSlot a (fun x => (x.dropCand c.seq).addCand t key c.spill c.cidx), .ok (some x.nextSeq))
    | 2, _ => (s, .error .room)
    | 3, _ =>
      if s.mustHold x.part.toNat 0x30 then (s, .error .wait)
      else ((s.reportSlot x.part.toNat a 3 0x30 false 0).1, .error (.fault 0x30))
    | _, _ => (lose s, .ok none)

/-- Candidates whose bound lies before a time are reclaimed as expired (R288). -/
def Slot.expireBefore (x : Slot) (t : Nat) : Slot :=
  let gone := x.cands.filter (fun c => c.expires x.pat t)
  { x with cands := x.cands.filter (fun c => !c.expires x.pat t), expired := gone.foldl (fun n _ => sat64 n) x.expired }

/-! ### Applying a transition (R284, R289, R291, R292) -/

/-- The clocks a transition resets take the time of the item. -/
def Cand.reset (c : Cand) (p : List Byte) (i t : Nat) : Cand :=
  { c with
    s0 := if trRst p i 0 then t else c.s0
    s1 := if trRst p i 1 then t else c.s1
    s2 := if trRst p i 2 then t else c.s2
    s3 := if trRst p i 3 then t else c.s3 }

/-- After the capture: clocks, and either the action or the new state (R284). -/
def State.moveOn (s : State) (a t i : Nat) (c : Cand) : State × Option Doing :=
  let p := (s.slot a).pat
  if trAcc p i then (s.updSlot a (fun x => x.updCand c.seq (fun c => c.reset p i t)), some (.slots c.seq i []))
  else
    (s.updSlot a (fun x => x.updCand c.seq (fun c => { c.reset p i t with state := trTo p i, since := t })),
      if c.spill.isSome then some (.image c.seq) else none)

/-- The candidate has accepted and is reclaimed. -/
def State.accepted (s : State) (a seq : Nat) : State :=
  s.updSlot a (fun x => { x.dropCand seq with accepted := sat64 x.accepted })

/-- The derived record of an accepting emit (R292). -/
def derived (p : List Byte) (i : Nat) (key : Word) (slot0 : List Byte) : EvRec :=
  let e := trWord p i 6
  let w (j : Nat) : Word := BitVec.ofNat 32 (wordAt slot0 j)
  [BitVec.ofNat 32 (e / 2 ^ 24 * 2 ^ 24 + e % 2 ^ 16), key, 0, 0, w 4, w 5, w 6, w 7]

/-- The launch of an accepting transition is handed to the placer at depth 0, with the record as it stands (R291, R309). -/
def State.askLaunch (s : State) (a : Nat) (handle : BitVec 32) (args : List Byte) : State :=
  let part := (s.slot a).part.toNat
  let rec' := ((s.part part).named handle).map (fun e => (e.bytes, e.ctx))
  let s := if rec'.isSome then s.updPart part (·.countLive handle) else s
  { s with
    greqs := s.greqs ++ [⟨s.nextEnt, part, handle, 0, none, args, none, some a, .discard, 0, rec'⟩]
    nextEnt := s.nextEnt + 1 }

/-- One phase of a transition: the next one, none when it is done, or a halt. -/
def State.phase (s : State) (a t : Nat) (ev : Option EvRec) (d : Doing) : State × Except Halt (Option Doing) :=
  let x := s.slot a
  match d with
  | .capture seq i =>
    match x.cand? seq with
    | none => (s, .ok none)
    | some c =>
      match (if trCe x.pat i then ev else none) with
      | none => let (s, n) := s.moveOn a t i c; (s, .ok n)
      | some e =>
        match s.slotAccess a (x.capVa c (trCslot x.pat i)) 32 (some (recToBytes e)) 4 with
        | (s, .error h) => (s, .error h)
        | (s, .ok _) =>
          let s := s.updSlot a (fun x => x.updCand seq (fun c => { c with cv := c.cv ||| BitVec.twoPow 4 (trCslot x.pat i) }))
          let (s, n) := s.moveOn a t i c
          (s, .ok n)
  | .slots seq i got =>
    match x.cand? seq with
    | none => (s, .ok none)
    | some c =>
      let k := got.length / 32
      if k < (if trAk x.pat i then 1 else 4) then
        if c.cv.getLsbD k then
          match s.slotAccess a (x.capVa c k) 32 none 4 with
          | (s, .error h) => (s, .error h)
          | (s, .ok bs) => (s, .ok (some (.slots seq i (got ++ bs))))
        else (s, .ok (some (.slots seq i (got ++ List.replicate 32 0))))
      else if trAk x.pat i then (s, .ok (some (.emit seq (trWord x.pat i 5 % 2 ^ 18) (derived x.pat i c.key got))))
      else ((s.askLaunch a (BitVec.ofNat 32 (trWord x.pat i 5)) got).accepted a seq, .ok none)
  | .emit seq j r =>
    if !s.ownsQueue j x.part.toNat then
      if s.mustHold x.part.toNat 0x12 then (s, .error .wait)
      else ((s.reportSlot x.part.toNat a 3 0x12 false 0).1, .error (.fault 0x12))
    else
      match s.offerRec j r 2 with
      | (s, .done) => (s.accepted a seq, .ok none)
      | (t, .fault) =>
        if s.mustHold x.part.toNat 0x32 then (s, .error .wait)
        else (((t.reportSlot x.part.toNat a 3 0x32 false 0).1).accepted a seq, .ok none)
      | (_, .stuck) => (s, .error .wait)
      | (s, .wait) => (s.updQueue j (fun q => { q with stalled := q.stalled ++ [.inr a] }), .error .emit)
  | .image seq =>
    match x.cand? seq with
    | none => (s, .ok none)
    | some c => match c.spill with
      | none => (s, .ok none)
      | some place => match s.slotAccess a (x.spillVa place) 64 (some c.bytes) 3 with
        | (s, .error h) => (s, .error h)
        | (s, .ok _) => (s, .ok none)

/-- Phases one after another; `n` bounds them. Answers where it stopped. -/
def State.phases (s : State) (a t : Nat) (ev : Option EvRec) : Nat → Doing → State × Option (Halt × Doing)
  | 0, _ => (s, none)
  | n + 1, d => match s.phase a t ev d with
    | (s, .error h) => (s, some (h, d))
    | (s, .ok none) => (s, none)
    | (s, .ok (some d')) => phases s a t ev n d'

def State.applyTr (s : State) (a t : Nat) (ev : Option EvRec) (d : Doing) : State × Option (Halt × Doing) := s.phases a t ev 8 d

/-! ### Taking an item (R281 to R285) -/

/-- One candidate meets an event (R284). -/
def State.meetEvent (s : State) (a t : Nat) (e : EvRec) (seq : Nat) : State × Option (Halt × Option Doing) :=
  let x := s.slot a
  match x.cand? seq with
  | none => (s, none)
  | some c =>
    let read := match c.spill with
      | none => (s, none)
      | some place => match s.slotAccess a (x.spillVa place) 64 none 3 with
        | (s, .error h) => (s, some h)
        | (s, .ok _) => (s, none)
    match read with
    | (s, some h) => (s, some (h, none))
    | (s, none) =>
      if patKeyed x.pat && c.key != e.getD 1 0 then (s, none)
      else if patInhibits x.pat c.state (evClass e) then
        (s.updSlot a (fun x => { x.dropCand seq with inhibited := sat64 x.inhibited }), none)
      else
        match patMatch x.pat c.state e (c.clock x.pat t) with
        | none => (s, none)
        | some i => match s.applyTr a t (some e) (.capture seq i) with
          | (s, none) => (s, none)
          | (s, some (h, d)) => (s, some (h, some d))

/-- The candidates that remain, in creation order; answers where it stopped and who is still to come. -/
def State.meetAll (s : State) (a t : Nat) (e : EvRec) : List Nat → State × Option (Halt × List Nat × Option Doing)
  | [] => (s, none)
  | q :: qs => match s.meetEvent a t e q with
    | (s, none) => meetAll s a t e qs
    | (s, some (h, some d)) => (s, some (h, qs, some d))
    | (s, some (h, none)) => (s, some (h, q :: qs, none))

/-- The initial transition an event matches creates a candidate and is applied to it (R284, R286). -/
def State.initial (s : State) (a t : Nat) (e : EvRec) : State × Option (Halt × Bool × Option Doing) :=
  match patMatch (s.slot a).pat 0 e (fun _ => 0) with
  | none => (s, none)
  | some i => match s.create a t (e.getD 1 0) with
    | (s, .error h) => (s, some (h, true, none))
    | (s, .ok none) => (s, none)
    | (s, .ok (some seq)) => match s.applyTr a t (some e) (.capture seq i) with
      | (s, none) => (s, none)
      | (s, some (h, d)) => (s, some (h, false, some d))

/-- Records leave the queues of an automaton's streams (R280). -/
def State.settleStreams (s : State) (sids : List Nat) : State := sids.foldl (fun s j => s.refillAll j) s

/-- An automaton stops where its work halted (R273, R287, R292, R294). -/
def State.halt (s : State) (a : Nat) (h : Halt) (it : HeldItem) : State :=
  match h with
  | .record idx => s.updSlot a (fun x => { x with st := 3, held := some { it with heldBy := some idx } })
  | .wait => s.updSlot a (fun x => { x with held := some it })
  | .room => s.updSlot a (fun x => { x with st := 4, held := some it })
  | .emit => s.updSlot a (fun x => { x with st := 5, held := some it })
  | .fault c => (s.updSlot a (fun x => { x with st := 6, code := c, held := none })).settleStreams (patSids (s.slot a).pat)

/-- The item is done: the cursor passes its record, which may leave its queue. -/
def State.itemDone (s : State) (a : Nat) (it : Item) : State :=
  match it with
  | .event _ j seq _ =>
    (s.updSlot a (fun x => { x with
      held := none, cursors := (patSids x.pat).zipWith (fun k c => if k = j then seq + 1 else c) x.cursors })).refillAll j
  | _ => s.updSlot a (fun x => { x with held := none })

/-- The rest of an item, from wherever it stands (R282, R284, R285). -/
def State.runItem (s : State) (a : Nat) (it : HeldItem) : State :=
  let (t, ev) := match it.item with
    | .event t _ _ e => (t, some e)
    | .timer d _ _ => (d, none)
    | .move _ => (0, none)
  let r := match it.doing with
    | none => (s, none)
    | some d => s.applyTr a t ev d
  match r with
  | (s, some (h, d)) => s.halt a h { it with doing := some d, heldBy := none }
  | (s, none) =>
    match ev with
    | none => s.itemDone a it.item
    | some e =>
      match s.meetAll a t e it.rest with
      | (s, some (h, rest, d)) => s.halt a h { it with rest := rest, doing := d, heldBy := none }
      | (s, none) =>
        match if it.init then s.initial a t e else (s, none) with
        | (s, some (h, init', d)) => s.halt a h { it with rest := [], init := init', doing := d, heldBy := none }
        | (s, none) => s.itemDone a it.item

/-! ### Which item is next (R281) -/

/-- What a stream offers: a record, nothing while it is blocked, or nothing since it is empty. -/
inductive Offer where
  | item (i : Item)
  | blocked
  | empty

/-- What a stream offers an automaton of a unit. One that another unit consumes is blocked for it, till the automaton has moved there, and
one that QRD consumes is empty for it (R261, R281; log 81: DESIGN CHOICE). -/
def State.offer (s : State) (unit : BitVec 2) (j cursor : Nat) : Offer :=
  let q := s.queue j
  if q.cmode then .empty
  else if q.v ∧ q.mtch ≠ unit then .blocked
  else match List.find? (fun (e : Nat × EvRec) => decide (cursor ≤ e.1)) q.pool with
  | some e => .item (.event (recTime e.2) j e.1 e.2)
  | none => if q.rcnt = 0 then .empty else .blocked

/-- The key of R281. -/
def Item.key : Item → List Nat
  | .event t j seq _ => [t, 1, j, seq]
  | .timer d c i => [d, 0, c, i]
  | .move _ => []

def lexLess : List Nat → List Nat → Bool
  | [], _ => false
  | _, [] => false
  | a :: l, b :: m => decide (a < b) || (a == b && lexLess l m)

def least : List Item → Option Item
  | [] => none
  | i :: l => match least l with
    | none => some i
    | some j => if lexLess i.key j.key then some i else some j

/-- The timers of an automaton's candidates (R285). -/
def Slot.timers (x : Slot) : List Item :=
  x.cands.flatMap (fun c => ((patOut x.pat c.state).filter (trTmr x.pat)).map (fun i => .timer (c.deadline x.pat i) c.seq i))

/-- The offers of an automaton's streams. -/
def State.offers (s : State) (a : Nat) : List Offer :=
  let x := s.slot a
  ((patSids x.pat).zip x.cursors).map (fun e => s.offer x.unit e.1 e.2)

def Offer.isBlocked : Offer → Bool
  | .blocked => true
  | _ => false

def Offer.isEmpty : Offer → Bool
  | .empty => true
  | _ => false

def Offer.item? : Offer → Option Item
  | .item i => some i
  | _ => none

/-- The least item of an automaton, when it may be taken (R281). -/
def State.nextItem (s : State) (a : Nat) : Option Item :=
  let x := s.slot a
  let l := s.offers a
  if l.any (·.isBlocked) then none
  else
    match least (l.filterMap (·.item?) ++ x.timers) with
    | none => none
    | some i =>
      let ok := match i with
        | .event t _ _ _ => decide (t + patLate x.pat < s.time)
        | .timer d _ _ => decide (d + patLate x.pat ≤ s.time)
        | .move _ => false
      if !l.any (·.isEmpty) || ok then some i else none

/-- An automaton may begin an item: armed, with nothing held and no launch of its own that waits for the pending list (R309). -/
def State.mayTake (s : State) (a : Nat) : Bool :=
  (s.slot a).st == 2 && !(s.slot a).saved && (s.slot a).held.isNone
    && !(s.greqs.any (fun r => r.auto == some a) && decide (65536 ≤ s.pendingGrids (s.slot a).part.toNat))

/-- An item is taken (R284, R285, R288, R301). -/
def State.takeItem (s : State) (a : Nat) (i : Item) : State :=
  match i with
  | .event t _ _ _ =>
    let s := s.timeRead.updSlot a (fun x => ({ x with lastTime := t, taken := sat64 x.taken }).expireBefore t)
    s.runItem a ⟨i, (s.slot a).cands.map (·.seq), true, none, none⟩
  | .timer d c tr =>
    let s := s.timeRead.updSlot a (fun x => ({ x with lastTime := d }).expireBefore d)
    s.runItem a ⟨i, [], false, some (.capture c tr), none⟩
  | .move _ => s

def Item.isEvent : Item → Bool
  | .event .. => true
  | _ => false

/-- An item that waited to be tried again, or for a resolved record, goes on (R282). -/
def State.resume? (s : State) (a : Nat) (event : Bool) : Option State :=
  let x := s.slot a
  match x.held with
  | none => none
  | some it => if x.st = 2 && it.item.isEvent == event then some (s.runItem a it) else none

/-- ROWAN_TAKE_EVENT (R284). -/
def execRowanTakeEvent (a : Nat) (s : State) : Host.Outcome State Fault Refusal :=
  match s.resume? a true with
  | some t => .next t
  | none =>
    if !s.mayTake a then .next s
    else match s.nextItem a with
      | some (.event t j q e) => .next (s.takeItem a (.event t j q e))
      | _ => .next s

/-- ROWAN_TAKE_TIMER (R285). -/
def execRowanTakeTimer (a : Nat) (s : State) : Host.Outcome State Fault Refusal :=
  match s.resume? a false with
  | some t => .next t
  | none =>
    if !s.mayTake a then .next s
    else match s.nextItem a with
      | some (.timer d c i) => .next (s.takeItem a (.timer d c i))
      | _ => .next s

/-- WATERMARK_EXPIRE (R288): with every stream empty and no item to take, candidates whose bound W exceeds are reclaimed. -/
def execWatermarkExpire (a : Nat) (s : State) : Host.Outcome State Fault Refusal :=
  let x := s.slot a
  if !s.mayTake a || !(s.offers a).all (·.isEmpty) || (s.nextItem a).isSome || s.time < patLate x.pat then .next s
  else .next (s.updSlot a (fun x => x.expireBefore (s.time - patLate x.pat)))

/-- ROWAN_ROOM_FREED (R287): room frees and the pending creation is made. -/
def execRowanRoomFreed (a : Nat) (s : State) : Host.Outcome State Fault Refusal :=
  let x := s.slot a
  match x.held with
  | none => .next s
  | some it =>
    if x.st ≠ 4 ∨ (s.candRoom a).isNone then .next s
    else .next ((s.updSlot a (fun x => { x with st := 2 })).runItem a it)

/-- CANDIDATE_MOVE (R290): between the pool and the spill area. -/
def execCandidateMove (a seq : Nat) (s : State) : Host.Outcome State Fault Refusal :=
  let x := s.slot a
  match x.cand? seq with
  | none => .next s
  | some c =>
    if !s.mayTake a then .next s
    else
      match c.spill, x.spillRoom with
      | some place, _ =>
        if !s.poolRoom a then .next s
        else
          match s.slotAccess a (x.spillVa place) 64 none 3 with
          | (s, .ok _) => .next (s.updSlot a (fun x => x.updCand seq (fun c => { c with spill := none })))
          | (s, .error h) => .next (s.halt a h ⟨.move seq, [], false, none, none⟩)
      | none, none => .next s
      | none, some place =>
        match s.slotAccess a (x.spillVa place) 64 (some c.bytes) 3 with
        | (s, .ok _) => .next (s.updSlot a (fun x => x.updCand seq (fun c => { c with spill := some place })))
        | (s, .error h) => .next (s.halt a h ⟨.move seq, [], false, none, none⟩)

/-! ### Emits under the stall policy (R264, R292) -/

/-- A held emit has been accepted: the candidate accepts, and the item goes on. -/
def State.emitTaken (s : State) (a : Nat) : State :=
  match (s.slot a).held with
  | none => s
  | some it => match it.doing with
    | some (.emit seq _ _) => ((s.accepted a seq).updSlot a (fun x => { x with st := 2 })).runItem a { it with doing := none }
    | _ => s

/-- The record of a held emit. -/
def Slot.heldEmit (x : Slot) : Option EvRec := match x.held with
  | none => none
  | some it => match it.doing with
    | some (.emit _ _ r) => some r
    | _ => none

/-- The first stalled request of a queue is placed, if there is room now (R264). -/
def State.admitStalled (s : State) (j : Nat) : State :=
  let q := s.queue j
  let pop (s : State) : State := s.updQueue j (fun q => { q with stalled := q.stalled.drop 1 })
  match q.stalled with
  | [] => s
  | .inl id :: _ =>
    match s.op? id with
    | none => pop s
    | some o => match o.kind with
      | .emit _ r => match s.placeRec j r 1 with
        | (_, .full) | (_, .stuck) => s
        | (s, _) => ((pop s).finishOp o).refillAll j
      | _ => pop s
  | .inr a :: _ =>
    match (s.slot a).heldEmit with
    | none => pop s
    | some r =>
      if !s.ownsQueue j (s.slot a).part.toNat then
        if s.mustHold (s.slot a).part.toNat 0x12 then s
        else (pop (s.reportSlot (s.slot a).part.toNat a 3 0x12 false 0).1).halt a (.fault 0x12) ⟨.move 0, [], false, none, none⟩
      else
      match s.placeRec j r 2 with
      | (_, .full) | (_, .stuck) => s
      | (s, _) => ((pop s).refillAll j).emitTaken a

/-- STALLED_APPEND_ADMIT (R264): the first stalled request is placed; what the unit holds for the host's translation, or for a full
fault buffer (R267), goes before it. -/
def execStalledAppendAdmit (stream : Nat) (s : State) : Host.Outcome State Fault Refusal :=
  let q := s.queue stream
  if q.held && q.heldBy.isNone then .next (s.resolveQueue stream none)
  else if q.stuck || !q.hostq.isEmpty then .next (s.retryHeld stream)
  else .next (s.admitStalled stream)

/-- ROWAN_EMIT_ACCEPTED (R292): the emit of a held automaton, first in its queue's order, is accepted; one whose queue had become
invalid is reported once the fault buffer has room, and stops its automaton (R261, R267). -/
def execRowanEmitAccepted (a : Nat) (s : State) : Host.Outcome State Fault Refusal :=
  match (s.slot a).held with
  | none => .next s
  | some it => match it.doing with
    | some (.emit _ j _) =>
      if (s.slot a).st ≠ 5 then .next s
      else if (s.queue j).stalled.head? = some (.inr a) then .next (s.admitStalled j)
      else if j = streams ∧ !s.mustHold (s.slot a).part.toNat 0x12 then
        .next (((s.reportSlot (s.slot a).part.toNat a 3 0x12 false 0).1).halt a (.fault 0x12) ⟨.move 0, [], false, none, none⟩)
      else .next s
    | _ => .next s

/-! ### Loading, arming, disarming (R298 to R300) -/

/-- What a unit's command came to: done, a code, held under a record, or awaiting the host's translation. -/
inductive UnitDone where
  | ok
  | code (c : BitVec 8)
  | held (idx : Nat)
  | host

/-- The lines of a pattern record, one after another. -/
def State.readPattern (s : State) (part a va : Nat) : Nat → List Byte → State × (List Byte ⊕ UnitDone)
  | 0, got => (s, .inl got)
  | n + 1, got =>
    match s.unitAccess (.unit 3 a) part (va + got.length) 128 none with
    | (s, .ok bs) => readPattern s part a va n (got ++ bs)
    | (s, .ask _) => (s, .inr .host)
    | (s, .fault c) =>
      if replayable c then
        let (s, idx) := s.reportSlot part a 3 c false (va + got.length)
        (s, .inr (.held idx))
      else (s, .inr (.code c))

/-- MLOAD at the unit (R298). -/
def State.mload (s : State) (part a va : Nat) : State × UnitDone :=
  if 1 < (s.slot a).st then (s, .code 0x31)
  else
    match s.readPattern part a va 19 [] with
    | (s, .inr r) => (s, r)
    | (s, .inl p) =>
      if patternOk (s.part part) p then (s.updSlot a (fun x => { x with pat := p, st := 1, code := 0 }), .ok)
      else (s, .code 0x31)

/-- The streams of a slot admit arming (R280). -/
def State.armable (s : State) (x : Slot) : Bool :=
  let qs := (patSids x.pat).map s.queue
  qs.all (fun q => q.v && q.part == x.part && !q.cmode) && (distinct (qs.map (·.mtch))).length == 1

/-- MARM at the unit (R299). -/
def State.marm (s : State) (a : Nat) : State × UnitDone :=
  let x := s.slot a
  if x.live then (s, .ok)
  else if x.st ≠ 1 ∨ !s.armable x then (s, .code 0x31)
  else
    let qs := (patSids x.pat).map s.queue
    (s.updSlot a (fun x => { x with
      st := 2, unit := (qs.map (·.mtch)).headD 0, cursors := qs.map (·.seq), cands := [], nextSeq := 0, held := none
      created := 0, accepted := 0, expired := 0, inhibited := 0, lost := 0, lastTime := 0, taken := 0 }), .ok)

/-- MDIS at the unit (R300). -/
def State.mdis (s : State) (a : Nat) : State :=
  let x := s.slot a
  if x.st = 0 then s
  else
    let s := match x.held with
      | none => s
      | some it => match it.doing with
        | some (.emit _ j _) => s.updQueue j (fun q => { q with stalled := q.stalled.filter (fun e => e != Sum.inr a) })
        | _ => s
    let s := s.updPart x.part.toNat (fun p => { p with images := p.images.map (fun i =>
      { i with autos := i.autos.filter (fun e => e.1 != a) }) })
    (s.updSlot a (fun x => { x with st := 1, cands := [], cursors := [], held := none, saved := false })).settleStreams (patSids x.pat)

/-! ### MLOAD, MARM, MDIS and MSTAT at issue (R297) -/

/-- The slot an operand names; 4096 or more faults at issue. -/
def Lane.toSlot (l : Lane) (x : Src) (f : Nat → LaneRes) : LaneRes :=
  let n := l.src32 0 x
  if slotCount ≤ n.toNat then .fault 0x12 (n.setWidth 64) 0 false else f n.toNat

/-- MLOAD at issue (R297, R298). A slot of 4096 or more faults before an address that is misaligned or out of range: the manual gives
no order of the two (log 30: DESIGN CHOICE). -/
def mloadFx (x : MloadArg) (l : Lane) : LaneRes :=
  l.toSlot x.a (fun a =>
    let va := l.src 1 true x.b
    if va.toNat % 128 ≠ 0 then .fault 0x10 va 0 false
    else if 2 ^ 55 ≤ va.toNat then .fault 0x12 va 0 false
    else .ok { ops := [l.op .st (.mload a va.toNat) 0 .later 0 []] })

/-- MLOAD (R298). -/
def execMload (x : MloadArg) (s : State) : Host.Outcome State Fault Refusal := s.issueMem (.mload x) x.gd.holds true (mloadFx x)

/-- MARM (R299). -/
def execMarm (x : SlotArg) (s : State) : Host.Outcome State Fault Refusal :=
  s.issueMem (.marm x) x.gd.holds true (fun l => l.toSlot x.a (fun a => .ok { ops := [l.op .st (.marm a) 0 .later 0 []] }))

/-- MDIS (R300). -/
def execMdis (x : SlotArg) (s : State) : Host.Outcome State Fault Refusal :=
  s.issueMem (.mdis x) x.gd.holds true (fun l => l.toSlot x.a (fun a => .ok { ops := [l.op .st (.mdis a) 0 .later 0 []] }))

/-- MSTAT (R301). -/
def execMstat (x : MstatArg) (s : State) : Host.Outcome State Fault Refusal :=
  s.issueMem (.mstat x) x.gd.holds false (fun l => l.toSlot x.a (fun a =>
    .ok { ops := [l.op .ld (.mstat a x.d.toNat (l.src32 1 x.b).toNat) 0 .later 0 (latId :: gOf x.d true)] }))

/-! ### At the unit (R296, R297) -/

/-- The slot belongs to a partition. -/
def State.ownsSlot (s : State) (a part : Nat) : Bool := (s.slot a).own && (s.slot a).part.toNat == part

/-- A command acts between two items, or where a held item stopped: never inside one that awaits the host. -/
def State.finishUnit (s : State) (o : Op) (r : UnitDone) : State :=
  match r with
  | .ok => s.finishOp o
  | .code c => s.deferOp o c (match o.kind with
    | .mload _ va => BitVec.ofNat 64 va
    | _ => 0)
  | .held idx => s.holdOp o idx
  | .host => s

/-- An operation of a lane reaches the unit (R296, R297): its turn, and after every earlier access of its lane. -/
def State.atUnit (s : State) (op : Nat) (ordered : Bool) (f : Op → State × UnitDone) : Host.Outcome State Fault Refusal :=
  match s.op? op with
  | none => .next s
  | some o =>
    if o.held.isSome || !s.unitTurn o || (ordered && s.unperformed o.slot o.id) then .next s
    else
      let r := f o
      .next (r.1.finishUnit o r.2)

/-- MLOAD_AT_UNIT (R298). -/
def execMloadAtUnit (op : Nat) (s : State) : Host.Outcome State Fault Refusal :=
  match (s.op? op).map (fun (o : Op) => o.kind) with
  | some (.mload a va) => s.atUnit op true (fun o => if s.ownsSlot a o.part then s.mload o.part a va else (s, .code 0x12))
  | _ => .next s

/-- MARM_AT_UNIT (R299). -/
def execMarmAtUnit (op : Nat) (s : State) : Host.Outcome State Fault Refusal :=
  match (s.op? op).map (fun (o : Op) => o.kind) with
  | some (.marm a) => s.atUnit op true (fun o => if s.ownsSlot a o.part then s.marm a else (s, .code 0x12))
  | _ => .next s

/-- MDIS_AT_UNIT (R300). -/
def execMdisAtUnit (op : Nat) (s : State) : Host.Outcome State Fault Refusal :=
  match (s.op? op).map (fun (o : Op) => o.kind) with
  | some (.mdis a) => s.atUnit op true (fun o => if s.ownsSlot a o.part then (s.mdis a, .ok) else (s, .code 0x12))
  | _ => .next s

/-- A 64-bit answer in a main-file pair and the latch. -/
def Thread.answered64 (t : Thread) (born d : Nat) (v : DWord) : Thread :=
  ((t.wrG false (some born) d (v.setWidth 32)).wrG false (some born) (d + 1) ((v >>> 32).setWidth 32)).setLat v

/-- MSTAT_SAMPLE (R301). -/
def execMstatSample (op : Nat) (s : State) : Host.Outcome State Fault Refusal :=
  match (s.op? op).map (fun (o : Op) => o.kind) with
  | some (.mstat a d sel) => s.atUnit op false (fun o =>
      if s.ownsSlot a o.part then (s.updThread o.slot (fun t => t.answered64 op d ((s.slot a).stat sel)), .ok) else (s, .code 0x12))
  | _ => .next s

/-! ### Resolving a held access of an automaton (R294, R337, R339) -/

/-- A slot whose held access is to be repeated by the item's next turn, or which stops with a code. -/
def Slot.resolved (x : Slot) (code : Option (BitVec 8)) : Slot :=
  match code with
  | none => { x with st := if x.st = 3 then 2 else x.st, held := match x.held with
      | none => none
      | some it => match it.item with
        | .move _ => none
        | _ => some { it with heldBy := none } }
  | some c => { x with st := 6, code := c, held := none }

/-- The access of an automaton is repeated, or takes a code. -/
def State.resolveSlot (s : State) (a : Nat) (code : Option (BitVec 8)) : State :=
  let t := s.updSlot a (fun x => x.resolved code)
  if code.isSome then t.settleStreams (patSids (s.slot a).pat) else t

end Sys2Proof.Machine
end

