-- ==== Sys2Proof/Machine/Tables.lean ====
section
/-!
DEFINITION. Writes of the queue table, the slot table, the launch table and the quantum table, and the command registers of the
control window (11 R260, R261, 12 R302, 13 R304 to R308, R319, R321, R322).
-/

namespace Sys2Proof.Machine

/-! ### Queue-table entries (R260, R261, R322) -/

/-- The entry after a write of its doubleword `k`, lowest first: only FW fields change. -/
def Queue.takeWord (q : Queue) (k : Nat) (v : DWord) : Queue :=
  match k with
  | 0 => { q with drops := v.setWidth 32 }
  | 2 => { q with rbase := (v >>> 21).setWidth 43 }
  | 3 => { q with
      v := bit v 63, part := (v >>> 58).setWidth 5, cmode := bit v 57, mtch := (v >>> 55).setWidth 2, pol := (v >>> 53).setWidth 2
      min := (v >>> 35).setWidth 18, cap := (v >>> 17).setWidth 18, rlog := (v >>> 12).setWidth 5 }
  | _ => q

/-- The entry's doubleword `k` as it reads. -/
def Queue.word (q : Queue) (k : Nat) : DWord :=
  let n := q.pool.length
  match k with
  | 0 => BitVec.ofNat 64 (q.drops.toNat + b2n q.held * 2 ^ 60 + q.rcnt.toNat % 8 * 2 ^ 61)
  | 1 => BitVec.ofNat 64 (q.rcnt.toNat / 8 + q.rhead.toNat * 2 ^ 22 + n % 2 ^ 18 * 2 ^ 46)
  | 2 => BitVec.ofNat 64 (q.rbase.toNat * 2 ^ 21)
  | _ => BitVec.ofNat 64 (b2n q.v * 2 ^ 63 + q.part.toNat * 2 ^ 58 + b2n q.cmode * 2 ^ 57 + q.mtch.toNat * 2 ^ 55
      + q.pol.toNat * 2 ^ 53 + q.min.toNat * 2 ^ 35 + q.cap.toNat * 2 ^ 17 + q.rlog.toNat * 2 ^ 12)

/-- The stream of a held emit that met an invalid queue: none that a queue can have. -/
def Slot.misdirect (x : Slot) : Slot :=
  { x with held := x.held.map (fun it => { it with doing := match it.doing with
      | some (.emit c _ r) => some (.emit c streams r)
      | d => d }) }

/-- A queue becomes invalid: its records and staging go, and what was stalled there ends (R261). The emit of an automaton whose fault
finds no room in the fault buffer stays held with it, bound for no queue, till there is room (R267, R273). -/
def State.dropQueue (s : State) (j : Nat) : State :=
  let old := s.queue j
  let s := s.updQueue j (fun q => { q with
    pool := [], ringSeq := [], staging := none, rhead := 0, rcnt := 0, held := false, heldBy := none, refill := false, stalled := [], hostq := [], stuck := false })
  old.stalled.foldl (fun s e => match e with
    | .inl id => match s.op? id with
      | none => s
      | some o => s.deferOp o 0x12 0
    | .inr a =>
      let x := s.slot a
      if s.mustHold x.part.toNat 0x12 then s.updSlot a Slot.misdirect
      else ((s.reportSlot x.part.toNat a 3 0x12 false 0).1).halt a (.fault 0x12) ⟨.move 0, [], false, none, none⟩) s

/-- Automata whose streams all name one unit now are on that unit (R295). -/
def State.followUnit (s : State) (j : Nat) : State :=
  (s.slots.map (·.1)).foldl (fun s a =>
    let x := s.slot a
    let ms := distinct ((patSids x.pat).map (fun k => (s.queue k).mtch))
    if x.live && (patSids x.pat).contains j && ms.length == 1 then s.updSlot a (fun x => { x with unit := ms.headD 0 }) else s) s

/-- The new consumer finds the remaining records; those that no automaton lists leave, and refill runs (R261, R263, R280). -/
def State.handOver (s : State) (j : Nat) : State :=
  if ((s.leaveQ j).queue j).pool.length = (s.queue j).pool.length then s else s.refillAll j

/-- A changed entry takes effect between two queue operations; none when firmware refuses it (R260, R261). A new consumer finds the
remaining records. -/
def State.writeQueue (s : State) (j : Nat) (f : Queue → Queue) : Option State :=
  let old := s.queue j
  let new := f old
  let others := ((s.queues.filter (fun e => e.1 != j && e.2.v)).map (fun e => e.2.min.toNat)).sum
  if new.cap < new.min ∨ (new.v ∧ poolSize < others + new.min.toNat) then none
  else
    let s := s.updQueue j (fun _ => new)
    some (if old.v && !new.v then s.dropQueue j
      else if old.cmode = new.cmode ∧ old.mtch = new.mtch then s
      else (s.followUnit j).handOver j)

/-- A window of a partition reaches a queue entry, and may leave it as written (R322). -/
def Queue.reached (q : Queue) (part : Nat) : Bool := !(q.v && q.part.toNat != part)

/-- QUEUE_TABLE_WRITE (R260, R261, R320, R322). -/
def execQueueTableWrite (part stream k : Nat) (v : DWord) (s : State) : Host.Outcome State Fault Refusal :=
  let q := s.queue stream
  if streams ≤ stream || 4 ≤ k || !q.reached part || !(q.takeWord k v).reached part then .next s
  else .next ((s.writeQueue stream (fun q => q.takeWord k v)).getD s)

/-! ### Slots (R273, R322) -/

/-- A window of a partition reaches a slot. -/
def Slot.reached (x : Slot) (part : Nat) : Bool := !(x.own && x.part.toNat != part)

/-- A write of a slot's status word: OWN and PART, while ST is 0 or 1. A write that takes the slot from its partition stops its
automaton first, as MDIS does (R273, R375; log 66: DESIGN CHOICE). -/
def State.writeSlot (s : State) (part a : Nat) (v : DWord) : State :=
  let x := s.slot a
  let p : BitVec 5 := (v >>> 59).setWidth 5
  let put (s : State) : State := s.updSlot a (fun x => { x with own := bit v 58, part := p })
  if !x.reached part || (bit v 58 && p.toNat != part) then s
  else if x.st ≤ 1 then put s
  else if bit v 58 then s
  else put (s.mdis a)

/-! ### SLCMD (R302, R321) -/

/-- An MLOAD given by a window or the mailbox: the address checks of R298, then the unit's. -/
def State.mloadFor (s : State) (part a va : Nat) : State × UnitDone :=
  if va % 128 ≠ 0 then (s, .code 0x10) else if 2 ^ 55 ≤ va then (s, .code 0x12) else s.mload part a va

/-- A command's end: SLST holds its code, or BUSY stays while it is held. -/
def State.slEnd (s : State) (part : Nat) (r : UnitDone) : State :=
  s.updPart part (fun p => match r with
    | .ok => { p with slBusy := false, slst := 0, slHeld := none }
    | .code c => { p with slBusy := false, slst := c, slHeld := none }
    | .held idx => { p with slBusy := true, slHeld := some idx }
    | .host => { p with slBusy := true, slHeld := none })

/-- The SLCMD word of an operation and a slot. -/
def slWord (op a : Nat) : DWord := BitVec.ofNat 64 (op * 2 ^ 62 + a)

/-- A write of SLCMD: ignored while BUSY, refused with 0x12 on a slot of another partition. -/
def State.slcmd (s : State) (part op a : Nat) (f : State → State × UnitDone) : State :=
  let p := s.part part
  if slotCount ≤ a || p.slBusy then s
  else
    let s := s.updPart part (fun p => { p with slcmd := slWord op a })
    let r := if (s.slot a).reached part then f s else (s, .code 0x12)
    r.1.slEnd part r.2

/-- A held MLOAD of SLCMD reads its record again. -/
def State.slAgain (s : State) (part : Nat) : State :=
  let p := s.part part
  let r := s.mloadFor part (bits p.slcmd 0 12) p.slarg.toNat
  r.1.slEnd part r.2

/-- SLCMD_MLOAD (R321); while its record waits for the host's translation it goes on with its next turn. -/
def execSlcmdMload (part a : Nat) (s : State) : Host.Outcome State Fault Refusal :=
  let p := s.part part
  if p.slBusy && p.slHeld.isNone && p.slcmd == slWord 0 a then .next (s.slAgain part)
  else .next (s.slcmd part 0 a (fun s => s.mloadFor part a p.slarg.toNat))

/-- SLCMD_MARM (R321). -/
def execSlcmdMarm (part a : Nat) (s : State) : Host.Outcome State Fault Refusal := .next (s.slcmd part 1 a (fun s => s.marm a))

/-- SLCMD_MDIS (R321). -/
def execSlcmdMdis (part a : Nat) (s : State) : Host.Outcome State Fault Refusal := .next (s.slcmd part 2 a (fun s => (s.mdis a, .ok)))

/-- SLCMD_MSTAT (R321): the value in SLRES. -/
def execSlcmdMstat (part a : Nat) (s : State) : Host.Outcome State Fault Refusal :=
  .next (s.slcmd part 3 a (fun s =>
    (s.updPart part (fun p => { p with slres := (s.slot a).stat p.slarg.toNat }), .ok)))

/-! ### The launch table (R304 to R308) -/

/-- The status word of a launch-table entry (R307). -/
def LEntry.status (e : LEntry) : DWord :=
  BitVec.ofNat 64 (b2n e.b * 2 ^ 63 + e.gen.toNat * 2 ^ 47 + e.ctx.toNat * 2 ^ 31 + e.live)

/-- The first status code of R308 that refuses a record, 0 when none does. -/
def bindCode (groves : Nat) (r : List Byte) : Nat :=
  let res0 := fieldAt r 0 0 3 == 0 && fieldAt r 1 0 12 == 0 && fieldAt r 2 19 13 == 0 && allZero r (3 :: 15 :: List.range' 18 14)
  let ranges := decide (16 ≤ lrRegs r) && decide (lrRegs r ≤ 256) && decide (1 ≤ lrTeam r) && decide (lrTeam r ≤ 512)
    && decide (lrRsp r ≤ 16) && decide (lrFan r ≤ 8) && decide (lrDep r ≤ 8) && decide (lrTags r ≤ 64) && decide (lrScr r ≤ 262144)
    && lrScr r % 16 == 0 && decide (lrClen r ≤ 2 ^ 24) && decide (lrKlen r ≤ 2 ^ 24) && decide (lrTeams r ≤ 2 ^ 32)
  let places := lrEntry r % 8 == 0 && decide (lrEntry r < 2 ^ 55) && lrCblk r % 4096 == 0 && decide (lrCblk r < 2 ^ 55)
    && lrKbase r % 8 == 0 && decide (lrKbase r < 2 ^ 55)
  if fieldAt r 0 24 8 ≠ 1 ∨ !res0 then 1
  else if !ranges then 2
  else if !places then 3
  else if !(List.range 8).all (fun k => decide ((r.getD (64 + k) 0).toNat ≤ 13)) then 4
  else if !(needOf r).fitsEmpty then 5
  else if lrFuse r && groves == 0 then 6
  else 0

/-- The handle of an entry (R306). -/
def handleOf (i : Nat) (e : LEntry) : BitVec 32 := BitVec.ofNat 32 (e.gen.toNat * 2 ^ 12 + i)

/-- A binding into a free entry that firmware chose: the status code and the handle; none when that entry is not free
though another is. -/
def State.bindRecord (s : State) (part : Nat) (r : List Byte) (ctx : BitVec 16) (i : Nat) : Option (State × Nat × BitVec 32) :=
  let p := s.part part
  let code := bindCode p.groveList.length r
  if code ≠ 0 then some (s, code, 0)
  else if (List.range 4096).all (fun j => (p.lentry j).b) then some (s, 7, 0)
  else if 4096 ≤ i || (p.lentry i).b then none
  else
    some (s.updPart part (fun p => p.updLentry i (fun e => { e with bytes := r, b := true, ctx := ctx, live := 0 })), 0,
      handleOf i (p.lentry i))

/-- An armed or held automaton of a partition names a handle (R278, R308). -/
def State.handleInUse (s : State) (part : Nat) (h : BitVec 32) : Bool :=
  s.slots.any (fun e => e.2.live && e.2.part.toNat == part && (patHandles e.2.pat).contains h)

/-- An unbinding: 0, or 8 or 9 where it is refused (R307, R308). -/
def State.unbindHandle (s : State) (part : Nat) (h : BitVec 32) : State × Nat :=
  if ((s.part part).named h).isNone then (s, 9)
  else if s.handleInUse part h then (s, 8)
  else (s.updPart part (fun p => p.updLentry (h.toNat % 4096) (fun e =>
    { e with b := false, gen := e.gen + 1, live := 0 })), 0)

/-- A write of the status word of a launch-table entry (R307, R320): CTX changes; B going to 0 is an unbinding, refused as R308 says,
and B going to 1 binds the copy that stands there where R308 admits it (log 67: DESIGN CHOICE). -/
def State.writeLentry (s : State) (part i : Nat) (v : DWord) : State :=
  let e := (s.part part).lentry i
  let ctx (s : State) : State := s.updPart part (fun p => p.updLentry i (fun e => { e with ctx := (v >>> 31).setWidth 16 }))
  if 4096 ≤ i then s
  else if e.b = bit v 63 then ctx s
  else if e.b then
    match s.unbindHandle part (handleOf i e) with
    | (s, 0) => ctx s
    | _ => s
  else if bindCode (s.part part).groveList.length e.bytes = 0 then
    ctx (s.updPart part (fun p => p.updLentry i (fun e => { e with b := true, live := 0 })))
  else s

/-- Bytes of device memory by physical address; zero where nothing is. -/
def State.physBytes (s : State) (part pa n : Nat) : List Byte :=
  if inHbm pa || inCxl pa then s.peekN part pa n else List.replicate n 0

/-- LBCMD_BIND (R321). -/
def execLbcmdBind (part : Nat) (ctx : BitVec 16) (entry : Nat) (s : State) : Host.Outcome State Fault Refusal :=
  match s.bindRecord part (s.physBytes part (bits (s.part part).lbaddr 0 52) 128) ctx entry with
  | none => .next s
  | some (s, code, h) => .next (s.updPart part (fun p => { p with
      lbcmd := BitVec.ofNat 64 (ctx.toNat * 2 ^ 32), lbres := BitVec.ofNat 64 (code * 2 ^ 32 + h.toNat) }))

/-- LBCMD_UNBIND (R321). -/
def execLbcmdUnbind (part : Nat) (s : State) : Host.Outcome State Fault Refusal :=
  let r := s.unbindHandle part ((s.part part).lbaddr.setWidth 32)
  .next (r.1.updPart part (fun p => { p with lbcmd := BitVec.ofNat 64 (2 ^ 63), lbres := BitVec.ofNat 64 (r.2 * 2 ^ 32) }))

/-! ### The quantum table (R319) -/

/-- STATE of an entry: 0 idle, 1 ready, 2 resident, 3 being saved or restored, which an entry whose V was cleared shows too until its
context is saved (R319, R375). -/
def State.entryState (s : State) (part k : Nat) : Nat :=
  let p := s.part part
  let e := p.quantum k
  if p.swap.map (·.1) = some e.ctx ∧ (e.v ∨ k = p.chosen) then 3
  else if !e.v then 0
  else if p.resident = some e.ctx then 2
  else b2n (s.ctxHasGrid part e.ctx)

/-- An entry as it reads. -/
def State.entryWord (s : State) (part k : Nat) : DWord :=
  let e := (s.part part).quantum k
  BitVec.ofNat 64 (b2n e.v * 2 ^ 63 + e.ctx.toNat * 2 ^ 47 + e.quant.toNat * 2 ^ 31 + e.prio.toNat * 2 ^ 28 + e.weight.toNat * 2 ^ 20
    + s.entryState part k * 2 ^ 18)

/-- The entry that the FW fields of a word give. -/
def QEntry.ofWord (v : DWord) : QEntry :=
  ⟨bit v 63, (v >>> 47).setWidth 16, (v >>> 31).setWidth 16, (v >>> 28).setWidth 3, (v >>> 20).setWidth 8⟩

/-- An entry is written (R319). -/
def State.writeQuantum (s : State) (part k : Nat) (v : DWord) : State :=
  State.schedule (s.updPart part (fun p => { p with quanta := p.quanta.set QEntry.reset k (QEntry.ofWord v) })) part

/-- QUANTUM_ENTRY_WRITE (R319, R320). -/
def execQuantumEntryWrite (part k : Nat) (v : DWord) (s : State) : Host.Outcome State Fault Refusal :=
  if 8 ≤ k then .next s else .next (s.writeQuantum part k v)

/-- QUANTUM_EXPIRE (R319). -/
def execQuantumExpire (part : Nat) (s : State) : Host.Outcome State Fault Refusal := .next (s.schedule part)

end Sys2Proof.Machine
end

