-- ==== Sys2Proof/Machine/Fabric.lean ====
section
/-!
DEFINITION. The Canopy engine: puts, all-reduces, arriving transfers and the reduction windows (16 R385, 17 R394 to R397).
-/

namespace Sys2Proof.Machine

/-! ### Accesses of the engine (R394) -/

/-- What an access of the engine came to: done; waiting for a record; to be tried again, after the host's translation or when the
fault buffer has space (R267); or a fault. -/
inductive CanRes where
  | ok (bs : List Byte)
  | held (idx : Nat)
  | again
  | fault (code : BitVec 8)

/-- An access of engine 9 in a partition's tables, piece by piece: a write of bytes, or a read of them; `k` is the operation it
works on, `src` the stream its reports name. Canopy traffic is not counted as heat (R340). -/
def State.canPieces (s : State) (k part va : Nat) (wr : Option (List Byte)) (src : Nat) : List (Nat × Nat) → List Byte → State × CanRes
  | [], got => (s, .ok got)
  | x :: l, got =>
    let a := va + x.1
    match s.unitAccess (.unit 9 k) part a x.2 (wr.map (fun bs => (bs.drop x.1).take x.2)) false with
    | (s, .ok bs) => canPieces s k part va wr src l (got ++ bs)
    | (s, .ask _) => (s, .again)
    | (s, .fault c) =>
      if s.mustHold part c then (s, .again)
      else
        let (s, idx) := s.report part ⟨c, 9, wr.isSome, none, 0, src, BitVec.ofNat 64 a, 0⟩
        (s, if replayable c then .held idx else .fault c)

def State.canRead (s : State) (o : CanOp) (va n : Nat) : State × CanRes := s.canPieces o.id o.part va none o.stream (pieces va n) []
def State.canWrite (s : State) (o : CanOp) (va : Nat) (bs : List Byte) : State × CanRes :=
  s.canPieces o.id o.part va (some bs) o.stream (pieces va bs.length) []

/-! ### Descriptors and completion words (R395, R396) -/

def canId (d : List Byte) : Nat := wordAt d 1
def canSrc (d : List Byte) : Nat := dwordAt d 2
def canDst (d : List Byte) : Nat := dwordAt d 4
def canLen (d : List Byte) : Nat := wordAt d 6
def canDpk (d : List Byte) : Nat := fieldAt d 7 0 16
def canN (d : List Byte) : Nat := fieldAt d 7 16 16
def canCva (d : List Byte) : Nat := dwordAt d 8
def canFn (d : List Byte) : Nat := fieldAt d 10 0 8

/-- A descriptor keeps the table of R395 for the class of its record. -/
def canOk (cls : Nat) (d : List Byte) : Bool :=
  wordAt d 0 == cls && canLen d % 16 == 0 && decide (canLen d ≤ 2 ^ 24)
    && (cls == 1 || (decide (2 ≤ canN d) && decide (canN d ≤ 256) && decide (canFn d ≤ 3)))

/-- The completion word with a status: the collective id for an all-reduce, else 0. -/
def canWord (cls : Nat) (d : List Byte) (status : Nat) : Nat × List Byte :=
  (canCva d, leBytes 4 status ++ leBytes 4 (if cls == 2 then canId d else 0))

def Partition.pkg (p : Partition) : Nat := bits p.fabcfg 0 8
def Partition.fabTag (p : Partition) : Nat := bits p.fabcfg 8 16

/-- The partition of this package on which a transfer to a package with a tag lands (R394). -/
def State.landing (s : State) (pkg tag : Nat) : Option Nat :=
  firstBelow partitions (fun p => (s.part p).v && (s.part p).pkg == pkg && (s.part p).fabTag == tag)

def State.can? (s : State) (n : Nat) : Option CanOp := s.canops.find? (fun o => o.id == n)
def State.updCan (s : State) (n : Nat) (f : CanOp → CanOp) : State :=
  { s with canops := s.canops.map (fun (o : CanOp) => if o.id == n then f o else o) }
def State.dropCan (s : State) (n : Nat) : State := { s with canops := s.canops.filter (fun (o : CanOp) => o.id != n) }

/-- The participants of this package in an all-reduce (R396). -/
def State.mates (s : State) (o : CanOp) : List CanOp :=
  match o.desc with
  | none => []
  | some d => s.canops.filter (fun (q : CanOp) => q.cls == 2 && q.writes.isEmpty && (s.part q.part).fabTag == (s.part o.part).fabTag
      && (match q.desc with
        | none => false
        | some e => canId e == canId d))

/-- An operation ends with a status in place of its effect: its completion word is still to be written, where this package
holds it. -/
def State.endCan (s : State) (o : CanOp) (status : Nat) : State :=
  match o.desc with
  | none => s.dropCan o.id
  | some d =>
    if o.cls == 2 then s.updCan o.id (fun o => { o with writes := [canWord 2 d status], held := none })
    else
      match s.landing (canDpk d) (s.part o.part).fabTag with
      | none => s.dropCan o.id
      | some q => s.updCan o.id (fun o => { o with cls := 0, part := q, writes := [canWord 1 d status], held := none })

/-- The next write of an operation, and its end after the last. A write that meets an error leaves only the completion word,
with status 0x51. -/
def State.canStep (s : State) (o : CanOp) : State :=
  match o.writes with
  | [] => s
  | w :: rest =>
    match s.canWrite o w.1 w.2 with
    | (s, .ok _) => if rest.isEmpty then s.dropCan o.id else s.updCan o.id (fun o => { o with writes := rest })
    | (s, .held idx) => s.updCan o.id (fun o => { o with held := some idx })
    | (s, .again) => s
    | (s, .fault _) =>
      match rest.getLast? with
      | none => s.dropCan o.id
      | some z => s.updCan o.id (fun o => { o with writes := [(z.1, leBytes 4 0x51 ++ z.2.drop 4)] })

/-- The descriptor is read and checked (R395, R396). -/
def State.readDesc (s : State) (o : CanOp) : State :=
  match s.canRead o o.daddr 64 with
  | (s, .held idx) => s.updCan o.id (fun o => { o with held := some idx })
  | (s, .again) => s
  | (s, .fault _) => s.dropCan o.id
  | (s, .ok d) =>
    if canOk o.cls d then s.updCan o.id (fun o => { o with desc := some d })
    else if s.mustHold o.part 0x12 then s
    else
      let s := s.updCan o.id (fun o => { o with desc := some d })
      let s := (s.report o.part ⟨0x12, 9, false, none, 0, o.stream, BitVec.ofNat 64 o.daddr, 0⟩).1
      s.endCan { o with desc := some d } 0x51

/-! ### CANOPY_OP_START (R395) -/

/-- Stream `i` of CANQ, where it is valid. -/
def Partition.canStream (p : Partition) (i : Nat) : Option Nat :=
  if decide (i < 4) && bit p.canq (72 + i) && decide (bits p.canq (18 * i) 18 < streams) then some (bits p.canq (18 * i) 18) else none

/-- CANOPY_OP_START (R395): the pool's head is consumed and acted on. -/
def execCanopyOpStart (part i : Nat) (s : State) : Host.Outcome State Fault Refusal :=
  let p := s.part part
  match p.canStream i with
  | none => .next s
  | some j =>
    if !s.ownsQueue j part || !(s.queue j).cmode then .next s
    else
      match (s.queue j).pool with
      | [] => .next s
      | (_, r) :: rest =>
        let s := (s.updQueue j (fun q => { q with pool := rest })).refillAll j
        let c := evClass r
        if c ≠ 0x7F01 ∧ c ≠ 0x7F02 then .next s
        else
          let o : CanOp := ⟨s.nextOp, part, p.resident.getD 0, c - 0x7F00, (r.getD 4 0).toNat + 2 ^ 32 * (r.getD 5 0).toNat, none, s.time, [], none, j⟩
          .next (State.readDesc { s with canops := s.canops ++ [o], nextOp := s.nextOp + 1 } o)

/-! ### Puts and transfers (R394, R396) -/

/-- CANOPY_PUT_COMPLETE (R396): a put's payload leaves its source; where it lands on this package, the payload and then the
completion word are written. -/
def execCanopyPutComplete (n : Nat) (s : State) : Host.Outcome State Fault Refusal :=
  match s.can? n with
  | none => .next s
  | some o =>
    if o.held.isSome || o.cls == 2 then .next s
    else
      match o.desc with
      | none => if o.cls == 0 then .next (s.canStep o) else .next (s.readDesc o)
      | some d =>
        if !o.writes.isEmpty then .next (s.canStep o)
        else
          match s.canRead o (canSrc d) (canLen d) with
          | (s, .held idx) => .next (s.updCan n (fun o => { o with held := some idx }))
          | (s, .again) => .next s
          | (s, .fault _) => .next (s.endCan o 0x51)
          | (s, .ok bs) =>
            match s.landing (canDpk d) (s.part o.part).fabTag with
            | none => .next (s.dropCan n)
            | some q =>
              let o' : CanOp := { o with cls := 0, part := q, writes := [(canDst d, bs), canWord 1 d 0] }
              .next (State.canStep (s.updCan n (fun _ => o')) o')

/-- CANOPY_TRANSFER_IN (R394): a put from another package lands in the partition of its tag, or is discarded. The
manual does not say which stream its fault records name: that is free. -/
def execCanopyTransferIn (x : CanopyIn) (s : State) : Host.Outcome State Fault Refusal :=
  match s.landing x.pkg.toNat x.tag.toNat with
  | none => .next s
  | some q =>
    let o : CanOp := ⟨s.nextOp, q, 0, 0, 0, none, s.time, [(x.va.toNat, x.data), (x.cva.toNat, List.replicate 8 0)], none,
      (Config.freeWord s.fresh).toNat⟩
    .next (State.canStep { s.takeFresh 1 with canops := s.canops ++ [o], nextOp := s.nextOp + 1 } o)

/-! ### All-reduces (R396, R385) -/

/-- Two elements combined: 0 f32 add, 1 s32 add, 2 f32 max, 3 f32 min. -/
def canCombine (fn : Nat) (a b : Word) : Word :=
  match fn with
  | 0 => (faddOf .rne a b).1
  | 1 => a + b
  | 2 => (fminmaxOf true a b).1
  | _ => (fminmaxOf false a b).1

def combineRow (fn : Nat) (a b : List Word) : List Word := List.zipWith (canCombine fn) a b

/-- The buffers combined in the order they stand. -/
def combineAll (fn : Nat) : List (List Word) → List Word
  | [] => []
  | a :: l => l.foldl (combineRow fn) a

def toWords (bs : List Byte) : List Word := (List.range (bs.length / 4)).map (fun i => BitVec.ofNat 32 (wordAt bs i))

/-- The buffers of participants, in turn; an access that cannot be made yet stops the reading. -/
def State.readMates (s : State) : List CanOp → List (List Word) → State × Option (List (List Word))
  | [], got => (s, some got)
  | o :: l, got => match o.desc with
    | none => (s, none)
    | some d => match s.canRead o (canSrc d) (canLen d) with
      | (s, .ok bs) => readMates s l (got ++ [toWords bs])
      | (s, .held idx) => (s.updCan o.id (fun o => { o with held := some idx }), none)
      | (s, .again) => (s, none)
      | (s, .fault _) => ((s.mates o).foldl (fun s m => s.endCan m 0x51) s, none)

/-- Every participant here ends with a status. -/
def State.endMates (s : State) (o : CanOp) (status : Nat) : State := (s.mates o).foldl (fun s m => s.endCan m status) s

/-- CANOPY_ALLREDUCE_COMPLETE (R396, R385): `others` are the buffers of the participants on other packages, or none when the
collective is aborted there. The result and then the completion word of each participant here are written. -/
def execCanopyAllreduceComplete (n : Nat) (others : Option (List (List Word))) (s : State) : Host.Outcome State Fault Refusal :=
  match s.can? n with
  | none => .next s
  | some o =>
    if o.held.isSome || o.cls != 2 then .next s
    else
      match o.desc with
      | none => .next (s.readDesc o)
      | some d =>
        if !o.writes.isEmpty then .next (s.canStep o)
        else
          match others with
          | none => .next (s.endMates o 0x50)
          | some os =>
            let ms := s.mates o
            let fits := ms.length + os.length == canN d && os.all (fun b => 4 * b.length == canLen d)
              && ms.all (fun m => m.held.isNone && (match m.desc with
                | none => false
                | some e => canLen e == canLen d && canN e == canN d))
            if !fits then .next s
            else
              match s.readMates ms [] with
              | (s, none) => .next s
              | (s, some bs) =>
                let (s, v) := s.pick (combineAll (canFn d) (bs ++ os)) (combineAll (canFn d) (os ++ bs))
                let bytes := v.flatMap (fun w => leBytes 4 w.toNat)
                let s := ms.foldl (fun s (m : CanOp) => s.updCan m.id (fun q => match q.desc with
                  | none => q
                  | some e => { q with writes := [(canDst e, bytes), canWord 2 e 0] })) s
                .next (match s.can? n with
                  | none => s
                  | some q => s.canStep q)

/-- CANOPY_TIMEOUT (R396): 100 ms have passed, for an all-reduce since a submission that may lie on another package. -/
def execCanopyTimeout (n : Nat) (s : State) : Host.Outcome State Fault Refusal :=
  match s.can? n with
  | none => .next s
  | some o =>
    let late := decide (o.start + 100000000 ≤ s.time)
    match o.desc with
    | none => .next s
    | some d =>
      if !o.writes.isEmpty then .next s
      else if o.cls == 1 then .next (if late then s.endCan o 0x51 else s)
      else .next (if late || decide ((s.mates o).length < canN d) then s.endMates o 0x51 else s)

/-- A killed context leaves its collectives: they end with 0x50 at each other participant; its puts go on or not (R384,
R385). -/
def State.abortCan (s : State) (part : Nat) (ctx : BitVec 16) : State :=
  let mine (o : CanOp) : Bool := o.part == part && o.ctx == ctx
  let s := (s.canops.filter (fun (o : CanOp) => mine o && o.cls == 2 && o.writes.isEmpty)).foldl (fun s (o : CanOp) =>
    ((s.mates o).filter (fun m => !mine m)).foldl (fun s m => s.endCan m 0x50) s) s
  let s := { s with canops := s.canops.filter (fun (o : CanOp) => !(mine o && (o.cls == 2 || o.desc.isNone && o.cls == 1))) }
  let (s, keep) := s.pick s.canops (s.canops.filter (fun (o : CanOp) => !(mine o && o.desc.isSome)))
  { s with canops := keep }

/-- What is held waits for one of some reports. -/
def heldIn (rids : List Nat) (h : Option Nat) : Bool := match h with
  | none => false
  | some n => rids.contains n

/-- A fault record is resolved: the accesses of engine 9 it holds are made again, or end with 0x51; an operation whose
descriptor was still to be read has no completion word that is known, and ends (R337, R339, R394). -/
def State.resolveCan (s : State) (part : Nat) (rids : List Nat) (code : Option (BitVec 8)) : State :=
  (s.canops.filter (fun (o : CanOp) => o.part == part && heldIn rids o.held)).foldl (fun s (o : CanOp) =>
    let s := s.updCan o.id (fun o => { o with held := none })
    match code with
    | none => s
    | some _ =>
      match o.writes with
      | [] => if o.cls == 2 && o.desc.isSome then s.endMates o 0x51 else s.endCan o 0x51
      | _ :: rest => match rest.getLast? with
        | none => s.dropCan o.id
        | some z => s.updCan o.id (fun o => { o with writes := [(z.1, leBytes 4 0x51 ++ z.2.drop 4)] })) s

/-! ### Reduction windows (R397) -/

/-- What a delivery came to: done, or lost with a fault; held under a record; or to be tried again, after the host's translation or
when the fault buffer has space (R267, R337). -/
inductive RedRes where
  | done
  | held (idx : Nat)
  | again

/-- The combined value reaches the home memory as one RMW of engine 9, counted once (R340). No record started it, so the stream its
fault records name is free. -/
def State.redWrite (s : State) (r : RedPart) : State × RedRes :=
  let n := if r.dbl then 8 else 4
  let who := Asker.unit 9 (2 ^ 55 + r.addr)
  let err (s : State) (c : BitVec 8) : State × RedRes :=
    if s.mustHold r.part c then (s, .again)
    else
      let (s, idx) := (s.takeFresh 1).report r.part ⟨c, 9, true, none, 0, (Config.freeWord s.fresh).toNat, BitVec.ofNat 64 r.addr, 0⟩
      (s, if replayable c then .held idx else .done)
  let (s, x) := s.translate who r.part r.addr .write
  match x with
  | .ask vpn => (s.askHost who r.part vpn true, .again)
  | .fault c => err (s.usedAnswer who) c
  | .tier10 => err s 0x16
  | .host ld addr =>
    let old := BitVec.ofNat 64 (leNat (Memory.readN s.host (ld * 2 ^ 64 + addr) n))
    (match r.op.apply r.dbl old r.val 0 with
      | none => s.usedAnswer who
      | some v => { s.usedAnswer who with host := Memory.writeN s.host (ld * 2 ^ 64 + addr) (leBytes n v.toNat) }, .done)
  | .dev pa key comp bix he _ =>
    let a : Acc := ⟨r.part, pa, key, comp, bix, he, .none, none⟩
    match s.devRead a n with
    | (s, .error c) => err s c
    | (s, .ok old) => match r.op.apply r.dbl (BitVec.ofNat 64 (leNat old)) r.val 0 with
      | none => (s, .done)
      | some v =>
        let (s, ok) := s.devWrite { a with he := false } (leBytes n v.toNat)
        if ok then (s, .done) else err s 0x13

/-- A combination is delivered: to this package's memory where it is the home, else to another's. -/
def State.deliver (s : State) (r : RedPart) : State :=
  let gone (s : State) : State := { s with redparts := s.redparts.filter (fun q => q != r) }
  if r.held.isSome then s
  else if bits ((s.part r.part).window r.n) 16 8 ≠ (s.part r.part).pkg then gone s
  else
    match s.redWrite r with
    | (s, .done) => gone s
    | (s, .held idx) => { s with redparts := s.redparts.map (fun q => if q == r then { q with held := some idx } else q) }
    | (s, .again) => s

/-- REDUCTION_DELIVER (R397): contributions of other packages arrive with `x.count` above 0; the N-th is in, or the window is cleared
and every partial combination, theirs too, comes as it stands. -/
def execReductionDeliver (part n : Nat) (x : RedIn) (s : State) : Host.Outcome State Fault Refusal :=
  let r? := s.redparts.find? (fun r => r.part == part && r.n == n && r.addr == x.elem.toNat && r.op == x.op && r.dbl == x.dbl
    && r.held.isNone)
  let open' := bit ((s.part part).rwin.get 0 n) 63
  match r? with
  | none =>
    if x.count == 0 || decide (s.redN part n < x.count) || (open' && x.count != s.redN part n) then .next s
    else
      let r : RedPart := ⟨part, n, x.elem.toNat, x.op, x.dbl, x.val, x.count, none⟩
      .next (State.deliver { s with redparts := s.redparts ++ [r] } r)
  | some r =>
    if decide (s.redN part n < r.count + x.count) || (open' && r.count + x.count != s.redN part n) then .next s
    else if x.count == 0 then .next (s.deliver r)
    else
      let r' : RedPart := { r with val := (x.op.apply x.dbl r.val x.val 0).getD r.val, count := r.count + x.count }
      .next (State.deliver { s with redparts := s.redparts.map (fun q => if q == r then r' else q) } r')

/-- V of a window is cleared: every partial combination is delivered as it stands, by the N and to the home that the window had
(R397). -/
def State.clearRwin (s : State) (part n : Nat) : State :=
  let s := s.updPart part (fun p => { p with rwas := p.rwas.put n (p.window n), rwin := p.rwin.upd n (fun v => setBits v 63 1 0) })
  (s.redparts.filter (fun r => r.part == part && r.n == n)).foldl (fun s r => s.deliver r) s

/-- A fault record is resolved: the deliveries it holds are made again, or are lost with the code (R337, R339). -/
def State.resolveRed (s : State) (part : Nat) (rids : List Nat) (code : Option (BitVec 8)) : State :=
  let mine (r : RedPart) : Bool := r.part == part && heldIn rids r.held
  let l := s.redparts.filter mine
  if code.isSome then { s with redparts := s.redparts.filter (fun r => !mine r) }
  else
    let s := { s with redparts := s.redparts.map (fun r => if mine r then { r with held := none } else r) }
    l.foldl (fun s r => s.deliver { r with held := none }) s

/-- RWIN_CLEAR (R397). -/
def execRwinClear (part n : Nat) (s : State) : Host.Outcome State Fault Refusal := .next (if 4 ≤ n then s else s.clearRwin part n)

end Sys2Proof.Machine
end

