-- ==== Sys2Proof/Machine/Park.lean ====
section
/-!
DEFINITION. Resolving fault records, and the park window: resuming parked lanes, the thread view, service replies (11 R265, R267, 14
R337, R339, 16 R364 to R368, R373).
-/

namespace Sys2Proof.Machine

/-! ### The fault buffer's registers (R267, R339) -/

/-- FBPTR_HEAD_WRITE (R267): records that waited for room are written. -/
def execFbptrHeadWrite (part : Nat) (head : BitVec 32) (s : State) : Host.Outcome State Fault Refusal :=
  let s := s.updPart part (fun p => { p with head := head })
  .next (s.drainRecs part ((s.part part).frecs.length + 1))

/-- A held access of a thread takes a failure code (R151, R190, R218, R337). -/
def State.failOp (s : State) (o : Op) (code : BitVec 8) : State :=
  match o.kind with
  | .copy rows _ _ _ _ dscr _ _ _ _ => s.failCopy o dscr rows (some (code, o.hva))
  | .frag store cd r stride sp => s.endFrag o store cd r stride sp (some (code, o.hva.toNat))
  | _ => s.deferOp o code o.va

/-- A command given through the mailbox ends with a status (R390). -/
def State.mbStatus (s : State) (ld : Nat) (sts : BitVec 16) : State :=
  s.updLd ld (fun d => { d with sts := sts, go := false, mbHeld := none })

/-- A parked thread whose fault one of some reports stands for takes a failure code, and stays parked (R337). -/
def Thread.failed (t : Thread) (code : BitVec 8) : Thread := { t with park := t.park.map (fun p => { p with code := code, frec := none }) }

/-- The thread parked under one of some reports. -/
def Thread.parkedUnder (t : Thread) (rids : List Nat) : Bool := match t.park with
  | none => false
  | some p => heldIn rids p.frec

/-- Records that hold one of some slots take a failure code. -/
def ParkRec.failed (r : ParkRec) (l : List Nat) (code : BitVec 8) : ParkRec :=
  if r.mask.any (fun k => l.contains k) then { r with code := code } else r

/-- The same in a saved team. -/
def TeamImg.failed (m : TeamImg) (rids : List Nat) (code : BitVec 8) : TeamImg :=
  let l := ((m.team.slots.zip m.threads).filter (fun e => e.2.parkedUnder rids)).map (·.1)
  { m with
    threads := m.threads.map (fun t => if t.parkedUnder rids then t.failed code else t)
    recs := m.recs.map (fun r => r.failed l code) }

/-- Lanes that parked under a record take its failure code and stay parked, those of saved teams too (R337). -/
def State.failParked (s : State) (part : Nat) (rids : List Nat) (code : BitVec 8) : State :=
  let l := (s.threads.filter (fun e => s.partOf e.1 == part && e.2.parkedUnder rids)).map (·.1)
  let s := l.foldl (fun s k => s.updThread k (fun t => t.failed code)) s
  let s := (distinct (l.map coreOf)).foldl (fun s c => s.updCore c (fun x =>
    { x with recs := x.recs.map (fun (e : Nat × ParkRec) => (e.1, e.2.failed l code)) })) s
  s.updPart part (fun p => { p with
    teamImgs := p.teamImgs.map (fun m => m.failed rids code)
    images := p.images.map (fun c => { c with teams := c.teams.map (fun m => m.failed rids code) }) })

/-- An operation is released from its record; later accesses of its lane to the lines of a held write go on waiting, until the
replayed write is performed (R190). -/
def State.release (s : State) (o : Op) : State := s.updOp o.id (fun p => { p with held := none })

/-- Automata saved in context images are resolved there (R294, R295). -/
def State.resolveSaved (s : State) (part : Nat) (rids : List Nat) (code : Option (BitVec 8)) : State :=
  s.updPart part (fun p => { p with images := p.images.map (fun (c : CtxImg) => { c with
    autos := c.autos.map (fun e => if heldIn rids (e.2.1.held.bind (·.heldBy)) then (e.1, e.2.1.resolved code, e.2.2) else e) }) })

/-- The save or restore of a context that waits for a record goes on; with a code, the automaton that it was for stops (R294, R295). -/
def State.resolveSwap (s : State) (part : Nat) (rids : List Nat) (code : Option (BitVec 8)) : State :=
  match (s.part part).swapHeld with
  | none => s
  | some (idx, a) =>
    if !rids.contains idx then s
    else
      let s := s.updPart part (fun p => { p with swapHeld := none })
      if code.isNone then s
      else if (s.slot a).saved then s.updPart part (fun p => { p with images := p.images.map (fun (c : CtxImg) => { c with
        autos := c.autos.map (fun e => if e.1 == a then (e.1, e.2.1.resolved code, e.2.2) else e) }) })
      else State.resolveSlot { s with queues := s.queues.map (fun (e : Nat × Queue) =>
        (e.1, { e.2 with stalled := e.2.stalled.filter (fun x => x != .inr a) })) } a code

/-- A team's rollback that waits for a record goes on; with a code, its interval is no longer recoverable (R383; log 70). -/
def State.resolveTeams (s : State) (rids : List Nat) (code : Option (BitVec 8)) : State :=
  { s with teams := s.teams.map (fun (e : Nat × Team) =>
      (e.1, if heldIn rids e.2.rbHeld then { e.2 with rbHeld := none, recov := e.2.recov && code.isNone } else e.2)) }

/-- A record that is pending and replayable is resolved, with the reports merged into it; none when it is not (R338, R339). -/
def State.resolveRec (s : State) (part idx : Nat) (code : Option (BitVec 8)) : Option State :=
  match (s.part part).frecs.find? (fun r => r.idx == idx && r.pending && r.rep && r.written) with
  | none => none
  | some r =>
    let rids := r.rids
    let s := s.updPart part (fun p => { p with frecs := p.frecs.filter (fun q => q.rids != rids) })
    let s := (s.ops.filter (fun (o : Op) => o.part == part && heldIn rids o.held)).foldl (fun s (o : Op) =>
      match code with
      | none => s.release o
      | some c => (s.release o).failOp { o with held := none } c) s
    let s := ((s.queues.filter (fun e => e.2.part.toNat == part && e.2.held && heldIn rids e.2.heldBy)).map (·.1)).foldl
      (fun s j => s.resolveQueue j code) s
    let s := ((s.slots.filter (fun e => e.2.part.toNat == part && heldIn rids (e.2.held.bind (·.heldBy)))).map (·.1)).foldl
      (fun s a => s.resolveSlot a code) s
    let s := (((s.resolveSaved part rids code).resolveCan part rids code).resolveRed part rids code).resolveSwap part rids code
    let s := s.resolveTeams rids code
    let s := if heldIn rids (s.part part).slHeld then
        match code with
        | none => s.slAgain part
        | some c => s.slEnd part (.code c)
      else s
    let s := ((s.lds.filter (fun e => match e.2.mbHeld with
      | none => false
      | some x => x.1 == part && rids.contains x.2)).map (·.1)).foldl (fun s v => match code with
      | none => s.updLd v (fun d => { d with mbHeld := none })
      | some c => s.mbStatus v (c.setWidth 16)) s
    let s := match code with
      | none => s
      | some c => s.failParked part rids c
    some (s.drainRecs part (s.part part).frecs.length)

/-- FBDONE holds what was written to it (R339). -/
def State.wroteFbdone (s : State) (part act : Nat) (code : BitVec 8) (idx : BitVec 32) : State :=
  s.updPart part (fun p => { p with fbdone := BitVec.ofNat 64 (act * 2 ^ 62 + code.toNat * 2 ^ 48 + idx.toNat) })

/-- FBDONE_REPLAY (R339). -/
def execFbdoneReplay (part : Nat) (idx : BitVec 32) (s : State) : Host.Outcome State Fault Refusal :=
  let s := s.wroteFbdone part 0 0 idx
  .next ((s.resolveRec part idx.toNat none).getD s)

/-- FBDONE_FAIL (R339): with code 0 nothing but the register changes. -/
def execFbdoneFail (part : Nat) (idx : BitVec 32) (code : BitVec 8) (s : State) : Host.Outcome State Fault Refusal :=
  let s := s.wroteFbdone part 1 code idx
  .next (if code = 0 then s else (s.resolveRec part idx.toNat (some code)).getD s)

/-! ### Resuming a lane (R368) -/

/-- The place of an access performed again: a scratchpad or reduction window as its address names it, else translated afresh. -/
def Op.placeAgain (o : Op) : Place :=
  match o.place with
  | .scr _ _ win =>
    let (core, off) := scrTarget (coreOf o.slot) o.va.toNat
    .scr core off win
  | .rwin p n off => .rwin p n off
  | _ => .later

/-- An operation's kind as it was at its issue: an index list in the window is read again when the copy starts again (R218). -/
def OpKind.again : OpKind → OpKind
  | .copy rows idx total sb db dscr ssp tag bar _ => .copy (if idx.isSome then [] else rows) idx total sb db dscr ssp tag bar false
  | k => k

/-- The pieces of an operation performed again. -/
def Op.todoAgain (o : Op) : List (Nat × Nat) :=
  match o.kind with
  | .copy rows _ _ _ _ _ _ _ _ _ => (List.range ((rows.map (fun r => r.2.2)).sum / 16)).map (fun i => (16 * i, 16))
  | .frag .. => (List.range (o.n / 16)).map (fun i => (16 * i, 16))
  | _ => pieces o.va.toNat o.n

/-- A deferred access as it is performed again, with its recorded operands and in its place among the lanes of its issue. -/
def Op.afresh (o : Op) (since : Nat) : Op :=
  { o with
    kind := o.kind.again, place := o.placeAgain, l1 := none, held := none, since := since, arb := 0, todo := o.todoAgain
    failed := none, sent := false, viaCxl := false, again := false, shown := false, bypass := false, stood := false, heated := [], got := 0 }

/-- The fault that an access performed again meets in the checks of R196 that its operands leave open: those of its page. -/
def State.againFault (s : State) (o : Op) : Option (BitVec 8) :=
  if o.place ≠ .later ∨ !o.kind.inPo then none
  else
    match (s.translate (.lane o.slot) o.part o.va.toNat o.need (!o.kind.wholeLine)).2 with
    | .fault c => some c
    | .ask _ => none
    | .tier10 => none
    | x =>
      if 2 ^ x.pageLog < o.va.toNat % 2 ^ x.pageLog + o.n then some 0x10
      else match x with
        | .host _ _ => if (s.hostRoute o.part o.kind).isNone then some 0x15 else none
        | _ => none

/-- A deferred access is performed again. Where its page faults it as at an issue, the lane parks anew with the same access deferred
(R196, R337, R368; log 68); else it issues, or waits for room. -/
def State.reissue (s : State) (d : Defer) : State :=
  let o := d.op.afresh (s.cycleOf (coreOf d.op.slot))
  match s.againFault o with
  | none => (s.updThread o.slot (fun t => { t with hold := .replay o })).tryReplay o.slot
  | some c =>
    let d' : Defer := { d with code := c, op := o }
    let s := s.updThread o.slot (fun t => { t with fmark := t.fmark ++ d.marks, defers := t.defers ++ [d'] })
    match s.thread? o.slot with
    | none => s
    | some t => s.fault (coreOf o.slot) (boughOf o.slot) [⟨o.slot, c, t.pc, d.pc, o.va, 0, o.need == .write, false, some d'⟩]

/-- The word that stands at a thread's PC. -/
def State.wordAtPc (s : State) (slot : Nat) (t : Thread) : Option (DWord × Instr) :=
  match (s.fetchBytes slot t.team t.pc).2 with
  | .error _ => none
  | .ok w => match decodeWord (s.regsOf slot) w with
    | .error _ => none
    | .ok i => some (w, i)

def collectiveWord : Instr → Bool
  | .tcall _ | .tcalls _ | .tbar _ | .tvote _ | .txch _ | .tmigr _ => true
  | _ => false

def quarterWord : Instr → Option MatOp
  | .mma x => some (.mma x)
  | .mmas x => some (.mmas x)
  | .mtrn x => some (.mtrn x)
  | _ => none

/-- A lane moves past the word at its PC: past a collective or a quarter word it arrives without contributing, unless what is
open is at another word or PC (R166, R138). -/
def State.skipWord (s : State) (slot : Nat) : State :=
  match s.thread? slot with
  | none => s
  | some t =>
    let past (s : State) : State := s.updThread slot Thread.next
    match s.wordAtPc slot t with
    | none => past s
    | some (w, i) =>
      let l : Lane := ⟨s, slot, t, s.fresh⟩
      if collectiveWord i then
        if l.collClash w then past s
        else ((s.updThread slot (fun t => { t with hold := .coll })).joinColl w t.pc ⟨slot, false, 0, 0, false⟩).settleTeam t.team
      else
        match quarterWord i with
        | none => past s
        | some op => if l.entryClash w then past s else (past (s.arriveMat slot false w t.pc op)).closeFull t.team

/-- Operations leave the machine, and the queues where they were stalled. -/
def State.withdraw (s : State) (l : List Op) : State :=
  let ids := l.map (·.id)
  { s with
    ops := s.ops.filter (fun (o : Op) => !ids.contains o.id)
    queues := s.queues.map (fun (e : Nat × Queue) => (e.1, { e.2 with stalled := e.2.stalled.filter (fun x => match x with
      | .inl i => !ids.contains i
      | .inr _ => true) })) }

/-- The stalled EMITs of a killed lane are withdrawn, and never appended (R270). -/
def State.withdrawEmits (s : State) (slot : Nat) : State :=
  let l := s.ops.filter (fun (o : Op) => o.slot == slot && o.stalledEmit)
  if l.isEmpty then s else l.foldl (fun s o => s.finishOp o) (s.withdraw l)

/-- One slot leaves its park record by replay, skip or kill. A replay takes the fault marks of the access it performs again, a skip
all of the lane's (R368). -/
def State.resume (s : State) (act : Nat) (slot : Nat) : State :=
  match s.thread? slot with
  | none => s
  | some t => match t.park with
    | none => s
    | some p =>
      if act = 2 then ((s.withdrawEmits slot).updThread slot (fun t => { t with st := .exited, park := none })).departed [slot]
      else
        let s := s.updThread slot (fun t => { t with st := .ready, park := none })
        if act = 0 then
          match p.defer with
          | none => s
          | some d => (s.updThread slot (fun t => { t with fmark := dropMarks d.marks t.fmark })).reissue d
        else
          let s := s.updThread slot (fun t => { t with fmark := [], landing := none })
          match p.defer with
          | none => s.skipWord slot
          | some _ => s

/-- The slots a write of PKCMD acts on, in ascending order: those of PKCMDM that the record still holds. -/
def State.commanded (s : State) (core n : Nat) : List Nat :=
  let c := s.core core
  match c.recs.find? n with
  | none => []
  | some r => sortBy (fun k => k) (r.mask.filter (fun k => c.pkcmdm.getLsbD (slotNo k)))

/-- Slots leave a park record; an empty record frees its permit. -/
def State.leaveRec (s : State) (core n : Nat) (l : List Nat) : State :=
  s.updCore core (fun c => match c.recs.find? n with
    | none => c
    | some r =>
      let mask := r.mask.filter (fun k => !l.contains k)
      { c with recs := if mask.isEmpty then c.recs.erase n else c.recs.put n { r with mask := mask } })

/-- PKCMD with ACT 00, 01 or 10. -/
def State.pkcmd (s : State) (core : Nat) (n : Fin 4) (act : Nat) : State :=
  let l := s.commanded core n.val
  l.foldl (fun s k => (s.leaveRec core n.val [k]).resume act k) s

/-- PKCMD_REPLAY (R368). -/
def execPkcmdReplay (core : Nat) (n : Fin 4) (s : State) : Host.Outcome State Fault Refusal := .next (s.pkcmd core n 0)

/-- PKCMD_SKIP (R368). -/
def execPkcmdSkip (core : Nat) (n : Fin 4) (s : State) : Host.Outcome State Fault Refusal := .next (s.pkcmd core n 1)

/-- PKCMD_KILL (R368). -/
def execPkcmdKill (core : Nat) (n : Fin 4) (s : State) : Host.Outcome State Fault Refusal := .next (s.pkcmd core n 2)

/-- PKCMD_DETACH (R368): only from a record of code 0x63. -/
def execPkcmdDetach (core : Nat) (n : Fin 4) (s : State) : Host.Outcome State Fault Refusal :=
  match (s.core core).recs.find? n.val with
  | none => .next s
  | some r =>
    if r.code ≠ 0x63 then .next s
    else
      let l := s.commanded core n.val
      .next (l.foldl (fun s k => s.updThread k (fun t => { t with park := t.park.map (fun p => { p with svc := true }) }))
        (s.leaveRec core n.val l))

/-- PKIP_CLEAR (R365). -/
def execPkipClear (core : Nat) (v : DWord) (s : State) : Host.Outcome State Fault Refusal :=
  .next (s.updCore core (fun c => { c with pkip := c.pkip &&& ~~~(v.setWidth 2) }))

/-! ### The thread view (R367) -/

/-- Bits 54 to 3 of a PC that a companion core writes. -/
def viewPc (v : DWord) : DWord := BitVec.ofNat 64 (v.toNat % 2 ^ 55 / 8 * 8)

/-- A thread after a write of its view. -/
def Thread.viewed (t : Thread) (regs off : Nat) (v : DWord) (wide : Bool) : Thread :=
  let g (t : Thread) (i : Nat) (x : Word) : Thread := if i < regs then t.setG i x else t
  if off < 0x1000 then t
  else if off < 0x1400 then
    let i := (off - 0x1000) / 4
    if wide then (if off % 8 = 0 then g (g t i (v.setWidth 32)) (i + 1) ((v >>> 32).setWidth 32) else t)
    else if off % 4 = 0 then g t i (v.setWidth 32) else t
  else if !wide || off % 8 != 0 then t
  else if off < 0x1440 then t.setO ((off - 0x1400) / 8) v
  else if off = 0x1440 then t.setLat v
  else if off = 0x1448 then { t with preds := v.setWidth 12 }
  else if off = 0x1450 then { t with lk := v }
  else if off = 0x1458 then t.setPc (viewPc v)
  else if off = 0x1460 then { t with step := bit v 3 }
  else if off = 0x1468 then { t with fflags := v.setWidth 5 }
  else if off = 0x1478 then { t with landing := if bit v 8 then some (v.setWidth 8) else none }
  else t

/-- THREAD_VIEW_WRITE (R367): the slot PKSEL names, when it is parked. -/
def execThreadViewWrite (core off : Nat) (v : DWord) (wide : Bool) (s : State) : Host.Outcome State Fault Refusal :=
  let k := core * slotsPerCore + (s.core core).pksel.toNat
  match s.thread? k with
  | none => .next s
  | some t => if t.st != .parked then .next s else .next (s.setThread k (t.viewed (s.regsOf k) off v wide))

/-! ### Service replies (R373) -/

/-- A lane whose reply has come: ready past its SERV. -/
def Thread.served (t : Thread) : Thread := { t.next with st := .ready, park := none }

/-- The thread waits for a service reply under this sr.plane. -/
def Thread.pendingAt (t : Thread) (plane : Nat) : Bool := t.plane == plane && t.st == .parked && (match t.park with
  | none => false
  | some p => p.svc)

/-- The scratchpad offset of a parked SERV's block. -/
def Thread.block (t : Thread) : Nat := match t.park with
  | none => 0
  | some p => (scrTarget 0 p.va.toNat).2

/-- A saved team's record after a reply; none when no such lane is service-pending. -/
def TeamImg.reply (m : TeamImg) (plane : Nat) (data : List Byte) : Option TeamImg :=
  match m.threads.find? (fun t => t.pendingAt plane) with
  | none => none
  | some t => some { m with
      region := splice m.region (t.block - m.team.argp + 64) data
      threads := m.threads.map (fun u => if u.pendingAt plane then u.served else u) }

/-- Saved teams of one grid and index after a reply. -/
def replyIn (grid index plane : Nat) (data : List Byte) : List TeamImg → Option (List TeamImg)
  | [] => none
  | m :: l => match if m.team.grid == grid && m.team.index == index then m.reply plane data else none with
    | some m' => some (m' :: l)
    | none => (replyIn grid index plane data l).map (m :: ·)

/-- The same in the image of a context. -/
def replyImages (ctx : BitVec 16) (grid index plane : Nat) (data : List Byte) : List CtxImg → Option (List CtxImg)
  | [] => none
  | c :: l => match if c.ctx == ctx then replyIn grid index plane data c.teams else none with
    | some ts => some ({ c with teams := ts } :: l)
    | none => (replyImages ctx grid index plane data l).map (c :: ·)

/-- SVREPLY_DELIVER (R373): to a resident team, to a saved one, or discarded. -/
def execSvreplyDeliver (part : Nat) (v : DWord) (s : State) : Host.Outcome State Fault Refusal :=
  let p := s.part part
  let ctx : BitVec 16 := (v >>> 48).setWidth 16
  let grid := gridKey part ((v >>> 16).setWidth 32)
  let plane := bits v 0 9
  let index := bits p.svteam 0 32
  let data := (p.svdata ++ List.replicate 64 0).take 64
  let done (s : State) (r : BitVec 2) : State := s.updPart part (fun p => { p with svreply := keep v [(16, 48), (0, 9)], svst := r })
  let inCtx := match s.grid? grid with
    | none => false
    | some g => g.ctx == ctx
  let here : Option (Nat × Thread) := if !inCtx then none else List.find? (fun (e : Nat × Thread) => e.2.pendingAt plane && (match s.team? e.2.team with
    | none => false
    | some m => m.grid == grid && m.index == index)) s.threads
  match here with
  | some (k, t) =>
    let s := s.scrWrite (coreOf k) (t.block + 64) data
    .next (done (s.updThread k Thread.served) 1)
  | none =>
    match if inCtx then replyIn grid index plane data p.teamImgs else none with
    | some l => .next (done (s.updPart part (fun p => { p with teamImgs := l })) 1)
    | none => match replyImages ctx grid index plane data p.images with
      | some l => .next (done (s.updPart part (fun p => { p with images := l })) 1)
      | none => .next (done s 2)

end Sys2Proof.Machine
end

