-- ==== Sys2Proof/Machine/Xlat.lean ====
section
/-!
DEFINITION. Invalidation of translations, the host's translations and page requests, page heat, instruction fetch as an event, and
writes of device memory by companion cores (07 R155, 14 R332 to R336, R340 to R343).
-/

namespace Sys2Proof.Machine

/-! ### TLBI (R332) -/

/-- The range a TLBI covers: first address and size. -/
def tlbiRange (v : DWord) : Nat × Nat :=
  let log := bits v 57 6
  if bit v 63 || decide (43 < log) then (0, 2 ^ 55) else (bits v 0 43 / 2 ^ log * 2 ^ (12 + log), 2 ^ (12 + log))

/-- The translation caches lose the entries of a range. -/
def State.dropTlb (s : State) (part : Nat) (r : Nat × Nat) : State :=
  { s with tlb := s.tlb.filter (fun t => !(t.part == part && meet t.base (2 ^ t.log) r.1 r.2)) }

/-- TLBI_START (R332): a write while BUSY waits until BUSY clears. -/
def execTlbiStart (part : Nat) (v : DWord) (s : State) : Host.Outcome State Fault Refusal :=
  let v := keep v [(57, 7), (0, 43)]
  .next (s.updPart part (fun p => if p.tlbBusy then { p with tlbQ := p.tlbQ ++ [v] } else { p with tlbi := v, tlbBusy := true }))

/-- An operation is not performed before another: one of its lane that holds it up, a store that its release follows because the lane
read it early, or a store seen in its domain before it (R183, R232, R236). -/
def State.waitsFor (s : State) (o p : Op) : Bool :=
  holdsUp false (s.nearRel o) o p
    || (o.rel.isSome && !s.nearRel o && !outOfScope o.rel o o && (match s.thread? o.slot with
      | none => false
      | some t => t.early.any (fun e => decide (e.1 < o.id) && e.2 == p.id)))
    || (o.need == .write && seenBefore o p && (s.storesOf (s.domain (coreOf o.slot))).any (fun q => q.id == p.id))

/-- The operations of a list, and those that wait for one of them, and so on; `n` bounds the rounds. -/
def State.waitingOn (s : State) : Nat → List Op → List Op
  | 0, l => l
  | n + 1, l => match s.ops.filter (fun o => !l.any (fun p => p.id == o.id) && l.any (s.waitsFor o)) with
    | [] => l
    | m => waitingOn s n (l ++ m)

/-- The operations that cannot be performed before FBDONE: those held in the fault buffer, and those that wait for one of these
(R190, R332). -/
def State.stuckOps (s : State) : List Op := s.waitingOn s.ops.length (s.ops.filter (fun o => o.held.isSome))

/-- An outstanding access of a partition holds a translation in a range. -/
def Op.usesRange (o : Op) (part : Nat) (r : Nat × Nat) : Bool :=
  o.part == part && !o.again && meet o.va.toNat (max 1 o.n) r.1 r.2 && (match o.place with
    | .dev .. | .host .. => true
    | _ => false)

/-- An access of a partition that is to be performed before a TLBI over a range completes (R332). -/
def State.usesRange (s : State) (part : Nat) (r : Nat × Nat) : Bool :=
  let stuck := s.stuckOps
  s.ops.any (fun o => o.usesRange part r && !stuck.any (fun p => p.id == o.id))

/-- TLBI_COMPLETE (R332): every access that used an entry of the range has been performed, those that wait for FBDONE hold no
translation any more, the caches hold none, and BUSY clears; the next write that waited starts. -/
def execTlbiComplete (part : Nat) (s : State) : Host.Outcome State Fault Refusal :=
  let p := s.part part
  let r := tlbiRange p.tlbi
  if !p.tlbBusy || s.usesRange part r then .next s
  else
    let s := { s with ops := s.ops.map (fun (o : Op) => if o.usesRange part r then { o with again := true } else o) }
    let s := (s.dropTlb part r).updPart part (fun p => match p.tlbQ with
      | [] => { p with tlbBusy := false }
      | v :: l => { p with tlbi := v, tlbQ := l })
    .next (s.drainRecs part (s.part part).frecs.length)

/-! ### The host's translations (R335) -/

/-- Threads that wait for a translation go on. -/
def State.wakeXlate (s : State) (ld pasid vpn : Nat) : State :=
  { s with threads := s.threads.map (fun (e : Nat × Thread) =>
      let part := s.partOf e.1
      (e.1, if e.2.hold == .xlate vpn && s.ldOf part == ld && bits (s.part part).trc 43 20 == pasid then { e.2 with hold := .none } else e.2)) }

/-- TRANSLATION_COMPLETION (R335). A grant of a readable page that denies no access that waited for it enters the ATC. One that denies
an access leaves no entry (R418): a reader that waited takes the translation that it gives, and an access that is not admitted takes
0x11, or 0x16 where the host refuses to answer. A completion whose page an Invalidate Request has covered meanwhile is discarded, and
who waited asks again. -/
def execTranslationCompletion (ld pasid vpn : Nat) (ans : XAns) (s : State) : Host.Outcome State Fault Refusal :=
  match s.xreqs.find? (fun x => x.ld == ld && x.pasid == pasid && x.vpn == vpn) with
  | none => .next s
  | some x =>
    let s := { s with xreqs := s.xreqs.filter (fun y => y != x) }
    let give (s : State) (l : List (Asker × Bool)) (x : Denial) : State := l.foldl (fun s w => s.giveAnswer w.1 x) s
    let others := s.atc.filter (fun (b : Atc) => !(b.ld == ld && b.pasid == pasid && b.vpn == vpn))
    let s := match x.stale, ans with
      | true, _ => s
      | false, .refused => give { s with atc := others } x.waiters ⟨vpn, true, none⟩
      | false, .granted frame r w =>
        if !r then give { s with atc := others } x.waiters ⟨vpn, false, none⟩
        else if w || x.waiters.all (fun q => !q.2) then { s with atc := others ++ [(⟨ld, pasid, vpn, frame, w⟩ : Atc)] }
        else
          let s := give { s with atc := others } (x.waiters.filter (fun q => !q.2)) ⟨vpn, false, some frame⟩
          give s (x.waiters.filter (·.2)) ⟨vpn, false, none⟩
    .next (s.wakeXlate ld pasid vpn)

/-- The accesses whose translation came from one of some ATC entries: that of their PASID and page. -/
def State.usersOf (s : State) (l : List Atc) : List Nat :=
  (s.ops.filter (fun (o : Op) => match o.place with
    | .host ld addr => l.any (fun a => a.ld == ld && a.pasid == bits (s.part o.part).trc 43 20 && a.vpn == o.va.toNat / 4096
        && a.frame == addr / 4096)
    | _ => false)).map (·.id)

/-- INVALIDATE_REQUEST (R335): the covered entries go at once, and outstanding requests for covered pages become stale. -/
def execInvalidateRequest (ld pasid vpn log : Nat) (s : State) : Host.Outcome State Fault Refusal :=
  let covers (p v : Nat) : Bool := p == pasid && v / 2 ^ log == vpn / 2 ^ log
  let gone := s.atc.filter (fun a => a.ld == ld && covers a.pasid a.vpn)
  let users := s.usersOf gone
  .next (State.updLd { s with
    atc := s.atc.filter (fun a => !(a.ld == ld && covers a.pasid a.vpn))
    xreqs := s.xreqs.map (fun x => if x.ld == ld && covers x.pasid x.vpn then { x with stale := true } else x) } ld
    (fun d => { d with invs := d.invs ++ [users] }))

/-- INVALIDATION_COMPLETION (R335): sent once no access that used an entry it removed is outstanding, whatever other requests
still wait for. -/
def execInvalidationCompletion (ld : Nat) (s : State) : Host.Outcome State Fault Refusal :=
  let done (l : List Nat) : Bool := !s.ops.any (fun (o : Op) => l.contains o.id && o.place != .later)
  match (s.ld ld).invs.findIdx? done with
  | none => .next s
  | some i => .next (s.updLd ld (fun d => { d with invs := d.invs.eraseIdx i }))

/-! ### Page requests (R336) -/

/-- The Page Request Group a PRIREQ word names. -/
def priGroup (v : DWord) : Nat := bits v 43 9

/-- A Page Request Group is beyond what the host of the partition's logical device has allocated (R334, R336; log 69). -/
def State.priBeyond (s : State) (part g : Nat) : Bool := decide ((s.ld (s.ldOf part)).priAlloc ≤ g)

/-- PRIREQ_SEND (R336): the group is selected; a request goes out unless one is pending, or the host has not allocated the group. -/
def execPriReqSend (part : Nat) (v : DWord) (s : State) : Host.Outcome State Fault Refusal :=
  let g := priGroup v
  let v := keep v [(62, 2), (0, 52)]
  .next (s.updPart part (fun p => if p.priPend.contains g || s.priBeyond part g then { p with prireq := v }
    else { p with prireq := v, priPend := p.priPend ++ [g], priAns := p.priAns.erase g }))

/-- PRIREQ_SELECT (R336). -/
def execPriReqSelect (part : Nat) (v : DWord) (s : State) : Host.Outcome State Fault Refusal :=
  .next (s.updPart part (fun p => { p with prireq := keep v [(62, 2), (0, 52)] }))

def priCode : PriAns → BitVec 2
  | .success => 1
  | .invalid => 2
  | .failure => 3

/-- PRG_RESPONSE (R336). -/
def execPrgResponse (part prg : Nat) (ans : PriAns) (s : State) : Host.Outcome State Fault Refusal :=
  if !(s.part part).priPend.contains prg then .next s
  else .next (s.updPart part (fun p => { p with priPend := p.priPend.filter (fun g => g != prg), priAns := p.priAns.put prg (priCode ans) }))

/-- PRIRSP.ST (R336). -/
def State.prirsp (s : State) (part : Nat) : BitVec 2 :=
  let p := s.part part
  let g := priGroup p.prireq
  if s.priBeyond part g then 3 else if p.priPend.contains g then 0 else (p.priAns.find? g).getD 3

/-! ### Page heat (R341 to R343) -/

/-- HEAT_SWEEP (R342): a table line is brought up to the present epoch, where there is a table: while counting is on, and after. -/
def execHeatSweep (part line : Nat) (s : State) : Host.Outcome State Fault Refusal :=
  let p := s.part part
  .next (if (p.heatOn || p.heatBase != 0) && decide (line < 0x30000) then s.heatSettle part (128 * line) else s)

/-- HTC_WRITE (R341): every slice of the partition loads its counter with P. A change of HLOG while HON is 1 leaves every heat value
unpredictable, the stored bytes too, and each hit, halving and HRDV read gives a free value again until the register is next written
with HON at 0: R342 does not say how long that lasts (log 38: DESIGN CHOICE). -/
def State.writeHtc (s : State) (part : Nat) (v : DWord) : State :=
  let loses := (s.part part).heatOn && bits (s.part part).htc 0 4 != bits v 0 4
  let s := s.updPart part (fun p => { p with
    htc := keep v [(63, 1), (25, 27), (12, 4), (0, 4)], heatLost := p.heatOn && (p.heatLost || bits p.htc 0 4 != bits v 0 4) })
  let s := if loses then s.loseHeat part else s
  let p := s.part part
  (setBitsOf p.slices 64).foldl (fun s sl => { s with heat := s.heat.put sl p.heatP }) s

def execHtcWrite (part : Nat) (v : DWord) (s : State) : Host.Outcome State Fault Refusal := .next (s.writeHtc part v)

/-- HRDV_READ (R343): the frame of HRDA, after the halvings it owes. -/
def execHrdvRead (part : Nat) (s : State) : Host.Outcome State Fault Refusal :=
  let f := bits (s.part part).hrda 0 25
  let s := s.heatSettle part f
  .next ((s.updPart part (fun p => { p with hrdv := BitVec.ofNat 64 (s.heatByte part f) })).heatTaken part)

/-! ### Instruction fetch (R155) -/

/-- INSTRUCTION_FETCH (R155): the word of a thread arrives, or the lanes of its bough at that PC park there or wait for the
host's translation. -/
def execInstructionFetch (slot : Nat) (s : State) : Host.Outcome State Fault Refusal :=
  match s.openCands.find? (fun c => c.slot == slot) with
  | none => .next s
  | some c =>
    let set := (s.openCands.filter (together c)).map (·.slot)
    let s' := { (s.fetch slot c.t).1 with cur := ⟨coreOf slot, c.bough, set, c.t.pc⟩ }
    match c.word with
    | .fault code => .next (s'.fetchFault code)
    | .ask vpn => .next (s'.fetchAsk vpn)
    | _ => .next { s' with cur := s.cur }

/-! ### Writes by companion cores (R333) -/

/-- The valid partition whose slices hold a physical address. -/
def State.ownerOf (s : State) (pa : Nat) : Option Nat := firstBelow partitions (fun p => (s.part p).v && s.owns p pa)

/-- A write by physical address, performed at the L2 slices under a key id of the accessing partition (R182); in HBM that is not its
own, of the partition whose slices hold it. -/
def State.physWrite (s : State) (part pa key : Nat) (data : List Byte) : State :=
  (pieces pa data.length).foldl (fun s x =>
    let a := pa + x.1
    let bs := (data.drop x.1).take x.2
    if !(inHbm a || inCxl a) then s
    else
      match if s.owns part a then some part else s.ownerOf a with
      | some p => (s.devWrite { Acc.plain p a with key := key } bs).1
      | none => { s with mem := Memory.writeN s.mem a bs }) s

/-- COMPANION_CORE_WRITE (R333): by a companion core of a partition. Off, no memory is powered (R400). -/
def execCompanionCoreWrite (dst : CoreAddr) (key : Fin 16) (data : List Byte) (s : State) : Host.Outcome State Fault Refusal :=
  if s.dev.state = 3 then .next s
  else .next ((s.physWrite dst.part dst.pa key.val data).drainRecs dst.part (s.part dst.part).frecs.length)

end Sys2Proof.Machine
end

