-- ==== Sys2Proof/Machine/ContextImage.lean ====
section
/-!
DEFINITION. The bytes of a context image (16 R378).
-/

namespace Sys2Proof.Machine

/-! ### Grids and automata -/

/-- A grid record. -/
def Grid.bytes (g : Grid) : List Byte :=
  g.lrec.take 128 ++ layout 128 [
    (0x00, fields 4 [g.gid.toNat, g.depth]),
    (0x08, leBytes 8 g.remaining),
    (0x10, fields 4 [g.children, match g.parent with
      | none => 0xFFFFFFFF
      | some k => k % 2 ^ 32]),
    (0x18, fields 8 [g.next, g.age]),
    (0x28, leBytes 4 g.handle.toNat)]

/-- What an item is, for its 128 bytes: the model's own order of its parts (log 44). -/
def Item.bytes : Item → List Byte
  | .event t j n r => fields 8 [1, t, j, n] ++ recToBytes r
  | .timer d c i => fields 8 [2, d, c, i]
  | .move c => fields 8 [3, c]

/-- How far a transition has come: its kind, candidate, transition or stream, the bytes it has read, and its record. -/
def Doing.bytes : Doing → List (Nat × List Byte)
  | .capture c i => [(64, [1]), (72, fields 8 [c, i])]
  | .slots c i got => [(64, [2]), (68, leBytes 4 got.length), (72, fields 8 [c, i])]
  | .emit c j r => [(64, [3]), (72, fields 8 [c, j]), (96, recToBytes r)]
  | .image c => [(64, [4]), (72, leBytes 8 c)]

/-- A held item with its progress, in 128 bytes: the item, what it stopped in, whether the initial transition is still to come, how
many candidates are still to take it and the first of them; they follow in creation order (R295; log 44). -/
def HeldItem.bytes (it : HeldItem) : List Byte :=
  layout 128 ([(0, it.item.bytes), (65, [BitVec.ofNat 8 (b2n it.init)]), (66, leBytes 2 it.rest.length), (88, leBytes 8 (it.rest.headD 0))]
    ++ (match it.doing with
      | none => []
      | some d => d.bytes))

/-- An automaton record. -/
def autoBytes (a : Nat) (x : Slot) (caps : List (List Byte)) : List Byte :=
  leBytes 8 a ++ leBytes 8 x.status.toNat ++ (x.pat ++ List.replicate patternBytes 0).take patternBytes
    ++ layout 64 [(0, fields 8 x.cursors)]
    ++ (match x.held with
      | none => List.replicate 128 0
      | some it => it.bytes)
    ++ fields 8 ((List.range 10).map (fun i => (x.stat i).toNat))
    ++ leBytes 8 x.cands.length ++ x.cands.flatMap Cand.bytes
    ++ caps.flatMap (fun c => (c ++ List.replicate 128 0).take 128)

/-! ### The image -/

/-- Bytes filled up to a multiple of 256. -/
def pad256 (bs : List Byte) : List Byte := bs ++ List.replicate ((256 - bs.length % 256) % 256) 0

/-- The image of a context: header, grids, teams, automata, each section at a multiple of 256. -/
def CtxImg.bytes (c : CtxImg) : List Byte :=
  let gs := pad256 (c.grids.flatMap (fun e => e.2.bytes))
  let ts := pad256 (c.teams.flatMap (fun x =>
    let g := SMap.find? c.grids x.team.grid
    x.bytes ((g.map (·.gid)).getD 0) ((g.map (fun g => lrRegs g.lrec)).getD 0)))
  let as := pad256 (c.autos.flatMap (fun e => autoBytes e.1 e.2.1 e.2.2))
  let o1 := 256
  let o2 := o1 + gs.length
  let o3 := o2 + ts.length
  layout 256 [
    (0x00, leBytes 4 1),
    (0x08, fields 8 [c.ctx.toNat, c.time]),
    (0x18, fields 4 [(match c.lease with
      | none => 0
      | some ns => 2 ^ 31 + ns / 1000 % 2 ^ 20), c.allow, c.grids.length, c.teams.length, c.autos.length]),
    (0x30, fields 8 [o1, o2, o3, o3 + as.length])] ++ gs ++ ts ++ as

end Sys2Proof.Machine
end

