-- ==== Sys2Proof/Machine/Save.lean ====
section
/-!
DEFINITION. Pre-emption, saves and restores of teams and contexts, rollback, and the kill of a context (13 R314, R319, 16 R374 to
R377, R379 to R385).
-/

namespace Sys2Proof.Machine

/-! ### VACATE (R314, R376) -/

/-- The cores a VACATE word names. -/
def State.vacated (s : State) (part : Nat) (v : DWord) : List Nat :=
  match (s.part part).groveList[bits v 48 5]? with
  | none => []
  | some g => ((List.range coresPerGrove).filter (fun i => bit v i)).map (fun i => g * coresPerGrove + i)

/-- The core of the same grove, and the first slot there, to which a team moves off a withheld core; a free choice of several. -/
def State.refuge (s : State) (m : Team) : Option (Nat × Nat) :=
  let g := groveOf m.core
  let need := (s.recsOf m).length
  let l := ((List.range coresPerGrove).map (fun i => g * coresPerGrove + i)).filterMap (fun c =>
    if c == m.core || (s.core c).withheld || decide (s.permits c < need) then none
    else (s.fitOn c m.grid (needOf (s.lrecOfTeam m)) (some m.argp)).map (fun x => (c, x.1)))
  if l.length ≤ 1 then l.head? else l[Config.freeNat s.fresh % l.length]?

/-- A move under way is given up. -/
def State.unmove (s : State) (id : Nat) : State :=
  match (s.team? id).bind (·.moving) with
  | none => s
  | some (c, _) => State.unbindBoughs (s.updTeam id (fun m => { m with moving := none })) c

/-- A team begins its save: it stops, and what gathers its threads is dissolved (R165, R374). -/
def State.beginSave (s : State) (id : Nat) : State :=
  match s.team? id with
  | none => s
  | some m => (s.dissolve m).updTeam id (fun m => { m with leaving := true })

/-- A team is to leave its core: it moves within its grove, or is to be saved. -/
def State.evict (s : State) (id : Nat) : State :=
  let s := s.unmove id
  match s.team? id with
  | none => s
  | some m =>
    match s.refuge m with
    | some (c, f) => (((s.takeFresh 1).dissolve m).updTeam id (fun m => { m with moving := some (c, f) })).bindBoughs c m.grid f m.n
    | none => s.beginSave id

/-- VACATE_GO (R376). -/
def execVacateGo (part : Nat) (v : DWord) (s : State) : Host.Outcome State Fault Refusal :=
  let l := s.vacated part v
  let s := s.updPart part (fun p => { p with vacate := keep v [(63, 1), (48, 5), (0, 24)] })
  let s := l.foldl (fun s c => s.updCore c (fun x => { x with withheld := true })) s
  let on (m : Team) : Bool := !m.leaving && (match m.moving with
    | none => l.contains m.core
    | some (c, _) => l.contains c)
  .next (((s.teams.filter (fun e => on e.2)).map (·.1)).foldl (fun s id => s.evict id) s)

/-- VACATE_RELEASE (R376). -/
def execVacateRelease (part : Nat) (v : DWord) (s : State) : Host.Outcome State Fault Refusal :=
  let l := s.vacated part v
  .next (l.foldl (fun s c => s.updCore c (fun x => { x with withheld := false })) (s.updPart part (fun p =>
    { p with vacate := keep v [(48, 5), (0, 24)] })))

/-- VACST: the named cores that still hold a team (R376). -/
def State.vacst (s : State) (part : Nat) : DWord :=
  BitVec.ofNat 64 (maskOf (((s.vacated part (s.part part).vacate).filter (fun c => s.teams.any (fun e => e.2.core == c))).map coreInGrove))

/-! ### Saving a team (R374) -/

/-- A thread as it is saved: what it waited for outside the team is asked for again. -/
def Thread.stored (t : Thread) : Thread :=
  { t with hold := match t.hold with
    | .glaunch _ => .none
    | .xlate _ => .none
    | h => h }

/-- The operations of a team's threads. -/
def State.opsOf (s : State) (m : Team) : List Op := s.ops.filter (fun (o : Op) => m.slots.contains o.slot)

/-- The GLAUNCH requests of a team's leaders are withdrawn. -/
def State.withdrawAsks (s : State) (m : Team) : State :=
  { s with greqs := s.greqs.filter (fun (r : GReq) => match r.slot with
    | none => true
    | some k => !m.slots.contains k) }

/-- TEAM_SAVE (R374, R376): the team's state goes into its image, and what it held is free. -/
def execTeamSave (team : Nat) (s : State) : Host.Outcome State Fault Refusal :=
  match s.team? team with
  | none => .next s
  | some m =>
    if !m.leaving || m.ckpt || m.rbDue || s.teamBusy m then .next s
    else
      let part := s.partOfTeam team
      let s := s.dissolve m
      let img := s.imgOf team m
      let recs := (s.recsOf m).map (fun (e : Nat × ParkRec) => { e.2 with mask := e.2.mask.filter (fun k => m.slots.contains k) })
      let emits := s.opsOf m
      let img := { img with threads := img.threads.map Thread.stored, emits := emits, recs := recs }
      let s := (((s.withdraw emits).withdrawAsks m).leavePermits m).vacateTeam team m
      .next (s.updPart part (fun p => { p with teamImgs := p.teamImgs ++ [img] }))

/-! ### Restoring a team (R314, R377) -/

/-- A team stands on a core again from its image: threads, region, tags, permits, emits in the order of their issues; waiting threads
re-arm. -/
def State.land (s : State) (x : TeamImg) (core first argp : Nat) : State :=
  let m := x.team
  let f := rebase (m.core * slotsPerCore + m.first) (core * slotsPerCore + first)
  let tags := s.freeTags core m.tags.length
  let s := { s with
    teams := s.teams.put x.id (m.rebase f core first argp tags)
    scr := Memory.writeN s.scr (scrKey core argp) x.region }
  let s := x.threads.zipIdx.foldl (fun (s : State) (t, i) => s.setThread (core * slotsPerCore + first + i)
    (t.arrive f s.stamp (x.cycles.getD i 0 - s.cycleOf core))) s
  let s := { s with stamp := s.stamp + 1 }
  let s := s.updCore core (fun c => (tags.zip x.tags).foldl (fun (c : CoreSt) (y : Nat × TagSt) =>
    c.updTag y.1 (fun _ => { y.2 with owner := some x.id })) c)
  let s := (s.takePermits core f x.recs).bindBoughs core m.grid first m.n
  let s := x.emits.foldl (fun (s : State) (o : Op) => { s with
    ops := s.ops ++ [{ o with id := s.nextOp, slot := f o.slot, kind := o.kind.again, sent := false }]
    nextOp := s.nextOp + 1 }) s
  (List.range m.n).foldl (fun s i => s.rearm (core * slotsPerCore + first + i)) s

/-- The saved teams that may be restored, in order: those of the resident context, or of the one being restored, by the order of
their grids and then by index. -/
def State.waitingImgs (s : State) (part : Nat) : List TeamImg :=
  let p := s.part part
  let mine (x : TeamImg) : Bool := match s.grid? x.team.grid with
    | none => false
    | some g => p.resident == some g.ctx || p.swap == some (g.ctx, true)
  let key (x : TeamImg) : Nat := match s.grid? x.team.grid with
    | none => 0
    | some g => ((7 - lrPrio g.lrec) * 2 ^ 48 + g.age) * 2 ^ 32 + x.team.index
  sortBy key (p.teamImgs.filter mine)

/-- Where a saved team may stand: at its region's offset, with a permit for each of its parked sub-groups. -/
def State.roomFor (s : State) (part : Nat) (x : TeamImg) : Option Room :=
  match s.grid? x.team.grid with
  | none => none
  | some g => s.chooseRoom part x.team.grid g.lrec (some x.team.argp) (fun c => decide (x.recs.length ≤ s.permits c))

/-- The first team of each grid of a list. -/
def firstOfGrid : List TeamImg → List Nat → List TeamImg
  | [], _ => []
  | x :: l, seen => if seen.contains x.team.grid then firstOfGrid l seen else x :: firstOfGrid l (x.team.grid :: seen)

/-- The next restore: the first team in order that has room; one of a grid waits for those of lower index. -/
def State.nextRestore (s : State) (part : Nat) : Option (TeamImg × Room) :=
  (firstOfGrid (s.waitingImgs part) []).findSome? (fun x => (s.roomFor part x).map (fun r => (x, r)))

/-- TEAM_RESTORE (R377). -/
def execTeamRestore (part : Nat) (s : State) : Host.Outcome State Fault Refusal :=
  match s.nextRestore part with
  | none => .next s
  | some (x, r) =>
    let fused := match s.grid? x.team.grid with
      | none => false
      | some g => lrFuse g.lrec
    let s := s.setMode (groveOf r.core) fused
    let s := s.updPart part (fun p => { p with teamImgs := p.teamImgs.filter (fun y => y.id != x.id) })
    .next (s.land x r.core r.first x.team.argp)

/-! ### Saving and restoring a context (R295, R319, R375) -/

/-- The contexts that the launch records of a slot's pattern name. -/
def State.ctxsOfSlot (s : State) (x : Slot) : List (BitVec 16) :=
  (patHandles x.pat).filterMap (fun h => ((s.part x.part.toNat).named h).map (·.ctx))

/-- The armed or held automata of a context. -/
def State.autosOf (s : State) (part : Nat) (ctx : BitVec 16) : List Nat :=
  (s.slots.filter (fun e => e.2.live && e.2.part.toNat == part && (s.ctxsOfSlot e.2).contains ctx)).map (·.1)

/-- The stream at which a slot's emit is stalled. -/
def Slot.emitsTo (x : Slot) : Option Nat := match x.held.bind (·.doing) with
  | some (.emit _ j _) => if x.st = 5 then some j else none
  | _ => none

/-- A slot's emit leaves the queue where it is stalled. -/
def State.withdrawSlot (s : State) (a : Nat) : State :=
  match (s.slot a).emitsTo with
  | none => s
  | some j => s.updQueue j (fun q => { q with stalled := q.stalled.filter (fun e => e != Sum.inr a) })

/-- The valid capture slots of a candidate. -/
def Cand.validSlots (c : Cand) : List Nat := (List.range 4).filter (fun k => c.cv.getLsbD k)

/-- An access that the save or the restore of an automaton makes for it, by engine 3 or 4 as its unit would: the bytes; or nothing yet,
after a report under which the context's save or restore waits, or for the host or for space in the fault buffer; or a fault, with
which the automaton stops (R267, R294, R337). -/
inductive ImgRes where
  | ok (bs : List Byte)
  | wait
  | fault (code : BitVec 8)

def State.imgAccess (s : State) (a : Nat) (x : Slot) (engine va n : Nat) (wr : Option (List Byte)) : State × ImgRes :=
  let part := x.part.toNat
  match s.unitAccess (.unit engine a) part va n wr with
  | (s, .ok bs) => (s, .ok bs)
  | (s, .ask _) => (s, .wait)
  | (s, .fault c) =>
    if s.mustHold part c then (s, .wait)
    else
      let (s, idx) := s.reportSlot part a engine c wr.isSome va
      if replayable c then (s.updPart part (fun p => { p with swapHeld := some (idx, a) }), .wait) else (s, .fault c)

/-- The capture block of a candidate: its valid slots, read in turn. -/
def State.captures (s : State) (a : Nat) (x : Slot) (c : Cand) : List Nat → List Byte → State × ImgRes
  | [], blk => (s, .ok blk)
  | k :: l, blk =>
    match s.imgAccess a x 4 (x.capVa c k) 32 none with
    | (s, .ok bs) => captures s a x c l (splice blk (32 * k) bs)
    | r => r

/-- The capture blocks of candidates. -/
def State.captureAll (s : State) (a : Nat) (x : Slot) : List Cand → List (List Byte) → State × (List (List Byte) ⊕ ImgRes)
  | [], got => (s, .inl got)
  | c :: l, got =>
    match s.captures a x c c.validSlots (List.replicate 128 0) with
    | (s, .ok bs) => captureAll s a x l (got ++ [bs])
    | (s, r) => (s, .inr r)

/-- An automaton that its save or restore cannot go on for stops with the code (R294). -/
def State.stopAuto (s : State) (a : Nat) (code : BitVec 8) : State :=
  ((s.withdrawSlot a).updSlot a (fun x => { x with st := 6, code := code, held := none })).settleStreams (patSids (s.slot a).pat)

/-- Automata are read for the image; none while one of them has to wait, or has stopped instead (R295). -/
def State.readAutos (s : State) : List Nat → List (Nat × Slot × List (List Byte)) → State × Option (List (Nat × Slot × List (List Byte)))
  | [], got => (s, some got)
  | a :: l, got =>
    match s.captureAll a (s.slot a) (s.slot a).cands [] with
    | (s, .inl caps) => readAutos s l (got ++ [(a, s.slot a, caps)])
    | (s, .inr (.fault c)) => (s.stopAuto a c, none)
    | (s, .inr _) => (s, none)

/-- Automata leave for the image: their candidates and held items are there. -/
def State.leaveAutos (s : State) (l : List Nat) : State :=
  l.foldl (fun (s : State) a => (s.withdrawSlot a).updSlot a (fun x => { x with saved := true, cands := [], held := none })) s

/-- The valid capture slots of a candidate are written back. -/
def State.writeCaps (s : State) (a : Nat) (x : Slot) (c : Cand) (blk : List Byte) : List Nat → State × ImgRes
  | [] => (s, .ok [])
  | k :: l =>
    match s.imgAccess a x 4 (x.capVa c k) 32 (some ((blk.drop (32 * k)).take 32)) with
    | (s, .ok _) => writeCaps s a x c blk l
    | r => r

/-- Where a saved candidate comes back to: its place in the spill area; the pool; or, when that has no room for it, a place in the spill
area that no other has, nor one of those still to come back (R286, R289). -/
def State.seatOf (s : State) (a : Nat) (c : Cand) (later : List Cand) : Option (Option Nat) :=
  match c.spill with
  | some j => some (some j)
  | none =>
    if s.poolRoom a then some none
    else (firstBelow (patSpl (s.slot a).pat) (fun j => !((s.slot a).cands ++ later).any (fun d => d.spill == some j))).map some

/-- The candidates of a stopped automaton come back with no access; `false` where one finds no room (R271, R294). -/
def State.seatCands (s : State) (a : Nat) : List Cand → State × Bool
  | [] => (s, true)
  | c :: l => match s.seatOf a c l with
    | none => (s, false)
    | some place => seatCands (s.updSlot a (fun x => { x with cands := x.cands ++ [{ c with spill := place }] })) a l

/-- Candidates come back in creation order: each where it was, or, when the pool has no room for it, in the spill area, which its
bytes are written to; else they wait for room (R286, R289, R295). -/
def State.putCands (s : State) (a : Nat) : List (Cand × List Byte) → State × ImgRes
  | [] => (s, .ok [])
  | (c, blk) :: l =>
    let x := s.slot a
    match s.seatOf a c (l.map (·.1)) with
    | none => (s, .wait)
    | some place =>
      let c' := { c with spill := place }
      let (s, r) := match place with
        | none => (s, ImgRes.ok [])
        | some j => s.imgAccess a x 3 (x.spillVa j) 64 (some c'.bytes)
      match r with
      | .ok _ =>
        match s.writeCaps a x c' blk c'.validSlots with
        | (s, .ok _) => putCands (s.updSlot a (fun x => { x with cands := x.cands ++ [c'] })) a l
        | r => r
      | r => (s, r)

/-- An automaton goes on from its image, unless it has been disarmed meanwhile; `none` while it waits. What its held item waits for it
still waits for (R294, R295). -/
def State.restoreAuto (s : State) (e : Nat × Slot × List (List Byte)) : State × Bool :=
  let a := e.1
  if !(s.slot a).saved then (s, true)
  else
    let back (s : State) : State := s.updSlot a (fun x => { x with saved := false, st := e.2.1.st, code := e.2.1.code, held := e.2.1.held })
    if e.2.1.st = 6 then
      match s.seatCands a e.2.1.cands with
      | (s, true) => (back s, true)
      | (s, false) => (s.updSlot a (fun x => { x with cands := [] }), false)
    else
      match s.putCands a (e.2.1.cands.zip e.2.2) with
      | (s, .ok _) =>
        let s := back s
        (match e.2.1.emitsTo with
          | none => s
          | some j => s.updQueue j (fun q => { q with stalled := q.stalled ++ [.inr a] }), true)
      | (s, .fault c) => ((s.updSlot a (fun x => { x with cands := [], saved := false })).stopAuto a c, true)
      | (s, .wait) => (s.updSlot a (fun x => { x with cands := [] }), false)

/-- The automata of an image come back in turn, as far as none has to wait. -/
def State.restoreAutos (s : State) : List (Nat × Slot × List (List Byte)) → State × Bool
  | [] => (s, true)
  | e :: l =>
    match s.restoreAuto e with
    | (s, true) => restoreAutos s l
    | r => r

/-- The teams of a context that stand in a partition. -/
def State.teamsOfCtx (s : State) (part : Nat) (ctx : BitVec 16) : List Nat :=
  (s.teams.filter (fun e => match s.grid? e.2.grid with
    | none => false
    | some g => g.part == part && g.ctx == ctx)).map (·.1)

/-- CONTEXT_SAVE (R375): the teams are to be saved; once none stands, the image is made and the save is over. -/
def execContextSave (part ctx : Nat) (s : State) : Host.Outcome State Fault Refusal :=
  let c : BitVec 16 := BitVec.ofNat 16 ctx
  let p := s.part part
  if p.swap ≠ some (c, false) ∨ p.swapHeld.isSome then .next s
  else
    let ts := s.teamsOfCtx part c
    if !ts.isEmpty then
      .next (ts.foldl (fun s id => (s.unmove id).beginSave id) s)
    else
      let gs := s.grids.filter (fun e => e.2.part == part && e.2.ctx == c)
      let mine (x : TeamImg) : Bool := gs.any (fun e => e.1 == x.team.grid)
      let l := s.autosOf part c
      match s.readAutos l [] with
      | (s, none) => .next s
      | (s, some autos) =>
        let s := s.leaveAutos l
        let img : CtxImg := ⟨c, s.time, p.lease.find? c.toNat, p.allow.get 0 c.toNat, gs, p.teamImgs.filter mine, autos⟩
        .next (State.updPart { s with grids := s.grids.filter (fun e => !(e.2.part == part && e.2.ctx == c)) } part (fun p => { p with
          swap := none
          lease := p.lease.erase c.toNat
          teamImgs := p.teamImgs.filter (fun x => !mine x)
          images := p.images.filter (fun i => i.ctx != c) ++ [img] }))

/-- The context becomes resident, and its quantum begins. -/
def State.reside (s : State) (part : Nat) (c : BitVec 16) : State :=
  s.updPart part (fun p => { p with resident := some c, swap := none, quantStart := s.time })

/-- CONTEXT_RESTORE (R319, R375): the context that the scheduler chooses comes back, its automata last. -/
def execContextRestore (part ctx : Nat) (s : State) : Host.Outcome State Fault Refusal :=
  let c : BitVec 16 := BitVec.ofNat 16 ctx
  let p := s.part part
  if p.resident.isSome then .next s
  else if p.swap = some (c, true) then
    if (s.nextRestore part).isSome || p.swapHeld.isSome then .next s
    else
      match s.restoreAutos ((p.images.filter (fun i => i.ctx == c)).flatMap (·.autos)) with
      | (s, false) => .next s
      | (s, true) => .next ((s.updPart part (fun p => { p with images := p.images.filter (fun i => i.ctx != c) })).reside part c)
  else
    match s.chooseEntry part with
    | none => .next s
    | some k =>
      if p.swap.isSome || (p.quantum k).ctx ≠ c then .next s
      else
        let s := s.updPart part (fun p => { p with chosen := k })
        match p.images.find? (fun i => i.ctx == c) with
        | none => .next (s.reside part c)
        | some img =>
          let s := img.grids.foldl (fun (s : State) e => { s with grids := s.grids.put e.1 e.2 }) s
          .next (s.updPart part (fun p => { p with
            swap := some (c, true)
            lease := match img.lease with
              | none => p.lease
              | some ns => p.lease.put c.toNat ns
            teamImgs := p.teamImgs ++ img.teams
            images := p.images.map (fun i => if i.ctx == c then { i with grids := [], teams := [] } else i) }))

/-! ### Killing a context (R384, R385) -/

/-- The launch-table entry of a grid counts one less (R307). -/
def Partition.unlive (p : Partition) (g : Grid) : Partition :=
  p.updLentry (g.handle.toNat % 4096) (fun e =>
    if e.gen.toNat = g.handle.toNat / 4096 % 2 ^ 16 then { e with live := e.live - 1 } else e)

/-- A team goes with its context: its operations and entries, its permits, its core's resources. -/
def State.killTeam (s : State) (id : Nat) : State :=
  match s.team? id with
  | none => s
  | some m =>
    let part := s.partOfTeam id
    let ops := s.opsOf m
    let s := ((((s.unmove id).dissolve m).withdraw ops).withdrawAsks m).leavePermits m
    let s := ops.foldl (fun s (o : Op) => s.updCore (coreOf o.slot) (fun c => { c with cq := c.cq.filter (fun i => i != o.id) })) s
    let s := { s with ments := s.ments.filter (fun e => e.team != id) }
    let s := match m.seg with
      | none => s
      | some i => s.updPart part (fun p => { p with shadows := p.shadows.erase i, rlogs := p.rlogs.erase i })
    s.vacateTeam id m

/-- An automaton stops with a code; its emit is withdrawn (R384). -/
def State.killAuto (s : State) (a : Nat) (code : BitVec 8) : State :=
  let s := { s.withdrawSlot a with greqs := s.greqs.filter (fun (r : GReq) => r.auto != some a) }
  (s.updSlot a (fun x => { x with st := 6, code := code, held := none, saved := false })).settleStreams (patSids (s.slot a).pat)

/-- The kill of a context (R384). -/
def State.killContext (s : State) (part : Nat) (ctx : BitVec 16) (code : BitVec 8) : State :=
  let autos := s.autosOf part ctx
  let s := (s.teamsOfCtx part ctx).foldl (fun s id => s.killTeam id) s
  let p := s.part part
  let here := s.grids.filter (fun e => e.2.part == part && e.2.ctx == ctx)
  let away := (p.images.filter (fun i => i.ctx == ctx)).flatMap (fun i => i.grids)
  let gs := here ++ away
  let segs := (p.teamImgs.filter (fun x => here.any (fun e => e.1 == x.team.grid))
    ++ (p.images.filter (fun i => i.ctx == ctx)).flatMap (fun i => i.teams)).filterMap (fun x => x.team.seg)
  let s := { s with
    grids := s.grids.filter (fun e => !(e.2.part == part && e.2.ctx == ctx))
    greqs := s.greqs.filter (fun (r : GReq) => !(r.part == part && (match s.madeOf r with
      | none => false
      | some (_, c) => c == ctx))) }
  let s := autos.foldl (fun s a => s.killAuto a code) s
  let word : DWord := BitVec.ofNat 64 (2 ^ 63 + ctx.toNat * 2 ^ 47 + code.toNat)
  let s := s.updPart part (fun p =>
    { gs.foldl (fun p e => p.unlive e.2) p with
      images := p.images.filter (fun i => i.ctx != ctx)
      teamImgs := p.teamImgs.filter (fun x => !here.any (fun e => e.1 == x.team.grid))
      shadows := segs.foldl (fun m i => SMap.erase m i) p.shadows
      rlogs := segs.foldl (fun m i => SMap.erase m i) p.rlogs
      lease := p.lease.erase ctx.toNat
      resident := if p.resident = some ctx then none else p.resident
      swap := if p.swap.map (·.1) = some ctx then none else p.swap
      swapHeld := if p.swap.map (·.1) = some ctx then none else p.swapHeld
      resv := match p.resv with
        | none => none
        | some y => if gs.any (fun e => e.1 == y.1) then none else some y
      killst := word })
  let s := s.abortCan part ctx
  { s with lds := s.lds.map (fun (e : Nat × LDev) => (e.1, if e.2.parts.getLsbD part then { e.2 with killst := word } else e.2)) }

/-! ### Rollback (R379 to R383) -/

/-- Nothing of a team is outstanding, stalled EMITs included. -/
def State.teamIdle (s : State) (m : Team) : Bool := (s.opsOf m).isEmpty && !s.teamBusy m

/-- Every thread of a shadow is ready again, but those that had left. -/
def Thread.rolledBack (t : Thread) : Thread :=
  match t.st with
  | .exited => t
  | .returned => t
  | _ => { t with st := .ready, park := none, hold := .none, due := none }

/-- ROLLBACK_CHECKPOINT (R380): the operations of the team's lanes are complete; the shadow is written and an interval begins. -/
def execRollbackCheckpoint (team : Nat) (s : State) : Host.Outcome State Fault Refusal :=
  match s.team? team with
  | none => .next s
  | some m => match m.seg with
    | none => .next s
    | some i =>
      if !m.ckpt || !s.teamIdle m then .next s
      else
        let part := s.partOfTeam team
        let s := s.updTeam team (fun m => { m with ckpt := false, recov := true, rolled := false, met := [] })
        match s.team? team with
        | none => .next s
        | some m' =>
          let img := s.imgOf team m'
          .next ((s.updPart part (fun p => { p with shadows := p.shadows.put i img, rlogs := p.rlogs.erase i })).writeShadow part i img)

/-- The log of a team is applied, latest entry first, each as a write of the whole line, measured where its page is compressed; the
entries left where one overflows (R189, R383). -/
def State.applyLog (s : State) (part team : Nat) : List RbEnt → State × List RbEnt
  | [] => (s, [])
  | e :: l =>
    match s.devWrite { Acc.plain part e.la with key := e.key, comp := e.comp, bix := e.bix, team := some team } e.old with
    | (s, true) => applyLog s part team l
    | (s, false) => (s, e :: l)

/-- Clean poisoned lines that the team met leave the L2 (R383). -/
def State.dropMet (s : State) (met : List Nat) : State :=
  { s with l2 := s.l2.filter (fun (e : Nat × L2Line) => !(e.2.poison && !e.2.dirty && met.contains (e.1 % 2 ^ 52))) }

/-- A team's threads, tags, context-table entries and region are those of its shadow, where it stands now; a move or a save that it was
told to make stays ahead of it (R376). sr.cycle counts on, since within a thread it never decreases (R87; log 46: DEDUCED). -/
def State.unwind (s : State) (team : Nat) (m : Team) (x : TeamImg) : State :=
  let f := rebase (x.team.core * slotsPerCore + x.team.first) (m.core * slotsPerCore + m.first)
  let m' := { x.team.rebase f m.core m.first m.argp m.tags with
    seg := m.seg, recov := true, rolled := true, moving := m.moving, leaving := m.leaving }
  let s := State.scrWrite { s with teams := s.teams.put team m' } m.core m.argp x.region
  let off (s : State) (i : Nat) : Int :=
    let back : Int := x.cycles.getD i 0 - s.cycleOf m.core
    max back (((s.thread? (m.core * slotsPerCore + m.first + i)).map (·.cycOff)).getD back)
  let s := x.threads.zipIdx.foldl (fun (s : State) (t, i) => s.setThread (m.core * slotsPerCore + m.first + i)
    (t.rolledBack.arrive f s.stamp (off s i))) s
  State.updCore { s with stamp := s.stamp + 1 } m.core (fun c => (m.tags.zip x.tags).foldl (fun (c : CoreSt) (y : Nat × TagSt) =>
    c.updTag y.1 (fun _ => { y.2 with owner := some team })) c)

/-- A rollback goes on with the log entries that are left. A write of it that overflows is reported and the team waits under that record
(R189, R190, R383; log 70). -/
def State.rollLog (s : State) (team : Nat) (m : Team) (i : Nat) (x : TeamImg) : State :=
  let part := s.partOfTeam team
  match s.applyLog part team ((s.part part).rlogs.get [] i).reverse with
  | (s, []) =>
    let s := (((s.dropMet m.met).dissolve m).leavePermits m).unwind team m x
    s.updPart part (fun p => { p with rlogs := p.rlogs.erase i })
  | (s, e :: l) =>
    let s := s.updPart part (fun p => { p with rlogs := p.rlogs.put i (e :: l).reverse })
    let (s, idx) := (s.takeFresh 2).report part ⟨0x13, 0, true, some m.core, m.first % slotsPerCore / 32, (Config.freeWord s.fresh).toNat,
      BitVec.ofNat 64 (Config.freeNat (s.fresh + 1)), 0⟩
    s.updTeam team (fun m => { m with rbHeld := some idx })

/-- ROLLBACK (R383): the team goes back to its shadow, or its context is killed with 0x41. -/
def execRollback (team : Nat) (s : State) : Host.Outcome State Fault Refusal :=
  match s.team? team with
  | none => .next s
  | some m => match m.seg with
    | none => .next s
    | some i =>
      let part := s.partOfTeam team
      if !m.rbDue || m.rbHeld.isSome then .next s
      else if !m.recov || m.rolled then
        .next (s.killContext part (((s.grid? m.grid).map (·.ctx)).getD 0) 0x41)
      else if !s.teamIdle m then .next s
      else
        match (s.part part).shadows.find? i with
        | none => .next s
        | some x => .next (s.rollLog team m i x)

end Sys2Proof.Machine
end

