-- ==== Sys2Proof/Machine/Power.lean ====
section
/-!
DEFINITION. Power and bring-up: rails, device states, the cap, reset, fuses, measurements, the operator's tables (13 R317, R318, 17
R386, R387, R398 to R404).
-/

namespace Sys2Proof.Machine

/-! ### Rails (R398, R399) -/

/-- The point a rail is to run at: the highest vote of its valid partitions. -/
def State.target (s : State) (r : Nat) : BitVec 3 :=
  ((List.range partitions).filter (fun p => (s.part p).v && (s.part p).reg.toNat == r)).foldl
    (fun m p => if m < (s.part p).vote then (s.part p).vote else m) 0

/-- A vote starts a transition from the point reached: a rise moves the voltage first, a fall the clock. -/
def Rail.aim (x : Rail) (t : BitVec 3) (now : Nat) : Rail :=
  let volt := if x.volt < t then t else x.volt
  let clk := if t < x.clk then t else x.clk
  ⟨clk, volt, t, if clk = t && volt = t then none else some (now + 20000)⟩

/-- Every rail follows its votes. -/
def State.aimRails (s : State) : State :=
  (List.range 4).foldl (fun s r =>
    let t := s.target r
    if (s.rail r).goal = t then s else s.updRail r (fun x => x.aim t s.time)) s

/-- A rail's next change: a clock below the goal rises once the voltage has settled, and a voltage above it falls when its time has
come. -/
def Rail.step (x : Rail) (now : Nat) : Rail :=
  match x.due with
  | none => x
  | some d =>
    if x.clk < x.goal then { x with clk := x.goal, due := if x.volt = x.goal then none else some d }
    else if d ≤ now then { x with volt := x.goal, due := none }
    else x

/-- RAIL_TRANSITION_STEP (R399): the clock follows a settled voltage, within 20 µs; the voltage follows a fall of the clock, 20 µs
later. -/
def execRailTransitionStep (reg : Fin 4) (s : State) : Host.Outcome State Fault Refusal :=
  .next (s.updRail reg.val (fun x => x.step s.time))

/-! ### Device states (R400) -/

/-- The state the enabled logical devices ask for: the most active request. -/
def State.asked (s : State) : Option (BitVec 2) :=
  (s.lds.filter (fun e => e.2.v)).foldl (fun m e => match m with
    | none => some e.2.reqState
    | some r => some (if e.2.reqState < r then e.2.reqState else r)) none

/-- RATE under a cap of C watts. -/
def rateFor (c : Nat) : Nat := max 1 (min 1536 (1536 * (c - 1240) / 560))

/-- The entries of a map by address that lie outside HBM: the pool of the CXL tier is not the device's (R392). -/
def poolOnly {α : Type} (m : SMap α) : SMap α := m.filter (fun e => decide (2 ^ 52 ≤ e.1))

/-- Groves, HBM and Canopy lose power: what they hold is gone, and the partitions with it, out of PARTS of every logical device too
(R318); a command held for a partition is taken again, and answered for one that is none of the device's (R390). The cap in force holds on: every grove comes
back with its RATE (R4, R401). -/
def State.goOff (s : State) : State :=
  let s := { s with
    threads := [], teams := [], grids := [], cores := [], groves := [], ments := [], parts := []
    mem := poolOnly s.mem, keyTags := poolOnly s.keyTags, bad := poolOnly s.bad, sizes := [], l2 := [], l1 := [], icache := [], scr := []
    tlb := [], atc := [], xreqs := [], xans := [], late := [], deps := [], heat := [], ops := [], greqs := []
    slots := s.slots.map (fun (e : Nat × Slot) => (e.1, { e.2 with cands := [], held := none, saved := false }))
    queues := s.queues.map (fun (e : Nat × Queue) => (e.1, { e.2 with stalled := [], hostq := [], stuck := false }))
    canops := [], redparts := []
    lds := s.lds.map (fun (e : Nat × LDev) => (e.1, { e.2 with parts := 0, mbHeld := none })) }
  (List.range 32).foldl (fun s g => s.updGrove g (fun x => { x with rate := rateFor s.dev.cap.toNat })) s

/-- The device takes the state that is asked for; not while it boots or recovers. -/
def State.settleState (s : State) : State :=
  if 4 ≤ s.dev.state.toNat then s
  else
    match s.asked with
    | none => s
    | some r =>
      let s' := { s with dev := { s.dev with state := r.setWidth 4 } }
      if r = 3 && s.dev.state ≠ 3 then s'.goOff.aimRails else s'

/-! ### The power cap (R401) -/

/-- AMBCFG of a grove as it stands, or as written for the next revolution. -/
def GroveSt.cfg (g : GroveSt) : DWord := match g.cfgNext with
  | some v => v
  | none => BitVec.ofNat 64 (b2n g.en * 2 ^ 63 + g.fmax * 2 ^ 32 + g.rate * 2 ^ 16 + g.share)

/-- In recovery only BAR 0 answers, and only IMAGE is accepted: no cap and no table is written (R403). -/
def State.recovering (s : State) : Bool := s.dev.state == 5

/-- POWER_CAP_WRITE (R401). -/
def execPowerCapWrite (watts : Nat) (s : State) : Host.Outcome State Fault Refusal :=
  if s.recovering then .next s
  else
  let c := max 600 (min 1800 watts)
  let s := { s with dev := { s.dev with cap := BitVec.ofNat 16 c, unmet := decide (c < 1240) } }
  .next ((List.range 32).foldl (fun s g => s.updGrove g (fun x => { x with cfgNext := some (setBits x.cfg 16 11 (rateFor c)) })) s)

/-! ### The operator's tables (R317, R318, R319) -/

/-- What index 5 covers: the fields of the partition table and of the virtual-function table, in order (R404). -/
def State.tables (s : State) : List Nat :=
  (List.range partitions).flatMap (fun i =>
    let p := s.part i
    [b2n p.v, p.vf.toNat, p.reg.toNat, b2n p.afb, p.groves.toNat, p.slices.toNat, p.cquota.toNat, p.rsvt.toNat])
    ++ (List.range 16).flatMap (fun v => [b2n (s.ld v).v, (s.ld v).port.toNat, (s.ld v).parts.toNat])

/-- A write that changes a table is measured again (R404). -/
def State.remeasure (s : State) : State := { s with dev := { s.dev with meas5 := s.tables } }

/-- Firmware keeps PARTS of every logical device equal to the partitions whose VF names it (R318). -/
def State.syncParts (s : State) : State :=
  (List.range 16).foldl (fun s v => s.updLd v (fun d => { d with
    parts := BitVec.ofNat 32 (maskOf ((List.range partitions).filter (fun p => (s.part p).v && (s.part p).vf.toNat == v))) })) s

/-- The keys of a partition are drawn anew: lines under the old ones are written back and leave the L2 first (R191, R192). -/
def State.rotateKeys (s : State) (p : Nat) : State :=
  (List.range 16).foldl (fun s k =>
    { (s.flushKey p k).updPart p (fun q => { q with keys := q.keys.put k ⟨some s.keyDraws, []⟩ }) with keyDraws := s.keyDraws + 1 }) s

/-- A partition goes: its contexts with it, and its slots, whose automata stop (R375). Its memory leaves it, as it does where its
entry is written with other groves or slices (R192). A mailbox command held under one of its fault records is taken again, and is then
answered for a partition that is none of the device's (R390). -/
def State.dropPartition (s : State) (p : Nat) : State :=
  let mine := (s.teams.filter (fun e => match s.grid? e.2.grid with
    | none => false
    | some g => g.part == p)).map (·.1)
  let s := mine.foldl (fun s id => s.killTeam id) s
  let slots := (s.slots.filter (fun e => e.2.own && e.2.part.toNat == p)).map (·.1)
  let s := slots.foldl (fun s a => (s.mdis a).updSlot a (fun x => { x with own := false })) s
  let s : State := { s with
    grids := s.grids.filter (fun e => e.2.part != p), greqs := s.greqs.filter (fun (r : GReq) => r.part != p)
    canops := s.canops.filter (fun (o : CanOp) => o.part != p), redparts := s.redparts.filter (fun r => r.part != p)
    tlb := s.tlb.filter (fun t => t.part != p)
    lds := s.lds.map (fun (e : Nat × LDev) => (e.1, { e.2 with mbHeld := e.2.mbHeld.filter (fun h => h.1 != p) })) }
  (s.leaveMemory (s.part p).groves (s.part p).slices).updPart p (fun _ => Partition.reset)

/-- The entry keeps groves and slices apart from those of every other valid partition, and has some of each. -/
def State.entryFits (s : State) (p : Nat) (groves : BitVec 32) (slices : BitVec 64) : Bool :=
  groves != 0 && slices != 0 && (List.range partitions).all (fun q =>
    q == p || !(s.part q).v || ((s.part q).groves &&& groves == 0 && (s.part q).slices &&& slices == 0))

/-- A partition-table entry is written. -/
def State.writePart (s : State) (p : Nat) (e : BitVec 256) : State :=
  let v := bit e 255
  let groves : BitVec 32 := (e >>> 208).setWidth 32
  let slices : BitVec 64 := (e >>> 144).setWidth 64
  if partitions ≤ p || (v && !s.entryFits p groves slices) then s
  else
    let old := (s.part p).v
    let moves := (s.part p).groves != groves || (s.part p).slices != slices
    let s := if old && !v then s.dropPartition p
      else if old && moves then s.leaveMemory (s.part p).groves (s.part p).slices
      else s
    let s := if v && !old then (s.rotateKeys p).updPart p (fun q => { Partition.reset with
        keys := q.keys, resident := some 0, quantStart := s.time, quanta := [(0, ⟨true, 0, 1000, 0, 0⟩)] }) else s
    let s := s.updPart p (fun q => { q with
      v := v, vf := (e >>> 251).setWidth 4, reg := (e >>> 249).setWidth 2, afb := bit e 248, groves := groves, slices := slices
      cquota := if v && !old then 4096 else (e >>> 126).setWidth 18
      rsvt := (e >>> 110).setWidth 16 })
    s.syncParts.aimRails.remeasure

/-- A virtual-function table entry is written; PARTS follows the partition table (R318). -/
def State.writeVf (s : State) (v : Nat) (e : DWord) : State :=
  if 16 ≤ v then s
  else
    let on := bit e 63
    State.remeasure (State.settleState (State.syncParts (s.updLd v (fun d =>
      { if on && !d.v then LDev.reset else d with v := on, port := (e >>> 61).setWidth 2 }))))

/-- PARTITION_TABLE_WRITE (R317, R318). -/
def execPartitionTableWrite (x : TableWrite) (s : State) : Host.Outcome State Fault Refusal :=
  if s.recovering then .next s
  else
    match x with
    | .part p e => .next (s.writePart p e)
    | .vf v e => .next (s.writeVf v e)

/-! ### Bring-up (R402 to R404) -/

/-- SVN_COMMAND (R403): the fused SVN rises to that of the running image. -/
def execSvnCommand (s : State) : Host.Outcome State Fault Refusal :=
  .next { s with dev := { s.dev with fuseSvn := if s.dev.fuseSvn < s.dev.svn then s.dev.svn else s.dev.fuseSvn } }

/-- The measurements of an index: one of what it covers, or for 4 one of each policy plug-in in load order (R404). -/
def DevSt.covered (d : DevSt) (idx : Nat) : Option (List (BitVec 384)) :=
  let one (l : List Nat) : Option (List (BitVec 384)) := some [Config.measure idx l]
  match idx with
  | 1 => one []
  | 2 | 3 => one [d.digest.toNat]
  | 4 => some d.plugins
  | 5 => one d.meas5
  | 6 => one [d.fuseSvn.toNat, d.fuseHash1.toNat, d.fuseHash2.toNat]
  | _ => none

/-- The device answers more than BAR 0: it is not off, booting or in recovery (R389, R400, R403). -/
def State.answers (s : State) : Bool := decide (s.dev.state.toNat ≤ 2)

/-- SPDM_REQUEST (R404): through the DOE mailbox of an enabled logical device whose port is up, or from 16 up over MCTP; the response
is signed. Heartwood runs on in off. In recovery only BAR 0 answers (R403). -/
def execSpdmRequest (x : SpdmReq) (s : State) : Host.Outcome State Fault Refusal :=
  match s.dev.covered x.idx with
  | none => .next s
  | some l =>
    let r : SpdmRsp := ⟨x.idx, l, Config.spdmSignature s.fresh⟩
    if 4 ≤ s.dev.state.toNat then .next s
    else if 16 ≤ x.ld then .next { s.takeFresh 1 with dev := { s.dev with spdm := some r } }
    else if (s.ld x.ld).v && (s.portOf x.ld).mode != .down then .next ((s.takeFresh 1).updLd x.ld (fun d => { d with spdm := some r }))
    else .next s

/-- What outlives a reset or the loss of power: the fuses, the hosts' memory, the pool of the CXL tier, and the model's own numbers (log 3, log 5). No key is
drawn twice (R403). -/
def State.outlive (s : State) : State :=
  { State.reset with
    host := s.host, mem := poolOnly s.mem, keyTags := poolOnly s.keyTags, bad := poolOnly s.bad
    agenda := s.agenda, fresh := s.fresh, keyDraws := s.keyDraws
    dev := { DevSt.reset with fuseSvn := s.dev.fuseSvn, fuseHash1 := s.dev.fuseHash1, fuseHash2 := s.dev.fuseHash2, svn := s.dev.fuseSvn } }

/-- BOOT's reason for refusing an image, 0 where it is accepted (R403, R389). -/
def bootReason (fuse : BitVec 16) : Option BootImage → BitVec 4
  | none => 3
  | some x => if !x.edOk || !x.mlOk then 1 else if x.svn < fuse then 2 else 0

/-- DEVICE_RESET (R403): the boot ROM verifies the image; the firmware starts, or the device is in recovery. -/
def execDeviceReset (img : Option BootImage) (s : State) : Host.Outcome State Fault Refusal :=
  let s := s.outlive
  let r := bootReason s.dev.fuseSvn img
  match img with
  | some x =>
    if r = 0 then .next (State.remeasure { s with dev := { s.dev with state := 1, boot := 0, svn := x.svn, digest := x.digest } })
    else .next { s with dev := { s.dev with state := 5, boot := r, digest := x.digest } }
  | none => .next { s with dev := { s.dev with state := 5, boot := r } }

/-- THERMAL_TRIP (R402): a die at 115 °C or more. -/
def execThermalTrip (temp : Nat) (s : State) : Host.Outcome State Fault Refusal :=
  if temp < 115 then .next s
  else .next { s with dev := { s.dev with dieT := BitVec.ofNat 8 (min 255 temp), trip := true } }

/-- POWER_REMOVAL (R402): all state of the device is lost until a reset. -/
def execPowerRemoval (s : State) : Host.Outcome State Fault Refusal :=
  let s := s.outlive
  .next { s with dev := { s.dev with powered := false } }

/-- The rates of PCIe 6.x and below, in tenths of a GT/s (R387). -/
def pcieRates : List Nat := [25, 50, 80, 160, 320, 640]

/-- LINK_TRAIN (R387): a port trains at one of its widths and rates, or goes down. -/
def execLinkTrain (port : Fin 4) (mode : PortMode) (speed : LinkSpeed) (s : State) : Host.Outcome State Fault Refusal :=
  if mode = .down then .next { s with ports := s.ports.put port.val ⟨.down, 0, 0⟩ }
  else if [1, 2, 4, 8, 16].contains speed.width && pcieRates.contains speed.rate then
    .next { s with ports := s.ports.put port.val ⟨mode, speed.width, speed.rate⟩ }
  else .next s

end Sys2Proof.Machine
end

