-- ==== Sys2Proof/Machine/Mailbox.lean ====
section
/-!
DEFINITION. BAR 0 and the host mailbox, and the hosts' accesses to the device (17 R388 to R391, R399, R400, R403).
-/

namespace Sys2Proof.Machine

/-! ### BAR 0 (R389) -/

/-- `n` bytes of MBREQ from an offset. -/
def LDev.req (d : LDev) (off n : Nat) : List Byte := Memory.readN d.bar (0x100 + off) n
def LDev.reqNat (d : LDev) (off n : Nat) : Nat := leNat (d.req off n)

/-- An append of a host still stands at the unit of a queue that a logical device reaches (R264, R267). -/
def State.appendHeld (s : State) (ld : Nat) : Bool := s.queues.any (fun e => !e.2.hostq.isEmpty && s.reaches ld e.1)

/-- A command is being taken: GO is 1, nothing holds it, no append is on its way, which the host may have posted before, and the
firmware runs (R390). -/
def State.taking (s : State) (ld : Nat) : Bool :=
  (s.ld ld).v && (s.ld ld).go && (s.ld ld).mbHeld.isNone && !s.appendHeld ld && s.dev.powered && decide (s.dev.state.toNat ≠ 4)

/-- A command's end: the response, the code taken, the result, and GO clear. -/
def State.answer (s : State) (ld : Nat) (code sts : Nat) (rsp : List Byte) : State :=
  s.updLd ld (fun d => { d with
    bar := Memory.writeN d.bar 0x200 ((rsp ++ List.replicate 256 0).take 256)
    cmd := BitVec.ofNat 16 code, sts := BitVec.ofNat 16 sts, go := false, mbHeld := none })

/-- A command of firmware: in recovery it is not known (R390, R403). -/
def State.command (s : State) (ld code : Nat) (f : State → State) : State :=
  if !s.taking ld then s
  else if s.dev.state = 5 then s.answer ld code 2 []
  else f s

/-- The partitions of a logical device. -/
def State.partsOf (s : State) (ld : Nat) : List Nat := setBitsOf (s.ld ld).parts partitions

/-- The doubleword of BAR 0 at an offset, as the host reads it. -/
def State.barRead (s : State) (ld off : Nat) : DWord :=
  let d := s.ld ld
  if off = 0x000 then BitVec.ofNat 64 (s.dev.svn.toNat % 256 * 2 ^ 56 + s.dev.state.toNat * 16 + s.dev.boot.toNat)
  else if off = 0x008 then BitVec.ofNat 64 (b2n d.go)
  else if off = 0x010 then BitVec.ofNat 64 (d.cmd.toNat * 2 ^ 16 + d.sts.toNat)
  else if off = 0x018 then BitVec.ofNat 64 (b2n s.dev.unmet * 2 ^ 16 + s.dev.cap.toNat)
  else if off = 0x020 then BitVec.ofNat 64 (s.dev.hbmT.toNat * 2 ^ 8 + s.dev.dieT.toNat)
  else if off = 0x028 then d.killst
  else if 0x100 ≤ off ∧ off < 0x300 then BitVec.ofNat 64 (leNat (Memory.readN d.bar off 8))
  else 0

/-- A host's write of 8 bytes of BAR 0: GO and MBREQ. -/
def State.barWrite (s : State) (ld off : Nat) (v : DWord) : State :=
  if off = 0x008 then s.updLd ld (fun d => if bit v 0 then { d with go := true } else d)
  else if 0x100 ≤ off ∧ off + 8 ≤ 0x200 then s.updLd ld (fun d => { d with bar := Memory.writeN d.bar off (leBytes 8 v.toNat) })
  else s

/-! ### The commands (R390) -/

/-- SET_OP (R399): the votes of the named partitions; none where one of them is not the device's. -/
def execSetOp (ld : Nat) (s : State) : Host.Outcome State Fault Refusal :=
  .next (s.command ld 1 (fun s =>
    let d := s.ld ld
    let mask : BitVec 32 := BitVec.ofNat 32 (d.reqNat 0 4)
    let op : BitVec 3 := BitVec.ofNat 3 (d.reqNat 4 1)
    if mask &&& ~~~d.parts != 0 then s.answer ld 1 1 []
    else ((setBitsOf mask partitions).foldl (fun s p => s.updPart p (fun q => { q with vote := op })) s).aimRails.answer ld 1 0 []))

/-- SET_STATE (R400). -/
def execSetState (ld : Nat) (s : State) : Host.Outcome State Fault Refusal :=
  .next (s.command ld 2 (fun s =>
    (State.settleState (s.updLd ld (fun d => { d with reqState := BitVec.ofNat 2 (d.reqNat 0 1) }))).answer ld 2 0 []))

/-- BIND (R308, R390), into the free entry that firmware chose. -/
def execBind (ld entry : Nat) (s : State) : Host.Outcome State Fault Refusal :=
  .next (s.command ld 3 (fun s =>
    let d := s.ld ld
    let p := d.reqNat 128 1
    if !(s.partsOf ld).contains p then s.answer ld 3 1 []
    else
      match s.bindRecord p (d.req 0 128) (BitVec.ofNat 16 (d.reqNat 130 2)) entry with
      | none => s
      | some (s, code, h) => s.answer ld 3 code (leBytes 4 h.toNat)))

/-- UNBIND (R308, R390): of the lowest partition of the device that knows the handle. -/
def execUnbind (ld : Nat) (s : State) : Host.Outcome State Fault Refusal :=
  .next (s.command ld 4 (fun s =>
    let h : BitVec 32 := BitVec.ofNat 32 ((s.ld ld).reqNat 0 4)
    match (s.partsOf ld).find? (fun p => ((s.part p).named h).isSome) with
    | none => s.answer ld 4 3 []
    | some p =>
      let r := s.unbindHandle p h
      r.1.answer ld 4 (if r.2 = 0 then 0 else 3) []))

/-- QSET (R260, R390). -/
def execQset (ld : Nat) (s : State) : Host.Outcome State Fault Refusal :=
  .next (s.command ld 5 (fun s =>
    let d := s.ld ld
    let j := d.reqNat 32 4
    let dw (k : Nat) : DWord := BitVec.ofNat 64 (d.reqNat (8 * k) 8)
    let f (q : Queue) : Queue := ((q.takeWord 0 (dw 0)).takeWord 2 (dw 2)).takeWord 3 (dw 3)
    let mine (q : Queue) : Bool := !q.v || (s.partsOf ld).contains q.part.toNat
    if streams ≤ j then s.answer ld 5 3 []
    else if !mine (s.queue j) || !mine (f (s.queue j)) then s.answer ld 5 1 []
    else
      match s.writeQueue j f with
      | none => s.answer ld 5 3 []
      | some s => s.answer ld 5 0 []))

/-- A SLOT command of one operation (R302, R390): on a slot of one of the device's partitions, or of no partition, which the lowest
partition of the device then acts for; 0x0001 where it has none. -/
def State.slotCommand (s : State) (ld op : Nat) (f : State → Nat → Nat → Nat → State × UnitDone × List Byte) : State :=
  s.command ld 6 (fun s =>
    let d := s.ld ld
    let a := d.reqNat 4 4
    let x := s.slot a
    if d.reqNat 0 1 ≠ op then s
    else if slotCount ≤ a then s.answer ld 6 0x12 []
    else if (s.partsOf ld).isEmpty || (x.own && !(s.partsOf ld).contains x.part.toNat) then s.answer ld 6 1 []
    else
      let part := if x.own then x.part.toNat else (s.partsOf ld).headD 0
      match f s part a (d.reqNat 8 8) with
      | (s, .ok, rsp) => s.answer ld 6 0 rsp
      | (s, .code c, _) => s.answer ld 6 c.toNat []
      | (s, .held idx, _) => s.updLd ld (fun d => { d with cmd := 6, mbHeld := some (part, idx) })
      | (s, .host, _) => s)

/-- SLOT_MLOAD (R298, R390). -/
def execSlotMload (ld : Nat) (s : State) : Host.Outcome State Fault Refusal :=
  .next (s.slotCommand ld 0 (fun s part a va =>
    let r := s.mloadFor part a va
    (r.1, r.2, [])))

/-- SLOT_MARM (R299, R390). -/
def execSlotMarm (ld : Nat) (s : State) : Host.Outcome State Fault Refusal :=
  .next (s.slotCommand ld 1 (fun s _ a _ =>
    let r := s.marm a
    (r.1, r.2, [])))

/-- SLOT_MDIS (R300, R390). -/
def execSlotMdis (ld : Nat) (s : State) : Host.Outcome State Fault Refusal :=
  .next (s.slotCommand ld 2 (fun s _ a _ => (s.mdis a, .ok, [])))

/-- SLOT_MSTAT (R301, R390): the value in MBRSP. -/
def execSlotMstat (ld : Nat) (s : State) : Host.Outcome State Fault Refusal :=
  .next (s.slotCommand ld 3 (fun s _ a sel => (s, .ok, leBytes 8 ((s.slot a).stat sel).toNat)))

/-- KILL (R384): the context in each partition of the device; the kill code is firmware's. -/
def execKill (ld : Nat) (s : State) : Host.Outcome State Fault Refusal :=
  .next (s.command ld 7 (fun s =>
    let c : BitVec 16 := BitVec.ofNat 16 ((s.ld ld).reqNat 0 2)
    let code := Config.freeByte s.fresh
    ((s.partsOf ld).foldl (fun s p => s.killContext p c code) (s.takeFresh 1)).answer ld 7 0 []))

/-- QTAB (R319, R390). -/
def execQtab (ld : Nat) (s : State) : Host.Outcome State Fault Refusal :=
  .next (s.command ld 8 (fun s =>
    let d := s.ld ld
    let p := d.reqNat 0 1
    let k := d.reqNat 1 1
    let v : DWord := BitVec.ofNat 64 (d.reqNat 8 8)
    if !(s.partsOf ld).contains p then s.answer ld 8 1 []
    else if 7 < k ∨ bits v 0 18 ≠ 0 then s.answer ld 8 3 []
    else (s.writeQuantum p k v).answer ld 8 0 []))

/-- IMAGE (R390, R403): in recovery only. -/
def execImage (ld : Nat) (s : State) : Host.Outcome State Fault Refusal :=
  if !s.taking ld then .next s
  else if s.dev.state ≠ 5 then .next (s.answer ld 0xF0 2 [])
  else
    let d := s.ld ld
    let s := { s with dev := { s.dev with image := Memory.writeN s.dev.image (d.reqNat 0 4) (d.req 4 252) } }
    .next (s.answer ld 0xF0 0 [])

/-- A command of a code that R390 does not give, or a SLOT of an operation that it does not give, is unknown: 0x0002 (log 71). -/
def State.badCommand (s : State) (ld code : Nat) : State :=
  let known := decide (1 ≤ code) && decide (code ≤ 8) || code == 0xF0
  if s.taking ld && (!known || (code == 6 && decide (3 < (s.ld ld).reqNat 0 1))) then s.answer ld code 2 [] else s

/-! ### The hosts' accesses (R388, R391) -/

/-- The partition of a logical device, one of its PARTS, inside whose slices a range of HBM lies whole (R388, R391). -/
def State.hdmPart (s : State) (ld dev size : Nat) : Option Nat :=
  let slice (a : Nat) : Nat := a / 0x180000000
  if size = 0 || decide (0x6000000000 < dev + size) then none
  else firstBelow partitions (fun p => (s.part p).v && (s.ld ld).parts.getLsbD p
    && (List.range (slice (dev + size - 1) + 1 - slice dev)).all (fun i => (s.part p).slices.getLsbD (slice dev + i)))

/-- The partition and the device address that an HDM decoder gives for `n` bytes at a host address, on a CXL port that answers: all of
them inside the decoder's range, and the range inside one partition's slices. -/
def State.hdmPa (s : State) (ld hpa n : Nat) : Option (Nat × Nat) :=
  let d := s.ld ld
  match d.hdm with
  | none => none
  | some (base, size, dev) =>
    if d.v && s.answers && (s.portOf ld).mode == .cxl && decide (base ≤ hpa) && decide (hpa + n ≤ base + size) then
      (s.hdmPart ld dev size).map (fun p => (p, dev + (hpa - base)))
    else none

/-- The bytes of an access. -/
def accessLen : CxlAccess → Nat
  | .read n => n
  | .write data => data.length

/-- HOST_CXL_MEM_ACCESS (R391): performed at the L2 slices of the line, under key id 0. -/
def execHostCxlMemAccess (ld hpa : Nat) (x : CxlAccess) (s : State) : Host.Outcome State Fault Refusal :=
  match s.hdmPa ld hpa (accessLen x) with
  | none => .next s
  | some (p, pa) =>
    match x with
    | .write data => .next (s.physWrite p pa 0 data)
    | .read n => .next ((pieces pa n).foldl (fun s y => (s.devRead (Acc.plain p (pa + y.1)) y.2).1) s)

/-- HOST_ATOMICOP_TO_BAR (R388): answered with Unsupported Request, and nothing changes. -/
def execHostAtomicopToBar (_ld : Nat) (s : State) : Host.Outcome State Fault Refusal := .next s

end Sys2Proof.Machine
end

