-- ==== Sys2Proof/Machine/Acts.lean ====
section
/-!
DEFINITION. Acts of the outside and of firmware that no row of the opcode table names: hosts' accesses to their own memory, errors,
sensors, bring-up (08 R188, R193, 14 R331, R334, 17 R389, R390, R402, R403; log 2, log 71).
-/

namespace Sys2Proof.Machine

/-! ### Hosts in their own memory (R393, R417, R420) -/

/-- A host takes back the lines of its memory that it is about to change from the device's host-line cache (R393). -/
def State.reclaim (s : State) (ld addr n : Nat) : State :=
  { s with owned := s.owned.filter (fun l => !meet l 128 (ld * 2 ^ 64 + addr) n) }

/-- A host stores bytes in its own memory. -/
def State.hostWrite (s : State) (ld addr : Nat) (data : List Byte) : State :=
  if 2 ^ 64 < addr + data.length then s
  else
    let s := s.reclaim ld addr data.length
    { s with host := Memory.writeN s.host (ld * 2 ^ 64 + addr) data }

/-- A host performs an atomic of 32 or 64 bits in its own memory. -/
def State.hostAtomic (s : State) (ld addr : Nat) (dbl : Bool) (op : AOp) (b c : DWord) : State :=
  let n := if dbl then 8 else 4
  match op.apply dbl (BitVec.ofNat 64 (leNat (Memory.readN s.host (ld * 2 ^ 64 + addr) n))) b c with
  | none => s.reclaim ld addr n
  | some v => s.hostWrite ld addr (leBytes n v.toNat)

/-- A host allocates page requests to a logical device, at most 512 (R334). -/
def State.allocPri (s : State) (ld n : Nat) : State := s.updLd ld (fun d => { d with priAlloc := min n 512 })

/-! ### Uncorrectable errors (R193, R392) -/

/-- A line of memory is in error: an HBM line, or one of the pool that its next read finds failed or unanswered. -/
def State.memError (s : State) (pa : Nat) : State :=
  if inHbm pa || inCxl pa then { s with bad := s.bad.set false (s.memAt (lineOf pa)) true } else s

/-- The array of a slice has lost a line that it holds. -/
def State.sliceError (s : State) (part pa : Nat) : State :=
  { s with l2 := s.l2.upd (s.l2Key (Acc.plain part pa)) (fun ln => { ln with err := true }) }

/-! ### Firmware and sensors -/

/-- Firmware records the size of a line as it maps its page (R188). -/
def State.setSize (s : State) (la : Nat) (code : BitVec 2) : State := { s with sizes := s.sizes.set 0 (lineOf la) code }

/-- The sensors give the hottest HBM stack and compute die; at 115 °C the package asserts its trip (R389, R402). -/
def State.temps (s : State) (hbm die : Nat) : State :=
  { s with dev := { s.dev with
      hbmT := BitVec.ofNat 8 (min 255 hbm), dieT := BitVec.ofNat 8 (min 255 die), trip := s.dev.trip || decide (115 ≤ die) } }

/-- In recovery the image that the hosts supplied is verified, and runs if it is accepted (R403). -/
def State.recover (s : State) : State :=
  if s.dev.state ≠ 5 ∨ s.dev.image = [] then s
  else
    let x := Config.recoveryImage s.dev.image
    let r := bootReason s.dev.fuseSvn (some x)
    if r = 0 then
      State.remeasure { s with dev := { s.dev with state := 1, boot := 0, svn := x.svn, digest := x.digest, image := [] } }
    else { s with dev := { s.dev with boot := r, digest := x.digest, image := [] } }

/-- A policy plug-in is loaded (R404). -/
def State.loadPlugin (s : State) (digest : BitVec 384) : State := { s with dev := { s.dev with plugins := s.dev.plugins ++ [digest] } }

/-- The state after an act that is not a row of the table. -/
def State.act (s : State) : Turn → State
  | .ev _ | .port _ | .own => s
  | .advance ns => s.idle ns
  | .hostWrite ld addr data => s.hostWrite ld addr data
  | .hostAtomic ld addr dbl op b c => s.hostAtomic ld addr dbl op b c
  | .priAlloc ld n => s.allocPri ld n
  | .badCommand ld code => s.badCommand ld code
  | .memError pa => s.memError pa
  | .sliceError part pa => s.sliceError part pa
  | .temps hbm die => s.temps hbm die
  | .setSize la code => s.setSize la code
  | .walkAhead unit part va => s.walkAhead unit part va
  | .recover => s.recover
  | .plugin digest => s.loadPlugin digest

end Sys2Proof.Machine
end

