-- ==== Sys2Proof/Machine/Counter.lean ====
section
/-!
DEFINITION. The meanings of majors 0x70 to 0x73 and the counters behind them: WAIT, CNTR, AMB, BOOST, the amber ring, boost leases,
droop, escalation (13 R316, 15 R345 to R360).
-/

namespace Sys2Proof.Machine

/-! ### WAIT, CNTR, AMB (R347 to R349, R356) -/

/-- WAIT (R347, R348): the limits are conditions of the issue; with cp 0 the lane has observed its copies, and with tl 0 its
fragment accesses, whose reads then stand before its later events (R240). -/
def execWait (x : WaitArg) (s : State) : Host.Outcome State Fault Refusal :=
  s.issue (.wait x) x.gd.holds (fun l => .ok { th := fun t => { t with
    acqStamp := max (if x.cp = 0 then l.s.stamp else t.acqStamp) (if x.tl = 0 then t.tlStamp else 0)
    early := if x.tl = 0 then t.early ++ t.earlyTl.map (fun i => (l.s.nextOp - 1, i)) else t.early
    earlyTl := if x.tl = 0 then [] else t.earlyTl } })

/-- CNTR (R349). -/
def execCntr (x : DOnly) (s : State) : Host.Outcome State Fault Refusal :=
  s.issue (.cntr x) x.gd.holds (regFx (fun l t => t.result false x.d (BitVec.ofNat 64 l.t.cnt.pack)))

/-- A core has an entry in its grove's needy queue (R354). -/
def State.needyCore (s : State) (core : Nat) : Bool := (s.grove (groveOf core)).needy.any (fun e => e.1 == coreInGrove core)

/-- AMB's value for a bough (R356). -/
def State.amber (s : State) (core bough : Nat) : Nat :=
  let c := s.core core
  c.pool + b2n (s.needyCore core) * 2 ^ 7 + (c.bough bough).wait * 2 ^ 8 + b2n (c.resv == some bough) * 2 ^ 11

/-- AMB (R356). -/
def execAmb (x : DOnly) (s : State) : Host.Outcome State Fault Refusal :=
  s.issue (.amb x) x.gd.holds (regFx (fun l t => t.result false x.d (BitVec.ofNat 64 (l.s.amber s.cur.core s.cur.bough))))

/-! ### Boost (R357, R358) -/

def boostCap : Nat := 0xFFFFF

/-- A lease is replaced or ended, and another granted: the partition after it and the µs granted. -/
def Partition.lend (p : Partition) (ctx r : Nat) : Partition × Nat :=
  let back := match p.lease.find? ctx with
    | none => p.allow.get 0 ctx
    | some ns => min (p.allow.get 0 ctx + ns / 1000) boostCap
  let g := min (min r boostCap) back
  ({ p with
    allow := p.allow.set 0 ctx (back - g)
    lease := if g = 0 then p.lease.erase ctx else p.lease.put ctx (g * 1000) }, g)

/-- One leader's request. -/
def State.boostFor (s : State) (slot : Nat) (d : Dst) (r : Nat) : State :=
  match (s.thread? slot).bind s.gridOf with
  | none => s
  | some g =>
    let x := (s.part g.part).lend g.ctx.toNat r
    (s.updPart g.part (fun _ => x.1)).updThread slot (fun t => t.result false d (BitVec.ofNat 64 x.2))

/-- BOOST (R358): leaders in ascending lane order; other lanes write 0. -/
def execBoost (x : F1) (s : State) : Host.Outcome State Fault Refusal :=
  let r := s.runLanes (.boost x) x.gd.holds (regFx (fun _ t => t.result false x.d 0))
  let leaders := r.took.zipIdx.filterMap (fun (k, j) => match s.thread? k with
    | none => none
    | some t => if t.lane = 0 then some (k, (Lane.src32 ⟨s, k, t, s.fresh + laneFree * j⟩ 0 x.a).toNat) else none)
  .next ((leaders.foldl (fun s e => s.boostFor e.1 x.d e.2) r.s).stepTraps s.cur.pc (r.took ++ r.off))

/-- BOOST_REFILL (R357): each 1 ms every context's allowance grows by 4 × WEIGHT. -/
def execBoostRefill (s : State) : Host.Outcome State Fault Refusal :=
  if s.time < s.refill + 1000000 then .next s
  else
    let grow (p : Partition) : Partition :=
      p.quanta.foldl (fun p e =>
        if e.2.v then { p with allow := p.allow.set 0 e.2.ctx.toNat (min (p.allow.get 0 e.2.ctx.toNat + 4 * e.2.weight.toNat) boostCap) }
        else p) p
    .next { s with refill := s.refill + 1000000, parts := s.parts.map (fun e => (e.1, grow e.2)) }

/-- BOOST_LEASE_EXPIRE (R357): a lease with no time left ends. -/
def execBoostLeaseExpire (part ctx : Nat) (s : State) : Host.Outcome State Fault Refusal :=
  if (s.part part).lease.find? ctx = some 0 then .next (s.updPart part (fun p => { p with lease := p.lease.erase ctx })) else .next s

/-- DROOP_STRETCH (R360): the current cycle of the grove's clock is stretched, so the next comes later. -/
def execDroopStretch (grove : Nat) (s : State) : Host.Outcome State Fault Refusal :=
  .next (s.updGrove grove (fun g => { g with rem := 0 }))

/-! ### The amber ring (R352 to R354) -/

def GroveSt.rateNow (g : GroveSt) : Nat := max 1 (min 1536 g.rate)
def GroveSt.fmaxNow (g : GroveSt) : Nat := max 64 (min 1536 g.fmax)
def GroveSt.shareNow (g : GroveSt) : Nat := max 1 (min 64 g.share)

/-- AMBCFG as written comes into force (R352). -/
def GroveSt.takeCfg (g : GroveSt) : GroveSt :=
  match g.cfgNext with
  | none => g
  | some v => { g with en := bit v 63, fmax := bits v 32 11, rate := bits v 16 11, share := bits v 0 7, cfgNext := none }

/-- A fill ends: the entry leaves, and its bough holds the core's reservation (R354). -/
def State.fillEnds (s : State) (g c : Nat) : State :=
  let gr := s.grove g
  let core := g * coresPerGrove + c
  match gr.needy with
  | [] => s
  | (d, b) :: rest =>
    if d = c && (s.core core).pool == 64 && (s.core core).resv.isNone then
      (s.updGrove g (fun x => { x with needy := rest })).updCore core (fun k => { k with resv := some b })
    else s

/-- The ring's visit to one core (R353). -/
def State.visit (s : State) (g c : Nat) : State :=
  let gr := s.grove g
  let core := g * coresPerGrove + c
  let room := 64 - (s.core core).pool
  let n := match gr.needy with
    | [] => min (min gr.float gr.shareNow) room
    | (d, _) :: _ => if d = c then min gr.float room else 0
  let s := if n = 0 then s
    else (s.updGrove g (fun x => { x with float := x.float - n })).updCore core (fun k => { k with pool := k.pool + n })
  s.fillEnds g c

/-! ### Withdrawal (R354) -/

/-- A bough holds a ready thread whose next instruction is priced, or whose next word is being fetched again. -/
def State.wantsAmber (s : State) (core bough : Nat) : Bool :=
  s.threads.any (fun e => coreOf e.1 == core && s.issueBough e.1 == bough && e.2.st == .ready && e.2.bwait.isNone
    && (match e.2.hold with
      | .coll => false
      | _ => match (s.fetch e.1 e.2).2 with
        | .word i => decide (0 < s.price core i [e.1])
        | .ask _ => ((s.core core).bough bough).want.contains e.2.pc
        | _ => false))

/-- Entries and reservations whose bough no longer wants amber are withdrawn. -/
def State.withdrawAmber (s : State) : State :=
  let s := s.groves.foldl (fun s x =>
    (s.grove x.1).needy.foldl (fun s e =>
      let core := x.1 * coresPerGrove + e.1
      if s.wantsAmber core e.2 then s
      else (s.updGrove x.1 (fun g => { g with needy := g.needy.filter (fun y => y != e) })).updCore core (fun c =>
        c.updBough e.2 (fun b => { b with wait := 0, short := [] }))) s) s
  s.cores.foldl (fun s e => match e.2.resv with
    | none => s
    | some b =>
      if s.wantsAmber e.1 b then s
      else s.updCore e.1 (fun c => { c.updBough b (fun b => { b with wait := 0, short := [] }) with resv := none })) s

/-! ### Threads held short (R353) -/

/-- Threads that are eligible but for amber, each with its core, its bough and its PC. -/
def State.shortNow (s : State) : List (Nat × Nat × Nat × DWord) :=
  let l := s.issueCands
  (l.filter (fun c => match c.word with
    | .word i =>
      let core := coreOf c.slot
      !s.affords core c.bough (s.price core i ((l.filter (together c)).map (·.slot)))
    | _ => false)).map (fun c => (coreOf c.slot, c.bough, c.slot, c.t.pc))

/-- A bough notes the threads that it holds short now; the PCs that are wanted stay so while a thread of it stands there. -/
def State.noteShort (s : State) : State :=
  let l := s.shortNow
  (distinct (l.map (fun x => (x.1, x.2.1)))).foldl (fun s e =>
    let mine := l.filter (fun x => (x.1, x.2.1) == e)
    let stands (pc : DWord) : Bool := s.threads.any (fun x => coreOf x.1 == e.1 && s.issueBough x.1 == e.2 && x.2.pc == pc)
    s.updCore e.1 (fun c => c.updBough e.2 (fun b => { b with
      short := distinct (b.short ++ mine.map (fun x => x.2.2.1)), shortRev := true
      want := distinct (mine.map (fun x => x.2.2.2) ++ b.want.filter stands) }))) s

/-- The amber state before a step: entries and reservations are withdrawn as soon as their boughs stop wanting amber, whatever brings
them back later, and the threads held short are noted (R353, R354). -/
def State.amberNow (s : State) : State := s.withdrawAmber.noteShort

/-! ### A revolution (R353) -/

/-- A revolution ends for a bough: its wait count rises where it held a thread short during it; when the count reaches 4, or stands
there, the bough enters the needy queue, unless it stands in it or holds the reservation (R353, R354). -/
def State.waitMore (s : State) (g : Nat) (e : Nat × Nat) : State :=
  let b := (s.core e.1).bough e.2
  if !b.shortRev then s.updCore e.1 (fun c => c.updBough e.2 (fun b => { b with short := if b.wait = 0 then [] else b.short }))
  else
    let s := s.updCore e.1 (fun c => c.updBough e.2 (fun b => { b with wait := min 4 (b.wait + 1), shortRev := false }))
    let me := (coreInGrove e.1, e.2)
    if 3 ≤ b.wait && !(s.grove g).needy.contains me && (s.core e.1).resv != some e.2 then
      s.updGrove g (fun x => { x with needy := x.needy ++ [me] })
    else s

/-- The boughs of a grove that have held a thread short, by core and number, ascending. -/
def State.shortBoughs (s : State) (g : Nat) : List (Nat × Nat) :=
  (s.cores.filter (fun e => groveOf e.1 == g)).flatMap (fun e =>
    ((List.range 24).filter (fun b => !(e.2.bough b).short.isEmpty || (e.2.bough b).shortRev)).map (fun b => (e.1, b)))

/-- AMBER_REVOLUTION (R353). -/
def execAmberRevolution (g : Nat) (s : State) : Host.Outcome State Fault Refusal :=
  if (s.grove g).cycle < (s.grove g).lastRev + 24 then .next s
  else
    let s := s.amberNow.updGrove g (fun x =>
      let x := x.takeCfg
      { x with float := min (x.float + x.rateNow) x.fmaxNow, lastRev := x.lastRev + 24 })
    let s := ((List.range coresPerGrove).foldl (fun s c => s.visit g c) s).noteShort
    .next ((s.shortBoughs g).foldl (fun s e => s.waitMore g e) s)

/-! ### Arbitration (R316) -/

/-- ARBITRATION_ESCALATE (R316): a request that has waited 4096 cycles is served in the class above. -/
def execArbitrationEscalate (op : Nat) (s : State) : Host.Outcome State Fault Refusal :=
  match s.op? op with
  | none => .next s
  | some o =>
    let now := s.cycleOf (coreOf o.slot)
    if o.arb = 0 ∨ now < o.since + 4096 then .next s
    else .next (s.updOp op (fun o => { o with arb := o.arb - 1, since := now }))

end Sys2Proof.Machine
end

