-- ==== Sys2Proof/Machine/Pair.lean ====
section
/-!
DEFINITION. The meanings of pair-form and literal-form words (03 R70 to R78). Each restricted opcode is its full-form equivalent
on the operands of its shape.
-/

namespace Sys2Proof.Machine

/-! ### Restricted operations (R76) -/

/-- A restricted float operation: its result and flags, round to nearest even. -/
def rfloat (op : RBin) (a b : Word) : Option (Word × Fl) :=
  match op with
  | .fadd => some (faddOf .rne a b)
  | .fsub => some (fsubOf .rne a b)
  | .fmul => some (fmulOf .rne a b)
  | .fmin => some (fminmaxOf false a b)
  | .fmax => some (fminmaxOf true a b)
  | _ => none

/-- A restricted integer operation of width W. -/
def rint (op : RBin) (w : Bool) (a b : DWord) : DWord :=
  match op with
  | .add => IOp.add.result .none w a b
  | .sub => IOp.sub.result .none w a b
  | .mul => IOp.mul.result .none w a b
  | .and => IOp.and.result .none w a b
  | .or => IOp.or.result .none w a b
  | .xor => IOp.xor.result .none w a b
  | .andn => IOp.andn.result .none w a b
  | .shl => SOp.shl.result w a b
  | .shr => SOp.shr.result w a b
  | .sar => SOp.sar.result w a b
  | .mins => IOp.min.result .s w a b
  | .minz => IOp.min.result .z w a b
  | .maxs => IOp.max.result .s w a b
  | .maxz => IOp.max.result .z w a b
  | _ => 0

/-- A restricted comparison: condition and signedness. -/
def rcmp : RCmp → Cond × Sg
  | .eq => (.eq, .none)
  | .ne => (.ne, .none)
  | .lts => (.lt, .s)
  | .ltz => (.lt, .z)
  | .les => (.le, .s)
  | .lez => (.le, .z)
  | .gts => (.gt, .s)
  | .gtz => (.gt, .z)
  | .ges => (.ge, .s)
  | .gez => (.ge, .z)

def runa : RUn → UOp
  | .mov => .mov
  | .not => .not
  | .neg => .neg

/-- A restricted binary operation of two sources; the second is read as the operation reads it. -/
def Lane.rbin (l : Lane) (op : RBin) (w : Bool) (d : Dst) (a : Src) (b : DWord) (bf : Word) : Fx :=
  match rfloat op (l.srcF 0 a) bf with
  | some r => { th := fun t => t.fresult d r }
  | none => { th := fun t => t.result w d (rint op w (l.src 0 w a) b) }

/-- A restricted comparison of 32-bit sources (R77). -/
def Lane.rcompare (l : Lane) (c : RCmp) (p : PReg) (a : Src) (b : DWord) : Fx :=
  { th := fun t => t.predResult p (cmpOf (rcmp c).1 (rcmp c).2 false (l.src 0 false a) b) }

/-- An address from a base and an offset (R75, R179). -/
def Lane.addrOff (l : Lane) (sp : Space) (base : Base) (o : DWord) : DWord :=
  match sp with
  | .g => l.base true base + o
  | _ => low32 (l.base false base + o)

def rwidth (dbl : Bool) : MW := if dbl then .d else .w

def Lane.rload (l : Lane) (dbl : Bool) (sp : Space) (d : LDst) (base : Base) (o : DWord) : LaneRes :=
  l.loadAt d (rwidth dbl) sp false false .none none (l.addrOff sp base o)

def Lane.rstore (l : Lane) (dbl scr : Bool) (data : Src) (base : Base) (o : DWord) : LaneRes :=
  let sp := if scr then Space.s else Space.g
  l.storeAt (rwidth dbl) sp .none none data (l.addrOff sp base o)

/-! ### Pair words (R70 to R73) -/

/-- One half on one lane, from the state before the word. -/
def Lane.half (l : Lane) (h : Half) : LaneRes :=
  if !RGuard.holds h.gd l.t then .ok {}
  else
    match h.op with
    | .two op d s => .ok (l.rbin op false d.toDst d.toSrc (l.src 1 false s) (l.srcF 1 s))
    | .split op d a b =>
      let b' : Src := .g (b.setWidth 8)
      .ok (l.rbin op false d (.g (a.setWidth 8)) (l.src 1 false b') (l.srcF 1 b'))
    | .cmp c p a b => .ok (l.rcompare c p (.g (a.setWidth 8)) (l.src 1 false (.g (b.setWidth 8))))
    | .una op d s => .ok { th := fun t => t.result false d ((runa op).result false (l.src 0 false s)) }
    | .ld dbl sp d base => l.rload dbl sp d base 0
    | .st dbl scr data base => l.rstore dbl scr data base 0
    | .bra imm => .ok { jump := some (relTarget l.t.pc imm.toInt) }
    | .ret => jumpTo l.t.lk (fun t => t)

/-- Two effects on one lane, the first half's writes before the second's. -/
def Fx.both (x y : Fx) : Fx :=
  { th := fun t => y.th (x.th t), ops := x.ops ++ y.ops, tlb := x.tlb ++ y.tlb, req := y.req.or x.req, jump := y.jump.or x.jump }

/-- Both halves on one lane: if either faults, neither has an effect, and the first half's fault is taken first (R73). While the first
half only waits for the host's translation, a fault of the second is taken at once (log 72: DESIGN CHOICE). -/
def pairFx (h k : Half) (l : Lane) : LaneRes :=
  match l.half h, l.half k with
  | .fault c va aux w, _ => .fault c va aux w
  | _, .fault c va aux w => .fault c va aux w
  | .ask vpn w, _ => .ask vpn w
  | _, .ask vpn w => .ask vpn w
  | .ok x, .ok y => .ok (x.both y)

def HalfOp.branches : HalfOp → Bool
  | .bra _ => true
  | _ => false

/-- A word that may hold a memory operation and a branch; `bgd` is the branch's guard: a lane where it is false goes on to the next word
and does not spawn (R73, R156). -/
def State.issueMixed (s : State) (i : Instr) (gd bgd : Thread → Bool) (branch : Bool) (f : Lane → LaneRes) :
    Host.Outcome State Fault Refusal :=
  let r := s.runLanes i gd f
  let s1 := (r.s.noteIntervals s.nextOp []).stepTraps s.cur.pc (r.took ++ r.off)
  let goes (k : Nat) : Bool := match s.thread? k with
    | none => false
    | some t => bgd t
  .next (if branch then s1.respawn (r.took.filter goes) (r.off ++ r.took.filter (fun k => !goes k)) else s1)

/-- A pair-form word (R73). -/
def execPairFormWord (h k : Half) (s : State) : Host.Outcome State Fault Refusal :=
  s.issueMixed (.pairFormWord h k) (fun _ => true) (RGuard.holds k.gd) (HalfOp.branches k.op) (pairFx h k)

/-! ### Literal words (R74, R75) -/

/-- A literal word on one lane. -/
def litFx (x : LitWord) (l : Lane) : LaneRes :=
  let ext (v : BitVec 32) : DWord := v.signExtend 64
  match x.op with
  | .bin op dbl d a lit => .ok (l.rbin op dbl d a (extW dbl (ext lit)) lit)
  | .cmp c p a lit => .ok (l.rcompare c p a (lit.setWidth 64))
  | .una op dbl d lit => .ok { th := fun t => t.result dbl d ((runa op).result dbl (extW dbl (ext lit))) }
  | .ld dbl sp d base lit => l.rload dbl sp d base (ext lit)
  | .st dbl scr data base lit => l.rstore dbl scr data base (ext lit)
  | .bra lit => .ok { jump := some (l.t.pc + ext lit) }

/-- A literal word branches. -/
def litBranches (x : LitWord) : Bool := match x.op with
  | .bra _ => true
  | _ => false

/-- A literal-form word (R75). -/
def execLiteralFormWord (x : LitWord) (s : State) : Host.Outcome State Fault Refusal :=
  s.issueMixed (.literalFormWord x) (RGuard.holds x.gd) (RGuard.holds x.gd) (litBranches x) (litFx x)

end Sys2Proof.Machine
end

