-- ==== Sys2Proof/Machine/Regs.lean ====
section
/-!
DEFINITION. Writes of registers that have no row of their own: the control window, BAR 0, the device window, the park window (13
R320, 14 R324, 15 R352, 16 R365, 17 R389, R391, R392).
-/

namespace Sys2Proof.Machine

/-- A doubleword of a byte string replaced. -/
def putDword (bs : List Byte) (i : Nat) (v : DWord) : List Byte := splice bs (8 * i) (leBytes 8 v.toNat)

/-- A doubleword of a key-table entry: the key that changes is rotated, lines under the old one being written back first (R191, R192). -/
def State.writeKey (s : State) (part k j : Nat) (v : DWord) : State :=
  let old := (s.part part).keys.get KeyEnt.blank k
  if old.words.find? j = some v then s
  else (s.flushKey part k).updPart part (fun p => { p with keys := p.keys.put k { old with words := old.words.put j v } })

/-- A write of FBDONE, whose CODE stands in the register whatever ACT is (R339). -/
def State.writeFbdone (s : State) (part : Nat) (v : DWord) : State :=
  let code : BitVec 8 := (v >>> 48).setWidth 8
  let idx := bits v 0 32
  let t := s.updPart part (fun p => { p with fbdone := keep v [(62, 2), (48, 8), (0, 32)] })
  match bits v 62 2 with
  | 0 => (t.resolveRec part idx none).getD t
  | 1 => if code = 0 then t else (t.resolveRec part idx (some code)).getD t
  | _ => t

/-- A doubleword of RWIN `n`: clearing V delivers what the window holds (R397). -/
def State.writeRwin (s : State) (part n hi : Nat) (v : DWord) : State :=
  let old : BitVec 128 := (s.part part).rwin.get 0 n
  if hi = 1 then s.updPart part (fun p => { p with rwin := p.rwin.put n (setBits old 64 64 (keep v [(9, 55), (0, 6)]).toNat) })
  else
    let s := if bit old 63 && !bit v 63 then s.clearRwin part n else s
    s.updPart part (fun p => { p with rwin := p.rwin.put n (setBits old 0 64 (keep v [(63, 1), (0, 24)]).toNat) })

/-- The registers of a partition's control window below 0x200. -/
def State.writeReg (s : State) (part off : Nat) (v : DWord) : State :=
  let up (f : Partition → Partition) : State := s.updPart part f
  if off = 0x00 then up (fun p => { p with policy := v.setWidth 6 })
  else if off = 0x08 then up (fun p => { p with ttb := keep v [(16, 36)] })
  else if off = 0x10 then up (fun p => { p with trc := keep v [(43, 21)] })
  else if off = 0x18 then up (fun p => { p with budg := v })
  else if off = 0x38 then
    let s := up (fun p => { p with fbcfg := keep v [(9, 55)] })
    s.drainRecs part ((s.part part).frecs.length + 1)
  else if off = 0x48 then s.writeFbdone part v
  else if off = 0x50 then up (fun p => { p with fbdes := keep v [(0, 10)] })
  else if off = 0x68 then up (fun p => { p with hrda := keep v [(0, 25)] })
  else if off = 0x88 then up (fun p => { p with rbcfg := keep v [(20, 32), (8, 8), (0, 5)] })
  else if off = 0x98 then up (fun p => { p with fabcfg := keep v [(0, 24)] })
  else if off = 0xA0 then up (fun p => { p with canq := setBits p.canq 0 64 v.toNat })
  else if off = 0xA8 then up (fun p => { p with canq := setBits p.canq 64 64 (keep v [(0, 12)]).toNat })
  else if 0xB0 ≤ off ∧ off < 0xF0 then s.writeRwin part ((off - 0xB0) / 16) ((off - 0xB0) / 8 % 2) v
  else if 0x100 ≤ off ∧ off < 0x140 then
    up (fun p => { p with svdata := putDword ((p.svdata ++ List.replicate 64 0).take 64) ((off - 0x100) / 8) v })
  else if off = 0x148 then up (fun p => { p with svteam := keep v [(0, 32)] })
  else if off = 0x188 then up (fun p => { p with slarg := v })
  else if off = 0x1A8 then up (fun p => { p with lbaddr := keep v [(0, 52)] })
  else s

/-- A partition's control window: what has no row of its own (R320). -/
def State.writeWindow (s : State) (part off : Nat) (v : DWord) : State :=
  if !(s.part part).v then s
  else if off < 0x200 then s.writeReg part off v
  else if off < 0x400 then
    match (s.part part).groveList[(off - 0x200) / 16]? with
    | none => s
    | some g => if off % 16 = 0 then s.updGrove g (fun x => { x with cfgNext := some (keep v [(63, 1), (32, 11), (16, 11), (0, 7)]) }) else s
  else if 0x800 ≤ off ∧ off < 0xC00 then s.writeKey part ((off - 0x800) / 64) ((off - 0x800) / 8 % 8) v
  else if 0x100000 ≤ off ∧ off < 0x200000 then (if off % 256 = 128 then s.writeLentry part ((off - 0x100000) / 256) v else s)
  else if 0x200000 ≤ off ∧ off < 0x208000 then s.writeSlot part ((off - 0x200000) / 8) v
  else s

/-- A core's park window: PKIE, PKSEL and PKCMDM (R365). -/
def State.writeParkReg (s : State) (core off : Nat) (v : DWord) : State :=
  if off = 0x08 then s.updCore core (fun c => { c with pkie := v.setWidth 2 })
  else if off = 0x10 then s.updCore core (fun c => { c with pksel := v.setWidth 9 })
  else if 0x40 ≤ off ∧ off < 0x80 then s.updCore core (fun c => { c with pkcmdm := setBits c.pkcmdm (64 * ((off - 0x40) / 8)) 64 v.toNat })
  else s

/-- A field of an HDM decoder: host base, size, device base (R391). -/
def LDev.writeHdm (d : LDev) (k : Nat) (v : Nat) : LDev :=
  let (b, n, a) := d.hdm.getD (0, 0, 0)
  { d with hdm := some (if k = 0 then (v, n, a) else if k = 1 then (b, v, a) else (b, n, v)) }

/-- CONTROL_REGISTER_WRITE (R320): below 2^24 the partition's control window; from 2^24 on BAR 0 of each logical device, 4096 bytes
each; from 2^25 TIERMAP; from 2^26 the HDM decoders, 32 bytes each; from 2^27 the park windows, 64 KiB each (log 42). -/
def execControlRegisterWrite (part off : Nat) (v : DWord) (s : State) : Host.Outcome State Fault Refusal :=
  if off % 8 ≠ 0 then .next s
  else if off < 2 ^ 24 then .next (s.writeWindow part off v)
  else if off < 2 ^ 25 then
    let ld := (off - 2 ^ 24) / 4096
    .next (if (s.ld ld).v then s.barWrite ld (off % 4096) v else s)
  else if off < 2 ^ 26 then
    let i := (off - 2 ^ 25) / 8
    .next (if i < 18 then { s with tiermap := s.tiermap.put i (keep v [(61, 3), (36, 16)]) } else s)
  else if off < 2 ^ 27 then
    let i := off - 2 ^ 26
    .next (if i / 32 < 16 ∧ i % 32 / 8 < 3 then s.updLd (i / 32) (fun d => d.writeHdm (i % 32 / 8) v.toNat) else s)
  else
    let c := (off - 2 ^ 27) / 65536
    .next (if c < 768 then s.writeParkReg c (off % 65536) v else s)

/-! ### What firmware reads -/

/-- The doubleword of a control window at an offset; a key reads zero, and so does an offset with no register (R320). -/
def State.windowRead (s : State) (part off : Nat) : DWord :=
  let p := s.part part
  if off = 0x00 then p.policy.setWidth 64
  else if off = 0x08 then p.ttb
  else if off = 0x10 then p.trc
  else if off = 0x18 then p.budg
  else if off = 0x20 then p.htc
  else if off = 0x28 then p.tlbi
  else if off = 0x30 then BitVec.ofNat 64 (b2n p.tlbBusy)
  else if off = 0x38 then p.fbcfg
  else if off = 0x40 then p.head ++ p.tail
  else if off = 0x48 then p.fbdone
  else if off = 0x50 then p.fbdes
  else if off = 0x58 then p.prireq
  else if off = 0x60 then (s.prirsp part).setWidth 64
  else if off = 0x68 then p.hrda
  else if off = 0x70 then p.hrdv
  else if off = 0x78 then p.vacate
  else if off = 0x80 then s.vacst part
  else if off = 0x88 then p.rbcfg
  else if off = 0x90 then p.killst
  else if off = 0x98 then p.fabcfg
  else if 0xA0 ≤ off ∧ off < 0xB0 then BitVec.ofNat 64 (bits p.canq (8 * (off - 0xA0)) 64)
  else if 0xB0 ≤ off ∧ off < 0xF0 then BitVec.ofNat 64 (bits (p.rwin.get 0 ((off - 0xB0) / 16)) (8 * (off % 16)) 64)
  else if 0x100 ≤ off ∧ off < 0x140 then BitVec.ofNat 64 (leNat ((p.svdata.drop (off - 0x100)).take 8))
  else if off = 0x140 then p.svreply
  else if off = 0x148 then p.svteam
  else if off = 0x150 then p.svst.setWidth 64
  else if off = 0x180 then p.slcmd
  else if off = 0x188 then p.slarg
  else if off = 0x190 then p.slres
  else if off = 0x198 then BitVec.ofNat 64 (b2n p.slBusy * 2 ^ 63 + p.slst.toNat)
  else if off = 0x1A0 then p.lbcmd
  else if off = 0x1A8 then p.lbaddr
  else if off = 0x1B0 then p.lbres
  else if 0x200 ≤ off ∧ off < 0x400 then
    match p.groveList[(off - 0x200) / 16]? with
    | none => 0
    | some g =>
      if off % 16 = 0 then (s.grove g).cfg
      else BitVec.ofNat 64 ((s.grove g).float * 2 ^ 32 + maskOf ((s.grove g).needy.map (·.1)))
  else if 0x400 ≤ off ∧ off < 0x440 then s.entryWord part ((off - 0x400) / 8)
  else if 0x100000 ≤ off ∧ off < 0x200000 then
    let e := p.lentry ((off - 0x100000) / 256)
    let o := off % 256
    if o < 128 then BitVec.ofNat 64 (leNat ((e.bytes.drop o).take 8)) else if o = 128 then e.status else 0
  else if 0x200000 ≤ off ∧ off < 0x208000 then
    let a := (off - 0x200000) / 8
    if (s.slot a).reached part then (s.slot a).status else 0
  else if 0x400000 ≤ off ∧ off < 0x400000 + 32 * streams then
    let q := s.queue ((off - 0x400000) / 32)
    if q.reached part then q.word (off / 8 % 4) else 0
  else 0

/-- The fault marks of a thread as the view shows them: g0 to g255, then o0 to o7 (R367). -/
def Thread.markBits (t : Thread) : Nat := maskOf (t.fmark.filter (fun r => decide (r < latId)))

/-- The doubleword of the thread view of a parked thread (R367). -/
def Thread.viewRead (s : State) (k : Nat) (t : Thread) (off : Nat) : DWord :=
  let l : Lane := ⟨s, k, t, s.fresh⟩
  let g (i : Nat) : Nat := if i < s.regsOf k then (t.gVal i).toNat else 0
  if off < 0x1400 then BitVec.ofNat 64 (g ((off - 0x1000) / 4) + g ((off - 0x1000) / 4 + 1) * 2 ^ 32)
  else if off < 0x1440 then t.oVal ((off - 0x1400) / 8)
  else if off = 0x1440 then t.lat
  else if off = 0x1448 then t.preds.setWidth 64
  else if off = 0x1450 then t.lk
  else if off = 0x1458 then t.pc
  else if off = 0x1460 then BitVec.ofNat 64 t.status
  else if off = 0x1468 then t.fflags.setWidth 64
  else if off = 0x1470 then BitVec.ofNat 64 t.cnt.pack
  else if off = 0x1478 then (match t.landing with
    | none => 0
    | some x => BitVec.ofNat 64 (256 + x.toNat))
  else if off = 0x1480 then
    BitVec.ofNat 64 (t.lane + t.plane * 2 ^ 9 + t.tsize * 2 ^ 18 + ((t.park.map (·.code.toNat)).getD 0) * 2 ^ 32
      + b2n ((t.park.map (·.svc)).getD false) * 2 ^ 40)
  else if off = 0x1488 then (l.sreg .team) + (l.sreg .grid) <<< 32
  else if 0x1490 ≤ off ∧ off < 0x14B8 then BitVec.ofNat 64 (t.markBits / 2 ^ (8 * (off - 0x1490)))
  else 0

/-- BOUGH of a park record: the home bough of the lowest slot in its MASK (R366). -/
def ParkRec.bough (r : ParkRec) : Nat := ((r.mask.map slotNo).foldl Nat.min slotsPerCore) / 32

/-- The doubleword of a park record (R366). -/
def ParkRec.read (r : ParkRec) (o : Nat) : DWord :=
  if o = 0 then BitVec.ofNat 64 (2 ^ 63 + b2n r.dfr * 2 ^ 62 + r.code.toNat * 2 ^ 54 + r.bough * 2 ^ 48)
  else if o = 0x08 then r.pc
  else if o = 0x10 then r.fpc
  else if o = 0x18 then r.va
  else if o = 0x20 then r.aux
  else if 0x40 ≤ o ∧ o < 0x80 then BitVec.ofNat 64 (maskOf (r.mask.map slotNo) / 2 ^ (8 * (o - 0x40)))
  else 0

/-- The doubleword of a core's park window (R365). -/
def State.parkRead (s : State) (core off : Nat) : DWord :=
  let c := s.core core
  if off = 0x00 then c.pkip.setWidth 64
  else if off = 0x08 then c.pkie.setWidth 64
  else if off = 0x10 then c.pksel.setWidth 64
  else if 0x40 ≤ off ∧ off < 0x80 then BitVec.ofNat 64 (bits c.pkcmdm (8 * (off - 0x40)) 64)
  else if 0x100 ≤ off ∧ off < 0x500 then (match c.recs.find? ((off - 0x100) / 256) with
    | none => 0
    | some r => r.read (off % 256))
  else if 0x1000 ≤ off ∧ off < 0x1540 then
    let k := core * slotsPerCore + c.pksel.toNat
    match s.thread? k with
    | none => 0
    | some t => if t.st != .parked then 0 else t.viewRead s k off
  else 0

end Sys2Proof.Machine
end

