-- ==== Sys2Proof/Machine/Trap.lean ====
section
/-!
DEFINITION. The meanings of majors 0x74 to 0x76: TRAP, SERV, BRK (16 R370 to R372).
-/

namespace Sys2Proof.Machine

/-- TRAP (R371): the lanes take 0x62 at the word's own PC. -/
def execTrap (x : TrapArg) (s : State) : Host.Outcome State Fault Refusal :=
  s.issue (.trap x) x.gd.holds (fun l => .fault 0x62 (l.src 0 true x.a) (x.n.setWidth 64) false)

/-- BRK (R371): the lanes take 0x61. -/
def execBrk (x : BrkArg) (s : State) : Host.Outcome State Fault Refusal :=
  s.issue (.brk x) x.gd.holds (fun _ => .fault 0x61 0 (x.n.setWidth 64) false)

/-- SERV on one lane (R372): its checks, then 0x63. -/
def servFx (x : ServArg) (l : Lane) : LaneRes :=
  let b := l.base false x.a
  let mine := match l.s.team? l.t.team with
    | none => false
    | some m => m.holds b.toNat 128
  if b.toNat % 16 ≠ 0 then .fault 0x10 b 0 false
  else if !mine then .fault 0x18 b 0 false
  else .fault 0x63 b (l.src 1 false x.b) false

/-- SERV (R372): lanes that park for a service end their team's interval (R382). -/
def execServ (x : ServArg) (s : State) : Host.Outcome State Fault Refusal :=
  let r := s.runLanes (.serv x) x.gd.holds (servFx x)
  let asked := (r.faults.filter (fun (f : LFault) => f.code == (0x63 : BitVec 8) && (match r.s.thread? f.slot with
    | none => false
    | some t => t.st == .parked))).map (·.slot)
  .next ((r.s.endIntervals asked).stepTraps s.cur.pc r.off)

end Sys2Proof.Machine
end

