-- ==== Sys2Proof/Machine/Dispatch.lean ====
section
/-!
DEFINITION. What each instruction does: one arm for each constructor of `Instr`, each a direct call of its meaning.
-/

namespace Sys2Proof.Machine

/-- One instruction word on the issuing set, or one step of an agent or of the outside. -/
def exec (i : Instr) (s : State) : Host.Outcome State Fault Refusal :=
  match i with
  | .add x => Sys2Proof.Machine.execAdd x s
  | .sub x => Sys2Proof.Machine.execSub x s
  | .mul x => Sys2Proof.Machine.execMul x s
  | .mulh x => Sys2Proof.Machine.execMulh x s
  | .mad x => Sys2Proof.Machine.execMad x s
  | .div x => Sys2Proof.Machine.execDiv x s
  | .rem x => Sys2Proof.Machine.execRem x s
  | .and x => Sys2Proof.Machine.execAnd x s
  | .or x => Sys2Proof.Machine.execOr x s
  | .xor x => Sys2Proof.Machine.execXor x s
  | .andn x => Sys2Proof.Machine.execAndn x s
  | .orn x => Sys2Proof.Machine.execOrn x s
  | .not x => Sys2Proof.Machine.execNot x s
  | .shl x => Sys2Proof.Machine.execShl x s
  | .shr x => Sys2Proof.Machine.execShr x s
  | .sar x => Sys2Proof.Machine.execSar x s
  | .rol x => Sys2Proof.Machine.execRol x s
  | .ror x => Sys2Proof.Machine.execRor x s
  | .shf x => Sys2Proof.Machine.execShf x s
  | .min x => Sys2Proof.Machine.execMin x s
  | .max x => Sys2Proof.Machine.execMax x s
  | .abs x => Sys2Proof.Machine.execAbs x s
  | .neg x => Sys2Proof.Machine.execNeg x s
  | .popc x => Sys2Proof.Machine.execPopc x s
  | .clz x => Sys2Proof.Machine.execClz x s
  | .ctz x => Sys2Proof.Machine.execCtz x s
  | .brev x => Sys2Proof.Machine.execBrev x s
  | .bfx x => Sys2Proof.Machine.execBfx x s
  | .bfi x => Sys2Proof.Machine.execBfi x s
  | .bperm x => Sys2Proof.Machine.execBperm x s
  | .sel x => Sys2Proof.Machine.execSel x s
  | .mov x => Sys2Proof.Machine.execMov x s
  | .lea x => Sys2Proof.Machine.execLea x s
  | .cmp x => Sys2Proof.Machine.execCmp x s
  | .pand x => Sys2Proof.Machine.execPand x s
  | .por x => Sys2Proof.Machine.execPor x s
  | .pxor x => Sys2Proof.Machine.execPxor x s
  | .pnot x => Sys2Proof.Machine.execPnot x s
  | .pmov x => Sys2Proof.Machine.execPmov x s
  | .gets x => Sys2Proof.Machine.execGets x s
  | .sets x => Sys2Proof.Machine.execSets x s
  | .fadd x => Sys2Proof.Machine.execFadd x s
  | .fsub x => Sys2Proof.Machine.execFsub x s
  | .fmul x => Sys2Proof.Machine.execFmul x s
  | .ffma x => Sys2Proof.Machine.execFfma x s
  | .fdiv x => Sys2Proof.Machine.execFdiv x s
  | .fscale x => Sys2Proof.Machine.execFscale x s
  | .fmin x => Sys2Proof.Machine.execFmin x s
  | .fmax x => Sys2Proof.Machine.execFmax x s
  | .fcmp x => Sys2Proof.Machine.execFcmp x s
  | .fclass x => Sys2Proof.Machine.execFclass x s
  | .frcp x => Sys2Proof.Machine.execFrcp x s
  | .fsqrt x => Sys2Proof.Machine.execFsqrt x s
  | .frsq x => Sys2Proof.Machine.execFrsq x s
  | .fexp2 x => Sys2Proof.Machine.execFexp2 x s
  | .flog2 x => Sys2Proof.Machine.execFlog2 x s
  | .fsin x => Sys2Proof.Machine.execFsin x s
  | .fcos x => Sys2Proof.Machine.execFcos x s
  | .ftanh x => Sys2Proof.Machine.execFtanh x s
  | .hfma2 x => Sys2Proof.Machine.execHfma2 x s
  | .bfma2 x => Sys2Proof.Machine.execBfma2 x s
  | .hadd2 x => Sys2Proof.Machine.execHadd2 x s
  | .hmul2 x => Sys2Proof.Machine.execHmul2 x s
  | .doth2 x => Sys2Proof.Machine.execDoth2 x s
  | .cvt x => Sys2Proof.Machine.execCvt x s
  | .pack x => Sys2Proof.Machine.execPack x s
  | .unpack x => Sys2Proof.Machine.execUnpack x s
  | .fmtq x => Sys2Proof.Machine.execFmtq x s
  | .dot8 x => Sys2Proof.Machine.execDot8 x s
  | .dot4 x => Sys2Proof.Machine.execDot4 x s
  | .mma x => Sys2Proof.Machine.execMma x s
  | .mmas x => Sys2Proof.Machine.execMmas x s
  | .mzero x => Sys2Proof.Machine.execMzero x s
  | .mfence x => Sys2Proof.Machine.execMfence x s
  | .ldfr x => Sys2Proof.Machine.execLdfr x s
  | .stfr x => Sys2Proof.Machine.execStfr x s
  | .mcvt x => Sys2Proof.Machine.execMcvt x s
  | .mtrn x => Sys2Proof.Machine.execMtrn x s
  | .bra x => Sys2Proof.Machine.execBra x s
  | .call x => Sys2Proof.Machine.execCall x s
  | .brx x => Sys2Proof.Machine.execBrx x s
  | .callx x => Sys2Proof.Machine.execCallx x s
  | .ret x => Sys2Proof.Machine.execRet x s
  | .pad x => Sys2Proof.Machine.execPad x s
  | .rejoin x => Sys2Proof.Machine.execRejoin x s
  | .yld x => Sys2Proof.Machine.execYld x s
  | .nop x => Sys2Proof.Machine.execNop x s
  | .exit x => Sys2Proof.Machine.execExit x s
  | .tcall x => Sys2Proof.Machine.execTcall x s
  | .tcalls x => Sys2Proof.Machine.execTcalls x s
  | .tret x => Sys2Proof.Machine.execTret x s
  | .tbar x => Sys2Proof.Machine.execTbar x s
  | .tvote x => Sys2Proof.Machine.execTvote x s
  | .txch x => Sys2Proof.Machine.execTxch x s
  | .tmigr x => Sys2Proof.Machine.execTmigr x s
  | .glaunch x => Sys2Proof.Machine.execGlaunch x s
  | .ld x => Sys2Proof.Machine.execLd x s
  | .st x => Sys2Proof.Machine.execSt x s
  | .lda x => Sys2Proof.Machine.execLda x s
  | .stl x => Sys2Proof.Machine.execStl x s
  | .atom x => Sys2Proof.Machine.execAtom x s
  | .red x => Sys2Proof.Machine.execRed x s
  | .fence x => Sys2Proof.Machine.execFence x s
  | .pref x => Sys2Proof.Machine.execPref x s
  | .disc x => Sys2Proof.Machine.execDisc x s
  | .clean x => Sys2Proof.Machine.execClean x s
  | .cpy x => Sys2Proof.Machine.execCpy x s
  | .cpyt x => Sys2Proof.Machine.execCpyt x s
  | .cpyg x => Sys2Proof.Machine.execCpyg x s
  | .bari x => Sys2Proof.Machine.execBari x s
  | .bara x => Sys2Proof.Machine.execBara x s
  | .barx x => Sys2Proof.Machine.execBarx x s
  | .barw x => Sys2Proof.Machine.execBarw x s
  | .waitany x => Sys2Proof.Machine.execWaitany x s
  | .waitall x => Sys2Proof.Machine.execWaitall x s
  | .ffr x => Sys2Proof.Machine.execFfr x s
  | .emit x => Sys2Proof.Machine.execEmit x s
  | .qrd x => Sys2Proof.Machine.execQrd x s
  | .qlen x => Sys2Proof.Machine.execQlen x s
  | .mload x => Sys2Proof.Machine.execMload x s
  | .marm x => Sys2Proof.Machine.execMarm x s
  | .mdis x => Sys2Proof.Machine.execMdis x s
  | .mstat x => Sys2Proof.Machine.execMstat x s
  | .wait x => Sys2Proof.Machine.execWait x s
  | .cntr x => Sys2Proof.Machine.execCntr x s
  | .amb x => Sys2Proof.Machine.execAmb x s
  | .boost x => Sys2Proof.Machine.execBoost x s
  | .trap x => Sys2Proof.Machine.execTrap x s
  | .brk x => Sys2Proof.Machine.execBrk x s
  | .serv x => Sys2Proof.Machine.execServ x s
  | .pairFormWord h1 h2 => Sys2Proof.Machine.execPairFormWord h1 h2 s
  | .literalFormWord x => Sys2Proof.Machine.execLiteralFormWord x s
  | .permitRetry slot => Sys2Proof.Machine.execPermitRetry slot s
  | .loadComplete op => Sys2Proof.Machine.execLoadComplete op s
  | .storePerformed op => Sys2Proof.Machine.execStorePerformed op s
  | .atomicPerformed op => Sys2Proof.Machine.execAtomicPerformed op s
  | .fragmentAccessComplete op => Sys2Proof.Machine.execFragmentAccessComplete op s
  | .matrixEntryAdmit core => Sys2Proof.Machine.execMatrixEntryAdmit core s
  | .matrixGrant copse => Sys2Proof.Machine.execMatrixGrant copse s
  | .matrixComplete copse entry => Sys2Proof.Machine.execMatrixComplete copse entry s
  | .copyStart core => Sys2Proof.Machine.execCopyStart core s
  | .copyComplete op => Sys2Proof.Machine.execCopyComplete op s
  | .tcallEntryGrant team ctx => Sys2Proof.Machine.execTcallEntryGrant team ctx s
  | .regroupReadmit core rec => Sys2Proof.Machine.execRegroupReadmit core rec s
  | .rejoinHoldTimeout slot => Sys2Proof.Machine.execRejoinHoldTimeout slot s
  | .yieldBackoffEnd slot => Sys2Proof.Machine.execYieldBackoffEnd slot s
  | .pollBackoffEnd slot => Sys2Proof.Machine.execPollBackoffEnd slot s
  | .teamMigration team => Sys2Proof.Machine.execTeamMigration team s
  | .teamRetire team => Sys2Proof.Machine.execTeamRetire team s
  | .gridRetire grid => Sys2Proof.Machine.execGridRetire grid s
  | .gridCreate req gid => Sys2Proof.Machine.execGridCreate req gid s
  | .placerStep part => Sys2Proof.Machine.execPlacerStep part s
  | .amberRevolution grove => Sys2Proof.Machine.execAmberRevolution grove s
  | .boostRefill => Sys2Proof.Machine.execBoostRefill s
  | .boostLeaseExpire part ctx => Sys2Proof.Machine.execBoostLeaseExpire part ctx s
  | .droopStretch grove => Sys2Proof.Machine.execDroopStretch grove s
  | .arbitrationEscalate op => Sys2Proof.Machine.execArbitrationEscalate op s
  | .hostAppend ld stream off data => Sys2Proof.Machine.execHostAppend ld stream off data s
  | .emitAccept op => Sys2Proof.Machine.execEmitAccept op s
  | .stalledAppendAdmit stream => Sys2Proof.Machine.execStalledAppendAdmit stream s
  | .qrdServe op => Sys2Proof.Machine.execQrdServe op s
  | .qlenSample op => Sys2Proof.Machine.execQlenSample op s
  | .queueTableWrite part stream k v => Sys2Proof.Machine.execQueueTableWrite part stream k v s
  | .fbptrHeadWrite part head => Sys2Proof.Machine.execFbptrHeadWrite part head s
  | .fbdoneReplay part idx => Sys2Proof.Machine.execFbdoneReplay part idx s
  | .fbdoneFail part idx code => Sys2Proof.Machine.execFbdoneFail part idx code s
  | .mloadAtUnit op => Sys2Proof.Machine.execMloadAtUnit op s
  | .marmAtUnit op => Sys2Proof.Machine.execMarmAtUnit op s
  | .mdisAtUnit op => Sys2Proof.Machine.execMdisAtUnit op s
  | .mstatSample op => Sys2Proof.Machine.execMstatSample op s
  | .rowanTakeEvent slot => Sys2Proof.Machine.execRowanTakeEvent slot s
  | .rowanTakeTimer slot => Sys2Proof.Machine.execRowanTakeTimer slot s
  | .watermarkExpire slot => Sys2Proof.Machine.execWatermarkExpire slot s
  | .rowanEmitAccepted slot => Sys2Proof.Machine.execRowanEmitAccepted slot s
  | .rowanRoomFreed slot => Sys2Proof.Machine.execRowanRoomFreed slot s
  | .candidateMove slot seq => Sys2Proof.Machine.execCandidateMove slot seq s
  | .tlbiStart part v => Sys2Proof.Machine.execTlbiStart part v s
  | .tlbiComplete part => Sys2Proof.Machine.execTlbiComplete part s
  | .translationCompletion ld pasid vpn ans => Sys2Proof.Machine.execTranslationCompletion ld pasid vpn ans s
  | .invalidateRequest ld pasid vpn log => Sys2Proof.Machine.execInvalidateRequest ld pasid vpn log s
  | .invalidationCompletion ld => Sys2Proof.Machine.execInvalidationCompletion ld s
  | .priReqSend part v => Sys2Proof.Machine.execPriReqSend part v s
  | .priReqSelect part v => Sys2Proof.Machine.execPriReqSelect part v s
  | .prgResponse part prg ans => Sys2Proof.Machine.execPrgResponse part prg ans s
  | .heatSweep part line => Sys2Proof.Machine.execHeatSweep part line s
  | .htcWrite part v => Sys2Proof.Machine.execHtcWrite part v s
  | .hrdvRead part => Sys2Proof.Machine.execHrdvRead part s
  | .pkcmdReplay core rec => Sys2Proof.Machine.execPkcmdReplay core rec s
  | .pkcmdSkip core rec => Sys2Proof.Machine.execPkcmdSkip core rec s
  | .pkcmdKill core rec => Sys2Proof.Machine.execPkcmdKill core rec s
  | .pkcmdDetach core rec => Sys2Proof.Machine.execPkcmdDetach core rec s
  | .pkipClear core v => Sys2Proof.Machine.execPkipClear core v s
  | .threadViewWrite core off v wide => Sys2Proof.Machine.execThreadViewWrite core off v wide s
  | .svreplyDeliver part v => Sys2Proof.Machine.execSvreplyDeliver part v s
  | .slcmdMload part slot => Sys2Proof.Machine.execSlcmdMload part slot s
  | .slcmdMarm part slot => Sys2Proof.Machine.execSlcmdMarm part slot s
  | .slcmdMdis part slot => Sys2Proof.Machine.execSlcmdMdis part slot s
  | .slcmdMstat part slot => Sys2Proof.Machine.execSlcmdMstat part slot s
  | .lbcmdBind part ctx entry => Sys2Proof.Machine.execLbcmdBind part ctx entry s
  | .lbcmdUnbind part => Sys2Proof.Machine.execLbcmdUnbind part s
  | .vacateGo part v => Sys2Proof.Machine.execVacateGo part v s
  | .vacateRelease part v => Sys2Proof.Machine.execVacateRelease part v s
  | .quantumEntryWrite part k v => Sys2Proof.Machine.execQuantumEntryWrite part k v s
  | .quantumExpire part => Sys2Proof.Machine.execQuantumExpire part s
  | .contextSave part ctx => Sys2Proof.Machine.execContextSave part ctx s
  | .contextRestore part ctx => Sys2Proof.Machine.execContextRestore part ctx s
  | .teamSave team => Sys2Proof.Machine.execTeamSave team s
  | .teamRestore part => Sys2Proof.Machine.execTeamRestore part s
  | .rollbackCheckpoint team => Sys2Proof.Machine.execRollbackCheckpoint team s
  | .rollback team => Sys2Proof.Machine.execRollback team s
  | .setOp ld => Sys2Proof.Machine.execSetOp ld s
  | .setState ld => Sys2Proof.Machine.execSetState ld s
  | .bind ld entry => Sys2Proof.Machine.execBind ld entry s
  | .unbind ld => Sys2Proof.Machine.execUnbind ld s
  | .qset ld => Sys2Proof.Machine.execQset ld s
  | .slotMload ld => Sys2Proof.Machine.execSlotMload ld s
  | .slotMarm ld => Sys2Proof.Machine.execSlotMarm ld s
  | .slotMdis ld => Sys2Proof.Machine.execSlotMdis ld s
  | .slotMstat ld => Sys2Proof.Machine.execSlotMstat ld s
  | .kill ld => Sys2Proof.Machine.execKill ld s
  | .qtab ld => Sys2Proof.Machine.execQtab ld s
  | .image ld => Sys2Proof.Machine.execImage ld s
  | .railTransitionStep reg => Sys2Proof.Machine.execRailTransitionStep reg s
  | .powerCapWrite watts => Sys2Proof.Machine.execPowerCapWrite watts s
  | .partitionTableWrite x => Sys2Proof.Machine.execPartitionTableWrite x s
  | .svnCommand => Sys2Proof.Machine.execSvnCommand s
  | .spdmRequest x => Sys2Proof.Machine.execSpdmRequest x s
  | .deviceReset img => Sys2Proof.Machine.execDeviceReset img s
  | .thermalTrip temp => Sys2Proof.Machine.execThermalTrip temp s
  | .linkTrain port mode speed => Sys2Proof.Machine.execLinkTrain port mode speed s
  | .hostCxlMemAccess ld hpa x => Sys2Proof.Machine.execHostCxlMemAccess ld hpa x s
  | .hostAtomicopToBar ld => Sys2Proof.Machine.execHostAtomicopToBar ld s
  | .cxlSnoop ld line => Sys2Proof.Machine.execCxlSnoop ld line s
  | .atomicopCompletion op ok => Sys2Proof.Machine.execAtomicopCompletion op ok s
  | .uioTimeout op => Sys2Proof.Machine.execUioTimeout op s
  | .canopyOpStart part k => Sys2Proof.Machine.execCanopyOpStart part k s
  | .canopyPutComplete n => Sys2Proof.Machine.execCanopyPutComplete n s
  | .canopyAllreduceComplete n others => Sys2Proof.Machine.execCanopyAllreduceComplete n others s
  | .canopyTimeout n => Sys2Proof.Machine.execCanopyTimeout n s
  | .canopyTransferIn x => Sys2Proof.Machine.execCanopyTransferIn x s
  | .reductionDeliver part n x => Sys2Proof.Machine.execReductionDeliver part n x s
  | .rwinClear part n => Sys2Proof.Machine.execRwinClear part n s
  | .controlRegisterWrite part off v => Sys2Proof.Machine.execControlRegisterWrite part off v s
  | .instructionFetch slot => Sys2Proof.Machine.execInstructionFetch slot s
  | .cxlCacheOwnership op granted => Sys2Proof.Machine.execCxlCacheOwnership op granted s
  | .companionCoreWrite dst key data => Sys2Proof.Machine.execCompanionCoreWrite dst key data s
  | .powerRemoval => Sys2Proof.Machine.execPowerRemoval s

end Sys2Proof.Machine
end

