-- ==== Sys2Proof/Machine/Auto.lean ====
section
/-!
DEFINITION. The order in which the model lets the device's own agents act when nothing else says which (log 4).
-/

namespace Sys2Proof.Machine

/-- The event that performs an operation. -/
def Op.event (o : Op) : Instr :=
  match o.kind with
  | .load .. => .loadComplete o.id
  | .atom .. => .atomicPerformed o.id
  | .frag .. => .fragmentAccessComplete o.id
  | .copy .. => .copyComplete o.id
  | .emit .. => .emitAccept o.id
  | .qrd .. => .qrdServe o.id
  | .qlen .. => .qlenSample o.id
  | .mload .. => .mloadAtUnit o.id
  | .marm _ => .marmAtUnit o.id
  | .mdis _ => .mdisAtUnit o.id
  | .mstat .. => .mstatSample o.id
  | _ => .storePerformed o.id

/-- A list begun at another place. -/
def rotate {α : Type} (n : Nat) (l : List α) : List α := l.drop (n % max 1 l.length) ++ l.take (n % max 1 l.length)

/-- Events of operations, class by class (R316): those of a lower class number come first. -/
def State.opEvents (s : State) (n : Nat) : List Instr :=
  [0, 1, 2, 3].flatMap (fun c => rotate n ((s.ops.filter (fun o => o.arb == c)).map Op.event))

/-- Escalations, and events of matrix entries. -/
def State.entryEvents (s : State) : List Instr :=
  s.ops.map (fun o => .arbitrationEscalate o.id)
    ++ s.ments.flatMap (fun e => [.matrixEntryAdmit e.core, .matrixGrant (copseOf e.core), .matrixComplete (copseOf e.core) e.id])

/-- Events of cores and threads. -/
def State.coreEvents (s : State) : List Instr :=
  s.cores.flatMap (fun e => (if e.2.cq.isEmpty then [] else [.copyStart e.1]) ++ e.2.regroup.map (fun r => .regroupReadmit e.1 r.1))
    ++ s.threads.flatMap (fun e =>
      (if e.2.retry.isSome || e.2.due.isSome then [.permitRetry e.1] else [])
        ++ (if e.2.rejoinSince.isSome then [.rejoinHoldTimeout e.1] else [])
        ++ (if e.2.yieldUntil.isSome then [.yieldBackoffEnd e.1] else [])
        ++ (if e.2.pollUntil.isSome then [.pollBackoffEnd e.1] else []))

/-- Events of teams and grids. A grid takes the lowest free id. -/
def State.teamEvents (s : State) : List Instr :=
  s.teams.flatMap (fun e => [.rollback e.1, .rollbackCheckpoint e.1, .teamMigration e.1, .teamSave e.1, .teamRetire e.1]
      ++ (e.2.ctxs.filter (fun c => c.2.state == 3)).map (fun c => .tcallEntryGrant e.1 c.1)
      ++ [.amberRevolution (groveOf e.2.core)])
    ++ s.grids.map (fun e => .gridRetire e.1)
    ++ s.greqs.filterMap (fun r => (firstBelow (s.grids.length + 65537) (fun g => s.gidFree r.part (BitVec.ofNat 32 g))).map (fun g =>
      .gridCreate r.id (BitVec.ofNat 32 g)))

/-- Events of a partition. -/
def State.partEvents (s : State) : List Instr :=
  (s.parts.filter (fun e => e.2.v)).flatMap (fun e =>
    [.teamRestore e.1, .placerStep e.1, .quantumExpire e.1, .tlbiComplete e.1]
      ++ (match e.2.swap with
        | some (c, false) => [.contextSave e.1 c.toNat]
        | some (c, true) => [.contextRestore e.1 c.toNat]
        | none => match s.chooseEntry e.1 with
          | none => []
          | some k => [.contextRestore e.1 (e.2.quantum k).ctx.toNat])
      ++ e.2.lease.map (fun l => .boostLeaseExpire e.1 l.1)
      ++ (List.range 4).map (fun i => .canopyOpStart e.1 i)
      ++ (if e.2.slBusy && e.2.slHeld.isNone then [.slcmdMload e.1 (bits e.2.slcmd 0 12)] else [])
      ++ (if e.2.heatOn then [.heatSweep e.1 (s.time % 0x30000)] else []))

/-- Events of queues, automata, the fabric, rails and invalidations. -/
def State.unitEvents (s : State) : List Instr :=
  (s.queues.filter (fun e => !e.2.stalled.isEmpty || e.2.stuck || !e.2.hostq.isEmpty || (e.2.held && e.2.heldBy.isNone))).map (fun e => .stalledAppendAdmit e.1)
    ++ (s.slots.filter (fun e => e.2.live)).flatMap (fun e =>
      [.rowanTakeEvent e.1, .rowanTakeTimer e.1, .watermarkExpire e.1, .rowanRoomFreed e.1, .rowanEmitAccepted e.1])
    ++ s.canops.flatMap (fun o => [.canopyPutComplete o.id, .canopyAllreduceComplete o.id (some []), .canopyTimeout o.id])
    ++ s.redparts.map (fun r => .reductionDeliver r.part r.n ⟨BitVec.ofNat 64 r.addr, r.op, r.dbl, 0, 0⟩)
    ++ [.railTransitionStep 0, .railTransitionStep 1, .railTransitionStep 2, .railTransitionStep 3, .boostRefill]
    ++ s.lds.map (fun e => .invalidationCompletion e.1)

/-- The internal events whose turn may have come: the families begin at another one each time, and within a family another event, but
for the classes of operations (log 4, log 57). -/
def State.autoCands (s : State) (n : Nat) : List Instr :=
  (rotate n [s.opEvents (n / 6), rotate (n / 6) s.entryEvents, rotate (n / 6) s.coreEvents, rotate (n / 6) s.teamEvents,
    rotate (n / 6) s.partEvents, rotate (n / 6) s.unitEvents]).flatten

/-- The first event of a list that changes the state. -/
def State.firstEffect (s : State) : List Instr → Option State
  | [] => none
  | e :: l =>
    match exec e s with
    | .next s' => if s' = s then firstEffect s l else some s'
    | _ => firstEffect s l

/-- One internal event, if some event has an effect. -/
def State.autoEvent (s : State) : Option State := s.firstEffect (s.autoCands (s.time / 2))

end Sys2Proof.Machine
end

