-- ==== Sys2Proof/Machine/Step.lean ====
section
/-!
DEFINITION. One step of the machine: the next act of the agenda; else an issue or an internal event (log 3, log 4).
-/

namespace Sys2Proof.Machine

/-- The issue that has been chosen: the word at the set's PC is executed, or its fault is taken. -/
def State.runIssue (s : State) (i : Issue) (w : Fetched) : Host.Outcome State Fault Refusal :=
  let s := ((s.notePick i).noteHolds).tick 1
  let s := match i.slots with
    | [] => s
    | k :: _ => match s.thread? k with
      | none => s
      | some t => (s.fetch k t).1
  match w with
  | .word x => exec x s
  | .bad c => .next (s.encodingFault c)
  | .fault c => .next (s.fetchFault c)
  | .ask vpn => .next (s.fetchAsk vpn)

/-- A step in the model's own order: an internal event at odd times or when nothing issues, else an issue, else a ns passes. -/
def State.ownStep (s : State) : Host.Outcome State Fault Refusal :=
  let s := s.amberNow
  let issue := s.nextIssue
  match if s.time % 2 = 1 ∨ issue.isNone then s.autoEvent else none with
  | some s' => .next (s'.idle 1)
  | none =>
    match issue with
    | some (i, w) => s.runIssue i w
    | none => .next (s.idle 1)

/-- An issue by a port that the agenda names; nothing where it has none. -/
def State.portStep (s : State) (key : Nat) : Host.Outcome State Fault Refusal :=
  let s := s.amberNow
  match s.portIssue key with
  | some (i, w) => s.runIssue i w
  | none => .next (s.clearStarveOf (fun c b => c * 4 + s.portOfBough c b == key))

/-- One step. -/
def step (s : State) : Host.Outcome State Fault Refusal :=
  match s.agenda with
  | .ev i :: l => exec i (State.amberNow { s with agenda := l })
  | .port k :: l => State.portStep { s with agenda := l } k
  | .own :: l => State.ownStep { s with agenda := l }
  | a :: l => .next (State.act { s with agenda := l } a)
  | [] => if s.dev.powered then s.ownStep else .fault .powerRemoved

/-- A state whose next step fetches and runs the word of `nbits` bits `w` (log 13). -/
def State.withFetchWord (s : State) (nbits w : Nat) : State := s.placeWord (leBytes 8 (w % 2 ^ nbits))

end Sys2Proof.Machine
end

