-- ==== Sys2Proof/Safety.lean ====
section
/-!
DEFINITION. What counts as a safe run, and the terms statements use: every map of the state in its canonical form, so that
equal machines are equal data; a lane that takes a word.
-/

namespace Sys2Proof

/-- The instructions that a thread fetches as words (03 R59 to R79); the others are steps of agents and of the outside. -/
def Instr.isWord : Instr → Bool
  | .add _ | .sub _ | .mul _ | .mulh _ | .mad _ | .div _ | .rem _ | .and _ | .or _ | .xor _ | .andn _ | .orn _
  | .not _ | .shl _ | .shr _ | .sar _ | .rol _ | .ror _ | .shf _ | .min _ | .max _ | .abs _ | .neg _ | .popc _
  | .clz _ | .ctz _ | .brev _ | .bfx _ | .bfi _ | .bperm _ | .sel _ | .mov _ | .lea _ | .cmp _ | .pand _ | .por _
  | .pxor _ | .pnot _ | .pmov _ | .gets _ | .sets _ | .fadd _ | .fsub _ | .fmul _ | .ffma _ | .fmin _ | .fmax _
  | .fcmp _ | .fclass _ | .fdiv _ | .frcp _ | .frsq _ | .fsqrt _ | .fexp2 _ | .flog2 _ | .fsin _ | .fcos _ | .ftanh _
  | .fscale _ | .hfma2 _ | .bfma2 _ | .hadd2 _ | .hmul2 _ | .cvt _ | .pack _ | .unpack _ | .dot8 _ | .dot4 _
  | .doth2 _ | .fmtq _ | .mma _ | .mmas _ | .mzero _ | .mfence _ | .ldfr _ | .stfr _ | .mcvt _ | .mtrn _ | .bra _
  | .brx _ | .call _ | .callx _ | .ret _ | .pad _ | .rejoin _ | .yld _ | .nop _ | .exit _ | .tcall _ | .tcalls _
  | .tret _ | .tbar _ | .tvote _ | .txch _ | .tmigr _ | .glaunch _ | .ld _ | .st _ | .lda _ | .stl _ | .atom _
  | .red _ | .fence _ | .pref _ | .disc _ | .clean _ | .cpy _ | .cpyt _ | .cpyg _ | .bari _ | .bara _ | .barx _
  | .barw _ | .waitany _ | .waitall _ | .ffr _ | .emit _ | .qrd _ | .qlen _ | .mload _ | .marm _ | .mdis _ | .mstat _
  | .wait _ | .cntr _ | .amb _ | .boost _ | .trap _ | .serv _ | .brk _ | .pairFormWord _ _ | .literalFormWord _ => true
  | _ => false

/-- The words that only work on the registers, predicates and flags of their lanes and end at the next word (04, 05). -/
def Instr.registerOnly : Instr → Bool
  | .add _ | .sub _ | .mul _ | .mulh _ | .mad _ | .div _ | .rem _ | .and _ | .or _ | .xor _ | .andn _ | .orn _ | .not _ => true
  | .shl _ | .shr _ | .sar _ | .rol _ | .ror _ | .shf _ | .min _ | .max _ | .abs _ | .neg _ | .popc _ | .clz _ | .ctz _ => true
  | .brev _ | .bfx _ | .bfi _ | .bperm _ | .sel _ | .mov _ | .lea _ | .cmp _ | .pand _ | .por _ | .pxor _ | .pnot _ => true
  | .pmov _ | .fadd _ | .fsub _ | .fmul _ | .ffma _ | .fmin _ | .fmax _ | .fcmp _ | .fclass _ | .fdiv _ | .frcp _ => true
  | .frsq _ | .fsqrt _ | .fexp2 _ | .flog2 _ | .fsin _ | .fcos _ | .ftanh _ | .fscale _ | .hfma2 _ | .bfma2 _ => true
  | .hadd2 _ | .hmul2 _ | .cvt _ | .pack _ | .unpack _ | .dot8 _ | .dot4 _ | .doth2 _ | .fmtq _ => true
  | _ => false

end Sys2Proof

namespace Sys2Proof.Machine

/-- Every memory of the machine is in canonical form (MEMORY: strictly rising addresses, no entry that reads as unlisted). -/
def State.memOk (s : State) : Bool := Memory.wf s.mem && Memory.wf s.scr && Memory.wf s.host

/-- A step that neither faults nor is refused, and its state. -/
def runs (s t : State) : Prop := step s = .next t

/-- A lane of the issuing set takes a word: nothing holds it back (R50), the landing check passes (R161), it meets no
deferred fault (R198), its guard holds (R62), and it is not being stepped (R369). -/
structure Takes (s : State) (i : Instr) (k : Nat) (t : Thread) : Prop where
  once : s.cur.slots.Nodup
  mem : k ∈ s.issueSet i
  thread : s.thread? k = some t
  landing : landingOk i t = true
  clear : deferHit i t = none
  on : i.on t = true
  free : t.step = false

/-- A lane of the issuing set passes a word by, its guard false (R62). -/
structure Skips (s : State) (i : Instr) (k : Nat) (t : Thread) : Prop where
  once : s.cur.slots.Nodup
  mem : k ∈ s.issueSet i
  thread : s.thread? k = some t
  landing : landingOk i t = true
  clear : deferHit i t = none
  off : i.on t = false
  free : t.step = false

/-- No lane of an issue meets a fault of its own before the word: landing, deferred fault, or step. -/
structure Quiet (s : State) (i : Instr) : Prop where
  once : s.cur.slots.Nodup
  each : ∀ k ∈ s.issueSet i, ∀ t, s.thread? k = some t → landingOk i t = true ∧ deferHit i t = none ∧ t.step = false

/-- The lane of an issue as a word's part sees it: `b` is the first of its free numbers (R141 alone reads them). -/
def State.laneAt (s : State) (k : Nat) (t : Thread) (b : Nat) : Lane := ⟨{ s with fresh := b + 3072 }, k, t, b⟩

/-- A word completes on every lane that takes it, and leaves the lane's thread in the relation `P` to the lane. -/
def Completes (i : Instr) (P : Lane → Thread → Prop) : Prop :=
  ∀ (s : State) (k : Nat) (t : Thread), Takes s i k t →
    ∃ (s' : State) (b : Nat) (u : Thread), exec i s = .next s' ∧ s'.thread? k = some u ∧ P (s.laneAt k t b) u

/-- s(n): the low W bits of `n` as two's complement (R30, R90). -/
def sOf (w : Bool) (n : Nat) : Int := if 2 ^ (wid w - 1) ≤ n then (n : Int) - 2 ^ wid w else n

/-- X(n): z(n) under `.z`, else s(n) (R90). -/
def xOf (sg : Sg) (w : Bool) (n : Nat) : Int := if sg = .z then n else sOf w n

/-- An integer mod 2^W, as a register of that width holds it (R90). -/
def modW (w : Bool) (x : Int) : DWord := BitVec.ofInt 64 (x % 2 ^ wid w)

/-- Source operand `p` of a lane as z of its W bits (R63 to R65, R90). -/
def Lane.z (l : Lane) (p : Nat) (w : Bool) (x : Src) : Nat := (l.src p w x).toNat

/-- Register `i` of the main file after a value of width W stands in a destination (R65). -/
def placedG (t : Thread) (w : Bool) (d : Dst) (v : DWord) (i : Nat) : Word :=
  match d with
  | .g j => if w ∧ i = j.toNat + 1 then (v >>> 32).setWidth 32 else if i = j.toNat then v.setWidth 32 else t.gVal i
  | _ => t.gVal i

/-- Entry `i` of the operand file after a value stands in a destination (R82). -/
def placedO (t : Thread) (d : Dst) (v : DWord) (i : Nat) : DWord :=
  match d with
  | .o j => if i = j.toNat then v else t.oVal i
  | _ => t.oVal i

/-- `u` is the thread `t` after a result `v` of width W, zero-extended: the destination and the latch hold it (R82, R83),
flags `fl` are added (R109), the PC is at the next word (R32), and nothing else has changed but the model's own account of
old values for the matrix engine. -/
structure Puts (t u : Thread) (w : Bool) (d : Dst) (v : DWord) (fl : Fl) : Prop where
  main : ∀ i, u.gVal i = placedG t w d v i
  operand : ∀ i, u.oVal i = placedO t d v i
  latch : u.lat = v
  rest : u = { t with g := u.g, o := u.o, lat := u.lat, wins := u.wins, olds := u.olds, fflags := t.fflags ||| fl, pcw := t.pcw + 1 }

/-- `u` is the thread `t` after a predicate result: the predicate and the latch hold it, nothing else has changed (R83). -/
structure PutsPred (t u : Thread) (p : PReg) (b : Bool) (fl : Fl) : Prop where
  pred : ∀ q, u.pred q = if q = p then b else t.pred q
  latch : u.lat = if b then 1 else 0
  rest : u = { t with preds := u.preds, lat := u.lat, fflags := t.fflags ||| fl, pcw := t.pcw + 1 }

/-- As `Completes`, for the states and lanes that meet a condition. -/
def CompletesWhen (i : Instr) (C : State → Nat → Thread → Prop) (P : Lane → Thread → Prop) : Prop :=
  ∀ (s : State) (k : Nat) (t : Thread), Takes s i k t → C s k t →
    ∃ (s' : State) (b : Nat) (u : Thread), exec i s = .next s' ∧ s'.thread? k = some u ∧ P (s.laneAt k t b) u

/-- As `CompletesWhen`, for what a word leaves beside its lane's thread: the relation also has the state after it. -/
def CompletesIn (i : Instr) (C : State → Nat → Thread → Prop) (P : Lane → State → Thread → Prop) : Prop :=
  ∀ (s : State) (k : Nat) (t : Thread), Takes s i k t → C s k t →
    ∃ (s' : State) (b : Nat) (u : Thread), exec i s = .next s' ∧ s'.thread? k = some u ∧ P (s.laneAt k t b) s' u

/-- A thread whose word issued an operation of a class, with its pending marks: its counter is one higher (R197, R345), the PC
is at the next word, and nothing else has changed. -/
def Thread.sent (t : Thread) (c : Cls) (marks : List RegId) : Thread :=
  { t with pcw := t.pcw + 1
           pend := t.pend ++ marks
           cnt := { ld := t.cnt.ld + (if c = .ld then 1 else 0), st := t.cnt.st + (if c = .st then 1 else 0)
                    cp := t.cnt.cp + (if c = .cp then 1 else 0), tl := t.cnt.tl + (if c = .tl then 1 else 0) } }

/-- `u` is the thread `t` after its word issued an operation: as `Thread.sent` says, but for the L1 stamp, which the first access
behind an acquiring fence renews (R183, R236). -/
def SentTo (t u : Thread) (c : Cls) (marks : List RegId) : Prop :=
  u = { t.sent c marks with renew := u.renew, acqStamp := u.acqStamp }

/-- The thread is not held until an access of its can be performed again (R368). -/
def Thread.noReplay (t : Thread) : Prop := ∀ o, t.hold ≠ .replay o

/-- A thread one of whose operations has completed: its counter is one lower, and the operation's marks are gone. -/
def Thread.got (t : Thread) (c : Cls) (marks : List RegId) : Thread :=
  { t with pend := t.pend.filter (fun r => !marks.contains r)
           cnt := { ld := t.cnt.ld - (if c = .ld then 1 else 0), st := t.cnt.st - (if c = .st then 1 else 0)
                    cp := t.cnt.cp - (if c = .cp then 1 else 0), tl := t.cnt.tl - (if c = .tl then 1 else 0) } }

/-- A word issues one operation on every lane that takes it under a condition: it is among the outstanding ones, with a number
of its own, and `P` relates lane, thread after and operation. -/
def Issues (i : Instr) (C : State → Nat → Thread → Prop) (P : Lane → Thread → Op → Prop) : Prop :=
  CompletesIn i C fun l s' u => ∃ o ∈ s'.ops, o.slot = l.slot ∧ l.s.nextOp ≤ o.id ∧ o.pc = l.t.pc ∧ o.part = l.part ∧ P l u o

/-- A step of an agent, under a condition on the state: the state it leaves. -/
def Happens (i : Instr) (C : State → Prop) (P : State → State → Prop) : Prop :=
  ∀ s, C s → ∃ s', exec i s = .next s' ∧ P s s'

/-- Only one thread has changed. -/
def OnlyThread (s s' : State) (k : Nat) (u : Thread) : Prop :=
  s'.thread? k = some u ∧ (∀ j, j ≠ k → s'.thread? j = s.thread? j) ∧ s' = { s with threads := s'.threads }

/-! ### Team collectives (07 R166 to R174) -/

/-- A slot stands in no open collective record and idles at no call. -/
def State.apart (s : State) (k : Nat) : Prop :=
  ∀ e ∈ s.teams, ∀ x ∈ e.2.ctxs, k ∉ x.2.idle ∧ ∀ r, x.2.coll = some r → ∀ a ∈ r.arrs, a.slot ≠ k

/-- A collective word that completes as it issues: every lane that the team or sub-team of `t` awaits issues it now, quietly, and
the team has no other collective or matrix entry open. -/
structure Gathers (s : State) (i : Instr) (t : Thread) : Prop where
  word : decodeWord 256 ((encode i).getD 0) = .ok i
  quiet : Quiet s i
  apart : ∀ j ∈ s.issueSet i, s.apart j
  own : ∀ e ∈ s.teams, e.1 ≠ t.team → ∀ x ∈ e.2.ctxs, ∀ j ∈ x.2.lanes, ∀ u, s.thread? j = some u → u.team ≠ t.team
  lanes : ∀ j ∈ s.issueSet i, ∀ j' ∈ s.issueSet i, ∀ u u', s.thread? j = some u → s.thread? j' = some u' →
    u.team = t.team → u'.team = t.team → u.ctx = u'.ctx → u.lane = u'.lane → j = j'
  team : ∃ m c, s.team? t.team = some m ∧ SMap.find? m.ctxs t.ctx = some c ∧ m.opens = [] ∧ (∀ e ∈ m.ctxs, e.2.coll = none)
    ∧ ∀ j ∈ c.lanes, s.gone j = true ∨ j ∈ s.issueSet i

/-- A contributor to the collective that a lane with thread `t` issues (R167): a lane of the issue, of the same team or
sub-team, whose guard holds. -/
def State.contributes (s : State) (i : Instr) (t : Thread) (j : Nat) (u : Thread) : Prop :=
  j ∈ s.issueSet i ∧ s.thread? j = some u ∧ u.team = t.team ∧ u.ctx = t.ctx ∧ i.on u = true

/-- A call of a team or sub-team can split into `subs`: callee, context-table entry, address, lanes (R171 to R174). -/
def State.splitsInto (s : State) (team ctx : Nat) (byWeight : Bool) (cnt : Nat) (subs : List (Nat × Nat × DWord × List Nat)) : Prop :=
  ∃ (m : Team) (c : CtxEnt) (r : Coll) (s2 : State) (pcs : List DWord), s.team? team = some m ∧ SMap.find? m.ctxs ctx = some c
    ∧ c.coll = some r ∧ s.collReady c r = true ∧ (r.arrs.map (·.slot)).Nodup ∧ m.opens = []
    ∧ cnt ≤ lrFan (s.lrecOfTeam m) ∧ c.level ≠ lrDep (s.lrecOfTeam m)
    ∧ m.aheadOf c r = false
    ∧ let con := s.contributors r
      let parts := callParts byWeight cnt con
      let called := (List.range cnt).filter (fun i => !(parts.getD i []).isEmpty)
      let free := m.freeEntries (lrFan (s.lrecOfTeam m)) (c.level + 1)
      called ≠ [] ∧ called.length ≤ free.length
        ∧ (∃ a l, con = a :: l ∧ s.callEntries r a called = (s2, .inl pcs))
        ∧ subs = (called.zip (free.zip pcs)).map (fun x => (x.1, x.2.1, x.2.2, parts.getD x.1 []))

/-- A lane as it enters a callee as its lane `p` of `n` (R173). -/
def Thread.entered (t : Thread) (ctx p n : Nat) (pc : DWord) (tag : BitVec 8) : Thread :=
  { t with pushed := t.pushed ++ [(t.lane, t.tsize)], plane := if t.ctx = 0 then t.lane else t.plane, lane := p, tsize := n
           ctx := ctx, pcw := pcOf pc, landing := some tag, hold := .none }

/-! ### Accesses (08) -/

/-- The virtual or space address of a memory operand (R179): base plus sign-extended offset, modulo 2^64 for `.g`, modulo 2^32
for `.s` and `.k`. -/
def Lane.at (l : Lane) (sp : Space) (base : Base) (off : Src) : DWord :=
  if sp = .g then l.src 0 true base.toSrc + (l.src32 1 off).signExtend 64
  else ((l.src 0 false base.toSrc).setWidth 32 + l.src32 1 off).setWidth 64

/-- The address checks of R196 pass on an access, and lead to a place: in range, mapped with the permission, inside its page. -/
def Lane.reaches (l : Lane) (sp : Space) (va : DWord) (n : Nat) (need : Need) (p : Place) : Prop :=
  l.rangeFault sp va.toNat n = none ∧ ∃ tlb, l.find sp va.toNat n need true = .here p tlb

/-- The bytes an outstanding load finds where it is performed: in its scratchpad, in host memory, or at its slice, with no L1
sector and no error in the way. -/
def State.finds (s : State) (o : Op) (hint : Hint) (bs : List Byte) : Prop :=
  bs.length = o.n ∧ match o.place with
  | .scr c off win => (win = true → s.windowHit o.slot c off o.n = true)
      ∧ ∀ i < o.n, bs[i]? = some (Memory.read s.scr (c * 2 ^ 18 + off + i))
  | .host ld a => ∀ i < o.n, bs[i]? = some (Memory.read s.host (ld * 2 ^ 64 + a + i))
  | .dev pa key comp bix he =>
    let a : Acc := ⟨o.part, pa, key, comp, bix, he, hint, s.teamOf o.slot⟩
    he = false ∧ SMap.sortedFrom none s.l2 = true ∧ s.l1.find? (l1Key (s.domain (coreOf o.slot)) pa) = none ∧ (s.touch a).2 = none ∧ bs = s.peek a o.n
  | _ => False

/-- Bytes as a number, the first the least significant (R14). -/
def bytesNat : List Byte → Nat
  | [] => 0
  | b :: bs => b.toNat + 256 * bytesNat bs

/-- What the slice and memory hold of a line is one content, under the key of an access (R186, R191): a line in the slice has its 128
bytes under that key, and memory has the same unless the line is dirty; and no other line has its place in memory. -/
def State.coheres (s : State) (c : Acc) : Prop :=
  c.pa < 2 ^ 52 ∧ ∀ e ∈ s.l2, e.2.data.length = 128
    ∧ (e.1 = s.l2Key c → e.2.key = s.keyTag c ∧ (e.2.dirty = true ∨ e.2.data = s.memLine c))
    ∧ (e.1 ≠ s.l2Key c → s.memAt (e.1 % 2 ^ 52) + 128 ≤ s.memAt (lineOf c.pa) ∨ s.memAt (lineOf c.pa) + 128 ≤ s.memAt (e.1 % 2 ^ 52))

/-- Device memory after `bs` has been written at an access: its line has them at their place and its other bytes as before; every other
line has all its bytes as before, also the one that a full set gives up to memory (R186). -/
def State.wroteLine (s s' : State) (a : Acc) (bs : List Byte) : Prop :=
  s'.peekLine a = (s.peekLine a).take (a.pa % 128) ++ bs ++ (s.peekLine a).drop (a.pa % 128 + bs.length)
    ∧ ∀ c : Acc, s.l2Key c ≠ s.l2Key a →
        (s.l2.find? (s.l2Key a)).isSome = true ∨ (s.l2Set (s.l2Key a)).length < 16 ∨ s.coheres c → s'.peekLine c = s.peekLine c

/-- A memory holds `bs` from address `a` on, and elsewhere what it held before. -/
def Memory.holds (m m' : Memory) (a : Nat) (bs : List Byte) : Prop :=
  ∀ x, m'.read x = if a ≤ x ∧ x < a + bs.length then bs.getD (x - a) 0 else m.read x

/-- The new value of an atomic operation of width `w` (R202), where it stores one; `old`, `b` and `c` are below 2^w. -/
def atomNew (op : AOp) (w old b c : Nat) : Nat :=
  let sg (n : Nat) : Int := if 2 ^ (w - 1) ≤ n then (n : Int) - 2 ^ w else n
  match op with
  | .add => (old + b) % 2 ^ w
  | .and => old &&& b
  | .or => old ||| b
  | .xor => old ^^^ b
  | .mins => if sg b < sg old then b else old
  | .maxs => if sg old < sg b then b else old
  | .minz => if b < old then b else old
  | .maxz => if old < b then b else old
  | .xchg => b
  | .cas => if old = c then b else old
  | .fadd => (roundF32 .rne (Machine.fadd .rne (v32 (BitVec.ofNat 32 old)) (v32 (BitVec.ofNat 32 b))).1).1.toNat
  | .inc => if b ≤ old then 0 else old + 1
  | .dec => if old = 0 ∨ b < old then b else old - 1

/-- `u` is the thread `t` after an exception: parked with its code, PC, address and AUX (R362, R366); or, with no trap permit
free, still ready and waiting to try again (R363). Its registers are as they were (R36). -/
structure Excepts (t u : Thread) (code : BitVec 8) (va aux : DWord) : Prop where
  pc : u.pc = t.pc
  kept : u.g = t.g ∧ u.o = t.o ∧ u.lat = t.lat ∧ u.preds = t.preds ∧ u.lk = t.lk ∧ u.fflags = t.fflags ∧ u.cnt = t.cnt
  held : (u.st = .parked ∧ ∃ p, u.park = some p ∧ p.code = code ∧ p.pc = t.pc ∧ p.va = va ∧ p.aux = aux)
    ∨ (u.st = t.st ∧ u.park = t.park ∧ u.retry.isSome)

/-- A word faults on every lane that takes it under a condition: the step goes on, and the lane takes the exception. -/
def Traps (i : Instr) (C : State → Nat → Thread → Prop) (code : BitVec 8) (va aux : Lane → DWord) : Prop :=
  ∀ (s : State) (k : Nat) (t : Thread), Takes s i k t → C s k t →
    ∃ (s' : State) (b : Nat) (u : Thread), exec i s = .next s' ∧ s'.thread? k = some u
      ∧ Excepts t u code (va (s.laneAt k t b)) (aux (s.laneAt k t b))

/-! ### f32 words as statements read them (05 R110, R111) -/

/-- Exponent 255 with a nonzero mantissa. -/
def nanWord (w : Word) : Bool := decide (0x7F800000 < w.toNat % 2 ^ 31)

/-- A NaN whose top mantissa bit is 0. -/
def snanWord (w : Word) : Bool := nanWord w && !w.getLsbD 22

/-- An integer in the order of the f32 values that are no NaN; both zeros are 0. -/
def orderKey (w : Word) : Int := if w.getLsbD 31 then -((w.toNat % 2 ^ 31 : Nat) : Int) else (w.toNat % 2 ^ 31 : Nat)

/-- The value of a finite exact value. -/
def FV.val : FV → ℚ
  | .fin s m e => (if s then -1 else 1) * m * (2 : ℚ) ^ e
  | .inf _ => 0
  | .nan => 0

/-- Two exact values are one value: the same real with the same sign, the same infinity, or both NaN. -/
def FV.same : FV → FV → Prop
  | .fin s m e, .fin t n g => s = t ∧ (FV.fin s m e).val = (FV.fin t n g).val
  | .inf s, .inf t => s = t
  | .nan, .nan => True
  | _, _ => False

def FV.finite : FV → Bool
  | .fin .. => true
  | _ => false

/-- The rows of R128's table that give a result outright, for FRCP, FRSQ, FSQRT, FEXP2, FLOG2, FSIN, FCOS, FTANH (0 to 7). -/
def tableRow (op : Nat) (a : Word) : Option (Word × Fl) :=
  let neg := a.getLsbD 31 && decide (a.toNat % 2 ^ 31 ≠ 0)
  if nanWord a then some (0x7FC00000, if snanWord a then nv else 0)
  else if a = 0x00000000 then
    [(0x7F800000, dz), (0x7F800000, dz), (0, 0), (0x3F800000, 0), (0xFF800000, dz), (0, 0), (0x3F800000, 0), (0, 0)][op]?
  else if a = 0x80000000 then
    [(0xFF800000, dz), (0xFF800000, dz), (0x80000000, 0), (0x3F800000, 0), (0xFF800000, dz), (0x80000000, 0), (0x3F800000, 0),
      (0x80000000, 0)][op]?
  else if a = 0x7F800000 then
    [(0, 0), (0, 0), (0x7F800000, 0), (0x7F800000, 0), (0x7F800000, 0), (0x7FC00000, nv), (0x7FC00000, nv), (0x3F800000, 0)][op]?
  else if a = 0xFF800000 then
    [(0x80000000, 0), (0x7FC00000, nv), (0x7FC00000, nv), (0, 0), (0x7FC00000, nv), (0x7FC00000, nv), (0x7FC00000, nv),
      (0xBF800000, 0)][op]?
  else if neg ∧ (op = 1 ∨ op = 2 ∨ op = 4) then some (0x7FC00000, nv)
  else none

end Sys2Proof.Machine
end

