-- ==== Sys2Proof/Certificates/Slice0/Obligations.lean ====
section
/-!
DEFINITION. The statements for the provers. Each docstring names the rules it formalises; a statement that rests on a choice
of the model names the log entry. A statement of several parts is the conjunction of its parts, each under Sys2Proof.Rules just
before it.
-/

section

open Sys2Proof Sys2Proof.Machine

/-! ### Registers I (04) -/

/-- R92: the binary operations, on every lane that takes them. -/
def Sys2Proof.Rules.BinaryIntegerResults : Prop :=
  (∀ x : Alu2, Completes (.add x) fun l u => Puts l.t u x.w x.d (modW x.w (l.z 0 x.w x.a + l.z 1 x.w x.b)) 0)
  ∧ (∀ x : Alu2, Completes (.sub x) fun l u => Puts l.t u x.w x.d (modW x.w (l.z 0 x.w x.a - l.z 1 x.w x.b)) 0)
  ∧ (∀ x : Alu2, Completes (.mul x) fun l u => Puts l.t u x.w x.d (modW x.w (l.z 0 x.w x.a * l.z 1 x.w x.b)) 0)
  ∧ (∀ x : Alu2, Completes (.mulh x) fun l u => Puts l.t u x.w x.d
      (modW x.w (xOf x.sg x.w (l.z 0 x.w x.a) * xOf x.sg x.w (l.z 1 x.w x.b) / 2 ^ wid x.w)) 0)
  ∧ (∀ x : Log2, Completes (.and x) fun l u => Puts l.t u x.w x.d (l.src 0 x.w x.a &&& l.src 1 x.w x.b) 0)
  ∧ (∀ x : Log2, Completes (.or x) fun l u => Puts l.t u x.w x.d (l.src 0 x.w x.a ||| l.src 1 x.w x.b) 0)
  ∧ (∀ x : Log2, Completes (.xor x) fun l u => Puts l.t u x.w x.d (l.src 0 x.w x.a ^^^ l.src 1 x.w x.b) 0)
  ∧ (∀ x : Log2, Completes (.andn x) fun l u => Puts l.t u x.w x.d (l.src 0 x.w x.a &&& ~~~(l.src 1 x.w x.b)) 0)
  ∧ (∀ x : Log2, Completes (.orn x) fun l u => Puts l.t u x.w x.d (extW x.w (l.src 0 x.w x.a ||| ~~~(l.src 1 x.w x.b))) 0)
  ∧ (∀ x : Alu2, Completes (.min x) fun l u => Puts l.t u x.w x.d
      (if xOf x.sg x.w (l.z 0 x.w x.a) ≤ xOf x.sg x.w (l.z 1 x.w x.b) then l.src 0 x.w x.a else l.src 1 x.w x.b) 0)
  ∧ (∀ x : Alu2, Completes (.max x) fun l u => Puts l.t u x.w x.d
      (if xOf x.sg x.w (l.z 0 x.w x.a) ≥ xOf x.sg x.w (l.z 1 x.w x.b) then l.src 0 x.w x.a else l.src 1 x.w x.b) 0)

/-- R93, R94: MAD keeps the low half; DIV and REM with their division by zero. -/
def Sys2Proof.Rules.MultiplyAddDivideResults : Prop :=
  (∀ x : Alu3, Completes (.mad x) fun l u => Puts l.t u x.w x.d
      (modW x.w (l.z 0 x.w x.a * l.z 1 x.w x.b + l.z 2 x.w x.c)) 0)
  ∧ (∀ x : Alu2, Completes (.div x) fun l u => Puts l.t u x.w x.d
      (if l.z 1 x.w x.b = 0 then modW x.w (2 ^ wid x.w - 1)
       else if x.sg = .z then modW x.w (l.z 0 x.w x.a / l.z 1 x.w x.b : Nat)
       else modW x.w ((sOf x.w (l.z 0 x.w x.a)).tdiv (sOf x.w (l.z 1 x.w x.b)))) 0)
  ∧ (∀ x : Alu2, Completes (.rem x) fun l u => Puts l.t u x.w x.d
      (if l.z 1 x.w x.b = 0 then l.src 0 x.w x.a
       else if x.sg = .z then modW x.w (l.z 0 x.w x.a - l.z 1 x.w x.b * (l.z 0 x.w x.a / l.z 1 x.w x.b : Nat))
       else modW x.w (sOf x.w (l.z 0 x.w x.a)
         - sOf x.w (l.z 1 x.w x.b) * (sOf x.w (l.z 0 x.w x.a)).tdiv (sOf x.w (l.z 1 x.w x.b)))) 0)

/-- R92 to R94: the binary and multiply-add integer words, and division. -/
def Obligations.IntegerBinaryResults : Prop := Rules.BinaryIntegerResults ∧ Rules.MultiplyAddDivideResults

/-- R95, R96: shifts and rotates by an amount mod W, and the funnel shift. -/
def Sys2Proof.Rules.ShiftResults : Prop :=
  (∀ x : Log2, Completes (.shl x) fun l u => Puts l.t u x.w x.d
      (modW x.w (l.z 0 x.w x.a * 2 ^ (l.z 1 false x.b % wid x.w) : Nat)) 0)
  ∧ (∀ x : Log2, Completes (.shr x) fun l u => Puts l.t u x.w x.d
      (modW x.w (l.z 0 x.w x.a / 2 ^ (l.z 1 false x.b % wid x.w) : Nat)) 0)
  ∧ (∀ x : Log2, Completes (.sar x) fun l u => Puts l.t u x.w x.d
      (modW x.w (sOf x.w (l.z 0 x.w x.a) / 2 ^ (l.z 1 false x.b % wid x.w))) 0)
  ∧ (∀ x : Log2, Completes (.rol x) fun l u => Puts l.t u x.w x.d
      (modW x.w (l.z 0 x.w x.a * 2 ^ (l.z 1 false x.b % wid x.w)
        + l.z 0 x.w x.a / 2 ^ (wid x.w - l.z 1 false x.b % wid x.w) : Nat)) 0)
  ∧ (∀ x : Log2, Completes (.ror x) fun l u => Puts l.t u x.w x.d
      (modW x.w (l.z 0 x.w x.a / 2 ^ (l.z 1 false x.b % wid x.w)
        + l.z 0 x.w x.a * 2 ^ (wid x.w - l.z 1 false x.b % wid x.w) : Nat)) 0)
  ∧ (∀ x : Tri, Completes (.shf x) fun l u => Puts l.t u false x.d
      (modW false ((l.z 0 false x.a * 2 ^ 32 + l.z 1 false x.b) / 2 ^ (l.z 2 false x.c % 64) : Nat)) 0)

/-- R97, R98: unary operations and bit counts; a count is a 32-bit D. -/
def Sys2Proof.Rules.UnaryIntegerResults : Prop :=
  (∀ x : Log1, Completes (.not x) fun l u => Puts l.t u x.w x.d (extW x.w (~~~(l.src 0 x.w x.a))) 0)
  ∧ (∀ x : Alu1, Completes (.neg x) fun l u => Puts l.t u x.w x.d (modW x.w (-(l.z 0 x.w x.a : Int))) 0)
  ∧ (∀ x : Alu1, Completes (.abs x) fun l u => Puts l.t u x.w x.d (modW x.w (sOf x.w (l.z 0 x.w x.a)).natAbs) 0)
  ∧ (∀ x : Log1, Completes (.mov x) fun l u => Puts l.t u x.w x.d (l.src 0 x.w x.a) 0)
  ∧ (∀ x : Log1, Completes (.popc x) fun l u => ∃ v : DWord, Puts l.t u false x.d v 0
      ∧ v.toNat = ((List.range (wid x.w)).filter (fun i => (l.src 0 x.w x.a).getLsbD i)).length)
  ∧ (∀ x : Log1, Completes (.clz x) fun l u => ∃ v : DWord, Puts l.t u false x.d v 0 ∧ v.toNat ≤ wid x.w
      ∧ (∀ i, wid x.w - v.toNat ≤ i → (l.src 0 x.w x.a).getLsbD i = false)
      ∧ (v.toNat < wid x.w → (l.src 0 x.w x.a).getLsbD (wid x.w - 1 - v.toNat) = true))
  ∧ (∀ x : Log1, Completes (.ctz x) fun l u => ∃ v : DWord, Puts l.t u false x.d v 0 ∧ v.toNat ≤ wid x.w
      ∧ (∀ i < v.toNat, (l.src 0 x.w x.a).getLsbD i = false)
      ∧ (v.toNat < wid x.w → (l.src 0 x.w x.a).getLsbD v.toNat = true))
  ∧ (∀ x : Log1, Completes (.brev x) fun l u => ∃ v : DWord, Puts l.t u x.w x.d v 0
      ∧ ∀ k < wid x.w, v.getLsbD k = (l.src 0 x.w x.a).getLsbD (wid x.w - 1 - k))

/-- R99, R100: bit fields, cut at bit W - 1, and the byte permute. -/
def Sys2Proof.Rules.FieldResults : Prop :=
  (∀ x : BfxArg, Completes (.bfx x) fun l u =>
      let pos := l.z 1 false x.b % wid x.w
      let n := min x.len.toNat (wid x.w - pos)
      let f := l.z 0 x.w x.a / 2 ^ pos % 2 ^ n
      Puts l.t u x.w x.d (if n = 0 then 0 else if x.sg = .z ∨ f < 2 ^ (n - 1) then modW x.w f else modW x.w ((f : Int) - 2 ^ n)) 0)
  ∧ (∀ x : BfiArg, Completes (.bfi x) fun l u =>
      let pos := l.z 2 false x.c % wid x.w
      let n := min x.len.toNat (wid x.w - pos)
      ∃ v : DWord, Puts l.t u x.w x.d v 0 ∧ ∀ i < wid x.w, v.getLsbD i =
        if pos ≤ i ∧ i < pos + n then (l.src 0 x.w x.a).getLsbD (i - pos) else (l.src 1 x.w x.b).getLsbD i)
  ∧ (∀ x : Tri, Completes (.bperm x) fun l u => ∃ v : DWord, Puts l.t u false x.d v 0 ∧ ∀ i < 4,
      bits v (8 * i) 8 =
        let c := bits (l.src 2 false x.c) (4 * i) 4
        if 8 ≤ c then 0 else if 4 ≤ c then bits (l.src 1 false x.b) (8 * (c - 4)) 8 else bits (l.src 0 false x.a) (8 * c) 8)

/-- R95, R96, R99, R100: shifts, rotates and bit fields. -/
def Obligations.ShiftAndFieldResults : Prop := Rules.ShiftResults ∧ Rules.FieldResults

/-- R101, R102: select by a predicate read at issue; scaled add with a 32-bit B. -/
def Sys2Proof.Rules.SelectAndAddressResults : Prop :=
  (∀ x : SelArg, Completes (.sel x) fun l u => Puts l.t u x.w x.d
      (if (l.t.pred x.p ^^ x.neg) then l.src 0 x.w x.a else l.src 1 x.w x.b) 0)
  ∧ (∀ x : LeaArg, Completes (.lea x) fun l u => Puts l.t u x.w x.d
      (modW x.w (l.z 0 x.w x.a + xOf x.sg false (l.z 1 false x.b) * 2 ^ x.n.toNat)) 0)

/-- R97, R98, R101, R102: the unary integer words, SEL, MOV and LEA. -/
def Obligations.IntegerUnaryAndAddressResults : Prop := Rules.UnaryIntegerResults ∧ Rules.SelectAndAddressResults

/-- R103 to R105: comparisons and predicate moves. -/
def Obligations.PredicateResults : Prop :=
  (∀ x : CmpArg, Completes (.cmp x) fun l u =>
      let A := l.z 0 x.w x.a
      let B := l.z 1 x.w x.b
      let X := xOf x.sg x.w
      PutsPred l.t u x.p (match x.cond with
        | .eq => decide (A = B)
        | .ne => decide (A ≠ B)
        | .lt => decide (X A < X B)
        | .le => decide (X A ≤ X B)
        | .gt => decide (X A > X B)
        | .ge => decide (X A ≥ X B)
        | .tst => decide (l.src 0 x.w x.a &&& l.src 1 x.w x.b ≠ 0)) 0)
  ∧ (∀ x : PredArg, Completes (.pand x) fun l u =>
      PutsPred l.t u x.pd ((l.t.pred x.pa ^^ x.na) && (l.t.pred x.pb ^^ x.nb)) 0)
  ∧ (∀ x : PredArg, Completes (.por x) fun l u =>
      PutsPred l.t u x.pd ((l.t.pred x.pa ^^ x.na) || (l.t.pred x.pb ^^ x.nb)) 0)
  ∧ (∀ x : PredArg, Completes (.pxor x) fun l u =>
      PutsPred l.t u x.pd ((l.t.pred x.pa ^^ x.na) ^^ (l.t.pred x.pb ^^ x.nb)) 0)
  ∧ (∀ x : PnotArg, Completes (.pnot x) fun l u => PutsPred l.t u x.pd (!l.t.pred x.pa) 0)
  ∧ (∀ x : PmovArg, Completes (.pmov x) fun l u => match x.dir with
      | .toReg d => Puts l.t u false d (l.t.preds.setWidth 64) 0
      | .fromReg a b => (∀ i < 12, u.preds.getLsbD i =
            if (l.src 1 false b).getLsbD i then (l.src 0 false a).getLsbD i else l.t.preds.getLsbD i)
          ∧ u.lat = u.preds.setWidth 64 ∧ u = { l.t with preds := u.preds, lat := u.lat, pcw := l.t.pcw + 1 })

/-- R106, R85: GETS gives the register's value at issue, cut to W bits; SETS writes sr.fflags or lk, and the latch. -/
def Obligations.SpecialRegisterResults : Prop :=
  (∀ x : GetsArg, Completes (.gets x) fun l u => ∃ v : DWord, Puts l.t u x.w x.d (extW x.w v) 0 ∧ match x.sr with
      | .lane => v = BitVec.ofNat 64 l.t.lane
      | .plane => v = BitVec.ofNat 64 l.t.plane
      | .tsize => v = BitVec.ofNat 64 l.t.tsize
      | .tcret => v = l.t.tcret.setWidth 64
      | .fflags => v = l.t.fflags.setWidth 64
      | .status => v = BitVec.ofNat 64 ((if l.t.step then 8 else 0) + l.t.ylevel)
      | .lk => v = l.t.lk
      | .core => v = BitVec.ofNat 64 (l.slot / 512 % 24)
      | .team => ∀ m, l.s.team? l.t.team = some m → v = BitVec.ofNat 64 m.index
      | .argp => ∀ m, l.s.team? l.t.team = some m → v = BitVec.ofNat 64 m.argp
      | .grid => ∀ m g, l.s.team? l.t.team = some m → l.s.grid? m.grid = some g → v = g.gid.setWidth 64
      | .depth => ∀ m g, l.s.team? l.t.team = some m → l.s.grid? m.grid = some g → v = BitVec.ofNat 64 g.depth
      | .grove => v = BitVec.ofNat 64 ((l.s.part (l.s.partOf l.slot)).rank (groveOf (coreOf l.slot)))
      | .tags => v = l.s.tagBits l.t.team
      | .time => ∃ n, v = BitVec.ofNat 64 n ∧ n ≤ l.s.time + 2 ∧ l.s.time ≤ n + 2
      | .cycle => v = BitVec.ofInt 64 ((l.s.cycleOf (coreOf l.slot) : Int) + l.t.cycOff))
  ∧ (∀ x : SetsArg, Completes (.sets x) fun l u => u.lat = l.src 0 x.w x.a ∧ match x.sr with
      | .fflags => u = { l.t with fflags := (l.src 0 x.w x.a).setWidth 5, lat := u.lat, pcw := l.t.pcw + 1 }
      | .lk => u = { l.t with lk := l.src 0 x.w x.a, lat := u.lat, pcw := l.t.pcw + 1 })

/-! ### Registers II (05) -/

/-- R124, R109: one rounding of the exact result, the flags ORed into sr.fflags. -/
def Obligations.FloatArithmeticResults : Prop :=
  (∀ x : F2, Completes (.fadd x) fun l u =>
      let A := l.srcF 0 x.a
      let B := l.srcF 1 x.b
      let y := Machine.fadd x.rm (v32 A) (v32 B)
      let r := roundF32 x.rm y.1
      Puts l.t u false x.d (r.1.setWidth 64) (r.2 ||| y.2 ||| flIf (snanWord A || snanWord B) nv))
  ∧ (∀ x : F2, Completes (.fsub x) fun l u =>
      let A := l.srcF 0 x.a
      let B := l.srcF 1 x.b
      let y := Machine.fadd x.rm (v32 A) (v32 B).negate
      let r := roundF32 x.rm y.1
      Puts l.t u false x.d (r.1.setWidth 64) (r.2 ||| y.2 ||| flIf (snanWord A || snanWord B) nv))
  ∧ (∀ x : F2, Completes (.fmul x) fun l u =>
      let A := l.srcF 0 x.a
      let B := l.srcF 1 x.b
      let y := Machine.fmul (v32 A) (v32 B)
      let r := roundF32 x.rm y.1
      Puts l.t u false x.d (r.1.setWidth 64) (r.2 ||| y.2 ||| flIf (snanWord A || snanWord B) nv))
  ∧ (∀ x : F3, Completes (.ffma x) fun l u =>
      let A := l.srcF 0 x.a
      let B := l.srcF 1 x.b
      let C := l.srcF 2 x.c
      let p := Machine.fmul (v32 A) (v32 B)
      let y := Machine.fadd x.rm p.1 (v32 C)
      let r := roundF32 x.rm y.1
      Puts l.t u false x.d (r.1.setWidth 64) (r.2 ||| p.2 ||| y.2 ||| flIf (snanWord A || snanWord B || snanWord C) nv))
  ∧ (∀ x : F2, Completes (.fdiv x) fun l u =>
      let A := l.srcF 0 x.a
      let B := l.srcF 1 x.b
      let y := Machine.fdiv (v32 A) (v32 B)
      let r := roundF32 x.rm y.1
      Puts l.t u false x.d (r.1.setWidth 64) (r.2 ||| y.2 ||| flIf (snanWord A || snanWord B) nv)
        ∧ (B.toNat % 2 ^ 31 = 0 → (v32 A).finite → A.toNat % 2 ^ 31 ≠ 0 →
            y = (.inf (A.getLsbD 31 ^^ B.getLsbD 31), dz)))
  ∧ (∀ x : F2, Completes (.fscale x) fun l u =>
      let A := l.srcF 0 x.a
      ∃ v fl, Puts l.t u false x.d (BitVec.setWidth 64 (v : Word)) fl
        ∧ (nanWord A → v = 0x7FC00000 ∧ fl = flIf (snanWord A) nv)
        ∧ (A.toNat % 2 ^ 31 = 0 ∨ A.toNat % 2 ^ 31 = 0x7F800000 → v = A ∧ fl = 0)
        ∧ (∀ s m e, v32 A = .fin s m e → m ≠ 0 →
            (v, fl) = roundF32 x.rm (.fin s m (e + sOf false (l.z 1 false x.b)))))

/-- R124's sums and products are exact before the one rounding: their values as rationals. -/
def Sys2Proof.Rules.ExactSumsAndProducts : Prop :=
  ∀ (rm : Rm) (a b : FV), a.finite → b.finite →
    (Machine.fadd rm a b).1.finite ∧ (Machine.fadd rm a b).1.val = a.val + b.val ∧ (Machine.fadd rm a b).2 = 0
      ∧ (Machine.fmul a b).1.finite ∧ (Machine.fmul a b).1.val = a.val * b.val ∧ (Machine.fmul a b).2 = 0

/-- R113, R34: rounding an encoding's own value gives the encoding back and sets no flag, in every format and mode. -/
def Sys2Proof.Rules.RoundingKeepsRepresentable : Prop :=
  ∀ (f : FFmt) (rm : Rm) (b : Nat), b < 2 ^ f.width → (V f b).finite → Machine.round f rm false (V f b) = (b, 0)

/-- R34, R113, R124: sums and products of the exact values, and rounding of a representable one. -/
def Obligations.ExactArithmetic : Prop := Rules.ExactSumsAndProducts ∧ Rules.RoundingKeepsRepresentable

/-- R34: RNE gives an f32 no other finite f32 is nearer than, where it does not overflow. -/
def Obligations.RoundToNearest : Prop :=
  ∀ (x : FV) (b : Nat), x.finite → (Machine.round .f32 .rne false x).2 &&& ovf = 0 → b < 2 ^ 32 → (V .f32 b).finite →
    |(V .f32 (Machine.round .f32 .rne false x).1).val - x.val| ≤ |(V .f32 b).val - x.val|

/-- R125 to R127: minimum and maximum over a NaN, comparison, and the class mask, by the bits of the words alone. -/
def Sys2Proof.Rules.FloatCompareResults : Prop :=
  (∀ (x : F2n) (isMax : Bool), Completes (if isMax then .fmax x else .fmin x) fun l u =>
      let A := l.srcF 0 x.a
      let B := l.srcF 1 x.b
      let less := orderKey A < orderKey B ∨ (orderKey A = orderKey B ∧ A.getLsbD 31 = true ∧ B.getLsbD 31 = false)
      let v : Word :=
        if nanWord A ∧ nanWord B then 0x7FC00000 else if nanWord A then B else if nanWord B then A
        else if isMax then (if less then B else A) else (if less then A else B)
      Puts l.t u false x.d (v.setWidth 64) (flIf (snanWord A || snanWord B) nv))
  ∧ (∀ x : FcmpArg, Completes (.fcmp x) fun l u =>
      let A := l.srcF 0 x.a
      let B := l.srcF 1 x.b
      let un := nanWord A || nanWord B
      let sn := flIf (snanWord A || snanWord B) nv
      match x.cond with
      | .eq => PutsPred l.t u x.p (!un && decide (orderKey A = orderKey B)) sn
      | .ne => PutsPred l.t u x.p (un || decide (orderKey A ≠ orderKey B)) sn
      | .lt => PutsPred l.t u x.p (!un && decide (orderKey A < orderKey B)) (flIf un nv)
      | .le => PutsPred l.t u x.p (!un && decide (orderKey A ≤ orderKey B)) (flIf un nv)
      | .gt => PutsPred l.t u x.p (!un && decide (orderKey A > orderKey B)) (flIf un nv)
      | .ge => PutsPred l.t u x.p (!un && decide (orderKey A ≥ orderKey B)) (flIf un nv)
      | .un => PutsPred l.t u x.p un sn)
  ∧ (∀ x : F1, Completes (.fclass x) fun l u =>
      let A := l.srcF 0 x.a
      let m := A.toNat % 2 ^ 31
      let neg := A.getLsbD 31
      let k : Nat :=
        if 0x7F800000 < m then (if A.getLsbD 22 then 9 else 8)
        else if m = 0x7F800000 then (if neg then 0 else 7)
        else if 0x00800000 ≤ m then (if neg then 1 else 6)
        else if 0 < m then (if neg then 2 else 5)
        else if neg then 3 else 4
      Puts l.t u false x.d (BitVec.ofNat 64 (2 ^ k)) 0)

/-- R128: FRCP and FSQRT round by rm; every row of the table of special inputs. FRSQ gives one of the two f32 values that bracket 1/√a, or
it when it is one. FEXP2 overflows and underflows with its flags as stated, and else lies between the powers of two around 2^x, exact at
an integer; FLOG2 lies between the integers around log2 a, exact at a power of two. FTANH, and FSIN and FCOS up to 2^15, are within 2^-22
of the model's sums of 200 fraction bits (log 16; relative beyond ±1, which no sum reaches); FSIN and FCOS of a larger argument stay
in [-1, 1]. -/
def Sys2Proof.Rules.UnaryFloatResults : Prop :=
  let fix (A : Word) : Int := match v32 A with
    | .fin s m e => toFix s m e
    | _ => 0
  let near (v : Word) (f : Int) : Prop := (v32 v).finite
    ∧ |(v32 v).val - (f : ℚ) / 2 ^ 200| ≤ (1 / 2 ^ 22 : ℚ) * max 1 |(f : ℚ) / 2 ^ 200|
  let brackets (A v : Word) : Prop := ∃ lo hi : Nat, lo < 2 ^ 31 ∧ hi < 2 ^ 31 ∧ (v.toNat = lo ∨ v.toNat = hi) ∧ (V .f32 lo).finite ∧ (V .f32 hi).finite
    ∧ ((lo = hi ∧ (V .f32 lo).val ^ 2 * (v32 A).val = 1)
      ∨ (hi = lo + 1 ∧ (V .f32 lo).val ^ 2 * (v32 A).val < 1 ∧ 1 < (V .f32 hi).val ^ 2 * (v32 A).val))
  let power (A v : Word) (fl : Fl) : Prop :=
    let x := (v32 A).val
    (128 ≤ x → (v, fl) = (0x7F800000, ovf ||| nx)) ∧ (x < -150 → (v, fl) = (0, unf ||| nx))
    ∧ (x < 128 → v = 0x7F800000 → 127 < x ∧ fl = ovf ||| nx)
    ∧ (-150 < x → x < -149 → (v, fl) = (0, unf ||| nx) ∨ (v, fl) = (1, 0))
    ∧ (-149 ≤ x → x < 128 → v ≠ 0x7F800000 → fl = 0 ∧ ∀ n : Int, n ≤ x → x < n + 1 →
        (2 : ℚ) ^ n ≤ (v32 v).val ∧ (v32 v).val ≤ (2 : ℚ) ^ (n + 1) ∧ (x = n → (v32 v).val = (2 : ℚ) ^ n))
  let logarithm (A v : Word) : Prop := ∀ n : Int, (2 : ℚ) ^ n ≤ (v32 A).val → (v32 A).val < (2 : ℚ) ^ (n + 1) →
    (v32 v).finite ∧ n ≤ (v32 v).val ∧ (v32 v).val ≤ n + 1 ∧ ((v32 A).val = (2 : ℚ) ^ n → (v32 v).val = n)
  let one (op : Nat) (rm : Rm) (d : Dst) (A : Word) (t u : Thread) : Prop := ∃ (v : Word) (fl : Fl),
    Puts t u false d (v.setWidth 64) fl ∧ (∀ r, tableRow op A = some r → (v, fl) = r)
      ∧ (tableRow op A = none → (op = 0 → (v, fl) = roundF32 rm (Machine.fdiv (.fin false 1 0) (v32 A)).1)
        ∧ (op = 2 → (v, fl) = roundF32 rm (Machine.fsqrt (v32 A)).1)
        ∧ (op = 1 → fl = 0 ∧ brackets A v) ∧ (op = 3 → power A v fl) ∧ (op = 4 → fl = 0 ∧ logarithm A v)
        ∧ (op = 5 ∨ op = 6 → fl = 0 ∧ (0x47000000 < A.toNat % 2 ^ 31 → v.toNat % 2 ^ 31 ≤ 0x3F800000)
          ∧ (A.toNat % 2 ^ 31 ≤ 0x47000000 → near v (if op = 5 then sinFix (fix A) else cosFix (fix A))))
        ∧ (op = 7 → fl = 0 ∧ near v (tanhFix (fix A)) ∧ |(v32 v).val| ≤ 1 + (1 / 2 ^ 22 : ℚ)))
  (∀ x : F1r, Completes (.frcp x) fun l u => one 0 x.rm x.d (l.srcF 0 x.a) l.t u)
  ∧ (∀ x : F1, Completes (.frsq x) fun l u => one 1 .rne x.d (l.srcF 0 x.a) l.t u)
  ∧ (∀ x : F1r, Completes (.fsqrt x) fun l u => one 2 x.rm x.d (l.srcF 0 x.a) l.t u)
  ∧ (∀ x : F1, Completes (.fexp2 x) fun l u => one 3 .rne x.d (l.srcF 0 x.a) l.t u)
  ∧ (∀ x : F1, Completes (.flog2 x) fun l u => one 4 .rne x.d (l.srcF 0 x.a) l.t u)
  ∧ (∀ x : F1, Completes (.fsin x) fun l u => one 5 .rne x.d (l.srcF 0 x.a) l.t u)
  ∧ (∀ x : F1, Completes (.fcos x) fun l u => one 6 .rne x.d (l.srcF 0 x.a) l.t u)
  ∧ (∀ x : F1, Completes (.ftanh x) fun l u => one 7 .rne x.d (l.srcF 0 x.a) l.t u)

/-- R125 to R128: comparison, classification and the functions of one operand. -/
def Obligations.FloatUnaryAndCompareResults : Prop := Rules.FloatCompareResults ∧ Rules.UnaryFloatResults

/-- R129, R130, R120: packed halves element by element, each rounded once; DOTH2 adds two products to D in ascending order. -/
def Sys2Proof.Rules.PackedHalfResults : Prop :=
  let el (w : Word) (e : Nat) : Nat := bits w (16 * e) 16
  let two (f : FFmt) (rm : Rm) (op : Nat → FV × Fl) (fl : Nat → Bool) (d : Dst) (t u : Thread) : Prop :=
    let r (e : Nat) := Machine.round f rm false (op e).1
    Puts t u false d (BitVec.ofNat 64 ((r 0).1 + 2 ^ 16 * (r 1).1))
      ((r 0).2 ||| (op 0).2 ||| flIf (fl 0) nv ||| ((r 1).2 ||| (op 1).2 ||| flIf (fl 1) nv))
  let fma (f : FFmt) (x : F3) (l : Lane) (u : Thread) : Prop :=
    let A := l.srcH 0 f x.a
    let B := l.srcH 1 f x.b
    let C := l.srcH 2 f x.c
    two f x.rm (fun e => Machine.ffma x.rm (V f (el A e)) (V f (el B e)) (V f (el C e)))
      (fun e => isSnan f (el A e) || isSnan f (el B e) || isSnan f (el C e)) x.d l.t u
  (∀ x : F3, Completes (.hfma2 x) (fma .f16 x)) ∧ (∀ x : F3, Completes (.bfma2 x) (fma .bf16 x))
  ∧ (∀ x : H2, Completes (.hadd2 x) fun l u =>
      let f := if x.bf then FFmt.bf16 else FFmt.f16
      let A := l.srcH 0 f x.a
      let B := l.srcH 1 f x.b
      two f x.rm (fun e => Machine.fadd x.rm (V f (el A e)) (V f (el B e))) (fun e => isSnan f (el A e) || isSnan f (el B e))
        x.d l.t u)
  ∧ (∀ x : H2, Completes (.hmul2 x) fun l u =>
      let f := if x.bf then FFmt.bf16 else FFmt.f16
      let A := l.srcH 0 f x.a
      let B := l.srcH 1 f x.b
      two f x.rm (fun e => Machine.fmul (V f (el A e)) (V f (el B e))) (fun e => isSnan f (el A e) || isSnan f (el B e))
        x.d l.t u)
  ∧ (∀ x : Doth, Completes (.doth2 x) fun l u =>
      let f := if x.bf then FFmt.bf16 else FFmt.f16
      let A := l.srcH 0 f x.a
      let B := l.srcH 1 f x.b
      let D := l.src32 3 x.d.toSrc
      let s1 := accStep (D, flIf (snanWord D) nv) (.fl f) (.fl f) (el A 0) (el B 0) (some 0)
      let s2 := accStep s1 (.fl f) (.fl f) (el A 1) (el B 1) (some 0)
      Puts l.t u false x.d.toDst (s2.1.setWidth 64) s2.2)

/-- R115: an accumulation step is bit-identical to an FFMA with RNE over the same terms. -/
def Sys2Proof.Rules.AccumulationIsFusedMultiplyAdd : Prop :=
  ∀ (acc a b : Word) (fl : Fl) (fa fb : NFmt) (x y : Nat), (v32 a).same (elemV fa x) → (v32 b).same (elemV fb y) →
    (accStep (acc, fl) fa fb x y (some 0)).1 = (ffmaOf .rne a b acc).1

/-- R115, R120, R129, R130: the packed half words and the accumulation step. -/
def Obligations.PackedAndFusedResults : Prop := Rules.PackedHalfResults ∧ Rules.AccumulationIsFusedMultiplyAdd

/-- R131 to R133: conversions through a slot that holds an admitted format. -/
def Sys2Proof.Rules.ConversionResults : Prop :=
  let slotIs (x : FSlot) (f : NFmt) (s : State) (_ : Nat) (t : Thread) : Prop := slotFmt (lrFmt (s.lrecOf t) x.toNat) = some f
  (∀ (x : CvtArg) (f : NFmt), x.toSlot = false → CompletesWhen (.cvt x) (slotIs x.slot f) fun l u =>
      let r := convert f (RTy.fmt x.rt) ((l.srcSlot 0 true f x.a).toNat % 2 ^ f.width) x.rm x.sat
      Puts l.t u x.rt.wide x.d (BitVec.ofNat 64 r.1) r.2)
  ∧ (∀ (x : CvtArg) (f : NFmt), x.toSlot = true → f ≠ .scale → CompletesWhen (.cvt x) (slotIs x.slot f) fun l u =>
      let A : Nat := if x.rt.wide then l.z 0 true x.a else (l.srcSlot 0 true (RTy.fmt x.rt) x.a).toNat
      let r := convert (RTy.fmt x.rt) f (A % 2 ^ (RTy.fmt x.rt).width) x.rm x.sat
      Puts l.t u false x.d (BitVec.ofNat 64 r.1) r.2)
  ∧ (∀ (x : PackArg) (f : NFmt), f.width ≤ 16 → f ≠ .scale → x.e.toNat < 32 / f.width →
      CompletesWhen (.pack x) (slotIs x.slot f) fun l u =>
        let r := convert (.fl .f32) f (l.srcF 0 x.a).toNat x.rm x.sat
        let B := l.src32 1 x.b
        ∃ v : Word, Puts l.t u false x.d (v.setWidth 64) r.2 ∧ bits v (f.width * x.e.toNat) f.width = r.1
          ∧ ∀ i < 32, (i < f.width * x.e.toNat ∨ f.width * (x.e.toNat + 1) ≤ i) → v.getLsbD i = B.getLsbD i)
  ∧ (∀ (x : UnpackArg) (f : NFmt), f.width ≤ 16 → x.e.toNat < 32 / f.width →
      CompletesWhen (.unpack x) (slotIs x.slot f) fun l u =>
        let b := bits (l.srcSlot 0 false f x.a) (f.width * x.e.toNat) f.width
        ∃ v : Word, Puts l.t u false x.d (v.setWidth 64) (elemFl f b) ∧ (elemV f b = .nan → v = 0x7FC00000)
          ∧ (elemV f b ≠ .nan → (v32 v).same (elemV f b)))
  ∧ (∀ (x : FmtqArg) (f : NFmt) (emax : Nat),
      (f, emax) ∈ [(NFmt.fl .e4m3, 8), (.fl .e5m2, 15), (.fl .e2m1, 2), (.fl .f16, 15), (.fl .bf16, 127)] →
      CompletesWhen (.fmtq x) (slotIs x.slot f) fun l u =>
        let A := l.srcF 0 x.a
        ∃ v : DWord, Puts l.t u false x.d v 0 ∧ (0x7F800000 ≤ A.toNat % 2 ^ 31 → v = 0xFF) ∧ (A.toNat % 2 ^ 31 = 0 → v = 0)
          ∧ (0 < A.toNat % 2 ^ 31 → A.toNat % 2 ^ 31 < 0x7F800000 → ∀ k : Int, (2 : ℚ) ^ k ≤ |(v32 A).val| →
              |(v32 A).val| < (2 : ℚ) ^ (k + 1) → (v.toNat : Int) = min (max (k - emax + 127) 0) 254))

/-- R134, R116: DOT8 and DOT4 add their terms to D in ascending order, with the two scale exponents of a block-scaled form. -/
def Sys2Proof.Rules.NarrowDotResults : Prop :=
  let dot (w : Nat) (x : DotArg) (fa fb : NFmt) (l : Lane) (u : Thread) : Prop :=
    let A := l.src32 0 x.a
    let B := l.src32 1 x.b
    let D := l.src32 3 x.d.toSrc
    let k : Option Int := match x.s with
      | none => some 0
      | some z =>
        let S := l.src32 2 z
        if bits S 0 8 = 255 ∨ bits S 8 8 = 255 then none else some (((bits S 0 8 : Int) - 127) + ((bits S 8 8 : Int) - 127))
    let r := (List.range (32 / w)).foldl (fun acc j => accStep acc fa fb (bits A (w * j) w) (bits B (w * j) w) k)
      (D, flIf (snanWord D) nv)
    Puts l.t u false x.d.toDst (r.1.setWidth 64) r.2
  let slots (x : DotArg) (fa fb : NFmt) (s : State) (_ : Nat) (t : Thread) : Prop :=
    slotFmt (lrFmt (s.lrecOf t) x.sa.toNat) = some fa ∧ slotFmt (lrFmt (s.lrecOf t) x.sb.toNat) = some fb
  (∀ (x : DotArg) (fa fb : NFmt), fa ∈ [.fl .e4m3, .fl .e5m2, .int 8 true, .int 8 false] →
      fb ∈ [.fl .e4m3, .fl .e5m2, .int 8 true, .int 8 false] → CompletesWhen (.dot8 x) (slots x fa fb) (dot 8 x fa fb))
  ∧ (∀ (x : DotArg) (fa fb : NFmt), fa ∈ [.fl .e2m1, .int 4 true, .int 4 false] →
      fb ∈ [.fl .e2m1, .int 4 true, .int 4 false] → CompletesWhen (.dot4 x) (slots x fa fb) (dot 4 x fa fb))

/-- R116, R131 to R134: conversions and the narrow dot products. -/
def Obligations.ConversionAndDotResults : Prop := Rules.ConversionResults ∧ Rules.NarrowDotResults

/-- R119: a slot that is empty, or holds a format the instruction does not admit, or an element index the format does not
reach, is fault 0x07 on the lane, which keeps its registers. -/
def Obligations.SlotFaults : Prop :=
  let code (x : FSlot) (s : State) (t : Thread) : Option NFmt := slotFmt (lrFmt (s.lrecOf t) x.toNat)
  let traps (i : Instr) (C : State → Nat → Thread → Prop) : Prop := Traps i C 0x07 (fun _ => 0) (fun _ => 0)
  (∀ x : CvtArg, traps (.cvt x) fun s _ t => code x.slot s t = none ∨ (x.toSlot = true ∧ code x.slot s t = some .scale))
  ∧ (∀ x : PackArg, traps (.pack x) fun s _ t => match code x.slot s t with
      | none => True
      | some f => 16 < f.width ∨ f = .scale ∨ 32 / f.width ≤ x.e.toNat)
  ∧ (∀ x : UnpackArg, traps (.unpack x) fun s _ t => match code x.slot s t with
      | none => True
      | some f => 16 < f.width ∨ 32 / f.width ≤ x.e.toNat)
  ∧ (∀ x : FmtqArg, traps (.fmtq x) fun s _ t => ∀ f, code x.slot s t = some f →
      f ∉ [.fl .e4m3, .fl .e5m2, .fl .e2m1, .fl .f16, .fl .bf16])
  ∧ (∀ x : DotArg, traps (.dot8 x) fun s _ t => ∃ y ∈ [x.sa, x.sb], ∀ f, code y s t = some f →
      f ∉ [.fl .e4m3, .fl .e5m2, .int 8 true, .int 8 false])
  ∧ (∀ x : DotArg, traps (.dot4 x) fun s _ t => ∃ y ∈ [x.sa, x.sb], ∀ f, code y s t = some f →
      f ∉ [.fl .e2m1, .int 4 true, .int 4 false])

/-! ### Registers III (06) -/

/-- R138, R147: a lane that issues a quarter operation under a true guard arrives: its tile counter and its sequence count
rise, its registers, latch and predicates stay. -/
def Sys2Proof.Rules.QuarterWordsIssue : Prop :=
  let slots (a b : FSlot) (i : Instr) (s : State) (_ : Nat) (t : Thread) : Prop := ∃ fa fb : NFmt,
    slotFmt (lrFmt (s.lrecOf t) a.toNat) = some fa ∧ slotFmt (lrFmt (s.lrecOf t) b.toNat) = some fb
      ∧ fa.width = fb.width
      ∧ fa ∈ [.fl .f16, .fl .bf16, .int 16 true, .int 16 false, .fl .e4m3, .fl .e5m2, .int 8 true, .int 8 false, .fl .e2m1,
          .int 4 true, .int 4 false]
      ∧ fb ∈ [.fl .f16, .fl .bf16, .int 16 true, .int 16 false, .fl .e4m3, .fl .e5m2, .int 8 true, .int 8 false, .fl .e2m1,
          .int 4 true, .int 4 false]
      ∧ ∀ e, s.openEnt t = some e → encode i = some e.word ∧ e.pc = t.pc
  let arrived (l : Lane) (u : Thread) : Prop := u = { l.t.sent .tl [] with wins := u.wins, qseq := u.qseq }
  (∀ x : MmaArg, CompletesWhen (.mma x) (slots x.sa x.sb (.mma x)) arrived)
  ∧ (∀ x : MmasArg, CompletesWhen (.mmas x) (slots x.sa x.sb (.mmas x)) arrived)
  ∧ (∀ x : MtrnArg, CompletesWhen (.mtrn x)
      (fun s _ t => ∀ e, s.openEnt t = some e → encode (.mtrn x) = some e.word ∧ e.pc = t.pc) arrived)

/-- R139, R148: a lane whose word or PC differs from the open entry's faults with 0x22; an empty slot, an unadmitted format or
unequal widths with 0x07. -/
def Sys2Proof.Rules.QuarterWordsFault : Prop :=
  let clash (i : Instr) (s : State) (_ : Nat) (t : Thread) : Prop :=
    ∃ e, s.openEnt t = some e ∧ ((∃ w, encode i = some w ∧ e.word ≠ w) ∨ e.pc ≠ t.pc)
  let unfit (a b : FSlot) (s : State) (_ : Nat) (t : Thread) : Prop :=
    (∃ y ∈ [a, b], ∀ f, slotFmt (lrFmt (s.lrecOf t) y.toNat) = some f →
      f ∉ [.fl .f16, .fl .bf16, .int 16 true, .int 16 false, .fl .e4m3, .fl .e5m2, .int 8 true, .int 8 false, .fl .e2m1,
        .int 4 true, .int 4 false])
    ∨ ∃ fa fb, slotFmt (lrFmt (s.lrecOf t) a.toNat) = some fa ∧ slotFmt (lrFmt (s.lrecOf t) b.toNat) = some fb
        ∧ fa.width ≠ fb.width
  let fit (a b : FSlot) (s : State) (k : Nat) (t : Thread) : Prop := ¬ unfit a b s k t
  (∀ x : MtrnArg, Traps (.mtrn x) (clash (.mtrn x)) 0x22 (fun _ => 0) (fun _ => 0))
  ∧ (∀ x : MmaArg, Traps (.mma x) (fun s k t => fit x.sa x.sb s k t ∧ clash (.mma x) s k t) 0x22 (fun _ => 0) (fun _ => 0))
  ∧ (∀ x : MmasArg, Traps (.mmas x) (fun s k t => fit x.sa x.sb s k t ∧ clash (.mmas x) s k t) 0x22 (fun _ => 0) (fun _ => 0))
  ∧ (∀ x : MmaArg, Traps (.mma x) (unfit x.sa x.sb) 0x07 (fun _ => 0) (fun _ => 0))
  ∧ (∀ x : MmasArg, Traps (.mmas x) (unfit x.sa x.sb) 0x07 (fun _ => 0) (fun _ => 0))

/-- R138, R139, R147, R148: where the matrix words of a quarter issue, and where they fault. (A slot that does not fit faults with 0x07 also
where the word clashes with an open entry: the model's choice of the order, log 60.) -/
def Obligations.QuarterWords : Prop := Rules.QuarterWordsIssue ∧ Rules.QuarterWordsFault

/-- R149, R150, R152: MZERO, MFENCE and MCVT complete at issue and leave the latch (R147). -/
def Obligations.FragmentWordsResults : Prop :=
  (∀ x : MzeroArg, Completes (.mzero x) fun l u =>
      let n := if x.cd then 32 else 16
      (∀ i, u.gVal i = if x.d.toNat ≤ i ∧ i < x.d.toNat + n then 0 else l.t.gVal i)
        ∧ u = { l.t with g := u.g, wins := u.wins, olds := u.olds, pcw := l.t.pcw + 1 })
  ∧ (∀ x : GOnly, Completes (.mfence x) fun l u => u = { l.t with olds := [], pcw := l.t.pcw + 1 })
  ∧ (∀ (x : McvtArg) (f : NFmt), f ∈ [.fl .f16, .fl .bf16, .int 16 true, .int 16 false, .fl .e4m3, .fl .e5m2, .int 8 true,
        .int 8 false, .fl .e2m1, .int 4 true, .int 4 false] → x.h.toNat < 16 / f.width →
      CompletesWhen (.mcvt x) (fun s _ t => slotFmt (lrFmt (s.lrecOf t) x.slot.toNat) = some f) fun l u =>
        let w := f.width
        let r (i : Nat) := convert (.fl .f32) f (l.g 1 (x.a.toNat + i)).toNat x.rm x.sat
        let reg (i : Nat) : Nat := x.d.toNat + 8 * (i / 16) + (16 * x.h.toNat + i % 16) / (32 / w)
        (∀ i < 32, bits (u.gVal (reg i)) (w * ((16 * x.h.toNat + i % 16) % (32 / w))) w = (r i).1)
          ∧ (∀ j, (∀ i < 32, j ≠ reg i) → u.gVal j = l.t.gVal j)
          ∧ u.fflags = (List.range 32).foldl (fun a i => a ||| (r i).2) l.t.fflags
          ∧ u = { l.t with g := u.g, wins := u.wins, olds := u.olds, fflags := u.fflags, pcw := l.t.pcw + 1 })

/-- R142, R151: LDFR and STFR with aligned rows in range issue a tile operation of two rows, and their registers stay. STFR stores of
each register its value or, of one that another kind of word wrote with no MFENCE since, a value before it. A misaligned row is
fault 0x10. -/
def Sys2Proof.Rules.FragmentAccessIssues : Prop :=
  let base (x : FragArg) (l : Lane) : Nat := (if x.sp = .g then l.g64 0 x.base.toNat else (l.g 0 x.base.toNat).setWidth 64).toNat
  let row (x : FragArg) (l : Lane) (r : Nat) : Nat :=
    (((base x l : Int) + r * (l.src32 1 x.stride).toInt) % ((2 ^ (if x.sp = .g then 64 else 32) : Nat) : Int)).toNat
  let n (x : FragArg) : Nat := if x.cd then 64 else 32
  let fit (x : FragArg) (nd : Need) (s : State) (k : Nat) (t : Thread) : Prop := ∀ b, ∀ r ∈ [0, 1],
    row x (s.laneAt k t b) r % 16 = 0 ∧ (s.laneAt k t b).rowAtIssue x.sp (row x (s.laneAt k t b) r) (n x) nd = none
  let bad (x : FragArg) (s : State) (k : Nat) (t : Thread) : Prop :=
    ∀ b, row x (s.laneAt k t b) 0 % 16 ≠ 0
  let op (store : Bool) (x : FragArg) (l : Lane) (u : Thread) (o : Op) : Prop :=
    o.cls = .tl ∧ o.kind = .frag store x.cd x.r.toNat (l.src32 1 x.stride).toInt x.sp ∧ o.n = 2 * n x ∧ o.marks = []
      ∧ o.todo = (List.range (n x / 8)).map (fun i => (16 * i, 16))
      ∧ (x.sp ≠ .k → o.va.toNat = base x l)
      ∧ (store = true → ∃ w : Nat → Word, o.buf = (List.range (n x / 2)).flatMap (fun j => leBytes 4 (w j).toNat)
          ∧ ∀ j, w j = l.t.gVal (x.r.toNat + j) ∨ (x.r.toNat + j, w j) ∈ l.t.olds)
      ∧ u = { l.t.sent .tl [] with wins := u.wins }
  (∀ x : FragArg, Issues (.ldfr x) (fit x .read) (op false x)) ∧ (∀ x : FragArg, Issues (.stfr x) (fit x .write) (op true x))
  ∧ (∀ x : FragArg, x.sp = .s → Traps (.ldfr x) (bad x) 0x10 (fun l => BitVec.ofNat 64 (row x l 0)) (fun _ => 0))
  ∧ (∀ x : FragArg, x.sp = .s → Traps (.stfr x) (bad x) 0x10 (fun l => BitVec.ofNat 64 (row x l 0)) (fun _ => 0))

/-- R140, R143, R144: an entry, with those fused with it, takes one of the copse's 64 places; the arbiter grants by age beyond 2048
cycles, then by priority, then by age; a completed entry writes D on its contributing lanes, and their tile counters fall. -/
def Obligations.MatrixEntriesRun : Prop :=
  let places (s : State) (copse : Nat) : Nat :=
    ((s.ments.filter (fun e => e.core / 4 == copse && e.stage != .queued)).map (·.grp)).dedup.length
  let ready (p : Nat) (s : State) (e : MEnt) : Prop := e ∈ s.ments ∧ e.core / 4 = p ∧ e.stage = .admitted
    ∧ ∀ f ∈ s.ments, f.grp = e.grp → s.grantable f = true
  (∀ (c : Nat) (e : MEnt),
    Happens (.matrixEntryAdmit c)
      (fun s => places s (c / 4) < 64 ∧ s.ments.find? (fun f => f.core == c && f.stage == .queued) = some e)
      fun s s' => { e with stage := .admitted, since := s.cycleOf c } ∈ s'.ments
        ∧ (∀ f ∈ s.ments, f.grp = e.grp → { f with stage := .admitted, since := s.cycleOf c } ∈ s'.ments)
        ∧ (∀ f ∈ s.ments, f.grp ≠ e.grp → f ∈ s'.ments) ∧ s' = { s with ments := s'.ments })
  ∧ (∀ c : Nat, Happens (.matrixEntryAdmit c) (fun s => 64 ≤ places s (c / 4)) fun s s' => s' = s)
  ∧ (∀ p : Nat, Happens (.matrixGrant p) (fun s => ∃ e, ready p s e)
      fun s s' => ∃ e, ready p s e
        ∧ (∀ f ∈ s.ments, f.grp = e.grp →
            { f with stage := .granted, res := f.contributors.map (fun pk => (pk.2, s.entryRes f pk.1)) } ∈ s'.ments)
        ∧ (∀ f ∈ s.ments, f.grp ≠ e.grp → f ∈ s'.ments)
        ∧ (∀ f, ready p s f →
            if e.since + 2048 ≤ s.cycleOf (4 * p) ∨ f.since + 2048 ≤ s.cycleOf (4 * p) then e.since ≤ f.since
            else f.prio < e.prio ∨ (f.prio = e.prio ∧ e.since ≤ f.since))
        ∧ s' = { s with ments := s'.ments, fresh := s'.fresh })
  ∧ (∀ (p k : Nat) (e : MEnt) (t : Thread) (regs : List (Nat × Word)) (fl : Fl),
      Happens (.matrixComplete p e.id)
        (fun s => s.ments.find? (fun f => f.id == e.id && f.core / 4 == p && f.stage == .granted) = some e
          ∧ (k, regs, fl) ∈ e.res ∧ e.res.length ≤ 8 ∧ (e.res.map (·.1)).Nodup ∧ (regs.map (·.1)).Nodup
          ∧ s.thread? k = some t ∧ s.quarterSpoilt e = false
          ∧ ∀ w ∈ t.wins, w.spoiltLane = false ∧ w.spoiltRegs = [])
        fun s s' => (∀ f ∈ s'.ments, f ∈ s.ments ∧ f.id ≠ e.id) ∧ ∃ u, s'.thread? k = some u
          ∧ (∀ x ∈ regs, u.gVal x.1 = x.2) ∧ (∀ i, i ∉ regs.map (·.1) → u.gVal i = t.gVal i)
          ∧ u = { t.got .tl [] with g := u.g, wins := u.wins, olds := u.olds, fflags := t.fflags ||| fl })

/-- R137, R148, R116: each element of D is the chain of fused multiply-adds over ascending k, from the fragments of the contributing
lanes, an absent lane's reading zero; for MMAS from D's old value, each product scaled by the two scale bytes of its row, column and
block of 32, less 127 each, a byte of 0xFF making the product NaN. The flags are those of the steps of the position's own elements. -/
def Sys2Proof.Rules.MatrixProducts : Prop :=
  ∀ (s : State) (e : MEnt) (fa fb : NFmt) (d a b pos : Nat) (c sc : Option Nat), pos < 8 →
    ((∃ x : MmaArg, e.op = .mma x ∧ s.teamFmt e.team x.sa = fa ∧ s.teamFmt e.team x.sb = fb ∧ d = x.d.toNat ∧ a = x.a.toNat ∧ b = x.b.toNat
        ∧ c = x.c.map (·.toNat) ∧ sc = none)
      ∨ (∃ x : MmasArg, e.op = .mmas x ∧ s.teamFmt e.team x.sa = fa ∧ s.teamFmt e.team x.sb = fb ∧ d = x.d.toNat ∧ a = x.a.toNat
        ∧ b = x.b.toNat ∧ c = some x.d.toNat ∧ sc = some x.s.toNat)) →
    fa.width = fb.width → fa.width ∈ [4, 8, 16] →
    (∀ k ∈ e.slots, ∀ i, k = some i → ∀ t, s.thread? i = some t → ∀ w ∈ t.wins, w.olds = []) →
    let reg (q i : Nat) : Word := match e.slots.getD q none with
      | none => 0
      | some k => match s.thread? k with
        | none => 0
        | some t => t.gVal i
    let w := fa.width
    let el (f : Nat) (m k : Nat) : Nat := bits (reg (m / 2) (f + 8 * (m % 2) + k / (32 / w))) (w * (k % (32 / w))) w
    let scale (r : Nat) (m k : Nat) : Nat := bits (reg (m / 2) r) (8 * (2 * (m % 2) + k / 32)) 8
    let exp2 (m n k : Nat) : Option Int := match sc with
      | none => some 0
      | some r => if scale r m k = 255 ∨ scale (r + 1) n k = 255 then none
          else some ((scale r m k : Int) - 127 + ((scale (r + 1) n k : Int) - 127))
    let chain (j : Nat) : Word × Fl :=
      let m := 2 * pos + j / 16
      let n := j % 16
      let acc : Word := match c with
        | none => 0
        | some c => reg pos (c + j)
      (List.range (256 / w)).foldl (fun v k => accStep v fa fb (el a m k) (el b n k) (exp2 m n k)) (acc, flIf (snanWord acc) nv)
    (∀ j < 32, (d + j, (chain j).1) ∈ (s.entryRes e pos).1)
      ∧ ∀ i < 5, (s.entryRes e pos).2.getLsbD i = true ↔ ∃ j < 32, (chain j).2.getLsbD i = true

/-- R153: MTRN gives each position the transposed tile. -/
def Sys2Proof.Rules.TransposesTiles : Prop :=
  ∀ (s : State) (e : MEnt) (x : MtrnArg) (m n : Nat), e.op = .mtrn x → m < 16 → n < 16 →
    (∀ k ∈ e.slots, ∀ i, k = some i → ∀ t, s.thread? i = some t → ∀ w ∈ t.wins, w.olds = []) →
    let reg (q i : Nat) : Word := match e.slots.getD q none with
      | none => 0
      | some k => match s.thread? k with
        | none => 0
        | some t => t.gVal i
    if x.w32 then (x.d.toNat + 16 * (m % 2) + n, reg (n / 2) (x.a.toNat + 16 * (n % 2) + m)) ∈ (s.entryRes e (m / 2)).1
    else ∃ v : Word, (x.d.toNat + 8 * (m % 2) + n / 2, v) ∈ (s.entryRes e (m / 2)).1
      ∧ bits v (16 * (n % 2)) 16 = bits (reg (n / 2) (x.a.toNat + 8 * (n % 2) + m / 2)) (16 * (m % 2)) 16

/-- R137, R148, R153: the products and the transpose of a tile. -/
def Obligations.MatrixResults : Prop := Rules.MatrixProducts ∧ Rules.TransposesTiles

/-- R151: an LDFR whose last 16 bytes come from the team's own scratchpad writes its registers, in order, from the two rows. -/
def Sys2Proof.Rules.FragmentAccessEnds : Prop :=
  ∀ (o : Op) (cd : Bool) (r off : Nat) (stride : Int) (t : Thread),
    Happens (.fragmentAccessComplete o.id)
      (fun s => s.op? o.id = some o ∧ o.kind = .frag false cd r stride .s ∧ o.cls = .tl ∧ o.held = none ∧ o.todo = [(off, 16)]
        ∧ o.buf.length = (if cd then 128 else 64) ∧ off + 16 ≤ o.buf.length
        ∧ s.thread? o.slot = some t ∧ t.noReplay ∧ (o.fragVa cd stride .s off) / 2 ^ 23 % 2 = 0)
      fun s s' =>
        let c := o.slot / 512
        let a := o.fragVa cd stride .s off % 2 ^ 18
        let buf := o.buf.take off ++ (List.range 16).map (fun i => Memory.read s.scr (c * 2 ^ 18 + a + i)) ++ o.buf.drop (off + 16)
        s'.op? o.id = none ∧ ∃ u, s'.thread? o.slot = some u
          ∧ (∀ j < (if cd then 32 else 16), u.gVal (r + j) = BitVec.ofNat 32 (leNat ((buf.drop (4 * j)).take 4)))
          ∧ (∀ i, i < r ∨ r + (if cd then 32 else 16) ≤ i → u.gVal i = t.gVal i)
          ∧ u = { t.got .tl o.marks with g := u.g, wins := u.wins, olds := u.olds, tlStamp := u.tlStamp }

/-- R151: fragment loads and stores issue and end. -/
def Obligations.FragmentAccesses : Prop := Rules.FragmentAccessIssues ∧ Rules.FragmentAccessEnds

/-! ### Control and team-call (07) -/

/-- R159 to R162: branches, calls and returns set the PC, CALL and CALLX the lk, the indirect ones the landing check that PAD
clears; a branch may respawn its lane (R164), which changes its state alone. -/
def Sys2Proof.Rules.ControlTransfers : Prop :=
  let target (x : BraArg) (t : Thread) : DWord := t.pc + BitVec.ofInt 64 (8 * x.off.toInt)
  let good (x : BrxArg) (s : State) (k : Nat) (t : Thread) : Prop := ∀ b, ∀ a, a = (s.laneAt k t b).src 0 true x.a →
    a.toNat < 2 ^ 55 ∧ a.toNat % 8 = 0
  (∀ x : BraArg, Completes (.bra x) fun l u => ∃ st ∈ [SlotState.ready, .spawned], u = { l.t with pcw := pcOf (target x l.t), st := st })
  ∧ (∀ x : BraArg, Completes (.call x) fun l u => u = { l.t with pcw := pcOf (target x l.t), lk := l.t.pc + 8 })
  ∧ (∀ x : BrxArg, CompletesWhen (.brx x) (good x) fun l u => ∃ st ∈ [SlotState.ready, .spawned],
      u = { l.t with pcw := pcOf (l.src 0 true x.a), landing := some x.tag, st := st })
  ∧ (∀ x : BrxArg, CompletesWhen (.callx x) (good x) fun l u =>
      u = { l.t with pcw := pcOf (l.src 0 true x.a), landing := some x.tag, lk := l.t.pc + 8 })
  ∧ (∀ x : GOnly, CompletesWhen (.ret x) (fun _ _ t => t.lk.toNat < 2 ^ 55 ∧ t.lk.toNat % 8 = 0) fun l u =>
      u = { l.t with pcw := pcOf l.t.lk })
  ∧ (∀ x : PadArg, Completes (.pad x) fun l u => u = { l.t with landing := none, pcw := l.t.pcw + 1 })
  ∧ (∀ x : GOnly, Completes (.nop x) fun l u => u = { l.t with pcw := l.t.pcw + 1 })
  ∧ (∀ x : YieldArg, Completes (.yld x) fun l u =>
      u = { l.t with yieldUntil := some (l.s.cycleOf (l.slot / 512) + 64 * 2 ^ x.k.toNat), pcw := l.t.pcw + 1 })
  ∧ (∀ x : GOnly, Completes (.rejoin x) fun l u => u = { l.t with rejoinSince := none, rejoinDone := false, pcw := l.t.pcw + 1 })

/-- R155: an indirect transfer to an address at or above 2^55 faults with 0x12, to a misaligned one with 0x10, and the lane
stays at its word. -/
def Sys2Proof.Rules.IndirectTargetFaults : Prop :=
  let far (x : BrxArg) (s : State) (k : Nat) (t : Thread) : Prop := ∀ b, 2 ^ 55 ≤ ((s.laneAt k t b).src 0 true x.a).toNat
  let odd (x : BrxArg) (s : State) (k : Nat) (t : Thread) : Prop := ∀ b, ∀ a, a = (s.laneAt k t b).src 0 true x.a →
    a.toNat < 2 ^ 55 ∧ a.toNat % 8 ≠ 0
  let va (x : BrxArg) (l : Lane) : DWord := l.src 0 true x.a
  (∀ x : BrxArg, Traps (.brx x) (far x) 0x12 (va x) (fun _ => 0)) ∧ (∀ x : BrxArg, Traps (.brx x) (odd x) 0x10 (va x) (fun _ => 0))
  ∧ (∀ x : BrxArg, Traps (.callx x) (far x) 0x12 (va x) (fun _ => 0)) ∧ (∀ x : BrxArg, Traps (.callx x) (odd x) 0x10 (va x) (fun _ => 0))
  ∧ (∀ x : GOnly, Traps (.ret x) (fun _ _ t => 2 ^ 55 ≤ t.lk.toNat) 0x12 (fun l => l.t.lk) (fun _ => 0))
  ∧ (∀ x : GOnly, Traps (.ret x) (fun _ _ t => t.lk.toNat < 2 ^ 55 ∧ t.lk.toNat % 8 ≠ 0) 0x10 (fun l => l.t.lk) (fun _ => 0))

/-- R155, R159 to R162, R164: transfers of control and the faults of their targets. (A target at or above 2^55 that is misaligned too takes
0x12: the model's choice of the order, log 62.) -/
def Obligations.ControlTransfersAndFaults : Prop := Rules.ControlTransfers ∧ Rules.IndirectTargetFaults

/-- R162, R163, R165, R201, R363: EXIT leaves an exited thread with its registers; waits of the core end at their cycle; a regroup
record that is full or 256 cycles old returns its threads to the ready state. -/
def Obligations.ThreadsLeaveAndResume : Prop :=
  (∀ x : GOnly, CompletesWhen (.exit x) (fun s k _ => s.apart k) fun l u => u.st = .exited
      ∧ u = { l.t with st := u.st, lane := u.lane, tsize := u.tsize, ctx := u.ctx, pushed := u.pushed, tcret := u.tcret
                       qseq := u.qseq })
  ∧ (∀ (k c : Nat) (t : Thread), Happens (.yieldBackoffEnd k)
      (fun s => s.thread? k = some t ∧ t.yieldUntil = some c ∧ c ≤ s.cycleOf (k / 512))
      fun s s' => OnlyThread s s' k { t with yieldUntil := none })
  ∧ (∀ (k c : Nat) (t : Thread), Happens (.pollBackoffEnd k)
      (fun s => s.thread? k = some t ∧ t.pollUntil = some c ∧ c ≤ s.cycleOf (k / 512))
      fun s s' => OnlyThread s s' k { t with pollUntil := none })
  ∧ (∀ (k c : Nat) (t : Thread), Happens (.rejoinHoldTimeout k)
      (fun s => s.thread? k = some t ∧ t.rejoinSince = some c ∧ c + 256 ≤ s.cycleOf (k / 512))
      fun s s' => OnlyThread s s' k { t with rejoinDone := true })
  ∧ (∀ (k c : Nat) (t : Thread), Happens (.permitRetry k)
      (fun s => s.thread? k = some t ∧ t.st = .ready ∧ t.due = none ∧ t.retry = some c ∧ c ≤ s.cycleOf (k / 512))
      fun s s' => OnlyThread s s' k { t with retry := none })
  ∧ (∀ (c n : Nat) (r : Regroup), Happens (.regroupReadmit c n)
      (fun s => SMap.find? (s.core c).regroup n = some r ∧ r.admitted = false
        ∧ (32 ≤ r.slots.length ∨ r.since + 256 ≤ s.cycleOf c))
      fun s s' => SMap.find? (s'.core c).regroup n = some { r with admitted := true }
        ∧ ((s'.core c).bough (16 + n)).grid = some r.grid
        ∧ (∀ k ∈ r.slots, ∀ t, s.thread? k = some t → s'.thread? k = some { t with st := if t.st = .spawned then .ready else t.st })
        ∧ (∀ k, k ∉ r.slots → s'.thread? k = s.thread? k) ∧ s' = { s with threads := s'.threads, cores := s'.cores })

/-- R166, R168 to R170: a collective that every awaited lane issues completes at once, with its result on every contributor. -/
def Sys2Proof.Rules.CollectivesComplete : Prop :=
  (∀ x : GOnly, CompletesWhen (.tbar x) (fun s _ t => Gathers s (.tbar x) t) fun l u => u = { l.t with pcw := l.t.pcw + 1 })
  ∧ (∀ x : TvoteArg, CompletesWhen (.tvote x) (fun s _ t => Gathers s (.tvote x) t) fun l u =>
      let v (t : Thread) : Bool := t.pred x.ps ^^ x.neg
      let con := l.s.contributes (.tvote x) l.t
      match x.mode with
      | .all p => ∃ b, PutsPred l.t u p b 0 ∧ (b = true ↔ ∀ j t, con j t → v t = true)
      | .any p => ∃ b, PutsPred l.t u p b 0 ∧ (b = true ↔ ∃ j t, con j t ∧ v t = true)
      | .uni p => ∃ b, PutsPred l.t u p b 0 ∧ (b = true ↔ ∀ j t j' t', con j t → con j' t' → v t = v t')
      | .ballot d w => ∃ y : DWord, Puts l.t u true d y 0 ∧ ∀ n < 64, y.getLsbD n = true ↔
          ∃ j t, con j t ∧ t.lane = 64 * (l.z 1 false w % 8) + n ∧ v t = true
      | .count d => ∃ ks : List Nat, Puts l.t u false d (BitVec.ofNat 64 ks.length) 0 ∧ ks.Nodup
          ∧ ∀ j, j ∈ ks ↔ ∃ t, con j t ∧ v t = true)
  ∧ (∀ x : TxchArg, CompletesWhen (.txch x) (fun s _ t => Gathers s (.txch x) t) fun l u =>
      ∃ y : DWord, Puts l.t u x.w x.d y 0
        ∧ (∀ j t, l.s.contributes (.txch x) l.t j t → t.lane = l.z 1 false x.b → t.lane < l.t.tsize →
            ∃ b, y = (l.s.laneAt j t b).src 0 x.w x.a)
        ∧ ((l.t.tsize ≤ l.z 1 false x.b ∨ ∀ j t, l.s.contributes (.txch x) l.t j t → t.lane ≠ l.z 1 false x.b) → y = 0))

/-- R166: a lane that arrives while another is awaited stalls at its word with the record open; a lane whose word or PC differs
from the open record's faults with 0x22. -/
def Sys2Proof.Rules.CollectivesAwait : Prop :=
  ∀ i : Instr, (match i with
      | .tcall _ | .tcalls _ | .tbar _ | .tvote _ | .txch _ | .tmigr _ => True
      | _ => False) →
    CompletesIn i (fun s _ t => Quiet s i ∧ (∀ j ∈ s.issueSet i, s.apart j) ∧ ∃ m c j, s.team? t.team = some m
        ∧ SMap.find? m.ctxs t.ctx = some c ∧ m.opens = [] ∧ (m.ctxs.map (·.1)).Nodup ∧ (∀ e ∈ m.ctxs, e.2.coll = none)
        ∧ j ∈ c.lanes ∧ s.gone j = false ∧ j ∉ s.issueSet i ∧ s.apart j)
      (fun l s' u => u = { l.t with hold := .coll, qseq := u.qseq }
        ∧ ∃ m c r, s'.team? l.t.team = some m ∧ SMap.find? m.ctxs l.t.ctx = some c ∧ c.coll = some r
          ∧ r.word = (encode i).getD 0 ∧ r.pc = l.t.pc ∧ ∃ a ∈ r.arrs, a.slot = l.slot)
    ∧ Traps i (fun s k t => s.apart k ∧ ∃ m c r, s.team? t.team = some m ∧ SMap.find? m.ctxs t.ctx = some c ∧ c.coll = some r
        ∧ (r.word ≠ (encode i).getD 0 ∨ r.pc ≠ t.pc)) 0x22 (fun _ => 0) (fun _ => 0)

/-- R166, R168 to R170: a team's collectives complete, and await. (That TXCH.d puts 64 bits in its destination is the model's reading, log
74.) -/
def Obligations.CollectivesAct : Prop := Rules.CollectivesComplete ∧ Rules.CollectivesAwait

/-- R172: the lanes of a call by weights are all given out, none to a callee of weight 0, each callee within one lane of its
share. -/
def Sys2Proof.Rules.CallSharesFollowWeights : Prop :=
  ∀ (n : Nat) (w : List Nat), w.sum ≠ 0 →
    (shares n w).length = w.length ∧ (shares n w).sum = n
      ∧ ∀ c < w.length, (w.getD c 0 = 0 → (shares n w).getD c 0 = 0) ∧ n * w.getD c 0 / w.sum ≤ (shares n w).getD c 0
        ∧ (shares n w).getD c 0 ≤ n * w.getD c 0 / w.sum + 1

/-- R171 to R174: a call that can split sends each contributor to its callee as a sub-team; a call that waited for context-table
entries splits when it is granted them; a call of no callee goes on with sr.tcret 0; a call wider than FAN faults with 0x20. -/
def Sys2Proof.Rules.CallsSplitTheTeam : Prop :=
  let sent (s : State) (i : Instr) (team ctx : Nat) (byW : Bool) (cnt : Nat) (k p : Nat) (sub : Nat × Nat × DWord × List Nat) : Prop :=
    ∃ subs, (s.arriveColl i).1.splitsInto team ctx byW cnt subs ∧ sub ∈ subs ∧ sub.2.2.2[p]? = some k
  let alone (s : State) (i : Instr) (t : Thread) : Prop :=
    ∀ j ∈ s.issueSet i, ∀ u, s.thread? j = some u → u.team = t.team ∧ u.ctx = t.ctx
  let split (i : Instr) (x : TcallArg) (byW : Bool) : Prop := ∀ p sub,
    CompletesIn i (fun s k t => Gathers s i t ∧ alone s i t ∧ sent s i t.team t.ctx byW (x.cntm1.toNat + 1) k p sub) fun l s' u =>
      u = l.t.entered sub.2.1 p sub.2.2.2.length sub.2.2.1 x.tag
        ∧ ∃ m c, s'.team? l.t.team = some m ∧ SMap.find? m.ctxs sub.2.1 = some c ∧ c.parent = l.t.ctx ∧ c.ret = l.t.pc + 8
          ∧ c.lanes = sub.2.2.2 ∧ c.coll = none
  let none' (i : Instr) (C : State → Thread → Nat → Prop) : Prop :=
    CompletesWhen i (fun s _ t => Gathers s i t ∧ ∀ j u, s.contributes i t j u → ∀ b, C s u b) fun l u =>
      u = { l.t with tcret := 0, pcw := l.t.pcw + 1 }
  let fan (s : State) (t : Thread) : Nat × Nat := (lrFan (s.lrecOf t), lrDep (s.lrecOf t))
  (∀ x : TcallArg, split (.tcall x) x true) ∧ (∀ x : TcallArg, split (.tcalls x) x false)
  ∧ (∀ x : TcallArg, none' (.tcall x) fun s u b => x.cntm1.toNat + 1 ≤ (fan s u).1
      ∧ (∀ m c, s.team? u.team = some m → SMap.find? m.ctxs u.ctx = some c → c.level ≠ (fan s u).2)
      ∧ ∀ k, (Lane.src ⟨s, k, u, b⟩ 0 true x.a).toNat % 2 ^ (8 * (x.cntm1.toNat + 1)) = 0)
  ∧ (∀ x : TcallArg, Traps (.tcall x) (fun s _ t => Gathers s (.tcall x) t ∧ (fan s t).1 < x.cntm1.toNat + 1) 0x20
      (fun _ => 0) (fun _ => 0))
  ∧ (∀ x : TcallArg, Traps (.tcalls x) (fun s k t => Gathers s (.tcalls x) t ∧ (fan s t).1 < x.cntm1.toNat + 1
      ∧ ∀ b, (Lane.src ⟨s, k, t, b⟩ 0 false x.a).toNat ≤ x.cntm1.toNat) 0x20 (fun _ => 0) (fun _ => 0))
  ∧ (∀ (team ctx k p : Nat) (t : Thread) (byW : Bool) (x : TcallArg) (sub : Nat × Nat × DWord × List Nat),
      Happens (.tcallEntryGrant team ctx)
        (fun s => (∃ m c r, s.team? team = some m ∧ SMap.find? m.ctxs ctx = some c ∧ c.coll = some r ∧ r.wait.isSome = true
            ∧ decodeWord 256 r.word = .ok (if byW then .tcall x else .tcalls x))
          ∧ (∃ subs, s.splitsInto team ctx byW (x.cntm1.toNat + 1) subs ∧ sub ∈ subs ∧ sub.2.2.2[p]? = some k)
          ∧ s.thread? k = some t ∧ t.step = false)
        fun _ s' => s'.thread? k = some (t.entered sub.2.1 p sub.2.2.2.length sub.2.2.1 x.tag))

/-- R171 to R174: a call's shares, and its split. -/
def Obligations.CallsShareAndSplit : Prop := Rules.CallSharesFollowWeights ∧ Rules.CallsSplitTheTeam

/-- R173, R174: TRET waits in the returned state; the last lane of the last sub-team brings the parent back, with its pushed
sr.lane and sr.tsize, sr.tcret naming the callees, at the return PC. With an empty stack TRET faults with 0x20. -/
def Obligations.ReturnsRejoin : Prop :=
  (∀ x : GOnly, CompletesWhen (.tret x) (fun s k t => t.ctx ≠ 0 ∧ s.apart k
      ∧ (∀ j ∈ s.issueSet (.tret x), ∀ u, s.thread? j = some u → u.team = t.team) ∧ ∃ m c j, s.team? t.team = some m
      ∧ (∀ e ∈ m.ctxs, k ∈ e.2.lanes → e.1 = t.ctx ∨ e.2.state ≠ 1) ∧ SMap.find? m.ctxs t.ctx = some c
      ∧ (m.ctxs.map (·.1)).Nodup ∧ (∀ e ∈ m.ctxs, e.2.coll = none)
      ∧ j ∈ c.lanes ∧ s.gone j = false ∧ j ∉ s.issueSet (.tret x)) fun l u =>
        u = { l.t with st := .returned, due := none, qseq := u.qseq })
  ∧ (∀ (x : GOnly) (lane size : Nat) (up : List (Nat × Nat)) (called : BitVec 8) (ret : DWord),
      CompletesWhen (.tret x) (fun s k t => t.ctx ≠ 0 ∧ t.pushed = up ++ [(lane, size)] ∧ Quiet s (.tret x)
        ∧ (∀ j ∈ s.issueSet (.tret x), s.apart j ∧ ∀ u, s.thread? j = some u → u.team = t.team)
        ∧ ∃ m c p, s.team? t.team = some m ∧ m.opens = [] ∧ (m.ctxs.map (·.1)).Nodup ∧ SMap.find? m.ctxs t.ctx = some c
          ∧ SMap.find? m.ctxs c.parent = some p ∧ c.level = p.level + 1 ∧ p.state = 2 ∧ p.called = called ∧ p.callRet = ret
          ∧ c.parent ≠ t.ctx
          ∧ (∀ e ∈ m.ctxs, e.2.coll = none ∧ (e.2.state = 2 → e.1 = c.parent ∨ e.2.level < p.level))
          ∧ c.lanes.Nodup ∧ k ∈ c.lanes ∧ (∀ e ∈ m.ctxs, e.1 ≠ t.ctx → (e.2.state = 1 ∨ e.2.level = c.level) → k ∉ e.2.lanes)
          ∧ ∀ e ∈ m.ctxs, e.2.level = c.level → e.2.parent = c.parent → e.2.state = 1 ∧ ∀ j ∈ e.2.lanes,
              s.gone j = true ∨ (j ∈ s.issueSet (.tret x) ∧ ∃ u, s.thread? j = some u ∧ x.gd.holds u = true ∧ u.ctx ≠ 0))
        fun l u => ∃ m c, l.s.team? l.t.team = some m ∧ SMap.find? m.ctxs l.t.ctx = some c
          ∧ u = { l.t with st := .ready, pcw := pcOf ret, lane := lane, tsize := size, pushed := up, ctx := c.parent, tcret := called
                           due := none })
  ∧ (∀ x : GOnly, Traps (.tret x) (fun s k t => t.ctx = 0 ∧ s.apart k) 0x20 (fun _ => 0) (fun _ => 0))

/-! ### Teams and grids (02, 07, 13) -/

/-- R176, R53, R54: TMIGR to the team's own core moves nothing; to a core of the grove that has room it begins the move; a core
number of 24 or more faults with 0x23 on every contributor. The leader's core number counts. -/
def Sys2Proof.Rules.TeamsMigrate : Prop :=
  let leads (x : TmigrArg) (s : State) (t : Thread) (a : Nat) : Prop := Gathers s (.tmigr x) t ∧ t.ctx = 0
    ∧ (∀ j u, s.contributes (.tmigr x) t j u → t.lane ≤ u.lane)
    ∧ (∀ j ∈ s.issueSet (.tmigr x), ∀ u, s.thread? j = some u → u.team = t.team)
    ∧ ∀ k b, (Lane.src ⟨s, k, t, b⟩ 0 false x.a).toNat = a
  (∀ (x : TmigrArg) (a : Nat) (m : Team), CompletesIn (.tmigr x) (fun s _ t => leads x s t a ∧ s.team? t.team = some m
      ∧ a < 24 ∧ m.core = m.core / 24 * 24 + a)
    fun l s' u => u = { l.t with pcw := l.t.pcw + 1 } ∧ ∃ m', s'.team? l.t.team = some m' ∧ m'.moving = m.moving ∧ m'.core = m.core)
  ∧ (∀ (x : TmigrArg) (a f o : Nat) (m : Team), CompletesIn (.tmigr x) (fun s _ t => leads x s t a ∧ s.team? t.team = some m
      ∧ a < 24 ∧ m.core ≠ m.core / 24 * 24 + a
      ∧ s.fitOn (m.core / 24 * 24 + a) m.grid (needOf (s.lrecOfTeam m)) (some m.argp) = some (f, o))
    fun l s' u => u = { l.t with pcw := l.t.pcw + 1 } ∧ ∃ m', s'.team? l.t.team = some m' ∧ m'.moving = some (m.core / 24 * 24 + a, f))
  ∧ (∀ (x : TmigrArg) (a : Nat), 24 ≤ a → Traps (.tmigr x) (fun s _ t => leads x s t a) 0x23 (fun _ => BitVec.ofNat 64 a) (fun _ => 0))

/-- R53: a team that moves stands on its new core with its region's bytes and its threads' registers, counts and PCs, and its old
slots are free. -/
def Sys2Proof.Rules.MovedTeamsKeepTheirState : Prop :=
  ∀ (team core first i : Nat) (m : Team) (t : Thread), Happens (.teamMigration team)
    (fun s => s.team? team = some m ∧ m.moving = some (core, first) ∧ core ≠ m.core ∧ s.teamBusy m = false
      ∧ (s.recsOf m).length ≤ s.permits core ∧ m.first + m.n ≤ 512 ∧ first + m.n ≤ 512 ∧ i < m.n
      ∧ (∀ j < m.n, (s.thread? (m.core * 512 + m.first + j)).isSome) ∧ m.argp + regionSpan m.region ≤ 2 ^ 18
      ∧ s.thread? (m.core * 512 + m.first + i) = some t ∧ t.st ≠ .waiting)
    fun s s' => s'.thread? (m.core * 512 + m.first + i) = none
      ∧ (∃ m', s'.team? team = some m' ∧ m'.core = core ∧ m'.first = first ∧ m'.argp = m.argp ∧ m'.moving = none ∧ m'.opens = m.opens)
      ∧ (∀ a < regionSpan m.region, Memory.read s'.scr (core * 2 ^ 18 + m.argp + a) = Memory.read s.scr (m.core * 2 ^ 18 + m.argp + a))
      ∧ ∃ u, s'.thread? (core * 512 + first + i) = some u ∧ u.g = t.g ∧ u.o = t.o ∧ u.lat = t.lat ∧ u.preds = t.preds ∧ u.lk = t.lk
        ∧ u.pc = t.pc ∧ u.fflags = t.fflags ∧ u.cnt = t.cnt ∧ u.lane = t.lane ∧ u.tsize = t.tsize ∧ u.qseq = t.qseq
        ∧ u.yieldUntil = none ∧ u.pollUntil = none

/-- R53, R54, R176: a team moves, with its state. -/
def Obligations.TeamMigration : Prop := Rules.TeamsMigrate ∧ Rules.MovedTeamsKeepTheirState

/-- R177, R309: the leader of a GLAUNCH is held with its request made; another lane gets zero. GRID_CREATE makes the grid of the
bound record its handle names, and the leader goes on with its id. -/
def Sys2Proof.Rules.LaunchesCreateGrids : Prop :=
  (∀ x : TxchArg, CompletesWhen (.glaunch x) (fun _ _ t => t.lane ≠ 0) fun l u => Puts l.t u false x.d 0 0)
  ∧ (∀ (x : TxchArg) (m : Team) (g : Grid), CompletesIn (.glaunch x)
      (fun s k t => t.lane = 0 ∧ s.team? t.team = some m ∧ s.grid? m.grid = some g ∧ g.depth ≠ 10
        ∧ ∀ b, ∀ o, o = (s.laneAt k t b).z 1 false x.b → o % 16 = 0 ∧ m.argp ≤ o ∧ o + 128 ≤ m.argp + m.region)
      fun l s' u => ∃ r ∈ s'.greqs, u = { l.t with hold := .glaunch r.id } ∧ r.part = l.part
        ∧ r.handle = l.src32 0 x.a ∧ r.depth = g.depth + 1 ∧ r.parent = some m.grid ∧ r.slot = some l.slot ∧ r.d = x.d
        ∧ r.args = (List.range 128).map (fun i => Memory.read l.s.scr (l.slot / 512 * 2 ^ 18 + l.z 1 false x.b + i)))
  ∧ (∀ x : TxchArg, Traps (.glaunch x) (fun s _ t => t.lane = 0 ∧ ∃ m g, s.team? t.team = some m ∧ s.grid? m.grid = some g
      ∧ g.depth = 10) 0x21 (fun _ => 0) (fun _ => 0))
  ∧ (∀ (n : Nat) (gid : BitVec 32) (r : GReq) (e : LEntry) (k : Nat) (t : Thread), Happens (.gridCreate n gid)
      (fun s => s.greqs.find? (fun q => q.id == n) = some r ∧ r.slot = some k ∧ s.accessBelow k r.after = false
        ∧ s.pendingGrids r.part < 65536 ∧ s.gidFree r.part gid = true ∧ (s.part r.part).named r.handle = some e
        ∧ (∃ p g, r.parent = some p ∧ s.grid? p = some g ∧ g.ctx = e.ctx ∧ p ≠ r.part * 2 ^ 32 + gid.toNat)
        ∧ s.thread? k = some t ∧ t.step = false)
      fun s s' => (∃ u, s'.thread? k = some { u with hold := .none } ∧ Puts t u false r.d (gid.setWidth 64) 0)
        ∧ ∃ g, s'.grid? (r.part * 2 ^ 32 + gid.toNat) = some g ∧ g.gid = gid ∧ g.lrec = e.bytes ∧ g.depth = r.depth
          ∧ g.parent = r.parent ∧ g.args = r.args ∧ g.ctx = e.ctx ∧ g.pending = true ∧ g.children = 0 ∧ g.next = 0
          ∧ g.remaining = lrTeams e.bytes ∧ g.age = ((s.part r.part).gridAge + 1) % 2 ^ 48)

/-- R310 to R312, R44 to R46: the placer places the next team of the first grid in its order, on the chosen core: one ready thread
for each lane, at the entry PC, with registers zero. -/
def Sys2Proof.Rules.PlacerPlacesTeams : Prop :=
  ∀ (p key i : Nat) (g : Grid) (rest : List (Nat × Grid)) (x : Room), Happens (.placerStep p)
    (fun s => (s.part p).v = true ∧ (s.part p).resv = none ∧ s.order310 p = (key, g) :: rest ∧ lrRb g.lrec = false
      ∧ s.chooseRoom p key g.lrec none (fun _ => true) = some x ∧ s.grid? key = some g ∧ i < lrTeam g.lrec)
    fun s s' => (∃ m, s'.team? s.nextTeam = some m ∧ m.grid = key ∧ m.index = g.next ∧ m.core = x.core ∧ m.first = x.first
        ∧ m.n = lrTeam g.lrec ∧ m.argp = x.argp ∧ m.region = max (lrScr g.lrec) 128 ∧ m.moving = none)
      ∧ s'.grid? key = some { g with next := g.next + 1, pending := decide (g.next + 1 < lrTeams g.lrec), since := s.time }
      ∧ ∃ u, s'.thread? (x.core * 512 + x.first + i) = some u ∧ u.st = .ready ∧ u.team = s.nextTeam ∧ u.lane = i ∧ u.plane = i
        ∧ u.tsize = lrTeam g.lrec ∧ u.pcw = pcOf (BitVec.ofNat 64 (lrEntry g.lrec)) ∧ (∀ j, u.gVal j = 0 ∧ u.oVal j = 0) ∧ u.lat = 0
        ∧ u.preds = 0 ∧ u.lk = 0 ∧ u.fflags = 0 ∧ u.cnt = ⟨0, 0, 0, 0⟩ ∧ u.landing = none ∧ u.step = false

/-- R55, R56, R307: a team with every thread exited and nothing outstanding frees its slots, and its grid counts one less; a
grid of no teams and no children ends, and its parent counts one child less. -/
def Sys2Proof.Rules.TeamsAndGridsRetire : Prop :=
  (∀ (id : Nat) (m : Team) (g : Grid), Happens (.teamRetire id)
    (fun s => s.team? id = some m ∧ s.grid? m.grid = some g ∧ s.teamQuiet m = true
      ∧ ∀ k ∈ m.slots, ∀ t, s.thread? k = some t → t.st = .exited)
    fun s s' => s'.team? id = none ∧ (∀ k ∈ m.slots, s'.thread? k = none) ∧ (∀ k, k ∉ m.slots → s'.thread? k = s.thread? k)
      ∧ s'.grid? m.grid = some { g with remaining := g.remaining - 1 } ∧ s'.scr = s.scr ∧ s'.mem = s.mem)
  ∧ (∀ (id k : Nat) (g q : Grid), Happens (.gridRetire id)
    (fun s => s.grid? id = some g ∧ g.remaining = 0 ∧ g.children = 0 ∧ g.parent = some k ∧ k ≠ id ∧ s.grid? k = some q)
    fun s s' => s'.grid? id = none ∧ s'.grid? k = some { q with children := q.children - 1 } ∧ s'.threads = s.threads
      ∧ s'.teams = s.teams
      ∧ ∀ n, ((s'.part g.part).lentry n).live = if n = g.handle.toNat % 4096
          ∧ ((s.part g.part).lentry n).gen.toNat = g.handle.toNat / 4096 % 2 ^ 16
        then ((s.part g.part).lentry n).live - 1 else ((s.part g.part).lentry n).live)

/-- R44 to R46, R55, R56, R177, R307, R309 to R312: grids are created, teams placed, and both retire. -/
def Obligations.GridsAndTeams : Prop := Rules.LaunchesCreateGrids ∧ Rules.PlacerPlacesTeams ∧ Rules.TeamsAndGridsRetire

/-! ### Memories (08) -/

/-- R179, R180: where a scratchpad address leads. Below 2^23 it is the team's own region or nowhere; with bit 23 set it is the
grove window of a core below 24; at or above 2^24 it is nowhere. -/
def Sys2Proof.Rules.ScratchpadAddresses : Prop :=
  ∀ (l : Lane) (m : Team) (x n : Nat), l.s.team? l.t.team = some m → 0 < n →
    (2 ^ 24 ≤ x → l.rangeFault .s x n = some 0x18)
    ∧ (x < 2 ^ 23 → if x < 2 ^ 18 ∧ m.argp ≤ x ∧ x + n ≤ m.argp + m.region ∧ x + n ≤ 2 ^ 18 then
          l.reaches .s (BitVec.ofNat 64 x) n .read (.scr (l.slot / 512) x false)
        else l.rangeFault .s x n = some 0x18)
    ∧ (2 ^ 23 ≤ x → x < 2 ^ 24 → if x / 2 ^ 18 % 32 < 24 ∧ x % 2 ^ 18 + n ≤ 2 ^ 18 then
          l.reaches .s (BitVec.ofNat 64 x) n .read (.scr (l.slot / 512 / 24 * 24 + x / 2 ^ 18 % 32) (x % 2 ^ 18) true)
        else l.rangeFault .s x n = some 0x18)

/-- R197, R199, R200, R202: a load, store, atomic or reduction that passes the checks of R196 is outstanding with its address,
place, width, order and pending marks; no register changes before it completes. -/
def Sys2Proof.Rules.MemoryWordsIssue : Prop :=
  let nb (w : MW) : Nat := match w with
    | .b => 1
    | .h => 2
    | .w => 4
    | .d => 8
    | .q => 16
  let fits (al : Bool) (sc : Option Scope) (sp : Space) (nd : Need) (n : Nat) (va : Lane → DWord) (s : State) (k : Nat) (t : Thread) :
      Prop := ∀ b, ∃ p, (s.laneAt k t b).reaches sp (va (s.laneAt k t b)) n nd p
        ∧ (al = true → (va (s.laneAt k t b)).toNat % n = 0) ∧ ∀ y, sc = some y → (s.scopeOf (s.partOf k) y).isSome = true
  let shape (sp : Space) (nd : Need) (n : Nat) (va : Lane → DWord) (l : Lane) (o : Op) : Prop :=
    o.va = l.opVa sp (va l) ∧ o.n = n ∧ o.held = none ∧ o.todo = pieces o.va.toNat n ∧ ∃ p, l.reaches sp (va l) n nd p ∧ o.place = p
  let free (s : State) (k : Nat) (scr : Bool) (n : Nat) (va : Lane → DWord) (op : AOp) (t : Thread) : Prop := ∀ b,
    (scr = true ∨ (s.part (s.partOf k)).rwinAt (va (s.laneAt k t b)).toNat = none)
      ∧ ∀ ld a, (s.laneAt k t b).reaches (if scr then .s else .g) (va (s.laneAt k t b)) n .write (.host ld a) →
        op ∈ [.add, .xchg, .cas] ∨ s.canFallBack (s.partOf k) = true
  let awide (w : Bool) : Nat := if w then 8 else 4
  (∀ x : LdArg, Issues (.ld x) (fits false none x.sp .read (nb x.w) (fun l => l.at x.sp x.base x.off)) fun l u o =>
      shape x.sp .read (nb x.w) (fun l => l.at x.sp x.base x.off) l o ∧ o.cls = .ld ∧ o.kind = .load x.d x.w x.sx x.yld x.hint
        ∧ o.marks = x.d.ids x.w ∧ o.acq = none ∧ o.rel = none ∧ SentTo l.t u .ld o.marks)
  ∧ (∀ x : LdaArg, Issues (.lda x) (fits true (some x.scope) x.sp .read (nb x.w) (fun l => l.at x.sp x.base x.off)) fun l u o =>
      shape x.sp .read (nb x.w) (fun l => l.at x.sp x.base x.off) l o ∧ o.cls = .ld ∧ o.kind = .load x.d x.w false x.yld x.hint
        ∧ o.marks = x.d.ids x.w ∧ o.acq = l.s.scopeOf l.part x.scope ∧ o.rel = none ∧ SentTo l.t u .ld o.marks)
  ∧ (∀ x : StArg, Issues (.st x) (fits false none x.sp .write (nb x.w) (fun l => l.at x.sp x.base x.off)) fun l u o =>
      shape x.sp .write (nb x.w) (fun l => l.at x.sp x.base x.off) l o ∧ o.cls = .st ∧ o.marks = [] ∧ o.acq = none ∧ o.rel = none
        ∧ SentTo l.t u .st [] ∧ ∃ data, o.kind = .store data x.hint ∧ data.length = nb x.w
          ∧ ((∀ i, x.data ≠ .g i) ∨ x.w ≠ .q → bytesNat data = (l.src 3 (x.w == .d) x.data).toNat % 2 ^ (8 * nb x.w))
          ∧ (∀ i, x.data = .g i → x.w = .q → bytesNat data = ((List.range 4).map (fun j => (l.g 3 (i.toNat + j)).toNat * 2 ^ (32 * j))).sum))
  ∧ (∀ x : StlArg, Issues (.stl x) (fits true (some x.scope) x.sp .write (nb x.w) (fun l => l.at x.sp x.base x.off)) fun l u o =>
      shape x.sp .write (nb x.w) (fun l => l.at x.sp x.base x.off) l o ∧ o.cls = .st ∧ o.marks = [] ∧ o.acq = none
        ∧ o.rel = l.s.scopeOf l.part x.scope ∧ SentTo l.t u .st [] ∧ ∃ data, o.kind = .store data x.hint ∧ data.length = nb x.w
          ∧ ((∀ i, x.data ≠ .g i) ∨ x.w ≠ .q → bytesNat data = (l.src 3 (x.w == .d) x.data).toNat % 2 ^ (8 * nb x.w)))
  ∧ (∀ x : AtomArg,
      let sp := if x.scr then Space.s else .g
      let va (l : Lane) : DWord := l.src 0 (!x.scr) x.base.toSrc
      Issues (.atom x) (fun s k t => fits true (some x.scope) sp .write (awide x.w) va s k t ∧ free s k x.scr (awide x.w) va x.op t)
        fun l u o => shape sp .write (awide x.w) va l o ∧ o.cls = .ld
          ∧ o.kind = .atom x.d x.w x.op (if x.op = .fadd then (l.srcF 1 x.b).setWidth 64 else l.src 1 x.w x.b)
              ((x.c.map (l.src 2 x.w)).getD 0)
          ∧ o.marks = (match x.d with
            | none => []
            | some d => d.ids (if x.w then .d else .w))
          ∧ o.acq = (if x.order = .acq ∨ x.order = .ar then l.s.scopeOf l.part x.scope else none)
          ∧ o.rel = (if x.order = .rel ∨ x.order = .ar then l.s.scopeOf l.part x.scope else none) ∧ SentTo l.t u .ld o.marks)
  ∧ (∀ x : RedArg,
      let sp := if x.scr then Space.s else .g
      let va (l : Lane) : DWord := l.src 0 (!x.scr) x.base.toSrc
      Issues (.red x) (fun s k t => fits true (some x.scope) sp .write (awide x.w) va s k t ∧ free s k x.scr (awide x.w) va x.op t)
        fun l u o => shape sp .write (awide x.w) va l o ∧ o.cls = .st ∧ o.marks = []
          ∧ o.kind = .red x.w x.op (if x.op = .fadd then (l.srcF 1 x.b).setWidth 64 else l.src 1 x.w x.b)
          ∧ o.acq = none ∧ o.rel = (if x.rel then l.s.scopeOf l.part x.scope else none) ∧ SentTo l.t u .st [])

/-- R179, R180, R196, R197, R199, R200, R202: the addresses of accesses, and the operations they issue. -/
def Obligations.MemoryAddressesAndIssue : Prop := Rules.ScratchpadAddresses ∧ Rules.MemoryWordsIssue

/-- R196: the faults of an access at issue, in order: a misaligned acquire, release or atomic 0x10; out of range 0x12 or 0x18; a denied
scope 0x14; then what translation met. The lane parks with nothing done. (The address recorded for a `.k` access is CBLK plus its offset:
the model's reading, log 23.) -/
def Obligations.MemoryWordsFault : Prop :=
  let every (va : Lane → DWord) (P : Lane → DWord → Prop) (s : State) (k : Nat) (t : Thread) : Prop := ∀ b,
    P (s.laneAt k t b) (va (s.laneAt k t b))
  (∀ x : LdArg, x.sp = .g → Traps (.ld x) (every (fun l => l.at x.sp x.base x.off) fun _ a => 2 ^ 55 ≤ a.toNat) 0x12
      (fun l => l.at x.sp x.base x.off) (fun _ => 0))
  ∧ (∀ x : StArg, x.sp = .s → Traps (.st x) (every (fun l => l.at x.sp x.base x.off) fun _ a => 2 ^ 24 ≤ a.toNat) 0x18
      (fun l => l.at x.sp x.base x.off) (fun _ => 0))
  ∧ (∀ x : LdArg, x.sp = .k → Traps (.ld x) (every (fun l => l.at x.sp x.base x.off) fun l a =>
      lrClen (l.s.lrecOf l.t) < a.toNat + x.w.bytes) 0x12
      (fun l => BitVec.ofNat 64 (lrCblk (l.s.lrecOf l.t) + (l.at x.sp x.base x.off).toNat)) (fun _ => 0))
  ∧ (∀ x : LdaArg, x.sp ≠ .k → Traps (.lda x) (every (fun l => l.at x.sp x.base x.off) fun _ a => a.toNat % x.w.bytes ≠ 0) 0x10
      (fun l => l.at x.sp x.base x.off) (fun _ => 0))
  ∧ (∀ x : StlArg, Traps (.stl x) (every (fun l => l.at x.sp x.base x.off) fun _ a => a.toNat % x.w.bytes ≠ 0 ∧ x.sp ≠ .k) 0x10
      (fun l => l.at x.sp x.base x.off) (fun _ => 0))
  ∧ (∀ x : AtomArg, Traps (.atom x) (every (fun l => l.src 0 (!x.scr) x.base.toSrc) fun _ a => a.toNat % (if x.w then 8 else 4) ≠ 0)
      0x10 (fun l => l.src 0 (!x.scr) x.base.toSrc) (fun _ => 0))
  ∧ (∀ x : RedArg, x.scr = false → Traps (.red x) (every (fun l => l.src 0 true x.base.toSrc) fun l a =>
      a.toNat % (if x.w then 8 else 4) = 0 ∧ a.toNat < 2 ^ 55 ∧ l.s.scopeOf l.part x.scope = none)
      0x14 (fun l => l.src 0 true x.base.toSrc) (fun _ => 0))
  ∧ (∀ (x : LdArg) (c : BitVec 8), x.sp = .g → c ≠ 0x40 → c ≠ 0x17 → Traps (.ld x)
      (every (fun l => l.at x.sp x.base x.off) fun l a => a.toNat < 2 ^ 55 ∧ l.find .g a.toNat x.w.bytes .read true = .fault c) c
      (fun l => l.at x.sp x.base x.off) (fun _ => 0))

/-- R203 to R205, R236, R237: FENCE completes at once and notes, by its order and by what its scope covers, the operations before it;
from then on an access of its thread does not issue while it is held: any access while a read before an `.acq` or `.ar` fence is
outstanding; a store or atomic (`.rel`), or any access (`.ar`), while an operation before the fence is outstanding and both lie in memory
that the scope covers, or, where the scope stays within the L1 domain, is no store seen there. PREF changes no register, and DISC and
CLEAN are outstanding in the store class. (Which operations a fence holds up, and from when, is log 12's reading.) -/
def Sys2Proof.Rules.FencesAndLineWords : Prop :=
  let put (l : Lane) (sc : Scope) (p : Prop) [Decidable p] (v : FenceN) : FenceN :=
    if ¬ p then v
    else if l.s.beyondL1 (l.slot / 512) sc = false then { v with near := l.s.nextOp }
    else if sc.code.toNat ≤ 5 then { v with dev := l.s.nextOp }
    else if sc = .sys then { v with sys := l.s.nextOp }
    else { v with fab := l.s.nextOp }
  let held (s : State) (k : Nat) (t : Thread) (i : Instr) (o : Op) (v : FenceN) : Prop := o.kind.ordered = true
    ∧ (o.id < v.fab ∨ (o.id < v.sys ∧ s.wordReach k t i ≤ 1 ∧ o.onFar = false) ∨ (o.id < v.dev ∧ s.wordReach k t i = 0 ∧ o.onHost = false)
      ∨ (o.id < v.near ∧ s.wordReach k t i = 0 ∧ o.onHost = false ∧ o.seen = false))
  let waits (P : State → Nat → Instr → Thread → Op → Prop) : Prop := ∀ (s : State) (k : Nat) (i : Instr) (t : Thread) (o : Op),
    s.thread? k = some t → landingOk i t = true → o ∈ s.ops → o.slot = k → P s k i t o → s.passes k t i = false ∧ k ∉ s.issueSet i
  (∀ x : FenceArg, CompletesWhen (.fence x) (fun s k _ => (s.scopeOf (s.partOf k) x.scope).isSome = true) fun l u =>
      ∃ sc, l.s.scopeOf l.part x.scope = some sc
        ∧ u = { l.t with pcw := l.t.pcw + 1, fRel := put l sc (x.order ≠ .acq) l.t.fRel, fAcq := put l sc (x.order ≠ .rel) l.t.fAcq
                         fAr := put l sc (x.order = .ar) l.t.fAr, relCore := u.relCore, relGrove := u.relGrove
                         relDev := u.relDev, renew := u.renew, acqStamp := u.acqStamp })
  ∧ waits (fun _ _ i t o => (i.useOn t).fenced = true ∧ o.kind.reads = true ∧ (o.id < t.fAcq.last ∨ o.id < t.fAr.last))
  ∧ waits (fun s k i t o => i.useOn t = .store ∧ held s k t i o t.fRel)
  ∧ waits (fun s k i t o => (i.useOn t).fenced = true ∧ held s k t i o t.fAr)
  ∧ (∀ x : FenceArg, Traps (.fence x) (fun s k _ => s.scopeOf (s.partOf k) x.scope = none) 0x14 (fun _ => 0) (fun _ => 0))
  ∧ (∀ x : PrefArg, Completes (.pref x) fun l u => u = { l.t with pcw := l.t.pcw + 1 })
  ∧ (∀ (x : LineArg) (disc : Bool), Issues (if disc then .disc x else .clean x)
      (fun s k t => ∀ b, ∃ p tlb, p ≠ .later ∧ ((s.laneAt k t b).at .g x.base x.off).toNat < 2 ^ 55
        ∧ (s.laneAt k t b).find .g ((s.laneAt k t b).at .g x.base x.off).toNat 1 (if disc then .write else .read) false = .here p tlb)
      fun l u o => o.cls = .st ∧ o.kind = (if disc then .disc else .clean) ∧ o.va = l.at .g x.base x.off ∧ o.marks = []
        ∧ SentTo l.t u .st [])

/-- R232, R235 to R237, R190: an operation of a lane that stands in program order may be performed just when no hold is on it; no earlier
operation of its lane shares bytes with it, but for a store that a load finds in the L1 and that no overflow has held; no earlier
acquiring operation, and for a releasing one no earlier access, is outstanding in memory that the scope covers for both, stores seen in
the L1 domain apart where the release stays there; and for a release beyond it no store that the lane read early. Until then the step
that would perform it changes nothing. (The order is log 12's reading of chapter 10: stricter than R231 asks.) -/
def Sys2Proof.Rules.OperationsKeepOrder : Prop :=
  let out (sc : Scope) (o p : Op) : Prop :=
    (sc.code.toNat ≤ 5 ∧ (o.onHost = true ∨ p.onHost = true)) ∨ (sc = .sys ∧ (o.onFar = true ∨ p.onFar = true))
  let after (s : State) (o p : Op) : Prop :=
    (p.kind.inPo = true ∧ overlaps o p = true ∧ ¬ (o.kind.isLoad = true ∧ p.seen = true ∧ p.stood = false))
    ∨ (∃ sc, p.acq = some sc ∧ ¬ out sc o p)
    ∨ (∃ sc, o.rel = some sc ∧ ¬ out sc o p ∧ p.kind.ordered = true ∧ (s.beyondL1 (o.slot / 512) sc = true ∨ p.seen = false))
  (∀ (s : State) (o : Op), o.kind.inPo = true →
    (s.mayPerform o = true ↔ o.held = none ∧ (∀ p ∈ s.ops, p.slot = o.slot → p.id < o.id → ¬ after s o p)
      ∧ ∀ sc, o.rel = some sc → s.beyondL1 (o.slot / 512) sc = true → ¬ out sc o o → s.earlyBelow o.slot o.id = false))
  ∧ (∀ (o : Op), Happens (if o.cls = .st then .storePerformed o.id else .atomicPerformed o.id)
      (fun s => s.op? o.id = some o ∧ o.kind.isLoad = false ∧ o.kind.inPo = true ∧ o.rel = none ∧ s.mayPerform o = false)
      fun s s' => s' = s)
  ∧ (∀ (o : Op), Happens (.loadComplete o.id)
      (fun s => s.op? o.id = some o ∧ o.kind.isLoad = true ∧ s.mayPerform o = false ∧ s.storesOf (s.domain (o.slot / 512)) = [])
      fun s s' => s' = s)

/-- R195, R197, R199, R201: a load that completes writes its destination with the bytes found, low byte first, sign-extended to 32
bits under `.sx`; its marks and its counter fall; `.yield` polls. -/
def Obligations.LoadsComplete : Prop :=
  ∀ (o : Op) (d : LDst) (mw : MW) (sx yld : Bool) (hint : Hint) (t : Thread) (bs : List Byte), Happens (.loadComplete o.id)
    (fun s => s.op? o.id = some o ∧ o.kind = .load d mw sx yld hint ∧ o.cls = .ld ∧ o.n = mw.bytes ∧ o.todo = [(0, mw.bytes)]
      ∧ o.buf.length = mw.bytes ∧ o.again = false ∧ s.mayPerform o = true ∧ s.thread? o.slot = some t ∧ t.noReplay
      ∧ s.storesOf (s.domain (coreOf o.slot)) = [] ∧ s.finds o hint bs ∧ (sx = true → mw.bytes ≤ 4))
    fun s s' =>
      let w := 8 * mw.bytes
      let v := if sx = true ∧ 2 ^ (w - 1) ≤ bytesNat bs then bytesNat bs + 2 ^ 32 - 2 ^ w else bytesNat bs
      s'.op? o.id = none ∧ s'.scr = s.scr ∧ s'.host = s.host ∧ ∃ u, s'.thread? o.slot = some u
        ∧ (match d with
          | .o i => (∀ j, u.oVal j = if j = i.toNat then BitVec.ofNat 64 v else t.oVal j) ∧ u.g = t.g
          | .g i => (∀ j < (mw.bytes + 3) / 4, u.gVal (i.toNat + j) = BitVec.ofNat 32 (v / 2 ^ (32 * j)))
            ∧ (∀ j, j < i.toNat ∨ i.toNat + (mw.bytes + 3) / 4 ≤ j → u.gVal j = t.gVal j) ∧ u.o = t.o)
        ∧ (yld = false → u.ylevel = t.ylevel ∧ u.poll = t.poll ∧ u.pollUntil = t.pollUntil)
        ∧ (yld = true → u.ylevel = (if t.poll = some (o.pc, v) then min (t.ylevel + 1) 7 else 0) ∧ u.poll = some (o.pc, v))
        ∧ u = { t.got .ld o.marks with g := u.g, o := u.o, wins := u.wins, olds := u.olds, acqStamp := u.acqStamp
                                       ylevel := u.ylevel, poll := u.poll, pollUntil := u.pollUntil }

/-- R199: a store that is performed changes its own bytes, and no other byte of its memory, nor of another; its counter falls, and no
register changes. Of device memory, the bytes of the store's line beside it and every byte of every other line read as before
(`State.wroteLine`; `State.peek` reads a line's bytes from `State.peekLine`). -/
def Sys2Proof.Rules.StoresPerform : Prop :=
  ∀ (o : Op) (data : List Byte) (hint : Hint) (t : Thread), Happens (.storePerformed o.id)
    (fun s => s.op? o.id = some o ∧ o.kind = .store data hint ∧ o.cls = .st ∧ o.n = data.length ∧ o.todo = [(0, data.length)]
      ∧ o.again = false ∧ s.mayPerform o = true ∧ s.olderSeen o = false ∧ s.thread? o.slot = some t ∧ t.noReplay ∧ t.st ≠ .waiting
      ∧ match o.place with
        | .scr c off win => win = true → s.windowHit o.slot c off o.n = true
        | .host _ _ => True
        | .dev pa key comp bix he => he = false ∧ comp = false ∧ (∀ e ∈ s.teams, e.2.seg = none) ∧ pa % 128 + data.length ≤ 128
          ∧ SMap.sortedFrom none s.l2 = true
          ∧ (s.peekLine ⟨o.part, pa, key, comp, bix, he, hint, s.teamOf o.slot⟩).length = 128
        | _ => False)
    fun s s' => s'.op? o.id = none ∧ s'.thread? o.slot = some (t.got .st o.marks)
      ∧ match o.place with
        | .scr c off _ => Memory.holds s.scr s'.scr (c * 2 ^ 18 + off) data ∧ s'.mem = s.mem ∧ s'.host = s.host ∧ s'.l2 = s.l2
        | .host ld a => Memory.holds s.host s'.host (ld * 2 ^ 64 + a) data ∧ s'.mem = s.mem ∧ s'.scr = s.scr ∧ s'.l2 = s.l2
        | .dev pa key comp bix he => s'.scr = s.scr ∧ s'.host = s.host
          ∧ s'.peek ⟨o.part, pa, key, comp, bix, he, hint, s.teamOf o.slot⟩ data.length = data
          ∧ s.wroteLine s' ⟨o.part, pa, key, comp, bix, he, hint, s.teamOf o.slot⟩ data
        | _ => True

/-- R202: an atomic or reduction in a scratchpad is one step: the new value by its operation is stored, ATOM's destination takes
the old one, no flag changes. -/
def Sys2Proof.Rules.AtomicsPerform : Prop :=
  ∀ (o : Op) (dbl : Bool) (op : AOp) (b c : DWord) (d : Option LDst) (red : Bool) (t : Thread) (core off : Nat) (win : Bool),
    let w := if dbl then 64 else 32
    Happens (if red then .storePerformed o.id else .atomicPerformed o.id)
      (fun s => s.op? o.id = some o ∧ o.kind = (if red then .red dbl op b else .atom d dbl op b c) ∧ o.n = w / 8
        ∧ (op = .fadd → dbl = false) ∧ (red = true → op ≠ .cas ∧ d = none) ∧ o.sent = false
        ∧ o.place = .scr core off win ∧ (win = true → s.windowHit o.slot core off o.n = true)
        ∧ o.again = false ∧ o.cls = (if red then .st else .ld) ∧ s.mayPerform o = true ∧ s.olderSeen o = false
        ∧ s.thread? o.slot = some t ∧ t.noReplay ∧ t.st ≠ .waiting)
      fun s s' =>
        let old := bytesNat ((List.range (w / 8)).map (fun i => Memory.read s.scr (core * 2 ^ 18 + off + i)))
        let new := atomNew op w old (b.toNat % 2 ^ w) (c.toNat % 2 ^ w)
        s'.op? o.id = none ∧ Memory.holds s.scr s'.scr (core * 2 ^ 18 + off) (leBytes (w / 8) new)
          ∧ ∃ u, s'.thread? o.slot = some u
            ∧ (match d with
              | none => u.g = t.g ∧ u.o = t.o
              | some (.o i) => (∀ j, u.oVal j = if j = i.toNat then BitVec.ofNat 64 old else t.oVal j) ∧ u.g = t.g
              | some (.g i) => (∀ j < w / 32, u.gVal (i.toNat + j) = BitVec.ofNat 32 (old / 2 ^ (32 * j)))
                ∧ (∀ j, j < i.toNat ∨ i.toNat + w / 32 ≤ j → u.gVal j = t.gVal j) ∧ u.o = t.o)
            ∧ u = { t.got o.cls o.marks with g := u.g, o := u.o, wins := u.wins, olds := u.olds, acqStamp := u.acqStamp }

/-- R199, R202: stores and atomics take effect at their place. -/
def Obligations.StoresAndAtomicsPerform : Prop := Rules.StoresPerform ∧ Rules.AtomicsPerform

/-! ### Copies and barriers (09) -/

/-- R217, R208, R209: a copy that passes the checks of R218 is outstanding with its bases, rows and total, in its core's queue, its tag
not ready; the rows of a CPYG whose index list lies in the grove window are still to be read. A copy of no bytes completes at issue: its
thread goes on with its counter as it was, and no operation of it is left. -/
def Sys2Proof.Rules.CopyWordsIssue : Prop :=
  let made (l : Lane) (s' : State) (u : Thread) (db sb : Base) (dscr : Bool) (ssp : Space) (tag : Nat) (bar : Option Word) (total : Nat)
      (idx : Option (Nat × Nat × Nat × Nat)) (P : Nat → Nat → List (Nat × Nat × Nat) → Prop) : Prop :=
    let (d, a) := l.copyBases db sb dscr ssp
    SentTo l.t u .cp [] ∧ ∃ o ∈ s'.ops, o.slot = l.slot ∧ l.s.nextOp ≤ o.id ∧ o.cls = .cp ∧ o.marks = [] ∧ o.pc = l.t.pc
      ∧ o.id ∈ (s'.core (l.slot / 512)).cq
      ∧ (∃ rows, o.kind = .copy rows idx total a d dscr ssp tag (bar.map (·.toNat)) false ∧ P a d rows)
      ∧ ∀ m g, l.s.team? l.t.team = some m → m.tags[tag]? = some g → ((s'.core m.core).tag g).rdy = false
  let fit (q : Lane → CopyReq) (s : State) (k : Nat) (t : Thread) : Prop := ∀ b,
    (s.laneAt k t b).copyFault (q (s.laneAt k t b)) = none ∧ (q (s.laneAt k t b)).total ≠ 0
  let empty (q : Lane → CopyReq) (s : State) (k : Nat) (t : Thread) : Prop := t.noReplay ∧ ∀ b,
    (s.laneAt k t b).copyFault (q (s.laneAt k t b)) = none ∧ (q (s.laneAt k t b)).total = 0
      ∧ ∀ x, (q (s.laneAt k t b)).bar = some x → x.toNat / 2 ^ 23 % 2 = 0
  let ended (l : Lane) (s' : State) (u : Thread) : Prop :=
    u = { l.t with pcw := l.t.pcw + 1, renew := u.renew, acqStamp := u.acqStamp }
      ∧ ∀ o ∈ s'.ops, o.slot = l.slot → ∃ p ∈ l.s.ops, p.id = o.id
  let md (glob : Bool) (x : Int) : Nat := (x % ((2 ^ (if glob then 64 else 32) : Nat) : Int)).toNat
  let kb (l : Lane) (ssp : Space) : Nat := if ssp = .k then lrCblk (l.s.lrecOf l.t) else 0
  (∀ x : CpyArg, CompletesIn (.cpy x) (fit (cpyReq x)) fun l s' u =>
      let n := (l.src32 2 x.len).toNat
      made l s' u x.db x.sb x.dscr x.ssp x.tag.toNat (x.bar.map (fun b => l.src32 3 b.toSrc)) n none
        fun a d rows => rows = [(kb l x.ssp + a, d, n)])
  ∧ (∀ x : CpydArg, CompletesIn (.cpyt x) (fit (cpytReq x)) fun l s' u =>
      let w (j : Nat) : Word := l.g 2 (x.desc.toNat + j)
      made l s' u x.db x.sb x.dscr x.ssp x.tag.toNat (x.bar.map (fun b => l.src32 3 b.toSrc)) ((w 0).toNat * (w 1).toNat * (w 2).toNat) none
        fun a d rows => rows.length = (w 1).toNat * (w 2).toNat
          ∧ ∀ i1 < (w 1).toNat, ∀ i2 < (w 2).toNat, rows[i2 * (w 1).toNat + i1]? = some
            (kb l x.ssp + md (x.ssp == .g) (a + i1 * (w 3).toInt + i2 * (w 4).toInt), md (!x.dscr) (d + i1 * (w 5).toInt + i2 * (w 6).toInt),
              (w 0).toNat))
  ∧ (∀ x : CpydArg, CompletesIn (.cpyg x) (fit (cpygReq x)) fun l s' u =>
      let w (j : Nat) : Nat := (l.g 2 (x.desc.toNat + j)).toNat
      let far := w 3 / 2 ^ 23 % 2 = 1
      made l s' u x.db x.sb x.dscr x.ssp x.tag.toNat (x.bar.map (fun b => l.src32 3 b.toSrc)) (w 0 * w 1)
        (if far then some (w 3, w 1, w 2, w 0) else none)
        fun a d rows => (far → rows = []) ∧ (¬ far → rows.length = w 1 ∧ ∀ j < w 1, rows[j]? = some
          (kb l x.ssp + md (x.ssp == .g) (a + bytesNat ((List.range 4).map (fun i =>
              Memory.read l.s.scr (l.slot / 512 * 2 ^ 18 + w 3 % 2 ^ 18 + 4 * j + i))) * w 2),
            md (!x.dscr) (d + j * w 0), w 0)))
  ∧ (∀ x : CpyArg, CompletesIn (.cpy x) (empty (cpyReq x)) ended)
  ∧ (∀ x : CpydArg, CompletesIn (.cpyt x) (empty (cpytReq x)) ended)
  ∧ (∀ x : CpydArg, CompletesIn (.cpyg x) (empty (cpygReq x)) ended)

/-- R218: the checks of a copy at issue, in order: a tag at or above the team's 0x24; a misaligned base, length or barrier, or a
total above 65536, 0x10; a `.s` row outside the region 0x18. The lane parks, and no tag or counter changes. -/
def Sys2Proof.Rules.CopyWordsFault : Prop :=
  let req (x : CpyArg) (s : State) (k : Nat) (t : Thread) (P : Nat → Nat → Nat → Prop) : Prop := ∀ b,
    P ((s.laneAt k t b).src 0 (!x.dscr) x.db.toSrc).toNat ((s.laneAt k t b).src 1 (x.ssp == .g) x.sb.toSrc).toNat
      ((s.laneAt k t b).src32 2 x.len).toNat
  let dst (x : CpyArg) (l : Lane) : DWord := l.src 0 (!x.dscr) x.db.toSrc
  (∀ x : CpyArg, Traps (.cpy x) (fun s _ t => ∃ m, s.team? t.team = some m ∧ m.tags.length ≤ x.tag.toNat) 0x24
      (fun _ => 0) (fun _ => 0))
  ∧ (∀ x : CpyArg, Traps (.cpy x) (fun s k t => (∃ m, s.team? t.team = some m ∧ x.tag.toNat < m.tags.length)
      ∧ req x s k t fun d a n => d % 16 ≠ 0 ∨ a % 16 ≠ 0 ∨ n % 16 ≠ 0 ∨ 65536 < n) 0x10 (dst x) (fun _ => 0))
  ∧ (∀ x : CpyArg, x.dscr = true → x.ssp = .g → x.bar = none →
      Traps (.cpy x) (fun s k t => (∃ m, s.team? t.team = some m ∧ x.tag.toNat < m.tags.length)
        ∧ req x s k t fun d a n => d % 16 = 0 ∧ a % 16 = 0 ∧ n % 16 = 0 ∧ n ≤ 65536 ∧ n ≠ 0 ∧ 2 ^ 24 ≤ d) 0x18 (dst x) (fun _ => 0))

/-- R208, R209, R217, R218: copies issue, and fault. -/
def Obligations.CopyWords : Prop := Rules.CopyWordsIssue ∧ Rules.CopyWordsFault

/-- R209, R210, R208, R213, R217: the engine starts the first waiting copy; the last 16 bytes of a copy between scratchpads land at the
destination, no other byte changes, the tag is ready when no copy on it is left, the copy counter falls, and a named barrier is
credited. The bytes of a copy whose source is `.g` or `.k` are those of the host page or the device line that its address leads to,
past every L1; those of a copy to `.g` stand in the host page or device line, and no other byte of that memory changes. -/
def Obligations.CopiesComplete : Prop :=
  let own (a : Nat) : Prop := a / 2 ^ 23 % 2 = 0
  let last (s : State) (o : Op) (t : Thread) (off n : Nat) : Prop := o.slot < 393216 ∧ o.cls = .cp ∧ o.held = none ∧ o.failed = none
    ∧ o.todo = [(off, 16)]
    ∧ off + 16 ≤ n ∧ s.accessBelow o.slot o.after = false ∧ (∀ e ∈ s.threads, e.2.noReplay) ∧ s.thread? o.slot = some t ∧ t.st ≠ .waiting
  let leads (s : State) (o : Op) (va : Nat) (need : Need) (p : Place) : Prop :=
    ∃ s1 x, s.translate (.op o.slot o.id) o.part va need = (s1, x) ∧ x.place = p
  (∀ (c : Nat) (o : Op) (rest : List Nat) (rows : List (Nat × Nat × Nat)) (n a d g : Nat) (ds : Bool) (sp : Space) (bar : Option Nat),
    Happens (.copyStart c)
      (fun s => (s.core c).cq = o.id :: rest ∧ s.op? o.id = some o ∧ o.kind = .copy rows none n a d ds sp g bar false)
      fun s s' => s'.op? o.id = some { o with kind := .copy rows none n a d ds sp g bar true } ∧ s' = { s with ops := s'.ops })
  ∧ (∀ (o : Op) (a d n g off tg : Nat) (t : Thread) (m : Team), Happens (.copyComplete o.id)
      (fun s => s.op? o.id = some o ∧ o.kind = .copy [(a, d, n)] none n a d true .s g none true ∧ o.cls = .cp ∧ o.held = none ∧ o.failed = none
        ∧ o.todo = [(off, 16)] ∧ off + 16 ≤ n ∧ s.accessBelow o.slot o.after = false ∧ a + n ≤ 2 ^ 18 ∧ d + n ≤ 2 ^ 18
        ∧ (a + n ≤ d ∨ d + n ≤ a) ∧ (∀ e ∈ s.threads, e.2.noReplay) ∧ s.thread? o.slot = some t ∧ t.st ≠ .waiting ∧ s.team? t.team = some m ∧ m.tags[g]? = some tg)
      fun s s' =>
        let c := o.slot / 512
        s'.op? o.id = none ∧ s'.thread? o.slot = some (t.got .cp o.marks) ∧ o.id ∉ (s'.core c).cq
          ∧ ((s'.core m.core).tag tg).count = ((s.core m.core).tag tg).count - 1
          ∧ (((s.core m.core).tag tg).count = 1 → ((s'.core m.core).tag tg).rdy = true)
          ∧ Memory.holds s.scr s'.scr (c * 2 ^ 18 + d + off)
              ((List.range 16).map (fun i => Memory.read s.scr (c * 2 ^ 18 + a + off + i))) ∧ s'.mem = s.mem)
  ∧ (∀ (o : Op) (a d n g off x : Nat), Happens (.copyComplete o.id)
      (fun s => s.op? o.id = some o ∧ o.kind = .copy [(a, d, n)] none n a d true .s g (some x) true ∧ o.held = none ∧ o.failed = none
        ∧ o.todo = [(off, 16)] ∧ off + 16 ≤ n ∧ s.accessBelow o.slot o.after = false ∧ a + n ≤ 2 ^ 18 ∧ d + n ≤ 2 ^ 18 ∧ own x
        ∧ (a + n ≤ d ∨ d + n ≤ a) ∧ (∀ e ∈ s.threads, e.2.noReplay) ∧ (x % 2 ^ 18 + 16 ≤ d + off ∨ d + off + 16 ≤ x % 2 ^ 18)
        ∧ (s.barAt (o.slot / 512) (x % 2 ^ 18)).ok = true ∧ -2 ^ 31 ≤ (s.barAt (o.slot / 512) (x % 2 ^ 18)).pending - n)
      fun s s' =>
        let b := s.barAt (o.slot / 512) (x % 2 ^ 18)
        s'.op? o.id = none ∧ s'.barAt (o.slot / 512) (x % 2 ^ 18) =
          if b.remaining = 0 ∧ b.pending = n then { b with phase := b.phase + 1, remaining := b.count, pending := 0 }
          else { b with pending := b.pending - n })
  ∧ (∀ (o : Op) (a d n off g b0 : Nat) (sp : Space) (t : Thread) (p : Place) (bs : List Byte), Happens (.copyComplete o.id)
      (fun s => s.op? o.id = some o ∧ o.kind = .copy [(a, d, n)] none n b0 d true sp g none true ∧ sp ≠ .s ∧ last s o t off n
        ∧ d + n ≤ 2 ^ 18 ∧ leads s o (a + off) .read p ∧ match p with
          | .host ld x => bs = (List.range 16).map (fun i => Memory.read s.host (ld * 2 ^ 64 + x + i))
          | .dev pa key comp bix he =>
            let c : Acc := ⟨o.part, pa, key, comp, bix, he, .none, none⟩
            he = false ∧ SMap.sortedFrom none s.l2 = true ∧ (s.touch c).2 = none ∧ bs.length = 16 ∧ bs = s.peek c 16
          | _ => False)
      fun s s' => s'.op? o.id = none ∧ s'.thread? o.slot = some (t.got .cp o.marks)
        ∧ Memory.holds s.scr s'.scr (o.slot / 512 * 2 ^ 18 + d + off) bs ∧ s'.host = s.host)
  ∧ (∀ (o : Op) (a d n off g b0 : Nat) (t : Thread) (p : Place), Happens (.copyComplete o.id)
      (fun s => s.op? o.id = some o ∧ o.kind = .copy [(a, d, n)] none n b0 d false .s g none true ∧ last s o t off n
        ∧ a + n ≤ 2 ^ 18 ∧ d % 4096 + n ≤ 4096 ∧ leads s o (d + off) .write p ∧ match p with
          | .host _ _ => True
          | .dev pa key comp bix he => he = false ∧ comp = false ∧ (∀ e ∈ s.teams, e.2.seg = none) ∧ pa % 128 + 16 ≤ 128
            ∧ SMap.sortedFrom none s.l2 = true ∧ (s.peekLine ⟨o.part, pa, key, comp, bix, he, .none, s.teamOf o.slot⟩).length = 128
          | _ => False)
      fun s s' =>
        let bs := (List.range 16).map (fun i => Memory.read s.scr (o.slot / 512 * 2 ^ 18 + a + off + i))
        s'.op? o.id = none ∧ s'.thread? o.slot = some (t.got .cp o.marks) ∧ s'.scr = s.scr ∧ match p with
          | .host ld x => Memory.holds s.host s'.host (ld * 2 ^ 64 + x) bs ∧ s'.mem = s.mem ∧ s'.l2 = s.l2
          | .dev pa key comp bix he => s'.host = s.host ∧ s.wroteLine s' ⟨o.part, pa, key, comp, bix, he, .none, s.teamOf o.slot⟩ bs
          | _ => True)

/-- R219 to R222, R433: the barrier words at issue. BARI, BARA and BARX are outstanding in the store class; BARW passes a phase
that has ended and waits on the present one; addresses, counts and invalid objects fault. -/
def Sys2Proof.Rules.BarrierWordsIssue : Prop :=
  let inOwn (x : Base) (P : Word → BarObj → Prop) (s : State) (k : Nat) (t : Thread) : Prop := ∃ m, s.team? t.team = some m
    ∧ (∀ o ∈ s.ops, o.slot ≠ k) ∧ ∀ b, ∀ a, a = ((s.laneAt k t b).src32 0 x.toSrc) → a.toNat % 16 = 0 ∧ m.argp ≤ a.toNat
      ∧ a.toNat + 16 ≤ m.argp + m.region ∧ a.toNat + 16 ≤ 2 ^ 18 ∧ P a (s.barAt (k / 512) a.toNat)
  let good (o : BarObj) : Prop := o.valid = true ∧ o.count ≠ 0 ∧ o.remaining ≤ o.count
  let arg (x : BarArg) (P : Nat → Prop) (s : State) (k : Nat) (t : Thread) : Prop := ∀ b, P ((s.laneAt k t b).src32 1 x.a).toNat
  let placed (x : Base) (l : Lane) (o : Op) : Prop := o.cls = .st ∧ o.n = 16
    ∧ o.place = .scr (l.slot / 512) (l.src32 0 x.toSrc).toNat false ∧ o.va = (l.src32 0 x.toSrc).setWidth 64
  (∀ x : BarArg, Issues (.bari x) (fun s k t => inOwn x.bar (fun _ _ => True) s k t ∧ arg x (fun c => 0 < c ∧ c ≤ 65535) s k t)
      fun l u o => placed x.bar l o ∧ o.kind = .bari (l.src32 1 x.a).toNat ∧ o.marks = [] ∧ SentTo l.t u .st [])
  ∧ (∀ x : BaraArg, Issues (.bara x) (inOwn x.bar fun _ o => good o ∧ o.remaining ≠ 0) fun l u o => placed x.bar l o
      ∧ o.kind = .bara x.d ∧ o.rel = some .grove ∧ SentTo l.t u .st o.marks ∧ o.marks = (match x.d with
        | none => []
        | some d => d.ids .w))
  ∧ (∀ x : BarArg, Issues (.barx x) (fun s k t => ∃ v, arg x (fun c => c = v) s k t ∧ v < 2 ^ 31
        ∧ inOwn x.bar (fun _ o => good o ∧ o.pending + v < 2 ^ 31) s k t)
      fun l u o => placed x.bar l o ∧ o.kind = .barx (l.src32 1 x.a).toNat ∧ o.marks = [] ∧ SentTo l.t u .st [])
  ∧ (∀ x : BarArg, CompletesWhen (.barw x) (fun s k t => ∃ v, arg x (fun c => c = v) s k t
        ∧ inOwn x.bar (fun _ o => good o ∧ o.phase.toNat ≠ v) s k t) fun l u =>
      u = { l.t with pcw := l.t.pcw + 1, acqStamp := l.s.stamp })
  ∧ (∀ x : BarArg, CompletesWhen (.barw x) (fun s k t => ∃ v, arg x (fun c => c = v) s k t
        ∧ inOwn x.bar (fun _ o => good o ∧ o.phase.toNat = v) s k t) fun l u =>
      u = { l.t with st := .waiting, bwait := some ((l.src32 0 x.bar.toSrc).toNat, l.src32 1 x.a), yieldUntil := none, pollUntil := none })
  ∧ (∀ x : BarArg, Traps (.bari x) (fun s k t => inOwn x.bar (fun _ _ => True) s k t ∧ arg x (fun c => c = 0 ∨ 65535 < c) s k t)
      0x22 (fun l => (l.src32 0 x.bar.toSrc).setWidth 64) (fun _ => 0))
  ∧ (∀ x : BaraArg, Traps (.bara x) (inOwn x.bar fun _ o => ¬ good o ∨ o.remaining = 0)
      0x22 (fun l => (l.src32 0 x.bar.toSrc).setWidth 64) (fun _ => 0))
  ∧ (∀ x : BarArg, Traps (.barw x) (inOwn x.bar fun _ o => ¬ good o) 0x22 (fun l => (l.src32 0 x.bar.toSrc).setWidth 64) (fun _ => 0))
  ∧ (∀ x : BarArg, Traps (.barw x) (fun s k t => ∀ b, ((s.laneAt k t b).src32 0 x.bar.toSrc).toNat % 16 ≠ 0) 0x10
      (fun l => (l.src32 0 x.bar.toSrc).setWidth 64) (fun _ => 0))

/-- R211, R212, R219 to R221: a barrier operation that is performed: BARI makes the object, BARA gives the phase and takes one
arrival off, BARX adds bytes; with nothing left the phase ends, and those that wait on it go on at the next word. -/
def Sys2Proof.Rules.BarriersPerform : Prop :=
  let ended (b : BarObj) : BarObj := if b.remaining = 0 ∧ b.pending = 0 then { b with phase := b.phase + 1, remaining := b.count } else b
  let good (o : BarObj) : Prop := o.valid = true ∧ o.count ≠ 0 ∧ o.remaining ≤ o.count
  let ready (o : Op) (k : OpKind) (core off : Nat) (t : Thread) (s : State) : Prop := s.op? o.id = some o ∧ o.kind = k
    ∧ o.place = .scr core off false ∧ o.cls = .st ∧ s.mayPerform o = true ∧ s.thread? o.slot = some t ∧ t.st ≠ .waiting ∧ t.noReplay
    ∧ (s.threads.map (·.1)).Nodup
  let same (t u : Thread) (o : Op) : Prop := u = { t.got .st o.marks with acqStamp := u.acqStamp }
  (∀ (o : Op) (n core off : Nat) (t : Thread), 0 < n → n < 65536 → Happens (.storePerformed o.id) (ready o (.bari n) core off t)
      fun _ s' => s'.barAt core off = ⟨0, n, n, 0, true⟩ ∧ s'.op? o.id = none ∧ ∃ u, s'.thread? o.slot = some u ∧ same t u o)
  ∧ (∀ (o : Op) (core off v : Nat) (t : Thread), Happens (.storePerformed o.id)
      (fun s => ready o (.barx v) core off t s ∧ good (s.barAt core off) ∧ v < 2 ^ 31 ∧ (s.barAt core off).pending + v < 2 ^ 31)
      fun s s' => s'.barAt core off = ended { s.barAt core off with pending := (s.barAt core off).pending + v } ∧ s'.op? o.id = none
        ∧ ∃ u, s'.thread? o.slot = some u ∧ same t u o)
  ∧ (∀ (o : Op) (core off : Nat) (i : BitVec 8) (t : Thread), Happens (.storePerformed o.id)
      (fun s => ready o (.bara (some (.g i))) core off t s ∧ good (s.barAt core off) ∧ (s.barAt core off).remaining ≠ 0)
      fun s s' => s'.barAt core off = ended { s.barAt core off with remaining := (s.barAt core off).remaining - 1 }
        ∧ s'.op? o.id = none ∧ ∃ u, s'.thread? o.slot = some u
          ∧ (∀ j, u.gVal j = if j = i.toNat then (s.barAt core off).phase else t.gVal j)
          ∧ u = { t.got .st o.marks with g := u.g, wins := u.wins, olds := u.olds, acqStamp := u.acqStamp })
  ∧ (∀ (o : Op) (core off k : Nat) (t w : Thread), Happens (.storePerformed o.id)
      (fun s => ready o (.bara none) core off t s ∧ good (s.barAt core off) ∧ (s.barAt core off).remaining = 1
        ∧ (s.barAt core off).pending = 0 ∧ s.thread? k = some w ∧ w.st = .waiting ∧ w.step = false ∧ k / 512 = core ∧ k ≠ o.slot
        ∧ w.bwait = some (off, (s.barAt core off).phase) ∧ off < 2 ^ 18)
      fun s s' => (s'.barAt core off).phase = (s.barAt core off).phase + 1 ∧ (s'.barAt core off).remaining = (s.barAt core off).count
        ∧ ∃ u, s'.thread? k = some u ∧ u = { w with st := .ready, bwait := none, pcw := w.pcw + 1, acqStamp := u.acqStamp })

/-- R211, R212, R219 to R222, R433: barrier words issue, and barriers act. (An object of the own region that is none faults BARA and BARW as
they issue: the model's reading, log 23.) -/
def Obligations.BarriersAct : Prop := Rules.BarrierWordsIssue ∧ Rules.BarriersPerform

/-- R223, R224: WAITANY and WAITALL pass with their tags ready; FFR gives the lowest ready tag of its mask, or 64, and `.clr` clears
it; a mask beyond the team's tags, or an empty one for WAITANY, faults with 0x24. -/
def Sys2Proof.Rules.TagWaits : Prop :=
  let mask (a : Src) (P : DWord → Prop) (s : State) (k : Nat) (t : Thread) : Prop :=
    ∃ m, (∀ b, Lane.src ⟨s, k, t, b⟩ 0 true a = m) ∧ P m
  let tags (s : State) (t : Thread) : Nat := match s.team? t.team with
    | none => 0
    | some m => m.tags.length
  (∀ x : TagArg, CompletesWhen (.waitany x) (fun s k t => mask x.a (fun m => m ≠ 0 ∧ m.toNat < 2 ^ tags s t) s k t) fun l u =>
      u = { l.t with pcw := l.t.pcw + 1, acqStamp := l.s.stamp } ∧ l.s.tagBits l.t.team &&& l.src 0 true x.a ≠ 0)
  ∧ (∀ x : TagArg, CompletesWhen (.waitall x) (fun s k t => mask x.a (fun m => m.toNat < 2 ^ tags s t) s k t) fun l u =>
      u = { l.t with pcw := l.t.pcw + 1, acqStamp := l.s.stamp }
        ∧ l.s.tagBits l.t.team &&& l.src 0 true x.a = l.src 0 true x.a)
  ∧ (∀ x : FfrArg, CompletesIn (.ffr x) (fun s k t => mask x.a (fun m => m.toNat < 2 ^ tags s t) s k t) fun l s' u =>
      let r := l.s.tagBits l.t.team &&& l.src 0 true x.a
      ∃ v : DWord, (∃ u', Puts l.t u' false x.d v 0 ∧ u = { u' with acqStamp := u.acqStamp }) ∧ v.toNat ≤ 64
        ∧ (∀ i < v.toNat, r.getLsbD i = false) ∧ (v.toNat < 64 → r.getLsbD v.toNat = true)
        ∧ (x.clr = true → v.toNat < 64 → ∀ m g, l.s.team? l.t.team = some m → m.tags[v.toNat]? = some g →
            ((s'.core m.core).tag g).rdy = false))
  ∧ (∀ x : TagArg, Traps (.waitany x) (fun s k t => mask x.a (fun m => m = 0 ∨ 2 ^ tags s t ≤ m.toNat) s k t) 0x24
      (fun _ => 0) (fun _ => 0))
  ∧ (∀ x : TagArg, Traps (.waitall x) (fun s k t => mask x.a (fun m => 2 ^ tags s t ≤ m.toNat) s k t) 0x24 (fun _ => 0) (fun _ => 0))
  ∧ (∀ x : FfrArg, Traps (.ffr x) (fun s k t => mask x.a (fun m => 2 ^ tags s t ≤ m.toNat) s k t) 0x24 (fun _ => 0) (fun _ => 0))

/-- R203 to R205, R223, R224, R232, R235 to R237: fences, line words, tag waits, and the order in which a lane's operations are
performed. -/
def Obligations.FencesLinesAndTags : Prop := Rules.FencesAndLineWords ∧ Rules.OperationsKeepOrder ∧ Rules.TagWaits

/-! ### Queues (11) -/

/-- R270: EMIT, QRD and QLEN issue one request to the queue unit with the stream, the record registers and the marks; a stream
out of range faults with 0x12. -/
def Sys2Proof.Rules.QueueWordsIssue : Prop :=
  let limit (ds : Bool) : Nat := if ds then 16384 else 131072
  let stream (ds : Bool) (n : Nat) : Nat := if ds then 131072 + n else n
  let named (a : Src) (P : Nat → Prop) (s : State) (k : Nat) (t : Thread) : Prop := ∀ b, P ((s.laneAt k t b).src32 0 a).toNat
  (∀ x : QueArg, Issues (.emit x) (named x.a (· < limit x.ds)) fun l u o =>
      o.kind = .emit (stream x.ds (l.src32 0 x.a).toNat) ((List.range 8).map (fun i => l.g 1 (x.r.toNat + i)))
        ∧ o.cls = .st ∧ o.marks = [] ∧ o.acq = none ∧ SentTo l.t u .st [])
  ∧ (∀ x : QueArg, Issues (.qrd x) (named x.a (· < limit x.ds)) fun l u o =>
      o.kind = .qrd (stream x.ds (l.src32 0 x.a).toNat) x.r.toNat ∧ o.cls = .ld ∧ o.acq = some .sys
        ∧ o.marks = 264 :: (List.range 8).map (fun i => x.r.toNat + i) ∧ SentTo l.t u .ld o.marks)
  ∧ (∀ x : QlenArg, Issues (.qlen x) (named x.a (· < limit x.ds)) fun l u o =>
      o.kind = .qlen (stream x.ds (l.src32 0 x.a).toNat) x.d ∧ o.cls = .ld ∧ o.acq = none
        ∧ o.marks = 264 :: x.d.ids false ∧ SentTo l.t u .ld o.marks)
  ∧ (∀ x : QueArg, Traps (.emit x) (named x.a (limit x.ds ≤ ·)) 0x12 (fun l => (l.src32 0 x.a).setWidth 64) (fun _ => 0))
  ∧ (∀ x : QueArg, Traps (.qrd x) (named x.a (limit x.ds ≤ ·)) 0x12 (fun l => (l.src32 0 x.a).setWidth 64) (fun _ => 0))
  ∧ (∀ x : QlenArg, Traps (.qlen x) (named x.a (limit x.ds ≤ ·)) 0x12 (fun l => (l.src32 0 x.a).setWidth 64) (fun _ => 0))

/-- R259, R263, R264, R266, R270: at the unit. A record that is admitted joins the pool with its time and source; with no room
the policy stalls it, drops and counts it, or faults with 0x32; QRD consumes the head or gives zeros; QLEN counts; a queue that is
not the partition's faults with 0x12. -/
def Sys2Proof.Rules.QueueUnitActs : Prop :=
  let due (o : Op) (t : Thread) (s : State) : Prop := s.op? o.id = some o ∧ s.unitTurn o = true ∧ s.thread? o.slot = some t
    ∧ t.noReplay ∧ o.cls ≠ .cp
  let turn (o : Op) (t : Thread) (s : State) : Prop := due o t s ∧ s.unperformed o.slot o.id = false
  let mine (j p : Nat) (s : State) : Prop := (s.queue j).v = true ∧ (s.queue j).part.toNat = p
  let room (j : Nat) (s : State) : Prop := (s.queue j).cmode = true ∧ (s.queue j).rcnt = 0 ∧ (s.queue j).held = false
    ∧ s.admits j = true ∧ (s.queue j).stuck = false ∧ (s.queue j).hostq = []
  let full (j : Nat) (s : State) : Prop := (s.queue j).stalled = [] ∧ (s.queue j).hostq = [] ∧ s.admits j = false ∧ (s.queue j).rlog = 0
    ∧ (s.queue j).rcnt = 0
  let stamped (r : EvRec) (s : State) (src : Nat) : EvRec :=
    [BitVec.ofNat 32 ((r.getD 0 0).toNat % 2 ^ 16 + src * 2 ^ 16 + (r.getD 0 0).toNat / 2 ^ 24 * 2 ^ 24), r.getD 1 0,
      BitVec.ofNat 32 s.time, BitVec.ofNat 32 (s.time / 2 ^ 32), r.getD 4 0, r.getD 5 0, r.getD 6 0, r.getD 7 0]
  let pooled (j : Nat) (r : EvRec) (src : Nat) (s s' : State) : Prop :=
    (s'.queue j).pool = (s.queue j).pool ++ [((s.queue j).seq, stamped r s src)] ∧ (s'.queue j).seq = (s.queue j).seq + 1
  let deferred (o : Op) (t : Thread) (c : BitVec 8) (s' : State) : Prop := s'.op? o.id = none
    ∧ s'.thread? o.slot = some { t.got o.cls o.marks with
        fmark := t.fmark ++ o.marks, defers := t.defers ++ [⟨c, o.pc, 0, o.cls, o.marks, o⟩] }
  let dropped (j : Nat) (s s' : State) : Prop := (s'.queue j).pool = (s.queue j).pool
    ∧ (s'.queue j).drops = if (s.queue j).drops = 0xFFFFFFFF then 0xFFFFFFFF else (s.queue j).drops + 1
  (∀ (o : Op) (j : Nat) (r : EvRec) (t : Thread), o.kind = .emit j r → o.sent = false →
      Happens (.emitAccept o.id) (fun s => turn o t s ∧ mine j o.part s ∧ room j s ∧ (s.queue j).stalled = [])
        (fun s s' => pooled j r 1 s s' ∧ s'.op? o.id = none ∧ s'.thread? o.slot = some (t.got o.cls o.marks))
      ∧ Happens (.emitAccept o.id) (fun s => turn o t s ∧ mine j o.part s ∧ full j s ∧ (s.queue j).pol = 0)
        (fun s s' => (s'.queue j).stalled = [.inl o.id] ∧ (s'.queue j).pool = (s.queue j).pool
          ∧ s'.op? o.id = some { o with sent := true } ∧ s'.thread? o.slot = some t)
      ∧ Happens (.emitAccept o.id) (fun s => turn o t s ∧ mine j o.part s ∧ full j s ∧ (s.queue j).pol = 1)
        (fun s s' => dropped j s s' ∧ s'.op? o.id = none ∧ s'.thread? o.slot = some (t.got o.cls o.marks))
      ∧ Happens (.emitAccept o.id) (fun s => turn o t s ∧ mine j o.part s ∧ full j s ∧ 2 ≤ (s.queue j).pol.toNat)
        (fun s s' => dropped j s s' ∧ deferred o t 0x32 s')
      ∧ Happens (.emitAccept o.id) (fun s => turn o t s ∧ ¬ mine j o.part s) (fun _ s' => deferred o t 0x12 s'))
  ∧ (∀ (j : Nat) (o : Op) (r : EvRec) (t : Thread), o.kind = .emit j r → Happens (.stalledAppendAdmit j)
      (fun s => s.op? o.id = some o ∧ room j s ∧ (s.queue j).stalled = [.inl o.id] ∧ s.thread? o.slot = some t
        ∧ t.noReplay ∧ o.cls ≠ .cp)
      fun s s' => pooled j r 1 s s' ∧ (s'.queue j).stalled = [] ∧ s'.op? o.id = none
        ∧ s'.thread? o.slot = some (t.got o.cls o.marks))
  ∧ (∀ (ld j : Nat) (data : List Byte), data.length = 32 → Happens (.hostAppend ld j 0 data)
      (fun s => s.dev.state.toNat ≤ 2 ∧ j < 131072 ∧ s.reaches ld j = true ∧ room j s ∧ (s.queue j).stalled = [])
      fun s s' => pooled j ((List.range 8).map (fun i => BitVec.ofNat 32 (bytesNat ((data.drop (4 * i)).take 4)))) 0 s s'
        ∧ s' = { s with queues := s'.queues, stamped := s'.stamped })
  ∧ (∀ (ld j : Nat) (data : List Byte), data.length = 32 → Happens (.hostAppend ld j 0 data)
      (fun s => s.dev.state.toNat ≤ 2 ∧ j < 131072 ∧ s.reaches ld j = true ∧ full j s ∧ (s.queue j).pol.toNat ≤ 1)
      fun s s' => dropped j s s' ∧ s' = { s with queues := s'.queues })
  ∧ (∀ (o : Op) (j r q : Nat) (e : EvRec) (rest : List (Nat × EvRec)) (t : Thread), o.kind = .qrd j r → Happens (.qrdServe o.id)
      (fun s => due o t s ∧ mine j o.part s ∧ (s.queue j).cmode = true ∧ (s.queue j).rcnt = 0 ∧ (s.queue j).pool = (q, e) :: rest)
      fun s s' => (s'.queue j).pool = rest ∧ s'.op? o.id = none ∧ ∃ u, s'.thread? o.slot = some u ∧ u.lat = 1
        ∧ (∀ i < 8, u.gVal (r + i) = e.getD i 0) ∧ (∀ i, i < r ∨ r + 8 ≤ i → u.gVal i = t.gVal i)
        ∧ u = { t.got o.cls o.marks with g := u.g, lat := 1, wins := u.wins, olds := u.olds, acqStamp := u.acqStamp })
  ∧ (∀ (o : Op) (j r : Nat) (t : Thread), o.kind = .qrd j r → Happens (.qrdServe o.id)
      (fun s => due o t s ∧ mine j o.part s ∧ (s.queue j).cmode = true ∧ (s.queue j).pool = [])
      fun _ s' => s'.op? o.id = none ∧ ∃ u, s'.thread? o.slot = some u ∧ u.lat = 0
        ∧ (∀ i < 8, u.gVal (r + i) = 0) ∧ (∀ i, i < r ∨ r + 8 ≤ i → u.gVal i = t.gVal i)
        ∧ u = { t.got o.cls o.marks with g := u.g, lat := 0, wins := u.wins, olds := u.olds })
  ∧ (∀ (o : Op) (j r : Nat) (t : Thread), o.kind = .qrd j r → Happens (.qrdServe o.id)
      (fun s => due o t s ∧ ¬ (mine j o.part s ∧ (s.queue j).cmode = true)) fun _ s' => deferred o t 0x12 s')
  ∧ (∀ (o : Op) (j : Nat) (d : Dst) (t : Thread), o.kind = .qlen j d → Happens (.qlenSample o.id)
      (fun s => due o t s ∧ mine j o.part s)
      fun s s' => s'.op? o.id = none ∧ ∃ u, s'.thread? o.slot = some u
        ∧ ∃ v : DWord, v.toNat = ((s.queue j).pool.length + (s.queue j).rcnt.toNat) % 2 ^ 32 ∧ u.lat = v
        ∧ (∀ i, u.gVal i = placedG t false d v i) ∧ (∀ i, u.oVal i = placedO t d v i)
        ∧ u = { t.got o.cls o.marks with g := u.g, o := u.o, lat := v, wins := u.wins, olds := u.olds })

/-- R260, R261, R322: a write of a queue-table entry changes the firmware's fields of the doubleword and no more; CAP below MIN or
guarantees beyond the pool are not written; an entry whose V is cleared loses its records. -/
def Sys2Proof.Rules.QueueTableWrites : Prop :=
  let fields (q : Queue) (v : DWord) : Queue := { q with
    v := v.getLsbD 63, part := v.extractLsb' 58 5, cmode := v.getLsbD 57, mtch := v.extractLsb' 55 2, pol := v.extractLsb' 53 2
    min := v.extractLsb' 35 18, cap := v.extractLsb' 17 18, rlog := v.extractLsb' 12 5 }
  let owed (j : Nat) (s : State) : Nat := ((s.queues.filter (fun e => e.1 != j && e.2.v)).map (fun e => e.2.min.toNat)).sum
  let sum (j : Nat) (v : DWord) (s : State) : Nat := owed j s + (v.extractLsb' 35 18).toNat
  let ours (p j : Nat) (s : State) : Prop := j < 147456 ∧ ((s.queue j).v = true → (s.queue j).part.toNat = p)
  (∀ (p j : Nat) (v : DWord), Happens (.queueTableWrite p j 2 v)
      (fun s => ours p j s ∧ (s.queue j).pool = [] ∧ (s.queue j).rcnt = 0 ∧ (s.queue j).min ≤ (s.queue j).cap
        ∧ ((s.queue j).v = true → owed j s + (s.queue j).min.toNat ≤ 262144))
      fun s s' => s'.queue j = { s.queue j with rbase := v.extractLsb' 21 43 })
  ∧ (∀ (p j : Nat) (v : DWord), v.getLsbD 63 = true → (v.extractLsb' 58 5).toNat = p →
      Happens (.queueTableWrite p j 3 v)
        (fun s => ours p j s ∧ (s.queue j).pool = [] ∧ (s.queue j).rcnt = 0 ∧ v.extractLsb' 35 18 ≤ v.extractLsb' 17 18
          ∧ sum j v s ≤ 262144)
        (fun s s' => s'.queue j = fields (s.queue j) v ∧ ∀ i, i ≠ j → s'.queue i = s.queue i)
      ∧ Happens (.queueTableWrite p j 3 v)
        (fun s => ours p j s ∧ (v.extractLsb' 17 18 < v.extractLsb' 35 18 ∨ 262144 < sum j v s)) fun s s' => s' = s)
  ∧ (∀ (p j : Nat) (v : DWord), v.getLsbD 63 = false → v.extractLsb' 35 18 ≤ v.extractLsb' 17 18 → Happens (.queueTableWrite p j 3 v)
      (fun s => j < 147456 ∧ (s.queue j).v = true ∧ (s.queue j).part.toNat = p ∧ (s.queue j).stalled = [])
      fun _ s' => (s'.queue j).v = false ∧ (s'.queue j).pool = [] ∧ (s'.queue j).rcnt = 0 ∧ (s'.queue j).rhead = 0
        ∧ (s'.queue j).held = false)

/-- R259 to R261, R263, R264, R266, R270, R322: the queue unit acts, and its table is written. -/
def Obligations.QueuesAct : Prop := Rules.QueueUnitActs ∧ Rules.QueueTableWrites

/-! ### Automata (12) -/

/-- R297 to R301: MLOAD, MARM, MDIS and MSTAT issue one command to the slot's unit; a slot of 4096 or more, an address at or above
2^55 and a misaligned record fault at issue. -/
def Sys2Proof.Rules.AutomatonWordsIssue : Prop :=
  let named (a : Src) (P : Nat → Prop) (s : State) (k : Nat) (t : Thread) : Prop := ∀ b, P ((s.laneAt k t b).src32 0 a).toNat
  let at' (b : Src) (P : Nat → Prop) (s : State) (k : Nat) (t : Thread) : Prop := ∀ f, P ((s.laneAt k t f).src 1 true b).toNat
  let slot (a : Src) (l : Lane) : DWord := (l.src32 0 a).setWidth 64
  (∀ x : MloadArg, Issues (.mload x)
      (fun s k t => named x.a (· < 4096) s k t ∧ at' x.b (fun v => v % 128 = 0 ∧ v < 2 ^ 55) s k t) fun l u o =>
      o.kind = .mload (l.src32 0 x.a).toNat (l.src 1 true x.b).toNat ∧ o.cls = .st ∧ o.marks = [] ∧ SentTo l.t u .st [])
  ∧ (∀ x : SlotArg, Issues (.marm x) (named x.a (· < 4096)) fun l u o =>
      o.kind = .marm (l.src32 0 x.a).toNat ∧ o.cls = .st ∧ o.marks = [] ∧ SentTo l.t u .st [])
  ∧ (∀ x : SlotArg, Issues (.mdis x) (named x.a (· < 4096)) fun l u o =>
      o.kind = .mdis (l.src32 0 x.a).toNat ∧ o.cls = .st ∧ o.marks = [] ∧ SentTo l.t u .st [])
  ∧ (∀ x : MstatArg, Issues (.mstat x) (named x.a (· < 4096)) fun l u o =>
      o.kind = .mstat (l.src32 0 x.a).toNat x.d.toNat (l.src32 1 x.b).toNat ∧ o.cls = .ld
        ∧ o.marks = [264, x.d.toNat, x.d.toNat + 1] ∧ SentTo l.t u .ld o.marks)
  ∧ (∀ x : MloadArg, Traps (.mload x) (named x.a (4096 ≤ ·)) 0x12 (slot x.a) (fun _ => 0)
      ∧ Traps (.mload x) (fun s k t => named x.a (· < 4096) s k t ∧ at' x.b (fun v => v % 128 ≠ 0) s k t) 0x10
        (fun l => l.src 1 true x.b) (fun _ => 0)
      ∧ Traps (.mload x) (fun s k t => named x.a (· < 4096) s k t ∧ at' x.b (fun v => v % 128 = 0 ∧ 2 ^ 55 ≤ v) s k t) 0x12
        (fun l => l.src 1 true x.b) (fun _ => 0))
  ∧ (∀ x : SlotArg, Traps (.marm x) (named x.a (4096 ≤ ·)) 0x12 (slot x.a) (fun _ => 0)
      ∧ Traps (.mdis x) (named x.a (4096 ≤ ·)) 0x12 (slot x.a) (fun _ => 0))
  ∧ (∀ x : MstatArg, Traps (.mstat x) (named x.a (4096 ≤ ·)) 0x12 (slot x.a) (fun _ => 0))

/-- R270, R297 to R301: the words of the queue unit and of automata issue, and fault. (QRD holds an acquire at `.sys` from its issue on,
whatever the append's scope and with an empty queue too: the model's choice, log 12.) -/
def Obligations.UnitWordsIssue : Prop := Rules.QueueWordsIssue ∧ Rules.AutomatonWordsIssue

/-- R298 to R301: the commands at the unit. A valid record loads a slot that is empty or loaded, MARM arms it at the end of its
streams, MDIS drops its candidates, MSTAT gives the selected value; a slot not the partition's faults with 0x12, a load of an armed
slot or of an invalid record and an arming of streams that do not serve with 0x31. -/
def Obligations.AutomatonUnitActs : Prop :=
  let turn (o : Op) (t : Thread) (s : State) : Prop := s.op? o.id = some o ∧ o.held = none ∧ s.unitTurn o = true
    ∧ s.unperformed o.slot o.id = false ∧ s.thread? o.slot = some t ∧ t.noReplay ∧ o.cls ≠ .cp
  let mine (a p : Nat) (s : State) : Prop := (s.slot a).own = true ∧ (s.slot a).part.toNat = p
  let deferred (o : Op) (t : Thread) (c : BitVec 8) (va : DWord) (s' : State) : Prop := s'.op? o.id = none
    ∧ s'.thread? o.slot = some { t.got o.cls o.marks with
        fmark := t.fmark ++ o.marks, defers := t.defers ++ [⟨c, o.pc, va, o.cls, o.marks, o⟩] }
  let ended (o : Op) (t : Thread) (s' : State) : Prop := s'.op? o.id = none ∧ s'.thread? o.slot = some (t.got o.cls o.marks)
  let serves (a u : Nat) (s : State) : Prop := patSids (s.slot a).pat ≠ [] ∧ ∀ j ∈ patSids (s.slot a).pat,
    (s.queue j).v = true ∧ (s.queue j).part = (s.slot a).part ∧ (s.queue j).cmode = false ∧ (s.queue j).mtch.toNat = u
  (∀ (o : Op) (a va : Nat) (t : Thread), o.kind = .mload a va →
      (∀ (s1 : State) (p : List Byte), Happens (.mloadAtUnit o.id)
        (fun s => turn o t s ∧ mine a o.part s ∧ (s.slot a).st ≤ 1 ∧ s.readPattern o.part a va 19 [] = (s1, .inl p)
          ∧ patternOk (s1.part o.part) p = true ∧ s1.thread? o.slot = some t)
        fun _ s' => ended o t s' ∧ s'.slot a = { s1.slot a with pat := p, st := 1, code := 0 })
      ∧ (∀ (s1 : State) (p : List Byte), Happens (.mloadAtUnit o.id)
        (fun s => turn o t s ∧ mine a o.part s ∧ (s.slot a).st ≤ 1 ∧ s.readPattern o.part a va 19 [] = (s1, .inl p)
          ∧ patternOk (s1.part o.part) p = false ∧ s1.thread? o.slot = some t)
        fun _ s' => deferred o t 0x31 (BitVec.ofNat 64 va) s' ∧ s'.slot a = s1.slot a)
      ∧ Happens (.mloadAtUnit o.id) (fun s => turn o t s ∧ mine a o.part s ∧ 1 < (s.slot a).st)
        (fun s s' => deferred o t 0x31 (BitVec.ofNat 64 va) s' ∧ s'.slot a = s.slot a)
      ∧ Happens (.mloadAtUnit o.id) (fun s => turn o t s ∧ ¬ mine a o.part s)
        (fun _ s' => deferred o t 0x12 (BitVec.ofNat 64 va) s'))
  ∧ (∀ (o : Op) (a : Nat) (t : Thread), o.kind = .marm a →
      (∀ u : BitVec 2, Happens (.marmAtUnit o.id) (fun s => turn o t s ∧ mine a o.part s ∧ (s.slot a).st = 1 ∧ serves a u.toNat s)
        fun s s' => ended o t s' ∧ s'.slot a = { s.slot a with
          st := 2, unit := u, cursors := (patSids (s.slot a).pat).map (fun j => (s.queue j).seq), cands := [], nextSeq := 0
          held := none, created := 0, accepted := 0, expired := 0, inhibited := 0, lost := 0, lastTime := 0, taken := 0 })
      ∧ Happens (.marmAtUnit o.id) (fun s => turn o t s ∧ mine a o.part s ∧ 2 ≤ (s.slot a).st ∧ (s.slot a).st ≤ 5)
        (fun s s' => ended o t s' ∧ s'.slot a = s.slot a)
      ∧ Happens (.marmAtUnit o.id) (fun s => turn o t s ∧ mine a o.part s
          ∧ ((s.slot a).st = 0 ∨ (s.slot a).st = 6 ∨ ((s.slot a).st = 1 ∧ ∀ u, ¬ serves a u s)))
        (fun _ s' => deferred o t 0x31 0 s')
      ∧ Happens (.marmAtUnit o.id) (fun s => turn o t s ∧ ¬ mine a o.part s) (fun _ s' => deferred o t 0x12 0 s'))
  ∧ (∀ (o : Op) (a : Nat) (t : Thread), o.kind = .mdis a →
      Happens (.mdisAtUnit o.id)
        (fun s => turn o t s ∧ mine a o.part s ∧ (s.slot a).st ≠ 0 ∧ ∀ j ∈ patSids (s.slot a).pat, (s.queue j).rcnt = 0)
        (fun s s' => ended o t s' ∧ s'.slot a = { s.slot a with st := 1, cands := [], cursors := [], held := none, saved := false })
      ∧ Happens (.mdisAtUnit o.id) (fun s => turn o t s ∧ ¬ mine a o.part s) (fun _ s' => deferred o t 0x12 0 s'))
  ∧ (∀ (o : Op) (a d sel : Nat) (t : Thread), o.kind = .mstat a d sel →
      let due (s : State) : Prop := s.op? o.id = some o ∧ o.held = none ∧ s.unitTurn o = true ∧ s.thread? o.slot = some t
        ∧ t.noReplay ∧ o.cls ≠ .cp
      Happens (.mstatSample o.id) (fun s => due s ∧ mine a o.part s)
        (fun s s' => s'.op? o.id = none ∧ ∃ u, s'.thread? o.slot = some u
          ∧ (let x := s.slot a
             u.lat = if sel = 0 then
                BitVec.ofNat 64 (x.st + x.code.toNat * 2 ^ 48 + x.unit.toNat * 2 ^ 56 + 2 ^ 58 + x.part.toNat * 2 ^ 59)
              else if x.st ≤ 1 then 0
              else if sel = 1 then BitVec.ofNat 64 (x.cands.countP (fun c => c.spill.isNone))
              else if sel = 2 then BitVec.ofNat 64 (x.cands.countP (fun c => c.spill.isSome))
              else if sel = 3 then BitVec.ofNat 64 x.created
              else if sel = 4 then BitVec.ofNat 64 x.accepted
              else if sel = 5 then BitVec.ofNat 64 x.expired
              else if sel = 6 then BitVec.ofNat 64 x.inhibited
              else if sel = 7 then BitVec.ofNat 64 x.lost
              else if sel = 8 then BitVec.ofNat 64 x.lastTime
              else if sel = 9 then BitVec.ofNat 64 x.taken else 0)
          ∧ u.gVal d = u.lat.setWidth 32 ∧ u.gVal (d + 1) = (u.lat >>> 32).setWidth 32
          ∧ (∀ i, i < d ∨ d + 2 ≤ i → u.gVal i = t.gVal i)
          ∧ u = { t.got o.cls o.marks with g := u.g, lat := u.lat, wins := u.wins, olds := u.olds })
      ∧ Happens (.mstatSample o.id) (fun s => due s ∧ ¬ mine a o.part s) (fun _ s' => deferred o t 0x12 0 s'))

/-- R280, R281, R284 to R290, R292: an armed automaton takes its least item. An event that matches the initial transition makes a
candidate; one that matches nothing only passes; a timer moves its candidate on; candidates whose bound lies before the watermark
are reclaimed; a creation that waited for room and an emit that waited at its queue go on; a candidate moves out of the pool. -/
def Obligations.AutomataTakeItems : Prop :=
  let may (a : Nat) (s : State) : Prop := (s.slot a).st = 2 ∧ (s.slot a).saved = false ∧ (s.slot a).held = none
    ∧ (∀ r ∈ s.greqs, r.auto ≠ some a) ∧ SMap.wf Slot.reset s.slots = true
  let moved (j n : Nat) (x : Slot) : List Nat := (patSids x.pat).zipWith (fun k c => if k = j then n + 1 else c) x.cursors
  let fresh (x : Slot) (t i : Nat) (key : Word) : Cand :=
    ⟨trTo x.pat i, 0, key, t, t, t, t, x.nextSeq, (firstBelow (x.cands.length + 1) (fun n => !x.cands.any (fun c => c.cidx == n))).getD 0,
      none, t⟩
  let step (p : List Byte) (i t : Nat) (c : Cand) : Cand := { c with
    s0 := if trRst p i 0 then t else c.s0, s1 := if trRst p i 1 then t else c.s1, s2 := if trRst p i 2 then t else c.s2
    s3 := if trRst p i 3 then t else c.s3, state := trTo p i, since := t }
  (∀ (a t j n i : Nat) (e : EvRec), Happens (.rowanTakeEvent a)
      (fun s => may a s ∧ s.nextItem a = some (.event t j n e) ∧ (s.slot a).cands = [] ∧ (s.queue j).rcnt = 0
        ∧ patMatch (s.slot a).pat 0 e (fun _ => 0) = some i ∧ trCe (s.slot a).pat i = false ∧ trAcc (s.slot a).pat i = false
        ∧ s.poolRoom a = true ∧ (s.slot a).taken + 1 < 2 ^ 64 ∧ (s.slot a).created + 1 < 2 ^ 64)
      fun s s' => s'.slot a = { s.slot a with
        cands := [fresh (s.slot a) t i (e.getD 1 0)], nextSeq := (s.slot a).nextSeq + 1, created := (s.slot a).created + 1
        taken := (s.slot a).taken + 1, lastTime := t, cursors := moved j n (s.slot a) })
  ∧ (∀ (a t j n : Nat) (e : EvRec), Happens (.rowanTakeEvent a)
      (fun s => may a s ∧ s.nextItem a = some (.event t j n e) ∧ (s.slot a).cands = [] ∧ (s.queue j).rcnt = 0
        ∧ patMatch (s.slot a).pat 0 e (fun _ => 0) = none ∧ (s.slot a).taken + 1 < 2 ^ 64)
      fun s s' => s'.slot a = { s.slot a with taken := (s.slot a).taken + 1, lastTime := t, cursors := moved j n (s.slot a) })
  ∧ (∀ (a d q i : Nat) (c : Cand), Happens (.rowanTakeTimer a)
      (fun s => may a s ∧ s.nextItem a = some (.timer d q i) ∧ (∀ x ∈ (s.slot a).cands, x.expires (s.slot a).pat d = false)
        ∧ (s.slot a).cands.find? (fun x => x.seq == q) = some c ∧ c.spill = none ∧ trAcc (s.slot a).pat i = false)
      fun s s' => s'.slot a = { s.slot a with
        lastTime := d, cands := (s.slot a).cands.map (fun x => if x.seq == q then step (s.slot a).pat i d x else x) })
  ∧ (∀ a : Nat, Happens (.watermarkExpire a)
      (fun s => may a s ∧ (∀ o ∈ s.offers a, o.isEmpty = true) ∧ s.nextItem a = none ∧ patLate (s.slot a).pat ≤ s.time)
      fun s s' => (s'.slot a).cands = (s.slot a).cands.filter (fun c => !c.expires (s.slot a).pat (s.time - patLate (s.slot a).pat))
        ∧ s' = { s with slots := s'.slots })
  ∧ (∀ (a t j n i : Nat) (e : EvRec), Happens (.rowanRoomFreed a)
      (fun s => (s.slot a).st = 4 ∧ (s.slot a).held = some ⟨.event t j n e, [], true, none, none⟩ ∧ s.poolRoom a = true
        ∧ SMap.wf Slot.reset s.slots = true ∧ (s.queue j).rcnt = 0 ∧ patMatch (s.slot a).pat 0 e (fun _ => 0) = some i
        ∧ trCe (s.slot a).pat i = false ∧ trAcc (s.slot a).pat i = false ∧ (s.slot a).created + 1 < 2 ^ 64
        ∧ ∀ c ∈ (s.slot a).cands, c.seq ≠ (s.slot a).nextSeq)
      fun s s' => s'.slot a = { s.slot a with
        st := 2, held := none, cands := (s.slot a).cands ++ [fresh (s.slot a) t i (e.getD 1 0)]
        nextSeq := (s.slot a).nextSeq + 1, created := (s.slot a).created + 1, cursors := moved j n (s.slot a) })
  ∧ (∀ (a t j n q k : Nat) (e r : EvRec), Happens (.rowanEmitAccepted a)
      (fun s => (s.slot a).st = 5 ∧ (s.slot a).held = some ⟨.event t j n e, [], false, some (.emit q k r), none⟩
        ∧ (s.queue k).v = true ∧ (s.queue k).part = (s.slot a).part ∧ (s.queue k).stalled = [.inr a] ∧ (s.queue k).cmode = true ∧ (s.queue k).rcnt = 0 ∧ (s.queue k).held = false
        ∧ s.admits k = true ∧ (s.queue j).rcnt = 0 ∧ (s.slot a).accepted + 1 < 2 ^ 64)
      fun s s' => s'.slot a = { s.slot a with
          st := 2, held := none, cands := (s.slot a).cands.filter (fun c => c.seq != q), accepted := (s.slot a).accepted + 1
          cursors := moved j n (s.slot a) }
        ∧ (s'.queue k).stalled = [] ∧ (s'.queue k).seq = (s.queue k).seq + 1
        ∧ (s'.queue k).pool.length = (s.queue k).pool.length + 1)
  ∧ (∀ (a q place : Nat) (c : Cand) (s1 : State) (bs : List Byte), Happens (.candidateMove a q)
      (fun s => may a s ∧ (s.slot a).cands.find? (fun x => x.seq == q) = some c ∧ c.spill = none
        ∧ (s.slot a).spillRoom = some place
        ∧ s.slotAccess a (patSbase (s.slot a).pat + 64 * place) 64 (some c.bytes) 3 = (s1, .ok bs))
      fun _ s' => s'.slot a = { s1.slot a with
        cands := (s1.slot a).cands.map (fun x => if x.seq == q then { x with spill := some place } else x) })

/-! ### Counters, amber, boost (15, 13) -/

/-- R347 to R349, R354, R356: WAIT passes within its limits and, with cp 0 or tl 0, has observed its copies or fragment accesses; CNTR packs the counts; AMB gives
the pool, the core's needy mark, the bough's wait and its reservation. -/
def Obligations.CounterWordsResults : Prop :=
  (∀ x : WaitArg, Completes (.wait x) fun l u =>
      u = { l.t with pcw := l.t.pcw + 1
                     acqStamp := max (if x.cp = 0 then l.s.stamp else l.t.acqStamp) (if x.tl = 0 then l.t.tlStamp else 0)
                     early := u.early, earlyTl := u.earlyTl }
        ∧ (x.ld = 63 ∨ l.t.cnt.ld ≤ x.ld.toNat) ∧ (x.st = 63 ∨ l.t.cnt.st ≤ x.st.toNat) ∧ (x.cp = 63 ∨ l.t.cnt.cp ≤ x.cp.toNat)
        ∧ (x.tl = 63 ∨ l.t.cnt.tl ≤ x.tl.toNat))
  ∧ (∀ x : DOnly, Completes (.cntr x) fun l u => Puts l.t u false x.d
      (modW false (l.t.cnt.ld + l.t.cnt.st * 2 ^ 8 + l.t.cnt.cp * 2 ^ 16 + l.t.cnt.tl * 2 ^ 24 : Nat)) 0)
  ∧ (∀ x : DOnly, Completes (.amb x) fun l u => Puts l.t u false x.d
      (modW false ((l.s.core l.s.cur.core).pool
        + (if ∃ e ∈ (l.s.grove (l.s.cur.core / 24)).needy, e.1 = l.s.cur.core % 24 then 2 ^ 7 else 0)
        + ((l.s.core l.s.cur.core).bough l.s.cur.bough).wait * 2 ^ 8
        + (if (l.s.core l.s.cur.core).resv = some l.s.cur.bough then 2 ^ 11 else 0) : Nat)) 0)

/-- R357, R358: a team's leader is lent what its context's allowance holds, up to its request, and what a running lease still
holds goes back first; the other lanes get zero. The allowance grows each millisecond; a lease with no time left ends. -/
def Sys2Proof.Rules.BoostLeases : Prop :=
  let cap : Nat := 1048575
  let back (p : Partition) (c : Nat) : Nat := match p.lease.find? c with
    | none => p.allow.get 0 c
    | some ns => min (p.allow.get 0 c + ns / 1000) cap
  (∀ x : F1, CompletesWhen (.boost x) (fun _ _ t => t.lane ≠ 0) fun l u => Puts l.t u false x.d 0 0)
  ∧ (∀ (x : F1) (g : Grid) (r : Nat), CompletesIn (.boost x)
      (fun s k t => t.lane = 0 ∧ s.gridOf t = some g ∧ (∀ j ∈ s.issueSet (.boost x), ∀ u, s.thread? j = some u → j ≠ k → u.lane ≠ 0)
        ∧ (∀ j ∈ s.issueSet (.boost x), ∀ u, s.thread? j = some u → landingOk (.boost x) u = true ∧ deferHit (.boost x) u = none)
        ∧ ∀ b, ((s.laneAt k t b).src32 0 x.a).toNat = r)
      fun l s' u =>
        let n := min (min r cap) (back (l.s.part g.part) g.ctx.toNat)
        Puts l.t u false x.d (BitVec.ofNat 64 n) 0
          ∧ (s'.part g.part).allow.get 0 g.ctx.toNat = back (l.s.part g.part) g.ctx.toNat - n
          ∧ (s'.part g.part).lease.find? g.ctx.toNat = if n = 0 then none else some (n * 1000))
  ∧ (∀ (p k : Nat) (e : QEntry), Happens .boostRefill
      (fun s => s.refill + 1000000 ≤ s.time ∧ (s.part p).quanta.filter (fun q => q.2.v && q.2.ctx == e.ctx) = [(k, e)])
      fun s s' => (s'.part p).allow.get 0 e.ctx.toNat = min ((s.part p).allow.get 0 e.ctx.toNat + 4 * e.weight.toNat) cap
        ∧ s'.refill = s.refill + 1000000 ∧ s' = { s with refill := s'.refill, parts := s'.parts })
  ∧ (∀ p c : Nat, Happens (.boostLeaseExpire p c) (fun s => SMap.find? (s.part p).lease c = some 0)
      fun s s' => SMap.find? (s'.part p).lease c = none ∧ (s'.part p).allow = (s.part p).allow
        ∧ s' = { s with parts := s'.parts })

/-- R316, R353, R354, R360: a revolution of the amber ring adds RATE to the float up to FMAX, and each core in turn takes up to SHARE
and what its pool lacks; with a needy core it fills that core's pool first, and a full one holds its reservation. A grove's clock may
stretch; a request that has waited 4096 cycles rises a class. -/
def Sys2Proof.Rules.AmberAndArbitration : Prop :=
  let rate (x : GroveSt) : Nat := max 1 (min 1536 x.rate)
  let most (x : GroveSt) : Nat := max 64 (min 1536 x.fmax)
  let share (x : GroveSt) : Nat := max 1 (min 64 x.share)
  (∀ g : Nat, Happens (.amberRevolution g)
      (fun s => (s.grove g).lastRev + 24 ≤ (s.grove g).cycle ∧ (s.grove g).cfgNext = none ∧ (s.grove g).needy = [])
      fun s s' => ∃ n : Nat → Nat,
        let x := s.grove g
        let f := min (x.float + rate x) (most x)
        (∀ c < 24, n c = min (min (f - ((List.range c).map n).sum) (share x)) (64 - (s.core (24 * g + c)).pool)
          ∧ (s'.core (24 * g + c)).pool = (s.core (24 * g + c)).pool + n c)
        ∧ (s'.grove g).float = f - ((List.range 24).map n).sum ∧ (s'.grove g).lastRev = x.lastRev + 24)
  ∧ (∀ g d b : Nat, Happens (.amberRevolution g)
      (fun s => (s.grove g).lastRev + 24 ≤ (s.grove g).cycle ∧ (s.grove g).cfgNext = none ∧ (s.grove g).needy = [(d, b)] ∧ d < 24
        ∧ s.wantsAmber (24 * g + d) b = true
        ∧ (s.core (24 * g + d)).resv = none ∧ (s.core (24 * g + d)).pool ≤ 64)
      fun s s' =>
        let x := s.grove g
        let have' := (s.core (24 * g + d)).pool + min (min (x.float + rate x) (most x)) (64 - (s.core (24 * g + d)).pool)
        (s'.core (24 * g + d)).pool = have' ∧ (s'.core (24 * g + d)).resv = (if have' = 64 then some b else none)
          ∧ ∀ c < d, (s'.core (24 * g + c)).pool = (s.core (24 * g + c)).pool)
  ∧ (∀ g : Nat, Happens (.amberRevolution g)
      (fun s => (s.grove g).cycle < (s.grove g).lastRev + 24) fun s s' => s' = s)
  ∧ (∀ g : Nat, Happens (.droopStretch g) (fun _ => True) fun s s' => s'.grove g = { s.grove g with rem := 0 }
      ∧ s' = { s with groves := s'.groves })
  ∧ (∀ (o : Op), Happens (.arbitrationEscalate o.id)
      (fun s => s.op? o.id = some o ∧ o.arb ≠ 0 ∧ o.since + 4096 ≤ s.cycleOf (o.slot / 512))
      fun s s' => s'.op? o.id = some { o with arb := o.arb - 1, since := s.cycleOf (o.slot / 512) } ∧ s' = { s with ops := s'.ops })

/-- R316, R353, R354, R357, R358, R360: boost leases, amber's revolution and arbitration. (That a stretch of the clock starts its division
anew, and that a lease counts whole microseconds, are the model's readings, log 52.) -/
def Obligations.AmberAndBoost : Prop := Rules.BoostLeases ∧ Rules.AmberAndArbitration

/-! ### Contexts (16) -/

/-- R371, R372: TRAP takes 0x62 with its number in AUX and its operand as the address, BRK 0x61, and SERV 0x63 on a block of 128 bytes
of the team's own; a block misaligned faults with 0x10, one elsewhere with 0x18. -/
def Obligations.TrapWordsTakeTheirCodes : Prop :=
  let block (x : ServArg) (P : Nat → Team → Prop) (s : State) (k : Nat) (t : Thread) : Prop := ∃ m, s.team? t.team = some m
    ∧ ∀ b, P ((s.laneAt k t b).src 0 false x.a.toSrc).toNat m
  let own (a : Nat) (m : Team) : Prop := m.argp ≤ a ∧ a + 128 ≤ m.argp + m.region
  (∀ x : TrapArg, Traps (.trap x) (fun _ _ _ => True) 0x62 (fun l => l.src 0 true x.a) (fun _ => x.n.setWidth 64))
  ∧ (∀ x : BrkArg, Traps (.brk x) (fun _ _ _ => True) 0x61 (fun _ => 0) (fun _ => x.n.setWidth 64))
  ∧ (∀ x : ServArg, Traps (.serv x) (block x fun a m => a % 16 = 0 ∧ own a m) 0x63 (fun l => l.src 0 false x.a.toSrc)
      (fun l => l.src 1 false x.b))
  ∧ (∀ x : ServArg, Traps (.serv x) (block x fun a _ => a % 16 ≠ 0) 0x10 (fun l => l.src 0 false x.a.toSrc) (fun _ => 0))
  ∧ (∀ x : ServArg, Traps (.serv x) (block x fun a m => a % 16 = 0 ∧ ¬ own a m) 0x18 (fun l => l.src 0 false x.a.toSrc)
      (fun _ => 0))

/-! ### Pair and literal words (03) -/

/-- R70 to R77: a pair word's halves both read the state before the word, and the first half's writes come first; a half whose guard
is false does nothing. Half and literal operations are those of the full forms: arithmetic by width, comparisons, a load or store,
branches. -/
def Obligations.PairAndLiteralResults : Prop :=
  let sh (w : Bool) (b : DWord) : Nat := 2 ^ (b.toNat % wid w)
  let int (op : RBin) (w : Bool) (a b : DWord) : Option DWord := match op with
    | .add => some (modW w (a.toNat + b.toNat))
    | .sub => some (modW w (a.toNat - b.toNat))
    | .mul => some (modW w (a.toNat * b.toNat))
    | .and => some (a &&& b)
    | .or => some (a ||| b)
    | .xor => some (a ^^^ b)
    | .andn => some (a &&& ~~~b)
    | .shl => some (modW w (a.toNat * sh w b : Nat))
    | .shr => some (modW w (a.toNat / sh w b : Nat))
    | .sar => some (modW w (sOf w a.toNat / sh w b))
    | .mins => some (if sOf w a.toNat ≤ sOf w b.toNat then a else b)
    | .minz => some (if a.toNat ≤ b.toNat then a else b)
    | .maxs => some (if sOf w a.toNat ≥ sOf w b.toNat then a else b)
    | .maxz => some (if a.toNat ≥ b.toNat then a else b)
    | _ => none
  let float (op : RBin) (a b : Word) : Word × Fl := match op with
    | .fadd => faddOf .rne a b
    | .fsub => fsubOf .rne a b
    | .fmul => fmulOf .rne a b
    | .fmin => fminmaxOf false a b
    | _ => fminmaxOf true a b
  let puts (op : RBin) (w : Bool) (d : Dst) (a b : DWord) (af bf : Word) (t u : Thread) : Prop := match int op w a b with
    | some v => Puts t u w d v 0
    | none => Puts t u false d ((float op af bf).1.setWidth 64) (float op af bf).2
  let holds (c : RCmp) (a b : Nat) : Prop := match c with
    | .eq => a = b
    | .ne => a ≠ b
    | .lts => sOf false a < sOf false b
    | .ltz => a < b
    | .les => sOf false a ≤ sOf false b
    | .lez => a ≤ b
    | .gts => sOf false b < sOf false a
    | .gtz => b < a
    | .ges => sOf false b ≤ sOf false a
    | .gez => b ≤ a
  let cmp (c : RCmp) (p : PReg) (a b : Nat) (t u : Thread) : Prop := ∃ y, PutsPred t u p y 0 ∧ (y = true ↔ holds c a b)
  let una (op : RUn) (w : Bool) (v : DWord) : DWord := match op with
    | .mov => v
    | .not => modW w (2 ^ wid w - 1 - v.toNat)
    | .neg => modW w (-v.toNat)
  let reg (i : BitVec 5) : Src := .g (i.setWidth 8)
  let half (h : Half) (l : Lane) (t u : Thread) : Prop := match h.op with
    | .two op d s => puts op false d.toDst (l.src 0 false d.toSrc) (l.src 1 false s) (l.srcF 0 d.toSrc) (l.srcF 1 s) t u
    | .split op d a b => puts op false d (l.src 0 false (reg a)) (l.src 1 false (reg b)) (l.srcF 0 (reg a)) (l.srcF 1 (reg b)) t u
    | .cmp c p a b => cmp c p (l.src 0 false (reg a)).toNat (l.src 1 false (reg b)).toNat t u
    | .una op d s => Puts t u false d (una op false (l.src 0 false s)) 0
    | _ => False
  let inner (h : Half) : Prop := match h.op with
    | .two .. | .split .. | .cmp .. | .una .. => True
    | _ => False
  let first (h : Half) (l : Lane) (v : Thread) : Prop :=
    if RGuard.holds h.gd l.t then ∃ v', half h l l.t v' ∧ v = { v' with pcw := l.t.pcw } else v = l.t
  let maybe (st : SlotState) : Prop := st = .ready ∨ st = .spawned
  let rw (dbl : Bool) : Nat := if dbl then 8 else 4
  (∀ h k : Half, inner h → inner k → Completes (.pairFormWord h k) fun l u => ∃ v, first h l v
      ∧ if RGuard.holds k.gd l.t then half k l v u else u = { v with pcw := l.t.pcw + 1 })
  ∧ (∀ (h : Half) (gd : RGuard) (imm : BitVec 8), inner h → Completes (.pairFormWord h ⟨gd, .bra imm⟩) fun l u =>
      ∃ v st, first h l v ∧ maybe st ∧ u = { v with
        pcw := if RGuard.holds gd l.t then pcOf (l.t.pc + BitVec.ofInt 64 (8 * imm.toInt)) else l.t.pcw + 1, st := st })
  ∧ (∀ (h : Half) (gd : RGuard), inner h → CompletesWhen (.pairFormWord h ⟨gd, .ret⟩)
      (fun _ _ t => RGuard.holds gd t = true → t.lk.toNat < 2 ^ 55 ∧ t.lk.toNat % 8 = 0) fun l u =>
      ∃ v, first h l v ∧ u = { v with pcw := if RGuard.holds gd l.t then pcOf l.t.lk else l.t.pcw + 1 })
  ∧ (∀ (h : Half) (gd : RGuard) (dbl : Bool) (sp : Space) (d : LDst) (base : Base), inner h →
      Issues (.pairFormWord h ⟨gd, .ld dbl sp d base⟩) (fun s k t => RGuard.holds gd t = true
        ∧ ∀ b, ∃ p, (s.laneAt k t b).reaches sp ((s.laneAt k t b).src 0 (sp == .g) base.toSrc) (rw dbl) .read p) fun l u o =>
      o.kind = .load d (if dbl then .d else .w) false false .none ∧ o.cls = .ld ∧ o.n = rw dbl
        ∧ o.marks = d.ids (if dbl then .d else .w) ∧ l.reaches sp (l.src 0 (sp == .g) base.toSrc) (rw dbl) .read o.place
        ∧ ∃ v, first h l v ∧ SentTo v u .ld o.marks)
  ∧ (∀ x : LitWord, (match x.op with
        | .bin .. | .cmp .. | .una .. => True
        | _ => False) →
      Completes (.literalFormWord x) fun l u => match x.op with
        | .bin op dbl d a lit => puts op dbl d (l.src 0 dbl a) (if dbl then lit.signExtend 64 else lit.setWidth 64) (l.srcF 0 a) lit l.t u
        | .cmp c p a lit => cmp c p (l.src 0 false a).toNat lit.toNat l.t u
        | .una op dbl d lit => Puts l.t u dbl d (una op dbl (if dbl then lit.signExtend 64 else lit.setWidth 64)) 0
        | _ => False)
  ∧ (∀ (gd : RGuard) (lit : BitVec 32), Completes (.literalFormWord ⟨gd, .bra lit⟩) fun l u =>
      ∃ st, maybe st ∧ u = { l.t with pcw := pcOf (l.t.pc + lit.signExtend 64), st := st })
  ∧ (∀ (gd : RGuard) (dbl : Bool) (sp : Space) (d : LDst) (base : Base) (lit : BitVec 32),
      let va (l : Lane) : DWord := if sp = .g then l.src 0 true base.toSrc + lit.signExtend 64
        else ((l.src32 0 base.toSrc) + lit).setWidth 64
      Issues (.literalFormWord ⟨gd, .ld dbl sp d base lit⟩)
        (fun s k t => ∀ b, ∃ p, (s.laneAt k t b).reaches sp (va (s.laneAt k t b)) (rw dbl) .read p) fun l u o =>
        o.kind = .load d (if dbl then .d else .w) false false .none ∧ o.cls = .ld ∧ o.n = rw dbl
          ∧ o.marks = d.ids (if dbl then .d else .w) ∧ l.reaches sp (va l) (rw dbl) .read o.place ∧ SentTo l.t u .ld o.marks)
  ∧ (∀ (gd : RGuard) (dbl scr : Bool) (data : Src) (base : Base) (lit : BitVec 32),
      let sp := if scr then Space.s else .g
      let va (l : Lane) : DWord := if scr then ((l.src32 0 base.toSrc) + lit).setWidth 64
        else l.src 0 true base.toSrc + lit.signExtend 64
      Issues (.literalFormWord ⟨gd, .st dbl scr data base lit⟩)
        (fun s k t => ∀ b, ∃ p, (s.laneAt k t b).reaches sp (va (s.laneAt k t b)) (rw dbl) .write p) fun l u o =>
        (∃ bs, o.kind = .store bs .none ∧ bs.length = rw dbl ∧ bytesNat bs = (l.src 3 dbl data).toNat) ∧ o.cls = .st
          ∧ o.n = rw dbl ∧ o.marks = [] ∧ l.reaches sp (va l) (rw dbl) .write o.place ∧ SentTo l.t u .st [])

/-- R337, R365, R367, R368: the park window. REPLAY makes a lane ready at its word, with a deferred access issued again; SKIP at the next
word, or, for a deferred fault, at the same one, with no fault mark left; KILL exits it; DETACH leaves it parked for its service; the record's permit is free
when no lane is left. PKIP's bits are cleared by ones; the view writes a parked thread alone. -/
def Sys2Proof.Rules.ParkedThreadsResume : Prop :=
  let held (c k : Nat) (n : Fin 4) (t : Thread) (p : Park) (s : State) : Prop := s.thread? k = some t ∧ t.park = some p
    ∧ k / 512 = c ∧ (s.core c).pkcmdm.getLsbD (k % 512) = true
    ∧ ∃ r, (s.core c).recs.find? n.val = some r ∧ r.mask = [k] ∧ r.code = p.code
  let freed (c : Nat) (n : Fin 4) (s' : State) : Prop := (s'.core c).recs.find? n.val = none
  (∀ (c k : Nat) (n : Fin 4) (t : Thread) (p : Park), p.defer = none →
      Happens (.pkcmdReplay c n) (held c k n t p)
        (fun _ s' => freed c n s' ∧ s'.thread? k = some { t with st := .ready, park := none })
      ∧ Happens (.pkcmdSkip c n)
        (fun s => held c k n t p s ∧ ∃ w i, s.wordAtPc k t = some (w, i) ∧ collectiveWord i = false ∧ quarterWord i = none)
        (fun _ s' => freed c n s' ∧ s'.thread? k = some { t with
          st := .ready, park := none, fmark := [], landing := none, pcw := t.pcw + 1 }))
  ∧ (∀ (c k : Nat) (n : Fin 4) (t : Thread) (p : Park) (d : Defer), p.defer = some d →
      let kept : List RegId := t.fmark.filter (fun r => !d.marks.contains r)
      (∀ (ld : LDst) (mw : MW) (sx y : Bool) (h : Hint), d.op.kind = .load ld mw sx y h → d.op.slot = k → d.op.cls = .ld →
        Happens (.pkcmdReplay c n)
          (fun s => held c k n t p s ∧ t.cnt.ld < 63 ∧ s.againFault (d.op.afresh (s.cycleOf c)) = none) fun s s' => freed c n s'
          ∧ (∃ u, s'.thread? k = some u ∧ u = { t with
              st := .ready, park := none, fmark := kept, pend := t.pend ++ d.op.marks, cnt := { t.cnt with ld := t.cnt.ld + 1 }
              hold := .none, renew := u.renew, acqStamp := u.acqStamp })
          ∧ ∃ o ∈ s'.ops, o.id = s.nextOp ∧ o.slot = k ∧ o.kind = d.op.kind ∧ o.va = d.op.va ∧ o.n = d.op.n ∧ o.pc = d.op.pc
            ∧ o.marks = d.op.marks ∧ o.held = none)
      ∧ Happens (.pkcmdSkip c n) (held c k n t p) fun _ s' => freed c n s'
          ∧ s'.thread? k = some { t with st := .ready, park := none, fmark := [], landing := none })
  ∧ (∀ (c k : Nat) (n : Fin 4) (t : Thread) (p : Park), Happens (.pkcmdKill c n) (fun s => held c k n t p s ∧ s.apart k)
      fun _ s' => (∀ r, (s'.core c).recs.find? n.val = some r → k ∉ r.mask)
        ∧ ∃ u, s'.thread? k = some u ∧ u.st = .exited ∧ u.park = none ∧ u.g = t.g ∧ u.pc = t.pc)
  ∧ (∀ (c k : Nat) (n : Fin 4) (t : Thread) (p : Park),
      Happens (.pkcmdDetach c n) (fun s => held c k n t p s ∧ p.code = 0x63)
        (fun _ s' => freed c n s' ∧ s'.thread? k = some { t with park := some { p with svc := true } })
      ∧ Happens (.pkcmdDetach c n) (fun s => held c k n t p s ∧ p.code ≠ 0x63) fun s s' => s' = s)
  ∧ (∀ (c : Nat) (v : DWord), Happens (.pkipClear c v) (fun _ => True) fun s s' =>
      s'.core c = { s.core c with pkip := (s.core c).pkip &&& ~~~(v.extractLsb' 0 2) } ∧ s' = { s with cores := s'.cores })
  ∧ (∀ (c k : Nat) (v : DWord) (t : Thread),
      let s0 (s : State) : Prop := s.thread? k = some t ∧ t.st = .parked ∧ k = c * 512 + (s.core c).pksel.toNat
      (∀ i, Happens (.threadViewWrite c (0x1000 + 4 * i) v false) (fun s => s0 s ∧ i < 256 ∧ i < s.regsOf k) fun s s' =>
        ∃ u, OnlyThread s s' k u ∧ (∀ j, u.gVal j = if j = i then v.setWidth 32 else t.gVal j)
          ∧ u = { t with g := u.g, wins := u.wins, olds := u.olds })
      ∧ (∀ i, i < 8 → Happens (.threadViewWrite c (0x1400 + 8 * i) v true) s0 fun s s' =>
        ∃ u, OnlyThread s s' k u ∧ (∀ j, u.oVal j = if j = i then v else t.oVal j) ∧ u = { t with o := u.o })
      ∧ Happens (.threadViewWrite c 0x1440 v true) s0 (fun s s' => OnlyThread s s' k { t with lat := v })
      ∧ Happens (.threadViewWrite c 0x1448 v true) s0 (fun s s' => OnlyThread s s' k { t with preds := v.extractLsb' 0 12 })
      ∧ Happens (.threadViewWrite c 0x1450 v true) s0 (fun s s' => OnlyThread s s' k { t with lk := v })
      ∧ Happens (.threadViewWrite c 0x1458 v true) s0 (fun s s' => OnlyThread s s' k { t with pcw := v.extractLsb' 3 52 })
      ∧ Happens (.threadViewWrite c 0x1460 v true) s0 (fun s s' => OnlyThread s s' k { t with step := v.getLsbD 3 })
      ∧ Happens (.threadViewWrite c 0x1468 v true) s0 (fun s s' => OnlyThread s s' k { t with fflags := v.extractLsb' 0 5 }))
  ∧ (∀ (c off k : Nat) (v : DWord) (wide : Bool) (t : Thread), Happens (.threadViewWrite c off v wide)
      (fun s => s.thread? k = some t ∧ t.st ≠ .parked ∧ k = c * 512 + (s.core c).pksel.toNat) fun s s' => s' = s)

/-- R267, R337, R339, R373: a write of HEAD; a resolved record releases the accesses it holds, or gives them its failure code, and a
lane parked under it keeps that code; a service reply writes the last 64 bytes of a lane's block and lets it go on past its SERV, and is
discarded where no such lane waits. -/
def Sys2Proof.Rules.RecordsAndRepliesResolve : Prop :=
  let open' (p : Nat) (i : BitVec 32) (r : FRec) (s : State) : Prop := r ∈ (s.part p).frecs ∧ r.idx = i.toNat ∧ r.pending = true
    ∧ r.rep = true ∧ (∀ q ∈ (s.part p).frecs, q.written = true ∧ (q.idx = i.toNat → q = r))
    ∧ ∀ n ∈ r.rids, (∀ e ∈ s.queues, e.2.heldBy ≠ some n) ∧ (∀ e ∈ s.slots, e.2.held.bind (·.heldBy) ≠ some n)
      ∧ (∀ o ∈ s.canops, o.held ≠ some n) ∧ (∀ o ∈ s.redparts, o.held ≠ some n) ∧ (s.part p).slHeld ≠ some n
      ∧ (∀ e ∈ s.lds, e.2.mbHeld ≠ some (p, n)) ∧ (∀ e ∈ s.teams, e.2.rbHeld ≠ some n)
      ∧ ∀ x, (s.part p).swapHeld = some x → x.1 ≠ n
  let under (r : FRec) (h : Option Nat) : Prop := ∃ n ∈ r.rids, h = some n
  let closed (p : Nat) (i : BitVec 32) (s' : State) : Prop := ∀ r ∈ (s'.part p).frecs, r.idx ≠ i.toNat
  (∀ (p : Nat) (h : BitVec 32), Happens (.fbptrHeadWrite p h) (fun s => ∀ r ∈ (s.part p).frecs, r.written = true) fun s s' =>
      s'.part p = { s.part p with head := h } ∧ s' = { s with parts := s'.parts })
  ∧ (∀ (p : Nat) (i : BitVec 32) (r : FRec) (o : Op), Happens (.fbdoneReplay p i)
      (fun s => open' p i r s ∧ s.op? o.id = some o ∧ o.part = p ∧ under r o.held)
      fun s s' => closed p i s' ∧ (∃ b, s'.op? o.id = some { o with held := none, bypass := b }) ∧ s'.threads = s.threads)
  ∧ (∀ (p : Nat) (i : BitVec 32) (r : FRec) (c : BitVec 8) (o : Op) (ld : LDst) (mw : MW) (sx y : Bool) (h : Hint) (t : Thread),
      o.kind = .load ld mw sx y h → o.cls = .ld → c ≠ 0 → Happens (.fbdoneFail p i c)
        (fun s => open' p i r s ∧ s.op? o.id = some o ∧ o.part = p ∧ under r o.held ∧ (s.ops.map (·.id)).Nodup
          ∧ (∀ q ∈ s.ops, q.part = p → under r q.held → q.id = o.id) ∧ s.thread? o.slot = some t ∧ t.park = none ∧ t.noReplay)
        fun _ s' => closed p i s' ∧ s'.op? o.id = none ∧ s'.thread? o.slot = some { t.got o.cls o.marks with
          fmark := t.fmark ++ o.marks, defers := t.defers ++ [⟨c, o.pc, o.va, o.cls, o.marks, { o with held := none }⟩] })
  ∧ (∀ (p k : Nat) (i : BitVec 32) (r : FRec) (c : BitVec 8) (t : Thread) (q : Park), c ≠ 0 → Happens (.fbdoneFail p i c)
      (fun s => open' p i r s ∧ (∀ o ∈ s.ops, ¬ under r o.held) ∧ (s.threads.map (·.1)).Nodup ∧ s.thread? k = some t
        ∧ t.park = some q ∧ under r q.frec ∧ s.partOf k = p)
      fun _ s' => closed p i s' ∧ s'.thread? k = some { t with park := some { q with code := c, frec := none } })
  ∧ (∀ (p : Nat) (i : BitVec 32), Happens (.fbdoneFail p i 0) (fun _ => True) fun s s' => s' = s.wroteFbdone p 1 0 i)
  ∧ (∀ (p k : Nat) (v : DWord) (t : Thread) (q : Park) (m : Team) (g : Grid), Happens (.svreplyDeliver p v)
      (fun s => s.thread? k = some t ∧ t.st = .parked ∧ t.park = some q ∧ q.svc = true ∧ t.plane = (v.extractLsb' 0 9).toNat
        ∧ s.team? t.team = some m ∧ m.index = ((s.part p).svteam.extractLsb' 0 32).toNat
        ∧ m.grid = p * 2 ^ 32 + (v.extractLsb' 16 32).toNat ∧ s.grid? m.grid = some g ∧ g.ctx = v.extractLsb' 48 16
        ∧ (s.threads.map (·.1)).Nodup ∧ q.va.toNat < 2 ^ 18 ∧ (s.part p).svdata.length = 64
        ∧ ∀ j u, s.thread? j = some u → u.st = .parked → (∃ x, u.park = some x ∧ x.svc = true) → u.plane = t.plane → j = k)
      fun s s' => s'.thread? k = some { t with st := .ready, park := none, pcw := t.pcw + 1 }
        ∧ Memory.holds s.scr s'.scr (k / 512 * 2 ^ 18 + q.va.toNat + 64) (s.part p).svdata ∧ (s'.part p).svst = 1)
  ∧ (∀ (p : Nat) (v : DWord), Happens (.svreplyDeliver p v)
      (fun s => s.grid? (p * 2 ^ 32 + (v.extractLsb' 16 32).toNat) = none ∧ (s.part p).images = [])
      fun s s' => (s'.part p).svst = 2 ∧ s'.threads = s.threads ∧ s'.scr = s.scr)

/-- R267, R337, R339, R365, R367, R368, R373: parked threads resume, and records and replies are resolved. (A REPLAY of a deferred access
clears the fault marks of that access alone: the model's reading, logs 55 and 68.) -/
def Obligations.ParksAndRepliesResolve : Prop := Rules.ParkedThreadsResume ∧ Rules.RecordsAndRepliesResolve

/-! ### Translation tables (14) -/

/-- R332, R335, R336, R341 to R343: a TLBI runs until no access uses the range and then the caches hold none of it; a host's completion that
denies no waiter installs an entry and wakes its threads, and one that denies a waiter leaves none; an invalidation removes its entries at
once and completes when their users have; page requests and their responses; the heat table's halvings. (That a denied answer leaves no
entry, which accesses use an invalidated one, and that completions come in any order are the model's readings, log 33; a page request's index
at or above the allocation is log 69's.) -/
def Obligations.TranslationsFollow : Prop :=
  let range (v : DWord) : Nat × Nat := if v.getLsbD 63 = true ∨ 43 < (v.extractLsb' 57 6).toNat then (0, 2 ^ 55)
    else (v.toNat % 2 ^ 43 / 2 ^ (v.extractLsb' 57 6).toNat * 2 ^ (12 + (v.extractLsb' 57 6).toNat), 2 ^ (12 + (v.extractLsb' 57 6).toNat))
  let masked (v w : DWord) (P : Nat → Bool) : Prop := ∀ i, w.getLsbD i = (v.getLsbD i && P i)
  let tl (i : Nat) : Bool := decide (i < 43 ∨ (57 ≤ i ∧ i < 64))
  let pri (i : Nat) : Bool := decide (i < 52 ∨ (62 ≤ i ∧ i < 64))
  let only (p : Nat) (s s' : State) (q : Partition) : Prop := s'.part p = q ∧ s' = { s with parts := s'.parts }
  let grp (v : DWord) : Nat := (v.extractLsb' 43 9).toNat
  let gone (ld pasid vpn : Nat) (s s' : State) : Prop := ∀ a, a ∈ s'.atc ↔ a ∈ s.atc ∧ ¬ (a.ld = ld ∧ a.pasid = pasid ∧ a.vpn = vpn)
  (∀ (p : Nat) (v : DWord),
      Happens (.tlbiStart p v) (fun s => (s.part p).tlbBusy = false)
        (fun s s' => ∃ w, masked v w tl ∧ only p s s' { s.part p with tlbi := w, tlbBusy := true })
      ∧ Happens (.tlbiStart p v) (fun s => (s.part p).tlbBusy = true)
        (fun s s' => ∃ w, masked v w tl ∧ only p s s' { s.part p with tlbQ := (s.part p).tlbQ ++ [w] }))
  ∧ (∀ p : Nat, Happens (.tlbiComplete p)
      (fun s => (s.part p).tlbBusy = true ∧ (s.part p).tlbQ = [] ∧ (∀ r ∈ (s.part p).frecs, r.written = true) ∧ ∀ o ∈ s.ops, o.part = p →
        (∃ a k c b h, o.place = .dev a k c b h) ∨ (∃ d a, o.place = .host d a) →
        o.va.toNat + max 1 o.n ≤ (range (s.part p).tlbi).1 ∨ (range (s.part p).tlbi).1 + (range (s.part p).tlbi).2 ≤ o.va.toNat)
      fun s s' => s'.part p = { s.part p with tlbBusy := false }
        ∧ (∀ e ∈ s'.tlb, e.part = p → e.base + 2 ^ e.log ≤ (range (s.part p).tlbi).1
          ∨ (range (s.part p).tlbi).1 + (range (s.part p).tlbi).2 ≤ e.base)
        ∧ (∀ e ∈ s.tlb, e.part ≠ p → e ∈ s'.tlb))
  ∧ (∀ (ld pasid vpn frame k : Nat) (w : Bool) (x : XReq) (t : Thread),
      Happens (.translationCompletion ld pasid vpn (.granted frame true w))
      (fun s => s.xreqs.find? (fun x => x.ld == ld && x.pasid == pasid && x.vpn == vpn) = some x ∧ x.stale = false
        ∧ (w = true ∨ ∀ q ∈ x.waiters, q.2 = false) ∧ s.thread? k = some t ∧ t.hold = .xlate vpn ∧ s.ldOf (s.partOf k) = ld
        ∧ ((s.part (s.partOf k)).trc.extractLsb' 43 20).toNat = pasid)
      fun s s' => ⟨ld, pasid, vpn, frame, w⟩ ∈ s'.atc ∧ x ∉ s'.xreqs
        ∧ (∀ a ∈ s'.atc, a.ld = ld → a.pasid = pasid → a.vpn = vpn → a = ⟨ld, pasid, vpn, frame, w⟩)
        ∧ (∀ a ∈ s.atc, a.ld ≠ ld ∨ a.pasid ≠ pasid ∨ a.vpn ≠ vpn → a ∈ s'.atc) ∧ s'.thread? k = some { t with hold := .none })
  ∧ (∀ (ld pasid vpn k : Nat) (ans : XAns) (x : XReq) (t : Thread) (b : Bool), (match ans with
        | .granted _ r _ => r = false
        | .refused => True) → Happens (.translationCompletion ld pasid vpn ans)
      (fun s => s.xreqs.find? (fun x => x.ld == ld && x.pasid == pasid && x.vpn == vpn) = some x ∧ x.stale = false
        ∧ s.thread? k = some t ∧ t.hold = .xlate vpn ∧ (Asker.lane k, b) ∈ x.waiters)
      fun s s' => gone ld pasid vpn s s' ∧ x ∉ s'.xreqs ∧ (Asker.lane k, ⟨vpn, decide (ans = .refused), none⟩) ∈ s'.xans)
  ∧ (∀ (ld pasid vpn frame k : Nat) (x : XReq) (t : Thread) (b : Bool), Happens (.translationCompletion ld pasid vpn (.granted frame true false))
      (fun s => s.xreqs.find? (fun x => x.ld == ld && x.pasid == pasid && x.vpn == vpn) = some x ∧ x.stale = false
        ∧ s.thread? k = some t ∧ t.hold = .xlate vpn ∧ (Asker.lane k, b) ∈ x.waiters ∧ (Asker.lane k, !b) ∉ x.waiters
        ∧ ∃ q ∈ x.waiters, q.2 = true)
      fun s s' => gone ld pasid vpn s s' ∧ x ∉ s'.xreqs
        ∧ (Asker.lane k, ⟨vpn, false, if b then none else some frame⟩) ∈ s'.xans)
  ∧ (∀ (ld pasid vpn : Nat) (ans : XAns) (x : XReq), Happens (.translationCompletion ld pasid vpn ans)
      (fun s => s.xreqs.find? (fun x => x.ld == ld && x.pasid == pasid && x.vpn == vpn) = some x ∧ x.stale = true)
      fun s s' => s'.atc = s.atc ∧ x ∉ s'.xreqs)
  ∧ (∀ ld pasid vpn log : Nat,
      let covers (p v : Nat) : Prop := p = pasid ∧ v / 2 ^ log = vpn / 2 ^ log
      Happens (.invalidateRequest ld pasid vpn log) (fun _ => True) fun s s' =>
        (∀ a, a ∈ s'.atc ↔ a ∈ s.atc ∧ ¬ (a.ld = ld ∧ covers a.pasid a.vpn))
        ∧ (∀ y ∈ s'.xreqs, y.ld = ld → covers y.pasid y.vpn → y.stale = true)
        ∧ ∃ users, (s'.ld ld).invs = (s.ld ld).invs ++ [users] ∧ ∀ o ∈ s.ops, o.id ∈ users ↔
            ∃ q ∈ s.ops, q.id = o.id ∧ ∃ d h, q.place = .host d h ∧ ∃ a ∈ s.atc, a.ld = ld ∧ covers a.pasid a.vpn ∧ a.ld = d
              ∧ a.pasid = ((s.part q.part).trc.extractLsb' 43 20).toNat ∧ a.vpn = q.va.toNat / 4096 ∧ a.frame = h / 4096)
  ∧ (∀ (ld : Nat) (l : List Nat) (pre rest : List (List Nat)), Happens (.invalidationCompletion ld)
      (fun s => (s.ld ld).invs = pre ++ l :: rest ∧ (∀ q ∈ pre, ∃ o ∈ s.ops, o.id ∈ q ∧ o.place ≠ .later)
        ∧ ∀ o ∈ s.ops, o.id ∉ l ∨ o.place = .later)
      fun s s' => (s'.ld ld).invs = pre ++ rest ∧ s' = { s with lds := s'.lds })
  ∧ (∀ (p : Nat) (v : DWord),
      Happens (.priReqSend p v) (fun s => grp v ∉ (s.part p).priPend ∧ grp v < (s.ld (s.ldOf p)).priAlloc)
        (fun s s' => ∃ w, masked v w pri ∧ only p s s' { s.part p with
          prireq := w, priPend := (s.part p).priPend ++ [grp v], priAns := (s'.part p).priAns }
          ∧ SMap.find? (s'.part p).priAns (grp v) = none)
      ∧ Happens (.priReqSend p v) (fun s => grp v ∈ (s.part p).priPend)
        (fun s s' => ∃ w, masked v w pri ∧ only p s s' { s.part p with prireq := w })
      ∧ Happens (.priReqSend p v) (fun s => (s.ld (s.ldOf p)).priAlloc ≤ grp v)
        (fun s s' => (∃ w, masked v w pri ∧ only p s s' { s.part p with prireq := w }) ∧ s'.prirsp p = 3)
      ∧ Happens (.priReqSelect p v) (fun _ => True) fun s s' => ∃ w, masked v w pri ∧ only p s s' { s.part p with prireq := w })
  ∧ (∀ (p g : Nat) (ans : PriAns), Happens (.prgResponse p g ans) (fun s => g ∈ (s.part p).priPend) fun s s' =>
      g ∉ (s'.part p).priPend ∧ SMap.find? (s'.part p).priAns g = some (match ans with
        | .success => 1
        | .invalid => 2
        | .failure => 3))
  ∧ (∀ (p : Nat) (v : DWord), Happens (.htcWrite p v) (fun _ => True) fun s s' =>
      (∃ w, masked v w (fun i => decide (i < 4 ∨ (12 ≤ i ∧ i < 16) ∨ (25 ≤ i ∧ i < 52) ∨ i = 63)) ∧ s'.part p = { s.part p with
          htc := w, heatLost := (s.part p).htc.getLsbD 63 && ((s.part p).heatLost || (s.part p).htc.extractLsb' 0 4 != v.extractLsb' 0 4) })
        ∧ ∀ sl < 64, (s.part p).slices.getLsbD sl = true → SMap.find? s'.heat sl = some (2 ^ max 4 (min 12 (v.extractLsb' 12 4).toNat)))
  ∧ (∀ (p line : Nat) (ln le : L2Line),
      let base (s : State) : Nat := (s.part p).htc.toNat / 2 ^ 25 % 2 ^ 27 * 2 ^ 25
      let owed (s : State) : Nat := (s.time / (2 ^ min 10 ((s.part p).htc.toNat % 16) * 1000000) + 2 ^ 16
        - bytesNat (s.peek (Acc.plain p (base s + 0x1800000 + 2 * line)) 2)) % 2 ^ 16
      Happens (.heatSweep p line)
        (fun s => (s.part p).htc.getLsbD 63 = true ∧ (s.part p).heatLost = false ∧ line < 0x30000 ∧ SMap.sortedFrom none s.l2 = true
          ∧ s.l2.find? (s.l2Key (Acc.plain p (base s + 128 * line))) = some ln ∧ ln.data.length = 128
          ∧ s.l2.find? (s.l2Key (Acc.plain p (base s + 0x1800000 + 2 * line))) = some le ∧ le.data.length = 128)
        fun s s' => ∀ i < 128, s'.heatByte p (128 * line + i) = s.heatByte p (128 * line + i) / 2 ^ min (owed s) 8)
  ∧ (∀ p line : Nat, Happens (.heatSweep p line) (fun s => (s.part p).htc.getLsbD 63 = false ∧ (s.part p).htc.toNat / 2 ^ 25 % 2 ^ 27 = 0)
      fun s s' => s' = s)
  ∧ (∀ p : Nat, Happens (.hrdvRead p) (fun _ => True) fun s s' =>
      let f := (s.part p).hrda.toNat % 2 ^ 25
      (s'.part p).hrdv = BitVec.ofNat 64 ((s.heatSettle p f).heatByte p f))

/-! ### Scheduling tables (13) -/

/-- R306 to R308, R321: LBCMD binds an acceptable record into a free entry and answers its handle, generation above entry number; a
record of another version is refused with 1, a full table with 7; unbinding clears the entry and steps its generation, and is refused
with 8 while an automaton in use names the handle, with 9 where it names no record. -/
def Sys2Proof.Rules.LaunchTableCommands : Prop :=
  let rec' (p : Nat) (s : State) : List Byte := s.physBytes p ((s.part p).lbaddr.toNat % 2 ^ 52) 128
  let handle (p : Nat) (s : State) : BitVec 32 := (s.part p).lbaddr.setWidth 32
  let res (p : Nat) (s' : State) (code h : Nat) : Prop := (s'.part p).lbres = BitVec.ofNat 64 (code * 2 ^ 32 + h)
  let same (p : Nat) (s s' : State) : Prop := (s'.part p).ltab = (s.part p).ltab
  (∀ (p e : Nat) (c : BitVec 16),
      Happens (.lbcmdBind p c e)
        (fun s => bindCode (s.part p).groveList.length (rec' p s) = 0 ∧ e < 4096 ∧ ((s.part p).lentry e).b = false)
        (fun s s' => res p s' 0 (((s.part p).lentry e).gen.toNat * 2 ^ 12 + e)
          ∧ (s'.part p).lentry e = { (s.part p).lentry e with bytes := rec' p s, b := true, ctx := c, live := 0 }
          ∧ ∀ i, i ≠ e → (s'.part p).lentry i = (s.part p).lentry i)
      ∧ Happens (.lbcmdBind p c e) (fun s => fieldAt (rec' p s) 0 24 8 ≠ 1) (fun s s' => res p s' 1 0 ∧ same p s s')
      ∧ Happens (.lbcmdBind p c e) (fun s => bindCode (s.part p).groveList.length (rec' p s) = 0
          ∧ ∀ i < 4096, ((s.part p).lentry i).b = true) (fun s s' => res p s' 7 0 ∧ same p s s'))
  ∧ (∀ p : Nat,
      Happens (.lbcmdUnbind p) (fun s => ((s.part p).named (handle p s)).isSome = true ∧ s.handleInUse p (handle p s) = false)
        (fun s s' =>
          let e := (s.part p).lentry ((handle p s).toNat % 4096)
          res p s' 0 0 ∧ (s'.part p).lentry ((handle p s).toNat % 4096) = { e with b := false, gen := e.gen + 1, live := 0 }
            ∧ (s'.part p).named (handle p s) = none)
      ∧ Happens (.lbcmdUnbind p) (fun s => ((s.part p).named (handle p s)).isSome = true ∧ ∃ e ∈ s.slots,
          2 ≤ e.2.st ∧ e.2.st ≤ 5 ∧ e.2.part.toNat = p ∧ handle p s ∈ patHandles e.2.pat) (fun s s' => res p s' 8 0 ∧ same p s s')
      ∧ Happens (.lbcmdUnbind p) (fun s => (s.part p).named (handle p s) = none) (fun s s' => res p s' 9 0 ∧ same p s s'))

/-- R298 to R301, R321, R322: SLCMD does the operation of MLOAD, MARM, MDIS or MSTAT on a slot of the partition or of none and leaves
its code in SLST; a slot of another partition gives 0x12, and a write while BUSY is ignored. -/
def Sys2Proof.Rules.SlotCommandsAct : Prop :=
  let free (p a : Nat) (s : State) : Prop := a < 4096 ∧ (s.part p).slBusy = false
    ∧ ((s.slot a).own = true → (s.slot a).part.toNat = p)
  let ends (p : Nat) (s' : State) (c : BitVec 8) : Prop := (s'.part p).slBusy = false ∧ (s'.part p).slst = c
  let word (op a : Nat) : DWord := BitVec.ofNat 64 (op * 2 ^ 62 + a)
  (∀ (p a : Nat) (s1 : State) (pat : List Byte), Happens (.slcmdMload p a)
      (fun s => free p a s ∧ (s.part p).slarg.toNat % 128 = 0 ∧ (s.part p).slarg.toNat < 2 ^ 55 ∧ (s.slot a).st ≤ 1
        ∧ State.readPattern (s.updPart p (fun q => { q with slcmd := word 0 a })) p a (s.part p).slarg.toNat 19 [] = (s1, .inl pat)
        ∧ patternOk (s1.part p) pat = true)
      fun _ s' => ends p s' 0 ∧ s'.slot a = { s1.slot a with pat := pat, st := 1, code := 0 })
  ∧ (∀ p a : Nat,
      Happens (.slcmdMload p a) (fun s => free p a s ∧ (s.part p).slarg.toNat % 128 ≠ 0)
        (fun s s' => ends p s' 0x10 ∧ s'.slots = s.slots)
      ∧ Happens (.slcmdMload p a) (fun s => free p a s ∧ (s.part p).slarg.toNat % 128 = 0 ∧ 2 ^ 55 ≤ (s.part p).slarg.toNat)
        (fun s s' => ends p s' 0x12 ∧ s'.slots = s.slots)
      ∧ Happens (.slcmdMload p a) (fun s => free p a s ∧ (s.part p).slarg.toNat % 128 = 0 ∧ (s.part p).slarg.toNat < 2 ^ 55
          ∧ 1 < (s.slot a).st) (fun s s' => ends p s' 0x31 ∧ s'.slots = s.slots))
  ∧ (∀ (p a : Nat) (u : BitVec 2), Happens (.slcmdMarm p a)
      (fun s => free p a s ∧ (s.slot a).st = 1 ∧ patSids (s.slot a).pat ≠ [] ∧ ∀ j ∈ patSids (s.slot a).pat,
        (s.queue j).v = true ∧ (s.queue j).part = (s.slot a).part ∧ (s.queue j).cmode = false ∧ (s.queue j).mtch = u)
      fun s s' => ends p s' 0 ∧ (s'.slot a).st = 2 ∧ (s'.slot a).unit = u ∧ (s'.slot a).cands = []
        ∧ (s'.slot a).cursors = (patSids (s.slot a).pat).map (fun j => (s.queue j).seq))
  ∧ (∀ p a : Nat, Happens (.slcmdMdis p a)
      (fun s => free p a s ∧ (s.slot a).st ≠ 0 ∧ ∀ j ∈ patSids (s.slot a).pat, (s.queue j).rcnt = 0)
      fun s s' => ends p s' 0 ∧ s'.slot a = { s.slot a with st := 1, cands := [], cursors := [], held := none, saved := false })
  ∧ (∀ p a : Nat, Happens (.slcmdMstat p a) (free p a) fun s s' => ends p s' 0 ∧ s'.slots = s.slots
      ∧ (s'.part p).slres = (s.slot a).stat (s.part p).slarg.toNat)
  ∧ (∀ (p a : Nat) (i : Instr), i ∈ [Instr.slcmdMload p a, .slcmdMarm p a, .slcmdMdis p a, .slcmdMstat p a] →
      Happens i (fun s => a < 4096 ∧ (s.part p).slBusy = false ∧ (s.slot a).own = true ∧ (s.slot a).part.toNat ≠ p)
        (fun s s' => ends p s' 0x12 ∧ s'.slots = s.slots)
      ∧ Happens i (fun s => (s.part p).slBusy = true ∧ (s.part p).slcmd ≠ word 0 a) fun s s' => s' = s)

/-- R298 to R301, R306 to R308, R321, R322: the commands of the control window. (The codes 0x10 and 0x12 of SLCMD's record address are the
model's reading, log 30.) -/
def Obligations.LaunchTableAndSlotCommands : Prop := Rules.LaunchTableCommands ∧ Rules.SlotCommandsAct

/-- R314, R319, R376: a quantum-table entry takes the firmware's fields; when the resident's quantum is over and another context of no
lower PRIO has a grid, the resident's save begins, and with no other it goes on; where the resident entry's V is cleared, its save begins; VACATE withholds the named cores and sends their teams
to another core of the grove or into their images, and releasing gives the cores back. -/
def Obligations.QuantaAndVacate : Prop :=
  let named (p : Nat) (v : DWord) (s : State) (c : Nat) : Prop := ∃ g i, (s.part p).groveList[(v.extractLsb' 48 5).toNat]? = some g
    ∧ i < 24 ∧ v.getLsbD i = true ∧ c = g * 24 + i
  let entry (p k : Nat) (s : State) : QEntry := (s.part p).quanta.get QEntry.reset k
  (∀ (p k : Nat) (v : DWord), k < 8 → Happens (.quantumEntryWrite p k v) (fun _ => True) fun s s' =>
      entry p k s' = ⟨v.getLsbD 63, v.extractLsb' 47 16, v.extractLsb' 31 16, v.extractLsb' 28 3, v.extractLsb' 20 8⟩
        ∧ ∀ j, j ≠ k → entry p j s' = entry p j s)
  ∧ (∀ (p k j : Nat) (c : BitVec 16), Happens (.quantumExpire p)
      (fun s => (s.part p).resident = some c ∧ k < 8 ∧ j < 8 ∧ (entry p k s).ctx = c ∧ (entry p j s).ctx ≠ c
        ∧ (∀ i < 8, (entry p i s).v = true ↔ i = k ∨ i = j) ∧ (s.part p).chosen = k
        ∧ (s.part p).quantStart + max 1 (entry p k s).quant.toNat * 1000 ≤ s.time
        ∧ s.ctxHasGrid p (entry p j s).ctx = true ∧ (entry p k s).prio ≤ (entry p j s).prio)
      fun s s' => s'.part p = { s.part p with resident := none, swap := some (c, false), resv := none })
  ∧ (∀ (p k : Nat) (c : BitVec 16), Happens (.quantumExpire p)
      (fun s => (s.part p).resident = some c ∧ k < 8 ∧ (entry p k s).ctx = c ∧ (∀ i < 8, (entry p i s).v = true ↔ i = k) ∧ (s.part p).chosen = k
        ∧ (s.part p).quantStart + max 1 (entry p k s).quant.toNat * 1000 ≤ s.time)
      fun s s' => s'.part p = { s.part p with chosen := k, quantStart := s.time })
  ∧ (∀ (p k : Nat) (c : BitVec 16), Happens (.quantumExpire p)
      (fun s => (s.part p).resident = some c ∧ k < 8 ∧ (entry p k s).ctx = c ∧ (∀ i < 8, (entry p i s).v = true ↔ i = k) ∧ (s.part p).chosen = k
        ∧ s.time < (s.part p).quantStart + max 1 (entry p k s).quant.toNat * 1000)
      fun s s' => s' = s)
  ∧ (∀ (p k : Nat) (c : BitVec 16), Happens (.quantumExpire p)
      (fun s => (s.part p).resident = some c ∧ (s.part p).chosen = k ∧ ((entry p k s).v = false ∨ (entry p k s).ctx ≠ c))
      fun s s' => s'.part p = { s.part p with resident := none, swap := some (c, false), resv := none })
  ∧ (∀ (p : Nat) (v : DWord), Happens (.vacateGo p v) (fun _ => True) fun s s' =>
      (∀ c, named p v s c → (s'.core c).withheld = true)
      ∧ ∀ id m, s.team? id = some m → named p v s m.core → m.moving = none → m.leaving = false →
          ∃ m', s'.team? id = some m' ∧ m'.core = m.core ∧ (m'.leaving = true
            ∨ ∃ c f, m'.moving = some (c, f) ∧ c / 24 = m.core / 24 ∧ (s'.core c).withheld = false))
  ∧ (∀ (p : Nat) (v : DWord), Happens (.vacateRelease p v) (fun _ => True) fun s s' =>
      (∀ c, named p v s c → (s'.core c).withheld = false) ∧ (∀ c, ¬ named p v s c → s'.core c = s.core c) ∧ s'.teams = s.teams)

/-! ### Saves and rollback (16) -/

/-- R374 to R377: a team that is to leave and has nothing outstanding goes into its image with its registers and region, and frees its
slots; the next team in order that fits stands on its core again with them. A context's save sends its teams off, then keeps its grids;
its restore brings them back, and at its end the context is resident and its quantum begins. -/
def Sys2Proof.Rules.TeamsAndContextsSaveAndReturn : Prop :=
  let same (t u : Thread) : Prop := u.st = t.st ∧ u.g = t.g ∧ u.o = t.o ∧ u.lat = t.lat ∧ u.preds = t.preds ∧ u.lk = t.lk ∧ u.pc = t.pc
    ∧ u.fflags = t.fflags ∧ u.cnt = t.cnt ∧ u.lane = t.lane ∧ u.tsize = t.tsize ∧ u.plane = t.plane ∧ u.step = t.step
    ∧ u.landing = t.landing ∧ u.qseq = t.qseq
  (∀ (id p i : Nat) (m : Team) (t : Thread), Happens (.teamSave id)
      (fun s => s.team? id = some m ∧ m.leaving = true ∧ m.ckpt = false ∧ m.rbDue = false ∧ s.teamBusy m = false
        ∧ s.partOfCore m.core = some p ∧ i < m.n ∧ (∀ j < m.n, (s.thread? (m.core * 512 + m.first + j)).isSome = true)
        ∧ s.thread? (m.core * 512 + m.first + i) = some t ∧ t.st ≠ .spawned)
      fun s s' => s'.team? id = none ∧ (∀ j < m.n, s'.thread? (m.core * 512 + m.first + j) = none)
        ∧ ∃ x, (s'.part p).teamImgs = (s.part p).teamImgs ++ [x] ∧ x.id = id ∧ x.team = m ∧ x.threads.length = m.n
          ∧ (∃ u, x.threads[i]? = some u ∧ same t u)
          ∧ x.region = (List.range ((m.region + 127) / 128 * 128)).map (fun a => Memory.read s.scr (m.core * 2 ^ 18 + m.argp + a)))
  ∧ (∀ (p i : Nat) (x : TeamImg) (r : Room) (t : Thread), Happens (.teamRestore p)
      (fun s => s.nextRestore p = some (x, r) ∧ x.threads[i]? = some t ∧ t.st ≠ .waiting ∧ x.threads.length = x.team.n)
      fun s s' => (∃ u, s'.thread? (r.core * 512 + r.first + i) = some u ∧ same t u)
        ∧ (∃ m, s'.team? x.id = some m ∧ m.core = r.core ∧ m.first = r.first ∧ m.argp = x.team.argp ∧ m.grid = x.team.grid
          ∧ m.leaving = false)
        ∧ (∀ a < x.region.length, Memory.read s'.scr (r.core * 2 ^ 18 + x.team.argp + a) = x.region.getD a 0)
        ∧ ∀ y ∈ (s'.part p).teamImgs, y.id ≠ x.id)
  ∧ (∀ (p : Nat) (c : BitVec 16) (id : Nat) (m : Team) (g : Grid), Happens (.contextSave p c.toNat)
      (fun s => (s.part p).swap = some (c, false) ∧ (s.part p).swapHeld = none ∧ s.team? id = some m ∧ s.grid? m.grid = some g ∧ g.part = p ∧ g.ctx = c)
      fun s s' => (∃ m', s'.team? id = some m' ∧ m'.leaving = true ∧ m'.moving = none) ∧ s'.threads = s.threads)
  ∧ (∀ (p : Nat) (c : BitVec 16), Happens (.contextSave p c.toNat)
      (fun s => (s.part p).swap = some (c, false) ∧ (s.part p).swapHeld = none ∧ (∀ e ∈ s.teams, ∀ g, s.grid? e.2.grid = some g → g.part ≠ p ∨ g.ctx ≠ c)
        ∧ s.autosOf p c = [])
      fun s s' => (s'.part p).swap = none ∧ SMap.find? (s'.part p).lease c.toNat = none
        ∧ (∀ e, e ∈ s'.grids ↔ e ∈ s.grids ∧ ¬ (e.2.part = p ∧ e.2.ctx = c))
        ∧ ∃ x ∈ (s'.part p).images, x.ctx = c ∧ x.time = s.time ∧ x.lease = SMap.find? (s.part p).lease c.toNat
          ∧ x.allow = (s.part p).allow.get 0 c.toNat ∧ (∀ e, e ∈ x.grids ↔ e ∈ s.grids ∧ e.2.part = p ∧ e.2.ctx = c)
          ∧ ∀ y, y ∈ x.teams ↔ y ∈ (s.part p).teamImgs ∧ ∃ e ∈ x.grids, e.1 = y.team.grid)
  ∧ (∀ (p k : Nat) (c : BitVec 16), Happens (.contextRestore p c.toNat)
      (fun s => (s.part p).resident = none ∧ (s.part p).swap = none ∧ s.chooseEntry p = some k ∧ ((s.part p).quantum k).ctx = c
        ∧ ∀ x ∈ (s.part p).images, x.ctx ≠ c)
      fun s s' => s'.part p = { s.part p with resident := some c, chosen := k, quantStart := s.time })
  ∧ (∀ (p k : Nat) (c : BitVec 16) (x : CtxImg), Happens (.contextRestore p c.toNat)
      (fun s => (s.part p).resident = none ∧ (s.part p).swap = none ∧ s.chooseEntry p = some k ∧ ((s.part p).quantum k).ctx = c
        ∧ (s.part p).images.find? (fun i => i.ctx == c) = some x ∧ (x.grids.map (·.1)).Nodup)
      fun s s' => (s'.part p).swap = some (c, true) ∧ (s'.part p).resident = none
        ∧ (s'.part p).teamImgs = (s.part p).teamImgs ++ x.teams ∧ (∀ e ∈ x.grids, s'.grid? e.1 = some e.2)
        ∧ (∀ ns, x.lease = some ns → SMap.find? (s'.part p).lease c.toNat = some ns))
  ∧ (∀ (p : Nat) (c : BitVec 16), Happens (.contextRestore p c.toNat)
      (fun s => (s.part p).resident = none ∧ (s.part p).swap = some (c, true) ∧ (s.part p).swapHeld = none ∧ s.nextRestore p = none
        ∧ ∀ x ∈ (s.part p).images, x.ctx = c → x.autos = [])
      fun s s' => (s'.part p).resident = some c ∧ (s'.part p).swap = none ∧ (s'.part p).quantStart = s.time
        ∧ ∀ x ∈ (s'.part p).images, x.ctx ≠ c)

/-- R380, R383: a checkpoint writes the team's shadow and begins a recoverable interval with an empty log; a rollback brings every thread
of a recoverable team back to its shadow, ready unless it had left, once; a team that cannot roll back has its context killed with
0x41. -/
def Sys2Proof.Rules.IntervalsRollBack : Prop :=
  (∀ (id p i j : Nat) (m : Team) (g : Grid) (t : Thread), Happens (.rollbackCheckpoint id)
      (fun s => s.team? id = some m ∧ m.seg = some i ∧ m.ckpt = true ∧ s.teamIdle m = true ∧ s.partOfCore m.core = some p
        ∧ s.grid? m.grid = some g ∧ j < m.n ∧ (∀ k < m.n, (s.thread? (m.core * 512 + m.first + k)).isSome = true)
        ∧ s.thread? (m.core * 512 + m.first + j) = some t)
      fun s s' => s'.team? id = some { m with ckpt := false, recov := true, rolled := false, met := [] }
        ∧ (∃ x, SMap.find? (s'.part p).shadows i = some x ∧ x.threads[j]? = some t
          ∧ x.region = (List.range ((m.region + 127) / 128 * 128)).map (fun a => Memory.read s.scr (m.core * 2 ^ 18 + m.argp + a)))
        ∧ SMap.find? (s'.part p).rlogs i = none ∧ s'.threads = s.threads ∧ s'.scr = s.scr)
  ∧ (∀ (id p i j : Nat) (m : Team) (x : TeamImg) (t : Thread), Happens (.rollback id)
      (fun s => s.team? id = some m ∧ m.seg = some i ∧ m.rbDue = true ∧ m.recov = true ∧ m.rolled = false ∧ m.rbHeld = none ∧ s.teamIdle m = true
        ∧ (∀ e ∈ (s.part p).rlogs.get [] i, e.comp = false)
        ∧ s.partOfCore m.core = some p ∧ SMap.find? (s.part p).shadows i = some x ∧ x.threads[j]? = some t)
      fun s s' => (∃ u, s'.thread? (m.core * 512 + m.first + j) = some u ∧ u.g = t.g ∧ u.o = t.o ∧ u.lat = t.lat ∧ u.preds = t.preds
          ∧ u.lk = t.lk ∧ u.pc = t.pc ∧ u.fflags = t.fflags ∧ u.lane = t.lane ∧ u.park = (if u.st = .ready then none else u.park)
          ∧ u.st = (if t.st = .exited ∨ t.st = .returned then t.st else .ready))
        ∧ (∃ m', s'.team? id = some m' ∧ m'.core = m.core ∧ m'.first = m.first ∧ m'.argp = m.argp ∧ m'.recov = true ∧ m'.rolled = true)
        ∧ (∀ a < x.region.length, Memory.read s'.scr (m.core * 2 ^ 18 + m.argp + a) = x.region.getD a 0)
        ∧ SMap.find? (s'.part p).rlogs i = none)
  ∧ (∀ (id p i : Nat) (m : Team) (g : Grid), Happens (.rollback id)
      (fun s => s.team? id = some m ∧ m.seg = some i ∧ m.rbDue = true ∧ m.rbHeld = none ∧ (m.recov = false ∨ m.rolled = true)
        ∧ s.partOfCore m.core = some p ∧ s.grid? m.grid = some g ∧ g.part = p)
      fun _ s' => s'.team? id = none ∧ (∀ e ∈ s'.grids, e.2.part ≠ p ∨ e.2.ctx ≠ g.ctx)
        ∧ (s'.part p).killst = BitVec.ofNat 64 (2 ^ 63 + g.ctx.toNat * 2 ^ 47 + 0x41))

/-- R374 to R377, R380, R383: teams and contexts are saved and restored, and intervals roll back. -/
def Obligations.SavesAndRollbacks : Prop := Rules.TeamsAndContextsSaveAndReturn ∧ Rules.IntervalsRollBack

/-! ### The host mailbox (17) -/

/-- R389, R390: Heartwood acts on a mailbox command only on partitions in PARTS, answers 0x0001 for any other, leaves the result in MBST
and MBRSP and clears GO. SET_OP casts the votes, BIND, UNBIND, QSET and QTAB write the scheduling tables, KILL kills the context in
every partition of the device (R384), and the device takes the most active state requested (R400). IMAGE is accepted in recovery
alone, where every other command is not known (R403). -/
def Sys2Proof.Rules.MailboxCommands : Prop :=
  let taken (ld : Nat) (s : State) : Prop := (s.ld ld).v = true ∧ (s.ld ld).go = true ∧ (s.ld ld).mbHeld = none ∧ s.dev.powered = true
    ∧ ∀ e ∈ s.queues, e.2.hostq ≠ [] → s.reaches ld e.1 = false
  let ready (ld : Nat) (s : State) : Prop := taken ld s ∧ s.dev.state ≠ 4 ∧ s.dev.state ≠ 5
  let ends (ld : Nat) (s' : State) (code sts : Nat) (rsp : List Byte) : Prop := (s'.ld ld).go = false
    ∧ (s'.ld ld).cmd = BitVec.ofNat 16 code ∧ (s'.ld ld).sts = BitVec.ofNat 16 sts
    ∧ ∀ i < rsp.length, rsp[i]? = some (Memory.read (s'.ld ld).bar (0x200 + i))
  let req (s : State) (ld off n : Nat) : Nat := bytesNat (Memory.readN (s.ld ld).bar (0x100 + off) n)
  let mine (s : State) (ld p : Nat) : Prop := p < 32 ∧ (s.ld ld).parts.getLsbD p = true
  -- SET_OP
  (∀ ld : Nat, Happens (.setOp ld)
      (fun s => ready ld s ∧ ∀ p < 32, (req s ld 0 4).testBit p = true → mine s ld p)
      (fun s s' => ends ld s' 1 0 [] ∧ ∀ p, s'.part p = if p < 32 ∧ (req s ld 0 4).testBit p = true
        then { s.part p with vote := BitVec.ofNat 3 (req s ld 4 1) } else s.part p)
    ∧ Happens (.setOp ld) (fun s => ready ld s ∧ ∃ p < 32, (req s ld 0 4).testBit p = true ∧ ¬ mine s ld p)
      (fun s s' => ends ld s' 1 1 [] ∧ s'.parts = s.parts))
  -- SET_STATE
  ∧ (∀ (ld : Nat) (r : BitVec 2), Happens (.setState ld)
      (fun s => ready ld s ∧ s.dev.state.toNat < 4 ∧ SMap.sortedFrom none s.lds = true ∧ req s ld 0 1 = r.toNat)
      fun s s' => ends ld s' 2 0 [] ∧ (s'.ld ld).reqState = r
        ∧ (∀ e ∈ s'.lds, e.2.v = true → s'.dev.state.toNat ≤ e.2.reqState.toNat)
        ∧ (∃ e ∈ s'.lds, e.2.v = true ∧ s'.dev.state.toNat = e.2.reqState.toNat)
        ∧ (s'.dev.state = 3 → s.dev.state ≠ 3 → s'.mem = s.mem.filter (fun e => decide (2 ^ 52 ≤ e.1)) ∧ s'.scr = [] ∧ s'.l2 = [] ∧ s'.threads = []))
  -- BIND and UNBIND
  ∧ (∀ ld e p : Nat,
      Happens (.bind ld e) (fun s => ready ld s ∧ req s ld 128 1 = p ∧ mine s ld p ∧ e < 4096 ∧ ((s.part p).lentry e).b = false
          ∧ bindCode (s.part p).groveList.length (Memory.readN (s.ld ld).bar 0x100 128) = 0)
        (fun s s' => ends ld s' 3 0 (leBytes 4 (((s.part p).lentry e).gen.toNat * 4096 + e))
          ∧ (s'.part p).lentry e = { (s.part p).lentry e with
              bytes := Memory.readN (s.ld ld).bar 0x100 128, b := true, ctx := BitVec.ofNat 16 (req s ld 130 2), live := 0 }
          ∧ ∀ i, i ≠ e → (s'.part p).lentry i = (s.part p).lentry i)
      ∧ Happens (.bind ld e) (fun s => ready ld s ∧ req s ld 128 1 = p ∧ ¬ mine s ld p)
        (fun s s' => ends ld s' 3 1 [] ∧ s'.parts = s.parts))
  ∧ (∀ (ld p : Nat) (h : BitVec 32),
      let knows (s : State) : Prop := ready ld s ∧ req s ld 0 4 = h.toNat ∧ mine s ld p ∧ ((s.part p).named h).isSome = true
        ∧ ∀ q < p, mine s ld q → (s.part q).named h = none
      Happens (.unbind ld) (fun s => knows s ∧ s.handleInUse p h = false) (fun s s' => ends ld s' 4 0 [] ∧ (s'.part p).named h = none
        ∧ ((s'.part p).lentry (h.toNat % 4096)).b = false)
      ∧ Happens (.unbind ld) (fun s => knows s ∧ s.handleInUse p h = true) (fun s s' => ends ld s' 4 3 [] ∧ s'.parts = s.parts)
      ∧ Happens (.unbind ld) (fun s => ready ld s ∧ req s ld 0 4 = h.toNat ∧ ∀ q, mine s ld q → (s.part q).named h = none)
        (fun s s' => ends ld s' 4 3 [] ∧ s'.parts = s.parts))
  -- QSET
  ∧ (∀ ld j : Nat,
      let word (s : State) : DWord := BitVec.ofNat 64 (req s ld 24 8)
      let sum (s : State) : Nat := ((s.queues.filter (fun e => e.1 != j && e.2.v)).map (fun e => e.2.min.toNat)).sum
        + ((word s).extractLsb' 35 18).toNat
      let ours (s : State) : Prop := ready ld s ∧ req s ld 32 4 = j ∧ j < 147456
        ∧ ((s.queue j).v = true → mine s ld (s.queue j).part.toNat)
        ∧ (word s).getLsbD 63 = true ∧ mine s ld ((word s).extractLsb' 58 5).toNat
      Happens (.qset ld) (fun s => ours s ∧ (s.queue j).pool = [] ∧ (s.queue j).rcnt = 0
          ∧ (word s).extractLsb' 35 18 ≤ (word s).extractLsb' 17 18 ∧ sum s ≤ 262144)
        (fun s s' => ends ld s' 5 0 [] ∧ s'.queue j = { s.queue j with
          drops := BitVec.ofNat 32 (req s ld 0 4), rbase := (BitVec.ofNat 64 (req s ld 16 8)).extractLsb' 21 43
          v := true, part := (word s).extractLsb' 58 5, cmode := (word s).getLsbD 57, mtch := (word s).extractLsb' 55 2
          pol := (word s).extractLsb' 53 2, min := (word s).extractLsb' 35 18, cap := (word s).extractLsb' 17 18
          rlog := (word s).extractLsb' 12 5 })
      ∧ Happens (.qset ld) (fun s => ours s ∧ ((word s).extractLsb' 17 18 < (word s).extractLsb' 35 18 ∨ 262144 < sum s))
        (fun s s' => ends ld s' 5 3 [] ∧ s'.queues = s.queues)
      ∧ Happens (.qset ld) (fun s => ready ld s ∧ req s ld 32 4 = j ∧ j < 147456 ∧ (s.queue j).v = true
          ∧ ¬ mine s ld (s.queue j).part.toNat)
        (fun s s' => ends ld s' 5 1 [] ∧ s'.queues = s.queues))
  -- KILL
  ∧ (∀ (ld : Nat) (c : BitVec 16), Happens (.kill ld) (fun s => ready ld s ∧ req s ld 0 2 = c.toNat)
      fun s s' => ends ld s' 7 0 [] ∧ ∃ code : Byte, ∀ p, mine s ld p →
        (s'.part p).killst = BitVec.ofNat 64 (2 ^ 63 + c.toNat * 2 ^ 47 + code.toNat)
          ∧ ∀ e ∈ s'.grids, ¬ (e.2.part = p ∧ e.2.ctx = c))
  -- QTAB
  ∧ (∀ ld p k : Nat,
      let word (s : State) : DWord := BitVec.ofNat 64 (req s ld 8 8)
      Happens (.qtab ld) (fun s => ready ld s ∧ req s ld 0 1 = p ∧ mine s ld p ∧ req s ld 1 1 = k ∧ k ≤ 7
          ∧ (word s).extractLsb' 0 18 = 0)
        (fun s s' => ends ld s' 8 0 [] ∧ (s'.part p).quantum k = ⟨(word s).getLsbD 63, (word s).extractLsb' 47 16,
            (word s).extractLsb' 31 16, (word s).extractLsb' 28 3, (word s).extractLsb' 20 8⟩
          ∧ ∀ i, i ≠ k → (s'.part p).quantum i = (s.part p).quantum i)
      ∧ Happens (.qtab ld) (fun s => ready ld s ∧ req s ld 0 1 = p ∧ mine s ld p ∧ req s ld 1 1 = k
          ∧ (7 < k ∨ (word s).extractLsb' 0 18 ≠ 0)) (fun s s' => ends ld s' 8 3 [] ∧ s'.parts = s.parts)
      ∧ Happens (.qtab ld) (fun s => ready ld s ∧ req s ld 0 1 = p ∧ ¬ mine s ld p)
        (fun s s' => ends ld s' 8 1 [] ∧ s'.parts = s.parts))
  -- IMAGE, and recovery
  ∧ (∀ ld : Nat,
      Happens (.image ld) (fun s => taken ld s ∧ s.dev.state = 5)
        (fun s s' => ends ld s' 0xF0 0 [] ∧ Memory.holds s.dev.image s'.dev.image (req s ld 0 4) (Memory.readN (s.ld ld).bar 0x104 252))
      ∧ Happens (.image ld) (ready ld) (fun s s' => ends ld s' 0xF0 2 [] ∧ s'.dev = s.dev)
      ∧ ∀ x ∈ [(Instr.setOp ld, 1), (.setState ld, 2), (.bind ld 0, 3), (.unbind ld, 4), (.qset ld, 5), (.slotMload ld, 6),
          (.slotMarm ld, 6), (.slotMdis ld, 6), (.slotMstat ld, 6), (.kill ld, 7), (.qtab ld, 8)],
        Happens x.1 (fun s => taken ld s ∧ s.dev.state = 5)
          (fun s s' => ends ld s' x.2 2 [] ∧ s' = { s with lds := s'.lds }))

/-- R298 to R301, R390: SLOT does MLOAD, MARM, MDIS or MSTAT, by byte 0 of the request, on a slot of one of the device's partitions, as
R302 has them; STS holds the fault code or 0, and MSTAT's value is in MBRSP. -/
def Sys2Proof.Rules.MailboxSlotCommands : Prop :=
  let req (s : State) (ld off n : Nat) : Nat := bytesNat (Memory.readN (s.ld ld).bar (0x100 + off) n)
  let ready (ld op a v : Nat) (s : State) : Prop := (s.ld ld).v = true ∧ (s.ld ld).go = true ∧ (s.ld ld).mbHeld = none
    ∧ (∀ e ∈ s.queues, e.2.hostq ≠ [] → s.reaches ld e.1 = false)
    ∧ s.dev.powered = true ∧ s.dev.state ≠ 4 ∧ s.dev.state ≠ 5 ∧ req s ld 0 1 = op ∧ req s ld 4 4 = a ∧ a < 4096 ∧ req s ld 8 8 = v
  let mine (ld a : Nat) (s : State) : Prop := (s.slot a).own = true ∧ (s.ld ld).parts.getLsbD (s.slot a).part.toNat = true
  let ends (ld : Nat) (s' : State) (sts : Nat) (rsp : List Byte) : Prop := (s'.ld ld).go = false
    ∧ (s'.ld ld).cmd = 6 ∧ (s'.ld ld).sts = BitVec.ofNat 16 sts
    ∧ ∀ i < rsp.length, rsp[i]? = some (Memory.read (s'.ld ld).bar (0x200 + i))
  (∀ (ld a v : Nat) (s1 : State) (pat : List Byte), Happens (.slotMload ld)
      (fun s => ready ld 0 a v s ∧ mine ld a s ∧ v % 128 = 0 ∧ v < 2 ^ 55 ∧ (s.slot a).st ≤ 1
        ∧ State.readPattern s (s.slot a).part.toNat a v 19 [] = (s1, .inl pat)
        ∧ patternOk (s1.part (s.slot a).part.toNat) pat = true)
      fun _ s' => ends ld s' 0 [] ∧ s'.slot a = { s1.slot a with pat := pat, st := 1, code := 0 })
  ∧ (∀ ld a v : Nat,
      Happens (.slotMload ld) (fun s => ready ld 0 a v s ∧ mine ld a s ∧ v % 128 ≠ 0) (fun s s' => ends ld s' 0x10 [] ∧ s'.slots = s.slots)
      ∧ Happens (.slotMload ld) (fun s => ready ld 0 a v s ∧ mine ld a s ∧ v % 128 = 0 ∧ 2 ^ 55 ≤ v)
        (fun s s' => ends ld s' 0x12 [] ∧ s'.slots = s.slots)
      ∧ Happens (.slotMload ld) (fun s => ready ld 0 a v s ∧ mine ld a s ∧ v % 128 = 0 ∧ v < 2 ^ 55 ∧ 1 < (s.slot a).st)
        (fun s s' => ends ld s' 0x31 [] ∧ s'.slots = s.slots))
  ∧ (∀ (ld a v : Nat) (u : BitVec 2), Happens (.slotMarm ld)
      (fun s => ready ld 1 a v s ∧ mine ld a s ∧ (s.slot a).st = 1 ∧ patSids (s.slot a).pat ≠ [] ∧ ∀ j ∈ patSids (s.slot a).pat,
        (s.queue j).v = true ∧ (s.queue j).part = (s.slot a).part ∧ (s.queue j).cmode = false ∧ (s.queue j).mtch = u)
      fun s s' => ends ld s' 0 [] ∧ (s'.slot a).st = 2 ∧ (s'.slot a).unit = u ∧ (s'.slot a).cands = []
        ∧ (s'.slot a).cursors = (patSids (s.slot a).pat).map (fun j => (s.queue j).seq))
  ∧ (∀ ld a v : Nat, Happens (.slotMarm ld)
      (fun s => ready ld 1 a v s ∧ mine ld a s ∧ (s.slot a).st = 1 ∧ ∃ j ∈ patSids (s.slot a).pat, (s.queue j).v = false)
      fun s s' => ends ld s' 0x31 [] ∧ s'.slots = s.slots)
  ∧ (∀ ld a v : Nat, Happens (.slotMdis ld)
      (fun s => ready ld 2 a v s ∧ mine ld a s ∧ (s.slot a).st ≠ 0 ∧ ∀ j ∈ patSids (s.slot a).pat, (s.queue j).rcnt = 0)
      fun s s' => ends ld s' 0 [] ∧ s'.slot a = { s.slot a with st := 1, cands := [], cursors := [], held := none, saved := false })
  ∧ (∀ ld a v : Nat, Happens (.slotMstat ld) (fun s => ready ld 3 a v s ∧ mine ld a s)
      fun s s' => ends ld s' 0 (leBytes 8 ((s.slot a).stat v).toNat) ∧ s'.slots = s.slots)
  ∧ (∀ (ld a v op : Nat) (i : Instr), (i, op) ∈ [(Instr.slotMload ld, 0), (.slotMarm ld, 1), (.slotMdis ld, 2), (.slotMstat ld, 3)] →
      Happens i (fun s => ready ld op a v s ∧ (s.slot a).own = true ∧ (s.ld ld).parts.getLsbD (s.slot a).part.toNat = false)
        (fun s s' => ends ld s' 1 [] ∧ s'.slots = s.slots))

/-- R298 to R302, R384, R389, R390, R400, R403: the mailbox commands, those on slots among them. (That SET_OP with a partition of another
device is refused whole, that UNBIND takes the lowest partition, QTAB's bits [17:0], and 0x0002 for the other commands in recovery are the
model's readings, log 48; KILL's code is free, logs 5 and 47.) -/
def Obligations.MailboxActs : Prop := Rules.MailboxCommands ∧ Rules.MailboxSlotCommands

/-! ### Power and bring-up (17) -/

/-- R399, R401, R402, R387: on a rail's change the clock follows a settled voltage, and the voltage follows a fall of the clock when its
20 µs are over; a cap is clamped to 600 to 1800 W and sets every grove's RATE and UNMET; at 115 °C the trip signal is asserted; a port
trains at one of its widths and rates; without power nothing is left but the fuses, the hosts' memory and the pool of the CXL tier, and no
step is made. (What the loss of power keeps, that no step is made then, and that RATE is written at once with the clock following as an
event are the model's readings, log 49.) -/
def Obligations.PowerFollows : Prop :=
  (∀ reg : Fin 4,
      let x (s : State) : Rail := s.rail reg.val
      let only (s s' : State) (y : Rail) : Prop := s'.rail reg.val = y ∧ (∀ r, r ≠ reg.val → s'.rail r = s.rail r)
        ∧ s' = { s with rails := s'.rails }
      Happens (.railTransitionStep reg) (fun s => (x s).due.isSome = true ∧ (x s).clk < (x s).goal)
        (fun s s' => only s s' { x s with clk := (x s).goal, due := if (x s).volt = (x s).goal then none else (x s).due })
      ∧ (∀ d, Happens (.railTransitionStep reg) (fun s => (x s).due = some d ∧ ¬ (x s).clk < (x s).goal ∧ d ≤ s.time)
        (fun s s' => only s s' { x s with volt := (x s).goal, due := none }))
      ∧ (∀ d, Happens (.railTransitionStep reg) (fun s => (x s).due = some d ∧ ¬ (x s).clk < (x s).goal ∧ s.time < d)
        (fun s s' => only s s' (x s))))
  ∧ (∀ watts : Nat, Happens (.powerCapWrite watts) (fun s => s.dev.state = 5) fun s s' => s' = s)
  ∧ (∀ watts : Nat, Happens (.powerCapWrite watts) (fun s => s.dev.state ≠ 5) fun s s' =>
      let c : Nat := if watts < 600 then 600 else if 1800 < watts then 1800 else watts
      let rate : Int := max 1 (min 1536 (1536 * ((c : Int) - 1240) / 560))
      s'.dev = { s.dev with cap := BitVec.ofNat 16 c, unmet := decide (c < 1240) }
        ∧ ∀ g < 32, ∃ v : DWord, (s'.grove g).cfgNext = some v ∧ ((v.extractLsb' 16 11).toNat : Int) = rate
          ∧ ∀ i < 64, (i < 16 ∨ 27 ≤ i) → v.getLsbD i = (s.grove g).cfg.getLsbD i)
  ∧ (∀ temp : Nat,
      Happens (.thermalTrip temp) (fun _ => 115 ≤ temp) (fun s s' => s'.dev.trip = true ∧ s'.dev.dieT.toNat = min 255 temp
        ∧ s' = { s with dev := { s.dev with trip := true, dieT := s'.dev.dieT } })
      ∧ Happens (.thermalTrip temp) (fun _ => temp < 115) fun s s' => s' = s)
  ∧ (∀ (port : Fin 4) (mode : PortMode) (width rate : Nat),
      let trains : Prop := width ∈ [1, 2, 4, 8, 16] ∧ rate ∈ [25, 50, 80, 160, 320, 640]
      let at' (x : Port) (s s' : State) : Prop := SMap.find? s'.ports port.val = some x
        ∧ (∀ q, q ≠ port.val → SMap.find? s'.ports q = SMap.find? s.ports q) ∧ s' = { s with ports := s'.ports }
      Happens (.linkTrain port mode ⟨width, rate⟩) (fun _ => mode ≠ .down ∧ trains) (at' ⟨mode, width, rate⟩)
      ∧ Happens (.linkTrain port .down ⟨width, rate⟩) (fun _ => True) (at' ⟨.down, 0, 0⟩)
      ∧ Happens (.linkTrain port mode ⟨width, rate⟩) (fun _ => mode ≠ .down ∧ ¬ trains) fun s s' => s' = s)
  ∧ Happens .powerRemoval (fun _ => True) (fun s s' => s'.dev.powered = false ∧ s'.threads = [] ∧ s'.teams = [] ∧ s'.grids = []
      ∧ s'.parts = [] ∧ s'.queues = [] ∧ s'.slots = [] ∧ s'.mem = s.mem.filter (fun e => decide (2 ^ 52 ≤ e.1)) ∧ s'.scr = [] ∧ s'.l2 = [] ∧ s'.l1 = []
      ∧ s'.ops = [] ∧ s'.host = s.host ∧ s'.dev.fuseSvn = s.dev.fuseSvn ∧ s'.dev.fuseHash1 = s.dev.fuseHash1 ∧ s'.dev.fuseHash2 = s.dev.fuseHash2)
  ∧ (∀ s : State, s.agenda = [] → s.dev.powered = false → step s = .fault .powerRemoved)

/-- R403, R404: at reset an image that passes both signatures and the SVN check runs, and STATE is idle; any other leaves the device in
recovery with BOOT holding the reason, 1 for a signature, 2 for the SVN, 3 for none. The fused SVN rises to that of the running image.
A measurement is given for the indices 1 to 6, over MCTP (the model's logical device 16 and above) or to an enabled logical device
whose port is up, before the device boots or recovers. -/
def Sys2Proof.Rules.BringUpVerifies : Prop :=
  let boots (img : Option BootImage) (C : State → Prop) (st reason : Nat) : Prop := Happens (.deviceReset img) C fun s s' =>
    s'.dev.state = BitVec.ofNat 4 st ∧ s'.dev.boot = BitVec.ofNat 4 reason ∧ s'.dev.powered = true ∧ s'.dev.fuseSvn = s.dev.fuseSvn
      ∧ s'.threads = [] ∧ s'.teams = [] ∧ s'.grids = [] ∧ s'.parts = [] ∧ s'.queues = [] ∧ s'.slots = [] ∧ s'.scr = []
      ∧ s'.mem = s.mem.filter (fun e => decide (2 ^ 52 ≤ e.1)) ∧ s'.host = s.host ∧ s'.l2 = [] ∧ s'.time = 0 ∧ ∀ x, img = some x → s'.dev.digest = x.digest ∧ (st = 1 → s'.dev.svn = x.svn)
  (∀ x : BootImage, x.edOk = true → x.mlOk = true → boots (some x) (fun s => ¬ x.svn < s.dev.fuseSvn) 1 0)
  ∧ (∀ x : BootImage, (x.edOk = false ∨ x.mlOk = false) → boots (some x) (fun _ => True) 5 1)
  ∧ (∀ x : BootImage, x.edOk = true → x.mlOk = true → boots (some x) (fun s => x.svn < s.dev.fuseSvn) 5 2)
  ∧ boots none (fun _ => True) 5 3
  ∧ Happens .svnCommand (fun _ => True) (fun s s' => s'.dev.fuseSvn.toNat = max s.dev.fuseSvn.toNat s.dev.svn.toNat
      ∧ s' = { s with dev := { s.dev with fuseSvn := s'.dev.fuseSvn } })
  ∧ (∀ ld idx : Nat,
      let runs (s : State) : Prop := s.dev.state < 4 ∧ 1 ≤ idx ∧ idx ≤ 6
      let up (s : State) : Prop := (s.ld ld).v = true ∧ (s.portOf ld).mode ≠ .down
      Happens (.spdmRequest ⟨ld, idx⟩) (fun s => runs s ∧ 16 ≤ ld) (fun s s' => ∃ r, r.idx = idx
        ∧ s' = { s with dev := { s.dev with spdm := some r }, fresh := s.fresh + 1 })
      ∧ Happens (.spdmRequest ⟨ld, idx⟩) (fun s => runs s ∧ ld < 16 ∧ up s) (fun s s' => ∃ r, r.idx = idx
        ∧ s'.ld ld = { s.ld ld with spdm := some r } ∧ (∀ v, v ≠ ld → s'.ld v = s.ld v)
        ∧ s' = { s with lds := s'.lds, fresh := s.fresh + 1 })
      ∧ Happens (.spdmRequest ⟨ld, idx⟩) (fun s => idx = 0 ∨ 7 ≤ idx ∨ 4 ≤ s.dev.state ∨ (ld < 16 ∧ ¬ up s)) fun s s' => s' = s)

/-- R317, R318, R404: a write of a partition's entry takes its fields, a new partition with fresh keys, CQUOTA 4096 and context 0
resident; a write that would give a grove or a slice to two valid partitions, or leave a valid one without, is refused; a partition
whose V goes to 0 loses its grids. A virtual-function entry takes V and PORT; PARTS of every logical device is the partitions whose VF
names it. Either table is measured again. In recovery no table is written. -/
def Sys2Proof.Rules.OperatorTablesWritten : Prop :=
  let groves (e : BitVec 256) : BitVec 32 := e.extractLsb' 208 32
  let slices (e : BitVec 256) : BitVec 64 := e.extractLsb' 144 64
  let apart (s : State) (p : Nat) (e : BitVec 256) : Prop := ∀ q < 32, q ≠ p → (s.part q).v = true →
    (s.part q).groves &&& groves e = 0 ∧ (s.part q).slices &&& slices e = 0
  let runs (s : State) : Prop := s.dev.state ≠ 5
  let synced (s : State) : Prop := s.dev.meas5 = s.tables
    ∧ ∀ v < 16, ∀ p < 32, (s.ld v).parts.getLsbD p = ((s.part p).v && decide ((s.part p).vf.toNat = v))
  let fields (q : Partition) (e : BitVec 256) (cq : BitVec 18) : Prop := q.v = e.getLsbD 255 ∧ q.vf = e.extractLsb' 251 4
    ∧ q.reg = e.extractLsb' 249 2 ∧ q.afb = e.getLsbD 248 ∧ q.groves = groves e ∧ q.slices = slices e ∧ q.cquota = cq
    ∧ q.rsvt = e.extractLsb' 110 16
  (∀ (p : Nat) (e : BitVec 256), p < 32 → e.getLsbD 255 = true →
      Happens (.partitionTableWrite (.part p e)) (fun s => runs s ∧ (s.part p).v = false ∧ groves e ≠ 0 ∧ slices e ≠ 0 ∧ apart s p e)
        (fun s s' => fields (s'.part p) e 4096 ∧ (s'.part p).resident = some 0
          ∧ (∀ k < 16, (s'.part p).keys.get KeyEnt.blank k = ⟨some (s.keyDraws + k), []⟩) ∧ s'.keyDraws = s.keyDraws + 16
          ∧ (∀ q, q ≠ p → s'.part q = s.part q) ∧ synced s')
      ∧ Happens (.partitionTableWrite (.part p e)) (fun s => runs s ∧ (s.part p).v = true ∧ groves e ≠ 0 ∧ slices e ≠ 0 ∧ apart s p e)
        (fun s s' => fields (s'.part p) e (e.extractLsb' 126 18) ∧ (∀ q, q ≠ p → s'.part q = s.part q) ∧ synced s')
      ∧ Happens (.partitionTableWrite (.part p e)) (fun s => groves e = 0 ∨ slices e = 0 ∨ ¬ apart s p e) fun s s' => s' = s)
  ∧ (∀ (p : Nat) (e : BitVec 256), p < 32 → e.getLsbD 255 = false →
      Happens (.partitionTableWrite (.part p e)) (fun s => runs s ∧ (s.part p).v = true)
        fun s s' => (s'.part p).v = false ∧ (∀ g ∈ s'.grids, g.2.part ≠ p) ∧ synced s')
  ∧ (∀ x : TableWrite, Happens (.partitionTableWrite x) (fun s => ¬ runs s) fun s s' => s' = s)
  ∧ (∀ (v : Nat) (e : BitVec 64), v < 16 → Happens (.partitionTableWrite (.vf v e)) runs
      fun s s' => (s'.ld v).v = e.getLsbD 63 ∧ (s'.ld v).port = e.extractLsb' 61 2
        ∧ (∀ i < 16, i ≠ v → s'.ld i = { s.ld i with parts := (s'.ld i).parts }) ∧ synced s')

/-- R317, R318, R403, R404: bring-up, and the operator's tables. (That no measurement is given at state 4 and above and the numbering of
MCTP, log 49, the pool bytes that a reset keeps, log 54, and what a rewritten partition keeps, log 56, are the model's readings.) -/
def Obligations.BringUpAndTables : Prop := Rules.BringUpVerifies ∧ Rules.OperatorTablesWritten

/-! ### Hosts, companion cores and registers (14, 17, 20) -/

/-- R333, R391, R388: a companion core's write, and a host's CXL.mem write through the HDM decoder of its logical device, are performed at
the L2 slice of the line; a host's read changes nothing there, nor does an access that is not whole in the decoder's range, or whose
range is not whole in one partition of the device; an AtomicOp to a BAR changes nothing. (The bytes of one line, with no rollback
interval open and no fault record waiting.) -/
def Sys2Proof.Rules.OutsideWritesReachTheSlice : Prop :=
  let acc (p key pa : Nat) : Acc := { Acc.plain p pa with key := key }
  let fits (s : State) (p key pa : Nat) (data : List Byte) : Prop := data ≠ [] ∧ pa % 128 + data.length ≤ 128
    ∧ (inHbm pa || inCxl pa) = true ∧ SMap.sortedFrom none s.l2 = true ∧ (s.peekLine (acc p key pa)).length = 128
    ∧ ∀ e ∈ s.teams, e.2.seg = none
  let wrote (s s' : State) (p key pa : Nat) (data : List Byte) : Prop := ∀ i < 128,
    let a := pa / 128 * 128 + i
    s'.peek (acc p key a) 1 = if pa ≤ a ∧ a < pa + data.length then (data.drop (a - pa)).take 1 else s.peek (acc p key a) 1
  let decodes (s : State) (ld hpa n p pa : Nat) : Prop := ∃ base size dev, (s.ld ld).hdm = some (base, size, dev)
    ∧ (s.ld ld).v = true ∧ s.dev.state ≤ 2 ∧ (s.portOf ld).mode = .cxl ∧ base ≤ hpa ∧ hpa + n ≤ base + size
    ∧ s.hdmPart ld dev size = some p ∧ pa = dev + (hpa - base)
  (∀ (part p pa : Nat) (key : Fin 16) (data : List Byte), Happens (.companionCoreWrite ⟨part, pa⟩ key data)
      (fun s => (if s.owns part pa then p = part else s.ownerOf pa = some p) ∧ fits s p key.val pa data ∧ s.dev.state ≠ 3
        ∧ ∀ r ∈ (s.part part).frecs, r.written = true)
      fun s s' => wrote s s' p key.val pa data ∧ s'.scr = s.scr ∧ s'.host = s.host ∧ s'.threads = s.threads)
  ∧ (∀ (p pa ld hpa : Nat) (data : List Byte), Happens (.hostCxlMemAccess ld hpa (.write data))
      (fun s => decodes s ld hpa data.length p pa ∧ fits s p 0 pa data)
      fun s s' => wrote s s' p 0 pa data ∧ s'.scr = s.scr ∧ s'.host = s.host ∧ s'.threads = s.threads)
  ∧ (∀ (p pa ld hpa n : Nat), Happens (.hostCxlMemAccess ld hpa (.read n))
      (fun s => decodes s ld hpa n p pa ∧ pa % 128 + n ≤ 128 ∧ SMap.sortedFrom none s.l2 = true)
      fun s s' => (∀ i < 128, s'.peek (acc p 0 (pa / 128 * 128 + i)) 1 = s.peek (acc p 0 (pa / 128 * 128 + i)) 1)
        ∧ s'.scr = s.scr ∧ s'.host = s.host ∧ s'.threads = s.threads)
  ∧ (∀ (ld hpa : Nat) (x : CxlAccess), Happens (.hostCxlMemAccess ld hpa x) (fun s => ∀ p pa, ¬ decodes s ld hpa (accessLen x) p pa) fun s s' => s' = s)
  ∧ (∀ (part pa : Nat) (key : Fin 16) (data : List Byte), Happens (.companionCoreWrite ⟨part, pa⟩ key data) (fun s => s.dev.state = 3)
      fun s s' => s' = s)
  ∧ ∀ ld : Nat, Happens (.hostAtomicopToBar ld) (fun _ => True) fun s s' => s' = s

/-- R202, R393: an atomic on host memory is performed there when the host completes its AtomicOp, or when its line is owned through
CXL.cache; Unsupported Request sends it to CXL.cache where the partition may fall back, and raises 0x15 as a deferred fault where it
may not, as a refused ownership does. An owned line goes back to the host that snoops it. -/
def Sys2Proof.Rules.HostAtomicsAnswered : Prop :=
  let args (o : Op) (dbl : Bool) (op : AOp) (b c : DWord) (ld a : Nat) : Prop :=
    ((∃ d, o.kind = .atom d dbl op b c) ∨ (o.kind = .red dbl op b ∧ op ≠ .cas)) ∧ (op = .fadd → dbl = false) ∧ o.place = .host ld a
  let waits (o : Op) (cxl : Bool) (t : Thread) (s : State) : Prop := s.op? o.id = some o ∧ o.sent = true ∧ o.viaCxl = cxl
    ∧ s.thread? o.slot = some t ∧ t.noReplay ∧ o.cls ≠ .cp
  let done (o : Op) (dbl : Bool) (op : AOp) (b c : DWord) (ld a : Nat) (s s' : State) : Prop :=
    let w := if dbl then 64 else 32
    let old := bytesNat (Memory.readN s.host (ld * 2 ^ 64 + a) (w / 8))
    s'.op? o.id = none ∧ s'.mem = s.mem ∧ s'.scr = s.scr
      ∧ Memory.holds s.host s'.host (ld * 2 ^ 64 + a) (leBytes (w / 8) (atomNew op w old (b.toNat % 2 ^ w) (c.toNat % 2 ^ w)))
  let defers (o : Op) (t : Thread) (s s' : State) : Prop := s'.op? o.id = none ∧ s'.host = s.host ∧ ∃ u d, s'.thread? o.slot = some u
    ∧ u = { t.got o.cls o.marks with fmark := t.fmark ++ o.marks, defers := t.defers ++ [d] } ∧ d.code = 0x15 ∧ d.pc = o.pc
    ∧ d.va = o.va ∧ d.marks = o.marks
  (∀ (o : Op) (dbl : Bool) (op : AOp) (b c : DWord) (ld a : Nat) (t : Thread),
      Happens (.atomicopCompletion o.id true) (fun s => waits o false t s ∧ args o dbl op b c ld a) (done o dbl op b c ld a)
      ∧ Happens (.atomicopCompletion o.id false) (fun s => waits o false t s ∧ args o dbl op b c ld a ∧ s.canFallBack o.part = true)
        (fun s s' => s'.op? o.id = some { o with viaCxl := true } ∧ s' = { s with ops := s'.ops })
      ∧ Happens (.atomicopCompletion o.id false) (fun s => waits o false t s ∧ args o dbl op b c ld a ∧ s.canFallBack o.part = false)
        (defers o t)
      ∧ Happens (.cxlCacheOwnership o.id true) (fun s => waits o true t s ∧ args o dbl op b c ld a)
        (fun s s' => done o dbl op b c ld a s s' ∧ ld * 2 ^ 64 + a / 128 * 128 ∈ s'.owned)
      ∧ Happens (.cxlCacheOwnership o.id false) (fun s => waits o true t s ∧ args o dbl op b c ld a) (defers o t))
  ∧ (∀ ld line : Nat, Happens (.cxlSnoop ld line) (fun _ => True) fun s s' =>
      (∀ l, l ∈ s'.owned ↔ l ∈ s.owned ∧ l ≠ ld * 2 ^ 64 + line / 128 * 128) ∧ s' = { s with owned := s'.owned })

/-- R392, R193, R155: a load whose CXL tier line the pool does not answer ends with the deferred fault 0x40, and its line comes to the
slice poisoned; a word that arrives changes no thread, team, operation, scratchpad or host memory; lanes whose word cannot be fetched
park with its code at their PC. -/
def Sys2Proof.Rules.LateAnswersFault : Prop :=
  (∀ (o : Op) (pa key bix : Nat) (comp he : Bool) (t : Thread),
      let acc (s : State) : Acc := ⟨o.part, pa, key, comp, bix, he, .none, s.teamOf o.slot⟩
      Happens (.uioTimeout o.id)
        (fun s => s.op? o.id = some o ∧ o.held = none ∧ (∃ d mw sx yld hint, o.kind = .load d mw sx yld hint) ∧ o.todo = [(0, o.n)]
          ∧ o.place = .dev pa key comp bix he ∧ inCxl pa = true ∧ s.l2.find? (s.l2Key (acc s)) = none
          ∧ SMap.sortedFrom none s.l2 = true ∧ s.thread? o.slot = some t ∧ t.noReplay ∧ o.cls ≠ .cp)
        fun s s' => s'.op? o.id = none ∧ (∃ ln, s'.l2.find? (s.l2Key (acc s)) = some ln ∧ ln.poison = true)
          ∧ ∃ u d, s'.thread? o.slot = some u ∧ d.code = 0x40 ∧ d.pc = o.pc ∧ d.va = o.va
            ∧ u = { t.got o.cls o.marks with fmark := t.fmark ++ o.marks, defers := t.defers ++ [d] })
  ∧ (∀ (slot : Nat) (c : IssueCand),
      let found (s : State) : Prop := s.openCands.find? (fun x => x.slot == slot) = some c ∧ SMap.sortedFrom none s.threads = true
      Happens (.instructionFetch slot) (fun s => found s ∧ ∃ i, c.word = .word i) (fun s s' => s'.threads = s.threads ∧ s'.teams = s.teams
        ∧ s'.ops = s.ops ∧ s'.scr = s.scr ∧ s'.host = s.host ∧ s'.parts = s.parts ∧ s'.cores = s.cores ∧ s'.cur = s.cur)
      ∧ ∀ code : BitVec 8, Happens (.instructionFetch slot)
        (fun s => found s ∧ c.word = .fault code ∧ code ≠ 0x40 ∧ code ≠ 0x17)
        fun s s' => ∀ x ∈ s.openCands, coreOf x.slot = coreOf slot → x.bough = c.bough → x.t.pc = c.t.pc →
          ∃ u, s'.thread? x.slot = some u ∧ Excepts x.t u code x.t.pc 0)

/-- R155, R193, R202, R333, R388, R391 to R393: writes from outside, the hosts' answers, and answers that do not come. (That an access not
whole in one decoder's range or one partition changes nothing, and who owns an address, are the model's readings, log 53.) -/
def Obligations.OutsideAccesses : Prop := Rules.OutsideWritesReachTheSlice ∧ Rules.HostAtomicsAnswered ∧ Rules.LateAnswersFault

/-- R320, R324, R226, R267, R352, R365, R389, R391, R392: a write of a control register takes the register's writable fields, and
nothing else changes. (Where each register stands for the writer is the model's own map: log 42.) -/
def Obligations.ControlRegisterWrites : Prop :=
  let sets (off : Nat) (f : DWord → Partition → Partition) : Prop := ∀ (p : Nat) (v : DWord), Happens (.controlRegisterWrite p off v)
    (fun s => (s.part p).v = true ∧ (s.part p).frecs = [])
    fun s s' => s'.part p = f v (s.part p) ∧ (∀ q, q ≠ p → s'.part q = s.part q) ∧ s' = { s with parts := s'.parts }
  sets 0x00 (fun v p => { p with policy := v.extractLsb' 0 6 })
  ∧ sets 0x08 (fun v p => { p with ttb := v &&& 0x000FFFFFFFFF0000 })
  ∧ sets 0x10 (fun v p => { p with trc := v &&& 0xFFFFF80000000000 })
  ∧ sets 0x18 (fun v p => { p with budg := v })
  ∧ sets 0x38 (fun v p => { p with fbcfg := v &&& 0xFFFFFFFFFFFFFE00 })
  ∧ sets 0x50 (fun v p => { p with fbdes := v &&& 0x3FF })
  ∧ sets 0x68 (fun v p => { p with hrda := v &&& 0x1FFFFFF })
  ∧ sets 0x88 (fun v p => { p with rbcfg := v &&& 0x000FFFFFFFF0FF1F })
  ∧ sets 0x98 (fun v p => { p with fabcfg := v &&& 0xFFFFFF })
  ∧ sets 0xA0 (fun v p => { p with canq := (p.canq.extractLsb' 64 64 : BitVec 64) ++ v })
  ∧ sets 0xA8 (fun v p => { p with canq := (v &&& 0xFFF) ++ (p.canq.extractLsb' 0 64 : BitVec 64) })
  ∧ sets 0x148 (fun v p => { p with svteam := v &&& 0xFFFFFFFF })
  ∧ sets 0x188 (fun v p => { p with slarg := v })
  ∧ sets 0x1A8 (fun v p => { p with lbaddr := v &&& 0x000FFFFFFFFFFFFF })
  ∧ (∀ (p k j : Nat) (v : DWord), k < 16 → j < 8 → Happens (.controlRegisterWrite p (0x800 + 64 * k + 8 * j) v)
      (fun s => (s.part p).v = true ∧ ((s.part p).keys.get KeyEnt.blank k).words.find? j ≠ some v)
      fun s s' => ((s'.part p).keys.get KeyEnt.blank k).words.find? j = some v
        ∧ (∀ i, i ≠ j → ((s'.part p).keys.get KeyEnt.blank k).words.find? i = ((s.part p).keys.get KeyEnt.blank k).words.find? i)
        ∧ (∀ q, q ≠ p → s'.part q = s.part q)
        ∧ (SMap.sortedFrom none s.l2 = true → ∀ e ∈ s'.l2, ¬ (e.2.part = p ∧ e.2.key.kid = k)))
  ∧ (∀ (p g i : Nat) (v : DWord), Happens (.controlRegisterWrite p (0x200 + 16 * i) v)
      (fun s => (s.part p).v = true ∧ i < 32 ∧ (s.part p).groveList[i]? = some g)
      fun s s' => (s'.grove g).cfgNext = some (v &&& 0x800007FF07FF007F) ∧ s' = { s with groves := s'.groves })
  ∧ (∀ (p a : Nat) (v : DWord), a < 4096 → Happens (.controlRegisterWrite p (0x200000 + 8 * a) v)
      (fun s => (s.part p).v = true ∧ ((s.slot a).own = true → (s.slot a).part.toNat = p) ∧ (s.slot a).st ≤ 1
        ∧ (v.getLsbD 58 = true → (v.extractLsb' 59 5).toNat = p))
      fun s s' => s'.slot a = { s.slot a with own := v.getLsbD 58, part := v.extractLsb' 59 5 } ∧ s' = { s with slots := s'.slots })
  ∧ (∀ (p i : Nat) (v : DWord), i < 4096 → Happens (.controlRegisterWrite p (0x100000 + 256 * i + 128) v)
      (fun s => (s.part p).v = true ∧ ((s.part p).lentry i).b = v.getLsbD 63)
      fun s s' => (s'.part p).lentry i = { (s.part p).lentry i with ctx := v.extractLsb' 31 16 }
        ∧ (∀ q, q ≠ p → s'.part q = s.part q) ∧ s' = { s with parts := s'.parts })
  ∧ (∀ (p ld : Nat) (v : DWord), ld < 16 →
      Happens (.controlRegisterWrite p (2 ^ 24 + 4096 * ld + 8) v) (fun s => (s.ld ld).v = true)
        (fun s s' => (s'.ld ld).go = ((s.ld ld).go || v.getLsbD 0) ∧ s' = { s with lds := s'.lds })
      ∧ ∀ i < 32, Happens (.controlRegisterWrite p (2 ^ 24 + 4096 * ld + 0x100 + 8 * i) v) (fun s => (s.ld ld).v = true)
        (fun s s' => Memory.holds (s.ld ld).bar (s'.ld ld).bar (0x100 + 8 * i) (leBytes 8 v.toNat) ∧ s' = { s with lds := s'.lds }))
  ∧ (∀ (p i : Nat) (v : DWord), i < 18 → Happens (.controlRegisterWrite p (2 ^ 25 + 8 * i) v) (fun _ => True)
      fun s s' => SMap.find? s'.tiermap i = some (v &&& 0xE00FFFF000000000) ∧ s' = { s with tiermap := s'.tiermap })
  ∧ (∀ (p ld k : Nat) (v : DWord), ld < 16 → k < 3 → Happens (.controlRegisterWrite p (2 ^ 26 + 32 * ld + 8 * k) v) (fun _ => True)
      fun s s' => s' = { s with lds := s'.lds } ∧ (s'.ld ld).hdm =
        let x := (s.ld ld).hdm.getD (0, 0, 0)
        some (if k = 0 then v.toNat else x.1, if k = 1 then v.toNat else x.2.1, if k = 2 then v.toNat else x.2.2))
  ∧ ∀ (p c : Nat) (v : DWord), c < 768 →
      Happens (.controlRegisterWrite p (2 ^ 27 + 65536 * c + 0x08) v) (fun _ => True)
        (fun s s' => s'.core c = { s.core c with pkie := v.extractLsb' 0 2 } ∧ s' = { s with cores := s'.cores })
      ∧ Happens (.controlRegisterWrite p (2 ^ 27 + 65536 * c + 0x10) v) (fun _ => True)
        (fun s s' => s'.core c = { s.core c with pksel := v.extractLsb' 0 9 } ∧ s' = { s with cores := s'.cores })
      ∧ ∀ i < 8, Happens (.controlRegisterWrite p (2 ^ 27 + 65536 * c + 0x40 + 8 * i) v) (fun _ => True)
        (fun s s' => (s'.core c).pkcmdm.extractLsb' (64 * i) 64 = v ∧ s' = { s with cores := s'.cores })

/-! ### Canopy (17) -/

/-- R394 to R396, R385: a record of class 0x7F01 or 0x7F02 at the head of a CANQ stream starts an operation on the descriptor its words 4
and 5 name, any other is consumed; a put's payload and then its completion word are written in the partition of its TAG, and traffic
that reaches none is discarded; an all-reduce writes the combination of its participants' buffers and then the completion word, and
ends with 0x50 when aborted and 0x51 when late. -/
def Sys2Proof.Rules.CanopyOperationsAct : Prop :=
  let quietMem (s s' : State) : Prop := s'.mem = s.mem ∧ s'.host = s.host ∧ s'.l2 = s.l2
  let word (status id : Nat) : List Byte := leBytes 4 status ++ leBytes 4 id
  -- CANOPY_OP_START
  (∀ (p i j x : Nat) (r : EvRec) (rest : List (Nat × EvRec)),
      let heads (s : State) : Prop := (s.part p).canStream i = some j ∧ (s.queue j).v = true ∧ (s.queue j).part.toNat = p
        ∧ (s.queue j).cmode = true ∧ (s.queue j).rcnt = 0 ∧ (s.queue j).pool = (x, r) :: rest
      Happens (.canopyOpStart p i) (fun s => heads s ∧ evClass r ≠ 0x7F01 ∧ evClass r ≠ 0x7F02)
        (fun s s' => (s'.queue j).pool = rest ∧ s' = { s with queues := s'.queues })
      ∧ ∀ (s2 : State) (d : List Byte),
        let o (s : State) : CanOp := ⟨s.nextOp, p, (s.part p).resident.getD 0, evClass r - 0x7F00,
          (r.getD 4 0).toNat + 2 ^ 32 * (r.getD 5 0).toNat, none, s.time, [], none, j⟩
        Happens (.canopyOpStart p i)
          (fun s => heads s ∧ (s.queue j).stuck = false ∧ (evClass r = 0x7F01 ∨ evClass r = 0x7F02) ∧ canOk (evClass r - 0x7F00) d = true
            ∧ State.canRead { s.updQueue j (fun q => { q with pool := rest }) with canops := s.canops ++ [o s], nextOp := s.nextOp + 1 }
              (o s) (o s).daddr 64 = (s2, .ok d))
          fun s s' => quietMem s2 s' ∧ (s'.queue j).pool = rest ∧ { o s with desc := some d } ∈ s'.canops)
  -- CANOPY_PUT_COMPLETE
  ∧ (∀ (n : Nat) (o : CanOp) (d : List Byte) (s1 : State) (bs : List Byte),
      let reads (s : State) : Prop := s.can? n = some o ∧ o.held = none ∧ o.cls = 1 ∧ o.desc = some d ∧ o.writes = []
        ∧ s.canRead o (canSrc d) (canLen d) = (s1, .ok bs)
      (∀ (q : Nat) (s3 : State) (got : List Byte),
        let o' : CanOp := { o with cls := 0, part := q, writes := [(canDst d, bs), (canCva d, word 0 0)] }
        Happens (.canopyPutComplete n)
          (fun s => reads s ∧ s1.landing (canDpk d) (s1.part o.part).fabTag = some q
            ∧ (s1.updCan n (fun _ => o')).canWrite o' (canDst d) bs = (s3, .ok got))
          fun _ s' => quietMem s3 s' ∧ s'.can? n = some { o' with writes := [(canCva d, word 0 0)] })
      ∧ Happens (.canopyPutComplete n) (fun s => reads s ∧ s1.landing (canDpk d) (s1.part o.part).fabTag = none)
        fun _ s' => quietMem s1 s' ∧ s'.can? n = none)
  ∧ (∀ (n : Nat) (o : CanOp) (w : Nat × List Byte) (s3 : State) (got : List Byte), Happens (.canopyPutComplete n)
      (fun s => s.can? n = some o ∧ o.held = none ∧ o.cls = 0 ∧ o.writes = [w] ∧ s.canWrite o w.1 w.2 = (s3, .ok got))
      fun _ s' => quietMem s3 s' ∧ s'.can? n = none)
  -- CANOPY_TRANSFER_IN
  ∧ (∀ x : CanopyIn,
      Happens (.canopyTransferIn x) (fun s => s.landing x.pkg.toNat x.tag.toNat = none) (fun s s' => s' = s)
      ∧ ∀ (q : Nat) (s3 : State) (got : List Byte),
        let o (s : State) : CanOp := ⟨s.nextOp, q, 0, 0, 0, none, s.time, [(x.va.toNat, x.data), (x.cva.toNat, word 0 0)], none,
          (Config.freeWord s.fresh).toNat⟩
        Happens (.canopyTransferIn x)
        (fun s => s.landing x.pkg.toNat x.tag.toNat = some q ∧ s.can? s.nextOp = none
          ∧ State.canWrite { s with canops := s.canops ++ [o s], nextOp := s.nextOp + 1, fresh := s.fresh + 1 } (o s) x.va.toNat x.data
            = (s3, .ok got))
        fun s s' => quietMem s3 s' ∧ ∃ o, s'.can? s.nextOp = some o ∧ o.part = q ∧ o.writes = [(x.cva.toNat, word 0 0)])
  -- all-reduces, with one participant here
  ∧ (∀ (n : Nat) (o : CanOp) (d : List Byte),
      let alone (s : State) : Prop := s.can? n = some o ∧ o.held = none ∧ o.cls = 2 ∧ o.desc = some d ∧ o.writes = [] ∧ s.mates o = [o]
      let ends (status : Nat) (s s' : State) : Prop := quietMem s s'
        ∧ s'.can? n = some { o with writes := [(canCva d, word status (canId d))] }
      (∀ (os : List (List Word)) (s1 : State) (bs : List Byte),
        let mine := toWords bs
        Happens (.canopyAllreduceComplete n (some os))
          (fun s => alone s ∧ 1 + os.length = canN d ∧ (∀ b ∈ os, 4 * b.length = canLen d)
            ∧ s.canRead o (canSrc d) (canLen d) = (s1, .ok bs))
          fun _ s' => ∃ (v : List Word) (s2 : State),
            (v = os.foldl (List.zipWith (canCombine (canFn d))) mine
              ∨ ∃ b l, os ++ [mine] = b :: l ∧ v = l.foldl (List.zipWith (canCombine (canFn d))) b)
            ∧ quietMem s1 s2
            ∧ s2.can? n = some { o with writes := [(canDst d, v.flatMap (fun w => leBytes 4 w.toNat)), (canCva d, word 0 (canId d))] }
            ∧ s' = s2.canStep { o with writes := [(canDst d, v.flatMap (fun w => leBytes 4 w.toNat)), (canCva d, word 0 (canId d))] })
      ∧ Happens (.canopyAllreduceComplete n none) alone (ends 0x50)
      ∧ Happens (.canopyTimeout n) (fun s => alone s ∧ 2 ≤ canN d) (ends 0x51))
  ∧ (∀ (n : Nat) (o : CanOp) (d : List Byte),
      let sends (s : State) : Prop := s.can? n = some o ∧ o.cls = 1 ∧ o.desc = some d ∧ o.writes = []
      Happens (.canopyTimeout n) (fun s => sends s ∧ s.time < o.start + 100000000) (fun s s' => s' = s)
      ∧ ∀ q, Happens (.canopyTimeout n)
        (fun s => sends s ∧ o.start + 100000000 ≤ s.time ∧ s.landing (canDpk d) (s.part o.part).fabTag = some q)
        fun s s' => quietMem s s' ∧ s'.can? n = some { o with cls := 0, part := q, writes := [(canCva d, word 0x51 0)], held := none })

/-- R397: the home memory is unchanged until the N-th contribution; then the combination is one RMW of the element by the op, at the
home package, and is gone; another package's leaves for its home. Clearing V delivers a partial combination as it stands, to the home and by the N that the window had.
(The element
is in host memory here; a device line is written as by any engine.) -/
def Sys2Proof.Rules.ReductionsDelivered : Prop :=
  let found (p n : Nat) (x : RedIn) (r : RedPart) (s : State) : Prop := s.redparts.find? (fun r =>
    r.part == p && r.n == n && r.addr == x.elem.toNat && r.op == x.op && r.dbl == x.dbl && r.held.isNone) = some r
  let isOpen (p n : Nat) (s : State) : Prop := ((s.part p).rwin.get 0 n).getLsbD 63 = true
  let full (p n : Nat) (s : State) : Nat := (((s.part p).window n).extractLsb' 0 8).toNat
  let home (p n : Nat) (s : State) : Prop :=
    ((s.part p).window n).extractLsb' 16 8 = ((s.part p).fabcfg.extractLsb' 0 8 : BitVec 8)
  let legal (r : RedPart) : Prop := r.op ∈ [AOp.add, .fadd, .mins, .maxs, .minz, .maxz] ∧ (r.op = .fadd → r.dbl = false)
  let wrote (r : RedPart) (ld a : Nat) (s s' : State) : Prop :=
    let w := if r.dbl then 64 else 32
    let old := bytesNat (Memory.readN s.host (ld * 2 ^ 64 + a) (w / 8))
    Memory.holds s.host s'.host (ld * 2 ^ 64 + a) (leBytes (w / 8) (atomNew r.op w old (r.val.toNat % 2 ^ w) 0))
      ∧ r ∉ s'.redparts ∧ s'.mem = s.mem ∧ s'.l2 = s.l2
  (∀ (p n : Nat) (x : RedIn) (r : RedPart),
      Happens (.reductionDeliver p n x) (fun s => found p n x r s ∧ isOpen p n s ∧ r.count + x.count ≠ full p n s) (fun s s' => s' = s)
      ∧ Happens (.reductionDeliver p n x)
        (fun s => found p n x r s ∧ isOpen p n s ∧ r.count + x.count = full p n s ∧ 0 < x.count)
        (fun s s' => exec (.reductionDeliver p n { x with count := 0 }) { s with redparts := s.redparts.map (fun q =>
          if q = r then { r with val := (x.op.apply x.dbl r.val x.val 0).getD r.val, count := r.count + x.count } else q) } = .next s')
      ∧ (∀ (s1 : State) (ld a : Nat), Happens (.reductionDeliver p n x)
        (fun s => found p n x r s ∧ isOpen p n s ∧ r.count = full p n s ∧ x.count = 0 ∧ home p n s ∧ legal r
          ∧ s.translate (.unit 9 (2 ^ 55 + r.addr)) p r.addr .write = (s1, .host ld a))
        (wrote r ld a))
      ∧ Happens (.reductionDeliver p n x)
        (fun s => found p n x r s ∧ isOpen p n s ∧ r.count = full p n s ∧ x.count = 0 ∧ ¬ home p n s)
        (fun s s' => r ∉ s'.redparts ∧ s' = { s with redparts := s'.redparts })
      ∧ Happens (.reductionDeliver p n x)
        (fun s => s.redparts.find? (fun r => r.part == p && r.n == n && r.addr == x.elem.toNat && r.op == x.op && r.dbl == x.dbl
          && r.held.isNone) = none ∧ ¬ isOpen p n s ∧ 0 < x.count ∧ x.count ≤ full p n s ∧ ¬ home p n s)
        (fun s s' => s' = s))
  ∧ ∀ (p n : Nat), n < 4 →
      let cleared (s : State) : State := s.updPart p (fun q => { q with
        rwas := q.rwas.put n (q.window n), rwin := q.rwin.upd n (fun v => setBits v 63 1 0) })
      Happens (.rwinClear p n) (fun s => ∀ r ∈ s.redparts, ¬ (r.part = p ∧ r.n = n))
        (fun s s' => ¬ isOpen p n s' ∧ s' = { s with parts := s'.parts })
      ∧ ∀ (r : RedPart) (s1 : State) (ld a : Nat), Happens (.rwinClear p n)
        (fun s => s.redparts.filter (fun r => r.part == p && r.n == n) = [r] ∧ r.held = none ∧ home p n s ∧ legal r
          ∧ (cleared s).translate (.unit 9 (2 ^ 55 + r.addr)) p r.addr .write = (s1, .host ld a))
        fun s s' => wrote r ld a s s' ∧ ¬ isOpen p n s'

/-- R385, R394 to R397: Canopy operations and reduction windows. (The place of the local contribution, the separate steps of payload and
completion word, the match by number and TAG, and what a cleared window delivers are the model's readings, logs 50 and 51.) -/
def Obligations.CanopyActs : Prop := Rules.CanopyOperationsAct ∧ Rules.ReductionsDelivered

/-! ### Steps, words, reset, invariants (01 to 03, 07, 16) -/

/-- R32, R50, R59, R155: an act of the agenda is run as it stands, the amber ring's lists brought up to date first (R354). With an empty agenda, where no internal event comes first and a port
issues a word, the word is the decoding of the eight bytes at the PC of a lane of the issuing set, well-formed under its registers,
and the step runs it: one ns later, on a state that differs only in clocks, records of picks, leases, and what the fetch of the word
brings into caches and counts as heat; and where the bytes do not decode, the lanes take the encoding fault. The fetch itself changes
no thread, team, operation, partition, scratchpad or host memory. (The order of issues and internal events is the model's own: log 3,
log 4.) -/
def Obligations.StepRunsDecoded : Prop :=
  let ready (s : State) : Prop := s.agenda = [] ∧ s.dev.powered = true ∧ (s.time % 2 = 1 → s.amberNow.autoEvent = none)
  let clocked (s s1 : State) (iss : Issue) : Prop :=
    (∀ j t, s.thread? j = some t → ∃ u, s1.thread? j = some u ∧ u = { t with age := u.age, rejoinSince := u.rejoinSince })
    ∧ s1 = { s with threads := s1.threads, groves := s1.groves, cores := s1.cores, parts := s1.parts, stamp := s1.stamp, cur := iss
                    time := s.time + 1 }
  let fetched (s1 s2 : State) (iss : Issue) : Prop := ∃ k t, k ∈ iss.slots ∧ s1.thread? k = some t ∧ s2 = (s1.fetch k t).1
    ∧ s2.threads = s1.threads ∧ s2.teams = s1.teams ∧ s2.ops = s1.ops ∧ s2.parts = s1.parts ∧ s2.cores = s1.cores ∧ s2.scr = s1.scr
    ∧ s2.host = s1.host ∧ s2.queues = s1.queues ∧ s2.slots = s1.slots ∧ s2.cur = s1.cur ∧ s2.time = s1.time
  let runs (s s2 : State) (iss : Issue) : Prop := ∃ s1, clocked s s1 iss ∧ fetched s1 s2 iss
  (∀ (s : State) (i : Instr) (l : List Turn), s.agenda = .ev i :: l → step s = exec i (State.amberNow { s with agenda := l }))
  ∧ (∀ (s : State) (iss : Issue) (i : Instr), ready s → s.amberNow.nextIssue = some (iss, .word i) →
      ∃ s2, step s = exec i s2 ∧ runs s s2 iss)
  ∧ (∀ (s : State) (iss : Issue) (c : BitVec 8), ready s → s.amberNow.nextIssue = some (iss, .bad c) →
      ∃ s2, step s = .next (s2.encodingFault c) ∧ runs s s2 iss)
  ∧ (∀ (s : State) (iss : Issue) (i : Instr), SMap.sortedFrom none s.threads = true →
      s.amberNow.nextIssue = some (iss, .word i) →
      ∃ k t w, k ∈ iss.slots ∧ s.thread? k = some t ∧ iss.pc = t.pc
        ∧ (s.amberNow.fetchBytes k t.team t.pc).2 = .ok w
        ∧ decodeWord (s.amberNow.regsOf k) w = .ok i ∧ i.wf (s.amberNow.regsOf k) = true)

/-- The words of R61, R70 and R74 decode as the encoding tables say: SUB.s, CMP.z.lt, CVT, MMA, LDFR, LD.w.s, STL, CPY.s.k and
BARW, as the spec writes them out; an unassigned major raises 0x01, and a register outside the allocation 0x06. -/
def Obligations.DecodeWords : Prop :=
  decodeWord 256 0x0178100280800002 = .ok (.sub ⟨.always, .g 8, .g 5, .g 4, .s, false⟩)
  ∧ decodeWord 256 0x1578130000000002 = .ok (.abs ⟨.always, .g 9, .lat, .s, false⟩)
  ∧ decodeWord 256 0x1E78040061000014 = .ok (.cmp ⟨.always, 2, .g 0, .imm 8, .lt, .z, false⟩)
  ∧ decodeWord 256 0x2F781A0580000010 = .ok (.cvt ⟨.always, .g 13, .g 11, false, .f32, 1, .rne, false⟩)
  ∧ decodeWord 256 0x3878801006180120 = .ok (.mma ⟨.always, 64, 32, 48, none, 1, 1, 0⟩)
  ∧ decodeWord 256 0x3C18400964000200 = .ok (.ldfr ⟨.pred 3 false, 32, 18, .imm 32, .s, false⟩)
  ∧ decodeWord 256 0x50780800E2000240 = .ok (.ld ⟨.always, .g 4, .g 1, .imm 16, .w, .s, .none, false, false⟩)
  ∧ decodeWord 256 0x53180000EC980A40 = .ok (.stl ⟨.pred 3 false, .g 1, .imm 100, .imm 1, .w, .s, .none, .team⟩)
  ∧ decodeWord 256 0x60783C09E800BB40 = .ok (.cpy ⟨.always, .g 30, .g 19, .imm 64, true, .k, some (.g 23), 0⟩)
  ∧ decodeWord 256 0x6678000B81800000 = .ok (.barw ⟨.always, .g 23, .g 12⟩)
  ∧ decodeWord 256 0x5E78000000000000 = .error 0x01
  ∧ ∀ (r : Nat) (i : BitVec 8), r ≤ i.toNat →
      decodeWord r (Fields.toWord ⟨0x1C, 0, 15, 0x300, (0#2 ++ i : BitVec 10), 0, 0, 0⟩) = .error 0x06

/-- The state right after reset as the register tables give it (R178, R206, R260, R272, R307, R317, R324, R344, R352, R361, R387, R389,
R403): no team, no thread, every queue invalid, every slot empty, every partition, logical device and port down, the registers of a
partition, core and grove at the values of their tables, STATE booting, CAP 1800 W; and every memory in its canonical form. -/
def Obligations.ResetState : Prop :=
  let s := State.reset
  s.threads = [] ∧ s.teams = [] ∧ s.grids = [] ∧ s.ops = [] ∧ s.time = 0
    ∧ (∀ j, (s.queue j).v = false ∧ (s.queue j).part = 0 ∧ (s.queue j).cmode = false ∧ (s.queue j).mtch = 0 ∧ (s.queue j).pol = 0
      ∧ (s.queue j).min = 0 ∧ (s.queue j).cap = 0 ∧ (s.queue j).rlog = 0 ∧ (s.queue j).rbase = 0 ∧ (s.queue j).rhead = 0
      ∧ (s.queue j).rcnt = 0 ∧ (s.queue j).held = false ∧ (s.queue j).drops = 0 ∧ (s.queue j).pool = [])
    ∧ (∀ a, (s.slot a).st = 0 ∧ (s.slot a).own = false ∧ (s.slot a).part = 0 ∧ (s.slot a).unit = 0 ∧ (s.slot a).code = 0)
    ∧ (∀ p, (s.part p).v = false ∧ (s.part p).vf = 0 ∧ (s.part p).reg = 0 ∧ (s.part p).afb = false ∧ (s.part p).groves = 0
      ∧ (s.part p).slices = 0 ∧ (s.part p).cquota = 0 ∧ (s.part p).rsvt = 0x03E8 ∧ (s.part p).ttb = 0 ∧ (s.part p).trc = 0
      ∧ (s.part p).budg = 0x8080808080808080 ∧ (s.part p).htc = 0x4003 ∧ (s.part p).tlbBusy = false ∧ (s.part p).killst = 0
      ∧ (∀ i, ((s.part p).lentry i).b = false) ∧ ∀ k, ((s.part p).quantum k).v = false)
    ∧ (∀ c, (s.core c).pool = 64 ∧ (s.core c).resv = none ∧ (s.core c).recs = [] ∧ (s.core c).withheld = false
      ∧ ∀ k, ((s.core c).tag k).rdy = false ∧ ((s.core c).tag k).count = 0)
    ∧ (∀ g, (s.grove g).fused = false ∧ (s.grove g).en = true ∧ (s.grove g).fmax = 0x600 ∧ (s.grove g).rate = 0x600
      ∧ (s.grove g).share = 0x40 ∧ (s.grove g).float = 0)
    ∧ (∀ v, (s.ld v).v = false ∧ (s.ld v).go = false ∧ (s.ld v).cmd = 0 ∧ (s.ld v).sts = 0 ∧ (s.ld v).killst = 0)
    ∧ s.dev.state = 4 ∧ s.dev.boot = 0 ∧ s.dev.cap = 1800 ∧ s.dev.unmet = false
    ∧ s.memOk = true

/-- Every step keeps every memory in its canonical form: device memory, scratchpads and host memory list each address once, rising, and
no byte that reads as an unlisted one does. -/
def Obligations.StepKeepsMemOk : Prop := ∀ s s' : State, s.memOk = true → step s = .next s' → s'.memOk = true

/-- R59 to R79: every well-formed instruction that threads fetch has a word, and decoding it gives the instruction back, under every
allocation, with every operand at every value its fields admit; a step of an agent has none. -/
def Obligations.EncodedWordsDecode : Prop :=
  (∀ (r : Nat) (i : Instr), i.wf r = true → i.isWord = true → ∃ w, encode i = some w ∧ decodeWord r w = .ok i)
  ∧ ∀ i : Instr, i.isWord = false → encode i = none

/-- R59 to R79: a word that decodes to an instruction is that instruction's own word, so no bit of it goes unread, and the instruction is
well-formed under the allocation. -/
def Obligations.DecodedWordsEncode : Prop :=
  ∀ (r : Nat) (w : DWord) (i : Instr), decodeWord r w = .ok i → i.wf r = true ∧ encode i = some w

/-- R361 to R363, R366: the lanes of one core that fault together with one code take the lowest free permit and park, each with its code,
PC, address and AUX, the record naming them, PKIP's permit bit set and the bough's back-off cleared; with no permit free they stay as
they are and try again after 64 × 2^k cycles, k rising to 6. No register of theirs and no other thread changes. (Codes that reach the
fault buffer have their own statements.) -/
def Obligations.ExceptionEntry : Prop :=
  ∀ (s : State) (core bough : Nat) (code : BitVec 8) (l : LFault) (ls : List LFault),
    let all := l :: ls
    (∀ x ∈ all, x.code = code) → code ∉ [0x11, 0x13, 0x16, 0x17, 0x40] → (all.map (·.slot)).Nodup →
    let s' := s.fault core bough all
    (∀ j, j ∉ all.map (·.slot) → s'.thread? j = s.thread? j)
    ∧ s'.mem = s.mem ∧ s'.scr = s.scr ∧ s'.host = s.host ∧ s'.l2 = s.l2 ∧ s'.parts = s.parts ∧ s'.ops = s.ops
    ∧ (∀ n < 4, (∀ m < n, (SMap.find? (s.core core).recs m).isSome = true) → SMap.find? (s.core core).recs n = none →
        (∃ r, SMap.find? (s'.core core).recs n = some r ∧ r.code = code ∧ r.mask = all.map (·.slot) ∧ r.pc = l.pc ∧ r.va = l.va
          ∧ r.aux = l.aux)
        ∧ (s'.core core).pkip.getLsbD 0 = true
        ∧ ∀ x ∈ all, ∀ t, s.thread? x.slot = some t → ∃ u p, s'.thread? x.slot = some u ∧ u.st = .parked ∧ u.park = some p
          ∧ p.code = code ∧ p.pc = x.pc ∧ p.va = x.va ∧ p.aux = x.aux ∧ p.svc = false
          ∧ u = { t with st := .parked, park := some p, retry := none, yieldUntil := none, pollUntil := none, due := none
                         rejoinSince := none, rejoinDone := false, defers := u.defers })
    ∧ ((∀ m < 4, (SMap.find? (s.core core).recs m).isSome = true) →
        (s'.core core).recs = (s.core core).recs
        ∧ ((s'.core core).bough bough).k = min 6 (((s.core core).bough bough).k + 1)
        ∧ ∀ x ∈ all, ∀ t, s.thread? x.slot = some t → ∃ u, s'.thread? x.slot = some u
          ∧ u = { t with retry := some (s.cycleOf core + 64 * 2 ^ ((s.core core).bough bough).k), due := u.due })

/-- R62, R83: a word that only works on registers changes the threads of its issuing lanes and nothing of memory, of other threads, of
teams, queues, automata, partitions or the device; a lane whose guard is false goes to the next word as it was. (The model's own notes
of dependences, of translations answered and of words that wait for one may change: logs 12, 35.) -/
def Obligations.RegisterWordsFrame : Prop :=
  (∀ (i : Instr) (s s' : State), i.registerOnly = true → Quiet s i → exec i s = .next s' →
      (∀ k, k ∉ s.issueSet i → s'.thread? k = s.thread? k)
        ∧ s' = { s with threads := s'.threads, cores := s'.cores, fresh := s'.fresh, deps := s'.deps, xans := s'.xans, late := s'.late })
  ∧ (∀ (i : Instr) (s : State) (k : Nat) (t : Thread), i.registerOnly = true → Skips s i k t →
      ∃ s', exec i s = .next s' ∧ s'.thread? k = some { t with pcw := t.pcw + 1 })

/-- R161, R198, R369, R79: before a register word runs, a lane that must land at a PAD and does not takes 0x04, and a lane that meets a
deferred fault takes its code at the faulting access's address; a lane that is stepped parks with 0x60 at the next word once it has
passed one; and where the word does not decode every lane takes its code, or 0x04 where that is lower and due. -/
def Obligations.FaultsBeforeAndAfterWords : Prop :=
  let lane (s : State) (i : Instr) (k : Nat) (t : Thread) : Prop := s.cur.slots.Nodup ∧ k ∈ s.issueSet i ∧ s.thread? k = some t
  (∀ (i : Instr) (s : State) (k : Nat) (t : Thread), i.registerOnly = true → lane s i k t → landingOk i t = false →
      ∃ s' u, exec i s = .next s' ∧ s'.thread? k = some u ∧ Excepts t u 0x04 0 0)
  ∧ (∀ (i : Instr) (s : State) (k : Nat) (t : Thread) (d : Defer), i.registerOnly = true → lane s i k t → landingOk i t = true →
      deferHit i t = some d → d.code ≠ 0x40 → d.code ≠ 0x17 →
      ∃ s' u, exec i s = .next s' ∧ s'.thread? k = some u ∧ Excepts t u d.code d.va 0)
  ∧ (∀ (i : Instr) (s : State) (k : Nat) (t : Thread), i.registerOnly = true → lane s i k t → landingOk i t = true →
      deferHit i t = none → i.on t = false → t.step = true → t.hold = .none →
      ∃ s' u, exec i s = .next s' ∧ s'.thread? k = some u ∧ Excepts { t with pcw := t.pcw + 1 } u 0x60 0 0)
  ∧ (∀ (s : State) (k : Nat) (t : Thread) (c : BitVec 8), s.cur.slots.Nodup → k ∈ s.cur.slots → s.thread? k = some t →
      c.toNat ≤ 8 →
      ∃ u, (s.encodingFault c).thread? k = some u
        ∧ Excepts t u (if t.landing.isSome = true ∧ 0x04 < c.toNat then 0x04 else c) 0 0)

end
end

