-- ==== Sys2Proof/Laws/Map.lean ====
section
/-!
SUPPORT. Laws of the sparse maps: reading after writing, and that every operation keeps the canonical form.
-/

namespace Sys2Proof.Machine

variable {α : Type}

/-! ### Reading after writing -/

@[simp] theorem SMap.find?_put_same (m : SMap α) (k : Nat) (x : α) : SMap.find? (SMap.put m k x) k = some x := by
  induction m with
  | nil => simp [SMap.put, SMap.find?]
  | cons e m ih =>
    obtain ⟨j, v⟩ := e
    simp only [SMap.put]
    split
    · simp [SMap.find?]
    · split
      · simp [SMap.find?]
      · simp [SMap.find?, *]

@[simp] theorem SMap.find?_put_other (m : SMap α) (k j : Nat) (x : α) (h : j ≠ k) :
    SMap.find? (SMap.put m k x) j = SMap.find? m j := by
  induction m with
  | nil => simp [SMap.put, SMap.find?, h]
  | cons e m ih =>
    obtain ⟨i, v⟩ := e
    simp only [SMap.put]
    split
    · simp only [SMap.find?, h, if_false]
    · split
      · rename_i hk
        simp only [SMap.find?, hk ▸ h, h, if_false]
      · simp only [SMap.find?, ih]

theorem SMap.find?_erase_other (m : SMap α) (k j : Nat) (h : j ≠ k) : SMap.find? (SMap.erase m k) j = SMap.find? m j := by
  induction m with
  | nil => rfl
  | cons e m ih =>
    obtain ⟨i, v⟩ := e
    simp only [SMap.erase]
    split
    · rename_i hk
      simp only [SMap.find?, hk ▸ h, if_false, ih]
    · simp only [SMap.find?, ih]

theorem SMap.find?_erase_same (m : SMap α) (k : Nat) : SMap.find? (SMap.erase m k) k = none := by
  induction m with
  | nil => rfl
  | cons e m ih =>
    obtain ⟨i, v⟩ := e
    simp only [SMap.erase]
    split
    · exact ih
    · rename_i hk
      simp only [SMap.find?, hk, if_false, ih]

/-- A value set is the value got. -/
@[simp] theorem SMap.get_set_same [DecidableEq α] (d : α) (m : SMap α) (k : Nat) (x : α) : SMap.get d (SMap.set d m k x) k = x := by
  unfold SMap.set SMap.get
  split
  · subst_vars; simp [SMap.find?_erase_same m k]
  · simp

@[simp] theorem SMap.get_set_other [DecidableEq α] (d : α) (m : SMap α) (k j : Nat) (x : α) (h : j ≠ k) :
    SMap.get d (SMap.set d m k x) j = SMap.get d m j := by
  unfold SMap.set SMap.get
  split
  · rw [SMap.find?_erase_other m k j h]
  · rw [SMap.find?_put_other m k j x h]

/-! ### An update of a listed entry -/

theorem SMap.find?_upd_same (m : SMap α) (k : Nat) (f : α → α) : SMap.find? (SMap.upd m k f) k = (SMap.find? m k).map f := by
  unfold SMap.upd
  split
  · rename_i h; simp [h]
  · rename_i x h; simp [h]

theorem SMap.find?_upd_other (m : SMap α) (k j : Nat) (f : α → α) (h : j ≠ k) : SMap.find? (SMap.upd m k f) j = SMap.find? m j := by
  unfold SMap.upd
  split
  · rfl
  · exact SMap.find?_put_other m k j _ h

/-! ### The canonical form -/

theorem SMap.sortedFrom_weaken (m : SMap α) (lo lo' : Option Nat) (h : SMap.sortedFrom lo m)
    (hl : ∀ a, lo' = some a → ∃ b, lo = some b ∧ a ≤ b) : SMap.sortedFrom lo' m := by
  cases m with
  | nil => rfl
  | cons e m =>
    obtain ⟨i, v⟩ := e
    simp only [SMap.sortedFrom, Bool.and_eq_true] at h ⊢
    refine ⟨?_, h.2⟩
    cases lo' with
    | none => rfl
    | some a =>
      obtain ⟨b, rfl, hab⟩ := hl a rfl
      simp at h ⊢
      omega

theorem SMap.sortedFrom_erase (m : SMap α) (lo : Option Nat) (k : Nat) (h : SMap.sortedFrom lo m) :
    SMap.sortedFrom lo (SMap.erase m k) := by
  induction m generalizing lo with
  | nil => rfl
  | cons e m ih =>
    obtain ⟨i, v⟩ := e
    simp only [SMap.erase]
    simp only [SMap.sortedFrom, Bool.and_eq_true] at h
    split
    · refine SMap.sortedFrom_weaken _ (some i) lo (ih _ h.2) ?_
      intro a ha
      subst ha
      exact ⟨i, rfl, by have := h.1; simp at this; omega⟩
    · simp only [SMap.sortedFrom, Bool.and_eq_true]
      exact ⟨h.1, ih _ h.2⟩

theorem SMap.sortedFrom_put (m : SMap α) (lo : Option Nat) (k : Nat) (x : α) (h : SMap.sortedFrom lo m)
    (hk : ∀ a, lo = some a → a < k) : SMap.sortedFrom lo (SMap.put m k x) := by
  induction m generalizing lo with
  | nil =>
    simp only [SMap.put, SMap.sortedFrom, Bool.and_true]
    cases lo with
    | none => rfl
    | some a => simpa using hk a rfl
  | cons e m ih =>
    obtain ⟨i, v⟩ := e
    simp only [SMap.put]
    simp only [SMap.sortedFrom, Bool.and_eq_true] at h
    split
    · simp only [SMap.sortedFrom, Bool.and_eq_true]
      refine ⟨?_, by simpa, h.2⟩
      cases lo with
      | none => rfl
      | some a => simpa using hk a rfl
    · split
      · subst_vars
        simp only [SMap.sortedFrom, Bool.and_eq_true]
        exact ⟨by cases lo with | none => rfl | some a => simpa using hk a rfl, h.2⟩
      · simp only [SMap.sortedFrom, Bool.and_eq_true]
        exact ⟨h.1, ih _ h.2 (by intro a ha; cases ha; omega)⟩

theorem SMap.mem_put (m : SMap α) (k : Nat) (x : α) (e : Nat × α) (h : e ∈ SMap.put m k x) : e = (k, x) ∨ e ∈ m := by
  induction m with
  | nil => simpa [SMap.put] using h
  | cons a m ih =>
    obtain ⟨i, v⟩ := a
    simp only [SMap.put] at h
    split at h
    · simpa using h
    · split at h
      · simp at h; tauto
      · simp at h
        rcases h with h | h
        · simp [h]
        · rcases ih h with h | h <;> simp [h]

theorem SMap.mem_erase (m : SMap α) (k : Nat) (e : Nat × α) (h : e ∈ SMap.erase m k) : e ∈ m := by
  induction m with
  | nil => exact h
  | cons a m ih =>
    obtain ⟨i, v⟩ := a
    simp only [SMap.erase] at h
    split at h
    · simp [ih h]
    · simp at h
      rcases h with h | h
      · simp [h]
      · simp [ih h]

/-- Setting a value keeps the canonical form. -/
theorem SMap.wf_set [DecidableEq α] (d : α) (m : SMap α) (k : Nat) (x : α) (h : SMap.wf d m) : SMap.wf d (SMap.set d m k x) := by
  simp only [SMap.wf, Bool.and_eq_true] at h ⊢
  unfold SMap.set
  split
  · exact ⟨SMap.sortedFrom_erase m none k h.1, by
      simp only [List.all_eq_true] at h ⊢
      exact fun e he => h.2 e (SMap.mem_erase m k e he)⟩
  · rename_i hx
    exact ⟨SMap.sortedFrom_put m none k x h.1 (by simp), by
      simp only [List.all_eq_true] at h ⊢
      intro e he
      rcases SMap.mem_put m k x e he with rfl | he
      · simpa using hx
      · exact h.2 e he⟩

theorem SMap.sortedFrom_filter (m : SMap α) (lo : Option Nat) (p : Nat × α → Bool) (h : SMap.sortedFrom lo m) :
    SMap.sortedFrom lo (m.filter p : SMap α) := by
  induction m generalizing lo with
  | nil => rfl
  | cons e m ih =>
    obtain ⟨i, v⟩ := e
    simp only [SMap.sortedFrom, Bool.and_eq_true] at h
    simp only [List.filter_cons]
    split
    · simp only [SMap.sortedFrom, Bool.and_eq_true]
      exact ⟨h.1, ih _ h.2⟩
    · refine SMap.sortedFrom_weaken _ (some i) lo (ih _ h.2) ?_
      intro a ha
      subst ha
      exact ⟨i, rfl, by have := h.1; simp at this; omega⟩

/-- Dropping entries keeps the canonical form. -/
theorem SMap.wf_filter [DecidableEq α] (d : α) (m : SMap α) (p : Nat × α → Bool) (h : SMap.wf d m) :
    SMap.wf d (m.filter p : SMap α) := by
  simp only [SMap.wf, Bool.and_eq_true] at h ⊢
  refine ⟨SMap.sortedFrom_filter m none p h.1, ?_⟩
  simp only [List.all_eq_true] at h ⊢
  exact fun e he => h.2 e (List.mem_of_mem_filter he)

/-! ### Memory -/

@[simp] theorem Memory.read_write_same (m : Memory) (a : Nat) (b : Byte) : Memory.read (Memory.write m a b) a = b :=
  SMap.get_set_same _ m a b

@[simp] theorem Memory.read_write_other (m : Memory) (a c : Nat) (b : Byte) (hc : c ≠ a) :
    Memory.read (Memory.write m a b) c = Memory.read m c :=
  SMap.get_set_other _ m a c b hc

theorem Memory.wf_write (m : Memory) (a : Nat) (b : Byte) (h : Memory.wf m) : Memory.wf (Memory.write m a b) :=
  SMap.wf_set _ m a b h

theorem Memory.wf_writeN (m : Memory) (a : Nat) (bs : List Byte) (h : Memory.wf m) : Memory.wf (Memory.writeN m a bs) := by
  induction bs generalizing m a with
  | nil => exact h
  | cons b bs ih => exact ih _ _ (Memory.wf_write m a b h)

/-- A store of bytes leaves every byte outside it. -/
theorem Memory.read_writeN_outside (m : Memory) (a c : Nat) (bs : List Byte) (hc : c < a ∨ a + bs.length ≤ c) :
    Memory.read (Memory.writeN m a bs) c = Memory.read m c := by
  induction bs generalizing m a with
  | nil => rfl
  | cons b bs ih =>
    simp only [List.length_cons] at hc
    rw [Memory.writeN, ih _ _ (by omega), Memory.read_write_other m a c b (by omega)]

/-- A store of bytes is read back. -/
theorem Memory.read_writeN_inside (m : Memory) (a i : Nat) (bs : List Byte) (hi : i < bs.length) :
    Memory.read (Memory.writeN m a bs) (a + i) = bs[i] := by
  induction bs generalizing m a i with
  | nil => simp at hi
  | cons b bs ih =>
    cases i with
    | zero =>
      rw [Memory.writeN, Memory.read_writeN_outside _ _ _ _ (by omega)]
      simp
    | succ i =>
      simp only [List.length_cons] at hi
      have := ih (Memory.write m a b) (a + 1) i (by omega)
      simpa [Memory.writeN, Nat.add_assoc, Nat.add_comm 1] using this

theorem Memory.length_readN (m : Memory) (a n : Nat) : (Memory.readN m a n).length = n := by
  induction n generalizing a with
  | zero => rfl
  | succ n ih => simp [Memory.readN, ih]

theorem Memory.wf_nil : Memory.wf [] := rfl

end Sys2Proof.Machine
end

