-- ==== Sys2Proof/Laws/State.lean ====
section
/-!
SUPPORT. What each named update of the state, and of a thread, does to each field: true by unfolding, for `simp`.
-/

namespace Sys2Proof.Machine

/-! ### The state -/

@[simp] theorem State.setThread_threads (s : State) (k : Nat) (t : Thread) : (s.setThread k t).threads = s.threads.put k t := rfl
@[simp] theorem State.setThread_teams (s : State) (k : Nat) (t : Thread) : (s.setThread k t).teams = s.teams := rfl
@[simp] theorem State.setThread_grids (s : State) (k : Nat) (t : Thread) : (s.setThread k t).grids = s.grids := rfl
@[simp] theorem State.setThread_cores (s : State) (k : Nat) (t : Thread) : (s.setThread k t).cores = s.cores := rfl
@[simp] theorem State.setThread_groves (s : State) (k : Nat) (t : Thread) : (s.setThread k t).groves = s.groves := rfl
@[simp] theorem State.setThread_ments (s : State) (k : Nat) (t : Thread) : (s.setThread k t).ments = s.ments := rfl
@[simp] theorem State.setThread_parts (s : State) (k : Nat) (t : Thread) : (s.setThread k t).parts = s.parts := rfl
@[simp] theorem State.setThread_mem (s : State) (k : Nat) (t : Thread) : (s.setThread k t).mem = s.mem := rfl
@[simp] theorem State.setThread_keyTags (s : State) (k : Nat) (t : Thread) : (s.setThread k t).keyTags = s.keyTags := rfl
@[simp] theorem State.setThread_bad (s : State) (k : Nat) (t : Thread) : (s.setThread k t).bad = s.bad := rfl
@[simp] theorem State.setThread_sizes (s : State) (k : Nat) (t : Thread) : (s.setThread k t).sizes = s.sizes := rfl
@[simp] theorem State.setThread_l2 (s : State) (k : Nat) (t : Thread) : (s.setThread k t).l2 = s.l2 := rfl
@[simp] theorem State.setThread_l1 (s : State) (k : Nat) (t : Thread) : (s.setThread k t).l1 = s.l1 := rfl
@[simp] theorem State.setThread_icache (s : State) (k : Nat) (t : Thread) : (s.setThread k t).icache = s.icache := rfl
@[simp] theorem State.setThread_scr (s : State) (k : Nat) (t : Thread) : (s.setThread k t).scr = s.scr := rfl
@[simp] theorem State.setThread_host (s : State) (k : Nat) (t : Thread) : (s.setThread k t).host = s.host := rfl
@[simp] theorem State.setThread_tlb (s : State) (k : Nat) (t : Thread) : (s.setThread k t).tlb = s.tlb := rfl
@[simp] theorem State.setThread_atc (s : State) (k : Nat) (t : Thread) : (s.setThread k t).atc = s.atc := rfl
@[simp] theorem State.setThread_xreqs (s : State) (k : Nat) (t : Thread) : (s.setThread k t).xreqs = s.xreqs := rfl
@[simp] theorem State.setThread_xans (s : State) (k : Nat) (t : Thread) : (s.setThread k t).xans = s.xans := rfl
@[simp] theorem State.setThread_late (s : State) (k : Nat) (t : Thread) : (s.setThread k t).late = s.late := rfl
@[simp] theorem State.setThread_deps (s : State) (k : Nat) (t : Thread) : (s.setThread k t).deps = s.deps := rfl
@[simp] theorem State.setThread_heat (s : State) (k : Nat) (t : Thread) : (s.setThread k t).heat = s.heat := rfl
@[simp] theorem State.setThread_ops (s : State) (k : Nat) (t : Thread) : (s.setThread k t).ops = s.ops := rfl
@[simp] theorem State.setThread_greqs (s : State) (k : Nat) (t : Thread) : (s.setThread k t).greqs = s.greqs := rfl
@[simp] theorem State.setThread_queues (s : State) (k : Nat) (t : Thread) : (s.setThread k t).queues = s.queues := rfl
@[simp] theorem State.setThread_slots (s : State) (k : Nat) (t : Thread) : (s.setThread k t).slots = s.slots := rfl
@[simp] theorem State.setThread_lds (s : State) (k : Nat) (t : Thread) : (s.setThread k t).lds = s.lds := rfl
@[simp] theorem State.setThread_ports (s : State) (k : Nat) (t : Thread) : (s.setThread k t).ports = s.ports := rfl
@[simp] theorem State.setThread_tiermap (s : State) (k : Nat) (t : Thread) : (s.setThread k t).tiermap = s.tiermap := rfl
@[simp] theorem State.setThread_rails (s : State) (k : Nat) (t : Thread) : (s.setThread k t).rails = s.rails := rfl
@[simp] theorem State.setThread_dev (s : State) (k : Nat) (t : Thread) : (s.setThread k t).dev = s.dev := rfl
@[simp] theorem State.setThread_canops (s : State) (k : Nat) (t : Thread) : (s.setThread k t).canops = s.canops := rfl
@[simp] theorem State.setThread_redparts (s : State) (k : Nat) (t : Thread) : (s.setThread k t).redparts = s.redparts := rfl
@[simp] theorem State.setThread_owned (s : State) (k : Nat) (t : Thread) : (s.setThread k t).owned = s.owned := rfl
@[simp] theorem State.setThread_time (s : State) (k : Nat) (t : Thread) : (s.setThread k t).time = s.time := rfl
@[simp] theorem State.setThread_refill (s : State) (k : Nat) (t : Thread) : (s.setThread k t).refill = s.refill := rfl
@[simp] theorem State.setThread_stamped (s : State) (k : Nat) (t : Thread) : (s.setThread k t).stamped = s.stamped := rfl
@[simp] theorem State.setThread_agenda (s : State) (k : Nat) (t : Thread) : (s.setThread k t).agenda = s.agenda := rfl
@[simp] theorem State.setThread_cur (s : State) (k : Nat) (t : Thread) : (s.setThread k t).cur = s.cur := rfl
@[simp] theorem State.setThread_fresh (s : State) (k : Nat) (t : Thread) : (s.setThread k t).fresh = s.fresh := rfl
@[simp] theorem State.setThread_nextOp (s : State) (k : Nat) (t : Thread) : (s.setThread k t).nextOp = s.nextOp := rfl
@[simp] theorem State.setThread_nextTeam (s : State) (k : Nat) (t : Thread) : (s.setThread k t).nextTeam = s.nextTeam := rfl
@[simp] theorem State.setThread_nextEnt (s : State) (k : Nat) (t : Thread) : (s.setThread k t).nextEnt = s.nextEnt := rfl
@[simp] theorem State.setThread_stamp (s : State) (k : Nat) (t : Thread) : (s.setThread k t).stamp = s.stamp := rfl
@[simp] theorem State.setThread_keyDraws (s : State) (k : Nat) (t : Thread) : (s.setThread k t).keyDraws = s.keyDraws := rfl

@[simp] theorem State.updThread_threads (s : State) (k : Nat) (f : Thread → Thread) : (s.updThread k f).threads = s.threads.upd k f := rfl
@[simp] theorem State.updThread_teams (s : State) (k : Nat) (f : Thread → Thread) : (s.updThread k f).teams = s.teams := rfl
@[simp] theorem State.updThread_grids (s : State) (k : Nat) (f : Thread → Thread) : (s.updThread k f).grids = s.grids := rfl
@[simp] theorem State.updThread_cores (s : State) (k : Nat) (f : Thread → Thread) : (s.updThread k f).cores = s.cores := rfl
@[simp] theorem State.updThread_groves (s : State) (k : Nat) (f : Thread → Thread) : (s.updThread k f).groves = s.groves := rfl
@[simp] theorem State.updThread_ments (s : State) (k : Nat) (f : Thread → Thread) : (s.updThread k f).ments = s.ments := rfl
@[simp] theorem State.updThread_parts (s : State) (k : Nat) (f : Thread → Thread) : (s.updThread k f).parts = s.parts := rfl
@[simp] theorem State.updThread_mem (s : State) (k : Nat) (f : Thread → Thread) : (s.updThread k f).mem = s.mem := rfl
@[simp] theorem State.updThread_keyTags (s : State) (k : Nat) (f : Thread → Thread) : (s.updThread k f).keyTags = s.keyTags := rfl
@[simp] theorem State.updThread_bad (s : State) (k : Nat) (f : Thread → Thread) : (s.updThread k f).bad = s.bad := rfl
@[simp] theorem State.updThread_sizes (s : State) (k : Nat) (f : Thread → Thread) : (s.updThread k f).sizes = s.sizes := rfl
@[simp] theorem State.updThread_l2 (s : State) (k : Nat) (f : Thread → Thread) : (s.updThread k f).l2 = s.l2 := rfl
@[simp] theorem State.updThread_l1 (s : State) (k : Nat) (f : Thread → Thread) : (s.updThread k f).l1 = s.l1 := rfl
@[simp] theorem State.updThread_icache (s : State) (k : Nat) (f : Thread → Thread) : (s.updThread k f).icache = s.icache := rfl
@[simp] theorem State.updThread_scr (s : State) (k : Nat) (f : Thread → Thread) : (s.updThread k f).scr = s.scr := rfl
@[simp] theorem State.updThread_host (s : State) (k : Nat) (f : Thread → Thread) : (s.updThread k f).host = s.host := rfl
@[simp] theorem State.updThread_tlb (s : State) (k : Nat) (f : Thread → Thread) : (s.updThread k f).tlb = s.tlb := rfl
@[simp] theorem State.updThread_atc (s : State) (k : Nat) (f : Thread → Thread) : (s.updThread k f).atc = s.atc := rfl
@[simp] theorem State.updThread_xreqs (s : State) (k : Nat) (f : Thread → Thread) : (s.updThread k f).xreqs = s.xreqs := rfl
@[simp] theorem State.updThread_xans (s : State) (k : Nat) (f : Thread → Thread) : (s.updThread k f).xans = s.xans := rfl
@[simp] theorem State.updThread_late (s : State) (k : Nat) (f : Thread → Thread) : (s.updThread k f).late = s.late := rfl
@[simp] theorem State.updThread_deps (s : State) (k : Nat) (f : Thread → Thread) : (s.updThread k f).deps = s.deps := rfl
@[simp] theorem State.updThread_heat (s : State) (k : Nat) (f : Thread → Thread) : (s.updThread k f).heat = s.heat := rfl
@[simp] theorem State.updThread_ops (s : State) (k : Nat) (f : Thread → Thread) : (s.updThread k f).ops = s.ops := rfl
@[simp] theorem State.updThread_greqs (s : State) (k : Nat) (f : Thread → Thread) : (s.updThread k f).greqs = s.greqs := rfl
@[simp] theorem State.updThread_queues (s : State) (k : Nat) (f : Thread → Thread) : (s.updThread k f).queues = s.queues := rfl
@[simp] theorem State.updThread_slots (s : State) (k : Nat) (f : Thread → Thread) : (s.updThread k f).slots = s.slots := rfl
@[simp] theorem State.updThread_lds (s : State) (k : Nat) (f : Thread → Thread) : (s.updThread k f).lds = s.lds := rfl
@[simp] theorem State.updThread_ports (s : State) (k : Nat) (f : Thread → Thread) : (s.updThread k f).ports = s.ports := rfl
@[simp] theorem State.updThread_tiermap (s : State) (k : Nat) (f : Thread → Thread) : (s.updThread k f).tiermap = s.tiermap := rfl
@[simp] theorem State.updThread_rails (s : State) (k : Nat) (f : Thread → Thread) : (s.updThread k f).rails = s.rails := rfl
@[simp] theorem State.updThread_dev (s : State) (k : Nat) (f : Thread → Thread) : (s.updThread k f).dev = s.dev := rfl
@[simp] theorem State.updThread_canops (s : State) (k : Nat) (f : Thread → Thread) : (s.updThread k f).canops = s.canops := rfl
@[simp] theorem State.updThread_redparts (s : State) (k : Nat) (f : Thread → Thread) : (s.updThread k f).redparts = s.redparts := rfl
@[simp] theorem State.updThread_owned (s : State) (k : Nat) (f : Thread → Thread) : (s.updThread k f).owned = s.owned := rfl
@[simp] theorem State.updThread_time (s : State) (k : Nat) (f : Thread → Thread) : (s.updThread k f).time = s.time := rfl
@[simp] theorem State.updThread_refill (s : State) (k : Nat) (f : Thread → Thread) : (s.updThread k f).refill = s.refill := rfl
@[simp] theorem State.updThread_stamped (s : State) (k : Nat) (f : Thread → Thread) : (s.updThread k f).stamped = s.stamped := rfl
@[simp] theorem State.updThread_agenda (s : State) (k : Nat) (f : Thread → Thread) : (s.updThread k f).agenda = s.agenda := rfl
@[simp] theorem State.updThread_cur (s : State) (k : Nat) (f : Thread → Thread) : (s.updThread k f).cur = s.cur := rfl
@[simp] theorem State.updThread_fresh (s : State) (k : Nat) (f : Thread → Thread) : (s.updThread k f).fresh = s.fresh := rfl
@[simp] theorem State.updThread_nextOp (s : State) (k : Nat) (f : Thread → Thread) : (s.updThread k f).nextOp = s.nextOp := rfl
@[simp] theorem State.updThread_nextTeam (s : State) (k : Nat) (f : Thread → Thread) : (s.updThread k f).nextTeam = s.nextTeam := rfl
@[simp] theorem State.updThread_nextEnt (s : State) (k : Nat) (f : Thread → Thread) : (s.updThread k f).nextEnt = s.nextEnt := rfl
@[simp] theorem State.updThread_stamp (s : State) (k : Nat) (f : Thread → Thread) : (s.updThread k f).stamp = s.stamp := rfl
@[simp] theorem State.updThread_keyDraws (s : State) (k : Nat) (f : Thread → Thread) : (s.updThread k f).keyDraws = s.keyDraws := rfl

@[simp] theorem State.freeThread_threads (s : State) (k : Nat) : (s.freeThread k).threads = s.threads.erase k := rfl
@[simp] theorem State.freeThread_teams (s : State) (k : Nat) : (s.freeThread k).teams = s.teams := rfl
@[simp] theorem State.freeThread_grids (s : State) (k : Nat) : (s.freeThread k).grids = s.grids := rfl
@[simp] theorem State.freeThread_cores (s : State) (k : Nat) : (s.freeThread k).cores = s.cores := rfl
@[simp] theorem State.freeThread_groves (s : State) (k : Nat) : (s.freeThread k).groves = s.groves := rfl
@[simp] theorem State.freeThread_ments (s : State) (k : Nat) : (s.freeThread k).ments = s.ments := rfl
@[simp] theorem State.freeThread_parts (s : State) (k : Nat) : (s.freeThread k).parts = s.parts := rfl
@[simp] theorem State.freeThread_mem (s : State) (k : Nat) : (s.freeThread k).mem = s.mem := rfl
@[simp] theorem State.freeThread_keyTags (s : State) (k : Nat) : (s.freeThread k).keyTags = s.keyTags := rfl
@[simp] theorem State.freeThread_bad (s : State) (k : Nat) : (s.freeThread k).bad = s.bad := rfl
@[simp] theorem State.freeThread_sizes (s : State) (k : Nat) : (s.freeThread k).sizes = s.sizes := rfl
@[simp] theorem State.freeThread_l2 (s : State) (k : Nat) : (s.freeThread k).l2 = s.l2 := rfl
@[simp] theorem State.freeThread_l1 (s : State) (k : Nat) : (s.freeThread k).l1 = s.l1 := rfl
@[simp] theorem State.freeThread_icache (s : State) (k : Nat) : (s.freeThread k).icache = s.icache := rfl
@[simp] theorem State.freeThread_scr (s : State) (k : Nat) : (s.freeThread k).scr = s.scr := rfl
@[simp] theorem State.freeThread_host (s : State) (k : Nat) : (s.freeThread k).host = s.host := rfl
@[simp] theorem State.freeThread_tlb (s : State) (k : Nat) : (s.freeThread k).tlb = s.tlb := rfl
@[simp] theorem State.freeThread_atc (s : State) (k : Nat) : (s.freeThread k).atc = s.atc := rfl
@[simp] theorem State.freeThread_xreqs (s : State) (k : Nat) : (s.freeThread k).xreqs = s.xreqs := rfl
@[simp] theorem State.freeThread_xans (s : State) (k : Nat) : (s.freeThread k).xans = s.xans := rfl
@[simp] theorem State.freeThread_late (s : State) (k : Nat) : (s.freeThread k).late = s.late := rfl
@[simp] theorem State.freeThread_deps (s : State) (k : Nat) : (s.freeThread k).deps = s.deps.erase k := rfl
@[simp] theorem State.freeThread_heat (s : State) (k : Nat) : (s.freeThread k).heat = s.heat := rfl
@[simp] theorem State.freeThread_ops (s : State) (k : Nat) : (s.freeThread k).ops = s.ops := rfl
@[simp] theorem State.freeThread_greqs (s : State) (k : Nat) : (s.freeThread k).greqs = s.greqs := rfl
@[simp] theorem State.freeThread_queues (s : State) (k : Nat) : (s.freeThread k).queues = s.queues := rfl
@[simp] theorem State.freeThread_slots (s : State) (k : Nat) : (s.freeThread k).slots = s.slots := rfl
@[simp] theorem State.freeThread_lds (s : State) (k : Nat) : (s.freeThread k).lds = s.lds := rfl
@[simp] theorem State.freeThread_ports (s : State) (k : Nat) : (s.freeThread k).ports = s.ports := rfl
@[simp] theorem State.freeThread_tiermap (s : State) (k : Nat) : (s.freeThread k).tiermap = s.tiermap := rfl
@[simp] theorem State.freeThread_rails (s : State) (k : Nat) : (s.freeThread k).rails = s.rails := rfl
@[simp] theorem State.freeThread_dev (s : State) (k : Nat) : (s.freeThread k).dev = s.dev := rfl
@[simp] theorem State.freeThread_canops (s : State) (k : Nat) : (s.freeThread k).canops = s.canops := rfl
@[simp] theorem State.freeThread_redparts (s : State) (k : Nat) : (s.freeThread k).redparts = s.redparts := rfl
@[simp] theorem State.freeThread_owned (s : State) (k : Nat) : (s.freeThread k).owned = s.owned := rfl
@[simp] theorem State.freeThread_time (s : State) (k : Nat) : (s.freeThread k).time = s.time := rfl
@[simp] theorem State.freeThread_refill (s : State) (k : Nat) : (s.freeThread k).refill = s.refill := rfl
@[simp] theorem State.freeThread_stamped (s : State) (k : Nat) : (s.freeThread k).stamped = s.stamped := rfl
@[simp] theorem State.freeThread_agenda (s : State) (k : Nat) : (s.freeThread k).agenda = s.agenda := rfl
@[simp] theorem State.freeThread_cur (s : State) (k : Nat) : (s.freeThread k).cur = s.cur := rfl
@[simp] theorem State.freeThread_fresh (s : State) (k : Nat) : (s.freeThread k).fresh = s.fresh := rfl
@[simp] theorem State.freeThread_nextOp (s : State) (k : Nat) : (s.freeThread k).nextOp = s.nextOp := rfl
@[simp] theorem State.freeThread_nextTeam (s : State) (k : Nat) : (s.freeThread k).nextTeam = s.nextTeam := rfl
@[simp] theorem State.freeThread_nextEnt (s : State) (k : Nat) : (s.freeThread k).nextEnt = s.nextEnt := rfl
@[simp] theorem State.freeThread_stamp (s : State) (k : Nat) : (s.freeThread k).stamp = s.stamp := rfl
@[simp] theorem State.freeThread_keyDraws (s : State) (k : Nat) : (s.freeThread k).keyDraws = s.keyDraws := rfl

@[simp] theorem State.updTeam_threads (s : State) (k : Nat) (f : Team → Team) : (s.updTeam k f).threads = s.threads := rfl
@[simp] theorem State.updTeam_teams (s : State) (k : Nat) (f : Team → Team) : (s.updTeam k f).teams = s.teams.upd k f := rfl
@[simp] theorem State.updTeam_grids (s : State) (k : Nat) (f : Team → Team) : (s.updTeam k f).grids = s.grids := rfl
@[simp] theorem State.updTeam_cores (s : State) (k : Nat) (f : Team → Team) : (s.updTeam k f).cores = s.cores := rfl
@[simp] theorem State.updTeam_groves (s : State) (k : Nat) (f : Team → Team) : (s.updTeam k f).groves = s.groves := rfl
@[simp] theorem State.updTeam_ments (s : State) (k : Nat) (f : Team → Team) : (s.updTeam k f).ments = s.ments := rfl
@[simp] theorem State.updTeam_parts (s : State) (k : Nat) (f : Team → Team) : (s.updTeam k f).parts = s.parts := rfl
@[simp] theorem State.updTeam_mem (s : State) (k : Nat) (f : Team → Team) : (s.updTeam k f).mem = s.mem := rfl
@[simp] theorem State.updTeam_keyTags (s : State) (k : Nat) (f : Team → Team) : (s.updTeam k f).keyTags = s.keyTags := rfl
@[simp] theorem State.updTeam_bad (s : State) (k : Nat) (f : Team → Team) : (s.updTeam k f).bad = s.bad := rfl
@[simp] theorem State.updTeam_sizes (s : State) (k : Nat) (f : Team → Team) : (s.updTeam k f).sizes = s.sizes := rfl
@[simp] theorem State.updTeam_l2 (s : State) (k : Nat) (f : Team → Team) : (s.updTeam k f).l2 = s.l2 := rfl
@[simp] theorem State.updTeam_l1 (s : State) (k : Nat) (f : Team → Team) : (s.updTeam k f).l1 = s.l1 := rfl
@[simp] theorem State.updTeam_icache (s : State) (k : Nat) (f : Team → Team) : (s.updTeam k f).icache = s.icache := rfl
@[simp] theorem State.updTeam_scr (s : State) (k : Nat) (f : Team → Team) : (s.updTeam k f).scr = s.scr := rfl
@[simp] theorem State.updTeam_host (s : State) (k : Nat) (f : Team → Team) : (s.updTeam k f).host = s.host := rfl
@[simp] theorem State.updTeam_tlb (s : State) (k : Nat) (f : Team → Team) : (s.updTeam k f).tlb = s.tlb := rfl
@[simp] theorem State.updTeam_atc (s : State) (k : Nat) (f : Team → Team) : (s.updTeam k f).atc = s.atc := rfl
@[simp] theorem State.updTeam_xreqs (s : State) (k : Nat) (f : Team → Team) : (s.updTeam k f).xreqs = s.xreqs := rfl
@[simp] theorem State.updTeam_xans (s : State) (k : Nat) (f : Team → Team) : (s.updTeam k f).xans = s.xans := rfl
@[simp] theorem State.updTeam_late (s : State) (k : Nat) (f : Team → Team) : (s.updTeam k f).late = s.late := rfl
@[simp] theorem State.updTeam_deps (s : State) (k : Nat) (f : Team → Team) : (s.updTeam k f).deps = s.deps := rfl
@[simp] theorem State.updTeam_heat (s : State) (k : Nat) (f : Team → Team) : (s.updTeam k f).heat = s.heat := rfl
@[simp] theorem State.updTeam_ops (s : State) (k : Nat) (f : Team → Team) : (s.updTeam k f).ops = s.ops := rfl
@[simp] theorem State.updTeam_greqs (s : State) (k : Nat) (f : Team → Team) : (s.updTeam k f).greqs = s.greqs := rfl
@[simp] theorem State.updTeam_queues (s : State) (k : Nat) (f : Team → Team) : (s.updTeam k f).queues = s.queues := rfl
@[simp] theorem State.updTeam_slots (s : State) (k : Nat) (f : Team → Team) : (s.updTeam k f).slots = s.slots := rfl
@[simp] theorem State.updTeam_lds (s : State) (k : Nat) (f : Team → Team) : (s.updTeam k f).lds = s.lds := rfl
@[simp] theorem State.updTeam_ports (s : State) (k : Nat) (f : Team → Team) : (s.updTeam k f).ports = s.ports := rfl
@[simp] theorem State.updTeam_tiermap (s : State) (k : Nat) (f : Team → Team) : (s.updTeam k f).tiermap = s.tiermap := rfl
@[simp] theorem State.updTeam_rails (s : State) (k : Nat) (f : Team → Team) : (s.updTeam k f).rails = s.rails := rfl
@[simp] theorem State.updTeam_dev (s : State) (k : Nat) (f : Team → Team) : (s.updTeam k f).dev = s.dev := rfl
@[simp] theorem State.updTeam_canops (s : State) (k : Nat) (f : Team → Team) : (s.updTeam k f).canops = s.canops := rfl
@[simp] theorem State.updTeam_redparts (s : State) (k : Nat) (f : Team → Team) : (s.updTeam k f).redparts = s.redparts := rfl
@[simp] theorem State.updTeam_owned (s : State) (k : Nat) (f : Team → Team) : (s.updTeam k f).owned = s.owned := rfl
@[simp] theorem State.updTeam_time (s : State) (k : Nat) (f : Team → Team) : (s.updTeam k f).time = s.time := rfl
@[simp] theorem State.updTeam_refill (s : State) (k : Nat) (f : Team → Team) : (s.updTeam k f).refill = s.refill := rfl
@[simp] theorem State.updTeam_stamped (s : State) (k : Nat) (f : Team → Team) : (s.updTeam k f).stamped = s.stamped := rfl
@[simp] theorem State.updTeam_agenda (s : State) (k : Nat) (f : Team → Team) : (s.updTeam k f).agenda = s.agenda := rfl
@[simp] theorem State.updTeam_cur (s : State) (k : Nat) (f : Team → Team) : (s.updTeam k f).cur = s.cur := rfl
@[simp] theorem State.updTeam_fresh (s : State) (k : Nat) (f : Team → Team) : (s.updTeam k f).fresh = s.fresh := rfl
@[simp] theorem State.updTeam_nextOp (s : State) (k : Nat) (f : Team → Team) : (s.updTeam k f).nextOp = s.nextOp := rfl
@[simp] theorem State.updTeam_nextTeam (s : State) (k : Nat) (f : Team → Team) : (s.updTeam k f).nextTeam = s.nextTeam := rfl
@[simp] theorem State.updTeam_nextEnt (s : State) (k : Nat) (f : Team → Team) : (s.updTeam k f).nextEnt = s.nextEnt := rfl
@[simp] theorem State.updTeam_stamp (s : State) (k : Nat) (f : Team → Team) : (s.updTeam k f).stamp = s.stamp := rfl
@[simp] theorem State.updTeam_keyDraws (s : State) (k : Nat) (f : Team → Team) : (s.updTeam k f).keyDraws = s.keyDraws := rfl

@[simp] theorem State.updGrid_threads (s : State) (k : Nat) (f : Grid → Grid) : (s.updGrid k f).threads = s.threads := rfl
@[simp] theorem State.updGrid_teams (s : State) (k : Nat) (f : Grid → Grid) : (s.updGrid k f).teams = s.teams := rfl
@[simp] theorem State.updGrid_grids (s : State) (k : Nat) (f : Grid → Grid) : (s.updGrid k f).grids = s.grids.upd k f := rfl
@[simp] theorem State.updGrid_cores (s : State) (k : Nat) (f : Grid → Grid) : (s.updGrid k f).cores = s.cores := rfl
@[simp] theorem State.updGrid_groves (s : State) (k : Nat) (f : Grid → Grid) : (s.updGrid k f).groves = s.groves := rfl
@[simp] theorem State.updGrid_ments (s : State) (k : Nat) (f : Grid → Grid) : (s.updGrid k f).ments = s.ments := rfl
@[simp] theorem State.updGrid_parts (s : State) (k : Nat) (f : Grid → Grid) : (s.updGrid k f).parts = s.parts := rfl
@[simp] theorem State.updGrid_mem (s : State) (k : Nat) (f : Grid → Grid) : (s.updGrid k f).mem = s.mem := rfl
@[simp] theorem State.updGrid_keyTags (s : State) (k : Nat) (f : Grid → Grid) : (s.updGrid k f).keyTags = s.keyTags := rfl
@[simp] theorem State.updGrid_bad (s : State) (k : Nat) (f : Grid → Grid) : (s.updGrid k f).bad = s.bad := rfl
@[simp] theorem State.updGrid_sizes (s : State) (k : Nat) (f : Grid → Grid) : (s.updGrid k f).sizes = s.sizes := rfl
@[simp] theorem State.updGrid_l2 (s : State) (k : Nat) (f : Grid → Grid) : (s.updGrid k f).l2 = s.l2 := rfl
@[simp] theorem State.updGrid_l1 (s : State) (k : Nat) (f : Grid → Grid) : (s.updGrid k f).l1 = s.l1 := rfl
@[simp] theorem State.updGrid_icache (s : State) (k : Nat) (f : Grid → Grid) : (s.updGrid k f).icache = s.icache := rfl
@[simp] theorem State.updGrid_scr (s : State) (k : Nat) (f : Grid → Grid) : (s.updGrid k f).scr = s.scr := rfl
@[simp] theorem State.updGrid_host (s : State) (k : Nat) (f : Grid → Grid) : (s.updGrid k f).host = s.host := rfl
@[simp] theorem State.updGrid_tlb (s : State) (k : Nat) (f : Grid → Grid) : (s.updGrid k f).tlb = s.tlb := rfl
@[simp] theorem State.updGrid_atc (s : State) (k : Nat) (f : Grid → Grid) : (s.updGrid k f).atc = s.atc := rfl
@[simp] theorem State.updGrid_xreqs (s : State) (k : Nat) (f : Grid → Grid) : (s.updGrid k f).xreqs = s.xreqs := rfl
@[simp] theorem State.updGrid_xans (s : State) (k : Nat) (f : Grid → Grid) : (s.updGrid k f).xans = s.xans := rfl
@[simp] theorem State.updGrid_late (s : State) (k : Nat) (f : Grid → Grid) : (s.updGrid k f).late = s.late := rfl
@[simp] theorem State.updGrid_deps (s : State) (k : Nat) (f : Grid → Grid) : (s.updGrid k f).deps = s.deps := rfl
@[simp] theorem State.updGrid_heat (s : State) (k : Nat) (f : Grid → Grid) : (s.updGrid k f).heat = s.heat := rfl
@[simp] theorem State.updGrid_ops (s : State) (k : Nat) (f : Grid → Grid) : (s.updGrid k f).ops = s.ops := rfl
@[simp] theorem State.updGrid_greqs (s : State) (k : Nat) (f : Grid → Grid) : (s.updGrid k f).greqs = s.greqs := rfl
@[simp] theorem State.updGrid_queues (s : State) (k : Nat) (f : Grid → Grid) : (s.updGrid k f).queues = s.queues := rfl
@[simp] theorem State.updGrid_slots (s : State) (k : Nat) (f : Grid → Grid) : (s.updGrid k f).slots = s.slots := rfl
@[simp] theorem State.updGrid_lds (s : State) (k : Nat) (f : Grid → Grid) : (s.updGrid k f).lds = s.lds := rfl
@[simp] theorem State.updGrid_ports (s : State) (k : Nat) (f : Grid → Grid) : (s.updGrid k f).ports = s.ports := rfl
@[simp] theorem State.updGrid_tiermap (s : State) (k : Nat) (f : Grid → Grid) : (s.updGrid k f).tiermap = s.tiermap := rfl
@[simp] theorem State.updGrid_rails (s : State) (k : Nat) (f : Grid → Grid) : (s.updGrid k f).rails = s.rails := rfl
@[simp] theorem State.updGrid_dev (s : State) (k : Nat) (f : Grid → Grid) : (s.updGrid k f).dev = s.dev := rfl
@[simp] theorem State.updGrid_canops (s : State) (k : Nat) (f : Grid → Grid) : (s.updGrid k f).canops = s.canops := rfl
@[simp] theorem State.updGrid_redparts (s : State) (k : Nat) (f : Grid → Grid) : (s.updGrid k f).redparts = s.redparts := rfl
@[simp] theorem State.updGrid_owned (s : State) (k : Nat) (f : Grid → Grid) : (s.updGrid k f).owned = s.owned := rfl
@[simp] theorem State.updGrid_time (s : State) (k : Nat) (f : Grid → Grid) : (s.updGrid k f).time = s.time := rfl
@[simp] theorem State.updGrid_refill (s : State) (k : Nat) (f : Grid → Grid) : (s.updGrid k f).refill = s.refill := rfl
@[simp] theorem State.updGrid_stamped (s : State) (k : Nat) (f : Grid → Grid) : (s.updGrid k f).stamped = s.stamped := rfl
@[simp] theorem State.updGrid_agenda (s : State) (k : Nat) (f : Grid → Grid) : (s.updGrid k f).agenda = s.agenda := rfl
@[simp] theorem State.updGrid_cur (s : State) (k : Nat) (f : Grid → Grid) : (s.updGrid k f).cur = s.cur := rfl
@[simp] theorem State.updGrid_fresh (s : State) (k : Nat) (f : Grid → Grid) : (s.updGrid k f).fresh = s.fresh := rfl
@[simp] theorem State.updGrid_nextOp (s : State) (k : Nat) (f : Grid → Grid) : (s.updGrid k f).nextOp = s.nextOp := rfl
@[simp] theorem State.updGrid_nextTeam (s : State) (k : Nat) (f : Grid → Grid) : (s.updGrid k f).nextTeam = s.nextTeam := rfl
@[simp] theorem State.updGrid_nextEnt (s : State) (k : Nat) (f : Grid → Grid) : (s.updGrid k f).nextEnt = s.nextEnt := rfl
@[simp] theorem State.updGrid_stamp (s : State) (k : Nat) (f : Grid → Grid) : (s.updGrid k f).stamp = s.stamp := rfl
@[simp] theorem State.updGrid_keyDraws (s : State) (k : Nat) (f : Grid → Grid) : (s.updGrid k f).keyDraws = s.keyDraws := rfl

@[simp] theorem State.updCore_threads (s : State) (k : Nat) (f : CoreSt → CoreSt) : (s.updCore k f).threads = s.threads := rfl
@[simp] theorem State.updCore_teams (s : State) (k : Nat) (f : CoreSt → CoreSt) : (s.updCore k f).teams = s.teams := rfl
@[simp] theorem State.updCore_grids (s : State) (k : Nat) (f : CoreSt → CoreSt) : (s.updCore k f).grids = s.grids := rfl
@[simp] theorem State.updCore_cores (s : State) (k : Nat) (f : CoreSt → CoreSt) : (s.updCore k f).cores = s.cores.set CoreSt.reset k (f (s.core k)) := rfl
@[simp] theorem State.updCore_groves (s : State) (k : Nat) (f : CoreSt → CoreSt) : (s.updCore k f).groves = s.groves := rfl
@[simp] theorem State.updCore_ments (s : State) (k : Nat) (f : CoreSt → CoreSt) : (s.updCore k f).ments = s.ments := rfl
@[simp] theorem State.updCore_parts (s : State) (k : Nat) (f : CoreSt → CoreSt) : (s.updCore k f).parts = s.parts := rfl
@[simp] theorem State.updCore_mem (s : State) (k : Nat) (f : CoreSt → CoreSt) : (s.updCore k f).mem = s.mem := rfl
@[simp] theorem State.updCore_keyTags (s : State) (k : Nat) (f : CoreSt → CoreSt) : (s.updCore k f).keyTags = s.keyTags := rfl
@[simp] theorem State.updCore_bad (s : State) (k : Nat) (f : CoreSt → CoreSt) : (s.updCore k f).bad = s.bad := rfl
@[simp] theorem State.updCore_sizes (s : State) (k : Nat) (f : CoreSt → CoreSt) : (s.updCore k f).sizes = s.sizes := rfl
@[simp] theorem State.updCore_l2 (s : State) (k : Nat) (f : CoreSt → CoreSt) : (s.updCore k f).l2 = s.l2 := rfl
@[simp] theorem State.updCore_l1 (s : State) (k : Nat) (f : CoreSt → CoreSt) : (s.updCore k f).l1 = s.l1 := rfl
@[simp] theorem State.updCore_icache (s : State) (k : Nat) (f : CoreSt → CoreSt) : (s.updCore k f).icache = s.icache := rfl
@[simp] theorem State.updCore_scr (s : State) (k : Nat) (f : CoreSt → CoreSt) : (s.updCore k f).scr = s.scr := rfl
@[simp] theorem State.updCore_host (s : State) (k : Nat) (f : CoreSt → CoreSt) : (s.updCore k f).host = s.host := rfl
@[simp] theorem State.updCore_tlb (s : State) (k : Nat) (f : CoreSt → CoreSt) : (s.updCore k f).tlb = s.tlb := rfl
@[simp] theorem State.updCore_atc (s : State) (k : Nat) (f : CoreSt → CoreSt) : (s.updCore k f).atc = s.atc := rfl
@[simp] theorem State.updCore_xreqs (s : State) (k : Nat) (f : CoreSt → CoreSt) : (s.updCore k f).xreqs = s.xreqs := rfl
@[simp] theorem State.updCore_xans (s : State) (k : Nat) (f : CoreSt → CoreSt) : (s.updCore k f).xans = s.xans := rfl
@[simp] theorem State.updCore_late (s : State) (k : Nat) (f : CoreSt → CoreSt) : (s.updCore k f).late = s.late := rfl
@[simp] theorem State.updCore_deps (s : State) (k : Nat) (f : CoreSt → CoreSt) : (s.updCore k f).deps = s.deps := rfl
@[simp] theorem State.updCore_heat (s : State) (k : Nat) (f : CoreSt → CoreSt) : (s.updCore k f).heat = s.heat := rfl
@[simp] theorem State.updCore_ops (s : State) (k : Nat) (f : CoreSt → CoreSt) : (s.updCore k f).ops = s.ops := rfl
@[simp] theorem State.updCore_greqs (s : State) (k : Nat) (f : CoreSt → CoreSt) : (s.updCore k f).greqs = s.greqs := rfl
@[simp] theorem State.updCore_queues (s : State) (k : Nat) (f : CoreSt → CoreSt) : (s.updCore k f).queues = s.queues := rfl
@[simp] theorem State.updCore_slots (s : State) (k : Nat) (f : CoreSt → CoreSt) : (s.updCore k f).slots = s.slots := rfl
@[simp] theorem State.updCore_lds (s : State) (k : Nat) (f : CoreSt → CoreSt) : (s.updCore k f).lds = s.lds := rfl
@[simp] theorem State.updCore_ports (s : State) (k : Nat) (f : CoreSt → CoreSt) : (s.updCore k f).ports = s.ports := rfl
@[simp] theorem State.updCore_tiermap (s : State) (k : Nat) (f : CoreSt → CoreSt) : (s.updCore k f).tiermap = s.tiermap := rfl
@[simp] theorem State.updCore_rails (s : State) (k : Nat) (f : CoreSt → CoreSt) : (s.updCore k f).rails = s.rails := rfl
@[simp] theorem State.updCore_dev (s : State) (k : Nat) (f : CoreSt → CoreSt) : (s.updCore k f).dev = s.dev := rfl
@[simp] theorem State.updCore_canops (s : State) (k : Nat) (f : CoreSt → CoreSt) : (s.updCore k f).canops = s.canops := rfl
@[simp] theorem State.updCore_redparts (s : State) (k : Nat) (f : CoreSt → CoreSt) : (s.updCore k f).redparts = s.redparts := rfl
@[simp] theorem State.updCore_owned (s : State) (k : Nat) (f : CoreSt → CoreSt) : (s.updCore k f).owned = s.owned := rfl
@[simp] theorem State.updCore_time (s : State) (k : Nat) (f : CoreSt → CoreSt) : (s.updCore k f).time = s.time := rfl
@[simp] theorem State.updCore_refill (s : State) (k : Nat) (f : CoreSt → CoreSt) : (s.updCore k f).refill = s.refill := rfl
@[simp] theorem State.updCore_stamped (s : State) (k : Nat) (f : CoreSt → CoreSt) : (s.updCore k f).stamped = s.stamped := rfl
@[simp] theorem State.updCore_agenda (s : State) (k : Nat) (f : CoreSt → CoreSt) : (s.updCore k f).agenda = s.agenda := rfl
@[simp] theorem State.updCore_cur (s : State) (k : Nat) (f : CoreSt → CoreSt) : (s.updCore k f).cur = s.cur := rfl
@[simp] theorem State.updCore_fresh (s : State) (k : Nat) (f : CoreSt → CoreSt) : (s.updCore k f).fresh = s.fresh := rfl
@[simp] theorem State.updCore_nextOp (s : State) (k : Nat) (f : CoreSt → CoreSt) : (s.updCore k f).nextOp = s.nextOp := rfl
@[simp] theorem State.updCore_nextTeam (s : State) (k : Nat) (f : CoreSt → CoreSt) : (s.updCore k f).nextTeam = s.nextTeam := rfl
@[simp] theorem State.updCore_nextEnt (s : State) (k : Nat) (f : CoreSt → CoreSt) : (s.updCore k f).nextEnt = s.nextEnt := rfl
@[simp] theorem State.updCore_stamp (s : State) (k : Nat) (f : CoreSt → CoreSt) : (s.updCore k f).stamp = s.stamp := rfl
@[simp] theorem State.updCore_keyDraws (s : State) (k : Nat) (f : CoreSt → CoreSt) : (s.updCore k f).keyDraws = s.keyDraws := rfl

@[simp] theorem State.updGrove_threads (s : State) (k : Nat) (f : GroveSt → GroveSt) : (s.updGrove k f).threads = s.threads := rfl
@[simp] theorem State.updGrove_teams (s : State) (k : Nat) (f : GroveSt → GroveSt) : (s.updGrove k f).teams = s.teams := rfl
@[simp] theorem State.updGrove_grids (s : State) (k : Nat) (f : GroveSt → GroveSt) : (s.updGrove k f).grids = s.grids := rfl
@[simp] theorem State.updGrove_cores (s : State) (k : Nat) (f : GroveSt → GroveSt) : (s.updGrove k f).cores = s.cores := rfl
@[simp] theorem State.updGrove_groves (s : State) (k : Nat) (f : GroveSt → GroveSt) : (s.updGrove k f).groves = s.groves.set GroveSt.reset k (f (s.grove k)) := rfl
@[simp] theorem State.updGrove_ments (s : State) (k : Nat) (f : GroveSt → GroveSt) : (s.updGrove k f).ments = s.ments := rfl
@[simp] theorem State.updGrove_parts (s : State) (k : Nat) (f : GroveSt → GroveSt) : (s.updGrove k f).parts = s.parts := rfl
@[simp] theorem State.updGrove_mem (s : State) (k : Nat) (f : GroveSt → GroveSt) : (s.updGrove k f).mem = s.mem := rfl
@[simp] theorem State.updGrove_keyTags (s : State) (k : Nat) (f : GroveSt → GroveSt) : (s.updGrove k f).keyTags = s.keyTags := rfl
@[simp] theorem State.updGrove_bad (s : State) (k : Nat) (f : GroveSt → GroveSt) : (s.updGrove k f).bad = s.bad := rfl
@[simp] theorem State.updGrove_sizes (s : State) (k : Nat) (f : GroveSt → GroveSt) : (s.updGrove k f).sizes = s.sizes := rfl
@[simp] theorem State.updGrove_l2 (s : State) (k : Nat) (f : GroveSt → GroveSt) : (s.updGrove k f).l2 = s.l2 := rfl
@[simp] theorem State.updGrove_l1 (s : State) (k : Nat) (f : GroveSt → GroveSt) : (s.updGrove k f).l1 = s.l1 := rfl
@[simp] theorem State.updGrove_icache (s : State) (k : Nat) (f : GroveSt → GroveSt) : (s.updGrove k f).icache = s.icache := rfl
@[simp] theorem State.updGrove_scr (s : State) (k : Nat) (f : GroveSt → GroveSt) : (s.updGrove k f).scr = s.scr := rfl
@[simp] theorem State.updGrove_host (s : State) (k : Nat) (f : GroveSt → GroveSt) : (s.updGrove k f).host = s.host := rfl
@[simp] theorem State.updGrove_tlb (s : State) (k : Nat) (f : GroveSt → GroveSt) : (s.updGrove k f).tlb = s.tlb := rfl
@[simp] theorem State.updGrove_atc (s : State) (k : Nat) (f : GroveSt → GroveSt) : (s.updGrove k f).atc = s.atc := rfl
@[simp] theorem State.updGrove_xreqs (s : State) (k : Nat) (f : GroveSt → GroveSt) : (s.updGrove k f).xreqs = s.xreqs := rfl
@[simp] theorem State.updGrove_xans (s : State) (k : Nat) (f : GroveSt → GroveSt) : (s.updGrove k f).xans = s.xans := rfl
@[simp] theorem State.updGrove_late (s : State) (k : Nat) (f : GroveSt → GroveSt) : (s.updGrove k f).late = s.late := rfl
@[simp] theorem State.updGrove_deps (s : State) (k : Nat) (f : GroveSt → GroveSt) : (s.updGrove k f).deps = s.deps := rfl
@[simp] theorem State.updGrove_heat (s : State) (k : Nat) (f : GroveSt → GroveSt) : (s.updGrove k f).heat = s.heat := rfl
@[simp] theorem State.updGrove_ops (s : State) (k : Nat) (f : GroveSt → GroveSt) : (s.updGrove k f).ops = s.ops := rfl
@[simp] theorem State.updGrove_greqs (s : State) (k : Nat) (f : GroveSt → GroveSt) : (s.updGrove k f).greqs = s.greqs := rfl
@[simp] theorem State.updGrove_queues (s : State) (k : Nat) (f : GroveSt → GroveSt) : (s.updGrove k f).queues = s.queues := rfl
@[simp] theorem State.updGrove_slots (s : State) (k : Nat) (f : GroveSt → GroveSt) : (s.updGrove k f).slots = s.slots := rfl
@[simp] theorem State.updGrove_lds (s : State) (k : Nat) (f : GroveSt → GroveSt) : (s.updGrove k f).lds = s.lds := rfl
@[simp] theorem State.updGrove_ports (s : State) (k : Nat) (f : GroveSt → GroveSt) : (s.updGrove k f).ports = s.ports := rfl
@[simp] theorem State.updGrove_tiermap (s : State) (k : Nat) (f : GroveSt → GroveSt) : (s.updGrove k f).tiermap = s.tiermap := rfl
@[simp] theorem State.updGrove_rails (s : State) (k : Nat) (f : GroveSt → GroveSt) : (s.updGrove k f).rails = s.rails := rfl
@[simp] theorem State.updGrove_dev (s : State) (k : Nat) (f : GroveSt → GroveSt) : (s.updGrove k f).dev = s.dev := rfl
@[simp] theorem State.updGrove_canops (s : State) (k : Nat) (f : GroveSt → GroveSt) : (s.updGrove k f).canops = s.canops := rfl
@[simp] theorem State.updGrove_redparts (s : State) (k : Nat) (f : GroveSt → GroveSt) : (s.updGrove k f).redparts = s.redparts := rfl
@[simp] theorem State.updGrove_owned (s : State) (k : Nat) (f : GroveSt → GroveSt) : (s.updGrove k f).owned = s.owned := rfl
@[simp] theorem State.updGrove_time (s : State) (k : Nat) (f : GroveSt → GroveSt) : (s.updGrove k f).time = s.time := rfl
@[simp] theorem State.updGrove_refill (s : State) (k : Nat) (f : GroveSt → GroveSt) : (s.updGrove k f).refill = s.refill := rfl
@[simp] theorem State.updGrove_stamped (s : State) (k : Nat) (f : GroveSt → GroveSt) : (s.updGrove k f).stamped = s.stamped := rfl
@[simp] theorem State.updGrove_agenda (s : State) (k : Nat) (f : GroveSt → GroveSt) : (s.updGrove k f).agenda = s.agenda := rfl
@[simp] theorem State.updGrove_cur (s : State) (k : Nat) (f : GroveSt → GroveSt) : (s.updGrove k f).cur = s.cur := rfl
@[simp] theorem State.updGrove_fresh (s : State) (k : Nat) (f : GroveSt → GroveSt) : (s.updGrove k f).fresh = s.fresh := rfl
@[simp] theorem State.updGrove_nextOp (s : State) (k : Nat) (f : GroveSt → GroveSt) : (s.updGrove k f).nextOp = s.nextOp := rfl
@[simp] theorem State.updGrove_nextTeam (s : State) (k : Nat) (f : GroveSt → GroveSt) : (s.updGrove k f).nextTeam = s.nextTeam := rfl
@[simp] theorem State.updGrove_nextEnt (s : State) (k : Nat) (f : GroveSt → GroveSt) : (s.updGrove k f).nextEnt = s.nextEnt := rfl
@[simp] theorem State.updGrove_stamp (s : State) (k : Nat) (f : GroveSt → GroveSt) : (s.updGrove k f).stamp = s.stamp := rfl
@[simp] theorem State.updGrove_keyDraws (s : State) (k : Nat) (f : GroveSt → GroveSt) : (s.updGrove k f).keyDraws = s.keyDraws := rfl

@[simp] theorem State.updPart_threads (s : State) (k : Nat) (f : Partition → Partition) : (s.updPart k f).threads = s.threads := rfl
@[simp] theorem State.updPart_teams (s : State) (k : Nat) (f : Partition → Partition) : (s.updPart k f).teams = s.teams := rfl
@[simp] theorem State.updPart_grids (s : State) (k : Nat) (f : Partition → Partition) : (s.updPart k f).grids = s.grids := rfl
@[simp] theorem State.updPart_cores (s : State) (k : Nat) (f : Partition → Partition) : (s.updPart k f).cores = s.cores := rfl
@[simp] theorem State.updPart_groves (s : State) (k : Nat) (f : Partition → Partition) : (s.updPart k f).groves = s.groves := rfl
@[simp] theorem State.updPart_ments (s : State) (k : Nat) (f : Partition → Partition) : (s.updPart k f).ments = s.ments := rfl
@[simp] theorem State.updPart_parts (s : State) (k : Nat) (f : Partition → Partition) : (s.updPart k f).parts = s.parts.set Partition.reset k (f (s.part k)) := rfl
@[simp] theorem State.updPart_mem (s : State) (k : Nat) (f : Partition → Partition) : (s.updPart k f).mem = s.mem := rfl
@[simp] theorem State.updPart_keyTags (s : State) (k : Nat) (f : Partition → Partition) : (s.updPart k f).keyTags = s.keyTags := rfl
@[simp] theorem State.updPart_bad (s : State) (k : Nat) (f : Partition → Partition) : (s.updPart k f).bad = s.bad := rfl
@[simp] theorem State.updPart_sizes (s : State) (k : Nat) (f : Partition → Partition) : (s.updPart k f).sizes = s.sizes := rfl
@[simp] theorem State.updPart_l2 (s : State) (k : Nat) (f : Partition → Partition) : (s.updPart k f).l2 = s.l2 := rfl
@[simp] theorem State.updPart_l1 (s : State) (k : Nat) (f : Partition → Partition) : (s.updPart k f).l1 = s.l1 := rfl
@[simp] theorem State.updPart_icache (s : State) (k : Nat) (f : Partition → Partition) : (s.updPart k f).icache = s.icache := rfl
@[simp] theorem State.updPart_scr (s : State) (k : Nat) (f : Partition → Partition) : (s.updPart k f).scr = s.scr := rfl
@[simp] theorem State.updPart_host (s : State) (k : Nat) (f : Partition → Partition) : (s.updPart k f).host = s.host := rfl
@[simp] theorem State.updPart_tlb (s : State) (k : Nat) (f : Partition → Partition) : (s.updPart k f).tlb = s.tlb := rfl
@[simp] theorem State.updPart_atc (s : State) (k : Nat) (f : Partition → Partition) : (s.updPart k f).atc = s.atc := rfl
@[simp] theorem State.updPart_xreqs (s : State) (k : Nat) (f : Partition → Partition) : (s.updPart k f).xreqs = s.xreqs := rfl
@[simp] theorem State.updPart_xans (s : State) (k : Nat) (f : Partition → Partition) : (s.updPart k f).xans = s.xans := rfl
@[simp] theorem State.updPart_late (s : State) (k : Nat) (f : Partition → Partition) : (s.updPart k f).late = s.late := rfl
@[simp] theorem State.updPart_deps (s : State) (k : Nat) (f : Partition → Partition) : (s.updPart k f).deps = s.deps := rfl
@[simp] theorem State.updPart_heat (s : State) (k : Nat) (f : Partition → Partition) : (s.updPart k f).heat = s.heat := rfl
@[simp] theorem State.updPart_ops (s : State) (k : Nat) (f : Partition → Partition) : (s.updPart k f).ops = s.ops := rfl
@[simp] theorem State.updPart_greqs (s : State) (k : Nat) (f : Partition → Partition) : (s.updPart k f).greqs = s.greqs := rfl
@[simp] theorem State.updPart_queues (s : State) (k : Nat) (f : Partition → Partition) : (s.updPart k f).queues = s.queues := rfl
@[simp] theorem State.updPart_slots (s : State) (k : Nat) (f : Partition → Partition) : (s.updPart k f).slots = s.slots := rfl
@[simp] theorem State.updPart_lds (s : State) (k : Nat) (f : Partition → Partition) : (s.updPart k f).lds = s.lds := rfl
@[simp] theorem State.updPart_ports (s : State) (k : Nat) (f : Partition → Partition) : (s.updPart k f).ports = s.ports := rfl
@[simp] theorem State.updPart_tiermap (s : State) (k : Nat) (f : Partition → Partition) : (s.updPart k f).tiermap = s.tiermap := rfl
@[simp] theorem State.updPart_rails (s : State) (k : Nat) (f : Partition → Partition) : (s.updPart k f).rails = s.rails := rfl
@[simp] theorem State.updPart_dev (s : State) (k : Nat) (f : Partition → Partition) : (s.updPart k f).dev = s.dev := rfl
@[simp] theorem State.updPart_canops (s : State) (k : Nat) (f : Partition → Partition) : (s.updPart k f).canops = s.canops := rfl
@[simp] theorem State.updPart_redparts (s : State) (k : Nat) (f : Partition → Partition) : (s.updPart k f).redparts = s.redparts := rfl
@[simp] theorem State.updPart_owned (s : State) (k : Nat) (f : Partition → Partition) : (s.updPart k f).owned = s.owned := rfl
@[simp] theorem State.updPart_time (s : State) (k : Nat) (f : Partition → Partition) : (s.updPart k f).time = s.time := rfl
@[simp] theorem State.updPart_refill (s : State) (k : Nat) (f : Partition → Partition) : (s.updPart k f).refill = s.refill := rfl
@[simp] theorem State.updPart_stamped (s : State) (k : Nat) (f : Partition → Partition) : (s.updPart k f).stamped = s.stamped := rfl
@[simp] theorem State.updPart_agenda (s : State) (k : Nat) (f : Partition → Partition) : (s.updPart k f).agenda = s.agenda := rfl
@[simp] theorem State.updPart_cur (s : State) (k : Nat) (f : Partition → Partition) : (s.updPart k f).cur = s.cur := rfl
@[simp] theorem State.updPart_fresh (s : State) (k : Nat) (f : Partition → Partition) : (s.updPart k f).fresh = s.fresh := rfl
@[simp] theorem State.updPart_nextOp (s : State) (k : Nat) (f : Partition → Partition) : (s.updPart k f).nextOp = s.nextOp := rfl
@[simp] theorem State.updPart_nextTeam (s : State) (k : Nat) (f : Partition → Partition) : (s.updPart k f).nextTeam = s.nextTeam := rfl
@[simp] theorem State.updPart_nextEnt (s : State) (k : Nat) (f : Partition → Partition) : (s.updPart k f).nextEnt = s.nextEnt := rfl
@[simp] theorem State.updPart_stamp (s : State) (k : Nat) (f : Partition → Partition) : (s.updPart k f).stamp = s.stamp := rfl
@[simp] theorem State.updPart_keyDraws (s : State) (k : Nat) (f : Partition → Partition) : (s.updPart k f).keyDraws = s.keyDraws := rfl

@[simp] theorem State.updQueue_threads (s : State) (k : Nat) (f : Queue → Queue) : (s.updQueue k f).threads = s.threads := rfl
@[simp] theorem State.updQueue_teams (s : State) (k : Nat) (f : Queue → Queue) : (s.updQueue k f).teams = s.teams := rfl
@[simp] theorem State.updQueue_grids (s : State) (k : Nat) (f : Queue → Queue) : (s.updQueue k f).grids = s.grids := rfl
@[simp] theorem State.updQueue_cores (s : State) (k : Nat) (f : Queue → Queue) : (s.updQueue k f).cores = s.cores := rfl
@[simp] theorem State.updQueue_groves (s : State) (k : Nat) (f : Queue → Queue) : (s.updQueue k f).groves = s.groves := rfl
@[simp] theorem State.updQueue_ments (s : State) (k : Nat) (f : Queue → Queue) : (s.updQueue k f).ments = s.ments := rfl
@[simp] theorem State.updQueue_parts (s : State) (k : Nat) (f : Queue → Queue) : (s.updQueue k f).parts = s.parts := rfl
@[simp] theorem State.updQueue_mem (s : State) (k : Nat) (f : Queue → Queue) : (s.updQueue k f).mem = s.mem := rfl
@[simp] theorem State.updQueue_keyTags (s : State) (k : Nat) (f : Queue → Queue) : (s.updQueue k f).keyTags = s.keyTags := rfl
@[simp] theorem State.updQueue_bad (s : State) (k : Nat) (f : Queue → Queue) : (s.updQueue k f).bad = s.bad := rfl
@[simp] theorem State.updQueue_sizes (s : State) (k : Nat) (f : Queue → Queue) : (s.updQueue k f).sizes = s.sizes := rfl
@[simp] theorem State.updQueue_l2 (s : State) (k : Nat) (f : Queue → Queue) : (s.updQueue k f).l2 = s.l2 := rfl
@[simp] theorem State.updQueue_l1 (s : State) (k : Nat) (f : Queue → Queue) : (s.updQueue k f).l1 = s.l1 := rfl
@[simp] theorem State.updQueue_icache (s : State) (k : Nat) (f : Queue → Queue) : (s.updQueue k f).icache = s.icache := rfl
@[simp] theorem State.updQueue_scr (s : State) (k : Nat) (f : Queue → Queue) : (s.updQueue k f).scr = s.scr := rfl
@[simp] theorem State.updQueue_host (s : State) (k : Nat) (f : Queue → Queue) : (s.updQueue k f).host = s.host := rfl
@[simp] theorem State.updQueue_tlb (s : State) (k : Nat) (f : Queue → Queue) : (s.updQueue k f).tlb = s.tlb := rfl
@[simp] theorem State.updQueue_atc (s : State) (k : Nat) (f : Queue → Queue) : (s.updQueue k f).atc = s.atc := rfl
@[simp] theorem State.updQueue_xreqs (s : State) (k : Nat) (f : Queue → Queue) : (s.updQueue k f).xreqs = s.xreqs := rfl
@[simp] theorem State.updQueue_xans (s : State) (k : Nat) (f : Queue → Queue) : (s.updQueue k f).xans = s.xans := rfl
@[simp] theorem State.updQueue_late (s : State) (k : Nat) (f : Queue → Queue) : (s.updQueue k f).late = s.late := rfl
@[simp] theorem State.updQueue_deps (s : State) (k : Nat) (f : Queue → Queue) : (s.updQueue k f).deps = s.deps := rfl
@[simp] theorem State.updQueue_heat (s : State) (k : Nat) (f : Queue → Queue) : (s.updQueue k f).heat = s.heat := rfl
@[simp] theorem State.updQueue_ops (s : State) (k : Nat) (f : Queue → Queue) : (s.updQueue k f).ops = s.ops := rfl
@[simp] theorem State.updQueue_greqs (s : State) (k : Nat) (f : Queue → Queue) : (s.updQueue k f).greqs = s.greqs := rfl
@[simp] theorem State.updQueue_queues (s : State) (k : Nat) (f : Queue → Queue) : (s.updQueue k f).queues = s.queues.set Queue.reset k (f (s.queue k)) := rfl
@[simp] theorem State.updQueue_slots (s : State) (k : Nat) (f : Queue → Queue) : (s.updQueue k f).slots = s.slots := rfl
@[simp] theorem State.updQueue_lds (s : State) (k : Nat) (f : Queue → Queue) : (s.updQueue k f).lds = s.lds := rfl
@[simp] theorem State.updQueue_ports (s : State) (k : Nat) (f : Queue → Queue) : (s.updQueue k f).ports = s.ports := rfl
@[simp] theorem State.updQueue_tiermap (s : State) (k : Nat) (f : Queue → Queue) : (s.updQueue k f).tiermap = s.tiermap := rfl
@[simp] theorem State.updQueue_rails (s : State) (k : Nat) (f : Queue → Queue) : (s.updQueue k f).rails = s.rails := rfl
@[simp] theorem State.updQueue_dev (s : State) (k : Nat) (f : Queue → Queue) : (s.updQueue k f).dev = s.dev := rfl
@[simp] theorem State.updQueue_canops (s : State) (k : Nat) (f : Queue → Queue) : (s.updQueue k f).canops = s.canops := rfl
@[simp] theorem State.updQueue_redparts (s : State) (k : Nat) (f : Queue → Queue) : (s.updQueue k f).redparts = s.redparts := rfl
@[simp] theorem State.updQueue_owned (s : State) (k : Nat) (f : Queue → Queue) : (s.updQueue k f).owned = s.owned := rfl
@[simp] theorem State.updQueue_time (s : State) (k : Nat) (f : Queue → Queue) : (s.updQueue k f).time = s.time := rfl
@[simp] theorem State.updQueue_refill (s : State) (k : Nat) (f : Queue → Queue) : (s.updQueue k f).refill = s.refill := rfl
@[simp] theorem State.updQueue_stamped (s : State) (k : Nat) (f : Queue → Queue) : (s.updQueue k f).stamped = s.stamped := rfl
@[simp] theorem State.updQueue_agenda (s : State) (k : Nat) (f : Queue → Queue) : (s.updQueue k f).agenda = s.agenda := rfl
@[simp] theorem State.updQueue_cur (s : State) (k : Nat) (f : Queue → Queue) : (s.updQueue k f).cur = s.cur := rfl
@[simp] theorem State.updQueue_fresh (s : State) (k : Nat) (f : Queue → Queue) : (s.updQueue k f).fresh = s.fresh := rfl
@[simp] theorem State.updQueue_nextOp (s : State) (k : Nat) (f : Queue → Queue) : (s.updQueue k f).nextOp = s.nextOp := rfl
@[simp] theorem State.updQueue_nextTeam (s : State) (k : Nat) (f : Queue → Queue) : (s.updQueue k f).nextTeam = s.nextTeam := rfl
@[simp] theorem State.updQueue_nextEnt (s : State) (k : Nat) (f : Queue → Queue) : (s.updQueue k f).nextEnt = s.nextEnt := rfl
@[simp] theorem State.updQueue_stamp (s : State) (k : Nat) (f : Queue → Queue) : (s.updQueue k f).stamp = s.stamp := rfl
@[simp] theorem State.updQueue_keyDraws (s : State) (k : Nat) (f : Queue → Queue) : (s.updQueue k f).keyDraws = s.keyDraws := rfl

@[simp] theorem State.updSlot_threads (s : State) (k : Nat) (f : Slot → Slot) : (s.updSlot k f).threads = s.threads := rfl
@[simp] theorem State.updSlot_teams (s : State) (k : Nat) (f : Slot → Slot) : (s.updSlot k f).teams = s.teams := rfl
@[simp] theorem State.updSlot_grids (s : State) (k : Nat) (f : Slot → Slot) : (s.updSlot k f).grids = s.grids := rfl
@[simp] theorem State.updSlot_cores (s : State) (k : Nat) (f : Slot → Slot) : (s.updSlot k f).cores = s.cores := rfl
@[simp] theorem State.updSlot_groves (s : State) (k : Nat) (f : Slot → Slot) : (s.updSlot k f).groves = s.groves := rfl
@[simp] theorem State.updSlot_ments (s : State) (k : Nat) (f : Slot → Slot) : (s.updSlot k f).ments = s.ments := rfl
@[simp] theorem State.updSlot_parts (s : State) (k : Nat) (f : Slot → Slot) : (s.updSlot k f).parts = s.parts := rfl
@[simp] theorem State.updSlot_mem (s : State) (k : Nat) (f : Slot → Slot) : (s.updSlot k f).mem = s.mem := rfl
@[simp] theorem State.updSlot_keyTags (s : State) (k : Nat) (f : Slot → Slot) : (s.updSlot k f).keyTags = s.keyTags := rfl
@[simp] theorem State.updSlot_bad (s : State) (k : Nat) (f : Slot → Slot) : (s.updSlot k f).bad = s.bad := rfl
@[simp] theorem State.updSlot_sizes (s : State) (k : Nat) (f : Slot → Slot) : (s.updSlot k f).sizes = s.sizes := rfl
@[simp] theorem State.updSlot_l2 (s : State) (k : Nat) (f : Slot → Slot) : (s.updSlot k f).l2 = s.l2 := rfl
@[simp] theorem State.updSlot_l1 (s : State) (k : Nat) (f : Slot → Slot) : (s.updSlot k f).l1 = s.l1 := rfl
@[simp] theorem State.updSlot_icache (s : State) (k : Nat) (f : Slot → Slot) : (s.updSlot k f).icache = s.icache := rfl
@[simp] theorem State.updSlot_scr (s : State) (k : Nat) (f : Slot → Slot) : (s.updSlot k f).scr = s.scr := rfl
@[simp] theorem State.updSlot_host (s : State) (k : Nat) (f : Slot → Slot) : (s.updSlot k f).host = s.host := rfl
@[simp] theorem State.updSlot_tlb (s : State) (k : Nat) (f : Slot → Slot) : (s.updSlot k f).tlb = s.tlb := rfl
@[simp] theorem State.updSlot_atc (s : State) (k : Nat) (f : Slot → Slot) : (s.updSlot k f).atc = s.atc := rfl
@[simp] theorem State.updSlot_xreqs (s : State) (k : Nat) (f : Slot → Slot) : (s.updSlot k f).xreqs = s.xreqs := rfl
@[simp] theorem State.updSlot_xans (s : State) (k : Nat) (f : Slot → Slot) : (s.updSlot k f).xans = s.xans := rfl
@[simp] theorem State.updSlot_late (s : State) (k : Nat) (f : Slot → Slot) : (s.updSlot k f).late = s.late := rfl
@[simp] theorem State.updSlot_deps (s : State) (k : Nat) (f : Slot → Slot) : (s.updSlot k f).deps = s.deps := rfl
@[simp] theorem State.updSlot_heat (s : State) (k : Nat) (f : Slot → Slot) : (s.updSlot k f).heat = s.heat := rfl
@[simp] theorem State.updSlot_ops (s : State) (k : Nat) (f : Slot → Slot) : (s.updSlot k f).ops = s.ops := rfl
@[simp] theorem State.updSlot_greqs (s : State) (k : Nat) (f : Slot → Slot) : (s.updSlot k f).greqs = s.greqs := rfl
@[simp] theorem State.updSlot_queues (s : State) (k : Nat) (f : Slot → Slot) : (s.updSlot k f).queues = s.queues := rfl
@[simp] theorem State.updSlot_slots (s : State) (k : Nat) (f : Slot → Slot) : (s.updSlot k f).slots = s.slots.set Slot.reset k (f (s.slot k)) := rfl
@[simp] theorem State.updSlot_lds (s : State) (k : Nat) (f : Slot → Slot) : (s.updSlot k f).lds = s.lds := rfl
@[simp] theorem State.updSlot_ports (s : State) (k : Nat) (f : Slot → Slot) : (s.updSlot k f).ports = s.ports := rfl
@[simp] theorem State.updSlot_tiermap (s : State) (k : Nat) (f : Slot → Slot) : (s.updSlot k f).tiermap = s.tiermap := rfl
@[simp] theorem State.updSlot_rails (s : State) (k : Nat) (f : Slot → Slot) : (s.updSlot k f).rails = s.rails := rfl
@[simp] theorem State.updSlot_dev (s : State) (k : Nat) (f : Slot → Slot) : (s.updSlot k f).dev = s.dev := rfl
@[simp] theorem State.updSlot_canops (s : State) (k : Nat) (f : Slot → Slot) : (s.updSlot k f).canops = s.canops := rfl
@[simp] theorem State.updSlot_redparts (s : State) (k : Nat) (f : Slot → Slot) : (s.updSlot k f).redparts = s.redparts := rfl
@[simp] theorem State.updSlot_owned (s : State) (k : Nat) (f : Slot → Slot) : (s.updSlot k f).owned = s.owned := rfl
@[simp] theorem State.updSlot_time (s : State) (k : Nat) (f : Slot → Slot) : (s.updSlot k f).time = s.time := rfl
@[simp] theorem State.updSlot_refill (s : State) (k : Nat) (f : Slot → Slot) : (s.updSlot k f).refill = s.refill := rfl
@[simp] theorem State.updSlot_stamped (s : State) (k : Nat) (f : Slot → Slot) : (s.updSlot k f).stamped = s.stamped := rfl
@[simp] theorem State.updSlot_agenda (s : State) (k : Nat) (f : Slot → Slot) : (s.updSlot k f).agenda = s.agenda := rfl
@[simp] theorem State.updSlot_cur (s : State) (k : Nat) (f : Slot → Slot) : (s.updSlot k f).cur = s.cur := rfl
@[simp] theorem State.updSlot_fresh (s : State) (k : Nat) (f : Slot → Slot) : (s.updSlot k f).fresh = s.fresh := rfl
@[simp] theorem State.updSlot_nextOp (s : State) (k : Nat) (f : Slot → Slot) : (s.updSlot k f).nextOp = s.nextOp := rfl
@[simp] theorem State.updSlot_nextTeam (s : State) (k : Nat) (f : Slot → Slot) : (s.updSlot k f).nextTeam = s.nextTeam := rfl
@[simp] theorem State.updSlot_nextEnt (s : State) (k : Nat) (f : Slot → Slot) : (s.updSlot k f).nextEnt = s.nextEnt := rfl
@[simp] theorem State.updSlot_stamp (s : State) (k : Nat) (f : Slot → Slot) : (s.updSlot k f).stamp = s.stamp := rfl
@[simp] theorem State.updSlot_keyDraws (s : State) (k : Nat) (f : Slot → Slot) : (s.updSlot k f).keyDraws = s.keyDraws := rfl

@[simp] theorem State.updLd_threads (s : State) (k : Nat) (f : LDev → LDev) : (s.updLd k f).threads = s.threads := rfl
@[simp] theorem State.updLd_teams (s : State) (k : Nat) (f : LDev → LDev) : (s.updLd k f).teams = s.teams := rfl
@[simp] theorem State.updLd_grids (s : State) (k : Nat) (f : LDev → LDev) : (s.updLd k f).grids = s.grids := rfl
@[simp] theorem State.updLd_cores (s : State) (k : Nat) (f : LDev → LDev) : (s.updLd k f).cores = s.cores := rfl
@[simp] theorem State.updLd_groves (s : State) (k : Nat) (f : LDev → LDev) : (s.updLd k f).groves = s.groves := rfl
@[simp] theorem State.updLd_ments (s : State) (k : Nat) (f : LDev → LDev) : (s.updLd k f).ments = s.ments := rfl
@[simp] theorem State.updLd_parts (s : State) (k : Nat) (f : LDev → LDev) : (s.updLd k f).parts = s.parts := rfl
@[simp] theorem State.updLd_mem (s : State) (k : Nat) (f : LDev → LDev) : (s.updLd k f).mem = s.mem := rfl
@[simp] theorem State.updLd_keyTags (s : State) (k : Nat) (f : LDev → LDev) : (s.updLd k f).keyTags = s.keyTags := rfl
@[simp] theorem State.updLd_bad (s : State) (k : Nat) (f : LDev → LDev) : (s.updLd k f).bad = s.bad := rfl
@[simp] theorem State.updLd_sizes (s : State) (k : Nat) (f : LDev → LDev) : (s.updLd k f).sizes = s.sizes := rfl
@[simp] theorem State.updLd_l2 (s : State) (k : Nat) (f : LDev → LDev) : (s.updLd k f).l2 = s.l2 := rfl
@[simp] theorem State.updLd_l1 (s : State) (k : Nat) (f : LDev → LDev) : (s.updLd k f).l1 = s.l1 := rfl
@[simp] theorem State.updLd_icache (s : State) (k : Nat) (f : LDev → LDev) : (s.updLd k f).icache = s.icache := rfl
@[simp] theorem State.updLd_scr (s : State) (k : Nat) (f : LDev → LDev) : (s.updLd k f).scr = s.scr := rfl
@[simp] theorem State.updLd_host (s : State) (k : Nat) (f : LDev → LDev) : (s.updLd k f).host = s.host := rfl
@[simp] theorem State.updLd_tlb (s : State) (k : Nat) (f : LDev → LDev) : (s.updLd k f).tlb = s.tlb := rfl
@[simp] theorem State.updLd_atc (s : State) (k : Nat) (f : LDev → LDev) : (s.updLd k f).atc = s.atc := rfl
@[simp] theorem State.updLd_xreqs (s : State) (k : Nat) (f : LDev → LDev) : (s.updLd k f).xreqs = s.xreqs := rfl
@[simp] theorem State.updLd_xans (s : State) (k : Nat) (f : LDev → LDev) : (s.updLd k f).xans = s.xans := rfl
@[simp] theorem State.updLd_late (s : State) (k : Nat) (f : LDev → LDev) : (s.updLd k f).late = s.late := rfl
@[simp] theorem State.updLd_deps (s : State) (k : Nat) (f : LDev → LDev) : (s.updLd k f).deps = s.deps := rfl
@[simp] theorem State.updLd_heat (s : State) (k : Nat) (f : LDev → LDev) : (s.updLd k f).heat = s.heat := rfl
@[simp] theorem State.updLd_ops (s : State) (k : Nat) (f : LDev → LDev) : (s.updLd k f).ops = s.ops := rfl
@[simp] theorem State.updLd_greqs (s : State) (k : Nat) (f : LDev → LDev) : (s.updLd k f).greqs = s.greqs := rfl
@[simp] theorem State.updLd_queues (s : State) (k : Nat) (f : LDev → LDev) : (s.updLd k f).queues = s.queues := rfl
@[simp] theorem State.updLd_slots (s : State) (k : Nat) (f : LDev → LDev) : (s.updLd k f).slots = s.slots := rfl
@[simp] theorem State.updLd_lds (s : State) (k : Nat) (f : LDev → LDev) : (s.updLd k f).lds = s.lds.set LDev.reset k (f (s.ld k)) := rfl
@[simp] theorem State.updLd_ports (s : State) (k : Nat) (f : LDev → LDev) : (s.updLd k f).ports = s.ports := rfl
@[simp] theorem State.updLd_tiermap (s : State) (k : Nat) (f : LDev → LDev) : (s.updLd k f).tiermap = s.tiermap := rfl
@[simp] theorem State.updLd_rails (s : State) (k : Nat) (f : LDev → LDev) : (s.updLd k f).rails = s.rails := rfl
@[simp] theorem State.updLd_dev (s : State) (k : Nat) (f : LDev → LDev) : (s.updLd k f).dev = s.dev := rfl
@[simp] theorem State.updLd_canops (s : State) (k : Nat) (f : LDev → LDev) : (s.updLd k f).canops = s.canops := rfl
@[simp] theorem State.updLd_redparts (s : State) (k : Nat) (f : LDev → LDev) : (s.updLd k f).redparts = s.redparts := rfl
@[simp] theorem State.updLd_owned (s : State) (k : Nat) (f : LDev → LDev) : (s.updLd k f).owned = s.owned := rfl
@[simp] theorem State.updLd_time (s : State) (k : Nat) (f : LDev → LDev) : (s.updLd k f).time = s.time := rfl
@[simp] theorem State.updLd_refill (s : State) (k : Nat) (f : LDev → LDev) : (s.updLd k f).refill = s.refill := rfl
@[simp] theorem State.updLd_stamped (s : State) (k : Nat) (f : LDev → LDev) : (s.updLd k f).stamped = s.stamped := rfl
@[simp] theorem State.updLd_agenda (s : State) (k : Nat) (f : LDev → LDev) : (s.updLd k f).agenda = s.agenda := rfl
@[simp] theorem State.updLd_cur (s : State) (k : Nat) (f : LDev → LDev) : (s.updLd k f).cur = s.cur := rfl
@[simp] theorem State.updLd_fresh (s : State) (k : Nat) (f : LDev → LDev) : (s.updLd k f).fresh = s.fresh := rfl
@[simp] theorem State.updLd_nextOp (s : State) (k : Nat) (f : LDev → LDev) : (s.updLd k f).nextOp = s.nextOp := rfl
@[simp] theorem State.updLd_nextTeam (s : State) (k : Nat) (f : LDev → LDev) : (s.updLd k f).nextTeam = s.nextTeam := rfl
@[simp] theorem State.updLd_nextEnt (s : State) (k : Nat) (f : LDev → LDev) : (s.updLd k f).nextEnt = s.nextEnt := rfl
@[simp] theorem State.updLd_stamp (s : State) (k : Nat) (f : LDev → LDev) : (s.updLd k f).stamp = s.stamp := rfl
@[simp] theorem State.updLd_keyDraws (s : State) (k : Nat) (f : LDev → LDev) : (s.updLd k f).keyDraws = s.keyDraws := rfl

@[simp] theorem State.updRail_threads (s : State) (k : Nat) (f : Rail → Rail) : (s.updRail k f).threads = s.threads := rfl
@[simp] theorem State.updRail_teams (s : State) (k : Nat) (f : Rail → Rail) : (s.updRail k f).teams = s.teams := rfl
@[simp] theorem State.updRail_grids (s : State) (k : Nat) (f : Rail → Rail) : (s.updRail k f).grids = s.grids := rfl
@[simp] theorem State.updRail_cores (s : State) (k : Nat) (f : Rail → Rail) : (s.updRail k f).cores = s.cores := rfl
@[simp] theorem State.updRail_groves (s : State) (k : Nat) (f : Rail → Rail) : (s.updRail k f).groves = s.groves := rfl
@[simp] theorem State.updRail_ments (s : State) (k : Nat) (f : Rail → Rail) : (s.updRail k f).ments = s.ments := rfl
@[simp] theorem State.updRail_parts (s : State) (k : Nat) (f : Rail → Rail) : (s.updRail k f).parts = s.parts := rfl
@[simp] theorem State.updRail_mem (s : State) (k : Nat) (f : Rail → Rail) : (s.updRail k f).mem = s.mem := rfl
@[simp] theorem State.updRail_keyTags (s : State) (k : Nat) (f : Rail → Rail) : (s.updRail k f).keyTags = s.keyTags := rfl
@[simp] theorem State.updRail_bad (s : State) (k : Nat) (f : Rail → Rail) : (s.updRail k f).bad = s.bad := rfl
@[simp] theorem State.updRail_sizes (s : State) (k : Nat) (f : Rail → Rail) : (s.updRail k f).sizes = s.sizes := rfl
@[simp] theorem State.updRail_l2 (s : State) (k : Nat) (f : Rail → Rail) : (s.updRail k f).l2 = s.l2 := rfl
@[simp] theorem State.updRail_l1 (s : State) (k : Nat) (f : Rail → Rail) : (s.updRail k f).l1 = s.l1 := rfl
@[simp] theorem State.updRail_icache (s : State) (k : Nat) (f : Rail → Rail) : (s.updRail k f).icache = s.icache := rfl
@[simp] theorem State.updRail_scr (s : State) (k : Nat) (f : Rail → Rail) : (s.updRail k f).scr = s.scr := rfl
@[simp] theorem State.updRail_host (s : State) (k : Nat) (f : Rail → Rail) : (s.updRail k f).host = s.host := rfl
@[simp] theorem State.updRail_tlb (s : State) (k : Nat) (f : Rail → Rail) : (s.updRail k f).tlb = s.tlb := rfl
@[simp] theorem State.updRail_atc (s : State) (k : Nat) (f : Rail → Rail) : (s.updRail k f).atc = s.atc := rfl
@[simp] theorem State.updRail_xreqs (s : State) (k : Nat) (f : Rail → Rail) : (s.updRail k f).xreqs = s.xreqs := rfl
@[simp] theorem State.updRail_xans (s : State) (k : Nat) (f : Rail → Rail) : (s.updRail k f).xans = s.xans := rfl
@[simp] theorem State.updRail_late (s : State) (k : Nat) (f : Rail → Rail) : (s.updRail k f).late = s.late := rfl
@[simp] theorem State.updRail_deps (s : State) (k : Nat) (f : Rail → Rail) : (s.updRail k f).deps = s.deps := rfl
@[simp] theorem State.updRail_heat (s : State) (k : Nat) (f : Rail → Rail) : (s.updRail k f).heat = s.heat := rfl
@[simp] theorem State.updRail_ops (s : State) (k : Nat) (f : Rail → Rail) : (s.updRail k f).ops = s.ops := rfl
@[simp] theorem State.updRail_greqs (s : State) (k : Nat) (f : Rail → Rail) : (s.updRail k f).greqs = s.greqs := rfl
@[simp] theorem State.updRail_queues (s : State) (k : Nat) (f : Rail → Rail) : (s.updRail k f).queues = s.queues := rfl
@[simp] theorem State.updRail_slots (s : State) (k : Nat) (f : Rail → Rail) : (s.updRail k f).slots = s.slots := rfl
@[simp] theorem State.updRail_lds (s : State) (k : Nat) (f : Rail → Rail) : (s.updRail k f).lds = s.lds := rfl
@[simp] theorem State.updRail_ports (s : State) (k : Nat) (f : Rail → Rail) : (s.updRail k f).ports = s.ports := rfl
@[simp] theorem State.updRail_tiermap (s : State) (k : Nat) (f : Rail → Rail) : (s.updRail k f).tiermap = s.tiermap := rfl
@[simp] theorem State.updRail_rails (s : State) (k : Nat) (f : Rail → Rail) : (s.updRail k f).rails = s.rails.set Rail.reset k (f (s.rail k)) := rfl
@[simp] theorem State.updRail_dev (s : State) (k : Nat) (f : Rail → Rail) : (s.updRail k f).dev = s.dev := rfl
@[simp] theorem State.updRail_canops (s : State) (k : Nat) (f : Rail → Rail) : (s.updRail k f).canops = s.canops := rfl
@[simp] theorem State.updRail_redparts (s : State) (k : Nat) (f : Rail → Rail) : (s.updRail k f).redparts = s.redparts := rfl
@[simp] theorem State.updRail_owned (s : State) (k : Nat) (f : Rail → Rail) : (s.updRail k f).owned = s.owned := rfl
@[simp] theorem State.updRail_time (s : State) (k : Nat) (f : Rail → Rail) : (s.updRail k f).time = s.time := rfl
@[simp] theorem State.updRail_refill (s : State) (k : Nat) (f : Rail → Rail) : (s.updRail k f).refill = s.refill := rfl
@[simp] theorem State.updRail_stamped (s : State) (k : Nat) (f : Rail → Rail) : (s.updRail k f).stamped = s.stamped := rfl
@[simp] theorem State.updRail_agenda (s : State) (k : Nat) (f : Rail → Rail) : (s.updRail k f).agenda = s.agenda := rfl
@[simp] theorem State.updRail_cur (s : State) (k : Nat) (f : Rail → Rail) : (s.updRail k f).cur = s.cur := rfl
@[simp] theorem State.updRail_fresh (s : State) (k : Nat) (f : Rail → Rail) : (s.updRail k f).fresh = s.fresh := rfl
@[simp] theorem State.updRail_nextOp (s : State) (k : Nat) (f : Rail → Rail) : (s.updRail k f).nextOp = s.nextOp := rfl
@[simp] theorem State.updRail_nextTeam (s : State) (k : Nat) (f : Rail → Rail) : (s.updRail k f).nextTeam = s.nextTeam := rfl
@[simp] theorem State.updRail_nextEnt (s : State) (k : Nat) (f : Rail → Rail) : (s.updRail k f).nextEnt = s.nextEnt := rfl
@[simp] theorem State.updRail_stamp (s : State) (k : Nat) (f : Rail → Rail) : (s.updRail k f).stamp = s.stamp := rfl
@[simp] theorem State.updRail_keyDraws (s : State) (k : Nat) (f : Rail → Rail) : (s.updRail k f).keyDraws = s.keyDraws := rfl

@[simp] theorem State.updOp_threads (s : State) (k : Nat) (f : Op → Op) : (s.updOp k f).threads = s.threads := rfl
@[simp] theorem State.updOp_teams (s : State) (k : Nat) (f : Op → Op) : (s.updOp k f).teams = s.teams := rfl
@[simp] theorem State.updOp_grids (s : State) (k : Nat) (f : Op → Op) : (s.updOp k f).grids = s.grids := rfl
@[simp] theorem State.updOp_cores (s : State) (k : Nat) (f : Op → Op) : (s.updOp k f).cores = s.cores := rfl
@[simp] theorem State.updOp_groves (s : State) (k : Nat) (f : Op → Op) : (s.updOp k f).groves = s.groves := rfl
@[simp] theorem State.updOp_ments (s : State) (k : Nat) (f : Op → Op) : (s.updOp k f).ments = s.ments := rfl
@[simp] theorem State.updOp_parts (s : State) (k : Nat) (f : Op → Op) : (s.updOp k f).parts = s.parts := rfl
@[simp] theorem State.updOp_mem (s : State) (k : Nat) (f : Op → Op) : (s.updOp k f).mem = s.mem := rfl
@[simp] theorem State.updOp_keyTags (s : State) (k : Nat) (f : Op → Op) : (s.updOp k f).keyTags = s.keyTags := rfl
@[simp] theorem State.updOp_bad (s : State) (k : Nat) (f : Op → Op) : (s.updOp k f).bad = s.bad := rfl
@[simp] theorem State.updOp_sizes (s : State) (k : Nat) (f : Op → Op) : (s.updOp k f).sizes = s.sizes := rfl
@[simp] theorem State.updOp_l2 (s : State) (k : Nat) (f : Op → Op) : (s.updOp k f).l2 = s.l2 := rfl
@[simp] theorem State.updOp_l1 (s : State) (k : Nat) (f : Op → Op) : (s.updOp k f).l1 = s.l1 := rfl
@[simp] theorem State.updOp_icache (s : State) (k : Nat) (f : Op → Op) : (s.updOp k f).icache = s.icache := rfl
@[simp] theorem State.updOp_scr (s : State) (k : Nat) (f : Op → Op) : (s.updOp k f).scr = s.scr := rfl
@[simp] theorem State.updOp_host (s : State) (k : Nat) (f : Op → Op) : (s.updOp k f).host = s.host := rfl
@[simp] theorem State.updOp_tlb (s : State) (k : Nat) (f : Op → Op) : (s.updOp k f).tlb = s.tlb := rfl
@[simp] theorem State.updOp_atc (s : State) (k : Nat) (f : Op → Op) : (s.updOp k f).atc = s.atc := rfl
@[simp] theorem State.updOp_xreqs (s : State) (k : Nat) (f : Op → Op) : (s.updOp k f).xreqs = s.xreqs := rfl
@[simp] theorem State.updOp_xans (s : State) (k : Nat) (f : Op → Op) : (s.updOp k f).xans = s.xans := rfl
@[simp] theorem State.updOp_late (s : State) (k : Nat) (f : Op → Op) : (s.updOp k f).late = s.late := rfl
@[simp] theorem State.updOp_deps (s : State) (k : Nat) (f : Op → Op) : (s.updOp k f).deps = s.deps := rfl
@[simp] theorem State.updOp_heat (s : State) (k : Nat) (f : Op → Op) : (s.updOp k f).heat = s.heat := rfl
@[simp] theorem State.updOp_ops (s : State) (k : Nat) (f : Op → Op) : (s.updOp k f).ops = s.ops.map (fun o => if o.id == k then f o else o) := rfl
@[simp] theorem State.updOp_greqs (s : State) (k : Nat) (f : Op → Op) : (s.updOp k f).greqs = s.greqs := rfl
@[simp] theorem State.updOp_queues (s : State) (k : Nat) (f : Op → Op) : (s.updOp k f).queues = s.queues := rfl
@[simp] theorem State.updOp_slots (s : State) (k : Nat) (f : Op → Op) : (s.updOp k f).slots = s.slots := rfl
@[simp] theorem State.updOp_lds (s : State) (k : Nat) (f : Op → Op) : (s.updOp k f).lds = s.lds := rfl
@[simp] theorem State.updOp_ports (s : State) (k : Nat) (f : Op → Op) : (s.updOp k f).ports = s.ports := rfl
@[simp] theorem State.updOp_tiermap (s : State) (k : Nat) (f : Op → Op) : (s.updOp k f).tiermap = s.tiermap := rfl
@[simp] theorem State.updOp_rails (s : State) (k : Nat) (f : Op → Op) : (s.updOp k f).rails = s.rails := rfl
@[simp] theorem State.updOp_dev (s : State) (k : Nat) (f : Op → Op) : (s.updOp k f).dev = s.dev := rfl
@[simp] theorem State.updOp_canops (s : State) (k : Nat) (f : Op → Op) : (s.updOp k f).canops = s.canops := rfl
@[simp] theorem State.updOp_redparts (s : State) (k : Nat) (f : Op → Op) : (s.updOp k f).redparts = s.redparts := rfl
@[simp] theorem State.updOp_owned (s : State) (k : Nat) (f : Op → Op) : (s.updOp k f).owned = s.owned := rfl
@[simp] theorem State.updOp_time (s : State) (k : Nat) (f : Op → Op) : (s.updOp k f).time = s.time := rfl
@[simp] theorem State.updOp_refill (s : State) (k : Nat) (f : Op → Op) : (s.updOp k f).refill = s.refill := rfl
@[simp] theorem State.updOp_stamped (s : State) (k : Nat) (f : Op → Op) : (s.updOp k f).stamped = s.stamped := rfl
@[simp] theorem State.updOp_agenda (s : State) (k : Nat) (f : Op → Op) : (s.updOp k f).agenda = s.agenda := rfl
@[simp] theorem State.updOp_cur (s : State) (k : Nat) (f : Op → Op) : (s.updOp k f).cur = s.cur := rfl
@[simp] theorem State.updOp_fresh (s : State) (k : Nat) (f : Op → Op) : (s.updOp k f).fresh = s.fresh := rfl
@[simp] theorem State.updOp_nextOp (s : State) (k : Nat) (f : Op → Op) : (s.updOp k f).nextOp = s.nextOp := rfl
@[simp] theorem State.updOp_nextTeam (s : State) (k : Nat) (f : Op → Op) : (s.updOp k f).nextTeam = s.nextTeam := rfl
@[simp] theorem State.updOp_nextEnt (s : State) (k : Nat) (f : Op → Op) : (s.updOp k f).nextEnt = s.nextEnt := rfl
@[simp] theorem State.updOp_stamp (s : State) (k : Nat) (f : Op → Op) : (s.updOp k f).stamp = s.stamp := rfl
@[simp] theorem State.updOp_keyDraws (s : State) (k : Nat) (f : Op → Op) : (s.updOp k f).keyDraws = s.keyDraws := rfl

@[simp] theorem State.dropOp_threads (s : State) (k : Nat) : (s.dropOp k).threads = s.threads := rfl
@[simp] theorem State.dropOp_teams (s : State) (k : Nat) : (s.dropOp k).teams = s.teams := rfl
@[simp] theorem State.dropOp_grids (s : State) (k : Nat) : (s.dropOp k).grids = s.grids := rfl
@[simp] theorem State.dropOp_cores (s : State) (k : Nat) : (s.dropOp k).cores = s.cores := rfl
@[simp] theorem State.dropOp_groves (s : State) (k : Nat) : (s.dropOp k).groves = s.groves := rfl
@[simp] theorem State.dropOp_ments (s : State) (k : Nat) : (s.dropOp k).ments = s.ments := rfl
@[simp] theorem State.dropOp_parts (s : State) (k : Nat) : (s.dropOp k).parts = s.parts := rfl
@[simp] theorem State.dropOp_mem (s : State) (k : Nat) : (s.dropOp k).mem = s.mem := rfl
@[simp] theorem State.dropOp_keyTags (s : State) (k : Nat) : (s.dropOp k).keyTags = s.keyTags := rfl
@[simp] theorem State.dropOp_bad (s : State) (k : Nat) : (s.dropOp k).bad = s.bad := rfl
@[simp] theorem State.dropOp_sizes (s : State) (k : Nat) : (s.dropOp k).sizes = s.sizes := rfl
@[simp] theorem State.dropOp_l2 (s : State) (k : Nat) : (s.dropOp k).l2 = s.l2 := rfl
@[simp] theorem State.dropOp_l1 (s : State) (k : Nat) : (s.dropOp k).l1 = s.l1 := rfl
@[simp] theorem State.dropOp_icache (s : State) (k : Nat) : (s.dropOp k).icache = s.icache := rfl
@[simp] theorem State.dropOp_scr (s : State) (k : Nat) : (s.dropOp k).scr = s.scr := rfl
@[simp] theorem State.dropOp_host (s : State) (k : Nat) : (s.dropOp k).host = s.host := rfl
@[simp] theorem State.dropOp_tlb (s : State) (k : Nat) : (s.dropOp k).tlb = s.tlb := rfl
@[simp] theorem State.dropOp_atc (s : State) (k : Nat) : (s.dropOp k).atc = s.atc := rfl
@[simp] theorem State.dropOp_xreqs (s : State) (k : Nat) : (s.dropOp k).xreqs = s.xreqs := rfl
@[simp] theorem State.dropOp_xans (s : State) (k : Nat) : (s.dropOp k).xans = s.xans := rfl
@[simp] theorem State.dropOp_late (s : State) (k : Nat) : (s.dropOp k).late = s.late := rfl
@[simp] theorem State.dropOp_deps (s : State) (k : Nat) : (s.dropOp k).deps = s.deps := rfl
@[simp] theorem State.dropOp_heat (s : State) (k : Nat) : (s.dropOp k).heat = s.heat := rfl
@[simp] theorem State.dropOp_ops (s : State) (k : Nat) : (s.dropOp k).ops = s.ops.filter (fun o => o.id != k) := rfl
@[simp] theorem State.dropOp_greqs (s : State) (k : Nat) : (s.dropOp k).greqs = s.greqs := rfl
@[simp] theorem State.dropOp_queues (s : State) (k : Nat) : (s.dropOp k).queues = s.queues := rfl
@[simp] theorem State.dropOp_slots (s : State) (k : Nat) : (s.dropOp k).slots = s.slots := rfl
@[simp] theorem State.dropOp_lds (s : State) (k : Nat) : (s.dropOp k).lds = s.lds := rfl
@[simp] theorem State.dropOp_ports (s : State) (k : Nat) : (s.dropOp k).ports = s.ports := rfl
@[simp] theorem State.dropOp_tiermap (s : State) (k : Nat) : (s.dropOp k).tiermap = s.tiermap := rfl
@[simp] theorem State.dropOp_rails (s : State) (k : Nat) : (s.dropOp k).rails = s.rails := rfl
@[simp] theorem State.dropOp_dev (s : State) (k : Nat) : (s.dropOp k).dev = s.dev := rfl
@[simp] theorem State.dropOp_canops (s : State) (k : Nat) : (s.dropOp k).canops = s.canops := rfl
@[simp] theorem State.dropOp_redparts (s : State) (k : Nat) : (s.dropOp k).redparts = s.redparts := rfl
@[simp] theorem State.dropOp_owned (s : State) (k : Nat) : (s.dropOp k).owned = s.owned := rfl
@[simp] theorem State.dropOp_time (s : State) (k : Nat) : (s.dropOp k).time = s.time := rfl
@[simp] theorem State.dropOp_refill (s : State) (k : Nat) : (s.dropOp k).refill = s.refill := rfl
@[simp] theorem State.dropOp_stamped (s : State) (k : Nat) : (s.dropOp k).stamped = s.stamped := rfl
@[simp] theorem State.dropOp_agenda (s : State) (k : Nat) : (s.dropOp k).agenda = s.agenda := rfl
@[simp] theorem State.dropOp_cur (s : State) (k : Nat) : (s.dropOp k).cur = s.cur := rfl
@[simp] theorem State.dropOp_fresh (s : State) (k : Nat) : (s.dropOp k).fresh = s.fresh := rfl
@[simp] theorem State.dropOp_nextOp (s : State) (k : Nat) : (s.dropOp k).nextOp = s.nextOp := rfl
@[simp] theorem State.dropOp_nextTeam (s : State) (k : Nat) : (s.dropOp k).nextTeam = s.nextTeam := rfl
@[simp] theorem State.dropOp_nextEnt (s : State) (k : Nat) : (s.dropOp k).nextEnt = s.nextEnt := rfl
@[simp] theorem State.dropOp_stamp (s : State) (k : Nat) : (s.dropOp k).stamp = s.stamp := rfl
@[simp] theorem State.dropOp_keyDraws (s : State) (k : Nat) : (s.dropOp k).keyDraws = s.keyDraws := rfl

@[simp] theorem State.takeFresh_threads (s : State) (k : Nat) : (s.takeFresh k).threads = s.threads := rfl
@[simp] theorem State.takeFresh_teams (s : State) (k : Nat) : (s.takeFresh k).teams = s.teams := rfl
@[simp] theorem State.takeFresh_grids (s : State) (k : Nat) : (s.takeFresh k).grids = s.grids := rfl
@[simp] theorem State.takeFresh_cores (s : State) (k : Nat) : (s.takeFresh k).cores = s.cores := rfl
@[simp] theorem State.takeFresh_groves (s : State) (k : Nat) : (s.takeFresh k).groves = s.groves := rfl
@[simp] theorem State.takeFresh_ments (s : State) (k : Nat) : (s.takeFresh k).ments = s.ments := rfl
@[simp] theorem State.takeFresh_parts (s : State) (k : Nat) : (s.takeFresh k).parts = s.parts := rfl
@[simp] theorem State.takeFresh_mem (s : State) (k : Nat) : (s.takeFresh k).mem = s.mem := rfl
@[simp] theorem State.takeFresh_keyTags (s : State) (k : Nat) : (s.takeFresh k).keyTags = s.keyTags := rfl
@[simp] theorem State.takeFresh_bad (s : State) (k : Nat) : (s.takeFresh k).bad = s.bad := rfl
@[simp] theorem State.takeFresh_sizes (s : State) (k : Nat) : (s.takeFresh k).sizes = s.sizes := rfl
@[simp] theorem State.takeFresh_l2 (s : State) (k : Nat) : (s.takeFresh k).l2 = s.l2 := rfl
@[simp] theorem State.takeFresh_l1 (s : State) (k : Nat) : (s.takeFresh k).l1 = s.l1 := rfl
@[simp] theorem State.takeFresh_icache (s : State) (k : Nat) : (s.takeFresh k).icache = s.icache := rfl
@[simp] theorem State.takeFresh_scr (s : State) (k : Nat) : (s.takeFresh k).scr = s.scr := rfl
@[simp] theorem State.takeFresh_host (s : State) (k : Nat) : (s.takeFresh k).host = s.host := rfl
@[simp] theorem State.takeFresh_tlb (s : State) (k : Nat) : (s.takeFresh k).tlb = s.tlb := rfl
@[simp] theorem State.takeFresh_atc (s : State) (k : Nat) : (s.takeFresh k).atc = s.atc := rfl
@[simp] theorem State.takeFresh_xreqs (s : State) (k : Nat) : (s.takeFresh k).xreqs = s.xreqs := rfl
@[simp] theorem State.takeFresh_xans (s : State) (k : Nat) : (s.takeFresh k).xans = s.xans := rfl
@[simp] theorem State.takeFresh_late (s : State) (k : Nat) : (s.takeFresh k).late = s.late := rfl
@[simp] theorem State.takeFresh_deps (s : State) (k : Nat) : (s.takeFresh k).deps = s.deps := rfl
@[simp] theorem State.takeFresh_heat (s : State) (k : Nat) : (s.takeFresh k).heat = s.heat := rfl
@[simp] theorem State.takeFresh_ops (s : State) (k : Nat) : (s.takeFresh k).ops = s.ops := rfl
@[simp] theorem State.takeFresh_greqs (s : State) (k : Nat) : (s.takeFresh k).greqs = s.greqs := rfl
@[simp] theorem State.takeFresh_queues (s : State) (k : Nat) : (s.takeFresh k).queues = s.queues := rfl
@[simp] theorem State.takeFresh_slots (s : State) (k : Nat) : (s.takeFresh k).slots = s.slots := rfl
@[simp] theorem State.takeFresh_lds (s : State) (k : Nat) : (s.takeFresh k).lds = s.lds := rfl
@[simp] theorem State.takeFresh_ports (s : State) (k : Nat) : (s.takeFresh k).ports = s.ports := rfl
@[simp] theorem State.takeFresh_tiermap (s : State) (k : Nat) : (s.takeFresh k).tiermap = s.tiermap := rfl
@[simp] theorem State.takeFresh_rails (s : State) (k : Nat) : (s.takeFresh k).rails = s.rails := rfl
@[simp] theorem State.takeFresh_dev (s : State) (k : Nat) : (s.takeFresh k).dev = s.dev := rfl
@[simp] theorem State.takeFresh_canops (s : State) (k : Nat) : (s.takeFresh k).canops = s.canops := rfl
@[simp] theorem State.takeFresh_redparts (s : State) (k : Nat) : (s.takeFresh k).redparts = s.redparts := rfl
@[simp] theorem State.takeFresh_owned (s : State) (k : Nat) : (s.takeFresh k).owned = s.owned := rfl
@[simp] theorem State.takeFresh_time (s : State) (k : Nat) : (s.takeFresh k).time = s.time := rfl
@[simp] theorem State.takeFresh_refill (s : State) (k : Nat) : (s.takeFresh k).refill = s.refill := rfl
@[simp] theorem State.takeFresh_stamped (s : State) (k : Nat) : (s.takeFresh k).stamped = s.stamped := rfl
@[simp] theorem State.takeFresh_agenda (s : State) (k : Nat) : (s.takeFresh k).agenda = s.agenda := rfl
@[simp] theorem State.takeFresh_cur (s : State) (k : Nat) : (s.takeFresh k).cur = s.cur := rfl
@[simp] theorem State.takeFresh_fresh (s : State) (k : Nat) : (s.takeFresh k).fresh = s.fresh + k := rfl
@[simp] theorem State.takeFresh_nextOp (s : State) (k : Nat) : (s.takeFresh k).nextOp = s.nextOp := rfl
@[simp] theorem State.takeFresh_nextTeam (s : State) (k : Nat) : (s.takeFresh k).nextTeam = s.nextTeam := rfl
@[simp] theorem State.takeFresh_nextEnt (s : State) (k : Nat) : (s.takeFresh k).nextEnt = s.nextEnt := rfl
@[simp] theorem State.takeFresh_stamp (s : State) (k : Nat) : (s.takeFresh k).stamp = s.stamp := rfl
@[simp] theorem State.takeFresh_keyDraws (s : State) (k : Nat) : (s.takeFresh k).keyDraws = s.keyDraws := rfl

/-! ### A thread -/

@[simp] theorem Thread.setPc_st (t : Thread) (v : DWord) : (t.setPc v).st = t.st := rfl
@[simp] theorem Thread.setPc_team (t : Thread) (v : DWord) : (t.setPc v).team = t.team := rfl
@[simp] theorem Thread.setPc_lane (t : Thread) (v : DWord) : (t.setPc v).lane = t.lane := rfl
@[simp] theorem Thread.setPc_plane (t : Thread) (v : DWord) : (t.setPc v).plane = t.plane := rfl
@[simp] theorem Thread.setPc_tsize (t : Thread) (v : DWord) : (t.setPc v).tsize = t.tsize := rfl
@[simp] theorem Thread.setPc_tcret (t : Thread) (v : DWord) : (t.setPc v).tcret = t.tcret := rfl
@[simp] theorem Thread.setPc_ctx (t : Thread) (v : DWord) : (t.setPc v).ctx = t.ctx := rfl
@[simp] theorem Thread.setPc_pushed (t : Thread) (v : DWord) : (t.setPc v).pushed = t.pushed := rfl
@[simp] theorem Thread.setPc_g (t : Thread) (v : DWord) : (t.setPc v).g = t.g := rfl
@[simp] theorem Thread.setPc_o (t : Thread) (v : DWord) : (t.setPc v).o = t.o := rfl
@[simp] theorem Thread.setPc_lat (t : Thread) (v : DWord) : (t.setPc v).lat = t.lat := rfl
@[simp] theorem Thread.setPc_preds (t : Thread) (v : DWord) : (t.setPc v).preds = t.preds := rfl
@[simp] theorem Thread.setPc_lk (t : Thread) (v : DWord) : (t.setPc v).lk = t.lk := rfl
@[simp] theorem Thread.setPc_pcw (t : Thread) (v : DWord) : (t.setPc v).pcw = pcOf v := rfl
@[simp] theorem Thread.setPc_fflags (t : Thread) (v : DWord) : (t.setPc v).fflags = t.fflags := rfl
@[simp] theorem Thread.setPc_step (t : Thread) (v : DWord) : (t.setPc v).step = t.step := rfl
@[simp] theorem Thread.setPc_ylevel (t : Thread) (v : DWord) : (t.setPc v).ylevel = t.ylevel := rfl
@[simp] theorem Thread.setPc_landing (t : Thread) (v : DWord) : (t.setPc v).landing = t.landing := rfl
@[simp] theorem Thread.setPc_cnt (t : Thread) (v : DWord) : (t.setPc v).cnt = t.cnt := rfl
@[simp] theorem Thread.setPc_pend (t : Thread) (v : DWord) : (t.setPc v).pend = t.pend := rfl
@[simp] theorem Thread.setPc_fmark (t : Thread) (v : DWord) : (t.setPc v).fmark = t.fmark := rfl
@[simp] theorem Thread.setPc_defers (t : Thread) (v : DWord) : (t.setPc v).defers = t.defers := rfl
@[simp] theorem Thread.setPc_poll (t : Thread) (v : DWord) : (t.setPc v).poll = t.poll := rfl
@[simp] theorem Thread.setPc_qseq (t : Thread) (v : DWord) : (t.setPc v).qseq = t.qseq := rfl
@[simp] theorem Thread.setPc_bwait (t : Thread) (v : DWord) : (t.setPc v).bwait = t.bwait := rfl
@[simp] theorem Thread.setPc_yieldUntil (t : Thread) (v : DWord) : (t.setPc v).yieldUntil = t.yieldUntil := rfl
@[simp] theorem Thread.setPc_pollUntil (t : Thread) (v : DWord) : (t.setPc v).pollUntil = t.pollUntil := rfl
@[simp] theorem Thread.setPc_retry (t : Thread) (v : DWord) : (t.setPc v).retry = t.retry := rfl
@[simp] theorem Thread.setPc_rejoinSince (t : Thread) (v : DWord) : (t.setPc v).rejoinSince = t.rejoinSince := rfl
@[simp] theorem Thread.setPc_rejoinDone (t : Thread) (v : DWord) : (t.setPc v).rejoinDone = t.rejoinDone := rfl
@[simp] theorem Thread.setPc_park (t : Thread) (v : DWord) : (t.setPc v).park = t.park := rfl
@[simp] theorem Thread.setPc_due (t : Thread) (v : DWord) : (t.setPc v).due = t.due := rfl
@[simp] theorem Thread.setPc_cycOff (t : Thread) (v : DWord) : (t.setPc v).cycOff = t.cycOff := rfl
@[simp] theorem Thread.setPc_hold (t : Thread) (v : DWord) : (t.setPc v).hold = t.hold := rfl
@[simp] theorem Thread.setPc_fRel (t : Thread) (v : DWord) : (t.setPc v).fRel = t.fRel := rfl
@[simp] theorem Thread.setPc_fAcq (t : Thread) (v : DWord) : (t.setPc v).fAcq = t.fAcq := rfl
@[simp] theorem Thread.setPc_fAr (t : Thread) (v : DWord) : (t.setPc v).fAr = t.fAr := rfl
@[simp] theorem Thread.setPc_renew (t : Thread) (v : DWord) : (t.setPc v).renew = t.renew := rfl
@[simp] theorem Thread.setPc_relCore (t : Thread) (v : DWord) : (t.setPc v).relCore = t.relCore := rfl
@[simp] theorem Thread.setPc_relGrove (t : Thread) (v : DWord) : (t.setPc v).relGrove = t.relGrove := rfl
@[simp] theorem Thread.setPc_relDev (t : Thread) (v : DWord) : (t.setPc v).relDev = t.relDev := rfl
@[simp] theorem Thread.setPc_early (t : Thread) (v : DWord) : (t.setPc v).early = t.early := rfl
@[simp] theorem Thread.setPc_earlyTl (t : Thread) (v : DWord) : (t.setPc v).earlyTl = t.earlyTl := rfl
@[simp] theorem Thread.setPc_acqStamp (t : Thread) (v : DWord) : (t.setPc v).acqStamp = t.acqStamp := rfl
@[simp] theorem Thread.setPc_tlStamp (t : Thread) (v : DWord) : (t.setPc v).tlStamp = t.tlStamp := rfl
@[simp] theorem Thread.setPc_wins (t : Thread) (v : DWord) : (t.setPc v).wins = t.wins := rfl
@[simp] theorem Thread.setPc_olds (t : Thread) (v : DWord) : (t.setPc v).olds = t.olds := rfl
@[simp] theorem Thread.setPc_age (t : Thread) (v : DWord) : (t.setPc v).age = t.age := rfl

@[simp] theorem Thread.next_st (t : Thread) : (t.next).st = t.st := rfl
@[simp] theorem Thread.next_team (t : Thread) : (t.next).team = t.team := rfl
@[simp] theorem Thread.next_lane (t : Thread) : (t.next).lane = t.lane := rfl
@[simp] theorem Thread.next_plane (t : Thread) : (t.next).plane = t.plane := rfl
@[simp] theorem Thread.next_tsize (t : Thread) : (t.next).tsize = t.tsize := rfl
@[simp] theorem Thread.next_tcret (t : Thread) : (t.next).tcret = t.tcret := rfl
@[simp] theorem Thread.next_ctx (t : Thread) : (t.next).ctx = t.ctx := rfl
@[simp] theorem Thread.next_pushed (t : Thread) : (t.next).pushed = t.pushed := rfl
@[simp] theorem Thread.next_g (t : Thread) : (t.next).g = t.g := rfl
@[simp] theorem Thread.next_o (t : Thread) : (t.next).o = t.o := rfl
@[simp] theorem Thread.next_lat (t : Thread) : (t.next).lat = t.lat := rfl
@[simp] theorem Thread.next_preds (t : Thread) : (t.next).preds = t.preds := rfl
@[simp] theorem Thread.next_lk (t : Thread) : (t.next).lk = t.lk := rfl
@[simp] theorem Thread.next_pcw (t : Thread) : (t.next).pcw = t.pcw + 1 := rfl
@[simp] theorem Thread.next_fflags (t : Thread) : (t.next).fflags = t.fflags := rfl
@[simp] theorem Thread.next_step (t : Thread) : (t.next).step = t.step := rfl
@[simp] theorem Thread.next_ylevel (t : Thread) : (t.next).ylevel = t.ylevel := rfl
@[simp] theorem Thread.next_landing (t : Thread) : (t.next).landing = t.landing := rfl
@[simp] theorem Thread.next_cnt (t : Thread) : (t.next).cnt = t.cnt := rfl
@[simp] theorem Thread.next_pend (t : Thread) : (t.next).pend = t.pend := rfl
@[simp] theorem Thread.next_fmark (t : Thread) : (t.next).fmark = t.fmark := rfl
@[simp] theorem Thread.next_defers (t : Thread) : (t.next).defers = t.defers := rfl
@[simp] theorem Thread.next_poll (t : Thread) : (t.next).poll = t.poll := rfl
@[simp] theorem Thread.next_qseq (t : Thread) : (t.next).qseq = t.qseq := rfl
@[simp] theorem Thread.next_bwait (t : Thread) : (t.next).bwait = t.bwait := rfl
@[simp] theorem Thread.next_yieldUntil (t : Thread) : (t.next).yieldUntil = t.yieldUntil := rfl
@[simp] theorem Thread.next_pollUntil (t : Thread) : (t.next).pollUntil = t.pollUntil := rfl
@[simp] theorem Thread.next_retry (t : Thread) : (t.next).retry = t.retry := rfl
@[simp] theorem Thread.next_rejoinSince (t : Thread) : (t.next).rejoinSince = t.rejoinSince := rfl
@[simp] theorem Thread.next_rejoinDone (t : Thread) : (t.next).rejoinDone = t.rejoinDone := rfl
@[simp] theorem Thread.next_park (t : Thread) : (t.next).park = t.park := rfl
@[simp] theorem Thread.next_due (t : Thread) : (t.next).due = t.due := rfl
@[simp] theorem Thread.next_cycOff (t : Thread) : (t.next).cycOff = t.cycOff := rfl
@[simp] theorem Thread.next_hold (t : Thread) : (t.next).hold = t.hold := rfl
@[simp] theorem Thread.next_fRel (t : Thread) : (t.next).fRel = t.fRel := rfl
@[simp] theorem Thread.next_fAcq (t : Thread) : (t.next).fAcq = t.fAcq := rfl
@[simp] theorem Thread.next_fAr (t : Thread) : (t.next).fAr = t.fAr := rfl
@[simp] theorem Thread.next_renew (t : Thread) : (t.next).renew = t.renew := rfl
@[simp] theorem Thread.next_relCore (t : Thread) : (t.next).relCore = t.relCore := rfl
@[simp] theorem Thread.next_relGrove (t : Thread) : (t.next).relGrove = t.relGrove := rfl
@[simp] theorem Thread.next_relDev (t : Thread) : (t.next).relDev = t.relDev := rfl
@[simp] theorem Thread.next_early (t : Thread) : (t.next).early = t.early := rfl
@[simp] theorem Thread.next_earlyTl (t : Thread) : (t.next).earlyTl = t.earlyTl := rfl
@[simp] theorem Thread.next_acqStamp (t : Thread) : (t.next).acqStamp = t.acqStamp := rfl
@[simp] theorem Thread.next_tlStamp (t : Thread) : (t.next).tlStamp = t.tlStamp := rfl
@[simp] theorem Thread.next_wins (t : Thread) : (t.next).wins = t.wins := rfl
@[simp] theorem Thread.next_olds (t : Thread) : (t.next).olds = t.olds := rfl
@[simp] theorem Thread.next_age (t : Thread) : (t.next).age = t.age := rfl

@[simp] theorem Thread.setO_st (t : Thread) (i : Nat) (v : DWord) : (t.setO i v).st = t.st := rfl
@[simp] theorem Thread.setO_team (t : Thread) (i : Nat) (v : DWord) : (t.setO i v).team = t.team := rfl
@[simp] theorem Thread.setO_lane (t : Thread) (i : Nat) (v : DWord) : (t.setO i v).lane = t.lane := rfl
@[simp] theorem Thread.setO_plane (t : Thread) (i : Nat) (v : DWord) : (t.setO i v).plane = t.plane := rfl
@[simp] theorem Thread.setO_tsize (t : Thread) (i : Nat) (v : DWord) : (t.setO i v).tsize = t.tsize := rfl
@[simp] theorem Thread.setO_tcret (t : Thread) (i : Nat) (v : DWord) : (t.setO i v).tcret = t.tcret := rfl
@[simp] theorem Thread.setO_ctx (t : Thread) (i : Nat) (v : DWord) : (t.setO i v).ctx = t.ctx := rfl
@[simp] theorem Thread.setO_pushed (t : Thread) (i : Nat) (v : DWord) : (t.setO i v).pushed = t.pushed := rfl
@[simp] theorem Thread.setO_g (t : Thread) (i : Nat) (v : DWord) : (t.setO i v).g = t.g := rfl
@[simp] theorem Thread.setO_o (t : Thread) (i : Nat) (v : DWord) : (t.setO i v).o = t.o.set 0 i v := rfl
@[simp] theorem Thread.setO_lat (t : Thread) (i : Nat) (v : DWord) : (t.setO i v).lat = t.lat := rfl
@[simp] theorem Thread.setO_preds (t : Thread) (i : Nat) (v : DWord) : (t.setO i v).preds = t.preds := rfl
@[simp] theorem Thread.setO_lk (t : Thread) (i : Nat) (v : DWord) : (t.setO i v).lk = t.lk := rfl
@[simp] theorem Thread.setO_pcw (t : Thread) (i : Nat) (v : DWord) : (t.setO i v).pcw = t.pcw := rfl
@[simp] theorem Thread.setO_fflags (t : Thread) (i : Nat) (v : DWord) : (t.setO i v).fflags = t.fflags := rfl
@[simp] theorem Thread.setO_step (t : Thread) (i : Nat) (v : DWord) : (t.setO i v).step = t.step := rfl
@[simp] theorem Thread.setO_ylevel (t : Thread) (i : Nat) (v : DWord) : (t.setO i v).ylevel = t.ylevel := rfl
@[simp] theorem Thread.setO_landing (t : Thread) (i : Nat) (v : DWord) : (t.setO i v).landing = t.landing := rfl
@[simp] theorem Thread.setO_cnt (t : Thread) (i : Nat) (v : DWord) : (t.setO i v).cnt = t.cnt := rfl
@[simp] theorem Thread.setO_pend (t : Thread) (i : Nat) (v : DWord) : (t.setO i v).pend = t.pend := rfl
@[simp] theorem Thread.setO_fmark (t : Thread) (i : Nat) (v : DWord) : (t.setO i v).fmark = t.fmark := rfl
@[simp] theorem Thread.setO_defers (t : Thread) (i : Nat) (v : DWord) : (t.setO i v).defers = t.defers := rfl
@[simp] theorem Thread.setO_poll (t : Thread) (i : Nat) (v : DWord) : (t.setO i v).poll = t.poll := rfl
@[simp] theorem Thread.setO_qseq (t : Thread) (i : Nat) (v : DWord) : (t.setO i v).qseq = t.qseq := rfl
@[simp] theorem Thread.setO_bwait (t : Thread) (i : Nat) (v : DWord) : (t.setO i v).bwait = t.bwait := rfl
@[simp] theorem Thread.setO_yieldUntil (t : Thread) (i : Nat) (v : DWord) : (t.setO i v).yieldUntil = t.yieldUntil := rfl
@[simp] theorem Thread.setO_pollUntil (t : Thread) (i : Nat) (v : DWord) : (t.setO i v).pollUntil = t.pollUntil := rfl
@[simp] theorem Thread.setO_retry (t : Thread) (i : Nat) (v : DWord) : (t.setO i v).retry = t.retry := rfl
@[simp] theorem Thread.setO_rejoinSince (t : Thread) (i : Nat) (v : DWord) : (t.setO i v).rejoinSince = t.rejoinSince := rfl
@[simp] theorem Thread.setO_rejoinDone (t : Thread) (i : Nat) (v : DWord) : (t.setO i v).rejoinDone = t.rejoinDone := rfl
@[simp] theorem Thread.setO_park (t : Thread) (i : Nat) (v : DWord) : (t.setO i v).park = t.park := rfl
@[simp] theorem Thread.setO_due (t : Thread) (i : Nat) (v : DWord) : (t.setO i v).due = t.due := rfl
@[simp] theorem Thread.setO_cycOff (t : Thread) (i : Nat) (v : DWord) : (t.setO i v).cycOff = t.cycOff := rfl
@[simp] theorem Thread.setO_hold (t : Thread) (i : Nat) (v : DWord) : (t.setO i v).hold = t.hold := rfl
@[simp] theorem Thread.setO_fRel (t : Thread) (i : Nat) (v : DWord) : (t.setO i v).fRel = t.fRel := rfl
@[simp] theorem Thread.setO_fAcq (t : Thread) (i : Nat) (v : DWord) : (t.setO i v).fAcq = t.fAcq := rfl
@[simp] theorem Thread.setO_fAr (t : Thread) (i : Nat) (v : DWord) : (t.setO i v).fAr = t.fAr := rfl
@[simp] theorem Thread.setO_renew (t : Thread) (i : Nat) (v : DWord) : (t.setO i v).renew = t.renew := rfl
@[simp] theorem Thread.setO_relCore (t : Thread) (i : Nat) (v : DWord) : (t.setO i v).relCore = t.relCore := rfl
@[simp] theorem Thread.setO_relGrove (t : Thread) (i : Nat) (v : DWord) : (t.setO i v).relGrove = t.relGrove := rfl
@[simp] theorem Thread.setO_relDev (t : Thread) (i : Nat) (v : DWord) : (t.setO i v).relDev = t.relDev := rfl
@[simp] theorem Thread.setO_early (t : Thread) (i : Nat) (v : DWord) : (t.setO i v).early = t.early := rfl
@[simp] theorem Thread.setO_earlyTl (t : Thread) (i : Nat) (v : DWord) : (t.setO i v).earlyTl = t.earlyTl := rfl
@[simp] theorem Thread.setO_acqStamp (t : Thread) (i : Nat) (v : DWord) : (t.setO i v).acqStamp = t.acqStamp := rfl
@[simp] theorem Thread.setO_tlStamp (t : Thread) (i : Nat) (v : DWord) : (t.setO i v).tlStamp = t.tlStamp := rfl
@[simp] theorem Thread.setO_wins (t : Thread) (i : Nat) (v : DWord) : (t.setO i v).wins = t.wins := rfl
@[simp] theorem Thread.setO_olds (t : Thread) (i : Nat) (v : DWord) : (t.setO i v).olds = t.olds := rfl
@[simp] theorem Thread.setO_age (t : Thread) (i : Nat) (v : DWord) : (t.setO i v).age = t.age := rfl

@[simp] theorem Thread.setLat_st (t : Thread) (v : DWord) : (t.setLat v).st = t.st := rfl
@[simp] theorem Thread.setLat_team (t : Thread) (v : DWord) : (t.setLat v).team = t.team := rfl
@[simp] theorem Thread.setLat_lane (t : Thread) (v : DWord) : (t.setLat v).lane = t.lane := rfl
@[simp] theorem Thread.setLat_plane (t : Thread) (v : DWord) : (t.setLat v).plane = t.plane := rfl
@[simp] theorem Thread.setLat_tsize (t : Thread) (v : DWord) : (t.setLat v).tsize = t.tsize := rfl
@[simp] theorem Thread.setLat_tcret (t : Thread) (v : DWord) : (t.setLat v).tcret = t.tcret := rfl
@[simp] theorem Thread.setLat_ctx (t : Thread) (v : DWord) : (t.setLat v).ctx = t.ctx := rfl
@[simp] theorem Thread.setLat_pushed (t : Thread) (v : DWord) : (t.setLat v).pushed = t.pushed := rfl
@[simp] theorem Thread.setLat_g (t : Thread) (v : DWord) : (t.setLat v).g = t.g := rfl
@[simp] theorem Thread.setLat_o (t : Thread) (v : DWord) : (t.setLat v).o = t.o := rfl
@[simp] theorem Thread.setLat_lat (t : Thread) (v : DWord) : (t.setLat v).lat = v := rfl
@[simp] theorem Thread.setLat_preds (t : Thread) (v : DWord) : (t.setLat v).preds = t.preds := rfl
@[simp] theorem Thread.setLat_lk (t : Thread) (v : DWord) : (t.setLat v).lk = t.lk := rfl
@[simp] theorem Thread.setLat_pcw (t : Thread) (v : DWord) : (t.setLat v).pcw = t.pcw := rfl
@[simp] theorem Thread.setLat_fflags (t : Thread) (v : DWord) : (t.setLat v).fflags = t.fflags := rfl
@[simp] theorem Thread.setLat_step (t : Thread) (v : DWord) : (t.setLat v).step = t.step := rfl
@[simp] theorem Thread.setLat_ylevel (t : Thread) (v : DWord) : (t.setLat v).ylevel = t.ylevel := rfl
@[simp] theorem Thread.setLat_landing (t : Thread) (v : DWord) : (t.setLat v).landing = t.landing := rfl
@[simp] theorem Thread.setLat_cnt (t : Thread) (v : DWord) : (t.setLat v).cnt = t.cnt := rfl
@[simp] theorem Thread.setLat_pend (t : Thread) (v : DWord) : (t.setLat v).pend = t.pend := rfl
@[simp] theorem Thread.setLat_fmark (t : Thread) (v : DWord) : (t.setLat v).fmark = t.fmark := rfl
@[simp] theorem Thread.setLat_defers (t : Thread) (v : DWord) : (t.setLat v).defers = t.defers := rfl
@[simp] theorem Thread.setLat_poll (t : Thread) (v : DWord) : (t.setLat v).poll = t.poll := rfl
@[simp] theorem Thread.setLat_qseq (t : Thread) (v : DWord) : (t.setLat v).qseq = t.qseq := rfl
@[simp] theorem Thread.setLat_bwait (t : Thread) (v : DWord) : (t.setLat v).bwait = t.bwait := rfl
@[simp] theorem Thread.setLat_yieldUntil (t : Thread) (v : DWord) : (t.setLat v).yieldUntil = t.yieldUntil := rfl
@[simp] theorem Thread.setLat_pollUntil (t : Thread) (v : DWord) : (t.setLat v).pollUntil = t.pollUntil := rfl
@[simp] theorem Thread.setLat_retry (t : Thread) (v : DWord) : (t.setLat v).retry = t.retry := rfl
@[simp] theorem Thread.setLat_rejoinSince (t : Thread) (v : DWord) : (t.setLat v).rejoinSince = t.rejoinSince := rfl
@[simp] theorem Thread.setLat_rejoinDone (t : Thread) (v : DWord) : (t.setLat v).rejoinDone = t.rejoinDone := rfl
@[simp] theorem Thread.setLat_park (t : Thread) (v : DWord) : (t.setLat v).park = t.park := rfl
@[simp] theorem Thread.setLat_due (t : Thread) (v : DWord) : (t.setLat v).due = t.due := rfl
@[simp] theorem Thread.setLat_cycOff (t : Thread) (v : DWord) : (t.setLat v).cycOff = t.cycOff := rfl
@[simp] theorem Thread.setLat_hold (t : Thread) (v : DWord) : (t.setLat v).hold = t.hold := rfl
@[simp] theorem Thread.setLat_fRel (t : Thread) (v : DWord) : (t.setLat v).fRel = t.fRel := rfl
@[simp] theorem Thread.setLat_fAcq (t : Thread) (v : DWord) : (t.setLat v).fAcq = t.fAcq := rfl
@[simp] theorem Thread.setLat_fAr (t : Thread) (v : DWord) : (t.setLat v).fAr = t.fAr := rfl
@[simp] theorem Thread.setLat_renew (t : Thread) (v : DWord) : (t.setLat v).renew = t.renew := rfl
@[simp] theorem Thread.setLat_relCore (t : Thread) (v : DWord) : (t.setLat v).relCore = t.relCore := rfl
@[simp] theorem Thread.setLat_relGrove (t : Thread) (v : DWord) : (t.setLat v).relGrove = t.relGrove := rfl
@[simp] theorem Thread.setLat_relDev (t : Thread) (v : DWord) : (t.setLat v).relDev = t.relDev := rfl
@[simp] theorem Thread.setLat_early (t : Thread) (v : DWord) : (t.setLat v).early = t.early := rfl
@[simp] theorem Thread.setLat_earlyTl (t : Thread) (v : DWord) : (t.setLat v).earlyTl = t.earlyTl := rfl
@[simp] theorem Thread.setLat_acqStamp (t : Thread) (v : DWord) : (t.setLat v).acqStamp = t.acqStamp := rfl
@[simp] theorem Thread.setLat_tlStamp (t : Thread) (v : DWord) : (t.setLat v).tlStamp = t.tlStamp := rfl
@[simp] theorem Thread.setLat_wins (t : Thread) (v : DWord) : (t.setLat v).wins = t.wins := rfl
@[simp] theorem Thread.setLat_olds (t : Thread) (v : DWord) : (t.setLat v).olds = t.olds := rfl
@[simp] theorem Thread.setLat_age (t : Thread) (v : DWord) : (t.setLat v).age = t.age := rfl

@[simp] theorem Thread.setPred_st (t : Thread) (p : PReg) (b : Bool) : (t.setPred p b).st = t.st := rfl
@[simp] theorem Thread.setPred_team (t : Thread) (p : PReg) (b : Bool) : (t.setPred p b).team = t.team := rfl
@[simp] theorem Thread.setPred_lane (t : Thread) (p : PReg) (b : Bool) : (t.setPred p b).lane = t.lane := rfl
@[simp] theorem Thread.setPred_plane (t : Thread) (p : PReg) (b : Bool) : (t.setPred p b).plane = t.plane := rfl
@[simp] theorem Thread.setPred_tsize (t : Thread) (p : PReg) (b : Bool) : (t.setPred p b).tsize = t.tsize := rfl
@[simp] theorem Thread.setPred_tcret (t : Thread) (p : PReg) (b : Bool) : (t.setPred p b).tcret = t.tcret := rfl
@[simp] theorem Thread.setPred_ctx (t : Thread) (p : PReg) (b : Bool) : (t.setPred p b).ctx = t.ctx := rfl
@[simp] theorem Thread.setPred_pushed (t : Thread) (p : PReg) (b : Bool) : (t.setPred p b).pushed = t.pushed := rfl
@[simp] theorem Thread.setPred_g (t : Thread) (p : PReg) (b : Bool) : (t.setPred p b).g = t.g := rfl
@[simp] theorem Thread.setPred_o (t : Thread) (p : PReg) (b : Bool) : (t.setPred p b).o = t.o := rfl
@[simp] theorem Thread.setPred_lat (t : Thread) (p : PReg) (b : Bool) : (t.setPred p b).lat = t.lat := rfl
@[simp] theorem Thread.setPred_lk (t : Thread) (p : PReg) (b : Bool) : (t.setPred p b).lk = t.lk := rfl
@[simp] theorem Thread.setPred_pcw (t : Thread) (p : PReg) (b : Bool) : (t.setPred p b).pcw = t.pcw := rfl
@[simp] theorem Thread.setPred_fflags (t : Thread) (p : PReg) (b : Bool) : (t.setPred p b).fflags = t.fflags := rfl
@[simp] theorem Thread.setPred_step (t : Thread) (p : PReg) (b : Bool) : (t.setPred p b).step = t.step := rfl
@[simp] theorem Thread.setPred_ylevel (t : Thread) (p : PReg) (b : Bool) : (t.setPred p b).ylevel = t.ylevel := rfl
@[simp] theorem Thread.setPred_landing (t : Thread) (p : PReg) (b : Bool) : (t.setPred p b).landing = t.landing := rfl
@[simp] theorem Thread.setPred_cnt (t : Thread) (p : PReg) (b : Bool) : (t.setPred p b).cnt = t.cnt := rfl
@[simp] theorem Thread.setPred_pend (t : Thread) (p : PReg) (b : Bool) : (t.setPred p b).pend = t.pend := rfl
@[simp] theorem Thread.setPred_fmark (t : Thread) (p : PReg) (b : Bool) : (t.setPred p b).fmark = t.fmark := rfl
@[simp] theorem Thread.setPred_defers (t : Thread) (p : PReg) (b : Bool) : (t.setPred p b).defers = t.defers := rfl
@[simp] theorem Thread.setPred_poll (t : Thread) (p : PReg) (b : Bool) : (t.setPred p b).poll = t.poll := rfl
@[simp] theorem Thread.setPred_qseq (t : Thread) (p : PReg) (b : Bool) : (t.setPred p b).qseq = t.qseq := rfl
@[simp] theorem Thread.setPred_bwait (t : Thread) (p : PReg) (b : Bool) : (t.setPred p b).bwait = t.bwait := rfl
@[simp] theorem Thread.setPred_yieldUntil (t : Thread) (p : PReg) (b : Bool) : (t.setPred p b).yieldUntil = t.yieldUntil := rfl
@[simp] theorem Thread.setPred_pollUntil (t : Thread) (p : PReg) (b : Bool) : (t.setPred p b).pollUntil = t.pollUntil := rfl
@[simp] theorem Thread.setPred_retry (t : Thread) (p : PReg) (b : Bool) : (t.setPred p b).retry = t.retry := rfl
@[simp] theorem Thread.setPred_rejoinSince (t : Thread) (p : PReg) (b : Bool) : (t.setPred p b).rejoinSince = t.rejoinSince := rfl
@[simp] theorem Thread.setPred_rejoinDone (t : Thread) (p : PReg) (b : Bool) : (t.setPred p b).rejoinDone = t.rejoinDone := rfl
@[simp] theorem Thread.setPred_park (t : Thread) (p : PReg) (b : Bool) : (t.setPred p b).park = t.park := rfl
@[simp] theorem Thread.setPred_due (t : Thread) (p : PReg) (b : Bool) : (t.setPred p b).due = t.due := rfl
@[simp] theorem Thread.setPred_cycOff (t : Thread) (p : PReg) (b : Bool) : (t.setPred p b).cycOff = t.cycOff := rfl
@[simp] theorem Thread.setPred_hold (t : Thread) (p : PReg) (b : Bool) : (t.setPred p b).hold = t.hold := rfl
@[simp] theorem Thread.setPred_fRel (t : Thread) (p : PReg) (b : Bool) : (t.setPred p b).fRel = t.fRel := rfl
@[simp] theorem Thread.setPred_fAcq (t : Thread) (p : PReg) (b : Bool) : (t.setPred p b).fAcq = t.fAcq := rfl
@[simp] theorem Thread.setPred_fAr (t : Thread) (p : PReg) (b : Bool) : (t.setPred p b).fAr = t.fAr := rfl
@[simp] theorem Thread.setPred_renew (t : Thread) (p : PReg) (b : Bool) : (t.setPred p b).renew = t.renew := rfl
@[simp] theorem Thread.setPred_relCore (t : Thread) (p : PReg) (b : Bool) : (t.setPred p b).relCore = t.relCore := rfl
@[simp] theorem Thread.setPred_relGrove (t : Thread) (p : PReg) (b : Bool) : (t.setPred p b).relGrove = t.relGrove := rfl
@[simp] theorem Thread.setPred_relDev (t : Thread) (p : PReg) (b : Bool) : (t.setPred p b).relDev = t.relDev := rfl
@[simp] theorem Thread.setPred_early (t : Thread) (p : PReg) (b : Bool) : (t.setPred p b).early = t.early := rfl
@[simp] theorem Thread.setPred_earlyTl (t : Thread) (p : PReg) (b : Bool) : (t.setPred p b).earlyTl = t.earlyTl := rfl
@[simp] theorem Thread.setPred_acqStamp (t : Thread) (p : PReg) (b : Bool) : (t.setPred p b).acqStamp = t.acqStamp := rfl
@[simp] theorem Thread.setPred_tlStamp (t : Thread) (p : PReg) (b : Bool) : (t.setPred p b).tlStamp = t.tlStamp := rfl
@[simp] theorem Thread.setPred_wins (t : Thread) (p : PReg) (b : Bool) : (t.setPred p b).wins = t.wins := rfl
@[simp] theorem Thread.setPred_olds (t : Thread) (p : PReg) (b : Bool) : (t.setPred p b).olds = t.olds := rfl
@[simp] theorem Thread.setPred_age (t : Thread) (p : PReg) (b : Bool) : (t.setPred p b).age = t.age := rfl

@[simp] theorem Thread.orFl_st (t : Thread) (f : Fl) : (t.orFl f).st = t.st := rfl
@[simp] theorem Thread.orFl_team (t : Thread) (f : Fl) : (t.orFl f).team = t.team := rfl
@[simp] theorem Thread.orFl_lane (t : Thread) (f : Fl) : (t.orFl f).lane = t.lane := rfl
@[simp] theorem Thread.orFl_plane (t : Thread) (f : Fl) : (t.orFl f).plane = t.plane := rfl
@[simp] theorem Thread.orFl_tsize (t : Thread) (f : Fl) : (t.orFl f).tsize = t.tsize := rfl
@[simp] theorem Thread.orFl_tcret (t : Thread) (f : Fl) : (t.orFl f).tcret = t.tcret := rfl
@[simp] theorem Thread.orFl_ctx (t : Thread) (f : Fl) : (t.orFl f).ctx = t.ctx := rfl
@[simp] theorem Thread.orFl_pushed (t : Thread) (f : Fl) : (t.orFl f).pushed = t.pushed := rfl
@[simp] theorem Thread.orFl_g (t : Thread) (f : Fl) : (t.orFl f).g = t.g := rfl
@[simp] theorem Thread.orFl_o (t : Thread) (f : Fl) : (t.orFl f).o = t.o := rfl
@[simp] theorem Thread.orFl_lat (t : Thread) (f : Fl) : (t.orFl f).lat = t.lat := rfl
@[simp] theorem Thread.orFl_preds (t : Thread) (f : Fl) : (t.orFl f).preds = t.preds := rfl
@[simp] theorem Thread.orFl_lk (t : Thread) (f : Fl) : (t.orFl f).lk = t.lk := rfl
@[simp] theorem Thread.orFl_pcw (t : Thread) (f : Fl) : (t.orFl f).pcw = t.pcw := rfl
@[simp] theorem Thread.orFl_fflags (t : Thread) (f : Fl) : (t.orFl f).fflags = t.fflags ||| f := rfl
@[simp] theorem Thread.orFl_step (t : Thread) (f : Fl) : (t.orFl f).step = t.step := rfl
@[simp] theorem Thread.orFl_ylevel (t : Thread) (f : Fl) : (t.orFl f).ylevel = t.ylevel := rfl
@[simp] theorem Thread.orFl_landing (t : Thread) (f : Fl) : (t.orFl f).landing = t.landing := rfl
@[simp] theorem Thread.orFl_cnt (t : Thread) (f : Fl) : (t.orFl f).cnt = t.cnt := rfl
@[simp] theorem Thread.orFl_pend (t : Thread) (f : Fl) : (t.orFl f).pend = t.pend := rfl
@[simp] theorem Thread.orFl_fmark (t : Thread) (f : Fl) : (t.orFl f).fmark = t.fmark := rfl
@[simp] theorem Thread.orFl_defers (t : Thread) (f : Fl) : (t.orFl f).defers = t.defers := rfl
@[simp] theorem Thread.orFl_poll (t : Thread) (f : Fl) : (t.orFl f).poll = t.poll := rfl
@[simp] theorem Thread.orFl_qseq (t : Thread) (f : Fl) : (t.orFl f).qseq = t.qseq := rfl
@[simp] theorem Thread.orFl_bwait (t : Thread) (f : Fl) : (t.orFl f).bwait = t.bwait := rfl
@[simp] theorem Thread.orFl_yieldUntil (t : Thread) (f : Fl) : (t.orFl f).yieldUntil = t.yieldUntil := rfl
@[simp] theorem Thread.orFl_pollUntil (t : Thread) (f : Fl) : (t.orFl f).pollUntil = t.pollUntil := rfl
@[simp] theorem Thread.orFl_retry (t : Thread) (f : Fl) : (t.orFl f).retry = t.retry := rfl
@[simp] theorem Thread.orFl_rejoinSince (t : Thread) (f : Fl) : (t.orFl f).rejoinSince = t.rejoinSince := rfl
@[simp] theorem Thread.orFl_rejoinDone (t : Thread) (f : Fl) : (t.orFl f).rejoinDone = t.rejoinDone := rfl
@[simp] theorem Thread.orFl_park (t : Thread) (f : Fl) : (t.orFl f).park = t.park := rfl
@[simp] theorem Thread.orFl_due (t : Thread) (f : Fl) : (t.orFl f).due = t.due := rfl
@[simp] theorem Thread.orFl_cycOff (t : Thread) (f : Fl) : (t.orFl f).cycOff = t.cycOff := rfl
@[simp] theorem Thread.orFl_hold (t : Thread) (f : Fl) : (t.orFl f).hold = t.hold := rfl
@[simp] theorem Thread.orFl_fRel (t : Thread) (f : Fl) : (t.orFl f).fRel = t.fRel := rfl
@[simp] theorem Thread.orFl_fAcq (t : Thread) (f : Fl) : (t.orFl f).fAcq = t.fAcq := rfl
@[simp] theorem Thread.orFl_fAr (t : Thread) (f : Fl) : (t.orFl f).fAr = t.fAr := rfl
@[simp] theorem Thread.orFl_renew (t : Thread) (f : Fl) : (t.orFl f).renew = t.renew := rfl
@[simp] theorem Thread.orFl_relCore (t : Thread) (f : Fl) : (t.orFl f).relCore = t.relCore := rfl
@[simp] theorem Thread.orFl_relGrove (t : Thread) (f : Fl) : (t.orFl f).relGrove = t.relGrove := rfl
@[simp] theorem Thread.orFl_relDev (t : Thread) (f : Fl) : (t.orFl f).relDev = t.relDev := rfl
@[simp] theorem Thread.orFl_early (t : Thread) (f : Fl) : (t.orFl f).early = t.early := rfl
@[simp] theorem Thread.orFl_earlyTl (t : Thread) (f : Fl) : (t.orFl f).earlyTl = t.earlyTl := rfl
@[simp] theorem Thread.orFl_acqStamp (t : Thread) (f : Fl) : (t.orFl f).acqStamp = t.acqStamp := rfl
@[simp] theorem Thread.orFl_tlStamp (t : Thread) (f : Fl) : (t.orFl f).tlStamp = t.tlStamp := rfl
@[simp] theorem Thread.orFl_wins (t : Thread) (f : Fl) : (t.orFl f).wins = t.wins := rfl
@[simp] theorem Thread.orFl_olds (t : Thread) (f : Fl) : (t.orFl f).olds = t.olds := rfl
@[simp] theorem Thread.orFl_age (t : Thread) (f : Fl) : (t.orFl f).age = t.age := rfl

@[simp] theorem Thread.setG_st (t : Thread) (i : Nat) (v : Word) : (t.setG i v).st = t.st := rfl
@[simp] theorem Thread.setG_team (t : Thread) (i : Nat) (v : Word) : (t.setG i v).team = t.team := rfl
@[simp] theorem Thread.setG_lane (t : Thread) (i : Nat) (v : Word) : (t.setG i v).lane = t.lane := rfl
@[simp] theorem Thread.setG_plane (t : Thread) (i : Nat) (v : Word) : (t.setG i v).plane = t.plane := rfl
@[simp] theorem Thread.setG_tsize (t : Thread) (i : Nat) (v : Word) : (t.setG i v).tsize = t.tsize := rfl
@[simp] theorem Thread.setG_tcret (t : Thread) (i : Nat) (v : Word) : (t.setG i v).tcret = t.tcret := rfl
@[simp] theorem Thread.setG_ctx (t : Thread) (i : Nat) (v : Word) : (t.setG i v).ctx = t.ctx := rfl
@[simp] theorem Thread.setG_pushed (t : Thread) (i : Nat) (v : Word) : (t.setG i v).pushed = t.pushed := rfl
@[simp] theorem Thread.setG_g (t : Thread) (i : Nat) (v : Word) : (t.setG i v).g = t.g.set 0 i v := rfl
@[simp] theorem Thread.setG_o (t : Thread) (i : Nat) (v : Word) : (t.setG i v).o = t.o := rfl
@[simp] theorem Thread.setG_lat (t : Thread) (i : Nat) (v : Word) : (t.setG i v).lat = t.lat := rfl
@[simp] theorem Thread.setG_preds (t : Thread) (i : Nat) (v : Word) : (t.setG i v).preds = t.preds := rfl
@[simp] theorem Thread.setG_lk (t : Thread) (i : Nat) (v : Word) : (t.setG i v).lk = t.lk := rfl
@[simp] theorem Thread.setG_pcw (t : Thread) (i : Nat) (v : Word) : (t.setG i v).pcw = t.pcw := rfl
@[simp] theorem Thread.setG_fflags (t : Thread) (i : Nat) (v : Word) : (t.setG i v).fflags = t.fflags := rfl
@[simp] theorem Thread.setG_step (t : Thread) (i : Nat) (v : Word) : (t.setG i v).step = t.step := rfl
@[simp] theorem Thread.setG_ylevel (t : Thread) (i : Nat) (v : Word) : (t.setG i v).ylevel = t.ylevel := rfl
@[simp] theorem Thread.setG_landing (t : Thread) (i : Nat) (v : Word) : (t.setG i v).landing = t.landing := rfl
@[simp] theorem Thread.setG_cnt (t : Thread) (i : Nat) (v : Word) : (t.setG i v).cnt = t.cnt := rfl
@[simp] theorem Thread.setG_pend (t : Thread) (i : Nat) (v : Word) : (t.setG i v).pend = t.pend := rfl
@[simp] theorem Thread.setG_fmark (t : Thread) (i : Nat) (v : Word) : (t.setG i v).fmark = t.fmark := rfl
@[simp] theorem Thread.setG_defers (t : Thread) (i : Nat) (v : Word) : (t.setG i v).defers = t.defers := rfl
@[simp] theorem Thread.setG_poll (t : Thread) (i : Nat) (v : Word) : (t.setG i v).poll = t.poll := rfl
@[simp] theorem Thread.setG_qseq (t : Thread) (i : Nat) (v : Word) : (t.setG i v).qseq = t.qseq := rfl
@[simp] theorem Thread.setG_bwait (t : Thread) (i : Nat) (v : Word) : (t.setG i v).bwait = t.bwait := rfl
@[simp] theorem Thread.setG_yieldUntil (t : Thread) (i : Nat) (v : Word) : (t.setG i v).yieldUntil = t.yieldUntil := rfl
@[simp] theorem Thread.setG_pollUntil (t : Thread) (i : Nat) (v : Word) : (t.setG i v).pollUntil = t.pollUntil := rfl
@[simp] theorem Thread.setG_retry (t : Thread) (i : Nat) (v : Word) : (t.setG i v).retry = t.retry := rfl
@[simp] theorem Thread.setG_rejoinSince (t : Thread) (i : Nat) (v : Word) : (t.setG i v).rejoinSince = t.rejoinSince := rfl
@[simp] theorem Thread.setG_rejoinDone (t : Thread) (i : Nat) (v : Word) : (t.setG i v).rejoinDone = t.rejoinDone := rfl
@[simp] theorem Thread.setG_park (t : Thread) (i : Nat) (v : Word) : (t.setG i v).park = t.park := rfl
@[simp] theorem Thread.setG_due (t : Thread) (i : Nat) (v : Word) : (t.setG i v).due = t.due := rfl
@[simp] theorem Thread.setG_cycOff (t : Thread) (i : Nat) (v : Word) : (t.setG i v).cycOff = t.cycOff := rfl
@[simp] theorem Thread.setG_hold (t : Thread) (i : Nat) (v : Word) : (t.setG i v).hold = t.hold := rfl
@[simp] theorem Thread.setG_fRel (t : Thread) (i : Nat) (v : Word) : (t.setG i v).fRel = t.fRel := rfl
@[simp] theorem Thread.setG_fAcq (t : Thread) (i : Nat) (v : Word) : (t.setG i v).fAcq = t.fAcq := rfl
@[simp] theorem Thread.setG_fAr (t : Thread) (i : Nat) (v : Word) : (t.setG i v).fAr = t.fAr := rfl
@[simp] theorem Thread.setG_renew (t : Thread) (i : Nat) (v : Word) : (t.setG i v).renew = t.renew := rfl
@[simp] theorem Thread.setG_relCore (t : Thread) (i : Nat) (v : Word) : (t.setG i v).relCore = t.relCore := rfl
@[simp] theorem Thread.setG_relGrove (t : Thread) (i : Nat) (v : Word) : (t.setG i v).relGrove = t.relGrove := rfl
@[simp] theorem Thread.setG_relDev (t : Thread) (i : Nat) (v : Word) : (t.setG i v).relDev = t.relDev := rfl
@[simp] theorem Thread.setG_early (t : Thread) (i : Nat) (v : Word) : (t.setG i v).early = t.early := rfl
@[simp] theorem Thread.setG_earlyTl (t : Thread) (i : Nat) (v : Word) : (t.setG i v).earlyTl = t.earlyTl := rfl
@[simp] theorem Thread.setG_acqStamp (t : Thread) (i : Nat) (v : Word) : (t.setG i v).acqStamp = t.acqStamp := rfl
@[simp] theorem Thread.setG_tlStamp (t : Thread) (i : Nat) (v : Word) : (t.setG i v).tlStamp = t.tlStamp := rfl
@[simp] theorem Thread.setG_age (t : Thread) (i : Nat) (v : Word) : (t.setG i v).age = t.age := rfl

@[simp] theorem Thread.counted_st (t : Thread) (k : Cls) (l : List RegId) : (t.counted k l).st = t.st := rfl
@[simp] theorem Thread.counted_team (t : Thread) (k : Cls) (l : List RegId) : (t.counted k l).team = t.team := rfl
@[simp] theorem Thread.counted_lane (t : Thread) (k : Cls) (l : List RegId) : (t.counted k l).lane = t.lane := rfl
@[simp] theorem Thread.counted_plane (t : Thread) (k : Cls) (l : List RegId) : (t.counted k l).plane = t.plane := rfl
@[simp] theorem Thread.counted_tsize (t : Thread) (k : Cls) (l : List RegId) : (t.counted k l).tsize = t.tsize := rfl
@[simp] theorem Thread.counted_tcret (t : Thread) (k : Cls) (l : List RegId) : (t.counted k l).tcret = t.tcret := rfl
@[simp] theorem Thread.counted_ctx (t : Thread) (k : Cls) (l : List RegId) : (t.counted k l).ctx = t.ctx := rfl
@[simp] theorem Thread.counted_pushed (t : Thread) (k : Cls) (l : List RegId) : (t.counted k l).pushed = t.pushed := rfl
@[simp] theorem Thread.counted_g (t : Thread) (k : Cls) (l : List RegId) : (t.counted k l).g = t.g := rfl
@[simp] theorem Thread.counted_o (t : Thread) (k : Cls) (l : List RegId) : (t.counted k l).o = t.o := rfl
@[simp] theorem Thread.counted_lat (t : Thread) (k : Cls) (l : List RegId) : (t.counted k l).lat = t.lat := rfl
@[simp] theorem Thread.counted_preds (t : Thread) (k : Cls) (l : List RegId) : (t.counted k l).preds = t.preds := rfl
@[simp] theorem Thread.counted_lk (t : Thread) (k : Cls) (l : List RegId) : (t.counted k l).lk = t.lk := rfl
@[simp] theorem Thread.counted_pcw (t : Thread) (k : Cls) (l : List RegId) : (t.counted k l).pcw = t.pcw := rfl
@[simp] theorem Thread.counted_fflags (t : Thread) (k : Cls) (l : List RegId) : (t.counted k l).fflags = t.fflags := rfl
@[simp] theorem Thread.counted_step (t : Thread) (k : Cls) (l : List RegId) : (t.counted k l).step = t.step := rfl
@[simp] theorem Thread.counted_ylevel (t : Thread) (k : Cls) (l : List RegId) : (t.counted k l).ylevel = t.ylevel := rfl
@[simp] theorem Thread.counted_landing (t : Thread) (k : Cls) (l : List RegId) : (t.counted k l).landing = t.landing := rfl
@[simp] theorem Thread.counted_cnt (t : Thread) (k : Cls) (l : List RegId) : (t.counted k l).cnt = t.cnt.add k := rfl
@[simp] theorem Thread.counted_pend (t : Thread) (k : Cls) (l : List RegId) : (t.counted k l).pend = t.pend ++ l := rfl
@[simp] theorem Thread.counted_fmark (t : Thread) (k : Cls) (l : List RegId) : (t.counted k l).fmark = t.fmark := rfl
@[simp] theorem Thread.counted_defers (t : Thread) (k : Cls) (l : List RegId) : (t.counted k l).defers = t.defers := rfl
@[simp] theorem Thread.counted_poll (t : Thread) (k : Cls) (l : List RegId) : (t.counted k l).poll = t.poll := rfl
@[simp] theorem Thread.counted_qseq (t : Thread) (k : Cls) (l : List RegId) : (t.counted k l).qseq = t.qseq := rfl
@[simp] theorem Thread.counted_bwait (t : Thread) (k : Cls) (l : List RegId) : (t.counted k l).bwait = t.bwait := rfl
@[simp] theorem Thread.counted_yieldUntil (t : Thread) (k : Cls) (l : List RegId) : (t.counted k l).yieldUntil = t.yieldUntil := rfl
@[simp] theorem Thread.counted_pollUntil (t : Thread) (k : Cls) (l : List RegId) : (t.counted k l).pollUntil = t.pollUntil := rfl
@[simp] theorem Thread.counted_retry (t : Thread) (k : Cls) (l : List RegId) : (t.counted k l).retry = t.retry := rfl
@[simp] theorem Thread.counted_rejoinSince (t : Thread) (k : Cls) (l : List RegId) : (t.counted k l).rejoinSince = t.rejoinSince := rfl
@[simp] theorem Thread.counted_rejoinDone (t : Thread) (k : Cls) (l : List RegId) : (t.counted k l).rejoinDone = t.rejoinDone := rfl
@[simp] theorem Thread.counted_park (t : Thread) (k : Cls) (l : List RegId) : (t.counted k l).park = t.park := rfl
@[simp] theorem Thread.counted_due (t : Thread) (k : Cls) (l : List RegId) : (t.counted k l).due = t.due := rfl
@[simp] theorem Thread.counted_cycOff (t : Thread) (k : Cls) (l : List RegId) : (t.counted k l).cycOff = t.cycOff := rfl
@[simp] theorem Thread.counted_hold (t : Thread) (k : Cls) (l : List RegId) : (t.counted k l).hold = t.hold := rfl
@[simp] theorem Thread.counted_fRel (t : Thread) (k : Cls) (l : List RegId) : (t.counted k l).fRel = t.fRel := rfl
@[simp] theorem Thread.counted_fAcq (t : Thread) (k : Cls) (l : List RegId) : (t.counted k l).fAcq = t.fAcq := rfl
@[simp] theorem Thread.counted_fAr (t : Thread) (k : Cls) (l : List RegId) : (t.counted k l).fAr = t.fAr := rfl
@[simp] theorem Thread.counted_renew (t : Thread) (k : Cls) (l : List RegId) : (t.counted k l).renew = t.renew := rfl
@[simp] theorem Thread.counted_relCore (t : Thread) (k : Cls) (l : List RegId) : (t.counted k l).relCore = t.relCore := rfl
@[simp] theorem Thread.counted_relGrove (t : Thread) (k : Cls) (l : List RegId) : (t.counted k l).relGrove = t.relGrove := rfl
@[simp] theorem Thread.counted_relDev (t : Thread) (k : Cls) (l : List RegId) : (t.counted k l).relDev = t.relDev := rfl
@[simp] theorem Thread.counted_early (t : Thread) (k : Cls) (l : List RegId) : (t.counted k l).early = t.early := rfl
@[simp] theorem Thread.counted_earlyTl (t : Thread) (k : Cls) (l : List RegId) : (t.counted k l).earlyTl = t.earlyTl := rfl
@[simp] theorem Thread.counted_acqStamp (t : Thread) (k : Cls) (l : List RegId) : (t.counted k l).acqStamp = t.acqStamp := rfl
@[simp] theorem Thread.counted_tlStamp (t : Thread) (k : Cls) (l : List RegId) : (t.counted k l).tlStamp = t.tlStamp := rfl
@[simp] theorem Thread.counted_wins (t : Thread) (k : Cls) (l : List RegId) : (t.counted k l).wins = t.wins := rfl
@[simp] theorem Thread.counted_olds (t : Thread) (k : Cls) (l : List RegId) : (t.counted k l).olds = t.olds := rfl
@[simp] theorem Thread.counted_age (t : Thread) (k : Cls) (l : List RegId) : (t.counted k l).age = t.age := rfl

@[simp] theorem Thread.completed_st (t : Thread) (k : Cls) (l : List RegId) : (t.completed k l).st = t.st := rfl
@[simp] theorem Thread.completed_team (t : Thread) (k : Cls) (l : List RegId) : (t.completed k l).team = t.team := rfl
@[simp] theorem Thread.completed_lane (t : Thread) (k : Cls) (l : List RegId) : (t.completed k l).lane = t.lane := rfl
@[simp] theorem Thread.completed_plane (t : Thread) (k : Cls) (l : List RegId) : (t.completed k l).plane = t.plane := rfl
@[simp] theorem Thread.completed_tsize (t : Thread) (k : Cls) (l : List RegId) : (t.completed k l).tsize = t.tsize := rfl
@[simp] theorem Thread.completed_tcret (t : Thread) (k : Cls) (l : List RegId) : (t.completed k l).tcret = t.tcret := rfl
@[simp] theorem Thread.completed_ctx (t : Thread) (k : Cls) (l : List RegId) : (t.completed k l).ctx = t.ctx := rfl
@[simp] theorem Thread.completed_pushed (t : Thread) (k : Cls) (l : List RegId) : (t.completed k l).pushed = t.pushed := rfl
@[simp] theorem Thread.completed_g (t : Thread) (k : Cls) (l : List RegId) : (t.completed k l).g = t.g := rfl
@[simp] theorem Thread.completed_o (t : Thread) (k : Cls) (l : List RegId) : (t.completed k l).o = t.o := rfl
@[simp] theorem Thread.completed_lat (t : Thread) (k : Cls) (l : List RegId) : (t.completed k l).lat = t.lat := rfl
@[simp] theorem Thread.completed_preds (t : Thread) (k : Cls) (l : List RegId) : (t.completed k l).preds = t.preds := rfl
@[simp] theorem Thread.completed_lk (t : Thread) (k : Cls) (l : List RegId) : (t.completed k l).lk = t.lk := rfl
@[simp] theorem Thread.completed_pcw (t : Thread) (k : Cls) (l : List RegId) : (t.completed k l).pcw = t.pcw := rfl
@[simp] theorem Thread.completed_fflags (t : Thread) (k : Cls) (l : List RegId) : (t.completed k l).fflags = t.fflags := rfl
@[simp] theorem Thread.completed_step (t : Thread) (k : Cls) (l : List RegId) : (t.completed k l).step = t.step := rfl
@[simp] theorem Thread.completed_ylevel (t : Thread) (k : Cls) (l : List RegId) : (t.completed k l).ylevel = t.ylevel := rfl
@[simp] theorem Thread.completed_landing (t : Thread) (k : Cls) (l : List RegId) : (t.completed k l).landing = t.landing := rfl
@[simp] theorem Thread.completed_cnt (t : Thread) (k : Cls) (l : List RegId) : (t.completed k l).cnt = t.cnt.sub k := rfl
@[simp] theorem Thread.completed_pend (t : Thread) (k : Cls) (l : List RegId) : (t.completed k l).pend = dropMarks l t.pend := rfl
@[simp] theorem Thread.completed_fmark (t : Thread) (k : Cls) (l : List RegId) : (t.completed k l).fmark = t.fmark := rfl
@[simp] theorem Thread.completed_defers (t : Thread) (k : Cls) (l : List RegId) : (t.completed k l).defers = t.defers := rfl
@[simp] theorem Thread.completed_poll (t : Thread) (k : Cls) (l : List RegId) : (t.completed k l).poll = t.poll := rfl
@[simp] theorem Thread.completed_qseq (t : Thread) (k : Cls) (l : List RegId) : (t.completed k l).qseq = t.qseq := rfl
@[simp] theorem Thread.completed_bwait (t : Thread) (k : Cls) (l : List RegId) : (t.completed k l).bwait = t.bwait := rfl
@[simp] theorem Thread.completed_yieldUntil (t : Thread) (k : Cls) (l : List RegId) : (t.completed k l).yieldUntil = t.yieldUntil := rfl
@[simp] theorem Thread.completed_pollUntil (t : Thread) (k : Cls) (l : List RegId) : (t.completed k l).pollUntil = t.pollUntil := rfl
@[simp] theorem Thread.completed_retry (t : Thread) (k : Cls) (l : List RegId) : (t.completed k l).retry = t.retry := rfl
@[simp] theorem Thread.completed_rejoinSince (t : Thread) (k : Cls) (l : List RegId) : (t.completed k l).rejoinSince = t.rejoinSince := rfl
@[simp] theorem Thread.completed_rejoinDone (t : Thread) (k : Cls) (l : List RegId) : (t.completed k l).rejoinDone = t.rejoinDone := rfl
@[simp] theorem Thread.completed_park (t : Thread) (k : Cls) (l : List RegId) : (t.completed k l).park = t.park := rfl
@[simp] theorem Thread.completed_due (t : Thread) (k : Cls) (l : List RegId) : (t.completed k l).due = t.due := rfl
@[simp] theorem Thread.completed_cycOff (t : Thread) (k : Cls) (l : List RegId) : (t.completed k l).cycOff = t.cycOff := rfl
@[simp] theorem Thread.completed_hold (t : Thread) (k : Cls) (l : List RegId) : (t.completed k l).hold = t.hold := rfl
@[simp] theorem Thread.completed_fRel (t : Thread) (k : Cls) (l : List RegId) : (t.completed k l).fRel = t.fRel := rfl
@[simp] theorem Thread.completed_fAcq (t : Thread) (k : Cls) (l : List RegId) : (t.completed k l).fAcq = t.fAcq := rfl
@[simp] theorem Thread.completed_fAr (t : Thread) (k : Cls) (l : List RegId) : (t.completed k l).fAr = t.fAr := rfl
@[simp] theorem Thread.completed_renew (t : Thread) (k : Cls) (l : List RegId) : (t.completed k l).renew = t.renew := rfl
@[simp] theorem Thread.completed_relCore (t : Thread) (k : Cls) (l : List RegId) : (t.completed k l).relCore = t.relCore := rfl
@[simp] theorem Thread.completed_relGrove (t : Thread) (k : Cls) (l : List RegId) : (t.completed k l).relGrove = t.relGrove := rfl
@[simp] theorem Thread.completed_relDev (t : Thread) (k : Cls) (l : List RegId) : (t.completed k l).relDev = t.relDev := rfl
@[simp] theorem Thread.completed_early (t : Thread) (k : Cls) (l : List RegId) : (t.completed k l).early = t.early := rfl
@[simp] theorem Thread.completed_earlyTl (t : Thread) (k : Cls) (l : List RegId) : (t.completed k l).earlyTl = t.earlyTl := rfl
@[simp] theorem Thread.completed_acqStamp (t : Thread) (k : Cls) (l : List RegId) : (t.completed k l).acqStamp = t.acqStamp := rfl
@[simp] theorem Thread.completed_tlStamp (t : Thread) (k : Cls) (l : List RegId) : (t.completed k l).tlStamp = t.tlStamp := rfl
@[simp] theorem Thread.completed_wins (t : Thread) (k : Cls) (l : List RegId) : (t.completed k l).wins = t.wins := rfl
@[simp] theorem Thread.completed_olds (t : Thread) (k : Cls) (l : List RegId) : (t.completed k l).olds = t.olds := rfl
@[simp] theorem Thread.completed_age (t : Thread) (k : Cls) (l : List RegId) : (t.completed k l).age = t.age := rfl

/-- A destination write touches registers, the latch and what the engines may read of them, and nothing else. -/
theorem Thread.setDst_cases (t : Thread) (w : Bool) (d : Dst) (v : DWord) :
    ∃ g o l wi ol, t.setDst w d v = { t with g := g, o := o, lat := l, wins := wi, olds := ol } := by
  cases d <;> simp only [Thread.setDst]
  · split <;> exact ⟨_, _, _, _, _, rfl⟩
  · exact ⟨_, _, _, _, _, rfl⟩
  · exact ⟨_, _, _, _, _, rfl⟩
  · exact ⟨_, _, _, _, _, rfl⟩

@[simp] theorem Thread.setDst_st (t : Thread) (w : Bool) (d : Dst) (v : DWord) : (t.setDst w d v).st = t.st := by
  obtain ⟨_, _, _, _, _, h⟩ := t.setDst_cases w d v
  rw [h]
@[simp] theorem Thread.result_st (t : Thread) (w : Bool) (d : Dst) (v : DWord) : (t.result w d v).st = t.st := by
  simp [Thread.result]
@[simp] theorem Thread.setDst_team (t : Thread) (w : Bool) (d : Dst) (v : DWord) : (t.setDst w d v).team = t.team := by
  obtain ⟨_, _, _, _, _, h⟩ := t.setDst_cases w d v
  rw [h]
@[simp] theorem Thread.result_team (t : Thread) (w : Bool) (d : Dst) (v : DWord) : (t.result w d v).team = t.team := by
  simp [Thread.result]
@[simp] theorem Thread.setDst_lane (t : Thread) (w : Bool) (d : Dst) (v : DWord) : (t.setDst w d v).lane = t.lane := by
  obtain ⟨_, _, _, _, _, h⟩ := t.setDst_cases w d v
  rw [h]
@[simp] theorem Thread.result_lane (t : Thread) (w : Bool) (d : Dst) (v : DWord) : (t.result w d v).lane = t.lane := by
  simp [Thread.result]
@[simp] theorem Thread.setDst_plane (t : Thread) (w : Bool) (d : Dst) (v : DWord) : (t.setDst w d v).plane = t.plane := by
  obtain ⟨_, _, _, _, _, h⟩ := t.setDst_cases w d v
  rw [h]
@[simp] theorem Thread.result_plane (t : Thread) (w : Bool) (d : Dst) (v : DWord) : (t.result w d v).plane = t.plane := by
  simp [Thread.result]
@[simp] theorem Thread.setDst_tsize (t : Thread) (w : Bool) (d : Dst) (v : DWord) : (t.setDst w d v).tsize = t.tsize := by
  obtain ⟨_, _, _, _, _, h⟩ := t.setDst_cases w d v
  rw [h]
@[simp] theorem Thread.result_tsize (t : Thread) (w : Bool) (d : Dst) (v : DWord) : (t.result w d v).tsize = t.tsize := by
  simp [Thread.result]
@[simp] theorem Thread.setDst_tcret (t : Thread) (w : Bool) (d : Dst) (v : DWord) : (t.setDst w d v).tcret = t.tcret := by
  obtain ⟨_, _, _, _, _, h⟩ := t.setDst_cases w d v
  rw [h]
@[simp] theorem Thread.result_tcret (t : Thread) (w : Bool) (d : Dst) (v : DWord) : (t.result w d v).tcret = t.tcret := by
  simp [Thread.result]
@[simp] theorem Thread.setDst_ctx (t : Thread) (w : Bool) (d : Dst) (v : DWord) : (t.setDst w d v).ctx = t.ctx := by
  obtain ⟨_, _, _, _, _, h⟩ := t.setDst_cases w d v
  rw [h]
@[simp] theorem Thread.result_ctx (t : Thread) (w : Bool) (d : Dst) (v : DWord) : (t.result w d v).ctx = t.ctx := by
  simp [Thread.result]
@[simp] theorem Thread.setDst_pushed (t : Thread) (w : Bool) (d : Dst) (v : DWord) : (t.setDst w d v).pushed = t.pushed := by
  obtain ⟨_, _, _, _, _, h⟩ := t.setDst_cases w d v
  rw [h]
@[simp] theorem Thread.result_pushed (t : Thread) (w : Bool) (d : Dst) (v : DWord) : (t.result w d v).pushed = t.pushed := by
  simp [Thread.result]
@[simp] theorem Thread.setDst_preds (t : Thread) (w : Bool) (d : Dst) (v : DWord) : (t.setDst w d v).preds = t.preds := by
  obtain ⟨_, _, _, _, _, h⟩ := t.setDst_cases w d v
  rw [h]
@[simp] theorem Thread.result_preds (t : Thread) (w : Bool) (d : Dst) (v : DWord) : (t.result w d v).preds = t.preds := by
  simp [Thread.result]
@[simp] theorem Thread.setDst_lk (t : Thread) (w : Bool) (d : Dst) (v : DWord) : (t.setDst w d v).lk = t.lk := by
  obtain ⟨_, _, _, _, _, h⟩ := t.setDst_cases w d v
  rw [h]
@[simp] theorem Thread.result_lk (t : Thread) (w : Bool) (d : Dst) (v : DWord) : (t.result w d v).lk = t.lk := by
  simp [Thread.result]
@[simp] theorem Thread.setDst_pcw (t : Thread) (w : Bool) (d : Dst) (v : DWord) : (t.setDst w d v).pcw = t.pcw := by
  obtain ⟨_, _, _, _, _, h⟩ := t.setDst_cases w d v
  rw [h]
@[simp] theorem Thread.result_pcw (t : Thread) (w : Bool) (d : Dst) (v : DWord) : (t.result w d v).pcw = t.pcw := by
  simp [Thread.result]
@[simp] theorem Thread.setDst_fflags (t : Thread) (w : Bool) (d : Dst) (v : DWord) : (t.setDst w d v).fflags = t.fflags := by
  obtain ⟨_, _, _, _, _, h⟩ := t.setDst_cases w d v
  rw [h]
@[simp] theorem Thread.result_fflags (t : Thread) (w : Bool) (d : Dst) (v : DWord) : (t.result w d v).fflags = t.fflags := by
  simp [Thread.result]
@[simp] theorem Thread.setDst_step (t : Thread) (w : Bool) (d : Dst) (v : DWord) : (t.setDst w d v).step = t.step := by
  obtain ⟨_, _, _, _, _, h⟩ := t.setDst_cases w d v
  rw [h]
@[simp] theorem Thread.result_step (t : Thread) (w : Bool) (d : Dst) (v : DWord) : (t.result w d v).step = t.step := by
  simp [Thread.result]
@[simp] theorem Thread.setDst_ylevel (t : Thread) (w : Bool) (d : Dst) (v : DWord) : (t.setDst w d v).ylevel = t.ylevel := by
  obtain ⟨_, _, _, _, _, h⟩ := t.setDst_cases w d v
  rw [h]
@[simp] theorem Thread.result_ylevel (t : Thread) (w : Bool) (d : Dst) (v : DWord) : (t.result w d v).ylevel = t.ylevel := by
  simp [Thread.result]
@[simp] theorem Thread.setDst_landing (t : Thread) (w : Bool) (d : Dst) (v : DWord) : (t.setDst w d v).landing = t.landing := by
  obtain ⟨_, _, _, _, _, h⟩ := t.setDst_cases w d v
  rw [h]
@[simp] theorem Thread.result_landing (t : Thread) (w : Bool) (d : Dst) (v : DWord) : (t.result w d v).landing = t.landing := by
  simp [Thread.result]
@[simp] theorem Thread.setDst_cnt (t : Thread) (w : Bool) (d : Dst) (v : DWord) : (t.setDst w d v).cnt = t.cnt := by
  obtain ⟨_, _, _, _, _, h⟩ := t.setDst_cases w d v
  rw [h]
@[simp] theorem Thread.result_cnt (t : Thread) (w : Bool) (d : Dst) (v : DWord) : (t.result w d v).cnt = t.cnt := by
  simp [Thread.result]
@[simp] theorem Thread.setDst_pend (t : Thread) (w : Bool) (d : Dst) (v : DWord) : (t.setDst w d v).pend = t.pend := by
  obtain ⟨_, _, _, _, _, h⟩ := t.setDst_cases w d v
  rw [h]
@[simp] theorem Thread.result_pend (t : Thread) (w : Bool) (d : Dst) (v : DWord) : (t.result w d v).pend = t.pend := by
  simp [Thread.result]
@[simp] theorem Thread.setDst_fmark (t : Thread) (w : Bool) (d : Dst) (v : DWord) : (t.setDst w d v).fmark = t.fmark := by
  obtain ⟨_, _, _, _, _, h⟩ := t.setDst_cases w d v
  rw [h]
@[simp] theorem Thread.result_fmark (t : Thread) (w : Bool) (d : Dst) (v : DWord) : (t.result w d v).fmark = t.fmark := by
  simp [Thread.result]
@[simp] theorem Thread.setDst_defers (t : Thread) (w : Bool) (d : Dst) (v : DWord) : (t.setDst w d v).defers = t.defers := by
  obtain ⟨_, _, _, _, _, h⟩ := t.setDst_cases w d v
  rw [h]
@[simp] theorem Thread.result_defers (t : Thread) (w : Bool) (d : Dst) (v : DWord) : (t.result w d v).defers = t.defers := by
  simp [Thread.result]
@[simp] theorem Thread.setDst_poll (t : Thread) (w : Bool) (d : Dst) (v : DWord) : (t.setDst w d v).poll = t.poll := by
  obtain ⟨_, _, _, _, _, h⟩ := t.setDst_cases w d v
  rw [h]
@[simp] theorem Thread.result_poll (t : Thread) (w : Bool) (d : Dst) (v : DWord) : (t.result w d v).poll = t.poll := by
  simp [Thread.result]
@[simp] theorem Thread.setDst_qseq (t : Thread) (w : Bool) (d : Dst) (v : DWord) : (t.setDst w d v).qseq = t.qseq := by
  obtain ⟨_, _, _, _, _, h⟩ := t.setDst_cases w d v
  rw [h]
@[simp] theorem Thread.result_qseq (t : Thread) (w : Bool) (d : Dst) (v : DWord) : (t.result w d v).qseq = t.qseq := by
  simp [Thread.result]
@[simp] theorem Thread.setDst_bwait (t : Thread) (w : Bool) (d : Dst) (v : DWord) : (t.setDst w d v).bwait = t.bwait := by
  obtain ⟨_, _, _, _, _, h⟩ := t.setDst_cases w d v
  rw [h]
@[simp] theorem Thread.result_bwait (t : Thread) (w : Bool) (d : Dst) (v : DWord) : (t.result w d v).bwait = t.bwait := by
  simp [Thread.result]
@[simp] theorem Thread.setDst_yieldUntil (t : Thread) (w : Bool) (d : Dst) (v : DWord) : (t.setDst w d v).yieldUntil = t.yieldUntil := by
  obtain ⟨_, _, _, _, _, h⟩ := t.setDst_cases w d v
  rw [h]
@[simp] theorem Thread.result_yieldUntil (t : Thread) (w : Bool) (d : Dst) (v : DWord) : (t.result w d v).yieldUntil = t.yieldUntil := by
  simp [Thread.result]
@[simp] theorem Thread.setDst_pollUntil (t : Thread) (w : Bool) (d : Dst) (v : DWord) : (t.setDst w d v).pollUntil = t.pollUntil := by
  obtain ⟨_, _, _, _, _, h⟩ := t.setDst_cases w d v
  rw [h]
@[simp] theorem Thread.result_pollUntil (t : Thread) (w : Bool) (d : Dst) (v : DWord) : (t.result w d v).pollUntil = t.pollUntil := by
  simp [Thread.result]
@[simp] theorem Thread.setDst_retry (t : Thread) (w : Bool) (d : Dst) (v : DWord) : (t.setDst w d v).retry = t.retry := by
  obtain ⟨_, _, _, _, _, h⟩ := t.setDst_cases w d v
  rw [h]
@[simp] theorem Thread.result_retry (t : Thread) (w : Bool) (d : Dst) (v : DWord) : (t.result w d v).retry = t.retry := by
  simp [Thread.result]
@[simp] theorem Thread.setDst_rejoinSince (t : Thread) (w : Bool) (d : Dst) (v : DWord) : (t.setDst w d v).rejoinSince = t.rejoinSince := by
  obtain ⟨_, _, _, _, _, h⟩ := t.setDst_cases w d v
  rw [h]
@[simp] theorem Thread.result_rejoinSince (t : Thread) (w : Bool) (d : Dst) (v : DWord) : (t.result w d v).rejoinSince = t.rejoinSince := by
  simp [Thread.result]
@[simp] theorem Thread.setDst_rejoinDone (t : Thread) (w : Bool) (d : Dst) (v : DWord) : (t.setDst w d v).rejoinDone = t.rejoinDone := by
  obtain ⟨_, _, _, _, _, h⟩ := t.setDst_cases w d v
  rw [h]
@[simp] theorem Thread.result_rejoinDone (t : Thread) (w : Bool) (d : Dst) (v : DWord) : (t.result w d v).rejoinDone = t.rejoinDone := by
  simp [Thread.result]
@[simp] theorem Thread.setDst_park (t : Thread) (w : Bool) (d : Dst) (v : DWord) : (t.setDst w d v).park = t.park := by
  obtain ⟨_, _, _, _, _, h⟩ := t.setDst_cases w d v
  rw [h]
@[simp] theorem Thread.result_park (t : Thread) (w : Bool) (d : Dst) (v : DWord) : (t.result w d v).park = t.park := by
  simp [Thread.result]
@[simp] theorem Thread.setDst_due (t : Thread) (w : Bool) (d : Dst) (v : DWord) : (t.setDst w d v).due = t.due := by
  obtain ⟨_, _, _, _, _, h⟩ := t.setDst_cases w d v
  rw [h]
@[simp] theorem Thread.result_due (t : Thread) (w : Bool) (d : Dst) (v : DWord) : (t.result w d v).due = t.due := by
  simp [Thread.result]
@[simp] theorem Thread.setDst_cycOff (t : Thread) (w : Bool) (d : Dst) (v : DWord) : (t.setDst w d v).cycOff = t.cycOff := by
  obtain ⟨_, _, _, _, _, h⟩ := t.setDst_cases w d v
  rw [h]
@[simp] theorem Thread.result_cycOff (t : Thread) (w : Bool) (d : Dst) (v : DWord) : (t.result w d v).cycOff = t.cycOff := by
  simp [Thread.result]
@[simp] theorem Thread.setDst_hold (t : Thread) (w : Bool) (d : Dst) (v : DWord) : (t.setDst w d v).hold = t.hold := by
  obtain ⟨_, _, _, _, _, h⟩ := t.setDst_cases w d v
  rw [h]
@[simp] theorem Thread.result_hold (t : Thread) (w : Bool) (d : Dst) (v : DWord) : (t.result w d v).hold = t.hold := by
  simp [Thread.result]
@[simp] theorem Thread.setDst_fRel (t : Thread) (w : Bool) (d : Dst) (v : DWord) : (t.setDst w d v).fRel = t.fRel := by
  obtain ⟨_, _, _, _, _, h⟩ := t.setDst_cases w d v
  rw [h]
@[simp] theorem Thread.result_fRel (t : Thread) (w : Bool) (d : Dst) (v : DWord) : (t.result w d v).fRel = t.fRel := by
  simp [Thread.result]
@[simp] theorem Thread.setDst_fAcq (t : Thread) (w : Bool) (d : Dst) (v : DWord) : (t.setDst w d v).fAcq = t.fAcq := by
  obtain ⟨_, _, _, _, _, h⟩ := t.setDst_cases w d v
  rw [h]
@[simp] theorem Thread.result_fAcq (t : Thread) (w : Bool) (d : Dst) (v : DWord) : (t.result w d v).fAcq = t.fAcq := by
  simp [Thread.result]
@[simp] theorem Thread.setDst_fAr (t : Thread) (w : Bool) (d : Dst) (v : DWord) : (t.setDst w d v).fAr = t.fAr := by
  obtain ⟨_, _, _, _, _, h⟩ := t.setDst_cases w d v
  rw [h]
@[simp] theorem Thread.result_fAr (t : Thread) (w : Bool) (d : Dst) (v : DWord) : (t.result w d v).fAr = t.fAr := by
  simp [Thread.result]
@[simp] theorem Thread.setDst_renew (t : Thread) (w : Bool) (d : Dst) (v : DWord) : (t.setDst w d v).renew = t.renew := by
  obtain ⟨_, _, _, _, _, h⟩ := t.setDst_cases w d v
  rw [h]
@[simp] theorem Thread.result_renew (t : Thread) (w : Bool) (d : Dst) (v : DWord) : (t.result w d v).renew = t.renew := by
  simp [Thread.result]
@[simp] theorem Thread.setDst_relCore (t : Thread) (w : Bool) (d : Dst) (v : DWord) : (t.setDst w d v).relCore = t.relCore := by
  obtain ⟨_, _, _, _, _, h⟩ := t.setDst_cases w d v
  rw [h]
@[simp] theorem Thread.result_relCore (t : Thread) (w : Bool) (d : Dst) (v : DWord) : (t.result w d v).relCore = t.relCore := by
  simp [Thread.result]
@[simp] theorem Thread.setDst_relGrove (t : Thread) (w : Bool) (d : Dst) (v : DWord) : (t.setDst w d v).relGrove = t.relGrove := by
  obtain ⟨_, _, _, _, _, h⟩ := t.setDst_cases w d v
  rw [h]
@[simp] theorem Thread.result_relGrove (t : Thread) (w : Bool) (d : Dst) (v : DWord) : (t.result w d v).relGrove = t.relGrove := by
  simp [Thread.result]
@[simp] theorem Thread.setDst_relDev (t : Thread) (w : Bool) (d : Dst) (v : DWord) : (t.setDst w d v).relDev = t.relDev := by
  obtain ⟨_, _, _, _, _, h⟩ := t.setDst_cases w d v
  rw [h]
@[simp] theorem Thread.result_relDev (t : Thread) (w : Bool) (d : Dst) (v : DWord) : (t.result w d v).relDev = t.relDev := by
  simp [Thread.result]
@[simp] theorem Thread.setDst_early (t : Thread) (w : Bool) (d : Dst) (v : DWord) : (t.setDst w d v).early = t.early := by
  obtain ⟨_, _, _, _, _, h⟩ := t.setDst_cases w d v
  rw [h]
@[simp] theorem Thread.result_early (t : Thread) (w : Bool) (d : Dst) (v : DWord) : (t.result w d v).early = t.early := by
  simp [Thread.result]
@[simp] theorem Thread.setDst_earlyTl (t : Thread) (w : Bool) (d : Dst) (v : DWord) : (t.setDst w d v).earlyTl = t.earlyTl := by
  obtain ⟨_, _, _, _, _, h⟩ := t.setDst_cases w d v
  rw [h]
@[simp] theorem Thread.result_earlyTl (t : Thread) (w : Bool) (d : Dst) (v : DWord) : (t.result w d v).earlyTl = t.earlyTl := by
  simp [Thread.result]
@[simp] theorem Thread.setDst_acqStamp (t : Thread) (w : Bool) (d : Dst) (v : DWord) : (t.setDst w d v).acqStamp = t.acqStamp := by
  obtain ⟨_, _, _, _, _, h⟩ := t.setDst_cases w d v
  rw [h]
@[simp] theorem Thread.result_acqStamp (t : Thread) (w : Bool) (d : Dst) (v : DWord) : (t.result w d v).acqStamp = t.acqStamp := by
  simp [Thread.result]
@[simp] theorem Thread.setDst_tlStamp (t : Thread) (w : Bool) (d : Dst) (v : DWord) : (t.setDst w d v).tlStamp = t.tlStamp := by
  obtain ⟨_, _, _, _, _, h⟩ := t.setDst_cases w d v
  rw [h]
@[simp] theorem Thread.result_tlStamp (t : Thread) (w : Bool) (d : Dst) (v : DWord) : (t.result w d v).tlStamp = t.tlStamp := by
  simp [Thread.result]
@[simp] theorem Thread.setDst_age (t : Thread) (w : Bool) (d : Dst) (v : DWord) : (t.setDst w d v).age = t.age := by
  obtain ⟨_, _, _, _, _, h⟩ := t.setDst_cases w d v
  rw [h]
@[simp] theorem Thread.result_age (t : Thread) (w : Bool) (d : Dst) (v : DWord) : (t.result w d v).age = t.age := by
  simp [Thread.result]
@[simp] theorem Thread.result_lat (t : Thread) (w : Bool) (d : Dst) (v : DWord) : (t.result w d v).lat = extW w v := rfl

end Sys2Proof.Machine
end

