-- ==== Sys2Proof/Laws/Keep.lean ====
section
/-!
SUPPORT. What the memory hierarchy, translation and the fault buffer never touch: threads, operations, the issuing set,
scratchpads, queues, automata, grids, time and all else that `State.control` keeps.
-/

namespace Sys2Proof.Machine

/-- The state without what the memory hierarchy, translation and the fault buffer may change. -/
def State.control (s : State) : State :=
  { s with mem := [], keyTags := [], bad := [], sizes := [], l2 := [], l1 := [], icache := [], heat := [], tlb := [], atc := [], xreqs := [],
           xans := [], fresh := 0, stamp := 0, stamped := 0, nextEnt := 0, parts := [], teams := [], cores := [], host := [] }

theorem State.control_threads {s t : State} (h : t.control = s.control) : t.threads = s.threads :=
  congrArg (fun x => x.threads) h
theorem State.control_ops {s t : State} (h : t.control = s.control) : t.ops = s.ops := congrArg (fun x => x.ops) h
theorem State.control_cur {s t : State} (h : t.control = s.control) : t.cur = s.cur := congrArg (fun x => x.cur) h
theorem State.control_scr {s t : State} (h : t.control = s.control) : t.scr = s.scr := congrArg (fun x => x.scr) h
theorem State.control_nextOp {s t : State} (h : t.control = s.control) : t.nextOp = s.nextOp := congrArg (fun x => x.nextOp) h
theorem State.control_time {s t : State} (h : t.control = s.control) : t.time = s.time := congrArg (fun x => x.time) h
theorem State.control_grids {s t : State} (h : t.control = s.control) : t.grids = s.grids := congrArg (fun x => x.grids) h
theorem State.control_queues {s t : State} (h : t.control = s.control) : t.queues = s.queues := congrArg (fun x => x.queues) h
theorem State.control_slots {s t : State} (h : t.control = s.control) : t.slots = s.slots := congrArg (fun x => x.slots) h

/-- A fold of steps that each keep the control part keeps it. -/
theorem State.foldl_control {β : Type} (f : State → β → State) (hf : ∀ s b, (f s b).control = s.control) (l : List β) (s : State) :
    (l.foldl f s).control = s.control := by
  induction l generalizing s with
  | nil => rfl
  | cons b l ih => rw [List.foldl_cons, ih, hf]

@[simp] theorem State.updPart_control (s : State) (p : Nat) (f : Partition → Partition) : (s.updPart p f).control = s.control := rfl
@[simp] theorem State.updTeam_control (s : State) (k : Nat) (f : Team → Team) : (s.updTeam k f).control = s.control := rfl
@[simp] theorem State.updCore_control (s : State) (c : Nat) (f : CoreSt → CoreSt) : (s.updCore c f).control = s.control := rfl
@[simp] theorem State.takeFresh_control (s : State) (n : Nat) : (s.takeFresh n).control = s.control := rfl
@[simp] theorem State.writeBack_control (s : State) (la : Nat) (ln : L2Line) : (s.writeBack la ln).control = s.control := rfl

@[simp] theorem State.pick_control {α : Type} [DecidableEq α] (s : State) (a b : α) : (s.pick a b).1.control = s.control := by
  unfold State.pick; split <;> rfl

theorem State.evicted_control (s : State) (j : Nat) (o : Option L2Line) : (match o with
    | none => s
    | some ln => if ln.dirty || ln.poison || ln.err then s.writeBack (j % 2 ^ 52) ln else s : State).control = s.control := by
  cases o with
  | none => rfl
  | some ln => dsimp only; split <;> rfl

@[simp] theorem State.makeRoom_control (s : State) (k : Nat) : (s.makeRoom k).control = s.control := by
  unfold State.makeRoom
  dsimp only
  split
  · rfl
  · split
    · rfl
    · exact State.evicted_control s _ _

@[simp] theorem State.capLast_control (s : State) (k : Nat) : (s.capLast k).control = s.control := by
  unfold State.capLast
  dsimp only
  split
  · rfl
  · split <;> rfl

@[simp] theorem State.enter_control (s : State) (a : Acc) : (s.enter a).1.control = s.control := by
  unfold State.enter
  dsimp only
  split
  · simp only [State.capLast_control]; rfl
  · simp only [State.capLast_control]
    exact State.makeRoom_control s _

@[simp] theorem State.touch_control (s : State) (a : Acc) : (s.touch a).1.control = s.control := by
  unfold State.touch
  dsimp only
  split
  · exact State.enter_control s a
  · split <;> exact State.enter_control s a

@[simp] theorem State.dropCode_control (s : State) (pa : Nat) : (s.dropCode pa).control = s.control := rfl

@[simp] theorem State.poke_control (s : State) (a : Acc) (bs : List Byte) : (s.poke a bs).control = s.control := by
  unfold State.poke
  dsimp only
  split <;> exact State.enter_control s a

@[simp] theorem State.heatSettle_control (s : State) (p f : Nat) : (s.heatSettle p f).control = s.control := by
  unfold State.heatSettle
  dsimp only
  split
  · rfl
  · split <;> simp

@[simp] theorem State.heatTaken_control (s : State) (p : Nat) : (s.heatTaken p).control = s.control := by
  unfold State.heatTaken; split <;> rfl

@[simp] theorem State.heatReq_control (s : State) (a : Acc) : (s.heatReq a).control = s.control := by
  unfold State.heatReq
  dsimp only
  split
  · rfl
  · split
    · simp only [State.heatTaken_control, State.poke_control, State.heatSettle_control]; rfl
    · rfl

@[simp] theorem State.endRecov_control (s : State) (t : Nat) : (s.endRecov t).control = s.control := rfl

@[simp] theorem State.noteWrite_control (s : State) (a : Acc) (wr : Option Nat) : (s.noteWrite a wr).control = s.control := by
  unfold State.noteWrite
  apply State.foldl_control
  intro s e
  dsimp only
  repeat' split
  all_goals simp

@[simp] theorem State.devRead_control (s : State) (a : Acc) (n : Nat) : (s.devRead a n).1.control = s.control := by
  unfold State.devRead
  dsimp only
  split <;> simp

@[simp] theorem State.devWrite_control (s : State) (a : Acc) (bs : List Byte) : (s.devWrite a bs).1.control = s.control := by
  unfold State.devWrite
  dsimp only
  split
  · simp
  · simp only [State.poke_control]
    split
    · exact (State.noteWrite_control _ _ _).trans (by simp)
    · simp

@[simp] theorem State.cacheWalk_control (s : State) (u p va log : Nat) (e : DWord) :
    (s.cacheWalk u p va log e).control = s.control := by
  unfold State.cacheWalk
  dsimp only
  split <;> rfl

@[simp] theorem State.walkPick_control (s : State) (u p va : Nat) : (s.walkPick u p va).1.control = s.control := by
  unfold State.walkPick
  dsimp only
  repeat' split
  all_goals simp

@[simp] theorem State.translate_control (s : State) (who : Asker) (p va : Nat) (n : Need) (h : Bool) :
    (s.translate who p va n h).1.control = s.control := by
  unfold State.translate
  dsimp only
  split
  · rfl
  · split <;> simp

@[simp] theorem State.askHost_control (s : State) (who : Asker) (p v : Nat) (wr : Bool) : (s.askHost who p v wr).control = s.control := by
  unfold State.askHost
  dsimp only
  split <;> rfl

@[simp] theorem State.usedAnswer_control (s : State) (who : Asker) : (s.usedAnswer who).control = s.control := by
  unfold State.usedAnswer; split <;> rfl

@[simp] theorem State.engineWrite_control (s : State) (who : Asker) (p va : Nat) (bs : List Byte) :
    (s.engineWrite who p va bs).1.control = s.control := by
  unfold State.engineWrite
  suffices h : ∀ (l : List (Nat × Nat)) (f : State × Bool → Nat × Nat → State × Bool) (a : State × Bool),
      (∀ a x, (f a x).1.control = a.1.control) → (l.foldl f a).1.control = a.1.control by
    refine h _ _ (s, true) ?_
    intro a x
    dsimp only
    split
    · rfl
    · split <;> simp
      · exact State.translate_control a.1 who p _ _ _
  intro l f
  induction l with
  | nil => intro a _; rfl
  | cons x l ih => intro a hf; rw [List.foldl_cons, ih _ hf, hf]

@[simp] theorem State.addRec_control (s : State) (p : Nat) (x : Rep) : (s.addRec p x).control = s.control := rfl

@[simp] theorem State.ringOverflow_control (s : State) (p va e : Nat) : (s.ringOverflow p va e).control = s.control := by
  unfold State.ringOverflow
  split <;> simp

@[simp] theorem State.writeRec_control (s : State) (p : Nat) (r : FRec) : (s.writeRec p r).1.control = s.control := by
  unfold State.writeRec
  dsimp only
  split
  · split <;> simp
  · simp

@[simp] theorem State.drainRecs_control (s : State) (p n : Nat) : (s.drainRecs p n).control = s.control := by
  induction n generalizing s with
  | zero => rfl
  | succ n ih =>
    unfold State.drainRecs
    dsimp only
    split
    · rfl
    · rename_i r _
      split
      · rw [ih]; rfl
      · split
        · rfl
        · have h := State.writeRec_control s p r
          split
          · rename_i h'; rw [h'] at h; exact h
          · rename_i h'; rw [ih]; rw [h'] at h; exact h

@[simp] theorem State.report_control (s : State) (p : Nat) (x : Rep) : (s.report p x).1.control = s.control := by
  unfold State.report
  dsimp only
  split
  · rfl
  · simp only [State.drainRecs_control, State.addRec_control]

@[simp] theorem State.meets_control (s : State) (k : Nat) (c : BitVec 8) (va : DWord) : (s.meets k c va).control = s.control := by
  unfold State.meets
  split <;> rfl

@[simp] theorem State.reportLanes_control (s : State) (c : Nat) (all ls : List LFault) :
    (s.reportLanes c all ls).1.control = s.control := by
  induction ls generalizing s with
  | nil => rfl
  | cons l ls ih =>
    unfold State.reportLanes
    dsimp only
    split
    · exact ih s
    · split
      · exact ih s
      · simp [ih]

end Sys2Proof.Machine
end

