-- ==== Sys2Proof/Laws/Issue.lean ====
section
/-!
SUPPORT. What one issue does: taking an exception touches only the threads that fault; a lane that takes a word ends in the
thread its part of the word gives.
-/

namespace Sys2Proof.Machine

/-! ### One thread under updates of others -/

@[simp] theorem State.thread?_updThread_other (s : State) (k j : Nat) (f : Thread → Thread) (h : k ≠ j) :
    (s.updThread j f).thread? k = s.thread? k := SMap.find?_upd_other _ _ _ _ h

theorem State.thread?_updThread_same (s : State) (k : Nat) (f : Thread → Thread) :
    (s.updThread k f).thread? k = (s.thread? k).map f := SMap.find?_upd_same _ _ _

theorem State.thread?_of_control {s t : State} (h : t.control = s.control) (k : Nat) : t.thread? k = s.thread? k := by
  unfold State.thread?
  rw [State.control_threads h]

theorem State.foldl_thread? {β : Type} (f : State → β → State) (k : Nat) (l : List β)
    (hf : ∀ b ∈ l, ∀ s, (f s b).thread? k = s.thread? k) (s : State) : (l.foldl f s).thread? k = s.thread? k := by
  induction l generalizing s with
  | nil => rfl
  | cons b l ih =>
    rw [List.foldl_cons, ih (fun b hb => hf b (List.mem_cons_of_mem _ hb)), hf b List.mem_cons_self]

/-! ### Taking an exception -/

theorem State.parkGroup_thread? (s : State) (c b k : Nat) (ls : List LFault) (recs : List (Nat × Nat))
    (h : ∀ l ∈ ls, l.slot ≠ k) : (s.parkGroup c b ls recs).thread? k = s.thread? k := by
  have each : ∀ (g : LFault → Thread → Thread) (s : State),
      (ls.foldl (fun s m => s.updThread m.slot (g m)) s).thread? k = s.thread? k := by
    intro g s
    apply State.foldl_thread?
    intro m hm s
    exact State.thread?_updThread_other s k m.slot _ (Ne.symm (h m hm))
  unfold State.parkGroup
  split
  · rfl
  · split
    · dsimp only
      split
      · rw [State.foldl_thread? (fun s (m : LFault) => s.leaveRegroup m.slot) k _ (fun m _ s => rfl)]
        rw [each]; rfl
      · rw [each]; rfl
    · dsimp only
      rw [each]; rfl

/-- An exception leaves every thread that does not fault as it was. -/
theorem State.fault_thread? (s : State) (c b k : Nat) (ls : List LFault) (h : ∀ l ∈ ls, l.slot ≠ k) :
    (s.fault c b ls).thread? k = s.thread? k := by
  unfold State.fault
  split
  · rfl
  · dsimp only
    rw [State.foldl_thread?]
    · rw [State.foldl_thread?]
      · apply State.foldl_thread?
        intro l _ s
        exact State.thread?_of_control (State.usedAnswer_control s _) k
      · intro l _ s
        exact State.thread?_of_control (State.meets_control s _ _ _) k
    · intro x _ s
      rw [State.parkGroup_thread?]
      · exact State.thread?_of_control (State.reportLanes_control s c _ _) k
      · intro l hl
        simp only [List.mem_filter] at hl
        exact h l hl.1.1

@[simp] theorem State.parkGroup_cur (s : State) (c b : Nat) (ls : List LFault) (recs : List (Nat × Nat)) :
    (s.parkGroup c b ls recs).cur = s.cur := by
  have each : ∀ (g : LFault → Thread → Thread) (s : State) (ls : List LFault),
      (ls.foldl (fun s m => s.updThread m.slot (g m)) s).cur = s.cur := by
    intro g s ls
    induction ls generalizing s with
    | nil => rfl
    | cons l ls ih => rw [List.foldl_cons, ih]; rfl
  have leave : ∀ (s : State) (ls : List LFault), (ls.foldl (fun s m => s.leaveRegroup m.slot) s).cur = s.cur := by
    intro s ls
    induction ls generalizing s with
    | nil => rfl
    | cons l ls ih => rw [List.foldl_cons, ih]; rfl
  unfold State.parkGroup
  split
  · rfl
  · split
    · dsimp only
      split
      · rw [leave, each]; rfl
      · rw [each]; rfl
    · dsimp only
      rw [each]; rfl

@[simp] theorem State.fault_cur (s : State) (c b : Nat) (ls : List LFault) : (s.fault c b ls).cur = s.cur := by
  have key : ∀ (l : List (BitVec 8)) (f : BitVec 8 → State → State) (_ : ∀ x s, (f x s).cur = s.cur) (s : State),
      (l.foldl (fun s x => f x s) s).cur = s.cur := by
    intro l f hf
    induction l with
    | nil => intro s; rfl
    | cons x l ih => intro s; rw [List.foldl_cons, ih, hf]
  unfold State.fault
  split
  · rfl
  · dsimp only
    rw [key _ (fun x s => _) ?_]
    · rw [State.control_cur (State.foldl_control _ (fun s (l : LFault) =>
        (State.updTeam_control _ _ _).trans (State.meets_control s l.slot l.code l.va)) _ _)]
      exact State.control_cur (State.foldl_control _ (fun s l => State.usedAnswer_control s _) _ _)
    · intro x s
      rw [State.parkGroup_cur]
      exact State.control_cur (State.reportLanes_control s c _ _)

/-- With nothing to take there is no exception. -/
@[simp] theorem State.fault_nil (s : State) (c b : Nat) : s.fault c b [] = s := rfl

/-! ### A lane's part -/

/-- The thread a lane's effect leaves. -/
def Fx.after (fx : Fx) (t : Thread) : Thread :=
  fx.ops.foldl (fun t o => t.counted o.cls o.marks) (match fx.jump with
    | none => (fx.th t).next
    | some pc => (fx.th t).setPc pc)

/-- The thread a lane's outcome leaves; `n` numbers the grid it asks for. -/
def LaneOut.thread (n : Nat) (t : Thread) : LaneOut → Thread
  | .off => t.next
  | .fault _ => t
  | .ask vpn _ _ => { t with hold := .xlate vpn }
  | .ok fx =>
    match fx.req with
    | none => fx.after t
    | some _ => { fx.after t with hold := .glaunch n }

/-- The operations an outcome issues. -/
def LaneOut.ops : LaneOut → List Op
  | .ok fx => fx.ops
  | _ => []

/-- A lane's outcome leaves its thread as `LaneOut.thread` says, but for the stamp of an acquiring fence, which only an access
takes. -/
def LaneOut.leaves (o : LaneOut) (t u : Thread) : Prop :=
  ∃ n r a, (o.ops = [] → r = (o.thread n t).renew ∧ a = (o.thread n t).acqStamp)
    ∧ u = { o.thread n t with renew := r, acqStamp := a }

theorem LaneOut.leaves_self (o : LaneOut) (n : Nat) (t : Thread) : o.leaves t (o.thread n t) :=
  ⟨n, _, _, fun _ => ⟨rfl, rfl⟩, rfl⟩

/-- An outcome that issues nothing leaves exactly that thread. -/
theorem LaneOut.leaves_plain {o : LaneOut} {t u : Thread} (h : o.leaves t u) (ho : o.ops = []) : ∃ n, u = o.thread n t := by
  obtain ⟨n, r, a, h1, rfl⟩ := h
  obtain ⟨rfl, rfl⟩ := h1 ho
  exact ⟨n, rfl⟩

theorem State.renewed_other (s : State) (o : Op) (k : Nat) (h : k ≠ o.slot) : (s.renewed o).thread? k = s.thread? k := by
  unfold State.renewed
  split
  · rfl
  · split
    · exact State.thread?_updThread_other s k o.slot _ h
    · rfl

theorem State.foldl_issueOp_other (ops : List Op) (k j : Nat) (h : ∀ x ∈ ops, x.slot = j) (hk : k ≠ j) (s : State) :
    (ops.foldl (fun s o => s.issueOp o) s).thread? k = s.thread? k := by
  apply State.foldl_thread?
  intro x hx s
  have := h x hx
  exact (State.thread?_updThread_other _ k x.slot _ (by omega)).trans (State.renewed_other s x k (by omega))

theorem foldl_counted (ops : List Op) (t : Thread) (r : Bool) (a : Nat) :
    ops.foldl (fun t o => t.counted o.cls o.marks) { t with renew := r, acqStamp := a }
      = { ops.foldl (fun t o => t.counted o.cls o.marks) t with renew := r, acqStamp := a } := by
  induction ops generalizing t with
  | nil => rfl
  | cons o ops ih => rw [List.foldl_cons, List.foldl_cons, ← ih]; rfl

/-- The operations of a lane issue: its counts and marks rise, and the first access behind an acquiring fence takes a fresh stamp
(R183). -/
theorem State.foldl_issueOp_same (ops : List Op) (k : Nat) (h : ∀ x ∈ ops, x.slot = k) (s : State) (t : Thread)
    (ht : s.thread? k = some t) : ∃ r a, (ops = [] → r = t.renew ∧ a = t.acqStamp) ∧
      (ops.foldl (fun s o => s.issueOp o) s).thread? k
        = some { ops.foldl (fun t o => t.counted o.cls o.marks) t with renew := r, acqStamp := a } := by
  induction ops generalizing s t with
  | nil => exact ⟨t.renew, t.acqStamp, fun _ => ⟨rfl, rfl⟩, ht⟩
  | cons x ops ih =>
    have hx := h x List.mem_cons_self
    have h1 : ∃ r a, (s.renewed x).thread? k = some { t with renew := r, acqStamp := a } := by
      unfold State.renewed
      rw [hx, ht]
      dsimp only
      split
      · exact ⟨false, s.stamp, by rw [State.thread?_updThread_same, ht]; rfl⟩
      · exact ⟨t.renew, t.acqStamp, ht⟩
    obtain ⟨r, a, h1⟩ := h1
    have h2 : (s.issueOp x).thread? k = some { t.counted x.cls x.marks with renew := r, acqStamp := a } := by
      change ((s.renewed x).updThread x.slot (fun t => t.counted x.cls x.marks)).thread? k = _
      rw [hx, State.thread?_updThread_same, h1]
      rfl
    obtain ⟨r', a', -, h3⟩ := ih (fun y hy => h y (List.mem_cons_of_mem _ hy)) _ _ h2
    refine ⟨r', a', fun e => (List.cons_ne_nil _ _ e).elim, ?_⟩
    rw [List.foldl_cons, h3, foldl_counted]
    rfl

@[simp] theorem State.onward_threads (s : State) (j : Nat) : (s.onward j).threads = s.threads := by
  unfold State.onward
  dsimp only
  split
  · exact State.control_threads (State.usedAnswer_control s (.lane j))
  · exact (rfl : _ = (s.usedAnswer (.lane j)).threads).trans (State.control_threads (State.usedAnswer_control s (.lane j)))

theorem State.onward_thread? (s : State) (j k : Nat) : (s.onward j).thread? k = s.thread? k :=
  congrArg (fun m => SMap.find? m k) (State.onward_threads s j)

@[simp] theorem State.onward_cur (s : State) (j : Nat) : (s.onward j).cur = s.cur := by
  unfold State.onward
  dsimp only
  split
  · exact State.control_cur (State.usedAnswer_control s (.lane j))
  · exact (rfl : _ = (s.usedAnswer (.lane j)).cur).trans (State.control_cur (State.usedAnswer_control s (.lane j)))

theorem State.askHost_thread? (s : State) (who : Asker) (p v : Nat) (wr : Bool) (k : Nat) :
    (s.askHost who p v wr).thread? k = s.thread? k := State.thread?_of_control (State.askHost_control s who p v wr) k

/-- A lane's outcome leaves the threads of other lanes as they were. -/
theorem State.applyLane_other (s : State) (k j : Nat) (o : LaneOut) (h : k ≠ j)
    (ho : ∀ fx, o = .ok fx → ∀ x ∈ fx.ops, x.slot = j) : (s.applyLane j o).thread? k = s.thread? k := by
  cases o with
  | off => exact (State.thread?_updThread_other _ k j _ h).trans (State.onward_thread? s j k)
  | fault f => exact State.onward_thread? s j k
  | ask v w iss =>
    simp only [State.applyLane]
    rw [State.askHost_thread?]
    exact (State.thread?_updThread_other _ k j _ h).trans (State.thread?_of_control (State.usedAnswer_control s _) k)
  | ok fx =>
    have hops := fun s => State.foldl_issueOp_other fx.ops k j (ho fx rfl) h s
    have step : ∀ (s' : State) (f : Thread → Thread), s'.thread? k = s.thread? k →
        (s'.updThread j f).thread? k = s.thread? k := fun s' f e => (State.thread?_updThread_other s' k j f h).trans e
    cases hreq : fx.req with
    | none =>
      simp only [State.applyLane, hreq]
      exact (hops _).trans (step _ _ (State.onward_thread? s j k))
    | some r =>
      simp only [State.applyLane, hreq]
      exact step _ _ ((hops _).trans (step _ _ (State.onward_thread? s j k)))

/-- A lane's outcome leaves its own thread as it says. -/
theorem State.applyLane_same (s : State) (k : Nat) (o : LaneOut) (t : Thread) (ht : s.thread? k = some t)
    (ho : ∀ fx, o = .ok fx → ∀ x ∈ fx.ops, x.slot = k) : ∃ u, o.leaves t u ∧ (s.applyLane k o).thread? k = some u := by
  have upd : ∀ (s' : State) (t' : Thread) (f : Thread → Thread), s'.thread? k = some t' →
      (s'.updThread k f).thread? k = some (f t') := by
    intro s' t' f e
    rw [State.thread?_updThread_same, e]
    rfl
  have ht' : (s.onward k).thread? k = some t := (State.onward_thread? s k k).trans ht
  cases o with
  | off => exact ⟨_, LaneOut.leaves_self _ 0 t, upd _ t _ ht'⟩
  | fault f => exact ⟨_, LaneOut.leaves_self _ 0 t, ht'⟩
  | ask v w iss =>
    refine ⟨_, LaneOut.leaves_self _ 0 t, ?_⟩
    simp only [State.applyLane, State.askHost_thread?]
    exact upd _ t _ ((State.thread?_of_control (State.usedAnswer_control s _) k).trans ht)
  | ok fx =>
    obtain ⟨r, a, hr, after⟩ := State.foldl_issueOp_same fx.ops k (ho fx rfl) _ _ (upd _ t (fun t => match fx.jump with
      | none => (fx.th t).next
      | some pc => (fx.th t).setPc pc) ht')
    cases hreq : fx.req with
    | none =>
      refine ⟨_, ⟨0, r, a, fun e => ?_, rfl⟩, ?_⟩
      · have := hr e
        simp only [LaneOut.ops] at e
        simpa only [LaneOut.thread, hreq, Fx.after, e, List.foldl_nil] using this
      · simp only [State.applyLane, hreq, LaneOut.thread, Fx.after]
        exact after
    | some q =>
      refine ⟨_, ⟨State.nextEnt (fx.ops.foldl (fun s o => s.issueOp o) ((s.onward k).updThread k (fun t => match fx.jump with
        | none => (fx.th t).next
        | some pc => (fx.th t).setPc pc))), r, a, fun e => ?_, rfl⟩, ?_⟩
      · have := hr e
        simp only [LaneOut.ops] at e
        simpa only [LaneOut.thread, hreq, Fx.after, e, List.foldl_nil] using this
      · simp only [State.applyLane, hreq, LaneOut.thread, Fx.after]
        exact upd _ _ _ after

/-! ### The whole issue -/

theorem takeRoom_sublist (p : Nat → Bool) (n : Nat) (l : List Nat) : (takeRoom p n l).Sublist l := by
  induction l generalizing n with
  | nil => simp [takeRoom]
  | cons k l ih =>
    unfold takeRoom
    split
    · exact (ih n).cons_cons k
    · cases n with
      | zero => exact (ih 0).cons k
      | succ m => exact (ih m).cons_cons k

/-- The lanes for which there is room are among those that pass. -/
theorem State.withRoom_sublist (s : State) (i : Instr) (l : List Nat) : (s.withRoom i l).Sublist l :=
  (takeRoom_sublist _ _ _).trans (takeRoom_sublist _ _ _)

@[simp] theorem State.noteDeps_thread? (s s0 : State) (i : Instr) (outs : List (Nat × LaneOut)) (k : Nat) :
    (s.noteDeps s0 i outs).thread? k = s.thread? k := by
  unfold State.noteDeps
  split
  · rfl
  · apply State.foldl_thread?
    intro e _ s
    split
    · rfl
    · unfold State.noteDep
      exact State.foldl_thread? (fun (s : State) (f : List RegId × Nat) => s.setDeps e.1 f.1 f.2) k _ (fun _ _ _ => rfl) s

theorem faultsOf_slot (outs : List (Nat × LaneOut)) (k : Nat)
    (h : ∀ e ∈ outs, ∀ f, e.2 = .fault f → f.slot = e.1) (hk : ∀ e ∈ outs, e.1 = k → ∀ f, e.2 ≠ .fault f) :
    ∀ l ∈ faultsOf outs, l.slot ≠ k := by
  induction outs with
  | nil => intro l hl; simp [faultsOf] at hl
  | cons e outs ih =>
    obtain ⟨j, o⟩ := e
    have ih' := ih (fun e he => h e (List.mem_cons_of_mem _ he)) (fun e he => hk e (List.mem_cons_of_mem _ he))
    cases o with
    | fault f =>
      intro l hl
      simp only [faultsOf, List.mem_cons] at hl
      rcases hl with rfl | hl
      · have h1 := h (j, .fault l) List.mem_cons_self l rfl
        intro hc
        exact hk (j, .fault l) List.mem_cons_self (by simpa [h1] using hc) l rfl
      · exact ih' l hl
    | off => intro l hl; exact ih' l (by simpa [faultsOf] using hl)
    | ok fx => intro l hl; exact ih' l (by simpa [faultsOf] using hl)
    | ask v w iss => intro l hl; exact ih' l (by simpa [faultsOf] using hl)

theorem State.laneOut_fault_slot (s : State) (i : Instr) (gd : Thread → Bool) (f : Lane → LaneRes) (base k : Nat) (t : Thread)
    (l : LFault) (h : s.laneOut i gd f base k t = .fault l) : l.slot = k := by
  unfold State.laneOut at h
  split at h
  · cases h; rfl
  · split at h
    · cases h; rfl
    · split at h
      · cases h
      · split at h
        · cases h
        · cases h; rfl
        · cases h

/-- Every outcome belongs to a lane of the list, from its thread and some free numbers. -/
theorem State.mem_outcomes (s : State) (i : Instr) (gd : Thread → Bool) (f : Lane → LaneRes) (ks : List Nat) (base : Nat)
    (e : Nat × LaneOut) (h : e ∈ s.outcomes i gd f base ks) :
    e.1 ∈ ks ∧ ∃ t b, s.thread? e.1 = some t ∧ e.2 = s.laneOut i gd f b e.1 t := by
  induction ks generalizing base with
  | nil => simp [State.outcomes] at h
  | cons k ks ih =>
    unfold State.outcomes at h
    split at h
    · obtain ⟨h1, h2⟩ := ih _ h
      exact ⟨List.mem_cons_of_mem _ h1, h2⟩
    · rename_i t ht
      rcases List.mem_cons.1 h with rfl | h
      · exact ⟨List.mem_cons_self, t, base, ht, rfl⟩
      · obtain ⟨h1, h2⟩ := ih _ h
        exact ⟨List.mem_cons_of_mem _ h1, h2⟩

/-- The effects of the lanes in order: a lane listed once ends as its own outcome says. -/
theorem State.outcomes_thread (s : State) (i : Instr) (gd : Thread → Bool) (f : Lane → LaneRes) (k : Nat) (t : Thread)
    (ks : List Nat) (hn : ks.Nodup) (hk : k ∈ ks) (ht : s.thread? k = some t) (base : Nat)
    (hs : ∀ j b u fx, s.laneOut i gd f b j u = .ok fx → ∀ x ∈ fx.ops, x.slot = j) :
    ∃ b, (k, s.laneOut i gd f b k t) ∈ s.outcomes i gd f base ks ∧
      (∀ e ∈ s.outcomes i gd f base ks, e.1 = k → e.2 = s.laneOut i gd f b k t) ∧
      ∀ s' : State, s'.thread? k = some t → ∃ u, (s.laneOut i gd f b k t).leaves t u ∧
        ((s.outcomes i gd f base ks).foldl (fun s e => s.applyLane e.1 e.2) s').thread? k = some u := by
  induction ks generalizing base with
  | nil => simp at hk
  | cons j ks ih =>
    obtain ⟨hj, hn⟩ := List.nodup_cons.1 hn
    unfold State.outcomes
    rcases Classical.em (k = j) with rfl | hne
    · rw [ht]
      refine ⟨base, List.mem_cons_self, ?_, fun s' hs' => ?_⟩
      · intro e he hek
        rcases List.mem_cons.1 he with rfl | he
        · rfl
        · exact absurd (hek ▸ (State.mem_outcomes s i gd f ks _ e he).1) hj
      · dsimp only
        rw [List.foldl_cons]
        obtain ⟨u, hu, hn'⟩ := State.applyLane_same s' k (s.laneOut i gd f base k t) t hs' (fun fx hfx => hs k base t fx hfx)
        refine ⟨u, hu, Eq.trans ?_ hn'⟩
        apply State.foldl_thread?
        intro e he s''
        obtain ⟨he1, u, b, hu, hb⟩ := State.mem_outcomes s i gd f ks _ e he
        apply State.applyLane_other
        · rintro rfl; exact hj he1
        · intro fx hfx x hx
          exact hs e.1 b u fx (hb ▸ hfx) x hx
    · have hk' : k ∈ ks := by
        rcases List.mem_cons.1 hk with h | h
        · exact absurd h hne
        · exact h
      split
      · exact ih hn hk' _
      · rename_i u hu
        obtain ⟨b, h1, h2, h3⟩ := ih hn hk' (base + laneFree)
        refine ⟨b, List.mem_cons_of_mem _ h1, ?_, fun s' hs' => ?_⟩
        · intro e he hek
          rcases List.mem_cons.1 he with rfl | he
          · exact absurd hek.symm hne
          · exact h2 e he hek
        · rw [List.foldl_cons]
          exact h3 _ ((State.applyLane_other s' k j _ hne (fun fx hfx => hs j base u fx hfx)).trans hs')

@[simp] theorem State.charge_thread? (s : State) (i : Instr) (l : List Nat) (k : Nat) : (s.charge i l).thread? k = s.thread? k := by
  unfold State.charge
  split <;> rfl

/-- A lane of the issue that does not fault ends, in the state an issue leaves, as its outcome says. -/
theorem State.runLanes_thread (s : State) (i : Instr) (gd : Thread → Bool) (f : Lane → LaneRes) (k : Nat) (t : Thread)
    (hn : s.cur.slots.Nodup) (hk : k ∈ s.issueSet i) (ht : s.thread? k = some t)
    (hs : ∀ j b u fx, s.laneOut i gd f b j u = .ok fx → ∀ x ∈ fx.ops, x.slot = j) :
    ∃ b, (∀ l, s.laneOut i gd f b k t ≠ .fault l) →
      ∃ u, (s.laneOut i gd f b k t).leaves t u ∧ (s.runLanes i gd f).s.thread? k = some u := by
  have hset : (s.issueSet i).Nodup := by
    unfold State.issueSet
    dsimp only
    split
    · exact (hn.filter _).sublist (State.withRoom_sublist s i _)
    · exact List.nodup_nil
  obtain ⟨b, h1, h2, h3⟩ := State.outcomes_thread s i gd f k t _ hset hk ht s.fresh hs
  refine ⟨b, fun hnf => ?_⟩
  obtain ⟨u, hu, hn'⟩ := h3 (s.charge i (s.issueSet i)) (by simpa using ht)
  refine ⟨u, hu, ?_⟩
  unfold State.runLanes
  dsimp only
  rw [State.fault_thread?]
  · exact (State.noteDeps_thread? _ _ i _ k).trans hn'
  · apply faultsOf_slot
    · intro e he l hl
      obtain ⟨_, u, b', _, hb⟩ := State.mem_outcomes s i gd f _ _ e he
      exact State.laneOut_fault_slot s i gd f b' e.1 u l (hb ▸ hl)
    · intro e he hek l hl
      exact hnf l ((h2 e he hek) ▸ hl)

/-- The outcome of a lane that takes the word is that of its part. -/
theorem Takes.laneOut {s : State} {i : Instr} {k : Nat} {t : Thread} (h : Takes s i k t) (gd : Thread → Bool) (f : Lane → LaneRes)
    (b : Nat) (hg : gd t = i.on t) : s.laneOut i gd f b k t = match f ⟨{ s with fresh := b + 3072 }, k, t, b⟩ with
      | .ok fx => .ok { fx with ops := fx.ops.map (fun o => { o with dep := s.depOf k (i.opSrcs t) }) }
      | .fault c va aux w => .fault ⟨k, c, t.pc, t.pc, va, aux, w, false, none⟩
      | .ask vpn w => .ask vpn w (s.issOf k) := by
  unfold State.laneOut
  rw [h.landing, h.clear, hg, h.on]
  rfl

/-- Step traps leave a lane that is not stepped. -/
theorem State.stepTraps_thread? (s : State) (pc : DWord) (l : List Nat) (k : Nat) (h : ∀ t, s.thread? k = some t → t.step = false) :
    (s.stepTraps pc l).thread? k = s.thread? k := by
  unfold State.stepTraps State.stepTrapsOn
  apply State.fault_thread?
  intro x hx
  simp only [List.mem_filterMap] at hx
  obtain ⟨j, _, hj⟩ := hx
  split at hj
  · cases hj
  · rename_i u hu
    split at hj
    · cases hj
      rintro rfl
      rename_i hc
      simp [h u hu] at hc
    · cases hj

theorem Fx.after_deps (fx : Fx) (n : Nat) (t : Thread) :
    Fx.after { fx with ops := fx.ops.map (fun o => { o with dep := n }) } t = fx.after t := by
  unfold Fx.after
  rw [List.foldl_map]

/-- The thread of a lane that takes a word with an effect and asks for no grid. -/
theorem State.issue_takes (s : State) (i : Instr) (gd : Thread → Bool) (f : Lane → LaneRes) (k : Nat) (t : Thread)
    (h : Takes s i k t) (hg : gd t = i.on t)
    (hs : ∀ j b u fx, s.laneOut i gd f b j u = .ok fx → ∀ x ∈ fx.ops, x.slot = j)
    (hok : ∀ b, ∃ fx, f ⟨{ s with fresh := b + 3072 }, k, t, b⟩ = .ok fx ∧ fx.req = none ∧ (fx.after t).step = false) :
    ∃ s' b fx u, s.issue i gd f = .next s' ∧ f ⟨{ s with fresh := b + 3072 }, k, t, b⟩ = .ok fx
      ∧ s'.thread? k = some u ∧ u = { fx.after t with renew := u.renew, acqStamp := u.acqStamp }
      ∧ (fx.ops = [] → u = fx.after t) := by
  obtain ⟨b, hb⟩ := State.runLanes_thread s i gd f k t h.once h.mem h.thread hs
  obtain ⟨fx, hfx, hreq, hstep⟩ := hok b
  have hout : s.laneOut i gd f b k t = .ok { fx with ops := fx.ops.map (fun o => { o with dep := s.depOf k (i.opSrcs t) }) } := by
    rw [h.laneOut gd f b hg, hfx]
  obtain ⟨u, hu, hn⟩ := hb (by intro l hl; rw [hout] at hl; cases hl)
  rw [hout] at hu
  have key : ∀ n, (LaneOut.ok { fx with ops := fx.ops.map (fun o => { o with dep := s.depOf k (i.opSrcs t) }) }).thread n t = fx.after t := by
    intro n
    unfold LaneOut.thread
    dsimp only
    split
    · exact Fx.after_deps fx _ t
    · rename_i r hr
      rw [hreq] at hr
      cases hr
  have hstep' : u.step = false := by
    obtain ⟨n, r, a, -, rfl⟩ := hu
    rw [key]
    exact hstep
  refine ⟨_, b, fx, u, rfl, hfx, ?_, ?_, ?_⟩
  · rw [State.stepTraps_thread? _ _ _ _ (by intro v hv; rw [hn] at hv; cases hv; exact hstep')]
    exact hn
  · obtain ⟨n, r, a, -, rfl⟩ := hu
    rw [key]
  · intro hops
    obtain ⟨n, rfl⟩ := LaneOut.leaves_plain hu (by simp [LaneOut.ops, hops])
    exact key n

/-- The parts of an issue that only write registers make no operations. -/
theorem regFx_ops (s : State) (i : Instr) (gd : Thread → Bool) (f : Lane → Thread → Thread) (j b : Nat) (u : Thread) (fx : Fx)
    (h : s.laneOut i gd (regFx f) b j u = .ok fx) : fx.ops = [] := by
  unfold State.laneOut regFx at h
  split at h
  · cases h
  · split at h
    · cases h
    · split at h
      · cases h
      · cases h; rfl

/-- A word that only writes registers, on a lane that takes it: its part of the word, and the next PC. -/
theorem State.issue_regFx (s : State) (i : Instr) (gd : Thread → Bool) (f : Lane → Thread → Thread) (k : Nat) (t : Thread)
    (h : Takes s i k t) (hg : gd t = i.on t) (hstep : ∀ l, (f l t).step = t.step) :
    ∃ s' b, s.issue i gd (regFx f) = .next s' ∧ s'.thread? k = some (f ⟨{ s with fresh := b + 3072 }, k, t, b⟩ t).next := by
  obtain ⟨s', b, fx, u, h1, h2, h3, -, h4⟩ := State.issue_takes s i gd (regFx f) k t h hg
    (fun j b u fx hfx x hx => by rw [regFx_ops s i gd f j b u fx hfx] at hx; cases hx)
    (fun b => ⟨_, rfl, rfl, by simpa [Fx.after] using (hstep _).trans h.free⟩)
  refine ⟨s', b, h1, ?_⟩
  cases h2
  rw [h3, h4 rfl]
  rfl

/-! ### A quiet issue of a word that only writes registers -/

/-- The state but for what such an issue changes. -/
def State.still (s : State) : State := { s with threads := [], cores := [], fresh := 0, deps := [], xans := [], late := [] }

theorem State.charge_still (s : State) (i : Instr) (l : List Nat) : (s.charge i l).still = s.still := by
  unfold State.charge
  split <;> rfl

theorem State.applyLane_plain (s : State) (k : Nat) (o : LaneOut)
    (h : o = .off ∨ ∃ fx, o = .ok fx ∧ fx.ops = [] ∧ fx.tlb = [] ∧ fx.req = none) :
    (s.applyLane k o).still = s.still := by
  have on : ∀ f, ((s.onward k).updThread k f).still = s.still := by
    intro f
    unfold State.onward State.usedAnswer
    dsimp only
    repeat' split
    all_goals rfl
  rcases h with rfl | ⟨fx, rfl, h1, h2, h3⟩
  · exact on _
  · simp only [State.applyLane, h1, h2, h3, List.foldl_nil, List.filter_nil, List.append_nil]
    exact on _

theorem State.noteDep_still (s : State) (i : Instr) (k : Nat) (t : Thread) : (s.noteDep i k t).still = s.still := by
  unfold State.noteDep
  generalize (i.flows t).map (fun f => (f.2, s.depOf k f.1)) = l
  induction l generalizing s with
  | nil => rfl
  | cons e l ih => rw [List.foldl_cons, ih]; rfl

theorem State.noteDeps_still (s s0 : State) (i : Instr) (outs : List (Nat × LaneOut)) : (s.noteDeps s0 i outs).still = s.still := by
  unfold State.noteDeps
  split
  · rfl
  · rename_i h
    clear h
    generalize outs.filter (fun e => e.2.isOk) = l
    induction l generalizing s with
    | nil => rfl
    | cons e l ih =>
      rw [List.foldl_cons, ih]
      split
      · rfl
      · exact State.noteDep_still _ i _ _

theorem faultsOf_plain (outs : List (Nat × LaneOut)) (h : ∀ e ∈ outs, ∀ f, e.2 ≠ .fault f) : faultsOf outs = [] := by
  induction outs with
  | nil => rfl
  | cons e outs ih =>
    obtain ⟨j, o⟩ := e
    have ih' := ih (fun e he => h e (List.mem_cons_of_mem _ he))
    cases o with
    | fault f => exact absurd rfl (h (j, .fault f) List.mem_cons_self f)
    | off => exact ih'
    | ok fx => exact ih'
    | ask v w iss => exact ih'

/-- In a quiet issue each lane's outcome is its part of the word, or the next word where its guard is false. -/
theorem Quiet.laneOut {s : State} {i : Instr} (h : Quiet s i) (gd : Thread → Bool) (f : Lane → LaneRes) (hg : ∀ t, gd t = i.on t)
    (k b : Nat) (t : Thread) (hk : k ∈ s.issueSet i) (ht : s.thread? k = some t) :
    s.laneOut i gd f b k t = if i.on t then (match f ⟨{ s with fresh := b + 3072 }, k, t, b⟩ with
      | .ok fx => .ok { fx with ops := fx.ops.map (fun o => { o with dep := s.depOf k (i.opSrcs t) }) }
      | .fault c va aux w => .fault ⟨k, c, t.pc, t.pc, va, aux, w, false, none⟩
      | .ask vpn w => .ask vpn w (s.issOf k)) else .off := by
  obtain ⟨h1, h2, _⟩ := h.each k hk t ht
  unfold State.laneOut
  rw [h1, h2, hg]
  cases i.on t <;> rfl

theorem State.issue_quiet (s : State) (i : Instr) (gd : Thread → Bool) (f : Lane → Thread → Thread) (h : Quiet s i)
    (hg : ∀ t, gd t = i.on t) (hstep : ∀ l t, (f l t).step = t.step) :
    ∃ s', s.issue i gd (regFx f) = .next s' ∧ s' = { s with threads := s'.threads, cores := s'.cores, fresh := s'.fresh,
                                                            deps := s'.deps, xans := s'.xans, late := s'.late }
      ∧ (∀ k, k ∉ s.issueSet i → s'.thread? k = s.thread? k)
      ∧ (∀ k ∈ s.issueSet i, ∀ t, s.thread? k = some t → i.on t = false → s'.thread? k = some t.next)
      ∧ (∀ k ∈ s.issueSet i, ∀ t, s.thread? k = some t → i.on t = true →
          ∃ b, s'.thread? k = some (f ⟨{ s with fresh := b + 3072 }, k, t, b⟩ t).next) := by
  have hlane := fun k b t hk ht => h.laneOut gd (regFx f) hg k b t hk ht
  have hplain : ∀ e ∈ s.outcomes i gd (regFx f) s.fresh (s.issueSet i),
      e.2 = .off ∨ ∃ fx, e.2 = .ok fx ∧ fx.ops = [] ∧ fx.tlb = [] ∧ fx.req = none := by
    intro e he
    obtain ⟨hk, t, b, ht, hb⟩ := State.mem_outcomes s i gd _ _ _ e he
    rw [hb, hlane e.1 b t hk ht]
    cases i.on t
    · exact .inl rfl
    · exact .inr ⟨_, rfl, rfl, rfl, rfl⟩
  have hfaults : faultsOf (s.outcomes i gd (regFx f) s.fresh (s.issueSet i)) = [] := by
    apply faultsOf_plain
    intro e he l hl
    rcases hplain e he with h | ⟨fx, h, _⟩ <;> (rw [h] at hl; cases hl)
  have hstill : ∀ (l : List (Nat × LaneOut)) (s' : State),
      (∀ e ∈ l, e.2 = .off ∨ ∃ fx, e.2 = .ok fx ∧ fx.ops = [] ∧ fx.tlb = [] ∧ fx.req = none) →
      (l.foldl (fun s e => s.applyLane e.1 e.2) s').still = s'.still := by
    intro l
    induction l with
    | nil => intro s' _; rfl
    | cons e l ih =>
      intro s' hl
      rw [List.foldl_cons, ih _ (fun x hx => hl x (List.mem_cons_of_mem _ hx))]
      exact State.applyLane_plain s' e.1 e.2 (hl e List.mem_cons_self)
  have hset : (s.issueSet i).Nodup := by
    unfold State.issueSet
    dsimp only
    split
    · exact (h.once.filter _).sublist (State.withRoom_sublist s i _)
    · exact List.nodup_nil
  have hops : ∀ j b u fx, s.laneOut i gd (regFx f) b j u = .ok fx → ∀ x ∈ fx.ops, x.slot = j := by
    intro j b u fx hfx x hx
    rw [regFx_ops s i gd f j b u fx hfx] at hx
    cases hx
  -- the threads of the issue, before step traps
  have hthread : ∀ k ∈ s.issueSet i, ∀ t, s.thread? k = some t → ∃ b,
      (s.runLanes i gd (regFx f)).s.thread? k
        = some (if i.on t then (f ⟨{ s with fresh := b + 3072 }, k, t, b⟩ t).next else t.next) := by
    intro k hk t ht
    obtain ⟨b, hb⟩ := State.runLanes_thread s i gd (regFx f) k t h.once hk ht hops
    have ho := hlane k b t hk ht
    obtain ⟨u, hu, hn⟩ := hb (by intro l hl; rw [ho] at hl; split at hl <;> cases hl)
    obtain ⟨n, rfl⟩ := LaneOut.leaves_plain hu (by rw [ho]; cases i.on t <;> rfl)
    refine ⟨b, ?_⟩
    rw [hn, ho]
    cases i.on t <;> rfl
  have htrap : ∀ pc, ((s.runLanes i gd (regFx f)).s).stepTraps pc
      ((s.runLanes i gd (regFx f)).took ++ (s.runLanes i gd (regFx f)).off) = (s.runLanes i gd (regFx f)).s := by
    intro pc
    unfold State.stepTraps State.stepTrapsOn
    rw [List.filterMap_eq_nil_iff.2 ?_]
    · rfl
    · intro k hk
      have hk' : k ∈ s.issueSet i := by
        unfold State.runLanes at hk
        simp only [List.mem_append, List.mem_map, List.mem_filter] at hk
        rcases hk with ⟨e, ⟨he, _⟩, rfl⟩ | ⟨e, ⟨he, _⟩, rfl⟩ <;> exact (State.mem_outcomes s i gd _ _ _ e he).1
      cases ht : s.thread? k with
      | none =>
        exfalso
        unfold State.runLanes at hk
        simp only [List.mem_append, List.mem_map, List.mem_filter] at hk
        rcases hk with ⟨e, ⟨he, _⟩, rfl⟩ | ⟨e, ⟨he, _⟩, rfl⟩ <;>
          (obtain ⟨_, t, _, ht', _⟩ := State.mem_outcomes s i gd _ _ _ e he; rw [ht] at ht'; cases ht')
      | some t =>
        obtain ⟨b, hb⟩ := hthread k hk' t ht
        rw [hb]
        have hs := (h.each k hk' t ht).2.2
        have : (if i.on t then (f ⟨{ s with fresh := b + 3072 }, k, t, b⟩ t).next else t.next).step = false := by
          split
          · simpa using (hstep _ t).trans hs
          · simpa using hs
        simp [this]
  refine ⟨(s.runLanes i gd (regFx f)).s, ?_, ?_, ?_, ?_, ?_⟩
  · unfold State.issue
    dsimp only
    rw [htrap]
  · have : (s.runLanes i gd (regFx f)).s.still = s.still := by
      unfold State.runLanes
      dsimp only
      rw [hfaults, State.fault_nil]
      exact (State.noteDeps_still _ _ i _).trans ((hstill _ _ hplain).trans (State.charge_still s i _))
    generalize (s.runLanes i gd (regFx f)).s = s' at this
    cases s; cases s'
    simp only [State.still, State.mk.injEq] at this
    simp only [State.mk.injEq]
    simp [this]
  · intro k hk
    unfold State.runLanes
    dsimp only
    rw [hfaults, State.fault_nil]
    refine (State.noteDeps_thread? _ _ i _ k).trans ?_
    rw [State.foldl_thread?]
    · exact State.charge_thread? s i _ k
    · intro e he s'
      obtain ⟨he1, u, b, hu, hb⟩ := State.mem_outcomes s i gd _ _ _ e he
      apply State.applyLane_other
      · rintro rfl; exact hk he1
      · intro fx hfx x hx
        exact hops e.1 b u fx (hb ▸ hfx) x hx
  · intro k hk t ht ho
    obtain ⟨b, hb⟩ := hthread k hk t ht
    rw [hb, ho]
    rfl
  · intro k hk t ht ho
    obtain ⟨b, hb⟩ := hthread k hk t ht
    exact ⟨b, by rw [hb, ho]; rfl⟩

end Sys2Proof.Machine
end

