-- ==== Sys2Proof/Laws/Fault.lean ====
section
/-!
SUPPORT. Taking an exception: a lane that faults parks, or waits for a permit.
-/

namespace Sys2Proof.Machine

theorem foldl_upd_same (g : LFault → Thread → Thread) (ls : List LFault) (l : LFault) (t : Thread)
    (hn : (ls.map (·.slot)).Nodup) (hl : l ∈ ls) (s : State) (ht : s.thread? l.slot = some t) :
    (ls.foldl (fun s m => s.updThread m.slot (g m)) s).thread? l.slot = some (g l t) := by
  induction ls generalizing s with
  | nil => cases hl
  | cons m ls ih =>
    rw [List.foldl_cons]
    simp only [List.map_cons, List.nodup_cons] at hn
    rcases List.mem_cons.1 hl with rfl | hl
    · rw [State.foldl_thread?]
      · rw [State.thread?_updThread_same, ht]; rfl
      · intro x hx s
        apply State.thread?_updThread_other
        intro e
        exact hn.1 (e ▸ List.mem_map_of_mem hx)
    · apply ih hn.2 hl
      rw [State.thread?_updThread_other]
      · exact ht
      · intro e
        exact hn.1 (e ▸ List.mem_map_of_mem hl)

/-- One sub-group: each of its lanes is parked with the faults it met, or waits for a permit. -/
theorem State.parkGroup_same (s : State) (c b : Nat) (ls : List LFault) (recs : List (Nat × Nat)) (l : LFault) (t : Thread)
    (hn : (ls.map (·.slot)).Nodup) (hl : l ∈ ls) (ht : s.thread? l.slot = some t) :
    (∃ fr, (s.parkGroup c b ls recs).thread? l.slot = some (t.stop ⟨l.code, l.pc, l.fpc, l.va, l.aux, l.defer, false, fr⟩))
    ∨ (∃ n d, (s.parkGroup c b ls recs).thread? l.slot = some { t with retry := some n, due := d }) := by
  unfold State.parkGroup
  cases ls with
  | nil => cases hl
  | cons m ls =>
    dsimp only
    split
    · left
      refine ⟨(recs.find? (fun e => e.1 == l.slot)).map (·.2), ?_⟩
      have key := foldl_upd_same (fun m t => t.stop ⟨m.code, m.pc, m.fpc, m.va, m.aux, m.defer, false,
        (recs.find? (fun e => e.1 == m.slot)).map (·.2)⟩) (m :: ls) l t hn hl
      split
      · rw [State.foldl_thread? (fun s (m : LFault) => s.leaveRegroup m.slot) l.slot _ (fun m _ s => rfl)]
        exact key _ ht
      · exact key _ ht
    · right
      exact ⟨_, _, foldl_upd_same (fun m t => { t with retry := some _, due := if m.code = (0x60 : BitVec 8) then some m.fpc else t.due })
        (m :: ls) l t hn hl _ ht⟩

theorem codesOf_nodup (ls : List LFault) : (codesOf ls).Nodup := by
  unfold codesOf
  apply List.Nodup.filter
  refine List.Nodup.map_on ?_ List.nodup_range
  intro a ha b hb h
  have := congrArg BitVec.toNat h
  simp only [BitVec.toNat_ofNat] at this
  have := List.mem_range.1 ha
  have := List.mem_range.1 hb
  omega

theorem mem_codesOf (ls : List LFault) (l : LFault) (h : l ∈ ls) : l.code ∈ codesOf ls := by
  unfold codesOf
  rw [List.mem_filter]
  refine ⟨?_, ?_⟩
  · rw [List.mem_map]
    exact ⟨l.code.toNat, List.mem_range.2 l.code.isLt, by simp⟩
  · rw [List.any_eq_true]
    exact ⟨l, h, by simp⟩

theorem foldl_once {β : Type} (f : State → β → State) (P : Thread → Prop) (k : Nat) (t : Thread) (l : List β) (x : β) (hx : x ∈ l)
    (hn : l.Nodup) (ho : ∀ y ∈ l, y ≠ x → ∀ s, (f s y).thread? k = s.thread? k)
    (hs : ∀ s, s.thread? k = some t → ∃ u, (f s x).thread? k = some u ∧ P u) (s : State) (ht : s.thread? k = some t) :
    ∃ u, (l.foldl f s).thread? k = some u ∧ P u := by
  induction l generalizing s with
  | nil => cases hx
  | cons y l ih =>
    rw [List.foldl_cons]
    rcases List.mem_cons.1 hx with rfl | hx'
    · obtain ⟨u, hu, hp⟩ := hs s ht
      refine ⟨u, ?_, hp⟩
      rw [State.foldl_thread?]
      · exact hu
      · intro z hz s
        exact ho z (List.mem_cons_of_mem _ hz) (fun e => (List.nodup_cons.1 hn).1 (e ▸ hz)) s
    · refine ih hx' (List.nodup_cons.1 hn).2 (fun z hz => ho z (List.mem_cons_of_mem _ hz)) _ ?_
      rw [ho y List.mem_cons_self (fun e => (List.nodup_cons.1 hn).1 (e ▸ hx'))]
      exact ht

/-- A lane that faults, and does not consume an uncorrectable error of a rollback team, is parked with what it met, or waits
for a permit. -/
theorem State.fault_same (s : State) (c b : Nat) (ls : List LFault) (l : LFault) (t : Thread)
    (hn : (ls.map (·.slot)).Nodup) (hl : l ∈ ls) (ht : s.thread? l.slot = some t)
    (hc : l.code ≠ 0x40 ∧ l.code ≠ 0x17) :
    ∃ u, (s.fault c b ls).thread? l.slot = some u ∧
      ((∃ fr, u = t.stop ⟨l.code, l.pc, l.fpc, l.va, l.aux, l.defer, false, fr⟩) ∨ (∃ n d, u = { t with retry := some n, due := d })) := by
  have hce : ∀ s : State, s.consumesError l = false := by
    intro s
    unfold State.consumesError
    rw [show (l.code == 0x40) = false from by simpa using hc.1, show (l.code == 0x17) = false from by simpa using hc.2]
    rfl
  unfold State.fault
  have hne : ls.isEmpty = false := by cases ls with | nil => cases hl | cons => rfl
  rw [hne]
  simp only [Bool.false_eq_true, if_false]
  generalize hs1 : ls.foldl (fun s l => s.usedAnswer (.lane l.slot)) s = s1
  have h0 : s1.thread? l.slot = some t := by
    rw [← hs1, State.foldl_thread? _ _ _ (fun m _ s => State.thread?_of_control (State.usedAnswer_control s _) _)]
    exact ht
  generalize hs2 : List.foldl _ s1 (ls.filter s1.consumesError) = s2
  have h2 : s2.thread? l.slot = some t := by
    rw [← hs2]
    refine (State.foldl_thread? _ _ _ ?_ s1).trans h0
    intro m _ s
    exact State.thread?_of_control (State.meets_control s m.slot m.code m.va) _
  have hmem : l ∈ ls.filter (fun l => !s2.consumesError l) := List.mem_filter.2 ⟨hl, by rw [hce]; rfl⟩
  have hnd : ((ls.filter (fun l => !s2.consumesError l)).map (·.slot)).Nodup := hn.sublist (List.filter_sublist.map _)
  generalize ls.filter (fun l => !s2.consumesError l) = ls2 at hmem hnd ⊢
  refine foldl_once _ (fun u => (∃ fr, u = t.stop ⟨l.code, l.pc, l.fpc, l.va, l.aux, l.defer, false, fr⟩)
    ∨ (∃ n d, u = { t with retry := some n, due := d })) l.slot t (codesOf ls2) l.code (mem_codesOf ls2 l hmem)
    (codesOf_nodup ls2) ?_ ?_ s2 h2
  · intro y _ hy s
    rw [State.parkGroup_thread?]
    · exact State.thread?_of_control (State.reportLanes_control s c _ _) _
    · intro m hm e
      simp only [List.mem_filter] at hm
      have : m = l := List.inj_on_of_nodup_map hnd hm.1 hmem e
      subst this
      simp at hm
      exact hy hm.2.symm
  · intro s hs
    have hs' : (s.reportLanes c (ls2.filter (fun x => x.code == l.code)) (ls2.filter (fun x => x.code == l.code)).reverse).1.thread? l.slot
        = some t := (State.thread?_of_control (State.reportLanes_control s c _ _) _).trans hs
    rcases State.parkGroup_same _ c b (ls2.filter (fun x => x.code == l.code))
      (s.reportLanes c (ls2.filter (fun x => x.code == l.code)) (ls2.filter (fun x => x.code == l.code)).reverse).2 l t
      (hnd.sublist (List.filter_sublist.map _)) (List.mem_filter.2 ⟨hmem, by simp⟩) hs' with ⟨fr, h⟩ | ⟨n, d, h⟩
    · exact ⟨_, h, .inl ⟨fr, rfl⟩⟩
    · exact ⟨_, h, .inr ⟨n, d, rfl⟩⟩

theorem outcomes_fst (s : State) (i : Instr) (gd : Thread → Bool) (f : Lane → LaneRes) (ks : List Nat) (base : Nat) :
    ((s.outcomes i gd f base ks).map (·.1)).Sublist ks := by
  induction ks generalizing base with
  | nil => exact List.Sublist.refl _
  | cons k ks ih =>
    unfold State.outcomes
    split
    · exact (ih _).cons _
    · exact (ih _).cons_cons _

theorem faultsOf_slots (outs : List (Nat × LaneOut)) (h : ∀ e ∈ outs, ∀ f, e.2 = .fault f → f.slot = e.1) :
    ((faultsOf outs).map (·.slot)).Sublist (outs.map (·.1)) := by
  induction outs with
  | nil => exact List.Sublist.refl _
  | cons e outs ih =>
    obtain ⟨j, o⟩ := e
    have ih' := ih (fun e he => h e (List.mem_cons_of_mem _ he))
    cases o with
    | fault f =>
      have := h (j, .fault f) List.mem_cons_self f rfl
      simp only [faultsOf, List.map_cons, this]
      exact ih'.cons_cons _
    | off => exact ih'.cons _
    | ok fx => exact ih'.cons _
    | ask v w iss => exact ih'.cons _

theorem mem_faultsOf (outs : List (Nat × LaneOut)) (k : Nat) (l : LFault) (h : (k, .fault l) ∈ outs) : l ∈ faultsOf outs := by
  induction outs with
  | nil => cases h
  | cons e outs ih =>
    obtain ⟨j, o⟩ := e
    rcases List.mem_cons.1 h with e | h'
    · cases e
      exact List.mem_cons_self
    · cases o with
      | fault f => exact List.mem_cons_of_mem _ (ih h')
      | off => exact ih h'
      | ok fx => exact ih h'
      | ask v w iss => exact ih h'

/-- A lane whose part of a word is a fault takes the exception, whatever the other lanes do. -/
theorem State.issue_traps (s : State) (i : Instr) (gd : Thread → Bool) (f : Lane → LaneRes) (k : Nat) (t : Thread)
    (h : Takes s i k t) (hg : gd t = i.on t)
    (hs : ∀ j b u fx, s.laneOut i gd f b j u = .ok fx → ∀ x ∈ fx.ops, x.slot = j)
    (hf : ∀ b, ∃ c va aux w, f (s.laneAt k t b) = .fault c va aux w ∧ c ≠ 0x40 ∧ c ≠ 0x17) :
    ∃ s' b u c va aux w, s.issue i gd f = .next s' ∧ s'.thread? k = some u ∧ f (s.laneAt k t b) = .fault c va aux w
      ∧ Excepts t u c va aux := by
  have hset : (s.issueSet i).Nodup := by
    unfold State.issueSet
    dsimp only
    split
    · exact (h.once.filter _).sublist (State.withRoom_sublist s i _)
    · exact List.nodup_nil
  obtain ⟨b, h1, h2, h3⟩ := State.outcomes_thread s i gd f k t _ hset h.mem h.thread s.fresh hs
  obtain ⟨c, va, aux, w, hc, hc1, hc2⟩ := hf b
  have hout : s.laneOut i gd f b k t = .fault ⟨k, c, t.pc, t.pc, va, aux, w, false, none⟩ := by
    rw [h.laneOut gd f b hg]
    change (match f (s.laneAt k t b) with | .ok fx => _ | .fault c va aux w => _ | .ask vpn w => _) = _
    rw [hc]
  obtain ⟨v, hv, hn⟩ := h3 (s.charge i (s.issueSet i)) (by simpa using h.thread)
  rw [hout] at hv h1
  obtain ⟨n, e⟩ := LaneOut.leaves_plain hv rfl
  rw [e] at hn
  have hslot : ∀ e ∈ s.outcomes i gd f s.fresh (s.issueSet i), ∀ l, e.2 = .fault l → l.slot = e.1 := by
    intro e he l hl
    obtain ⟨_, u, b', _, hb⟩ := State.mem_outcomes s i gd f _ _ e he
    exact State.laneOut_fault_slot s i gd f b' e.1 u l (hb ▸ hl)
  obtain ⟨u, hu, hP⟩ := State.fault_same { ((s.outcomes i gd f s.fresh (s.issueSet i)).foldl (fun s e => s.applyLane e.1 e.2)
      (s.charge i (s.issueSet i))).noteDeps s i (s.outcomes i gd f s.fresh (s.issueSet i)) with
        fresh := (((s.outcomes i gd f s.fresh (s.issueSet i)).foldl (fun s e => s.applyLane e.1 e.2)
          (s.charge i (s.issueSet i))).noteDeps s i (s.outcomes i gd f s.fresh (s.issueSet i))).fresh
            + laneFree * (s.issueSet i).length } s.cur.core s.cur.bough
    (faultsOf (s.outcomes i gd f s.fresh (s.issueSet i))) ⟨k, c, t.pc, t.pc, va, aux, w, false, none⟩ t
    ((hset.sublist (outcomes_fst s i gd f _ _)).sublist (faultsOf_slots _ hslot)) (mem_faultsOf _ k _ h1)
    ((State.noteDeps_thread? _ _ i _ k).trans hn) ⟨hc1, hc2⟩
  have hrun : (s.runLanes i gd f).s.thread? k = some u := hu
  have hstep : u.step = false := by
    rcases hP with ⟨fr, rfl⟩ | ⟨n, d, rfl⟩
    · exact h.free
    · exact h.free
  refine ⟨_, b, u, c, va, aux, w, rfl, ?_, hc, ?_⟩
  · rw [State.stepTraps_thread? _ _ _ _ (by intro u' hu'; rw [hrun] at hu'; cases hu'; exact hstep)]
    exact hrun
  · rcases hP with ⟨fr, rfl⟩ | ⟨n, d, rfl⟩
    · exact ⟨rfl, ⟨rfl, rfl, rfl, rfl, rfl, rfl, rfl⟩, .inl ⟨rfl, _, rfl, rfl, rfl, rfl, rfl⟩⟩
    · exact ⟨rfl, ⟨rfl, rfl, rfl, rfl, rfl, rfl, rfl⟩, .inr ⟨rfl, rfl, rfl⟩⟩

end Sys2Proof.Machine
end

