-- ==== Sys2Proof/Laws/Operands.lean ====
section
/-!
SUPPORT. Registers of a thread: reading after writing; a result placed in a destination; the range of a source.
-/

namespace Sys2Proof.Machine

@[simp] theorem Thread.gVal_setG (t : Thread) (i j : Nat) (v : Word) : (t.setG i v).gVal j = if j = i then v else t.gVal j := by
  unfold Thread.gVal Thread.setG Thread.wrG
  split
  · subst_vars; exact SMap.get_set_same _ _ _ _
  · rename_i h; exact SMap.get_set_other _ _ _ _ _ h

@[simp] theorem Thread.oVal_setO (t : Thread) (i j : Nat) (v : DWord) : (t.setO i v).oVal j = if j = i then v else t.oVal j := by
  unfold Thread.oVal Thread.setO
  split
  · subst_vars; exact SMap.get_set_same _ _ _ _
  · rename_i h; exact SMap.get_set_other _ _ _ _ _ h

@[simp] theorem Thread.oVal_setG (t : Thread) (i j : Nat) (v : Word) : (t.setG i v).oVal j = t.oVal j := rfl
@[simp] theorem Thread.gVal_setO (t : Thread) (i j : Nat) (v : DWord) : (t.setO i v).gVal j = t.gVal j := rfl
@[simp] theorem Thread.gVal_setLat (t : Thread) (j : Nat) (v : DWord) : (t.setLat v).gVal j = t.gVal j := rfl
@[simp] theorem Thread.oVal_setLat (t : Thread) (j : Nat) (v : DWord) : (t.setLat v).oVal j = t.oVal j := rfl
@[simp] theorem Thread.gVal_orFl (t : Thread) (j : Nat) (f : Fl) : (t.orFl f).gVal j = t.gVal j := rfl
@[simp] theorem Thread.oVal_orFl (t : Thread) (j : Nat) (f : Fl) : (t.orFl f).oVal j = t.oVal j := rfl
@[simp] theorem Thread.gVal_next (t : Thread) (j : Nat) : t.next.gVal j = t.gVal j := rfl
@[simp] theorem Thread.oVal_next (t : Thread) (j : Nat) : t.next.oVal j = t.oVal j := rfl
@[simp] theorem Thread.pred_next (t : Thread) (p : PReg) : t.next.pred p = t.pred p := rfl
@[simp] theorem Thread.pred_setLat (t : Thread) (p : PReg) (v : DWord) : (t.setLat v).pred p = t.pred p := rfl
@[simp] theorem Thread.pred_orFl (t : Thread) (p : PReg) (f : Fl) : (t.orFl f).pred p = t.pred p := rfl

@[simp] theorem Thread.pred_setPred (t : Thread) (p q : PReg) (b : Bool) :
    (t.setPred p b).pred q = if q = p then b else t.pred q := by
  have hp := p.isLt
  have hq := q.isLt
  by_cases h : q = p
  · subst h
    cases b <;> simp [Thread.pred, Thread.setPred]
  · have h' : ¬ q.val = p.val := fun e => h (Fin.ext e)
    have h'' : ¬ p.val = q.val := fun e => h' e.symm
    cases b <;> simp [Thread.pred, Thread.setPred, h, h']

theorem Thread.gVal_setDst (t : Thread) (w : Bool) (d : Dst) (v : DWord) (i : Nat) :
    (t.setDst w d v).gVal i = placedG t w d v i := by
  cases d with
  | g j => cases w <;> simp [Thread.setDst, placedG]
  | o j => simp [Thread.setDst, placedG]
  | lat => simp [Thread.setDst, placedG]
  | discard => simp [Thread.setDst, placedG]

theorem Thread.oVal_setDst (t : Thread) (w : Bool) (d : Dst) (v : DWord) (i : Nat) :
    (t.setDst w d v).oVal i = placedO t d (extW w v) i := by
  cases d with
  | g j => cases w <;> simp [Thread.setDst, placedO]
  | o j => simp [Thread.setDst, placedO]
  | lat => simp [Thread.setDst, placedO]
  | discard => simp [Thread.setDst, placedO]

@[simp] theorem extW_low (w : Bool) (v : DWord) : (extW w v).setWidth 32 = v.setWidth 32 := by
  cases w
  · simp only [extW, low32, Bool.false_eq_true, if_false]
    rw [BitVec.setWidth_setWidth_of_le _ (by decide)]
    simp
  · rfl

@[simp] theorem extW_extW (w : Bool) (v : DWord) : extW w (extW w v) = extW w v := by
  cases w
  · simp [extW, low32]
  · rfl

theorem extW_toNat (w : Bool) (v : DWord) : (extW w v).toNat = v.toNat % 2 ^ wid w := by
  cases w
  · simp only [extW, low32, Bool.false_eq_true, if_false, BitVec.toNat_setWidth, wid]
    omega
  · have := v.isLt
    simp only [extW, wid, if_true]
    omega

theorem placedG_extW (t : Thread) (w : Bool) (d : Dst) (v : DWord) (i : Nat) : placedG t w d (extW w v) i = placedG t w d v i := by
  cases d with
  | g j =>
    cases w
    · simp [placedG]
    · rfl
  | o j => rfl
  | lat => rfl
  | discard => rfl

@[simp] theorem Thread.orFl_zero (t : Thread) : t.orFl 0 = t := by
  cases t
  simp [Thread.orFl]

/-- A result of width W with flags, at the next word. -/
theorem Thread.result_puts (t : Thread) (w : Bool) (d : Dst) (v : DWord) (fl : Fl) :
    Puts t ((t.result w d v).orFl fl).next w d (extW w v) fl := by
  refine ⟨fun i => ?_, fun i => ?_, rfl, ?_⟩
  · simp [Thread.result, Thread.gVal_setDst, placedG_extW]
  · simp [Thread.result, Thread.oVal_setDst]
  · obtain ⟨g, o, l, wi, ol, h⟩ := t.setDst_cases w d v
    simp [Thread.result, h, Thread.orFl, Thread.next, Thread.setLat]

theorem Thread.result_puts0 (t : Thread) (w : Bool) (d : Dst) (v : DWord) : Puts t (t.result w d v).next w d (extW w v) 0 := by
  have := t.result_puts w d v 0
  rwa [Thread.orFl_zero] at this

theorem Thread.predResult_puts (t : Thread) (p : PReg) (b : Bool) (fl : Fl) :
    PutsPred t (((t.setPred p b).setLat (if b then 1 else 0)).orFl fl).next p b fl :=
  ⟨fun q => by simp, rfl, rfl⟩

theorem Thread.predResult_puts0 (t : Thread) (p : PReg) (b : Bool) :
    PutsPred t ((t.setPred p b).setLat (if b then 1 else 0)).next p b 0 := by
  have := t.predResult_puts p b 0
  rwa [Thread.orFl_zero] at this

/-- A source stands below 2^W. -/
theorem Lane.src_lt (l : Lane) (p : Nat) (w : Bool) (x : Src) : (l.src p w x).toNat < 2 ^ wid w := by
  cases w
  · cases x with
    | g i =>
      have := (l.g p i.toNat).isLt
      simp only [Lane.src, Bool.false_eq_true, if_false, wid, BitVec.toNat_setWidth]
      omega
    | o i => simp only [Lane.src]; rw [extW_toNat]; exact Nat.mod_lt _ (by decide)
    | lat => simp only [Lane.src]; rw [extW_toNat]; exact Nat.mod_lt _ (by decide)
    | imm v => simp only [Lane.src]; rw [extW_toNat]; exact Nat.mod_lt _ (by decide)
  · exact BitVec.isLt _

theorem extW_src (l : Lane) (p : Nat) (w : Bool) (x : Src) : extW w (l.src p w x) = l.src p w x := by
  apply BitVec.eq_of_toNat_eq
  rw [extW_toNat]
  exact Nat.mod_eq_of_lt (l.src_lt p w x)

theorem zv_src (l : Lane) (p : Nat) (w : Bool) (x : Src) : zv w (l.src p w x) = (l.src p w x).toNat :=
  Nat.mod_eq_of_lt (l.src_lt p w x)

/-- A word of the register families completes with its part of the word. -/
theorem Completes.of_regFx (i : Instr) (gd : Thread → Bool) (f : Lane → Thread → Thread) (P : Lane → Thread → Prop)
    (hx : ∀ s, exec i s = s.issue i gd (regFx f)) (hg : ∀ t, gd t = i.on t) (hstep : ∀ l t, (f l t).step = t.step)
    (hP : ∀ l, P l (f l l.t).next) : Completes i P := by
  intro s k t h
  obtain ⟨s', b, h1, h2⟩ := State.issue_regFx s i gd f k t h (hg t) (fun l => hstep l t)
  exact ⟨s', b, _, (hx s).trans h1, h2, hP _⟩

end Sys2Proof.Machine
end

