-- ==== Sys2Proof/Tests/Slice0.lean ====
section
/-!
SUPPORT. The model's own tests. Decode tests give words written out bit by bit from the encoding tables of the spec, and the
instruction they stand for; ill-formed terms show each check of WellFormed at work; value tests give results worked out by hand from
the rule they cite; the witnesses show states and operands that meet the hypotheses of the statements, each naming its statement.
-/

open Sys2Proof Sys2Proof.Machine

namespace Sys2Proof.Tests.Slice0

/-! ### Small states -/

/-- A launch record's bytes: word 0 with 256 registers and `n` lanes, FAN and DEP of calls, tags, scratchpad bytes, a
constant block of 256 bytes at 0x8000, formats. -/
def record (n fan dep tags scr : Nat) (fmts : List Nat) : List Byte :=
  leBytes 4 (2 ^ 24 + 32 * 2 ^ 18 + n * 2 ^ 8) ++ leBytes 4 (fan * 2 ^ 23 + dep * 2 ^ 19 + tags * 2 ^ 12) ++ leBytes 4 scr
    ++ List.replicate 12 0 ++ leBytes 8 0x8000 ++ leBytes 4 256 ++ List.replicate 28 0 ++ fmts.map (BitVec.ofNat 8) ++ List.replicate (64 - fmts.length) 0

/-- Format slots 0 to 7: e4m3, s16, s8, e5m2, e8m0, empty, e2m1, f16 (R118). -/
def formats : List Nat := [4, 0x0C, 8, 5, 7, 0, 6, 2]

/-- A team of `n` lanes on core 0 with a region of 1024 bytes and two tags, its lanes' threads changed by `f`, about to issue `i`. -/
def crew (n : Nat) (i : Instr) (f : Nat → Thread → Thread) : State :=
  let s := State.reset.placeWord (leBytes 8 ((encode i).getD 0).toNat)
  let r := record n 3 2 2 1024 formats
  { s with
    grids := s.grids.map (fun e => (e.1, { e.2 with lrec := r }))
    teams := [(0, Team.placed 1 0 0 0 n 0 1024 [0, 1])]
    threads := (List.range n).map (fun k => (k, f k (Thread.placed 0 k n 0 0)))
    cur := { core := 0, bough := 0, slots := List.range n, pc := 0 } }

/-- One lane. -/
def one (i : Instr) (f : Thread → Thread) : State := crew 1 i (fun _ => f)

/-- Registers from g0 on. -/
def regs (l : List Nat) (t : Thread) : Thread := (l.foldl (fun (a : Nat × Thread) v => (a.1 + 1, a.2.setG a.1 (BitVec.ofNat 32 v))) (0, t)).2

/-- A property of lane 0's thread after a word. -/
def after (i : Instr) (f : Thread → Thread) (p : Thread → Bool) : Bool := match exec i (one i f) with
  | .next s => (s.thread? 0).any p
  | _ => false

/-- Lane 0 after a word: one register and the flags. -/
def gives (i : Instr) (l : List Nat) (d v : Nat) (fl : Nat := 0) : Bool :=
  after i (regs l) (fun t => t.gVal d == BitVec.ofNat 32 v && t.fflags.toNat == fl && t.pc == 8)

/-- Lane 0 after a word: parked with a code, its registers as they were. -/
def parks (i : Instr) (f : Thread → Thread) (code : BitVec 8) : Bool :=
  after i f (fun t => t.st == .parked && (t.park.any fun p => p.code == code && p.pc == 0) && t.g == (f (Thread.placed 0 0 1 0 0)).g)

/-- An operation of lane 0 of team 0, as a bare load of the team's own scratchpad. -/
def op0 (id : Nat) : Op where
  id := id
  slot := 0
  part := 0
  pc := 0
  cls := .ld
  kind := .load (.g 4) .w false false .none
  va := 0
  place := .scr 0 0 false
  n := 4
  marks := []
  rel := none
  acq := none
  l1 := none
  held := none
  hva := 0
  failed := none
  arb := 0
  since := 0
  after := 0
  todo := []
  buf := []
  sent := false
  viaCxl := false
  iss := 0
  dep := 0
  again := false
  shown := false
  bypass := false
  stood := false
  heated := []
  got := 0

/-! ### Decoding: words written out from the spec's encoding tables -/

/-- R61: major 0x00, pidx 15, dst 0x004, sa 0x000, sb 0x003, sc 0x000, func 0x000. -/
theorem test_decode_add : decodeWord 256 0x0078080000600000 = .ok (.add ⟨.always, .g 4, .g 0, .g 3, .none, false⟩) := by decide

/-- R91: major 0x01, pidx 15, dst 0x008, sa 0x005, sb 0x004, sc 0x000, func 0x002. -/
theorem test_decode_sub : decodeWord 256 0x0178100280800002 = .ok (.sub ⟨.always, .g 8, .g 5, .g 4, .s, false⟩) := by decide

/-- R91: major 0x02, pidx 3, dst 0x107, sa 0x200, sb 0x3ff, sc 0x000, func 0x004. -/
theorem test_decode_mul : decodeWord 256 0x021A0F007FE00004 = .ok (.mul ⟨.pred 3 false, .o 7, .lat, .imm 0xFF, .z, false⟩) := by decide

/-- R91: major 0x03, pidx 11, neg 1, dst 0x300, sa 0x002, sb 0x004, sc 0x000, func 0x005. -/
theorem test_decode_mulh : decodeWord 256 0x03DE000100800005 = .ok (.mulh ⟨.pred 11 true, .discard, .g 2, .g 4, .z, true⟩) := by decide

/-- R91: major 0x04, pidx 15, dst 0x0fe, sa 0x002, sb 0x305, sc 0x100, func 0x001. -/
theorem test_decode_mad : decodeWord 256 0x0479FC0160A80001 = .ok (.mad ⟨.always, .g 254, .g 2, .imm 5, .o 0, .none, true⟩) := by decide

/-- R91: major 0x05, pidx 15, dst 0x001, sa 0x002, sb 0x003, sc 0x000, func 0x002. -/
theorem test_decode_div : decodeWord 256 0x0578020100600002 = .ok (.div ⟨.always, .g 1, .g 2, .g 3, .s, false⟩) := by decide

/-- R91: major 0x06, pidx 15, dst 0x001, sa 0x002, sb 0x003, sc 0x000, func 0x004. -/
theorem test_decode_rem : decodeWord 256 0x0678020100600004 = .ok (.rem ⟨.always, .g 1, .g 2, .g 3, .z, false⟩) := by decide

/-- R91: major 0x07, pidx 15, dst 0x006, sa 0x002, sb 0x303, sc 0x000, func 0x000. -/
theorem test_decode_and : decodeWord 256 0x07780C0160600000 = .ok (.and ⟨.always, .g 6, .g 2, .imm 3, false⟩) := by decide

/-- R91: major 0x08, pidx 15, dst 0x006, sa 0x002, sb 0x303, sc 0x000, func 0x001. -/
theorem test_decode_or : decodeWord 256 0x08780C0160600001 = .ok (.or ⟨.always, .g 6, .g 2, .imm 3, true⟩) := by decide

/-- R91: major 0x09, pidx 15, dst 0x006, sa 0x002, sb 0x303, sc 0x000, func 0x000. -/
theorem test_decode_xor : decodeWord 256 0x09780C0160600000 = .ok (.xor ⟨.always, .g 6, .g 2, .imm 3, false⟩) := by decide

/-- R91: major 0x0a, pidx 15, dst 0x006, sa 0x002, sb 0x303, sc 0x000, func 0x000. -/
theorem test_decode_andn : decodeWord 256 0x0A780C0160600000 = .ok (.andn ⟨.always, .g 6, .g 2, .imm 3, false⟩) := by decide

/-- R91: major 0x0b, pidx 15, dst 0x006, sa 0x002, sb 0x303, sc 0x000, func 0x001. -/
theorem test_decode_orn : decodeWord 256 0x0B780C0160600001 = .ok (.orn ⟨.always, .g 6, .g 2, .imm 3, true⟩) := by decide

/-- R91: major 0x0c, pidx 15, dst 0x200, sa 0x103, sb 0x000, sc 0x000, func 0x001. -/
theorem test_decode_not : decodeWord 256 0x0C7C008180000001 = .ok (.not ⟨.always, .lat, .o 3, true⟩) := by decide

/-- R91: major 0x0d, pidx 15, dst 0x004, sa 0x006, sb 0x009, sc 0x000, func 0x001. -/
theorem test_decode_shl : decodeWord 256 0x0D78080301200001 = .ok (.shl ⟨.always, .g 4, .g 6, .g 9, true⟩) := by decide

/-- R91: major 0x0e, pidx 15, dst 0x003, sa 0x002, sb 0x302, sc 0x000, func 0x000. -/
theorem test_decode_shr : decodeWord 256 0x0E78060160400000 = .ok (.shr ⟨.always, .g 3, .g 2, .imm 2, false⟩) := by decide

/-- R91: major 0x0f, pidx 15, dst 0x003, sa 0x002, sb 0x302, sc 0x000, func 0x000. -/
theorem test_decode_sar : decodeWord 256 0x0F78060160400000 = .ok (.sar ⟨.always, .g 3, .g 2, .imm 2, false⟩) := by decide

/-- R91: major 0x10, pidx 15, dst 0x003, sa 0x002, sb 0x31f, sc 0x000, func 0x000. -/
theorem test_decode_rol : decodeWord 256 0x1078060163E00000 = .ok (.rol ⟨.always, .g 3, .g 2, .imm 31, false⟩) := by decide

/-- R91: major 0x11, pidx 15, dst 0x003, sa 0x002, sb 0x31f, sc 0x000, func 0x000. -/
theorem test_decode_ror : decodeWord 256 0x1178060163E00000 = .ok (.ror ⟨.always, .g 3, .g 2, .imm 31, false⟩) := by decide

/-- R91: major 0x12, pidx 15, dst 0x003, sa 0x001, sb 0x002, sc 0x31b, func 0x000. -/
theorem test_decode_shf : decodeWord 256 0x127806008058D800 = .ok (.shf ⟨.always, .g 3, .g 1, .g 2, .imm 27⟩) := by decide

/-- R91: major 0x13, pidx 15, dst 0x003, sa 0x001, sb 0x002, sc 0x000, func 0x004. -/
theorem test_decode_min : decodeWord 256 0x1378060080400004 = .ok (.min ⟨.always, .g 3, .g 1, .g 2, .z, false⟩) := by decide

/-- R91: major 0x14, pidx 15, dst 0x003, sa 0x001, sb 0x002, sc 0x000, func 0x002. -/
theorem test_decode_max : decodeWord 256 0x1478060080400002 = .ok (.max ⟨.always, .g 3, .g 1, .g 2, .s, false⟩) := by decide

/-- R91: major 0x15, pidx 15, dst 0x009, sa 0x200, sb 0x000, sc 0x000, func 0x002. -/
theorem test_decode_abs : decodeWord 256 0x1578130000000002 = .ok (.abs ⟨.always, .g 9, .lat, .s, false⟩) := by decide

/-- R91: major 0x16, pidx 15, dst 0x009, sa 0x008, sb 0x000, sc 0x000, func 0x000. -/
theorem test_decode_neg : decodeWord 256 0x1678120400000000 = .ok (.neg ⟨.always, .g 9, .g 8, .none, false⟩) := by decide

/-- R98: major 0x17, pidx 15, dst 0x009, sa 0x008, sb 0x000, sc 0x000, func 0x001. -/
theorem test_decode_popc : decodeWord 256 0x1778120400000001 = .ok (.popc ⟨.always, .g 9, .g 8, true⟩) := by decide

/-- R98: major 0x17, pidx 15, dst 0x009, sa 0x008, sb 0x000, sc 0x000, func 0x100. -/
theorem test_decode_clz : decodeWord 256 0x1778120400000100 = .ok (.clz ⟨.always, .g 9, .g 8, false⟩) := by decide

/-- R98: major 0x17, pidx 15, dst 0x009, sa 0x008, sb 0x000, sc 0x000, func 0x200. -/
theorem test_decode_ctz : decodeWord 256 0x1778120400000200 = .ok (.ctz ⟨.always, .g 9, .g 8, false⟩) := by decide

/-- R98: major 0x17, pidx 15, dst 0x00a, sa 0x008, sb 0x000, sc 0x000, func 0x301. -/
theorem test_decode_brev : decodeWord 256 0x1778140400000301 = .ok (.brev ⟨.always, .g 10, .g 8, true⟩) := by decide

/-- R88: major 0x18, pidx 15, dst 0x003, sa 0x002, sb 0x31c, sc 0x000, func 0x044. -/
theorem test_decode_bfx : decodeWord 256 0x1878060163800044 = .ok (.bfx ⟨.always, .g 3, .g 2, .imm 28, 8, .z, false⟩) := by decide

/-- R88: major 0x19, pidx 15, dst 0x004, sa 0x002, sb 0x006, sc 0x33f, func 0x201. -/
theorem test_decode_bfi : decodeWord 256 0x1978080100D9FA01 = .ok (.bfi ⟨.always, .g 4, .g 2, .g 6, .imm 63, 64, true⟩) := by decide

/-- R100: major 0x1a, pidx 15, dst 0x003, sa 0x002, sb 0x300, sc 0x005, func 0x000. -/
theorem test_decode_bperm : decodeWord 256 0x1A78060160002800 = .ok (.bperm ⟨.always, .g 3, .g 2, .imm 0, .g 5⟩) := by decide

/-- R101: major 0x1b, pidx 15, dst 0x00a, sa 0x301, sb 0x300, sc 0x001, func 0x008. -/
theorem test_decode_sel : decodeWord 256 0x1B781580E0000808 = .ok (.sel ⟨.always, .g 10, .imm 1, .imm 0, 1, true, false⟩) := by decide

/-- R91: major 0x1c, pidx 1, neg 1, dst 0x00a, sa 0x380, sb 0x000, sc 0x000, func 0x000. -/
theorem test_decode_mov : decodeWord 256 0x1C8815C000000000 = .ok (.mov ⟨.pred 1 true, .g 10, .imm 0x80, false⟩) := by decide

/-- R102: major 0x1d, pidx 15, dst 0x007, sa 0x001, sb 0x003, sc 0x000, func 0x028. -/
theorem test_decode_lea : decodeWord 256 0x1D780E0080600028 = .ok (.lea ⟨.always, .g 7, .g 1, .g 3, 5, .none, false⟩) := by decide

/-- R103: major 0x1e, pidx 15, dst 0x002, sa 0x000, sb 0x308, sc 0x000, func 0x014. -/
theorem test_decode_cmp : decodeWord 256 0x1E78040061000014 = .ok (.cmp ⟨.always, 2, .g 0, .imm 8, .lt, .z, false⟩) := by decide

/-- R104: major 0x1f, pidx 15, dst 0x003, sa 0x004, sb 0x005, sc 0x000, func 0x001. -/
theorem test_decode_pand : decodeWord 256 0x1F78060200A00001 = .ok (.pand ⟨.always, 3, 4, 5, true, false⟩) := by decide

/-- R104: major 0x1f, pidx 15, dst 0x003, sa 0x004, sb 0x005, sc 0x000, func 0x102. -/
theorem test_decode_por : decodeWord 256 0x1F78060200A00102 = .ok (.por ⟨.always, 3, 4, 5, false, true⟩) := by decide

/-- R104: major 0x1f, pidx 15, dst 0x00b, sa 0x000, sb 0x005, sc 0x000, func 0x200. -/
theorem test_decode_pxor : decodeWord 256 0x1F78160000A00200 = .ok (.pxor ⟨.always, 11, 0, 5, false, false⟩) := by decide

/-- R104: major 0x1f, pidx 15, dst 0x00b, sa 0x00a, sb 0x000, sc 0x000, func 0x300. -/
theorem test_decode_pnot : decodeWord 256 0x1F78160500000300 = .ok (.pnot ⟨.always, 11, 10⟩) := by decide

/-- R105: major 0x1f, pidx 15, dst 0x007, sa 0x000, sb 0x000, sc 0x000, func 0x400. -/
theorem test_decode_pmov_to : decodeWord 256 0x1F780E0000000400 = .ok (.pmov ⟨.always, .toReg (.g 7)⟩) := by decide

/-- R105: major 0x1f, pidx 15, dst 0x000, sa 0x007, sb 0x3ff, sc 0x000, func 0x401. -/
theorem test_decode_pmov_from : decodeWord 256 0x1F780003FFE00401 = .ok (.pmov ⟨.always, .fromReg (.g 7) (.imm 0xFF)⟩) := by decide

/-- R106, R85: major 0x1f, pidx 15, dst 0x014, sa 0x000, sb 0x000, sc 0x000, func 0x58a. -/
theorem test_decode_gets : decodeWord 256 0x1F7828000000058A = .ok (.gets ⟨.always, .g 20, .tags, true⟩) := by decide

/-- R106, R85: major 0x1f, pidx 15, dst 0x000, sa 0x004, sb 0x000, sc 0x000, func 0x60b. -/
theorem test_decode_sets : decodeWord 256 0x1F7800020000060B = .ok (.sets ⟨.always, .fflags, .g 4, false⟩) := by decide

/-- R122: major 0x20, pidx 15, dst 0x001, sa 0x002, sb 0x003, sc 0x000, func 0x010. -/
theorem test_decode_fadd : decodeWord 256 0x2078020100600010 = .ok (.fadd ⟨.always, .g 1, .g 2, .g 3, .rz⟩) := by decide

/-- R122: major 0x21, pidx 15, dst 0x001, sa 0x002, sb 0x301, sc 0x000, func 0x020. -/
theorem test_decode_fsub : decodeWord 256 0x2178020160200020 = .ok (.fsub ⟨.always, .g 1, .g 2, .imm 1, .ru⟩) := by decide

/-- R122: major 0x22, pidx 15, dst 0x001, sa 0x002, sb 0x003, sc 0x000, func 0x030. -/
theorem test_decode_fmul : decodeWord 256 0x2278020100600030 = .ok (.fmul ⟨.always, .g 1, .g 2, .g 3, .rd⟩) := by decide

/-- R122: major 0x23, pidx 15, dst 0x001, sa 0x002, sb 0x003, sc 0x004, func 0x000. -/
theorem test_decode_ffma : decodeWord 256 0x2378020100602000 = .ok (.ffma ⟨.always, .g 1, .g 2, .g 3, .g 4, .rne⟩) := by decide

/-- R122: major 0x24, pidx 15, dst 0x001, sa 0x002, sb 0x003, sc 0x000, func 0x000. -/
theorem test_decode_fmin : decodeWord 256 0x2478020100600000 = .ok (.fmin ⟨.always, .g 1, .g 2, .g 3⟩) := by decide

/-- R122: major 0x25, pidx 15, dst 0x001, sa 0x002, sb 0x003, sc 0x000, func 0x000. -/
theorem test_decode_fmax : decodeWord 256 0x2578020100600000 = .ok (.fmax ⟨.always, .g 1, .g 2, .g 3⟩) := by decide

/-- R122, R126: major 0x26, pidx 15, dst 0x007, sa 0x002, sb 0x003, sc 0x000, func 0x006. -/
theorem test_decode_fcmp : decodeWord 256 0x26780E0100600006 = .ok (.fcmp ⟨.always, 7, .g 2, .g 3, .un⟩) := by decide

/-- R122: major 0x27, pidx 15, dst 0x001, sa 0x002, sb 0x000, sc 0x000, func 0x000. -/
theorem test_decode_fclass : decodeWord 256 0x2778020100000000 = .ok (.fclass ⟨.always, .g 1, .g 2⟩) := by decide

/-- R122: major 0x28, pidx 15, dst 0x001, sa 0x002, sb 0x003, sc 0x000, func 0x020. -/
theorem test_decode_fdiv : decodeWord 256 0x2878020100600020 = .ok (.fdiv ⟨.always, .g 1, .g 2, .g 3, .ru⟩) := by decide

/-- R122: major 0x29, pidx 15, dst 0x001, sa 0x002, sb 0x000, sc 0x000, func 0x010. -/
theorem test_decode_frcp : decodeWord 256 0x2978020100000010 = .ok (.frcp ⟨.always, .g 1, .g 2, .rz⟩) := by decide

/-- R122: major 0x29, pidx 15, dst 0x001, sa 0x002, sb 0x000, sc 0x000, func 0x100. -/
theorem test_decode_frsq : decodeWord 256 0x2978020100000100 = .ok (.frsq ⟨.always, .g 1, .g 2⟩) := by decide

/-- R122: major 0x29, pidx 15, dst 0x001, sa 0x002, sb 0x000, sc 0x000, func 0x210. -/
theorem test_decode_fsqrt : decodeWord 256 0x2978020100000210 = .ok (.fsqrt ⟨.always, .g 1, .g 2, .rz⟩) := by decide

/-- R122: major 0x29, pidx 15, dst 0x001, sa 0x002, sb 0x000, sc 0x000, func 0x300. -/
theorem test_decode_fexp2 : decodeWord 256 0x2978020100000300 = .ok (.fexp2 ⟨.always, .g 1, .g 2⟩) := by decide

/-- R122: major 0x29, pidx 15, dst 0x001, sa 0x002, sb 0x000, sc 0x000, func 0x400. -/
theorem test_decode_flog2 : decodeWord 256 0x2978020100000400 = .ok (.flog2 ⟨.always, .g 1, .g 2⟩) := by decide

/-- R122: major 0x29, pidx 15, dst 0x001, sa 0x002, sb 0x000, sc 0x000, func 0x500. -/
theorem test_decode_fsin : decodeWord 256 0x2978020100000500 = .ok (.fsin ⟨.always, .g 1, .g 2⟩) := by decide

/-- R122: major 0x29, pidx 15, dst 0x001, sa 0x002, sb 0x000, sc 0x000, func 0x600. -/
theorem test_decode_fcos : decodeWord 256 0x2978020100000600 = .ok (.fcos ⟨.always, .g 1, .g 2⟩) := by decide

/-- R122: major 0x29, pidx 15, dst 0x001, sa 0x002, sb 0x000, sc 0x000, func 0x700. -/
theorem test_decode_ftanh : decodeWord 256 0x2978020100000700 = .ok (.ftanh ⟨.always, .g 1, .g 2⟩) := by decide

/-- R122: major 0x2a, pidx 15, dst 0x001, sa 0x002, sb 0x3fd, sc 0x000, func 0x000. -/
theorem test_decode_fscale : decodeWord 256 0x2A7802017FA00000 = .ok (.fscale ⟨.always, .g 1, .g 2, .imm 0xFD, .rne⟩) := by decide

/-- R129: major 0x2b, pidx 15, dst 0x001, sa 0x002, sb 0x003, sc 0x004, func 0x010. -/
theorem test_decode_hfma2 : decodeWord 256 0x2B78020100602010 = .ok (.hfma2 ⟨.always, .g 1, .g 2, .g 3, .g 4, .rz⟩) := by decide

/-- R129: major 0x2c, pidx 15, dst 0x001, sa 0x002, sb 0x003, sc 0x004, func 0x000. -/
theorem test_decode_bfma2 : decodeWord 256 0x2C78020100602000 = .ok (.bfma2 ⟨.always, .g 1, .g 2, .g 3, .g 4, .rne⟩) := by decide

/-- R129: major 0x2d, pidx 15, dst 0x001, sa 0x002, sb 0x003, sc 0x000, func 0x028. -/
theorem test_decode_hadd2 : decodeWord 256 0x2D78020100600028 = .ok (.hadd2 ⟨.always, .g 1, .g 2, .g 3, true, .ru⟩) := by decide

/-- R129: major 0x2e, pidx 15, dst 0x001, sa 0x002, sb 0x003, sc 0x000, func 0x030. -/
theorem test_decode_hmul2 : decodeWord 256 0x2E78020100600030 = .ok (.hmul2 ⟨.always, .g 1, .g 2, .g 3, false, .rd⟩) := by decide

/-- R131: major 0x2f, pidx 15, dst 0x00d, sa 0x00b, sb 0x000, sc 0x000, func 0x010. -/
theorem test_decode_cvt : decodeWord 256 0x2F781A0580000010 = .ok (.cvt ⟨.always, .g 13, .g 11, false, .f32, 1, .rne, false⟩) := by decide

/-- R131: major 0x2f, pidx 15, dst 0x001, sa 0x002, sb 0x000, sc 0x000, func 0x5a6. -/
theorem test_decode_cvt_to : decodeWord 256 0x2F780201000005A6 = .ok (.cvt ⟨.always, .g 1, .g 2, true, .s64, 2, .rz, true⟩) := by decide

/-- R132: major 0x30, pidx 15, dst 0x001, sa 0x002, sb 0x003, sc 0x000, func 0x26c. -/
theorem test_decode_pack : decodeWord 256 0x307802010060026C = .ok (.pack ⟨.always, .g 1, .g 2, .g 3, 2, 3, .rz, true⟩) := by decide

/-- R132: major 0x31, pidx 15, dst 0x00d, sa 0x00d, sb 0x000, sc 0x000, func 0x000. -/
theorem test_decode_unpack : decodeWord 256 0x31781A0680000000 = .ok (.unpack ⟨.always, .g 13, .g 13, 0, 0⟩) := by decide

/-- R134: major 0x32, pidx 15, dst 0x014, sa 0x015, sb 0x016, sc 0x017, func 0x370. -/
theorem test_decode_dot8 : decodeWord 256 0x3278280A82C0BB70 = .ok (.dot8 ⟨.always, .g 20, .g 21, .g 22, some (.g 23), 3, 3⟩) := by decide

/-- R134: major 0x33, pidx 15, dst 0x014, sa 0x015, sb 0x016, sc 0x000, func 0x4a0. -/
theorem test_decode_dot4 : decodeWord 256 0x3378280A82C004A0 = .ok (.dot4 ⟨.always, .g 20, .g 21, .g 22, none, 4, 5⟩) := by decide

/-- R130: major 0x34, pidx 15, dst 0x102, sa 0x015, sb 0x016, sc 0x000, func 0x008. -/
theorem test_decode_doth2 : decodeWord 256 0x347A040A82C00008 = .ok (.doth2 ⟨.always, .o 2, .g 21, .g 22, true⟩) := by decide

/-- R133: major 0x35, pidx 15, dst 0x001, sa 0x002, sb 0x000, sc 0x000, func 0x600. -/
theorem test_decode_fmtq : decodeWord 256 0x3578020100000600 = .ok (.fmtq ⟨.always, .g 1, .g 2, 6⟩) := by decide

/-- R146: major 0x38, pidx 15, dst 0x040, sa 0x020, sb 0x030, sc 0x300, func 0x120. -/
theorem test_decode_mma : decodeWord 256 0x3878801006180120 = .ok (.mma ⟨.always, 64, 32, 48, none, 1, 1, 0⟩) := by decide

/-- R146: major 0x39, pidx 15, dst 0x040, sa 0x020, sb 0x030, sc 0x010, func 0x2f0. -/
theorem test_decode_mmas : decodeWord 256 0x39788010060082F0 = .ok (.mmas ⟨.always, 64, 32, 48, 16, 2, 7, 2⟩) := by decide

/-- R146: major 0x3a, pidx 15, dst 0x040, sa 0x000, sb 0x000, sc 0x000, func 0x001. -/
theorem test_decode_mzero : decodeWord 256 0x3A78800000000001 = .ok (.mzero ⟨.always, 64, true⟩) := by decide

/-- R146: major 0x3b, pidx 15, dst 0x000, sa 0x000, sb 0x000, sc 0x000, func 0x000. -/
theorem test_decode_mfence : decodeWord 256 0x3B78000000000000 = .ok (.mfence ⟨.always⟩) := by decide

/-- R146: major 0x3c, pidx 3, dst 0x020, sa 0x012, sb 0x320, sc 0x000, func 0x200. -/
theorem test_decode_ldfr : decodeWord 256 0x3C18400964000200 = .ok (.ldfr ⟨.pred 3 false, 32, 18, .imm 32, .s, false⟩) := by decide

/-- R146: major 0x3d, pidx 15, dst 0x020, sa 0x012, sb 0x009, sc 0x000, func 0x100. -/
theorem test_decode_stfr : decodeWord 256 0x3D78400901200100 = .ok (.stfr ⟨.always, 32, 18, .g 9, .g, true⟩) := by decide

/-- R146: major 0x3e, pidx 15, dst 0x010, sa 0x040, sb 0x000, sc 0x000, func 0x5e8. -/
theorem test_decode_mcvt : decodeWord 256 0x3E782020000005E8 = .ok (.mcvt ⟨.always, 16, 64, 5, 3, .ru, true⟩) := by decide

/-- R146: major 0x3f, pidx 15, dst 0x020, sa 0x040, sb 0x000, sc 0x000, func 0x001. -/
theorem test_decode_mtrn : decodeWord 256 0x3F78402000000001 = .ok (.mtrn ⟨.always, 32, 64, true⟩) := by decide

/-- R157: major 0x40, pidx 15, [50:21] 0x3, func 0x000. -/
theorem test_decode_bra : decodeWord 256 0x4078000000600000 = .ok (.bra ⟨.always, 3⟩) := by decide

/-- R157: major 0x42, pidx 2, neg 1, [50:21] 0x3fffffff, func 0x000. -/
theorem test_decode_call : decodeWord 256 0x4297FFFFFFE00000 = .ok (.call ⟨.pred 2 true, 0x3FFFFFFF⟩) := by decide

/-- R157: major 0x41, pidx 15, dst 0x000, sa 0x018, sb 0x000, sc 0x000, func 0x051. -/
theorem test_decode_brx : decodeWord 256 0x4178000C00000051 = .ok (.brx ⟨.always, .g 24, 0x51⟩) := by decide

/-- R157: major 0x43, pidx 15, dst 0x000, sa 0x101, sb 0x000, sc 0x000, func 0x0ff. -/
theorem test_decode_callx : decodeWord 256 0x43780080800000FF = .ok (.callx ⟨.always, .o 1, 0xFF⟩) := by decide

/-- R157: major 0x44, pidx 0, dst 0x000, sa 0x000, sb 0x000, sc 0x000, func 0x000. -/
theorem test_decode_ret : decodeWord 256 0x4400000000000000 = .ok (.ret ⟨.pred 0 false⟩) := by decide

/-- R157: major 0x45, pidx 15, dst 0x000, sa 0x000, sb 0x000, sc 0x000, func 0x051. -/
theorem test_decode_pad : decodeWord 256 0x4578000000000051 = .ok (.pad ⟨0x51⟩) := by decide

/-- R157: major 0x46, pidx 15, dst 0x000, sa 0x000, sb 0x000, sc 0x000, func 0x000. -/
theorem test_decode_rejoin : decodeWord 256 0x4678000000000000 = .ok (.rejoin ⟨.always⟩) := by decide

/-- R157: major 0x46, pidx 15, dst 0x000, sa 0x000, sb 0x000, sc 0x000, func 0x106. -/
theorem test_decode_yield : decodeWord 256 0x4678000000000106 = .ok (.yld ⟨.always, 6⟩) := by decide

/-- R157: major 0x46, pidx 15, dst 0x000, sa 0x000, sb 0x000, sc 0x000, func 0x200. -/
theorem test_decode_nop : decodeWord 256 0x4678000000000200 = .ok (.nop ⟨.always⟩) := by decide

/-- R157: major 0x47, pidx 15, dst 0x000, sa 0x000, sb 0x000, sc 0x000, func 0x000. -/
theorem test_decode_exit : decodeWord 256 0x4778000000000000 = .ok (.exit ⟨.always⟩) := by decide

/-- R157: major 0x48, pidx 15, dst 0x000, sa 0x014, sb 0x016, sc 0x000, func 0x28a. -/
theorem test_decode_tcall : decodeWord 256 0x4878000A02C0028A = .ok (.tcall ⟨.always, .g 20, .g 22, 0x51, 2⟩) := by decide

/-- R157: major 0x49, pidx 15, dst 0x000, sa 0x015, sb 0x016, sc 0x000, func 0x289. -/
theorem test_decode_tcalls : decodeWord 256 0x4978000A82C00289 = .ok (.tcalls ⟨.always, .g 21, .g 22, 0x51, 1⟩) := by decide

/-- R157: major 0x4a, pidx 15, dst 0x000, sa 0x000, sb 0x000, sc 0x000, func 0x000. -/
theorem test_decode_tret : decodeWord 256 0x4A78000000000000 = .ok (.tret ⟨.always⟩) := by decide

/-- R157: major 0x4b, pidx 15, dst 0x000, sa 0x000, sb 0x000, sc 0x000, func 0x000. -/
theorem test_decode_tbar : decodeWord 256 0x4B78000000000000 = .ok (.tbar ⟨.always⟩) := by decide

/-- R157: major 0x4c, pidx 15, dst 0x01b, sa 0x004, sb 0x000, sc 0x000, func 0x400. -/
theorem test_decode_tvote_count : decodeWord 256 0x4C78360200000400 = .ok (.tvote ⟨.always, 4, false, .count (.g 27)⟩) := by decide

/-- R157: major 0x4c, pidx 15, dst 0x005, sa 0x004, sb 0x000, sc 0x000, func 0x101. -/
theorem test_decode_tvote_any : decodeWord 256 0x4C780A0200000101 = .ok (.tvote ⟨.always, 4, true, .any 5⟩) := by decide

/-- R157: major 0x4c, pidx 15, dst 0x01c, sa 0x004, sb 0x003, sc 0x000, func 0x300. -/
theorem test_decode_tvote_ballot : decodeWord 256 0x4C78380200600300 = .ok (.tvote ⟨.always, 4, false, .ballot (.g 28) (.g 3)⟩) := by decide

/-- R157: major 0x4d, pidx 15, dst 0x002, sa 0x004, sb 0x007, sc 0x000, func 0x001. -/
theorem test_decode_txch : decodeWord 256 0x4D78040200E00001 = .ok (.txch ⟨.always, .g 2, .g 4, .g 7, true⟩) := by decide

/-- R157: major 0x4e, pidx 15, dst 0x000, sa 0x004, sb 0x000, sc 0x000, func 0x000. -/
theorem test_decode_tmigr : decodeWord 256 0x4E78000200000000 = .ok (.tmigr ⟨.always, .g 4⟩) := by decide

/-- R157: major 0x4f, pidx 15, dst 0x002, sa 0x004, sb 0x007, sc 0x000, func 0x000. -/
theorem test_decode_glaunch : decodeWord 256 0x4F78040200E00000 = .ok (.glaunch ⟨.always, .g 2, .g 4, .g 7, false⟩) := by decide

/-- R194: major 0x50, pidx 15, dst 0x004, sa 0x001, sb 0x310, sc 0x000, func 0x240. -/
theorem test_decode_ld : decodeWord 256 0x50780800E2000240 = .ok (.ld ⟨.always, .g 4, .g 1, .imm 16, .w, .s, .none, false, false⟩) := by decide

/-- R194: major 0x50, pidx 15, dst 0x004, sa 0x002, sb 0x310, sc 0x000, func 0x12c. -/
theorem test_decode_ld_sx : decodeWord 256 0x507808016200012C = .ok (.ld ⟨.always, .g 4, .g 2, .imm 16, .h, .g, .el, true, true⟩) := by decide

/-- R194: major 0x51, pidx 15, dst 0x000, sa 0x101, sb 0x002, sc 0x008, func 0x410. -/
theorem test_decode_st : decodeWord 256 0x5178008080404410 = .ok (.st ⟨.always, .o 1, .g 2, .g 8, .q, .g, .ef⟩) := by decide

/-- R194: major 0x52, pidx 15, dst 0x004, sa 0x002, sb 0x300, sc 0x000, func 0x30d. -/
theorem test_decode_lda : decodeWord 256 0x527808016000030D = .ok (.lda ⟨.always, .g 4, .g 2, .imm 0, .d, .g, .none, true, .dev⟩) := by decide

/-- R194: major 0x53, pidx 3, dst 0x000, sa 0x001, sb 0x364, sc 0x301, func 0x240. -/
theorem test_decode_stl : decodeWord 256 0x53180000EC980A40 = .ok (.stl ⟨.pred 3 false, .g 1, .imm 100, .imm 1, .w, .s, .none, .team⟩) := by decide

/-- R194: major 0x54, pidx 15, dst 0x01e, sa 0x018, sb 0x020, sc 0x022, func 0x53e. -/
theorem test_decode_atom : decodeWord 256 0x54783C0C0401153E = .ok (.atom ⟨.always, some (.g 30), .g 24, .g 32, some (.g 34), true, false, .cas, .ar, .sys⟩) := by decide

/-- R194: major 0x55, pidx 15, dst 0x000, sa 0x001, sb 0x301, sc 0x000, func 0x395. -/
theorem test_decode_red : decodeWord 256 0x55780000E0200395 = .ok (.red ⟨.always, .g 1, .imm 1, false, true, .dec, true, .dev⟩) := by decide

/-- R194: major 0x56, pidx 15, dst 0x000, sa 0x000, sb 0x000, sc 0x000, func 0x01f. -/
theorem test_decode_fence : decodeWord 256 0x567800000000001F = .ok (.fence ⟨.always, .ar, .fab⟩) := by decide

/-- R194: major 0x57, pidx 15, dst 0x000, sa 0x002, sb 0x300, sc 0x000, func 0x0a8. -/
theorem test_decode_pref : decodeWord 256 0x57780001600000A8 = .ok (.pref ⟨.always, .g 2, .imm 0, true, .el, true⟩) := by decide

/-- R194: major 0x58, pidx 15, dst 0x000, sa 0x002, sb 0x300, sc 0x000, func 0x000. -/
theorem test_decode_disc : decodeWord 256 0x5878000160000000 = .ok (.disc ⟨.always, .g 2, .imm 0⟩) := by decide

/-- R194: major 0x59, pidx 15, dst 0x000, sa 0x002, sb 0x300, sc 0x000, func 0x000. -/
theorem test_decode_clean : decodeWord 256 0x5978000160000000 = .ok (.clean ⟨.always, .g 2, .imm 0⟩) := by decide

/-- R215: major 0x60, pidx 15, dst 0x01e, sa 0x013, sb 0x340, sc 0x017, func 0x340. -/
theorem test_decode_cpy : decodeWord 256 0x60783C09E800BB40 = .ok (.cpy ⟨.always, .g 30, .g 19, .imm 64, true, .k, some (.g 23), 0⟩) := by decide

/-- R215: major 0x61, pidx 15, dst 0x002, sa 0x013, sb 0x028, sc 0x000, func 0x09f. -/
theorem test_decode_cpyt : decodeWord 256 0x617804098500009F = .ok (.cpyt ⟨.always, .g 2, .g 19, 40, false, .s, none, 31⟩) := by decide

/-- R215: major 0x62, pidx 15, dst 0x01e, sa 0x014, sb 0x02c, sc 0x000, func 0x23f. -/
theorem test_decode_cpyg : decodeWord 256 0x62783C0A0580023F = .ok (.cpyg ⟨.always, .g 30, .g 20, 44, true, .g, none, 63⟩) := by decide

/-- R215: major 0x63, pidx 15, dst 0x000, sa 0x017, sb 0x320, sc 0x000, func 0x000. -/
theorem test_decode_bari : decodeWord 256 0x6378000BE4000000 = .ok (.bari ⟨.always, .g 23, .imm 32⟩) := by decide

/-- R215: major 0x64, pidx 15, dst 0x300, sa 0x017, sb 0x000, sc 0x000, func 0x000. -/
theorem test_decode_bara : decodeWord 256 0x647E000B80000000 = .ok (.bara ⟨.always, none, .g 23⟩) := by decide

/-- R215: major 0x65, pidx 15, dst 0x000, sa 0x017, sb 0x004, sc 0x000, func 0x000. -/
theorem test_decode_barx : decodeWord 256 0x6578000B80800000 = .ok (.barx ⟨.always, .g 23, .g 4⟩) := by decide

/-- R215: major 0x66, pidx 15, dst 0x000, sa 0x017, sb 0x00c, sc 0x000, func 0x000. -/
theorem test_decode_barw : decodeWord 256 0x6678000B81800000 = .ok (.barw ⟨.always, .g 23, .g 12⟩) := by decide

/-- R215: major 0x67, pidx 15, dst 0x000, sa 0x008, sb 0x000, sc 0x000, func 0x000. -/
theorem test_decode_waitany : decodeWord 256 0x6778000400000000 = .ok (.waitany ⟨.always, .g 8⟩) := by decide

/-- R215: major 0x67, pidx 15, dst 0x000, sa 0x008, sb 0x000, sc 0x000, func 0x100. -/
theorem test_decode_waitall : decodeWord 256 0x6778000400000100 = .ok (.waitall ⟨.always, .g 8⟩) := by decide

/-- R215: major 0x67, pidx 15, dst 0x005, sa 0x008, sb 0x000, sc 0x000, func 0x201. -/
theorem test_decode_ffr : decodeWord 256 0x67780A0400000201 = .ok (.ffr ⟨.always, .g 5, .g 8, true⟩) := by decide

/-- R270: major 0x68, pidx 3, dst 0x000, sa 0x326, sb 0x028, sc 0x000, func 0x001. -/
theorem test_decode_emit : decodeWord 256 0x6818019305000001 = .ok (.emit ⟨.pred 3 false, true, .imm 38, 40⟩) := by decide

/-- R270: major 0x69, pidx 15, dst 0x028, sa 0x005, sb 0x000, sc 0x000, func 0x000. -/
theorem test_decode_qrd : decodeWord 256 0x6978500280000000 = .ok (.qrd ⟨.always, false, .g 5, 40⟩) := by decide

/-- R270: major 0x6a, pidx 15, dst 0x003, sa 0x005, sb 0x000, sc 0x000, func 0x001. -/
theorem test_decode_qlen : decodeWord 256 0x6A78060280000001 = .ok (.qlen ⟨.always, true, .g 3, .g 5⟩) := by decide

/-- R297: major 0x6c, pidx 15, dst 0x000, sa 0x028, sb 0x02a, sc 0x000, func 0x000. -/
theorem test_decode_mload : decodeWord 256 0x6C78001405400000 = .ok (.mload ⟨.always, .g 40, .g 42⟩) := by decide

/-- R297: major 0x6d, pidx 15, dst 0x000, sa 0x028, sb 0x000, sc 0x000, func 0x000. -/
theorem test_decode_marm : decodeWord 256 0x6D78001400000000 = .ok (.marm ⟨.always, .g 40⟩) := by decide

/-- R297: major 0x6e, pidx 15, dst 0x000, sa 0x028, sb 0x000, sc 0x000, func 0x000. -/
theorem test_decode_mdis : decodeWord 256 0x6E78001400000000 = .ok (.mdis ⟨.always, .g 40⟩) := by decide

/-- R297: major 0x6f, pidx 15, dst 0x02c, sa 0x028, sb 0x304, sc 0x000, func 0x000. -/
theorem test_decode_mstat : decodeWord 256 0x6F78581460800000 = .ok (.mstat ⟨.always, 44, .g 40, .imm 4⟩) := by decide

/-- R347: major 0x70, pidx 15, ld 1, st 2, cp 63, tl 4. -/
theorem test_decode_wait : decodeWord 256 0x7078217E20000000 = .ok (.wait ⟨.always, 1, 2, 63, 4⟩) := by decide

/-- R349: major 0x71, pidx 15, dst 0x00d, sa 0x000, sb 0x000, sc 0x000, func 0x000. -/
theorem test_decode_cntr : decodeWord 256 0x71781A0000000000 = .ok (.cntr ⟨.always, .g 13⟩) := by decide

/-- R356: major 0x72, pidx 15, dst 0x00d, sa 0x000, sb 0x000, sc 0x000, func 0x000. -/
theorem test_decode_amb : decodeWord 256 0x72781A0000000000 = .ok (.amb ⟨.always, .g 13⟩) := by decide

/-- R358: major 0x73, pidx 15, dst 0x00d, sa 0x002, sb 0x000, sc 0x000, func 0x000. -/
theorem test_decode_boost : decodeWord 256 0x73781A0100000000 = .ok (.boost ⟨.always, .g 13, .g 2⟩) := by decide

/-- R370: major 0x74, pidx 15, dst 0x000, sa 0x004, sb 0x000, sc 0x000, func 0x005. -/
theorem test_decode_trap : decodeWord 256 0x7478000200000005 = .ok (.trap ⟨.always, 5, .g 4⟩) := by decide

/-- R370: major 0x75, pidx 15, dst 0x000, sa 0x03c, sb 0x307, sc 0x000, func 0x000. -/
theorem test_decode_serv : decodeWord 256 0x7578001E60E00000 = .ok (.serv ⟨.always, .g 60, .imm 7⟩) := by decide

/-- R370: major 0x76, pidx 15, dst 0x000, sa 0x000, sb 0x000, sc 0x000, func 0x000. -/
theorem test_decode_brk : decodeWord 256 0x7678000000000000 = .ok (.brk ⟨.always, 0⟩) := by decide

/-- R70: halves ropc 0x00, guard 0, dst 0x008, srcf 0x082, mod 2 and ropc 0x01, guard 0, dst 0x009, srcf 0x023, mod 2. -/
theorem test_decode_pair_split : decodeWord 256 0x800041050200908E = .ok (.pairFormWord ⟨none, .split .add (.g 8) 4 2⟩ ⟨none, .split .sub (.g 9) 1 3⟩) := by decide

/-- R70: halves ropc 0x0a, guard 1, dst 0x009, srcf 0x3ff, mod 1 and ropc 0x31, guard 7, dst 0x000, srcf 0x000, mod 0. -/
theorem test_decode_pair_two : decodeWord 256 0x8A204FFEE3C00000 = .ok (.pairFormWord ⟨some 0, .two .minz (.g 9) (.imm 0xFF)⟩ ⟨some 6, .ret⟩) := by decide

/-- R70: halves ropc 0x15, guard 2, dst 0x00b, srcf 0x086, mod 3 and ropc 0x30, guard 0, dst 0x000, srcf 0x380, mod 0. -/
theorem test_decode_pair_cmp : decodeWord 256 0x9540590DE0000E00 = .ok (.pairFormWord ⟨some 1, .cmp .gez 11 4 6⟩ ⟨none, .bra 0x80⟩) := by decide

/-- R70: halves ropc 0x24, guard 0, dst 0x008, srcf 0x002, mod 0 and ropc 0x0e, guard 0, dst 0x300, srcf 0x200, mod 0. -/
theorem test_decode_pair_memory : decodeWord 256 0xA40040041C300800 = .ok (.pairFormWord ⟨none, .ld true .s (.g 8) (.g 2)⟩ ⟨none, .una .neg .discard .lat⟩) := by decide

/-- R70: halves ropc 0x1c, guard 0, dst 0x103, srcf 0x005, mod 0 and ropc 0x26, guard 3, dst 0x200, srcf 0x002, mod 0. -/
theorem test_decode_pair_store : decodeWord 256 0x9C08180A4CE00008 = .ok (.pairFormWord ⟨none, .two .fmax (.o 3) (.g 5)⟩ ⟨some 2, .st false false .lat (.g 2)⟩) := by decide

/-- R74: ropc 0x00, guard 0, dst 0x00a, srcf 0x004, mod 0, lit 0x00012345. -/
theorem test_decode_literal_add : decodeWord 256 0xC000500800012345 = .ok (.literalFormWord ⟨none, .bin .add false (.g 10) (.g 4) 0x12345⟩) := by decide

/-- R74: ropc 0x05, guard 7, dst 0x00a, srcf 0x004, mod 1, lit 0x80000000. -/
theorem test_decode_literal_double : decodeWord 256 0xC5E0500980000000 = .ok (.literalFormWord ⟨some 6, .bin .xor true (.g 10) (.g 4) 0x80000000⟩) := by decide

/-- R74: ropc 0x12, guard 0, dst 0x00b, srcf 0x107, mod 1, lit 0x00000009. -/
theorem test_decode_literal_cmp : decodeWord 256 0xD2005A0F00000009 = .ok (.literalFormWord ⟨none, .cmp .ltz 11 (.o 7) 9⟩) := by decide

/-- R74: ropc 0x0c, guard 1, dst 0x300, srcf 0x000, mod 0, lit 0x00000007. -/
theorem test_decode_literal_mov : decodeWord 256 0xCC38000000000007 = .ok (.literalFormWord ⟨some 0, .una .mov false .discard 7⟩) := by decide

/-- R74: ropc 0x25, guard 0, dst 0x008, srcf 0x001, mod 0, lit 0xfffffff8. -/
theorem test_decode_literal_load : decodeWord 256 0xE5004002FFFFFFF8 = .ok (.literalFormWord ⟨none, .ld true .k (.g 8) (.g 1) 0xFFFFFFF8⟩) := by decide

/-- R74: ropc 0x29, guard 0, dst 0x008, srcf 0x001, mod 0, lit 0x00000010. -/
theorem test_decode_literal_store : decodeWord 256 0xE900400200000010 = .ok (.literalFormWord ⟨none, .st true true (.g 8) (.g 1) 16⟩) := by decide

/-- R74: ropc 0x30, guard 0, dst 0x000, srcf 0x000, mod 0, lit 0xfffffff0. -/
theorem test_decode_literal_bra : decodeWord 256 0xF0000000FFFFFFF0 = .ok (.literalFormWord ⟨none, .bra 0xFFFFFFF0⟩) := by decide

/-- R79: a full-form major that is not assigned. -/
theorem test_fault_major_unassigned : decodeWord 256 0x3678000000000000 = .error 0x01 := by decide

/-- R69: bit count selector 4. -/
theorem test_fault_selector_unassigned : decodeWord 256 0x1778000000000400 = .error 0x01 := by decide

/-- R66: NOT with a nonzero sb. -/
theorem test_fault_unused_field : decodeWord 256 0x0C78020100600000 = .error 0x02 := by decide

/-- R103: condition 7. -/
theorem test_fault_condition_unassigned : decodeWord 256 0x1E78040000000038 = .error 0x02 := by decide

/-- R62: pidx 13. -/
theorem test_fault_guard_13 : decodeWord 256 0x0068020105000000 = .error 0x03 := by decide

/-- R72 rule 1: g4 and g0 lie in bank 0. -/
theorem test_fault_bank_read_twice : decodeWord 256 0x800041050200900E = .error 0x05 := by decide

/-- R72 rule 2. -/
theorem test_fault_same_destination : decodeWord 256 0x800041050000808E = .error 0x05 := by decide

/-- R72 rule 3. -/
theorem test_fault_two_memory_halves : decodeWord 256 0xA00040084E009014 = .error 0x05 := by decide

/-- R72 rule 4. -/
theorem test_fault_first_half_branches : decodeWord 256 0xB00006020000808E = .error 0x05 := by decide

/-- R65: g3 in a 64-bit position. -/
theorem test_fault_odd_pair : decodeWord 256 0x0078060100800001 = .error 0x06 := by decide

/-- R66, R179: an immediate as a memory base. -/
theorem test_fault_base_immediate : decodeWord 256 0x50780980E2000240 = .error 0x06 := by decide

/-- R146: A overlaps D. -/
theorem test_fault_mma_overlap : decodeWord 256 0x3878802006180120 = .error 0x06 := by decide

/-- R76: RET in the literal form. -/
theorem test_fault_literal_ret : decodeWord 256 0xF100000000000000 = .error 0x01 := by decide

/-! ### Ill-formed terms, each refused by its check -/

/-- R63: g96 under an allocation of 96. -/
theorem test_ill_register_out : Instr.chk 96 (.mov ⟨.always, .g 96, .lat, false⟩) = [.operand] := by decide

/-- R63: a source at the allocation. -/
theorem test_ill_source_out : Instr.chk 96 (.mov ⟨.always, .g 95, .g 96, false⟩) = [.operand] := by decide

/-- R65: an odd register in a 64-bit position. -/
theorem test_ill_odd_pair : Instr.chk 96 (.not ⟨.always, .g 3, .g 2, true⟩) = [.operand] := by decide

/-- R98: the 32-bit D of a count. -/
theorem test_ill_count_destination : Instr.chk 96 (.popc ⟨.always, .g 96, .g 2, true⟩) = [.operand] := by decide

/-- R91: the 32-bit amount. -/
theorem test_ill_shift_amount : Instr.chk 96 (.shl ⟨.always, .g 2, .g 4, .g 96, true⟩) = [.operand] := by decide

/-- R63: source C. -/
theorem test_ill_third_source : Instr.chk 96 (.mad ⟨.always, .g 2, .g 4, .g 6, .g 97, .none, false⟩) = [.operand] := by decide

/-- R63: source C of SHF. -/
theorem test_ill_funnel_source : Instr.chk 96 (.shf ⟨.always, .g 2, .g 4, .g 6, .g 97⟩) = [.operand] := by decide

/-- R91: ABS.z. -/
theorem test_ill_abs_unsigned : Instr.chk 96 (.abs ⟨.always, .g 2, .g 4, .z, false⟩) = [.reserved] := by decide

/-- R99: a length above 32. -/
theorem test_ill_field_length : Instr.chk 96 (.bfx ⟨.always, .g 2, .g 4, .imm 0, 33, .none, false⟩) = [.reserved] := by decide

/-- R99: a length above 64. -/
theorem test_ill_field_length_wide : Instr.chk 96 (.bfi ⟨.always, .g 2, .g 4, .g 6, .imm 0, 65, true⟩) = [.reserved] := by decide

/-- R65: an odd B of SEL.d. -/
theorem test_ill_select_operand : Instr.chk 96 (.sel ⟨.always, .g 2, .g 4, .g 5, 0, false, true⟩) = [.operand] := by decide

/-- R102: an odd A of LEA.d. -/
theorem test_ill_lea_operand : Instr.chk 96 (.lea ⟨.always, .g 2, .g 5, .g 7, 0, .none, true⟩) = [.operand] := by decide

/-- R65: an odd A of CMP.d. -/
theorem test_ill_compare_operand : Instr.chk 96 (.cmp ⟨.always, 0, .g 5, .g 4, .eq, .none, true⟩) = [.operand] := by decide

/-- R105. -/
theorem test_ill_pmov_mask : Instr.chk 96 (.pmov ⟨.always, .fromReg (.g 1) (.g 96)⟩) = [.operand] := by decide

/-- R105. -/
theorem test_ill_pmov_destination : Instr.chk 96 (.pmov ⟨.always, .toReg (.g 96)⟩) = [.operand] := by decide

/-- R106, R65. -/
theorem test_ill_gets_pair : Instr.chk 96 (.gets ⟨.always, .g 3, .tags, true⟩) = [.operand] := by decide

/-- R106, R65. -/
theorem test_ill_sets_source : Instr.chk 96 (.sets ⟨.always, .lk, .g 3, true⟩) = [.operand] := by decide

/-- R122. -/
theorem test_ill_float_source : Instr.chk 96 (.fadd ⟨.always, .g 1, .g 2, .g 96, .rne⟩) = [.operand] := by decide

/-- R122. -/
theorem test_ill_fused_source : Instr.chk 96 (.ffma ⟨.always, .g 1, .g 2, .g 3, .g 96, .rne⟩) = [.operand] := by decide

/-- R122. -/
theorem test_ill_fmin_source : Instr.chk 96 (.fmin ⟨.always, .g 1, .g 96, .g 3⟩) = [.operand] := by decide

/-- R122. -/
theorem test_ill_fcmp_source : Instr.chk 96 (.fcmp ⟨.always, 0, .g 1, .g 96, .eq⟩) = [.operand] := by decide

/-- R122. -/
theorem test_ill_frcp_source : Instr.chk 96 (.frcp ⟨.always, .g 1, .g 96, .rne⟩) = [.operand] := by decide

/-- R122. -/
theorem test_ill_fclass_source : Instr.chk 96 (.fclass ⟨.always, .g 96, .g 1⟩) = [.operand] := by decide

/-- R129. -/
theorem test_ill_half_source : Instr.chk 96 (.hadd2 ⟨.always, .g 1, .g 2, .g 96, false, .rne⟩) = [.operand] := by decide

/-- R130. -/
theorem test_ill_doth_accumulator : Instr.chk 96 (.doth2 ⟨.always, .g 96, .g 2, .g 3, false⟩) = [.operand] := by decide

/-- R131: a 64-bit register type. -/
theorem test_ill_cvt_pair : Instr.chk 96 (.cvt ⟨.always, .g 3, .g 2, false, .s64, 0, .rne, false⟩) = [.operand] := by decide

/-- R132. -/
theorem test_ill_pack_source : Instr.chk 96 (.pack ⟨.always, .g 3, .g 2, .g 96, 0, 0, .rne, false⟩) = [.operand] := by decide

/-- R132. -/
theorem test_ill_unpack_source : Instr.chk 96 (.unpack ⟨.always, .g 3, .g 96, 0, 0⟩) = [.operand] := by decide

/-- R133. -/
theorem test_ill_fmtq_source : Instr.chk 96 (.fmtq ⟨.always, .g 3, .g 96, 0⟩) = [.operand] := by decide

/-- R134. -/
theorem test_ill_dot_scale : Instr.chk 96 (.dot8 ⟨.always, .g 1, .g 2, .g 3, some (.g 96), 0, 0⟩) = [.operand] := by decide

/-- R146: D reaches the allocation. -/
theorem test_ill_mma_range : Instr.chk 96 (.mma ⟨.always, 65, 0, 16, none, 0, 0, 0⟩) = [.operand] := by decide

/-- R146: A overlaps D. -/
theorem test_ill_mma_overlap : Instr.chk 96 (.mma ⟨.always, 64, 49, 16, none, 0, 0, 0⟩) = [.operand] := by decide

/-- R146: C overlaps D and is not D. -/
theorem test_ill_mma_accumulator : Instr.chk 96 (.mma ⟨.always, 64, 0, 16, some 33, 0, 0, 0⟩) = [.operand] := by decide

/-- R146: S overlaps D. -/
theorem test_ill_mmas_scales : Instr.chk 96 (.mmas ⟨.always, 64, 0, 16, 63, 0, 0, 0⟩) = [.operand] := by decide

/-- R146. -/
theorem test_ill_mzero_range : Instr.chk 96 (.mzero ⟨.always, 65, true⟩) = [.operand] := by decide

/-- R146. -/
theorem test_ill_fragment_range : Instr.chk 96 (.ldfr ⟨.always, 81, 2, .imm 0, .g, false⟩) = [.operand] := by decide

/-- R146: an odd base in space .g. -/
theorem test_ill_fragment_base : Instr.chk 96 (.ldfr ⟨.always, 80, 3, .imm 0, .g, false⟩) = [.operand] := by decide

/-- R146: STFR to space .k. -/
theorem test_ill_stfr_space : Instr.chk 96 (.stfr ⟨.always, 80, 3, .imm 0, .k, false⟩) = [.reserved] := by decide

/-- R146. -/
theorem test_ill_mcvt_overlap : Instr.chk 96 (.mcvt ⟨.always, 63, 32, 0, 0, .rne, false⟩) = [.operand] := by decide

/-- R146: unequal ranges that meet. -/
theorem test_ill_mtrn_overlap : Instr.chk 96 (.mtrn ⟨.always, 1, 0, false⟩) = [.operand] := by decide

/-- R157: a 64-bit target. -/
theorem test_ill_brx_pair : Instr.chk 96 (.brx ⟨.always, .g 3, 0⟩) = [.operand] := by decide

/-- R157: k above 6. -/
theorem test_ill_yield_level : Instr.chk 96 (.yld ⟨.always, 7⟩) = [.reserved] := by decide

/-- R157: 64-bit weights. -/
theorem test_ill_tcall_weights : Instr.chk 96 (.tcall ⟨.always, .g 3, .g 2, 0, 0⟩) = [.operand] := by decide

/-- R157. -/
theorem test_ill_tcalls_table : Instr.chk 96 (.tcalls ⟨.always, .g 3, .g 96, 0, 0⟩) = [.operand] := by decide

/-- R157: a 64-bit D. -/
theorem test_ill_ballot_destination : Instr.chk 96 (.tvote ⟨.always, 0, false, .ballot (.g 3) (.imm 0)⟩) = [.operand] := by decide

/-- R157. -/
theorem test_ill_count_result : Instr.chk 96 (.tvote ⟨.always, 0, false, .count (.g 96)⟩) = [.operand] := by decide

/-- R157. -/
theorem test_ill_txch_pair : Instr.chk 96 (.txch ⟨.always, .g 2, .g 3, .imm 0, true⟩) = [.operand] := by decide

/-- R157. -/
theorem test_ill_tmigr_core : Instr.chk 96 (.tmigr ⟨.always, .g 96⟩) = [.operand] := by decide

/-- R157: GLAUNCH has no .d. -/
theorem test_ill_glaunch_width : Instr.chk 96 (.glaunch ⟨.always, .g 2, .g 4, .g 6, true⟩) = [.reserved] := by decide

/-- R195: a .q index that is no multiple of 4. -/
theorem test_ill_load_quad : Instr.chk 96 (.ld ⟨.always, .g 6, .g 2, .imm 0, .q, .g, .none, false, false⟩) = [.operand] := by decide

/-- R195: a .q D outside the main file. -/
theorem test_ill_load_quad_operand_file : Instr.chk 96 (.ld ⟨.always, .o 4, .g 2, .imm 0, .q, .g, .none, false, false⟩) = [.operand] := by decide

/-- R194: a hint in space .s. -/
theorem test_ill_load_hint : Instr.chk 96 (.ld ⟨.always, .g 6, .g 2, .imm 0, .w, .s, .ef, false, false⟩) = [.reserved] := by decide

/-- R194: .sx with .w. -/
theorem test_ill_load_sign : Instr.chk 96 (.ld ⟨.always, .g 6, .g 2, .imm 0, .w, .g, .none, false, true⟩) = [.reserved] := by decide

/-- R179: an odd base in space .g. -/
theorem test_ill_load_base : Instr.chk 96 (.ld ⟨.always, .g 6, .g 3, .imm 0, .w, .g, .none, false, false⟩) = [.operand] := by decide

/-- R194: ST to space .k. -/
theorem test_ill_store_space : Instr.chk 96 (.st ⟨.always, .g 2, .imm 0, .lat, .w, .k, .none⟩) = [.reserved] := by decide

/-- R195. -/
theorem test_ill_store_data_quad : Instr.chk 96 (.st ⟨.always, .g 2, .imm 0, .lat, .q, .g, .none⟩) = [.operand] := by decide

/-- R194. -/
theorem test_ill_store_hint : Instr.chk 96 (.st ⟨.always, .g 2, .imm 0, .lat, .w, .s, .el⟩) = [.reserved] := by decide

/-- R194. -/
theorem test_ill_lda_hint : Instr.chk 96 (.lda ⟨.always, .g 2, .g 4, .imm 0, .w, .s, .el, false, .team⟩) = [.reserved] := by decide

/-- R194. -/
theorem test_ill_stl_space : Instr.chk 96 (.stl ⟨.always, .g 2, .imm 0, .lat, .w, .k, .none, .team⟩) = [.reserved] := by decide

/-- R194. -/
theorem test_ill_stl_hint : Instr.chk 96 (.stl ⟨.always, .g 2, .imm 0, .lat, .w, .s, .ef, .team⟩) = [.reserved] := by decide

/-- R194: .fadd with .d. -/
theorem test_ill_atom_fadd_wide : Instr.chk 96 (.atom ⟨.always, none, .g 2, .g 4, none, true, false, .fadd, .rlx, .dev⟩) = [.reserved] := by decide

/-- R194, R66: C outside .cas. -/
theorem test_ill_atom_compare : Instr.chk 96 (.atom ⟨.always, none, .g 2, .g 4, some (.g 6), true, false, .add, .rlx, .dev⟩) = [.reserved] := by decide

/-- R194: .cas takes C. -/
theorem test_ill_atom_compare_absent : Instr.chk 96 (.atom ⟨.always, none, .g 2, .g 4, none, true, false, .cas, .rlx, .dev⟩) = [.reserved] := by decide

/-- R194: RED .xchg. -/
theorem test_ill_red_exchange : Instr.chk 96 (.red ⟨.always, .g 2, .g 4, false, false, .xchg, false, .dev⟩) = [.reserved] := by decide

/-- R194. -/
theorem test_ill_red_fadd_wide : Instr.chk 96 (.red ⟨.always, .g 2, .g 4, true, false, .fadd, false, .dev⟩) = [.reserved] := by decide

/-- R179. -/
theorem test_ill_pref_base : Instr.chk 96 (.pref ⟨.always, .g 3, .imm 0, false, .none, false⟩) = [.operand] := by decide

/-- R179. -/
theorem test_ill_line_base : Instr.chk 96 (.disc ⟨.always, .g 3, .imm 0⟩) = [.operand] := by decide

/-- R215: an odd .g base. -/
theorem test_ill_copy_source : Instr.chk 96 (.cpy ⟨.always, .g 3, .g 5, .imm 0, true, .g, none, 0⟩) = [.operand] := by decide

/-- R215. -/
theorem test_ill_copy_barrier : Instr.chk 96 (.cpy ⟨.always, .g 3, .g 4, .imm 0, true, .g, some (.g 96), 0⟩) = [.operand] := by decide

/-- R215: a descriptor at no multiple of 8. -/
theorem test_ill_descriptor_tiled : Instr.chk 96 (.cpyt ⟨.always, .g 3, .g 4, 44, true, .g, none, 0⟩) = [.operand] := by decide

/-- R215: a descriptor at no multiple of 4. -/
theorem test_ill_descriptor_gathered : Instr.chk 96 (.cpyg ⟨.always, .g 3, .g 4, 42, true, .g, none, 0⟩) = [.operand] := by decide

/-- R215. -/
theorem test_ill_barrier_address : Instr.chk 96 (.bari ⟨.always, .g 96, .imm 1⟩) = [.operand] := by decide

/-- R215. -/
theorem test_ill_arrival_destination : Instr.chk 96 (.bara ⟨.always, some (.g 96), .g 1⟩) = [.operand] := by decide

/-- R215: a 64-bit mask. -/
theorem test_ill_tag_mask : Instr.chk 96 (.waitany ⟨.always, .g 3⟩) = [.operand] := by decide

/-- R215. -/
theorem test_ill_ffr_mask : Instr.chk 96 (.ffr ⟨.always, .g 3, .g 5, true⟩) = [.operand] := by decide

/-- R270: a record at no multiple of 8. -/
theorem test_ill_record_range : Instr.chk 96 (.emit ⟨.always, false, .imm 0, 44⟩) = [.operand] := by decide

/-- R270. -/
theorem test_ill_qlen_destination : Instr.chk 96 (.qlen ⟨.always, false, .g 96, .imm 0⟩) = [.operand] := by decide

/-- R297: a 64-bit address. -/
theorem test_ill_mload_address : Instr.chk 96 (.mload ⟨.always, .g 1, .g 3⟩) = [.operand] := by decide

/-- R297. -/
theorem test_ill_marm_slot : Instr.chk 96 (.marm ⟨.always, .g 96⟩) = [.operand] := by decide

/-- R297: a 64-bit D. -/
theorem test_ill_mstat_destination : Instr.chk 96 (.mstat ⟨.always, 3, .g 1, .imm 0⟩) = [.operand] := by decide

/-- R349. -/
theorem test_ill_cntr_destination : Instr.chk 96 (.cntr ⟨.always, .g 96⟩) = [.operand] := by decide

/-- R358. -/
theorem test_ill_boost_source : Instr.chk 96 (.boost ⟨.always, .g 1, .g 96⟩) = [.operand] := by decide

/-- R370: a 64-bit A. -/
theorem test_ill_trap_operand : Instr.chk 96 (.trap ⟨.always, 0, .g 3⟩) = [.operand] := by decide

/-- R370. -/
theorem test_ill_serv_block : Instr.chk 96 (.serv ⟨.always, .g 96, .imm 0⟩) = [.operand] := by decide

/-- R72 rule 1. -/
theorem test_ill_pair_bank : Instr.chk 96 (.pairFormWord ⟨none, .split .add (.g 8) 4 2⟩ ⟨none, .split .sub (.g 9) 0 3⟩) = [.pairing] := by decide

/-- R72 rule 2. -/
theorem test_ill_pair_register : Instr.chk 96 (.pairFormWord ⟨none, .split .add (.g 8) 4 2⟩ ⟨none, .split .sub (.g 8) 1 3⟩) = [.pairing] := by decide

/-- R72 rule 2, an operand-file entry (log 14). -/
theorem test_ill_pair_operand_entry : Instr.chk 96 (.pairFormWord ⟨none, .split .add (.o 1) 4 2⟩ ⟨none, .split .sub (.o 1) 1 3⟩) = [.pairing] := by decide

/-- R72 rule 2. -/
theorem test_ill_pair_predicate : Instr.chk 96 (.pairFormWord ⟨none, .cmp .eq 1 4 2⟩ ⟨none, .cmp .ne 1 1 3⟩) = [.pairing] := by decide

/-- R72 rule 2. -/
theorem test_ill_pair_latch : Instr.chk 96 (.pairFormWord ⟨none, .split .add .lat 4 2⟩ ⟨none, .split .sub .lat 1 3⟩) = [.pairing] := by decide

/-- R72 rule 3. -/
theorem test_ill_pair_memory : Instr.chk 96 (.pairFormWord ⟨none, .ld false .s (.g 8) (.g 4)⟩ ⟨none, .st false true (.g 9) (.g 5)⟩) = [.pairing] := by decide

/-- R72 rule 4. -/
theorem test_ill_pair_branch : Instr.chk 96 (.pairFormWord ⟨none, .bra 1⟩ ⟨none, .split .sub (.g 8) 1 3⟩) = [.pairing] := by decide

/-- R71. -/
theorem test_ill_pair_half_register : Instr.chk 96 (.pairFormWord ⟨none, .una .mov (.g 96) .lat⟩ ⟨none, .ret⟩) = [.operand] := by decide

/-- R71. -/
theorem test_ill_pair_half_index : Instr.chk 16 (.pairFormWord ⟨none, .split .add (.g 1) 17 2⟩ ⟨none, .ret⟩) = [.operand] := by decide

/-- R76: MUL has no .d. -/
theorem test_ill_literal_width : Instr.chk 96 (.literalFormWord ⟨none, .bin .mul true (.g 2) (.g 4) 0⟩) = [.reserved] := by decide

/-- R76: NOT has no .d. -/
theorem test_ill_literal_unary_width : Instr.chk 96 (.literalFormWord ⟨none, .una .not true (.g 2) 0⟩) = [.reserved] := by decide

/-- R77: the latch under .d. -/
theorem test_ill_literal_latch : Instr.chk 96 (.literalFormWord ⟨none, .bin .add true (.g 2) .lat 0⟩) = [.operand] := by decide

/-- R77: an operand-file entry under .d. -/
theorem test_ill_literal_entry : Instr.chk 96 (.literalFormWord ⟨none, .una .mov true (.o 2) 0⟩) = [.operand] := by decide

/-- R77, R179. -/
theorem test_ill_literal_base : Instr.chk 96 (.literalFormWord ⟨none, .ld false .g (.g 2) (.g 3) 0⟩) = [.operand] := by decide

/-- R75: a target that is no multiple of 8. -/
theorem test_ill_literal_branch : Instr.chk 96 (.literalFormWord ⟨none, .bra 4⟩) = [.operand] := by decide

/-! ### Values: one word of one lane -/

/-- R90: an integer result wraps. -/
theorem test_add_wraps : gives (.add ⟨.always, .g 4, .g 0, .g 1, .none, false⟩) [0xffffffff, 3] 4 0x2 = true := by decide

/-- R64, R65: a pair, and −1 sign-extended to 64 bits. -/
theorem test_add_double : after (.add ⟨.always, .g 4, .g 0, .imm 0xFF, .none, true⟩) (regs [0, 1]) (fun t => t.gVal 4 == 0xFFFFFFFF && t.gVal 5 == 0 && t.lat == 0xFFFFFFFF) = true := by decide

/-- R92. -/
theorem test_sub_wraps : gives (.sub ⟨.always, .g 4, .g 0, .g 1, .s, false⟩) [0, 1] 4 0xffffffff = true := by decide

/-- R92: the low 32 bits. -/
theorem test_mul_low : gives (.mul ⟨.always, .g 4, .g 0, .g 1, .none, false⟩) [0x10001, 0x10001] 4 0x20001 = true := by decide

/-- R92: −1 × 2. -/
theorem test_mulh_signed : gives (.mulh ⟨.always, .g 4, .g 0, .g 1, .s, false⟩) [0xffffffff, 2] 4 0xffffffff = true := by decide

/-- R92. -/
theorem test_mulh_unsigned : gives (.mulh ⟨.always, .g 4, .g 0, .g 1, .z, false⟩) [0xffffffff, 2] 4 0x1 = true := by decide

/-- R93. -/
theorem test_mad : gives (.mad ⟨.always, .g 4, .g 0, .g 1, .g 2, .none, false⟩) [7, 6, 0xffffffff] 4 0x29 = true := by decide

/-- R94's table. -/
theorem test_div_zero : gives (.div ⟨.always, .g 4, .g 0, .g 1, .s, false⟩) [7, 0] 4 0xffffffff = true := by decide

/-- R94's table. -/
theorem test_div_overflow : gives (.div ⟨.always, .g 4, .g 0, .g 1, .s, false⟩) [0x80000000, 0xffffffff] 4 0x80000000 = true := by decide

/-- R94's table: −7 REM 2. -/
theorem test_rem_sign : gives (.rem ⟨.always, .g 4, .g 0, .g 1, .s, false⟩) [0xfffffff9, 2] 4 0xffffffff = true := by decide

/-- R94's table. -/
theorem test_rem_zero : gives (.rem ⟨.always, .g 4, .g 0, .g 1, .s, false⟩) [7, 0] 4 0x7 = true := by decide

/-- R92. -/
theorem test_and : gives (.and ⟨.always, .g 4, .g 0, .g 1, false⟩) [0xc, 0xa] 4 0x8 = true := by decide

/-- R92. -/
theorem test_or : gives (.or ⟨.always, .g 4, .g 0, .g 1, false⟩) [0xc, 0xa] 4 0xe = true := by decide

/-- R92. -/
theorem test_xor : gives (.xor ⟨.always, .g 4, .g 0, .g 1, false⟩) [0xc, 0xa] 4 0x6 = true := by decide

/-- R92. -/
theorem test_andn : gives (.andn ⟨.always, .g 4, .g 0, .g 1, false⟩) [0xc, 0xa] 4 0x4 = true := by decide

/-- R92. -/
theorem test_orn : gives (.orn ⟨.always, .g 4, .g 0, .g 1, false⟩) [0xc, 0xa] 4 0xfffffffd = true := by decide

/-- R97, R83: a discard writes the latch alone. -/
theorem test_not_latch : after (.not ⟨.always, .discard, .imm 0, false⟩) (id) (fun t => t.lat == 0xFFFFFFFF && t.g == []) = true := by decide

/-- R95: SHL by 33 shifts by 1. -/
theorem test_shl_modulo : gives (.shl ⟨.always, .g 4, .g 0, .g 1, false⟩) [1, 0x21] 4 0x2 = true := by decide

/-- R95. -/
theorem test_shr : gives (.shr ⟨.always, .g 4, .g 0, .g 1, false⟩) [0x80000000, 0x1f] 4 0x1 = true := by decide

/-- R95. -/
theorem test_sar : gives (.sar ⟨.always, .g 4, .g 0, .g 1, false⟩) [0x80000000, 0x1f] 4 0xffffffff = true := by decide

/-- R95. -/
theorem test_rol : gives (.rol ⟨.always, .g 4, .g 0, .g 1, false⟩) [0x80000001, 1] 4 0x3 = true := by decide

/-- R95: an amount of 0 returns A. -/
theorem test_ror : gives (.ror ⟨.always, .g 4, .g 0, .g 1, false⟩) [0x80000001, 0x20] 4 0x80000001 = true := by decide

/-- R96: n = 32 returns A. -/
theorem test_shf : gives (.shf ⟨.always, .g 4, .g 0, .g 1, .g 2⟩) [0x12345678, 0x9abcdef0, 0x20] 4 0x12345678 = true := by decide

/-- R92. -/
theorem test_min_unsigned : gives (.min ⟨.always, .g 4, .g 0, .g 1, .z, false⟩) [0xffffffff, 1] 4 0x1 = true := by decide

/-- R89: none behaves as .s. -/
theorem test_max_signed : gives (.max ⟨.always, .g 4, .g 0, .g 1, .none, false⟩) [0xffffffff, 1] 4 0x1 = true := by decide

/-- R97: ABS of −2^31. -/
theorem test_abs_wraps : gives (.abs ⟨.always, .g 4, .g 0, .s, false⟩) [0x80000000] 4 0x80000000 = true := by decide

/-- R97. -/
theorem test_neg : gives (.neg ⟨.always, .g 4, .g 0, .none, false⟩) [1] 4 0xffffffff = true := by decide

/-- R98. -/
theorem test_popc_double : gives (.popc ⟨.always, .g 4, .g 0, true⟩) [0xf, 0xff] 4 0xc = true := by decide

/-- R98: W if A = 0. -/
theorem test_clz_zero : gives (.clz ⟨.always, .g 4, .g 0, false⟩) [0] 4 0x20 = true := by decide

/-- R98. -/
theorem test_ctz : gives (.ctz ⟨.always, .g 4, .g 0, false⟩) [0x50] 4 0x4 = true := by decide

/-- R98. -/
theorem test_brev : gives (.brev ⟨.always, .g 4, .g 0, false⟩) [3] 4 0xc0000000 = true := by decide

/-- R99: BFX.z g3, g2, 28, 8 returns g2[31:28]. -/
theorem test_bfx_cut : gives (.bfx ⟨.always, .g 4, .g 0, .imm 28, 8, .z, false⟩) [0xa0000001] 4 0xa = true := by decide

/-- R99: a cut BFX takes its sign from bit 31. -/
theorem test_bfx_sign : gives (.bfx ⟨.always, .g 4, .g 0, .imm 28, 8, .s, false⟩) [0xa0000001] 4 0xfffffffa = true := by decide

/-- R99. -/
theorem test_bfi : gives (.bfi ⟨.always, .g 4, .g 0, .g 1, .imm 4, 8, false⟩) [0xabc, 0xffffffff] 4 0xfffffbcf = true := by decide

/-- R100: 0x0123 reverses the bytes. -/
theorem test_bperm_reverse : gives (.bperm ⟨.always, .g 4, .g 0, .imm 0, .g 1⟩) [0x11223344, 0x123] 4 0x44332211 = true := by decide

/-- R100: 0x8880 zero-extends byte 0. -/
theorem test_bperm_extend : gives (.bperm ⟨.always, .g 4, .g 0, .imm 0, .g 1⟩) [0x11223344, 0x8880] 4 0x44 = true := by decide

/-- R101: !p1 with p1 = 1. -/
theorem test_sel : after (.sel ⟨.always, .g 4, .imm 1, .imm 0, 1, true, false⟩) (fun t => { t with preds := 0b10 }) (fun t => t.gVal 4 == 0 && t.lat == 0) = true := by decide

/-- R64. -/
theorem test_mov_odd_source : gives (.mov ⟨.always, .g 4, .imm 0x80, false⟩) [] 4 0xffffff80 = true := by decide

/-- R102. -/
theorem test_lea : gives (.lea ⟨.always, .g 4, .g 0, .g 1, 5, .none, false⟩) [0x100, 3] 4 0x160 = true := by decide

/-- R102: B sign-extended under .d. -/
theorem test_lea_extends : after (.lea ⟨.always, .g 4, .g 0, .g 2, 3, .none, true⟩) (regs [0, 1, 0xFFFFFFFF]) (fun t => t.gVal 4 == 0xFFFFFFF8 && t.gVal 5 == 0) = true := by decide

/-- R103. -/
theorem test_cmp_unsigned : after (.cmp ⟨.always, 2, .g 0, .imm 8, .lt, .z, false⟩) (regs [0xFFFFFFFF]) (fun t => !t.pred 2 && t.lat == 0) = true := by decide

/-- R103. -/
theorem test_cmp_signed : after (.cmp ⟨.always, 2, .g 0, .imm 8, .lt, .none, false⟩) (regs [0xFFFFFFFF]) (fun t => t.pred 2 && t.lat == 1) = true := by decide

/-- R104: p0 and not p1. -/
theorem test_pand : after (.pand ⟨.always, 2, 0, 1, false, true⟩) (fun t => { t with preds := 0b01 }) (fun t => t.pred 2 && t.lat == 1) = true := by decide

/-- R104. -/
theorem test_por : after (.por ⟨.always, 2, 0, 1, false, false⟩) (fun t => { t with preds := 0b10 }) (fun t => t.pred 2) = true := by decide

/-- R104: PXOR pd, pa, pa clears. -/
theorem test_pxor_clears : after (.pxor ⟨.always, 1, 1, 1, false, false⟩) (fun t => { t with preds := 0b11 }) (fun t => t.preds == 1 && t.lat == 0) = true := by decide

/-- R104. -/
theorem test_pnot : after (.pnot ⟨.always, 1, 0⟩) (id) (fun t => t.preds == 2 && t.lat == 1) = true := by decide

/-- R105. -/
theorem test_pmov_masked : after (.pmov ⟨.pred 3 true, .fromReg (.imm 0xFF) (.imm 0x0F)⟩) (fun t => { t with preds := 0x800 }) (fun t => t.preds == 0x80F && t.lat == 0x80F && t.pc == 8) = true := by decide

/-- R105. -/
theorem test_pmov_reads : gives (.pmov ⟨.always, .toReg (.g 4)⟩) [] 4 0x0 = true := by decide

/-- R85, R106. -/
theorem test_gets_argp : gives (.gets ⟨.always, .g 4, .tsize, false⟩) [] 4 0x1 = true := by decide

/-- R106: without .d the upper half of lk is 0. -/
theorem test_sets_lk : after (.sets ⟨.always, .lk, .imm 0xFF, false⟩) (id) (fun t => t.lk == 0xFFFFFFFF && t.lat == 0xFFFFFFFF) = true := by decide

/-- R62, R156. -/
theorem test_guard_false : after (.add ⟨.pred 0 false, .g 4, .imm 1, .imm 1, .none, false⟩) (id) (fun t => t.g == [] && t.lat == 0 && t.pc == 8) = true := by decide

/-- R121: 1 + 2^−24 ties to even, nx. -/
theorem test_fadd_tie : gives (.fadd ⟨.always, .g 4, .g 0, .g 1, .rne⟩) [0x3f800000, 0x33800000] 4 0x3f800000 0x10 = true := by decide

/-- R121. -/
theorem test_fadd_up : gives (.fadd ⟨.always, .g 4, .g 0, .g 1, .ru⟩) [0x3f800000, 0x33800000] 4 0x3f800001 0x10 = true := by decide

/-- R124: ∞ − ∞ sets nv. -/
theorem test_fadd_infinities : gives (.fadd ⟨.always, .g 4, .g 0, .g 1, .rne⟩) [0x7f800000, 0xff800000] 4 0x7fc00000 0x1 = true := by decide

/-- R124. -/
theorem test_fsub : gives (.fsub ⟨.always, .g 4, .g 0, .g 1, .rne⟩) [0x40000000, 0x3f800000] 4 0x3f800000 = true := by decide

/-- R124: of and nx. -/
theorem test_fmul_overflow : gives (.fmul ⟨.always, .g 4, .g 0, .g 1, .rne⟩) [0x7f7fffff, 0x40000000] 4 0x7f800000 0x14 = true := by decide

/-- R124: 0 × ∞ under a quiet NaN addend sets nv. -/
theorem test_ffma_invalid : gives (.ffma ⟨.always, .g 4, .g 0, .g 1, .g 2, .rne⟩) [0x7f800000, 0, 0x7fc00000] 4 0x7fc00000 0x1 = true := by decide

/-- R124: one rounding leaves 2^−46. -/
theorem test_ffma_once : gives (.ffma ⟨.always, .g 4, .g 0, .g 1, .g 2, .rne⟩) [0x3f800001, 0x3f800001, 0xbf800002] 4 0x28800000 = true := by decide

/-- R124: dz. -/
theorem test_fdiv_zero : gives (.fdiv ⟨.always, .g 4, .g 0, .g 1, .rne⟩) [0xbf800000, 0] 4 0xff800000 0x2 = true := by decide

/-- R124: 1 × 2^−149 is the least subnormal. -/
theorem test_fscale : gives (.fscale ⟨.always, .g 4, .g 0, .g 1, .rne⟩) [0x3f800000, 0xffffff6b] 4 0x1 = true := by decide

/-- R125's case. -/
theorem test_fmin_zeros : gives (.fmin ⟨.always, .g 4, .g 0, .g 1⟩) [0x80000000, 0] 4 0x80000000 = true := by decide

/-- R125: a signalling NaN sets nv and the number is returned. -/
theorem test_fmax_signalling : gives (.fmax ⟨.always, .g 4, .g 0, .g 1⟩) [0x7f800001, 0x3f800000] 4 0x3f800000 0x1 = true := by decide

/-- R126's case. -/
theorem test_fcmp_unordered : after (.fcmp ⟨.always, 3, .g 0, .g 1, .lt⟩) (regs [0x7FC00000, 0]) (fun t => !t.pred 3 && t.lat == 0 && t.fflags == 1) = true := by decide

/-- R127: −subnormal. -/
theorem test_fclass_subnormal : gives (.fclass ⟨.always, .g 4, .g 0⟩) [0x80000001] 4 0x4 = true := by decide

/-- R128: 1/3 towards zero. -/
theorem test_frcp_thirds : gives (.frcp ⟨.always, .g 4, .g 0, .rz⟩) [0x40400000] 4 0x3eaaaaaa 0x10 = true := by decide

/-- R128. -/
theorem test_fsqrt_two : gives (.fsqrt ⟨.always, .g 4, .g 0, .rne⟩) [0x40000000] 4 0x3fb504f3 0x10 = true := by decide

/-- R128's table. -/
theorem test_frsq_negative_zero : gives (.frsq ⟨.always, .g 4, .g 0⟩) [0x80000000] 4 0xff800000 0x2 = true := by decide

/-- R128's table. -/
theorem test_fexp2_zero : gives (.fexp2 ⟨.always, .g 4, .g 0⟩) [0x80000000] 4 0x3f800000 = true := by decide

/-- R128: the exact result where it is representable. -/
theorem test_flog2_one : gives (.flog2 ⟨.always, .g 4, .g 0⟩) [0x3f800000] 4 0x0 = true := by decide

/-- R128's table. -/
theorem test_fsin_infinite : gives (.fsin ⟨.always, .g 4, .g 0⟩) [0x7f800000] 4 0x7fc00000 0x1 = true := by decide

/-- R128's table. -/
theorem test_fcos_zero : gives (.fcos ⟨.always, .g 4, .g 0⟩) [0x80000000] 4 0x3f800000 = true := by decide

/-- R128's table. -/
theorem test_ftanh_infinite : gives (.ftanh ⟨.always, .g 4, .g 0⟩) [0xff800000] 4 0xbf800000 = true := by decide

/-- R129: 2 × 1 + 1 over 1 × 1 + 1. -/
theorem test_hfma2 : gives (.hfma2 ⟨.always, .g 4, .g 0, .g 1, .g 2, .rne⟩) [0x40003c00, 0x3c003c00, 0x3c003c00] 4 0x42004000 = true := by decide

/-- R129. -/
theorem test_bfma2 : gives (.bfma2 ⟨.always, .g 4, .g 0, .g 1, .g 2, .rne⟩) [0x40003f80, 0x3f803f80, 0x3f803f80] 4 0x40404000 = true := by decide

/-- R129: the flags of either element. -/
theorem test_hadd2 : gives (.hadd2 ⟨.always, .g 4, .g 0, .g 1, false, .rne⟩) [0x7bff3c00, 0x7bff3c00] 4 0x7c004000 0x14 = true := by decide

/-- R129. -/
theorem test_hmul2_bf : gives (.hmul2 ⟨.always, .g 4, .g 0, .g 1, true, .rne⟩) [0x3f804000, 0x40004040] 4 0x400040c0 = true := by decide

/-- R130: 1 + 1 × 1 + 2 × 3. -/
theorem test_doth2 : gives (.doth2 ⟨.always, .g 4, .g 0, .g 1, false⟩) [0x40003c00, 0x42003c00, 0, 0, 0x3f800000] 4 0x41000000 = true := by decide

/-- R131's case: 256 to s8 with .sat. -/
theorem test_cvt_saturates : gives (.cvt ⟨.always, .g 4, .g 0, true, .f32, 2, .rne, true⟩) [0x43800000] 4 0x7f = true := by decide

/-- R131's case: without .sat. -/
theorem test_cvt_out_of_range : gives (.cvt ⟨.always, .g 4, .g 0, true, .f32, 2, .rne, false⟩) [0x43800000] 4 0x7f 0x1 = true := by decide

/-- R132's case: 480 to e4m3. -/
theorem test_pack_overflow : gives (.pack ⟨.always, .g 4, .g 0, .imm 0, 0, 0, .rne, false⟩) [0x43f00000] 4 0x7f 0x14 = true := by decide

/-- R132: element 1 of e4m3, 0x40 = 2. -/
theorem test_unpack : gives (.unpack ⟨.always, .g 4, .g 0, 0, 1⟩) [0x4000] 4 0x40000000 = true := by decide

/-- R119's case: element 4 of an 8-bit format. -/
theorem test_pack_element : parks (.pack ⟨.always, .g 4, .g 0, .g 1, 0, 4, .rne, false⟩) (id) 0x07 = true := by decide

/-- R133: 448 into e4m3 needs the scale 1. -/
theorem test_fmtq : gives (.fmtq ⟨.always, .g 4, .g 0, 0⟩) [0x43e00000] 4 0x7f = true := by decide

/-- R116's block. -/
theorem test_dot8_scaled : gives (.dot8 ⟨.always, .g 4, .g 0, .g 1, some (.g 2), 3, 3⟩) [0x7b7b7b7b, 0x7b7b7b7b, 0x3333] 4 0x4440000 = true := by decide

/-- R134: sequential rounding. -/
theorem test_dot8_sequential : gives (.dot8 ⟨.always, .g 4, .g 0, .g 1, none, 3, 3⟩) [0xc0c, 0xc0c, 0, 0, 0x3f800000] 4 0x3f800000 0x10 = true := by decide

/-- R134: eight products of 1 × 1 in e2m1. -/
theorem test_dot4 : gives (.dot4 ⟨.always, .g 4, .g 0, .g 1, none, 6, 6⟩) [0x22222222, 0x22222222] 4 0x41000000 = true := by decide

/-- R119's case. -/
theorem test_dot8_empty_slot : parks (.dot8 ⟨.always, .g 4, .g 0, .g 1, none, 5, 5⟩) (id) 0x07 = true := by decide

/-! ### Hypotheses of statements: concrete states that meet them -/

/-- The hypotheses of `Takes` as a Bool. -/
def ready (s : State) (i : Instr) (k : Nat) (t : Thread) : Bool :=
  decide s.cur.slots.Nodup && decide (k ∈ s.issueSet i) && decide (s.thread? k = some t) && landingOk i t && decide (deferHit i t = none)
    && i.on t && !t.step

theorem takes_of {s : State} {i : Instr} {k : Nat} {t : Thread} (h : ready s i k t = true) : Takes s i k t := by
  simp only [ready, Bool.and_eq_true, decide_eq_true_eq, Bool.not_eq_true'] at h
  exact ⟨h.1.1.1.1.1.1, h.1.1.1.1.1.2, h.1.1.1.1.2, h.1.1.1.2, h.1.1.2, h.1.2, h.2⟩

/-- Lane 0 of a team of `n` as placement makes it. -/
def t0 (n : Nat) : Thread := Thread.placed 0 0 n 0 0

/-- A property of the thread of a slot, where it holds one. -/
def onThread (s : State) (k : Nat) (p : Thread → Bool) : Bool := match s.thread? k with
  | none => true
  | some t => p t

theorem onThread_of {s : State} {k : Nat} {p : Thread → Bool} (h : onThread s k p = true) {t : Thread} (ht : s.thread? k = some t) :
    p t = true := by simpa [onThread, ht] using h

/-- The hypotheses of `Quiet` as a Bool. -/
def still (s : State) (i : Instr) : Bool := decide s.cur.slots.Nodup
  && (s.issueSet i).all (fun k => onThread s k (fun t => landingOk i t && decide (deferHit i t = none) && !t.step))

theorem quiet_of {s : State} {i : Instr} (h : still s i = true) : Quiet s i := by
  simp only [still, Bool.and_eq_true, decide_eq_true_eq, List.all_eq_true] at h
  refine ⟨h.1, fun k hk t ht => ?_⟩
  have := onThread_of (h.2 k hk) ht
  simp only [Bool.and_eq_true, decide_eq_true_eq, Bool.not_eq_true'] at this
  exact ⟨this.1.1, this.1.2, this.2⟩

/-- `State.apart` as a Bool. -/
def alone (s : State) (k : Nat) : Bool := s.teams.all (fun e => e.2.ctxs.all (fun x => !x.2.idle.contains k && (match x.2.coll with
  | none => true
  | some r => r.arrs.all (fun a => a.slot != k))))

theorem apart_of {s : State} {k : Nat} (h : alone s k = true) : s.apart k := by
  intro e he x hx
  simp only [alone, List.all_eq_true, Bool.and_eq_true, Bool.not_eq_true'] at h
  have h := h e he x hx
  refine ⟨by simpa using h.1, fun r hr a ha => ?_⟩
  have := h.2
  rw [hr] at this
  simpa using List.all_eq_true.mp this a ha

/-- The hypotheses of `Gathers` as a Bool, for a machine whose one team is the thread's. -/
def musters (s : State) (i : Instr) (t : Thread) : Bool :=
  decide (decodeWord 256 ((encode i).getD 0) = .ok i) && still s i && (s.issueSet i).all (alone s) && s.teams.all (fun e => e.1 == t.team)
    && (s.issueSet i).all (fun j => (s.issueSet i).all (fun k => onThread s j (fun u => onThread s k (fun v => u.lane != v.lane || j == k))))
    && (match s.team? t.team with
      | none => false
      | some m => match SMap.find? m.ctxs t.ctx with
        | none => false
        | some c => decide (m.opens = []) && m.ctxs.all (fun e => decide (e.2.coll = none))
            && c.lanes.all (fun j => s.gone j || decide (j ∈ s.issueSet i)))

theorem gathers_of {s : State} {i : Instr} {t : Thread} (h : musters s i t = true) : Gathers s i t := by
  simp only [musters, Bool.and_eq_true, decide_eq_true_eq] at h
  obtain ⟨⟨⟨⟨⟨h1, h2⟩, h3⟩, h4⟩, h5⟩, h6⟩ := h
  refine ⟨h1, quiet_of h2, fun j hj => apart_of (List.all_eq_true.mp h3 j hj), ?_, ?_, ?_⟩
  · intro e he hne
    exact absurd (by simpa using List.all_eq_true.mp h4 e he) hne
  · intro j hj k hk u v hu hv _ _ _ hl
    have := onThread_of (onThread_of (List.all_eq_true.mp (List.all_eq_true.mp h5 j hj) k hk) hu) hv
    simpa [hl] using this
  · split at h6
    · exact absurd h6 (by simp)
    · rename_i m hm
      split at h6
      · exact absurd h6 (by simp)
      · rename_i c hc
        simp only [Bool.and_eq_true, decide_eq_true_eq, List.all_eq_true, Bool.or_eq_true] at h6
        exact ⟨m, c, hm, hc, h6.1.1, h6.1.2, h6.2⟩

/-- A source of a thread with no matrix operation outstanding. -/
def plain (t : Thread) (w : Bool) : Src → DWord
  | .g i => if w then (t.gVal (i.toNat + 1) ++ t.gVal i.toNat : BitVec 64) else (t.gVal i.toNat).setWidth 64
  | .o i => extW w (t.oVal i.toNat)
  | .lat => extW w t.lat
  | .imm v => extW w (v.signExtend 64)

theorem src_plain {l : Lane} (h : l.t.wins = []) (p : Nat) (w : Bool) (x : Src) : l.src p w x = plain l.t w x := by
  have hg : ∀ i, l.g p i = l.t.gVal i := by
    intro i
    simp [Lane.g, Thread.windowed, h]
  cases x <;> simp [Lane.src, plain, Lane.g64, hg]

theorem src_eq {s : State} {k : Nat} {t : Thread} {f p : Nat} {w : Bool} {x : Src} {v : DWord} (h : t.wins = [] ∧ plain t w x = v) :
    Lane.src ⟨s, k, t, f⟩ p w x = v := (src_plain h.1 p w x).trans h.2

theorem src32_eq {s : State} {k : Nat} {t : Thread} {f p : Nat} {x : Src} {v : Word}
    (h : t.wins = [] ∧ (plain t false x).setWidth 32 = v) : Lane.src32 ⟨s, k, t, f⟩ p x = v := by
  rw [Lane.src32, src_plain h.1, h.2]

/-- A memory operand's address for a thread with no matrix operation outstanding. -/
def plainAt (t : Thread) (sp : Space) (base : Base) (off : Src) : DWord :=
  if sp = .g then plain t true base.toSrc + ((plain t false off).setWidth 32 : Word).signExtend 64
  else ((plain t false base.toSrc).setWidth 32 + ((plain t false off).setWidth 32 : Word)).setWidth 64

theorem at_eq {s : State} {k : Nat} {t : Thread} {f : Nat} {sp : Space} {base : Base} {off : Src} {v : DWord}
    (h : t.wins = [] ∧ plainAt t sp base off = v) : Lane.at ⟨s, k, t, f⟩ sp base off = v := by
  rw [← h.2, Lane.at, plainAt]
  simp only [Lane.src32]
  rw [src_plain h.1, src_plain h.1, src_plain h.1]

/-- A walk that is cached changes no leaf's use. -/
theorem useLeaf_cacheWalk (s : State) (u q v m : Nat) (x : DWord) (who : Asker) (part va log : Nat) (need : Need) (hp : Bool) (e : DWord) :
    (s.cacheWalk u q v m x).useLeaf who part va need hp log e = s.useLeaf who part va need hp log e := by
  by_cases h : s.tlb.any (fun y => y == ⟨u, q, v / 2 ^ m * 2 ^ m, m, x⟩) = true
  · rw [State.cacheWalk, if_pos h]
  · rw [State.cacheWalk, if_neg h]
    rfl

theorem one_walk (w : Walk) : [w].dedup = [w] := by simp

/-- Translation of an uncached page with no group, for a lane of a state. -/
theorem find_g {s : State} {k : Nat} {t : Thread} {b va n log : Nat} {need : Need} {hp : Bool} {e : DWord} {x : Xl}
    (h : va < 2 ^ 55 ∧ s.walk (s.partOf k) va = .leaf log e ∧ s.cached (coreOf k) (s.partOf k) va = [] ∧ s.extended (s.partOf k) va e = none
      ∧ s.useLeaf (.lane k) (s.partOf k) va need hp log e = x ∧ va % 2 ^ x.pageLog + n ≤ 2 ^ x.pageLog
      ∧ (match x with
        | .dev .. => true
        | .host .. => true
        | _ => false) = true) :
    ∃ tlb, (s.laneAt k t b).find .g va n need hp = .here x.place tlb := by
  obtain ⟨h1, hw, hc, he, hx, hp', hl⟩ := h
  have a : State.walk { s with fresh := b + 3072 } (s.partOf k) va = .leaf log e := hw
  have c : State.cached { s with fresh := b + 3072 } (coreOf k) (s.partOf k) va = [] := hc
  have d : State.extended { s with fresh := b + 3072 } (s.partOf k) va e = none := he
  have y : State.useLeaf { s with fresh := b + 3072 } (.lane k) (s.partOf k) va need hp log e = x := hx
  have ht : (State.translate { s with fresh := b + 3072 } (.lane k) (s.partOf k) va need hp).2 = x := by
    simp only [State.translate, State.walkPick, State.walkNow, Asker.cache, a, c, d, if_neg (Nat.not_le.mpr h1), List.map_nil,
      List.append_nil, one_walk, useLeaf_cacheWalk, y]
  show ∃ tlb, (s.laneAt k t b).globalAt va n need hp = _
  have hpart : (s.laneAt k t b).part = s.partOf k := rfl
  have hs : (s.laneAt k t b).s = { s with fresh := b + 3072 } := rfl
  have hk : (s.laneAt k t b).slot = k := rfl
  unfold Lane.globalAt
  rw [hpart, hs, hk]
  generalize State.translate { s with fresh := b + 3072 } (.lane k) (s.partOf k) va need hp = r at ht ⊢
  obtain ⟨s', x'⟩ := r
  subst ht
  cases x' <;> simp only [Bool.false_eq_true] at hl <;> exact ⟨_, if_neg (Nat.not_lt.mpr hp')⟩

theorem find_g_none {s : State} {k : Nat} {t : Thread} {b va n : Nat} {need : Need} {hp : Bool}
    (h : va < 2 ^ 55 ∧ s.walk (s.partOf k) va = .absent ∧ s.cached (coreOf k) (s.partOf k) va = []) :
    (s.laneAt k t b).find .g va n need hp = .fault 0x11 := by
  obtain ⟨h1, hw, hc⟩ := h
  have a : State.walk { s with fresh := b + 3072 } (s.partOf k) va = .absent := hw
  have c : State.cached { s with fresh := b + 3072 } (coreOf k) (s.partOf k) va = [] := hc
  have hpart : (s.laneAt k t b).part = s.partOf k := rfl
  have hs : (s.laneAt k t b).s = { s with fresh := b + 3072 } := rfl
  have hk : (s.laneAt k t b).slot = k := rfl
  show (s.laneAt k t b).globalAt va n need hp = _
  simp only [Lane.globalAt, hpart, hs, hk, State.translate, State.walkPick, State.walkNow, Asker.cache, a, c,
    if_neg (Nat.not_le.mpr h1), List.map_nil, List.append_nil, one_walk]

/-- A lane of one whose g0, g1 hold an address. -/
def addressed (i : Instr) (a : Nat) : State := one i (regs [a % 2 ^ 32, a / 2 ^ 32])
def tAt (a : Nat) : Thread := regs [a % 2 ^ 32, a / 2 ^ 32] (t0 1)

/-- Words of which one lane takes each in a plain state: those that statements say complete with no further hypothesis. -/
def takers : List Instr :=
  let r : Alu2 := ⟨.always, .g 255, .g 0, .imm 0x80, .none, false⟩
  let g : Log2 := ⟨.always, .g 254, .g 0, .imm 0x7F, true⟩
  let u : Log1 := ⟨.always, .lat, .o 7, true⟩
  let f : F2 := ⟨.always, .discard, .g 0, .lat, .rd⟩
  let h : F2n := ⟨.always, .g 4, .g 0, .imm 1⟩
  let q : F1 := ⟨.always, .g 4, .g 0⟩
  let p : PredArg := ⟨.always, 11, 0, 11, true, false⟩
  let c : F3 := ⟨.always, .g 4, .g 0, .g 1, .g 2, .ru⟩
  [.add r, .sub r, .mul r, .mulh r, .mad ⟨.always, .g 4, .g 0, .g 1, .g 2, .z, false⟩, .div r, .rem r, .and g, .or g, .xor g, .andn g,
    .orn g, .not u, .shl g, .shr g, .sar g, .rol g, .ror g, .shf ⟨.always, .g 4, .g 0, .g 1, .imm 63⟩, .min r, .max r,
    .abs ⟨.always, .g 4, .g 0, .s, false⟩, .neg ⟨.always, .g 4, .g 0, .z, true⟩, .popc u, .clz u, .ctz u, .brev u,
    .bfx ⟨.always, .g 4, .g 0, .imm 31, 32, .none, false⟩, .bfi ⟨.always, .g 4, .g 0, .g 2, .imm 63, 64, true⟩,
    .bperm ⟨.always, .g 4, .g 0, .g 1, .g 2⟩, .sel ⟨.always, .g 4, .g 0, .g 1, 11, true, false⟩, .mov u,
    .lea ⟨.always, .g 4, .g 0, .g 1, 7, .z, true⟩, .cmp ⟨.always, 11, .g 0, .imm 0, .tst, .none, true⟩, .pand p, .por p, .pxor p,
    .pnot ⟨.always, 0, 11⟩, .pmov ⟨.always, .toReg .lat⟩, .pmov ⟨.always, .fromReg (.g 0) (.imm 0xFF)⟩,
    .gets ⟨.always, .g 4, .tags, true⟩, .sets ⟨.always, .fflags, .imm 0xFF, false⟩, .sets ⟨.always, .lk, .g 4, true⟩,
    .fadd f, .fsub f, .fmul f, .ffma c, .fdiv f, .fscale f, .fmin h, .fmax h, .fcmp ⟨.always, 0, .g 0, .imm 0, .un⟩, .fclass q,
    .frcp ⟨.always, .g 4, .g 0, .rz⟩, .fsqrt ⟨.always, .g 4, .g 0, .rz⟩, .frsq q, .fexp2 q, .flog2 q, .fsin q, .fcos q, .ftanh q,
    .hfma2 c, .bfma2 c, .hadd2 ⟨.always, .g 4, .g 0, .g 1, true, .rne⟩, .hmul2 ⟨.always, .g 4, .g 0, .g 1, false, .rne⟩,
    .doth2 ⟨.always, .g 4, .g 0, .g 1, true⟩, .mzero ⟨.always, 224, true⟩, .mfence ⟨.always⟩, .bra ⟨.always, 0x20000000⟩,
    .call ⟨.always, 0x1FFFFFFF⟩, .pad ⟨0xFF⟩, .nop ⟨.always⟩, .yld ⟨.always, 6⟩, .rejoin ⟨.always⟩, .trap ⟨.always, 255, .g 4⟩,
    .brk ⟨.always, 0⟩, .cntr ⟨.always, .g 4⟩, .amb ⟨.always, .discard⟩, .fence ⟨.always, .ar, .fab⟩]

/-- The hypotheses of `Completes` for each of them. -/
theorem witness_takes : ∀ i ∈ takers, Takes (one i id) i 0 (t0 1) := by
  have h : takers.all (fun i => ready (one i id) i 0 (t0 1)) = true := by decide
  exact fun i hi => takes_of (List.all_eq_true.mp h i hi)

/-- A thread with every register from g0 to g3 at NaN, for the clauses over NaN operands. -/
theorem witness_takes_nan : Takes (one (.fmin ⟨.always, .g 4, .g 0, .g 1⟩) (regs [0x7FC00000, 0x7F800001]))
    (.fmin ⟨.always, .g 4, .g 0, .g 1⟩) 0 (regs [0x7FC00000, 0x7F800001] (t0 1)) := takes_of (by decide)

/-- FloatUnaryAndCompareResults: arguments that no row of the table gives the result of, at the ends of the ranges named. -/
theorem witness_table_rows :
    (∀ op ∈ [0, 1, 2, 3, 4, 5, 6, 7], ∀ a ∈ [0x3F800000, 1, 0x7F7FFFFF], tableRow op (BitVec.ofNat 32 a) = none)
      ∧ (∀ a ∈ [0x43000000, 0x42FFFFFF, 0xC3150000, 0xC3160000, 0xC3160001, 0xC3158000], tableRow 3 (BitVec.ofNat 32 a) = none)
      ∧ (∀ op ∈ [5, 6], ∀ a ∈ [0x47000000, 0x47000001, 0xC7000000], tableRow op (BitVec.ofNat 32 a) = none)
      ∧ tableRow 7 0xFF7FFFFF = none := by decide

/-- ExactArithmetic, RoundToNearest: the exact value 1 with the least and the greatest finite f32. -/
theorem witness_exact : (FV.fin false 1 0).finite = true ∧ (Machine.round .f32 .rne false (.fin false 1 0)).2 &&& ovf = 0
    ∧ (V .f32 0).finite = true ∧ (V .f32 0x7F7FFFFF).finite = true ∧ 0x7F7FFFFF < 2 ^ 32 := by decide

/-- AccumulationIsFusedMultiplyAdd: 1.0 as f32 and as e4m3. -/
theorem witness_accumulation : (v32 0x3F800000).same (elemV (.fl .e4m3) 0x38) := by
  have h : v32 0x3F800000 = .fin false 8388608 (-23) := by decide
  have g : elemV (.fl .e4m3) 0x38 = .fin false 8 (-3) := by decide
  rw [h, g]
  exact ⟨rfl, by norm_num [FV.val]⟩

/-- ConversionResults: a slot that holds s16, and element 1 of it the last. -/
theorem witness_cvt_from : let i : Instr := .cvt ⟨.always, .g 13, .g 11, false, .f32, 1, .rne, false⟩
    Takes (one i id) i 0 (t0 1) ∧ slotFmt (lrFmt ((one i id).lrecOf (t0 1)) 1) = some (.int 16 true) :=
  ⟨takes_of (by decide), by decide⟩

theorem witness_cvt_to : let i : Instr := .cvt ⟨.always, .g 13, .g 10, true, .z64, 2, .rz, true⟩
    Takes (one i id) i 0 (t0 1) ∧ slotFmt (lrFmt ((one i id).lrecOf (t0 1)) 2) = some (.int 8 true) :=
  ⟨takes_of (by decide), by decide⟩

theorem witness_pack : let i : Instr := .pack ⟨.always, .g 4, .g 0, .g 1, 6, 7, .rne, false⟩
    Takes (one i id) i 0 (t0 1) ∧ slotFmt (lrFmt ((one i id).lrecOf (t0 1)) 6) = some (.fl .e2m1) ∧ 7 < 32 / (NFmt.fl .e2m1).width :=
  ⟨takes_of (by decide), by decide, by decide⟩

theorem witness_unpack : let i : Instr := .unpack ⟨.always, .g 4, .g 0, 4, 3⟩
    Takes (one i id) i 0 (t0 1) ∧ slotFmt (lrFmt ((one i id).lrecOf (t0 1)) 4) = some .scale ∧ 3 < 32 / NFmt.scale.width :=
  ⟨takes_of (by decide), by decide, by decide⟩

theorem witness_fmtq : let i : Instr := .fmtq ⟨.always, .g 4, .g 0, 3⟩
    Takes (one i id) i 0 (t0 1) ∧ slotFmt (lrFmt ((one i id).lrecOf (t0 1)) 3) = some (.fl .e5m2) := ⟨takes_of (by decide), by decide⟩

theorem witness_dot8 : let i : Instr := .dot8 ⟨.always, .g 4, .g 0, .g 1, some (.g 2), 0, 2⟩
    Takes (one i id) i 0 (t0 1) ∧ slotFmt (lrFmt ((one i id).lrecOf (t0 1)) 0) = some (.fl .e4m3)
      ∧ slotFmt (lrFmt ((one i id).lrecOf (t0 1)) 2) = some (.int 8 true) := ⟨takes_of (by decide), by decide, by decide⟩

theorem witness_dot4 : let i : Instr := .dot4 ⟨.always, .g 4, .g 0, .g 1, none, 6, 6⟩
    Takes (one i id) i 0 (t0 1) ∧ slotFmt (lrFmt ((one i id).lrecOf (t0 1)) 6) = some (.fl .e2m1) :=
  ⟨takes_of (by decide), by decide⟩

/-- SlotFaults: an empty slot (5), a format not admitted, an index out of reach. -/
theorem witness_slot_faults :
    let cvt : Instr := .cvt ⟨.always, .g 4, .g 0, true, .f32, 4, .rne, false⟩
    let pack : Instr := .pack ⟨.always, .g 4, .g 0, .g 1, 0, 4, .rne, false⟩
    let unpack : Instr := .unpack ⟨.always, .g 4, .g 0, 1, 2⟩
    let fmtq : Instr := .fmtq ⟨.always, .g 4, .g 0, 2⟩
    let dot8 : Instr := .dot8 ⟨.always, .g 4, .g 0, .g 1, none, 0, 6⟩
    let dot4 : Instr := .dot4 ⟨.always, .g 4, .g 0, .g 1, none, 5, 6⟩
    (∀ i ∈ [cvt, pack, unpack, fmtq, dot8, dot4], Takes (one i id) i 0 (t0 1))
      ∧ slotFmt (lrFmt ((one cvt id).lrecOf (t0 1)) 4) = some .scale ∧ 32 / (NFmt.fl .e4m3).width ≤ 4 ∧ 32 / (NFmt.int 16 true).width ≤ 2
      ∧ slotFmt (lrFmt ((one dot4 id).lrecOf (t0 1)) 5) = none := by
  refine ⟨?_, by decide, by decide, by decide, by decide⟩
  intro i hi
  simp only [List.mem_cons, List.not_mem_nil, or_false] at hi
  rcases hi with rfl | rfl | rfl | rfl | rfl | rfl <;> exact takes_of (by decide)

/-! Registers III (06) -/

/-- An entry of quarter 0 of team 0 with lane 0 alone contributing. -/
def ent (op : MatOp) (stage : MStage) : MEnt := ⟨0, 0, 0, 0, 0, 0, 4, op, [some 0, none, none, none, none, none, none, none], stage, 0, 0, []⟩

theorem no_replay {t : Thread} (h : t.hold = .none) : t.noReplay := by
  intro o
  rw [h]
  exact nofun

def mmaArg : MmaArg := ⟨.always, 64, 0, 16, none, 0, 3, 0⟩
def mmasArg : MmasArg := ⟨.always, 64, 0, 16, 32, 0, 2, 0⟩
def mtrnArg : MtrnArg := ⟨.always, 64, 0, true⟩

/-- An open entry of another word at another PC in lane 0's quarter. -/
def clashing (i : Instr) : State :=
  let s := one i id
  { s with teams := s.teams.map (fun e => (e.1, { e.2 with opens := [⟨0, 0, 0, 0, 0x3878000000000000, 8, .mma mmaArg, []⟩] })) }

theorem witness_mma : Takes (one (.mma mmaArg) id) (.mma mmaArg) 0 (t0 1)
    ∧ slotFmt (lrFmt ((one (.mma mmaArg) id).lrecOf (t0 1)) 0) = some (.fl .e4m3)
    ∧ slotFmt (lrFmt ((one (.mma mmaArg) id).lrecOf (t0 1)) 3) = some (.fl .e5m2)
    ∧ (one (.mma mmaArg) id).openEnt (t0 1) = none := ⟨takes_of (by decide), by decide, by decide, by decide⟩

theorem witness_mmas : Takes (one (.mmas mmasArg) id) (.mmas mmasArg) 0 (t0 1)
    ∧ slotFmt (lrFmt ((one (.mmas mmasArg) id).lrecOf (t0 1)) 2) = some (.int 8 true)
    ∧ (one (.mmas mmasArg) id).openEnt (t0 1) = none := ⟨takes_of (by decide), by decide, by decide⟩

theorem witness_mtrn : Takes (one (.mtrn mtrnArg) id) (.mtrn mtrnArg) 0 (t0 1) ∧ (one (.mtrn mtrnArg) id).openEnt (t0 1) = none :=
  ⟨takes_of (by decide), by decide⟩

/-- QuarterWordsFault, 0x22: the open entry's word and PC differ. -/
theorem witness_quarter_clash : ∀ i ∈ [Instr.mma mmaArg, .mmas mmasArg, .mtrn mtrnArg], Takes (clashing i) i 0 (t0 1)
    ∧ ∃ e, (clashing i).openEnt (t0 1) = some e ∧ e.pc ≠ (t0 1).pc := by
  intro i hi
  simp only [List.mem_cons, List.not_mem_nil, or_false] at hi
  rcases hi with rfl | rfl | rfl <;> exact ⟨takes_of (by decide), _, rfl, by decide⟩

/-- QuarterWordsFault, 0x07: slot 5 is empty; widths 8 and 16. -/
theorem witness_quarter_slots :
    let a : Instr := .mma ⟨.always, 64, 0, 16, none, 5, 0, 0⟩
    let b : Instr := .mmas ⟨.always, 64, 0, 16, 32, 0, 1, 0⟩
    Takes (one a id) a 0 (t0 1) ∧ slotFmt (lrFmt ((one a id).lrecOf (t0 1)) 5) = none
      ∧ Takes (one b id) b 0 (t0 1) ∧ slotFmt (lrFmt ((one b id).lrecOf (t0 1)) 0) = some (.fl .e4m3)
      ∧ slotFmt (lrFmt ((one b id).lrecOf (t0 1)) 1) = some (.int 16 true) :=
  ⟨takes_of (by decide), by decide, takes_of (by decide), by decide, by decide⟩

theorem witness_mcvt : let i : Instr := .mcvt ⟨.always, 16, 32, 2, 1, .rne, true⟩
    Takes (one i id) i 0 (t0 1) ∧ slotFmt (lrFmt ((one i id).lrecOf (t0 1)) 2) = some (.int 8 true) ∧ (1 : BitVec 2).toNat < 16 / 8 :=
  ⟨takes_of (by decide), by decide, by decide⟩

/-- FragmentAccessIssues: rows of a scratchpad fragment at 0 and 32; and a base of 8. -/
theorem witness_fragment_rows (b : Nat) (r : Nat) (hr : r ∈ [0, 1]) :
    let x : FragArg := ⟨.always, 32, 18, .imm 32, .s, false⟩
    let l := (one (.ldfr x) id).laneAt 0 (t0 1) b
    let row := ((((l.g 0 18).setWidth 64).toNat + r * (l.src32 1 x.stride).toInt) % ((2 ^ 32 : Nat) : Int)).toNat
    Takes (one (.ldfr x) id) (.ldfr x) 0 (t0 1) ∧ Takes (one (.stfr x) id) (.stfr x) 0 (t0 1) ∧ row = 32 * r
      ∧ l.rowAtIssue .s (32 * r) 32 .read = none ∧ l.rowAtIssue .s (32 * r) 32 .write = none := by
  refine ⟨takes_of (by decide), takes_of (by decide), ?_⟩
  simp only [List.mem_cons, List.not_mem_nil, or_false] at hr
  rcases hr with rfl | rfl <;> exact ⟨rfl, rfl, rfl⟩

theorem witness_fragment_misaligned (b : Nat) :
    let x : FragArg := ⟨.always, 32, 0, .imm 32, .s, true⟩
    let l := (one (.ldfr x) (regs [8])).laneAt 0 (regs [8] (t0 1)) b
    Takes (one (.ldfr x) (regs [8])) (.ldfr x) 0 (regs [8] (t0 1)) ∧ Takes (one (.stfr x) (regs [8])) (.stfr x) 0 (regs [8] (t0 1))
      ∧ ((l.g 0 0).setWidth 64 : DWord).toNat % 16 ≠ 0 :=
  ⟨takes_of (by decide), takes_of (by decide), fun h => absurd (show 8 % 16 = 0 from h) (by decide)⟩

/-- A plain state with matrix entries. -/
def ments (l : List MEnt) : State := { one (.nop ⟨.always⟩) id with ments := l }

theorem witness_matrix_admit : let s := ments [ent (.mma mmaArg) .queued]
    ((s.ments.filter (fun e => e.core / 4 == 0 && e.stage != .queued)).map (·.grp)).dedup.length < 64
      ∧ s.ments.find? (fun f => f.core == 0 && f.stage == .queued) = some (ent (.mma mmaArg) .queued) := by decide

theorem witness_matrix_full : let s := ments ((List.range 64).map (fun i => { ent (.mma mmaArg) .granted with id := i, grp := i }))
    64 ≤ ((s.ments.filter (fun e => e.core / 4 == 0 && e.stage != .queued)).map (·.grp)).dedup.length := by decide

theorem witness_matrix_grant : ∃ e ∈ (ments [ent (.mma mmaArg) .admitted]).ments, e.core / 4 = 0 ∧ e.stage = .admitted
    ∧ ∀ f ∈ (ments [ent (.mma mmaArg) .admitted]).ments, f.grp = e.grp → (ments [ent (.mma mmaArg) .admitted]).grantable f = true :=
  ⟨ent (.mma mmaArg) .admitted, by decide, by decide, by decide, by decide⟩

theorem witness_matrix_complete : let e := { ent (.mma mmaArg) .granted with res := [(0, [(64, 1), (65, 2)], 0)] }
    let s := ments [e]
    s.ments.find? (fun f => f.id == e.id && f.core / 4 == 0 && f.stage == .granted) = some e
      ∧ (0, [(64, 1), (65, 2)], 0) ∈ e.res ∧ e.res.length ≤ 8 ∧ (e.res.map (·.1)).Nodup ∧ [64, 65].Nodup ∧ s.thread? 0 = some (t0 1)
      ∧ s.quarterSpoilt e = false ∧ (t0 1).wins = [] := by decide

/-- MatrixResults: an entry of formats of one width whose lane holds no old values. -/
theorem witness_matrix_products : let s := ments [ent (.mma mmaArg) .granted]
    let e := ent (.mma mmaArg) .granted
    e.op = .mma mmaArg ∧ s.teamFmt e.team mmaArg.sa = .fl .e4m3 ∧ s.teamFmt e.team mmaArg.sb = .fl .e5m2
      ∧ (NFmt.fl .e4m3).width = (NFmt.fl .e5m2).width ∧ (NFmt.fl .e4m3).width ∈ [4, 8, 16]
      ∧ (∀ k ∈ e.slots, ∀ i, k = some i → i = 0) ∧ s.thread? 0 = some (t0 1) ∧ (t0 1).wins = [] := by
  refine ⟨rfl, by decide, by decide, by decide, by decide, ?_, by decide, rfl⟩
  intro k hk i hi
  subst hi
  simpa [ent] using hk

/-- MatrixResults: scaled products of two formats of one width, with scale bytes of no NaN and of one. -/
theorem witness_scaled_products : let e := ent (.mmas mmasArg) .granted
    let u := (t0 1).setG 33 0x7F7FFF7F
    let s : State := { ments [e] with threads := [(0, u)] }
    e.op = .mmas mmasArg ∧ s.teamFmt e.team mmasArg.sa = .fl .e4m3 ∧ s.teamFmt e.team mmasArg.sb = .int 8 true
      ∧ (NFmt.fl .e4m3).width = (NFmt.int 8 true).width ∧ (NFmt.fl .e4m3).width ∈ [4, 8, 16] ∧ s.thread? 0 = some u ∧ u.wins = []
      ∧ (u.gVal 33).toNat / 2 ^ 8 % 2 ^ 8 = 255 ∧ (u.gVal 33).toNat % 2 ^ 8 = 127 := by decide

/-- FragmentAccessEnds: the last 16 bytes of a fragment. -/
def fragOp : Op := { (op0 0) with kind := .frag false false 32 32 .s, cls := .tl, todo := [(48, 16)], buf := List.replicate 64 0 }

theorem witness_fragment_end : let s := { one (.nop ⟨.always⟩) id with ops := [fragOp] }
    (t0 1).noReplay ∧ s.op? 0 = some fragOp ∧ fragOp.cls = .tl ∧ fragOp.held = none ∧ fragOp.buf.length = 64 ∧ 48 + 16 ≤ fragOp.buf.length
      ∧ s.thread? 0 = some (t0 1) ∧ (fragOp.fragVa false 32 .s 48) / 2 ^ 23 % 2 = 0 := ⟨no_replay rfl, by decide⟩

/-! Control and team-call (07) -/

/-- ControlTransfers: an aligned target below 2^55, the highest. -/
theorem witness_indirect : let x : BrxArg := ⟨.always, .g 0, 0x51⟩
    let f := regs [0xFFFFFFF8, 0x7FFFFF]
    Takes (one (.brx x) f) (.brx x) 0 (f (t0 1)) ∧ Takes (one (.callx x) f) (.callx x) 0 (f (t0 1))
      ∧ ∀ b, ((one (.brx x) f).laneAt 0 (f (t0 1)) b).src 0 true x.a = 0x7FFFFFFFFFFFF8 :=
  ⟨takes_of (by decide), takes_of (by decide), fun _ => src_eq (by decide)⟩

/-- IndirectTargetFaults: the lowest target out of range, and a misaligned one. -/
theorem witness_indirect_far : let x : BrxArg := ⟨.always, .g 0, 0x51⟩
    let f := regs [0, 0x800000]
    Takes (one (.brx x) f) (.brx x) 0 (f (t0 1)) ∧ Takes (one (.callx x) f) (.callx x) 0 (f (t0 1))
      ∧ ∀ b, ((one (.brx x) f).laneAt 0 (f (t0 1)) b).src 0 true x.a = 0x80000000000000 :=
  ⟨takes_of (by decide), takes_of (by decide), fun _ => src_eq (by decide)⟩

theorem witness_indirect_odd : let x : BrxArg := ⟨.always, .g 0, 0x51⟩
    let f := regs [4]
    Takes (one (.brx x) f) (.brx x) 0 (f (t0 1)) ∧ Takes (one (.callx x) f) (.callx x) 0 (f (t0 1))
      ∧ ∀ b, ((one (.brx x) f).laneAt 0 (f (t0 1)) b).src 0 true x.a = 4 :=
  ⟨takes_of (by decide), takes_of (by decide), fun _ => src_eq (by decide)⟩

/-- RET with lk aligned, out of range, misaligned. -/
theorem witness_ret (v : DWord) (h : v ∈ [0x7FFFFFFFFFFFF8#64, 0x80000000000000#64, 1#64]) :
    Takes (one (.ret ⟨.always⟩) (fun t => { t with lk := v })) (.ret ⟨.always⟩) 0 { t0 1 with lk := v } := by
  simp only [List.mem_cons, List.not_mem_nil, or_false] at h
  rcases h with rfl | rfl | rfl <;> exact takes_of (by decide)

theorem witness_exit : Takes (one (.exit ⟨.always⟩) id) (.exit ⟨.always⟩) 0 (t0 1) ∧ (one (.exit ⟨.always⟩) id).apart 0 :=
  ⟨takes_of (by decide), apart_of (by decide)⟩

/-- ThreadsLeaveAndResume: back-offs that have ended, a retry, a hold of 256 cycles, and a record of 256 cycles. -/
theorem witness_backoffs : let t : Thread := { t0 1 with yieldUntil := some 0, pollUntil := some 0, retry := some 0 }
    let s := one (.nop ⟨.always⟩) (fun _ => t)
    s.thread? 0 = some t ∧ 0 ≤ s.cycleOf 0 ∧ t.st = .ready ∧ t.due = none := by decide

theorem witness_holds_end : let t : Thread := { t0 1 with rejoinSince := some 0 }
    let r : Regroup := ⟨1, 0, [0], 0, false⟩
    let s := { one (.nop ⟨.always⟩) (fun _ => t) with
      groves := [(0, { GroveSt.reset with cycle := 256 })], cores := [(0, { CoreSt.reset with regroup := [(3, r)] })] }
    s.thread? 0 = some t ∧ 0 + 256 ≤ s.cycleOf 0 ∧ SMap.find? (s.core 0).regroup 3 = some r ∧ r.admitted = false := by decide

/-- The collective words of two lanes. -/
def gatherers : List Instr := [.tbar ⟨.always⟩, .tvote ⟨.always, 11, true, .all 0⟩, .tvote ⟨.always, 0, false, .any 1⟩,
  .tvote ⟨.always, 0, false, .uni 11⟩, .tvote ⟨.always, 0, false, .ballot (.g 4) (.imm 0)⟩, .tvote ⟨.always, 0, false, .count (.g 4)⟩,
  .txch ⟨.always, .g 4, .g 0, .imm 1, false⟩, .txch ⟨.always, .g 4, .g 0, .imm 2, true⟩]

/-- CollectivesComplete. -/
theorem witness_gathers : ∀ i ∈ gatherers, Takes (crew 2 i fun _ => id) i 0 (t0 2) ∧ Gathers (crew 2 i fun _ => id) i (t0 2) := by
  have h : gatherers.all (fun i => ready (crew 2 i fun _ => id) i 0 (t0 2) && musters (crew 2 i fun _ => id) i (t0 2)) = true := by decide
  intro i hi
  have := List.all_eq_true.mp h i hi
  rw [Bool.and_eq_true] at this
  exact ⟨takes_of this.1, gathers_of this.2⟩

/-- Two lanes of which lane 0 alone stands at the word. -/
def behind (i : Instr) : State := { crew 2 i (fun _ => id) with cur := { core := 0, bough := 0, slots := [0], pc := 0 } }

def callers : List Instr := [.tbar ⟨.always⟩, .tvote ⟨.always, 0, false, .any 1⟩, .txch ⟨.always, .g 4, .g 0, .imm 1, false⟩,
  .tmigr ⟨.always, .imm 0⟩, .tcall ⟨.always, .g 0, .g 2, 1, 1⟩, .tcalls ⟨.always, .g 0, .g 2, 1, 1⟩]

/-- CollectivesAwait: lane 1 is still awaited. -/
theorem witness_awaits : ∀ i ∈ callers, Takes (behind i) i 0 (t0 2) ∧ Quiet (behind i) i
    ∧ (∀ j ∈ (behind i).issueSet i, (behind i).apart j) ∧ (behind i).gone 1 = false ∧ 1 ∉ (behind i).issueSet i ∧ (behind i).apart 1
    ∧ ∃ m c, (behind i).team? 0 = some m ∧ SMap.find? m.ctxs 0 = some c ∧ m.opens = [] ∧ (m.ctxs.map (·.1)).Nodup
      ∧ (∀ e ∈ m.ctxs, e.2.coll = none) ∧ 1 ∈ c.lanes := by
  have h : callers.all (fun i => ready (behind i) i 0 (t0 2) && still (behind i) i && ((behind i).issueSet i).all (alone (behind i))
    && !(behind i).gone 1 && decide (1 ∉ (behind i).issueSet i) && alone (behind i) 1) = true := by decide
  intro i hi
  have := List.all_eq_true.mp h i hi
  simp only [Bool.and_eq_true, decide_eq_true_eq, Bool.not_eq_true'] at this
  obtain ⟨⟨⟨⟨⟨h1, h2⟩, h3⟩, h4⟩, h5⟩, h6⟩ := this
  exact ⟨takes_of h1, quiet_of h2, fun j hj => apart_of (List.all_eq_true.mp h3 j hj), h4, h5, apart_of h6,
    Team.placed 1 0 0 0 2 0 1024 [0, 1], CtxEnt.own [0, 1], rfl, rfl, rfl, by decide, by decide, by decide⟩

/-- Lane 1 has arrived at another word. -/
def elsewhere (i : Instr) : State :=
  let s := behind i
  { s with teams := s.teams.map (fun e => (e.1, { e.2 with ctxs := [(0, { CtxEnt.own [0, 1] with
      coll := some ⟨0x4A78000000000000, 16, [⟨1, true, 0, 0, false⟩], none, none⟩ })] })) }

theorem witness_awaits_other : ∀ i ∈ callers, Takes (elsewhere i) i 0 (t0 2) ∧ (elsewhere i).apart 0
    ∧ ∃ m c r, (elsewhere i).team? 0 = some m ∧ SMap.find? m.ctxs 0 = some c ∧ c.coll = some r ∧ r.pc ≠ (t0 2).pc := by
  have h : callers.all (fun i => ready (elsewhere i) i 0 (t0 2) && alone (elsewhere i) 0) = true := by decide
  intro i hi
  have := List.all_eq_true.mp h i hi
  rw [Bool.and_eq_true] at this
  exact ⟨takes_of this.1, apart_of this.2, _, _, _, rfl, rfl, rfl, by decide⟩

theorem witness_shares : [0, 5, 1].sum ≠ 0 := by decide

/-- The two callees of a call, where `State.splitsInto` holds. -/
def splits (s : State) (team ctx : Nat) (byWeight : Bool) (cnt : Nat) : Option (List (Nat × Nat × DWord × List Nat)) :=
  match s.team? team with
  | none => none
  | some m => match SMap.find? m.ctxs ctx with
    | none => none
    | some c => match c.coll with
      | none => none
      | some r =>
        let con := s.contributors r
        let parts := callParts byWeight cnt con
        let called := (List.range cnt).filter (fun i => !(parts.getD i []).isEmpty)
        let free := m.freeEntries (lrFan (s.lrecOfTeam m)) (c.level + 1)
        match con with
        | [] => none
        | a :: _ => match s.callEntries r a called with
          | (_, .inr _) => none
          | (_, .inl pcs) =>
            if s.collReady c r = true ∧ (r.arrs.map (·.slot)).Nodup ∧ m.opens = [] ∧ cnt ≤ lrFan (s.lrecOfTeam m)
              ∧ c.level ≠ lrDep (s.lrecOfTeam m) ∧ m.aheadOf c r = false ∧ called ≠ [] ∧ called.length ≤ free.length then
              some ((called.zip (free.zip pcs)).map (fun x => (x.1, x.2.1, x.2.2, parts.getD x.1 [])))
            else none

theorem splits_of {s : State} {team ctx cnt : Nat} {byW : Bool} {subs : List (Nat × Nat × DWord × List Nat)}
    (h : splits s team ctx byW cnt = some subs) : s.splitsInto team ctx byW cnt subs := by
  unfold splits at h
  split at h
  · simp at h
  · rename_i m hm
    split at h
    · simp at h
    · rename_i c hc
      split at h
      · simp at h
      · rename_i r hr
        simp only at h
        split at h
        · simp at h
        · rename_i a l hl
          split at h
          · simp at h
          · rename_i s2 pcs hp
            split at h
            · rename_i hk
              obtain ⟨k1, k2, k3, k4, k5, k6, k7, k8⟩ := hk
              exact ⟨m, c, r, s2, pcs, hm, hc, hr, k1, k2, k3, k4, k5, k6, k7, k8, ⟨a, l, hl, hp⟩, by simpa using h.symm⟩
            · simp at h

/-- Two lanes that call two callees with weights 1 and 1: g0 and g1 hold them; the table of PCs stands in the constant block. -/
def call (i : Instr) : State :=
  let s := crew 2 i (fun k => regs [if i matches .tcalls _ then k else 0x0101, 0, 0])
  { s with mem := Memory.writeN s.mem 0x48000 (leBytes 8 0x100 ++ leBytes 8 0x200) }

def tcallArg : TcallArg := ⟨.always, .g 0, .g 2, 0x51, 1⟩

/-- CallsSplitTheTeam: lane 0 goes to callee 0 at PC 0x100, by weights and by selector. -/
theorem witness_call_splits : ∀ i ∈ [Instr.tcall tcallArg, .tcalls tcallArg], ∃ t, Takes (call i) i 0 t ∧ Gathers (call i) i t
    ∧ (∀ j ∈ (call i).issueSet i, ∀ u, (call i).thread? j = some u → u.team = t.team ∧ u.ctx = t.ctx)
    ∧ ∃ subs, ((call i).arriveColl i).1.splitsInto 0 0 (i matches .tcall _) 2 subs ∧ (0, 1, 0x100, [0]) ∈ subs := by
  intro i hi
  have h : ∀ i ∈ [Instr.tcall tcallArg, .tcalls tcallArg], ready (call i) i 0 (((call i).thread? 0).getD (t0 2)) = true
      ∧ musters (call i) i (((call i).thread? 0).getD (t0 2)) = true
      ∧ ((call i).issueSet i).all (fun j => onThread (call i) j (fun u => u.team == 0 && u.ctx == 0)) = true
      ∧ ((call i).thread? 0).map (fun t => (t.team, t.ctx)) = some (0, 0)
      ∧ splits ((call i).arriveColl i).1 0 0 (i matches .tcall _) 2 = some [(0, 1, 0x100, [0]), (1, 2, 0x200, [1])] := by
    intro i hi
    simp only [List.mem_cons, List.not_mem_nil, or_false] at hi
    rcases hi with rfl | rfl <;> decide +kernel
  obtain ⟨h1, h2, h3, h4, h5⟩ := h i hi
  refine ⟨_, takes_of h1, gathers_of h2, ?_, _, splits_of h5, by decide +kernel⟩
  intro j hj u hu
  have h6 := onThread_of (List.all_eq_true.mp h3 j hj) hu
  simp only [Bool.and_eq_true, beq_iff_eq] at h6
  obtain ⟨t, ht, h7⟩ := Option.map_eq_some_iff.mp h4
  simp only [ht, Option.getD_some]
  simp only [Prod.mk.injEq] at h7
  exact ⟨h6.1.trans h7.1.symm, h6.2.trans h7.2.symm⟩

/-- A call of no callee: every weight is 0. -/
theorem witness_call_none : let i := Instr.tcall tcallArg
    let s := crew 2 i fun _ => id
    Takes s i 0 (t0 2) ∧ Gathers s i (t0 2) ∧ 1 + 1 ≤ lrFan (s.lrecOf (t0 2)) ∧ lrDep (s.lrecOf (t0 2)) = 2
      ∧ ∀ k b, Lane.src ⟨s, k, t0 2, b⟩ 0 true tcallArg.a = 0 :=
  ⟨takes_of (by decide), gathers_of (by decide), by decide, by decide, fun _ _ => src_eq (by decide)⟩

/-- A call wider than FAN 3. -/
theorem witness_call_wide : let x : TcallArg := ⟨.always, .g 0, .g 2, 0x51, 3⟩
    (∀ i ∈ [Instr.tcall x, .tcalls x], Takes (crew 2 i fun _ => id) i 0 (t0 2) ∧ Gathers (crew 2 i fun _ => id) i (t0 2))
      ∧ lrFan ((crew 2 (.tcall x) fun _ => id).lrecOf (t0 2)) < 3 + 1
      ∧ ∀ k b, Lane.src ⟨crew 2 (.tcalls x) fun _ => id, k, t0 2, b⟩ 0 false x.a = 0 := by
  refine ⟨?_, by decide, fun _ _ => src_eq (by decide)⟩
  intro i hi
  simp only [List.mem_cons, List.not_mem_nil, or_false] at hi
  rcases hi with rfl | rfl <;> exact ⟨takes_of (by decide), gathers_of (by decide)⟩

/-- tcallEntryGrant: the call has waited. -/
def waited (i : Instr) : State :=
  let s := ((call i).arriveColl i).1
  { s with teams := s.teams.map (fun e => (e.1, { e.2 with ctxs := e.2.ctxs.map (fun c => (c.1, { c.2 with
      coll := c.2.coll.map (fun r => { r with wait := some 0 }) })) })) }

theorem witness_call_granted : ∀ i ∈ [Instr.tcall tcallArg, .tcalls tcallArg], ∃ t m c r, (waited i).thread? 0 = some t ∧ t.step = false
    ∧ (waited i).team? 0 = some m ∧ SMap.find? m.ctxs 0 = some c ∧ c.coll = some r ∧ r.wait.isSome = true
    ∧ decodeWord 256 r.word = .ok i
    ∧ ∃ subs, (waited i).splitsInto 0 0 (i matches .tcall _) 2 subs ∧ (0, 1, 0x100, [0]) ∈ subs := by
  intro i hi
  simp only [List.mem_cons, List.not_mem_nil, or_false] at hi
  rcases hi with rfl | rfl <;>
    exact ⟨_, _, _, _, rfl, rfl, rfl, rfl, rfl, rfl, by decide,
      [(0, 1, 0x100, [0]), (1, 2, 0x200, [1])], splits_of (by decide +kernel), by decide +kernel⟩

/-- Two lanes in callees 0 and 1 of a call at PC 0. -/
def called : State :=
  let c (k : Nat) : CtxEnt := { CtxEnt.own [k] with level := 1, parent := 0, callee := k, ret := 0x40 }
  let s := crew 2 (.tret ⟨.always⟩) (fun k t => { t with ctx := 1 + k, pushed := [(k, 2)], lane := 0, tsize := 1 })
  { s with teams := s.teams.map (fun e => (e.1, { e.2 with ctxs :=
      [(0, { CtxEnt.own [0, 1] with state := 2, called := 3, callRet := 0x40 }), (1, c 0), (2, c 1)] })) }

/-- ReturnsRejoin: lane 0 of two lanes that a sub-team awaits. -/
theorem witness_tret_waits :
    let i : Instr := .tret ⟨.always⟩
    let s := { behind i with
      threads := (List.range 2).map (fun k => (k, { t0 2 with lane := k, plane := k, ctx := 1, pushed := [(k, 2)] }))
      teams := [(0, { Team.placed 1 0 0 0 2 0 1024 [0, 1] with ctxs := [(0, { CtxEnt.own [0, 1] with state := 2 }),
        (1, { CtxEnt.own [0, 1] with level := 1 })] })] }
    ready s i 0 { t0 2 with ctx := 1, pushed := [(0, 2)] } = true ∧ alone s 0 = true
      ∧ (s.issueSet i).all (fun j => onThread s j (fun u => u.team == 0)) = true
      ∧ s.gone 1 = false ∧ 1 ∉ s.issueSet i
      ∧ ∃ m, s.team? 0 = some m ∧ (m.ctxs.map (·.1)).Nodup ∧ (∀ e ∈ m.ctxs, e.2.coll = none)
        ∧ (∀ e ∈ m.ctxs, 0 ∈ e.2.lanes → e.1 = 1 ∨ e.2.state ≠ 1)
        ∧ SMap.find? m.ctxs 1 = some { CtxEnt.own [0, 1] with level := 1 } :=
  ⟨by decide, by decide, by decide, by decide, by decide, _, rfl, by decide, by decide, by decide, by decide⟩

theorem witness_tret_rejoins :
    let i : Instr := .tret ⟨.always⟩
    let t : Thread := { t0 2 with ctx := 1, pushed := [(0, 2)], tsize := 1 }
    Takes called i 0 t ∧ Quiet called i ∧ (called.issueSet i).all (fun j => alone called j
        && onThread called j (fun u => u.team == 0 && u.ctx != 0 && Guard.always.holds u)) = true
      ∧ ∃ m c p, called.team? 0 = some m ∧ m.opens = [] ∧ (m.ctxs.map (·.1)).Nodup ∧ SMap.find? m.ctxs 1 = some c
        ∧ SMap.find? m.ctxs c.parent = some p ∧ c.level = p.level + 1 ∧ p.state = 2 ∧ p.called = 3 ∧ p.callRet = 0x40 ∧ c.parent ≠ 1
        ∧ (∀ e ∈ m.ctxs, e.2.coll = none ∧ (e.2.state = 2 → e.1 = c.parent ∨ e.2.level < p.level))
        ∧ c.lanes.Nodup ∧ 0 ∈ c.lanes ∧ (∀ e ∈ m.ctxs, e.1 ≠ 1 → (e.2.state = 1 ∨ e.2.level = c.level) → 0 ∉ e.2.lanes)
        ∧ ∀ e ∈ m.ctxs, e.2.level = c.level → e.2.parent = c.parent → e.2.state = 1 ∧ ∀ j ∈ e.2.lanes, j ∈ called.issueSet i :=
  ⟨takes_of (by decide), quiet_of (by decide), by decide, _, _, _, rfl, rfl, by decide, rfl, rfl, by decide, by decide, by decide,
    by decide, by decide, by decide, by decide, by decide, by decide, by decide⟩

theorem witness_tret_empty : Takes (one (.tret ⟨.always⟩) id) (.tret ⟨.always⟩) 0 (t0 1) ∧ (one (.tret ⟨.always⟩) id).apart 0 :=
  ⟨takes_of (by decide), apart_of (by decide)⟩

/-! Teams and grids (02, 07, 13) -/

/-- TeamsMigrate: to the own core, to core 1 of the grove, to core 24; the leader's operand is the immediate. -/
theorem witness_migrates : ∀ a ∈ [0, 1, 24], let i : Instr := .tmigr ⟨.always, .imm a⟩
    let s := crew 2 i fun _ => id
    Takes s i 0 (t0 2) ∧ Gathers s i (t0 2) ∧ s.issueSet i = [0, 1] ∧ s.thread? 1 = some { t0 2 with lane := 1, plane := 1 }
      ∧ ∀ k b, Lane.src ⟨s, k, t0 2, b⟩ 0 false (.imm a) = a.setWidth 64 := by
  have h : [0, 1, 24].all (fun a => let i : Instr := .tmigr ⟨.always, .imm a⟩
    let s := crew 2 i fun _ => id
    ready s i 0 (t0 2) && musters s i (t0 2) && decide (s.issueSet i = [0, 1])
      && decide (s.thread? 1 = some { t0 2 with lane := 1, plane := 1 }) && decide (plain (t0 2) false (.imm a) = a.setWidth 64)) = true := by decide
  intro a ha
  have := List.all_eq_true.mp h a ha
  simp only [Bool.and_eq_true, decide_eq_true_eq] at this
  obtain ⟨⟨⟨⟨h1, h2⟩, h3⟩, h4⟩, h5⟩ := this
  exact ⟨takes_of h1, gathers_of h2, h3, h4, fun _ _ => src_eq ⟨rfl, h5⟩⟩

theorem witness_migration_room : let s := crew 2 (.tmigr ⟨.always, .imm 1⟩) fun _ => id
    ∃ m, s.team? 0 = some m ∧ m.core = 0 ∧ s.fitOn 1 m.grid (needOf (s.lrecOfTeam m)) (some m.argp) = some (0, 0) :=
  ⟨_, rfl, by decide, by decide⟩

theorem witness_migration : let s0 := crew 2 (.nop ⟨.always⟩) fun _ => id
    let m := { Team.placed 1 0 0 0 2 0 1024 [0, 1] with moving := some (1, 32) }
    let s := { s0 with teams := [(0, m)] }
    s.team? 0 = some m ∧ 1 ≠ m.core ∧ s.teamBusy m = false ∧ (s.recsOf m).length ≤ s.permits 1 ∧ m.first + m.n ≤ 512 ∧ 32 + m.n ≤ 512
      ∧ (∀ j < m.n, (s.thread? (m.core * 512 + m.first + j)).isSome) ∧ m.argp + regionSpan m.region ≤ 2 ^ 18
      ∧ s.thread? 1 = some { t0 2 with lane := 1, plane := 1 } := by decide

/-- LaunchesCreateGrids: lane 1, and lane 0 with its argument block at the end of the region. -/
theorem witness_glaunch : let i : Instr := .glaunch ⟨.always, .g 4, .g 0, .g 1, false⟩
    let s := crew 2 i (fun _ => regs [0x5007, 896])
    Takes s i 1 (regs [0x5007, 896] { t0 2 with lane := 1, plane := 1 }) ∧ Takes s i 0 (regs [0x5007, 896] (t0 2))
      ∧ (∃ m g, s.team? 0 = some m ∧ s.grid? m.grid = some g ∧ g.depth ≠ 10 ∧ 896 % 16 = 0 ∧ m.argp ≤ 896 ∧ 896 + 128 ≤ m.argp + m.region)
      ∧ ∀ b, (s.laneAt 0 (regs [0x5007, 896] (t0 2)) b).src 1 false (.g 1) = 896 :=
  ⟨takes_of (by decide), takes_of (by decide), ⟨_, _, rfl, rfl, by decide, by decide, by decide, by decide⟩, fun _ => src_eq (by decide)⟩

theorem witness_glaunch_depth : let i : Instr := .glaunch ⟨.always, .g 4, .g 0, .g 1, false⟩
    let s0 := one i id
    let s := { s0 with grids := s0.grids.map (fun e => (e.1, { e.2 with depth := 10 })) }
    Takes s i 0 (t0 1) ∧ ∃ m g, s.team? 0 = some m ∧ s.grid? m.grid = some g ∧ g.depth = 10 :=
  ⟨takes_of (by decide), _, _, rfl, rfl, rfl⟩

/-- The plain state with its partition changed. -/
def inPart (f : Partition → Partition) : State := { one (.nop ⟨.always⟩) id with parts := [(0, f probePart)] }

def boundEntry : LEntry := ⟨record 1 0 0 0 128 [], true, 5, 0, 0⟩

theorem witness_grid_create : let s0 := inPart (fun p => { p with ltab := [(7, boundEntry)] })
    let r : GReq := ⟨0, 0, 0x5007, 1, some 1, List.replicate 128 0, some 0, none, .g 4, 0, none⟩
    let s := { s0 with greqs := [r] }
    s.greqs.find? (fun q => q.id == 0) = some r ∧ s.accessBelow 0 r.after = false ∧ s.pendingGrids 0 < 65536 ∧ s.gidFree 0 9 = true
      ∧ (s.part 0).named r.handle = some boundEntry ∧ (∃ g, s.grid? 1 = some g ∧ g.ctx = boundEntry.ctx ∧ 1 ≠ 0 * 2 ^ 32 + (9 : BitVec 32).toNat)
      ∧ s.thread? 0 = some (t0 1) :=
  ⟨by decide, by decide, by decide, by decide, by decide, ⟨_, rfl, by decide, by decide⟩, by decide⟩

def waitingGrid : Grid := { Grid.ofRecord 9 0 (record 2 0 0 0 128 []) 0 3 with handle := 0x5007 }

theorem witness_placer : let s := { inPart id with grids := [(9, waitingGrid)] }
    (s.part 0).v = true ∧ (s.part 0).resv = none ∧ s.order310 0 = [(9, waitingGrid)] ∧ lrRb waitingGrid.lrec = false
      ∧ (s.chooseRoom 0 9 waitingGrid.lrec none (fun _ => true)).isSome = true ∧ s.grid? 9 = some waitingGrid
      ∧ 1 < lrTeam waitingGrid.lrec := by decide

theorem witness_team_retire : let s := one (.nop ⟨.always⟩) (fun t => { t with st := .exited })
    ∃ m g, s.team? 0 = some m ∧ s.grid? m.grid = some g ∧ s.teamQuiet m = true
      ∧ m.slots.all (fun k => onThread s k (fun t => t.st == .exited)) = true := ⟨_, _, rfl, rfl, by decide, by decide⟩

theorem witness_grid_retire : let g := { waitingGrid with remaining := 0, parent := some 1 }
    let s0 := one (.nop ⟨.always⟩) id
    let s := { s0 with grids := s0.grids ++ [(9, g)] }
    s.grid? 9 = some g ∧ g.remaining = 0 ∧ g.children = 0 ∧ g.parent = some 1 ∧ (s.grid? 1).isSome := by decide

/-! Memories (08) -/

/-- ScratchpadAddresses: the ends of the region, of the window and of the space are all addresses; one team is enough. -/
theorem witness_scratchpad : let l : Lane := ⟨one (.nop ⟨.always⟩) id, 0, t0 1, 0⟩
    (l.s.team? l.t.team).isSome ∧ l.rangeFault .s 1020 4 = none ∧ l.rangeFault .s 1021 4 = some 0x18 ∧ l.rangeFault .s (2 ^ 23) 4 = none
      ∧ l.rangeFault .s (2 ^ 23 + 24 * 2 ^ 18) 4 = some 0x18 ∧ l.rangeFault .s (2 ^ 24) 4 = some 0x18 := by decide

/-- MemoryWordsIssue: loads and stores at the last word of the region. -/
theorem witness_accesses :
    (∀ i ∈ [Instr.ld ⟨.always, .g 4, .g 0, .imm 4, .w, .s, .none, true, false⟩, .lda ⟨.always, .g 4, .g 0, .imm 4, .w, .s, .none, false, .grove⟩,
      .st ⟨.always, .g 0, .imm 4, .imm 1, .w, .s, .none⟩, .stl ⟨.always, .g 0, .imm 4, .imm 1, .w, .s, .none, .team⟩],
      Takes (addressed i 1016) i 0 (tAt 1016))
    ∧ ∀ i b, ((addressed i 1016).laneAt 0 (tAt 1016) b).at .s (.g 0) (.imm 4) = 1020
      ∧ ((addressed i 1016).laneAt 0 (tAt 1016) b).reaches .s 1020 4 .read (.scr 0 1020 false)
      ∧ ((addressed i 1016).laneAt 0 (tAt 1016) b).reaches .s 1020 4 .write (.scr 0 1020 false)
      ∧ ((addressed i 1016).scopeOf ((addressed i 1016).partOf 0) .grove).isSome = true
      ∧ ((addressed i 1016).scopeOf ((addressed i 1016).partOf 0) .team).isSome = true := by
  refine ⟨?_, fun i b => ⟨at_eq (by decide), ⟨by with_unfolding_all rfl, [], by with_unfolding_all rfl⟩,
    ⟨by with_unfolding_all rfl, [], by with_unfolding_all rfl⟩, rfl, rfl⟩⟩
  intro i hi
  simp only [List.mem_cons, List.not_mem_nil, or_false] at hi
  rcases hi with rfl | rfl | rfl | rfl <;> exact takes_of (by decide)

/-- MemoryWordsIssue: atomics in the scratchpad. -/
theorem witness_atomics :
    (∀ i ∈ [Instr.atom ⟨.always, some (.g 4), .g 0, .g 2, some (.g 6), true, true, .cas, .ar, .core⟩,
      .red ⟨.always, .g 0, .imm 1, true, true, .maxs, true, .core⟩], Takes (addressed i 1016) i 0 (tAt 1016))
    ∧ ∀ i b, ((addressed i 1016).laneAt 0 (tAt 1016) b).src 0 false (.g 0) = 1016
      ∧ ((addressed i 1016).laneAt 0 (tAt 1016) b).reaches .s 1016 8 .write (.scr 0 1016 false)
      ∧ ((addressed i 1016).scopeOf ((addressed i 1016).partOf 0) .core).isSome = true := by
  refine ⟨?_, fun i b => ⟨src_eq (by decide), ⟨by with_unfolding_all rfl, [], by with_unfolding_all rfl⟩, rfl⟩⟩
  intro i hi
  simp only [List.mem_cons, List.not_mem_nil, or_false] at hi
  rcases hi with rfl | rfl <;> exact takes_of (by decide)

/-- MemoryWordsIssue in space `.g`: the probe's page. -/
theorem witness_accesses_global : let i : Instr := .ld ⟨.always, .g 4, .g 0, .imm 4, .q, .g, .el, false, false⟩
    Takes (addressed i 0x8000) i 0 (tAt 0x8000) ∧ ∀ b, ((addressed i 0x8000).laneAt 0 (tAt 0x8000) b).at .g (.g 0) (.imm 4) = 0x8004
      ∧ ∃ p, ((addressed i 0x8000).laneAt 0 (tAt 0x8000) b).reaches .g 0x8004 16 .read p :=
  ⟨takes_of (by decide), fun _ => ⟨at_eq (by decide), _, rfl, find_g (log := 16) (e := 0x9800000000040000) (x := .dev 0x48004 0 false 0 false 16) (by decide)⟩⟩

/-- MemoryWordsFault: each check of R196. -/
theorem witness_access_range : let i : Instr := .ld ⟨.always, .g 4, .g 0, .imm 0, .b, .g, .none, false, false⟩
    Takes (addressed i (2 ^ 55)) i 0 (tAt (2 ^ 55)) ∧ ∀ b, ((addressed i (2 ^ 55)).laneAt 0 (tAt (2 ^ 55)) b).at .g (.g 0) (.imm 0) = 2 ^ 55 :=
  ⟨takes_of (by decide), fun _ => at_eq (by decide)⟩

theorem witness_access_range_scratchpad : let i : Instr := .st ⟨.always, .g 0, .imm 0, .imm 0, .b, .s, .none⟩
    Takes (addressed i (2 ^ 24)) i 0 (tAt (2 ^ 24)) ∧ ∀ b, ((addressed i (2 ^ 24)).laneAt 0 (tAt (2 ^ 24)) b).at .s (.g 0) (.imm 0) = 2 ^ 24 :=
  ⟨takes_of (by decide), fun _ => at_eq (by decide)⟩

theorem witness_access_range_constant : let i : Instr := .ld ⟨.always, .g 4, .g 0, .imm 0, .w, .k, .none, false, false⟩
    Takes (addressed i 253) i 0 (tAt 253) ∧ (∀ b, ((addressed i 253).laneAt 0 (tAt 253) b).at .k (.g 0) (.imm 0) = 253)
      ∧ lrClen ((addressed i 253).lrecOf (tAt 253)) < 253 + MW.w.bytes :=
  ⟨takes_of (by decide), fun _ => at_eq (by decide), by decide⟩

theorem witness_access_misaligned :
    (∀ i ∈ [Instr.lda ⟨.always, .g 4, .g 0, .imm 0, .w, .s, .none, false, .dev⟩, .stl ⟨.always, .g 0, .imm 0, .imm 1, .w, .s, .none, .team⟩,
      .atom ⟨.always, none, .g 0, .g 2, none, false, true, .add, .rlx, .dev⟩], Takes (addressed i 2) i 0 (tAt 2))
    ∧ ∀ i b, ((addressed i 2).laneAt 0 (tAt 2) b).at .s (.g 0) (.imm 0) = 2 ∧ ((addressed i 2).laneAt 0 (tAt 2) b).src 0 false (.g 0) = 2 := by
  refine ⟨?_, fun i b => ⟨at_eq (by decide), src_eq (by decide)⟩⟩
  intro i hi
  simp only [List.mem_cons, List.not_mem_nil, or_false] at hi
  rcases hi with rfl | rfl | rfl <;> exact takes_of (by decide)

/-- A partition whose policy denies scopes .dev and wider (R226). -/
theorem witness_access_scope : let i : Instr := .red ⟨.always, .g 0, .imm 1, true, false, .add, false, .dev⟩
    let f : Instr := .fence ⟨.always, .ar, .dev⟩
    let deny (i : Instr) : State := { addressed i 0x8000 with parts := [(0, { probePart with policy := 0x2A })] }
    Takes (deny i) i 0 (tAt 0x8000) ∧ Takes (deny f) f 0 (tAt 0x8000) ∧ (deny i).scopeOf 0 .dev = none
      ∧ ∀ b, ((deny i).laneAt 0 (tAt 0x8000) b).src 0 true (.g 0) = 0x8000 :=
  ⟨takes_of (by decide), takes_of (by decide), by decide, fun _ => src_eq (by decide)⟩

/-- A page the tables do not map. -/
theorem witness_access_unmapped : let i : Instr := .ld ⟨.always, .g 4, .g 0, .imm 0, .w, .g, .none, false, false⟩
    Takes (addressed i 0x10000) i 0 (tAt 0x10000) ∧ ∀ b, ((addressed i 0x10000).laneAt 0 (tAt 0x10000) b).at .g (.g 0) (.imm 0) = 0x10000
      ∧ ((addressed i 0x10000).laneAt 0 (tAt 0x10000) b).find .g 0x10000 MW.w.bytes .read true = .fault 0x11 :=
  ⟨takes_of (by decide), fun _ => ⟨at_eq (by decide), find_g_none (by decide)⟩⟩

theorem witness_fence : let i : Instr := .fence ⟨.always, .ar, .grove⟩
    Takes (one i id) i 0 (t0 1) ∧ ((one i id).scopeOf ((one i id).partOf 0) .grove).isSome = true := ⟨takes_of (by decide), by decide⟩

theorem witness_lines : ∀ i ∈ [Instr.disc ⟨.always, .g 0, .imm 0⟩, .clean ⟨.always, .g 0, .imm 0⟩, .pref ⟨.always, .g 0, .imm 0, false, .none, true⟩],
    Takes (addressed i 0x8000) i 0 (tAt 0x8000) ∧ ∀ b, ((addressed i 0x8000).laneAt 0 (tAt 0x8000) b).at .g (.g 0) (.imm 0) = 0x8000
      ∧ (∃ tlb, ((addressed i 0x8000).laneAt 0 (tAt 0x8000) b).find .g 0x8000 1 .write false = .here (.dev 0x48000 0 false 0 false) tlb)
      ∧ ∃ tlb, ((addressed i 0x8000).laneAt 0 (tAt 0x8000) b).find .g 0x8000 1 .read false = .here (.dev 0x48000 0 false 0 false) tlb := by
  intro i hi
  simp only [List.mem_cons, List.not_mem_nil, or_false] at hi
  rcases hi with rfl | rfl | rfl <;>
    exact ⟨takes_of (by decide), fun _ => ⟨at_eq (by decide), find_g (log := 16) (e := 0x9800000000040000) (x := .dev 0x48000 0 false 0 false 16) (by decide),
      find_g (log := 16) (e := 0x9800000000040000) (x := .dev 0x48000 0 false 0 false 16) (by decide)⟩⟩

/-- The plain state with one operation outstanding. -/
def pending (o : Op) : State := { one (.nop ⟨.always⟩) id with ops := [o] }

/-- LoadsComplete, at each kind of place. -/
theorem witness_load_completes : ∀ p ∈ [Place.scr 0 1020 false, .host 0 8, .dev 0x48000 0 false 0 false],
    let o := { op0 0 with kind := .load (.g 4) .w false true .none, place := p, todo := [(0, 4)], buf := [0, 0, 0, 0] }
    (t0 1).noReplay ∧ o.again = false ∧ (pending o).op? 0 = some o ∧ (pending o).mayPerform o = true ∧ (pending o).thread? 0 = some (t0 1)
      ∧ (pending o).storesOf ((pending o).domain (coreOf o.slot)) = [] ∧ (pending o).finds o .none [0, 0, 0, 0] := by
  intro p hp
  simp only [List.mem_cons, List.not_mem_nil, or_false] at hp
  rcases hp with rfl | rfl | rfl
  · exact ⟨no_replay rfl, rfl, by decide, by decide, by decide, by decide, rfl, fun h => Bool.noConfusion h, by decide⟩
  · exact ⟨no_replay rfl, rfl, by decide, by decide, by decide, by decide, rfl, by decide⟩
  · exact ⟨no_replay rfl, rfl, by decide, by decide, by decide, by decide, rfl, rfl, by decide, by decide, by decide, by with_unfolding_all rfl⟩

/-- StoresPerform, at each kind of place; the last byte of a line. -/
theorem witness_store_performs : ∀ p ∈ [Place.scr 0 1023 false, .host 0 8, .dev 0x4807F 0 false 0 false],
    let o := { op0 0 with cls := .st, kind := .store [7] .none, place := p, n := 1, todo := [(0, 1)] }
    (t0 1).noReplay ∧ (pending o).op? 0 = some o ∧ o.again = false ∧ (pending o).mayPerform o = true ∧ (pending o).olderSeen o = false
      ∧ (pending o).thread? 0 = some (t0 1) ∧ (t0 1).st ≠ .waiting ∧ (∀ e ∈ (pending o).teams, e.2.seg = none) ∧ 0x4807F % 128 + 1 ≤ 128
      ∧ SMap.sortedFrom none (pending o).l2 = true :=
  fun p h => ⟨no_replay rfl, by revert p; decide⟩

theorem witness_store_line (o : Op) (a : Acc) : ((pending o).peekLine a).length = 128 := by
  show ((pending o).memLine a).length = 128
  have h : (pending o).keyTags.find? ((pending o).memAt (lineOf a.pa)) = none := rfl
  simp [State.memLine, h, Memory.readN]

/-- StoresPerform and CopiesComplete: the frame of a device store holds of every other line where its line is in the slice, or its set of
16 has room; in a full set it holds of a line of which slice and memory hold one content. -/
theorem witness_wrote_line :
    let a : Acc := ⟨0, 0x4807F, 0, false, 0, false, .none, none⟩
    let c : Acc := ⟨0, 0x40000, 0, false, 0, false, .none, none⟩
    let ln : L2Line := ⟨List.replicate 128 16, true, false, .none, 0, ⟨KeyEnt.blank, 0, 0⟩, 0, false⟩
    let s := pending (op0 0)
    let r := { s with l2 := [(s.l2Key a, ln)] }
    let f := { s with l2 := (List.range 16).map (fun i => (2 ^ 18 * (i + 2) + 0x48000, ln)) }
    s.l2Key c ≠ s.l2Key a ∧ (s.l2Set (s.l2Key a)).length < 16 ∧ (r.l2.find? (r.l2Key a)).isSome = true ∧ (f.l2.find? (f.l2Key a)).isSome = false
      ∧ (f.l2Set (f.l2Key a)).length = 16 ∧ f.l2Key c ≠ f.l2Key a ∧ f.coheres c := by
  unfold State.coheres
  decide +kernel

/-- AtomicsPerform, returning and reducing, in the own scratchpad and through the window. -/
theorem witness_atomic_performs : ∀ win ∈ [false, true],
    let a := { op0 0 with kind := .atom (some (.g 4)) true .cas 1 2, place := .scr 0 1016 win, n := 8, todo := [(0, 8)] }
    let r := { op0 0 with cls := .st, kind := .red false .fadd 1, place := .scr 0 1020 win, n := 4, todo := [(0, 4)] }
    (t0 1).noReplay ∧ (t0 1).st ≠ .waiting ∧ ∀ o ∈ [a, r], (pending o).op? 0 = some o ∧ o.again = false ∧ o.sent = false
      ∧ (pending o).mayPerform o = true ∧ (pending o).olderSeen o = false
      ∧ (win = true → (pending o).windowHit o.slot 0 1016 o.n = true) ∧ (pending o).thread? 0 = some (t0 1) := by
  intro win hw
  refine ⟨no_replay rfl, by decide, ?_⟩
  revert win
  decide

/-! Copies and barriers (09) -/

def cregs : List Nat := [512, 0, 32, 0, 16, 2, 1, 32, 0, 16, 0, 0, 224, 0, 0, 0, 16, 2, 16, 32]
def cp (i : Instr) : State := one i (regs cregs)
def tc : Thread := regs cregs (t0 1)

/-- A copy's request reads no free number where no matrix operation is outstanding. -/
theorem cpyReq_fresh {s : State} {k : Nat} {t : Thread} (h : t.wins = []) (x : CpyArg) (b : Nat) :
    cpyReq x (s.laneAt k t b) = cpyReq x (s.laneAt k t 0) := by
  simp only [cpyReq, Lane.copyBases, Lane.src32, src_plain (l := s.laneAt k t b) h, src_plain (l := s.laneAt k t 0) h]
  rfl

theorem cpytReq_fresh {s : State} {k : Nat} {t : Thread} (h : t.wins = []) (x : CpydArg) (b : Nat) :
    cpytReq x (s.laneAt k t b) = cpytReq x (s.laneAt k t 0) := by
  have g (b i : Nat) : (s.laneAt k t b).g 2 i = t.gVal i := by simp [Lane.g, Thread.windowed, State.laneAt, h]
  simp only [cpytReq, Lane.copyBases, Lane.src32, src_plain (l := s.laneAt k t b) h, src_plain (l := s.laneAt k t 0) h, g]
  rfl

theorem cpygReq_fresh {s : State} {k : Nat} {t : Thread} (h : t.wins = []) (x : CpydArg) (b : Nat) :
    cpygReq x (s.laneAt k t b) = cpygReq x (s.laneAt k t 0) := by
  have g (b i : Nat) : (s.laneAt k t b).g 2 i = t.gVal i := by simp [Lane.g, Thread.windowed, State.laneAt, h]
  simp only [cpygReq, Lane.copyBases, Lane.src32, src_plain (l := s.laneAt k t b) h, src_plain (l := s.laneAt k t 0) h, g]
  rfl

theorem copyFault_fresh (s : State) (k : Nat) (t : Thread) (b : Nat) (q : CopyReq) :
    (s.laneAt k t b).copyFault q = (s.laneAt k t 0).copyFault q := rfl

/-- CopyWordsIssue: between two places of the region, from the end of the constant block, two rows, two indices. -/
theorem witness_cpy : let x : CpyArg := ⟨.always, .g 0, .g 1, .imm 32, true, .s, none, 1⟩
    Takes (cp (.cpy x)) (.cpy x) 0 tc ∧ ∀ b, ((cp (.cpy x)).laneAt 0 tc b).copyFault (cpyReq x ((cp (.cpy x)).laneAt 0 tc b)) = none
      ∧ (cpyReq x ((cp (.cpy x)).laneAt 0 tc b)).total ≠ 0 :=
  ⟨takes_of (by decide), fun b => by
    rw [cpyReq_fresh rfl, copyFault_fresh]
    decide⟩

theorem witness_cpy_constant : let x : CpyArg := ⟨.always, .g 0, .g 1, .g 12, true, .k, none, 0⟩
    Takes (cp (.cpy x)) (.cpy x) 0 tc ∧ ∀ b, ((cp (.cpy x)).laneAt 0 tc b).copyFault (cpyReq x ((cp (.cpy x)).laneAt 0 tc b)) = none
      ∧ (cpyReq x ((cp (.cpy x)).laneAt 0 tc b)).total ≠ 0 :=
  ⟨takes_of (by decide), fun b => by
    rw [cpyReq_fresh rfl, copyFault_fresh]
    decide⟩

theorem witness_cpyt : let x : CpydArg := ⟨.always, .g 0, .g 1, 4, true, .s, none, 1⟩
    Takes (cp (.cpyt x)) (.cpyt x) 0 tc ∧ ∀ b, ((cp (.cpyt x)).laneAt 0 tc b).copyFault (cpytReq x ((cp (.cpyt x)).laneAt 0 tc b)) = none
      ∧ (cpytReq x ((cp (.cpyt x)).laneAt 0 tc b)).total ≠ 0 :=
  ⟨takes_of (by decide), fun b => by
    rw [cpytReq_fresh rfl, copyFault_fresh]
    decide⟩

theorem witness_cpyg : let x : CpydArg := ⟨.always, .g 0, .g 1, 16, true, .s, none, 1⟩
    Takes (cp (.cpyg x)) (.cpyg x) 0 tc ∧ ∀ b, ((cp (.cpyg x)).laneAt 0 tc b).copyFault (cpygReq x ((cp (.cpyg x)).laneAt 0 tc b)) = none
      ∧ (cpygReq x ((cp (.cpyg x)).laneAt 0 tc b)).total ≠ 0 :=
  ⟨takes_of (by decide), fun b => by
    rw [cpygReq_fresh rfl, copyFault_fresh]
    decide⟩

/-- CopyWordsIssue: an index list read through the grove window, from the own scratchpad's place in it; no bytes in the length, in the
rows, in the index list. -/
theorem witness_cpyg_window : let x : CpydArg := ⟨.always, .g 0, .g 1, 4, true, .s, none, 1⟩
    let f (t : Thread) : Thread := regs [512, 0, 0, 0, 16, 2, 16, 2 ^ 23 + 32] t
    let s := one (.cpyg x) f
    Takes s (.cpyg x) 0 (f (t0 1)) ∧ ∀ b, (s.laneAt 0 (f (t0 1)) b).copyFault (cpygReq x (s.laneAt 0 (f (t0 1)) b)) = none
      ∧ (cpygReq x (s.laneAt 0 (f (t0 1)) b)).total ≠ 0 ∧ (f (t0 1)).gVal 7 = BitVec.ofNat 32 (2 ^ 23 + 32) ∧ (f (t0 1)).wins = [] :=
  ⟨takes_of (by decide), fun b => by
    rw [cpygReq_fresh rfl, copyFault_fresh]
    decide⟩

theorem witness_copy_of_nothing : let c : CpyArg := ⟨.always, .g 0, .g 1, .imm 0, true, .s, none, 1⟩
    let x : CpydArg := ⟨.always, .g 0, .g 1, 4, true, .s, none, 1⟩
    let f (t : Thread) : Thread := regs [512, 0, 0, 0, 0, 2, 16, 32] t
    let l (i : Instr) (b : Nat) : Lane := (one i f).laneAt 0 (f (t0 1)) b
    (f (t0 1)).noReplay ∧ Takes (one (.cpy c) f) (.cpy c) 0 (f (t0 1)) ∧ Takes (one (.cpyt x) f) (.cpyt x) 0 (f (t0 1))
      ∧ Takes (one (.cpyg x) f) (.cpyg x) 0 (f (t0 1))
      ∧ (∀ b, (l (.cpy c) b).copyFault (cpyReq c (l (.cpy c) b)) = none ∧ (cpyReq c (l (.cpy c) b)).total = 0
        ∧ (cpyReq c (l (.cpy c) b)).bar = none)
      ∧ (∀ b, (l (.cpyt x) b).copyFault (cpytReq x (l (.cpyt x) b)) = none ∧ (cpytReq x (l (.cpyt x) b)).total = 0
        ∧ (cpytReq x (l (.cpyt x) b)).bar = none)
      ∧ ∀ b, (l (.cpyg x) b).copyFault (cpygReq x (l (.cpyg x) b)) = none ∧ (cpygReq x (l (.cpyg x) b)).total = 0
        ∧ (cpygReq x (l (.cpyg x) b)).bar = none :=
  ⟨no_replay rfl, takes_of (by decide), takes_of (by decide), takes_of (by decide),
    fun b => by
      dsimp only
      rw [cpyReq_fresh rfl, copyFault_fresh]
      decide,
    fun b => by
      dsimp only
      rw [cpytReq_fresh rfl, copyFault_fresh]
      decide,
    fun b => by
      dsimp only
      rw [cpygReq_fresh rfl, copyFault_fresh]
      decide⟩

/-- CopyWordsFault: the first tag the team lacks; a length of 8; a destination past the space. -/
theorem witness_copy_faults : let a : CpyArg := ⟨.always, .g 0, .g 1, .imm 32, true, .g, none, 2⟩
    let b : CpyArg := ⟨.always, .g 0, .g 1, .imm 8, true, .g, none, 1⟩
    let c : CpyArg := ⟨.always, .g 0, .g 1, .imm 16, true, .g, none, 0⟩
    let f (t : Thread) : Thread := regs [2 ^ 24, 0, 0] t
    let sc := one (.cpy c) f
    (∃ m, (cp (.cpy a)).team? 0 = some m ∧ m.tags.length = 2) ∧ Takes (cp (.cpy a)) (.cpy a) 0 tc ∧ Takes (cp (.cpy b)) (.cpy b) 0 tc
      ∧ (∀ n, ((cp (.cpy b)).laneAt 0 tc n).src32 2 (.imm 8) = 8) ∧ Takes sc (.cpy c) 0 (f (t0 1))
      ∧ ∀ n, (sc.laneAt 0 (f (t0 1)) n).src 0 false (.g 0) = 2 ^ 24 ∧ (sc.laneAt 0 (f (t0 1)) n).src 1 true (.g 1) = 0
        ∧ (sc.laneAt 0 (f (t0 1)) n).src32 2 (.imm 16) = 16 :=
  ⟨⟨_, rfl, rfl⟩, takes_of (by decide), takes_of (by decide), fun _ => src32_eq (by decide), takes_of (by decide),
    fun _ => ⟨src_eq (by decide), src_eq (by decide), src32_eq (by decide)⟩⟩

def copyOp (bar : Option Nat) (busy : Bool) : Op :=
  { op0 3 with cls := .cp, kind := .copy [(16, 512, 32)] none 32 16 512 true .s 1 bar busy, todo := [(16, 16)] }

/-- CopiesComplete: a copy that waits, its last 16 bytes, with a barrier of the other count. -/
theorem witness_copy_completes :
    let w := { pending (copyOp none false) with cores := [(0, { CoreSt.reset with cq := [3] })] }
    let m := (one (.nop ⟨.always⟩) id).teams
    (∀ e ∈ (pending (copyOp none true)).threads, e.2.noReplay) ∧ (copyOp none true).cls = .cp ∧ (copyOp none true).failed = none ∧ (t0 1).st ≠ .waiting ∧ 16 + 32 ≤ 2 ^ 18
      ∧ 512 + 32 ≤ 2 ^ 18 ∧ 16 + 32 ≤ 512 ∧ (w.core 0).cq = [3] ∧ w.op? 3 = some (copyOp none false)
      ∧ (pending (copyOp none true)).op? 3 = some (copyOp none true) ∧ (pending (copyOp none true)).accessBelow 0 0 = false
      ∧ (pending (copyOp none true)).thread? 0 = some (t0 1) ∧ (∃ t, (pending (copyOp none true)).team? 0 = some t ∧ t.tags[1]? = some 1)
      ∧ m.length = 1 := by
  refine ⟨?_, rfl, by decide, by decide, by decide, by decide, by decide, by decide, by decide, by decide, by decide, by decide, ⟨_, rfl, by decide⟩,
    rfl⟩
  intro e he
  rw [show e = (0, t0 1) from List.mem_singleton.mp he]
  exact no_replay rfl

/-- A machine whose scratchpad of core 0 holds a barrier at 64. -/
def barred (i : Instr) (f : Thread → Thread) (o : BarObj) : State := { one i f with scr := ((one i f).setBar 0 64 o).scr }

theorem witness_copy_credits : let o : BarObj := ⟨4, 0, 1, 32, true⟩
    let s := { barred (.nop ⟨.always⟩) id o with ops := [copyOp (some 64) true] }
    (∀ e ∈ s.threads, e.2.noReplay) ∧ s.op? 3 = some (copyOp (some 64) true) ∧ s.accessBelow 0 0 = false ∧ s.barAt 0 64 = o ∧ o.ok = true
      ∧ 64 + 16 ≤ 512 + 16 ∧ -2 ^ 31 ≤ o.pending - 32 := by
  refine ⟨?_, by decide⟩
  intro e he
  rw [show e = (0, t0 1) from List.mem_singleton.mp he]
  exact no_replay rfl

def tb (v : Nat) : Thread := regs [64, v] (t0 1)

/-- BarrierWordsIssue: counts 1, 65535 and out of range; the phase passed, present; an object that is none. -/
theorem witness_bari : ∀ c ∈ [1, 65535, 0, 65536], let i : Instr := .bari ⟨.always, .g 0, .g 1⟩
    let s := one i (regs [64, c])
    Takes s i 0 (tb c) ∧ (∃ m, s.team? 0 = some m ∧ (∀ o ∈ s.ops, o.slot ≠ 0) ∧ m.argp ≤ 64 ∧ 64 + 16 ≤ m.argp + m.region)
      ∧ (∀ b, (s.laneAt 0 (tb c) b).src32 0 (.g 0) = 64) ∧ (s.partOf 0) = 0 := by
  intro c hc
  simp only [List.mem_cons, List.not_mem_nil, or_false] at hc
  rcases hc with rfl | rfl | rfl | rfl <;>
    exact ⟨takes_of (by decide), ⟨_, rfl, by decide, by decide, by decide⟩, fun _ => src32_eq (by decide), by decide⟩

theorem witness_barriers :
    (∀ i ∈ [Instr.bara ⟨.always, some (.g 4), .g 0⟩, .barx ⟨.always, .g 0, .g 1⟩, .barw ⟨.always, .g 0, .g 1⟩],
      (∀ o ∈ [(⟨4, 1, 2, 5, true⟩ : BarObj), ⟨3, 2, 2, 0, true⟩, ⟨4, 0, 2, 5, false⟩, ⟨4, 3, 2, 0, true⟩],
        ready (barred i (regs [64, 3]) o) i 0 (tb 3) = true ∧ (barred i (regs [64, 3]) o).barAt 0 64 = o
          ∧ (barred i (regs [64, 3]) o).ops = []))
    ∧ ∀ i o b, ((barred i (regs [64, 3]) o).laneAt 0 (tb 3) b).src32 0 (.g 0) = 64
      ∧ ((barred i (regs [64, 3]) o).laneAt 0 (tb 3) b).src32 1 (.g 1) = 3 :=
  ⟨by decide, fun _ _ _ => ⟨src32_eq (by decide), src32_eq (by decide)⟩⟩

theorem witness_barrier_misaligned : let i : Instr := .barw ⟨.always, .g 0, .g 1⟩
    Takes (one i (regs [72, 0])) i 0 (regs [72, 0] (t0 1)) ∧ ∀ b, ((one i (regs [72, 0])).laneAt 0 (regs [72, 0] (t0 1)) b).src32 0 (.g 0) = 72 :=
  ⟨takes_of (by decide), fun _ => src32_eq (by decide)⟩

/-- BarriersPerform: each kind of operation on an object of one arrival. -/
theorem witness_barrier_performs : ∀ k ∈ [OpKind.bari 65535, .bara none, .bara (some (.g 4)), .barx 7],
    let o := { op0 0 with cls := .st, kind := k, place := .scr 0 64 false, n := 16, todo := [(0, 16)] }
    let w := { t0 2 with lane := 1, plane := 1, st := .waiting, bwait := some (64, 4) }
    let s := { barred (.nop ⟨.always⟩) id ⟨4, 1, 2, 0, true⟩ with ops := [o], threads := [(0, t0 2), (1, w)] }
    (t0 2).noReplay ∧ s.op? 0 = some o ∧ s.mayPerform o = true ∧ s.thread? 0 = some (t0 2) ∧ (t0 2).st ≠ .waiting
      ∧ (s.threads.map (·.1)).Nodup ∧ s.barAt 0 64 = ⟨4, 1, 2, 0, true⟩ ∧ s.thread? 1 = some w ∧ w.step = false ∧ 1 / 512 = 0 := by
  intro k hk
  refine ⟨no_replay rfl, ?_⟩
  revert k
  decide

/-- One lane with both of its team's tags ready. -/
def tagged (i : Instr) : State := { one i id with cores := [(0, { CoreSt.reset with tags := [(0, ⟨true, 0, some 0⟩), (1, ⟨true, 0, some 0⟩)] })] }

/-- TagWaits: each word on masks 1 and 3 with both tags ready, on the empty mask, and on a tag beyond the team's two. -/
theorem witness_tags : (∀ a ∈ [0, 1, 3, 4], ∀ i ∈ [Instr.waitany ⟨.always, .imm a⟩, .waitall ⟨.always, .imm a⟩, .ffr ⟨.always, .g 4, .imm a, true⟩],
      ready (tagged i) i 0 (t0 1) = true ∧ (tagged i).tagBits 0 = 3 ∧ ∃ m, (tagged i).team? 0 = some m ∧ m.tags.length = 2)
    ∧ ∀ i a b, Lane.src ⟨tagged i, 0, t0 1, b⟩ 0 true (.imm a) = a.signExtend 64 := by
  refine ⟨?_, fun i a b => src_eq ⟨rfl, rfl⟩⟩
  intro a ha i hi
  simp only [List.mem_cons, List.not_mem_nil, or_false] at ha hi
  rcases ha with rfl | rfl | rfl | rfl <;> rcases hi with rfl | rfl | rfl <;> exact ⟨by decide, by decide, _, rfl, rfl⟩

/-! Queues (11) -/

/-- The last stream of each kind, and the first out of range. -/
theorem witness_queue_words : (∀ v ∈ [131071, 131072], ∀ i ∈ [Instr.emit ⟨.always, false, .g 0, 8⟩, .qrd ⟨.always, false, .g 0, 8⟩, .qlen ⟨.always, false, .g 4, .g 0⟩],
      ready (one i (regs [v])) i 0 (regs [v] (t0 1)) = true)
    ∧ (∀ v ∈ [16383, 16384], ∀ i ∈ [Instr.emit ⟨.always, true, .g 0, 248⟩, .qrd ⟨.always, true, .g 0, 248⟩, .qlen ⟨.always, true, .o 3, .g 0⟩],
      ready (one i (regs [v])) i 0 (regs [v] (t0 1)) = true)
    ∧ ∀ v ∈ [131071, 131072, 16383, 16384], ∀ i b, ((one i (regs [v])).laneAt 0 (regs [v] (t0 1)) b).src32 0 (.g 0) = BitVec.ofNat 32 v :=
  ⟨by decide, by decide, fun v hv i b => by
    simp only [List.mem_cons, List.not_mem_nil, or_false] at hv
    rcases hv with rfl | rfl | rfl | rfl <;> exact src32_eq (by decide)⟩

/-- Streams 5 to 9: room in the pool; full under POL 00, 01, 10; another partition's. -/
def que (pol : Nat) (cap : Nat) : Queue := { Queue.reset with v := true, cmode := true, pol := BitVec.ofNat 2 pol, cap := BitVec.ofNat 18 cap, seq := 9 }
def withQueues (i : Instr) (f : Thread → Thread) : State :=
  { one i f with queues := [(5, que 0 4), (6, que 0 0), (7, que 1 0), (8, que 2 0), (9, { que 0 4 with part := 1 })] }
def emitting (j : Nat) : Op := { op0 3 with cls := .st, kind := .emit j [1, 2, 3, 4, 5, 6, 7, 8], n := 0 }
def queuing (o : Op) : State := { withQueues (.nop ⟨.always⟩) id with ops := [o] }

theorem witness_emit : ∀ j ∈ [5, 6, 7, 8, 9], let o := emitting j
    let s := queuing o
    (t0 1).noReplay ∧ o.cls ≠ .cp ∧ o.sent = false ∧ s.op? 3 = some o ∧ s.unitTurn o = true ∧ s.thread? 0 = some (t0 1)
      ∧ s.unperformed 0 3 = false ∧ (s.queue j).stuck = false ∧ (s.queue j).hostq = []
      ∧ (j ≠ 9 → (s.queue j).v = true ∧ (s.queue j).part.toNat = o.part) ∧ (j = 9 → (s.queue j).part.toNat ≠ o.part)
      ∧ (j = 5 → (s.queue j).cmode = true ∧ (s.queue j).rcnt = 0 ∧ (s.queue j).held = false ∧ s.admits j = true)
      ∧ (j ∈ [6, 7, 8] → s.admits j = false ∧ (s.queue j).rlog = 0 ∧ (s.queue j).rcnt = 0) ∧ (s.queue j).stalled = [] := by
  intro j hj
  refine ⟨no_replay rfl, ?_⟩
  revert j
  decide

theorem witness_stalled_emit : let o := { emitting 5 with sent := true }
    let s0 := queuing o
    let s := { s0 with queues := [(5, { que 0 4 with stalled := [.inl 3] })] }
    (t0 1).noReplay ∧ o.cls ≠ .cp ∧ s.op? 3 = some o ∧ (s.queue 5).cmode = true ∧ (s.queue 5).rcnt = 0 ∧ (s.queue 5).held = false
      ∧ s.admits 5 = true ∧ (s.queue 5).stuck = false ∧ (s.queue 5).hostq = [] ∧ (s.queue 5).stalled = [.inl 3]
      ∧ s.thread? 0 = some (t0 1) := ⟨no_replay rfl, by decide⟩

theorem witness_host_append : let s0 := withQueues (.nop ⟨.always⟩) id
    let s := { s0 with lds := [(2, { LDev.reset with v := true, parts := 1 })] }
    s.dev.state.toNat ≤ 2 ∧ s.reaches 2 5 = true ∧ s.admits 5 = true ∧ (s.queue 5).stuck = false ∧ (s.queue 5).hostq = []
      ∧ s.reaches 2 7 = true ∧ s.admits 7 = false ∧ (s.queue 7).hostq = []
      ∧ (List.replicate 32 (0 : Byte)).length = 32 := by decide

theorem witness_qrd : let o := { op0 3 with kind := .qrd 5 8, n := 0, marks := [264, 8, 9, 10, 11, 12, 13, 14, 15] }
    let s0 := queuing o
    let s := { s0 with queues := [(5, { que 0 4 with pool := [(8, [1, 2, 3, 4, 5, 6, 7, 8])] })] }
    (t0 1).noReplay ∧ o.cls ≠ .cp ∧ s.op? 3 = some o ∧ s.unitTurn o = true ∧ s.thread? 0 = some (t0 1)
      ∧ (s.queue 5).pool = [(8, [1, 2, 3, 4, 5, 6, 7, 8])]
      ∧ (s0.queue 5).pool = [] ∧ (s0.queue 5).cmode = true ∧ (s0.queue 9).v = true ∧ (s0.queue 9).part.toNat ≠ o.part :=
  ⟨no_replay rfl, by decide⟩

theorem witness_qlen : let o := { op0 3 with kind := .qlen 5 (.g 4), n := 0, marks := [264, 4] }
    let s := queuing o
    (t0 1).noReplay ∧ o.cls ≠ .cp ∧ s.op? 3 = some o ∧ s.unitTurn o = true ∧ s.thread? 0 = some (t0 1) ∧ (s.queue 5).v = true
      ∧ (s.queue 5).part.toNat = o.part := ⟨no_replay rfl, by decide⟩

/-- QueueTableWrites: the last stream; MIN at and above CAP; guarantees up to the pool. -/
theorem witness_queue_table : let s := { State.reset with queues := [(3, { Queue.reset with v := true, min := 262143, cap := 262143 })] }
    let ok : DWord := 0x8000000000000000 + BitVec.ofNat 64 (1 * 2 ^ 35 + 1 * 2 ^ 17)
    (s.queue 147455).v = false ∧ (s.queue 147455).pool = [] ∧ ok.getLsbD 63 = true ∧ (ok.extractLsb' 35 18).toNat = 1
      ∧ ok.extractLsb' 35 18 ≤ ok.extractLsb' 17 18 ∧ 262143 + 1 ≤ 262144
      ∧ (s.queue 3).v = true ∧ (s.queue 3).part.toNat = 0 ∧ (s.queue 3).stalled = [] ∧ (0 : DWord).getLsbD 63 = false
      ∧ (0 : DWord).extractLsb' 17 18 < (0xFFFFFFFFFFFFFFFF : DWord).extractLsb' 35 18 - 1 := by decide

/-! Automata (12) -/

theorem witness_automaton_words : (∀ v ∈ [4095, 4096], ∀ i ∈ [Instr.mload ⟨.always, .g 0, .g 2⟩, .marm ⟨.always, .g 0⟩, .mdis ⟨.always, .g 0⟩, .mstat ⟨.always, 4, .g 0, .imm 9⟩],
      ready (one i (regs [v, 0, 0x8080, 0])) i 0 (regs [v, 0, 0x8080, 0] (t0 1)) = true)
    ∧ (∀ v ∈ [4095, 4096], ∀ i b, ((one i (regs [v, 0, 0x8080, 0])).laneAt 0 (regs [v, 0, 0x8080, 0] (t0 1)) b).src32 0 (.g 0) = BitVec.ofNat 32 v
      ∧ ((one i (regs [v, 0, 0x8080, 0])).laneAt 0 (regs [v, 0, 0x8080, 0] (t0 1)) b).src 1 true (.g 2) = 0x8080) :=
  ⟨by decide, fun v hv i b => by
    simp only [List.mem_cons, List.not_mem_nil, or_false] at hv
    rcases hv with rfl | rfl <;> exact ⟨src32_eq (by decide), src_eq (by decide)⟩⟩

/-- MLOAD's address faults: 64 modulo 128, and 2^55. -/
theorem witness_mload_faults : ∀ e ∈ [(64, 0), (0, 2 ^ 23)], let i : Instr := .mload ⟨.always, .imm 1, .g 2⟩
    let f (t : Thread) : Thread := regs [0, 0, e.1, e.2] t
    ready (one i f) i 0 (f (t0 1)) = true ∧ (plain (f (t0 1)) true (.g 2)).toNat = e.1 + 2 ^ 32 * e.2 := by decide

/-- The words of a record, the others 0. -/
def words (n : Nat) (l : List (Nat × Nat)) : List Byte :=
  (List.range n).flatMap (fun i => leBytes 4 ((l.find? (fun e => e.1 == i)).elim 0 (·.2)))

/-- Two states, stream 5; transition 0 from state 0 to 1 on class 7, transition 1 a timer from 1 to the accept that emits. -/
def pattern : List Byte := words 120
  [(0, 2 ^ 24 + 2 * 2 ^ 16 + 2), (1, 2 ^ 20), (2, 10), (4, 4), (5, 2), (6, 0x8000), (16, 5),
   (96, 2 ^ 31 + 2 ^ 20), (97, 2 ^ 32 - 2 ^ 16 + 7), (104, 2 ^ 31 + 2 ^ 30 + 2 ^ 24 + 2 ^ 20), (106, 2 ^ 31 + 3 * 2 ^ 27 + 5)]

def armed : Slot := { Slot.reset with own := true, st := 2, pat := pattern, cursors := [9] }
def queued : Queue := { Queue.reset with v := true, pool := [(9, [7, 33, 50, 0, 0, 0, 0, 0])], seq := 10 }

def automaton (x : Slot) (q : Queue) : State :=
  { inPart (fun p => { p with cquota := 4 }) with slots := [(1, x)], queues := [(5, q)], time := 1000 }

def unitOp (k : OpKind) (c : Cls) : Op := { op0 3 with cls := c, kind := k, n := 0 }

/-- AutomatonUnitActs: MARM of a loaded slot whose stream serves, of an armed one, of an empty one; MDIS and MSTAT; another's slot. -/
theorem witness_units : ∀ k ∈ [OpKind.marm 1, .mdis 1, .mstat 1 4 0, .mload 1 0x8000, .marm 2],
    let s := { automaton { armed with st := 1 } { queued with part := 0 } with ops := [unitOp k .st] }
    (t0 1).noReplay ∧ (unitOp k .st).held = none ∧ (unitOp k .st).cls ≠ .cp ∧ s.op? 3 = some (unitOp k .st)
      ∧ s.unitTurn (unitOp k .st) = true ∧ s.unperformed 0 3 = false ∧ s.thread? 0 = some (t0 1)
      ∧ (s.slot 1).own = true ∧ (s.slot 1).part.toNat = 0 ∧ (s.slot 2).own = false ∧ (s.slot 1).st = 1
      ∧ patSids (s.slot 1).pat = [5] ∧ (s.queue 5).v = true ∧ (s.queue 5).part = (s.slot 1).part ∧ (s.queue 5).cmode = false
      ∧ (s.queue 5).rcnt = 0 := by
  intro k hk
  refine ⟨no_replay rfl, ?_⟩
  revert k
  decide

/-- A valid record of 608 words at 0x8000, one word of it changed by `f`. -/
def holding (l : List (Nat × Nat)) : State :=
  let s := automaton { armed with st := 1 } queued
  { s with
    ops := [unitOp (.mload 1 0x8000) .st]
    mem := l.foldl (fun m e => Memory.writeN m (0x48000 + 4 * e.1) (leBytes 4 e.2)) s.mem }

/-- The record's words; transition 1 goes to state `q`. -/
def recordTo (q : Nat) : List (Nat × Nat) :=
  [(0, 2 ^ 24 + 2 * 2 ^ 16 + 2), (1, 2 ^ 20), (2, 10), (4, 4), (16, 5), (96, 2 ^ 31 + 2 ^ 20), (97, 2 ^ 32 - 2 ^ 16 + 7),
   (104, 2 ^ 31 + 2 ^ 30 + 2 ^ 24 + q * 2 ^ 20), (106, 2 ^ 31 + 3 * 2 ^ 27 + 5)]

/-- The record that MLOAD reads is valid or not, as `ok` says. -/
def loads (s : State) (ok : Bool) : Bool := match s.readPattern 0 1 0x8000 19 [] with
  | (s1, .inl p) => patternOk (s1.part 0) p == ok && s1.thread? 0 == some (t0 1)
  | _ => false

/-- AutomatonUnitActs: MLOAD of a valid record, and of one with a transition beyond its states. -/
theorem witness_mload : loads (holding (recordTo 1)) true = true := by decide +kernel

theorem witness_mload_turn : let s := holding []
    s.op? 3 = some (unitOp (.mload 1 0x8000) .st) ∧ s.unitTurn (unitOp (.mload 1 0x8000) .st) = true ∧ s.unperformed 0 3 = false := by decide

def cand0 : Cand := ⟨1, 0, 33, 40, 40, 40, 40, 0, 0, none, 40⟩

/-- AutomataTakeItems: an event that creates, one that passes, a timer, a watermark. -/
theorem witness_event : let s := automaton armed queued
    (s.slot 1).st = 2 ∧ (s.slot 1).saved = false ∧ (s.slot 1).held = none ∧ s.greqs = [] ∧ SMap.wf Slot.reset s.slots = true ∧ s.nextItem 1 = some (.event 50 5 9 [7, 33, 50, 0, 0, 0, 0, 0])
      ∧ patMatch (s.slot 1).pat 0 [7, 33, 50, 0, 0, 0, 0, 0] (fun _ => 0) = some 0 ∧ patMatch (s.slot 1).pat 0 [8, 33, 50, 0, 0, 0, 0, 0] (fun _ => 0) = none
      ∧ trCe (s.slot 1).pat 0 = false ∧ trAcc (s.slot 1).pat 0 = false ∧ s.poolRoom 1 = true := by decide

theorem witness_no_match : let s := automaton armed { queued with pool := [(9, [8, 33, 50, 0, 0, 0, 0, 0])] }
    s.nextItem 1 = some (.event 50 5 9 [8, 33, 50, 0, 0, 0, 0, 0]) ∧ (s.queue 5).rcnt = 0 ∧ (s.slot 1).cands = [] := by decide

theorem witness_timer : let s := automaton { armed with cands := [cand0] } { queued with pool := [] }
    s.nextItem 1 = some (.timer 45 0 1) ∧ (∀ c ∈ (s.slot 1).cands, c.expires (s.slot 1).pat 45 = false) ∧ trAcc (s.slot 1).pat 1 = false
      ∧ (s.slot 1).cands.find? (fun x => x.seq == 0) = some cand0 := by decide

theorem witness_watermark : let s := automaton armed { queued with pool := [] }
    (∀ o ∈ s.offers 1, o.isEmpty = true) ∧ s.nextItem 1 = none ∧ patLate (s.slot 1).pat ≤ s.time ∧ (s.slot 1).st = 2 := by decide

theorem witness_room_freed : let e : EvRec := [7, 33, 50, 0, 0, 0, 0, 0]
    let s := automaton { armed with st := 4, held := some ⟨.event 50 5 9 e, [], true, none, none⟩, cands := [{ cand0 with seq := 3 }] } queued
    (s.slot 1).held = some ⟨.event 50 5 9 e, [], true, none, none⟩ ∧ s.poolRoom 1 = true ∧ SMap.wf Slot.reset s.slots = true
      ∧ patMatch (s.slot 1).pat 0 e (fun _ => 0) = some 0 ∧ (∀ c ∈ (s.slot 1).cands, c.seq ≠ (s.slot 1).nextSeq) := by decide

theorem witness_emit_accepted : let e : EvRec := [7, 33, 50, 0, 0, 0, 0, 0]
    let s0 := automaton { armed with st := 5, held := some ⟨.event 50 5 9 e, [], false, some (.emit 0 6 e), none⟩, cands := [cand0] } queued
    let s := { s0 with queues := [(5, queued), (6, { que 0 4 with stalled := [.inr 1] })] }
    (s.slot 1).held = some ⟨.event 50 5 9 e, [], false, some (.emit 0 6 e), none⟩ ∧ (s.queue 6).v = true
      ∧ (s.queue 6).part = (s.slot 1).part ∧ (s.queue 6).stalled = [.inr 1] ∧ (s.queue 6).cmode = true
      ∧ (s.queue 6).held = false ∧ s.admits 6 = true ∧ (s.queue 5).rcnt = 0 := by decide

theorem witness_move : let s := automaton { armed with cands := [cand0] } queued
    (s.slot 1).spillRoom = some 0 ∧ (s.slot 1).cands.find? (fun x => x.seq == 0) = some cand0
      ∧ (match (s.slotAccess 1 (patSbase (s.slot 1).pat + 64 * 0) 64 (some cand0.bytes) 3).2 with
        | .ok _ => true
        | .error _ => false) = true := ⟨by decide, by decide, by decide⟩

/-! Counters, amber, boost (15, 13) -/

/-- CounterWordsResults: WAIT with counters at its limits; CNTR and AMB. -/
theorem witness_counters : Takes (one (.wait ⟨.always, 2, 63, 0, 0⟩) (fun t => { t with cnt := ⟨2, 9, 0, 0⟩ })) (.wait ⟨.always, 2, 63, 0, 0⟩) 0
      { t0 1 with cnt := ⟨2, 9, 0, 0⟩ }
    ∧ Takes (one (.cntr ⟨.always, .g 4⟩) id) (.cntr ⟨.always, .g 4⟩) 0 (t0 1) ∧ Takes (one (.amb ⟨.always, .g 4⟩) id) (.amb ⟨.always, .g 4⟩) 0 (t0 1) :=
  ⟨takes_of (by decide), takes_of (by decide), takes_of (by decide)⟩

/-- BoostLeases: the leader with another lane beside it, and that lane. -/
theorem witness_boost : let x : F1 := ⟨.always, .g 4, .imm 5⟩
    let s := crew 2 (.boost x) (fun _ => id)
    Takes s (.boost x) 1 { t0 2 with lane := 1, plane := 1 } ∧ Takes s (.boost x) 0 (t0 2) ∧ (s.gridOf (t0 2)).isSome
      ∧ s.issueSet (.boost x) = [0, 1] ∧ s.thread? 1 = some { t0 2 with lane := 1, plane := 1 } ∧ still s (.boost x) = true
      ∧ ∀ b, (s.laneAt 0 (t0 2) b).src32 0 (.imm 5) = 5 :=
  ⟨takes_of (by decide), takes_of (by decide), by decide, by decide, by decide, by decide, fun _ => src32_eq (by decide)⟩

theorem witness_refill : let s := { inPart (fun p => { p with quanta := [(3, ⟨true, 7, 1, 0, 9⟩)], lease := [(7, 0)] }) with time := 1000000 }
    s.refill + 1000000 ≤ s.time ∧ (s.part 0).quanta.filter (fun q => q.2.v && q.2.ctx == 7) = [(3, ⟨true, 7, 1, 0, 9⟩)]
      ∧ SMap.find? (s.part 0).lease 7 = some 0 := by decide

/-- AmberAndArbitration: a revolution due with no needy core, and with one; one not due; an operation of 4096 cycles. -/
theorem witness_amber : let s0 := one (.mma mmaArg) id
    let s := { s0 with groves := [(0, { GroveSt.reset with cycle := 24, needy := [(0, 0)] }), (1, { GroveSt.reset with cycle := 4096 }), (2, { GroveSt.reset with cycle := 23 })]
                       cores := [(0, { CoreSt.reset with pool := 0 })] }
    (s.grove 1).lastRev + 24 ≤ (s.grove 1).cycle ∧ (s.grove 1).cfgNext = none ∧ (s.grove 1).needy = [] ∧ (s.grove 0).needy = [(0, 0)]
      ∧ (s.grove 0).lastRev + 24 ≤ (s.grove 0).cycle ∧ (s.grove 0).cfgNext = none ∧ s.wantsAmber 0 0 = true ∧ (s.core 0).resv = none
      ∧ (s.core 0).pool ≤ 64 ∧ (s.grove 2).cycle < (s.grove 2).lastRev + 24 := by decide +kernel

theorem witness_escalation : let o := { op0 0 with arb := 1 }
    let s := { pending o with groves := [(0, { GroveSt.reset with cycle := 4096 })] }
    s.op? 0 = some o ∧ o.arb ≠ 0 ∧ o.since + 4096 ≤ s.cycleOf 0 := by decide

/-! Traps, pair and literal words (16, 03) -/

theorem witness_traps : Takes (one (.trap ⟨.always, 255, .imm 0⟩) id) (.trap ⟨.always, 255, .imm 0⟩) 0 (t0 1)
    ∧ Takes (one (.brk ⟨.always, 0⟩) id) (.brk ⟨.always, 0⟩) 0 (t0 1) := ⟨takes_of (by decide), takes_of (by decide)⟩

/-- TrapWordsTakeTheirCodes: the last block of the region, one misaligned, one just past it. -/
theorem witness_serv : ∀ a ∈ [896, 904, 912], let x : ServArg := ⟨.always, .g 0, .imm 1⟩
    let s := one (.serv x) (regs [a])
    Takes s (.serv x) 0 (regs [a] (t0 1)) ∧ (∃ m, s.team? 0 = some m ∧ m.argp = 0 ∧ m.region = 1024)
      ∧ ∀ b, (s.laneAt 0 (regs [a] (t0 1)) b).src 0 false (.g 0) = BitVec.ofNat 64 a := by
  intro a ha
  simp only [List.mem_cons, List.not_mem_nil, or_false] at ha
  rcases ha with rfl | rfl | rfl <;> exact ⟨takes_of (by decide), ⟨_, rfl, rfl, rfl⟩, fun _ => src_eq (by decide)⟩

/-- PairAndLiteralResults. -/
theorem witness_pairs : ∀ k ∈ [HalfOp.cmp .lts 3 0 1, .una .neg (.g 2) (.g 1), .two .shl (.g 0) (.g 1), .split .fadd (.g 5) 0 1, .bra (-1),
      .ret, .ld false .s (.g 4) (.g 0)], ∀ g ∈ [none, some (3 : Fin 7)],
    let i : Instr := .pairFormWord ⟨none, .two .add (.g 0) (.g 1)⟩ ⟨g, k⟩
    g = none → ready (one i (regs [8, 16])) i 0 (regs [8, 16] (t0 1)) = true := by decide

theorem witness_pair_load : let i : Instr := .pairFormWord ⟨none, .two .add (.g 1) (.g 1)⟩ ⟨none, .ld false .s (.g 4) (.g 0)⟩
    Takes (addressed i 8) i 0 (tAt 8) ∧ ∀ b, ((addressed i 8).laneAt 0 (tAt 8) b).src 0 false (.g 0) = 8
      ∧ ∃ p, ((addressed i 8).laneAt 0 (tAt 8) b).reaches .s 8 4 .read p :=
  ⟨takes_of (by decide), fun _ => ⟨src_eq (by decide), .scr 0 8 false, by with_unfolding_all rfl, [], by with_unfolding_all rfl⟩⟩

theorem witness_literals : ∀ o ∈ [LitOp.bin .sar true (.g 2) (.g 0) 0xFFFFFFFF, .cmp .gez 1 (.g 0) 0, .una .not false (.g 2) 1, .bra 0xFFFFFFF8,
      .ld true .s (.g 4) (.g 0) 1016, .st true true (.g 2) (.g 0) 1016],
    let i : Instr := .literalFormWord ⟨none, o⟩
    ready (addressed i 0) i 0 (tAt 0) = true := by decide

theorem witness_literal_access : let i : Instr := .literalFormWord ⟨none, .st true true (.g 2) (.g 0) 1016⟩
    ∀ b, ((addressed i 0).laneAt 0 (tAt 0) b).src32 0 (.g 0) = 0
      ∧ (∃ p, ((addressed i 0).laneAt 0 (tAt 0) b).reaches .s 1016 8 .read p) ∧ ∃ p, ((addressed i 0).laneAt 0 (tAt 0) b).reaches .s 1016 8 .write p := by
  intro i b
  refine ⟨src32_eq ⟨rfl, rfl⟩, ⟨.scr 0 1016 false, by with_unfolding_all rfl, [], by with_unfolding_all rfl⟩, .scr 0 1016 false, by with_unfolding_all rfl, [],
    by with_unfolding_all rfl⟩

/-! Parks, records, replies (16, 14) -/

def parkOf (code : BitVec 8) (d : Option Defer) : Park := ⟨code, 0, 0, 64, 0, d, false, none⟩
def tp (p : Park) : Thread := { t0 1 with st := .parked, park := some p }

/-- Lane 0 parked under record 3 of core 0, its command mask set. -/
def parkedFor (p : Park) : State :=
  { one (.nop ⟨.always⟩) (fun t => { t with st := .parked, park := some p }) with
    cores := [(0, { CoreSt.reset with pkcmdm := 1, recs := [(3, ⟨false, p.code, 0, 0, 0, 0, [0]⟩)] })] }

theorem witness_command_mask (p : Park) : ((parkedFor p).core 0).pkcmdm.getLsbD 0 = true := by
  show (1 : BitVec 512).getLsbD 0 = true
  simp

def deferredLoad : Defer := ⟨0x13, 0, 0x8000, .ld, [4], { op0 0 with va := 0x8000, marks := [4] }⟩

/-- The code of the word where a thread stands, and whether it is a collective or matrix word. -/
def standsAt (s : State) (k : Nat) (t : Thread) : Bool := match s.wordAtPc k t with
  | none => false
  | some (_, i) => !collectiveWord i && (quarterWord i).isNone

/-- ParkedThreadsResume: a fault, a service, a deferred load; the command mask and the record name the lane. -/
theorem witness_parked : ∀ p ∈ [parkOf 0x11 none, parkOf 0x63 none, parkOf 0x13 (some deferredLoad)],
    let s := parkedFor p
    s.thread? 0 = some (tp p) ∧ ((s.core 0).recs.find? 3).map (fun r => (r.mask, r.code)) = some ([0], p.code)
      ∧ standsAt s 0 (tp p) = true ∧ (tp p).cnt.ld < 63 ∧ s.againFault (deferredLoad.op.afresh (s.cycleOf 0)) = none ∧ 0 = 0 * 512 + (s.core 0).pksel.toNat ∧ s.regsOf 0 = 256 ∧ alone s 0 = true := by decide

theorem witness_view_of_another : let s := one (.nop ⟨.always⟩) id
    s.thread? 0 = some (t0 1) ∧ (t0 1).st ≠ .parked ∧ 0 = 0 * 512 + (s.core 0).pksel.toNat := by decide

def record4 : FRec := ⟨[4], 4, 0x11, 8, true, 0, none, true, true, [], 0⟩

/-- RecordsAndRepliesResolve: a record that holds a load, and one for which a lane is parked. -/
theorem witness_record : let s := { inPart (fun p => { p with frecs := [record4] }) with ops := [{ op0 7 with held := some 4 }] }
    (s.part 0).frecs = [record4] ∧ record4.idx = (4 : BitVec 32).toNat ∧ record4.pending = true ∧ record4.rep = true ∧ record4.written = true
      ∧ s.queues = [] ∧ s.slots = [] ∧ s.canops = [] ∧ s.redparts = [] ∧ (s.part 0).slHeld = none ∧ s.lds = []
      ∧ (∀ e ∈ s.teams, e.2.rbHeld = none) ∧ (s.part 0).swapHeld = none ∧ (t0 1).noReplay
      ∧ s.op? 7 = some { op0 7 with held := some 4 } ∧ (s.ops.map (·.id)).Nodup ∧ s.thread? 0 = some (t0 1) ∧ (t0 1).park = none :=
  ⟨by decide, by decide, by decide, by decide, by decide, by decide, by decide, by decide, by decide, by decide, by decide, by decide,
    by decide, no_replay rfl, by decide, by decide, by decide, by decide⟩

theorem witness_parked_record : let q := { parkOf 0x11 none with frec := some 4 }
    let s := { parkedFor q with parts := [(0, { probePart with frecs := [record4] })] }
    s.ops = [] ∧ (s.threads.map (·.1)).Nodup ∧ s.thread? 0 = some (tp q) ∧ s.partOf 0 = 0 := by decide

/-- A reply for plane 0 of grid 1 of context 0, with a lane detached at a block at 896; and one for a grid that is none. -/
theorem witness_reply : let q := { parkOf 0x63 none with va := 896, svc := true }
    let s0 := one (.nop ⟨.always⟩) (fun t => { t with st := .parked, park := some q })
    let s := { s0 with parts := [(0, { probePart with svdata := List.replicate 64 7 })] }
    let v : DWord := 0x10000
    s.thread? 0 = some (tp q) ∧ (tp q).plane = (v.extractLsb' 0 9).toNat
      ∧ (∃ m g, s.team? 0 = some m ∧ m.index = ((s.part 0).svteam.extractLsb' 0 32).toNat ∧ m.grid = 0 * 2 ^ 32 + (v.extractLsb' 16 32).toNat
        ∧ s.grid? m.grid = some g ∧ g.ctx = v.extractLsb' 48 16)
      ∧ q.va.toNat < 2 ^ 18 ∧ (s.part 0).svdata.length = 64 ∧ s.threads.length = 1
      ∧ s.grid? (0 * 2 ^ 32 + ((0x20000 : DWord).extractLsb' 16 32).toNat) = none ∧ (s.part 0).images = [] :=
  ⟨by decide, by decide, ⟨_, _, rfl, by decide, by decide, rfl, by decide⟩, by decide, by decide, by decide, by decide, by decide⟩

/-! Translation tables (14) -/

/-- TranslationsFollow: an invalidation with an operation outside its range, and one that waits. -/
theorem witness_tlbi : let p := { probePart with tlbi := BitVec.ofNat 64 (4 * 2 ^ 57 + 0x10), tlbBusy := true }
    let s := { one (.nop ⟨.always⟩) id with
      parts := [(0, p), (1, probePart)], ops := [{ op0 0 with place := .dev 0x48000 0 false 0 false, va := 0x8000 }], tlb := [⟨0, 0, 0x10000, 16, 0⟩, ⟨0, 1, 0, 16, 0⟩] }
    (s.part 0).tlbBusy = true ∧ (s.part 0).frecs = [] ∧ (s.part 0).tlbQ = [] ∧ (s.part 1).tlbBusy = false
      ∧ (∀ o ∈ s.ops, o.va.toNat + max 1 o.n ≤ 0x10000)
      ∧ (s.part 0).tlbi.toNat % 2 ^ 43 / 2 ^ 4 * 2 ^ 16 = 0x10000 ∧ ((s.part 0).tlbi.extractLsb' 57 6).toNat = 4 := by decide

theorem witness_completion : let t : Thread := { t0 1 with hold := .xlate 8 }
    let s0 := one (.nop ⟨.always⟩) (fun _ => t)
    let s := { s0 with xreqs := [⟨0, 0, 8, false, [(.lane 0, false)]⟩, ⟨0, 0, 9, true, []⟩] }
    s.xreqs.find? (fun x => x.ld == 0 && x.pasid == 0 && x.vpn == 8) = some ⟨0, 0, 8, false, [(.lane 0, false)]⟩
      ∧ s.xreqs.find? (fun x => x.ld == 0 && x.pasid == 0 && x.vpn == 9) = some ⟨0, 0, 9, true, []⟩
      ∧ s.thread? 0 = some t ∧ s.ldOf (s.partOf 0) = 0 ∧ ((s.part (s.partOf 0)).trc.extractLsb' 43 20).toNat = 0 := by decide

/-- TranslationsFollow: an answer that grants reads alone, to waiters of both kinds and to a reader alone; and one that grants both. -/
theorem witness_partial_answer : let t : Thread := { t0 1 with hold := .xlate 8 }
    let s0 := one (.nop ⟨.always⟩) (fun _ => t)
    let both : XReq := ⟨0, 0, 8, false, [(.lane 0, false), (.lane 1, true)]⟩
    let reads : XReq := ⟨0, 0, 8, false, [(.lane 0, false)]⟩
    ∀ x ∈ [both, reads], State.xreqs { s0 with xreqs := [x] } = [x] ∧ x.stale = false ∧ (Asker.lane 0, false) ∈ x.waiters
      ∧ (Asker.lane 0, true) ∉ x.waiters ∧ ((∃ q ∈ x.waiters, q.2 = true) ∨ ∀ q ∈ x.waiters, q.2 = false) ∧ s0.thread? 0 = some t := by decide

theorem witness_invalidation : let s := { pending (op0 0) with
      ops := [{ op0 0 with place := .later }, { op0 9 with place := .host 3 0 }], lds := [(3, { LDev.reset with invs := [[9], [0], [5]] })] }
    (s.ld 3).invs = [[9]] ++ [0] :: [[5]] ∧ (∀ q ∈ [[9]], ∃ o ∈ s.ops, o.id ∈ q ∧ o.place ≠ .later)
      ∧ ∀ o ∈ s.ops, o.id ∉ [0] ∨ o.place = .later := by decide

theorem witness_pri : let s := inPart (fun p => { p with priPend := [511] })
    510 < (s.ld (s.ldOf 0)).priAlloc ∧ (State.ld { s with lds := [(0, { LDev.reset with priAlloc := 8 })] } (s.ldOf 0)).priAlloc ≤ 8
      ∧ 511 ∈ (s.part 0).priPend ∧ 510 ∉ (s.part 0).priPend ∧ ((BitVec.ofNat 64 (511 * 2 ^ 43)).extractLsb' 43 9).toNat = 511 := by decide

/-- Heat on, with the last line of its table and the line of that line's epoch resident. -/
theorem witness_sweep : let l : L2Line := ⟨List.replicate 128 16, false, false, .none, 0, ⟨KeyEnt.blank, 0, 0⟩, 0, false⟩
    let p := { probePart with htc := BitVec.ofNat 64 (2 ^ 63 + 4 * 2 ^ 12) }
    let s0 := inPart (fun _ => p)
    let s := { s0 with
      l2 := (SMap.put (SMap.put [] (s0.l2Key (Acc.plain 0 (0 + 128 * 0x2FFFF))) l) (s0.l2Key (Acc.plain 0 (0 + 0x1800000 + 2 * 0x2FFFF))) l), time := 5000000 }
    (s.part 0).htc.getLsbD 63 = true ∧ (s.part 0).heatLost = false ∧ (s.part 0).htc.toNat / 2 ^ 25 % 2 ^ 27 * 2 ^ 25 = 0 ∧ SMap.sortedFrom none s.l2 = true
      ∧ (s.l2.find? (s.l2Key (Acc.plain 0 (0 + 128 * 0x2FFFF)))).isSome ∧ (s.l2.find? (s.l2Key (Acc.plain 0 (0 + 0x1800000 + 2 * 0x2FFFF)))).isSome
      ∧ probePart.htc.getLsbD 63 = false := by decide

/-! Scheduling tables and the commands of the control window (13) -/

/-- A launch record that binds, at 0x50000; `v` is its version. -/
def bindable (v : Nat) (f : Partition → Partition) : State :=
  let s := inPart (fun p => f { p with lbaddr := 0x50000 })
  { s with mem := Memory.writeN (Memory.writeN s.mem 0x50000 (leBytes 4 (v * 2 ^ 24 + 32 * 2 ^ 18 + 2 ^ 8))) 0x50020 (leBytes 4 256) }

def bindsAs (s : State) (c : Nat) : Bool := bindCode (s.part 0).groveList.length (s.physBytes 0 ((s.part 0).lbaddr.toNat % 2 ^ 52) 128) == c

/-- LaunchTableCommands: a binding, another version; a handle unbound, in use, and none. -/
theorem witness_bind : bindsAs (bindable 1 id) 0 = true ∧ ((bindable 1 id).part 0).ltab = [] ∧ bindsAs (bindable 2 id) 1 = true := by decide +kernel

theorem witness_unbind : let e : LEntry := ⟨record 1 0 0 0 128 [], true, 5, 0, 0⟩
    let s := inPart (fun p => { p with ltab := [(7, e)], lbaddr := 0x5007 })
    let p : List Byte := words 120 [(0, 1), (96, 2 ^ 31 + 2 ^ 29), (101, 0x5007)]
    let u := { s with slots := [(1, { Slot.reset with st := 5, pat := p })] }
    ((s.part 0).named ((s.part 0).lbaddr.setWidth 32)).isSome = true ∧ s.handleInUse 0 0x5007 = false ∧ u.handleInUse 0 0x5007 = true
      ∧ (0x5007 : BitVec 32) ∈ patHandles (u.slot 1).pat ∧ (s.part 0).named 0x6007 = none := by decide

/-- SlotCommandsAct: a slot loaded whose stream serves; an argument at 64 modulo 128, one at 2^55; another partition's slot; BUSY. -/
theorem witness_slot_commands : let s (arg : DWord) (x : Slot) := { automaton x queued with parts := [(0, { probePart with slarg := arg })] }
    let x := { armed with st := 1, cursors := [] }
    ((s 0 x).slot 1).st = 1 ∧ ((s 0 x).part 0).slBusy = false ∧ x.part.toNat = 0 ∧ patSids x.pat = [5] ∧ ((s 0 x).queue 5).v = true
      ∧ ((s 0 x).queue 5).part = x.part ∧ ((s 0 x).queue 5).cmode = false ∧ ((s 0 x).queue 5).mtch = 0 ∧ ((s 0 x).queue 5).rcnt = 0
      ∧ ((s 64 x).part 0).slarg.toNat % 128 ≠ 0 ∧ ((s (2 ^ 55) x).part 0).slarg.toNat % 128 = 0 ∧ 2 ^ 55 ≤ ((s (2 ^ 55) x).part 0).slarg.toNat
      ∧ 1 < ((s 0 armed).slot 1).st ∧ ((s 0 { x with part := 1 }).slot 1).part.toNat ≠ 0 := by decide

theorem witness_slot_busy : let s := inPart (fun p => { p with slBusy := true, slcmd := 5 })
    (s.part 0).slBusy = true ∧ (s.part 0).slcmd ≠ BitVec.ofNat 64 (0 * 2 ^ 62 + 4095) := by decide

/-- SLCMD's MLOAD reads a record. -/
theorem witness_slot_mload : let s0 := holding (recordTo 1)
    let s := { s0 with parts := [(0, { probePart with cquota := 4, slarg := 0x8000 })] }
    loads s true = true := by decide +kernel

/-- QuantaAndVacate: two contexts, the quantum over; one context; not over; a team on the last core named. -/
theorem witness_quanta : let q := (⟨true, 7, 2, 3, 9⟩ : QEntry)
    let two := inPart (fun p => { p with resident := some 7, chosen := 5, quanta := [(2, ⟨true, 0, 1, 3, 1⟩), (5, q)] })
    let s := { two with time := 2000 }
    (s.part 0).resident = some 7 ∧ ((s.part 0).quanta.get QEntry.reset 5).ctx = 7 ∧ ((s.part 0).quanta.get QEntry.reset 2).ctx ≠ 7
      ∧ (∀ i < 8, ((s.part 0).quanta.get QEntry.reset i).v = true ↔ i = 5 ∨ i = 2) ∧ (s.part 0).chosen = 5
      ∧ (s.part 0).quantStart + max 1 q.quant.toNat * 1000 ≤ s.time ∧ s.ctxHasGrid 0 0 = true ∧ q.prio ≤ 3 := by decide

theorem witness_one_quantum : let s := inPart (fun p => { p with resident := some 7, chosen := 5, quanta := [(5, ⟨true, 7, 0, 3, 9⟩)] })
    (∀ i < 8, ((s.part 0).quanta.get QEntry.reset i).v = true ↔ i = 5) ∧ (s.part 0).chosen = 5 ∧ (s.part 0).quantStart + max 1 0 * 1000 ≤ { s with time := 1000 }.time
      ∧ { s with time := 999 }.time < (s.part 0).quantStart + max 1 0 * 1000 := by decide

/-- QuantaAndVacate: the resident entry cleared, or given to another context. -/
theorem witness_entry_cleared : ∀ q ∈ [(⟨false, 7, 2, 3, 9⟩ : QEntry), ⟨true, 8, 2, 3, 9⟩],
    let s := inPart (fun p => { p with resident := some 7, chosen := 5, quanta := [(2, ⟨true, 7, 0, 3, 9⟩), (5, q)] })
    (s.part 0).resident = some 7 ∧ (s.part 0).chosen = 5
      ∧ (((s.part 0).quanta.get QEntry.reset 5).v = false ∨ ((s.part 0).quanta.get QEntry.reset 5).ctx ≠ 7) := by decide

theorem witness_vacate : let s := one (.nop ⟨.always⟩) id
    (s.part 0).groveList[((1 : DWord).extractLsb' 48 5).toNat]? = some 0 ∧ (1 : DWord).getLsbD 0 = true ∧ (s.team? 0).isSome
      ∧ s.teams.all (fun e => e.2.core == 0 && e.2.moving.isNone && !e.2.leaving) = true := by decide

/-! Saves and rollback (16) -/

def leavers (f : Team → Team) : State :=
  let s := one (.nop ⟨.always⟩) id
  { s with teams := s.teams.map (fun e => (e.1, f e.2)) }

/-- TeamsAndContextsSaveAndReturn: a team to leave. -/
theorem witness_team_save : let s := leavers (fun m => { m with leaving := true })
    ∃ m, s.team? 0 = some m ∧ m.leaving = true ∧ m.ckpt = false ∧ m.rbDue = false ∧ s.teamBusy m = false ∧ s.partOfCore m.core = some 0
      ∧ m.n = 1 ∧ (∀ j < m.n, (s.thread? (m.core * 512 + m.first + j)).isSome = true)
      ∧ s.thread? (m.core * 512 + m.first + 0) = some (t0 1) ∧ (t0 1).st ≠ .spawned :=
  ⟨_, rfl, rfl, rfl, rfl, by decide, by decide, rfl, by decide, by decide, by decide⟩

def away : TeamImg := ⟨4, Team.placed 1 0 0 0 1 0 128 [], [t0 1], List.replicate 128 3, [], [0], [], []⟩

/-- One team in its image, and room for it. -/
def absent (f : Partition → Partition) : State :=
  { inPart f with teams := [], threads := [] }

theorem witness_team_restore : let s := absent (fun p => { p with teamImgs := [away] })
    (s.nextRestore 0).map (fun e => (e.1.id, e.2.core)) = some (4, 0) ∧ away.threads[0]? = some (t0 1) ∧ away.threads.length = away.team.n := by
  decide

/-- A context that leaves: with a team, with none; one that comes: with no image, with one, at its end. -/
theorem witness_context_save : let s := inPart (fun p => { p with resident := none, swap := some (0, false) })
    ∃ m g, (s.part 0).swap = some (0, false) ∧ (s.part 0).swapHeld = none ∧ s.team? 0 = some m ∧ s.grid? m.grid = some g ∧ g.part = 0
      ∧ g.ctx = 0 ∧ s.autosOf 0 0 = [] := ⟨_, _, rfl, rfl, rfl, rfl, rfl, rfl, rfl⟩

theorem witness_context_gone : let s := absent (fun p => { p with resident := none, swap := some (0, false) })
    (s.part 0).swap = some (0, false) ∧ (s.part 0).swapHeld = none ∧ s.teams = [] ∧ s.autosOf 0 0 = [] := by decide

def ctxImg : CtxImg := ⟨0, 5, some 7000, 3, [(1, { Grid.ofRecord 1 0 (record 1 0 0 0 128 []) 0 0 with next := 1 })], [away], []⟩

theorem witness_context_restore : let s := absent (fun p => { p with resident := none })
    let i := absent (fun p => { p with resident := none, images := [ctxImg] })
    let e := absent (fun p => { p with resident := none, swap := some (0, true), images := [ctxImg] })
    (s.part 0).resident = none ∧ s.chooseEntry 0 = some 0 ∧ ((s.part 0).quantum 0).ctx = 0 ∧ (s.part 0).images = []
      ∧ i.chooseEntry 0 = some 0 ∧ (i.part 0).images.find? (fun x => x.ctx == 0) = some ctxImg ∧ (ctxImg.grids.map (·.1)).Nodup
      ∧ (e.part 0).swap = some (0, true) ∧ (e.part 0).swapHeld = none ∧ (e.nextRestore 0).isNone ∧ ctxImg.autos = [] := by decide

/-- IntervalsRollBack: a checkpoint due, a rollback due, one that cannot be. -/
theorem witness_checkpoint : let s := leavers (fun m => { m with seg := some 3, ckpt := true })
    ∃ m g, s.team? 0 = some m ∧ m.seg = some 3 ∧ m.ckpt = true ∧ s.teamIdle m = true ∧ s.partOfCore m.core = some 0 ∧ s.grid? m.grid = some g
      ∧ m.n = 1 ∧ (∀ k < m.n, (s.thread? (m.core * 512 + m.first + k)).isSome = true)
      ∧ s.thread? (m.core * 512 + m.first + 0) = some (t0 1) :=
  ⟨_, _, rfl, rfl, rfl, by decide, by decide, rfl, rfl, by decide, by decide⟩

theorem witness_rollback : let s0 := leavers (fun m => { m with seg := some 3, rbDue := true, recov := true })
    let s := { s0 with parts := [(0, { probePart with shadows := [(3, away)] })] }
    ∃ m, s.team? 0 = some m ∧ m.seg = some 3 ∧ m.rbDue = true ∧ m.recov = true ∧ m.rolled = false ∧ m.rbHeld = none ∧ s.teamIdle m = true
      ∧ (∀ e ∈ (s.part 0).rlogs.get [] 3, e.comp = false) ∧ s.partOfCore m.core = some 0 ∧ SMap.find? (s.part 0).shadows 3 = some away ∧ away.threads[0]? = some (t0 1) :=
  ⟨_, rfl, rfl, rfl, rfl, rfl, rfl, by decide, by decide, by decide, rfl, by decide⟩

theorem witness_no_rollback : let s := leavers (fun m => { m with seg := some 3, rbDue := true })
    ∃ m g, s.team? 0 = some m ∧ m.seg = some 3 ∧ m.rbDue = true ∧ m.rbHeld = none ∧ m.recov = false ∧ s.partOfCore m.core = some 0 ∧ s.grid? m.grid = some g
      ∧ g.part = 0 := ⟨_, _, rfl, rfl, rfl, rfl, rfl, by decide, rfl, rfl⟩

/-! The mailbox (17) -/

/-- Logical device 2 of partitions 0 and 3, with a command and its request. -/
def mailed (req : List Byte) (f : State → State) : State :=
  f { one (.nop ⟨.always⟩) id with lds := [(2, { LDev.reset with v := true, go := true, parts := 9, bar := Memory.writeN [] 0x100 req })] }

def asked (s : State) (off n : Nat) : Nat := bytesNat (Memory.readN (s.ld 2).bar (0x100 + off) n)

/-- MailboxCommands: votes for a partition of the device and for another; a state; a context to kill. -/
theorem witness_votes : let s := mailed [9, 0, 0, 0, 5] id
    let o := mailed [8, 1, 0, 0, 5] id
    (s.ld 2).v = true ∧ (s.ld 2).go = true ∧ (s.ld 2).mbHeld = none ∧ s.dev.powered = true ∧ s.dev.state ≠ 4 ∧ s.dev.state ≠ 5
      ∧ (∀ p < 32, (asked s 0 4).testBit p = true → (s.ld 2).parts.getLsbD p = true)
      ∧ ∃ p < 32, (asked o 0 4).testBit p = true ∧ ¬ (o.ld 2).parts.getLsbD p = true := by decide

/-- MailboxActs: a queue in which a host's append is held at the unit, of a partition that the logical device does not reach. -/
theorem witness_held_append : let s0 := mailed [9, 0, 0, 0, 5] id
    let s : State := { s0 with queues := [(5, { Queue.reset with v := true, hostq := [[1]] })], lds := s0.lds.map (fun e => (e.1, { e.2 with parts := 8 })) }
    ∀ e ∈ s.queues, e.2.hostq ≠ [] ∧ s.reaches 2 e.1 = false := by decide

theorem witness_states : ∀ r ∈ [0, 1, 2, 3], let s := mailed [BitVec.ofNat 8 r] id
    s.dev.state.toNat < 4 ∧ SMap.sortedFrom none s.lds = true ∧ asked s 0 1 = r := by decide

/-- BIND's request: a record, the partition, the context. -/
def bindReq (p : Byte) : List Byte := leBytes 4 (2 ^ 24 + 32 * 2 ^ 18 + 2 ^ 8) ++ List.replicate 28 0 ++ leBytes 4 256 ++ List.replicate 92 0 ++ [p, 0, 7, 0]

theorem witness_mail_bind : let s := mailed (bindReq 3) id
    asked s 128 1 = 3 ∧ (s.ld 2).parts.getLsbD 3 = true ∧ ((s.part 3).lentry 4095).b = false
      ∧ bindCode (s.part 3).groveList.length (Memory.readN (s.ld 2).bar 0x100 128) = 0 ∧ asked (mailed (bindReq 4) id) 128 1 = 4
      ∧ (s.ld 2).parts.getLsbD 4 = false := by decide +kernel

theorem witness_mail_unbind : let s := mailed [7, 0x50, 0, 0] (fun s => { s with parts := [(0, { probePart with ltab := [(7, boundEntry)] })] })
    asked s 0 4 = (0x5007 : BitVec 32).toNat ∧ ((s.part 0).named 0x5007).isSome = true ∧ s.handleInUse 0 0x5007 = false
      ∧ ((mailed [] id).part 0).named 0x5007 = none ∧ ((mailed [] id).part 3).named 0x5007 = none := by decide

/-- QSET of the last stream with V, MIN and CAP 1; MIN above CAP. -/
theorem witness_qset : let s := mailed (List.replicate 24 0 ++ leBytes 8 (2 ^ 63 + 3 * 2 ^ 58 + 2 ^ 35 + 2 ^ 17) ++ leBytes 4 147455) id
    let w : DWord := BitVec.ofNat 64 (asked s 24 8)
    let b := mailed (List.replicate 24 0 ++ leBytes 8 (2 ^ 63 + 2 ^ 35) ++ leBytes 4 147455) id
    asked s 32 4 = 147455 ∧ (s.queue 147455).v = false ∧ w.getLsbD 63 = true ∧ (s.ld 2).parts.getLsbD (w.extractLsb' 58 5).toNat = true
      ∧ (s.queue 147455).pool = [] ∧ w.extractLsb' 35 18 ≤ w.extractLsb' 17 18 ∧ s.queues = []
      ∧ (BitVec.ofNat 64 (asked b 24 8)).extractLsb' 17 18 < (BitVec.ofNat 64 (asked b 24 8)).extractLsb' 35 18 := by decide

theorem witness_qtab : let s (l : List Byte) := mailed l id
    asked (s [3, 7, 0, 0, 0, 0, 0, 0, 0, 0, 16, 0, 0, 0, 0, 0x80]) 1 1 = 7 ∧ asked (s [3, 8]) 1 1 = 8 ∧ asked (s [4]) 0 1 = 4
      ∧ (BitVec.ofNat 64 (asked (s [3, 7, 0, 0, 0, 0, 0, 0, 0, 0, 16, 0, 0, 0, 0, 0x80]) 8 8)).extractLsb' 0 18 = 0
      ∧ (BitVec.ofNat 64 (asked (s [3, 7, 0, 0, 0, 0, 0, 0, 1]) 8 8)).extractLsb' 0 18 ≠ 0 := by decide

theorem witness_recovery : let s := mailed [] (fun s => { s with dev := { s.dev with state := 5 } })
    (s.ld 2).v = true ∧ (s.ld 2).go = true ∧ (s.ld 2).mbHeld = none ∧ s.dev.powered = true ∧ s.dev.state = 5 := by decide

def mailSlots (op : Byte) : State := mailed ([op, 0, 0, 0] ++ leBytes 4 4095 ++ leBytes 8 0x8000)
  (fun s => { s with slots := [(4094, { armed with st := 1, part := 1 }), (4095, { armed with st := 1 })], queues := [(5, queued)] })

/-- MailboxSlotCommands: the last slot of the device's, and one of another partition. -/
theorem witness_mail_slot : ∀ op ∈ [0, 1, 2, 3], let s := mailSlots (BitVec.ofNat 8 op)
    asked s 0 1 = op ∧ asked s 4 4 = 4095 ∧ asked s 8 8 = 0x8000 ∧ (s.slot 4095).own = true ∧ (s.ld 2).parts.getLsbD (s.slot 4095).part.toNat = true
      ∧ (s.slot 4095).st = 1 ∧ patSids (s.slot 4095).pat = [5] ∧ (s.queue 5).v = true ∧ (s.queue 5).cmode = false ∧ (s.queue 5).rcnt = 0
      ∧ (s.slot 4094).own = true ∧ (s.ld 2).parts.getLsbD (s.slot 4094).part.toNat = false := by decide

/-! Power, bring-up, tables (17) -/

/-- PowerFollows: a rail on its way up, settled below its clock's goal, on its way down. -/
theorem witness_rails : let s := { State.reset with rails := [(0, ⟨1, 1, 3, some 20⟩), (1, ⟨3, 3, 1, some 20⟩)] }
    (s.rail 0).due.isSome = true ∧ (s.rail 0).clk < (s.rail 0).goal ∧ (s.rail 1).due = some 20 ∧ ¬ (s.rail 1).clk < (s.rail 1).goal
      ∧ 20 ≤ { s with time := 20 }.time ∧ { s with time := 19 }.time < 20 := by decide

/-- A port that trains and one that does not. -/
theorem witness_trains : (16 ∈ [1, 2, 4, 8, 16] ∧ 640 ∈ [25, 50, 80, 160, 320, 640] ∧ PortMode.cxl ≠ .down)
    ∧ ¬ (3 ∈ [1, 2, 4, 8, 16] ∧ 640 ∈ [25, 50, 80, 160, 320, 640]) := by decide

theorem witness_unpowered : let s := { State.reset with dev := { State.reset.dev with powered := false } }
    s.agenda = [] ∧ s.dev.powered = false := ⟨rfl, rfl⟩

/-- BringUpVerifies: SVNs at and below the fuses'. -/
theorem witness_images : let s := { State.reset with dev := { State.reset.dev with fuseSvn := 5 } }
    ¬ (5 : BitVec 16) < s.dev.fuseSvn ∧ (4 : BitVec 16) < s.dev.fuseSvn := ⟨by decide, by decide⟩

/-- BringUpVerifies: a device that runs, a logical device whose port is up and one whose port is down. -/
theorem witness_spdm : let s0 := one (.nop ⟨.always⟩) id
    let s := { s0 with
      dev := { s0.dev with state := 0 }, lds := [(2, { LDev.reset with v := true })], ports := [(0, { Port.reset with mode := .cxl, width := 8 })] }
    s.dev.state < 4 ∧ (s.ld 2).v = true ∧ (s.portOf 2).mode ≠ .down ∧ ¬ (s.ld 3).v = true := by decide

/-- OperatorTablesWritten: partition 31 made of grove 31 and slice 63 beside another; V cleared; a grove given twice. -/
theorem witness_partition : let e : BitVec 256 := BitVec.ofNat 256 (2 ^ 255 + 2 ^ 239 + 2 ^ 207)
    let s := one (.nop ⟨.always⟩) id
    s.dev.state ≠ 5 ∧ e.getLsbD 255 = true ∧ (s.part 31).v = false ∧ (e.extractLsb' 208 32 : BitVec 32) = 2 ^ 31 ∧ (e.extractLsb' 144 64 : BitVec 64) = 2 ^ 63
      ∧ (∀ q < 32, (s.part q).v = true → q = 0) ∧ (s.part 0).groves = 1 ∧ (s.part 0).slices = 1 ∧ (s.part 0).v = true
      ∧ (BitVec.ofNat 256 (2 ^ 255 + 2 ^ 208 + 2 ^ 207)).extractLsb' 208 32 = (1 : BitVec 32) ∧ (0 : BitVec 256).getLsbD 255 = false := by decide +kernel

/-! Hosts, companion cores, registers (14, 17, 20) -/

/-- OutsideWritesReachTheSlice: the last byte of a line, through a decoder whose last byte it is. -/
theorem witness_outside : let s0 := one (.nop ⟨.always⟩) id
    let s := { s0 with
      dev := { s0.dev with state := 2 }
      lds := [(2, { LDev.reset with v := true, parts := 1, hdm := some (0x1000, 0x80, 0x48000) })], ports := [(0, { Port.reset with mode := .cxl, width := 8 })] }
    s.owns 0 0x4807F = true ∧ s.ownerOf 0x4807F = some 0 ∧ s.owns 1 0x4807F = false ∧ s.dev.state ≤ 2 ∧ s.hdmPart 2 0x48000 0x80 = some 0
      ∧ (s.part 0).frecs = [] ∧ 0x107F + 1 ≤ 0x1000 + 0x80 ∧ 0x4807F % 128 + 1 ≤ 128 ∧ (inHbm 0x4807F || inCxl 0x4807F) = true ∧ SMap.sortedFrom none s.l2 = true
      ∧ (∀ e ∈ s.teams, e.2.seg = none) ∧ (s.ld 2).hdm = some (0x1000, 0x80, 0x48000) ∧ (s.ld 2).v = true ∧ (s.portOf 2).mode = .cxl
      ∧ 0x1000 ≤ 0x107F ∧ 0x107F < 0x1000 + 0x80 ∧ 0x4807F = 0x48000 + (0x107F - 0x1000) ∧ (s0.ld 2).hdm = none := by decide

/-- HostAtomicsAnswered: an atomic and a reduction with their requests sent, and a partition that may fall back. -/
theorem witness_host_atomic : ∀ c ∈ [false, true],
    let o := { op0 3 with kind := .atom (some (.g 4)) true .cas 1 2, place := .host 0 8, n := 8, sent := true, viaCxl := c }
    let s := pending o
    let f := { s with parts := [(0, { probePart with afb := true })], ports := [(0, { Port.reset with mode := .cxl, width := 8 })] }
    (t0 1).noReplay ∧ o.cls ≠ .cp ∧ s.op? 3 = some o ∧ s.thread? 0 = some (t0 1) ∧ s.canFallBack 0 = false ∧ f.canFallBack 0 = true :=
  fun c h => ⟨no_replay rfl, by revert c; decide⟩

/-- LateAnswersFault: a load in the CXL tier. -/
theorem witness_uio : let o := { op0 3 with place := .dev 0x10000000000 0 false 0 false, todo := [(0, 4)] }
    let s := pending o
    s.op? 3 = some o ∧ inCxl 0x10000000000 = true ∧ s.l2.find? (s.l2Key ⟨0, 0x10000000000, 0, false, 0, false, .none, s.teamOf 0⟩) = none
      ∧ SMap.sortedFrom none s.l2 = true ∧ s.thread? 0 = some (t0 1) ∧ o.held = none ∧ o.cls ≠ .cp ∧ (t0 1).noReplay :=
  ⟨by decide, by decide, by decide, by decide, by decide, rfl, by decide, no_replay rfl⟩

/-- The word a lane finds at its PC: an instruction, a fault. -/
def fetches (s : State) (c : Option (BitVec 8)) : Bool := match s.openCands.find? (fun x => x.slot == 0) with
  | some ⟨_, _, _, .word _⟩ => c.isNone
  | some ⟨_, _, _, .fault d⟩ => c == some d
  | _ => false

theorem witness_fetch : fetches (one (.nop ⟨.always⟩) id) none = true ∧ fetches (one (.nop ⟨.always⟩) (fun t => { t with pcw := pcOf 0x100000 })) (some 0x11) = true
    ∧ SMap.sortedFrom none (one (.nop ⟨.always⟩) id).threads = true := by decide

/-- ControlRegisterWrites. -/
theorem witness_registers : let s := one (.nop ⟨.always⟩) id
    let u := { s with lds := [(15, { LDev.reset with v := true })] }
    (s.part 0).v = true ∧ (s.part 0).frecs = [] ∧ (s.part 0).groveList[0]? = some 0 ∧ (s.slot 4095).own = false ∧ (s.slot 4095).st ≤ 1
      ∧ ((s.part 0).lentry 4095).b = (0 : DWord).getLsbD 63 ∧ (u.ld 15).v = true := by decide

theorem witness_key : let s := one (.nop ⟨.always⟩) id
    (s.part 0).v = true ∧ ((s.part 0).keys.get KeyEnt.blank 15).words.find? 7 ≠ some (1 : DWord) := by decide +kernel

/-! Canopy (17) -/

/-- A put of 16 bytes from 0x8100 to 0x8200 on package 0, its completion word at 0x8300; the descriptor stands at 0x8000. -/
def putWords : List (Nat × Nat) := [(0, 1), (2, 0x8100), (4, 0x8200), (6, 16), (8, 0x8300)]
def putDesc : List Byte := words 16 putWords

def fabric : State :=
  let s := inPart (fun p => { p with canq := BitVec.ofNat 128 (2 ^ 75 + 5 * 2 ^ 54) })
  { s with
    mem := putWords.foldl (fun m e => Memory.writeN m (0x48000 + 4 * e.1) (leBytes 4 e.2)) s.mem
    queues := [(5, { que 0 4 with pool := [(8, [0x7F01, 0, 0, 0, 0x8000, 0, 0, 0])] })] }

def canOp (cls : Nat) (w : List (Nat × List Byte)) (d : List Byte) : CanOp := ⟨3, 0, 0, cls, 0x8000, some d, 0, w, none, 5⟩
def fabricWith (o : CanOp) : State := { fabric with canops := [o] }

/-- What an access of the fabric answers. -/
def answers (r : State × CanRes) (p : List Byte → Bool) : Bool := match r.2 with
  | .ok bs => p bs
  | _ => false

/-- CanopyOperationsAct: a record at the last stream; a descriptor that is read; a put's payload and completion word. -/
theorem witness_canopy_start : (fabric.part 0).canStream 3 = some 5 ∧ (fabric.queue 5).v = true ∧ (fabric.queue 5).cmode = true
    ∧ (fabric.queue 5).rcnt = 0 ∧ (fabric.queue 5).stuck = false ∧ (fabric.queue 5).pool = [(8, [0x7F01, 0, 0, 0, 0x8000, 0, 0, 0])] ∧ evClass [0x7F01, 0, 0, 0, 0x8000, 0, 0, 0] = 0x7F01
    ∧ evClass [5] ≠ 0x7F01 := by decide

theorem witness_canopy_desc : let o : CanOp := ⟨fabric.nextOp, 0, 0, 1, 0x8000, none, fabric.time, [], none, 5⟩
    answers (State.canRead { fabric.updQueue 5 (fun q => { q with pool := [] }) with canops := [o], nextOp := fabric.nextOp + 1 } o 0x8000 64) (canOk 1) = true := by
  decide +kernel

theorem witness_canopy_put : let s := fabricWith (canOp 1 [] putDesc)
    s.can? 3 = some (canOp 1 [] putDesc) ∧ answers (s.canRead (canOp 1 [] putDesc) 0x8100 16) (fun bs => bs.length == 16) = true
      ∧ s.landing (canDpk putDesc) (s.part 0).fabTag = some 0 ∧ s.landing 7 0 = none
      ∧ let o' : CanOp := { canOp 1 [] putDesc with cls := 0, writes := [(0x8200, List.replicate 16 0), (0x8300, leBytes 4 0 ++ leBytes 4 0)] }
        answers ((s.updCan 3 (fun _ => o')).canWrite o' 0x8200 (List.replicate 16 0)) (fun _ => true) = true := by decide +kernel

theorem witness_canopy_word : let o := canOp 0 [(0x8300, leBytes 8 0)] putDesc
    (fabricWith o).can? 3 = some o ∧ answers ((fabricWith o).canWrite o 0x8300 (leBytes 8 0)) (fun _ => true) = true := by decide +kernel

theorem witness_canopy_in : fabric.landing (0 : BitVec 8).toNat (0 : BitVec 16).toNat = some 0 ∧ fabric.can? fabric.nextOp = none
    ∧ fabric.landing 0 7 = none
    ∧ let o : CanOp := ⟨fabric.nextOp, 0, 0, 0, 0, none, fabric.time, [(0x8200, List.replicate 128 1), (0x8300, leBytes 4 0 ++ leBytes 4 0)], none,
        (Config.freeWord fabric.fresh).toNat⟩
      answers (State.canWrite { fabric with canops := fabric.canops ++ [o], nextOp := fabric.nextOp + 1, fresh := fabric.fresh + 1 } o 0x8200
        (List.replicate 128 1)) (fun _ => true) = true := by decide +kernel

/-- An all-reduce of two, alone in this package; too early and in time for its timeout. -/
def reduceDesc : List Byte := words 16 [(0, 2), (1, 9), (2, 0x8100), (4, 0x8200), (6, 16), (7, 2 * 2 ^ 16), (8, 0x8300), (10, 1)]

theorem witness_allreduce : let o := canOp 2 [] reduceDesc
    let s := fabricWith o
    s.can? 3 = some o ∧ (s.mates o).length = 1 ∧ canN reduceDesc = 2 ∧ canLen reduceDesc = 16 ∧ 1 + [[(1 : Word), 2, 3, 4]].length = canN reduceDesc
      ∧ (∀ b ∈ [[(1 : Word), 2, 3, 4]], 4 * b.length = canLen reduceDesc) ∧ answers (s.canRead o (canSrc reduceDesc) 16) (fun bs => bs.length == 16) = true
      ∧ { s with time := 99999999 }.time < o.start + 100000000 ∧ o.start + 100000000 ≤ { s with time := 100000000 }.time := by decide +kernel

/-- ReductionsDelivered: an element on a host page, its contributions short of N, and N. -/
def hostPaged : State :=
  let s := inPart (fun p => { p with trc := BitVec.ofNat 64 (2 ^ 63), rwin := [(3, BitVec.ofNat 128 (2 ^ 63 + 2))] })
  { s with
    mem := Memory.writeN s.mem 0x30008 (leBytes 8 (2 ^ 63 + 2 ^ 60 + 2 * 2 ^ 57)), atc := [⟨0, 0, 0x10, 5, true⟩]
    redparts := [⟨0, 3, 0x10010, .fadd, false, 0x3F800000, 2, none⟩] }

theorem witness_reduction : let r : RedPart := ⟨0, 3, 0x10010, .fadd, false, 0x3F800000, 2, none⟩
    hostPaged.redparts.find? (fun q => q.part == 0 && q.n == 3 && q.addr == (0x10010 : BitVec 64).toNat && q.op == .fadd && q.dbl == false && q.held.isNone) = some r
      ∧ ((hostPaged.part 0).rwin.get 0 3).getLsbD 63 = true ∧ (((hostPaged.part 0).window 3).extractLsb' 0 8).toNat = 2
      ∧ ((hostPaged.part 0).window 3).extractLsb' 16 8 = ((hostPaged.part 0).fabcfg.extractLsb' 0 8 : BitVec 8)
      ∧ (hostPaged.translate (.unit 9 (2 ^ 55 + r.addr)) 0 r.addr .write).2 = .host 0 0x5010 ∧ hostPaged.redparts.filter (fun q => q.part == 0 && q.n == 3) = [r]
      ∧ ((hostPaged.updPart 0 (fun q => { q with rwas := q.rwas.put 3 (q.window 3), rwin := q.rwin.upd 3 (fun v => setBits v 63 1 0) })).translate (.unit 9 (2 ^ 55 + r.addr)) 0 r.addr .write).2 = .host 0 0x5010
      ∧ r.held = none ∧ r.count + 1 ≠ 2 ∧ ∀ r ∈ (one (.nop ⟨.always⟩) id).redparts, ¬ (r.part = 0 ∧ r.n = 3) := by decide +kernel

/-! Steps, frames, exceptions (01 to 03, 16) -/

/-- A step of a machine whose next issue is an instruction. -/
def runsWord (i : Instr) : Bool :=
  let s := State.reset.withFetchWord 64 ((encode i).getD 0).toNat
  s.agenda.isEmpty && s.dev.powered && s.time % 2 == 0 && SMap.sortedFrom none s.threads && (match s.amberNow.nextIssue with
    | some (_, .word j) => i == j
    | _ => false)

/-- StepRunsDecoded: a word, and one that does not decode. -/
theorem witness_step : runsWord (.add ⟨.always, .g 8, .g 4, .g 5, .s, false⟩) = true := by decide

def badWord : Bool := match (State.reset.withFetchWord 64 0x5E78000000000000).amberNow.nextIssue with
  | some (_, .bad c) => c == 1
  | _ => false

theorem witness_bad_word : badWord = true := by decide

theorem witness_agenda : let s := { State.reset with agenda := [.ev (.nop ⟨.always⟩)] }
    s.agenda = .ev (.nop ⟨.always⟩) :: [] := rfl

theorem witness_step_keeps : State.reset.memOk = true ∧ ∃ s', step { State.reset with agenda := [.ev (.thermalTrip 0)] } = .next s' := ⟨by decide, _, rfl⟩

/-- EncodedWordsDecode. -/
theorem witness_encoded : (Instr.sub ⟨.always, .g 8, .g 5, .g 4, .s, false⟩).wf 256 = true
    ∧ (Instr.sub ⟨.always, .g 8, .g 5, .g 4, .s, false⟩).isWord = true ∧ encode (.sub ⟨.always, .g 8, .g 5, .g 4, .s, false⟩) = some 0x0178100280800002
    ∧ (Instr.thermalTrip 0).isWord = false := by decide

/-- ExceptionEntry: two lanes, the third permit the lowest free, and none free. -/
def lf (k : Nat) : LFault := ⟨k, 0x12, 0, 0, 8, 0, false, false, none⟩

theorem witness_entry : let r : ParkRec := ⟨false, 0x10, 0, 0, 0, 0, []⟩
    let s0 := crew 2 (.nop ⟨.always⟩) fun _ => id
    let s := { s0 with cores := [(0, { CoreSt.reset with recs := [(0, r), (1, r)] })] }
    let f := { s0 with cores := [(0, { CoreSt.reset with recs := [(0, r), (1, r), (2, r), (3, r)] })] }
    (∀ x ∈ [lf 0, lf 1], x.code = 0x12) ∧ (0x12 : BitVec 8) ∉ [0x11, 0x13, 0x16, 0x17, 0x40] ∧ ([lf 0, lf 1].map (·.slot)).Nodup
      ∧ (∀ m < 2, (SMap.find? (s.core 0).recs m).isSome = true) ∧ SMap.find? (s.core 0).recs 2 = none
      ∧ (∀ m < 4, (SMap.find? (f.core 0).recs m).isSome = true) ∧ s.thread? 1 = some { t0 2 with lane := 1, plane := 1 } := by decide

/-- RegisterWordsFrame and FaultsBeforeAndAfterWords: a quiet word; one passed by, with and without the step bit; a landing due; a deferred fault. -/
theorem witness_register_words : let i : Instr := .add ⟨.pred 3 false, .g 8, .g 4, .g 5, .s, false⟩
    let j : Instr := .add ⟨.always, .g 8, .g 4, .g 5, .s, false⟩
    let d : Defer := ⟨0x12, 0, 64, .ld, [4], { op0 0 with marks := [4] }⟩
    i.registerOnly = true ∧ still (one i id) i = true ∧ (0 ∈ (one i id).issueSet i) ∧ i.on (t0 1) = false ∧ landingOk i (t0 1) = true
      ∧ deferHit i (t0 1) = none ∧ landingOk i { t0 1 with landing := some 5 } = false ∧ (0 ∈ (one i (fun t => { t with landing := some 5 })).issueSet i)
      ∧ deferHit j { t0 1 with defers := [d], fmark := [4] } = some d ∧ (0 ∈ (one j (fun t => { t with defers := [d], fmark := [4] })).issueSet j)
      ∧ (0 ∈ (one i (fun t => { t with step := true })).issueSet i) ∧ (t0 1).hold = .none := by decide

/-! Memories in the host's pages (08, 09, 10) -/

/-- CopiesComplete: sources in space `.g` and `.k`, in device memory and in a host page, and a destination in each. -/
theorem witness_copy_spaces :
    let o (k : OpKind) : Op := { op0 3 with cls := .cp, kind := k, todo := [(16, 16)] }
    let load (sp : Space) (a : Nat) : Op := o (.copy [(a, 512, 32)] none 32 0 512 true sp 1 none true)
    let store (d : Nat) : Op := o (.copy [(16, d, 32)] none 32 16 d false .s 1 none true)
    let at' (s : State) (p : Op) : State := { s with ops := [p] }
    (∀ s ∈ [one (.nop ⟨.always⟩) id, hostPaged], ∀ p ∈ [load .g 0x7FF0, load .k 0x7FF0, load .g 0x10000, store 0x7FF0, store 0x10000],
        p.slot < 393216 ∧ p.held = none ∧ p.failed = none ∧ (at' s p).op? 3 = some p ∧ (at' s p).accessBelow 0 0 = false
          ∧ (at' s p).thread? 0 = some (t0 1) ∧ SMap.sortedFrom none s.l2 = true ∧ ∀ e ∈ s.teams, e.2.seg = none)
      ∧ (∀ e ∈ (one (.nop ⟨.always⟩) id).threads ++ hostPaged.threads, e.2.noReplay) ∧ (t0 1).st ≠ .waiting := by
  refine ⟨by decide +kernel, ?_, by decide⟩
  intro e he
  have h : e ∈ [(0, t0 1), (0, t0 1)] := he
  simp at h
  rw [h]
  exact no_replay rfl

theorem witness_copy_leads :
    let p (k : OpKind) : Op := { op0 3 with cls := .cp, kind := k, todo := [(16, 16)] }
    let o := p (.copy [(0x7FF0, 512, 32)] none 32 0 512 true .g 1 none true)
    let s : State := { one (.nop ⟨.always⟩) id with ops := [o] }
    let h : State := { hostPaged with ops := [o] }
    (∃ s1 x, s.translate (.op o.slot o.id) o.part 0x8000 .read = (s1, x) ∧ x.place = .dev 0x48000 0 false 0 false)
      ∧ (∃ s1 x, s.translate (.op o.slot o.id) o.part 0x8000 .write = (s1, x) ∧ x.place = .dev 0x48000 0 false 0 false)
      ∧ (∃ s1 x, h.translate (.op o.slot o.id) o.part 0x10010 .read = (s1, x) ∧ x.place = .host 0 0x5010)
      ∧ (∃ s1 x, h.translate (.op o.slot o.id) o.part 0x10010 .write = (s1, x) ∧ x.place = .host 0 0x5010) := by
  refine ⟨⟨_, _, rfl, ?_⟩, ⟨_, _, rfl, ?_⟩, ⟨_, _, rfl, ?_⟩, ⟨_, _, rfl, ?_⟩⟩ <;> decide +kernel

/-- FencesAndLineWords: an operation before a fence, and the fence's note of it, by what its scope covers; the access that the fence
holds lies in the scratchpad, or in a page of the host. -/
theorem witness_fence_holds :
    let o : Op := { op0 3 with cls := .st, kind := .store [1, 2, 3, 4] .none }
    let r : Op := op0 3
    let v : FenceN := ⟨9, 0, 0, 0⟩
    let ld : Instr := .ld ⟨.always, .g 4, .g 0, .imm 0, .w, .g, .none, false, false⟩
    let st (sp : Space) : Instr := .st ⟨.always, .g 0, .imm 0, .g 4, .w, sp, .none⟩
    let t (f r a : FenceN) : Thread := { tAt 0x10000 with fRel := f, fAcq := r, fAr := a }
    let s (h : Bool) (p : Op) (t : Thread) : State := { (if h then hostPaged else one (.nop ⟨.always⟩) id) with ops := [p], atc := [], threads := [(0, t)] }
    (∀ h ∈ [false, true], ∀ p ∈ [o, r], ∀ u ∈ [t v v v, t ⟨0, 9, 0, 0⟩ v v, t ⟨0, 0, 9, 0⟩ v ⟨0, 9, 0, 0⟩, t ⟨0, 0, 0, 9⟩ v ⟨0, 0, 9, 0⟩, t v v ⟨0, 0, 0, 9⟩],
        (s h p u).thread? 0 = some u ∧ landingOk ld u = true ∧ p ∈ (s h p u).ops ∧ p.slot = 0 ∧ p.kind.ordered = true ∧ p.onHost = false
          ∧ p.onFar = false ∧ p.seen = false ∧ (ld.useOn u).fenced = true ∧ (st .s).useOn u = .store ∧ (st .g).useOn u = .store)
      ∧ r.kind.reads = true ∧ (t v v v).fAcq.last = 9 ∧ (s false o (t v v v)).wordReach 0 (t v v v) (st .s) = 0
      ∧ (s true o (t v v v)).wordReach 0 (t v v v) (st .g) = 1 ∧ (s true o (t v v v)).wordReach 0 (t v v v) ld = 1 := by decide +kernel

/-- OperationsKeepOrder: an operation that may be performed; and those that may not yet, for a hold, for an earlier one of the same bytes, for
an earlier acquire, for an access before a release. -/
theorem witness_order :
    let ld : Op := { op0 5 with todo := [(0, 4)], buf := [0, 0, 0, 0] }
    let st : Op := { op0 5 with cls := .st, kind := .store [1, 2, 3, 4] .none, todo := [(0, 4)] }
    let at' (p : Op) : Op := { p with kind := .atom none false .add 1 0, todo := [(0, 4)] }
    let e : Op := { op0 3 with cls := .st, kind := .store [1, 2, 3, 4] .none }
    let far : Op := { e with place := .scr 0 512 false }
    let s (p o : Op) : State := { pending o with ops := [p, o] }
    (∀ o ∈ [ld, st, at' ld], o.kind.inPo = true ∧ (s far o).mayPerform o = true ∧ (s far o).op? 5 = some o
        ∧ (s far o).storesOf ((s far o).domain 0) = []
        ∧ (s e o).mayPerform o = false ∧ (s { far with acq := some .core } o).mayPerform o = false
        ∧ (s far { o with held := some 4 }).mayPerform { o with held := some 4 } = false
        ∧ (s e o).op? 5 = some o ∧ (s e o).storesOf ((s e o).domain 0) = [] ∧ o.rel = none)
      ∧ (s far { st with rel := some .team }).mayPerform { st with rel := some .team } = false := by decide +kernel

/-! ### Values of the words and events that work on more than a lane's registers -/

/-- R172's table: the lanes that each callee receives. -/
theorem test_shares : shares 32 [3, 2, 2] = [14, 9, 9] ∧ shares 5 (List.replicate 8 1) = [1, 1, 1, 1, 1, 0, 0, 0] ∧ shares 3 [0, 5, 1] = [0, 3, 0] := by decide

/-- R191: AES-256 as FIPS 197's own example (appendix C.3) has it. -/
theorem test_aes : aesEncrypt (roundKeys (List.range 32)) ((List.range 16).map (17 * ·))
    = [0x8E, 0xA2, 0xB7, 0xCA, 0x51, 0x67, 0x45, 0xBF, 0xEA, 0xFC, 0x49, 0x90, 0x4B, 0x49, 0x60, 0x89] := by decide +kernel

/-- A property of the state after an act. -/
def acts (i : Instr) (s : State) (p : State → Bool) : Bool := match exec i s with
  | .next s' => p s'
  | _ => false

/-- R14, R195: a store's bytes stand in little-endian order. -/
theorem test_store_order : let o := { op0 0 with cls := .st, kind := .store [4, 3, 2, 1] .none, place := .scr 0 0 false, todo := [(0, 4)] }
    acts (.storePerformed 0) (pending o) (fun s => Memory.readN s.scr 0 5 == [4, 3, 2, 1, 0]) = true := by decide

/-- R195: a sign-extended byte load. -/
theorem test_load_sign : let o := { op0 0 with kind := .load (.g 4) .b true false .none, n := 1, todo := [(0, 1)], buf := [0], marks := [4] }
    let s := pending o
    acts (.loadComplete 0) { s with scr := [(0, 0x80)] } (fun s => (s.thread? 0).any (fun t => t.gVal 4 == 0xFFFFFF80 && t.pend.isEmpty)) = true := by decide

/-- R202: a compare-and-swap that holds writes B and gives the old value; one that does not only gives it. -/
theorem test_cas : ∀ e ∈ [(7, 9), (8, 7)], let o := { op0 0 with kind := .atom (some (.g 4)) false .cas 9 (BitVec.ofNat 64 e.1), place := .scr 0 0 false, todo := [(0, 4)] }
    let s := pending o
    acts (.atomicPerformed 0) { s with scr := [(0, 7)] } (fun s => Memory.read s.scr 0 == BitVec.ofNat 8 e.2 && (s.thread? 0).any (fun t => t.gVal 4 == 7)) = true := by
  decide

/-- R220: the last arrival ends the phase. -/
theorem test_barrier_phase : let o := { op0 0 with cls := .st, kind := .bara (some (.g 4)), place := .scr 0 64 false, n := 16, todo := [(0, 16)] }
    acts (.storePerformed 0) { barred (.nop ⟨.always⟩) id ⟨4, 1, 2, 0, true⟩ with ops := [o] } (fun s =>
      s.barAt 0 64 == ⟨5, 2, 2, 0, true⟩ && (s.thread? 0).any (fun t => t.gVal 4 == 4)) = true := by decide

/-- R265's example, step 2: with the pool full at MIN = CAP = 3 a record goes to the ring. -/
theorem test_ring : let q : Queue := { que 0 3 with min := 3, rlog := 6, rbase := 8, pool := [(6, [1]), (7, [2]), (8, [3])] }
    let s0 := withQueues (.nop ⟨.always⟩) id
    let s := { s0 with queues := [(7, q)], lds := [(0, { LDev.reset with v := true, parts := 1 })] }
    acts (.hostAppend 0 7 0 (List.replicate 32 1)) s (fun s => (s.queue 7).rcnt == 1 && (s.queue 7).pool.length == 3 && (s.queue 7).drops == 0) = true := by
  decide +kernel

/-- R354's example at its revolution 7, on core 0 and bough 0 of grove 0: the core takes 13 of 24, its fill ends and its bough holds the
reservation. -/
theorem test_amber : let s0 := one (.mma mmaArg) id
    let s := { s0 with groves := [(0, { GroveSt.reset with cycle := 24, needy := [(0, 0)], rate := 24, fmax := 64, share := 64 })]
                       cores := [(0, { CoreSt.reset with pool := 51 }), (1, { CoreSt.reset with pool := 40 })] }
    acts (.amberRevolution 0) s (fun s => (s.core 0).pool == 64 && (s.core 0).resv == some 0 && (s.core 1).pool == 51 && (s.grove 0).float == 0) = true := by
  decide +kernel

/-- R288, R284: an event of the class creates a candidate in state 1 with its key and time. -/
theorem test_candidate : acts (.rowanTakeEvent 1) (automaton armed queued) (fun s =>
    (s.slot 1).cands.map (fun c => (c.state, c.key, c.s0)) == [(1, 33, 50)] && (s.slot 1).cursors == [10] && (s.slot 1).created == 1) = true := by decide

/-- R285: the timer fires 5 units after the candidate came into its state. -/
theorem test_timer : acts (.rowanTakeTimer 1) (automaton { armed with cands := [cand0] } { queued with pool := [] }) (fun s => (s.slot 1).lastTime == 45) = true := by decide

/-- R401: 1240 W gives RATE 1 and is not below the floor; 1239 W is. -/
theorem test_cap : acts (.powerCapWrite 1240) State.reset (fun s => (s.grove 31).cfgNext.any (fun v => bits v 16 11 == 1) && !s.dev.unmet) = true
    ∧ acts (.powerCapWrite 1239) State.reset (fun s => s.dev.unmet && s.dev.cap == 1239) = true := by decide +kernel

/-- R357: a lease of 5 µs from an allowance of 3. -/
theorem test_boost : let i : Instr := .boost ⟨.always, .g 4, .imm 5⟩
    let s := one i id
    acts i { s with parts := [(0, { probePart with allow := [(0, 3)] })] } (fun s =>
      (s.thread? 0).any (fun t => t.gVal 4 == 3) && (s.part 0).lease.find? 0 == some 3000) = true := by decide

/-- R217: 16 bytes of a copy between scratchpads land at the destination. -/
theorem test_copy : let s := pending (copyOp none true)
    acts (.copyComplete 3) { s with scr := [(32, 5), (47, 6)] } (fun s => Memory.read s.scr 528 == 5 && Memory.read s.scr 543 == 6 && Memory.read s.scr 544 == 0) = true := by decide

/-- R171: a ballot of two lanes. -/
theorem test_ballot : let i : Instr := .tvote ⟨.always, 0, false, .ballot (.g 4) (.imm 0)⟩
    acts i (crew 2 i (fun k t => if k = 1 then { t with preds := 1 } else t)) (fun s => (s.thread? 0).any (fun t => t.gVal 4 == 2) && (s.thread? 1).any (fun t => t.gVal 4 == 2)) = true := by
  decide

/-- R371: TRAP parks with 0x62 and its number. -/
theorem test_trap : parks (.trap ⟨.always, 9, .imm 0⟩) id 0x62 = true := by decide

end Sys2Proof.Tests.Slice0
end

section
/-!
SUPPORT. Integer results (04 R90 to R102) as statements read them: values of W bits, the operands of a lane, and a word that completes
with the value its part places.
-/

namespace Sys2Proof.Machine

/-! ### Values of W bits (R90) -/

theorem wid_le (w : Bool) : wid w ≤ 64 := by cases w <;> decide

/-- The model narrows an integer as the statements do. -/
@[simp] theorem nar_eq_modW (w : Bool) (x : Int) : nar w x = modW w x := by
  have h : 0 ≤ x % (2 ^ wid w : Nat) := Int.emod_nonneg _ (by positivity)
  unfold nar modW
  rw [← BitVec.ofInt_natCast, Int.toNat_of_nonneg h]
  push_cast
  rfl

theorem modW_toNat (w : Bool) (x : Int) : (modW w x).toNat = (x % 2 ^ wid w).toNat := by
  have h0 : 0 ≤ x % 2 ^ wid w := Int.emod_nonneg _ (by positivity)
  have h1 : x % 2 ^ wid w < 2 ^ wid w := Int.emod_lt_of_pos _ (by positivity)
  have h2 : (2 : Int) ^ wid w ≤ 2 ^ 64 := pow_le_pow_right₀ (by decide) (wid_le w)
  rw [modW, BitVec.toNat_ofInt, Int.emod_eq_of_lt h0 (by push_cast; omega)]

theorem modW_natCast_toNat (w : Bool) (n : Nat) : (modW w n).toNat = n % 2 ^ wid w := by
  rw [modW_toNat]
  exact_mod_cast Int.toNat_natCast _

theorem modW_natCast_getLsbD (w : Bool) (n i : Nat) (h : i < wid w) : (modW w n).getLsbD i = n.testBit i := by
  rw [BitVec.getLsbD, modW_natCast_toNat, Nat.testBit_mod_two_pow, decide_eq_true h, Bool.true_and]

/-- A narrowed value has nothing left for the extension of R82 to cut. -/
@[simp] theorem extW_modW (w : Bool) (x : Int) : extW w (modW w x) = modW w x := by
  have h : x % 2 ^ wid w < 2 ^ wid w := Int.emod_lt_of_pos _ (by positivity)
  apply BitVec.eq_of_toNat_eq
  rw [extW_toNat, modW_toNat]
  apply Nat.mod_eq_of_lt
  zify
  rwa [Int.toNat_of_nonneg (Int.emod_nonneg _ (by positivity))]

@[simp] theorem modW_zv (w : Bool) (v : DWord) : modW w (zv w v) = extW w v := by
  apply BitVec.eq_of_toNat_eq
  rw [modW_natCast_toNat, extW_toNat, zv, Nat.mod_mod]

@[simp] theorem extW_zero (w : Bool) : extW w 0#64 = 0#64 := by cases w <;> rfl

theorem extW_getLsbD (w : Bool) (v : DWord) (i : Nat) : (extW w v).getLsbD i = (decide (i < wid w) && v.getLsbD i) := by
  rw [BitVec.getLsbD, extW_toNat, Nat.testBit_mod_two_pow]
  rfl

theorem extW_ofNat_getLsbD (w : Bool) (n i : Nat) (h : i < wid w) : (extW w (BitVec.ofNat 64 n)).getLsbD i = n.testBit i := by
  rw [extW_getLsbD, BitVec.getLsbD_ofNat, decide_eq_true h, decide_eq_true (h.trans_le (wid_le w)), Bool.true_and, Bool.true_and]

section
variable (w : Bool) (a b : DWord)

theorem extW_and_left : extW w (a &&& b) = extW w a &&& b := by
  ext i
  simp [← BitVec.getLsbD_eq_getElem, extW_getLsbD, Bool.and_assoc]

theorem extW_or : extW w (a ||| b) = extW w a ||| extW w b := by
  ext i
  simp [← BitVec.getLsbD_eq_getElem, extW_getLsbD, Bool.and_or_distrib_left]

theorem extW_xor : extW w (a ^^^ b) = extW w a ^^^ extW w b := by
  ext i
  simp [← BitVec.getLsbD_eq_getElem, extW_getLsbD, Bool.and_xor_distrib_left]

theorem zv_and : zv w a &&& zv w b = zv w (a &&& b) := by
  simp only [zv, BitVec.toNat_and, Nat.and_mod_two_pow]

theorem zv_or : zv w a ||| zv w b = zv w (a ||| b) := by
  simp only [zv, BitVec.toNat_or, Nat.or_mod_two_pow]

theorem zv_xor : zv w a ^^^ zv w b = zv w (a ^^^ b) := by
  simp only [zv, BitVec.toNat_xor, Nat.xor_mod_two_pow]

/-- NOT's exact result, 2^W - 1 less the operand, is the complement (R97). -/
theorem modW_not : modW w ((2 ^ wid w : Nat) - 1 - (zv w a : Int)) = extW w (~~~a) := by
  have ha := a.isLt
  apply BitVec.eq_of_toNat_eq
  rw [modW_toNat, extW_toNat, BitVec.toNat_not, zv]
  cases w <;> simp only [wid, Bool.false_eq_true, if_true, if_false] <;> omega

end

/-! ### A source as z, s and X read it (R90) -/

section
variable (l : Lane) (p : Nat) (w : Bool) (x : Src)

@[simp] theorem Lane.toNat_src : (l.src p w x).toNat = l.z p w x := rfl

@[simp] theorem Lane.zv_eq_z : zv w (l.src p w x) = l.z p w x := zv_src l p w x

@[simp] theorem Lane.sv_eq_sOf : sv w (l.src p w x) = sOf w (l.z p w x) := by
  simp [sv, sOf]

@[simp] theorem Lane.xv_eq_xOf (sg : Sg) : xv sg w (l.src p w x) = xOf sg w (l.z p w x) := by
  simp [xv, xOf]

@[simp] theorem Lane.modW_z : modW w (l.z p w x) = l.src p w x := by
  rw [← Lane.zv_eq_z, modW_zv, extW_src]

end

/-! ### Words whose result is a value (R82, R83) -/

theorem Completes.mono {i : Instr} {P Q : Lane → Thread → Prop} (h : Completes i P) (hPQ : ∀ l u, P l u → Q l u) : Completes i Q := by
  intro s k t ht
  obtain ⟨s', b, u, hs, hu, hP⟩ := h s k t ht
  exact ⟨s', b, u, hs, hu, hPQ _ _ hP⟩

section
variable {i : Instr} {gd : Thread → Bool} {w : Bool} {d : Dst} {v : Lane → DWord}

/-- A word whose part places a value of width W on each lane completes with it. -/
theorem Completes.of_result {r : Lane → DWord}
    (hx : ∀ s, exec i s = s.issue i gd (regFx fun l t => t.result w d (v l))) (hg : ∀ t, gd t = i.on t)
    (hv : ∀ l, extW w (v l) = r l) : Completes i fun l u => Puts l.t u w d (r l) 0 :=
  Completes.of_regFx i gd _ _ hx hg (fun l t => t.result_step w d (v l)) (fun l => hv l ▸ l.t.result_puts0 w d (v l))

/-- As `Completes.of_result`, where a property gives the value. -/
theorem Completes.of_result_prop {P : Lane → DWord → Prop}
    (hx : ∀ s, exec i s = s.issue i gd (regFx fun l t => t.result w d (v l))) (hg : ∀ t, gd t = i.on t)
    (hP : ∀ l, P l (extW w (v l))) : Completes i fun l u => ∃ r, Puts l.t u w d r 0 ∧ P l r :=
  (Completes.of_result hx hg fun _ => rfl).mono fun l _ h => ⟨_, h, hP l⟩

end

end Sys2Proof.Machine
end

section
/-!
The binary, multiply-add and division words (04 R92 to R94).
-/

namespace Sys2Proof.Machine

section
variable (l : Lane) (sg : Sg) (w : Bool) (x y : Src)

/-- All ones, -1 in the model, is 2^W - 1 in the statement. -/
theorem divOf_src : divOf sg w (l.src 0 w x) (l.src 1 w y) =
    if l.z 1 w y = 0 then modW w (2 ^ wid w - 1)
    else if sg = .z then modW w (l.z 0 w x / l.z 1 w y : Nat)
    else modW w ((sOf w (l.z 0 w x)).tdiv (sOf w (l.z 1 w y))) := by
  have hones : modW w (-1) = modW w (2 ^ wid w - 1) := by
    rw [modW, modW, ← Int.add_emod_right, neg_add_eq_sub]
  simp only [divOf, Lane.zv_eq_z, Lane.sv_eq_sOf, nar_eq_modW, hones]

/-- The remainder is the dividend less the divisor times the quotient. -/
theorem remOf_src : remOf sg w (l.src 0 w x) (l.src 1 w y) =
    if l.z 1 w y = 0 then l.src 0 w x
    else if sg = .z then modW w (l.z 0 w x - l.z 1 w y * (l.z 0 w x / l.z 1 w y : Nat))
    else modW w (sOf w (l.z 0 w x) - sOf w (l.z 1 w y) * (sOf w (l.z 0 w x)).tdiv (sOf w (l.z 1 w y))) := by
  simp only [remOf, Lane.zv_eq_z, Lane.sv_eq_sOf, nar_eq_modW, Lane.modW_z, ← Int.tmod_def, Int.natCast_mod, Int.natCast_div,
    Int.emod_def]

end

theorem binaryIntegerResults : Rules.BinaryIntegerResults := by
  refine ⟨fun x => ?add, fun x => ?sub, fun x => ?mul, fun x => ?mulh, fun x => ?and, fun x => ?or, fun x => ?xor, fun x => ?andn,
    fun x => ?orn, fun x => ?min, fun x => ?max⟩ <;> refine Completes.of_result (fun _ => rfl) (fun _ => rfl) fun l => ?_
  case add | sub | mul | mulh => simp [IOp.result]
  case and => simp only [IOp.result, zv_and, nar_eq_modW, modW_zv, extW_and_left, extW_src]
  case or => simp only [IOp.result, zv_or, nar_eq_modW, modW_zv, extW_or, extW_src]
  case xor => simp only [IOp.result, zv_xor, nar_eq_modW, modW_zv, extW_xor, extW_src]
  case andn => simp only [IOp.result, nar_eq_modW, modW_zv, extW_and_left, extW_src]
  case orn => simp only [IOp.result, nar_eq_modW, modW_zv, extW_extW]
  case min | max => simp [IOp.result, apply_ite (extW x.w), extW_src]

theorem multiplyAddDivideResults : Rules.MultiplyAddDivideResults := by
  refine ⟨fun x => ?mad, fun x => ?div, fun x => ?rem⟩ <;> refine Completes.of_result (fun _ => rfl) (fun _ => rfl) fun l => ?_
  case mad => simp [madOf]
  case div => simp only [IOp.result, divOf_src, apply_ite (extW x.w), extW_modW]
  case rem => simp only [IOp.result, remOf_src, apply_ite (extW x.w), extW_modW, extW_src]

/-- Settles O1: each word places the value that R92 to R94 give it. -/
theorem integerBinaryResults : Obligations.IntegerBinaryResults := ⟨binaryIntegerResults, multiplyAddDivideResults⟩

end Sys2Proof.Machine
end

section
/-!
The shifts, rotates and bit fields (04 R95, R96, R99, R100).
-/

namespace Sys2Proof.Machine

theorem shiftResults : Rules.ShiftResults := by
  refine ⟨fun x => ?shl, fun x => ?shr, fun x => ?sar, fun x => ?rol, fun x => ?ror, fun x => ?shf⟩ <;>
    refine Completes.of_result (fun _ => rfl) (fun _ => rfl) fun l => ?_
  case shl | shr | sar | rol | ror => simp [SOp.result, amount]
  case shf => simp [shfOf]

/-! ### BFX and BFI (R99) -/

/-- Under `.s` the top bit of a field of `n` bits is its sign. -/
theorem modW_field (sg : Sg) (w : Bool) (f n : Nat) :
    (if sg = .z then modW w f else modW w (if 2 ^ (n - 1) ≤ f then (f : Int) - 2 ^ n else f)) =
      if sg = .z ∨ f < 2 ^ (n - 1) then modW w f else modW w ((f : Int) - 2 ^ n) := by
  by_cases hz : sg = .z
  · rw [if_pos hz, if_pos (.inl hz)]
  · rcases Nat.lt_or_ge f (2 ^ (n - 1)) with hf | hf
    · rw [if_neg hz, if_neg (by omega), if_pos (.inr hf)]
    · rw [if_neg hz, if_pos hf, if_neg (by rintro (h | h); exacts [hz h, by omega])]

theorem bfxOf_src (l : Lane) (sg : Sg) (w : Bool) (x y : Src) (len : Nat) : bfxOf sg w (l.src 0 w x) (l.src 1 false y) len =
    let pos := l.z 1 false y % wid w
    let n := min len (wid w - pos)
    let f := l.z 0 w x / 2 ^ pos % 2 ^ n
    if n = 0 then 0 else if sg = .z ∨ f < 2 ^ (n - 1) then modW w f else modW w ((f : Int) - 2 ^ n) := by
  simp only [bfxOf, amount, Lane.toNat_src, Lane.zv_eq_z, nar_eq_modW, Nat.cast_pow, Nat.cast_ofNat, modW_field]

/-- A field of `n` bits from bit `p` up replaced by the low bits of `a`: the bits above and below it stay. -/
theorem testBit_insertField (a b p n i : Nat) :
    (b - b / 2 ^ p % 2 ^ n * 2 ^ p + a % 2 ^ n * 2 ^ p).testBit i =
      if p ≤ i ∧ i < p + n then a.testBit (i - p) else b.testBit i := by
  have hb : b = 2 ^ (p + n) * (b / 2 ^ (p + n)) + 2 ^ p * (b / 2 ^ p % 2 ^ n) + b % 2 ^ p := by
    have h1 := Nat.div_add_mod b (2 ^ p)
    have h2 := Nat.div_add_mod (b / 2 ^ p) (2 ^ n)
    rw [Nat.div_div_eq_div_mul, ← Nat.pow_add] at h2
    rw [Nat.pow_add, Nat.mul_assoc, ← Nat.mul_add, ← Nat.pow_add, h2, h1]
  have hv : b - b / 2 ^ p % 2 ^ n * 2 ^ p + a % 2 ^ n * 2 ^ p
      = 2 ^ p * (2 ^ n * (b / 2 ^ (p + n)) + a % 2 ^ n) + b % 2 ^ p := by
    rw [Nat.mul_add, ← Nat.mul_assoc, ← Nat.pow_add, Nat.mul_comm (a % 2 ^ n), Nat.mul_comm (b / 2 ^ p % 2 ^ n)]
    omega
  rw [hv, Nat.testBit_two_pow_mul_add _ (Nat.mod_lt _ (by positivity)),
    Nat.testBit_two_pow_mul_add _ (Nat.mod_lt _ (by positivity))]
  simp only [Nat.testBit_mod_two_pow, Nat.testBit_div_two_pow]
  rcases Nat.lt_or_ge i p with hp | hp
  · rw [if_pos hp, if_neg (by omega), decide_eq_true hp, Bool.true_and]
  · rcases Nat.lt_or_ge i (p + n) with hn | hn
    · rw [if_neg (by omega), if_pos (by omega), if_pos ⟨hp, hn⟩, decide_eq_true (by omega), Bool.true_and]
    · rw [if_neg (by omega), if_neg (by omega), if_neg (by omega)]
      congr 1
      omega

/-! ### BPERM (R100) -/

/-- The byte of B:A that selector nibble `i` names, 0 for a nibble of 8 or more. -/
def permByte (a b c : DWord) (i : Nat) : Nat :=
  if 8 ≤ bits c (4 * i) 4 then 0 else (zv false b * 2 ^ 32 + zv false a) / 2 ^ (8 * bits c (4 * i) 4) % 256

theorem bpermOf_eq (a b c : DWord) : bpermOf a b c = BitVec.ofNat 64
    (permByte a b c 0 + 2 ^ 8 * permByte a b c 1 + 2 ^ 16 * permByte a b c 2 + 2 ^ 24 * permByte a b c 3) := rfl

theorem permByte_lt (a b c : DWord) (i : Nat) : permByte a b c i < 256 := by
  unfold permByte
  split
  · decide
  · exact Nat.mod_lt _ (by decide)

/-- A byte of the pair B:A is one of A below 4 and of B from 4 up. -/
theorem byte_of_pair (a b k : Nat) (ha : a < 2 ^ 32) (hk : k < 8) :
    (b * 2 ^ 32 + a) / 2 ^ (8 * k) % 256 = if 4 ≤ k then b / 2 ^ (8 * (k - 4)) % 256 else a / 2 ^ (8 * k) % 256 := by
  interval_cases k <;> simp <;> omega

theorem permByte_src (l : Lane) (x y : Src) (c : DWord) (i : Nat) : permByte (l.src 0 false x) (l.src 1 false y) c i =
    if 8 ≤ bits c (4 * i) 4 then 0
    else if 4 ≤ bits c (4 * i) 4 then bits (l.src 1 false y) (8 * (bits c (4 * i) 4 - 4)) 8
    else bits (l.src 0 false x) (8 * bits c (4 * i) 4) 8 := by
  rw [permByte, Lane.zv_eq_z, Lane.zv_eq_z]
  split
  · rfl
  · exact byte_of_pair _ _ _ (l.src_lt 0 false x) (by omega)

/-- Four bytes side by side in a 32-bit result are its bytes. -/
theorem bits_bytes (f : Nat → Nat) (hf : ∀ i, f i < 256) (i : Nat) (hi : i < 4) :
    bits (extW false (BitVec.ofNat 64 (f 0 + 2 ^ 8 * f 1 + 2 ^ 16 * f 2 + 2 ^ 24 * f 3))) (8 * i) 8 = f i := by
  have h0 := hf 0
  have h1 := hf 1
  have h2 := hf 2
  have h3 := hf 3
  rw [bits, extW_toNat, BitVec.toNat_ofNat]
  simp only [wid, Bool.false_eq_true, if_false]
  interval_cases i <;> omega

theorem fieldResults : Rules.FieldResults := by
  refine ⟨fun x => ?bfx, fun x => ?bfi, fun x => ?bperm⟩
  case bfx =>
    refine .of_result (fun _ => rfl) (fun _ => rfl) fun l => ?_
    simp only [bfxOf_src, apply_ite (extW x.w), extW_modW, BitVec.ofNat_eq_ofNat, extW_zero]
  case bfi =>
    refine .of_result_prop (fun _ => rfl) (fun _ => rfl) fun l i hi => ?_
    rw [bfiOf, nar_eq_modW, extW_modW, modW_natCast_getLsbD _ _ _ hi, testBit_insertField, Lane.zv_eq_z, Lane.zv_eq_z]
    rfl
  case bperm =>
    refine .of_result_prop (fun _ => rfl) (fun _ => rfl) fun l i hi => ?_
    rw [bpermOf_eq, bits_bytes _ (permByte_lt _ _ _) i hi, permByte_src]

/-- Settles O2: amounts and positions are taken mod W, and a field's bits and bytes are those of its sources. -/
theorem shiftAndFieldResults : Obligations.ShiftAndFieldResults := ⟨shiftResults, fieldResults⟩

end Sys2Proof.Machine
end

section
/-!
The unary integer words, bit counts, SEL and LEA (04 R97, R98, R101, R102).
-/

namespace Sys2Proof.Machine

/-! ### Bit counts and reversal (R98) -/

theorem popcount_eq_length (k v : Nat) : popcount k v = ((List.range k).filter fun i => v.testBit i).length := by
  induction k generalizing v with
  | zero => rfl
  | succ k ih =>
    have hhalf : (fun i => v.testBit i) ∘ Nat.succ = fun i => (v / 2).testBit i := funext fun i => Nat.testBit_succ v i
    rw [popcount, ih, List.range_succ_eq_map, List.filter_cons, List.filter_map, Nat.testBit_zero, hhalf]
    rcases Nat.mod_two_eq_zero_or_one v with hv | hv <;> simp [hv, Nat.add_comm]

theorem popcount_le (k v : Nat) : popcount k v ≤ k := by
  rw [popcount_eq_length]
  exact (List.length_filter_le _ _).trans_eq List.length_range

theorem trailing_le (k v : Nat) : trailing k v ≤ k := by
  induction k generalizing v with
  | zero => exact Nat.le_refl 0
  | succ k ih =>
    have := ih (v / 2)
    unfold trailing
    split <;> omega

theorem testBit_of_lt_trailing (k v i : Nat) (h : i < trailing k v) : v.testBit i = false := by
  induction k generalizing v i with
  | zero => exact absurd h (Nat.not_lt_zero i)
  | succ k ih =>
    unfold trailing at h
    split at h
    · exact absurd h (Nat.not_lt_zero i)
    · rename_i hv
      cases i with
      | zero => simpa using hv
      | succ i => exact (Nat.testBit_succ v i).trans (ih _ _ (by omega))

theorem testBit_trailing (k v : Nat) (h : trailing k v < k) : v.testBit (trailing k v) = true := by
  induction k generalizing v with
  | zero => exact absurd h (Nat.not_lt_zero _)
  | succ k ih =>
    unfold trailing at h ⊢
    split
    · rename_i hv
      simpa using hv
    · rename_i hv
      rw [if_neg hv] at h
      rw [Nat.add_comm, Nat.testBit_succ]
      exact ih _ (by omega)

theorem reverseBits_lt (k v : Nat) : reverseBits k v < 2 ^ k := by
  induction k generalizing v with
  | zero => exact Nat.one_pos
  | succ k ih =>
    have := ih (v / 2)
    unfold reverseBits
    rcases Nat.mod_two_eq_zero_or_one v with h | h <;> rw [h, Nat.pow_succ] <;> omega

theorem reverseBits_testBit (k v i : Nat) (h : i < k) : (reverseBits k v).testBit i = v.testBit (k - 1 - i) := by
  induction k generalizing v with
  | zero => exact absurd h (Nat.not_lt_zero i)
  | succ k ih =>
    rw [reverseBits, Nat.mul_comm, Nat.testBit_two_pow_mul_add _ (reverseBits_lt k _)]
    split
    · rename_i hi
      rw [ih _ hi, ← Nat.testBit_succ]
      congr 1
      omega
    · have hi : i = k := by omega
      subst hi
      simp [Nat.testBit_zero]

/-- The leading zeros are the trailing zeros of the reversal. -/
theorem leading_spec (k v : Nat) (hv : v < 2 ^ k) :
    (∀ i, k - trailing k (reverseBits k v) ≤ i → v.testBit i = false)
      ∧ (trailing k (reverseBits k v) < k → v.testBit (k - 1 - trailing k (reverseBits k v)) = true) := by
  constructor
  · intro i hi
    rcases Nat.lt_or_ge i k with hk | hk
    · have h := testBit_of_lt_trailing k (reverseBits k v) (k - 1 - i) (by omega)
      rw [reverseBits_testBit _ _ _ (by omega)] at h
      rwa [show k - 1 - (k - 1 - i) = i by omega] at h
    · exact Nat.testBit_lt_two_pow (hv.trans_le (Nat.pow_le_pow_right (by decide) hk))
  · intro h
    rw [← reverseBits_testBit _ _ _ h]
    exact testBit_trailing k _ h

/-- A count of at most W stands unchanged in a 32-bit destination. -/
theorem extW_count_toNat (w : Bool) (n : Nat) (h : n ≤ wid w) : (extW false (BitVec.ofNat 64 n)).toNat = n := by
  have := wid_le w
  rw [extW_toNat, BitVec.toNat_ofNat]
  simp only [wid, Bool.false_eq_true, if_false]
  omega

/-! ### The words -/

/-- ABS by the sign of its operand (R97). -/
theorem ite_neg_eq_natAbs (x : Int) : (if 0 ≤ x then x else -x) = x.natAbs := by
  split <;> omega

theorem unaryIntegerResults : Rules.UnaryIntegerResults := by
  refine ⟨fun x => ?not, fun x => ?neg, fun x => ?abs, fun x => ?mov, fun x => ?popc, fun x => ?clz, fun x => ?ctz, fun x => ?brev⟩
  case not =>
    refine .of_result (fun _ => rfl) (fun _ => rfl) fun l => ?_
    simp only [UOp.result, nar_eq_modW, modW_not, extW_extW]
  case neg =>
    refine .of_result (fun _ => rfl) (fun _ => rfl) fun l => ?_
    simp only [UOp.result, nar_eq_modW, Lane.zv_eq_z, extW_modW]
  case abs =>
    refine .of_result (fun _ => rfl) (fun _ => rfl) fun l => ?_
    simp only [UOp.result, nar_eq_modW, ite_neg_eq_natAbs, Lane.sv_eq_sOf, extW_modW]
  case mov =>
    refine .of_result (fun _ => rfl) (fun _ => rfl) fun l => ?_
    simp only [UOp.result, nar_eq_modW, modW_zv, extW_src]
  case popc =>
    refine .of_result_prop (fun _ => rfl) (fun _ => rfl) fun l => ?_
    rw [BOp.result, extW_count_toNat _ _ (popcount_le _ _), popcount_eq_length, Lane.zv_eq_z]
    rfl
  case clz =>
    refine .of_result_prop (fun _ => rfl) (fun _ => rfl) fun l => ?_
    rw [BOp.result, extW_count_toNat _ _ (trailing_le _ _), Lane.zv_eq_z]
    exact ⟨trailing_le _ _, leading_spec _ _ (l.src_lt 0 x.w x.a)⟩
  case ctz =>
    refine .of_result_prop (fun _ => rfl) (fun _ => rfl) fun l => ?_
    rw [BOp.result, extW_count_toNat _ _ (trailing_le _ _), Lane.zv_eq_z]
    exact ⟨trailing_le _ _, testBit_of_lt_trailing _ _, testBit_trailing _ _⟩
  case brev =>
    refine .of_result_prop (fun _ => rfl) (fun _ => rfl) fun l k hk => ?_
    rw [BOp.result, extW_ofNat_getLsbD _ _ _ hk, reverseBits_testBit _ _ _ hk, Lane.zv_eq_z]
    rfl

theorem selectAndAddressResults : Rules.SelectAndAddressResults := by
  refine ⟨fun x => ?sel, fun x => ?lea⟩ <;> refine Completes.of_result (fun _ => rfl) (fun _ => rfl) fun l => ?_
  case sel => simp [apply_ite (extW x.w), extW_src]
  case lea => simp [leaOf]

/-- Settles O3: counts by the recursion of the model's counters, CLZ as CTZ of the reversal; SEL and LEA by the value they place. -/
theorem integerUnaryAndAddressResults : Obligations.IntegerUnaryAndAddressResults := ⟨unaryIntegerResults, selectAndAddressResults⟩

end Sys2Proof.Machine
end

section
/-!
SUPPORT. The integer square root of the number formats (05 R128) is the library's.
-/

namespace Sys2Proof.Machine

theorem lt_two_pow_bitLen (m : Nat) : m < 2 ^ bitLen m := by
  unfold bitLen
  split
  · omega
  · exact Nat.lt_log2_self

theorem two_pow_bitLen_le {m : Nat} (hm : m ≠ 0) : 2 ^ (bitLen m - 1) ≤ m := by
  rw [bitLen, if_neg hm]
  exact Nat.log2_self_le hm

theorem bitLen_pos {m : Nat} (hm : m ≠ 0) : 0 < bitLen m := by
  rw [bitLen, if_neg hm]
  omega

/-- A step of Newton's method stays at or above the root. -/
theorem sqrt_le_newton {n x : Nat} (hx : 0 < x) : n.sqrt ≤ (x + n / x) / 2 := by
  have hs := Nat.sqrt_le' n
  rw [Nat.le_div_iff_mul_le (by decide)]
  by_cases h : n.sqrt * 2 ≤ x
  · exact h.trans (Nat.le_add_right _ _)
  · obtain ⟨d, hd⟩ := Nat.exists_eq_add_of_le (Nat.le_of_not_le h)
    have : d ≤ n / x := (Nat.le_div_iff_mul_le hx).2 (by zify at *; nlinarith [sq_nonneg ((n.sqrt : Int) - x)])
    omega

/-- Above the root a step at least halves the distance to it. -/
theorem newton_le {n x : Nat} (hx : n.sqrt < x) : (x + n / x) / 2 ≤ (x + n.sqrt) / 2 := by
  have hn := Nat.lt_succ_sqrt' n
  have : n / x < n.sqrt + 1 := Nat.div_lt_of_lt_mul (by nlinarith)
  omega

/-- Fuel for the distance to the root and one step more is enough. -/
theorem isqrtFrom_eq_sqrt (fuel n x : Nat) (hx : n.sqrt ≤ x) (hd : x < n.sqrt + 2 ^ fuel) : isqrtFrom (fuel + 1) n x = n.sqrt := by
  induction fuel generalizing x with
  | zero =>
    have h : x = n.sqrt := by omega
    rw [isqrtFrom]
    split
    · omega
    next hx0 =>
      have := sqrt_le_newton (n := n) (Nat.pos_of_ne_zero hx0)
      rw [if_pos (by omega), h]
  | succ fuel ih =>
    rw [isqrtFrom]
    split
    · omega
    next hx0 =>
      have hlow := sqrt_le_newton (n := n) (Nat.pos_of_ne_zero hx0)
      rcases hx.eq_or_lt with h | h
      · rw [if_pos (by rwa [← h] at hlow ⊢), h]
      · have := newton_le h
        rw [if_neg (by omega)]
        exact ih _ hlow (by rw [pow_succ] at hd; omega)

@[simp] theorem isqrt_eq_sqrt (n : Nat) : isqrt n = n.sqrt := by
  have hn := lt_two_pow_bitLen n
  have hstart : n < (2 ^ (bitLen n / 2 + 1)) ^ 2 := by
    rw [← pow_mul]
    exact hn.trans_le (Nat.pow_le_pow_right (by decide) (by omega))
  have hfuel : 2 ^ (bitLen n / 2 + 1) < 2 ^ (bitLen n + 7) := Nat.pow_lt_pow_right (by decide) (by omega)
  exact isqrtFrom_eq_sqrt _ _ _ (Nat.sqrt_lt'.2 hstart).le (by omega)

end Sys2Proof.Machine
end

section
/-!
SUPPORT. The f32 encodings by their 31 magnitude bits (05 R110): the value of a magnitude, its order, and what `V` makes of a word.
-/

namespace Sys2Proof.Machine

/-! ### The value of a magnitude -/

/-- The significand of a magnitude of f32. -/
def f32Sig (k : Nat) : Nat := if k < 2 ^ 23 then k else 2 ^ 23 + k % 2 ^ 23

/-- The exponent of the last bit of a magnitude's significand. -/
def f32Exp (k : Nat) : Int := if k < 2 ^ 23 then -149 else (k / 2 ^ 23 : Nat) - 150

/-- The value of a magnitude; infinity's is 2^128, where the finite ones would go on. -/
def magVal (k : Nat) : ℚ := f32Sig k * 2 ^ f32Exp k

theorem f32Sig_lt (k : Nat) : f32Sig k < 2 ^ 24 := by
  unfold f32Sig
  split <;> omega

theorem f32Exp_ge (k : Nat) : -149 ≤ f32Exp k := by
  unfold f32Exp
  split <;> omega

theorem f32Sig_eq_zero {k : Nat} : f32Sig k = 0 ↔ k = 0 := by
  unfold f32Sig
  split <;> omega

/-- The significand `n` at exponent `q` stands at this magnitude, subnormal at the least exponent and normal above it. -/
theorem magVal_encode {n : Nat} {q : Int} (hq : -149 ≤ q) (hn : n < 2 ^ 24) (hnorm : q = -149 ∨ 2 ^ 23 ≤ n) :
    f32Sig ((q + 149).toNat * 2 ^ 23 + n) = n ∧ f32Exp ((q + 149).toNat * 2 ^ 23 + n) = q := by
  unfold f32Sig f32Exp
  constructor <;> split <;> omega

/-- The next magnitude is one unit in the last place higher. -/
theorem magVal_succ (k : Nat) : magVal (k + 1) = magVal k + 2 ^ f32Exp k := by
  have h : (f32Sig (k + 1) = f32Sig k + 1 ∧ f32Exp (k + 1) = f32Exp k)
      ∨ (2 * f32Sig (k + 1) = f32Sig k + 1 ∧ f32Exp (k + 1) = f32Exp k + 1) := by
    unfold f32Sig f32Exp
    split <;> split <;> omega
  rcases h with ⟨hs, he⟩ | ⟨hs, he⟩
  · rw [magVal, magVal, hs, he]
    push_cast
    ring
  · have hs' : 2 * (f32Sig (k + 1) : ℚ) = f32Sig k + 1 := by exact_mod_cast hs
    rw [magVal, magVal, he, zpow_add_one₀ two_ne_zero]
    linear_combination (2 : ℚ) ^ f32Exp k * hs'

theorem magVal_strictMono : StrictMono magVal := strictMono_nat_of_lt_succ fun k => by
  rw [magVal_succ]
  exact lt_add_of_pos_right _ (by positivity)

@[simp] theorem magVal_lt_magVal {j k : Nat} : magVal j < magVal k ↔ j < k := magVal_strictMono.lt_iff_lt

@[simp] theorem magVal_le_magVal {j k : Nat} : magVal j ≤ magVal k ↔ j ≤ k := magVal_strictMono.le_iff_le

@[simp] theorem magVal_zero : magVal 0 = 0 := by simp [magVal, f32Sig]

theorem magVal_nonneg (k : Nat) : 0 ≤ magVal k := by
  rw [← magVal_zero, magVal_le_magVal]
  exact k.zero_le

/-- A unit in the last place is at most 2^-23 of a value, or the least subnormal. -/
theorem two_zpow_f32Exp_le (k : Nat) : (2 : ℚ) ^ f32Exp k ≤ max (2 ^ (-149 : Int)) (2 ^ (-23 : Int) * magVal k) := by
  by_cases hk : k < 2 ^ 23
  · exact le_max_of_le_left (by rw [f32Exp, if_pos hk])
  · refine le_max_of_le_right ?_
    have hs : (2 ^ 23 : ℚ) ≤ f32Sig k := by
      rw [f32Sig, if_neg hk]
      push_cast
      exact le_add_of_nonneg_right (by positivity)
    rw [magVal, ← mul_assoc]
    refine le_mul_of_one_le_left (by positivity) ?_
    norm_num
    linarith

/-- The magnitudes from 2^24 units of a grid on stand on the grid. -/
theorem magVal_on_grid (k : Nat) (g : Int) : magVal k < 2 ^ (24 + g) ∨ ∃ N : Nat, magVal k = N * 2 ^ g := by
  rcases lt_or_ge (f32Exp k) g with h | h
  · left
    calc magVal k < 2 ^ 24 * 2 ^ f32Exp k := by
          exact mul_lt_mul_of_pos_right (by exact_mod_cast f32Sig_lt k) (by positivity)
      _ ≤ 2 ^ 24 * 2 ^ g := by gcongr; norm_num
      _ = 2 ^ (24 + g) := by rw [zpow_add₀ two_ne_zero]; rfl
  · right
    obtain ⟨d, hd⟩ := Int.eq_ofNat_of_zero_le (sub_nonneg.2 h)
    refine ⟨f32Sig k * 2 ^ d, ?_⟩
    rw [magVal, show f32Exp k = d + g by omega, zpow_add₀ two_ne_zero]
    push_cast
    rw [zpow_natCast, mul_assoc]

theorem magVal_one : magVal 1 = 2 ^ (-149 : Int) := by
  norm_num [magVal, f32Sig, f32Exp]

theorem magVal_infinity : magVal 0x7F800000 = 2 ^ (128 : Int) := by
  norm_num [magVal, f32Sig, f32Exp]

/-- The magnitude of a power of two that is normal. -/
theorem magVal_eq_two_zpow {k : Nat} {e : Int} (h : f32Sig k = 2 ^ 23) (he : f32Exp k = e - 23) : magVal k = 2 ^ e := by
  rw [magVal, h, he, zpow_sub₀ two_ne_zero]
  push_cast
  field_simp

/-! ### A word's value -/

/-- `V` of an f32 by its magnitude bits and its sign bit. -/
theorem V_f32 (b : Nat) : V .f32 b =
    if b % 2 ^ 31 = 0x7F800000 then .inf (b.testBit 31)
    else if 0x7F800000 < b % 2 ^ 31 then .nan
    else .fin (b.testBit 31) (f32Sig (b % 2 ^ 31)) (f32Exp (b % 2 ^ 31)) := by
  have hs : (b / 2 ^ 31 % 2 == 1) = b.testBit 31 := Nat.testBit_eq_decide_div_mod_eq.symm
  have hk : b % 2 ^ 31 / 2 ^ 23 = 0 ↔ b % 2 ^ 31 < 2 ^ 23 := Nat.div_eq_zero_iff_lt (by decide)
  simp only [V, Bool.or_eq_true, Bool.and_eq_true, decide_eq_true_eq, beq_iff_eq]
  simp only [FFmt.ew, FFmt.mw, FFmt.ieee, FFmt.infEnc, FFmt.bias, Nat.reduceAdd, hs, hk, true_and, reduceCtorEq, false_and, or_false]
  split
  · rfl
  split
  · rfl
  rw [f32Sig, f32Exp]
  split
  next h =>
    rw [Nat.mod_eq_of_lt h]
    rfl
  next =>
    congr 1
    omega

theorem V_f32_nan {b : Nat} (h : 0x7F800000 < b % 2 ^ 31) : V .f32 b = .nan := by
  rw [V_f32, if_neg (by omega), if_pos h]

theorem V_f32_inf {b : Nat} (h : b % 2 ^ 31 = 0x7F800000) : V .f32 b = .inf (b.testBit 31) := by
  rw [V_f32, if_pos h]

theorem V_f32_fin {b : Nat} (h : b % 2 ^ 31 < 0x7F800000) :
    V .f32 b = .fin (b.testBit 31) (f32Sig (b % 2 ^ 31)) (f32Exp (b % 2 ^ 31)) := by
  rw [V_f32, if_neg h.ne, if_neg h.not_gt]

/-- The value of a finite exact value is its magnitude with its sign. -/
theorem FV.val_fin (s : Bool) (m : Nat) (e : Int) : (FV.fin s m e).val = if s then -((m : ℚ) * 2 ^ e) else (m : ℚ) * 2 ^ e := by
  cases s <;> simp [FV.val]

theorem V_f32_val {b : Nat} (h : b % 2 ^ 31 < 0x7F800000) :
    (V .f32 b).val = if b.testBit 31 then -magVal (b % 2 ^ 31) else magVal (b % 2 ^ 31) := by
  rw [V_f32_fin h, FV.val_fin]
  rfl

theorem V_f32_finite {b : Nat} (h : b % 2 ^ 31 < 0x7F800000) : (V .f32 b).finite := by
  rw [V_f32_fin h, FV.finite]

/-- The value of a sign put before a magnitude. -/
theorem V_f32_signed {k : Nat} (s : Bool) (hk : k < 0x7F800000) :
    (V .f32 (signed .f32 s k)).finite ∧ (V .f32 (signed .f32 s k)).val = if s then -magVal k else magVal k := by
  have hmod : signed .f32 s k % 2 ^ 31 = k := by
    cases s <;> simp only [signed, FFmt.ew, FFmt.mw, if_true, if_false, Bool.false_eq_true] <;> omega
  have hsign : (signed .f32 s k).testBit 31 = s := by
    cases s <;> simp only [signed, FFmt.ew, FFmt.mw, if_true, if_false, Bool.false_eq_true, Nat.testBit_eq_decide_div_mod_eq] <;>
      simp <;> omega
  have h : signed .f32 s k % 2 ^ 31 < 0x7F800000 := hmod.trans_lt hk
  refine ⟨V_f32_finite h, ?_⟩
  rw [V_f32_val h, hmod, hsign]

end Sys2Proof.Machine
end

section
/-!
SUPPORT. Rounding to f32 (05 R113, R34) gives one of the two magnitudes next to the value, whatever the mode.
-/

namespace Sys2Proof.Machine

/-! ### Neighbours of a value -/

/-- No magnitude of f32 lies strictly between `c` and the value: it is the last one below or the first one above, and the value's own
where there is one. -/
def Adjacent (c : Nat) (X : ℚ) : Prop := ∀ j, (magVal j ≤ X → j ≤ c) ∧ (X ≤ magVal j → c ≤ j)

theorem Adjacent.of_le {k c : Nat} {X : ℚ} (hl : magVal k ≤ X) (hu : X < magVal (k + 1)) (hc : c = k ∨ c = k + 1 ∧ magVal k < X) :
    Adjacent c X := by
  intro j
  have below : magVal j ≤ X → j ≤ k := fun h => Nat.le_of_lt_succ (magVal_lt_magVal.1 (h.trans_lt hu))
  have above : X ≤ magVal j → k ≤ j := fun h => magVal_le_magVal.1 (hl.trans h)
  rcases hc with rfl | ⟨rfl, hlt⟩
  · exact ⟨below, above⟩
  · exact ⟨fun h => (below h).trans k.le_succ, fun h => magVal_lt_magVal.1 (hlt.trans_le h)⟩

namespace Adjacent

variable {c : Nat} {X : ℚ} (h : Adjacent c X)
include h

theorem le_of_le {j : Nat} (hj : X ≤ magVal j) : magVal c ≤ magVal j := magVal_le_magVal.2 ((h j).2 hj)

theorem ge_of_ge {j : Nat} (hj : magVal j ≤ X) : magVal j ≤ magVal c := magVal_le_magVal.2 ((h j).1 hj)

theorem eq_of_eq {j : Nat} (hj : X = magVal j) : c = j := le_antisymm ((h j).2 hj.le) ((h j).1 hj.ge)

theorem lt_succ : X < magVal (c + 1) := by
  by_contra hn
  have := (h (c + 1)).1 (le_of_not_gt hn)
  omega

theorem pred_lt {b : Nat} (hb : c = b + 1) : magVal b < X := by
  by_contra hn
  have := (h b).2 (le_of_not_gt hn)
  omega

/-- The value lies no more than a unit in the last place away. -/
theorem abs_sub_le (hX : 0 ≤ X) : |magVal c - X| ≤ max (2 ^ (-149 : Int)) (2 ^ (-23 : Int) * X) := by
  have unit (k : Nat) (hk : magVal k ≤ X) (hd : |magVal c - X| ≤ 2 ^ f32Exp k) :
      |magVal c - X| ≤ max (2 ^ (-149 : Int)) (2 ^ (-23 : Int) * X) :=
    (hd.trans (two_zpow_f32Exp_le k)).trans (max_le_max_left _ (by gcongr))
  rcases le_total (magVal c) X with hc | hc
  · refine unit c hc ?_
    have := h.lt_succ
    rw [magVal_succ] at this
    rw [abs_le]
    constructor <;> linarith
  · cases c with
    | zero =>
      rw [magVal_zero] at hc ⊢
      rw [le_antisymm hc hX]
      simp
    | succ b =>
      have hb := h.pred_lt rfl
      refine unit b hb.le ?_
      rw [magVal_succ] at hc ⊢
      rw [abs_le]
      constructor <;> linarith

end Adjacent

/-! ### Rounding at a quantum -/

theorem cut_spec (m k : Nat) : (cut m k).1 = m / 2 ^ k ∧ ((cut m k).2 = .exact ↔ m % 2 ^ k = 0) := by
  unfold cut
  split
  next h => simp [h, Nat.mod_one]
  split
  next h =>
    have : m < 2 ^ k := (lt_two_pow_bitLen m).trans_le (Nat.pow_le_pow_right (by decide) (by omega))
    rw [Nat.div_eq_of_lt this, Nat.mod_eq_of_lt this]
    refine ⟨rfl, ?_⟩
    dsimp only
    split <;> simp [*]
  next =>
    refine ⟨rfl, ?_⟩
    dsimp only
    split
    · simp [*]
    · split
      · simp [*]
      · split <;> simp [*]

/-- A mode that rounds a magnitude up gives infinity where it overflows. -/
theorem overEnc_of_roundUp {rm : Rm} {neg : Bool} {n : Nat} {r : Rest} (h : roundUp rm neg n r = true) (f : FFmt) (inf : Nat) :
    overEnc f rm neg inf = inf := by
  cases rm <;> cases neg <;> cases r <;> simp_all [roundUp, overEnc]

/-- `m × 2^e` in units of `2^q` is cut to a whole number, or to the next when it is none and the mode rounds up. -/
theorem roundAt_spec (rm : Rm) (neg : Bool) (m : Nat) (e q : Int) :
    ∃ N : Nat, N * (2 : ℚ) ^ q ≤ m * 2 ^ e ∧ m * (2 : ℚ) ^ e < (N + 1) * 2 ^ q ∧
      ((roundAt rm neg m e q).1 = N
        ∨ (roundAt rm neg m e q).1 = N + 1 ∧ N * (2 : ℚ) ^ q < m * 2 ^ e ∧ ∃ r, roundUp rm neg N r = true) := by
  have hq : (0 : ℚ) < 2 ^ q := by positivity
  unfold roundAt
  split
  next h =>
    obtain ⟨d, hd⟩ := Int.eq_ofNat_of_zero_le (sub_nonneg.2 h)
    have hval : (m : ℚ) * 2 ^ e = (m * 2 ^ d : Nat) * 2 ^ q := by
      rw [show e = d + q by omega, zpow_add₀ two_ne_zero]
      push_cast
      rw [zpow_natCast, mul_assoc]
    refine ⟨m * 2 ^ d, hval.ge, ?_, .inl (by simp [hd])⟩
    rw [hval]
    linarith
  next h =>
    obtain ⟨d, hd⟩ := Int.eq_ofNat_of_zero_le (show 0 ≤ q - e by omega)
    have hunit : (2 : ℚ) ^ q = 2 ^ d * 2 ^ e := by
      rw [show q = d + e by omega, zpow_add₀ two_ne_zero, zpow_natCast]
    have hpos : (0 : ℚ) < 2 ^ e := by positivity
    obtain ⟨hfst, hexact⟩ := cut_spec m d
    have hle : ((m / 2 ^ d : Nat) : ℚ) * 2 ^ d ≤ m := by exact_mod_cast Nat.div_mul_le_self m (2 ^ d)
    have hlt : (m : ℚ) < ((m / 2 ^ d : Nat) + 1) * 2 ^ d := by
      rw [mul_comm]
      exact_mod_cast Nat.lt_mul_div_succ m (Nat.two_pow_pos d)
    refine ⟨m / 2 ^ d, ?_, ?_, ?_⟩
    · rw [hunit, ← mul_assoc]
      gcongr
    · rw [hunit, ← mul_assoc]
      gcongr
    · rw [hd, Int.toNat_natCast]
      dsimp only
      rw [hfst]
      split
      next hup =>
        refine .inr ⟨rfl, ?_, _, hup⟩
        have hne : m % 2 ^ d ≠ 0 := fun h0 => by simp [hexact.2 h0, roundUp] at hup
        have hlt' : ((m / 2 ^ d : Nat) : ℚ) * 2 ^ d < m := by
          have := Nat.div_add_mod' m (2 ^ d)
          exact_mod_cast (show m / 2 ^ d * 2 ^ d < m by omega)
        rw [hunit, ← mul_assoc]
        gcongr
      next => exact .inl rfl

/-! ### Rounding to f32 -/

section
variable (v g : Int)

/-- A whole number of units, as the model writes it, by its magnitude. -/
theorem natAbs_mul_two_zpow : (v.natAbs : ℚ) * 2 ^ g = |(v : ℚ) * 2 ^ g| := by
  rw [abs_mul, abs_of_pos (by positivity : (0 : ℚ) < 2 ^ g), Nat.cast_natAbs, Int.cast_abs]

/-- A whole number of units, by its sign. -/
theorem sign_mul_two_zpow : ((v : ℚ) * 2 ^ g ≤ 0 ∧ decide (v < 0) = true) ∨ (0 ≤ (v : ℚ) * 2 ^ g ∧ decide (v < 0) = false) := by
  have hpos : (0 : ℚ) < 2 ^ g := by positivity
  rcases lt_or_ge v 0 with hv | hv
  · exact .inl ⟨mul_nonpos_of_nonpos_of_nonneg (by exact_mod_cast hv.le) hpos.le, decide_eq_true hv⟩
  · exact .inr ⟨mul_nonneg (by exact_mod_cast hv) hpos.le, decide_eq_false hv.not_gt⟩

end

theorem lt_two_zpow_bitLen (m : Nat) (e : Int) : (m : ℚ) * 2 ^ e < 2 ^ (e + bitLen m) := by
  rw [zpow_add₀ two_ne_zero, mul_comm, zpow_natCast]
  gcongr
  exact_mod_cast lt_two_pow_bitLen m

theorem two_zpow_bitLen_le {m : Nat} (hm : m ≠ 0) (e : Int) : (2 : ℚ) ^ (e + bitLen m - 1) ≤ m * 2 ^ e := by
  have := bitLen_pos hm
  rw [show e + (bitLen m : Int) - 1 = (bitLen m - 1 : Nat) + e by omega, zpow_add₀ two_ne_zero, zpow_natCast]
  gcongr
  exact_mod_cast two_pow_bitLen_le hm

/-- A quantity between two neighbouring multiples of a quantum, of at most 24 bits and normal unless the quantum is the least, lies
between the two magnitudes that these are. -/
theorem magVal_bounds {N : Nat} {q : Int} {X : ℚ} (hq : -149 ≤ q) (hX : X < 2 ^ (24 + q)) (hnorm : q = -149 ∨ 2 ^ (23 + q) ≤ X)
    (hl : N * 2 ^ q ≤ X) (hu : X < (N + 1) * 2 ^ q) :
    magVal ((q + 149).toNat * 2 ^ 23 + N) = N * 2 ^ q ∧ X < magVal ((q + 149).toNat * 2 ^ 23 + N + 1) := by
  have hpos : (0 : ℚ) < 2 ^ q := by positivity
  have hN : N < 2 ^ 24 := by
    have : (N : ℚ) * 2 ^ q < 2 ^ 24 * 2 ^ q := by
      rw [zpow_add₀ two_ne_zero] at hX
      exact hl.trans_lt hX
    exact_mod_cast lt_of_mul_lt_mul_right this hpos.le
  have hN' : q = -149 ∨ 2 ^ 23 ≤ N := hnorm.imp_right fun h => by
    have : (2 ^ 23 : ℚ) * 2 ^ q < (N + 1) * 2 ^ q := by
      rw [zpow_add₀ two_ne_zero] at h
      exact h.trans_lt hu
    exact Nat.le_of_lt_succ (by exact_mod_cast lt_of_mul_lt_mul_right this hpos.le)
  obtain ⟨hs, he⟩ := magVal_encode hq hN hN'
  have hv : magVal ((q + 149).toNat * 2 ^ 23 + N) = N * 2 ^ q := by rw [magVal, hs, he]
  exact ⟨hv, by rw [magVal_succ, hv, he]; linarith⟩

theorem adjacent_magVal (k : Nat) : Adjacent k (magVal k) := fun _ => ⟨magVal_le_magVal.1, magVal_le_magVal.1⟩

/-- The quantum of rounding to f32: 24 bits, and no finer than the subnormals. -/
def f32Quantum (m : Nat) (e : Int) : Int := max (e + bitLen m - 1 - 23) (-149)

theorem f32Quantum_spec {m : Nat} (hm : m ≠ 0) (e : Int) : -149 ≤ f32Quantum m e ∧ (m : ℚ) * 2 ^ e < 2 ^ (24 + f32Quantum m e)
    ∧ (f32Quantum m e = -149 ∨ (2 : ℚ) ^ (23 + f32Quantum m e) ≤ m * 2 ^ e) := by
  unfold f32Quantum
  exact ⟨le_max_right _ _, (lt_two_zpow_bitLen m e).trans_le (zpow_le_zpow_right₀ one_le_two (by omega)),
    (max_choice (e + bitLen m - 1 - 23 : Int) (-149)).symm.imp id
      fun h => (zpow_le_zpow_right₀ one_le_two (by omega)).trans (two_zpow_bitLen_le hm e)⟩

theorem round_f32_fst (rm : Rm) (neg : Bool) {m : Nat} (e : Int) (hm : m ≠ 0) (c : Nat)
    (hc : c = (f32Quantum m e + 149).toNat * 2 ^ 23 + (roundAt rm neg m e (f32Quantum m e)).1) :
    (Machine.round .f32 rm false (.fin neg m e)).1 =
      signed .f32 neg (if 0x7F7FFFFF < c then overEnc .f32 rm neg 0x7F800000 else c) := by
  have hmin : (1 : Int) - FFmt.f32.bias - FFmt.f32.mw = -149 := rfl
  have hq : max (e + bitLen m - 1 - FFmt.f32.mw) (-149) = f32Quantum m e := rfl
  simp only [Machine.round, if_neg hm, hmin, hq, sub_neg_eq_add, apply_ite Prod.fst]
  rw [hc, apply_ite (signed .f32 neg)]
  rfl

/-- Rounding below 2^128: a sign and a magnitude next to the value; towards -∞ a positive value is not exceeded. -/
theorem round_f32_adjacent (rm : Rm) (neg : Bool) (m : Nat) (e : Int) (hX : (m : ℚ) * 2 ^ e < 2 ^ (128 : Int)) :
    ∃ c, (Machine.round .f32 rm false (.fin neg m e)).1 = signed .f32 neg c ∧ Adjacent c (m * 2 ^ e)
      ∧ (rm = .rd → neg = false → magVal c ≤ m * 2 ^ e) := by
  by_cases hm : m = 0
  · subst hm
    exact ⟨0, by simp [Machine.round], by simpa using adjacent_magVal 0, by simp⟩
  obtain ⟨hq, hlt, hnorm⟩ := f32Quantum_spec hm e
  have hfst := round_f32_fst rm neg e hm _ rfl
  set q := f32Quantum m e
  obtain ⟨N, hl, hu, hn⟩ := roundAt_spec rm neg m e q
  obtain ⟨hv, hnext⟩ := magVal_bounds hq hlt hnorm hl hu
  set k := (q + 149).toNat * 2 ^ 23 + N with hk
  have hkmax : k < 0x7F800000 := by
    rw [← magVal_lt_magVal, magVal_infinity, hv]
    exact hl.trans_lt hX
  rw [← hv] at hl hn
  rcases hn with hn | ⟨hn, hlt, r, hup⟩
  · refine ⟨k, ?_, .of_le hl hnext (.inl rfl), fun _ _ => hl⟩
    rw [hfst, hn, ← hk, if_neg (by omega)]
  · have hover (inf : Nat) := overEnc_of_roundUp hup .f32 inf
    refine ⟨k + 1, ?_, .of_le hl hnext (.inr ⟨rfl, hlt⟩), ?_⟩
    · rw [hfst, hn, ← add_assoc, ← hk, hover]
      split
      · exact congrArg (signed .f32 neg) (by omega)
      · rfl
    · rintro rfl rfl
      exact absurd (hover 0) (by decide)

/-- A rounded word below 2^128: its sign and magnitude. -/
theorem roundF32_adjacent (rm : Rm) (neg : Bool) (m : Nat) (e : Int) (hX : (m : ℚ) * 2 ^ e < 2 ^ (128 : Int)) :
    ∃ c, (roundF32 rm (.fin neg m e)).1.toNat = signed .f32 neg c ∧ Adjacent c (m * 2 ^ e)
      ∧ (rm = .rd → neg = false → magVal c ≤ m * 2 ^ e) := by
  obtain ⟨c, hc, hadj, hrd⟩ := round_f32_adjacent rm neg m e hX
  refine ⟨c, ?_, hadj, hrd⟩
  have hcmax : c ≤ 0x7F800000 := (hadj _).2 (by rw [magVal_infinity]; exact hX.le)
  have hlt : signed .f32 neg c < 2 ^ 32 := by
    cases neg <;> simp only [signed, FFmt.ew, FFmt.mw, if_true, if_false, Bool.false_eq_true] <;> omega
  rw [roundF32, BitVec.toNat_ofNat, hc, Nat.mod_eq_of_lt hlt]

/-- A bracketing word is next to the value, whichever of the two it is. -/
theorem bracket_adjacent (up neg : Bool) (m : Nat) (e : Int) (hX : (m : ℚ) * 2 ^ e < 2 ^ (128 : Int)) :
    ∃ c, (bracket up (.fin neg m e)).toNat = signed .f32 neg c ∧ Adjacent c (m * 2 ^ e) := by
  obtain ⟨lo, hlo, hloAdj, -⟩ := roundF32_adjacent .rd neg m e hX
  obtain ⟨hi, hhi, hhiAdj, -⟩ := roundF32_adjacent .ru neg m e hX
  unfold bracket
  dsimp only
  split
  · exact ⟨lo, hlo, hloAdj⟩
  · split
    · exact ⟨hi, hhi, hhiAdj⟩
    · exact ⟨lo, hlo, hloAdj⟩

/-- A value of at most 24 bits is some magnitude's. -/
theorem exists_magVal {n : Nat} {q : Int} (hn : n < 2 ^ 24) (hq : -149 ≤ q) : ∃ j, magVal j = n * 2 ^ q := by
  by_cases hn0 : n = 0
  · exact ⟨0, by simp [hn0]⟩
  have hle : f32Quantum n q ≤ q := by
    have : bitLen n ≤ 24 := by
      rw [bitLen, if_neg hn0]
      exact Nat.log2_lt hn0 |>.2 hn
    unfold f32Quantum
    omega
  obtain ⟨d, hd⟩ := Int.eq_ofNat_of_zero_le (sub_nonneg.2 hle)
  obtain ⟨hmin, hlt, hnorm⟩ := f32Quantum_spec hn0 q
  have hval : ((n * 2 ^ d : Nat) : ℚ) * 2 ^ f32Quantum n q = n * 2 ^ q := by
    conv_rhs => rw [show q = d + f32Quantum n q by omega, zpow_add₀ two_ne_zero, zpow_natCast]
    push_cast
    ring
  have hpos : (0 : ℚ) < 2 ^ f32Quantum n q := by positivity
  exact ⟨_, (magVal_bounds hmin hlt hnorm hval.le (by rw [← hval]; linarith)).1.trans hval⟩

end Sys2Proof.Machine
end

section
/-!
SUPPORT. f32 words as the statements read them: NaN, sign and order by the bits (05 R110, R111), and the words that complete with a 32-bit
result and flags (R109, R123).
-/

namespace Sys2Proof.Machine

/-! ### Classes of words -/

/-- The magnitude bits of a word. -/
def mag (A : Word) : Nat := A.toNat % 2 ^ 31

theorem nanWord_iff {A : Word} : nanWord A = true ↔ 0x7F800000 < mag A := decide_eq_true_iff

theorem nanWord_eq_false_iff {A : Word} : nanWord A = false ↔ mag A ≤ 0x7F800000 := by
  rw [nanWord, decide_eq_false_iff_not, not_lt, mag]

theorem getLsbD_31_eq (A : Word) : A.getLsbD 31 = decide (2 ^ 31 ≤ A.toNat) := by
  have := A.isLt
  rw [BitVec.getLsbD, Nat.testBit_eq_decide_div_mod_eq, decide_eq_decide]
  omega

/-- A word is its sign bit and its magnitude. -/
theorem eq_of_mag {A B : Word} (hs : A.getLsbD 31 = B.getLsbD 31) (hm : mag A = mag B) : A = B := by
  have ha := A.isLt
  have hb := B.isLt
  rw [getLsbD_31_eq, getLsbD_31_eq, decide_eq_decide] at hs
  unfold mag at hm
  apply BitVec.eq_of_toNat_eq
  omega

theorem V_f32_toNat (A : Word) : V .f32 A.toNat = v32 A := rfl

theorem v32_nan {A : Word} (h : nanWord A = true) : v32 A = .nan := V_f32_nan (nanWord_iff.1 h)

theorem v32_inf {A : Word} (h : mag A = 0x7F800000) : v32 A = .inf (A.getLsbD 31) := V_f32_inf h

theorem v32_fin {A : Word} (h : mag A < 0x7F800000) : v32 A = .fin (A.getLsbD 31) (f32Sig (mag A)) (f32Exp (mag A)) := V_f32_fin h

theorem v32_val {A : Word} (h : mag A < 0x7F800000) : (v32 A).val = if A.getLsbD 31 then -magVal (mag A) else magVal (mag A) :=
  V_f32_val h

@[simp] theorem isNan_v32 (A : Word) : (v32 A).isNan = nanWord A := by
  cases h : nanWord A
  · rcases (nanWord_eq_false_iff.1 h).eq_or_lt with h | h
    · rw [v32_inf h]; rfl
    · rw [v32_fin h]; rfl
  · rw [v32_nan h]; rfl

@[simp] theorem isSnan_f32 (A : Word) : isSnan .f32 A.toNat = snanWord A := by
  have hbit : (A.toNat / 2 ^ 22 % 2 == 0) = !A.getLsbD 22 := by
    rw [BitVec.getLsbD, Nat.testBit_eq_decide_div_mod_eq]
    rcases Nat.mod_two_eq_zero_or_one (A.toNat / 2 ^ 22) with h | h <;> rw [h] <;> rfl
  rw [snanWord, ← isNan_v32, ← hbit]
  rfl

@[simp] theorem readFl_f32 (A : Word) : readFl .f32 A.toNat = flIf (snanWord A) nv := by rw [readFl, isSnan_f32]

@[simp] theorem readFls_one (A : Word) : readFls [A] = flIf (snanWord A) nv := by simp [readFls]

@[simp] theorem readFls_two (A B : Word) : readFls [A, B] = flIf (snanWord A || snanWord B) nv := by
  cases ha : snanWord A <;> cases hb : snanWord B <;> simp [readFls, ha, hb, flIf]

theorem snanWord_eq_false {A : Word} (h : nanWord A = false) : snanWord A = false := by simp [snanWord, h]

/-! ### Order -/

/-- A finite exact value as a whole number of units no greater than its own. -/
theorem FV.val_fin_eq_units (s : Bool) (m : Nat) {e q : Int} (h : q ≤ e) :
    (FV.fin s m e).val = ((if s then -((m * 2 ^ (e - q).toNat : Nat) : Int) else (m * 2 ^ (e - q).toNat : Nat) : Int) : ℚ) * 2 ^ q := by
  have hunit : (2 : ℚ) ^ e = 2 ^ (e - q).toNat * 2 ^ q := by
    rw [← zpow_natCast, ← zpow_add₀ two_ne_zero, Int.toNat_of_nonneg (by omega), sub_add_cancel]
  rw [FV.val_fin, hunit]
  cases s <;> push_cast <;> simp [mul_assoc]

/-- Finite exact values are ordered as their values. -/
theorem fvLt_fin (s t : Bool) (m n : Nat) (e g : Int) :
    fvLt (.fin s m e) (.fin t n g) = decide ((FV.fin s m e).val < (FV.fin t n g).val) := by
  rw [FV.val_fin_eq_units s m (min_le_left e g), FV.val_fin_eq_units t n (min_le_right e g), fvLt, decide_eq_decide,
    mul_lt_mul_iff_of_pos_right (by positivity), Int.cast_lt]

/-- Magnitudes with signs are ordered as their values. -/
theorem signed_magVal_lt (s t : Bool) (j k : Nat) :
    ((if s then -magVal j else magVal j) < if t then -magVal k else magVal k) ↔
      (if s then -(j : Int) else j) < if t then -(k : Int) else k := by
  have hj := magVal_nonneg j
  have hk := magVal_nonneg k
  have zero (i : Nat) : 0 < magVal i ↔ 0 < i := by rw [← magVal_zero, magVal_lt_magVal]
  cases s <;> cases t <;> simp only [if_true, if_false, Bool.false_eq_true]
  · exact magVal_lt_magVal.trans (by omega)
  · exact iff_of_false (by linarith) (by omega)
  · calc -magVal j < magVal k ↔ 0 < magVal j ∨ 0 < magVal k := by
          constructor
          · intro h
            by_contra hn
            rw [not_or, not_lt, not_lt] at hn
            linarith
          · rintro (h | h) <;> linarith
      _ ↔ 0 < j ∨ 0 < k := or_congr (zero j) (zero k)
      _ ↔ -(j : Int) < k := by omega
  · rw [neg_lt_neg_iff, magVal_lt_magVal]
    omega

theorem fvLt_v32_of_not_nan {A B : Word} (ha : nanWord A = false) (hb : nanWord B = false) :
    fvLt (v32 A) (v32 B) = decide (orderKey A < orderKey B) := by
  have keyA : orderKey A = if A.getLsbD 31 then -(mag A : Int) else mag A := rfl
  have keyB : orderKey B = if B.getLsbD 31 then -(mag B : Int) else mag B := rfl
  rw [keyA, keyB]
  rcases (nanWord_eq_false_iff.1 ha).eq_or_lt with ha | ha <;> rcases (nanWord_eq_false_iff.1 hb).eq_or_lt with hb | hb
  · rw [v32_inf ha, v32_inf hb, ha, hb]
    cases A.getLsbD 31 <;> cases B.getLsbD 31 <;> rfl
  · rw [v32_inf ha, v32_fin hb, ha]
    change A.getLsbD 31 = _
    cases A.getLsbD 31 <;> cases B.getLsbD 31 <;> simp <;> omega
  · rw [v32_fin ha, v32_inf hb, hb]
    change (!B.getLsbD 31) = _
    cases A.getLsbD 31 <;> cases B.getLsbD 31 <;> simp <;> omega
  · rw [v32_fin ha, v32_fin hb, fvLt_fin, ← v32_fin ha, ← v32_fin hb, v32_val ha, v32_val hb, decide_eq_decide, signed_magVal_lt]

theorem fvLt_nan {x y : FV} (h : (x.isNan || y.isNan) = true) : fvLt x y = false := by
  cases x <;> cases y <;> simp_all [FV.isNan, fvLt]

/-- Words are ordered as their keys, and a NaN stands in no order. -/
theorem fvLt_v32 (A B : Word) : fvLt (v32 A) (v32 B) = (!(nanWord A || nanWord B) && decide (orderKey A < orderKey B)) := by
  cases h : nanWord A || nanWord B
  · obtain ⟨ha, hb⟩ := Bool.or_eq_false_iff.1 h
    simpa using fvLt_v32_of_not_nan ha hb
  · simpa using fvLt_nan (by simpa using h)

theorem fvEq_v32 (A B : Word) : fvEq (v32 A) (v32 B) = (!(nanWord A || nanWord B) && decide (orderKey A = orderKey B)) := by
  rw [fvEq, fvLt_v32, fvLt_v32, isNan_v32, isNan_v32]
  cases nanWord A <;> cases nanWord B <;> simp only [Bool.or_false, Bool.or_true, Bool.not_true, Bool.not_false, Bool.true_and,
    Bool.false_and, Bool.and_false]
  rw [Bool.eq_iff_iff]
  simp only [Bool.and_eq_true, Bool.not_eq_true', decide_eq_false_iff_not, decide_eq_true_eq, not_lt]
  exact and_comm.trans le_antisymm_iff.symm

end Sys2Proof.Machine
end

section
/-!
The comparing words of f32 (05 R125 to R127).
-/

namespace Sys2Proof.Machine

/-! ### Words with a 32-bit result and flags (R109, R123) -/

theorem Thread.fresult_puts (t : Thread) (d : Dst) (r : Word × Fl) : Puts t (t.fresult d r).next false d (r.1.setWidth 64) r.2 := by
  have h : extW false (r.1.setWidth 64) = r.1.setWidth 64 := by
    apply BitVec.eq_of_toNat_eq
    rw [extW_toNat]
    have := r.1.isLt
    simp only [BitVec.toNat_setWidth, wid, Bool.false_eq_true, if_false]
    omega
  have := t.result_puts false d (r.1.setWidth 64) r.2
  rwa [h] at this

theorem Thread.fresult_step (t : Thread) (d : Dst) (r : Word × Fl) : (t.fresult d r).step = t.step :=
  t.result_step false d (r.1.setWidth 64)

/-- A word whose part gives each lane a 32-bit result with flags completes with them. -/
theorem Completes.of_fresult {i : Instr} {gd : Thread → Bool} {d : Dst} {r : Lane → Word × Fl} {P : Lane → Thread → Prop}
    (hx : ∀ s, exec i s = s.issue i gd (regFx fun l t => t.fresult d (r l))) (hg : ∀ t, gd t = i.on t)
    (hP : ∀ l u, Puts l.t u false d ((r l).1.setWidth 64) (r l).2 → P l u) : Completes i P :=
  Completes.of_regFx i gd _ _ hx hg (fun l t => t.fresult_step d (r l)) fun l => hP l _ (l.t.fresult_puts d (r l))

/-! ### The results by the bits of the operands -/

/-- FMIN and FMAX (R125): the operand that comes first in the order, or last. -/
theorem fminmaxOf_eq (isMax : Bool) (A B : Word) : fminmaxOf isMax A B =
    (let less := orderKey A < orderKey B ∨ (orderKey A = orderKey B ∧ A.getLsbD 31 = true ∧ B.getLsbD 31 = false)
     if nanWord A ∧ nanWord B then 0x7FC00000 else if nanWord A then B else if nanWord B then A
     else if isMax then (if less then B else A) else (if less then A else B), flIf (snanWord A || snanWord B) nv) := by
  simp only [fminmaxOf, isNan_v32, readFls_two, fvLt_v32, fvEq_v32, signBit]
  cases nanWord A <;> cases nanWord B
  case false.false =>
    have hless : (decide (orderKey A < orderKey B) || (decide (orderKey A = orderKey B) && A.getLsbD 31 && !B.getLsbD 31)) =
        decide (orderKey A < orderKey B ∨ (orderKey A = orderKey B ∧ A.getLsbD 31 = true ∧ B.getLsbD 31 = false)) := by
      rw [Bool.eq_iff_iff]
      simp [and_assoc]
    simp only [Bool.or_false, Bool.not_false, Bool.true_and, Bool.and_false, hless]
    cases isMax <;> simp only [Bool.bne_false, Bool.bne_true, Bool.not_eq_true', decide_eq_true_eq, decide_eq_false_iff_not, ite_not,
      Bool.false_eq_true, false_and, if_true, if_false]
  case false.true | true.false | true.true => simp [nan32]

/-- FCLASS's mask (R127), bit by bit of the table. -/
theorem fclassOf_eq (A : Word) : (fclassOf A).setWidth 64 = BitVec.ofNat 64 (2 ^ (
    if 0x7F800000 < mag A then (if A.getLsbD 22 then 9 else 8)
    else if mag A = 0x7F800000 then (if A.getLsbD 31 then 0 else 7)
    else if 0x00800000 ≤ mag A then (if A.getLsbD 31 then 1 else 6)
    else if 0 < mag A then (if A.getLsbD 31 then 2 else 5)
    else if A.getLsbD 31 then 3 else 4)) := by
  unfold fclassOf signBit
  rcases lt_trichotomy (mag A) 0x7F800000 with h | h | h
  · have hnormal : f32Sig (mag A) < 2 ^ 23 ↔ mag A < 0x00800000 := by
      rw [f32Sig]
      split
      · rfl
      · omega
    rw [v32_fin h]
    simp only [h.not_gt, h.ne, if_false, f32Sig_eq_zero, hnormal]
    rcases Nat.eq_zero_or_pos (mag A) with h0 | h0
    · rw [h0]
      cases A.getLsbD 31 <;> rfl
    · rw [if_neg h0.ne', if_pos h0]
      rcases lt_or_ge (mag A) 0x00800000 with h1 | h1
      · rw [if_pos h1, if_neg h1.not_ge]
        cases A.getLsbD 31 <;> rfl
      · rw [if_neg h1.not_gt, if_pos h1]
        cases A.getLsbD 31 <;> rfl
  · rw [v32_inf h, if_neg h.not_gt, if_pos h]
    cases A.getLsbD 31 <;> rfl
  · rw [v32_nan (nanWord_iff.2 h), if_pos h]
    dsimp only
    rw [isSnan_f32, snanWord, nanWord_iff.2 h]
    cases A.getLsbD 22 <;> rfl

theorem floatCompareResults : Rules.FloatCompareResults := by
  refine ⟨fun x isMax => ?minmax, fun x => ?cmp, fun x => ?fclass⟩
  case minmax =>
    cases isMax <;> refine Completes.of_fresult (fun _ => rfl) (fun _ => rfl) fun l u h => ?_ <;>
      simpa only [fminmaxOf_eq] using h
  case cmp =>
    refine Completes.of_regFx _ _ _ _ (fun _ => rfl) (fun _ => rfl) (fun _ _ => rfl) fun l => ?_
    obtain ⟨gd, p, a, b, c⟩ := x
    have h : PutsPred l.t (fcmp2 ⟨gd, p, a, b, c⟩ l l.t).next p _ _ := l.t.predResult_puts p _ _
    have hcomm (A B : Word) : (nanWord B || nanWord A) = (nanWord A || nanWord B) := Bool.or_comm _ _
    cases c <;> simp only [fcmpOf, isNan_v32, readFls_two, fvLt_v32, fvEq_v32, hcomm (l.srcF 0 a)] at h
    case eq | lt | gt | un => exact h
    case ne => simpa using h
    case le | ge => cases hun : nanWord (l.srcF 0 a) || nanWord (l.srcF 1 b) <;> simpa [hun, ← decide_not] using h
  case fclass =>
    exact Completes.of_fresult (fun _ => rfl) (fun _ => rfl) fun l u h => by rwa [fclassOf_eq] at h

end Sys2Proof.Machine
end

section
/-!
SUPPORT. The rows of R128's table, and the two functions that round by rm.
-/

namespace Sys2Proof.Machine

/-! ### The rows of the table -/

/-- The zeros and the infinities. -/
def namedWords : List Word := [0x00000000, 0x80000000, 0x7F800000, 0xFF800000]

/-- Finite and not zero: no row of the table names the value itself. -/
def plain (A : Word) : Prop := mag A ≠ 0 ∧ mag A < 0x7F800000

/-- A word is a NaN, one of the four values with rows of their own, or neither zero nor infinite. -/
theorem word_cases (A : Word) : nanWord A = true ∨ A ∈ namedWords ∨ plain A := by
  have hA (B : Word) (hm : mag A = mag B) (hs : A.getLsbD 31 = B.getLsbD 31) : A = B := eq_of_mag hs hm
  by_cases h0 : mag A = 0
  · right; left
    cases hs : A.getLsbD 31
    · simp [namedWords, hA 0x00000000 h0 hs]
    · simp [namedWords, hA 0x80000000 h0 hs]
  rcases lt_trichotomy (mag A) 0x7F800000 with h | h | h
  · exact .inr (.inr ⟨h0, h⟩)
  · right; left
    cases hs : A.getLsbD 31
    · simp [namedWords, hA 0x7F800000 h hs]
    · simp [namedWords, hA 0xFF800000 h hs]
  · exact .inl (nanWord_iff.2 h)

theorem tableRow_nan (op : Nat) {A : Word} (h : nanWord A = true) : tableRow op A = some (0x7FC00000, flIf (snanWord A) nv) := by
  rw [tableRow, if_pos h]
  rfl

theorem tableRow_plain (op : Nat) {A : Word} (h : plain A) :
    tableRow op A = if A.getLsbD 31 = true ∧ (op = 1 ∨ op = 2 ∨ op = 4) then some (0x7FC00000, nv) else none := by
  obtain ⟨h0, h1⟩ := h
  have hne (B : Word) (hB : mag B = 0 ∨ mag B = 0x7F800000) : A ≠ B := by
    rintro rfl
    omega
  have hm : decide (A.toNat % 2 ^ 31 ≠ 0) = true := decide_eq_true h0
  rw [tableRow, if_neg (by rw [nanWord_iff]; omega), if_neg (hne _ (by decide)), if_neg (hne _ (by decide)), if_neg (hne _ (by decide)),
    if_neg (hne _ (by decide)), hm, Bool.and_true]

/-- A function agrees with its column of the table when it does so at a NaN, at the four named values and, where negative
values have a row, at those. -/
theorem eq_of_tableRow {op : Nat} {f : Word → Word × Fl}
    (hnan : ∀ A, nanWord A = true → f A = (0x7FC00000, flIf (snanWord A) nv))
    (hrows : namedWords.all (fun A => tableRow op A == some (f A)) = true)
    (hneg : op = 1 ∨ op = 2 ∨ op = 4 → ∀ A, plain A → A.getLsbD 31 = true → f A = (0x7FC00000, nv))
    (A : Word) (r : Word × Fl) (h : tableRow op A = some r) : f A = r := by
  rcases word_cases A with hA | hA | hA
  · rw [tableRow_nan op hA] at h
    exact (hnan A hA).trans (Option.some.inj h)
  · exact Option.some.inj ((beq_iff_eq.1 (List.all_eq_true.1 hrows A hA)).symm.trans h)
  · rw [tableRow_plain op hA] at h
    split at h
    next hs => exact (hneg hs.2 A hA hs.1).trans (Option.some.inj h)
    next => cases h

/-- Where the table gives no result, the operand is neither zero nor infinite, and not negative if negative values have a row. -/
theorem plain_of_tableRow {op : Nat} {A : Word} (hop : op < 8) (h : tableRow op A = none) :
    plain A ∧ (op = 1 ∨ op = 2 ∨ op = 4 → A.getLsbD 31 = false) := by
  rcases word_cases A with hA | hA | hA
  · rw [tableRow_nan op hA] at h
    cases h
  · have hrow : ∀ op < 8, namedWords.all (fun A => (tableRow op A).isSome) = true := by decide
    simpa [h] using List.all_eq_true.1 (hrow op hop) A hA
  · refine ⟨hA, fun hop => ?_⟩
    rw [tableRow_plain op hA] at h
    by_contra hs
    rw [if_pos ⟨by simpa using hs, hop⟩] at h
    cases h

/-- The exact value of a word that is neither zero nor infinite. -/
theorem plain.v32_eq {A : Word} (h : plain A) : v32 A = .fin (A.getLsbD 31) (f32Sig (mag A)) (f32Exp (mag A)) := v32_fin h.2

theorem plain.sig_ne_zero {A : Word} (h : plain A) : f32Sig (mag A) ≠ 0 := f32Sig_eq_zero.not.2 h.1

theorem plain.magVal_range {A : Word} (h : plain A) : 2 ^ (-149 : Int) ≤ magVal (mag A) ∧ magVal (mag A) < 2 ^ (128 : Int) := by
  rw [← magVal_one, ← magVal_infinity, magVal_le_magVal, magVal_lt_magVal]
  exact ⟨Nat.one_le_iff_ne_zero.2 h.1, h.2⟩

/-- The value of a word that is neither zero nor infinite nor negative. -/
theorem plain.v32_val_pos {A : Word} (h : plain A) (hs : A.getLsbD 31 = false) : (v32 A).val = magVal (mag A) := by
  rw [v32_val h.2, hs, if_neg Bool.false_ne_true]

theorem plain.snan {A : Word} (h : plain A) : snanWord A = false := snanWord_eq_false (nanWord_eq_false_iff.2 h.2.le)

/-! ### FRCP and FSQRT -/

/-- A rounded operation with no flag of its own on an operand that is no signalling NaN. -/
theorem roundWith_of_no_flags {A : Word} (h : plain A) (rm : Rm) {r : FV × Fl} (hr : r.2 = 0) :
    roundWith rm r (readFls [A]) = roundF32 rm r.1 := by
  rw [roundWith, readFls_one, h.snan, hr]
  simp [flIf]

theorem roundWith_nan {A : Word} (rm : Rm) {r : FV × Fl} (hr : r = (.nan, 0)) :
    roundWith rm r (readFls [A]) = (0x7FC00000, flIf (snanWord A) nv) := by
  rw [hr, readFls_one]
  simp [roundWith, roundF32, Machine.round, FFmt.nanEnc, flIf]

theorem frcpOf_row (rm : Rm) : ∀ A r, tableRow 0 A = some r → frcpOf rm A = r := by
  refine eq_of_tableRow (fun A h => ?_) ?_ (by simp)
  · exact roundWith_nan rm (by rw [v32_nan h]; rfl)
  · cases rm <;> decide

theorem frcpOf_plain (rm : Rm) {A : Word} (h : plain A) : frcpOf rm A = roundF32 rm (fdiv (.fin false 1 0) (v32 A)).1 :=
  roundWith_of_no_flags h rm (by rw [h.v32_eq, fdiv, if_neg h.sig_ne_zero, if_neg one_ne_zero])

theorem fsqrtOf_row (rm : Rm) : ∀ A r, tableRow 2 A = some r → fsqrtOf rm A = r := by
  refine eq_of_tableRow (fun A h => ?_) ?_ (fun _ A h hs => ?_)
  · exact roundWith_nan rm (by rw [v32_nan h]; rfl)
  · cases rm <;> decide
  · rw [fsqrtOf, h.v32_eq, fsqrt, if_neg h.sig_ne_zero, hs, if_pos rfl, readFls_one, h.snan]
    rfl

theorem fsqrtOf_plain (rm : Rm) {A : Word} (h : plain A) (hs : A.getLsbD 31 = false) : fsqrtOf rm A = roundF32 rm (fsqrt (v32 A)).1 :=
  roundWith_of_no_flags h rm (by rw [h.v32_eq, fsqrt, if_neg h.sig_ne_zero, hs]; rfl)

end Sys2Proof.Machine
end

section
/-!
FRSQ (05 R128): the square root of the reciprocal, cut with a sticky bit, lies among the magnitudes as 1/√a does.
-/

namespace Sys2Proof.Machine

/-- One of two neighbouring f32 values that 1/√A lies between, or 1/√A itself, as O9 says it. -/
def RsqrtBrackets (A v : Word) : Prop :=
  ∃ lo hi : Nat, lo < 2 ^ 31 ∧ hi < 2 ^ 31 ∧ (v.toNat = lo ∨ v.toNat = hi) ∧ (V .f32 lo).finite ∧ (V .f32 hi).finite
    ∧ ((lo = hi ∧ (V .f32 lo).val ^ 2 * (v32 A).val = 1)
      ∨ (hi = lo + 1 ∧ (V .f32 lo).val ^ 2 * (v32 A).val < 1 ∧ 1 < (V .f32 hi).val ^ 2 * (v32 A).val))

/-- Where 1/√(m × 2^e) is cut: `u` is the unit of the whole root `q`, and `s` the sticky bit. -/
structure CutRoot (a u : ℚ) (M q s : Nat) : Prop where
  unit_pos : 0 < u
  pos : M ≠ 0
  lt : M < 2 ^ 25
  unit_sq : u ^ 2 * a = M / 2 ^ 200
  root : ∀ N, N ≤ q ↔ N ^ 2 * M ≤ 2 ^ 200
  sticky : s = if q ^ 2 * M = 2 ^ 200 then 0 else 1

/-- The model's cut: m or 2m stands under the root as the exponent is even or odd. -/
theorem rsqrtV_eq {m : Nat} (hm : m ≠ 0) (hlt : m < 2 ^ 24) (e : Int) : ∃ (M q s : Nat) (g : Int),
    rsqrtV m e = .fin false (2 * q + s) g ∧ CutRoot (m * 2 ^ e) (2 ^ (g + 1)) M q s := by
  have cutRoot (M : Nat) (h : Int) (hM : M ≠ 0) (hM' : M < 2 ^ 25) (hval : (m : ℚ) * 2 ^ e = M * 2 ^ (2 * h)) :
      CutRoot (m * 2 ^ e) (2 ^ (-h - 101 + 1)) M (2 ^ 200 / M).sqrt
        (if (2 ^ 200 / M).sqrt * (2 ^ 200 / M).sqrt * M = 2 ^ 200 then 0 else 1) := by
    refine ⟨by positivity, hM, hM', ?_, fun N => ?_, by rw [sq]⟩
    · have hpow : ((2 : ℚ) ^ (-h - 101 + 1)) ^ 2 * 2 ^ (2 * h) = 1 / 2 ^ 200 := by
        rw [sq, ← zpow_add₀ two_ne_zero, ← zpow_add₀ two_ne_zero, show -h - 101 + 1 + (-h - 101 + 1) + 2 * h = -200 by ring]
        norm_num
      rw [hval, mul_left_comm, hpow, mul_one_div]
    · rw [Nat.le_sqrt', Nat.le_div_iff_mul_le (Nat.pos_of_ne_zero hM)]
  unfold rsqrtV
  rcases Int.emod_two_eq_zero_or_one e with he | he
  · refine ⟨m, _, _, -(e / 2) - 101, ?_, cutRoot m (e / 2) hm (by omega) (by congr 2; omega)⟩
    simp [he, isqrt_eq_sqrt, sub_sub]
  · refine ⟨2 * m, _, _, -((e - 1) / 2) - 101, ?_, cutRoot (2 * m) ((e - 1) / 2) (by omega) (by omega) ?_⟩
    · simp [he, isqrt_eq_sqrt, sub_sub]
    · rw [show 2 * ((e - 1) / 2) = e - 1 by omega, zpow_sub_one₀ two_ne_zero]
      push_cast
      ring

/-- The magnitudes below, at and above the cut root are those below, at and above 1/√a. -/
theorem CutRoot.order {a : ℚ} {M q s : Nat} {g : Int} (h : CutRoot a (2 ^ (g + 1)) M q s) (j : Nat) :
    (magVal j < (2 * q + s : Nat) * 2 ^ g → magVal j ^ 2 * a < 1) ∧ (magVal j = (2 * q + s : Nat) * 2 ^ g → magVal j ^ 2 * a = 1)
      ∧ ((2 * q + s : Nat) * 2 ^ g < magVal j → 1 < magVal j ^ 2 * a) := by
  obtain ⟨hu, hM0, hM, hsq, hroot, hs⟩ := h
  have hpos : (0 : ℚ) < 2 ^ g := by positivity
  have hunit : (2 : ℚ) ^ (g + 1) = 2 * 2 ^ g := by rw [zpow_add_one₀ two_ne_zero, mul_comm]
  have hgrid (N : ℚ) : (N * 2 ^ (g + 1)) ^ 2 * a = N ^ 2 * M / 2 ^ 200 := by
    rw [mul_pow, mul_assoc, hsq, mul_div_assoc]
  rcases magVal_on_grid j (g + 1) with hj | ⟨N, hj⟩
  · rw [zpow_add₀ two_ne_zero] at hj
    have hq : (2 ^ 24 : ℚ) ≤ q := by exact_mod_cast (hroot (2 ^ 24)).2 (by omega)
    have ha : 0 ≤ a := by
      by_contra hn
      have : (0 : ℚ) ≤ M / 2 ^ 200 := by positivity
      nlinarith [sq_nonneg ((2 : ℚ) ^ (g + 1)), sq_pos_of_pos hu]
    have hsmall : magVal j ^ 2 * a < 1 := by
      calc magVal j ^ 2 * a ≤ ((2 : ℚ) ^ 24 * 2 ^ (g + 1)) ^ 2 * a := by
            gcongr
            · exact magVal_nonneg j
            · exact hj.le
        _ = ((2 : ℚ) ^ 24) ^ 2 * M / 2 ^ 200 := hgrid _
        _ < 1 := by
            have : (M : ℚ) < 2 ^ 25 := by exact_mod_cast hM
            rw [div_lt_one (by positivity)]
            linarith
    have hlt : magVal j < (2 * q + s : Nat) * 2 ^ g := by
      refine hj.trans_le ?_
      rw [hunit]
      push_cast
      have : (0 : ℚ) ≤ s := by positivity
      change (2 : ℚ) ^ 24 * _ ≤ _
      nlinarith
    exact ⟨fun _ => hsmall, fun h => absurd h hlt.ne, fun h => absurd h hlt.not_gt⟩
  · have hN : magVal j = (2 * N : Nat) * 2 ^ g := by
      rw [hj, hunit]
      push_cast
      ring
    have hsq1 : magVal j ^ 2 * a = (N ^ 2 * M : Nat) / 2 ^ 200 := by
      rw [hj, hgrid]
      push_cast
      rfl
    rw [hsq1, hN, div_lt_one (by positivity), div_eq_one_iff_eq (by positivity), one_lt_div (by positivity),
      mul_lt_mul_iff_of_pos_right hpos, mul_lt_mul_iff_of_pos_right hpos, mul_left_inj' hpos.ne']
    norm_cast
    have below (hlt : N < q) : N ^ 2 * M < 2 ^ 200 :=
      (Nat.mul_lt_mul_of_pos_right (Nat.pow_lt_pow_left hlt two_ne_zero) (Nat.pos_of_ne_zero hM0)).trans_le ((hroot q).1 le_rfl)
    have hle := (hroot q).1 le_rfl
    have above := hroot N
    split at hs
    · refine ⟨fun h => below (by omega), fun h => ?_, fun h => by omega⟩
      rwa [show N = q by omega]
    · refine ⟨fun h => ?_, fun h => by omega, fun h => by omega⟩
      rcases (show N ≤ q by omega).eq_or_lt with rfl | hlt
      · omega
      · exact below hlt

/-- Next to the cut root stands 1/√a, or two neighbours hold 1/√a between them. -/
theorem CutRoot.brackets {a : ℚ} {M q s : Nat} {g : Int} (h : CutRoot a (2 ^ (g + 1)) M q s) {c : Nat}
    (hc : Adjacent c ((2 * q + s : Nat) * 2 ^ g)) : ∃ lo hi : Nat, (c = lo ∨ c = hi)
      ∧ ((lo = hi ∧ magVal lo ^ 2 * a = 1) ∨ (hi = lo + 1 ∧ magVal lo ^ 2 * a < 1 ∧ 1 < magVal hi ^ 2 * a)) := by
  rcases lt_trichotomy (magVal c) ((2 * q + s : Nat) * 2 ^ g) with hlt | heq | hgt
  · exact ⟨c, c + 1, .inl rfl, .inr ⟨rfl, (h.order c).1 hlt, (h.order (c + 1)).2.2 hc.lt_succ⟩⟩
  · exact ⟨c, c, .inl rfl, .inl ⟨rfl, (h.order c).2.1 heq⟩⟩
  · cases c with
    | zero =>
      rw [magVal_zero] at hgt
      exact absurd hgt (not_lt.2 (by positivity))
    | succ b => exact ⟨b, b + 1, .inr rfl, .inr ⟨rfl, (h.order b).1 (hc.pred_lt rfl), (h.order (b + 1)).2.2 hgt⟩⟩

theorem frsqOf_row : ∀ A r, tableRow 1 A = some r → frsqOf A = r := by
  refine eq_of_tableRow (fun A h => ?_) (by decide) (fun _ A h hs => ?_)
  · rw [frsqOf, V_f32_toNat, v32_nan h]
    simp [nan32]
  · rw [frsqOf, V_f32_toNat, h.v32_eq, hs]
    simp [h.sig_ne_zero, nan32]

theorem frsqOf_plain {A : Word} (h : plain A) (hs : A.getLsbD 31 = false) :
    frsqOf A = (bracket (Config.approxUp 0 A) (rsqrtV (f32Sig (mag A)) (f32Exp (mag A))), 0) := by
  rw [frsqOf, V_f32_toNat, h.v32_eq, hs]
  simp [h.sig_ne_zero]

/-- FRSQ of a positive value. -/
theorem frsqOf_brackets {A : Word} (h : plain A) (hs : A.getLsbD 31 = false) : (frsqOf A).2 = 0 ∧ RsqrtBrackets A (frsqOf A).1 := by
  obtain ⟨M, q, s, g, hX, hcut⟩ := rsqrtV_eq h.sig_ne_zero (f32Sig_lt (mag A)) (f32Exp (mag A))
  have hA := h.v32_val_pos hs
  rw [show (f32Sig (mag A) : ℚ) * 2 ^ f32Exp (mag A) = (v32 A).val from hA.symm] at hcut
  -- The least subnormal has the greatest result, far below infinity.
  have hle : ((2 * q + s : Nat) : ℚ) * 2 ^ g ≤ magVal 0x7F000000 := by
    by_contra hn
    have := (hcut.order 0x7F000000).1 (not_le.1 hn)
    rw [magVal_eq_two_zpow (e := 127) (by decide) (by decide)] at this
    have hbig : (1 : ℚ) ≤ (2 ^ (127 : Int)) ^ 2 * 2 ^ (-149 : Int) := by norm_num
    exact absurd ((mul_le_mul_of_nonneg_left (hA ▸ h.magVal_range.1) (by positivity)).trans_lt this) hbig.not_gt
  rw [frsqOf_plain h hs, hX]
  obtain ⟨c, hc, hadj⟩ := bracket_adjacent (Config.approxUp 0 A) false (2 * q + s) g (hle.trans_lt (by
    rw [← magVal_infinity, magVal_lt_magVal]
    decide))
  have hcmax : c ≤ 0x7F000000 := (hadj _).2 hle
  obtain ⟨lo, hi, hv, hb⟩ := hcut.brackets hadj
  have value (k : Nat) (hk : k ≤ c + 1) : (V .f32 k).finite ∧ (V .f32 k).val = magVal k := by
    simpa [signed] using V_f32_signed (k := k) false (by omega)
  refine ⟨rfl, lo, hi, by omega, by omega, ?_, (value lo (by omega)).1, (value hi (by omega)).1, ?_⟩
  · rw [hc]
    simpa [signed] using hv
  · rw [(value lo (by omega)).2, (value hi (by omega)).2]
    exact hb

end Sys2Proof.Machine
end

section
/-!
FLOG2 (05 R128): the whole part of the logarithm is exact, and its 80 bits of fraction stay below the next whole number.
-/

namespace Sys2Proof.Machine

/-- Between the integers around log2 A, and log2 A itself where it is an integer, as O9 says it. -/
def Log2Range (A v : Word) : Prop := ∀ n : Int, (2 : ℚ) ^ n ≤ (v32 A).val → (v32 A).val < (2 : ℚ) ^ (n + 1) →
    (v32 v).finite ∧ n ≤ (v32 v).val ∧ (v32 v).val ≤ n + 1 ∧ ((v32 A).val = (2 : ℚ) ^ n → (v32 v).val = n)

/-- A number lies between one pair of successive powers of two only. -/
theorem two_zpow_unique {x : ℚ} {i j : Int} (hi : 2 ^ i ≤ x) (hi' : x < 2 ^ (i + 1)) (hj : 2 ^ j ≤ x) (hj' : x < 2 ^ (j + 1)) : i = j := by
  have h1 := (zpow_lt_zpow_iff_right₀ one_lt_two).1 (hi.trans_lt hj')
  have h2 := (zpow_lt_zpow_iff_right₀ one_lt_two).1 (hj.trans_lt hi')
  omega

theorem log2Bits_lt (k t acc : Nat) : log2Bits k t acc < (acc + 1) * 2 ^ k := by
  induction k generalizing t acc with
  | zero => simp [log2Bits]
  | succ k ih =>
    rw [log2Bits]
    split
    · exact (ih _ _).trans_eq (by ring)
    · refine (ih _ _).trans_le ?_
      rw [pow_succ' 2 k, ← mul_assoc]
      exact Nat.mul_le_mul_right _ (by omega)

/-- The value of log2V, by its whole part. -/
theorem log2V_val {m : Nat} (hm : m ≠ 0) (e : Int) : ∃ (v : Int) (g : Int), log2V m e = .fin (decide (v < 0)) v.natAbs g
    ∧ ((e + bitLen m - 1 : Int) : ℚ) ≤ v * 2 ^ g ∧ v * (2 : ℚ) ^ g ≤ (e + bitLen m - 1 : Int) + 1
    ∧ ((m : ℚ) * 2 ^ e = 2 ^ (e + bitLen m - 1 : Int) → v * (2 : ℚ) ^ g = (e + bitLen m - 1 : Int)) := by
  unfold log2V
  dsimp only
  set top : Int := e + bitLen m - 1 with htop
  split
  next => exact ⟨top, 0, rfl, by simp, by simp, by simp⟩
  next hne =>
    set b := log2Bits 80 (m * 2 ^ fixP / 2 ^ (bitLen m - 1)) 0
    have hb : b < 2 ^ 80 := by simpa using log2Bits_lt 80 (m * 2 ^ fixP / 2 ^ (bitLen m - 1)) 0
    have hval : (((top * 2 ^ 80 + b) * 2 + 1 : Int) : ℚ) * 2 ^ (-((80 : Nat) + 1) : Int) = top + (2 * b + 1) / 2 ^ 81 := by
      rw [zpow_neg]
      push_cast
      norm_num
      ring
    refine ⟨(top * 2 ^ 80 + b) * 2 + 1, _, rfl, ?_⟩
    rw [hval]
    have hb' : (b : ℚ) + 1 ≤ 2 ^ 80 := by exact_mod_cast hb
    have hfrac : (0 : ℚ) ≤ (2 * b + 1) / 2 ^ 81 ∧ ((2 * b + 1) / 2 ^ 81 : ℚ) ≤ 1 := by
      constructor
      · positivity
      · rw [div_le_one (by positivity)]
        linarith
    refine ⟨by linarith [hfrac.1], by linarith [hfrac.2], fun hpow => absurd ?_ hne⟩
    have := bitLen_pos hm
    rw [htop, show e + (bitLen m : Int) - 1 = (bitLen m - 1 : Nat) + e by omega, zpow_add₀ two_ne_zero, zpow_natCast] at hpow
    exact_mod_cast mul_right_cancel₀ (by positivity) hpow

/-- A magnitude next to a value's, with its sign, keeps the side on which the value stands of any f32 value. -/
theorem Adjacent.signed_bounds {c : Nat} {y z : ℚ} {neg : Bool} (h : Adjacent c |y|)
    (hsign : (y ≤ 0 ∧ neg = true) ∨ (0 ≤ y ∧ neg = false)) (hz : ∃ j, magVal j = |z|) :
    (z ≤ y → z ≤ if neg then -magVal c else magVal c) ∧ (y ≤ z → (if neg then -magVal c else magVal c) ≤ z) := by
  obtain ⟨j, hj⟩ := hz
  have hle := h.le_of_le (j := j)
  have hge := h.ge_of_ge (j := j)
  have hc := magVal_nonneg c
  rw [hj] at hle hge
  rcases hsign with ⟨hy, rfl⟩ | ⟨hy, rfl⟩
  · rw [abs_of_nonpos hy] at hle hge
    rw [if_pos rfl]
    constructor <;> intro hzy
    · rw [abs_of_nonpos (hzy.trans hy)] at hle
      linarith [hle (neg_le_neg hzy)]
    · rcases le_total z 0 with h0 | h0
      · rw [abs_of_nonpos h0] at hge
        linarith [hge (neg_le_neg hzy)]
      · linarith
  · rw [abs_of_nonneg hy] at hle hge
    rw [if_neg Bool.false_ne_true]
    constructor <;> intro hzy
    · rcases le_total z 0 with h0 | h0
      · linarith
      · rw [abs_of_nonneg h0] at hge
        exact hge hzy
    · rw [abs_of_nonneg (hy.trans hzy)] at hle
      exact hle hzy

/-- Whole numbers of 24 bits on either side of a value stay there when it is rounded. -/
theorem bracket_intCast (up : Bool) (v g : Int) (hX : |(v : ℚ) * 2 ^ g| < 2 ^ 24) :
    let w := bracket up (.fin (decide (v < 0)) v.natAbs g)
    (v32 w).finite ∧ ∀ n : Int, |n| < 2 ^ 24 →
      ((n : ℚ) ≤ v * 2 ^ g → n ≤ (v32 w).val) ∧ (v * 2 ^ g ≤ (n : ℚ) → (v32 w).val ≤ n) := by
  intro w
  have habs := natAbs_mul_two_zpow v g
  have h127 : (2 : ℚ) ^ 24 < magVal 0x7F000000 := by
    rw [magVal_eq_two_zpow (e := 127) (by decide) (by decide)]
    norm_num
  obtain ⟨c, hc, hadj⟩ := bracket_adjacent up (decide (v < 0)) v.natAbs g (by
    rw [habs]
    exact hX.trans (by norm_num))
  rw [habs] at hadj
  have hcmax := (hadj 0x7F000000).2 (hX.trans h127).le
  obtain ⟨hfin, hval⟩ := V_f32_signed (k := c) (decide (v < 0)) (by omega)
  rw [← hc, V_f32_toNat] at hfin hval
  refine ⟨hfin, fun n hn => ?_⟩
  rw [hval]
  refine hadj.signed_bounds (sign_mul_two_zpow v g) ?_
  obtain ⟨hn1, hn2⟩ := abs_lt.1 hn
  simpa [Nat.cast_natAbs] using exists_magVal (n := n.natAbs) (q := 0) (by omega) (by decide)

theorem flog2Of_row : ∀ A r, tableRow 4 A = some r → flog2Of A = r := by
  refine eq_of_tableRow (fun A h => ?_) (by decide) (fun _ A h hs => ?_)
  · rw [flog2Of, V_f32_toNat, v32_nan h]
    simp [nan32]
  · rw [flog2Of, V_f32_toNat, h.v32_eq, hs]
    simp [h.sig_ne_zero, nan32]

theorem flog2Of_plain {A : Word} (h : plain A) (hs : A.getLsbD 31 = false) :
    flog2Of A = (bracket (Config.approxUp 2 A) (log2V (f32Sig (mag A)) (f32Exp (mag A))), 0) := by
  rw [flog2Of, V_f32_toNat, h.v32_eq, hs]
  simp [h.sig_ne_zero]

theorem flog2Of_range {A : Word} (h : plain A) (hs : A.getLsbD 31 = false) : (flog2Of A).2 = 0 ∧ Log2Range A (flog2Of A).1 := by
  rw [flog2Of_plain h hs]
  refine ⟨rfl, fun n hn hn' => ?_⟩
  have hA : (v32 A).val = f32Sig (mag A) * 2 ^ f32Exp (mag A) := by
    rw [h.v32_val_pos hs, magVal]
  obtain ⟨v, g, hv, hle, hge, hpow⟩ := log2V_val h.sig_ne_zero (f32Exp (mag A))
  have htop : f32Exp (mag A) + bitLen (f32Sig (mag A)) - 1 = n := by
    rw [hA] at hn hn'
    refine two_zpow_unique (two_zpow_bitLen_le h.sig_ne_zero _) ?_ hn hn'
    simpa using lt_two_zpow_bitLen (f32Sig (mag A)) (f32Exp (mag A))
  rw [htop] at hle hge hpow
  have hrange : -149 ≤ n ∧ n < 128 := by
    obtain ⟨hmin, hmax⟩ := h.magVal_range
    rw [← h.v32_val_pos hs] at hmin hmax
    exact ⟨Int.lt_add_one_iff.1 ((zpow_lt_zpow_iff_right₀ one_lt_two).1 (hmin.trans_lt hn')),
      (zpow_lt_zpow_iff_right₀ one_lt_two).1 (hn.trans_lt hmax)⟩
  have hnQ : (-149 : ℚ) ≤ n ∧ (n : ℚ) < 128 := by exact_mod_cast hrange
  rw [hv]
  obtain ⟨hfin, hnear⟩ := bracket_intCast (Config.approxUp 2 A) v g (by rw [abs_lt]; constructor <;> linarith [hnQ.1, hnQ.2])
  have hn1 := (hnear n (by rw [abs_lt]; omega))
  have hn2 := (hnear (n + 1) (by rw [abs_lt]; omega)).2
  push_cast at hn2
  refine ⟨hfin, hn1.1 hle, hn2 hge, fun h => ?_⟩
  have := hpow (hA ▸ h)
  exact le_antisymm (hn1.2 this.le) (hn1.1 this.ge)

end Sys2Proof.Machine
end

section
/-!
FEXP2 (05 R128): the fraction's product of roots stays in [1, 2), so the whole part of the argument is the exponent of the result.
-/

namespace Sys2Proof.Machine

/-! ### 2 to a fraction -/

/-- A step of the product of roots: the root shrinks towards 1 and the bound on accumulator and root stays. -/
theorem exp2Frac_bounds {P : Nat} (hP : P = 2 ^ fixP) (j f : Nat) {root acc : Nat} (hr : P ≤ root) (ha : P ≤ acc)
    (h : acc * (root * root) < 2 * P * (P * P)) : P ≤ exp2Frac j f root acc ∧ exp2Frac j f root acc < 2 * P := by
  have hpos : 0 < P := hP ▸ Nat.two_pow_pos _
  induction j generalizing root acc with
  | zero =>
    rw [exp2Frac]
    refine ⟨ha, ?_⟩
    have := (Nat.mul_le_mul_left acc (Nat.mul_le_mul hr hr)).trans_lt h
    exact lt_of_mul_lt_mul_right this (Nat.zero_le _)
  | succ j ih =>
    have hnext : (root * P).sqrt * (root * P).sqrt ≤ root * P := Nat.sqrt_le _
    have hnextP : P ≤ (root * P).sqrt := Nat.le_sqrt.2 (Nat.mul_le_mul_right P hr)
    rw [exp2Frac, ← hP, isqrt_eq_sqrt]
    refine ih hnextP ?_ ?_
    · split
      · rw [Nat.le_div_iff_mul_le hpos]
        exact Nat.mul_le_mul ha hr
      · exact ha
    · refine lt_of_le_of_lt ?_ h
      split
      · calc acc * root / P * ((root * P).sqrt * (root * P).sqrt) ≤ acc * root / P * (root * P) := Nat.mul_le_mul_left _ hnext
          _ = acc * root / P * P * root := by ring
          _ ≤ acc * root * root := Nat.mul_le_mul_right _ (Nat.div_mul_le_self _ _)
          _ = acc * (root * root) := by ring
      · exact Nat.mul_le_mul_left _ (hnext.trans (Nat.mul_le_mul_left _ hr))

/-- An odd power of two is no square. -/
theorem mul_self_ne_two_pow (r k : Nat) : r * r ≠ 2 ^ (2 * k + 1) := by
  intro h
  obtain ⟨i, -, rfl⟩ := (Nat.dvd_prime_pow Nat.prime_two).1 (Dvd.intro r h)
  rw [← pow_add] at h
  have := Nat.pow_right_injective le_rfl h
  omega

/-- The fraction of a result of FEXP2 in fixed point. -/
theorem exp2Frac_one (j f : Nat) : 2 ^ fixP ≤ exp2Frac j f (isqrt (2 * 2 ^ (2 * fixP))) (2 ^ fixP)
    ∧ exp2Frac j f (isqrt (2 * 2 ^ (2 * fixP))) (2 ^ fixP) < 2 ^ (fixP + 1) := by
  rw [pow_succ' 2 fixP, ← pow_succ', isqrt_eq_sqrt]
  set r := (2 ^ (2 * fixP + 1)).sqrt with hr
  have hlt : r * r < 2 ^ (2 * fixP + 1) := (Nat.sqrt_le _).lt_of_ne (mul_self_ne_two_pow r fixP)
  refine exp2Frac_bounds rfl j f ?_ le_rfl ?_
  · rw [hr, Nat.le_sqrt, ← pow_add]
    exact Nat.pow_le_pow_right (by decide) (by omega)
  · calc 2 ^ fixP * (r * r) < 2 ^ fixP * 2 ^ (2 * fixP + 1) := Nat.mul_lt_mul_of_pos_left hlt (Nat.two_pow_pos _)
      _ = 2 * 2 ^ fixP * (2 ^ fixP * 2 ^ fixP) := by ring

/-- n × 2^g stands for 2^x, `i` the whole part of x: 2^i where x is whole, and else a value from 2^i to below the next power of two,
whose significand is not 1. -/
structure IsExp2 (x : ℚ) (n : Nat) (g i : Int) : Prop where
  floor_le : i ≤ x
  lt_floor : x < i + 1
  one_iff : n = 1 ↔ x = i
  le : 2 ^ i ≤ (n : ℚ) * 2 ^ g
  lt : (n : ℚ) * 2 ^ g < 2 ^ (i + 1)
  eq : x = i → (n : ℚ) * 2 ^ g = 2 ^ i

theorem isExp2_whole {x : ℚ} {i : Int} (h : x = i) : IsExp2 x 1 i i where
  floor_le := h.ge
  lt_floor := by rw [h]; linarith
  one_iff := by simp [h]
  le := by simp
  lt := by
    rw [Nat.cast_one, one_mul]
    exact zpow_lt_zpow_right₀ one_lt_two (by omega)
  eq := by simp

theorem isExp2_fraction {x y : ℚ} {i : Int} {F : Nat} (hx : x = i + y) (hy0 : 0 < y) (hy1 : y < 1) (hF : 2 ^ fixP ≤ F)
    (hF' : F < 2 ^ (fixP + 1)) : IsExp2 x (2 * F + 1) (i - fixP - 1) i := by
  have hunit : (2 : ℚ) ^ (i - fixP - 1) * 2 ^ (fixP + 1) = 2 ^ i := by
    rw [← zpow_natCast, ← zpow_add₀ two_ne_zero]
    congr 1
    push_cast
    ring
  have hpos : (0 : ℚ) < 2 ^ (i - fixP - 1) := by positivity
  have hle : (2 : ℚ) ^ fixP ≤ F := by exact_mod_cast hF
  have hlt : (F : ℚ) + 1 ≤ 2 ^ (fixP + 1) := by exact_mod_cast hF'
  have hne : x ≠ i := by
    rw [hx]
    linarith
  refine ⟨by linarith, by linarith, ?_, ?_, ?_, fun h => absurd h hne⟩
  · have := Nat.two_pow_pos fixP
    exact iff_of_false (by omega) hne
  · rw [← hunit, mul_comm]
    gcongr
    rw [pow_succ]
    push_cast
    linarith
  · rw [zpow_add_one₀ two_ne_zero, ← hunit, mul_comm, mul_assoc]
    gcongr
    push_cast
    linarith

theorem exp2V_spec (s : Bool) (m : Nat) (e : Int) : ∃ (n : Nat) (g i : Int), exp2V s m e = .fin false n g
    ∧ IsExp2 (FV.fin s m e).val n g i := by
  unfold exp2V
  split
  next he =>
    refine ⟨1, _, _, rfl, isExp2_whole ?_⟩
    rw [FV.val_fin_eq_units s m he, sub_zero, zpow_zero, mul_one]
  next he =>
    dsimp only
    obtain ⟨j, hj⟩ := Int.eq_ofNat_of_zero_le (show 0 ≤ -e by omega)
    rw [show (-e).toNat = j by omega]
    set v : Int := if s then -(m : Int) else m with hv
    have hunit : (2 : ℚ) ^ e * 2 ^ j = 1 := by
      rw [← zpow_natCast, ← zpow_add₀ two_ne_zero, show e + j = 0 by omega, zpow_zero]
    have hx : (FV.fin s m e).val = ((v / (2 ^ j : Nat) : Int) : ℚ) + (v % (2 ^ j : Nat) : Int) / 2 ^ j := by
      have hdiv : ((v / (2 ^ j : Nat) : Int) : ℚ) * 2 ^ j + (v % (2 ^ j : Nat) : Int) = v := by
        exact_mod_cast Int.ediv_mul_add_emod v (2 ^ j : Nat)
      have hval : (FV.fin s m e).val = v * 2 ^ e := by
        rw [FV.val_fin, hv]
        cases s <;> simp
      rw [hval, ← hdiv, eq_one_div_of_mul_eq_one_left hunit]
      field_simp
    have hmod0 : 0 ≤ v % (2 ^ j : Nat) := Int.emod_nonneg _ (by positivity)
    have hmod1 : v % (2 ^ j : Nat) < (2 ^ j : Nat) := Int.emod_lt_of_pos _ (by positivity)
    split
    next h0 =>
      refine ⟨1, _, _, rfl, isExp2_whole ?_⟩
      rw [hx, show v % (2 ^ j : Nat) = 0 by omega]
      simp
    next h0 =>
      obtain ⟨hF, hF'⟩ := exp2Frac_one j (v % (2 ^ j : Nat)).toNat
      refine ⟨_, _, _, rfl, isExp2_fraction hx ?_ ?_ hF hF'⟩
      · have : (0 : ℚ) < (v % (2 ^ j : Nat) : Int) := by exact_mod_cast (show 0 < v % (2 ^ j : Nat) by omega)
        positivity
      · rw [div_lt_one (by positivity)]
        exact_mod_cast hmod1

namespace IsExp2

variable {x : ℚ} {n : Nat} {g i : Int} (h : IsExp2 x n g i)
include h

/-- The value lies below a power of two as the argument lies below its exponent. -/
theorem lt_two_zpow_iff (k : Int) : (n : ℚ) * 2 ^ g < 2 ^ k ↔ x < k := by
  constructor
  · intro hk
    have hik : i < k := (zpow_lt_zpow_iff_right₀ one_lt_two).1 (h.le.trans_lt hk)
    exact h.lt_floor.trans_le (by exact_mod_cast hik)
  · intro hk
    have hik : i < k := by exact_mod_cast h.floor_le.trans_lt hk
    exact h.lt.trans_le (zpow_le_zpow_right₀ one_le_two hik)

theorem le_two_zpow {k : Int} (hk : x ≤ k) : (n : ℚ) * 2 ^ g ≤ 2 ^ k := by
  rcases hk.lt_or_eq with hlt | heq
  · exact ((h.lt_two_zpow_iff k).2 hlt).le
  · have hki : k = i := by
      have h1 : i ≤ k := by exact_mod_cast h.floor_le.trans hk
      have h2 : k < i + 1 := by exact_mod_cast heq ▸ h.lt_floor
      omega
    exact (hki ▸ h.eq (by rw [heq, hki])).le

theorem ne_zero : n ≠ 0 := by
  rintro rfl
  have h1 := h.le
  have h2 : (0 : ℚ) < 2 ^ i := by positivity
  rw [Nat.cast_zero, zero_mul] at h1
  exact h2.not_ge h1

theorem floor_unique {k : Int} (hk : k ≤ x) (hk' : x < k + 1) : k = i := by
  have h1 : k < i + 1 := by exact_mod_cast hk.trans_lt h.lt_floor
  have h2 : i < k + 1 := by exact_mod_cast h.floor_le.trans_lt hk'
  omega

/-- A magnitude next to the value lies between the powers of two around it, and is the value where that is a power of two. -/
theorem bounds {c : Nat} (hadj : Adjacent c (n * 2 ^ g)) (hx : -149 ≤ x) (k : Int) (hk : k ≤ x) (hk' : x < k + 1) :
    2 ^ k ≤ magVal c ∧ magVal c ≤ 2 ^ (k + 1) ∧ (x = k → magVal c = 2 ^ k) := by
  have hmin : -149 ≤ k := by
    have : (-149 : Int) < k + 1 := by exact_mod_cast hx.trans_lt hk'
    omega
  have repr (i : Int) (hi : -149 ≤ i) : ∃ j, magVal j = 2 ^ i := by simpa using exists_magVal (n := 1) (by decide) hi
  obtain ⟨j, hj⟩ := repr k hmin
  obtain ⟨j', hj'⟩ := repr (k + 1) (by omega)
  obtain rfl := h.floor_unique hk hk'
  rw [← hj, ← hj']
  exact ⟨hadj.ge_of_ge (hj ▸ h.le), hadj.le_of_le (hj' ▸ h.lt.le),
    fun heq => congrArg magVal (hadj.eq_of_eq ((h.eq heq).trans hj.symm))⟩

end IsExp2

/-! ### Flags and results -/

/-- What FEXP2 makes of the exact value of 2^x that is not out of range at sight. -/
def exp2Result (up : Bool) (n : Nat) (g : Int) : Word × Fl :=
  if bracket up (.fin false n g) = inf32 then (bracket up (.fin false n g), ovf ||| nx)
  else if (roundF32 .rd (.fin false n g)).1 = 0 ∧ g + bitLen n - 1 < -150 then (0, unf ||| nx)
  else if bracket up (.fin false n g) = 0 ∧ n ≠ 1 then (0, unf ||| nx)
  else (bracket up (.fin false n g), 0)

theorem fexp2Of_plain {A : Word} (h : plain A) {n : Nat} {g : Int}
    (hx : exp2V (A.getLsbD 31) (f32Sig (mag A)) (f32Exp (mag A)) = .fin false n g) :
    fexp2Of A = if 8 ≤ f32Exp (mag A) + bitLen (f32Sig (mag A)) ∧ A.getLsbD 31 = false then (inf32, ovf ||| nx)
      else if 9 ≤ f32Exp (mag A) + bitLen (f32Sig (mag A)) ∧ A.getLsbD 31 = true then (0, unf ||| nx)
      else exp2Result (Config.approxUp 1 A) n g := by
  rw [fexp2Of, V_f32_toNat, h.v32_eq]
  simp only [h.sig_ne_zero, if_false, hx, Bool.not_eq_true', exp2Result]

/-- The same by the magnitude of the result, which is next to the value. -/
theorem exp2Result_eq (up : Bool) {n : Nat} {g : Int} (hn : n ≠ 0) (hX : (n : ℚ) * 2 ^ g < 2 ^ (128 : Int)) :
    ∃ c, Adjacent c (n * 2 ^ g) ∧ exp2Result up n g =
      if c = 0x7F800000 then (0x7F800000, ovf ||| nx) else if (n : ℚ) * 2 ^ g < 2 ^ (-150 : Int) then (0, unf ||| nx)
      else if c = 0 ∧ n ≠ 1 then (0, unf ||| nx) else (BitVec.ofNat 32 c, 0) := by
  obtain ⟨c, hc, hadj⟩ := bracket_adjacent up false n g hX
  refine ⟨c, hadj, ?_⟩
  have hword : bracket up (.fin false n g) = BitVec.ofNat 32 c := by
    apply BitVec.eq_of_toNat_eq
    have := (bracket up (.fin false n g)).isLt
    rw [signed, if_neg Bool.false_ne_true, zero_add] at hc
    rw [BitVec.toNat_ofNat, ← hc, Nat.mod_eq_of_lt this]
  have hcmax : c ≤ 0x7F800000 := (hadj _).2 (by rw [magVal_infinity]; exact hX.le)
  have hinf : BitVec.ofNat 32 c = inf32 ↔ c = 0x7F800000 := by
    rw [← BitVec.toNat_inj, BitVec.toNat_ofNat, Nat.mod_eq_of_lt (by omega)]
    rfl
  have hzero : BitVec.ofNat 32 c = 0 ↔ c = 0 := by
    rw [← BitVec.toNat_inj, BitVec.toNat_ofNat, Nat.mod_eq_of_lt (by omega)]
    rfl
  have htiny : ((roundF32 .rd (.fin false n g)).1 = 0 ∧ g + bitLen n - 1 < -150) ↔ (n : ℚ) * 2 ^ g < 2 ^ (-150 : Int) := by
    constructor
    · rintro ⟨-, h⟩
      exact (lt_two_zpow_bitLen n g).trans_le (zpow_le_zpow_right₀ one_le_two (by omega))
    · intro h
      refine ⟨?_, (zpow_lt_zpow_iff_right₀ one_lt_two).1 ((two_zpow_bitLen_le hn g).trans_lt h)⟩
      obtain ⟨lo, hlo, -, hle⟩ := roundF32_adjacent .rd false n g hX
      have hlt : magVal lo < magVal 1 := by
        rw [magVal_one]
        exact ((hle rfl rfl).trans_lt h).trans (by norm_num)
      rw [magVal_lt_magVal, Nat.lt_one_iff] at hlt
      apply BitVec.eq_of_toNat_eq
      rw [hlo, hlt]
      rfl
  simp only [exp2Result, hword, hinf, hzero, htiny]
  split
  next h =>
    rw [h]
    rfl
  next => rfl

/-! ### The ranges of FEXP2 -/

/-- FEXP2's result and flags by its argument, as O9 says them. -/
def Exp2Range (A v : Word) (fl : Fl) : Prop :=
  let x := (v32 A).val
  (128 ≤ x → (v, fl) = (0x7F800000, ovf ||| nx)) ∧ (x < -150 → (v, fl) = (0, unf ||| nx))
  ∧ (x < 128 → v = 0x7F800000 → 127 < x ∧ fl = ovf ||| nx)
  ∧ (-150 < x → x < -149 → (v, fl) = (0, unf ||| nx) ∨ (v, fl) = (1, 0))
  ∧ (-149 ≤ x → x < 128 → v ≠ 0x7F800000 → fl = 0 ∧ ∀ n : Int, n ≤ x → x < n + 1 →
      (2 : ℚ) ^ n ≤ (v32 v).val ∧ (v32 v).val ≤ (2 : ℚ) ^ (n + 1) ∧ (x = n → (v32 v).val = (2 : ℚ) ^ n))

theorem fexp2Of_row : ∀ A r, tableRow 3 A = some r → fexp2Of A = r := by
  refine eq_of_tableRow (fun A h => ?_) (by decide) (by simp)
  rw [fexp2Of, V_f32_toNat, v32_nan h]
  simp [nan32]

theorem exp2Result_range {A : Word} {n : Nat} {g i : Int} (up : Bool) (h : IsExp2 (v32 A).val n g i) (hx : (v32 A).val < 128) :
    Exp2Range A (exp2Result up n g).1 (exp2Result up n g).2 := by
  have hX : (n : ℚ) * 2 ^ g < 2 ^ (128 : Int) := (h.lt_two_zpow_iff 128).2 (by exact_mod_cast hx)
  obtain ⟨c, hadj, hres⟩ := exp2Result_eq up h.ne_zero hX
  have hcmax : c ≤ 0x7F800000 := (hadj _).2 (by rw [magVal_infinity]; exact hX.le)
  have hc1 (hlow : (v32 A).val < -149) : c ≤ 1 :=
    (hadj 1).2 (by rw [magVal_one]; exact ((h.lt_two_zpow_iff (-149)).2 (by exact_mod_cast hlow)).le)
  have htiny : (n : ℚ) * 2 ^ g < 2 ^ (-150 : Int) ↔ (v32 A).val < -150 := by exact_mod_cast h.lt_two_zpow_iff (-150)
  rw [hres]
  simp only [htiny]
  refine ⟨fun h => absurd hx h.not_gt, fun hlow => ?low, fun _ hv => ?inf, fun hlow hup => ?least, fun hlow _ hv => ?normal⟩
  case low =>
    have := hc1 (by linarith)
    rw [if_neg (by omega), if_pos hlow]
  case inf =>
    have hc : c = 0x7F800000 := by
      by_contra hc
      rw [if_neg hc] at hv
      split at hv
      · exact absurd hv (by decide)
      split at hv
      · exact absurd hv (by decide)
      · rw [← BitVec.toNat_inj, BitVec.toNat_ofNat, Nat.mod_eq_of_lt (by omega)] at hv
        exact hc hv
    rw [if_pos hc]
    refine ⟨?_, rfl⟩
    by_contra hn
    have := (hadj 0x7F000000).2 (by
      rw [magVal_eq_two_zpow (e := 127) (by decide) (by decide)]
      exact h.le_two_zpow (by exact_mod_cast not_lt.1 hn))
    omega
  case least =>
    have hn1 : n ≠ 1 := fun h1 => by
      have hi := h.one_iff.1 h1
      rw [hi] at hlow hup
      norm_cast at hlow hup
      omega
    have := hc1 hup
    rw [if_neg (by omega), if_neg hlow.not_gt]
    rcases Nat.le_one_iff_eq_zero_or_eq_one.1 this with rfl | rfl
    · exact .inl (by rw [if_pos ⟨rfl, hn1⟩])
    · exact .inr (by rw [if_neg (by omega)]; rfl)
  case normal =>
    have hmin : ¬(n : ℚ) * 2 ^ g < 2 ^ (-149 : Int) := (h.lt_two_zpow_iff (-149)).not.2 (by push_cast; exact hlow.not_gt)
    have hc0 : 1 ≤ c := (hadj 1).1 (by rw [magVal_one]; exact not_lt.1 hmin)
    have hc : c ≠ 0x7F800000 := fun h => hv (by rw [if_pos h])
    rw [if_neg hc, if_neg (by linarith), if_neg (by omega)]
    have hval : (v32 (BitVec.ofNat 32 c)).val = magVal c := by
      have := (V_f32_signed (k := c) false (by omega)).2
      rw [v32, BitVec.toNat_ofNat, Nat.mod_eq_of_lt (by omega)]
      simpa [signed] using this
    exact ⟨rfl, hval ▸ h.bounds hadj hlow⟩

theorem fexp2Of_range {A : Word} (h : plain A) : Exp2Range A (fexp2Of A).1 (fexp2Of A).2 := by
  have hval : (v32 A).val = if A.getLsbD 31 then -magVal (mag A) else magVal (mag A) := v32_val h.2
  have hmag := magVal_nonneg (mag A)
  have hmagle (k : Int) (hk : k ≤ f32Exp (mag A) + bitLen (f32Sig (mag A)) - 1) : (2 : ℚ) ^ k ≤ magVal (mag A) :=
    (zpow_le_zpow_right₀ one_le_two hk).trans (two_zpow_bitLen_le h.sig_ne_zero _)
  obtain ⟨n, g, i, hx, hspec⟩ := exp2V_spec (A.getLsbD 31) (f32Sig (mag A)) (f32Exp (mag A))
  rw [← h.v32_eq] at hspec
  rw [fexp2Of_plain h hx]
  split
  next hbig =>
    obtain ⟨he, hs⟩ := hbig
    have hge : 128 ≤ (v32 A).val := by
      rw [hval, hs, if_neg Bool.false_ne_true]
      exact (by norm_num : (128 : ℚ) = 2 ^ (7 : Int)).trans_le (hmagle 7 (by omega))
    exact ⟨fun _ => rfl, fun _ => by linarith, fun _ => by linarith, fun _ _ => by linarith, fun _ _ => by linarith⟩
  next hbig =>
    split
    next hsmall =>
      obtain ⟨he, hs⟩ := hsmall
      have hle : (v32 A).val ≤ -256 := by
        rw [hval, hs, if_pos rfl, neg_le_neg_iff]
        exact (by norm_num : (256 : ℚ) = 2 ^ (8 : Int)).trans_le (hmagle 8 (by omega))
      exact ⟨fun _ => by linarith, fun _ => rfl, fun _ h => absurd h (by decide), fun _ _ => by linarith, fun _ _ => by linarith⟩
    next hsmall =>
      refine exp2Result_range _ hspec ?_
      rw [hval]
      split
      · linarith
      next hs =>
        have he : f32Exp (mag A) + bitLen (f32Sig (mag A)) ≤ 7 := by
          by_contra hn
          exact hbig ⟨by omega, by simpa using hs⟩
        calc magVal (mag A) < 2 ^ (f32Exp (mag A) + bitLen (f32Sig (mag A))) := lt_two_zpow_bitLen _ _
          _ ≤ 2 ^ (7 : Int) := zpow_le_zpow_right₀ one_le_two he
          _ = 128 := by norm_num

end Sys2Proof.Machine
end

section
/-!
FSIN, FCOS and FTANH (05 R128): what the model returns is within 2^-22 of its fixed-point sums (log 16), and these stay far from overflow.
-/

namespace Sys2Proof.Machine

/-- Within 2^-22 of a number with 200 fraction bits, relative beyond ±1, as O9 says it. -/
def Near (v : Word) (f : Int) : Prop := (v32 v).finite
    ∧ |(v32 v).val - (f : ℚ) / 2 ^ 200| ≤ (1 / 2 ^ 22 : ℚ) * max 1 |(f : ℚ) / 2 ^ 200|

/-- The argument of a function of one operand in fixed point. -/
def fixOf (A : Word) : Int := match v32 A with
  | .fin s m e => toFix s m e
  | _ => 0

/-! ### Fixed point -/

/-- No finite f32 has bits below the 200 of the fixed point. -/
theorem toFix_eq {e : Int} (he : -149 ≤ e) (s : Bool) (m : Nat) : (toFix s m e : ℚ) / 2 ^ 200 = (FV.fin s m e).val := by
  rw [FV.val_fin_eq_units s m (show -200 ≤ e by omega), div_eq_mul_inv]
  simp only [toFix, if_pos (show 0 ≤ e + 200 by omega), sub_neg_eq_add]
  congr 1

theorem near_of_toFix {v : Word} {f : Int} (hv : mag v < 0x7F800000) (h : |fixOf v - f| ≤ 2 ^ 178) : Near v f := by
  refine ⟨V_f32_finite hv, ?_⟩
  rw [fixOf, v32_fin hv] at h
  rw [v32_fin hv, ← toFix_eq (f32Exp_ge _), ← sub_div, abs_div, abs_of_pos (by positivity : (0 : ℚ) < 2 ^ 200),
    div_le_iff₀ (by positivity)]
  have h' : |(toFix (v.getLsbD 31) (f32Sig (mag v)) (f32Exp (mag v)) : ℚ) - f| ≤ 2 ^ 178 := by exact_mod_cast h
  refine h'.trans ?_
  calc (2 : ℚ) ^ 178 = 1 / 2 ^ 22 * 1 * 2 ^ 200 := by norm_num
    _ ≤ 1 / 2 ^ 22 * max 1 |(f : ℚ) / 2 ^ 200| * 2 ^ 200 := by
      gcongr
      exact le_max_left _ _

/-- The rounded fixed-point number is near it unless it overflows. -/
theorem near_roundF32 (rm : Rm) {f : Int} (hf : |(f : ℚ) / 2 ^ 200| ≤ 2 ^ 127) : Near (roundF32 rm (fixV f)).1 f := by
  have hy : (f : ℚ) / 2 ^ 200 = f * 2 ^ (-200 : Int) := div_eq_mul_inv _ _
  have hX := natAbs_mul_two_zpow f (-200)
  have hsign := sign_mul_two_zpow f (-200)
  rw [← hy] at hX hsign
  obtain ⟨c, hc, hadj, -⟩ := roundF32_adjacent rm (decide (f < 0)) f.natAbs (-200) (by
    rw [hX]
    exact hf.trans_lt (by norm_num))
  rw [hX] at hadj
  have hcmax : c ≤ 0x7F000000 := (hadj _).2 (by rwa [magVal_eq_two_zpow (e := 127) (by decide) (by decide)])
  obtain ⟨hfin, hval⟩ := V_f32_signed (k := c) (decide (f < 0)) (by omega)
  rw [← hc, V_f32_toNat] at hfin hval
  refine ⟨hfin, ?_⟩
  have hdist : |(v32 (roundF32 rm (fixV f)).1).val - (f : ℚ) / 2 ^ 200| = |(magVal c - |(f : ℚ) / 2 ^ 200|)| := by
    rw [fixV, hval, abs_eq_abs]
    rcases hsign with ⟨hle, hneg⟩ | ⟨hle, hneg⟩
    · rw [hneg, if_pos rfl, abs_of_nonpos hle]
      exact .inr (by ring)
    · rw [hneg, if_neg Bool.false_ne_true, abs_of_nonneg hle]
      exact .inl rfl
  rw [hdist]
  refine (hadj.abs_sub_le (abs_nonneg _)).trans (max_le ?_ ?_)
  · calc (2 : ℚ) ^ (-149 : Int) ≤ 1 / 2 ^ 22 * 1 := by norm_num
      _ ≤ _ := by gcongr; exact le_max_left _ _
  · calc (2 : ℚ) ^ (-23 : Int) * |(f : ℚ) / 2 ^ 200| ≤ 1 / 2 ^ 22 * |(f : ℚ) / 2 ^ 200| := by gcongr; norm_num
      _ ≤ _ := by gcongr; exact le_max_right _ _

/-- A candidate that stands is near the number, and so is the number rounded. -/
theorem within_near (cand : Word) {f : Int} (hf : |(f : ℚ) / 2 ^ 200| ≤ 2 ^ 127) : Near (within cand f) f := by
  have hbound : withinBound f ≤ 2 ^ 178 := by
    unfold withinBound
    split <;> omega
  unfold within
  split
  next s m e hcand =>
    split
    next h =>
      have hmag : mag cand < 0x7F800000 := by
        rw [V_f32] at hcand
        by_contra hn
        split at hcand
        · cases hcand
        · rw [if_pos (by unfold mag at hn; omega)] at hcand
          cases hcand
      refine near_of_toFix hmag ?_
      rw [fixOf, show v32 cand = _ from hcand]
      have := h.1
      rw [Int.abs_eq_natAbs]
      exact_mod_cast this.trans hbound
    next => exact near_roundF32 _ hf
  next => exact near_roundF32 _ hf

theorem Near.abs_val_le {v : Word} {f : Int} (h : Near v f) (hf : |f| ≤ 2 ^ 200) : |(v32 v).val| ≤ 1 + (1 / 2 ^ 22 : ℚ) := by
  have hf' : |(f : ℚ) / 2 ^ 200| ≤ 1 := by
    rw [abs_div, abs_of_pos (by positivity : (0 : ℚ) < 2 ^ 200), div_le_one (by positivity)]
    exact_mod_cast hf
  have := h.2
  rw [max_eq_left hf', mul_one] at this
  have htri := abs_sub_abs_le_abs_sub (v32 v).val ((f : ℚ) / 2 ^ 200)
  linarith

/-! ### The sums are bounded -/

/-- Each term of the series is at most five times the one before. -/
theorem trigTerm_le {B x2 t : Int} {d : Nat} (hx0 : 0 ≤ x2) (hx : x2 ≤ 10 * 2 ^ 200) (hd : 2 ≤ d) (ht : |t| ≤ B) :
    |-(t * x2 / 2 ^ 200) / d| ≤ 5 * B := by
  have hB : 0 ≤ B := (abs_nonneg t).trans ht
  have hprod : |t * x2| ≤ 10 * B * 2 ^ 200 := by
    rw [abs_mul, abs_of_nonneg hx0]
    calc |t| * x2 ≤ B * (10 * 2 ^ 200) := mul_le_mul ht hx hx0 hB
      _ = 10 * B * 2 ^ 200 := by ring
  obtain ⟨hlo, hhi⟩ := abs_le.1 hprod
  have hu : -(10 * B) ≤ t * x2 / 2 ^ 200 ∧ t * x2 / 2 ^ 200 ≤ 10 * B :=
    ⟨(Int.le_ediv_iff_mul_le (by positivity)).2 (by linarith), Int.ediv_le_of_le_mul (by positivity) hhi⟩
  have hd' : (2 : Int) ≤ d := by exact_mod_cast hd
  rw [abs_le]
  constructor
  · rw [Int.le_ediv_iff_mul_le (by omega)]
    nlinarith [hu.2]
  · refine Int.ediv_le_of_le_mul (by omega) ?_
    nlinarith [hu.1]

theorem trigSeries_le {x2 : Int} (hx0 : 0 ≤ x2) (hx : x2 ≤ 10 * 2 ^ 200) (fuel : Nat) {k : Nat} (hk : 1 ≤ k) {B t acc : Int}
    (ht : |t| ≤ B) (ha : |acc| ≤ B) : |trigSeries fuel k x2 t acc| ≤ 6 ^ fuel * B := by
  induction fuel generalizing k B t acc with
  | zero => simpa [trigSeries] using ha
  | succ fuel ih =>
    have hB : 0 ≤ B := (abs_nonneg t).trans ht
    have hterm := trigTerm_le (d := k * (k + 1)) hx0 hx (by nlinarith) ht
    rw [pow_succ, mul_assoc]
    exact ih (by omega) (hterm.trans (by omega)) ((abs_add_le _ _).trans (by omega))

theorem abs_reducePi_le (x : Int) : |reducePi x| ≤ piFix := by
  have hpi : (0 : Int) < 2 * piFix := by decide
  have h0 := Int.emod_nonneg (x + piFix) hpi.ne'
  have h1 := Int.emod_lt_of_pos (x + piFix) hpi
  rw [reducePi, abs_le]
  omega

theorem sq_reducePi_le (x : Int) : reducePi x * reducePi x / 2 ^ 200 ≤ 10 * 2 ^ 200 := by
  have hpi : 100 * (piFix : Int) ≤ 315 * 2 ^ 200 := by decide
  have h := mul_self_le_mul_self (abs_nonneg _) (abs_reducePi_le x)
  rw [abs_mul_abs_self] at h
  refine Int.ediv_le_of_le_mul (by positivity) ?_
  generalize (2 : Int) ^ 200 = P at *
  nlinarith

theorem abs_sinFix_le (x : Int) : |sinFix x| ≤ 6 ^ 40 * (4 * 2 ^ 200) := by
  have hr : |reducePi x| ≤ 4 * 2 ^ 200 := (abs_reducePi_le x).trans (by decide)
  exact trigSeries_le (Int.ediv_nonneg (mul_self_nonneg _) (by positivity)) (sq_reducePi_le x) 40 (by decide) hr hr

theorem abs_cosFix_le (x : Int) : |cosFix x| ≤ 6 ^ 40 * (4 * 2 ^ 200) :=
  trigSeries_le (Int.ediv_nonneg (mul_self_nonneg _) (by positivity)) (sq_reducePi_le x) 40 (by decide) (by decide) (by decide)

theorem squareTimes_nonneg (k : Nat) {v : Int} (h : 0 ≤ v ∨ k ≠ 0) : 0 ≤ squareTimes k v := by
  induction k generalizing v with
  | zero => exact h.resolve_right (by simp)
  | succ k ih => exact ih (.inl (Int.ediv_nonneg (mul_self_nonneg v) (by positivity)))

/-- (y - 1) / (y + 1) of a number that is not negative. -/
theorem abs_tanhFix_le (x : Int) : |tanhFix x| ≤ 2 ^ 200 := by
  unfold tanhFix
  split
  · decide
  split
  · decide
  · dsimp only
    have hex : 0 ≤ squareTimes 6 (expSeries 40 1 (2 * x / 2 ^ 6) (2 ^ 200) (2 ^ 200)) := squareTimes_nonneg 6 (.inr (by decide))
    generalize squareTimes 6 (expSeries 40 1 (2 * x / 2 ^ 6) (2 ^ 200) (2 ^ 200)) = y at *
    have hP : (0 : Int) < 2 ^ 200 := by positivity
    generalize (2 : Int) ^ 200 = P at *
    rw [abs_le]
    constructor
    · rw [Int.le_ediv_iff_mul_le (by omega)]
      nlinarith
    · refine Int.ediv_le_of_le_mul (by omega) ?_
      nlinarith

/-! ### The words -/

theorem trigOf_nan (k : Nat) {A : Word} (h : nanWord A = true) : trigOf k A = (0x7FC00000, flIf (snanWord A) nv) := by
  rw [trigOf, V_f32_toNat, v32_nan h]
  simp [nan32]

theorem fsinOf_row : ∀ A r, tableRow 5 A = some r → trigOf 0 A = r :=
  eq_of_tableRow (fun _ => trigOf_nan 0) (by decide) (by simp)

theorem fcosOf_row : ∀ A r, tableRow 6 A = some r → trigOf 1 A = r :=
  eq_of_tableRow (fun _ => trigOf_nan 1) (by decide) (by simp)

/-- The model's test of an argument beyond ±2^15, by the magnitude. -/
theorem beyond_iff {A : Word} (h : plain A) : (16 < f32Exp (mag A) + bitLen (f32Sig (mag A)) ∨
    (f32Exp (mag A) + bitLen (f32Sig (mag A)) = 16 ∧ f32Sig (mag A) ≠ 2 ^ (bitLen (f32Sig (mag A)) - 1))) ↔ 0x47000000 < mag A := by
  have h15 : magVal 0x47000000 = 2 ^ (15 : Int) := magVal_eq_two_zpow (by decide) (by decide)
  have hlo := two_zpow_bitLen_le h.sig_ne_zero (f32Exp (mag A))
  have hhi := lt_two_zpow_bitLen (f32Sig (mag A)) (f32Exp (mag A))
  have hb := bitLen_pos h.sig_ne_zero
  rw [← magVal_lt_magVal, h15, magVal]
  set m := f32Sig (mag A)
  set e := f32Exp (mag A)
  rcases lt_trichotomy (e + bitLen m) 16 with hE | hE | hE
  · exact iff_of_false (by omega) (hhi.trans_le (zpow_le_zpow_right₀ one_le_two (by omega))).not_gt
  · have hpow : ((2 ^ (bitLen m - 1) : Nat) : ℚ) * 2 ^ e = 2 ^ (15 : Int) := by
      rw [Nat.cast_pow, Nat.cast_ofNat, ← zpow_natCast, ← zpow_add₀ two_ne_zero]
      congr 1
      omega
    have hle : 2 ^ (bitLen m - 1) ≤ m := two_pow_bitLen_le h.sig_ne_zero
    rw [← hpow, mul_lt_mul_iff_of_pos_right (by positivity), Nat.cast_lt]
    omega
  · refine iff_of_true (.inl hE) (lt_of_lt_of_le ?_ hlo)
    exact zpow_lt_zpow_right₀ one_lt_two (by omega)

theorem trigOf_plain (k : Nat) {A : Word} (h : plain A) : trigOf k A =
    if 0x47000000 < mag A then (inUnit (Config.approxFn k A), 0)
    else (within (Config.approxFn k A) (if k = 0 then sinFix (fixOf A) else cosFix (fixOf A)), 0) := by
  rw [trigOf, V_f32_toNat, fixOf, h.v32_eq]
  simp only [h.sig_ne_zero, if_false, ← beyond_iff h]

theorem ftanhOf_row : ∀ A r, tableRow 7 A = some r → ftanhOf A = r := by
  refine eq_of_tableRow (fun A h => ?_) (by decide) (by simp)
  rw [ftanhOf, V_f32_toNat, v32_nan h]
  simp [nan32]

theorem ftanhOf_plain {A : Word} (h : plain A) : ftanhOf A = (within (Config.approxFn 2 A) (tanhFix (fixOf A)), 0) := by
  rw [ftanhOf, V_f32_toNat, fixOf, h.v32_eq]
  simp only [h.sig_ne_zero, if_false]

end Sys2Proof.Machine
end

section
/-!
The functions of one operand (05 R128), assembled.
-/

namespace Sys2Proof.Machine

theorem near_trig (k : Nat) {A : Word} (h : plain A) :
    (trigOf k A).2 = 0 ∧ (0x47000000 < mag A → mag (trigOf k A).1 ≤ 0x3F800000)
      ∧ (mag A ≤ 0x47000000 → Near (trigOf k A).1 (if k = 0 then sinFix (fixOf A) else cosFix (fixOf A))) := by
  have small {f : Int} (hf : |f| ≤ 6 ^ 40 * (4 * 2 ^ 200)) : |(f : ℚ) / 2 ^ 200| ≤ 2 ^ 127 := by
    have hf' : |(f : ℚ)| ≤ 6 ^ 40 * (4 * 2 ^ 200) := by exact_mod_cast hf
    rw [abs_div, abs_of_pos (by positivity : (0 : ℚ) < 2 ^ 200), div_le_iff₀ (by positivity)]
    exact hf'.trans (by norm_num)
  rw [trigOf_plain k h]
  split
  next hbig =>
    refine ⟨rfl, fun _ => ?_, fun hle => absurd hbig hle.not_gt⟩
    unfold inUnit
    split
    next hc => exact hc
    next => decide
  next hsmall =>
    refine ⟨rfl, fun hbig => absurd hbig hsmall, fun _ => within_near _ (small ?_)⟩
    split
    · exact abs_sinFix_le _
    · exact abs_cosFix_le _

theorem near_tanh {A : Word} (h : plain A) : (ftanhOf A).2 = 0 ∧ Near (ftanhOf A).1 (tanhFix (fixOf A))
    ∧ |(v32 (ftanhOf A).1).val| ≤ 1 + (1 / 2 ^ 22 : ℚ) := by
  have hf := abs_tanhFix_le (fixOf A)
  have hnear : Near (ftanhOf A).1 (tanhFix (fixOf A)) := by
    rw [ftanhOf_plain h]
    refine within_near _ ?_
    have hf' : |(tanhFix (fixOf A) : ℚ)| ≤ 2 ^ 200 := by exact_mod_cast hf
    rw [abs_div, abs_of_pos (by positivity : (0 : ℚ) < 2 ^ 200), div_le_iff₀ (by positivity)]
    exact hf'.trans (by norm_num)
  exact ⟨by rw [ftanhOf_plain h], hnear, hnear.abs_val_le hf⟩

/-- The bounds of a function of one operand where its column of R128's table gives no result, by the function's number. -/
def UnaryBounds (op : Nat) (rm : Rm) (A : Word) (r : Word × Fl) : Prop :=
  (op = 0 → r = roundF32 rm (Machine.fdiv (.fin false 1 0) (v32 A)).1)
  ∧ (op = 2 → r = roundF32 rm (Machine.fsqrt (v32 A)).1)
  ∧ (op = 1 → r.2 = 0 ∧ RsqrtBrackets A r.1) ∧ (op = 3 → Exp2Range A r.1 r.2) ∧ (op = 4 → r.2 = 0 ∧ Log2Range A r.1)
  ∧ (op = 5 ∨ op = 6 → r.2 = 0 ∧ (0x47000000 < mag A → mag r.1 ≤ 0x3F800000)
    ∧ (mag A ≤ 0x47000000 → Near r.1 (if op = 5 then sinFix (fixOf A) else cosFix (fixOf A))))
  ∧ (op = 7 → r.2 = 0 ∧ Near r.1 (tanhFix (fixOf A)) ∧ |(v32 r.1).val| ≤ 1 + (1 / 2 ^ 22 : ℚ))

/-- A function of one operand completes with the row of its column, or without one with its bounds. -/
theorem Completes.of_unary {i : Instr} {gd : Thread → Bool} {op : Nat} {rm : Rm} {d : Dst} {a : Src} {f : Word → Word × Fl}
    (hx : ∀ s, exec i s = s.issue i gd (regFx fun l t => t.fresult d (f (l.srcF 0 a)))) (hg : ∀ t, gd t = i.on t) (hop : op < 8)
    (hrow : ∀ A r, tableRow op A = some r → f A = r)
    (hplain : ∀ A, plain A → (op = 1 ∨ op = 2 ∨ op = 4 → A.getLsbD 31 = false) → UnaryBounds op rm A (f A)) :
    Completes i fun l u => ∃ (v : Word) (fl : Fl), Puts l.t u false d (v.setWidth 64) fl
      ∧ (∀ r, tableRow op (l.srcF 0 a) = some r → (v, fl) = r)
      ∧ (tableRow op (l.srcF 0 a) = none → UnaryBounds op rm (l.srcF 0 a) (v, fl)) :=
  Completes.of_fresult hx hg fun _ _ h => ⟨_, _, h, hrow _, fun hr =>
    let ⟨hA, hs⟩ := plain_of_tableRow hop hr
    hplain _ hA hs⟩

theorem unaryFloatResults : Rules.UnaryFloatResults := by
  refine ⟨fun x => ?rcp, fun x => ?rsq, fun x => ?sqrt, fun x => ?exp2, fun x => ?log2, fun x => ?sin, fun x => ?cos, fun x => ?tanh⟩
  case rcp =>
    exact Completes.of_unary (fun _ => rfl) (fun _ => rfl) (by decide) (frcpOf_row _) fun A h _ => by
      simpa [UnaryBounds] using frcpOf_plain x.rm h
  case rsq =>
    exact Completes.of_unary (fun _ => rfl) (fun _ => rfl) (by decide) frsqOf_row fun A h hs => by
      simpa [UnaryBounds] using frsqOf_brackets h (hs (by simp))
  case sqrt =>
    exact Completes.of_unary (fun _ => rfl) (fun _ => rfl) (by decide) (fsqrtOf_row _) fun A h hs => by
      simpa [UnaryBounds] using fsqrtOf_plain x.rm h (hs (by simp))
  case exp2 =>
    exact Completes.of_unary (fun _ => rfl) (fun _ => rfl) (by decide) fexp2Of_row fun A h _ => by
      simpa [UnaryBounds] using fexp2Of_range h
  case log2 =>
    exact Completes.of_unary (fun _ => rfl) (fun _ => rfl) (by decide) flog2Of_row fun A h hs => by
      simpa [UnaryBounds] using flog2Of_range h (hs (by simp))
  case sin =>
    exact Completes.of_unary (fun _ => rfl) (fun _ => rfl) (by decide) fsinOf_row fun A h _ => by
      simpa [UnaryBounds] using near_trig 0 h
  case cos =>
    exact Completes.of_unary (fun _ => rfl) (fun _ => rfl) (by decide) fcosOf_row fun A h _ => by
      simpa [UnaryBounds] using near_trig 1 h
  case tanh =>
    exact Completes.of_unary (fun _ => rfl) (fun _ => rfl) (by decide) ftanhOf_row fun A h _ => by
      simpa [UnaryBounds] using near_tanh h

/-- Settles O9: the order of f32 words is that of their sign and magnitude bits, and rounding gives a magnitude next to the exact value,
which each function's sum places. -/
theorem floatUnaryAndCompareResults : Obligations.FloatUnaryAndCompareResults := ⟨floatCompareResults, unaryFloatResults⟩

end Sys2Proof.Machine
end

section
/-!
SUPPORT. Parsers of instruction words (03 R59 to R79): the values a parser reads without a fault, and that for each kind of field.
A parser and an encoder are inverse where the values read from a field are those whose code the field is.
-/

namespace Sys2Proof

/-! ### Parsers that find no fault -/

/-- The parser reads `a` and finds no fault. -/
def Gives {α : Type} (p : Dec α) (a : α) : Prop := p.run [] = (a, [])

/-- The parser puts the faults it finds before those found so far, which it does not look at; the values it reads without a fault are
those of `P`. -/
structure Reads {α : Type} (p : Dec α) (P : α → Prop) : Prop where
  adds : ∀ e, p.run e = ((p.run []).1, (p.run []).2 ++ e)
  gives : ∀ a, Gives p a ↔ P a

namespace Reads
variable {α β : Type} {p q : Dec α} {P Q : α → Prop}

theorem congr (h : Reads p P) (hPQ : ∀ a, P a ↔ Q a) : Reads p Q := ⟨h.adds, fun a => (h.gives a).trans (hPQ a)⟩

theorem pure (a : α) : Reads (Pure.pure a) fun b => a = b :=
  ⟨fun _ => rfl, fun _ => ⟨fun h => (Prod.mk.inj h).1, fun h => h ▸ rfl⟩⟩

theorem err (x : EncFault) : Reads (Sys2Proof.err x) fun _ => False :=
  ⟨fun _ => rfl, fun _ => ⟨fun h => List.cons_ne_nil x [] (Prod.mk.inj h).2, False.elim⟩⟩

/-- A sequence reads what its second part reads after what its first part reads. -/
theorem bind {q : α → Dec β} {Q : α → β → Prop} (hp : Reads p P) (hq : ∀ a, Reads (q a) (Q a)) :
    Reads (p >>= q) fun b => ∃ a, P a ∧ Q a b := by
  have key : ∀ l, (p >>= q).run l = (q (p.run l).1).run (p.run l).2 := fun _ => rfl
  refine ⟨fun e => ?_, fun b => ?_⟩
  · rw [key, key, hp.adds e, (hq _).adds ((p.run []).2 ++ e), (hq _).adds (p.run []).2]
    simp
  · unfold Gives
    rw [key, (hq _).adds]
    constructor
    · intro h
      obtain ⟨h1, h2⟩ := Prod.mk.inj h
      obtain ⟨h3, h4⟩ := List.append_eq_nil_iff.1 h2
      exact ⟨_, (hp.gives _).1 (Prod.ext rfl h4), ((hq _).gives _).1 (Prod.ext h1 h3)⟩
    · rintro ⟨a, h1, h2⟩
      rw [(hp.gives a).2 h1]
      simp [show (q a).run [] = (b, []) from ((hq a).gives b).2 h2]

theorem map (hp : Reads p P) (f : α → β) : Reads (f <$> p) fun b => ∃ a, P a ∧ f a = b := hp.bind fun a => pure (f a)

theorem ite {c : Prop} [Decidable c] (hp : c → Reads p P) (hq : ¬c → Reads q Q) :
    Reads (if c then p else q) fun a => if c then P a else Q a := by
  by_cases h : c
  · simpa only [if_pos h] using hp h
  · simpa only [if_neg h] using hq h

theorem dite {c : Prop} [Decidable c] {p : c → Dec α} {q : ¬c → Dec α} (hp : ∀ h, Reads (p h) P) (hq : ∀ h, Reads (q h) P) :
    Reads (if h : c then p h else q h) P := by
  by_cases h : c
  · simpa only [dif_pos h] using hp h
  · simpa only [dif_neg h] using hq h

theorem must (b : Bool) (x : EncFault) : Reads (must b x) fun _ => b = true := by
  cases b
  · exact (err x).congr fun _ => by simp
  · exact (pure ()).congr fun _ => by simp

theorem zero {n : Nat} (v : BitVec n) : Reads (zero v) fun _ => v = 0 := (must (v == 0) .reserved).congr fun _ => beq_iff_eq

theorem assigned (o : Option α) (d : α) : Reads (assigned o d) fun a => o = some a := by
  cases o with
  | none => exact ((err .reserved).bind fun _ => pure d).congr fun _ => by simp
  | some b => exact (pure b).congr fun _ => by simp

end Reads

/-! ### Fields side by side -/

/-- A field is two fields side by side just when its parts are those. -/
theorem eq_append_iff {m n : Nat} (v : BitVec (m + n)) (a : BitVec m) (b : BitVec n) :
    v = a ++ b ↔ v.extractLsb' n m = a ∧ v.extractLsb' 0 n = b := by
  constructor
  · rintro rfl
    exact ⟨BitVec.extractLsb'_append_eq_left, BitVec.extractLsb'_append_eq_right⟩
  · rintro ⟨rfl, rfl⟩
    rw [BitVec.extractLsb'_append_extractLsb'_eq_extractLsb' (Nat.zero_add n).symm, BitVec.extractLsb'_eq_self]

theorem extractLsb'_extractLsb' {n : Nat} (v : BitVec n) (i k j l : Nat) (h : j + l ≤ k) :
    (v.extractLsb' i k).extractLsb' j l = v.extractLsb' (i + j) l := by
  apply BitVec.eq_of_getLsbD_eq
  intro x hx
  simp only [BitVec.getLsbD_extractLsb', hx, decide_true, show j + x < k by omega, Nat.add_assoc, Bool.true_and]

@[simp] theorem extractLsb'_eq_bb {n : Nat} (v : BitVec n) (i : Nat) (b : Bool) : v.extractLsb' i 1 = bb b ↔ v.getLsbD i = b := by
  have h : v.extractLsb' i 1 = BitVec.ofBool (v.getLsbD i) := by
    apply BitVec.eq_of_getLsbD_eq
    intro x hx
    obtain rfl : x = 0 := by omega
    simp
  rw [h, bb]
  cases v.getLsbD i <;> cases b <;> decide

section
variable (a b c d e f : Nat)

/-- As `eq_append_iff`, for the widths of a `func` field: two parts, and so on. -/
theorem append2_iff (v : BitVec (a + b)) (x : BitVec a) (y : BitVec b) :
    v = x ++ y ↔ v.extractLsb' b a = x ∧ v.extractLsb' 0 b = y := eq_append_iff v x y

theorem append3_iff (v : BitVec (a + b + c)) (x : BitVec a) (y : BitVec b) (z : BitVec c) :
    v = x ++ y ++ z ↔ v.extractLsb' (c + b) a = x ∧ v.extractLsb' c b = y ∧ v.extractLsb' 0 c = z := by
  rw [eq_append_iff, append2_iff, extractLsb'_extractLsb' _ _ _ _ _ (by omega), extractLsb'_extractLsb' _ _ _ _ _ (by omega), and_assoc]
  rfl

theorem append4_iff (v : BitVec (a + b + c + d)) (x : BitVec a) (y : BitVec b) (z : BitVec c) (u : BitVec d) :
    v = x ++ y ++ z ++ u ↔
      v.extractLsb' (d + (c + b)) a = x ∧ v.extractLsb' (d + c) b = y ∧ v.extractLsb' d c = z ∧ v.extractLsb' 0 d = u := by
  rw [eq_append_iff, append3_iff, extractLsb'_extractLsb' _ _ _ _ _ (by omega), extractLsb'_extractLsb' _ _ _ _ _ (by omega),
    extractLsb'_extractLsb' _ _ _ _ _ (by omega), and_assoc, and_assoc]
  rfl

theorem append5_iff (v : BitVec (a + b + c + d + e)) (x : BitVec a) (y : BitVec b) (z : BitVec c) (u : BitVec d) (t : BitVec e) :
    v = x ++ y ++ z ++ u ++ t ↔ v.extractLsb' (e + (d + (c + b))) a = x ∧ v.extractLsb' (e + (d + c)) b = y
      ∧ v.extractLsb' (e + d) c = z ∧ v.extractLsb' e d = u ∧ v.extractLsb' 0 e = t := by
  rw [eq_append_iff, append4_iff, extractLsb'_extractLsb' _ _ _ _ _ (by omega), extractLsb'_extractLsb' _ _ _ _ _ (by omega),
    extractLsb'_extractLsb' _ _ _ _ _ (by omega), extractLsb'_extractLsb' _ _ _ _ _ (by omega), and_assoc, and_assoc, and_assoc]
  rfl

theorem append6_iff (v : BitVec (a + b + c + d + e + f)) (x : BitVec a) (y : BitVec b) (z : BitVec c) (u : BitVec d) (t : BitVec e)
    (r : BitVec f) : v = x ++ y ++ z ++ u ++ t ++ r ↔ v.extractLsb' (f + (e + (d + (c + b)))) a = x
      ∧ v.extractLsb' (f + (e + (d + c))) b = y ∧ v.extractLsb' (f + (e + d)) c = z ∧ v.extractLsb' (f + e) d = u
      ∧ v.extractLsb' f e = t ∧ v.extractLsb' 0 f = r := by
  rw [eq_append_iff, append5_iff, extractLsb'_extractLsb' _ _ _ _ _ (by omega), extractLsb'_extractLsb' _ _ _ _ _ (by omega),
    extractLsb'_extractLsb' _ _ _ _ _ (by omega), extractLsb'_extractLsb' _ _ _ _ _ (by omega),
    extractLsb'_extractLsb' _ _ _ _ _ (by omega), and_assoc, and_assoc, and_assoc, and_assoc]
  rfl

end

/-! ### Operands -/

/-- A specifier is its level beside its index (R63). -/
theorem eq_level_iff (l : BitVec 2) (s : BitVec 10) (i : BitVec 8) :
    s = (l ++ i : BitVec 10) ↔ s.extractLsb' 8 2 = l ∧ s.extractLsb' 0 8 = i := append2_iff 2 8 s l i

theorem eq_olevel_iff (s : BitVec 10) (i : BitVec 3) : s = (1#2 ++ 0#5 ++ i : BitVec 10) ↔
    s.extractLsb' 8 2 = 1 ∧ s.extractLsb' 3 5 = 0 ∧ s.extractLsb' 0 3 = i := append3_iff 2 5 3 s 1#2 0#5 i

theorem eq_latLevel_iff (s : BitVec 10) : s = 0x200 ↔ s.extractLsb' 8 2 = 2 ∧ s.extractLsb' 0 8 = 0 := eq_level_iff 2 s 0

theorem eq_discardLevel_iff (s : BitVec 10) : s = 0x300 ↔ s.extractLsb' 8 2 = 3 ∧ s.extractLsb' 0 8 = 0 := eq_level_iff 3 s 0

theorem level_cases (l : BitVec 2) : l = 0 ∨ l = 1 ∨ l = 2 ∨ l = 3 := by
  revert l; decide

namespace Reads
variable (s : BitVec 10)

theorem src : Reads (pSrc s) fun x => s = x.enc :=
  (ite (fun _ => pure _) fun _ => ite (fun _ => (zero _).bind fun _ => pure _) fun _ => ite (fun _ => (zero _).bind fun _ => pure _)
    fun _ => pure _).congr fun x => by
  cases x <;> simp only [Src.enc, eq_level_iff, eq_olevel_iff, eq_latLevel_iff] <;>
    rcases level_cases (s.extractLsb' 8 2) with h | h | h | h <;> simp [h]

theorem dst : Reads (pDst s) fun x => s = x.enc :=
  (ite (fun _ => pure _) fun _ => ite (fun _ => (zero _).bind fun _ => pure _) fun _ => ite (fun _ => (zero _).bind fun _ => pure _)
    fun _ => (zero _).bind fun _ => pure _).congr fun x => by
  cases x <;> simp only [Dst.enc, eq_level_iff, eq_olevel_iff, eq_latLevel_iff, eq_discardLevel_iff] <;>
    rcases level_cases (s.extractLsb' 8 2) with h | h | h | h <;> simp [h]

/-- A parser that goes on from a destination and takes those that `g` makes. -/
theorem dstAs {α : Type} {q : Dst → Dec α} (g : α → Dst) (hq : ∀ d, Reads (q d) fun a => d = g a) :
    Reads (pDst s >>= q) fun a => s = (g a).enc :=
  ((dst s).bind hq).congr fun _ => ⟨by rintro ⟨d, rfl, rfl⟩; rfl, fun h => ⟨_, h, rfl⟩⟩

/-- As `dstAs`, from a source. -/
theorem srcAs {α : Type} {q : Src → Dec α} (g : α → Src) (hq : ∀ x, Reads (q x) fun a => x = g a) :
    Reads (pSrc s >>= q) fun a => s = (g a).enc :=
  ((src s).bind hq).congr fun _ => ⟨by rintro ⟨d, rfl, rfl⟩; rfl, fun h => ⟨_, h, rfl⟩⟩

theorem rdst : Reads (pRDst s) fun x => s = x.enc := dstAs s RDst.toDst fun d => by
  cases d
  case discard => exact ((err _).bind fun _ => pure _).congr fun x => by cases x <;> simp [RDst.toDst]
  all_goals exact (pure _).congr fun x => by cases x <;> simp [RDst.toDst, eq_comm]

theorem ldst : Reads (pLDst s) fun x => s = x.enc := dstAs s LDst.toDst fun d => by
  cases d
  case lat | discard => exact ((err _).bind fun _ => pure _).congr fun x => by cases x <;> simp [LDst.toDst]
  all_goals exact (pure _).congr fun x => by cases x <;> simp [LDst.toDst, eq_comm]

end Reads

/-- The destination of an ATOM or a BARA as any destination. -/
def optDst : Option LDst → Dst
  | none => .discard
  | some d => d.toDst

namespace Reads
variable (s : BitVec 10)

theorem ldstOpt : Reads (pLDstOpt s) fun x => s = ldstOptEnc x :=
  (dstAs s optDst fun d => by
    cases d
    case lat => exact ((err _).bind fun _ => pure _).congr fun x => by rcases x with _ | _ | _ <;> simp [optDst, LDst.toDst]
    all_goals exact (pure _).congr fun x => by rcases x with _ | _ | _ <;> simp [optDst, LDst.toDst, eq_comm]).congr fun x => by
  cases x <;> rfl

theorem base : Reads (pBase s) fun x => s = x.enc :=
  (srcAs s Base.toSrc fun x => by
    cases x
    case imm => exact ((err _).bind fun _ => pure _).congr fun x => by cases x <;> simp [Base.toSrc]
    all_goals exact (pure _).congr fun x => by cases x <;> simp [Base.toSrc, eq_comm]).congr fun x => by
  cases x <;> rfl

theorem gdst : Reads (pGDst s) fun i => s = gEnc i := dstAs s Dst.g fun d => by
  cases d
  case g => exact (pure _).congr fun x => by simp
  all_goals exact ((err _).bind fun _ => pure _).congr fun x => by simp

theorem gsrc : Reads (pGSrc s) fun i => s = gEnc i := srcAs s Src.g fun x => by
  cases x
  case g => exact (pure _).congr fun x => by simp
  all_goals exact ((err _).bind fun _ => pure _).congr fun x => by simp

theorem pred : Reads (pPred s) fun p => s = predEnc p :=
  ((zero _).bind fun _ => dite (P := fun p => (s.extractLsb' 0 4).toNat = p.val) (fun _ => (pure _).congr fun p => Fin.ext_iff)
    fun h => ((err _).bind fun _ => pure _).congr fun p => ⟨by simp, fun e => absurd (e ▸ p.isLt) h⟩).congr fun p => by
  have hp : predEnc p = (0#6 ++ BitVec.ofNat 4 p.val : BitVec 10) := by revert p; decide
  have hv : (BitVec.ofNat 4 p.val).toNat = p.val := by simp; omega
  rw [hp, append2_iff 6 4, ← BitVec.toNat_inj (y := BitVec.ofNat 4 p.val), hv]
  simp

end Reads

/-- The guard field and its negation hold the guard (R62). -/
def Fields.guarded (f : Fields) : Guard → Prop
  | .always => f.neg = 0 ∧ f.pidx = 15
  | .pred i n => f.neg = bb n ∧ f.pidx = BitVec.ofNat 4 i.val

theorem eq_bb_iff (v : BitVec 1) (b : Bool) : v = bb b ↔ (v == 1) = b := by
  revert v b; decide

theorem eq_ofNat_fin_iff (v : BitVec 4) (i : Fin 12) : v = BitVec.ofNat 4 i.val ↔ v.toNat = i.val := by
  rw [← BitVec.toNat_inj, BitVec.toNat_ofNat, Nat.mod_eq_of_lt (by omega)]

theorem Reads.gd (f : Fields) : Reads f.gd f.guarded :=
  dite (fun h => (pure _).congr fun g => by
    cases g with
    | always => simp [Fields.guarded, ← BitVec.toNat_inj]; omega
    | pred i n => simp [Fields.guarded, eq_bb_iff, eq_ofNat_fin_iff, Fin.ext_iff, and_comm]) fun h =>
      (ite (fun _ => pure _) fun _ => (err _).bind fun _ => pure _).congr fun g => by
    cases g with
    | always => simp [Fields.guarded, and_comm]
    | pred i n => simp [Fields.guarded, eq_ofNat_fin_iff, show f.pidx.toNat ≠ i.val from fun e => h (e ▸ i.isLt)]

/-! ### Codes of the enumerated subfields -/

@[simp] theorem Sg.ofCode_iff (c : BitVec 2) (x : Sg) : Sg.ofCode c = some x ↔ c = x.code := by
  cases x <;> revert c <;> decide

@[simp] theorem Cond.ofCode_iff (c : BitVec 3) (x : Cond) : Cond.ofCode c = some x ↔ c = x.code := by
  cases x <;> revert c <;> decide

@[simp] theorem FCond.ofCode_iff (c : BitVec 3) (x : FCond) : FCond.ofCode c = some x ↔ c = x.code := by
  cases x <;> revert c <;> decide

@[simp] theorem Rm.ofCode_iff (c : BitVec 2) (x : Rm) : Rm.ofCode c = x ↔ c = x.code := by
  cases x <;> revert c <;> decide

@[simp] theorem SReg.ofCode_iff (c : BitVec 7) (x : SReg) : SReg.ofCode c = some x ↔ c = x.code := by
  cases x <;> revert c <;> decide

@[simp] theorem WSReg.ofCode_iff (c : BitVec 7) (x : WSReg) : WSReg.ofCode c = some x ↔ c = x.code := by
  cases x <;> revert c <;> decide

@[simp] theorem RTy.ofCode_iff (c : BitVec 3) (x : RTy) : RTy.ofCode c = some x ↔ c = x.code := by
  cases x <;> revert c <;> decide

@[simp] theorem Space.ofCode_iff (c : BitVec 2) (x : Space) : Space.ofCode c = some x ↔ c = x.code := by
  cases x <;> revert c <;> decide

@[simp] theorem MW.ofCode_iff (c : BitVec 3) (x : MW) : MW.ofCode c = some x ↔ c = x.code := by
  cases x <;> revert c <;> decide

@[simp] theorem Hint.ofCode_iff (c : BitVec 2) (x : Hint) : Hint.ofCode c = some x ↔ c = x.code := by
  cases x <;> revert c <;> decide

@[simp] theorem Scope.ofCode_iff (c : BitVec 3) (x : Scope) : Scope.ofCode c = x ↔ c = x.code := by
  cases x <;> revert c <;> decide

@[simp] theorem Order.ofCode_iff (c : BitVec 2) (x : Order) : Order.ofCode c = x ↔ c = x.code := by
  cases x <;> revert c <;> decide

@[simp] theorem FOrder.ofCode_iff (c : BitVec 2) (x : FOrder) : FOrder.ofCode c = some x ↔ c = x.code := by
  cases x <;> revert c <;> decide

@[simp] theorem AOp.ofCode_iff (c : BitVec 4) (x : AOp) : AOp.ofCode c = some x ↔ c = x.code := by
  cases x <;> revert c <;> decide

/-! ### A full-form word (R61) -/

/-- A word is full-form just when its top bit is clear, and then it is the word of its fields. -/
theorem eq_toWord_iff (w : DWord) (f : Fields) : w = f.toWord ↔ w.getLsbD 63 = false ∧ Fields.ofWord w = f := by
  obtain ⟨m, n, p, d, a, b, c, u⟩ := f
  refine (append4_iff 33 10 10 11 w _ b c u).trans ?_
  rw [append3_iff 13 10 10, append4_iff 1 7 1 4]
  simp [Fields.ofWord, extractLsb'_extractLsb', and_assoc]
  intros
  exact extractLsb'_eq_bb w 63 false

@[simp] theorem Fields.ofWord_toWord (f : Fields) : Fields.ofWord f.toWord = f := ((eq_toWord_iff _ f).1 rfl).2

theorem Fields.toWord_inj {f g : Fields} : f.toWord = g.toWord ↔ f = g :=
  ⟨fun h => by rw [← f.ofWord_toWord, h, g.ofWord_toWord], congrArg _⟩

/-- What a full-form word of given fields is. -/
theorem full_iff {f : Fields} {g : Guard} {m : BitVec 7} {d a b c : BitVec 10} {u : BitVec 11} {P : Prop} (hm : f.major = m)
    (hu : f.func = u ↔ P) : full g m d a b c u = some f.toWord ↔ f.guarded g ∧ f.dst = d ∧ f.sa = a ∧ f.sb = b ∧ f.sc = c ∧ P := by
  subst hm
  obtain ⟨m, n, p, d', a', b', c', u'⟩ := f
  cases g <;> simp only [full, Option.some.injEq, Fields.toWord_inj, Fields.mk.injEq, Fields.guarded, ← hu] <;> tauto

end Sys2Proof
end

section
/-!
The operand bundles of the full form (03 R61 to R69): each parser reads just the bundle whose word the fields are.
-/

namespace Sys2Proof.Reads
variable {f : Fields} {m : BitVec 7}

/-! ### Parts of a `func` field -/

theorem sg (u : BitVec 11) : Reads (pSg u) fun x => u.extractLsb' 1 2 = x.code := (assigned _ _).congr fun _ => by simp

theorem sgD (u : BitVec 11) : Reads (pSgD u) fun x => u = fSgD x.1 x.2 :=
  ((zero _).bind fun _ => (sg u).bind fun _ => pure _).congr fun x => by
    rw [fSgD, append3_iff 8 2 1]
    obtain ⟨a, b⟩ := x
    simp

theorem d (u : BitVec 11) : Reads (pD u) fun w => u = fD w :=
  ((zero _).bind fun _ => pure _).congr fun w => by
    rw [fD, append2_iff 10 1]
    simp

theorem width (u : BitVec 11) : Reads (pMW u) fun x => u.extractLsb' 8 3 = x.code := (assigned _ _).congr fun _ => by simp

theorem space (u : BitVec 11) : Reads (pSp u) fun x => u.extractLsb' 6 2 = x.code := (assigned _ _).congr fun _ => by simp

theorem hint (u : BitVec 11) : Reads (pHint u) fun x => u.extractLsb' 4 2 = x.code := (assigned _ _).congr fun _ => by simp

/-- The low bits of LD's `func`, and those of the scoped accesses (R194). -/
theorem eq_low112_iff (u : BitVec 11) (y s : Bool) : u.extractLsb' 0 4 = (bb y ++ bb s ++ 0#2 : BitVec 4) ↔
    u.getLsbD 3 = y ∧ u.getLsbD 2 = s ∧ u.extractLsb' 0 2 = 0 :=
  (append3_iff 1 1 2 _ _ _ _).trans (by simp [extractLsb'_extractLsb'])

theorem eq_low13_iff (u : BitVec 11) (y : Bool) (c : BitVec 3) : u.extractLsb' 0 4 = (bb y ++ c : BitVec 4) ↔
    u.getLsbD 3 = y ∧ u.extractLsb' 0 3 = c :=
  (append2_iff 1 3 _ _ _).trans (by simp [extractLsb'_extractLsb'])

theorem eq_low13z_iff (u : BitVec 11) (c : BitVec 3) : u.extractLsb' 0 4 = (0#1 ++ c : BitVec 4) ↔
    u.extractLsb' 3 1 = 0 ∧ u.extractLsb' 0 3 = c :=
  (append2_iff 1 3 _ _ _).trans (by simp [extractLsb'_extractLsb'])

/-! ### 04 R88 to R106 -/

theorem alu2 (hm : f.major = m) : Reads (pAlu2 f) fun x => x.enc m = some f.toWord :=
  ((gd f).bind fun _ => (dst _).bind fun _ => (src _).bind fun _ => (src _).bind fun _ => (zero _).bind fun _ => (sgD _).bind fun _ =>
    pure _).congr fun x => by
  refine Iff.trans ?_ (full_iff hm Iff.rfl).symm
  obtain ⟨g, d, a, b, sg, w⟩ := x
  simp [-Bool.exists_bool]

theorem log2 (hm : f.major = m) : Reads (pLog2 f) fun x => x.enc m = some f.toWord :=
  ((gd f).bind fun _ => (dst _).bind fun _ => (src _).bind fun _ => (src _).bind fun _ => (zero _).bind fun _ => (d _).bind fun _ =>
    pure _).congr fun x => by
  refine Iff.trans ?_ (full_iff hm Iff.rfl).symm
  obtain ⟨g, d, a, b, w⟩ := x
  simp [-Bool.exists_bool]

theorem alu3 (hm : f.major = m) : Reads (pAlu3 f) fun x => x.enc m = some f.toWord :=
  ((gd f).bind fun _ => (dst _).bind fun _ => (src _).bind fun _ => (src _).bind fun _ => (src _).bind fun _ => (sgD _).bind fun _ =>
    pure _).congr fun x => by
  refine Iff.trans ?_ (full_iff hm Iff.rfl).symm
  obtain ⟨g, d, a, b, c, sg, w⟩ := x
  simp [-Bool.exists_bool]

theorem tri (hm : f.major = m) : Reads (pTri f) fun x => x.enc m = some f.toWord :=
  ((gd f).bind fun _ => (dst _).bind fun _ => (src _).bind fun _ => (src _).bind fun _ => (src _).bind fun _ => (zero _).bind fun _ =>
    pure _).congr fun x => by
  refine Iff.trans ?_ (full_iff hm Iff.rfl).symm
  obtain ⟨g, d, a, b, c⟩ := x
  simp [-Bool.exists_bool]

theorem alu1 (hm : f.major = m) : Reads (pAlu1 f) fun x => x.enc m = some f.toWord :=
  ((gd f).bind fun _ => (dst _).bind fun _ => (src _).bind fun _ => (zero _).bind fun _ => (zero _).bind fun _ => (sgD _).bind fun _ =>
    pure _).congr fun x => by
  refine Iff.trans ?_ (full_iff hm Iff.rfl).symm
  obtain ⟨g, d, a, sg, w⟩ := x
  simp [-Bool.exists_bool]

theorem log1 (hm : f.major = m) : Reads (pLog1 f) fun x => x.enc m = some f.toWord :=
  ((gd f).bind fun _ => (dst _).bind fun _ => (src _).bind fun _ => (zero _).bind fun _ => (zero _).bind fun _ => (d _).bind fun _ =>
    pure _).congr fun x => by
  refine Iff.trans ?_ (full_iff hm Iff.rfl).symm
  obtain ⟨g, d, a, w⟩ := x
  simp [-Bool.exists_bool]

theorem log1Sel (hm : f.major = m) {s : BitVec 3} (hs : f.func.extractLsb' 8 3 = s) : Reads (pLog1Sel f) fun x => x.encSel m s = some f.toWord :=
  ((gd f).bind fun _ => (dst _).bind fun _ => (src _).bind fun _ => (zero _).bind fun _ => (zero _).bind fun _ =>
    (zero _).bind fun _ => pure _).congr fun x => by
  refine Iff.trans ?_ (full_iff hm (append3_iff 3 7 1 _ _ _ _)).symm
  obtain ⟨g, d, a, w⟩ := x
  simp [-Bool.exists_bool, hs]

theorem bfx (hm : f.major = m) : Reads (pBfx f) fun x =>
    full x.gd m x.d.enc x.a.enc x.b.enc 0 (0#1 ++ x.len ++ x.sg.code ++ bb x.w : BitVec 11) = some f.toWord :=
  ((gd f).bind fun _ => (dst _).bind fun _ => (src _).bind fun _ => (src _).bind fun _ => (zero _).bind fun _ => (zero _).bind fun _ =>
    (sg _).bind fun _ => pure _).congr fun x => by
  refine Iff.trans ?_ (full_iff hm (append4_iff 1 7 2 1 _ _ _ _ _)).symm
  obtain ⟨g, d, a, b, l, sg, w⟩ := x
  simp [-Bool.exists_bool]
  tauto

theorem bfi (hm : f.major = m) : Reads (pBfi f) fun x =>
    full x.gd m x.d.enc x.a.enc x.b.enc x.c.enc (0#1 ++ x.len ++ 0#2 ++ bb x.w : BitVec 11) = some f.toWord :=
  ((gd f).bind fun _ => (dst _).bind fun _ => (src _).bind fun _ => (src _).bind fun _ => (src _).bind fun _ => (zero _).bind fun _ =>
    (zero _).bind fun _ => pure _).congr fun x => by
  refine Iff.trans ?_ (full_iff hm (append4_iff 1 7 2 1 _ _ _ _ _)).symm
  obtain ⟨g, d, a, b, c, l, w⟩ := x
  simp [-Bool.exists_bool]
  tauto

theorem select (hm : f.major = m) : Reads (pSel f) fun x =>
    full x.gd m x.d.enc x.a.enc x.b.enc (predEnc x.p) (0#7 ++ bb x.neg ++ 0#2 ++ bb x.w : BitVec 11) = some f.toWord :=
  ((gd f).bind fun _ => (dst _).bind fun _ => (src _).bind fun _ => (src _).bind fun _ => (pred _).bind fun _ => (zero _).bind fun _ =>
    (zero _).bind fun _ => pure _).congr fun x => by
  refine Iff.trans ?_ (full_iff hm (append4_iff 7 1 2 1 _ _ _ _ _)).symm
  obtain ⟨g, d, a, b, p, n, w⟩ := x
  simp [-Bool.exists_bool]
  tauto

theorem lea (hm : f.major = m) : Reads (pLea f) fun x =>
    full x.gd m x.d.enc x.a.enc x.b.enc 0 (0#5 ++ x.n ++ x.sg.code ++ bb x.w : BitVec 11) = some f.toWord :=
  ((gd f).bind fun _ => (dst _).bind fun _ => (src _).bind fun _ => (src _).bind fun _ => (zero _).bind fun _ => (zero _).bind fun _ =>
    (sg _).bind fun _ => pure _).congr fun x => by
  refine Iff.trans ?_ (full_iff hm (append4_iff 5 3 2 1 _ _ _ _ _)).symm
  obtain ⟨g, d, a, b, n, sg, w⟩ := x
  simp [-Bool.exists_bool]
  tauto

theorem cmp (hm : f.major = m) : Reads (pCmp f) fun x =>
    full x.gd m (predEnc x.p) x.a.enc x.b.enc 0 (0#5 ++ x.cond.code ++ x.sg.code ++ bb x.w : BitVec 11) = some f.toWord :=
  ((gd f).bind fun _ => (pred _).bind fun _ => (src _).bind fun _ => (src _).bind fun _ => (zero _).bind fun _ =>
    (zero _).bind fun _ => (assigned _ _).bind fun _ => (sg _).bind fun _ => pure _).congr fun x => by
  refine Iff.trans ?_ (full_iff hm (append4_iff 5 3 2 1 _ _ _ _ _)).symm
  obtain ⟨g, p, a, b, c, sg, w⟩ := x
  simp [-Bool.exists_bool]

theorem predOp (hm : f.major = 0x1F) {s : BitVec 3} (hs : f.func.extractLsb' 8 3 = s) : Reads (pPredOp f) fun x => x.enc s = some f.toWord :=
  ((gd f).bind fun _ => (pred _).bind fun _ => (pred _).bind fun _ => (pred _).bind fun _ => (zero _).bind fun _ =>
    (zero _).bind fun _ => pure _).congr fun x => by
  refine Iff.trans ?_ (full_iff hm (append4_iff 3 6 1 1 _ _ _ _ _)).symm
  obtain ⟨g, d, a, b, na, nb⟩ := x
  simp [-Bool.exists_bool, hs]
  tauto

theorem pnot (hm : f.major = m) (hs : f.func.extractLsb' 8 3 = 3) : Reads (pPnot f) fun x =>
    full x.gd m (predEnc x.pd) (predEnc x.pa) 0 0 (fSel 3) = some f.toWord :=
  ((gd f).bind fun _ => (pred _).bind fun _ => (pred _).bind fun _ => (zero _).bind fun _ => (zero _).bind fun _ =>
    (zero _).bind fun _ => pure _).congr fun x => by
  refine Iff.trans ?_ (full_iff hm (append2_iff 3 8 _ _ _)).symm
  obtain ⟨g, d, a⟩ := x
  simp [-Bool.exists_bool, hs]

theorem gets (hm : f.major = m) (hs : f.func.extractLsb' 8 3 = 5) : Reads (pGets f) fun x =>
    full x.gd m x.d.enc 0 0 0 (5#3 ++ bb x.w ++ x.sr.code : BitVec 11) = some f.toWord :=
  ((gd f).bind fun _ => (dst _).bind fun _ => (zero _).bind fun _ => (zero _).bind fun _ => (zero _).bind fun _ =>
    (assigned _ _).bind fun _ => pure _).congr fun x => by
  refine Iff.trans ?_ (full_iff hm (append3_iff 3 1 7 _ _ _ _)).symm
  obtain ⟨g, d, r, w⟩ := x
  simp [-Bool.exists_bool, hs]
  tauto

theorem sets (hm : f.major = m) (hs : f.func.extractLsb' 8 3 = 6) : Reads (pSets f) fun x =>
    full x.gd m 0 x.a.enc 0 0 (6#3 ++ bb x.w ++ x.sr.code : BitVec 11) = some f.toWord :=
  ((gd f).bind fun _ => (zero _).bind fun _ => (src _).bind fun _ => (zero _).bind fun _ => (zero _).bind fun _ =>
    (assigned _ _).bind fun _ => pure _).congr fun x => by
  refine Iff.trans ?_ (full_iff hm (append3_iff 3 1 7 _ _ _ _)).symm
  obtain ⟨g, r, a, w⟩ := x
  simp [-Bool.exists_bool, hs]
  tauto

/-! ### 05 R122 to R134 -/

theorem f2 (hm : f.major = m) : Reads (pF2 f) fun x => x.enc m = some f.toWord :=
  ((gd f).bind fun _ => (dst _).bind fun _ => (src _).bind fun _ => (src _).bind fun _ => (zero _).bind fun _ => (zero _).bind fun _ =>
    (zero _).bind fun _ => pure _).congr fun x => by
  refine Iff.trans ?_ (full_iff hm (append3_iff 5 2 4 _ _ _ _)).symm
  obtain ⟨g, d, a, b, rm⟩ := x
  simp [-Bool.exists_bool, pRm]
  tauto

theorem f2n (hm : f.major = m) : Reads (pF2n f) fun x => x.enc m = some f.toWord :=
  ((gd f).bind fun _ => (dst _).bind fun _ => (src _).bind fun _ => (src _).bind fun _ => (zero _).bind fun _ => (zero _).bind fun _ =>
    pure _).congr fun x => by
  refine Iff.trans ?_ (full_iff hm Iff.rfl).symm
  obtain ⟨g, d, a, b⟩ := x
  simp [-Bool.exists_bool]

theorem f3 (hm : f.major = m) : Reads (pF3 f) fun x => x.enc m = some f.toWord :=
  ((gd f).bind fun _ => (dst _).bind fun _ => (src _).bind fun _ => (src _).bind fun _ => (src _).bind fun _ => (zero _).bind fun _ =>
    (zero _).bind fun _ => pure _).congr fun x => by
  refine Iff.trans ?_ (full_iff hm (append3_iff 5 2 4 _ _ _ _)).symm
  obtain ⟨g, d, a, b, c, rm⟩ := x
  simp [-Bool.exists_bool, pRm]
  tauto

theorem f1 (hm : f.major = m) : Reads (pF1 f) fun x =>
    full x.gd m x.d.enc x.a.enc 0 0 0 = some f.toWord :=
  ((gd f).bind fun _ => (dst _).bind fun _ => (src _).bind fun _ => (zero _).bind fun _ => (zero _).bind fun _ =>
    (zero _).bind fun _ => pure _).congr fun x => by
  refine Iff.trans ?_ (full_iff hm Iff.rfl).symm
  obtain ⟨g, d, a⟩ := x
  simp [-Bool.exists_bool]

theorem f1Sel (hm : f.major = m) {s : BitVec 3} (hs : f.func.extractLsb' 8 3 = s) : Reads (pF1Sel f) fun x => x.encSel m s = some f.toWord :=
  ((gd f).bind fun _ => (dst _).bind fun _ => (src _).bind fun _ => (zero _).bind fun _ => (zero _).bind fun _ =>
    (zero _).bind fun _ => pure _).congr fun x => by
  refine Iff.trans ?_ (full_iff hm (append2_iff 3 8 _ _ _)).symm
  obtain ⟨g, d, a⟩ := x
  simp [-Bool.exists_bool, hs]

theorem f1rSel (hm : f.major = m) {s : BitVec 3} (hs : f.func.extractLsb' 8 3 = s) : Reads (pF1rSel f) fun x => x.encSel m s = some f.toWord :=
  ((gd f).bind fun _ => (dst _).bind fun _ => (src _).bind fun _ => (zero _).bind fun _ => (zero _).bind fun _ =>
    (zero _).bind fun _ => (zero _).bind fun _ => pure _).congr fun x => by
  refine Iff.trans ?_ (full_iff hm (append4_iff 3 2 2 4 _ _ _ _ _)).symm
  obtain ⟨g, d, a, rm⟩ := x
  simp [-Bool.exists_bool, hs, pRm]
  tauto

theorem fcmp (hm : f.major = m) : Reads (pFcmp f) fun x =>
    full x.gd m (predEnc x.p) x.a.enc x.b.enc 0 (0#8 ++ x.cond.code : BitVec 11) = some f.toWord :=
  ((gd f).bind fun _ => (pred _).bind fun _ => (src _).bind fun _ => (src _).bind fun _ => (zero _).bind fun _ =>
    (zero _).bind fun _ => (assigned _ _).bind fun _ => pure _).congr fun x => by
  refine Iff.trans ?_ (full_iff hm (append2_iff 8 3 _ _ _)).symm
  obtain ⟨g, p, a, b, c⟩ := x
  simp [-Bool.exists_bool]

theorem h2 (hm : f.major = m) : Reads (pH2 f) fun x => x.enc m = some f.toWord :=
  ((gd f).bind fun _ => (dst _).bind fun _ => (src _).bind fun _ => (src _).bind fun _ => (zero _).bind fun _ => (zero _).bind fun _ =>
    (zero _).bind fun _ => pure _).congr fun x => by
  refine Iff.trans ?_ (full_iff hm (append4_iff 5 2 1 3 _ _ _ _ _)).symm
  obtain ⟨g, d, a, b, bf, rm⟩ := x
  simp [-Bool.exists_bool, pRm]
  tauto

theorem doth (hm : f.major = m) : Reads (pDoth f) fun x =>
    full x.gd m x.d.enc x.a.enc x.b.enc 0 (0#7 ++ bb x.bf ++ 0#3 : BitVec 11) = some f.toWord :=
  ((gd f).bind fun _ => (rdst _).bind fun _ => (src _).bind fun _ => (src _).bind fun _ => (zero _).bind fun _ =>
    (zero _).bind fun _ => (zero _).bind fun _ => pure _).congr fun x => by
  refine Iff.trans ?_ (full_iff hm (append3_iff 7 1 3 _ _ _ _)).symm
  obtain ⟨g, d, a, b, bf⟩ := x
  simp [-Bool.exists_bool]
  tauto

theorem cvt (hm : f.major = m) : Reads (pCvt f) fun x =>
    full x.gd m x.d.enc x.a.enc 0 0 (bb x.toSlot ++ x.rt.code ++ x.slot ++ x.rm.code ++ bb x.sat ++ 0#1 : BitVec 11) = some f.toWord :=
  ((gd f).bind fun _ => (dst _).bind fun _ => (src _).bind fun _ => (zero _).bind fun _ => (zero _).bind fun _ =>
    (zero _).bind fun _ => (assigned _ _).bind fun _ => pure _).congr fun x => by
  refine Iff.trans ?_ (full_iff hm (append6_iff 1 3 3 2 1 1 _ _ _ _ _ _ _)).symm
  obtain ⟨g, d, a, t, rt, sl, rm, sat⟩ := x
  simp [-Bool.exists_bool]
  tauto

theorem pack (hm : f.major = m) : Reads (pPack f) fun x =>
    full x.gd m x.d.enc x.a.enc x.b.enc 0 (x.slot ++ x.e ++ x.rm.code ++ bb x.sat ++ 0#2 : BitVec 11) = some f.toWord :=
  ((gd f).bind fun _ => (dst _).bind fun _ => (src _).bind fun _ => (src _).bind fun _ => (zero _).bind fun _ => (zero _).bind fun _ =>
    pure _).congr fun x => by
  refine Iff.trans ?_ (full_iff hm (append5_iff 3 3 2 1 2 _ _ _ _ _ _)).symm
  obtain ⟨g, d, a, b, sl, e, rm, sat⟩ := x
  simp [-Bool.exists_bool]
  tauto

theorem unpack (hm : f.major = m) : Reads (pUnpack f) fun x =>
    full x.gd m x.d.enc x.a.enc 0 0 (x.slot ++ x.e ++ 0#5 : BitVec 11) = some f.toWord :=
  ((gd f).bind fun _ => (dst _).bind fun _ => (src _).bind fun _ => (zero _).bind fun _ => (zero _).bind fun _ =>
    (zero _).bind fun _ => pure _).congr fun x => by
  refine Iff.trans ?_ (full_iff hm (append3_iff 3 3 5 _ _ _ _)).symm
  obtain ⟨g, d, a, sl, e⟩ := x
  simp [-Bool.exists_bool]
  tauto

theorem fmtq (hm : f.major = m) : Reads (pFmtq f) fun x =>
    full x.gd m x.d.enc x.a.enc 0 0 (x.slot ++ 0#8 : BitVec 11) = some f.toWord :=
  ((gd f).bind fun _ => (dst _).bind fun _ => (src _).bind fun _ => (zero _).bind fun _ => (zero _).bind fun _ =>
    (zero _).bind fun _ => pure _).congr fun x => by
  refine Iff.trans ?_ (full_iff hm (append2_iff 3 8 _ _ _)).symm
  obtain ⟨g, d, a, sl⟩ := x
  simp [-Bool.exists_bool]
  tauto

/-! ### 06 R146 -/

theorem mmas (hm : f.major = m) : Reads (pMmas f) fun x =>
    full x.gd m (gEnc x.d) (gEnc x.a) (gEnc x.b) (gEnc x.s) (x.sa ++ x.sb ++ x.fuse ++ 0#3 : BitVec 11) = some f.toWord :=
  ((gd f).bind fun _ => (gdst _).bind fun _ => (gsrc _).bind fun _ => (gsrc _).bind fun _ => (gsrc _).bind fun _ =>
    (zero _).bind fun _ => pure _).congr fun x => by
  refine Iff.trans ?_ (full_iff hm (append4_iff 3 3 2 3 _ _ _ _ _)).symm
  obtain ⟨g, d, a, b, s, sa, sb, fu⟩ := x
  simp [-Bool.exists_bool]
  tauto

theorem mzero (hm : f.major = m) : Reads (pMzero f) fun x =>
    full x.gd m (gEnc x.d) 0 0 0 (fD x.cd) = some f.toWord :=
  ((gd f).bind fun _ => (gdst _).bind fun _ => (zero _).bind fun _ => (zero _).bind fun _ => (zero _).bind fun _ =>
    (zero _).bind fun _ => pure _).congr fun x => by
  refine Iff.trans ?_ (full_iff hm (append2_iff 10 1 _ _ _)).symm
  obtain ⟨g, d, c⟩ := x
  simp [-Bool.exists_bool]

theorem gonly (hm : f.major = m) : Reads (pGOnly f) fun x => x.enc m 0 = some f.toWord :=
  ((gd f).bind fun _ => (zero _).bind fun _ => (zero _).bind fun _ => (zero _).bind fun _ => (zero _).bind fun _ =>
    (zero _).bind fun _ => pure _).congr fun x => by
  refine Iff.trans ?_ (full_iff hm Iff.rfl).symm
  obtain ⟨g⟩ := x
  simp [-Bool.exists_bool]

theorem gonlySel (hm : f.major = m) {s : BitVec 3} (hs : f.func.extractLsb' 8 3 = s) : Reads (pGOnlySel f) fun x => x.enc m (fSel s) = some f.toWord :=
  ((gd f).bind fun _ => (zero _).bind fun _ => (zero _).bind fun _ => (zero _).bind fun _ => (zero _).bind fun _ =>
    (zero _).bind fun _ => pure _).congr fun x => by
  refine Iff.trans ?_ (full_iff hm (append2_iff 3 8 _ _ _)).symm
  obtain ⟨g⟩ := x
  simp [-Bool.exists_bool, hs]

theorem mcvt (hm : f.major = m) : Reads (pMcvt f) fun x =>
    full x.gd m (gEnc x.d) (gEnc x.a) 0 0 (x.slot ++ x.h ++ x.rm.code ++ bb x.sat ++ 0#3 : BitVec 11) = some f.toWord :=
  ((gd f).bind fun _ => (gdst _).bind fun _ => (gsrc _).bind fun _ => (zero _).bind fun _ => (zero _).bind fun _ =>
    (zero _).bind fun _ => pure _).congr fun x => by
  refine Iff.trans ?_ (full_iff hm (append5_iff 3 2 2 1 3 _ _ _ _ _ _)).symm
  obtain ⟨g, d, a, sl, h, rm, sat⟩ := x
  simp [-Bool.exists_bool, pRm]
  tauto

theorem mtrn (hm : f.major = m) : Reads (pMtrn f) fun x =>
    full x.gd m (gEnc x.d) (gEnc x.a) 0 0 (fD x.w32) = some f.toWord :=
  ((gd f).bind fun _ => (gdst _).bind fun _ => (gsrc _).bind fun _ => (zero _).bind fun _ => (zero _).bind fun _ =>
    (zero _).bind fun _ => pure _).congr fun x => by
  refine Iff.trans ?_ (full_iff hm (append2_iff 10 1 _ _ _)).symm
  obtain ⟨g, d, a, w⟩ := x
  simp [-Bool.exists_bool]

/-! ### 07 R157 -/

theorem brx (hm : f.major = m) : Reads (pBrx f) fun x => x.enc m = some f.toWord :=
  ((gd f).bind fun _ => (zero _).bind fun _ => (src _).bind fun _ => (zero _).bind fun _ => (zero _).bind fun _ =>
    (zero _).bind fun _ => pure _).congr fun x => by
  refine Iff.trans ?_ (full_iff hm (append2_iff 3 8 _ _ _)).symm
  obtain ⟨g, a, t⟩ := x
  simp [-Bool.exists_bool]

theorem yld (hm : f.major = m) (hs : f.func.extractLsb' 8 3 = 1) : Reads (pYield f) fun x =>
    full x.gd m 0 0 0 0 (1#3 ++ 0#4 ++ x.k : BitVec 11) = some f.toWord :=
  ((gd f).bind fun _ => (zero _).bind fun _ => (zero _).bind fun _ => (zero _).bind fun _ => (zero _).bind fun _ =>
    (zero _).bind fun _ => pure _).congr fun x => by
  refine Iff.trans ?_ (full_iff hm (append3_iff 3 4 4 _ _ _ _)).symm
  obtain ⟨g, k⟩ := x
  simp [-Bool.exists_bool, hs]

theorem tcall (hm : f.major = m) : Reads (pTcall f) fun x => x.enc m = some f.toWord :=
  ((gd f).bind fun _ => (zero _).bind fun _ => (src _).bind fun _ => (src _).bind fun _ => (zero _).bind fun _ =>
    pure _).congr fun x => by
  refine Iff.trans ?_ (full_iff hm (append2_iff 8 3 _ _ _)).symm
  obtain ⟨g, a, b, t, c⟩ := x
  simp [-Bool.exists_bool]

theorem txch (hm : f.major = m) : Reads (pTxch f) fun x => x.enc m = some f.toWord :=
  ((gd f).bind fun _ => (dst _).bind fun _ => (src _).bind fun _ => (src _).bind fun _ => (zero _).bind fun _ => (zero _).bind fun _ =>
    pure _).congr fun x => by
  refine Iff.trans ?_ (full_iff hm (append2_iff 10 1 _ _ _)).symm
  obtain ⟨g, d, a, b, w⟩ := x
  simp [-Bool.exists_bool]

theorem tmigr (hm : f.major = m) : Reads (pTmigr f) fun x =>
    full x.gd m 0 x.a.enc 0 0 0 = some f.toWord :=
  ((gd f).bind fun _ => (zero _).bind fun _ => (src _).bind fun _ => (zero _).bind fun _ => (zero _).bind fun _ =>
    (zero _).bind fun _ => pure _).congr fun x => by
  refine Iff.trans ?_ (full_iff hm Iff.rfl).symm
  obtain ⟨g, a⟩ := x
  simp [-Bool.exists_bool]

/-! ### 08 R194, R195 -/

theorem ld (hm : f.major = m) : Reads (pLd f) fun x =>
    full x.gd m x.d.enc x.base.enc x.off.enc 0 (fMem x.w x.sp x.hint (bb x.yld ++ bb x.sx ++ 0#2 : BitVec 4)) = some f.toWord :=
  ((gd f).bind fun _ => (ldst _).bind fun _ => (base _).bind fun _ => (src _).bind fun _ => (zero _).bind fun _ =>
    (width _).bind fun _ => (space _).bind fun _ => (hint _).bind fun _ => (zero _).bind fun _ => pure _).congr fun x => by
  refine Iff.trans ?_ (full_iff hm (append4_iff 3 2 2 4 _ _ _ _ _)).symm
  obtain ⟨g, d, b, o, mw, sp, h, y, sx⟩ := x
  simp [-Bool.exists_bool, eq_low112_iff]
  tauto

theorem st (hm : f.major = m) : Reads (pSt f) fun x =>
    full x.gd m 0 x.base.enc x.off.enc x.data.enc (fMem x.w x.sp x.hint 0) = some f.toWord :=
  ((gd f).bind fun _ => (zero _).bind fun _ => (base _).bind fun _ => (src _).bind fun _ => (src _).bind fun _ =>
    (width _).bind fun _ => (space _).bind fun _ => (hint _).bind fun _ => (zero _).bind fun _ => pure _).congr fun x => by
  refine Iff.trans ?_ (full_iff hm (append4_iff 3 2 2 4 _ _ _ _ _)).symm
  obtain ⟨g, b, o, dt, mw, sp, h⟩ := x
  simp [-Bool.exists_bool]

theorem lda (hm : f.major = m) : Reads (pLda f) fun x =>
    full x.gd m x.d.enc x.base.enc x.off.enc 0 (fMem x.w x.sp x.hint (bb x.yld ++ x.scope.code : BitVec 4)) = some f.toWord :=
  ((gd f).bind fun _ => (ldst _).bind fun _ => (base _).bind fun _ => (src _).bind fun _ => (zero _).bind fun _ =>
    (width _).bind fun _ => (space _).bind fun _ => (hint _).bind fun _ => pure _).congr fun x => by
  refine Iff.trans ?_ (full_iff hm (append4_iff 3 2 2 4 _ _ _ _ _)).symm
  obtain ⟨g, d, b, o, mw, sp, h, y, sc⟩ := x
  simp [-Bool.exists_bool, eq_low13_iff, pScope]

theorem stl (hm : f.major = m) : Reads (pStl f) fun x =>
    full x.gd m 0 x.base.enc x.off.enc x.data.enc (fMem x.w x.sp x.hint (0#1 ++ x.scope.code : BitVec 4)) = some f.toWord :=
  ((gd f).bind fun _ => (zero _).bind fun _ => (base _).bind fun _ => (src _).bind fun _ => (src _).bind fun _ =>
    (width _).bind fun _ => (space _).bind fun _ => (hint _).bind fun _ => (zero _).bind fun _ => pure _).congr fun x => by
  refine Iff.trans ?_ (full_iff hm (append4_iff 3 2 2 4 _ _ _ _ _)).symm
  obtain ⟨g, b, o, dt, mw, sp, h, sc⟩ := x
  simp [-Bool.exists_bool, eq_low13z_iff, pScope]

theorem red (hm : f.major = 0x55) : Reads (pRed f) fun x => x.enc = some f.toWord :=
  ((gd f).bind fun _ => (zero _).bind fun _ => (base _).bind fun _ => (src _).bind fun _ => (zero _).bind fun _ =>
    (assigned _ _).bind fun _ => (zero _).bind fun _ => pure _).congr fun x => by
  refine Iff.trans ?_ (full_iff hm (append6_iff 1 1 4 1 1 3 _ _ _ _ _ _ _)).symm
  obtain ⟨g, ba, b, w, sc, op, rl, sp⟩ := x
  simp [-Bool.exists_bool, pScope]
  tauto

theorem fence (hm : f.major = m) : Reads (pFence f) fun x =>
    full x.gd m 0 0 0 0 (0#6 ++ x.order.code ++ x.scope.code : BitVec 11) = some f.toWord :=
  ((gd f).bind fun _ => (zero _).bind fun _ => (zero _).bind fun _ => (zero _).bind fun _ => (zero _).bind fun _ =>
    (zero _).bind fun _ => (assigned _ _).bind fun _ => pure _).congr fun x => by
  refine Iff.trans ?_ (full_iff hm (append3_iff 6 2 3 _ _ _ _)).symm
  obtain ⟨g, o, sc⟩ := x
  simp [-Bool.exists_bool, pScope]

theorem pref (hm : f.major = m) : Reads (pPref f) fun x =>
    full x.gd m 0 x.base.enc x.off.enc 0 (0#3 ++ bb x.konst ++ 0#1 ++ x.hint.code ++ bb x.l2 ++ 0#3 : BitVec 11) = some f.toWord :=
  ((gd f).bind fun _ => (zero _).bind fun _ => (base _).bind fun _ => (src _).bind fun _ => (zero _).bind fun _ =>
    (zero _).bind fun _ => (zero _).bind fun _ => (zero _).bind fun _ => (hint _).bind fun _ => pure _).congr fun x => by
  refine Iff.trans ?_ (full_iff hm (append6_iff 3 1 1 2 1 3 _ _ _ _ _ _ _)).symm
  obtain ⟨g, b, o, k, h, l2⟩ := x
  simp [-Bool.exists_bool]
  tauto

theorem line (hm : f.major = m) : Reads (pLine f) fun x => x.enc m = some f.toWord :=
  ((gd f).bind fun _ => (zero _).bind fun _ => (base _).bind fun _ => (src _).bind fun _ => (zero _).bind fun _ =>
    (zero _).bind fun _ => pure _).congr fun x => by
  refine Iff.trans ?_ (full_iff hm Iff.rfl).symm
  obtain ⟨g, b, o⟩ := x
  simp [-Bool.exists_bool]

/-! ### 09 R215 to 16 R370 -/

theorem bar (hm : f.major = m) : Reads (pBar f) fun x => x.enc m = some f.toWord :=
  ((gd f).bind fun _ => (zero _).bind fun _ => (base _).bind fun _ => (src _).bind fun _ => (zero _).bind fun _ =>
    (zero _).bind fun _ => pure _).congr fun x => by
  refine Iff.trans ?_ (full_iff hm Iff.rfl).symm
  obtain ⟨g, b, a⟩ := x
  simp [-Bool.exists_bool]

theorem bara (hm : f.major = m) : Reads (pBara f) fun x =>
    full x.gd m (ldstOptEnc x.d) x.bar.enc 0 0 0 = some f.toWord :=
  ((gd f).bind fun _ => (ldstOpt _).bind fun _ => (base _).bind fun _ => (zero _).bind fun _ => (zero _).bind fun _ =>
    (zero _).bind fun _ => pure _).congr fun x => by
  refine Iff.trans ?_ (full_iff hm Iff.rfl).symm
  obtain ⟨g, d, b⟩ := x
  simp [-Bool.exists_bool]

theorem tag (hm : f.major = 0x67) {s : BitVec 3} (hs : f.func.extractLsb' 8 3 = s) : Reads (pTag f) fun x => x.enc s = some f.toWord :=
  ((gd f).bind fun _ => (zero _).bind fun _ => (src _).bind fun _ => (zero _).bind fun _ => (zero _).bind fun _ =>
    (zero _).bind fun _ => pure _).congr fun x => by
  refine Iff.trans ?_ (full_iff hm (append2_iff 3 8 _ _ _)).symm
  obtain ⟨g, a⟩ := x
  simp [-Bool.exists_bool, hs]

theorem ffr (hm : f.major = m) (hs : f.func.extractLsb' 8 3 = 2) : Reads (pFfr f) fun x =>
    full x.gd m x.d.enc x.a.enc 0 0 (fSelD 2 x.clr) = some f.toWord :=
  ((gd f).bind fun _ => (dst _).bind fun _ => (src _).bind fun _ => (zero _).bind fun _ => (zero _).bind fun _ =>
    (zero _).bind fun _ => pure _).congr fun x => by
  refine Iff.trans ?_ (full_iff hm (append3_iff 3 7 1 _ _ _ _)).symm
  obtain ⟨g, d, a, c⟩ := x
  simp [-Bool.exists_bool, hs]

theorem emit (hm : f.major = m) : Reads (pEmit f) fun x =>
    full x.gd m 0 x.a.enc (gEnc x.r) 0 (fD x.ds) = some f.toWord :=
  ((gd f).bind fun _ => (zero _).bind fun _ => (src _).bind fun _ => (gsrc _).bind fun _ => (zero _).bind fun _ =>
    (zero _).bind fun _ => pure _).congr fun x => by
  refine Iff.trans ?_ (full_iff hm (append2_iff 10 1 _ _ _)).symm
  obtain ⟨g, ds, a, r⟩ := x
  simp [-Bool.exists_bool]

theorem qrd (hm : f.major = m) : Reads (pQrd f) fun x =>
    full x.gd m (gEnc x.r) x.a.enc 0 0 (fD x.ds) = some f.toWord :=
  ((gd f).bind fun _ => (gdst _).bind fun _ => (src _).bind fun _ => (zero _).bind fun _ => (zero _).bind fun _ =>
    (zero _).bind fun _ => pure _).congr fun x => by
  refine Iff.trans ?_ (full_iff hm (append2_iff 10 1 _ _ _)).symm
  obtain ⟨g, ds, a, r⟩ := x
  simp [-Bool.exists_bool]

theorem qlen (hm : f.major = m) : Reads (pQlen f) fun x =>
    full x.gd m x.d.enc x.a.enc 0 0 (fD x.ds) = some f.toWord :=
  ((gd f).bind fun _ => (dst _).bind fun _ => (src _).bind fun _ => (zero _).bind fun _ => (zero _).bind fun _ =>
    (zero _).bind fun _ => pure _).congr fun x => by
  refine Iff.trans ?_ (full_iff hm (append2_iff 10 1 _ _ _)).symm
  obtain ⟨g, ds, d, a⟩ := x
  simp [-Bool.exists_bool]

theorem mload (hm : f.major = m) : Reads (pMload f) fun x =>
    full x.gd m 0 x.a.enc x.b.enc 0 0 = some f.toWord :=
  ((gd f).bind fun _ => (zero _).bind fun _ => (src _).bind fun _ => (src _).bind fun _ => (zero _).bind fun _ =>
    (zero _).bind fun _ => pure _).congr fun x => by
  refine Iff.trans ?_ (full_iff hm Iff.rfl).symm
  obtain ⟨g, a, b⟩ := x
  simp [-Bool.exists_bool]

theorem slot (hm : f.major = m) : Reads (pSlot f) fun x =>
    full x.gd m 0 x.a.enc 0 0 0 = some f.toWord :=
  ((gd f).bind fun _ => (zero _).bind fun _ => (src _).bind fun _ => (zero _).bind fun _ => (zero _).bind fun _ =>
    (zero _).bind fun _ => pure _).congr fun x => by
  refine Iff.trans ?_ (full_iff hm Iff.rfl).symm
  obtain ⟨g, a⟩ := x
  simp [-Bool.exists_bool]

theorem mstat (hm : f.major = m) : Reads (pMstat f) fun x =>
    full x.gd m (gEnc x.d) x.a.enc x.b.enc 0 0 = some f.toWord :=
  ((gd f).bind fun _ => (gdst _).bind fun _ => (src _).bind fun _ => (src _).bind fun _ => (zero _).bind fun _ =>
    (zero _).bind fun _ => pure _).congr fun x => by
  refine Iff.trans ?_ (full_iff hm Iff.rfl).symm
  obtain ⟨g, d, a, b⟩ := x
  simp [-Bool.exists_bool]

theorem dOnly (hm : f.major = m) : Reads (pDOnly f) fun x =>
    full x.gd m x.d.enc 0 0 0 0 = some f.toWord :=
  ((gd f).bind fun _ => (dst _).bind fun _ => (zero _).bind fun _ => (zero _).bind fun _ => (zero _).bind fun _ =>
    (zero _).bind fun _ => pure _).congr fun x => by
  refine Iff.trans ?_ (full_iff hm Iff.rfl).symm
  obtain ⟨g, d⟩ := x
  simp [-Bool.exists_bool]

theorem trap (hm : f.major = m) : Reads (pTrap f) fun x =>
    full x.gd m 0 x.a.enc 0 0 (fTag x.n) = some f.toWord :=
  ((gd f).bind fun _ => (zero _).bind fun _ => (src _).bind fun _ => (zero _).bind fun _ => (zero _).bind fun _ =>
    (zero _).bind fun _ => pure _).congr fun x => by
  refine Iff.trans ?_ (full_iff hm (append2_iff 3 8 _ _ _)).symm
  obtain ⟨g, n, a⟩ := x
  simp [-Bool.exists_bool]

theorem brk (hm : f.major = m) : Reads (pBrk f) fun x =>
    full x.gd m 0 0 0 0 (fTag x.n) = some f.toWord :=
  ((gd f).bind fun _ => (zero _).bind fun _ => (zero _).bind fun _ => (zero _).bind fun _ => (zero _).bind fun _ =>
    (zero _).bind fun _ => pure _).congr fun x => by
  refine Iff.trans ?_ (full_iff hm (append2_iff 3 8 _ _ _)).symm
  obtain ⟨g, n⟩ := x
  simp [-Bool.exists_bool]

theorem serv (hm : f.major = m) : Reads (pServ f) fun x =>
    full x.gd m 0 x.a.enc x.b.enc 0 0 = some f.toWord :=
  ((gd f).bind fun _ => (zero _).bind fun _ => (base _).bind fun _ => (src _).bind fun _ => (zero _).bind fun _ =>
    (zero _).bind fun _ => pure _).congr fun x => by
  refine Iff.trans ?_ (full_iff hm Iff.rfl).symm
  obtain ⟨g, a, b⟩ := x
  simp [-Bool.exists_bool]
/-! ### Bundles whose parser goes by a field -/

theorem pmov (hm : f.major = 0x1F) (hs : f.func.extractLsb' 8 3 = 4) : Reads (pPmov f) fun x => encode (.pmov x) = some f.toWord :=
  ((gd f).bind fun _ => (zero _).bind fun _ => (zero _).bind fun _ => ite
    (fun _ => (zero _).bind fun _ => (src _).bind fun _ => (src _).bind fun _ => pure _)
    fun _ => (dst _).bind fun _ => (zero _).bind fun _ => (zero _).bind fun _ => pure _).congr fun x => by
  obtain ⟨g, d | ⟨a, b⟩⟩ := x <;> refine Iff.trans ?_ (full_iff hm (append3_iff 3 7 1 _ _ _ _)).symm <;>
    cases h : f.func[0] <;> simp [hs, h] <;> tauto

/-- Bit 4 of `func` and the four below it, as one part of DOT's (R134). -/
theorem eq_low5_iff (u : BitVec 11) : u.extractLsb' 0 5 = 0#5 ↔ u.getLsbD 4 = false ∧ u.extractLsb' 0 4 = 0#4 :=
  (append2_iff 1 4 _ 0#1 0#4).trans (by
    rw [extractLsb'_extractLsb' _ _ _ _ _ (by decide), extractLsb'_extractLsb' _ _ _ _ _ (by decide)]
    exact and_congr_left fun _ => extractLsb'_eq_bb u 4 false)

theorem dot (hm : f.major = m) : Reads (pDot f) fun x => x.enc m = some f.toWord :=
  ((gd f).bind fun _ => (rdst _).bind fun _ => (src _).bind fun _ => (src _).bind fun _ => (zero _).bind fun _ => ite
    (fun _ => (src _).bind fun _ => pure _) fun _ => (zero _).bind fun _ => pure _).congr fun x => by
  obtain ⟨g, d, a, b, _ | s, sa, sb⟩ := x
  · refine Iff.trans ?_ (full_iff hm (append3_iff 3 3 5 _ _ _ _)).symm
    cases h : f.func[4] <;> simp [h, eq_low5_iff]
    tauto
  · refine Iff.trans ?_ (full_iff hm (append4_iff 3 3 1 4 _ _ _ _ _)).symm
    rw [show f.func.extractLsb' 4 1 = 1#1 ↔ f.func.getLsbD 4 = true from extractLsb'_eq_bb _ _ true]
    cases h : f.func[4] <;> simp [h]
    tauto

theorem mma (hm : f.major = m) : Reads (pMma f) fun x => full x.gd m (gEnc x.d) (gEnc x.a) (gEnc x.b)
    (match x.c with | none => 0x300 | some c => gEnc c) (x.sa ++ x.sb ++ x.fuse ++ 0#3 : BitVec 11) = some f.toWord :=
  ((gd f).bind fun _ => (gdst _).bind fun _ => (gsrc _).bind fun _ => (gsrc _).bind fun _ => (zero _).bind fun _ =>
    (ite (fun _ => pure _) fun _ => (gsrc _).bind fun _ => pure _).bind fun _ => pure _).congr fun x => by
  refine Iff.trans ?_ (full_iff hm (append4_iff 3 3 2 3 _ _ _ _ _)).symm
  have hc (c : BitVec 8) : 0x300#10 ≠ gEnc c := by
    revert c; decide
  obtain ⟨g, d, a, b, _ | c, sa, sb, fu⟩ := x
  · by_cases h : f.sc = 0x300#10 <;> simp [h]
    tauto
  · by_cases h : f.sc = 0x300#10 <;> simp [h, hc]
    tauto

theorem frag (hm : f.major = m) (st : Bool) : Reads (pFrag st f) fun x => x.enc m = some f.toWord :=
  have tail (g : Guard) (r : BitVec 8) := (gsrc f.sa).bind fun b => (src f.sb).bind fun s => (zero f.sc).bind fun _ =>
    (zero (f.func.extractLsb' 0 8)).bind fun _ => (assigned (Space.ofCode (f.func.extractLsb' 9 2)) .g).bind fun sp =>
      pure (FragArg.mk g r b s sp (f.func.getLsbD 8))
  ((gd f).bind fun _ => ite (fun _ => (gsrc _).bind fun _ => tail _ _) fun _ => (gdst _).bind fun _ => tail _ _).congr fun x => by
  refine Iff.trans ?_ (full_iff hm (append3_iff 2 1 8 _ _ _ _)).symm
  obtain ⟨g, r, b, s, sp, c⟩ := x
  simp [-Bool.exists_bool]
  tauto

/-- A word whose specifiers are the 30 bits of a displacement or of WAIT's limits (R157, R347). -/
theorem full_wide_iff (hm : f.major = m) (g : Guard) (v : BitVec 30) :
    full g m (v.extractLsb' 20 10) (v.extractLsb' 10 10) (v.extractLsb' 0 10) 0 0 = some f.toWord ↔
      f.guarded g ∧ f.wide30 = v ∧ f.sc = 0 ∧ f.func = 0 := by
  have hv : f.wide30 = v ↔ f.dst = v.extractLsb' 20 10 ∧ f.sa = v.extractLsb' 10 10 ∧ f.sb = v.extractLsb' 0 10 := by
    rw [eq_comm]
    refine (append3_iff 10 10 10 v _ _ _).trans ?_
    simp [eq_comm]
  rw [full_iff hm Iff.rfl, hv, and_assoc, and_assoc]

theorem bra (hm : f.major = m) : Reads (pBra f) fun x => x.enc m = some f.toWord :=
  ((gd f).bind fun _ => (zero _).bind fun _ => (zero _).bind fun _ => pure _).congr fun x => by
  refine Iff.trans ?_ (full_wide_iff hm x.gd x.off).symm
  obtain ⟨g, o⟩ := x
  simp
  tauto

theorem wait (hm : f.major = 0x70) : Reads (pWait f) fun x => encode (.wait x) = some f.toWord :=
  ((gd f).bind fun _ => (zero _).bind fun _ => (zero _).bind fun _ => (zero _).bind fun _ => pure _).congr fun x => by
  refine Iff.trans ?_ (full_wide_iff hm x.gd (x.ld ++ x.st ++ x.cp ++ x.tl ++ 0#6 : BitVec 30)).symm
  obtain ⟨g, l, s, c, t⟩ := x
  refine Iff.trans ?_ (and_congr_right fun _ => and_congr_left fun _ => append5_iff 6 6 6 6 6 _ _ _ _ _ _).symm
  simp
  tauto

theorem pad (hm : f.major = m) : Reads (pPad f) fun x => full .always m 0 0 0 0 (fTag x.tag) = some f.toWord :=
  ((gd f).bind fun _ => (must _ _).bind fun _ => (zero _).bind fun _ => (zero _).bind fun _ => (zero _).bind fun _ =>
    (zero _).bind fun _ => (zero _).bind fun _ => pure _).congr fun x => by
  refine Iff.trans ?_ (full_iff hm (append2_iff 3 8 _ _ _)).symm
  obtain ⟨t⟩ := x
  simp [Fields.guarded, and_assoc]
  tauto

end Reads

/-- The fields of a TVOTE hold its mode (R157). -/
def Fields.votes (f : Fields) : Vote → Prop
  | .all p => f.func.extractLsb' 8 3 = 0 ∧ f.sb = 0 ∧ f.dst = predEnc p
  | .any p => f.func.extractLsb' 8 3 = 1 ∧ f.sb = 0 ∧ f.dst = predEnc p
  | .uni p => f.func.extractLsb' 8 3 = 2 ∧ f.sb = 0 ∧ f.dst = predEnc p
  | .ballot d b => f.func.extractLsb' 8 3 = 3 ∧ f.sb = b.enc ∧ f.dst = d.enc
  | .count d => f.func.extractLsb' 8 3 = 4 ∧ f.sb = 0 ∧ f.dst = d.enc

theorem sel_cases (f : Fields) : (sel f = 0 ∧ f.func.extractLsb' 8 3 = 0) ∨ (sel f = 1 ∧ f.func.extractLsb' 8 3 = 1)
    ∨ (sel f = 2 ∧ f.func.extractLsb' 8 3 = 2) ∨ (sel f = 3 ∧ f.func.extractLsb' 8 3 = 3)
    ∨ (sel f = 4 ∧ f.func.extractLsb' 8 3 = 4) ∨ (sel f = 5 ∧ f.func.extractLsb' 8 3 = 5)
    ∨ (sel f = 6 ∧ f.func.extractLsb' 8 3 = 6) ∨ (sel f = 7 ∧ f.func.extractLsb' 8 3 = 7) := by
  unfold sel
  generalize f.func.extractLsb' 8 3 = k
  revert k; decide

namespace Reads
variable {f : Fields} {m : BitVec 7}

theorem tvote (hm : f.major = 0x4C) : Reads (pTvote f) fun x => x.enc = some f.toWord := by
  have enc (x : TvoteArg) : (f.guarded x.gd ∧ f.sa = predEnc x.ps ∧ f.sc = 0 ∧ f.func.extractLsb' 1 7 = 0 ∧ f.func.getLsbD 0 = x.neg
      ∧ f.votes x.mode) ↔ x.enc = some f.toWord := by
    obtain ⟨g, ps, n, p | p | p | ⟨d, b⟩ | d⟩ := x <;> refine Iff.trans ?_ (full_iff hm (append3_iff 3 7 1 _ _ _ _)).symm <;>
      simp [Fields.votes] <;> tauto
  have pre {q : Guard → PReg → Dec TvoteArg} {Q : Guard → PReg → TvoteArg → Prop} (hq : ∀ g ps, Reads (q g ps) (Q g ps)) :=
    (gd f).bind fun g => (pred f.sa).bind fun ps => (zero f.sc).bind fun _ => (zero (f.func.extractLsb' 1 7)).bind fun _ => hq g ps
  refine Reads.congr ?_ enc
  rcases sel_cases f with h | h | h | h | h | h | h | h <;> simp only [pTvote, h.1]
  · exact (pre fun _ _ => (zero _).bind fun _ => (pred _).bind fun _ => pure _).congr fun x => by
      obtain ⟨_, _, _, _ | _ | _ | ⟨_, _⟩ | _⟩ := x <;> simp [Fields.votes, h]; tauto
  · exact (pre fun _ _ => (zero _).bind fun _ => (pred _).bind fun _ => pure _).congr fun x => by
      obtain ⟨_, _, _, _ | _ | _ | ⟨_, _⟩ | _⟩ := x <;> simp [Fields.votes, h]; tauto
  · exact (pre fun _ _ => (zero _).bind fun _ => (pred _).bind fun _ => pure _).congr fun x => by
      obtain ⟨_, _, _, _ | _ | _ | ⟨_, _⟩ | _⟩ := x <;> simp [Fields.votes, h]; tauto
  · exact (pre fun _ _ => (src _).bind fun _ => (dst _).bind fun _ => pure _).congr fun x => by
      obtain ⟨_, _, _, _ | _ | _ | ⟨_, _⟩ | _⟩ := x <;> simp [Fields.votes, h]; tauto
  · exact (pre fun _ _ => (zero _).bind fun _ => (dst _).bind fun _ => pure _).congr fun x => by
      obtain ⟨_, _, _, _ | _ | _ | ⟨_, _⟩ | _⟩ := x <;> simp [Fields.votes, h]; tauto
  · exact (pre fun _ _ => (err _).bind fun _ => pure _).congr fun x => by
      obtain ⟨_, _, _, _ | _ | _ | ⟨_, _⟩ | _⟩ := x <;> simp [Fields.votes, h]
  · exact (pre fun _ _ => (err _).bind fun _ => pure _).congr fun x => by
      obtain ⟨_, _, _, _ | _ | _ | ⟨_, _⟩ | _⟩ := x <;> simp [Fields.votes, h]
  · exact (pre fun _ _ => (err _).bind fun _ => pure _).congr fun x => by
      obtain ⟨_, _, _, _ | _ | _ | ⟨_, _⟩ | _⟩ := x <;> simp [Fields.votes, h]

theorem glaunch (hm : f.major = m) : Reads (pGlaunch f) fun x => x.w = false ∧ x.enc m = some f.toWord :=
  ((gd f).bind fun _ => (dst _).bind fun _ => (src _).bind fun _ => (src _).bind fun _ => (zero _).bind fun _ => (zero _).bind fun _ =>
    pure _).congr fun x => by
  obtain ⟨g, d, a, b, w⟩ := x
  refine Iff.trans ?_ (and_congr_right fun _ => full_iff hm Iff.rfl).symm
  cases w <;> simp [fD, bb]

theorem atom (hm : f.major = 0x54) : Reads (pAtom f) fun x => (x.op = .cas ↔ x.c.isSome) ∧ x.enc = some f.toWord :=
  ((gd f).bind fun _ => (ldstOpt _).bind fun _ => (base _).bind fun _ => (src _).bind fun _ => (assigned _ _).bind fun _ => ite
    (fun _ => (src _).bind fun _ => pure _) fun _ => (zero _).bind fun _ => pure _).congr fun x => by
  refine Iff.trans ?_ (and_congr_right fun _ => full_iff hm (append5_iff 1 1 4 2 3 _ _ _ _ _ _)).symm
  obtain ⟨g, d, ba, b, c, w, scr, op, od, sp⟩ := x
  by_cases h : op = .cas
  · subst h
    cases c <;> simp [pScope]
    tauto
  · cases c <;> simp [pScope, h, Ne.symm h]
    tauto

theorem cpyTail : Reads (pCpyTail f) fun x => f.sc = barEnc x.2.2 ∧
    f.func = cpyFunc x.1 x.2.1 x.2.2 (f.func.extractLsb' 0 6) :=
  ((zero _).bind fun _ => (assigned _ _).bind fun _ => ite (fun _ => (base _).bind fun _ => pure _)
    fun _ => (zero _).bind fun _ => pure _).congr fun x => by
  refine Iff.trans ?_ (and_congr_right fun _ => append5_iff 1 1 2 1 6 _ _ _ _ _ _).symm
  obtain ⟨ds, sp, _ | b⟩ := x <;> cases h : f.func[6] <;> simp [h, barEnc]
  · tauto
  · tauto

/-- The tag stands in the low bits of a copy's `func` (R215). -/
theorem eq_cpyFunc_iff (u : BitVec 11) (ds : Bool) (sp : Space) (b : Option Base) (t : BitVec 6) :
    u = cpyFunc ds sp b t ↔ u = cpyFunc ds sp b (u.extractLsb' 0 6) ∧ u.extractLsb' 0 6 = t := by
  have low : (cpyFunc ds sp b t).extractLsb' 0 6 = t := BitVec.extractLsb'_append_eq_right
  exact ⟨fun h => ⟨by rw [h, low], by rw [h, low]⟩, fun ⟨h, e⟩ => e ▸ h⟩

theorem cpy (hm : f.major = m) : Reads (pCpy f) fun x =>
    full x.gd m x.db.enc x.sb.enc x.len.enc (barEnc x.bar) (cpyFunc x.dscr x.ssp x.bar x.tag) = some f.toWord :=
  ((gd f).bind fun _ => (base _).bind fun _ => (base _).bind fun _ => (src _).bind fun _ => cpyTail.bind fun _ => pure _).congr fun x => by
  refine Iff.trans ?_ (full_iff hm (eq_cpyFunc_iff _ _ _ _ _)).symm
  obtain ⟨g, d, s, l, ds, sp, b, t⟩ := x
  simp [-Bool.exists_bool, and_assoc]

theorem cpyd (hm : f.major = m) : Reads (pCpyd f) fun x => x.enc m = some f.toWord :=
  ((gd f).bind fun _ => (base _).bind fun _ => (base _).bind fun _ => (gsrc _).bind fun _ => cpyTail.bind fun _ => pure _).congr fun x => by
  refine Iff.trans ?_ (full_iff hm (eq_cpyFunc_iff _ _ _ _ _)).symm
  obtain ⟨g, d, s, l, ds, sp, b, t⟩ := x
  simp [-Bool.exists_bool, and_assoc]

end Sys2Proof.Reads
end

section
/-!
The pair and literal forms (03 R70 to R77): a half, and a literal word, is read just as the value whose code it is.
-/

namespace Sys2Proof

/-! ### Restricted opcodes (R76) -/

/-- The row of the restricted opcode table that a half uses, and that a literal word uses. -/
@[simp] def HalfOp.rop : HalfOp → ROpc
  | .two op _ _ => .bin op
  | .split op _ _ _ => .bin op
  | .cmp c _ _ _ => .cmp c
  | .una op _ _ => .una op
  | .ld dbl sp _ _ => .ld dbl sp
  | .st dbl scr _ _ => .st dbl scr
  | .bra _ => .bra
  | .ret => .ret

def ROpc.code : ROpc → BitVec 6
  | .bin op => op.code
  | .una op => op.code
  | .cmp c => c.code
  | .ld dbl sp => ldCode dbl sp
  | .st dbl scr => stCode dbl scr
  | .bra => 0x30
  | .ret => 0x31

def ROpc.mod : ROpc → Bool
  | .bin op => op.mod
  | .cmp c => c.mod
  | _ => false

/-- The opcode table reads a row from its code and its mod bit alone. -/
theorem ropOf_iff (c : BitVec 6) (m : Bool) (r : ROpc) :
    (ropOf c m = some r ∧ (!m || modSigned c) = true) ↔ c = r.code ∧ m = r.mod := by
  rcases r with op | op | k | ⟨dbl, sp⟩ | ⟨dbl, scr⟩ | _ | _
  case bin | una | cmp => cases ‹_› <;> revert c m <;> decide
  case ld => cases dbl <;> cases sp <;> revert c m <;> decide
  case st => cases dbl <;> cases scr <;> revert c m <;> decide
  all_goals revert c m; decide

theorem pRGuard_iff (g : BitVec 3) (gd : RGuard) : pRGuard g = gd ↔ g = rgEnc gd := by
  rcases gd with _ | p <;> revert g
  · decide
  · revert p; decide

/-! ### Halves (R70, R71) -/

/-- The first specifier of a half, its second, and its split bit. -/
@[simp] def HalfOp.dst : HalfOp → BitVec 10
  | .two _ d _ => d.enc
  | .split _ d _ _ => d.enc
  | .cmp _ p _ _ => predEnc p
  | .una _ d _ => d.enc
  | .ld _ _ d _ => d.enc
  | .st _ _ d _ => d.enc
  | .bra _ => 0
  | .ret => 0

@[simp] def HalfOp.srcf : HalfOp → BitVec 10
  | .two _ _ s => s.enc
  | .split _ _ a b => (a ++ b : BitVec 10)
  | .cmp _ _ a b => (a ++ b : BitVec 10)
  | .una _ _ s => s.enc
  | .ld _ _ _ b => b.enc
  | .st _ _ _ b => b.enc
  | .bra i => (Src.imm i).enc
  | .ret => 0

@[simp] def HalfOp.splits : HalfOp → Bool
  | .split _ _ _ _ => true
  | .cmp _ _ _ _ => true
  | _ => false

theorem Half.enc_eq (x : Half) : x.enc = halfWord x.op.rop.code x.gd x.op.dst x.op.srcf x.op.splits x.op.rop.mod := by
  obtain ⟨gd, op⟩ := x
  cases op <;> rfl

theorem Half.eq_enc_iff (h : BitVec 31) (x : Half) : h = x.enc ↔ (ropOf (h.extractLsb' 25 6) (h.getLsbD 0) = some x.op.rop
      ∧ (!h.getLsbD 0 || modSigned (h.extractLsb' 25 6)) = true) ∧ pRGuard (h.extractLsb' 22 3) = x.gd
      ∧ h.getLsbD 1 = x.op.splits ∧ h.extractLsb' 12 10 = x.op.dst ∧ h.extractLsb' 2 10 = x.op.srcf := by
  rw [ropOf_iff, pRGuard_iff, Half.enc_eq]
  refine (append6_iff 6 3 10 10 1 1 h _ _ _ _ _ _).trans ?_
  simp only [extractLsb'_eq_bb]
  tauto

@[simp] theorem eq_split_iff (s : BitVec 10) (a b : BitVec 5) : s = (a ++ b : BitVec 10) ↔ s.extractLsb' 5 5 = a ∧ s.extractLsb' 0 5 = b :=
  append2_iff 5 5 s a b

namespace Reads

theorem half (h : BitVec 31) : Reads (pHalf h) fun x => h = x.enc := by
  refine Reads.congr ?_ fun x => (Half.eq_enc_iff h x).symm
  cases hr : ropOf (h.extractLsb' 25 6) (h.getLsbD 0) with
  | none =>
    simp only [pHalf, hr]
    exact ((err _).bind fun _ => pure _).congr fun x => by simp
  | some r =>
    simp only [pHalf, hr]
    cases r with
    | bin op =>
      exact ((must _ _).bind fun _ => ite (fun _ => (dst _).bind fun _ => pure _)
        fun _ => (rdst _).bind fun _ => (src _).bind fun _ => pure _).congr fun ⟨gd, x⟩ => by
        cases hs : h[1] <;> cases x <;> simp [hs] <;> tauto
    | una op =>
      exact ((must _ _).bind fun _ => (must _ _).bind fun _ => (dst _).bind fun _ => (src _).bind fun _ => pure _).congr fun ⟨gd, x⟩ => by
        cases x <;> simp; tauto
    | cmp k =>
      exact ((must _ _).bind fun _ => (must _ _).bind fun _ => (pred _).bind fun _ => pure _).congr fun ⟨gd, x⟩ => by
        cases x <;> simp; tauto
    | ld dbl sp =>
      exact ((must _ _).bind fun _ => (must _ _).bind fun _ => (ldst _).bind fun _ => (base _).bind fun _ => pure _).congr
        fun ⟨gd, x⟩ => by
        cases x <;> simp; tauto
    | st dbl scr =>
      exact ((must _ _).bind fun _ => (must _ _).bind fun _ => (src _).bind fun _ => (base _).bind fun _ => pure _).congr
        fun ⟨gd, x⟩ => by
        cases x <;> simp; tauto
    | bra =>
      have imm (gd : RGuard) (y : Src) : Reads (match y with
          | .imm i => Pure.pure ⟨gd, .bra i⟩
          | _ => do Sys2Proof.err .operand; Pure.pure ⟨gd, .bra 0⟩) fun x : Half => ∃ i, y = .imm i ∧ x = ⟨gd, .bra i⟩ := by
        cases y
        case imm i => exact (pure _).congr fun x => by simp [eq_comm]
        all_goals exact ((err _).bind fun _ => pure _).congr fun x => by simp
      exact ((must _ _).bind fun _ => (must _ _).bind fun _ => (zero _).bind fun _ => (src _).bind fun y => imm _ y).congr
        fun ⟨gd, x⟩ => by
        cases x <;> simp; tauto
    | ret =>
      exact ((must _ _).bind fun _ => (must _ _).bind fun _ => (zero _).bind fun _ => (zero _).bind fun _ => pure _).congr
        fun ⟨gd, x⟩ => by
        cases x <;> simp; tauto

end Reads

/-! ### Literal words (R74 to R77) -/

@[simp] def LitOp.rop : LitOp → ROpc
  | .bin op _ _ _ _ => .bin op
  | .cmp c _ _ _ => .cmp c
  | .una op _ _ _ => .una op
  | .ld dbl sp _ _ _ => .ld dbl sp
  | .st dbl scr _ _ _ => .st dbl scr
  | .bra _ => .bra

/-- The specifiers of a literal word, its mod bit and its literal. -/
@[simp] def LitOp.dst : LitOp → BitVec 10
  | .bin _ _ d _ _ => d.enc
  | .cmp _ p _ _ => predEnc p
  | .una _ _ d _ => d.enc
  | .ld _ _ d _ _ => d.enc
  | .st _ _ d _ _ => d.enc
  | .bra _ => 0

@[simp] def LitOp.srcf : LitOp → BitVec 10
  | .bin _ _ _ a _ => a.enc
  | .cmp _ _ a _ => a.enc
  | .una _ _ _ _ => 0
  | .ld _ _ _ b _ => b.enc
  | .st _ _ _ b _ => b.enc
  | .bra _ => 0

@[simp] def LitOp.mod : LitOp → Bool
  | .bin op dbl _ _ _ => op.mod || dbl
  | .cmp c _ _ _ => c.mod
  | .una _ dbl _ _ => dbl
  | _ => false

@[simp] def LitOp.lit : LitOp → BitVec 32
  | .bin _ _ _ _ l => l
  | .cmp _ _ _ l => l
  | .una _ _ _ l => l
  | .ld _ _ _ _ l => l
  | .st _ _ _ _ l => l
  | .bra l => l

/-- `.d` stands where R76 admits it. -/
@[simp] def LitOp.dblOk : LitOp → Prop
  | .bin op dbl _ _ _ => dbl = true → op.hasD = true
  | .una op dbl _ _ => dbl = true → op = .mov
  | _ => True

/-- What the decoder asks of an opcode's mod bit, and of `.d`, for a literal word. -/
@[simp] def LitOp.modOk (c : BitVec 6) (m : Bool) : LitOp → Prop
  | .bin op dbl _ _ _ => (!m || modSigned c || op.hasD) = true ∧ (m && op.hasD) = dbl
  | .una op dbl _ _ => (!m || op == .mov) = true ∧ m = dbl
  | .cmp _ _ _ _ => (!m || modSigned c) = true
  | _ => (!m) = true

theorem ropOf_bin_iff (c : BitVec 6) (m dbl : Bool) (op : RBin) :
    (ropOf c m = some (.bin op) ∧ (!m || modSigned c || op.hasD) = true ∧ (m && op.hasD) = dbl) ↔
      (dbl = true → op.hasD = true) ∧ c = op.code ∧ m = (op.mod || dbl) := by
  cases op <;> revert c m dbl <;> decide

theorem ropOf_una_iff (c : BitVec 6) (m dbl : Bool) (op : RUn) :
    (ropOf c m = some (.una op) ∧ (!m || op == .mov) = true ∧ m = dbl) ↔ (dbl = true → op = .mov) ∧ c = op.code ∧ m = dbl := by
  cases op <;> revert c m dbl <;> decide

/-- As `ropOf_iff`, for a literal word. -/
theorem LitOp.ropOf_iff (c : BitVec 6) (m : Bool) (op : LitOp) :
    (ropOf c m = some op.rop ∧ op.modOk c m) ↔ op.dblOk ∧ c = op.rop.code ∧ m = op.mod := by
  have plain (r : ROpc) (hr : r.mod = false) : (ropOf c m = some r ∧ (!m) = true) ↔ True ∧ c = r.code ∧ m = false := by
    have := Sys2Proof.ropOf_iff c m r
    cases m <;> simp_all
  cases op with
  | bin op dbl => exact ropOf_bin_iff c m dbl op
  | una op dbl => exact ropOf_una_iff c m dbl op
  | cmp k => simpa [ROpc.mod] using Sys2Proof.ropOf_iff c m (.cmp k)
  | _ => exact plain _ rfl

theorem LitWord.eq_enc_iff (w : DWord) (hw : w.extractLsb' 62 2 = 3) (x : LitWord) : (x.op.dblOk ∧ w = x.enc) ↔
    (ropOf (w.extractLsb' 56 6) (w.getLsbD 32) = some x.op.rop ∧ x.op.modOk (w.extractLsb' 56 6) (w.getLsbD 32))
      ∧ pRGuard (w.extractLsb' 53 3) = x.gd ∧ w.extractLsb' 43 10 = x.op.dst ∧ w.extractLsb' 33 10 = x.op.srcf
      ∧ w.extractLsb' 0 32 = x.op.lit := by
  have enc : x.enc = litWord x.op.rop.code x.gd x.op.dst x.op.srcf x.op.mod x.op.lit := by
    obtain ⟨gd, op⟩ := x
    cases op <;> rfl
  have fields := (append6_iff 8 3 10 10 1 32 w (3#2 ++ x.op.rop.code) (rgEnc x.gd) x.op.dst x.op.srcf (bb x.op.mod) x.op.lit).trans
    (and_congr_left fun _ => append2_iff 2 6 _ _ _)
  rw [extractLsb'_extractLsb' _ _ _ _ _ (by decide), extractLsb'_extractLsb' _ _ _ _ _ (by decide), extractLsb'_eq_bb] at fields
  rw [enc, litWord, LitOp.ropOf_iff, pRGuard_iff, fields]
  simp [hw]
  tauto

theorem Reads.literal (w : DWord) (hw : w.extractLsb' 62 2 = 3) : Reads (pLit w) fun x => x.op.dblOk ∧ w = x.enc := by
  refine Reads.congr ?_ fun x => (LitWord.eq_enc_iff w hw x).symm
  cases hr : ropOf (w.extractLsb' 56 6) (w.getLsbD 32) with
  | none =>
    simp only [pLit, hr]
    exact ((err _).bind fun _ => pure _).congr fun x => by simp
  | some r =>
    simp only [pLit, hr]
    cases r with
    | bin op =>
      exact ((must _ _).bind fun _ => (dst _).bind fun _ => (src _).bind fun _ => pure _).congr fun ⟨gd, x⟩ => by
        cases x <;> simp; grind
    | una op =>
      exact ((must _ _).bind fun _ => (dst _).bind fun _ => (zero _).bind fun _ => pure _).congr fun ⟨gd, x⟩ => by
        cases x <;> simp; grind
    | cmp k =>
      exact ((must _ _).bind fun _ => (pred _).bind fun _ => (src _).bind fun _ => pure _).congr fun ⟨gd, x⟩ => by
        cases x <;> simp; tauto
    | ld dbl sp =>
      exact ((must _ _).bind fun _ => (ldst _).bind fun _ => (base _).bind fun _ => pure _).congr fun ⟨gd, x⟩ => by
        cases x <;> simp; tauto
    | st dbl scr =>
      exact ((must _ _).bind fun _ => (src _).bind fun _ => (base _).bind fun _ => pure _).congr fun ⟨gd, x⟩ => by
        cases x <;> simp; tauto
    | bra =>
      exact ((must _ _).bind fun _ => (zero _).bind fun _ => (zero _).bind fun _ => pure _).congr fun ⟨gd, x⟩ => by
        cases x <;> simp; tauto
    | ret => exact ((err _).bind fun _ => pure _).congr fun ⟨gd, x⟩ => by cases x <;> simp

end Sys2Proof
end

section
/-!
The decoder and the encoder are inverse (03 R59 to R79): each row of the opcode table from its word, and from its instruction.
-/

namespace Sys2Proof

/-! ### From a word that decodes to its instruction's word -/

section
variable {f : Fields} {lo : Nat} {i : Instr}

theorem not_gives_unassigned (h : Gives unassigned i) : False := by
  simpa using ((Reads.err .unassigned).bind fun _ => Reads.pure (Instr.nop ⟨.always⟩)).gives i |>.1 h

/-- A row whose bundle is read as the word of its instruction. -/
theorem encode_of {α : Type} (k : α → Instr) {p : Dec α} {P : α → Prop} (hp : Reads p P) {w : Option DWord}
    (hk : ∀ x, P x → encode (k x) = w) (h : Gives (do pure (k (← p))) i) : encode i = w := by
  obtain ⟨x, hx, rfl⟩ := ((hp.bind fun x => Reads.pure (k x)).gives i).1 h
  exact hk x hx

theorem encode_of_dec00 (hm : f.major = BitVec.ofNat 7 (16 * 0 + lo)) (h : Gives (dec00 f lo) i) : encode i = some f.toWord := by
  unfold dec00 at h
  split at h
  · exact encode_of .add (.alu2 hm) (fun _ h => h) h
  · exact encode_of .sub (.alu2 hm) (fun _ h => h) h
  · exact encode_of .mul (.alu2 hm) (fun _ h => h) h
  · exact encode_of .mulh (.alu2 hm) (fun _ h => h) h
  · exact encode_of .mad (.alu3 hm) (fun _ h => h) h
  · exact encode_of .div (.alu2 hm) (fun _ h => h) h
  · exact encode_of .rem (.alu2 hm) (fun _ h => h) h
  · exact encode_of .and (.log2 hm) (fun _ h => h) h
  · exact encode_of .or (.log2 hm) (fun _ h => h) h
  · exact encode_of .xor (.log2 hm) (fun _ h => h) h
  · exact encode_of .andn (.log2 hm) (fun _ h => h) h
  · exact encode_of .orn (.log2 hm) (fun _ h => h) h
  · exact encode_of .not (.log1 hm) (fun _ h => h) h
  · exact encode_of .shl (.log2 hm) (fun _ h => h) h
  · exact encode_of .shr (.log2 hm) (fun _ h => h) h
  · exact encode_of .sar (.log2 hm) (fun _ h => h) h
  · exact (not_gives_unassigned h).elim

theorem encode_of_dec10 (hm : f.major = BitVec.ofNat 7 (16 * 1 + lo)) (h : Gives (dec10 f lo) i) : encode i = some f.toWord := by
  unfold dec10 at h
  split at h
  · exact encode_of .rol (.log2 hm) (fun _ h => h) h
  · exact encode_of .ror (.log2 hm) (fun _ h => h) h
  · exact encode_of .shf (.tri hm) (fun _ h => h) h
  · exact encode_of .min (.alu2 hm) (fun _ h => h) h
  · exact encode_of .max (.alu2 hm) (fun _ h => h) h
  · exact encode_of .abs (.alu1 hm) (fun _ h => h) h
  · exact encode_of .neg (.alu1 hm) (fun _ h => h) h
  · rcases sel_cases f with hs | hs | hs | hs | hs | hs | hs | hs <;> rw [hs.1] at h
    · exact encode_of .popc (.log1Sel hm hs.2) (fun _ h => h) h
    · exact encode_of .clz (.log1Sel hm hs.2) (fun _ h => h) h
    · exact encode_of .ctz (.log1Sel hm hs.2) (fun _ h => h) h
    · exact encode_of .brev (.log1Sel hm hs.2) (fun _ h => h) h
    · exact (not_gives_unassigned h).elim
    · exact (not_gives_unassigned h).elim
    · exact (not_gives_unassigned h).elim
    · exact (not_gives_unassigned h).elim
  · exact encode_of .bfx (.bfx hm) (fun _ h => h) h
  · exact encode_of .bfi (.bfi hm) (fun _ h => h) h
  · exact encode_of .bperm (.tri hm) (fun _ h => h) h
  · exact encode_of .sel (.select hm) (fun _ h => h) h
  · exact encode_of .mov (.log1 hm) (fun _ h => h) h
  · exact encode_of .lea (.lea hm) (fun _ h => h) h
  · exact encode_of .cmp (.cmp hm) (fun _ h => h) h
  · rcases sel_cases f with hs | hs | hs | hs | hs | hs | hs | hs <;> rw [hs.1] at h
    · exact encode_of .pand (.predOp hm hs.2) (fun _ h => h) h
    · exact encode_of .por (.predOp hm hs.2) (fun _ h => h) h
    · exact encode_of .pxor (.predOp hm hs.2) (fun _ h => h) h
    · exact encode_of .pnot (.pnot hm hs.2) (fun _ h => h) h
    · exact encode_of .pmov (.pmov hm hs.2) (fun _ h => h) h
    · exact encode_of .gets (.gets hm hs.2) (fun _ h => h) h
    · exact encode_of .sets (.sets hm hs.2) (fun _ h => h) h
    · exact (not_gives_unassigned h).elim
  · exact (not_gives_unassigned h).elim

theorem encode_of_dec20 (hm : f.major = BitVec.ofNat 7 (16 * 2 + lo)) (h : Gives (dec20 f lo) i) : encode i = some f.toWord := by
  unfold dec20 at h
  split at h
  · exact encode_of .fadd (.f2 hm) (fun _ h => h) h
  · exact encode_of .fsub (.f2 hm) (fun _ h => h) h
  · exact encode_of .fmul (.f2 hm) (fun _ h => h) h
  · exact encode_of .ffma (.f3 hm) (fun _ h => h) h
  · exact encode_of .fmin (.f2n hm) (fun _ h => h) h
  · exact encode_of .fmax (.f2n hm) (fun _ h => h) h
  · exact encode_of .fcmp (.fcmp hm) (fun _ h => h) h
  · exact encode_of .fclass (.f1 hm) (fun _ h => h) h
  · exact encode_of .fdiv (.f2 hm) (fun _ h => h) h
  · rcases sel_cases f with hs | hs | hs | hs | hs | hs | hs | hs <;> rw [hs.1] at h
    · exact encode_of .frcp (.f1rSel hm hs.2) (fun _ h => h) h
    · exact encode_of .frsq (.f1Sel hm hs.2) (fun _ h => h) h
    · exact encode_of .fsqrt (.f1rSel hm hs.2) (fun _ h => h) h
    · exact encode_of .fexp2 (.f1Sel hm hs.2) (fun _ h => h) h
    · exact encode_of .flog2 (.f1Sel hm hs.2) (fun _ h => h) h
    · exact encode_of .fsin (.f1Sel hm hs.2) (fun _ h => h) h
    · exact encode_of .fcos (.f1Sel hm hs.2) (fun _ h => h) h
    · exact encode_of .ftanh (.f1Sel hm hs.2) (fun _ h => h) h
  · exact encode_of .fscale (.f2 hm) (fun _ h => h) h
  · exact encode_of .hfma2 (.f3 hm) (fun _ h => h) h
  · exact encode_of .bfma2 (.f3 hm) (fun _ h => h) h
  · exact encode_of .hadd2 (.h2 hm) (fun _ h => h) h
  · exact encode_of .hmul2 (.h2 hm) (fun _ h => h) h
  · exact encode_of .cvt (.cvt hm) (fun _ h => h) h
  · exact (not_gives_unassigned h).elim

theorem encode_of_dec30 (hm : f.major = BitVec.ofNat 7 (16 * 3 + lo)) (h : Gives (dec30 f lo) i) : encode i = some f.toWord := by
  unfold dec30 at h
  split at h
  · exact encode_of .pack (.pack hm) (fun _ h => h) h
  · exact encode_of .unpack (.unpack hm) (fun _ h => h) h
  · exact encode_of .dot8 (.dot hm) (fun _ h => h) h
  · exact encode_of .dot4 (.dot hm) (fun _ h => h) h
  · exact encode_of .doth2 (.doth hm) (fun _ h => h) h
  · exact encode_of .fmtq (.fmtq hm) (fun _ h => h) h
  · exact encode_of .mma (.mma hm) (fun _ h => h) h
  · exact encode_of .mmas (.mmas hm) (fun _ h => h) h
  · exact encode_of .mzero (.mzero hm) (fun _ h => h) h
  · exact encode_of .mfence (.gonly hm) (fun _ h => h) h
  · exact encode_of .ldfr (.frag hm _) (fun _ h => h) h
  · exact encode_of .stfr (.frag hm _) (fun _ h => h) h
  · exact encode_of .mcvt (.mcvt hm) (fun _ h => h) h
  · exact encode_of .mtrn (.mtrn hm) (fun _ h => h) h
  · exact (not_gives_unassigned h).elim

theorem encode_of_dec40 (hm : f.major = BitVec.ofNat 7 (16 * 4 + lo)) (h : Gives (dec40 f lo) i) : encode i = some f.toWord := by
  unfold dec40 at h
  split at h
  · exact encode_of .bra (.bra hm) (fun _ h => h) h
  · exact encode_of .brx (.brx hm) (fun _ h => h) h
  · exact encode_of .call (.bra hm) (fun _ h => h) h
  · exact encode_of .callx (.brx hm) (fun _ h => h) h
  · exact encode_of .ret (.gonly hm) (fun _ h => h) h
  · exact encode_of .pad (.pad hm) (fun _ h => h) h
  · rcases sel_cases f with hs | hs | hs | hs | hs | hs | hs | hs <;> rw [hs.1] at h
    · exact encode_of .rejoin (.gonlySel hm hs.2) (fun _ h => h) h
    · exact encode_of .yld (.yld hm hs.2) (fun _ h => h) h
    · exact encode_of .nop (.gonlySel hm hs.2) (fun _ h => h) h
    · exact (not_gives_unassigned h).elim
    · exact (not_gives_unassigned h).elim
    · exact (not_gives_unassigned h).elim
    · exact (not_gives_unassigned h).elim
    · exact (not_gives_unassigned h).elim
  · exact encode_of .exit (.gonly hm) (fun _ h => h) h
  · exact encode_of .tcall (.tcall hm) (fun _ h => h) h
  · exact encode_of .tcalls (.tcall hm) (fun _ h => h) h
  · exact encode_of .tret (.gonly hm) (fun _ h => h) h
  · exact encode_of .tbar (.gonly hm) (fun _ h => h) h
  · exact encode_of .tvote (.tvote hm) (fun _ h => h) h
  · exact encode_of .txch (.txch hm) (fun _ h => h) h
  · exact encode_of .tmigr (.tmigr hm) (fun _ h => h) h
  · exact encode_of .glaunch (.glaunch hm) (fun _ h => h.2) h
  · exact (not_gives_unassigned h).elim

theorem encode_of_dec50 (hm : f.major = BitVec.ofNat 7 (16 * 5 + lo)) (h : Gives (dec50 f lo) i) : encode i = some f.toWord := by
  unfold dec50 at h
  split at h
  · exact encode_of .ld (.ld hm) (fun _ h => h) h
  · exact encode_of .st (.st hm) (fun _ h => h) h
  · exact encode_of .lda (.lda hm) (fun _ h => h) h
  · exact encode_of .stl (.stl hm) (fun _ h => h) h
  · exact encode_of .atom (.atom hm) (fun _ h => h.2) h
  · exact encode_of .red (.red hm) (fun _ h => h) h
  · exact encode_of .fence (.fence hm) (fun _ h => h) h
  · exact encode_of .pref (.pref hm) (fun _ h => h) h
  · exact encode_of .disc (.line hm) (fun _ h => h) h
  · exact encode_of .clean (.line hm) (fun _ h => h) h
  · exact (not_gives_unassigned h).elim

theorem encode_of_dec60 (hm : f.major = BitVec.ofNat 7 (16 * 6 + lo)) (h : Gives (dec60 f lo) i) : encode i = some f.toWord := by
  unfold dec60 at h
  split at h
  · exact encode_of .cpy (.cpy hm) (fun _ h => h) h
  · exact encode_of .cpyt (.cpyd hm) (fun _ h => h) h
  · exact encode_of .cpyg (.cpyd hm) (fun _ h => h) h
  · exact encode_of .bari (.bar hm) (fun _ h => h) h
  · exact encode_of .bara (.bara hm) (fun _ h => h) h
  · exact encode_of .barx (.bar hm) (fun _ h => h) h
  · exact encode_of .barw (.bar hm) (fun _ h => h) h
  · rcases sel_cases f with hs | hs | hs | hs | hs | hs | hs | hs <;> rw [hs.1] at h
    · exact encode_of .waitany (.tag hm hs.2) (fun _ h => h) h
    · exact encode_of .waitall (.tag hm hs.2) (fun _ h => h) h
    · exact encode_of .ffr (.ffr hm hs.2) (fun _ h => h) h
    · exact (not_gives_unassigned h).elim
    · exact (not_gives_unassigned h).elim
    · exact (not_gives_unassigned h).elim
    · exact (not_gives_unassigned h).elim
    · exact (not_gives_unassigned h).elim
  · exact encode_of .emit (.emit hm) (fun _ h => h) h
  · exact encode_of .qrd (.qrd hm) (fun _ h => h) h
  · exact encode_of .qlen (.qlen hm) (fun _ h => h) h
  · exact encode_of .mload (.mload hm) (fun _ h => h) h
  · exact encode_of .marm (.slot hm) (fun _ h => h) h
  · exact encode_of .mdis (.slot hm) (fun _ h => h) h
  · exact encode_of .mstat (.mstat hm) (fun _ h => h) h
  · exact (not_gives_unassigned h).elim

theorem encode_of_dec70 (hm : f.major = BitVec.ofNat 7 (16 * 7 + lo)) (h : Gives (dec70 f lo) i) : encode i = some f.toWord := by
  unfold dec70 at h
  split at h
  · exact encode_of .wait (.wait hm) (fun _ h => h) h
  · exact encode_of .cntr (.dOnly hm) (fun _ h => h) h
  · exact encode_of .amb (.dOnly hm) (fun _ h => h) h
  · exact encode_of .boost (.f1 hm) (fun _ h => h) h
  · exact encode_of .trap (.trap hm) (fun _ h => h) h
  · exact encode_of .serv (.serv hm) (fun _ h => h) h
  · exact encode_of .brk (.brk hm) (fun _ h => h) h
  · exact (not_gives_unassigned h).elim

end

/-- A full-form word that decodes is the word of its instruction. -/
theorem encode_of_decFull {f : Fields} {i : Instr} (h : Gives (decFull f) i) : encode i = some f.toWord := by
  have hm : f.major = BitVec.ofNat 7 (16 * (f.major.extractLsb' 4 3).toNat + (f.major.extractLsb' 0 4).toNat) := by
    generalize f.major = m
    revert m; decide
  have h7 : (f.major.extractLsb' 4 3).toNat < 8 := (f.major.extractLsb' 4 3).isLt
  unfold decFull at h
  generalize (f.major.extractLsb' 4 3).toNat = hi at h hm h7
  interval_cases hi
  · exact encode_of_dec00 hm h
  · exact encode_of_dec10 hm h
  · exact encode_of_dec20 hm h
  · exact encode_of_dec30 hm h
  · exact encode_of_dec40 hm h
  · exact encode_of_dec50 hm h
  · exact encode_of_dec60 hm h
  · exact encode_of_dec70 hm h

/-! ### From an instruction's word to the instruction -/

/-- The row of the opcode table by the two digits of its major. -/
def decBlock (hi : Fin 8) (lo : Fin 16) (f : Fields) : Dec Instr :=
  match hi.val with
  | 0 => dec00 f lo.val
  | 1 => dec10 f lo.val
  | 2 => dec20 f lo.val
  | 3 => dec30 f lo.val
  | 4 => dec40 f lo.val
  | 5 => dec50 f lo.val
  | 6 => dec60 f lo.val
  | _ => dec70 f lo.val

theorem decFull_eq_decBlock {hi : Fin 8} {lo : Fin 16} {f : Fields} (hm : f.major = BitVec.ofNat 7 (16 * hi.val + lo.val)) :
    decFull f = decBlock hi lo f := by
  have digits : ∀ (hi : Fin 8) (lo : Fin 16), ((BitVec.ofNat 7 (16 * hi.val + lo.val)).extractLsb' 4 3).toNat = hi.val
      ∧ ((BitVec.ofNat 7 (16 * hi.val + lo.val)).extractLsb' 0 4).toNat = lo.val := by decide
  simp only [decFull, hm, (digits hi lo).1, (digits hi lo).2]
  rfl

section
variable {α : Type} {d a b c : BitVec 10} {u : BitVec 11} {g : Guard} {x : α}

/-- A row of the opcode table: the fields of an instruction's word are read as the instruction. -/
theorem row (hi : Fin 8) (lo : Fin 16) (k : α → Instr) (p : Fields → Dec α) {P : Fields → α → Prop}
    (hp : ∀ {f : Fields}, f.major = BitVec.ofNat 7 (16 * hi.val + lo.val) → Reads (p f) (P f))
    (hP : ∀ f, full g (BitVec.ofNat 7 (16 * hi.val + lo.val)) d a b c u = some f.toWord → P f x)
    (hd : ∀ f, decBlock hi lo f = do pure (k (← p f)))
    : ∃ f : Fields, full g (BitVec.ofNat 7 (16 * hi.val + lo.val)) d a b c u = some f.toWord ∧ Gives (decFull f) (k x) := by
  have key (f : Fields) (hm : f.major = BitVec.ofNat 7 (16 * hi.val + lo.val))
      (e : full g (BitVec.ofNat 7 (16 * hi.val + lo.val)) d a b c u = some f.toWord) : Gives (decFull f) (k x) := by
    rw [decFull_eq_decBlock hm, hd f]
    exact (((hp hm).bind fun x => Reads.pure (k x)).gives (k x)).2 ⟨x, hP f e, rfl⟩
  cases g <;> exact ⟨_, rfl, key _ rfl rfl⟩

/-- As `row`, where the selector in func[10:8] tells the row. -/
theorem rowSel (hi : Fin 8) (lo : Fin 16) (s : Nat) (k : α → Instr) (p : Fields → Dec α) (hs : u.extractLsb' 8 3 = BitVec.ofNat 3 s)
    {P : Fields → α → Prop} (hp : ∀ {f : Fields}, f.major = BitVec.ofNat 7 (16 * hi.val + lo.val) →
      f.func.extractLsb' 8 3 = BitVec.ofNat 3 s → Reads (p f) (P f))
    (hP : ∀ f, full g (BitVec.ofNat 7 (16 * hi.val + lo.val)) d a b c u = some f.toWord → P f x)
    (hd : ∀ f, sel f = s → decBlock hi lo f = do pure (k (← p f)))
    (hs8 : s < 8 := by decide) :
    ∃ f : Fields, full g (BitVec.ofNat 7 (16 * hi.val + lo.val)) d a b c u = some f.toWord ∧ Gives (decFull f) (k x) := by
  have key (f : Fields) (hm : f.major = BitVec.ofNat 7 (16 * hi.val + lo.val)) (hu : f.func = u)
      (e : full g (BitVec.ofNat 7 (16 * hi.val + lo.val)) d a b c u = some f.toWord) : Gives (decFull f) (k x) := by
    subst hu
    have hsel : sel f = s := by rw [sel, hs, BitVec.toNat_ofNat, Nat.mod_eq_of_lt hs8]
    rw [decFull_eq_decBlock hm, hd f hsel]
    exact (((hp hm hs).bind fun x => Reads.pure (k x)).gives (k x)).2 ⟨x, hP f e, rfl⟩
  cases g <;> exact ⟨_, rfl, key _ rfl rfl rfl⟩

end

/-! The selectors of the `func` fields that hold one. -/

theorem sel_fSelD (s : BitVec 3) (w : Bool) : (fSelD s w).extractLsb' 8 3 = s := ((append3_iff 3 7 1 _ _ _ _).1 rfl).1

theorem sel_fSel (s : BitVec 3) : (fSel s).extractLsb' 8 3 = s := ((append2_iff 3 8 _ _ _).1 rfl).1

theorem sel_fSelRm (s : BitVec 3) (rm : Rm) : (fSelRm s rm).extractLsb' 8 3 = s := ((append4_iff 3 2 2 4 _ _ _ _ _).1 rfl).1

theorem sel_pred (s : BitVec 3) (x y : BitVec 1) : (s ++ 0#6 ++ x ++ y : BitVec 11).extractLsb' 8 3 = s :=
  ((append4_iff 3 6 1 1 _ _ _ _ _).1 rfl).1

theorem sel_sreg (s : BitVec 3) (x : BitVec 1) (y : BitVec 7) : (s ++ x ++ y : BitVec 11).extractLsb' 8 3 = s :=
  ((append3_iff 3 1 7 _ _ _ _).1 rfl).1

theorem sel_yld (k : BitVec 4) : (1#3 ++ 0#4 ++ k : BitVec 11).extractLsb' 8 3 = 1 := ((append3_iff 3 4 4 _ _ _ _).1 rfl).1

/-! What well-formedness adds to the fields of a word: GLAUNCH has no width (R157), and C is there just for `.cas` (R194). -/

@[simp] theorem need_eq_nil (b : Bool) (e : EncFault) : need b e = [] ↔ b = true := by
  cases b <;> simp [need]

theorem Instr.wf_iff (r : Nat) (i : Instr) : i.wf r = true ↔ i.chk r = [] := beq_iff_eq

theorem glaunch_narrow {r : Nat} {x : TxchArg} (h : (Instr.glaunch x).wf r = true) : x.w = false := by
  simpa using (List.append_eq_nil_iff.1 ((Instr.wf_iff _ _).1 h)).2

theorem atom_cas_iff {r : Nat} {x : AtomArg} (h : (Instr.atom x).wf r = true) : x.op = .cas ↔ x.c.isSome = true := by
  have := (need_eq_nil _ _).1 (List.append_eq_nil_iff.1 ((Instr.wf_iff _ _).1 h)).2
  rw [beq_iff_eq, Bool.eq_iff_iff, beq_iff_eq] at this
  exact this

/-- A full-form instruction has a word, whose fields are read as the instruction. -/
theorem decFull_of_isWord {r : Nat} {i : Instr} (hw : i.wf r = true) (hi : i.isWord = true) :
    (∃ f : Fields, encode i = some f.toWord ∧ Gives (decFull f) i) ∨ (∃ a b, i = .pairFormWord a b) ∨ ∃ x, i = .literalFormWord x := by
  cases i with
  | add x => exact .inl (row 0 0 .add pAlu2 .alu2 (fun _ h => h) (fun _ => rfl))
  | sub x => exact .inl (row 0 1 .sub pAlu2 .alu2 (fun _ h => h) (fun _ => rfl))
  | mul x => exact .inl (row 0 2 .mul pAlu2 .alu2 (fun _ h => h) (fun _ => rfl))
  | mulh x => exact .inl (row 0 3 .mulh pAlu2 .alu2 (fun _ h => h) (fun _ => rfl))
  | mad x => exact .inl (row 0 4 .mad pAlu3 .alu3 (fun _ h => h) (fun _ => rfl))
  | div x => exact .inl (row 0 5 .div pAlu2 .alu2 (fun _ h => h) (fun _ => rfl))
  | rem x => exact .inl (row 0 6 .rem pAlu2 .alu2 (fun _ h => h) (fun _ => rfl))
  | and x => exact .inl (row 0 7 .and pLog2 .log2 (fun _ h => h) (fun _ => rfl))
  | or x => exact .inl (row 0 8 .or pLog2 .log2 (fun _ h => h) (fun _ => rfl))
  | xor x => exact .inl (row 0 9 .xor pLog2 .log2 (fun _ h => h) (fun _ => rfl))
  | andn x => exact .inl (row 0 10 .andn pLog2 .log2 (fun _ h => h) (fun _ => rfl))
  | orn x => exact .inl (row 0 11 .orn pLog2 .log2 (fun _ h => h) (fun _ => rfl))
  | not x => exact .inl (row 0 12 .not pLog1 .log1 (fun _ h => h) (fun _ => rfl))
  | shl x => exact .inl (row 0 13 .shl pLog2 .log2 (fun _ h => h) (fun _ => rfl))
  | shr x => exact .inl (row 0 14 .shr pLog2 .log2 (fun _ h => h) (fun _ => rfl))
  | sar x => exact .inl (row 0 15 .sar pLog2 .log2 (fun _ h => h) (fun _ => rfl))
  | rol x => exact .inl (row 1 0 .rol pLog2 .log2 (fun _ h => h) (fun _ => rfl))
  | ror x => exact .inl (row 1 1 .ror pLog2 .log2 (fun _ h => h) (fun _ => rfl))
  | shf x => exact .inl (row 1 2 .shf pTri .tri (fun _ h => h) (fun _ => rfl))
  | min x => exact .inl (row 1 3 .min pAlu2 .alu2 (fun _ h => h) (fun _ => rfl))
  | max x => exact .inl (row 1 4 .max pAlu2 .alu2 (fun _ h => h) (fun _ => rfl))
  | abs x => exact .inl (row 1 5 .abs pAlu1 .alu1 (fun _ h => h) (fun _ => rfl))
  | neg x => exact .inl (row 1 6 .neg pAlu1 .alu1 (fun _ h => h) (fun _ => rfl))
  | popc x => exact .inl (rowSel 1 7 0 .popc pLog1Sel (sel_fSelD _ _) (fun hm hs => .log1Sel hm hs) (fun _ h => h)
      (fun _ hs => by change dec10 _ 7 = _; simp only [dec10, hs]))
  | clz x => exact .inl (rowSel 1 7 1 .clz pLog1Sel (sel_fSelD _ _) (fun hm hs => .log1Sel hm hs) (fun _ h => h)
      (fun _ hs => by change dec10 _ 7 = _; simp only [dec10, hs]))
  | ctz x => exact .inl (rowSel 1 7 2 .ctz pLog1Sel (sel_fSelD _ _) (fun hm hs => .log1Sel hm hs) (fun _ h => h)
      (fun _ hs => by change dec10 _ 7 = _; simp only [dec10, hs]))
  | brev x => exact .inl (rowSel 1 7 3 .brev pLog1Sel (sel_fSelD _ _) (fun hm hs => .log1Sel hm hs) (fun _ h => h)
      (fun _ hs => by change dec10 _ 7 = _; simp only [dec10, hs]))
  | bfx x => exact .inl (row 1 8 .bfx pBfx .bfx (fun _ h => h) (fun _ => rfl))
  | bfi x => exact .inl (row 1 9 .bfi pBfi .bfi (fun _ h => h) (fun _ => rfl))
  | bperm x => exact .inl (row 1 10 .bperm pTri .tri (fun _ h => h) (fun _ => rfl))
  | sel x => exact .inl (row 1 11 .sel pSel .select (fun _ h => h) (fun _ => rfl))
  | mov x => exact .inl (row 1 12 .mov pLog1 .log1 (fun _ h => h) (fun _ => rfl))
  | lea x => exact .inl (row 1 13 .lea pLea .lea (fun _ h => h) (fun _ => rfl))
  | cmp x => exact .inl (row 1 14 .cmp pCmp .cmp (fun _ h => h) (fun _ => rfl))
  | pand x => exact .inl (rowSel 1 15 0 .pand pPredOp (sel_pred _ _ _) (fun hm hs => .predOp hm hs) (fun _ h => h)
      (fun _ hs => by change dec10 _ 15 = _; simp only [dec10, hs]))
  | por x => exact .inl (rowSel 1 15 1 .por pPredOp (sel_pred _ _ _) (fun hm hs => .predOp hm hs) (fun _ h => h)
      (fun _ hs => by change dec10 _ 15 = _; simp only [dec10, hs]))
  | pxor x => exact .inl (rowSel 1 15 2 .pxor pPredOp (sel_pred _ _ _) (fun hm hs => .predOp hm hs) (fun _ h => h)
      (fun _ hs => by change dec10 _ 15 = _; simp only [dec10, hs]))
  | pnot x => exact .inl (rowSel 1 15 3 .pnot pPnot (sel_fSel _) .pnot (fun _ h => h)
      (fun _ hs => by change dec10 _ 15 = _; simp only [dec10, hs]))
  | pmov x => 
    obtain ⟨g, d | ⟨a, b⟩⟩ := x <;> exact .inl (rowSel 1 15 4 .pmov pPmov (sel_fSelD _ _) .pmov (fun _ h => h)
      (fun _ hs => by change dec10 _ 15 = _; simp only [dec10, hs]))
  | gets x => exact .inl (rowSel 1 15 5 .gets pGets (sel_sreg _ _ _) .gets (fun _ h => h)
      (fun _ hs => by change dec10 _ 15 = _; simp only [dec10, hs]))
  | sets x => exact .inl (rowSel 1 15 6 .sets pSets (sel_sreg _ _ _) .sets (fun _ h => h)
      (fun _ hs => by change dec10 _ 15 = _; simp only [dec10, hs]))
  | fadd x => exact .inl (row 2 0 .fadd pF2 .f2 (fun _ h => h) (fun _ => rfl))
  | fsub x => exact .inl (row 2 1 .fsub pF2 .f2 (fun _ h => h) (fun _ => rfl))
  | fmul x => exact .inl (row 2 2 .fmul pF2 .f2 (fun _ h => h) (fun _ => rfl))
  | ffma x => exact .inl (row 2 3 .ffma pF3 .f3 (fun _ h => h) (fun _ => rfl))
  | fmin x => exact .inl (row 2 4 .fmin pF2n .f2n (fun _ h => h) (fun _ => rfl))
  | fmax x => exact .inl (row 2 5 .fmax pF2n .f2n (fun _ h => h) (fun _ => rfl))
  | fcmp x => exact .inl (row 2 6 .fcmp pFcmp .fcmp (fun _ h => h) (fun _ => rfl))
  | fclass x => exact .inl (row 2 7 .fclass pF1 .f1 (fun _ h => h) (fun _ => rfl))
  | fdiv x => exact .inl (row 2 8 .fdiv pF2 .f2 (fun _ h => h) (fun _ => rfl))
  | frcp x => exact .inl (rowSel 2 9 0 .frcp pF1rSel (sel_fSelRm _ _) (fun hm hs => .f1rSel hm hs) (fun _ h => h)
      (fun _ hs => by change dec20 _ 9 = _; simp only [dec20, hs]))
  | frsq x => exact .inl (rowSel 2 9 1 .frsq pF1Sel (sel_fSel _) (fun hm hs => .f1Sel hm hs) (fun _ h => h)
      (fun _ hs => by change dec20 _ 9 = _; simp only [dec20, hs]))
  | fsqrt x => exact .inl (rowSel 2 9 2 .fsqrt pF1rSel (sel_fSelRm _ _) (fun hm hs => .f1rSel hm hs) (fun _ h => h)
      (fun _ hs => by change dec20 _ 9 = _; simp only [dec20, hs]))
  | fexp2 x => exact .inl (rowSel 2 9 3 .fexp2 pF1Sel (sel_fSel _) (fun hm hs => .f1Sel hm hs) (fun _ h => h)
      (fun _ hs => by change dec20 _ 9 = _; simp only [dec20, hs]))
  | flog2 x => exact .inl (rowSel 2 9 4 .flog2 pF1Sel (sel_fSel _) (fun hm hs => .f1Sel hm hs) (fun _ h => h)
      (fun _ hs => by change dec20 _ 9 = _; simp only [dec20, hs]))
  | fsin x => exact .inl (rowSel 2 9 5 .fsin pF1Sel (sel_fSel _) (fun hm hs => .f1Sel hm hs) (fun _ h => h)
      (fun _ hs => by change dec20 _ 9 = _; simp only [dec20, hs]))
  | fcos x => exact .inl (rowSel 2 9 6 .fcos pF1Sel (sel_fSel _) (fun hm hs => .f1Sel hm hs) (fun _ h => h)
      (fun _ hs => by change dec20 _ 9 = _; simp only [dec20, hs]))
  | ftanh x => exact .inl (rowSel 2 9 7 .ftanh pF1Sel (sel_fSel _) (fun hm hs => .f1Sel hm hs) (fun _ h => h)
      (fun _ hs => by change dec20 _ 9 = _; simp only [dec20, hs]))
  | fscale x => exact .inl (row 2 10 .fscale pF2 .f2 (fun _ h => h) (fun _ => rfl))
  | hfma2 x => exact .inl (row 2 11 .hfma2 pF3 .f3 (fun _ h => h) (fun _ => rfl))
  | bfma2 x => exact .inl (row 2 12 .bfma2 pF3 .f3 (fun _ h => h) (fun _ => rfl))
  | hadd2 x => exact .inl (row 2 13 .hadd2 pH2 .h2 (fun _ h => h) (fun _ => rfl))
  | hmul2 x => exact .inl (row 2 14 .hmul2 pH2 .h2 (fun _ h => h) (fun _ => rfl))
  | cvt x => exact .inl (row 2 15 .cvt pCvt .cvt (fun _ h => h) (fun _ => rfl))
  | pack x => exact .inl (row 3 0 .pack pPack .pack (fun _ h => h) (fun _ => rfl))
  | unpack x => exact .inl (row 3 1 .unpack pUnpack .unpack (fun _ h => h) (fun _ => rfl))
  | dot8 x => obtain ⟨g, d, a, b, _ | s, sa, sb⟩ := x <;> exact .inl (row 3 2 .dot8 pDot .dot (fun _ h => h) (fun _ => rfl))
  | dot4 x => obtain ⟨g, d, a, b, _ | s, sa, sb⟩ := x <;> exact .inl (row 3 3 .dot4 pDot .dot (fun _ h => h) (fun _ => rfl))
  | doth2 x => exact .inl (row 3 4 .doth2 pDoth .doth (fun _ h => h) (fun _ => rfl))
  | fmtq x => exact .inl (row 3 5 .fmtq pFmtq .fmtq (fun _ h => h) (fun _ => rfl))
  | mma x => exact .inl (row 3 8 .mma pMma .mma (fun _ h => h) (fun _ => rfl))
  | mmas x => exact .inl (row 3 9 .mmas pMmas .mmas (fun _ h => h) (fun _ => rfl))
  | mzero x => exact .inl (row 3 10 .mzero pMzero .mzero (fun _ h => h) (fun _ => rfl))
  | mfence x => exact .inl (row 3 11 .mfence pGOnly .gonly (fun _ h => h) (fun _ => rfl))
  | ldfr x => exact .inl (row 3 12 .ldfr (pFrag false) (.frag · _) (fun _ h => h) (fun _ => rfl))
  | stfr x => exact .inl (row 3 13 .stfr (pFrag true) (.frag · _) (fun _ h => h) (fun _ => rfl))
  | mcvt x => exact .inl (row 3 14 .mcvt pMcvt .mcvt (fun _ h => h) (fun _ => rfl))
  | mtrn x => exact .inl (row 3 15 .mtrn pMtrn .mtrn (fun _ h => h) (fun _ => rfl))
  | bra x => exact .inl (row 4 0 .bra pBra .bra (fun _ h => h) (fun _ => rfl))
  | brx x => exact .inl (row 4 1 .brx pBrx .brx (fun _ h => h) (fun _ => rfl))
  | call x => exact .inl (row 4 2 .call pBra .bra (fun _ h => h) (fun _ => rfl))
  | callx x => exact .inl (row 4 3 .callx pBrx .brx (fun _ h => h) (fun _ => rfl))
  | ret x => exact .inl (row 4 4 .ret pGOnly .gonly (fun _ h => h) (fun _ => rfl))
  | pad x => exact .inl (row 4 5 .pad pPad .pad (fun _ h => h) (fun _ => rfl))
  | rejoin x => exact .inl (rowSel 4 6 0 .rejoin pGOnlySel (sel_fSel _) (fun hm hs => .gonlySel hm hs) (fun _ h => h)
      (fun _ hs => by change dec40 _ 6 = _; simp only [dec40, hs]))
  | yld x => exact .inl (rowSel 4 6 1 .yld pYield (sel_yld _) .yld (fun _ h => h)
      (fun _ hs => by change dec40 _ 6 = _; simp only [dec40, hs]))
  | nop x => exact .inl (rowSel 4 6 2 .nop pGOnlySel (sel_fSel _) (fun hm hs => .gonlySel hm hs) (fun _ h => h)
      (fun _ hs => by change dec40 _ 6 = _; simp only [dec40, hs]))
  | exit x => exact .inl (row 4 7 .exit pGOnly .gonly (fun _ h => h) (fun _ => rfl))
  | tcall x => exact .inl (row 4 8 .tcall pTcall .tcall (fun _ h => h) (fun _ => rfl))
  | tcalls x => exact .inl (row 4 9 .tcalls pTcall .tcall (fun _ h => h) (fun _ => rfl))
  | tret x => exact .inl (row 4 10 .tret pGOnly .gonly (fun _ h => h) (fun _ => rfl))
  | tbar x => exact .inl (row 4 11 .tbar pGOnly .gonly (fun _ h => h) (fun _ => rfl))
  | tvote x => obtain ⟨g, ps, n, _ | _ | _ | _ | _⟩ := x <;> exact .inl (row 4 12 .tvote pTvote .tvote (fun _ h => h) (fun _ => rfl))
  | txch x => exact .inl (row 4 13 .txch pTxch .txch (fun _ h => h) (fun _ => rfl))
  | tmigr x => exact .inl (row 4 14 .tmigr pTmigr .tmigr (fun _ h => h) (fun _ => rfl))
  | glaunch x => exact .inl (row 4 15 .glaunch pGlaunch .glaunch (fun _ h => ⟨glaunch_narrow hw, h⟩) (fun _ => rfl))
  | ld x => exact .inl (row 5 0 .ld pLd .ld (fun _ h => h) (fun _ => rfl))
  | st x => exact .inl (row 5 1 .st pSt .st (fun _ h => h) (fun _ => rfl))
  | lda x => exact .inl (row 5 2 .lda pLda .lda (fun _ h => h) (fun _ => rfl))
  | stl x => exact .inl (row 5 3 .stl pStl .stl (fun _ h => h) (fun _ => rfl))
  | atom x => exact .inl (row 5 4 .atom pAtom .atom (fun _ h => ⟨atom_cas_iff hw, h⟩) (fun _ => rfl))
  | red x => exact .inl (row 5 5 .red pRed .red (fun _ h => h) (fun _ => rfl))
  | fence x => exact .inl (row 5 6 .fence pFence .fence (fun _ h => h) (fun _ => rfl))
  | pref x => exact .inl (row 5 7 .pref pPref .pref (fun _ h => h) (fun _ => rfl))
  | disc x => exact .inl (row 5 8 .disc pLine .line (fun _ h => h) (fun _ => rfl))
  | clean x => exact .inl (row 5 9 .clean pLine .line (fun _ h => h) (fun _ => rfl))
  | cpy x => exact .inl (row 6 0 .cpy pCpy .cpy (fun _ h => h) (fun _ => rfl))
  | cpyt x => exact .inl (row 6 1 .cpyt pCpyd .cpyd (fun _ h => h) (fun _ => rfl))
  | cpyg x => exact .inl (row 6 2 .cpyg pCpyd .cpyd (fun _ h => h) (fun _ => rfl))
  | bari x => exact .inl (row 6 3 .bari pBar .bar (fun _ h => h) (fun _ => rfl))
  | bara x => exact .inl (row 6 4 .bara pBara .bara (fun _ h => h) (fun _ => rfl))
  | barx x => exact .inl (row 6 5 .barx pBar .bar (fun _ h => h) (fun _ => rfl))
  | barw x => exact .inl (row 6 6 .barw pBar .bar (fun _ h => h) (fun _ => rfl))
  | waitany x => exact .inl (rowSel 6 7 0 .waitany pTag (sel_fSel _) (fun hm hs => .tag hm hs) (fun _ h => h)
      (fun _ hs => by change dec60 _ 7 = _; simp only [dec60, hs]))
  | waitall x => exact .inl (rowSel 6 7 1 .waitall pTag (sel_fSel _) (fun hm hs => .tag hm hs) (fun _ h => h)
      (fun _ hs => by change dec60 _ 7 = _; simp only [dec60, hs]))
  | ffr x => exact .inl (rowSel 6 7 2 .ffr pFfr (sel_fSelD _ _) .ffr (fun _ h => h)
      (fun _ hs => by change dec60 _ 7 = _; simp only [dec60, hs]))
  | emit x => exact .inl (row 6 8 .emit pEmit .emit (fun _ h => h) (fun _ => rfl))
  | qrd x => exact .inl (row 6 9 .qrd pQrd .qrd (fun _ h => h) (fun _ => rfl))
  | qlen x => exact .inl (row 6 10 .qlen pQlen .qlen (fun _ h => h) (fun _ => rfl))
  | mload x => exact .inl (row 6 12 .mload pMload .mload (fun _ h => h) (fun _ => rfl))
  | marm x => exact .inl (row 6 13 .marm pSlot .slot (fun _ h => h) (fun _ => rfl))
  | mdis x => exact .inl (row 6 14 .mdis pSlot .slot (fun _ h => h) (fun _ => rfl))
  | mstat x => exact .inl (row 6 15 .mstat pMstat .mstat (fun _ h => h) (fun _ => rfl))
  | wait x => exact .inl (row 7 0 .wait pWait .wait (fun _ h => h) (fun _ => rfl))
  | cntr x => exact .inl (row 7 1 .cntr pDOnly .dOnly (fun _ h => h) (fun _ => rfl))
  | amb x => exact .inl (row 7 2 .amb pDOnly .dOnly (fun _ h => h) (fun _ => rfl))
  | boost x => exact .inl (row 7 3 .boost pF1 .f1 (fun _ h => h) (fun _ => rfl))
  | trap x => exact .inl (row 7 4 .trap pTrap .trap (fun _ h => h) (fun _ => rfl))
  | serv x => exact .inl (row 7 5 .serv pServ .serv (fun _ h => h) (fun _ => rfl))
  | brk x => exact .inl (row 7 6 .brk pBrk .brk (fun _ h => h) (fun _ => rfl))
  | pairFormWord a b => exact .inr (.inl ⟨a, b, rfl⟩)
  | literalFormWord x => exact .inr (.inr ⟨x, rfl⟩)
  | _ => exact (Bool.false_ne_true hi).elim

end Sys2Proof
end

section
/-!
Decoding and encoding are inverse on whole words (03 R59 to R79).
-/

namespace Sys2Proof

theorem lowestCode_eq_none (l : List EncFault) : lowestCode l = none ↔ l = [] := by
  cases l with
  | nil => simp [lowestCode]
  | cons e l => simp only [lowestCode, reduceCtorEq, iff_false]; split <;> simp

theorem decodeWord_ok_iff (r : Nat) (w : DWord) (i : Instr) : decodeWord r w = .ok i ↔ decodeAll r w = ([], i) := by
  unfold decodeWord
  obtain ⟨e, j⟩ := decodeAll r w
  have := lowestCode_eq_none e
  cases h : lowestCode e <;> simp_all

section
variable {r : Nat} {w : DWord} {i : Instr}

theorem decodeWord_full_iff (h : w.getLsbD 63 = false) :
    decodeWord r w = .ok i ↔ Gives (decFull (Fields.ofWord w)) i ∧ i.wf r = true := by
  rw [decodeWord_ok_iff, Instr.wf_iff, Gives]
  rcases hj : (decFull (Fields.ofWord w)).run [] with ⟨j, e⟩
  simp only [decodeAll, h, hj]
  simp
  grind

theorem decodeWord_literal_iff (h : w.getLsbD 63 = true) (h' : w.getLsbD 62 = true) :
    decodeWord r w = .ok i ↔ ∃ x, Gives (pLit w) x ∧ i = .literalFormWord x ∧ i.wf r = true := by
  simp only [decodeWord_ok_iff, Instr.wf_iff, Gives]
  rcases hx : (pLit w).run [] with ⟨x, e⟩
  simp only [decodeAll, h, h', hx]
  simp
  grind

theorem pairFormWord_chk_iff (a b : Half) : (Instr.pairFormWord a b).chk r = [] ↔
    a.op.chk r = [] ∧ b.op.chk r = [] ∧ pairOk a.op.use b.op.use = true := by
  change a.op.chk r ++ b.op.chk r ++ need (pairOk a.op.use b.op.use) .pairing = [] ↔ _
  simp

theorem decodeWord_pair_iff (h : w.getLsbD 63 = true) (h' : w.getLsbD 62 = false) :
    decodeWord r w = .ok i ↔ ∃ a b, Gives (pHalf (w.extractLsb' 31 31)) a ∧ Gives (pHalf (w.extractLsb' 0 31)) b
      ∧ i = .pairFormWord a b ∧ i.wf r = true := by
  simp only [decodeWord_ok_iff, Instr.wf_iff, Gives]
  rcases ha : (pHalf (w.extractLsb' 31 31)).run [] with ⟨a, e⟩
  rcases hb : (pHalf (w.extractLsb' 0 31)).run [] with ⟨b, e'⟩
  simp only [decodeAll, h, h', ha, hb]
  constructor
  · intro hd
    obtain ⟨hl, rfl⟩ := Prod.mk.inj hd
    simp only [List.append_eq_nil_iff, need_eq_nil] at hl
    obtain ⟨⟨⟨⟨rfl, rfl⟩, hca⟩, hcb⟩, hp⟩ := hl
    exact ⟨a, b, rfl, rfl, rfl, (pairFormWord_chk_iff a b).2 ⟨hca, hcb, hp⟩⟩
  · rintro ⟨a', b', hae, hbe, rfl, hc⟩
    obtain ⟨rfl, rfl⟩ := Prod.mk.inj hae
    obtain ⟨rfl, rfl⟩ := Prod.mk.inj hbe
    obtain ⟨hca, hcb, hp⟩ := (pairFormWord_chk_iff _ _).1 hc
    simp [hca, hcb, hp]

end

/-- A pair word is its two halves under the bits that mark the form (R70). -/
theorem eq_pairWord_iff (w : DWord) (a b : BitVec 31) : w = (2#2 ++ a ++ b : BitVec 64) ↔
    w.getLsbD 63 = true ∧ w.getLsbD 62 = false ∧ a = w.extractLsb' 31 31 ∧ b = w.extractLsb' 0 31 := by
  refine (append4_iff 1 1 31 31 w (bb true) (bb false) a b).trans ?_
  rw [extractLsb'_eq_bb, extractLsb'_eq_bb, eq_comm (a := a), eq_comm (a := b)]

theorem literal_form_iff (w : DWord) : w.extractLsb' 62 2 = 3 ↔ w.getLsbD 63 = true ∧ w.getLsbD 62 = true := by
  refine (append2_iff 1 1 _ (bb true) (bb true)).trans ?_
  rw [extractLsb'_extractLsb' _ _ _ _ _ (by decide), extractLsb'_extractLsb' _ _ _ _ _ (by decide), extractLsb'_eq_bb,
    extractLsb'_eq_bb]

/-- Settles O57: each parser reads just the fields that its instruction's encoder writes, a bit of no field being zero. -/
theorem decodedWordsEncode : Obligations.DecodedWordsEncode := by
  intro r w i h
  cases h63 : w.getLsbD 63 with
  | false =>
    obtain ⟨hi, hw⟩ := (decodeWord_full_iff h63).1 h
    exact ⟨hw, (encode_of_decFull hi).trans (congrArg some ((eq_toWord_iff w _).2 ⟨h63, rfl⟩).symm)⟩
  | true =>
    cases h62 : w.getLsbD 62 with
    | false =>
      obtain ⟨a, b, ha, hb, rfl, hw⟩ := (decodeWord_pair_iff h63 h62).1 h
      have ha' := ((Reads.half _).gives a).1 ha
      have hb' := ((Reads.half _).gives b).1 hb
      exact ⟨hw, congrArg some ((eq_pairWord_iff w a.enc b.enc).2 ⟨h63, h62, ha'.symm, hb'.symm⟩).symm⟩
    | true =>
      obtain ⟨x, hx, rfl, hw⟩ := (decodeWord_literal_iff h63 h62).1 h
      obtain ⟨-, hx'⟩ := ((Reads.literal w ((literal_form_iff w).2 ⟨h63, h62⟩)).gives x).1 hx
      exact ⟨hw, congrArg some hx'.symm⟩

/-- A well-formed literal word has `.d` just where R76 admits it. -/
theorem dblOk_of_wf {r : Nat} {x : LitWord} (h : (Instr.literalFormWord x).wf r = true) : x.op.dblOk := by
  rw [Instr.wf_iff] at h
  obtain ⟨gd, op⟩ := x
  change op.chk r = [] at h
  cases op <;> simp_all [LitOp.chk] <;> grind

theorem LitWord.enc_form (x : LitWord) : x.enc.extractLsb' 62 2 = 3 := by
  have key (c : BitVec 6) (gd : RGuard) (d s : BitVec 10) (m : Bool) (l : BitVec 32) : (litWord c gd d s m l).extractLsb' 62 2 = 3 := by
    have h := ((append6_iff 8 3 10 10 1 32 _ _ _ _ _ _ _).1 (Eq.refl (litWord c gd d s m l))).1
    rw [← extractLsb'_extractLsb' _ 56 8 6 2 (by decide), h]
    exact BitVec.extractLsb'_append_eq_left
  obtain ⟨gd, op⟩ := x
  cases op <;> exact key ..

/-- Settles O56: the fields of an instruction's word are read back as the instruction. -/
theorem encodedWordsDecode : Obligations.EncodedWordsDecode := by
  refine ⟨fun r i hw hword => ?_, fun i hi => ?_⟩
  · rcases decFull_of_isWord hw hword with ⟨f, h, hf⟩ | ⟨a, b, rfl⟩ | ⟨x, rfl⟩
    · have h63 := ((eq_toWord_iff f.toWord f).1 rfl).1
      exact ⟨_, h, (decodeWord_full_iff h63).2 ⟨f.ofWord_toWord.symm ▸ hf, hw⟩⟩
    · obtain ⟨h63, h62, ha, hb⟩ := (eq_pairWord_iff _ a.enc b.enc).1 rfl
      exact ⟨_, rfl, (decodeWord_pair_iff h63 h62).2
        ⟨a, b, ((Reads.half _).gives a).2 ha.symm, ((Reads.half _).gives b).2 hb.symm, rfl, hw⟩⟩
    · obtain ⟨h63, h62⟩ := (literal_form_iff _).1 x.enc_form
      exact ⟨_, rfl, (decodeWord_literal_iff h63 h62).2
        ⟨x, ((Reads.literal _ x.enc_form).gives x).2 ⟨dblOk_of_wf hw, rfl⟩, rfl, hw⟩⟩
  · cases i <;> cases hi <;> rfl

end Sys2Proof
end

section
/-!
The frame of the words that only work on registers, and the faults taken around them (04, 05, 03 R62, R79, 07 R161, 16 R369).
-/

namespace Sys2Proof.Machine

/-! ### Words of the register families -/

/-- On a lane such a word only works on the thread's registers and flags, or meets an unusable slot (R119). -/
def RegPart (r : LaneRes) : Prop :=
  (∃ fx, r = .ok fx ∧ fx.ops = [] ∧ fx.tlb = [] ∧ fx.req = none ∧ fx.jump = none ∧ ∀ t, (fx.th t).step = t.step) ∨ r = slotFault

/-- A word that runs as `RegPart` says, under its own guard. -/
def RegWord (i : Instr) : Prop :=
  ∃ gd f, (∀ s, exec i s = s.issue i gd f) ∧ (∀ t, gd t = i.on t) ∧ ∀ l, RegPart (f l)

theorem RegPart.ok {g : Thread → Thread} (hstep : ∀ t, (g t).step = t.step) : RegPart (.ok { th := g }) :=
  .inl ⟨_, rfl, rfl, rfl, rfl, rfl, hstep⟩

theorem RegPart.slotFault : RegPart slotFault := .inr rfl

theorem RegWord.of_regFx {i : Instr} {gd : Thread → Bool} {f : Lane → Thread → Thread} (hx : ∀ s, exec i s = s.issue i gd (regFx f))
    (hg : ∀ t, gd t = i.on t) (hstep : ∀ l t, (f l t).step = t.step) : RegWord i :=
  ⟨gd, _, hx, hg, fun l => .ok (hstep l)⟩

/-- Every word of the families that only place a result in a register. -/
theorem RegWord.of_result {i : Instr} {gd : Thread → Bool} {w : Bool} {d : Dst} {v : Lane → Thread → DWord}
    (hx : ∀ s, exec i s = s.issue i gd (regFx fun l t => t.result w d (v l t))) (hg : ∀ t, gd t = i.on t) : RegWord i :=
  .of_regFx hx hg fun l t => t.result_step w d (v l t)

theorem RegWord.of_fresult {i : Instr} {gd : Thread → Bool} {d : Dst} {v : Lane → Thread → Word × Fl}
    (hx : ∀ s, exec i s = s.issue i gd (regFx fun l t => t.fresult d (v l t))) (hg : ∀ t, gd t = i.on t) : RegWord i :=
  .of_regFx hx hg fun l t => t.fresult_step d (v l t)

theorem cvt1_regPart (x : CvtArg) (l : Lane) : RegPart (cvt1 x l) := by
  unfold cvt1
  split
  · exact .slotFault
  · split
    · split
      · exact .slotFault
      · exact .ok fun t => by simp
    · exact .ok fun t => by simp

theorem pack1_regPart (x : PackArg) (l : Lane) : RegPart (pack1 x l) := by
  unfold pack1
  split
  · exact .slotFault
  · exact .ok fun t => t.fresult_step _ _

theorem unpack1_regPart (x : UnpackArg) (l : Lane) : RegPart (unpack1 x l) := by
  unfold unpack1
  split
  · exact .slotFault
  · exact .ok fun t => t.fresult_step _ _

theorem fmtq1_regPart (x : FmtqArg) (l : Lane) : RegPart (fmtq1 x l) := by
  unfold fmtq1
  split
  · exact .slotFault
  · exact .ok fun t => t.fresult_step _ _

theorem dotN_regPart (w : Nat) (x : DotArg) (l : Lane) : RegPart (dotN w x l) := by
  unfold dotN
  split
  · split
    · exact .slotFault
    · exact .ok fun t => t.fresult_step _ _
  · exact .slotFault

theorem regWord_of_registerOnly {i : Instr} (h : i.registerOnly = true) : RegWord i := by
  cases i <;> cases h
  case cvt x => exact ⟨_, _, fun _ => rfl, fun _ => rfl, cvt1_regPart x⟩
  case pack x => exact ⟨_, _, fun _ => rfl, fun _ => rfl, pack1_regPart x⟩
  case unpack x => exact ⟨_, _, fun _ => rfl, fun _ => rfl, unpack1_regPart x⟩
  case fmtq x => exact ⟨_, _, fun _ => rfl, fun _ => rfl, fmtq1_regPart x⟩
  case dot8 x => exact ⟨_, _, fun _ => rfl, fun _ => rfl, dotN_regPart 8 x⟩
  case dot4 x => exact ⟨_, _, fun _ => rfl, fun _ => rfl, dotN_regPart 4 x⟩
  case cmp | pand | por | pxor | pnot | fcmp => exact .of_regFx (fun _ => rfl) (fun _ => rfl) fun _ _ => rfl
  case pmov x =>
    refine .of_regFx (fun _ => rfl) (fun _ => rfl) fun l t => ?_
    unfold pmov1
    split
    · exact t.result_step _ _ _
    · rfl
  case fadd | fsub | fmul | ffma | fmin | fmax | fclass | fdiv | frcp | frsq | fsqrt | fexp2 | flog2 | fsin | fcos | ftanh | fscale
      | hfma2 | bfma2 | hadd2 | hmul2 | doth2 => exact .of_fresult (fun _ => rfl) (fun _ => rfl)
  all_goals exact .of_result (fun _ => rfl) (fun _ => rfl)

/-! ### Faults that no agent hears of -/

/-- Codes that neither reach the fault buffer (R267) nor stand for an uncorrectable error (R383). -/
def plainCode (c : BitVec 8) : Prop := replayable c = false ∧ c ≠ 0x40 ∧ c ≠ 0x17

theorem State.consumesError_plain (s : State) (l : LFault) (h : plainCode l.code) : s.consumesError l = false := by
  obtain ⟨-, h1, h2⟩ := h
  rw [State.consumesError, beq_false_of_ne h1, beq_false_of_ne h2]
  rfl

theorem State.reportLanes_plain (s : State) (core : Nat) (all ls : List LFault) (h : ∀ l ∈ ls, replayable l.code = false) :
    s.reportLanes core all ls = (s, []) := by
  induction ls with
  | nil => rfl
  | cons l ls ih =>
    rw [State.reportLanes, ih fun m hm => h m (List.mem_cons_of_mem l hm)]
    simp [h l List.mem_cons_self]

theorem codesOf_uniform {c : BitVec 8} {ls : List LFault} (hne : ls ≠ []) (h : ∀ l ∈ ls, l.code = c) : codesOf ls = [c] := by
  obtain ⟨l, hl⟩ := List.exists_mem_of_ne_nil ls hne
  have hc : c ∈ codesOf ls := h l hl ▸ mem_codesOf ls l hl
  have hall : ∀ x ∈ codesOf ls, (x == c) = true := by
    intro x hx
    obtain ⟨-, hx⟩ := List.mem_filter.1 hx
    obtain ⟨m, hm, hxm⟩ := List.any_eq_true.1 hx
    rw [beq_iff_eq, ← beq_iff_eq.1 hxm, h m hm]
  rw [← List.filter_eq_self.2 hall, List.filter_beq, List.count_eq_one_of_mem (codesOf_nodup ls) hc]
  rfl

/-- The lanes of a fault have used up the answers that the host gave them. -/
def State.answersUsed (s : State) (ls : List LFault) : State := ls.foldl (fun s l => s.usedAnswer (.lane l.slot)) s

/-- Lanes that fault with one plain code park as one sub-group. -/
theorem State.fault_uniform (s : State) (core b : Nat) {c : BitVec 8} {ls : List LFault} (h : ∀ l ∈ ls, l.code = c)
    (hc : plainCode c) : s.fault core b ls = (s.answersUsed ls).parkGroup core b ls [] := by
  by_cases hne : ls = []
  · subst hne
    rfl
  have hplain : ∀ l ∈ ls, plainCode l.code := fun l hl => h l hl ▸ hc
  have herr : ∀ s : State, ls.filter s.consumesError = [] := fun s =>
    List.filter_eq_nil_iff.2 fun l hl => by simp [s.consumesError_plain l (hplain l hl)]
  have hall : ∀ s : State, ls.filter (fun l => !s.consumesError l) = ls := fun s =>
    List.filter_eq_self.2 fun l hl => by simp [s.consumesError_plain l (hplain l hl)]
  have hgroup : ls.filter (fun l => l.code == c) = ls := List.filter_eq_self.2 fun l hl => by simp [h l hl]
  have hrep : ∀ s : State, s.reportLanes core ls ls.reverse = (s, []) := fun s =>
    s.reportLanes_plain core ls _ fun l hl => (hplain l (List.mem_reverse.1 hl)).1
  unfold State.fault
  rw [if_neg (by simpa using hne)]
  simp only [herr, List.foldl_nil, hall, codesOf_uniform hne h, List.foldl_cons, hgroup, hrep]
  rfl

theorem State.usedAnswer_still (s : State) (who : Asker) : (s.usedAnswer who).still = s.still := by
  unfold State.usedAnswer
  split <;> rfl

theorem State.foldl_still {β : Type} (f : State → β → State) (hf : ∀ s b, (f s b).still = s.still) (l : List β) (s : State) :
    (l.foldl f s).still = s.still := by
  induction l generalizing s with
  | nil => rfl
  | cons b l ih => rw [List.foldl_cons, ih, hf]

theorem State.answersUsed_still (s : State) (ls : List LFault) : (s.answersUsed ls).still = s.still :=
  State.foldl_still _ (fun s _ => s.usedAnswer_still _) ls s

/-- The thread of a lane that parks for a fault. -/
def LFault.parks (recs : List (Nat × Nat)) (m : LFault) (t : Thread) : Thread :=
  t.stop ⟨m.code, m.pc, m.fpc, m.va, m.aux, m.defer, false, (recs.find? (fun e => e.1 == m.slot)).map (·.2)⟩

/-- The thread of a lane that finds no permit free, until it tries again. -/
def LFault.waits (until' : Nat) (m : LFault) (t : Thread) : Thread :=
  { t with retry := some until', due := if m.code = 0x60 then some m.fpc else t.due }

/-- Each lane of a fault has its thread changed. -/
def State.onFaults (s : State) (g : LFault → Thread → Thread) (ls : List LFault) : State :=
  ls.foldl (fun s m => s.updThread m.slot (g m)) s

/-- The lanes of a fault leave their regroup records. -/
def State.leavesAll (s : State) (ls : List LFault) : State :=
  if s.cores.any (fun e => !e.2.regroup.isEmpty) then ls.foldl (fun s m => s.leaveRegroup m.slot) s else s

/-- Permit `n` taken, the bough's back-off cleared. -/
def CoreSt.permitted (c : CoreSt) (bough n : Nat) (r : ParkRec) : CoreSt :=
  { c.updBough bough (fun b => { b with k := 0 }) with recs := c.recs.put n r, pkip := c.pkip ||| 1 }

/-- The record of a sub-group whose first lane is `l` (R366). -/
def parkRecOf (l : LFault) (ls : List LFault) : ParkRec := ⟨l.defer.isSome, l.code, l.pc, l.fpc, l.va, l.aux, (l :: ls).map (·.slot)⟩

section
variable (s : State) (core b : Nat) (l : LFault) (ls : List LFault) (recs : List (Nat × Nat))

theorem State.parkGroup_free {n : Nat} (h : (s.core core).freePermit = some n) : s.parkGroup core b (l :: ls) recs =
    ((s.updCore core fun c => c.permitted b n (parkRecOf l ls)).onFaults (LFault.parks recs) (l :: ls)).leavesAll (l :: ls) := by
  rw [State.parkGroup, h]
  rfl

theorem State.parkGroup_full (h : (s.core core).freePermit = none) : s.parkGroup core b (l :: ls) recs =
    (s.updCore core fun c => c.updBough b fun b => { b with k := min 6 (b.k + 1) }).onFaults
      (LFault.waits (s.cycleOf core + 64 * 2 ^ ((s.core core).bough b).k)) (l :: ls) := by
  rw [State.parkGroup, h]
  rfl

end

theorem State.onFaults_still (s : State) (g : LFault → Thread → Thread) (ls : List LFault) : (s.onFaults g ls).still = s.still :=
  State.foldl_still (fun s (m : LFault) => s.updThread m.slot (g m)) (fun _ _ => rfl) ls s

theorem State.leavesAll_still (s : State) (ls : List LFault) : (s.leavesAll ls).still = s.still := by
  unfold State.leavesAll
  split
  · exact State.foldl_still (fun s (m : LFault) => s.leaveRegroup m.slot) (fun _ _ => rfl) ls s
  · rfl

theorem State.parkGroup_still (s : State) (core b : Nat) (ls : List LFault) (recs : List (Nat × Nat)) :
    (s.parkGroup core b ls recs).still = s.still := by
  cases ls with
  | nil => rfl
  | cons l ls =>
    cases h : (s.core core).freePermit with
    | some n =>
      rw [s.parkGroup_free core b l ls recs h, State.leavesAll_still, State.onFaults_still]
      rfl
    | none =>
      rw [s.parkGroup_full core b l ls recs h, State.onFaults_still]
      rfl

theorem State.fault_still (s : State) (core b : Nat) {c : BitVec 8} {ls : List LFault} (h : ∀ l ∈ ls, l.code = c)
    (hc : plainCode c) : (s.fault core b ls).still = s.still := by
  rw [s.fault_uniform core b h hc, State.parkGroup_still, State.answersUsed_still]

/-! ### The frame of an issue -/

theorem State.issueSet_nodup (s : State) (i : Instr) (h : s.cur.slots.Nodup) : (s.issueSet i).Nodup := by
  unfold State.issueSet
  dsimp only
  split
  · exact (h.filter _).sublist (State.withRoom_sublist s i _)
  · exact List.nodup_nil

/-- A lane's outcome in an issue of a register word: its part of the word, and otherwise a fault of its own or nothing. -/
theorem State.laneOut_cases (s : State) (i : Instr) (gd : Thread → Bool) (f : Lane → LaneRes) (hf : ∀ l, RegPart (f l)) (b k : Nat)
    (t : Thread) : s.laneOut i gd f b k t = .off
      ∨ (∃ fx, s.laneOut i gd f b k t = .ok fx ∧ fx.ops = [] ∧ fx.tlb = [] ∧ fx.req = none ∧ fx.jump = none
          ∧ ∀ t, (fx.th t).step = t.step)
      ∨ ∃ l, s.laneOut i gd f b k t = .fault l ∧ l.slot = k
          ∧ (landingOk i t = true → deferHit i t = none → l.code = 0x07) := by
  unfold State.laneOut
  split
  · next h => exact .inr (.inr ⟨_, rfl, rfl, fun h' => by simp [h'] at h⟩)
  · split
    · next d hd => exact .inr (.inr ⟨_, rfl, rfl, fun _ h' => by simp [h'] at hd⟩)
    · split
      · exact .inl rfl
      · rcases hf ⟨{ s with fresh := b + 3072 }, k, t, b⟩ with ⟨fx, h, ho, ht, hr, hj, hs⟩ | h
        · rw [h]
          exact .inr (.inl ⟨_, rfl, by simp [ho], ht, hr, hj, hs⟩)
        · rw [h]
          exact .inr (.inr ⟨_, rfl, rfl, fun _ _ => rfl⟩)

theorem State.laneOut_ops_nil (s : State) (i : Instr) (gd : Thread → Bool) (f : Lane → LaneRes) (hf : ∀ l, RegPart (f l)) (b k : Nat)
    (t : Thread) (fx : Fx) (h : s.laneOut i gd f b k t = .ok fx) : fx.ops = [] := by
  rcases s.laneOut_cases i gd f hf b k t with h' | ⟨fx', h', ho, -⟩ | ⟨l, h', -⟩ <;> rw [h] at h' <;> cases h'
  exact ho

theorem State.laneOut_ops_slot (s : State) (i : Instr) (gd : Thread → Bool) (f : Lane → LaneRes) (hf : ∀ l, RegPart (f l)) (j b : Nat)
    (u : Thread) (fx : Fx) (h : s.laneOut i gd f b j u = .ok fx) (x : Op) (hx : x ∈ fx.ops) : x.slot = j := by
  rw [s.laneOut_ops_nil i gd f hf b j u fx h] at hx
  cases hx

theorem mem_faultsOf_iff (outs : List (Nat × LaneOut)) (l : LFault) : l ∈ faultsOf outs ↔ ∃ k, (k, .fault l) ∈ outs := by
  induction outs with
  | nil => simp [faultsOf]
  | cons e outs ih =>
    obtain ⟨j, o⟩ := e
    cases o with
    | fault f =>
      simp only [faultsOf, List.mem_cons, ih, Prod.mk.injEq, LaneOut.fault.injEq]
      constructor
      · rintro (rfl | ⟨k, hk⟩)
        exacts [⟨j, .inl ⟨rfl, rfl⟩⟩, ⟨k, .inr hk⟩]
      · rintro ⟨k, ⟨-, rfl⟩ | hk⟩
        exacts [.inl rfl, .inr ⟨k, hk⟩]
    | _ => simp [faultsOf, ih]

section
variable (s : State) (i : Instr) (gd : Thread → Bool) (f : Lane → LaneRes)

/-- Where lanes trap because they are stepped (R369). -/
theorem State.stepTrapsOn_still (core b : Nat) (pc : DWord) (ks : List Nat) : (s.stepTrapsOn core b pc ks).still = s.still := by
  refine s.fault_still core b (c := 0x60) (fun l hl => ?_) ⟨by decide, by decide, by decide⟩
  obtain ⟨k, -, hk⟩ := List.mem_filterMap.1 hl
  split at hk
  · cases hk
  · split at hk <;> cases hk
    rfl

theorem State.stepTraps_other (pc : DWord) (ks : List Nat) (k : Nat) (hk : k ∉ ks) : (s.stepTraps pc ks).thread? k = s.thread? k := by
  refine s.fault_thread? _ _ k _ fun l hl => ?_
  obtain ⟨j, hj, hjl⟩ := List.mem_filterMap.1 hl
  split at hjl
  · cases hjl
  · split at hjl <;> cases hjl
    rintro rfl
    exact hk hj

theorem State.mem_took_or_off {k : Nat} (h : k ∈ (s.runLanes i gd f).took ++ (s.runLanes i gd f).off) : k ∈ s.issueSet i := by
  simp only [State.runLanes, List.mem_append, List.mem_map, List.mem_filter] at h
  rcases h with ⟨e, ⟨he, -⟩, rfl⟩ | ⟨e, ⟨he, -⟩, rfl⟩ <;> exact (State.mem_outcomes s i gd f _ _ e he).1

/-- Lanes outside the issue keep their threads. -/
theorem State.issue_other (hops : ∀ j b u fx, s.laneOut i gd f b j u = .ok fx → ∀ x ∈ fx.ops, x.slot = j) (k : Nat)
    (hk : k ∉ s.issueSet i) : ∃ s', s.issue i gd f = .next s' ∧ s'.thread? k = s.thread? k := by
  have hmem := State.mem_outcomes s i gd f (s.issueSet i) s.fresh
  refine ⟨_, rfl, (State.stepTraps_other _ _ _ k fun h => hk (s.mem_took_or_off i gd f h)).trans ?_⟩
  unfold State.runLanes
  dsimp only
  rw [State.fault_thread?]
  · refine (State.noteDeps_thread? _ _ i _ k).trans ((State.foldl_thread? _ _ _ (fun e he s' => ?_) _).trans (s.charge_thread? i _ k))
    obtain ⟨he1, u, b, -, hb⟩ := hmem e he
    exact State.applyLane_other _ _ _ _ (fun h => hk (h ▸ he1)) fun fx hfx => hops e.1 b u fx (hb ▸ hfx)
  · intro l hl
    obtain ⟨j, hj⟩ := (mem_faultsOf_iff _ _).1 hl
    obtain ⟨he1, u, b, -, hb⟩ := hmem _ hj
    rw [State.laneOut_fault_slot s i gd f b j u l hb.symm]
    rintro rfl
    exact hk he1

end

/-- The lanes of a register word, none of which meets a fault before it, change nothing but threads, cores and the model's notes. -/
theorem State.runLanes_still {s : State} {i : Instr}
    (h : ∀ k ∈ s.issueSet i, ∀ t, s.thread? k = some t → landingOk i t = true ∧ deferHit i t = none)
    (gd : Thread → Bool) (f : Lane → LaneRes) (hf : ∀ l, RegPart (f l)) : (s.runLanes i gd f).s.still = s.still := by
  have hout : ∀ e ∈ s.outcomes i gd f s.fresh (s.issueSet i), (e.2 = .off ∨ ∃ fx, e.2 = .ok fx ∧ fx.ops = [] ∧ fx.tlb = []
      ∧ fx.req = none) ∨ ∃ l, e.2 = .fault l ∧ l.code = 0x07 := by
    intro e he
    obtain ⟨hk, t, b, ht, hb⟩ := State.mem_outcomes s i gd f _ _ e he
    obtain ⟨hland, hclear⟩ := h e.1 hk t ht
    rw [hb]
    rcases s.laneOut_cases i gd f hf b e.1 t with h | ⟨fx, h, ho, hx, hr, -⟩ | ⟨l, h, -, hl⟩
    exacts [.inl (.inl h), .inl (.inr ⟨fx, h, ho, hx, hr⟩), .inr ⟨l, h, hl hland hclear⟩]
  have hfold : ∀ (l : List (Nat × LaneOut)) (s' : State), (∀ e ∈ l, e ∈ s.outcomes i gd f s.fresh (s.issueSet i)) →
      (l.foldl (fun s e => s.applyLane e.1 e.2) s').still = s'.still := by
    intro l
    induction l with
    | nil => exact fun _ _ => rfl
    | cons e l ih =>
      intro s' hl
      rw [List.foldl_cons, ih _ fun x hx => hl x (List.mem_cons_of_mem _ hx)]
      rcases hout e (hl e List.mem_cons_self) with ho | ⟨x, hx, -⟩
      · exact State.applyLane_plain s' e.1 e.2 ho
      · rw [hx]
        unfold State.applyLane State.onward
        dsimp only
        split <;> exact s'.usedAnswer_still _
  have hcode : ∀ l ∈ faultsOf (s.outcomes i gd f s.fresh (s.issueSet i)), l.code = 0x07 := by
    intro l hl
    obtain ⟨k, hk⟩ := (mem_faultsOf_iff _ _).1 hl
    rcases hout _ hk with (h | ⟨fx, h, -⟩) | ⟨l', h, hl'⟩ <;> cases h
    exact hl'
  unfold State.runLanes
  dsimp only
  rw [State.fault_still _ _ _ hcode ⟨by decide, by decide, by decide⟩]
  exact (State.noteDeps_still _ _ i _).trans ((hfold _ _ fun _ h => h).trans (State.charge_still s i _))

/-- A quiet issue of a register word changes nothing but threads, cores and the model's notes. -/
theorem State.issue_still {s : State} {i : Instr} (h : Quiet s i) (gd : Thread → Bool) (f : Lane → LaneRes) (hf : ∀ l, RegPart (f l)) :
    ∃ s', s.issue i gd f = .next s' ∧ s'.still = s.still := by
  refine ⟨_, rfl, (State.stepTrapsOn_still _ _ _ _ _).trans (State.runLanes_still (fun k hk t ht => ?_) gd f hf)⟩
  obtain ⟨hland, hclear, -⟩ := h.each k hk t ht
  exact ⟨hland, hclear⟩

theorem State.eq_of_still {s s' : State} (h : s'.still = s.still) :
    s' = { s with threads := s'.threads, cores := s'.cores, fresh := s'.fresh, deps := s'.deps, xans := s'.xans, late := s'.late } := by
  cases s
  cases s'
  simp only [State.still, State.mk.injEq] at h
  simp only [State.mk.injEq]
  simp [h]

/-- A lane whose guard is false goes to the next word. -/
theorem State.issue_skips (s : State) (i : Instr) (gd : Thread → Bool) (f : Lane → LaneRes) (hf : ∀ l, RegPart (f l))
    (hg : ∀ t, gd t = i.on t) (k : Nat) (t : Thread) (h : Skips s i k t) :
    ∃ s', s.issue i gd f = .next s' ∧ s'.thread? k = some { t with pcw := t.pcw + 1 } := by
  obtain ⟨b, hb⟩ := State.runLanes_thread s i gd f k t h.once h.mem h.thread (s.laneOut_ops_slot i gd f hf)
  have hout : s.laneOut i gd f b k t = .off := by
    unfold State.laneOut
    rw [h.landing, h.clear, hg, h.off]
    rfl
  rw [hout] at hb
  obtain ⟨u, hu, hk⟩ := hb fun l hl => by cases hl
  obtain ⟨n, hn⟩ := LaneOut.leaves_plain hu rfl
  rw [show u = t.next from hn] at hk
  refine ⟨_, rfl, (State.stepTraps_thread? _ _ _ k fun v hv => ?_).trans hk⟩
  rw [← Option.some.inj (hk.symm.trans hv)]
  exact t.next_step.trans h.free

/-- Settles O59: the parts of such words issue no operation and fault with 0x07 alone. -/
theorem registerWordsFrame : Obligations.RegisterWordsFrame := by
  refine ⟨fun i s s' hi hq hs => ?_, fun i s k t hi hk => ?_⟩
  · obtain ⟨gd, f, hx, hg, hf⟩ := regWord_of_registerOnly hi
    rw [hx] at hs
    refine ⟨fun k hk => ?_, State.eq_of_still ?_⟩
    · obtain ⟨s'', h, hk⟩ := s.issue_other i gd f (s.laneOut_ops_slot i gd f hf) k hk
      cases hs.symm.trans h
      exact hk
    · obtain ⟨s'', h, hk⟩ := State.issue_still hq gd f hf
      cases hs.symm.trans h
      exact hk
  · obtain ⟨gd, f, hx, hg, hf⟩ := regWord_of_registerOnly hi
    rw [hx]
    exact s.issue_skips i gd f hf hg k t hk

end Sys2Proof.Machine
end

section
/-!
Faults a lane takes around a word: before it, after it where it is stepped, and where it does not decode (03 R79, 07 R161, 08 R198,
16 R369).
-/

namespace Sys2Proof.Machine

/-- A lane that faults is parked with what it met, or waits for a permit. -/
theorem State.fault_excepts (s : State) (c b : Nat) (ls : List LFault) (l : LFault) (t : Thread) (hn : (ls.map (·.slot)).Nodup)
    (hl : l ∈ ls) (ht : s.thread? l.slot = some t) (hc : l.code ≠ 0x40 ∧ l.code ≠ 0x17) (hpc : l.pc = t.pc) :
    ∃ u, (s.fault c b ls).thread? l.slot = some u ∧ u.step = t.step ∧ Excepts t u l.code l.va l.aux := by
  obtain ⟨u, hu, ⟨fr, rfl⟩ | ⟨n, d, rfl⟩⟩ := s.fault_same c b ls l t hn hl ht hc
  · exact ⟨_, hu, rfl, rfl, ⟨rfl, rfl, rfl, rfl, rfl, rfl, rfl⟩, .inl ⟨rfl, _, rfl, rfl, hpc, rfl, rfl⟩⟩
  · exact ⟨_, hu, rfl, rfl, ⟨rfl, rfl, rfl, rfl, rfl, rfl, rfl⟩, .inr ⟨rfl, rfl, rfl⟩⟩

/-- What the stepped lanes among `ks` take (R369). -/
def State.stepFaults (s : State) (pc : DWord) (ks : List Nat) : List LFault :=
  ks.filterMap (fun k => match s.thread? k with
    | none => none
    | some t => if t.step && t.st == .ready && t.hold == .none then some ⟨k, 0x60, t.pc, pc, 0, 0, false, false, none⟩ else none)

theorem State.stepTraps_eq (s : State) (pc : DWord) (ks : List Nat) :
    s.stepTraps pc ks = s.fault s.cur.core s.cur.bough (s.stepFaults pc ks) := rfl

theorem State.stepFaults_nodup (s : State) (pc : DWord) (ks : List Nat) (h : ks.Nodup) :
    ((s.stepFaults pc ks).map (·.slot)).Nodup := by
  refine h.sublist ?_
  unfold State.stepFaults
  induction ks with
  | nil => exact List.Sublist.refl _
  | cons k ks ih =>
    have ih := ih (List.nodup_cons.1 h).2
    simp only [List.filterMap_cons]
    split
    · exact ih.cons _
    · next x hx =>
      split at hx
      · cases hx
      · split at hx <;> cases hx
        exact ih.cons_cons _

theorem State.mem_stepFaults {s : State} {ks : List Nat} {k : Nat} {t : Thread} (pc : DWord) (hk : k ∈ ks) (ht : s.thread? k = some t)
    (hstep : t.step = true) (hready : t.st = .ready) (hhold : t.hold = .none) :
    ⟨k, 0x60, t.pc, pc, 0, 0, false, false, none⟩ ∈ s.stepFaults pc ks :=
  List.mem_filterMap.2 ⟨k, hk, by simp [ht, hstep, hready, hhold]⟩

section
variable (s : State) (i : Instr) (gd : Thread → Bool) (f : Lane → LaneRes) (k : Nat) (t : Thread)

theorem State.faultsOf_outcomes_nodup (hn : s.cur.slots.Nodup) :
    ((faultsOf (s.outcomes i gd f s.fresh (s.issueSet i))).map (·.slot)).Nodup := by
  refine ((s.issueSet_nodup i hn).sublist (outcomes_fst s i gd f _ _)).sublist (faultsOf_slots _ fun e he l hl => ?_)
  obtain ⟨-, u, b, -, hb⟩ := State.mem_outcomes s i gd f _ _ e he
  exact State.laneOut_fault_slot s i gd f b e.1 u l (hb ▸ hl)

/-- A lane whose outcome is a fault takes it, and is not among those that took the word or passed it by. -/
theorem State.runLanes_laneFault (hn : s.cur.slots.Nodup) (hk : k ∈ s.issueSet i) (ht : s.thread? k = some t)
    (hops : ∀ j b u fx, s.laneOut i gd f b j u = .ok fx → ∀ x ∈ fx.ops, x.slot = j) :
    ∃ b, ∀ l, s.laneOut i gd f b k t = .fault l → l.code ≠ 0x40 → l.code ≠ 0x17 → l.pc = t.pc →
      k ∉ (s.runLanes i gd f).took ++ (s.runLanes i gd f).off
        ∧ ∃ u, (s.runLanes i gd f).s.thread? k = some u ∧ u.step = t.step ∧ Excepts t u l.code l.va l.aux := by
  obtain ⟨b, hmem, honly, hfold⟩ := State.outcomes_thread s i gd f k t _ (s.issueSet_nodup i hn) hk ht s.fresh hops
  refine ⟨b, fun l hout hc hc' hpc => ?_⟩
  have hslot : l.slot = k := State.laneOut_fault_slot s i gd f b k t l hout
  rw [hout] at hmem honly hfold
  obtain ⟨v, hv, hthread⟩ := hfold (s.charge i (s.issueSet i)) (by simpa using ht)
  obtain ⟨n, hv⟩ := LaneOut.leaves_plain hv rfl
  rw [show v = t from hv] at hthread
  subst hslot
  obtain ⟨u, hu, hstep, hex⟩ := State.fault_excepts { ((s.outcomes i gd f s.fresh (s.issueSet i)).foldl (fun s e => s.applyLane e.1 e.2)
      (s.charge i (s.issueSet i))).noteDeps s i (s.outcomes i gd f s.fresh (s.issueSet i)) with
        fresh := (((s.outcomes i gd f s.fresh (s.issueSet i)).foldl (fun s e => s.applyLane e.1 e.2)
          (s.charge i (s.issueSet i))).noteDeps s i (s.outcomes i gd f s.fresh (s.issueSet i))).fresh
            + laneFree * (s.issueSet i).length } s.cur.core s.cur.bough
    _ l t (s.faultsOf_outcomes_nodup i gd f hn) (mem_faultsOf _ _ l hmem) ((State.noteDeps_thread? _ _ i _ _).trans hthread) ⟨hc, hc'⟩ hpc
  refine ⟨fun h => ?_, u, hu, hstep, hex⟩
  simp only [State.runLanes, List.mem_append, List.mem_map, List.mem_filter] at h
  rcases h with ⟨e, ⟨he, ho⟩, h⟩ | ⟨e, ⟨he, ho⟩, h⟩ <;> rw [honly e he h] at ho <;> cases ho

/-- A lane whose outcome is a fault takes it, and no step trap. -/
theorem State.issue_laneFault (hn : s.cur.slots.Nodup) (hk : k ∈ s.issueSet i) (ht : s.thread? k = some t)
    (hops : ∀ j b u fx, s.laneOut i gd f b j u = .ok fx → ∀ x ∈ fx.ops, x.slot = j) (l : LFault)
    (hout : ∀ b, s.laneOut i gd f b k t = .fault l) (hc : l.code ≠ 0x40 ∧ l.code ≠ 0x17) (hpc : l.pc = t.pc) :
    ∃ s' u, s.issue i gd f = .next s' ∧ s'.thread? k = some u ∧ Excepts t u l.code l.va l.aux := by
  obtain ⟨b, h⟩ := s.runLanes_laneFault i gd f k t hn hk ht hops
  obtain ⟨hout', u, hu, -, hex⟩ := h l (hout b) hc.1 hc.2 hpc
  exact ⟨_, u, rfl, (State.stepTraps_other _ _ _ _ hout').trans hu, hex⟩

/-- A lane of the issuing set is ready at the word and passes its checks (R50). -/
theorem State.of_mem_issueSet (hk : k ∈ s.issueSet i) (ht : s.thread? k = some t) :
    t.open (s.cycleOf (coreOf k)) = true ∧ s.teamRuns t = true ∧ t.pc = s.cur.pc ∧ s.passes k t i = true := by
  unfold State.issueSet at hk
  dsimp only at hk
  split at hk
  · have hm := (State.withRoom_sublist s i _).subset hk
    simp only [List.mem_filter, ht, Bool.and_eq_true, beq_iff_eq] at hm
    obtain ⟨-, ⟨⟨h1, h2⟩, h3⟩, h4⟩ := hm
    exact ⟨h1, h2, h3, h4⟩
  · cases hk

theorem Thread.ready_of_open {t : Thread} {now : Nat} (h : t.open now = true) : t.st = .ready ∧ t.hold = .none := by
  simp only [Thread.open, Bool.and_eq_true, beq_iff_eq] at h
  obtain ⟨⟨⟨⟨⟨h1, h2⟩, -⟩, -⟩, -⟩, -⟩ := h
  exact ⟨h1, h2⟩

theorem State.outcomes_nodup (hn : s.cur.slots.Nodup) : ((s.outcomes i gd f s.fresh (s.issueSet i)).map (·.1)).Nodup :=
  (s.issueSet_nodup i hn).sublist (outcomes_fst s i gd f _ _)

/-- No lane both took the word and passed it by. -/
theorem State.took_off_nodup (hn : s.cur.slots.Nodup) : ((s.runLanes i gd f).took ++ (s.runLanes i gd f).off).Nodup := by
  have h := s.outcomes_nodup i gd f hn
  refine List.nodup_append.2 ⟨h.sublist (List.filter_sublist.map _), h.sublist (List.filter_sublist.map _), ?_⟩
  rintro a ha b hb rfl
  obtain ⟨x, hx, rfl⟩ := List.mem_map.1 ha
  obtain ⟨y, hy, hxy⟩ := List.mem_map.1 hb
  obtain ⟨hx, hok⟩ := List.mem_filter.1 hx
  obtain ⟨hy, hoff⟩ := List.mem_filter.1 hy
  rw [List.inj_on_of_nodup_map h hy hx hxy] at hoff
  cases hx2 : x.2 <;> simp [hx2, LaneOut.isOk, LaneOut.isOff] at hok hoff

/-- A lane that is stepped parks at the next word once it has passed one (R369). -/
theorem State.issue_stepped (hn : s.cur.slots.Nodup) (hk : k ∈ s.issueSet i) (ht : s.thread? k = some t)
    (hops : ∀ j b u fx, s.laneOut i gd f b j u = .ok fx → ∀ x ∈ fx.ops, x.slot = j) (hout : ∀ b, s.laneOut i gd f b k t = .off)
    (hstep : t.step = true) : ∃ s' u, s.issue i gd f = .next s' ∧ s'.thread? k = some u ∧ Excepts t.next u 0x60 0 0 := by
  obtain ⟨hready, hhold⟩ := Thread.ready_of_open (s.of_mem_issueSet i k t hk ht).1
  obtain ⟨b, hmem, -, -⟩ := State.outcomes_thread s i gd f k t _ (s.issueSet_nodup i hn) hk ht s.fresh hops
  obtain ⟨b', hb⟩ := State.runLanes_thread s i gd f k t hn hk ht hops
  simp only [hout] at hmem hb
  obtain ⟨v, hv, hthread⟩ := hb fun l hl => by cases hl
  obtain ⟨n, hv⟩ := LaneOut.leaves_plain hv rfl
  rw [show v = t.next from hv] at hthread
  have hoff : k ∈ (s.runLanes i gd f).took ++ (s.runLanes i gd f).off :=
    List.mem_append_right _ (List.mem_map.2 ⟨_, List.mem_filter.2 ⟨hmem, rfl⟩, rfl⟩)
  obtain ⟨u, hu, -, hex⟩ := State.fault_excepts (s.runLanes i gd f).s _ _ _ _ t.next
    (State.stepFaults_nodup _ _ _ (s.took_off_nodup i gd f hn))
    (State.mem_stepFaults s.cur.pc hoff hthread hstep hready hhold) hthread (by simp) rfl
  exact ⟨_, u, rfl, hu, hex⟩

end

/-- What the lanes of an issue whose word does not decode take. -/
def State.encFaults (s : State) (c : BitVec 8) : List LFault :=
  s.cur.slots.filterMap (fun k => (s.thread? k).map (fun t =>
    ⟨k, if t.landing.isSome ∧ 0x04 < c.toNat then 0x04 else c, t.pc, t.pc, 0, 0, false, false, none⟩))

theorem State.encFaults_nodup (s : State) (c : BitVec 8) (hn : s.cur.slots.Nodup) : ((s.encFaults c).map (·.slot)).Nodup := by
  refine hn.sublist ?_
  unfold State.encFaults
  generalize s.cur.slots = ks
  induction ks with
  | nil => exact List.Sublist.refl _
  | cons k ks ih =>
    cases hj : s.thread? k with
    | none => simpa [hj] using ih.cons k
    | some t => simpa [hj] using ih

theorem State.encodingFault_excepts (s : State) (k : Nat) (t : Thread) (c : BitVec 8) (hn : s.cur.slots.Nodup) (hk : k ∈ s.cur.slots)
    (ht : s.thread? k = some t) (hc : c.toNat ≤ 8) :
    ∃ u, (s.encodingFault c).thread? k = some u
      ∧ Excepts t u (if t.landing.isSome = true ∧ 0x04 < c.toNat then 0x04 else c) 0 0 := by
  have hcode : (if t.landing.isSome = true ∧ 0x04 < c.toNat then (0x04 : BitVec 8) else c).toNat ≤ 8 := by
    split
    · decide
    · exact hc
  have hmem : (⟨k, if t.landing.isSome = true ∧ 0x04 < c.toNat then 0x04 else c, t.pc, t.pc, 0, 0, false, false, none⟩ : LFault)
      ∈ s.encFaults c := List.mem_filterMap.2 ⟨k, hk, by rw [ht]; rfl⟩
  have hne (x : BitVec 8) (hx : 8 < x.toNat) : (if t.landing.isSome = true ∧ 0x04 < c.toNat then (0x04 : BitVec 8) else c) ≠ x :=
    fun h => absurd (h ▸ hcode) (by omega)
  obtain ⟨u, hu, -, hex⟩ := s.fault_excepts s.cur.core s.cur.bough (s.encFaults c) _ t (s.encFaults_nodup c hn) hmem ht
    ⟨hne _ (by decide), hne _ (by decide)⟩ rfl
  exact ⟨u, hu, hex⟩

/-- Settles O60: such lanes end as faults of their issue, at the word or, where they are stepped, behind it. -/
theorem faultsBeforeAndAfterWords : Obligations.FaultsBeforeAndAfterWords := by
  refine ⟨?landing, ?deferred, ?stepped, State.encodingFault_excepts⟩
  case landing =>
    rintro i s k t hi ⟨hn, hk, ht⟩ hl
    obtain ⟨gd, f, hx, hg, hf⟩ := regWord_of_registerOnly hi
    rw [hx]
    refine s.issue_laneFault i gd f k t hn hk ht (s.laneOut_ops_slot i gd f hf) ⟨k, 0x04, t.pc, t.pc, 0, 0, false, false, none⟩ (fun b => ?_) (by simp) rfl
    unfold State.laneOut
    rw [hl]
    rfl
  case deferred =>
    rintro i s k t d hi ⟨hn, hk, ht⟩ hl hd h1 h2
    obtain ⟨gd, f, hx, hg, hf⟩ := regWord_of_registerOnly hi
    rw [hx]
    refine s.issue_laneFault i gd f k t hn hk ht (s.laneOut_ops_slot i gd f hf) ⟨k, d.code, t.pc, d.pc, d.va, 0, d.cls != .ld, false, some d⟩ (fun b => ?_)
      ⟨h1, h2⟩ rfl
    unfold State.laneOut
    rw [hl, hd]
    rfl
  case stepped =>
    rintro i s k t hi ⟨hn, hk, ht⟩ hl hd hoff hstep -
    obtain ⟨gd, f, hx, hg, hf⟩ := regWord_of_registerOnly hi
    rw [hx]
    refine s.issue_stepped i gd f k t hn hk ht (s.laneOut_ops_slot i gd f hf) (fun b => ?_) hstep
    unfold State.laneOut
    rw [hl, hd, hg, hoff]
    rfl

end Sys2Proof.Machine
end

section
/-!
Taking an exception: the permit, the park record and the back-off (16 R361 to R363, R366).
-/

namespace Sys2Proof.Machine

@[simp] theorem State.core_updCore_same (s : State) (c : Nat) (f : CoreSt → CoreSt) : (s.updCore c f).core c = f (s.core c) :=
  SMap.get_set_same _ _ _ _

theorem State.core_updCore (s : State) (c d : Nat) (f : CoreSt → CoreSt) :
    (s.updCore c f).core d = if d = c then f (s.core c) else s.core d := by
  split
  · next h => rw [h, State.core_updCore_same]
  · next h => exact SMap.get_set_other _ _ _ _ _ h

theorem State.core_of_cores {s s' : State} (h : s'.cores = s.cores) (c : Nat) : s'.core c = s.core c :=
  congrArg (SMap.get CoreSt.reset · c) h

theorem CoreSt.bough_updBough_same (c : CoreSt) (b : Nat) (f : Bough → Bough) : (c.updBough b f).bough b = f (c.bough b) :=
  SMap.get_set_same _ _ _ _

/-- `n` is the lowest number below the bound with the property. -/
theorem firstBelow_eq_some {m n : Nat} {p : Nat → Bool} (hn : n < m) (h : p n = true) (hlow : ∀ k < n, p k = false) :
    firstBelow m p = some n := by
  unfold firstBelow
  rw [List.find?_range_eq_some]
  exact ⟨h, List.mem_range.2 hn, fun j hj => by simp [hlow j hj]⟩

theorem firstBelow_eq_none {m : Nat} {p : Nat → Bool} (h : ∀ k < m, p k = false) : firstBelow m p = none := by
  unfold firstBelow
  exact List.find?_eq_none.2 fun k hk => by simp [h k (List.mem_range.1 hk)]

theorem State.answersUsed_thread? (s : State) (ls : List LFault) (k : Nat) : (s.answersUsed ls).thread? k = s.thread? k :=
  State.foldl_thread? _ k ls (fun _ _ s => State.thread?_of_control (s.usedAnswer_control _) k) s

theorem State.usedAnswer_cores (s : State) (who : Asker) : (s.usedAnswer who).cores = s.cores := by
  unfold State.usedAnswer
  split <;> rfl

theorem State.answersUsed_cores (s : State) (ls : List LFault) : (s.answersUsed ls).cores = s.cores := by
  unfold State.answersUsed
  induction ls generalizing s with
  | nil => rfl
  | cons l ls ih => rw [List.foldl_cons, ih, State.usedAnswer_cores]

theorem State.onFaults_cores (s : State) (g : LFault → Thread → Thread) (ls : List LFault) : (s.onFaults g ls).cores = s.cores := by
  unfold State.onFaults
  induction ls generalizing s with
  | nil => rfl
  | cons l ls ih => rw [List.foldl_cons, ih]; rfl

theorem State.onFaults_thread? (s : State) (g : LFault → Thread → Thread) (ls : List LFault) (l : LFault) (t : Thread)
    (hn : (ls.map (·.slot)).Nodup) (hl : l ∈ ls) (ht : s.thread? l.slot = some t) :
    (s.onFaults g ls).thread? l.slot = some (g l t) := foldl_upd_same g ls l t hn hl s ht

/-- A thread that leaves its regroup record keeps the core's park records and PKIP. -/
theorem State.leaveRegroup_core (s : State) (slot c : Nat) :
    ((s.leaveRegroup slot).core c).recs = (s.core c).recs ∧ ((s.leaveRegroup slot).core c).pkip = (s.core c).pkip := by
  unfold State.leaveRegroup
  rw [State.core_updCore]
  split
  · next h => rw [h]; exact ⟨rfl, rfl⟩
  · exact ⟨rfl, rfl⟩

theorem State.leavesAll_core (s : State) (ls : List LFault) (c : Nat) :
    ((s.leavesAll ls).core c).recs = (s.core c).recs ∧ ((s.leavesAll ls).core c).pkip = (s.core c).pkip := by
  have key (s : State) : ((ls.foldl (fun s m => s.leaveRegroup m.slot) s).core c).recs = (s.core c).recs
      ∧ ((ls.foldl (fun s m => s.leaveRegroup m.slot) s).core c).pkip = (s.core c).pkip := by
    induction ls generalizing s with
    | nil => exact ⟨rfl, rfl⟩
    | cons l ls ih =>
      obtain ⟨h1, h2⟩ := ih (s.leaveRegroup l.slot)
      obtain ⟨h3, h4⟩ := s.leaveRegroup_core l.slot c
      exact ⟨h1.trans h3, h2.trans h4⟩
  unfold State.leavesAll
  split
  · exact key s
  · exact ⟨rfl, rfl⟩

theorem State.leavesAll_thread? (s : State) (ls : List LFault) (k : Nat) : (s.leavesAll ls).thread? k = s.thread? k := by
  unfold State.leavesAll
  split
  · exact State.foldl_thread? (fun s (m : LFault) => s.leaveRegroup m.slot) k ls (fun _ _ _ => rfl) s
  · rfl

theorem State.field_of_still {α : Type} {s s' : State} (f : State → α) (hf : ∀ s, f s.still = f s) (h : s'.still = s.still) :
    f s' = f s := by
  rw [← hf s', h, hf]

section
variable (s : State) (core bough : Nat) (l : LFault) (ls : List LFault)

/-- A sub-group that finds permit `n` free. -/
theorem State.parkGroup_permit {n : Nat} (h : (s.core core).freePermit = some n) (hn : ((l :: ls).map (·.slot)).Nodup) :
    let s' := s.parkGroup core bough (l :: ls) []
    SMap.find? (s'.core core).recs n = some (parkRecOf l ls) ∧ (s'.core core).pkip.getLsbD 0 = true
      ∧ ∀ x ∈ l :: ls, ∀ t, s.thread? x.slot = some t → s'.thread? x.slot = some (x.parks [] t) := by
  intro s'
  have hs' : s' = _ := s.parkGroup_free core bough l ls [] h
  have hcore := State.core_of_cores ((s.updCore core fun c => c.permitted bough n (parkRecOf l ls)).onFaults_cores (LFault.parks []) (l :: ls)) core
  obtain ⟨hrecs, hpkip⟩ := ((s.updCore core fun c => c.permitted bough n (parkRecOf l ls)).onFaults (LFault.parks []) (l :: ls)).leavesAll_core
    (l :: ls) core
  rw [hcore, State.core_updCore_same, ← hs'] at hrecs hpkip
  refine ⟨hrecs ▸ SMap.find?_put_same _ _ _, ?_, fun x hx t ht => ?_⟩
  · rw [hpkip]
    simp [CoreSt.permitted]
  · rw [hs', State.leavesAll_thread?]
    exact State.onFaults_thread? _ _ _ x t hn hx ht

/-- A sub-group that finds no permit free. -/
theorem State.parkGroup_none (h : (s.core core).freePermit = none) (hn : ((l :: ls).map (·.slot)).Nodup) :
    let s' := s.parkGroup core bough (l :: ls) []
    (s'.core core).recs = (s.core core).recs ∧ ((s'.core core).bough bough).k = min 6 (((s.core core).bough bough).k + 1)
      ∧ ∀ x ∈ l :: ls, ∀ t, s.thread? x.slot = some t →
          s'.thread? x.slot = some (x.waits (s.cycleOf core + 64 * 2 ^ ((s.core core).bough bough).k) t) := by
  intro s'
  have hs' : s' = _ := s.parkGroup_full core bough l ls [] h
  have hcore : s'.core core = _ := (hs' ▸ State.core_of_cores (State.onFaults_cores _ _ _) core).trans (State.core_updCore_same _ _ _)
  rw [hcore, CoreSt.bough_updBough_same]
  refine ⟨rfl, rfl, fun x hx t ht => ?_⟩
  rw [hs']
  exact State.onFaults_thread? _ _ _ x t hn hx ht

end

/-- Settles O58: lanes with one code that no agent hears of are one sub-group, which takes the lowest free permit or backs off. -/
theorem exceptionEntry : Obligations.ExceptionEntry := by
  intro s core bough code l ls all hcode hplain hn s'
  have hc : plainCode code := by
    simp only [List.mem_cons, List.not_mem_nil, or_false, not_or] at hplain
    obtain ⟨h1, h2, -, h4, h5⟩ := hplain
    exact ⟨by simpa [replayable] using ⟨h1, h2⟩, h5, h4⟩
  have hs' : s' = (s.answersUsed all).parkGroup core bough all [] := s.fault_uniform core bough hcode hc
  have hstill : s'.still = s.still := s.fault_still core bough hcode hc
  have hkept {α : Type} (f : State → α) (hf : ∀ s, f s.still = f s) : f s' = f s := State.field_of_still f hf hstill
  have hcore : (s.answersUsed all).core core = s.core core := State.core_of_cores (s.answersUsed_cores all) core
  have hthread := s.answersUsed_thread? all
  refine ⟨fun j hj => s.fault_thread? _ _ j all fun x hx h => hj (h ▸ List.mem_map_of_mem hx), hkept State.mem fun _ => rfl,
    hkept State.scr fun _ => rfl, hkept State.host fun _ => rfl, hkept State.l2 fun _ => rfl, hkept State.parts fun _ => rfl,
    hkept State.ops fun _ => rfl, fun n hn4 hused hfree => ?_, fun hfull => ?_⟩
  · have hpermit : ((s.answersUsed all).core core).freePermit = some n := by
      rw [hcore]
      exact firstBelow_eq_some hn4 (by simp [hfree]) fun m hm => by simpa [Option.isNone_iff_eq_none, Option.isSome_iff_ne_none] using hused m hm
    obtain ⟨hrec, hpkip, hparks⟩ := (s.answersUsed all).parkGroup_permit core bough l ls hpermit hn
    rw [← hs'] at hrec hpkip hparks
    refine ⟨⟨_, hrec, hcode l List.mem_cons_self, rfl, rfl, rfl, rfl⟩, hpkip, fun x hx t ht => ?_⟩
    refine ⟨_, _, hparks x hx t ((hthread _).trans ht), rfl, rfl, hcode x hx, rfl, rfl, rfl, rfl, rfl⟩
  · have hpermit : ((s.answersUsed all).core core).freePermit = none := by
      rw [hcore]
      exact firstBelow_eq_none fun m hm => by simpa [Option.isNone_iff_eq_none, Option.isSome_iff_ne_none] using hfull m hm
    obtain ⟨hrecs, hk, hwaits⟩ := (s.answersUsed all).parkGroup_none core bough l ls hpermit hn
    rw [← hs'] at hrecs hk hwaits
    rw [hcore] at hrecs hk hwaits
    have hcycle : (s.answersUsed all).cycleOf core = s.cycleOf core :=
      congrArg (fun g => (SMap.get GroveSt.reset g (groveOf core)).cycle) (State.field_of_still State.groves (fun _ => rfl) (s.answersUsed_still all))
    exact ⟨hrecs, hk, fun x hx t ht => ⟨_, hcycle ▸ hwaits x hx t ((hthread _).trans ht), rfl⟩⟩

end Sys2Proof.Machine
end

section
/-!
Comparisons, predicate moves and special registers (04 R103 to R106).
-/

namespace Sys2Proof.Machine

section
variable {i : Instr} {gd : Thread → Bool} {p : PReg} {v : Lane → Bool}

/-- A word whose part sets a predicate on each lane completes with it. -/
theorem Completes.of_predResult {r : Lane → Bool} (hx : ∀ s, exec i s = s.issue i gd (regFx fun l t => t.predResult p (v l)))
    (hg : ∀ t, gd t = i.on t) (hv : ∀ l, v l = r l) : Completes i fun l u => PutsPred l.t u p (r l) 0 :=
  Completes.of_regFx i gd _ _ hx hg (fun _ _ => rfl) fun l => hv l ▸ l.t.predResult_puts0 p (v l)

end

/-- A comparison of two sources, as R103 reads them. -/
theorem cmpOf_src (c : Cond) (sg : Sg) (w : Bool) (l : Lane) (a b : Src) : cmpOf c sg w (l.src 0 w a) (l.src 1 w b) =
    match c with
    | .eq => decide (l.z 0 w a = l.z 1 w b)
    | .ne => decide (l.z 0 w a ≠ l.z 1 w b)
    | .lt => decide (xOf sg w (l.z 0 w a) < xOf sg w (l.z 1 w b))
    | .le => decide (xOf sg w (l.z 0 w a) ≤ xOf sg w (l.z 1 w b))
    | .gt => decide (xOf sg w (l.z 0 w a) > xOf sg w (l.z 1 w b))
    | .ge => decide (xOf sg w (l.z 0 w a) ≥ xOf sg w (l.z 1 w b))
    | .tst => decide (l.src 0 w a &&& l.src 1 w b ≠ 0) := by
  have hand : (l.z 0 w a &&& l.z 1 w b = 0) ↔ (l.src 0 w a &&& l.src 1 w b = 0) := by
    rw [← BitVec.toNat_inj, BitVec.toNat_and]
    rfl
  rw [Bool.eq_iff_iff]
  cases c <;> simp [cmpOf, hand]

/-- Bits of A where the mask B has ones, the old predicates elsewhere (R105). -/
theorem getLsbD_masked (p : BitVec 12) (a b : DWord) (i : Nat) (h : i < 12) :
    ((p &&& ~~~b.setWidth 12) ||| (a.setWidth 12 &&& b.setWidth 12)).getLsbD i =
      if b.getLsbD i then a.getLsbD i else p.getLsbD i := by
  simp only [BitVec.getLsbD_or, BitVec.getLsbD_and, BitVec.getLsbD_not, BitVec.getLsbD_setWidth, h, decide_true, Bool.true_and]
  cases b.getLsbD i <;> simp

theorem pmovResult (x : PmovArg) : Completes (.pmov x) fun l u => match x.dir with
    | .toReg d => Puts l.t u false d (l.t.preds.setWidth 64) 0
    | .fromReg a b => (∀ i < 12, u.preds.getLsbD i =
          if (l.src 1 false b).getLsbD i then (l.src 0 false a).getLsbD i else l.t.preds.getLsbD i)
        ∧ u.lat = u.preds.setWidth 64 ∧ u = { l.t with preds := u.preds, lat := u.lat, pcw := l.t.pcw + 1 } := by
  obtain ⟨gd, d | ⟨a, b⟩⟩ := x
  · refine Completes.of_result (fun _ => rfl) (fun _ => rfl) fun l => BitVec.eq_of_toNat_eq ?_
    have := l.t.preds.isLt
    rw [extW_toNat, BitVec.toNat_setWidth]
    simp only [wid, Bool.false_eq_true, if_false]
    omega
  · exact Completes.of_regFx _ _ _ _ (fun _ => rfl) (fun _ => rfl) (fun _ _ => rfl)
      fun l => ⟨fun i hi => getLsbD_masked _ _ _ i hi, rfl, rfl⟩

/-- Settles O4: each word sets the predicate that R103 and R104 name, and PMOV moves them all. -/
theorem predicateResults : Obligations.PredicateResults := by
  refine ⟨fun x => ?_, fun x => ?_, fun x => ?_, fun x => ?_, fun x => ?_, pmovResult⟩
  · exact Completes.of_predResult (fun _ => rfl) (fun _ => rfl) fun l => cmpOf_src x.cond x.sg x.w l x.a x.b
  · exact Completes.of_predResult (fun _ => rfl) (fun _ => rfl) fun l => by simp
  · exact Completes.of_predResult (fun _ => rfl) (fun _ => rfl) fun l => by simp
  · exact Completes.of_predResult (fun _ => rfl) (fun _ => rfl) fun l => by simp
  · exact Completes.of_predResult (fun _ => rfl) (fun _ => rfl) fun l => rfl

/-! ### Special registers -/

/-- A reading of device time lies within 2 ns of it (R359). -/
theorem State.reading_near (s : State) : s.reading ≤ s.time ∧ s.time ≤ s.reading + 2 := by
  have h : s.time ≤ timeReading s.time + 2 := by
    have hskew := Nat.mod_lt (Config.timeSkew (s.time - 0)) (by decide : 0 < 3)
    simp only [timeReading, List.range, List.range.loop, List.map_cons, List.map_nil, List.foldl_cons, List.foldl_nil]
    omega
  unfold State.reading
  omega

theorem getsResult (x : GetsArg) : Completes (.gets x) fun l u => Puts l.t u x.w x.d (extW x.w (l.sreg x.sr)) 0 :=
  Completes.of_result (fun _ => rfl) (fun _ => rfl) fun l => extW_extW x.w (l.sreg x.sr)

/-- Settles O5: GETS places what `Lane.sreg` gives of each register, SETS writes the one it names. -/
theorem specialRegisterResults : Obligations.SpecialRegisterResults := by
  refine ⟨fun x => (getsResult x).mono fun l u h => ⟨_, h, ?_⟩, fun x => ?_⟩
  · cases hsr : x.sr
    case lane | plane | tsize | tcret | fflags | lk | tags | core | grove | cycle => rfl
    case team | argp =>
      intro m hm
      simp [Lane.sreg, hm]
    case grid | depth =>
      intro m g hm hg
      simp [Lane.sreg, State.gridOf, hm, hg]
    case status => cases h : l.t.step <;> simp [Lane.sreg, Thread.status, b2n, h]
    case time =>
      obtain ⟨h1, h2⟩ := l.s.reading_near
      exact ⟨l.s.reading, rfl, by omega, h2⟩
  · refine Completes.of_regFx _ _ _ _ (fun _ => rfl) (fun _ => rfl) (fun l t => ?_) fun l => ?_
    · unfold sets1
      split <;> rfl
    · unfold sets1
      cases x.sr <;> exact ⟨rfl, rfl⟩

end Sys2Proof.Machine
end

section
/-!
Exact sums and products, and rounding of a value that a format holds (01 R34, 05 R113, R124).
-/

namespace Sys2Proof.Machine

/-! ### Exact operations -/

/-- A whole number of units, as the model writes it. -/
theorem FV.val_ofInt (v q : Int) : (FV.fin (decide (v < 0)) v.natAbs q).val = v * (2 : ℚ) ^ q := by
  rw [FV.val_fin]
  by_cases h : v < 0
  · rw [if_pos (by simpa using h), Nat.cast_natAbs, abs_of_neg h]
    push_cast
    ring
  · rw [if_neg (by simpa using h), Nat.cast_natAbs, abs_of_nonneg (not_lt.1 h)]

@[simp] theorem FV.val_zero (s : Bool) (e : Int) : (FV.fin s 0 e).val = 0 := by
  simp [FV.val]

theorem addFin_exact (rm : Rm) (s : Bool) (m : Nat) (e : Int) (t : Bool) (n : Nat) (g : Int) :
    (addFin rm s m e t n g).finite ∧ (addFin rm s m e t n g).val = (FV.fin s m e).val + (FV.fin t n g).val := by
  rw [FV.val_fin_eq_units s m (min_le_left e g), FV.val_fin_eq_units t n (min_le_right e g), ← add_mul, ← Int.cast_add]
  unfold addFin
  dsimp only
  generalize (if s = true then -((m * 2 ^ (e - min e g).toNat : Nat) : Int) else (m * 2 ^ (e - min e g).toNat : Nat)) +
    (if t = true then -((n * 2 ^ (g - min e g).toNat : Nat) : Int) else (n * 2 ^ (g - min e g).toNat : Nat)) = v
  split
  · next h => exact ⟨rfl, by simp [h]⟩
  · exact ⟨rfl, FV.val_ofInt v _⟩

theorem fadd_exact (rm : Rm) {a b : FV} (ha : a.finite) (hb : b.finite) :
    (fadd rm a b).1.finite ∧ (fadd rm a b).1.val = a.val + b.val ∧ (fadd rm a b).2 = 0 := by
  obtain ⟨s, m, e⟩ | _ | _ := a <;> cases ha
  obtain ⟨t, n, g⟩ | _ | _ := b <;> cases hb
  unfold fadd
  dsimp only
  split
  · next h =>
    obtain ⟨rfl, -⟩ : m = 0 ∧ n ≠ 0 := by simpa using h
    exact ⟨rfl, by simp, rfl⟩
  · split
    · next h =>
      obtain ⟨rfl, -⟩ : n = 0 ∧ m ≠ 0 := by simpa using h
      exact ⟨rfl, by simp, rfl⟩
    · obtain ⟨h1, h2⟩ := addFin_exact rm s m e t n g
      exact ⟨h1, h2, rfl⟩

theorem fmul_exact {a b : FV} (ha : a.finite) (hb : b.finite) :
    (fmul a b).1.finite ∧ (fmul a b).1.val = a.val * b.val ∧ (fmul a b).2 = 0 := by
  obtain ⟨s, m, e⟩ | _ | _ := a <;> cases ha
  obtain ⟨t, n, g⟩ | _ | _ := b <;> cases hb
  refine ⟨rfl, ?_, rfl⟩
  simp only [fmul, FV.val_fin, Nat.cast_mul, zpow_add₀ (two_ne_zero (α := ℚ))]
  cases s <;> cases t <;> simp <;> ring

/-! ### The value of an encoding -/

/-- The significand and the exponent of a magnitude in a format. -/
def FFmt.sig (f : FFmt) (k : Nat) : Nat := if k / 2 ^ f.mw = 0 then k % 2 ^ f.mw else 2 ^ f.mw + k % 2 ^ f.mw

def FFmt.exp (f : FFmt) (k : Nat) : Int := (max (k / 2 ^ f.mw) 1 : Nat) - f.bias - f.mw

/-- The magnitude bits of an encoding, and its sign. -/
def FFmt.magBits (f : FFmt) (b : Nat) : Nat := b % 2 ^ (f.ew + f.mw)

def FFmt.negative (f : FFmt) (b : Nat) : Bool := b / 2 ^ (f.ew + f.mw) % 2 == 1

theorem V_eq (f : FFmt) (b : Nat) : V f b =
    if f.ieee && f.magBits b == f.infEnc then .inf (f.negative b)
    else if (f.ieee && decide (f.infEnc < f.magBits b)) || (f == .e4m3 && f.magBits b == 0x7F) then .nan
    else if f.magBits b / 2 ^ f.mw = 0 then .fin (f.negative b) (f.magBits b % 2 ^ f.mw) (1 - f.bias - f.mw)
    else .fin (f.negative b) (2 ^ f.mw + f.magBits b % 2 ^ f.mw) ((f.magBits b / 2 ^ f.mw : Nat) - f.bias - f.mw) := rfl

/-- An encoding with a finite value: its magnitude is no greater than the largest, and gives the value. -/
theorem V_of_finite {f : FFmt} {b : Nat} (h : (V f b).finite) :
    V f b = .fin (f.negative b) (f.sig (f.magBits b)) (f.exp (f.magBits b)) ∧ f.magBits b ≤ f.maxEnc := by
  have hlt : f.magBits b < 2 ^ (f.ew + f.mw) := Nat.mod_lt _ (by positivity)
  rw [V_eq] at h ⊢
  generalize f.magBits b = k at *
  split at h
  · cases h
  · next hinf =>
    split at h
    · cases h
    · next hnan =>
      rw [if_neg hinf, if_neg hnan]
      refine ⟨?_, ?_⟩
      · unfold FFmt.sig FFmt.exp
        split
        · next h0 => rw [h0]; rfl
        · next h0 => rw [max_eq_left (Nat.one_le_iff_ne_zero.2 h0)]
      · simp only [Bool.or_eq_true, Bool.and_eq_true, decide_eq_true_eq, beq_iff_eq, not_or, not_and, not_lt] at hinf hnan
        cases f <;> simp [FFmt.ieee, FFmt.infEnc, FFmt.maxEnc, FFmt.ew, FFmt.mw] at hinf hnan hlt ⊢ <;> omega

/-- The magnitude is made up of its significand and exponent. -/
theorem FFmt.encode_sig (f : FFmt) (k : Nat) :
    (f.exp k - (1 - f.bias - f.mw)).toNat * 2 ^ f.mw + f.sig k = k := by
  have hk := Nat.div_add_mod k (2 ^ f.mw)
  have he : (f.exp k - (1 - f.bias - f.mw)).toNat = k / 2 ^ f.mw - 1 := by
    unfold FFmt.exp
    omega
  rw [he, FFmt.sig]
  split
  · next h => rw [h] at hk ⊢; omega
  · next h =>
    obtain ⟨d, hd⟩ := Nat.exists_eq_succ_of_ne_zero h
    rw [hd] at hk ⊢
    rw [← hk]
    simp
    ring

/-- The quantum of rounding a value that the format holds is the value's own exponent. -/
theorem FFmt.quantum_sig (f : FFmt) {k : Nat} (hk : f.sig k ≠ 0) :
    max (f.exp k + bitLen (f.sig k) - 1 - f.mw) (1 - f.bias - f.mw) = f.exp k := by
  have hmod : k % 2 ^ f.mw < 2 ^ f.mw := Nat.mod_lt _ (by positivity)
  have hle : bitLen (f.sig k) ≤ f.mw + 1 := by
    by_contra hcon
    have h1 := two_pow_bitLen_le hk
    have h2 : 2 ^ (f.mw + 1) ≤ 2 ^ (bitLen (f.sig k) - 1) := Nat.pow_le_pow_right (by decide) (by omega)
    have h3 : f.sig k < 2 ^ (f.mw + 1) := by
      rw [pow_succ]
      unfold FFmt.sig
      split <;> omega
    omega
  by_cases h0 : k / 2 ^ f.mw = 0
  · have he : f.exp k = 1 - f.bias - f.mw := by
      simp [FFmt.exp, h0]
    omega
  · have hlen : f.mw + 1 ≤ bitLen (f.sig k) := by
      by_contra hcon
      have h1 := lt_two_pow_bitLen (f.sig k)
      have h2 : 2 ^ bitLen (f.sig k) ≤ 2 ^ f.mw := Nat.pow_le_pow_right (by decide) (by omega)
      have h3 : 2 ^ f.mw ≤ f.sig k := by rw [FFmt.sig, if_neg h0]; omega
      omega
    have he : 1 - f.bias - f.mw ≤ f.exp k := by
      unfold FFmt.exp
      omega
    omega

theorem FFmt.signed_bits (f : FFmt) {b : Nat} (hb : b < 2 ^ f.width) : signed f (f.negative b) (f.magBits b) = b := by
  have hdm := Nat.div_add_mod b (2 ^ (f.ew + f.mw))
  have hlt : b / 2 ^ (f.ew + f.mw) < 2 := by
    rw [Nat.div_lt_iff_lt_mul (by positivity)]
    calc b < 2 ^ f.width := hb
      _ = 2 * 2 ^ (f.ew + f.mw) := by rw [FFmt.width, show 1 + f.ew + f.mw = f.ew + f.mw + 1 by ring, pow_succ]; ring
  unfold signed FFmt.negative FFmt.magBits
  rcases Nat.le_one_iff_eq_zero_or_eq_one.1 (Nat.lt_succ_iff.1 hlt) with h | h <;> rw [h] at hdm ⊢
  · simpa using hdm
  · simpa using hdm

/-- Rounding an encoding's own finite value gives the encoding back and sets no flag. -/
theorem round_V (f : FFmt) (rm : Rm) {b : Nat} (hb : b < 2 ^ f.width) (h : (V f b).finite) : Machine.round f rm false (V f b) = (b, 0) := by
  obtain ⟨hV, hmax⟩ := V_of_finite h
  rw [hV]
  by_cases h0 : f.sig (f.magBits b) = 0
  · have hmag : f.magBits b = 0 := by
      unfold FFmt.sig at h0
      split at h0
      · next hd => rw [← Nat.div_add_mod (f.magBits b) (2 ^ f.mw), hd, h0, Nat.mul_zero]
      · have : 0 < 2 ^ f.mw := by positivity
        omega
    have := f.signed_bits hb
    rw [hmag] at this
    simp only [Machine.round, if_pos h0, this]
  · simp only [Machine.round, if_neg h0, f.quantum_sig h0]
    simp only [roundAt, if_pos le_rfl, sub_self, Int.toNat_zero, pow_zero, mul_one, f.encode_sig, if_neg hmax.not_gt, f.signed_bits hb,
      Bool.false_and, flIf, Bool.false_eq_true, if_false, BitVec.or_self]

/-- Settles O7: the model computes on significands and exponents, of which an encoding's magnitude is made up. -/
theorem exactArithmetic : Obligations.ExactArithmetic := by
  refine ⟨fun rm a b ha hb => ?_, fun f rm b hb h => round_V f rm hb h⟩
  obtain ⟨h1, h2, h3⟩ := fadd_exact rm ha hb
  exact ⟨h1, h2, h3, fmul_exact ha hb⟩

end Sys2Proof.Machine
end

section
/-!
Rounding to nearest (01 R34).
-/

namespace Sys2Proof.Machine

/-- The kept part and the dropped part of a significand. -/
theorem cut_eq (m k : Nat) : cut m k = (m / 2 ^ k, if m % 2 ^ k = 0 then .exact else if m % 2 ^ k < 2 ^ (k - 1) then .below
    else if m % 2 ^ k = 2 ^ (k - 1) then .half else .above) := by
  unfold cut
  split
  · next h => simp [h, Nat.mod_one]
  · split
    · next h =>
      have hlt : m < 2 ^ (k - 1) := (lt_two_pow_bitLen m).trans_le (Nat.pow_le_pow_right (by decide) (by omega))
      have hlt' : m < 2 ^ k := hlt.trans_le (Nat.pow_le_pow_right (by decide) (by omega))
      rw [Nat.div_eq_of_lt hlt', Nat.mod_eq_of_lt hlt', if_pos hlt]
    · rfl

/-- To nearest: the whole number of quanta below the value or above it, whichever is no more than half a quantum away. -/
theorem roundAt_rne (neg : Bool) (m : Nat) (e q : Int) :
    ∃ N : Nat, N * (2 : ℚ) ^ q ≤ m * 2 ^ e ∧ m * (2 : ℚ) ^ e < (N + 1) * 2 ^ q ∧
      ((roundAt .rne neg m e q).1 = N ∧ 2 * (m * (2 : ℚ) ^ e - N * 2 ^ q) ≤ 2 ^ q
        ∨ (roundAt .rne neg m e q).1 = N + 1 ∧ 2 ^ q ≤ 2 * (m * (2 : ℚ) ^ e - N * 2 ^ q)) := by
  by_cases h : q ≤ e
  · obtain ⟨d, hd⟩ := Int.eq_ofNat_of_zero_le (sub_nonneg.2 h)
    have hval : (m : ℚ) * 2 ^ e = (m * 2 ^ d : Nat) * 2 ^ q := by
      rw [show e = d + q by omega, zpow_add₀ two_ne_zero]
      push_cast
      rw [zpow_natCast, mul_assoc]
    have hq : (0 : ℚ) < 2 ^ q := by positivity
    refine ⟨m * 2 ^ d, hval.ge, by rw [hval]; linarith, .inl ⟨by simp [roundAt, h, hd], by rw [hval]; linarith⟩⟩
  · obtain ⟨d, hd⟩ := Int.eq_ofNat_of_zero_le (show 0 ≤ q - e by omega)
    have hd0 : d ≠ 0 := by rintro rfl; omega
    have hunit : (2 : ℚ) ^ q = (2 ^ d : Nat) * 2 ^ e := by
      rw [show q = d + e by omega, zpow_add₀ two_ne_zero, zpow_natCast]
      norm_num
    have hpos : (0 : ℚ) < 2 ^ e := by positivity
    have hhalf : 2 ^ d = 2 * 2 ^ (d - 1) := by
      rw [← pow_succ', Nat.sub_add_cancel (Nat.one_le_iff_ne_zero.2 hd0)]
    have hr : m % 2 ^ d < 2 ^ d := Nat.mod_lt _ (by positivity)
    have hm : (m : ℚ) = (m / 2 ^ d : Nat) * (2 ^ d : Nat) + (m % 2 ^ d : Nat) := by
      exact_mod_cast (Nat.div_add_mod' m (2 ^ d)).symm
    have hrest : (m : ℚ) * 2 ^ e - (m / 2 ^ d : Nat) * 2 ^ q = (m % 2 ^ d : Nat) * 2 ^ e := by
      rw [hunit, hm]
      push_cast
      ring
    have hround : (roundAt .rne neg m e q).1 = if roundUp .rne neg (cut m d).1 (cut m d).2 then (cut m d).1 + 1 else (cut m d).1 := by
      rw [roundAt, if_neg h, hd, Int.toNat_natCast]
    refine ⟨m / 2 ^ d, ?_, ?_, ?_⟩
    · have : (0 : ℚ) ≤ (m % 2 ^ d : Nat) * 2 ^ e := by positivity
      linarith
    · have : ((m % 2 ^ d : Nat) : ℚ) * 2 ^ e < (2 ^ d : Nat) * 2 ^ e := by
        gcongr
      linarith
    · rw [hround, hrest, cut_eq, hunit]
      by_cases hup : roundUp .rne neg (m / 2 ^ d) (cut m d).2
      · right
        rw [cut_eq] at hup
        rw [if_pos hup]
        have : 2 ^ d ≤ 2 * (m % 2 ^ d) := by
          by_contra hc
          have h1 : m % 2 ^ d < 2 ^ (d - 1) := by omega
          rw [if_pos h1] at hup
          split at hup <;> simp [roundUp] at hup
        refine ⟨rfl, ?_⟩
        rw [← mul_assoc]
        gcongr
        exact_mod_cast this
      · left
        rw [cut_eq] at hup
        rw [if_neg hup]
        have : 2 * (m % 2 ^ d) ≤ 2 ^ d := by
          by_contra hc
          rw [if_neg (by omega), if_neg (by omega), if_neg (by omega)] at hup
          simp [roundUp] at hup
        refine ⟨rfl, ?_⟩
        rw [← mul_assoc]
        gcongr
        exact_mod_cast this

/-- The magnitude above the one of `magVal_bounds` is one quantum greater. -/
theorem magVal_step {N : Nat} {q : Int} {X : ℚ} (hq : -149 ≤ q) (hX : X < 2 ^ (24 + q)) (hnorm : q = -149 ∨ 2 ^ (23 + q) ≤ X)
    (hl : N * 2 ^ q ≤ X) (hu : X < (N + 1) * 2 ^ q) :
    magVal ((q + 149).toNat * 2 ^ 23 + N + 1) = (N + 1) * 2 ^ q := by
  have hpos : (0 : ℚ) < 2 ^ q := by positivity
  rw [zpow_add₀ two_ne_zero] at hX hnorm
  have hN : N < 2 ^ 24 := by exact_mod_cast lt_of_mul_lt_mul_right (hl.trans_lt hX) hpos.le
  have hN' : q = -149 ∨ 2 ^ 23 ≤ N := hnorm.imp_right fun h =>
    Nat.le_of_lt_succ (by exact_mod_cast lt_of_mul_lt_mul_right (h.trans_lt hu) hpos.le)
  obtain ⟨hv, -⟩ := magVal_bounds hq (by rwa [zpow_add₀ two_ne_zero]) (by rwa [zpow_add₀ two_ne_zero]) hl hu
  obtain ⟨-, he⟩ := magVal_encode hq hN hN'
  rw [magVal_succ, hv, he]
  ring

/-- Rounding to nearest, where it does not overflow: a sign and the magnitude nearest to the value. -/
theorem round_f32_nearest (neg : Bool) {m : Nat} (e : Int) (hm : m ≠ 0)
    (hover : (Machine.round .f32 .rne false (.fin neg m e)).2 &&& ovf = 0) :
    ∃ c < 0x7F800000, (Machine.round .f32 .rne false (.fin neg m e)).1 = signed .f32 neg c
      ∧ ∀ j, |magVal c - m * 2 ^ e| ≤ |magVal j - m * 2 ^ e| := by
  obtain ⟨hq, hlt, hnorm⟩ := f32Quantum_spec hm e
  have hfst := round_f32_fst .rne neg e hm _ rfl
  have hsnd : ¬ 0x7F7FFFFF < (f32Quantum m e + 149).toNat * 2 ^ 23 + (roundAt .rne neg m e (f32Quantum m e)).1 := by
    intro hc
    have hmin : (1 : Int) - FFmt.f32.bias - FFmt.f32.mw = -149 := rfl
    have hq : max (e + bitLen m - 1 - FFmt.f32.mw) (-149) = f32Quantum m e := rfl
    have hc' : FFmt.f32.maxEnc < (f32Quantum m e + 149).toNat * 2 ^ FFmt.f32.mw + (roundAt .rne neg m e (f32Quantum m e)).1 := hc
    simp only [Machine.round, if_neg hm, hmin, hq, sub_neg_eq_add, if_pos hc'] at hover
    exact absurd hover (by decide)
  rw [if_neg hsnd] at hfst
  refine ⟨_, by omega, hfst, ?_⟩
  set q := f32Quantum m e
  obtain ⟨N, hl, hu, hn⟩ := roundAt_rne neg m e q
  obtain ⟨hv, hnext⟩ := magVal_bounds hq hlt hnorm hl hu
  have hstep := magVal_step hq hlt hnorm hl hu
  set k := (q + 149).toNat * 2 ^ 23 + N with hk
  have below {j : Nat} (hj : j ≤ k) : magVal j ≤ N * 2 ^ q := hv ▸ magVal_le_magVal.2 hj
  have above {j : Nat} (hj : k + 1 ≤ j) : (N + 1) * 2 ^ q ≤ magVal j := hstep ▸ magVal_le_magVal.2 hj
  intro j
  rcases hn with ⟨hn, hd⟩ | ⟨hn, hd⟩
  · rw [hn, ← hk, hv, abs_of_nonpos (by linarith)]
    rcases Nat.lt_or_ge k j with hj | hj
    · rw [abs_of_nonneg (by linarith [above hj])]
      linarith [above hj]
    · rw [abs_of_nonpos (by linarith [below hj])]
      linarith [below hj]
  · rw [hn, ← add_assoc, ← hk, hstep, abs_of_nonneg (by linarith)]
    rcases Nat.lt_or_ge k j with hj | hj
    · rw [abs_of_nonneg (by linarith [above hj])]
      linarith [above hj]
    · rw [abs_of_nonpos (by linarith [below hj])]
      linarith [below hj]

theorem signed_f32_mod (neg : Bool) {c : Nat} (hc : c < 2 ^ 31) :
    signed .f32 neg c % 2 ^ 31 = c ∧ (signed .f32 neg c).testBit 31 = neg := by
  have hs : signed .f32 neg c = 2 ^ 31 * neg.toNat + c := by
    cases neg <;> simp [signed, FFmt.ew, FFmt.mw]
  rw [hs]
  refine ⟨by rw [Nat.mul_add_mod, Nat.mod_eq_of_lt hc], ?_⟩
  rw [Nat.testBit_two_pow_mul_add _ hc]
  cases neg <;> rfl

/-- The value of a sign and a magnitude. -/
theorem V_f32_signed_val (neg : Bool) {c : Nat} (hc : c < 0x7F800000) :
    (V .f32 (signed .f32 neg c)).val = if neg then -magVal c else magVal c := by
  obtain ⟨h1, h2⟩ := signed_f32_mod neg (c := c) (by omega)
  rw [V_f32_val (h1.symm ▸ hc), h1, h2]

theorem V_f32_finite_mag {b : Nat} (h : (V .f32 b).finite) : b % 2 ^ 31 < 0x7F800000 := by
  by_contra hc
  rcases (Nat.not_lt.1 hc).eq_or_lt with heq | hlt
  · rw [V_f32_inf heq.symm] at h
    cases h
  · rw [V_f32_nan hlt] at h
    cases h

/-- Settles O8: the nearest magnitude with the value's own sign is nearer than any with the other. -/
theorem roundToNearest : Obligations.RoundToNearest := by
  rintro (⟨neg, m, e⟩ | _ | _) b hx hover hb hfin <;> cases hx
  have hmag := V_f32_finite_mag hfin
  rw [V_f32_val hmag, FV.val_fin]
  generalize b % 2 ^ 31 = j at hmag
  by_cases hm : m = 0
  · subst hm
    have h0 : (Machine.round .f32 .rne false (.fin neg 0 e)).1 = signed .f32 neg 0 := by simp [Machine.round]
    rw [h0, V_f32_signed_val neg (by decide)]
    simp
  · obtain ⟨c, hc, hround, hnear⟩ := round_f32_nearest neg e hm hover
    rw [hround, V_f32_signed_val neg hc]
    have hX : (0 : ℚ) ≤ m * 2 ^ e := by positivity
    have hj := magVal_nonneg j
    have h0 := hnear 0
    rw [magVal_zero, zero_sub, abs_neg, abs_of_nonneg hX] at h0
    have hn := hnear j
    have hother : |magVal c - m * 2 ^ e| ≤ |-magVal j - m * 2 ^ e| := by
      rw [abs_of_nonpos (a := -magVal j - m * 2 ^ e) (by linarith)]
      linarith
    have habs (x y : ℚ) : |-x - -y| = |x - y| := by rw [← abs_neg]; ring_nf
    have habs' (x y : ℚ) : |x - -y| = |-x - y| := by rw [← abs_neg]; ring_nf
    cases neg <;> cases b.testBit 31 <;> simp only [if_true, if_false, Bool.false_eq_true, habs, habs']
    exacts [hn, hother, hother, hn]

end Sys2Proof.Machine
end

section
/-!
The scalar float words of R124: one rounding of the exact result.
-/

namespace Sys2Proof.Machine

@[simp] theorem readFls_three (A B C : Word) : readFls [A, B, C] = flIf (snanWord A || snanWord B || snanWord C) nv := by
  cases hA : snanWord A <;> cases hB : snanWord B <;> cases hC : snanWord C <;> simp [readFls, flIf, hA, hB, hC]

/-! ### FSCALE beyond the exponents that matter -/

/-- The bits of rounding a magnitude so small that only its lowest subnormal bit is left to round. -/
def underF32 (rm : Rm) (neg : Bool) : Nat × Fl := (signed .f32 neg (if roundUp rm neg 0 .below then 1 else 0), nx ||| unf)

/-- Rounding far below the least subnormal does not depend on the exponent. -/
theorem round_f32_under (rm : Rm) (neg : Bool) {m : Nat} {e : Int} (hm : m ≠ 0) (he : e + bitLen m < -151) :
    Machine.round .f32 rm false (.fin neg m e) = underF32 rm neg := by
  have hlen := bitLen_pos hm
  have hmin : (1 : Int) - FFmt.f32.bias - FFmt.f32.mw = -149 := rfl
  have hq : max (e + bitLen m - 1 - FFmt.f32.mw) (-149) = -149 := max_eq_right (by simp only [FFmt.mw]; omega)
  have hcut : cut m (-149 - e).toNat = (0, .below) := by
    rw [cut, if_neg (by omega), if_pos (by omega), if_neg hm]
  have hround : roundAt rm neg m e (-149) = (if roundUp rm neg 0 .below then 1 else 0, true) := by
    rw [roundAt, if_neg (by omega), hcut]
    rfl
  have htiny : e + bitLen m - 1 < 1 - (FFmt.f32.bias : Int) := by simp only [FFmt.bias]; omega
  have hnorm : ¬ e + bitLen m - 1 + 1 = 1 - (FFmt.f32.bias : Int) := by simp only [FFmt.bias]; omega
  have hmax : ¬ FFmt.f32.maxEnc < if roundUp rm neg 0 .below then 1 else 0 := by
    split <;> simp [FFmt.maxEnc]
  simp only [Machine.round, if_neg hm, hmin, hq, hround, sub_self, Int.toNat_zero, Nat.zero_mul, Nat.zero_add, if_neg hmax, htiny,
    hnorm, decide_true, decide_false, Bool.and_false, Bool.not_false, Bool.true_and]
  rfl

/-- The bits of an overflow. -/
def overF32 (rm : Rm) (neg : Bool) : Nat × Fl := (signed .f32 neg (overEnc .f32 rm neg 0x7F800000), ovf ||| nx)

/-- Rounding from 2^129 up does not depend on the exponent. -/
theorem round_f32_over (rm : Rm) (neg : Bool) {m : Nat} {e : Int} (hm : m ≠ 0) (he : 129 < e + bitLen m) :
    Machine.round .f32 rm false (.fin neg m e) = overF32 rm neg := by
  have hmin : (1 : Int) - FFmt.f32.bias - FFmt.f32.mw = -149 := rfl
  have hq : max (e + bitLen m - 1 - FFmt.f32.mw) (-149) = e + bitLen m - 24 := by
    simp only [FFmt.mw]
    omega
  have hmax (n : Nat) : FFmt.f32.maxEnc < (e + bitLen m - 24 - -149).toNat * 2 ^ FFmt.f32.mw + n := by
    simp only [FFmt.maxEnc, FFmt.mw]
    omega
  simp only [Machine.round, if_neg hm, hmin, hq, if_pos (hmax _)]
  rfl

/-- A scaling beyond 1024 either way no longer changes the result. -/
theorem round_f32_clamped (rm : Rm) (neg : Bool) {m : Nat} {e : Int} (hm : m ≠ 0) (hlt : m < 2 ^ 24) (he : -149 ≤ e) (he' : e ≤ 104)
    (k : Int) : Machine.round .f32 rm false (.fin neg m (e + max (-1024) (min 1024 k)))
      = Machine.round .f32 rm false (.fin neg m (e + k)) := by
  have hpos := bitLen_pos hm
  have hlen : bitLen m ≤ 24 := by
    by_contra hc
    have h1 := two_pow_bitLen_le hm
    have h2 : 2 ^ 24 ≤ 2 ^ (bitLen m - 1) := Nat.pow_le_pow_right (by decide) (by omega)
    omega
  rcases lt_or_ge k (-1024) with h | h
  · rw [round_f32_under rm neg hm (by omega), round_f32_under rm neg hm (by omega)]
  · rcases lt_or_ge 1024 k with h' | h'
    · rw [round_f32_over rm neg hm (by omega), round_f32_over rm neg hm (by omega)]
    · rw [min_eq_right h', max_eq_right h]

theorem f32Exp_le {k : Nat} (h : k < 0x7F800000) : f32Exp k ≤ 104 := by
  unfold f32Exp
  split <;> omega

theorem mag_lt_of_finite {A : Word} (h : (v32 A).finite) : mag A < 0x7F800000 := V_f32_finite_mag h

/-- FSCALE by the bits of its operands. -/
theorem fscaleOf_spec (rm : Rm) (A : Word) (b : Word) :
    (nanWord A → fscaleOf rm A b = (0x7FC00000, flIf (snanWord A) nv))
    ∧ (mag A = 0 ∨ mag A = 0x7F800000 → fscaleOf rm A b = (A, 0))
    ∧ ∀ s m e, v32 A = .fin s m e → m ≠ 0 → fscaleOf rm A b = roundF32 rm (.fin s m (e + b.toInt)) := by
  refine ⟨fun h => ?_, fun h => ?_, fun s m e h hm => ?_⟩
  · simp [fscaleOf, v32_nan h, nan32]
  · rcases h with h | h
    · rw [fscaleOf, v32_fin (by omega)]
      simp [f32Sig_eq_zero.2 h]
    · simp [fscaleOf, v32_inf h]
  · have hmag : mag A < 0x7F800000 := by
      by_contra hc
      rcases (Nat.not_lt.1 hc).eq_or_lt with heq | hlt
      · rw [v32_inf heq.symm] at h
        cases h
      · rw [v32_nan (nanWord_iff.2 hlt)] at h
        cases h
    have hv := v32_fin hmag
    rw [h, FV.fin.injEq] at hv
    obtain ⟨-, rfl, rfl⟩ := hv
    rw [fscaleOf, h]
    simp only [if_neg hm, roundF32, round_f32_clamped rm s hm (f32Sig_lt _) (f32Exp_ge _) (f32Exp_le hmag)]

theorem sOf_src (l : Lane) (x : Src) : sOf false (l.z 1 false x) = (l.src32 1 x).toInt := by
  have hlt := l.src_lt 1 false x
  have hnat : (l.src32 1 x).toNat = l.z 1 false x := by
    rw [Lane.src32, BitVec.toNat_setWidth]
    exact Nat.mod_eq_of_lt hlt
  rw [BitVec.toInt_eq_toNat_cond, hnat, sOf]
  simp only [wid, Bool.false_eq_true, if_false]
  split <;> split <;> omega

/-- A zero divisor under a finite dividend that is none: infinity and the flag (R124). -/
theorem fdiv_by_zero {A B : Word} (hB : mag B = 0) (hA : (v32 A).finite) (hA0 : mag A ≠ 0) :
    fdiv (v32 A) (v32 B) = (.inf (A.getLsbD 31 ^^ B.getLsbD 31), dz) := by
  rw [v32_fin (mag_lt_of_finite hA), v32_fin (by omega : mag B < 0x7F800000)]
  simp [fdiv, f32Sig_eq_zero.2 hB, f32Sig_eq_zero, hA0]

/-- Settles O6: the model rounds the exact result once; FSCALE's clamp of the exponent changes no result. -/
theorem floatArithmeticResults : Obligations.FloatArithmeticResults := by
  refine ⟨fun x => ?add, fun x => ?sub, fun x => ?mul, fun x => ?fma, fun x => ?div, fun x => ?scale⟩
  case add => exact Completes.of_fresult (fun _ => rfl) (fun _ => rfl) fun l u h => by simpa [faddOf, roundWith] using h
  case sub => exact Completes.of_fresult (fun _ => rfl) (fun _ => rfl) fun l u h => by simpa [fsubOf, roundWith] using h
  case mul => exact Completes.of_fresult (fun _ => rfl) (fun _ => rfl) fun l u h => by simpa [fmulOf, roundWith] using h
  case fma =>
    exact Completes.of_fresult (fun _ => rfl) (fun _ => rfl) fun l u h => by
      simpa [ffmaOf, roundWith, ffma, BitVec.or_assoc] using h
  case div =>
    refine Completes.of_fresult (fun _ => rfl) (fun _ => rfl) fun l u h => ⟨by simpa [fdivOf, roundWith] using h, fun hB hA hA0 => fdiv_by_zero hB hA hA0⟩
  case scale =>
    refine Completes.of_fresult (fun _ => rfl) (fun _ => rfl) fun l u h => ⟨_, _, h, ?_⟩
    obtain ⟨h1, h2, h3⟩ := fscaleOf_spec x.rm (l.srcF 0 x.a) (l.src32 1 x.b)
    refine ⟨fun hn => ?_, fun hz => ?_, fun s m e hv hm => ?_⟩
    · rw [h1 hn]
      exact ⟨rfl, rfl⟩
    · rw [h2 hz]
      exact ⟨rfl, rfl⟩
    · rw [h3 s m e hv hm, sOf_src]

end Sys2Proof.Machine
end

section
/-!
The packed half words, and accumulation as a fused multiply-add (05 R115, R120, R129, R130).
-/

namespace Sys2Proof.Machine

/-! ### Rounding by value -/

/-- Cutting one bit more of twice the significand. -/
theorem cut_shift (m k : Nat) (hk : k ≠ 0) (d : Nat) : cut (m * 2 ^ d) (k + d) = cut m k := by
  have hd : 0 < 2 ^ d := by positivity
  rw [cut_eq, cut_eq, Nat.pow_add, Nat.mul_div_mul_right _ _ hd, Nat.mul_mod_mul_right,
    show k + d - 1 = k - 1 + d by omega, Nat.pow_add]
  simp only [Nat.mul_lt_mul_right hd, Nat.mul_left_inj hd.ne', Nat.mul_eq_zero, hd.ne', or_false]

theorem cut_exact (m k d : Nat) (h : k ≤ d) : cut (m * 2 ^ d) k = (m * 2 ^ (d - k), .exact) := by
  have hpow : m * 2 ^ d = m * 2 ^ (d - k) * 2 ^ k := by rw [Nat.mul_assoc, ← Nat.pow_add, Nat.sub_add_cancel h]
  rw [cut_eq, hpow, Nat.mul_div_cancel _ (by positivity), Nat.mul_mod_left, if_pos rfl]

theorem roundAt_shift (rm : Rm) (neg : Bool) (m d : Nat) (e q : Int) :
    roundAt rm neg (m * 2 ^ d) (e - d) q = roundAt rm neg m e q := by
  unfold roundAt
  rcases lt_or_ge e q with h | h
  · rw [if_neg (by omega), if_neg (by omega), show (q - (e - d)).toNat = (q - e).toNat + d by omega, cut_shift _ _ (by omega)]
  · rw [if_pos h]
    split
    · rw [Nat.mul_assoc, ← Nat.pow_add, show d + (e - d - q).toNat = (e - q).toNat by omega]
    · rw [cut_exact _ _ _ (by omega), show d - (q - (e - d)).toNat = (e - q).toNat by omega]
      rfl

theorem bitLen_shift {m : Nat} (hm : m ≠ 0) (d : Nat) : bitLen (m * 2 ^ d) = bitLen m + d := by
  have h : m * 2 ^ d ≠ 0 := Nat.mul_ne_zero hm (by positivity)
  rw [bitLen, bitLen, if_neg hm, if_neg h, Nat.log2_eq_log_two, Nat.log2_eq_log_two]
  clear h
  induction d with
  | zero => simp
  | succ d ih =>
    rw [pow_succ, ← mul_assoc, Nat.log_mul_base (by decide) (Nat.mul_ne_zero hm (by positivity))]
    omega

/-- Rounding does not see how a value is written. -/
theorem round_shift (f : FFmt) (rm : Rm) (sat neg : Bool) (m d : Nat) (e : Int) :
    Machine.round f rm sat (.fin neg (m * 2 ^ d) (e - d)) = Machine.round f rm sat (.fin neg m e) := by
  by_cases hm : m = 0
  · subst hm
    simp [Machine.round]
  · have h : m * 2 ^ d ≠ 0 := Nat.mul_ne_zero hm (by positivity)
    have htop : e - d + bitLen (m * 2 ^ d) - 1 = e + bitLen m - 1 := by
      rw [bitLen_shift hm]
      push_cast
      omega
    simp only [Machine.round, if_neg hm, if_neg h, htop, roundAt_shift]

/-- Two ways to write a value differ by a power of two. -/
theorem FV.same_fin_iff {s t : Bool} {m n : Nat} {e g : Int} (hge : e ≤ g) :
    (FV.fin s m e).same (.fin t n g) ↔ s = t ∧ m = n * 2 ^ (g - e).toNat := by
  refine and_congr_right fun hst => ?_
  subst hst
  have hval : (FV.fin s n g).val = (FV.fin s (n * 2 ^ (g - e).toNat) e).val := by
    rw [FV.val_fin_eq_units s n hge, FV.val_fin_eq_units s _ le_rfl]
    simp
  have hpos : (2 : ℚ) ^ e ≠ 0 := by positivity
  rw [hval, FV.val_fin, FV.val_fin]
  cases s <;> simp [hpos] <;> norm_cast

theorem FV.same_symm {x y : FV} (h : x.same y) : y.same x :=
  match x, y, h with
  | .fin .., .fin .., h => ⟨h.1.symm, h.2.symm⟩
  | .inf _, .inf _, h => Eq.symm h
  | .nan, .nan, h => h

/-- Values that are one value round to the same bits and flags. -/
theorem round_same (f : FFmt) (rm : Rm) (sat : Bool) {x y : FV} (h : x.same y) : Machine.round f rm sat x = Machine.round f rm sat y := by
  have hfin {s t : Bool} {m n : Nat} {e g : Int} (h : (FV.fin s m e).same (.fin t n g)) (hge : e ≤ g) :
      Machine.round f rm sat (.fin s m e) = Machine.round f rm sat (.fin t n g) := by
    obtain ⟨rfl, rfl⟩ := (FV.same_fin_iff hge).1 h
    rw [← round_shift f rm sat s n (g - e).toNat g, show g - ((g - e).toNat : Int) = e by omega]
  match x, y, h with
  | .fin s m e, .fin t n g, h =>
    rcases le_total e g with hge | hge
    · exact hfin h hge
    · exact (hfin (FV.same_symm h) hge).symm
  | .inf s, .inf t, h => rw [show s = t from h]
  | .nan, .nan, _ => rfl

/-! ### Sums and products of values that are one value -/

theorem FV.val_eq_zero {s : Bool} {m : Nat} {e : Int} : (FV.fin s m e).val = 0 ↔ m = 0 := by
  have hpos : (2 : ℚ) ^ e ≠ 0 := by positivity
  rw [FV.val_fin]
  cases s <;> simp [hpos]

theorem fmul_same {a b x y : FV} (hx : a.same x) (hy : b.same y) : (fmul a b).1.same (fmul x y).1 :=
  match a, x, hx, b, y, hy with
  | .nan, .nan, _, _, _, _ => trivial
  | .fin .., .fin .., _, .nan, .nan, _ => trivial
  | .inf _, .inf _, _, .nan, .nan, _ => trivial
  | .inf s, .inf s', hs, .inf t, .inf t', ht => by
    obtain ⟨rfl⟩ : s = s' := hs
    obtain ⟨rfl⟩ : t = t' := ht
    rfl
  | .inf s, .inf s', hs, .fin t n g, .fin t' n' g', ⟨ht, hv⟩ => by
    obtain ⟨rfl⟩ : s = s' := hs
    subst ht
    have h0 : n = 0 ↔ n' = 0 := by rw [← FV.val_eq_zero (s := t) (e := g), hv, FV.val_eq_zero]
    by_cases h : n = 0
    · simp only [fmul, if_pos h, if_pos (h0.1 h)]
      trivial
    · simp only [fmul, if_neg h, if_neg (h0.not.1 h)]
      rfl
  | .fin s m e, .fin s' m' e', ⟨hs, hv⟩, .inf t, .inf t', ht => by
    obtain ⟨rfl⟩ : t = t' := ht
    subst hs
    have h0 : m = 0 ↔ m' = 0 := by rw [← FV.val_eq_zero (s := s) (e := e), hv, FV.val_eq_zero]
    by_cases h : m = 0
    · simp only [fmul, if_pos h, if_pos (h0.1 h)]
      trivial
    · simp only [fmul, if_neg h, if_neg (h0.not.1 h)]
      rfl
  | .fin s m e, .fin s' m' e', ⟨hs, hv⟩, .fin t n g, .fin t' n' g', ⟨ht, hw⟩ => by
    obtain ⟨-, h1, -⟩ := fmul_exact (a := .fin s m e) (b := .fin t n g) rfl rfl
    obtain ⟨-, h2, -⟩ := fmul_exact (a := .fin s' m' e') (b := .fin t' n' g') rfl rfl
    exact ⟨by rw [hs, ht], by rw [hv, hw, ← h2] at h1; exact h1⟩

/-- The sign of a sum (R114). -/
def sumSign (rm : Rm) (s t : Bool) (v : ℚ) : Bool := if v = 0 then (if s == t then s else rm == .rd) else decide (v < 0)

theorem sumSign_comm (rm : Rm) (s t : Bool) (v : ℚ) : sumSign rm s t v = sumSign rm t s v := by
  cases s <;> cases t <;> rfl

theorem FV.sign_eq {s : Bool} {m : Nat} {e : Int} (hm : m ≠ 0) : s = decide ((FV.fin s m e).val < 0) := by
  have hpos : (0 : ℚ) < m * 2 ^ e := by positivity
  rw [FV.val_fin]
  cases s <;> simp <;> linarith

theorem addFin_sign (rm : Rm) (s : Bool) (m : Nat) (e : Int) (t : Bool) (n : Nat) (g : Int) :
    ∃ M E, addFin rm s m e t n g = .fin (sumSign rm s t ((FV.fin s m e).val + (FV.fin t n g).val)) M E := by
  have hpos : (0 : ℚ) < 2 ^ min e g := by positivity
  rw [FV.val_fin_eq_units s m (min_le_left e g), FV.val_fin_eq_units t n (min_le_right e g), ← add_mul, ← Int.cast_add]
  unfold addFin
  dsimp only
  generalize (if s = true then -((m * 2 ^ (e - min e g).toNat : Nat) : Int) else (m * 2 ^ (e - min e g).toNat : Nat)) +
    (if t = true then -((n * 2 ^ (g - min e g).toNat : Nat) : Int) else (n * 2 ^ (g - min e g).toNat : Nat)) = v
  split
  · next h => exact ⟨0, 0, by simp [sumSign, h]⟩
  · next h =>
    refine ⟨v.natAbs, min e g, ?_⟩
    have hv : (v : ℚ) * 2 ^ min e g ≠ 0 := mul_ne_zero (by exact_mod_cast h) hpos.ne'
    have hneg : (v : ℚ) * 2 ^ min e g < 0 ↔ v < 0 := by
      rw [← not_le, ← not_le, mul_nonneg_iff_of_pos_right hpos, Int.cast_nonneg_iff]
    rw [sumSign, if_neg hv, decide_eq_decide.2 hneg]

theorem fadd_sign (rm : Rm) (s : Bool) (m : Nat) (e : Int) (t : Bool) (n : Nat) (g : Int) :
    ∃ M E, (fadd rm (.fin s m e) (.fin t n g)).1 = .fin (sumSign rm s t ((FV.fin s m e).val + (FV.fin t n g).val)) M E := by
  unfold fadd
  dsimp only
  split
  · next h =>
    obtain ⟨rfl, hn⟩ : m = 0 ∧ n ≠ 0 := by simpa using h
    refine ⟨n, g, ?_⟩
    rw [FV.val_zero, zero_add, sumSign, if_neg (FV.val_eq_zero.not.2 hn), ← FV.sign_eq hn]
  · split
    · next h =>
      obtain ⟨rfl, hm⟩ : n = 0 ∧ m ≠ 0 := by simpa using h
      refine ⟨m, e, ?_⟩
      rw [FV.val_zero, add_zero, sumSign, if_neg (FV.val_eq_zero.not.2 hm), ← FV.sign_eq hm]
    · exact addFin_sign rm s m e t n g

/-- A sum is one value whichever way it is written, and in either order. -/
theorem fadd_same (rm : Rm) {a b x y : FV} (hx : a.same x) (hy : b.same y) : (fadd rm a b).1.same (fadd rm y x).1 :=
  match a, x, hx, b, y, hy with
  | .nan, .nan, _, .nan, .nan, _ => trivial
  | .nan, .nan, _, .fin .., .fin .., _ => trivial
  | .nan, .nan, _, .inf _, .inf _, _ => trivial
  | .fin .., .fin .., _, .nan, .nan, _ => trivial
  | .inf _, .inf _, _, .nan, .nan, _ => trivial
  | .inf s, .inf s', hs, .inf t, .inf t', ht => by
    obtain ⟨rfl⟩ : s = s' := hs
    obtain ⟨rfl⟩ : t = t' := ht
    cases s <;> cases t <;> trivial
  | .inf s, .inf s', hs, .fin .., .fin .., _ => by
    obtain ⟨rfl⟩ : s = s' := hs
    rfl
  | .fin .., .fin .., _, .inf t, .inf t', ht => by
    obtain ⟨rfl⟩ : t = t' := ht
    rfl
  | .fin s m e, .fin s' m' e', ⟨hs, hv⟩, .fin t n g, .fin t' n' g', ⟨ht, hw⟩ => by
    obtain ⟨-, h1, -⟩ := fadd_exact rm (a := .fin s m e) (b := .fin t n g) rfl rfl
    obtain ⟨-, h2, -⟩ := fadd_exact rm (a := .fin t' n' g') (b := .fin s' m' e') rfl rfl
    obtain ⟨M, E, h3⟩ := fadd_sign rm s m e t n g
    obtain ⟨M', E', h4⟩ := fadd_sign rm t' n' g' s' m' e'
    rw [h3] at h1 ⊢
    rw [h4] at h2 ⊢
    refine ⟨?_, by rw [h1, h2, hv, hw, add_comm]⟩
    rw [hv, hw, hs, ht, sumSign_comm, add_comm]

/-- The value of an accumulated term is that of the product. -/
theorem accStep_fst (acc : Word) (fl : Fl) (fa fb : NFmt) (x y : Nat) :
    (accStep (acc, fl) fa fb x y (some 0)).1 = (roundF32 .rne (fadd .rne (v32 acc) (fmul (elemV fa x) (elemV fb y)).1).1).1 := by
  unfold accStep
  cases h : (fmul (elemV fa x) (elemV fb y)).1 <;> simp [h]

theorem accumulationIsFusedMultiplyAdd : Rules.AccumulationIsFusedMultiplyAdd := by
  intro acc a b fl fa fb x y hx hy
  have hself : (v32 acc).same (v32 acc) := by cases v32 acc <;> simp [FV.same]
  rw [accStep_fst, ffmaOf, roundWith, ffma, roundF32,
    round_same .f32 .rne false (fadd_same .rne hself (fmul_same (FV.same_symm hx) (FV.same_symm hy)))]
  rfl

/-! ### Packed halves -/

theorem signed_lt {f : FFmt} (neg : Bool) {k : Nat} (hk : k < 2 ^ (f.ew + f.mw)) : signed f neg k < 2 ^ f.width := by
  have h : 2 ^ f.width = 2 * 2 ^ (f.ew + f.mw) := by
    rw [FFmt.width, show 1 + f.ew + f.mw = f.ew + f.mw + 1 by ring, pow_succ, mul_comm]
  rw [h, signed]
  split <;> omega

theorem enc_lt (f : FFmt) : f.maxEnc < 2 ^ (f.ew + f.mw) ∧ f.infEnc < 2 ^ (f.ew + f.mw) ∧ f.nanEnc < 2 ^ (f.ew + f.mw) := by
  cases f <;> decide

theorem overEnc_cases (f : FFmt) (rm : Rm) (neg : Bool) (inf : Nat) : overEnc f rm neg inf = inf ∨ overEnc f rm neg inf = f.maxEnc := by
  cases rm <;> cases neg <;> simp [overEnc]

/-- The bits of a rounded value fit the format. -/
theorem round_lt (f : FFmt) (rm : Rm) (sat : Bool) (x : FV) : (Machine.round f rm sat x).1 < 2 ^ f.width := by
  obtain ⟨hmax, hinf, hnan⟩ := enc_lt f
  have hsat : (if sat then f.maxEnc else f.infEnc) < 2 ^ (f.ew + f.mw) := by split <;> assumption
  match x with
  | .nan => exact hnan.trans_le (Nat.pow_le_pow_right (by decide) (by rw [FFmt.width]; omega))
  | .inf neg => exact signed_lt neg hsat
  | .fin neg m e =>
    unfold Machine.round
    dsimp only
    split
    · exact signed_lt neg (by positivity)
    · split
      · refine signed_lt neg ?_
        rcases overEnc_cases f rm neg (if sat then f.maxEnc else f.infEnc) with h | h <;> rw [h] <;> assumption
      · next h => exact signed_lt neg ((not_lt.1 h).trans_lt hmax)

theorem flIf_or (a b : Bool) (f : Fl) : flIf (a || b) f = flIf a f ||| flIf b f := by
  cases a <;> cases b <;> simp [flIf]

/-- The two elements of a packed word, each operated on alone. -/
theorem packed2_eq (f : FFmt) (hf : f.width = 16) (rm : Rm) (op : FV → FV → FV → FV × Fl) (a b c : Word) :
    let el (w : Word) (e : Nat) : Nat := bits w (16 * e) 16
    let r (e : Nat) := op (V f (el a e)) (V f (el b e)) (V f (el c e))
    let v (e : Nat) := Machine.round f rm false (r e).1
    let nans (e : Nat) := isSnan f (el a e) || isSnan f (el b e) || isSnan f (el c e)
    ((packed2 f rm op a b c).1.setWidth 64, (packed2 f rm op a b c).2) = (BitVec.ofNat 64 ((v 0).1 + 2 ^ 16 * (v 1).1),
      (v 0).2 ||| (r 0).2 ||| flIf (nans 0) nv ||| ((v 1).2 ||| (r 1).2 ||| flIf (nans 1) nv)) := by
  intro el r v nans
  have h0 := round_lt f rm false (r 0).1
  have h1 := round_lt f rm false (r 1).1
  rw [hf] at h0 h1
  refine Prod.ext (BitVec.eq_of_toNat_eq ?_) ?_
  · change ((BitVec.ofNat 32 ((v 0).1 + 2 ^ 16 * (v 1).1)).setWidth 64).toNat = _
    rw [BitVec.toNat_setWidth, BitVec.toNat_ofNat, BitVec.toNat_ofNat]
    have h0' : (v 0).1 < 2 ^ 16 := h0
    have h1' : (v 1).1 < 2 ^ 16 := h1
    omega
  · have hone (e : Nat) : (v e).2 ||| (r e).2 ||| flIf (nans e) nv =
        (v e).2 ||| (r e).2 ||| readFl f (el a e) ||| readFl f (el b e) ||| readFl f (el c e) := by
      simp only [nans, flIf_or, ← BitVec.or_assoc]
      rfl
    rw [hone, hone]
    rfl

section
variable {i : Instr} {gd : Thread → Bool} {d : Dst} {f : Lane → FFmt} {rm : Rm} {A B C : Lane → Word} {op : FV → FV → FV → FV × Fl}

/-- A word that works on packed halves completes with the two results. -/
theorem Completes.of_packed2
    (hx : ∀ s, exec i s = s.issue i gd (regFx fun l t => t.fresult d (packed2 (f l) rm op (A l) (B l) (C l)))) (hg : ∀ t, gd t = i.on t)
    (hf : ∀ l, (f l).width = 16) : Completes i fun l u =>
      let el (w : Word) (e : Nat) : Nat := bits w (16 * e) 16
      let r (e : Nat) := op (V (f l) (el (A l) e)) (V (f l) (el (B l) e)) (V (f l) (el (C l) e))
      let v (e : Nat) := Machine.round (f l) rm false (r e).1
      let nans (e : Nat) := isSnan (f l) (el (A l) e) || isSnan (f l) (el (B l) e) || isSnan (f l) (el (C l) e)
      Puts l.t u false d (BitVec.ofNat 64 ((v 0).1 + 2 ^ 16 * (v 1).1))
        ((v 0).2 ||| (r 0).2 ||| flIf (nans 0) nv ||| ((v 1).2 ||| (r 1).2 ||| flIf (nans 1) nv)) := by
  refine Completes.of_fresult hx hg fun l u h => ?_
  obtain ⟨h1, h2⟩ := Prod.mk.inj (packed2_eq (f l) (hf l) rm op (A l) (B l) (C l))
  rw [h1, h2] at h
  exact h

end

theorem halfFmt_width (bf : Bool) : (halfFmt bf).width = 16 := by cases bf <;> rfl

theorem isSnan_zero (f : FFmt) : isSnan f 0 = false := by cases f <;> decide

theorem bits_zero (n lo len : Nat) : bits (0 : BitVec n) lo len = 0 := by simp [bits]

theorem packedHalfResults : Rules.PackedHalfResults := by
  refine ⟨fun x => ?_, fun x => ?_, fun x => ?_, fun x => ?_, fun x => ?_⟩
  · exact Completes.of_packed2 (fun _ => rfl) (fun _ => rfl) fun _ => rfl
  · exact Completes.of_packed2 (fun _ => rfl) (fun _ => rfl) fun _ => rfl
  · refine (Completes.of_packed2 (f := fun _ => halfFmt x.bf) (fun _ => rfl) (fun _ => rfl) fun _ => halfFmt_width x.bf).mono fun l u h => ?_
    simp only [bits_zero, isSnan_zero, Bool.or_false] at h
    exact h
  · refine (Completes.of_packed2 (f := fun _ => halfFmt x.bf) (fun _ => rfl) (fun _ => rfl) fun _ => halfFmt_width x.bf).mono fun l u h => ?_
    simp only [bits_zero, isSnan_zero, Bool.or_false] at h
    exact h
  · refine Completes.of_fresult (fun _ => rfl) (fun _ => rfl) fun l u h => ?_
    simp only [readFl_f32] at h
    exact h

/-- Settles O10: the halves are rounded one by one, and rounding does not see how a value is written. -/
theorem packedAndFusedResults : Obligations.PackedAndFusedResults := ⟨packedHalfResults, accumulationIsFusedMultiplyAdd⟩

end Sys2Proof.Machine
end

section
/-!
Words that fault on a lane of their own accord; the formats that slots accept (05 R119, R131 to R134).
-/

namespace Sys2Proof.Machine

/-- A word's part issues operations of its own lane alone. -/
def OpsOwn (f : Lane → LaneRes) : Prop := ∀ l fx, f l = .ok fx → ∀ x ∈ fx.ops, x.slot = l.slot

theorem OpsOwn.laneOut {f : Lane → LaneRes} (hf : OpsOwn f) (s : State) (i : Instr) (gd : Thread → Bool) (j b : Nat) (u : Thread) (fx : Fx)
    (h : s.laneOut i gd f b j u = .ok fx) (x : Op) (hx : x ∈ fx.ops) : x.slot = j := by
  unfold State.laneOut at h
  split at h
  · cases h
  · split at h
    · cases h
    · split at h
      · cases h
      · split at h <;> cases h
        next fx' hfx =>
        obtain ⟨y, hy, rfl⟩ := List.mem_map.1 hx
        exact hf _ fx' hfx y hy

theorem OpsOwn.of_regPart {f : Lane → LaneRes} (hf : ∀ l, RegPart (f l)) : OpsOwn f := by
  intro l fx h x hx
  rcases hf l with ⟨fx', h', ho, -⟩ | h' <;> rw [h] at h' <;> cases h'
  rw [ho] at hx
  cases hx

/-- A word whose part is a fault under a condition. -/
theorem Traps.of_fault {i : Instr} {gd : Thread → Bool} {f : Lane → LaneRes} {C : State → Nat → Thread → Prop} {code : BitVec 8}
    {va aux : Lane → DWord} (hx : ∀ s, exec i s = s.issue i gd f) (hg : ∀ t, gd t = i.on t) (hops : OpsOwn f)
    (hc : code ≠ 0x40 ∧ code ≠ 0x17)
    (hf : ∀ s k t b, Takes s i k t → C s k t → ∃ w, f (s.laneAt k t b) = .fault code (va (s.laneAt k t b)) (aux (s.laneAt k t b)) w) :
    Traps i C code va aux := by
  intro s k t ht hC
  obtain ⟨s', b, u, c, v, a, w, h1, h2, h3, h4⟩ := s.issue_traps i gd f k t ht (hg t) (hops.laneOut s i gd) fun b => by
    obtain ⟨w, h⟩ := hf s k t b ht hC
    exact ⟨code, _, _, w, h, hc⟩
  obtain ⟨w', h5⟩ := hf s k t b ht hC
  rw [h3] at h5
  cases h5
  exact ⟨s', b, u, (hx s).trans h1, h2, h4⟩

/-- A word of the register families whose part meets an unusable slot. -/
theorem Traps.of_slotFault {i : Instr} {gd : Thread → Bool} {f : Lane → LaneRes} {C : State → Nat → Thread → Prop}
    (hx : ∀ s, exec i s = s.issue i gd f) (hg : ∀ t, gd t = i.on t) (hreg : ∀ l, RegPart (f l))
    (hf : ∀ s k t b, C s k t → f (s.laneAt k t b) = slotFault) : Traps i C 0x07 (fun _ => 0) (fun _ => 0) :=
  Traps.of_fault hx hg (.of_regPart hreg) (by decide) fun s k t b _ h => ⟨false, hf s k t b h⟩

theorem elemAt_eq_none {f : Option NFmt} {scale : Bool} {e : BitVec 3}
    (h : ∀ g, f = some g → 16 < g.width ∨ (scale = false ∧ g = .scale) ∨ 32 / g.width ≤ e.toNat) : elemAt f scale e = none := by
  unfold elemAt
  split
  · rfl
  · next g =>
    refine if_neg fun ⟨h1, h2, h3⟩ => ?_
    rcases h g rfl with h | ⟨rfl, rfl⟩ | h
    · omega
    · simp at h2
    · omega

theorem dotAdmits_iff (w : Nat) (f : NFmt) : dotAdmits w f = true ↔
    f ∈ if w = 8 then [.fl .e4m3, .fl .e5m2, .int 8 true, .int 8 false] else [.fl .e2m1, .int 4 true, .int 4 false] := by
  unfold dotAdmits
  split <;> simp [or_assoc]

theorem dotN_slotFault {w : Nat} {x : DotArg} {l : Lane} (h : ∃ y ∈ [x.sa, x.sb], ∀ f, l.slotFmt y = some f → dotAdmits w f = false) :
    dotN w x l = slotFault := by
  obtain ⟨y, hy, h⟩ := h
  unfold dotN
  split
  · next fa fb ha hb =>
    refine if_pos ?_
    rcases List.mem_pair.1 hy with rfl | rfl
    · simp [h fa ha]
    · simp [h fb hb]
  · rfl

theorem fmtqMax_eq_none {f : NFmt} (h : f ∉ [.fl .e4m3, .fl .e5m2, .fl .e2m1, .fl .f16, .fl .bf16]) : fmtqMax f = none := by
  unfold fmtqMax
  split <;> simp_all

/-- Settles O12: in each word's part the slot is looked up first. -/
theorem slotFaults : Obligations.SlotFaults := by
  refine ⟨fun x => ?cvt, fun x => ?pack, fun x => ?unpack, fun x => ?fmtq, fun x => ?dot8, fun x => ?dot4⟩
  case cvt =>
    refine Traps.of_slotFault (fun _ => rfl) (fun _ => rfl) (cvt1_regPart x) fun s k t b h => ?_
    have h : (s.laneAt k t b).slotFmt x.slot = none ∨ x.toSlot = true ∧ (s.laneAt k t b).slotFmt x.slot = some .scale := h
    unfold cvt1
    rcases h with h | ⟨h1, h2⟩
    · rw [h]
    · rw [h2, h1]
      rfl
  case pack =>
    refine Traps.of_slotFault (fun _ => rfl) (fun _ => rfl) (pack1_regPart x) fun s k t b h => ?_
    unfold pack1
    rw [elemAt_eq_none fun g hg => ?_]
    change (match (s.laneAt k t b).slotFmt x.slot with | none => True | some f => _) at h
    rw [hg] at h
    exact h.imp_right (.imp_left fun h => ⟨rfl, h⟩)
  case unpack =>
    refine Traps.of_slotFault (fun _ => rfl) (fun _ => rfl) (unpack1_regPart x) fun s k t b h => ?_
    unfold unpack1
    rw [elemAt_eq_none fun g hg => ?_]
    change (match (s.laneAt k t b).slotFmt x.slot with | none => True | some f => _) at h
    rw [hg] at h
    exact h.imp_right .inr
  case fmtq =>
    refine Traps.of_slotFault (fun _ => rfl) (fun _ => rfl) (fmtq1_regPart x) fun s k t b h => ?_
    have hnone : ((s.laneAt k t b).slotFmt x.slot).bind fmtqMax = none :=
      Option.bind_eq_none_iff.2 fun f hf => fmtqMax_eq_none (h f hf)
    unfold fmtq1
    rw [hnone]
  case dot8 =>
    refine Traps.of_slotFault (fun _ => rfl) (fun _ => rfl) (dotN_regPart 8 x) fun s k t b ⟨y, hy, h⟩ => ?_
    exact dotN_slotFault ⟨y, hy, fun f hf => Bool.eq_false_iff.2 ((dotAdmits_iff 8 f).not.2 (h f hf))⟩
  case dot4 =>
    refine Traps.of_slotFault (fun _ => rfl) (fun _ => rfl) (dotN_regPart 4 x) fun s k t b ⟨y, hy, h⟩ => ?_
    exact dotN_slotFault ⟨y, hy, fun f hf => Bool.eq_false_iff.2 ((dotAdmits_iff 4 f).not.2 (h f hf))⟩

end Sys2Proof.Machine
end

section
/-!
Conversions and the narrow dot products (05 R116, R131 to R134).
-/

namespace Sys2Proof.Machine

/-- A register word completes where its part is an effect on the thread alone. -/
theorem CompletesWhen.of_regPart {i : Instr} {gd : Thread → Bool} {f : Lane → LaneRes} {C : State → Nat → Thread → Prop}
    {P : Lane → Thread → Prop} (hx : ∀ s, exec i s = s.issue i gd f) (hg : ∀ t, gd t = i.on t) (hreg : ∀ l, RegPart (f l))
    (hf : ∀ s k t b, C s k t → ∃ g, f (s.laneAt k t b) = .ok { th := g } ∧ P (s.laneAt k t b) (g t).next) : CompletesWhen i C P := by
  intro s k t ht hC
  obtain ⟨s', b, fx, u, h1, h2, h3, -, h4⟩ := s.issue_takes i gd f k t ht (hg t) ((OpsOwn.of_regPart hreg).laneOut s i gd) fun b => by
    obtain ⟨g, h, -⟩ := hf s k t b hC
    rcases hreg (s.laneAt k t b) with ⟨fx, h', ho, -, hr, hj, hs⟩ | h'
    · refine ⟨fx, h', hr, ?_⟩
      simp only [Fx.after, ho, hj, List.foldl_nil]
      exact (hs t).trans ht.free
    · rw [h] at h'
      cases h'
  obtain ⟨g, h, hP⟩ := hf s k t b hC
  have hfx := h2.symm.trans h
  cases hfx
  exact ⟨s', b, u, (hx s).trans h1, h3, h4 rfl ▸ hP⟩

/-! ### The bits of a conversion -/

theorem intBits_lt (w : Nat) (x : Int) : intBits w x < 2 ^ w := by
  have h := Int.emod_lt_of_pos x (by positivity : (0 : Int) < (2 ^ w : Nat))
  have h0 := Int.emod_nonneg x (by positivity : ((2 ^ w : Nat) : Int) ≠ 0)
  unfold intBits
  omega

theorem toIntFmt_lt (w : Nat) (sg : Bool) (rm : Rm) (sat : Bool) (x : FV) : (toIntFmt w sg rm sat x).1 < 2 ^ w := by
  unfold toIntFmt
  split
  · positivity
  · exact intBits_lt _ _
  · dsimp only
    split
    · exact intBits_lt _ _
    · split <;> exact intBits_lt _ _

/-- The bits of a converted value fit the destination's format. -/
theorem convert_lt (src dst : NFmt) (b : Nat) (rm : Rm) (sat : Bool) : (convert src dst b rm sat).1 < 2 ^ dst.width := by
  unfold convert
  split
  · exact Nat.two_pow_pos _
  · exact round_lt _ _ _ _
  · split
    · dsimp only
      split <;> exact intBits_lt _ _
    · exact toIntFmt_lt _ _ _ _ _

theorem slotFmt_width {c : Nat} {f : NFmt} (h : Machine.slotFmt c = some f) : f.width ≤ 32 := by
  unfold Machine.slotFmt at h
  split at h <;> cases h <;> decide

theorem extW_ofNat {w : Bool} {n : Nat} (h : n < 2 ^ wid w) : extW w (BitVec.ofNat 64 n) = BitVec.ofNat 64 n := by
  have h64 : 2 ^ wid w ≤ 2 ^ 64 := Nat.pow_le_pow_right (by decide) (wid_le w)
  apply BitVec.eq_of_toNat_eq
  rw [extW_toNat, BitVec.toNat_ofNat, Nat.mod_eq_of_lt (h.trans_le h64), Nat.mod_eq_of_lt h]

theorem rty_width (r : RTy) : (RTy.fmt r).width ≤ wid r.wide := by cases r <;> decide

/-- A value that fits W bits placed with its flags. -/
theorem Thread.result_puts_ofNat (t : Thread) {w : Bool} (d : Dst) {n : Nat} (fl : Fl) (h : n < 2 ^ wid w) :
    Puts t ((t.result w d (BitVec.ofNat 64 n)).orFl fl).next w d (BitVec.ofNat 64 n) fl := by
  have := t.result_puts w d (BitVec.ofNat 64 n) fl
  rwa [extW_ofNat h] at this

/-! ### A field of a word replaced -/

theorem setBits_testBit {n : Nat} (v : BitVec n) (lo len x i : Nat) (hi : i < n) :
    (setBits v lo len x).getLsbD i = if lo ≤ i ∧ i < lo + len then x.testBit (i - lo) else v.getLsbD i := by
  rw [setBits, BitVec.getLsbD_ofNat, decide_eq_true hi, Bool.true_and, bits, testBit_insertField]
  rfl

theorem bits_setBits {n : Nat} (v : BitVec n) {lo len x : Nat} (h : lo + len ≤ n) (hx : x < 2 ^ len) :
    bits (setBits v lo len x) lo len = x := by
  refine Nat.eq_of_testBit_eq fun i => ?_
  rw [bits, Nat.testBit_mod_two_pow, Nat.testBit_div_two_pow]
  by_cases hi : i < len
  · have := setBits_testBit v lo len x (i + lo) (by omega)
    rw [if_pos (by omega), Nat.add_sub_cancel] at this
    rw [decide_eq_true hi, Bool.true_and, ← this]
    rfl
  · rw [decide_eq_false hi, Bool.false_and, Nat.testBit_lt_two_pow (hx.trans_le (Nat.pow_le_pow_right (by decide) (by omega)))]

/-! ### Elements are values of f32 -/

/-- A value of f32 that rounds: the word has it. -/
theorem roundF32_exact (rm : Rm) (s : Bool) {m : Nat} {e : Int} (hm : m < 2 ^ 24) (he : -149 ≤ e) (hX : (m : ℚ) * 2 ^ e < 2 ^ (128 : Int)) :
    (v32 (roundF32 rm (.fin s m e)).1).same (.fin s m e) := by
  obtain ⟨j, hj⟩ := exists_magVal hm he
  obtain ⟨c, hc, hadj, -⟩ := roundF32_adjacent rm s m e hX
  obtain rfl := hadj.eq_of_eq hj.symm
  have hc31 : c < 0x7F800000 := by rwa [← magVal_lt_magVal, magVal_infinity, hj]
  obtain ⟨h1, h2⟩ := signed_f32_mod s (c := c) (by omega)
  have hv : v32 (roundF32 rm (.fin s m e)).1 = .fin s (f32Sig c) (f32Exp c) := by
    rw [v32, hc, V_f32_fin (by rwa [h1]), h1, h2]
  rw [hv]
  refine ⟨rfl, ?_⟩
  rw [FV.val_fin, FV.val_fin, ← hj, magVal]

/-- A significand of at most `K` bits at an exponent. -/
def Fits (m : Nat) (e : Int) : Prop := ∃ K ≤ 24, m < 2 ^ K ∧ -149 ≤ e ∧ e + (K : Nat) ≤ 128

theorem Fits.lt {m : Nat} {e : Int} (h : Fits m e) : m < 2 ^ 24 ∧ -149 ≤ e ∧ (m : ℚ) * 2 ^ e < 2 ^ (128 : Int) := by
  obtain ⟨K, hK, hm, he, hsum⟩ := h
  refine ⟨hm.trans_le (Nat.pow_le_pow_right (by decide) hK), he, ?_⟩
  calc (m : ℚ) * 2 ^ e < 2 ^ K * 2 ^ e := by
        have : (m : ℚ) < 2 ^ K := by exact_mod_cast hm
        gcongr
    _ = 2 ^ (e + K) := by rw [zpow_add₀ two_ne_zero, mul_comm, zpow_natCast]
    _ ≤ 2 ^ (128 : Int) := zpow_le_zpow_right₀ one_le_two hsum

/-- The finite values of a format of at most 16 bits. -/
theorem fits_V {f : FFmt} (hf : f.width ≤ 16) {b : Nat} (h : (V f b).finite) : Fits (f.sig (f.magBits b)) (f.exp (f.magBits b)) := by
  obtain ⟨-, hmax⟩ := V_of_finite h
  generalize f.magBits b = k at hmax
  refine ⟨f.mw + 1, ?_, ?_, ?_⟩
  · cases f <;> decide
  · have hmod : k % 2 ^ f.mw < 2 ^ f.mw := Nat.mod_lt _ (by positivity)
    rw [pow_succ, FFmt.sig]
    split <;> omega
  · unfold FFmt.exp
    cases f
    case f32 => exact absurd hf (by decide)
    all_goals simp only [FFmt.mw, FFmt.bias, FFmt.maxEnc] at hmax ⊢; omega

theorem fits_intOf {w : Nat} (hw : w ≤ 16) (sg : Bool) (b : Nat) : Fits (intOf w sg b).natAbs 0 := by
  have hlt : b % 2 ^ w < 2 ^ w := Nat.mod_lt _ (by positivity)
  have hpow : 2 ^ w ≤ 2 ^ 16 := Nat.pow_le_pow_right (by decide) hw
  refine ⟨17, by decide, ?_, by decide, by decide⟩
  simp only [intOf]
  generalize b % 2 ^ w = v at hlt
  generalize 2 ^ w = p at hlt hpow
  split <;> omega

/-- A finite element of a format of at most 16 bits fits f32. -/
theorem elemV_fits {f : NFmt} (hw : f.width ≤ 16) {b : Nat} {s : Bool} {m : Nat} {e : Int} (h : elemV f b = .fin s m e) : Fits m e := by
  cases f with
  | fl f =>
    have h : V f b = .fin s m e := h
    have hfin : (V f b).finite := by rw [h]; rfl
    have hV := (V_of_finite hfin).1
    rw [h, FV.fin.injEq] at hV
    obtain ⟨-, rfl, rfl⟩ := hV
    exact fits_V hw hfin
  | scale =>
    have hb : b % 256 < 256 := Nat.mod_lt _ (by decide)
    unfold elemV at h
    dsimp only at h
    split at h <;> cases h
    exact ⟨1, by decide, by decide, by omega, by omega⟩
  | int w sg =>
    cases h
    exact fits_intOf hw sg b

/-- Rounding an element of at most 16 bits to f32 keeps its value (R132). -/
theorem roundF32_elemV {f : NFmt} (hw : f.width ≤ 16) (b : Nat) :
    (elemV f b = .nan → (roundF32 .rne (elemV f b)).1 = 0x7FC00000)
      ∧ (elemV f b ≠ .nan → (v32 (roundF32 .rne (elemV f b)).1).same (elemV f b)) := by
  cases h : elemV f b with
  | nan => exact ⟨fun _ => rfl, fun h => absurd rfl h⟩
  | inf s =>
    have hmag : mag (roundF32 .rne (.inf s)).1 = 0x7F800000 := by cases s <;> rfl
    have hsign : (roundF32 .rne (.inf s)).1.getLsbD 31 = s := by cases s <;> rfl
    rw [v32_inf hmag, hsign]
    exact ⟨nofun, fun _ => rfl⟩
  | fin s m e =>
    obtain ⟨hm, he, hX⟩ := (elemV_fits hw h).lt
    exact ⟨nofun, fun _ => roundF32_exact .rne s hm he hX⟩

/-- An element index that the format reaches leaves room for the element. -/
theorem elem_room {w e : Nat} (h : e < 32 / w) : w * e + w ≤ 32 := by
  rw [← Nat.mul_add_one, Nat.mul_comm]
  exact (Nat.mul_le_mul_right w h).trans (Nat.div_mul_le_self 32 w)

theorem fmtqMax_eq {f : NFmt} {emax : Nat}
    (h : (f, emax) ∈ [(NFmt.fl .e4m3, 8), (.fl .e5m2, 15), (.fl .e2m1, 2), (.fl .f16, 15), (.fl .bf16, 127)]) :
    fmtqMax f = some emax := by
  simp only [List.mem_cons, Prod.mk.injEq, List.not_mem_nil, or_false] at h
  rcases h with ⟨rfl, rfl⟩ | ⟨rfl, rfl⟩ | ⟨rfl, rfl⟩ | ⟨rfl, rfl⟩ | ⟨rfl, rfl⟩ <;> rfl

/-- FMTQ by the value of its operand. -/
theorem fmtqOf_spec (emax : Nat) (A : Word) : let v := (fmtqOf emax A).setWidth 64
    (0x7F800000 ≤ A.toNat % 2 ^ 31 → v = 0xFF) ∧ (A.toNat % 2 ^ 31 = 0 → v = 0)
      ∧ (0 < A.toNat % 2 ^ 31 → A.toNat % 2 ^ 31 < 0x7F800000 → ∀ k : Int, (2 : ℚ) ^ k ≤ |(v32 A).val| →
          |(v32 A).val| < (2 : ℚ) ^ (k + 1) → (v.toNat : Int) = min (max (k - emax + 127) 0) 254) := by
  refine ⟨fun h => ?_, fun h => ?_, fun h0 h k hk hk' => ?_⟩
  · rcases h.eq_or_lt with h | h
    · rw [fmtqOf, v32_inf h.symm]
      rfl
    · rw [fmtqOf, v32_nan (nanWord_iff.2 h)]
      rfl
  · have hm : mag A < 0x7F800000 := by rw [mag, h]; decide
    rw [fmtqOf, v32_fin hm]
    dsimp only
    rw [if_pos (show f32Sig (mag A) = 0 from f32Sig_eq_zero.2 h)]
    rfl
  · have hm : mag A < 0x7F800000 := h
    have hsig : f32Sig (mag A) ≠ 0 := f32Sig_eq_zero.not.2 h0.ne'
    have habs : |(v32 A).val| = f32Sig (mag A) * 2 ^ f32Exp (mag A) := by
      rw [v32_val hm, apply_ite abs, abs_neg, ite_self, abs_of_nonneg (magVal_nonneg _), magVal]
    rw [habs] at hk hk'
    have hk2 : k = f32Exp (mag A) + bitLen (f32Sig (mag A)) - 1 :=
      two_zpow_unique hk hk' (two_zpow_bitLen_le hsig _) (by simpa using lt_two_zpow_bitLen _ _)
    rw [fmtqOf, v32_fin hm]
    dsimp only
    rw [if_neg hsig, ← hk2]
    have hy : 0 ≤ min (max (k - emax + 127) 0) 254 ∧ min (max (k - emax + 127) 0) 254 ≤ 254 := by omega
    generalize min (max (k - emax + 127) 0) 254 = y at hy
    rw [BitVec.toNat_setWidth, BitVec.toNat_ofInt]
    omega

theorem conversionResults : Rules.ConversionResults := by
  refine ⟨fun x f hs => ?from', fun x f hs hf => ?into, fun x f hw hf he => ?pack, fun x f hw he => ?unpack, fun x f emax hf => ?fmtq⟩
  case from' =>
    refine CompletesWhen.of_regPart (fun _ => rfl) (fun _ => rfl) (cvt1_regPart x) fun s k t b h => ?_
    have h : (s.laneAt k t b).slotFmt x.slot = some f := h
    unfold cvt1
    rw [h, hs]
    exact ⟨_, rfl, Thread.result_puts_ofNat _ _ _ ((convert_lt _ _ _ _ _).trans_le (Nat.pow_le_pow_right (by decide) (rty_width _)))⟩
  case into =>
    refine CompletesWhen.of_regPart (fun _ => rfl) (fun _ => rfl) (cvt1_regPart x) fun s k t b h => ?_
    have h : (s.laneAt k t b).slotFmt x.slot = some f := h
    have hwidth := slotFmt_width h
    unfold cvt1
    rw [h, hs]
    dsimp only
    rw [if_pos rfl, if_neg hf]
    exact ⟨_, rfl, Thread.result_puts_ofNat _ _ _ ((convert_lt _ _ _ _ _).trans_le (Nat.pow_le_pow_right (by decide) hwidth))⟩
  case pack =>
    refine CompletesWhen.of_regPart (fun _ => rfl) (fun _ => rfl) (pack1_regPart x) fun s k t b h => ?_
    have hel : elemAt ((s.laneAt k t b).slotFmt x.slot) false x.e = some f := by
      rw [show (s.laneAt k t b).slotFmt x.slot = some f from h]
      exact if_pos ⟨hw, by simpa using hf, he⟩
    have hroom : f.width * x.e.toNat + f.width ≤ 32 := elem_room he
    unfold pack1
    rw [hel]
    refine ⟨_, rfl, _, Thread.fresult_puts _ _ _, bits_setBits _ hroom (convert_lt _ _ _ _ _), fun i hi h => ?_⟩
    rw [setBits_testBit _ _ _ _ _ hi, if_neg (by rw [Nat.mul_add_one] at h; omega)]
  case unpack =>
    refine CompletesWhen.of_regPart (fun _ => rfl) (fun _ => rfl) (unpack1_regPart x) fun s k t b h => ?_
    have hel : elemAt ((s.laneAt k t b).slotFmt x.slot) true x.e = some f := by
      rw [show (s.laneAt k t b).slotFmt x.slot = some f from h]
      exact if_pos ⟨hw, rfl, he⟩
    unfold unpack1
    rw [hel]
    exact ⟨_, rfl, _, Thread.fresult_puts _ _ _, roundF32_elemV hw _⟩
  case fmtq =>
    refine CompletesWhen.of_regPart (fun _ => rfl) (fun _ => rfl) (fmtq1_regPart x) fun s k t b h => ?_
    have hmax : ((s.laneAt k t b).slotFmt x.slot).bind fmtqMax = some emax := by
      rw [show (s.laneAt k t b).slotFmt x.slot = some f from h]
      exact fmtqMax_eq hf
    unfold fmtq1
    rw [hmax]
    exact ⟨_, rfl, _, Thread.fresult_puts _ _ _, fmtqOf_spec emax _⟩

/-! ### Dot products -/

theorem dotSteps_eq_foldl (acc : Word × Fl) (fa fb : NFmt) (k : Option Int) (a b : Nat → Nat) (l : List Nat) :
    dotSteps acc fa fb (l.map fun i => (a i, b i, k)) = l.foldl (fun acc i => accStep acc fa fb (a i) (b i) k) acc := by
  induction l generalizing acc with
  | nil => rfl
  | cons i l ih => exact ih _

theorem addExp_scaleExp (S : Word) : addExp (scaleExp (S.toNat % 256)) (scaleExp (S.toNat / 256 % 256)) =
    if bits S 0 8 = 255 ∨ bits S 8 8 = 255 then none else some (((bits S 0 8 : Int) - 127) + ((bits S 8 8 : Int) - 127)) := by
  have h0 : S.toNat % 256 = bits S 0 8 := by simp [bits]
  have h1 : S.toNat / 256 % 256 = bits S 8 8 := rfl
  have hm (n : Nat) (h : n < 256) : n % 256 = n := Nat.mod_eq_of_lt h
  have hb (lo : Nat) : bits S lo 8 < 256 := Nat.mod_lt _ (by decide)
  rw [h0, h1, scaleExp, scaleExp, hm _ (hb 0), hm _ (hb 8)]
  by_cases h0 : bits S 0 8 = 255 <;> by_cases h1 : bits S 8 8 = 255 <;> simp [h0, h1, addExp]

/-- The exponent of a block-scaled dot product, 0 without one (R116). -/
def dotScale (x : DotArg) (l : Lane) : Option Int := match x.s with
  | none => some 0
  | some z => if bits (l.src32 2 z) 0 8 = 255 ∨ bits (l.src32 2 z) 8 8 = 255 then none
      else some (((bits (l.src32 2 z) 0 8 : Int) - 127) + ((bits (l.src32 2 z) 8 8 : Int) - 127))

/-- A dot product whose slots hold admitted formats. -/
theorem dotN_ok {w : Nat} {x : DotArg} {l : Lane} {fa fb : NFmt} (ha : l.slotFmt x.sa = some fa) (hb : l.slotFmt x.sb = some fb)
    (hfa : dotAdmits w fa = true) (hfb : dotAdmits w fb = true) :
    dotN w x l = .ok { th := fun t => t.fresult x.d.toDst ((List.range (32 / w)).foldl (fun acc j =>
      accStep acc fa fb (bits (l.src32 0 x.a) (w * j) w) (bits (l.src32 1 x.b) (w * j) w) (dotScale x l))
        (l.src32 3 x.d.toSrc, flIf (snanWord (l.src32 3 x.d.toSrc)) nv)) } := by
  unfold dotN
  rw [ha, hb]
  dsimp only
  rw [hfa, hfb, dotSteps_eq_foldl, readFl_f32]
  have hk : (match x.s with
      | none => some 0
      | some z => addExp (scaleExp ((l.src32 2 z).toNat % 256)) (scaleExp ((l.src32 2 z).toNat / 256 % 256))) = dotScale x l := by
    unfold dotScale
    split
    · rfl
    · exact addExp_scaleExp _
  rw [← hk]
  rfl

theorem narrowDotResults : Rules.NarrowDotResults := by
  refine ⟨fun x fa fb ha hb => ?_, fun x fa fb ha hb => ?_⟩
  · refine CompletesWhen.of_regPart (fun _ => rfl) (fun _ => rfl) (dotN_regPart 8 x) fun s k t b ⟨h1, h2⟩ => ?_
    exact ⟨_, dotN_ok h1 h2 ((dotAdmits_iff 8 fa).2 ha) ((dotAdmits_iff 8 fb).2 hb), Thread.fresult_puts _ _ _⟩
  · refine CompletesWhen.of_regPart (fun _ => rfl) (fun _ => rfl) (dotN_regPart 4 x) fun s k t b ⟨h1, h2⟩ => ?_
    exact ⟨_, dotN_ok h1 h2 ((dotAdmits_iff 4 fa).2 ha) ((dotAdmits_iff 4 fb).2 hb), Thread.fresult_puts _ _ _⟩

/-- Settles O11: a conversion's bits fit its destination, an element of at most 16 bits is a value of f32, and a dot product is its
steps one after the other. -/
theorem conversionAndDotResults : Obligations.ConversionAndDotResults := ⟨conversionResults, narrowDotResults⟩

end Sys2Proof.Machine
end

section
/-!
Words whose part is an effect on the lane alone; transfers of control (07 R155 to R164).
-/

namespace Sys2Proof.Machine

section
variable (s : State) (i : Instr) (gd : Thread → Bool) (f : Lane → LaneRes) (k : Nat) (t : Thread)

/-- A lane that takes a word whose part only changes its thread: what the issue leaves of it, before step traps. -/
theorem State.runLanes_takes (h : Takes s i k t) (hg : gd t = i.on t) (hops : OpsOwn f) (hok : ∀ b, ∃ fx, f (s.laneAt k t b) = .ok fx
    ∧ fx.ops = [] ∧ fx.req = none) :
    k ∈ (s.runLanes i gd f).took ∧ ∃ b fx, f (s.laneAt k t b) = .ok fx ∧ (s.runLanes i gd f).s.thread? k = some (fx.after t) := by
  obtain ⟨b, hb⟩ := State.runLanes_thread s i gd f k t h.once h.mem h.thread (hops.laneOut s i gd)
  obtain ⟨b', hmem, -, -⟩ := State.outcomes_thread s i gd f k t _ (s.issueSet_nodup i h.once) h.mem h.thread s.fresh (hops.laneOut s i gd)
  have hout (b : Nat) : ∃ fx, f (s.laneAt k t b) = .ok fx ∧ fx.ops = [] ∧ fx.req = none ∧ s.laneOut i gd f b k t = .ok fx := by
    obtain ⟨fx, hfx, ho, hr⟩ := hok b
    refine ⟨fx, hfx, ho, hr, ?_⟩
    rw [h.laneOut gd f b hg]
    change (match f (s.laneAt k t b) with | .ok fx => _ | .fault c va aux w => _ | .ask vpn w => _) = _
    rw [hfx]
    cases fx
    cases ho
    rfl
  refine ⟨?_, b, ?_⟩
  · obtain ⟨fx, -, -, -, ho⟩ := hout b'
    rw [ho] at hmem
    exact List.mem_map.2 ⟨_, List.mem_filter.2 ⟨hmem, rfl⟩, rfl⟩
  · obtain ⟨fx, hfx, ho, hr, hlane⟩ := hout b
    rw [hlane] at hb
    obtain ⟨u, hu, hk⟩ := hb fun l hl => by cases hl
    obtain ⟨n, rfl⟩ := LaneOut.leaves_plain hu ho
    refine ⟨fx, hfx, hk.trans ?_⟩
    rw [LaneOut.thread, hr]

end

/-- A word completes where its part only changes the lane's thread. -/
theorem CompletesWhen.of_effect {i : Instr} {gd : Thread → Bool} {f : State → Lane → LaneRes} {C : State → Nat → Thread → Prop}
    {P : Lane → Thread → Prop} (hx : ∀ s, exec i s = s.issue i gd (f s)) (hg : ∀ t, gd t = i.on t) (hops : ∀ s, OpsOwn (f s))
    (hf : ∀ s k t b, Takes s i k t → C s k t → ∃ fx, f s (s.laneAt k t b) = .ok fx ∧ fx.ops = [] ∧ fx.req = none
      ∧ (fx.after t).step = t.step ∧ P (s.laneAt k t b) (fx.after t)) : CompletesWhen i C P := by
  intro s k t ht hC
  obtain ⟨-, b, fx, hfx, hk⟩ := s.runLanes_takes i gd (f s) k t ht (hg t) (hops s) fun b => by
    obtain ⟨fx, h, ho, hr, -⟩ := hf s k t b ht hC
    exact ⟨fx, h, ho, hr⟩
  obtain ⟨fx', hfx', -, -, hs, hP⟩ := hf s k t b ht hC
  cases hfx.symm.trans hfx'
  refine ⟨_, b, _, hx s, (State.stepTraps_thread? _ _ _ k fun v hv => ?_).trans hk, hP⟩
  rw [← Option.some.inj (hk.symm.trans hv)]
  exact hs.trans ht.free

theorem Completes.of_when {i : Instr} {P : Lane → Thread → Prop} (h : CompletesWhen i (fun _ _ _ => True) P) : Completes i P :=
  fun s k t ht => h s k t ht trivial

theorem Completes.of_effect {i : Instr} {gd : Thread → Bool} {f : State → Lane → LaneRes} {P : Lane → Thread → Prop}
    (hx : ∀ s, exec i s = s.issue i gd (f s)) (hg : ∀ t, gd t = i.on t) (hops : ∀ s, OpsOwn (f s))
    (hf : ∀ s k t b, ∃ fx, f s (s.laneAt k t b) = .ok fx ∧ fx.ops = [] ∧ fx.req = none ∧ (fx.after t).step = t.step
      ∧ P (s.laneAt k t b) (fx.after t)) : Completes i P :=
  .of_when (.of_effect hx hg hops fun s k t b _ _ => hf s k t b)

theorem OpsOwn.of_nil {f : Lane → LaneRes} (h : ∀ l fx, f l = .ok fx → fx.ops = []) : OpsOwn f := by
  intro l fx hfx x hx
  rw [h l fx hfx] at hx
  cases hx

/-! ### Branches -/

/-- What each step of a fold keeps of a lane's thread, the fold keeps. -/
theorem State.foldl_thread_of {β : Type} {f : State → β → State} {k : Nat} {P : Thread → Prop}
    (hf : ∀ s b t, s.thread? k = some t → P t → ∃ u, (f s b).thread? k = some u ∧ P u) (l : List β) {s : State} {t : Thread}
    (ht : s.thread? k = some t) (hP : P t) : ∃ u, (l.foldl f s).thread? k = some u ∧ P u := by
  induction l generalizing s t with
  | nil => exact ⟨t, ht, hP⟩
  | cons b l ih =>
    obtain ⟨u, hu, hPu⟩ := hf s b t ht hP
    exact ih hu hPu

/-- The thread but for its state, which is its own or that of a respawned one. -/
def RespawnedOf (t u : Thread) : Prop := ∃ st, (st = t.st ∨ st = .spawned) ∧ u = { t with st := st }

theorem RespawnedOf.refl (t : Thread) : RespawnedOf t t := ⟨t.st, .inl rfl, rfl⟩

theorem RespawnedOf.spawned {t u : Thread} (h : RespawnedOf t u) : RespawnedOf t { u with st := .spawned } := by
  obtain ⟨st, -, rfl⟩ := h
  exact ⟨.spawned, .inr rfl, rfl⟩

theorem State.spawn_thread? (s : State) (pc : DWord) (ks : List Nat) (k : Nat) (t u : Thread) (h : s.thread? k = some u)
    (hu : RespawnedOf t u) : ∃ u, (s.spawn pc ks).thread? k = some u ∧ RespawnedOf t u := by
  unfold State.spawn
  dsimp only
  split
  · exact ⟨u, h, hu⟩
  · split
    · exact ⟨u, h, hu⟩
    · split
      · exact ⟨u, h, hu⟩
      · refine State.foldl_thread_of (fun s j v hv hP => ?_) ks (by exact h) hu
        by_cases hj : k = j
        · subst hj
          exact ⟨_, by rw [State.thread?_updThread_same, hv]; rfl, hP.spawned⟩
        · exact ⟨v, (State.thread?_updThread_other s k j _ hj).trans hv, hP⟩

/-- A respawn changes a lane's state alone (R164). -/
theorem State.respawn_thread? (s : State) (took off : List Nat) (k : Nat) (t : Thread) (h : s.thread? k = some t) :
    ∃ u, (s.respawn took off).thread? k = some u ∧ RespawnedOf t u := by
  unfold State.respawn
  split
  · exact ⟨t, h, .refl t⟩
  · dsimp only
    split
    · exact State.foldl_thread_of (fun s p v hv hP => s.spawn_thread? p.1 _ k t v hv hP) _ h (.refl t)
    · exact ⟨t, h, .refl t⟩

/-- A branching word on a lane that takes it: its part of the word, and perhaps a respawn. -/
theorem CompletesWhen.of_branch {i : Instr} {gd : Thread → Bool} {f : Lane → LaneRes} {C : State → Nat → Thread → Prop}
    {P : Lane → Thread → Prop} (hx : ∀ s, exec i s = s.issueBranch i gd f) (hg : ∀ t, gd t = i.on t) (hops : OpsOwn f)
    (hf : ∀ s k t b, Takes s i k t → C s k t → ∃ fx, f (s.laneAt k t b) = .ok fx ∧ fx.ops = [] ∧ fx.req = none
      ∧ (fx.after t).step = t.step ∧ ∀ u, RespawnedOf (fx.after t) u → P (s.laneAt k t b) u) : CompletesWhen i C P := by
  intro s k t ht hC
  obtain ⟨-, b, fx, hfx, hk⟩ := s.runLanes_takes i gd f k t ht (hg t) hops fun b => by
    obtain ⟨fx, h, ho, hr, -⟩ := hf s k t b ht hC
    exact ⟨fx, h, ho, hr⟩
  obtain ⟨fx', hfx', -, -, hs, hP⟩ := hf s k t b ht hC
  cases hfx.symm.trans hfx'
  have hk' : ((s.runLanes i gd f).s.stepTraps s.cur.pc ((s.runLanes i gd f).took ++ (s.runLanes i gd f).off)).thread? k
      = some (fx.after t) := by
    refine (State.stepTraps_thread? _ _ _ k fun v hv => ?_).trans hk
    rw [← Option.some.inj (hk.symm.trans hv)]
    exact hs.trans ht.free
  obtain ⟨u, hu, hr⟩ := State.respawn_thread? _ (s.runLanes i gd f).took (s.runLanes i gd f).off k _ hk'
  exact ⟨_, b, u, hx s, hu, hP u hr⟩

/-- Minorities other than a lane's leave its thread. -/
theorem State.spawn_other (s : State) (pc : DWord) (ks : List Nat) (k : Nat) (hk : k ∉ ks) : (s.spawn pc ks).thread? k = s.thread? k := by
  unfold State.spawn
  dsimp only
  split
  · rfl
  · split
    · rfl
    · split
      · rfl
      · exact State.foldl_thread? _ _ _ (fun j hj s' => State.thread?_updThread_other s' k j _ fun h => hk (h ▸ hj)) _

/-- A respawn leaves a lane that the word did not complete on as it was (R156, R164). -/
theorem State.respawn_other (s : State) (took off : List Nat) (k : Nat) (hk : k ∉ took) : (s.respawn took off).thread? k = s.thread? k := by
  unfold State.respawn
  split
  · rfl
  · dsimp only
    split
    · refine State.foldl_thread? _ _ _ (fun p _ s' => s'.spawn_other p.1 _ k fun h => hk ?_) _
      simpa using (List.mem_filter.1 h).2
    · rfl

/-- A lane that takes a word whose part of it faults: the fault stands at the lane's own PC. -/
theorem Takes.laneOut_fault {s : State} {i : Instr} {gd : Thread → Bool} {f : Lane → LaneRes} {k : Nat} {t : Thread} {b : Nat}
    {code : BitVec 8} {va aux : DWord} {w : Bool} (ht : Takes s i k t) (hg : gd t = i.on t)
    (hf : f (s.laneAt k t b) = .fault code va aux w) :
    s.laneOut i gd f b k t = .fault ⟨k, code, t.pc, t.pc, va, aux, w, false, none⟩ := by
  rw [ht.laneOut gd f b hg]
  change (match f (s.laneAt k t b) with | .ok fx => _ | .fault c va aux w => _ | .ask vpn w => _) = _
  rw [hf]

/-- A branching word traps where its part of the word on the lane meets the fault. -/
theorem Traps.of_branch {i : Instr} {gd : Thread → Bool} {f : Lane → LaneRes} {C : State → Nat → Thread → Prop} {code : BitVec 8}
    {va aux : Lane → DWord} (hx : ∀ s, exec i s = s.issueBranch i gd f) (hg : ∀ t, gd t = i.on t) (hops : OpsOwn f)
    (hc : code ≠ 0x40 ∧ code ≠ 0x17)
    (hf : ∀ s k t b, Takes s i k t → C s k t → ∃ w, f (s.laneAt k t b) = .fault code (va (s.laneAt k t b)) (aux (s.laneAt k t b)) w) :
    Traps i C code va aux := by
  intro s k t ht hC
  obtain ⟨b, h⟩ := s.runLanes_laneFault i gd f k t ht.once ht.mem ht.thread (hops.laneOut s i gd)
  obtain ⟨w, hw⟩ := hf s k t b ht hC
  have hl : s.laneOut i gd f b k t 
      = .fault ⟨k, code, t.pc, t.pc, va (s.laneAt k t b), aux (s.laneAt k t b), w, false, none⟩ := by
    rw [ht.laneOut gd f b (hg t)]
    change (match f (s.laneAt k t b) with | .ok fx => _ | .fault c va aux w => _ | .ask vpn w => _) = _
    rw [hw]
  obtain ⟨hk, u, hu, -, hex⟩ := h _ hl hc.1 hc.2 rfl
  refine ⟨_, b, u, hx s, ?_, hex⟩
  exact (State.respawn_other _ _ _ k fun h => hk (List.mem_append_left _ h)).trans ((State.stepTraps_other _ _ _ k hk).trans hu)

/-! ### The words -/

theorem jumpTo_good {a : DWord} (th : Thread → Thread) (h : a.toNat < 2 ^ 55 ∧ a.toNat % 8 = 0) :
    jumpTo a th = .ok { th := th, jump := some a } := by
  rw [jumpTo, show badTarget a = none by rw [badTarget, if_neg (Nat.not_le.2 h.1), if_neg (not_not.2 h.2)]]

theorem jumpTo_far {a : DWord} (th : Thread → Thread) (h : 2 ^ 55 ≤ a.toNat) : jumpTo a th = .fault 0x12 a 0 false := by
  rw [jumpTo, show badTarget a = some 0x12 from if_pos h]

theorem jumpTo_odd {a : DWord} (th : Thread → Thread) (h : a.toNat < 2 ^ 55 ∧ a.toNat % 8 ≠ 0) : jumpTo a th = .fault 0x10 a 0 false := by
  rw [jumpTo, show badTarget a = some 0x10 by rw [badTarget, if_neg (Nat.not_le.2 h.1), if_pos h.2]]

theorem jumpTo_ops {a : DWord} {th : Thread → Thread} {fx : Fx} (h : jumpTo a th = .ok fx) : fx.ops = [] := by
  unfold jumpTo at h
  split at h <;> cases h
  rfl

/-- Writing lanes one after another, each the same way: a lane among them is written once. -/
theorem State.foldl_updThread_mem (g : Thread → Thread) {ks : List Nat} (hn : ks.Nodup) {k : Nat} (hk : k ∈ ks) (s : State) :
    (ks.foldl (fun z j => z.updThread j g) s).thread? k = (s.thread? k).map g := by
  induction ks generalizing s with
  | nil => cases hk
  | cons j ks ih =>
    obtain ⟨hj, hn⟩ := List.nodup_cons.1 hn
    rcases List.mem_cons.1 hk with rfl | hk
    · refine (State.foldl_thread? _ _ _ (fun b hb s' => State.thread?_updThread_other s' k b g fun h => hj (h ▸ hb)) _).trans ?_
      exact State.thread?_updThread_same _ _ _
    · exact (ih hn hk _).trans (congrArg _ (State.thread?_updThread_other s k j g fun h => hj (h ▸ hk)))

theorem readyOrSpawned {s : State} {i : Instr} {k : Nat} {t : Thread} {st : SlotState} (h : Takes s i k t) (hst : st = t.st ∨ st = .spawned) :
    st ∈ [SlotState.ready, .spawned] := by
  rw [(Thread.ready_of_open (s.of_mem_issueSet i k t h.mem h.thread).1).1] at hst
  simpa using hst

theorem controlTransfers : Rules.ControlTransfers := by
  dsimp only [Rules.ControlTransfers]
  refine ⟨fun x => ?_, fun x => ?_, fun x => ?_, fun x => ?_, fun x => ?_, fun x => ?_, fun x => ?_, fun x => ?_, fun x => ?_⟩
  · refine .of_when (CompletesWhen.of_branch (fun _ => rfl) (fun _ => rfl) (.of_nil fun l fx h => by cases h; rfl)
      fun s k t b ht _ => ⟨_, rfl, rfl, rfl, rfl, ?_⟩)
    rintro _ ⟨st, hst, rfl⟩
    exact ⟨st, readyOrSpawned ht hst, rfl⟩
  · exact Completes.of_effect (fun _ => rfl) (fun _ => rfl) (fun _ => .of_nil fun l fx h => by cases h; rfl)
      fun s k t b => ⟨_, rfl, rfl, rfl, rfl, rfl⟩
  · refine CompletesWhen.of_branch (fun _ => rfl) (fun _ => rfl) (.of_nil fun l fx h => jumpTo_ops h)
      fun s k t b ht hC => ⟨_, jumpTo_good _ (hC b _ rfl), rfl, rfl, rfl, ?_⟩
    rintro _ ⟨st, hst, rfl⟩
    exact ⟨st, readyOrSpawned ht hst, rfl⟩
  · exact CompletesWhen.of_effect (fun _ => rfl) (fun _ => rfl) (fun _ => .of_nil fun l fx h => jumpTo_ops h)
      fun s k t b ht hC => ⟨_, jumpTo_good _ (hC b _ rfl), rfl, rfl, rfl, rfl⟩
  · exact CompletesWhen.of_effect (fun _ => rfl) (fun _ => rfl) (fun _ => .of_nil fun l fx h => jumpTo_ops h)
      fun s k t b ht hC => ⟨_, jumpTo_good _ hC, rfl, rfl, rfl, rfl⟩
  · exact Completes.of_effect (fun _ => rfl) (fun _ => rfl) (fun _ => .of_nil fun l fx h => by cases h; rfl)
      fun s k t b => ⟨_, rfl, rfl, rfl, rfl, rfl⟩
  · exact Completes.of_effect (fun _ => rfl) (fun _ => rfl) (fun _ => .of_nil fun l fx h => by cases h; rfl)
      fun s k t b => ⟨_, rfl, rfl, rfl, rfl, rfl⟩
  · exact Completes.of_effect (fun _ => rfl) (fun _ => rfl) (fun _ => .of_nil fun l fx h => by cases h; rfl)
      fun s k t b => ⟨_, rfl, rfl, rfl, rfl, rfl⟩
  · intro s k t ht
    obtain ⟨hk, b, fx, hfx, hthread⟩ := s.runLanes_takes (.rejoin x) x.gd.holds (fun _ => .ok {}) k t ht rfl
      (.of_nil fun l fx h => by cases h; rfl) fun b => ⟨_, rfl, rfl, rfl⟩
    cases hfx
    have hleave : ∀ (ks : List Nat) (z : State), (ks.foldl (fun z k => z.leaveRegroup k) z).thread? k = z.thread? k :=
      fun ks z => State.foldl_thread? (fun s k => s.leaveRegroup k) k ks (fun _ _ _ => rfl) z
    have hset := (State.foldl_updThread_mem (fun t => { t with rejoinSince := none, rejoinDone := false })
      (s.took_off_nodup (.rejoin x) x.gd.holds (fun _ => .ok {}) ht.once) (List.mem_append_left _ hk)
      ((s.runLanes (.rejoin x) x.gd.holds (fun _ => .ok {})).took.foldl (fun z k => z.leaveRegroup k) _)).trans
      (congrArg _ ((hleave _ _).trans hthread))
    refine ⟨_, b, _, rfl, (State.stepTraps_thread? _ _ _ k fun v hv => ?_).trans hset, rfl⟩
    rw [← Option.some.inj (hset.symm.trans hv)]
    exact ht.free

theorem indirectTargetFaults : Rules.IndirectTargetFaults := by
  dsimp only [Rules.IndirectTargetFaults]
  refine ⟨fun x => ?_, fun x => ?_, fun x => ?_, fun x => ?_, fun x => ?_, fun x => ?_⟩
  · exact Traps.of_branch (fun _ => rfl) (fun _ => rfl) (.of_nil fun l fx h => jumpTo_ops h) (by decide)
      fun s k t b _ hC => ⟨false, jumpTo_far _ (hC b)⟩
  · exact Traps.of_branch (fun _ => rfl) (fun _ => rfl) (.of_nil fun l fx h => jumpTo_ops h) (by decide)
      fun s k t b _ hC => ⟨false, jumpTo_odd _ (hC b _ rfl)⟩
  · exact Traps.of_fault (fun _ => rfl) (fun _ => rfl) (.of_nil fun l fx h => jumpTo_ops h) (by decide)
      fun s k t b _ hC => ⟨false, jumpTo_far _ (hC b)⟩
  · exact Traps.of_fault (fun _ => rfl) (fun _ => rfl) (.of_nil fun l fx h => jumpTo_ops h) (by decide)
      fun s k t b _ hC => ⟨false, jumpTo_odd _ (hC b _ rfl)⟩
  · exact Traps.of_fault (fun _ => rfl) (fun _ => rfl) (.of_nil fun l fx h => jumpTo_ops h) (by decide)
      fun s k t b _ hC => ⟨false, jumpTo_far _ hC⟩
  · exact Traps.of_fault (fun _ => rfl) (fun _ => rfl) (.of_nil fun l fx h => jumpTo_ops h) (by decide)
      fun s k t b _ hC => ⟨false, jumpTo_odd _ hC⟩

/-- Settles O18: each word's part on a lane changes its thread alone, a respawn then only its state; the target's check
decides between the transfer and the two faults. -/
theorem controlTransfersAndFaults : Obligations.ControlTransfersAndFaults := ⟨controlTransfers, indirectTargetFaults⟩

end Sys2Proof.Machine
end

section
/-!
The trap words (16 R370 to R372) and the counter words (15 R347 to R349, R356).
-/

namespace Sys2Proof.Machine

/-! ### Trap words -/

theorem State.endRecov_thread? (s : State) (m k : Nat) : (s.endRecov m).thread? k = s.thread? k := rfl

theorem State.endIntervals_thread? (s : State) (ks : List Nat) (k : Nat) : (s.endIntervals ks).thread? k = s.thread? k := by
  refine State.foldl_thread? _ _ _ (fun j _ z => ?_) s
  split
  · rfl
  · exact z.endRecov_thread? _ k

theorem Team.holds_iff (m : Team) (off n : Nat) : m.holds off n = true ↔ m.argp ≤ off ∧ off + n ≤ m.argp + m.region := by
  simp only [Team.holds, Bool.and_eq_true, decide_eq_true_eq]

/-- SERV on a lane of a team (R372): the alignment is checked before the block's place. -/
theorem servFx_of_team {x : ServArg} {l : Lane} {m : Team} (hm : l.s.team? l.t.team = some m) :
    servFx x l =
      if (l.src 0 false x.a.toSrc).toNat % 16 ≠ 0 then .fault 0x10 (l.src 0 false x.a.toSrc) 0 false
      else if m.argp ≤ (l.src 0 false x.a.toSrc).toNat ∧ (l.src 0 false x.a.toSrc).toNat + 128 ≤ m.argp + m.region then
        .fault 0x63 (l.src 0 false x.a.toSrc) (l.src 1 false x.b) false
      else .fault 0x18 (l.src 0 false x.a.toSrc) 0 false := by
  unfold servFx
  dsimp only
  rw [hm]
  by_cases h : m.argp ≤ (l.src 0 false x.a.toSrc).toNat ∧ (l.src 0 false x.a.toSrc).toNat + 128 ≤ m.argp + m.region
  · have hold : m.holds (l.base false x.a).toNat 128 = true := (Team.holds_iff ..).2 h
    rw [if_pos h]
    simp only [hold]
    rfl
  · have hold : m.holds (l.base false x.a).toNat 128 = false := by
      rw [Bool.eq_false_iff]
      exact fun hh => h ((Team.holds_iff ..).1 hh)
    rw [if_neg h]
    simp only [hold]
    rfl

theorem servFx_ops {x : ServArg} {l : Lane} {fx : Fx} (h : servFx x l = .ok fx) : fx.ops = [] := by
  unfold servFx at h
  dsimp only at h
  split at h
  · cases h
  · split_ifs at h

/-- SERV traps where its checks give a fault: the ends of intervals change no thread. -/
theorem Traps.of_serv {x : ServArg} {C : State → Nat → Thread → Prop} {code : BitVec 8} {va aux : Lane → DWord}
    (hc : code ≠ 0x40 ∧ code ≠ 0x17)
    (hf : ∀ s k t b, Takes s (.serv x) k t → C s k t →
      ∃ w, servFx x (s.laneAt k t b) = .fault code (va (s.laneAt k t b)) (aux (s.laneAt k t b)) w) :
    Traps (.serv x) C code va aux := by
  intro s k t ht hC
  obtain ⟨b, h⟩ := s.runLanes_laneFault (.serv x) x.gd.holds (servFx x) k t ht.once ht.mem ht.thread
    ((OpsOwn.of_nil fun l fx h => servFx_ops h).laneOut s _ _)
  obtain ⟨w, hw⟩ := hf s k t b ht hC
  obtain ⟨hk, u, hu, -, hex⟩ := h _ (ht.laneOut_fault rfl hw) hc.1 hc.2 rfl
  refine ⟨_, b, u, rfl, ?_, hex⟩
  exact (State.stepTraps_other _ _ _ k fun h => hk (List.mem_append_right _ h)).trans ((State.endIntervals_thread? _ _ k).trans hu)

/-- Settles O39: TRAP and BRK fault whatever the lane holds; SERV's two checks decide its code. -/
theorem trapWordsTakeTheirCodes : Obligations.TrapWordsTakeTheirCodes := by
  dsimp only [Obligations.TrapWordsTakeTheirCodes]
  refine ⟨fun x => ?_, fun x => ?_, fun x => ?_, fun x => ?_, fun x => ?_⟩
  · exact Traps.of_fault (fun _ => rfl) (fun _ => rfl) (.of_nil fun _ _ h => by cases h) (by decide) fun s k t b _ _ => ⟨false, rfl⟩
  · exact Traps.of_fault (fun _ => rfl) (fun _ => rfl) (.of_nil fun _ _ h => by cases h) (by decide) fun s k t b _ _ => ⟨false, rfl⟩
  · refine Traps.of_serv (by decide) fun s k t b _ ⟨m, hm, h⟩ => ⟨false, ?_⟩
    rw [servFx_of_team (l := s.laneAt k t b) hm, if_neg (not_not.2 (h b).1), if_pos (h b).2]
  · refine Traps.of_serv (by decide) fun s k t b _ ⟨m, hm, h⟩ => ⟨false, ?_⟩
    rw [servFx_of_team (l := s.laneAt k t b) hm, if_pos (h b)]
  · refine Traps.of_serv (by decide) fun s k t b _ ⟨m, hm, h⟩ => ⟨false, ?_⟩
    rw [servFx_of_team (l := s.laneAt k t b) hm, if_neg (not_not.2 (h b).1), if_neg (h b).2]

/-! ### Counter words -/

theorem extW_ofNat_modW (w : Bool) (n : Nat) : extW w (BitVec.ofNat 64 n) = modW w n := by
  refine BitVec.eq_of_getLsbD_eq fun i _ => ?_
  by_cases h : i < wid w
  · rw [extW_ofNat_getLsbD w n i h, modW_natCast_getLsbD w n i h]
  · rw [← extW_modW, extW_getLsbD, extW_getLsbD, decide_eq_false h, Bool.false_and, Bool.false_and]

/-- A word that gives one value, whatever of the state its part reads. -/
theorem Completes.of_result_at {i : Instr} {gd : Thread → Bool} {w : Bool} {d : Dst} {v : State → Lane → DWord} {r : Lane → DWord}
    (hx : ∀ s, exec i s = s.issue i gd (regFx fun l t => t.result w d (v s l))) (hg : ∀ t, gd t = i.on t)
    (hv : ∀ s k t b, extW w (v s (s.laneAt k t b)) = r (s.laneAt k t b)) : Completes i fun l u => Puts l.t u w d (r l) 0 :=
  .of_effect hx hg (fun _ => .of_nil fun _ _ h => by cases h; rfl) fun s k t b =>
    ⟨_, rfl, rfl, rfl, t.result_step w d _, hv s k t b ▸ t.result_puts0 w d _⟩

theorem limitOk_iff (lim : BitVec 6) (n : Nat) : limitOk lim n = true ↔ lim = 63 ∨ n ≤ lim.toNat := by
  simp [limitOk]

theorem State.needyCore_iff (s : State) (c : Nat) :
    s.needyCore c = true ↔ ∃ e ∈ (s.grove (groveOf c)).needy, e.1 = coreInGrove c := by
  simp [State.needyCore]

theorem State.amber_eq (s : State) (c b : Nat) : s.amber c b = (s.core c).pool
    + (if ∃ e ∈ (s.grove (groveOf c)).needy, e.1 = coreInGrove c then 2 ^ 7 else 0)
    + ((s.core c).bough b).wait * 2 ^ 8 + (if (s.core c).resv = some b then 2 ^ 11 else 0) := by
  have hb (p : Bool) (P : Prop) [Decidable P] (h : p = true ↔ P) (n : Nat) : b2n p * n = if P then n else 0 := by
    by_cases hP : P
    · rw [h.2 hP, if_pos hP, b2n, if_pos rfl, Nat.one_mul]
    · rw [Bool.eq_false_iff.2 fun hp => hP (h.1 hp), if_neg hP]
      exact Nat.zero_mul n
  unfold State.amber
  dsimp only
  rw [hb _ _ (s.needyCore_iff c), hb _ _ beq_iff_eq]

/-- Settles O37: WAIT issues only where its limits hold; CNTR and AMB give their packed fields. -/
theorem counterWordsResults : Obligations.CounterWordsResults := by
  dsimp only [Obligations.CounterWordsResults]
  refine ⟨fun x => ?_, fun x => ?_, fun x => ?_⟩
  · refine .of_when (CompletesWhen.of_effect (fun _ => rfl) (fun _ => rfl) (fun _ => .of_nil fun _ _ h => by cases h; rfl)
      fun s k t b ht _ => ⟨_, rfl, rfl, rfl, rfl, rfl, ?_⟩)
    obtain ⟨-, -, -, hp⟩ := s.of_mem_issueSet _ k t ht.mem ht.thread
    have hon := ht.on
    simp only [State.passes, ht.landing, Bool.not_true, Bool.false_or, Bool.and_eq_true, hon, limitOk_iff] at hp
    obtain ⟨-, ⟨⟨hld, hst⟩, hcp⟩, htl⟩ := hp
    exact ⟨hld, hst, hcp, htl⟩
  · exact Completes.of_result_at (fun _ => rfl) (fun _ => rfl) fun s k t b => extW_ofNat_modW false _
  · refine Completes.of_result_at (fun _ => rfl) (fun _ => rfl) fun s k t b => ?_
    rw [extW_ofNat_modW, State.amber_eq]
    rfl

end Sys2Proof.Machine
end

section
/-!
Words written out (03 R61, R70, R74) and the state right after reset.
-/

namespace Sys2Proof

/-- A full-form word read under another allocation differs in its register checks alone (R66). -/
theorem decodeAll_of_full {r r' : Nat} {w : DWord} {i : Instr} (h63 : w.getLsbD 63 = false) (h : decodeWord r w = .ok i) :
    decodeAll r' w = (i.chk r', i) := by
  have hg : (decFull (Fields.ofWord w)).run [] = (i, []) := ((decodeWord_full_iff h63).1 h).1
  simp only [decodeAll, h63, hg]
  rfl

/-- A source register at or above the allocation is fault 0x06. -/
theorem decodeWord_movDiscard_beyond (r : Nat) (i : BitVec 8) (h : r ≤ i.toNat) :
    decodeWord r (Fields.toWord ⟨0x1C, 0, 15, 0x300, (0#2 ++ i : BitVec 10), 0, 0, 0⟩) = .error 0x06 := by
  have hwf : (Instr.mov ⟨.always, .discard, .g i, false⟩).wf 256 = true := by
    change (Log1.chk 256 ⟨.always, .discard, .g i, false⟩ == []) = true
    simp [Log1.chk, Dst.chk, Src.chk, chkG, need, i.isLt]
  obtain ⟨w, hw, hdec⟩ := encodedWordsDecode.1 256 _ hwf rfl
  have henc : encode (.mov ⟨.always, .discard, .g i, false⟩) = some (Fields.toWord ⟨0x1C, 0, 15, 0x300, (0#2 ++ i : BitVec 10), 0, 0, 0⟩) := by
    have hfn : fD false = 0 := by decide
    change (Log1.enc 0x1C ⟨.always, .discard, .g i, false⟩) = _
    simp [Log1.enc, full, Dst.enc, Src.enc, hfn]
  obtain rfl := Option.some.inj (henc.symm.trans hw)
  have hchk : (Instr.mov ⟨.always, .discard, .g i, false⟩).chk r = [.operand] := by
    change Log1.chk r ⟨.always, .discard, .g i, false⟩ = _
    simp [Log1.chk, Dst.chk, Src.chk, chkG, need, Nat.not_lt.2 h]
  rw [decodeWord, decodeAll_of_full (((eq_toWord_iff _ _).1 rfl).1) hdec, hchk]
  rfl

/-- Settles O53: each word by evaluation of the decoder, the last for every allocation. -/
theorem decodeWords : Obligations.DecodeWords := by
  refine ⟨?_, ?_, ?_, ?_, ?_, ?_, ?_, ?_, ?_, ?_, ?_, decodeWord_movDiscard_beyond⟩ <;> decide

/-- Settles O54: every part of the reset state is the default of its table. -/
theorem resetState : Obligations.ResetState := by
  refine ⟨rfl, rfl, rfl, rfl, rfl, fun _ => ?_, fun _ => ?_, fun _ => ?_, fun _ => ?_, fun _ => ?_, fun _ => ?_, rfl, rfl, rfl, rfl, rfl⟩
  · exact ⟨rfl, rfl, rfl, rfl, rfl, rfl, rfl, rfl, rfl, rfl, rfl, rfl, rfl, rfl⟩
  · exact ⟨rfl, rfl, rfl, rfl, rfl⟩
  · exact ⟨rfl, rfl, rfl, rfl, rfl, rfl, rfl, rfl, rfl, rfl, rfl, rfl, rfl, rfl, fun _ => rfl, fun _ => rfl⟩
  · exact ⟨rfl, rfl, rfl, rfl, fun _ => ⟨rfl, rfl⟩⟩
  · exact ⟨rfl, rfl, rfl, rfl, rfl, rfl⟩
  · exact ⟨rfl, rfl, rfl, rfl, rfl⟩

end Sys2Proof
end

section
/-!
What an access brings into the caches (08 R182 to R193, 14 R323 to R342), and the fetch of a word (07 R155).
-/

namespace Sys2Proof.Machine

/-! ### The frame of the caches -/

/-- Two states differ in device memory and what caches hold of it, in the heat counters and in the free numbers taken at most. -/
def CacheFrame (s s' : State) : Prop :=
  s' = { s with mem := s'.mem, keyTags := s'.keyTags, bad := s'.bad, l2 := s'.l2, stamp := s'.stamp, tlb := s'.tlb, icache := s'.icache
                fresh := s'.fresh, heat := s'.heat }

section
variable {s s' s'' : State}

theorem CacheFrame.refl (s : State) : CacheFrame s s := rfl

theorem CacheFrame.trans (h : CacheFrame s s') (h' : CacheFrame s' s'') : CacheFrame s s'' := by
  unfold CacheFrame at *
  rw [h', h]

theorem CacheFrame.foldl {β : Type} {f : State → β → State} (hf : ∀ s b, CacheFrame s (f s b)) (l : List β) (s : State) :
    CacheFrame s (l.foldl f s) := by
  induction l generalizing s with
  | nil => exact .refl s
  | cons b l ih => exact (hf s b).trans (ih _)

theorem State.takeFresh_cacheFrame (s : State) (n : Nat) : CacheFrame s (s.takeFresh n) := rfl

theorem State.pick_cacheFrame {α : Type} [DecidableEq α] (s : State) (a b : α) : CacheFrame s (s.pick a b).1 := by
  unfold State.pick
  split <;> exact rfl

theorem State.writeBack_cacheFrame (s : State) (la : Nat) (ln : L2Line) : CacheFrame s (s.writeBack la ln) := rfl

theorem State.makeRoom_cacheFrame (s : State) (k : Nat) : CacheFrame s (s.makeRoom k) := by
  unfold State.makeRoom
  split
  · exact .refl s
  · split
    · exact .refl s
    · dsimp only
      split
      · exact rfl
      · split <;> exact rfl

theorem State.capLast_cacheFrame (s : State) (k : Nat) : CacheFrame s (s.capLast k) := by
  unfold State.capLast
  dsimp only
  split
  · exact .refl s
  · split <;> exact rfl

theorem State.enter_cacheFrame (s : State) (a : Acc) : CacheFrame s (s.enter a).1 := by
  unfold State.enter
  dsimp only
  split
  · exact CacheFrame.trans (s' := { s with l2 := _, stamp := _ }) rfl (State.capLast_cacheFrame _ _)
  · exact (s.makeRoom_cacheFrame _).trans
      (CacheFrame.trans (s' := { s.makeRoom (s.l2Key a) with l2 := _, stamp := _ }) rfl (State.capLast_cacheFrame _ _))

theorem State.touch_cacheFrame (s : State) (a : Acc) : CacheFrame s (s.touch a).1 := by
  unfold State.touch
  dsimp only
  split
  · exact s.enter_cacheFrame a
  · split
    · exact (s.enter_cacheFrame a).trans rfl
    · exact s.enter_cacheFrame a

theorem State.dropCode_cacheFrame (s : State) (pa : Nat) : CacheFrame s (s.dropCode pa) := rfl

theorem State.poke_cacheFrame (s : State) (a : Acc) (bs : List Byte) : CacheFrame s (s.poke a bs) := by
  have h := (s.enter_cacheFrame a).trans (State.dropCode_cacheFrame _ a.pa)
  unfold State.poke
  dsimp only
  split
  · exact h
  · exact h.trans rfl

theorem State.heatSettle_cacheFrame (s : State) (part f : Nat) : CacheFrame s (s.heatSettle part f) := by
  unfold State.heatSettle
  dsimp only
  split
  · exact .refl s
  · refine CacheFrame.trans ?_ ((State.poke_cacheFrame _ _ _).trans (State.poke_cacheFrame _ _ _))
    split <;> exact rfl

theorem State.heatTaken_cacheFrame (s : State) (part : Nat) : CacheFrame s (s.heatTaken part) := by
  unfold State.heatTaken
  split <;> exact rfl

theorem State.heatReq_cacheFrame (s : State) (a : Acc) : CacheFrame s (s.heatReq a) := by
  unfold State.heatReq
  dsimp only
  split
  · exact .refl s
  · split
    · refine CacheFrame.trans ?_ (State.heatTaken_cacheFrame _ _)
      refine CacheFrame.trans ?_ (State.poke_cacheFrame _ _ _)
      exact CacheFrame.trans (s' := { s with heat := _ }) rfl (State.heatSettle_cacheFrame _ _ _)
    · exact rfl

theorem State.cacheWalk_cacheFrame (s : State) (unit part va log : Nat) (e : DWord) : CacheFrame s (s.cacheWalk unit part va log e) := by
  unfold State.cacheWalk
  dsimp only
  split <;> exact rfl

theorem State.walkPick_cacheFrame (s : State) (unit part va : Nat) : CacheFrame s (s.walkPick unit part va).1 := by
  have pair (p : State × Walk) (h : CacheFrame s p.1) : CacheFrame s (match p.2 with
      | .leaf log e => (p.1.cacheWalk unit part va log e, p.2)
      | _ => (p.1, p.2)).1 := by
    split
    · exact h.trans (State.cacheWalk_cacheFrame _ _ _ _ _ _)
    · exact h
  unfold State.walkPick
  dsimp only
  refine pair _ ?_
  split <;> exact rfl

theorem State.translate_cacheFrame (s : State) (who : Asker) (part va : Nat) (need : Need) (hp : Bool) :
    CacheFrame s (s.translate who part va need hp).1 := by
  have h := s.walkPick_cacheFrame who.cache part va
  unfold State.translate
  dsimp only
  split
  · exact .refl s
  · split
    · exact h
    · exact h
    · exact h.trans (State.touch_cacheFrame _ _)
    · exact h

theorem State.holdCode_cacheFrame (s : State) (c : ILine) : CacheFrame s (s.holdCode c) := rfl

theorem State.fetchBytes_cacheFrame (s : State) (slot team : Nat) (pc : DWord) : CacheFrame s (s.fetchBytes slot team pc).1 := by
  have h := s.translate_cacheFrame (.lane slot) (s.partOf slot) pc.toNat .fetch true
  unfold State.fetchBytes
  dsimp only
  split
  · exact h
  · exact h
  · exact h
  · refine h.trans ?_
    split
    · exact State.holdCode_cacheFrame _ _
    · exact (State.pick_cacheFrame _ _ _).trans (State.holdCode_cacheFrame _ _)
  · split
    · exact h
    · refine h.trans ?_
      split
      · exact (State.heatReq_cacheFrame _ _).trans (State.touch_cacheFrame _ _)
      · exact ((State.heatReq_cacheFrame _ _).trans (State.touch_cacheFrame _ _)).trans (State.holdCode_cacheFrame _ _)

theorem State.fetch_fst (s : State) (slot : Nat) (t : Thread) : (s.fetch slot t).1 = (s.fetchBytes slot t.team t.pc).1 := by
  unfold State.fetch
  dsimp only
  split
  · rfl
  · split <;> rfl

end

end Sys2Proof.Machine
end

section
/-!
A step that issues a word (02 R50 to R52, 03 R79): the choice of the issue, the clocks, the fetch.
-/

namespace Sys2Proof.Machine

/-! ### The choice of the issue -/

/-- An issue among candidates: its slots begin with that of a candidate of its PC, whose word is the word of the issue. -/
theorem State.issueOn_eq_some {s : State} {l : List IssueCand} {key : Nat} {iss : Issue} {w : Fetched}
    (h : s.issueOn l key = some (iss, w)) : ∃ c ∈ l, ∃ ks, iss.slots = c.slot :: ks ∧ iss.pc = c.t.pc ∧ w = c.word := by
  unfold State.issueOn at h
  dsimp only at h
  split at h
  · cases h
  · split at h
    · cases h
    · next pc _ =>
      split at h
      · cases h
      · next c l' hset =>
        cases h
        have hc := hset ▸ List.mem_cons_self (a := c) (l := l')
        obtain ⟨hmem, hpc⟩ := List.mem_filter.1 hc
        exact ⟨c, List.mem_of_mem_filter (List.mem_of_mem_filter hmem), _, congrArg (List.map _) hset, (beq_iff_eq.1 hpc).symm, rfl⟩

theorem State.nextIssue_eq_some {s : State} {iss : Issue} {w : Fetched} (h : s.nextIssue = some (iss, w)) :
    ∃ k t ks, (k, t) ∈ s.threads ∧ iss.slots = k :: ks ∧ iss.pc = t.pc ∧ w = (s.fetch k t).2 := by
  unfold State.nextIssue at h
  dsimp only at h
  split at h
  · cases h
  · obtain ⟨c, hc, ks, hslots, hpc, hw⟩ := State.issueOn_eq_some h
    have hopen := List.mem_of_mem_filter (List.mem_of_mem_filter hc)
    unfold State.openCands at hopen
    split at hopen
    · cases hopen
    · obtain ⟨⟨k, t⟩, he, hc⟩ := List.mem_filterMap.1 hopen
      split at hc <;> cases hc
      exact ⟨k, t, ks, he, hslots, hpc, hw⟩

/-! ### The amber lists -/

/-- Two states differ in what groves and cores hold at most. -/
def AmberFrame (s s' : State) : Prop := s' = { s with cores := s'.cores, groves := s'.groves }

theorem AmberFrame.trans {s s' s'' : State} (h : AmberFrame s s') (h' : AmberFrame s' s'') : AmberFrame s s'' := by
  unfold AmberFrame at *
  rw [h', h]

theorem AmberFrame.foldl {β : Type} {f : State → β → State} (hf : ∀ s b, AmberFrame s (f s b)) (l : List β) (s : State) :
    AmberFrame s (l.foldl f s) := by
  induction l generalizing s with
  | nil => exact rfl
  | cons b l ih => exact (hf s b).trans (ih _)

theorem State.withdrawAmber_amberFrame (s : State) : AmberFrame s s.withdrawAmber := by
  unfold State.withdrawAmber
  refine AmberFrame.trans (AmberFrame.foldl (fun s x => AmberFrame.foldl (fun s e => ?_) _ s) _ s)
    (AmberFrame.foldl (fun s e => ?_) _ _)
  · dsimp only
    split <;> exact rfl
  · split
    · exact rfl
    · split <;> exact rfl

theorem State.noteShort_amberFrame (s : State) : AmberFrame s s.noteShort := by
  unfold State.noteShort
  exact AmberFrame.foldl (fun (s : State) (e : Nat × Nat) => show AmberFrame s (s.updCore e.1 _) from rfl) _ _

theorem State.amberNow_amberFrame (s : State) : AmberFrame s s.amberNow :=
  s.withdrawAmber_amberFrame.trans (State.noteShort_amberFrame _)

/-! ### Clocks and picks -/

/-- A thread whose turns and hold at REJOIN are counted on. -/
def Aged (t u : Thread) : Prop := u = { t with age := u.age, rejoinSince := u.rejoinSince }

theorem Aged.trans {t u v : Thread} (h : Aged t u) (h' : Aged u v) : Aged t v := by
  unfold Aged at *
  rw [h', h]

/-- The state after an issue has been noted: clocks, records of picks and turns, leases. -/
structure Clocked (s s' : State) : Prop where
  thread (k : Nat) (t : Thread) : s.thread? k = some t → ∃ u, s'.thread? k = some u ∧ Aged t u
  rest : s' = { s with threads := s'.threads, groves := s'.groves, cores := s'.cores, parts := s'.parts, stamp := s'.stamp
                       cur := s'.cur, time := s'.time }

theorem Clocked.trans {s s' s'' : State} (h : Clocked s s') (h' : Clocked s' s'') : Clocked s s'' where
  thread k t ht := by
    obtain ⟨u, hu, ha⟩ := h.thread k t ht
    obtain ⟨v, hv, hb⟩ := h'.thread k u hu
    exact ⟨v, hv, ha.trans hb⟩
  rest := by rw [h'.rest, h.rest]

theorem Clocked.of_threads {s s' : State} (h : s'.threads = s.threads)
    (hr : s' = { s with threads := s'.threads, groves := s'.groves, cores := s'.cores, parts := s'.parts, stamp := s'.stamp
                        cur := s'.cur, time := s'.time }) : Clocked s s' :=
  ⟨fun k t ht => ⟨t, by rw [State.thread?, h]; exact ht, rfl⟩, hr⟩

theorem SMap.find?_map {α : Type} (g : Nat × α → Nat × α) (hg : ∀ e, (g e).1 = e.1) (m : SMap α) (k : Nat) :
    SMap.find? (m.map g) k = (SMap.find? m k).map fun v => (g (k, v)).2 := by
  induction m with
  | nil => rfl
  | cons e m ih =>
    have : g e = (e.1, (g e).2) := by rw [← hg e]
    rw [List.map_cons, this]
    by_cases h : k = e.1
    · rw [SMap.find?, if_pos h, SMap.find?, if_pos h, h]
      rfl
    · rw [SMap.find?, if_neg h, SMap.find?, if_neg h, ih]

theorem State.notePick_clocked (s : State) (i : Issue) : Clocked s (s.notePick i) where
  thread k t ht := by
    refine ⟨_, (SMap.find?_map _ (fun e => ?_) s.threads k).trans (congrArg _ ht), ?_⟩
    · dsimp only
      split <;> rfl
    · dsimp only
      split <;> exact rfl
  rest := rfl

theorem State.notePick_cur (s : State) (i : Issue) : (s.notePick i).cur = i ∧ (s.notePick i).time = s.time := ⟨rfl, rfl⟩

theorem Clocked.foldl_updThread {β : Type} (key : β → Nat) (g : State → β → Thread → Thread) (hg : ∀ s b t, Aged t (g s b t)) (l : List β)
    (s : State) : Clocked s (l.foldl (fun s b => s.updThread (key b) (g s b)) s)
      ∧ (l.foldl (fun s b => s.updThread (key b) (g s b)) s).cur = s.cur
      ∧ (l.foldl (fun s b => s.updThread (key b) (g s b)) s).time = s.time := by
  induction l generalizing s with
  | nil => exact ⟨.of_threads rfl rfl, rfl, rfl⟩
  | cons b l ih =>
    obtain ⟨h, hc, ht⟩ := ih (s.updThread (key b) (g s b))
    refine ⟨Clocked.trans ⟨fun k t ht => ?_, rfl⟩ h, hc, ht⟩
    by_cases hk : k = key b
    · subst hk
      exact ⟨_, by rw [State.thread?_updThread_same, ht]; rfl, hg s b t⟩
    · exact ⟨t, (State.thread?_updThread_other s k _ _ hk).trans ht, rfl⟩

theorem State.noteHolds_clocked (s : State) : Clocked s s.noteHolds ∧ s.noteHolds.cur = s.cur ∧ s.noteHolds.time = s.time :=
  Clocked.foldl_updThread IssueCand.slot (fun s c t => { t with rejoinSince := some (s.cycleOf (coreOf c.slot)) }) (fun _ _ _ => rfl) _ s

theorem State.foldl_updGrove_frame (g : State → Nat → GroveSt → GroveSt) (l : List Nat) (s : State) :
    l.foldl (fun z x => z.updGrove x (g z x)) s = { s with groves := (l.foldl (fun z x => z.updGrove x (g z x)) s).groves } := by
  induction l generalizing s with
  | nil => rfl
  | cons x l ih =>
    rw [List.foldl_cons, ih]
    rfl

theorem State.tickOnce_frame (s : State) (ns : Nat) :
    s.tickOnce ns = { s with groves := (s.tickOnce ns).groves, parts := (s.tickOnce ns).parts, time := s.time + ns } := by
  unfold State.tickOnce
  dsimp only
  rw [State.foldl_updGrove_frame (fun s g x => x.advance (s.groveMHz g) ns)]

/-- No lease ends strictly within one ns. -/
theorem State.leaseEnd_one (s : State) : s.leaseEnd 1 = none := by
  have hnil : (s.parts.filterMap fun e => match e.2.resident with
      | none => none
      | some c => (e.2.lease.find? c.toNat).filter fun l => decide (0 < l) && decide (l < 1)) = [] := by
    refine List.filterMap_eq_nil_iff.2 fun e _ => ?_
    split
    · rfl
    · refine Option.filter_eq_none_iff.2 fun l _ h => ?_
      simp only [Bool.and_eq_true, decide_eq_true_eq] at h
      omega
  unfold State.leaseEnd
  exact congrArg (List.foldl _ none) hnil

theorem State.tick_one (s : State) : s.tick 1 = s.tickOnce 1 := by
  unfold State.tick
  cases s.parts.length with
  | zero => rfl
  | succ n =>
    unfold State.tickN
    rw [s.leaseEnd_one]

/-! ### The step -/

/-- The state in which an issue's word runs, before the word is fetched. -/
def State.noted (s : State) (i : Issue) : State := ((s.notePick i).noteHolds).tick 1

theorem State.noted_clocked (s : State) (i : Issue) : Clocked s (s.noted i) ∧ (s.noted i).cur = i ∧ (s.noted i).time = s.time + 1 := by
  obtain ⟨hn, hcur, htime⟩ := (s.notePick i).noteHolds_clocked
  have ht := State.tickOnce_frame (s.notePick i).noteHolds 1
  rw [State.noted, State.tick_one]
  refine ⟨((s.notePick_clocked i).trans hn).trans (Clocked.of_threads (by rw [ht]) (by rw [ht])), ?_, ?_⟩
  · rw [ht]
    exact hcur
  · rw [ht]
    exact congrArg (· + 1) htime

/-- What a fetched word does. -/
def State.runFetched (s : State) : Fetched → Host.Outcome State Fault Refusal
  | .word x => exec x s
  | .bad c => .next (s.encodingFault c)
  | .fault c => .next (s.fetchFault c)
  | .ask vpn => .next (s.fetchAsk vpn)

/-- An issue runs its word on the state that the fetch of one of its lanes leaves. -/
theorem State.runIssue_eq {s : State} {i : Issue} {k : Nat} {ks : List Nat} {t : Thread} (hs : i.slots = k :: ks)
    (ht : (s.noted i).thread? k = some t) (w : Fetched) : s.runIssue i w = ((s.noted i).fetch k t).1.runFetched w := by
  have hm : (match i.slots with
      | [] => s.noted i
      | k :: _ => match (s.noted i).thread? k with
        | none => s.noted i
        | some t => ((s.noted i).fetch k t).1) = ((s.noted i).fetch k t).1 := by
    rw [hs]
    dsimp only
    rw [ht]
  rw [← hm]
  cases w <;> rfl

/-- A state whose issue comes before any internal event runs it. -/
theorem step_eq_runIssue {s : State} {iss : Issue} {w : Fetched} (ha : s.agenda = []) (hp : s.dev.powered = true)
    (he : s.time % 2 = 1 → s.amberNow.autoEvent = none) (hn : s.amberNow.nextIssue = some (iss, w)) :
    step s = s.amberNow.runIssue iss w := by
  have htime : s.amberNow.time = s.time := by rw [s.amberNow_amberFrame]
  have hauto : (if s.amberNow.time % 2 = 1 ∨ s.amberNow.nextIssue.isNone then s.amberNow.autoEvent else none) = none := by
    rw [htime, hn]
    split_ifs with h
    · exact he (h.resolve_right nofun)
    · rfl
  unfold step
  rw [ha]
  refine (if_pos hp).trans ?_
  unfold State.ownStep
  dsimp only
  rw [hauto, hn]

theorem SMap.find?_isSome_of_mem {α : Type} {m : SMap α} {k : Nat} {v : α} (h : (k, v) ∈ m) : ∃ u, SMap.find? m k = some u := by
  induction m with
  | nil => cases h
  | cons e m ih =>
    by_cases hk : k = e.1
    · exact ⟨e.2, if_pos hk⟩
    · obtain ⟨u, hu⟩ := ih ((List.mem_cons.1 h).resolve_left fun h => hk (congrArg Prod.fst h))
      exact ⟨u, (if_neg hk).trans hu⟩

/-- What an issue runs on: the fetch of one of its lanes, on the state that has noted it. -/
theorem State.runIssue_noted {s : State} {iss : Issue} {w : Fetched} (h : s.nextIssue = some (iss, w)) :
    ∃ k t, k ∈ iss.slots ∧ (s.noted iss).thread? k = some t ∧ s.runIssue iss w = ((s.noted iss).fetch k t).1.runFetched w := by
  obtain ⟨k, t, ks, hmem, hslots, -, -⟩ := State.nextIssue_eq_some h
  obtain ⟨v, hv⟩ := SMap.find?_isSome_of_mem hmem
  obtain ⟨u, hu, -⟩ := (s.noted_clocked iss).1.thread k v hv
  exact ⟨k, u, hslots ▸ List.mem_cons_self, hu, State.runIssue_eq hslots hu w⟩

theorem SMap.lt_of_mem {α : Type} {m : SMap α} {k lo : Nat} {v : α} (hs : SMap.sortedFrom (some lo) m = true) (h : (k, v) ∈ m) : lo < k := by
  induction m generalizing lo with
  | nil => cases h
  | cons e m ih =>
    simp only [SMap.sortedFrom, Bool.and_eq_true, decide_eq_true_eq] at hs
    rcases List.mem_cons.1 h with rfl | h
    · exact hs.1
    · exact hs.1.trans (ih hs.2 h)

/-- In a map whose keys rise, an entry is what stands at its key. -/
theorem SMap.find?_of_mem {α : Type} {m : SMap α} {k : Nat} {v : α} {lo : Option Nat} (hs : SMap.sortedFrom lo m = true)
    (h : (k, v) ∈ m) : SMap.find? m k = some v := by
  induction m generalizing lo with
  | nil => cases h
  | cons e m ih =>
    simp only [SMap.sortedFrom, Bool.and_eq_true] at hs
    rcases List.mem_cons.1 h with rfl | h
    · exact if_pos rfl
    · exact (if_neg (SMap.lt_of_mem hs.2 h).ne').trans (ih hs.2 h)

/-- Where no bytes come, it is for a fault or a host translation. -/
theorem State.fetchBytes_error {s : State} {k m : Nat} {pc : DWord} {e : Fetched} (h : (s.fetchBytes k m pc).2 = .error e) (i : Instr) :
    e ≠ .word i := by
  unfold State.fetchBytes at h
  dsimp only at h
  split at h
  · cases h
    nofun
  · cases h
    nofun
  · cases h
    nofun
  · split at h <;> cases h
  · split at h
    · cases h
    · split at h <;> cases h
      nofun

/-- The word of a fetch is the decoding of the bytes it brought. -/
theorem State.fetch_eq_word {s : State} {k : Nat} {t : Thread} {i : Instr} (h : (s.fetch k t).2 = .word i) :
    ∃ w, (s.fetchBytes k t.team t.pc).2 = .ok w ∧ decodeWord (s.regsOf k) w = .ok i := by
  unfold State.fetch at h
  dsimp only at h
  split at h
  · next e he => exact (State.fetchBytes_error he i h).elim
  · next w hw =>
    split at h <;> cases h
    exact ⟨w, hw, by assumption⟩

/-- What the fetch of a word leaves of the state that noted its issue (O52). -/
def FetchedOn (s1 s2 : State) (iss : Issue) : Prop := ∃ k t, k ∈ iss.slots ∧ s1.thread? k = some t ∧ s2 = (s1.fetch k t).1
  ∧ s2.threads = s1.threads ∧ s2.teams = s1.teams ∧ s2.ops = s1.ops ∧ s2.parts = s1.parts ∧ s2.cores = s1.cores ∧ s2.scr = s1.scr
  ∧ s2.host = s1.host ∧ s2.queues = s1.queues ∧ s2.slots = s1.slots ∧ s2.cur = s1.cur ∧ s2.time = s1.time

theorem step_runs {s : State} {iss : Issue} {w : Fetched} (ha : s.agenda = []) (hp : s.dev.powered = true)
    (he : s.time % 2 = 1 → s.amberNow.autoEvent = none) (hn : s.amberNow.nextIssue = some (iss, w)) :
    ∃ s2, step s = s2.runFetched w ∧ ∃ s1, ((∀ j t, s.thread? j = some t → ∃ u, s1.thread? j = some u ∧ Aged t u)
      ∧ s1 = { s with threads := s1.threads, groves := s1.groves, cores := s1.cores, parts := s1.parts, stamp := s1.stamp, cur := iss
                      time := s.time + 1 }) ∧ FetchedOn s1 s2 iss := by
  obtain ⟨k, t, hk, ht, hrun⟩ := State.runIssue_noted hn
  obtain ⟨hc, hcur, htime⟩ := s.amberNow.noted_clocked iss
  have ham := s.amberNow_amberFrame
  have hall : Clocked s (s.amberNow.noted iss) := Clocked.trans (.of_threads (by rw [ham]) (by rw [ham])) hc
  have hnow : (s.amberNow.noted iss).time = s.time + 1 := by rw [htime, ham]
  have hf : CacheFrame (s.amberNow.noted iss) ((s.amberNow.noted iss).fetch k t).1 := by
    rw [State.fetch_fst]
    exact State.fetchBytes_cacheFrame _ _ _ _
  generalize s.amberNow.noted iss = s1 at *
  refine ⟨_, (step_eq_runIssue ha hp he hn).trans hrun, s1, ⟨hall.thread, ?_⟩, k, t, hk, ht, rfl, ?_⟩
  · rw [← hcur, ← hnow]
    exact hall.rest
  · rw [hf]
    exact ⟨rfl, rfl, rfl, rfl, rfl, rfl, rfl, rfl, rfl, rfl, rfl⟩

/-- Settles O52: the issue is that of a candidate, whose lane's fetch brings in the word that runs. -/
theorem stepRunsDecoded : Obligations.StepRunsDecoded := by
  dsimp only [Obligations.StepRunsDecoded]
  refine ⟨fun s i l ha => ?_, fun s iss i ⟨ha, hp, he⟩ hn => ?_, fun s iss c ⟨ha, hp, he⟩ hn => ?_, fun s iss i hs hn => ?_⟩
  · rw [step, ha]
  · exact step_runs ha hp he hn
  · exact step_runs ha hp he hn
  · obtain ⟨k, t, ks, hmem, hslots, hpc, hw⟩ := State.nextIssue_eq_some hn
    obtain ⟨w, hbytes, hdec⟩ := State.fetch_eq_word hw.symm
    have hthreads : s.amberNow.threads = s.threads := by rw [s.amberNow_amberFrame]
    exact ⟨k, t, w, hslots ▸ List.mem_cons_self, SMap.find?_of_mem hs (hthreads ▸ hmem), hpc, hbytes, hdec,
      (decodedWordsEncode _ _ _ hdec).1⟩

end Sys2Proof.Machine
end

section
/-!
Quarter entries (06 R138, R139, R147, R148): lanes arrive, entries close.
-/

namespace Sys2Proof.Machine

/-! ### Threads under a fold over lanes -/

/-- A fold that at each lane touches that lane's thread alone: what stands at one of its lanes is what that lane's step left. -/
theorem State.foldl_thread_once {f : State → Nat → State} {k : Nat} (hf : ∀ s j, j ≠ k → (f s j).thread? k = s.thread? k) {l : List Nat}
    (hn : l.Nodup) (hk : k ∈ l) (s : State) : ∃ s', s'.thread? k = s.thread? k ∧ (l.foldl f s).thread? k = (f s' k).thread? k := by
  induction l generalizing s with
  | nil => cases hk
  | cons j l ih =>
    obtain ⟨hj, hn⟩ := List.nodup_cons.1 hn
    rcases List.mem_cons.1 hk with rfl | hk
    · exact ⟨s, rfl, State.foldl_thread? f k l (fun b hb s' => hf s' b fun h => hj (h ▸ hb)) _⟩
    · obtain ⟨s', hs', h⟩ := ih hn hk (f s j)
      exact ⟨s', hs'.trans (hf s j fun h => hj (h ▸ hk)), h⟩

/-! ### Entries close -/

/-- The thread but for its sequence count. -/
def QseqOf (t u : Thread) : Prop := u = { t with qseq := u.qseq }

theorem QseqOf.refl (t : Thread) : QseqOf t t := rfl

theorem QseqOf.trans {t u v : Thread} (h : QseqOf t u) (h' : QseqOf u v) : QseqOf t v := by
  unfold QseqOf at *
  rw [h', h]

theorem State.closeEntry_thread? (s : State) (m : Nat) (e : QEnt) (k : Nat) (t : Thread) (h : s.thread? k = some t) :
    ∃ u, (s.closeEntry m e).thread? k = some u ∧ QseqOf t u := by
  unfold State.closeEntry
  split
  · exact ⟨t, h, .refl t⟩
  · refine State.foldl_thread_of (fun z j v hv hP => ?_) _ (by exact h) (.refl t)
    by_cases hj : k = j
    · subst hj
      refine ⟨_, by rw [State.thread?_updThread_same, hv]; rfl, hP.trans ?_⟩
      dsimp only
      split <;> exact rfl
    · exact ⟨v, (State.thread?_updThread_other z k j _ hj).trans hv, hP⟩

theorem State.closeAll_thread? (s : State) (m : Nat) (l : List QEnt) (k : Nat) (t : Thread) (h : s.thread? k = some t) :
    ∃ u, (s.closeAll m l).thread? k = some u ∧ QseqOf t u :=
  State.foldl_thread_of (fun z e v hv hP => by
    obtain ⟨u, hu, hq⟩ := z.closeEntry_thread? m e k v hv
    exact ⟨u, hu, hP.trans hq⟩) _ h (.refl t)

theorem State.closeFull_thread? (s : State) (m k : Nat) (t : Thread) (h : s.thread? k = some t) :
    ∃ u, (s.closeFull m).thread? k = some u ∧ QseqOf t u := by
  unfold State.closeFull
  split
  · exact ⟨t, h, .refl t⟩
  · exact s.closeAll_thread? m _ k t h

theorem State.closeCtx_thread? (s : State) (m c k : Nat) (t : Thread) (h : s.thread? k = some t) :
    ∃ u, (s.closeCtx m c).thread? k = some u ∧ QseqOf t u := by
  unfold State.closeCtx
  split
  · exact ⟨t, h, .refl t⟩
  · exact s.closeAll_thread? m _ k t h

theorem State.foldl_closeFull_thread? (l : List Nat) (s : State) (k : Nat) (t : Thread) (h : s.thread? k = some t) :
    ∃ u, (l.foldl (fun z m => z.closeFull m) s).thread? k = some u ∧ QseqOf t u :=
  State.foldl_thread_of (fun z e v hv hP => by
    obtain ⟨u, hu, hq⟩ := z.closeFull_thread? e k v hv
    exact ⟨u, hu, hP.trans hq⟩) _ h (.refl t)

theorem State.fuse_thread? (s : State) (before : List MEnt) (k : Nat) : (s.fuse before).thread? k = s.thread? k := by
  unfold State.fuse
  dsimp only
  refine State.foldl_thread? _ _ _ (fun b _ z => ?_) s
  split
  · split <;> rfl
  · rfl

/-! ### Lanes arrive -/

theorem State.arriveMat_other (s : State) (j : Nat) (c : Bool) (word pc : DWord) (op : MatOp) (k : Nat) (h : k ≠ j) :
    (s.arriveMat j c word pc op).thread? k = s.thread? k := by
  unfold State.arriveMat
  split
  · rfl
  · dsimp only
    refine (State.thread?_updThread_other _ k j _ h).trans ?_
    split <;> rfl

theorem State.arriveMat_same (s : State) (k : Nat) (word pc : DWord) (op : MatOp) (t : Thread) (h : s.thread? k = some t) :
    ∃ u, (s.arriveMat k true word pc op).thread? k = some u ∧ u = { t.counted .tl [] with wins := u.wins, qseq := u.qseq } := by
  have put (z : State) (g : Thread → Thread) (hz : z.thread? k = some t) : (z.updThread k g).thread? k = some (g t) := by
    rw [State.thread?_updThread_same, hz]
    rfl
  unfold State.arriveMat
  rw [h]
  dsimp only
  split
  · exact ⟨_, put _ _ h, rfl⟩
  · exact ⟨_, put _ _ h, rfl⟩

theorem Thread.counted_next (t : Thread) (c : Cls) (marks : List RegId) : (t.next.counted c marks) = t.sent c marks := by
  cases c <;> rfl

/-! ### The quarter words -/

/-- The part of a quarter word on one lane: the check of its slots, then the clash with an open entry (log 60). -/
def quarterFx (i : Instr) (gd : Thread → Bool) (check : Lane → Option (BitVec 8)) (l : Lane) : LaneRes :=
  match if gd l.t then check l else none with
  | some c => .fault c 0 0 false
  | none => if l.entryClash ((encode i).getD 0) then .fault 0x22 0 0 false else .ok {}

theorem quarterFx_ops {i : Instr} {gd : Thread → Bool} {check : Lane → Option (BitVec 8)} {l : Lane} {fx : Fx}
    (h : quarterFx i gd check l = .ok fx) : fx.ops = [] := by
  unfold quarterFx at h
  split at h
  · cases h
  · split at h <;> cases h
    rfl

section
variable {i : Instr} {gd : Thread → Bool} {op : MatOp} {check : Lane → Option (BitVec 8)} {s : State} {k : Nat} {t : Thread}

/-- What a quarter word leaves of a lane that neither arrives nor is stepped over: its sequence count may change. -/
theorem State.issueQuarter_absent (h : k ∉ (s.runLanes i (fun _ => true) (quarterFx i gd check)).took)
    (ht : (s.runLanes i (fun _ => true) (quarterFx i gd check)).s.thread? k = some t) :
    ∃ s' u, s.issueQuarter i gd op check = .next s' ∧ s'.thread? k = some u ∧ QseqOf t u := by
  obtain ⟨u, hu, hq⟩ := State.foldl_closeFull_thread?
    (distinct ((s.runLanes i (fun _ => true) (quarterFx i gd check)).took.filterMap s.teamOf)) _ k t
    ((State.foldl_thread? (fun z j => z.arriveMat j (match s.thread? j with
      | none => false
      | some t => gd t) ((encode i).getD 0) s.cur.pc op) k _
      (fun j hj z => z.arriveMat_other j _ _ _ _ k fun e => h (e ▸ hj)) _).trans ht)
  exact ⟨_, u, rfl, (State.stepTraps_other _ _ _ k h).trans ((State.fuse_thread? _ _ k).trans hu), hq⟩

/-- What a quarter word leaves of a lane that arrives. -/
theorem State.issueQuarter_arrives (ht : Takes s i k t) (hg : gd t = i.on t)
    (hf : ∀ b, quarterFx i gd check (s.laneAt k t b) = .ok {}) :
    ∃ s' u, s.issueQuarter i gd op check = .next s' ∧ s'.thread? k = some u
      ∧ u = { t.sent .tl [] with wins := u.wins, qseq := u.qseq } := by
  obtain ⟨hk, b, fx, hfx, hthread⟩ := s.runLanes_takes i (fun _ => true) (quarterFx i gd check) k t ht ht.on.symm
    (.of_nil fun _ _ h => quarterFx_ops h) fun b => ⟨_, hf b, rfl, rfl⟩
  cases (hf b).symm.trans hfx
  have hnodup : (s.runLanes i (fun _ => true) (quarterFx i gd check)).took.Nodup :=
    (s.took_off_nodup i (fun _ => true) (quarterFx i gd check) ht.once).of_append_left
  obtain ⟨z, hz, harr⟩ := State.foldl_thread_once (k := k) (f := fun z j => z.arriveMat j (match s.thread? j with
      | none => false
      | some t => gd t) ((encode i).getD 0) s.cur.pc op)
    (fun z j hj => z.arriveMat_other j _ _ _ _ k hj.symm) hnodup hk (s.runLanes i (fun _ => true) (quarterFx i gd check)).s
  obtain ⟨v, hv, hsent⟩ := State.arriveMat_same z k ((encode i).getD 0) s.cur.pc op t.next (hz.trans hthread)
  have hcontrib : (match s.thread? k with
      | none => false
      | some t => gd t) = true := by
    rw [ht.thread]
    exact hg.trans ht.on
  rw [hcontrib, hv] at harr
  obtain ⟨u, hu, hq⟩ := State.foldl_closeFull_thread?
    (distinct ((s.runLanes i (fun _ => true) (quarterFx i gd check)).took.filterMap s.teamOf)) _ k v harr
  have hu' : u = { t.sent .tl [] with wins := u.wins, qseq := u.qseq } := by
    rw [hq, hsent, Thread.counted_next]
  refine ⟨_, u, rfl, (State.stepTraps_thread? _ _ _ k fun w hw => ?_).trans ((State.fuse_thread? _ _ k).trans hu), hu'⟩
  rw [← Option.some.inj (((State.fuse_thread? _ _ k).trans hu).symm.trans hw), hu']
  exact ht.free

/-- What a quarter word leaves of a lane that faults. -/
theorem State.issueQuarter_faults {c : BitVec 8} (ht : Takes s i k t) (hc : c ≠ 0x40 ∧ c ≠ 0x17)
    (hf : ∀ b, quarterFx i gd check (s.laneAt k t b) = .fault c 0 0 false) :
    ∃ s' u, s.issueQuarter i gd op check = .next s' ∧ s'.thread? k = some u ∧ Excepts t u c 0 0 := by
  obtain ⟨b, h⟩ := s.runLanes_laneFault i (fun _ => true) (quarterFx i gd check) k t ht.once ht.mem ht.thread
    ((OpsOwn.of_nil fun _ _ h => quarterFx_ops h).laneOut s i _)
  obtain ⟨hk, u, hu, -, hex⟩ := h _ (ht.laneOut_fault ht.on.symm (hf b)) hc.1 hc.2 rfl
  obtain ⟨s', v, hs', hv, hq⟩ := State.issueQuarter_absent (op := op) (fun h => hk (List.mem_append_left _ h)) hu
  refine ⟨s', v, hs', hv, ?_⟩
  rw [hq]
  exact ⟨hex.pc, hex.kept, hex.held⟩

end

section
variable {i : Instr} {gd : Thread → Bool} {op : MatOp} {check : Lane → Option (BitVec 8)} {C : State → Nat → Thread → Prop}

theorem CompletesWhen.of_quarter (hx : ∀ s, exec i s = s.issueQuarter i gd op check) (hg : ∀ t, gd t = i.on t)
    (hf : ∀ s k t b, Takes s i k t → C s k t → quarterFx i gd check (s.laneAt k t b) = .ok {}) :
    CompletesWhen i C fun l u => u = { l.t.sent .tl [] with wins := u.wins, qseq := u.qseq } := by
  intro s k t ht hC
  obtain ⟨s', u, hs', hu, h⟩ := State.issueQuarter_arrives (op := op) ht (hg t) fun b => hf s k t b ht hC
  exact ⟨s', 0, u, (hx s).trans hs', hu, h⟩

theorem Traps.of_quarter {c : BitVec 8} (hx : ∀ s, exec i s = s.issueQuarter i gd op check) (hc : c ≠ 0x40 ∧ c ≠ 0x17)
    (hf : ∀ s k t b, Takes s i k t → C s k t → quarterFx i gd check (s.laneAt k t b) = .fault c 0 0 false) :
    Traps i C c (fun _ => 0) (fun _ => 0) := by
  intro s k t ht hC
  obtain ⟨s', u, hs', hu, h⟩ := State.issueQuarter_faults (op := op) ht hc fun b => hf s k t b ht hC
  exact ⟨s', 0, u, (hx s).trans hs', hu, h⟩

/-- On a lane whose guard is true a quarter word's slots are checked before its entry (log 60). -/
theorem quarterFx_on {l : Lane} (h : gd l.t = true) : quarterFx i gd check l = match check l with
    | some c => .fault c 0 0 false
    | none => if l.entryClash ((encode i).getD 0) then .fault 0x22 0 0 false else .ok {} := by
  rw [quarterFx, if_pos h]

end

/-! ### Slots and entries -/

/-- The formats that the matrix engine admits (R148). -/
def mmaFormats : List NFmt := [.fl .f16, .fl .bf16, .int 16 true, .int 16 false, .fl .e4m3, .fl .e5m2, .int 8 true, .int 8 false, .fl .e2m1,
  .int 4 true, .int 4 false]

theorem mmaAdmits_iff (f : NFmt) : mmaAdmits f = true ↔ f ∈ mmaFormats := by
  cases f with
  | fl g => cases g <;> decide
  | int w sg => cases sg <;> simp [mmaAdmits, mmaFormats, or_assoc]
  | scale => decide

theorem slotCheck_eq (sa sb : FSlot) (l : Lane) : slotCheck sa sb l =
    if ((match l.slotFmt sa, l.slotFmt sb with
      | some a, some b => if mmaAdmits a && mmaAdmits b && a.width == b.width then some (a, b) else none
      | _, _ => none) : Option (NFmt × NFmt)).isNone then some 0x07 else none := rfl

theorem slotCheck_eq_none {sa sb : FSlot} {l : Lane} {fa fb : NFmt} (ha : l.slotFmt sa = some fa) (hb : l.slotFmt sb = some fb)
    (hw : fa.width = fb.width) (hfa : fa ∈ mmaFormats) (hfb : fb ∈ mmaFormats) : slotCheck sa sb l = none := by
  rw [slotCheck_eq, ha, hb]
  simp [(mmaAdmits_iff fa).2 hfa, (mmaAdmits_iff fb).2 hfb, hw]

/-- Some slot is empty or not admitted, or the widths differ (R148). -/
def SlotsUnfit (sa sb : FSlot) (l : Lane) : Prop :=
  (∃ y ∈ [sa, sb], ∀ f, l.slotFmt y = some f → f ∉ mmaFormats)
    ∨ ∃ fa fb, l.slotFmt sa = some fa ∧ l.slotFmt sb = some fb ∧ fa.width ≠ fb.width

theorem slotCheck_of_unfit {sa sb : FSlot} {l : Lane} (h : SlotsUnfit sa sb l) : slotCheck sa sb l = some 0x07 := by
  have hno {f : NFmt} (h : f ∉ mmaFormats) : mmaAdmits f = false := Bool.eq_false_iff.2 fun hf => h ((mmaAdmits_iff f).1 hf)
  rw [slotCheck_eq]
  rcases h with ⟨y, hy, h⟩ | ⟨fa, fb, ha, hb, hw⟩
  · rcases ha : l.slotFmt sa with _ | fa
    · rfl
    · rcases hb : l.slotFmt sb with _ | fb
      · rfl
      · rcases List.mem_pair.1 hy with rfl | rfl
        · simp [hno (h fa ha)]
        · simp [hno (h fb hb)]
  · simp [ha, hb, hw]

theorem slotCheck_of_fit {sa sb : FSlot} {l : Lane} (h : ¬ SlotsUnfit sa sb l) : slotCheck sa sb l = none := by
  have hin (y : FSlot) (hy : y ∈ [sa, sb]) : ∃ f, l.slotFmt y = some f ∧ f ∈ mmaFormats := by
    by_contra hno
    exact h (.inl ⟨y, hy, fun f hf hm => hno ⟨f, hf, hm⟩⟩)
  obtain ⟨fa, ha, hfa⟩ := hin sa (by simp)
  obtain ⟨fb, hb, hfb⟩ := hin sb (by simp)
  exact slotCheck_eq_none ha hb (by_contra fun hw => h (.inr ⟨fa, fb, ha, hb, hw⟩)) hfa hfb

theorem Lane.entryClash_eq_false {l : Lane} {w : DWord} (h : ∀ e, l.s.openEnt l.t = some e → w = e.word ∧ e.pc = l.t.pc) :
    l.entryClash w = false := by
  unfold Lane.entryClash
  split
  · rfl
  · next e he =>
    obtain ⟨hw, hpc⟩ := h e he
    simp [hw, hpc]

theorem Lane.entryClash_eq_true {l : Lane} {w : DWord} {e : QEnt} (he : l.s.openEnt l.t = some e) (h : e.word ≠ w ∨ e.pc ≠ l.t.pc) :
    l.entryClash w = true := by
  unfold Lane.entryClash
  rw [he]
  simpa using h

/-- A word agrees with the open entry of a lane, or clashes with it (R139). -/
theorem Lane.entryClash_of_joins {i : Instr} {l : Lane} (h : ∀ e, l.s.openEnt l.t = some e → encode i = some e.word ∧ e.pc = l.t.pc) :
    l.entryClash ((encode i).getD 0) = false :=
  Lane.entryClash_eq_false fun e he => ⟨by rw [(h e he).1]; rfl, (h e he).2⟩

theorem Lane.entryClash_of_clash {i : Instr} {l : Lane}
    (h : ∃ e, l.s.openEnt l.t = some e ∧ ((∃ w, encode i = some w ∧ e.word ≠ w) ∨ e.pc ≠ l.t.pc)) :
    l.entryClash ((encode i).getD 0) = true := by
  obtain ⟨e, he, h⟩ := h
  refine Lane.entryClash_eq_true he (h.imp_left ?_)
  rintro ⟨w, hw, hne⟩
  rw [hw]
  exact hne

/-! ### The obligation -/

section
variable {i : Instr} {gd : Thread → Bool} {check : Lane → Option (BitVec 8)} {l : Lane}

theorem quarterFx_joins (hg : gd l.t = true) (hc : check l = none)
    (h : ∀ e, l.s.openEnt l.t = some e → encode i = some e.word ∧ e.pc = l.t.pc) : quarterFx i gd check l = .ok {} := by
  rw [quarterFx_on hg, hc]
  dsimp only
  rw [Lane.entryClash_of_joins h]
  rfl

theorem quarterFx_clash (hg : gd l.t = true) (hc : check l = none)
    (h : ∃ e, l.s.openEnt l.t = some e ∧ ((∃ w, encode i = some w ∧ e.word ≠ w) ∨ e.pc ≠ l.t.pc)) :
    quarterFx i gd check l = .fault 0x22 0 0 false := by
  rw [quarterFx_on hg, hc]
  dsimp only
  rw [Lane.entryClash_of_clash h]
  rfl

theorem quarterFx_unfit (hg : gd l.t = true) (hc : check l = some 0x07) : quarterFx i gd check l = .fault 0x07 0 0 false := by
  rw [quarterFx_on hg, hc]

end

theorem quarterWordsIssue : Rules.QuarterWordsIssue := by
  dsimp only [Rules.QuarterWordsIssue]
  refine ⟨fun x => ?_, fun x => ?_, fun x => ?_⟩
  · refine CompletesWhen.of_quarter (fun _ => rfl) (fun _ => rfl) fun s k t b ht ⟨fa, fb, ha, hb, hw, hfa, hfb, hent⟩ => ?_
    exact quarterFx_joins ht.on (slotCheck_eq_none ha hb hw hfa hfb) hent
  · refine CompletesWhen.of_quarter (fun _ => rfl) (fun _ => rfl) fun s k t b ht ⟨fa, fb, ha, hb, hw, hfa, hfb, hent⟩ => ?_
    exact quarterFx_joins ht.on (slotCheck_eq_none ha hb hw hfa hfb) hent
  · exact CompletesWhen.of_quarter (fun _ => rfl) (fun _ => rfl) fun s k t b ht hent => quarterFx_joins ht.on rfl hent

theorem quarterWordsFault : Rules.QuarterWordsFault := by
  dsimp only [Rules.QuarterWordsFault]
  refine ⟨fun x => ?_, fun x => ?_, fun x => ?_, fun x => ?_, fun x => ?_⟩
  · exact Traps.of_quarter (fun _ => rfl) (by decide) fun s k t b ht h => quarterFx_clash ht.on rfl h
  · exact Traps.of_quarter (fun _ => rfl) (by decide) fun s k t b ht h => quarterFx_clash ht.on (slotCheck_of_fit h.1) h.2
  · exact Traps.of_quarter (fun _ => rfl) (by decide) fun s k t b ht h => quarterFx_clash ht.on (slotCheck_of_fit h.1) h.2
  · exact Traps.of_quarter (fun _ => rfl) (by decide) fun s k t b ht h => quarterFx_unfit ht.on (slotCheck_of_unfit h)
  · exact Traps.of_quarter (fun _ => rfl) (by decide) fun s k t b ht h => quarterFx_unfit ht.on (slotCheck_of_unfit h)

/-- Settles O13: a lane's part of a quarter word decides between arriving and the two faults; the closing of entries then changes
sequence counts alone. -/
theorem quarterWords : Obligations.QuarterWords := ⟨quarterWordsIssue, quarterWordsFault⟩

end Sys2Proof.Machine
end

section
/-!
Control registers (13 R320, 14 R324, 15 R352, 16 R365, 17 R389 to R392): what a write takes.
-/

namespace Sys2Proof.Machine

/-! ### Fields kept of a word -/

/-- The fields of a list stand apart, the higher first. -/
abbrev Descending (l : List (Nat × Nat)) : Prop := l.Pairwise fun (f g : Nat × Nat) => g.1 + g.2 ≤ f.1

theorem keep_sum (v : DWord) {l : List (Nat × Nat)} (h : Descending l) (i : Nat) :
    ((l.map fun (f : Nat × Nat) => bits v f.1 f.2 * 2 ^ f.1).sum).testBit i
      = (v.toNat.testBit i && l.any fun (f : Nat × Nat) => decide (f.1 ≤ i) && decide (i < f.1 + f.2)) := by
  have below {l : List (Nat × Nat)} {n : Nat} (hl : ∀ f ∈ l, f.1 + f.2 ≤ n) (hd : Descending l) :
      (l.map fun (f : Nat × Nat) => bits v f.1 f.2 * 2 ^ f.1).sum < 2 ^ n := by
    induction l generalizing n with
    | nil => exact Nat.two_pow_pos n
    | cons f l ih =>
      obtain ⟨hf, hd⟩ := List.pairwise_cons.1 hd
      have hlow := ih hf hd
      have hb : bits v f.1 f.2 < 2 ^ f.2 := Nat.mod_lt _ (Nat.two_pow_pos _)
      have hn : 2 ^ (f.1 + f.2) ≤ 2 ^ n := Nat.pow_le_pow_right (by decide) (hl f List.mem_cons_self)
      rw [List.map_cons, List.sum_cons]
      rw [pow_add] at hn
      have := Nat.mul_le_mul_right (2 ^ f.1) (Nat.succ_le_of_lt hb)
      rw [Nat.succ_mul] at this
      linarith [Nat.mul_comm (2 ^ f.1) (2 ^ f.2)]
  induction l with
  | nil => simp
  | cons f l ih =>
    obtain ⟨hf, hd⟩ := List.pairwise_cons.1 h
    rw [List.map_cons, List.sum_cons, Nat.mul_comm, Nat.testBit_two_pow_mul_add _ (below hf hd), ih hd, List.any_cons, bits,
      Nat.testBit_mod_two_pow, Nat.testBit_div_two_pow]
    by_cases hi : i < f.1
    · have hn : decide (f.1 ≤ i) = false := decide_eq_false (by omega)
      simp [hi, hn]
    · have hno : (l.any fun (g : Nat × Nat) => decide (g.1 ≤ i) && decide (i < g.1 + g.2)) = false := by
        simp only [List.any_eq_false, Bool.and_eq_true, decide_eq_true_eq]
        intro g hg h
        have := hf g hg
        omega
      rw [if_neg hi, hno, Bool.or_false, show i - f.1 + f.1 = i by omega, decide_eq_true (Nat.not_lt.1 hi), Bool.true_and,
        show decide (i - f.1 < f.2) = decide (i < f.1 + f.2) from decide_eq_decide.2 (by omega), Bool.and_comm]

/-- What a register keeps of a word is the word under the mask of its fields. -/
theorem keep_eq_and (v m : DWord) {l : List (Nat × Nat)} (h : Descending l)
    (hm : ∀ i < 64, m.getLsbD i = l.any fun (f : Nat × Nat) => decide (f.1 ≤ i) && decide (i < f.1 + f.2)) : keep v l = v &&& m := by
  refine BitVec.eq_of_getLsbD_eq fun i hi => ?_
  rw [BitVec.getLsbD_and, hm i hi, keep, BitVec.getLsbD_ofNat, decide_eq_true hi, Bool.true_and, keep_sum v h]
  rfl

/-! ### Parts of the state -/

theorem SMap.ne_of_mem_erase {α : Type} {m : SMap α} {k : Nat} {e : Nat × α} (h : e ∈ SMap.erase m k) : e.1 ≠ k := by
  induction m with
  | nil => cases h
  | cons x m ih =>
    unfold SMap.erase at h
    split at h
    · exact ih h
    · next hx =>
      rcases List.mem_cons.1 h with rfl | h
      · exact fun h => hx h.symm
      · exact ih h

theorem State.part_updPart_same (s : State) (p : Nat) (f : Partition → Partition) : (s.updPart p f).part p = f (s.part p) :=
  SMap.get_set_same _ _ _ _

theorem State.part_updPart_other (s : State) {p q : Nat} (f : Partition → Partition) (h : q ≠ p) : (s.updPart p f).part q = s.part q :=
  SMap.get_set_other _ _ _ _ _ h

theorem State.grove_updGrove_same (s : State) (g : Nat) (f : GroveSt → GroveSt) : (s.updGrove g f).grove g = f (s.grove g) :=
  SMap.get_set_same _ _ _ _

theorem State.ld_updLd_same (s : State) (v : Nat) (f : LDev → LDev) : (s.updLd v f).ld v = f (s.ld v) := SMap.get_set_same _ _ _ _

theorem State.slot_updSlot_same (s : State) (a : Nat) (f : Slot → Slot) : (s.updSlot a f).slot a = f (s.slot a) :=
  SMap.get_set_same _ _ _ _

theorem Partition.lentry_updLentry_same (p : Partition) (i : Nat) (f : LEntry → LEntry) : (p.updLentry i f).lentry i = f (p.lentry i) :=
  SMap.get_set_same _ _ _ _

/-! ### The control window of a partition -/

section
variable {s : State} {p : Nat} {v : DWord}

theorem exec_controlRegisterWrite_window {off : Nat} (h8 : off % 8 = 0) (h : off < 2 ^ 24) :
    exec (.controlRegisterWrite p off v) s = .next (s.writeWindow p off v) := by
  change execControlRegisterWrite p off v s = _
  rw [execControlRegisterWrite, if_neg (not_not.2 h8), if_pos h]

theorem State.writeWindow_reg {off : Nat} (hv : (s.part p).v = true) (h : off < 0x200) : s.writeWindow p off v = s.writeReg p off v := by
  rw [State.writeWindow, hv, if_neg (by decide), if_pos h]

theorem exec_controlRegisterWrite_slot {a : Nat} (hv : (s.part p).v = true) (ha : a < 4096) :
    exec (.controlRegisterWrite p (0x200000 + 8 * a) v) s = .next (s.writeSlot p a v) := by
  rw [exec_controlRegisterWrite_window (by omega) (by omega), State.writeWindow, hv, if_neg (by decide), if_neg (by omega), if_neg (by omega),
    if_neg (by omega), if_neg (by omega), if_pos (by omega), show (0x200000 + 8 * a - 0x200000) / 8 = a by omega]

theorem exec_controlRegisterWrite_lentry {i : Nat} (hv : (s.part p).v = true) (hi : i < 4096) :
    exec (.controlRegisterWrite p (0x100000 + 256 * i + 128) v) s = .next (s.writeLentry p i v) := by
  rw [exec_controlRegisterWrite_window (by omega) (by omega), State.writeWindow, hv, if_neg (by decide), if_neg (by omega), if_neg (by omega),
    if_neg (by omega), if_pos (by omega), if_pos (by omega), show (0x100000 + 256 * i + 128 - 0x100000) / 256 = i by omega]

theorem exec_controlRegisterWrite_key {k j : Nat} (hv : (s.part p).v = true) (hk : k < 16) (hj : j < 8) :
    exec (.controlRegisterWrite p (0x800 + 64 * k + 8 * j) v) s = .next (s.writeKey p k j v) := by
  rw [exec_controlRegisterWrite_window (by omega) (by omega), State.writeWindow, hv, if_neg (by decide), if_neg (by omega), if_neg (by omega),
    if_pos (by omega), show (0x800 + 64 * k + 8 * j - 0x800) / 64 = k by omega, show (0x800 + 64 * k + 8 * j - 0x800) / 8 % 8 = j by omega]

theorem exec_controlRegisterWrite_bar {ld off : Nat} (hld : ld < 16) (ho : off < 4096) (h8 : off % 8 = 0) (hv : (s.ld ld).v = true) :
    exec (.controlRegisterWrite p (2 ^ 24 + 4096 * ld + off) v) s = .next (s.barWrite ld off v) := by
  change execControlRegisterWrite p _ v s = _
  rw [execControlRegisterWrite, if_neg (by omega), if_neg (by omega), if_pos (by omega)]
  dsimp only
  rw [show (2 ^ 24 + 4096 * ld + off - 2 ^ 24) / 4096 = ld by omega, hv, if_pos rfl, show (2 ^ 24 + 4096 * ld + off) % 4096 = off by omega]

theorem exec_controlRegisterWrite_tiermap {i : Nat} (hi : i < 18) :
    exec (.controlRegisterWrite p (2 ^ 25 + 8 * i) v) s = .next { s with tiermap := s.tiermap.put i (keep v [(61, 3), (36, 16)]) } := by
  change execControlRegisterWrite p _ v s = _
  rw [execControlRegisterWrite, if_neg (by omega), if_neg (by omega), if_neg (by omega), if_pos (by omega)]
  dsimp only
  rw [show (2 ^ 25 + 8 * i - 2 ^ 25) / 8 = i by omega, if_pos hi]

theorem exec_controlRegisterWrite_hdm {ld k : Nat} (hld : ld < 16) (hk : k < 3) :
    exec (.controlRegisterWrite p (2 ^ 26 + 32 * ld + 8 * k) v) s = .next (s.updLd ld fun d => d.writeHdm k v.toNat) := by
  change execControlRegisterWrite p _ v s = _
  rw [execControlRegisterWrite, if_neg (by omega), if_neg (by omega), if_neg (by omega), if_neg (by omega), if_pos (by omega)]
  dsimp only
  rw [show (2 ^ 26 + 32 * ld + 8 * k - 2 ^ 26) / 32 = ld by omega, show (2 ^ 26 + 32 * ld + 8 * k - 2 ^ 26) % 32 / 8 = k by omega,
    if_pos ⟨hld, hk⟩]

theorem exec_controlRegisterWrite_park {c off : Nat} (hc : c < 768) (ho : off < 65536) (h8 : off % 8 = 0) :
    exec (.controlRegisterWrite p (2 ^ 27 + 65536 * c + off) v) s = .next (s.writeParkReg c off v) := by
  change execControlRegisterWrite p _ v s = _
  rw [execControlRegisterWrite, if_neg (by omega), if_neg (by omega), if_neg (by omega), if_neg (by omega), if_neg (by omega)]
  dsimp only
  rw [show (2 ^ 27 + 65536 * c + off - 2 ^ 27) / 65536 = c by omega, if_pos hc, show (2 ^ 27 + 65536 * c + off) % 65536 = off by omega]

theorem shiftRight_setWidth (v : DWord) (i n : Nat) : (v >>> i).setWidth n = v.extractLsb' i n := by
  refine BitVec.eq_of_getLsbD_eq fun j hj => ?_
  simp [hj]

theorem State.writeSlot_idle {a : Nat} (hown : (s.slot a).own = true → (s.slot a).part.toNat = p) (hst : (s.slot a).st ≤ 1)
    (hpart : v.getLsbD 58 = true → (v.extractLsb' 59 5).toNat = p) :
    s.writeSlot p a v = s.updSlot a fun x => { x with own := bit v 58, part := (v >>> 59).setWidth 5 } := by
  unfold State.writeSlot
  dsimp only
  rw [if_neg, if_pos hst]
  rw [shiftRight_setWidth]
  simp only [Slot.reached, Bool.not_not, Bool.or_eq_true, Bool.and_eq_true, bne_iff_ne, not_or, not_and, not_not]
  exact ⟨hown, hpart⟩

/-- A write at an offset of a valid partition's window changes the partition's record as `f` says, and nothing else. -/
def SetsReg (off : Nat) (f : DWord → Partition → Partition) : Prop := ∀ (p : Nat) (v : DWord), Happens (.controlRegisterWrite p off v)
    (fun s => (s.part p).v = true ∧ (s.part p).frecs = [])
    fun s s' => s'.part p = f v (s.part p) ∧ (∀ q, q ≠ p → s'.part q = s.part q) ∧ s' = { s with parts := s'.parts }

theorem SetsReg.of_writeReg {off : Nat} {f : DWord → Partition → Partition} (h8 : off % 8 = 0) (h : off < 0x200)
    (hw : ∀ (s : State) (p : Nat) (v : DWord), (s.part p).frecs = [] → s.writeReg p off v = s.updPart p (f v)) : SetsReg off f := by
  intro p v s ⟨hv, hr⟩
  refine ⟨s.updPart p (f v), ?_, s.part_updPart_same p _, fun q hq => s.part_updPart_other _ hq, rfl⟩
  rw [exec_controlRegisterWrite_window h8 (h.trans (by decide)), State.writeWindow_reg hv h, hw s p v hr]

/-- A register that keeps some fields of the word written. -/
theorem SetsReg.of_keep {off : Nat} {m : DWord} {l : List (Nat × Nat)} {put : Partition → DWord → Partition} (h8 : off % 8 = 0)
    (h : off < 0x200) (hd : Descending l) (hm : ∀ i < 64, m.getLsbD i = l.any fun (f : Nat × Nat) => decide (f.1 ≤ i) && decide (i < f.1 + f.2))
    (hw : ∀ (s : State) (p : Nat) (v : DWord), (s.part p).frecs = [] → s.writeReg p off v = s.updPart p fun x => put x (keep v l)) :
    SetsReg off fun v p => put p (v &&& m) :=
  .of_writeReg h8 h fun s p v hr => by rw [hw s p v hr, keep_eq_and v m hd hm]

end

theorem setBits_low (c : BitVec 128) (v : DWord) : setBits c 0 64 v.toNat = (c.extractLsb' 64 64 : BitVec 64) ++ v := by
  refine BitVec.eq_of_getLsbD_eq fun i hi => ?_
  rw [setBits_testBit _ _ _ _ _ hi, BitVec.getLsbD_append, BitVec.getLsbD_extractLsb']
  by_cases h : i < 64
  · rw [if_pos (by omega), if_pos h]
    rfl
  · rw [if_neg (by omega), if_neg h, decide_eq_true (by omega : i - 64 < 64), Bool.true_and, show 64 + (i - 64) = i by omega]

theorem setBits_high (c : BitVec 128) (v : DWord) : setBits c 64 64 v.toNat = v ++ (c.extractLsb' 0 64 : BitVec 64) := by
  refine BitVec.eq_of_getLsbD_eq fun i hi => ?_
  rw [setBits_testBit _ _ _ _ _ hi, BitVec.getLsbD_append, BitVec.getLsbD_extractLsb']
  by_cases h : i < 64
  · rw [if_neg (by omega), if_pos h, decide_eq_true h, Bool.true_and, Nat.zero_add]
  · rw [if_pos (by omega), if_neg h]
    rfl

theorem Memory.holds_writeN (m : Memory) (a : Nat) (bs : List Byte) : Memory.holds m (Memory.writeN m a bs) a bs := by
  intro x
  split
  · next h =>
    obtain ⟨i, rfl⟩ := Nat.exists_eq_add_of_le h.1
    have hi : i < bs.length := by omega
    rw [Memory.read_writeN_inside m a i bs hi, Nat.add_sub_cancel_left, List.getD_eq_getElem _ _ hi]
  · exact Memory.read_writeN_outside m a x bs (by omega)

theorem LDev.writeHdm_hdm (d : LDev) {k : Nat} (hk : k < 3) (v : Nat) : (d.writeHdm k v).hdm =
    let x := d.hdm.getD (0, 0, 0)
    some (if k = 0 then v else x.1, if k = 1 then v else x.2.1, if k = 2 then v else x.2.2) := by
  rcases hx : d.hdm.getD (0, 0, 0) with ⟨b, n, a⟩
  simp only [LDev.writeHdm, hx]
  interval_cases k <;> rfl

/-! ### The rotation of a key -/

/-- A line that may have changed is written back, and leaves its slice. -/
def State.dropLine (s : State) (e : Nat × L2Line) : State :=
  { (if e.2.dirty || e.2.poison || e.2.err then s.writeBack (e.1 % 2 ^ 52) e.2 else s) with l2 := s.l2.erase e.1 }

theorem State.dropLine_eq (s : State) (e : Nat × L2Line) :
    (let z := if e.2.dirty || e.2.poison || e.2.err then s.writeBack (e.1 % 2 ^ 52) e.2 else s
     { z with l2 := z.l2.erase e.1 }) = s.dropLine e := by
  unfold State.dropLine
  dsimp only
  split <;> rfl

theorem State.foldl_dropLine (l : List (Nat × L2Line)) (s : State) :
    (l.foldl State.dropLine s).parts = s.parts
      ∧ ∀ e ∈ (l.foldl State.dropLine s).l2, e ∈ s.l2 ∧ ∀ x ∈ l, x.1 ≠ e.1 := by
  induction l generalizing s with
  | nil => exact ⟨rfl, fun e he => ⟨he, nofun⟩⟩
  | cons x l ih =>
    obtain ⟨hp, hl⟩ := ih (s.dropLine x)
    refine ⟨hp.trans ?_, fun e he => ?_⟩
    · unfold State.dropLine
      split <;> rfl
    · obtain ⟨hmem, hno⟩ := hl e he
      have hne : e.1 ≠ x.1 := SMap.ne_of_mem_erase hmem
      exact ⟨SMap.mem_erase _ _ _ hmem, List.forall_mem_cons.2 ⟨hne.symm, hno⟩⟩

/-- Before a key changes, no line under it stays in a slice (R192). -/
theorem State.flushKey_eq (s : State) (p k : Nat) : ∃ l1, s.flushKey p k =
    { (s.l2.filter fun e => e.2.part == p && e.2.key.kid == k).foldl State.dropLine s with l1 := l1 } := by
  unfold State.flushKey
  simp only [State.dropLine_eq]
  exact ⟨_, rfl⟩

theorem State.flushKey_parts (s : State) (p k : Nat) : (s.flushKey p k).parts = s.parts := by
  obtain ⟨l1, h⟩ := s.flushKey_eq p k
  rw [h]
  exact (State.foldl_dropLine _ s).1

theorem State.not_mem_flushKey {s : State} {p k : Nat} (e : Nat × L2Line) (he : e ∈ (s.flushKey p k).l2) :
    ¬ (e.2.part = p ∧ e.2.key.kid = k) := by
  obtain ⟨l1, h⟩ := s.flushKey_eq p k
  rw [h] at he
  obtain ⟨hmem, hno⟩ := (State.foldl_dropLine _ s).2 e he
  rintro ⟨rfl, rfl⟩
  exact hno e (List.mem_filter.2 ⟨hmem, by simp⟩) rfl

/-- FBCFG with no record waiting for room. -/
theorem State.writeReg_fbcfg (s : State) (p : Nat) (v : DWord) (h : (s.part p).frecs = []) :
    s.writeReg p 0x38 v = s.updPart p fun x => { x with fbcfg := keep v [(9, 55)] } := by
  have hd (n : Nat) (z : State) (hz : (z.part p).frecs = []) : z.drainRecs p n = z := by
    cases n with
    | zero => rfl
    | succ n =>
      unfold State.drainRecs
      dsimp only
      rw [hz]
      rfl
  refine (rfl : _ = State.drainRecs _ p _).trans (hd _ _ ?_)
  rw [State.part_updPart_same]
  exact h

/-- Settles O50: an offset names one register, and a register's write keeps its fields. -/
theorem controlRegisterWrites : Obligations.ControlRegisterWrites := by
  unfold Obligations.ControlRegisterWrites
  intro sets
  have key : sets = SetsReg := rfl
  clear_value sets
  subst key
  refine ⟨?_, ?_, ?_, ?_, ?_, ?_, ?_, ?_, ?_, ?_, ?_, ?_, ?_, ?_, ?_, ?_, ?_, ?_, ?_, ?_, ?_, ?_⟩
  · exact .of_writeReg (by decide) (by decide) fun s p v _ => rfl
  · exact .of_keep (l := [(16, 36)]) (put := fun p v => { p with ttb := v }) (by decide) (by decide) (by decide) (by decide)
      fun s p v _ => rfl
  · exact .of_keep (l := [(43, 21)]) (put := fun p v => { p with trc := v }) (by decide) (by decide) (by decide) (by decide)
      fun s p v _ => rfl
  · exact .of_writeReg (by decide) (by decide) fun s p v _ => rfl
  · exact .of_keep (l := [(9, 55)]) (put := fun p v => { p with fbcfg := v }) (by decide) (by decide) (by decide) (by decide)
      fun s p v hr => State.writeReg_fbcfg s p v hr
  · exact .of_keep (l := [(0, 10)]) (put := fun p v => { p with fbdes := v }) (by decide) (by decide) (by decide) (by decide)
      fun s p v _ => rfl
  · exact .of_keep (l := [(0, 25)]) (put := fun p v => { p with hrda := v }) (by decide) (by decide) (by decide) (by decide)
      fun s p v _ => rfl
  · exact .of_keep (l := [(20, 32), (8, 8), (0, 5)]) (put := fun p v => { p with rbcfg := v }) (by decide) (by decide) (by decide) (by decide)
      fun s p v _ => rfl
  · exact .of_keep (l := [(0, 24)]) (put := fun p v => { p with fabcfg := v }) (by decide) (by decide) (by decide) (by decide)
      fun s p v _ => rfl
  · refine .of_writeReg (by decide) (by decide) fun s p v _ => ?_
    simp only [← setBits_low]
    rfl
  · refine .of_writeReg (by decide) (by decide) fun s p v _ => ?_
    simp only [← keep_eq_and v 0xFFF (l := [(0, 12)]) (by decide) (by decide), ← setBits_high]
    rfl
  · exact .of_keep (l := [(0, 32)]) (put := fun p v => { p with svteam := v }) (by decide) (by decide) (by decide) (by decide)
      fun s p v _ => rfl
  · exact .of_writeReg (by decide) (by decide) fun s p v _ => rfl
  · exact .of_keep (l := [(0, 52)]) (put := fun p v => { p with lbaddr := v }) (by decide) (by decide) (by decide) (by decide)
      fun s p v _ => rfl
  · intro p k j v hk hj s ⟨hv, hne⟩
    refine ⟨(s.flushKey p k).updPart p fun x => { x with keys := x.keys.put k { (s.part p).keys.get KeyEnt.blank k with
      words := ((s.part p).keys.get KeyEnt.blank k).words.put j v } }, ?_, ?_, fun i hi => ?_, fun q hq => ?_, fun _ e he => ?_⟩
    · rw [exec_controlRegisterWrite_key hv hk hj, State.writeKey]
      exact congrArg _ (if_neg hne)
    · rw [State.part_updPart_same, SMap.get, SMap.find?_put_same]
      exact SMap.find?_put_same _ _ _
    · rw [State.part_updPart_same, SMap.get, SMap.find?_put_same]
      exact SMap.find?_put_other _ _ _ _ hi
    · rw [State.part_updPart_other _ _ hq, State.part, State.flushKey_parts]
      rfl
    · exact State.not_mem_flushKey e he
  · intro p g i v s ⟨hv, hi, hg⟩
    refine ⟨s.updGrove g fun x => { x with cfgNext := some (keep v [(63, 1), (32, 11), (16, 11), (0, 7)]) }, ?_, ?_, rfl⟩
    · rw [exec_controlRegisterWrite_window (by omega) (by omega), State.writeWindow, hv, if_neg (by decide), if_neg (by omega),
        if_pos (by omega), show (0x200 + 16 * i - 0x200) / 16 = i by omega, hg]
      exact congrArg _ (if_pos (by omega))
    · rw [State.grove_updGrove_same, keep_eq_and v 0x800007FF07FF007F (by decide) (by decide)]
  · intro p a v ha s ⟨hv, hown, hst, hpart⟩
    refine ⟨s.updSlot a fun x => { x with own := bit v 58, part := (v >>> 59).setWidth 5 }, ?_, ?_, rfl⟩
    · rw [exec_controlRegisterWrite_slot hv ha, State.writeSlot_idle hown hst hpart]
    · rw [State.slot_updSlot_same, shiftRight_setWidth]
      rfl
  · intro p i v hi s ⟨hv, hb⟩
    refine ⟨s.updPart p fun x => x.updLentry i fun e => { e with ctx := (v >>> 31).setWidth 16 }, ?_, ?_,
      fun q hq => s.part_updPart_other _ hq, rfl⟩
    · rw [exec_controlRegisterWrite_lentry hv hi, State.writeLentry, if_neg (by omega)]
      exact congrArg _ (if_pos hb)
    · rw [State.part_updPart_same, Partition.lentry_updLentry_same, shiftRight_setWidth]
  · intro p ld v hld
    refine ⟨fun s hv => ⟨s.updLd ld fun d => if bit v 0 then { d with go := true } else d,
      exec_controlRegisterWrite_bar hld (by omega) (by omega) hv, ?_, rfl⟩, fun i hi s hv =>
      ⟨s.updLd ld fun d => { d with bar := Memory.writeN d.bar (0x100 + 8 * i) (leBytes 8 v.toNat) }, ?_, ?_, rfl⟩⟩
    · rw [State.ld_updLd_same]
      by_cases hb : v.getLsbD 0 = true
      · rw [if_pos (show bit v 0 = true from hb), hb, Bool.or_true]
      · rw [if_neg (show ¬ bit v 0 = true from hb), Bool.eq_false_iff.2 hb, Bool.or_false]
    · rw [Nat.add_assoc, exec_controlRegisterWrite_bar hld (by omega) (by omega) hv, State.barWrite, if_neg (by omega), if_pos (by omega)]
    · rw [State.ld_updLd_same]
      exact Memory.holds_writeN _ _ _
  · intro p i v hi s _
    refine ⟨_, exec_controlRegisterWrite_tiermap hi, ?_, rfl⟩
    rw [SMap.find?_put_same, keep_eq_and v 0xE00FFFF000000000 (by decide) (by decide)]
  · intro p ld k v hld hk s _
    refine ⟨_, exec_controlRegisterWrite_hdm hld hk, rfl, ?_⟩
    rw [State.ld_updLd_same]
    exact LDev.writeHdm_hdm _ hk _
  · intro p c v hc
    refine ⟨fun s _ => ⟨s.updCore c fun x => { x with pkie := v.setWidth 2 }, exec_controlRegisterWrite_park hc (by omega) (by omega), ?_, rfl⟩,
      fun s _ => ⟨s.updCore c fun x => { x with pksel := v.setWidth 9 }, exec_controlRegisterWrite_park hc (by omega) (by omega), ?_, rfl⟩,
      fun i hi s _ => ⟨s.updCore c fun x => { x with pkcmdm := setBits x.pkcmdm (64 * i) 64 v.toNat }, ?_, ?_, rfl⟩⟩
    · rw [State.core_updCore_same]
      exact congrArg (fun b => { s.core c with pkie := b }) (shiftRight_setWidth v 0 2)
    · rw [State.core_updCore_same]
      exact congrArg (fun b => { s.core c with pksel := b }) (shiftRight_setWidth v 0 9)
    · rw [Nat.add_assoc, exec_controlRegisterWrite_park hc (by omega) (by omega), State.writeParkReg, if_neg (by omega), if_neg (by omega),
        if_pos (by omega), show (0x40 + 8 * i - 0x40) / 8 = i by omega]
    · rw [State.core_updCore_same]
      refine BitVec.eq_of_getLsbD_eq fun j hj => ?_
      rw [BitVec.getLsbD_extractLsb', decide_eq_true hj, Bool.true_and, setBits_testBit _ _ _ _ _ (by omega), if_pos (by omega),
        Nat.add_sub_cancel_left]
      rfl

end Sys2Proof.Machine
end

section
/-!
Words that issue operations (08 R196, R197): what a run of the lanes leaves among the outstanding operations.
-/

namespace Sys2Proof.Machine

/-! ### Exceptions leave the operations -/

/-- What an exception leaves besides threads, cores and what the fault buffer and the caches hold: all else of `State.control`. -/
def State.unthreaded (s : State) : State := { s.control with threads := [] }

theorem State.unthreaded_of_control {s t : State} (h : t.control = s.control) : t.unthreaded = s.unthreaded := by
  unfold State.unthreaded
  rw [h]

theorem State.foldl_unthreaded {β : Type} (f : State → β → State) (hf : ∀ s b, (f s b).unthreaded = s.unthreaded) (l : List β) (s : State) :
    (l.foldl f s).unthreaded = s.unthreaded := by
  induction l generalizing s with
  | nil => rfl
  | cons b l ih => exact (ih _).trans (hf s b)

theorem State.parkGroup_unthreaded (s : State) (core b : Nat) (ls : List LFault) (recs : List (Nat × Nat)) :
    (s.parkGroup core b ls recs).unthreaded = s.unthreaded := by
  have each (g : LFault → Thread → Thread) (s : State) :
      (ls.foldl (fun s (m : LFault) => s.updThread m.slot (g m)) s).unthreaded = s.unthreaded :=
    State.foldl_unthreaded (fun s (m : LFault) => s.updThread m.slot (g m)) (fun _ _ => rfl) ls s
  have leave (s : State) : (ls.foldl (fun s (m : LFault) => s.leaveRegroup m.slot) s).unthreaded = s.unthreaded :=
    State.foldl_unthreaded (fun s (m : LFault) => s.leaveRegroup m.slot) (fun _ _ => rfl) ls s
  unfold State.parkGroup
  split
  · rfl
  · split
    · dsimp only
      split
      · exact (leave _).trans (each _ _)
      · exact each _ _
    · exact each _ _

theorem State.fault_unthreaded (s : State) (core b : Nat) (ls : List LFault) : (s.fault core b ls).unthreaded = s.unthreaded := by
  unfold State.fault
  split
  · rfl
  · dsimp only
    refine (State.foldl_unthreaded _ (fun s c => ?_) _ _).trans ?_
    · exact (State.parkGroup_unthreaded _ _ _ _ _).trans (State.unthreaded_of_control (State.reportLanes_control _ _ _ _))
    · refine (State.foldl_unthreaded _ (fun s (l : LFault) => ?_) _ _).trans
        (State.foldl_unthreaded _ (fun s (l : LFault) => State.unthreaded_of_control (s.usedAnswer_control _)) _ _)
      exact State.unthreaded_of_control ((State.updTeam_control _ _ _).trans (s.meets_control _ _ _))

theorem State.ops_of_unthreaded {s t : State} (h : t.unthreaded = s.unthreaded) : t.ops = s.ops := congrArg (fun x => x.ops) h
theorem State.nextOp_of_unthreaded {s t : State} (h : t.unthreaded = s.unthreaded) : t.nextOp = s.nextOp := congrArg (fun x => x.nextOp) h

theorem State.stepTraps_unthreaded (s : State) (pc : DWord) (ks : List Nat) : (s.stepTraps pc ks).unthreaded = s.unthreaded :=
  State.fault_unthreaded _ _ _ _

/-! ### Operations are added at the end -/

/-- Operations issue between two states: those outstanding stay, and numbers go on rising. -/
structure OpsGrow (s s' : State) : Prop where
  kept : s.ops ⊆ s'.ops
  next : s.nextOp ≤ s'.nextOp

theorem OpsGrow.refl (s : State) : OpsGrow s s := ⟨fun _ h => h, le_rfl⟩

theorem OpsGrow.trans {s s' s'' : State} (h : OpsGrow s s') (h' : OpsGrow s' s'') : OpsGrow s s'' :=
  ⟨fun _ ho => h'.kept (h.kept ho), h.next.trans h'.next⟩

theorem OpsGrow.of_eq {s s' : State} (ho : s'.ops = s.ops) (hn : s'.nextOp = s.nextOp) : OpsGrow s s' :=
  ⟨fun _ h => ho ▸ h, hn.ge⟩

theorem OpsGrow.of_control {s s' : State} (h : s'.control = s.control) : OpsGrow s s' :=
  .of_eq (State.control_ops h) (State.control_nextOp h)

theorem OpsGrow.foldl {β : Type} {f : State → β → State} (hf : ∀ s b, OpsGrow s (f s b)) (l : List β) (s : State) : OpsGrow s (l.foldl f s) := by
  induction l generalizing s with
  | nil => exact .refl s
  | cons b l ih => exact (hf s b).trans (ih _)

theorem State.renewed_ops (s : State) (o : Op) : (s.renewed o).ops = s.ops ∧ (s.renewed o).nextOp = s.nextOp := by
  unfold State.renewed
  split
  · exact ⟨rfl, rfl⟩
  · split <;> exact ⟨rfl, rfl⟩

theorem State.issueOp_opsGrow (s : State) (o : Op) : OpsGrow s (s.issueOp o) :=
  ⟨fun _ h => List.mem_append_left _ h, Nat.le_succ _⟩

theorem State.onward_ops (s : State) (k : Nat) : (s.onward k).ops = s.ops ∧ (s.onward k).nextOp = s.nextOp := by
  have ho : (s.usedAnswer (.lane k)).ops = s.ops := State.control_ops (s.usedAnswer_control _)
  have hn : (s.usedAnswer (.lane k)).nextOp = s.nextOp := State.control_nextOp (s.usedAnswer_control _)
  unfold State.onward
  dsimp only
  split <;> exact ⟨ho, hn⟩

theorem State.onward_opsGrow (s : State) (k : Nat) : OpsGrow s (s.onward k) := .of_eq (s.onward_ops k).1 (s.onward_ops k).2

theorem State.applyLane_opsGrow (s : State) (k : Nat) (o : LaneOut) : OpsGrow s (s.applyLane k o) := by
  cases o with
  | off => exact (s.onward_opsGrow k).trans (.of_eq rfl rfl)
  | fault l => exact s.onward_opsGrow k
  | ask vpn w iss =>
    refine (OpsGrow.of_control (s.usedAnswer_control (.lane k))).trans (OpsGrow.trans (s' := { (s.usedAnswer (.lane k)).updThread k fun t =>
      { t with hold := .xlate vpn } with late := s.late.put k iss }) (.of_eq rfl rfl) (.of_control (State.askHost_control _ _ _ _ _)))
  | ok fx =>
    refine (s.onward_opsGrow k).trans ?_
    simp only [State.applyLane]
    refine (OpsGrow.trans (s' := (s.onward k).updThread k fun t => match fx.jump with
      | none => (fx.th t).next
      | some pc => (fx.th t).setPc pc) (.of_eq rfl rfl) ?_)
    refine (OpsGrow.foldl (fun s o => s.issueOp_opsGrow o) fx.ops _).trans ?_
    cases fx.req <;> exact .of_eq rfl rfl

/-- A lane whose part issues one operation adds it under a number of its own. -/
theorem State.applyLane_issues (s : State) (k : Nat) (fx : Fx) (o : Op) (ho : fx.ops = [o]) :
    ∃ n, s.nextOp ≤ n ∧ { o with id := n } ∈ (s.applyLane k (.ok fx)).ops := by
  refine ⟨(s.onward k).nextOp, (s.onward_ops k).2.ge, ?_⟩
  unfold State.applyLane
  simp only [ho, List.foldl_cons, List.foldl_nil]
  cases fx.req <;> exact List.mem_append_right _ List.mem_cons_self

theorem State.foldl_applyLane_issues {outs : List (Nat × LaneOut)} {k : Nat} {fx : Fx} {o : Op} (hmem : (k, .ok fx) ∈ outs)
    (ho : fx.ops = [o]) (s : State) :
    ∃ n, s.nextOp ≤ n ∧ { o with id := n } ∈ (outs.foldl (fun s e => s.applyLane e.1 e.2) s).ops := by
  induction outs generalizing s with
  | nil => cases hmem
  | cons e outs ih =>
    rcases List.mem_cons.1 hmem with rfl | hmem
    · obtain ⟨n, hn, hin⟩ := s.applyLane_issues k fx o ho
      exact ⟨n, hn, (OpsGrow.foldl (fun s (e : Nat × LaneOut) => s.applyLane_opsGrow e.1 e.2) outs _).kept hin⟩
    · obtain ⟨n, hn, hin⟩ := ih hmem (s.applyLane e.1 e.2)
      exact ⟨n, (s.applyLane_opsGrow e.1 e.2).next.trans hn, hin⟩

theorem State.setDeps_ops (s : State) (k : Nat) (l : List RegId) (n : Nat) : (s.setDeps k l n).ops = s.ops := rfl

theorem State.foldl_ops {β : Type} (f : State → β → State) (hf : ∀ s b, (f s b).ops = s.ops) (l : List β) (s : State) :
    (l.foldl f s).ops = s.ops := by
  induction l generalizing s with
  | nil => rfl
  | cons b l ih => exact (ih _).trans (hf s b)

theorem State.noteDeps_ops (s s0 : State) (i : Instr) (outs : List (Nat × LaneOut)) : (s.noteDeps s0 i outs).ops = s.ops := by
  unfold State.noteDeps
  split
  · rfl
  · refine State.foldl_ops _ (fun s e => ?_) _ s
    split
    · rfl
    · exact State.foldl_ops _ (fun s f => s.setDeps_ops _ _ _) _ s

theorem State.charge_ops (s : State) (i : Instr) (l : List Nat) : (s.charge i l).ops = s.ops ∧ (s.charge i l).nextOp = s.nextOp := by
  unfold State.charge
  split <;> exact ⟨rfl, rfl⟩

/-! ### A lane that issues one operation -/

section
variable (s : State) (i : Instr) (gd : Thread → Bool) (f : Lane → LaneRes) (k : Nat) (t : Thread)

/-- A lane that takes a word whose part issues one operation: its thread and the operation after the run. -/
theorem State.runLanes_issues (h : Takes s i k t) (hg : gd t = i.on t) (hops : OpsOwn f)
    (hok : ∀ b, ∃ fx o, f (s.laneAt k t b) = .ok fx ∧ fx.ops = [o] ∧ fx.req = none ∧ fx.jump = none) :
    k ∈ (s.runLanes i gd f).took ∧ ∃ b u fx o n d, f (s.laneAt k t b) = .ok fx ∧ fx.ops = [o]
      ∧ (s.runLanes i gd f).s.thread? k = some u ∧ SentTo (fx.th t) u o.cls o.marks ∧ s.nextOp ≤ n
      ∧ { o with id := n, dep := d } ∈ (s.runLanes i gd f).s.ops := by
  obtain ⟨b, hmem, honly, hfold⟩ := State.outcomes_thread s i gd f k t _ (s.issueSet_nodup i h.once) h.mem h.thread s.fresh
    (hops.laneOut s i gd)
  have hout (b : Nat) : ∃ fx o, f (s.laneAt k t b) = .ok fx ∧ fx.ops = [o] ∧ fx.req = none ∧ fx.jump = none
      ∧ s.laneOut i gd f b k t = .ok { fx with ops := fx.ops.map fun o => { o with dep := s.depOf k (i.opSrcs t) } } := by
    obtain ⟨fx, o, hfx, h1⟩ := hok b
    refine ⟨fx, o, hfx, h1.1, h1.2.1, h1.2.2, ?_⟩
    rw [h.laneOut gd f b hg]
    change (match f (s.laneAt k t b) with | .ok fx => _ | .fault c va aux w => _ | .ask vpn w => _) = _
    rw [hfx]
  obtain ⟨fx, o, hfx, ho, hr, hj, hlane⟩ := hout b
  rw [hlane] at hmem hfold
  have hops1 : (fx.ops.map fun o => { o with dep := s.depOf k (i.opSrcs t) }) = [{ o with dep := s.depOf k (i.opSrcs t) }] := by rw [ho]; rfl
  rw [hops1] at hmem hfold
  refine ⟨List.mem_map.2 ⟨_, List.mem_filter.2 ⟨hmem, rfl⟩, rfl⟩, ?_⟩
  obtain ⟨u, ⟨_, r, a, -, hu⟩, hthread⟩ := hfold (s.charge i (s.issueSet i)) (by simpa using h.thread)
  obtain ⟨n, hn, hin⟩ := State.foldl_applyLane_issues hmem rfl (s.charge i (s.issueSet i))
  refine ⟨b, u, fx, o, n, s.depOf k (i.opSrcs t), hfx, ho, ?_, ?_, ((s.charge_ops i _).2.symm.trans_le hn), ?_⟩
  · unfold State.runLanes
    dsimp only
    rw [State.fault_thread?]
    · exact (State.noteDeps_thread? _ _ i _ k).trans hthread
    · apply faultsOf_slot
      · intro e he l hl
        obtain ⟨_, v, c, _, hc⟩ := State.mem_outcomes s i gd f _ _ e he
        exact State.laneOut_fault_slot s i gd f c e.1 v l (hc ▸ hl)
      · intro e he hek l hl
        have := (honly e he hek).symm.trans hl
        rw [hlane] at this
        cases this
  · rw [hu]
    simp only [LaneOut.thread, Fx.after, hr, hj, List.foldl_cons, List.foldl_nil, Thread.counted_next, SentTo]
  · unfold State.runLanes
    dsimp only
    rw [State.ops_of_unthreaded (State.fault_unthreaded _ _ _ _)]
    exact (State.noteDeps_ops _ _ _ _).symm ▸ hin

end

/-! ### Words by their part on a lane -/

/-- A word runs on its lanes by a part `f`; what it does besides leaves threads as that run left them, and is in a relation `Q` to it. -/
structure RunsIn (Q : State → State → Prop) (i : Instr) (gd : Thread → Bool) (f : State → Lane → LaneRes) : Prop where
  guard : ∀ t, gd t = i.on t
  own : ∀ s, OpsOwn (f s)
  runs : ∀ s, ∃ z : State, exec i s = .next (z.stepTraps s.cur.pc ((s.runLanes i gd (f s)).took ++ (s.runLanes i gd (f s)).off))
    ∧ (∀ k, z.thread? k = (s.runLanes i gd (f s)).s.thread? k) ∧ Q (s.runLanes i gd (f s)).s z

/-- The same, where the operations too are as the run left them. -/
abbrev RunsBy : Instr → (Thread → Bool) → (State → Lane → LaneRes) → Prop := RunsIn fun r z => z.ops = r.ops

theorem RunsBy.of_issue {i : Instr} {gd : Thread → Bool} {f : State → Lane → LaneRes} (hg : ∀ t, gd t = i.on t) (hops : ∀ s, OpsOwn (f s))
    (hx : ∀ s, exec i s = s.issue i gd (f s)) : RunsBy i gd f :=
  ⟨hg, hops, fun s => ⟨_, hx s, fun _ => rfl, rfl⟩⟩

theorem State.endIntervals_ops (s : State) (ks : List Nat) : (s.endIntervals ks).ops = s.ops := by
  refine State.foldl_ops _ (fun z j => ?_) _ s
  split <;> rfl

theorem State.noteIntervals_thread? (s : State) (n : Nat) (ks : List Nat) (k : Nat) : (s.noteIntervals n ks).thread? k = s.thread? k :=
  (State.endIntervals_thread? _ _ k).trans (State.endIntervals_thread? _ _ k)

theorem State.noteIntervals_ops (s : State) (n : Nat) (ks : List Nat) : (s.noteIntervals n ks).ops = s.ops :=
  (State.endIntervals_ops _ _).trans (State.endIntervals_ops _ _)

theorem RunsBy.of_issueMem {i : Instr} {gd : Thread → Bool} {ends : State → Bool} {f : Lane → LaneRes} (hg : ∀ t, gd t = i.on t)
    (hops : OpsOwn f) (hx : ∀ s, exec i s = s.issueMem i gd (ends s) f) : RunsBy i gd fun _ => f :=
  ⟨hg, fun _ => hops, fun s => ⟨_, hx s, State.noteIntervals_thread? _ _ _, State.noteIntervals_ops _ _ _⟩⟩

theorem Traps.of_runs {Q : State → State → Prop} {i : Instr} {gd : Thread → Bool} {f : State → Lane → LaneRes} {C : State → Nat → Thread → Prop} {code : BitVec 8}
    {va aux : Lane → DWord} (h : RunsIn Q i gd f) (hc : code ≠ 0x40 ∧ code ≠ 0x17)
    (hf : ∀ s k t b, Takes s i k t → C s k t → ∃ w, f s (s.laneAt k t b) = .fault code (va (s.laneAt k t b)) (aux (s.laneAt k t b)) w) :
    Traps i C code va aux := by
  intro s k t ht hC
  obtain ⟨z, hz, hthread, -⟩ := h.runs s
  obtain ⟨b, hb⟩ := s.runLanes_laneFault i gd (f s) k t ht.once ht.mem ht.thread ((h.own s).laneOut s i gd)
  obtain ⟨w, hw⟩ := hf s k t b ht hC
  obtain ⟨hk, u, hu, -, hex⟩ := hb _ (ht.laneOut_fault (h.guard t) hw) hc.1 hc.2 rfl
  exact ⟨_, b, u, hz, (State.stepTraps_other _ _ _ k hk).trans ((hthread k).trans hu), hex⟩

theorem CompletesWhen.of_runs {Q : State → State → Prop} {i : Instr} {gd : Thread → Bool} {f : State → Lane → LaneRes} {C : State → Nat → Thread → Prop}
    {P : Lane → Thread → Prop} (h : RunsIn Q i gd f)
    (hf : ∀ s k t b, Takes s i k t → C s k t → ∃ fx, f s (s.laneAt k t b) = .ok fx ∧ fx.ops = [] ∧ fx.req = none
      ∧ (fx.after t).step = t.step ∧ P (s.laneAt k t b) (fx.after t)) : CompletesWhen i C P := by
  intro s k t ht hC
  obtain ⟨z, hz, hthread, -⟩ := h.runs s
  obtain ⟨-, b, fx, hfx, hk⟩ := s.runLanes_takes i gd (f s) k t ht (h.guard t) (h.own s) fun b => by
    obtain ⟨fx, h, ho, hr, -⟩ := hf s k t b ht hC
    exact ⟨fx, h, ho, hr⟩
  obtain ⟨fx', hfx', -, -, hs, hP⟩ := hf s k t b ht hC
  cases hfx.symm.trans hfx'
  have hk := (hthread k).trans hk
  refine ⟨_, b, _, hz, (State.stepTraps_thread? _ _ _ k fun v hv => ?_).trans hk, hP⟩
  rw [← Option.some.inj (hk.symm.trans hv)]
  exact hs.trans ht.free

theorem SentTo.step {t u : Thread} {c : Cls} {marks : List RegId} (h : SentTo t u c marks) : u.step = t.step := by
  rw [h]
  rfl

/-- What a part of a word that issues one operation gives. -/
def SendsOne (l : Lane) (r : LaneRes) (o : Op) : Prop :=
  ∃ fx, r = .ok fx ∧ fx.ops = [o] ∧ fx.req = none ∧ fx.jump = none ∧ fx.th l.t = l.t ∧ o.slot = l.slot ∧ o.pc = l.t.pc ∧ o.part = l.part

/-- A word issues one operation on each lane that takes it where its part does, whatever the part writes besides. -/
theorem Issues.of_runs_writing {i : Instr} {gd : Thread → Bool} {f : State → Lane → LaneRes} {C : State → Nat → Thread → Prop}
    {P : Lane → Thread → Op → Prop} (h : RunsBy i gd f)
    (hf : ∀ s k t b, Takes s i k t → C s k t → ∃ fx o, f s (s.laneAt k t b) = .ok fx ∧ fx.ops = [o] ∧ fx.req = none ∧ fx.jump = none
      ∧ (fx.th t).step = t.step ∧ o.slot = k ∧ o.pc = t.pc ∧ o.part = s.partOf k
      ∧ ∀ u n d, SentTo (fx.th t) u o.cls o.marks → P (s.laneAt k t b) u { o with id := n, dep := d }) : Issues i C P := by
  intro s k t ht hC
  obtain ⟨z, hz, hthread, hzops⟩ := h.runs s
  obtain ⟨-, b, u, fx, o, n, d, hfx, ho, hu, hsent, hn, hin⟩ := s.runLanes_issues i gd (f s) k t ht (h.guard t) (h.own s) fun b => by
    obtain ⟨fx, o, h1, h2, h3, h4, -⟩ := hf s k t b ht hC
    exact ⟨fx, o, h1, h2, h3, h4⟩
  obtain ⟨fx', o', h1, h2, -, -, hstep, hslot, hpc, hpart, hP⟩ := hf s k t b ht hC
  cases hfx.symm.trans h1
  cases ho.symm.trans h2
  have hk := (hthread k).trans hu
  refine ⟨_, b, u, hz, (State.stepTraps_thread? _ _ _ k fun v hv => ?_).trans hk, { o with id := n, dep := d }, ?_, hslot, hn, hpc, hpart, hP u n d hsent⟩
  · rw [← Option.some.inj (hk.symm.trans hv)]
    exact hsent.step.trans (hstep.trans ht.free)
  · rw [State.ops_of_unthreaded (State.stepTraps_unthreaded _ _ _), hzops]
    exact hin

theorem Issues.of_runs {i : Instr} {gd : Thread → Bool} {f : State → Lane → LaneRes} {C : State → Nat → Thread → Prop}
    {P : Lane → Thread → Op → Prop} (h : RunsBy i gd f)
    (hf : ∀ s k t b, Takes s i k t → C s k t → ∃ o, SendsOne (s.laneAt k t b) (f s (s.laneAt k t b)) o
      ∧ ∀ u n d, SentTo t u o.cls o.marks → P (s.laneAt k t b) u { o with id := n, dep := d }) : Issues i C P :=
  Issues.of_runs_writing h fun s k t b ht hC => by
    obtain ⟨o, ⟨fx, h1, h2, h3, h4, (hth : fx.th t = t), h6⟩, hP⟩ := hf s k t b ht hC
    exact ⟨fx, o, h1, h2, h3, h4, congrArg Thread.step hth, h6.1, h6.2.1, h6.2.2, fun u n d hs => hP u n d (hth ▸ hs)⟩

end Sys2Proof.Machine
end

section
/-!
Accesses at issue (08 R179, R180, R195 to R202): their addresses, the checks in order, the operations they issue.
-/

namespace Sys2Proof.Machine

/-! ### Addresses -/

theorem setWidth_signExtend (x : Word) : (x.signExtend 64).setWidth 32 = x := by
  ext i hi
  rw [BitVec.getElem_setWidth, BitVec.getLsbD_signExtend]
  simp [hi, hi.trans (by decide : 32 < 64)]

theorem Lane.addr_eq_at (l : Lane) (sp : Space) (base : Base) (off : Src) : l.addr sp base off = l.at sp base off := by
  unfold Lane.addr Lane.at
  cases sp
  case g => rfl
  all_goals
    rw [if_neg (by decide)]
    dsimp only
    rw [low32, BitVec.setWidth_add _ _ (by decide), setWidth_signExtend]
    rfl

/-! ### The checks of R196 -/

section
variable (l : Lane) (w : Want) (va : DWord) (n : Nat) (more : Place → Option (BitVec 8))

/-- The scope an access acts at, once demoted (R226). -/
def Lane.wantScope : Option Scope := match w.scope with
  | none => some .team
  | some sc => l.s.scopeOf l.part sc

/-- The operation of an access that passes its checks. -/
def Lane.accessOp (p : Place) (sc : Scope) : Op :=
  let o := l.op w.cls w.kind (l.opVa w.sp va) p n w.marks
  { o with acq := if w.acq then some sc else none, rel := if w.rel then some sc else none, bypass := l.s.behindHeld o }

theorem Lane.access_eq : l.access w va n more =
    if w.aligned = true ∧ va.toNat % n ≠ 0 then .fault 0x10 (l.opVa w.sp va) 0 (w.need == .write)
    else match l.rangeFault w.sp va.toNat n with
      | some c => .fault c (l.opVa w.sp va) 0 (w.need == .write)
      | none => match l.wantScope w with
        | none => .fault 0x14 (l.opVa w.sp va) 0 (w.need == .write)
        | some sc => match l.find w.sp va.toNat n w.need w.hostPath with
          | .fault c => .fault c (l.opVa w.sp va) 0 (w.need == .write)
          | .ask vpn w => .ask vpn w
          | .here p tlb => match more p with
            | some c => .fault c (l.opVa w.sp va) 0 (w.need == .write)
            | none => .ok { ops := [l.accessOp w va n p sc], tlb := tlb } := by
  unfold Lane.access
  simp only [Bool.and_eq_true, bne_iff_ne]
  rfl

theorem Lane.access_own {fx : Fx} (h : l.access w va n more = .ok fx) : ∀ x ∈ fx.ops, x.slot = l.slot := by
  rw [Lane.access_eq] at h
  split at h
  · cases h
  · split at h
    · cases h
    · split at h
      · cases h
      · split at h
        · cases h
        · cases h
        · split at h <;> cases h
          intro x hx
          rw [List.mem_singleton.1 hx]
          rfl

theorem OpsOwn.of_access {f : Lane → LaneRes} (hf : ∀ l, ∃ w va n more, f l = l.access w va n more) : OpsOwn f := by
  intro l fx h
  obtain ⟨w, va, n, more, hl⟩ := hf l
  exact l.access_own w va n more (hl.symm.trans h)

theorem Lane.access_misaligned (ha : w.aligned = true) (hv : va.toNat % n ≠ 0) :
    l.access w va n more = .fault 0x10 (l.opVa w.sp va) 0 (w.need == .write) := by
  rw [Lane.access_eq, if_pos ⟨ha, hv⟩]

variable {l w va n more} (ha : w.aligned = true → va.toNat % n = 0)
include ha

theorem Lane.access_range {c : BitVec 8} (hr : l.rangeFault w.sp va.toNat n = some c) :
    l.access w va n more = .fault c (l.opVa w.sp va) 0 (w.need == .write) := by
  rw [Lane.access_eq, if_neg (fun h => h.2 (ha h.1)), hr]

variable (hr : l.rangeFault w.sp va.toNat n = none)
include hr

theorem Lane.access_denied (hs : l.wantScope w = none) : l.access w va n more = .fault 0x14 (l.opVa w.sp va) 0 (w.need == .write) := by
  rw [Lane.access_eq, if_neg (fun h => h.2 (ha h.1)), hr, hs]

theorem Lane.access_met {sc : Scope} {c : BitVec 8} (hs : l.wantScope w = some sc)
    (hf : l.find w.sp va.toNat n w.need w.hostPath = .fault c) :
    l.access w va n more = .fault c (l.opVa w.sp va) 0 (w.need == .write) := by
  rw [Lane.access_eq, if_neg (fun h => h.2 (ha h.1)), hr, hs, hf]

theorem Lane.access_here {sc : Scope} {p : Place} {tlb : List Tlb} (hs : l.wantScope w = some sc)
    (hf : l.find w.sp va.toNat n w.need w.hostPath = .here p tlb) (hm : more p = none) :
    l.access w va n more = .ok { ops := [l.accessOp w va n p sc], tlb := tlb } := by
  rw [Lane.access_eq, if_neg (fun h => h.2 (ha h.1)), hr, hs, hf]
  dsimp only
  rw [hm]

end

/-! ### The parts of the memory words -/

/-- What LD and LDA ask for. -/
def loadWant (d : LDst) (mw : MW) (sp : Space) (sx yld : Bool) (hint : Hint) (acq : Option Scope) : Want where
  cls := .ld
  kind := .load d mw sx yld hint
  sp := sp
  need := .read
  aligned := acq.isSome
  scope := acq
  acq := acq.isSome
  marks := d.ids mw

theorem Lane.loadAt_eq (l : Lane) (d : LDst) (mw : MW) (sp : Space) (sx yld : Bool) (hint : Hint) (acq : Option Scope) (va : DWord) :
    l.loadAt d mw sp sx yld hint acq va = l.access (loadWant d mw sp sx yld hint acq) va mw.bytes fun _ => none := rfl

/-- What ST and STL ask for, with the bytes they store. -/
def storeWant (data : List Byte) (sp : Space) (hint : Hint) (rel : Option Scope) : Want where
  cls := .st
  kind := .store data hint
  sp := sp
  need := .write
  aligned := rel.isSome
  scope := rel
  rel := rel.isSome

theorem Lane.storeAt_eq (l : Lane) (mw : MW) (sp : Space) (hint : Hint) (rel : Option Scope) (data : Src) (va : DWord) :
    l.storeAt mw sp hint rel data va = l.access (storeWant (l.storeData mw data) sp hint rel) va mw.bytes fun _ => none := rfl

/-- What ATOM and RED ask for. -/
def atomWant (red scr dbl : Bool) (op : AOp) (order : Order) (scope : Scope) (d : Option LDst) (b c : DWord) : Want where
  cls := if red then .st else .ld
  kind := if red then .red dbl op b else .atom d dbl op b c
  sp := if scr then .s else .g
  need := .write
  aligned := true
  scope := some scope
  acq := order = .acq ∨ order = .ar
  rel := order = .rel ∨ order = .ar
  marks := optIds (LDst.ids (wOf dbl)) d

/-- An atomic's part is its access, of which it marks some operations. -/
theorem Lane.atomAt_of_fault {l : Lane} {red scr dbl : Bool} {op : AOp} {order : Order} {scope : Scope} {d : Option LDst} {va b c : DWord}
    {code : BitVec 8} {a x : DWord} {wr : Bool} (h : ∀ more, l.access (atomWant red scr dbl op order scope d b c) va (if dbl then 8 else 4) more
      = .fault code a x wr) : l.atomAt red scr dbl op order scope d va b c = .fault code a x wr := by
  unfold Lane.atomAt
  dsimp only
  change (match l.access (atomWant red scr dbl op order scope d b c) va (if dbl then 8 else 4) _ with | .ok fx => _ | r => r) = _
  rw [h]

theorem Lane.atomAt_own (l : Lane) (red scr dbl : Bool) (op : AOp) (order : Order) (scope : Scope) (d : Option LDst) (va b c : DWord) {fx : Fx}
    (h : l.atomAt red scr dbl op order scope d va b c = .ok fx) : ∀ x ∈ fx.ops, x.slot = l.slot := by
  unfold Lane.atomAt at h
  dsimp only at h
  split at h
  · next fx' hfx =>
    cases h
    intro x hx
    obtain ⟨y, hy, rfl⟩ := List.mem_map.1 hx
    have := l.access_own _ _ _ _ hfx y hy
    split <;> exact this
  · next hno => exact absurd h (hno fx)

/-- Outside a reduction window an atomic's part issues its access, on host memory where the op or the fallback serves it. -/
theorem Lane.atomAt_here {l : Lane} {red scr dbl : Bool} {op : AOp} {order : Order} {scope sc : Scope} {d : Option LDst} {va b c : DWord}
    {p : Place} {tlb : List Tlb} (hwin : (if scr then none else (l.s.part l.part).rwinAt va.toNat) = none)
    (hhost : ∀ ld a, p = .host ld a → op ∈ [.add, .xchg, .cas] ∨ l.s.canFallBack l.part = true)
    (ha : va.toNat % (if dbl then 8 else 4) = 0) (hr : l.rangeFault (if scr then .s else .g) va.toNat (if dbl then 8 else 4) = none)
    (hs : l.s.scopeOf l.part scope = some sc)
    (hf : l.find (if scr then .s else .g) va.toNat (if dbl then 8 else 4) .write true = .here p tlb) :
    ∃ cxl o, o = l.accessOp (atomWant red scr dbl op order scope d b c) va (if dbl then 8 else 4) p sc
      ∧ l.atomAt red scr dbl op order scope d va b c = .ok { ops := [{ o with viaCxl := cxl }], tlb := tlb } := by
  have hpcie (h : op ∈ [AOp.add, .xchg, .cas]) : op.pcie = true := by
    revert h
    cases op <;> decide
  have hacc := fun more hm => Lane.access_here (w := atomWant red scr dbl op order scope d b c) (more := more) (fun _ => ha) hr hs hf hm
  unfold Lane.atomAt
  unfold atomWant at hacc ⊢
  dsimp only at hacc ⊢
  rw [hwin, hacc]
  · simp only [List.map_cons, List.map_nil]
    cases p
    case host ld a => exact ⟨_, _, rfl, rfl⟩
    all_goals exact ⟨false, _, rfl, rfl⟩
  · cases p
    case host ld a =>
      dsimp only
      rw [if_pos]
      rcases hhost ld a rfl with h | h
      · rw [hpcie h]
        rfl
      · rw [h, Bool.or_true]
    all_goals rfl

theorem ld_runs (x : LdArg) : RunsBy (.ld x) x.gd.holds fun _ => ldFx x :=
  .of_issueMem (ends := fun _ => false) (fun _ => rfl) (.of_access fun l => by rw [ldFx, Lane.loadAt_eq]; exact ⟨_, _, _, _, rfl⟩) fun _ => rfl

theorem lda_runs (x : LdaArg) : RunsBy (.lda x) x.gd.holds fun _ => ldaFx x :=
  .of_issueMem (ends := fun _ => false) (fun _ => rfl) (.of_access fun l => by rw [ldaFx, Lane.loadAt_eq]; exact ⟨_, _, _, _, rfl⟩) fun _ => rfl

theorem st_runs (x : StArg) : RunsBy (.st x) x.gd.holds fun _ => stFx x :=
  .of_issueMem (ends := fun _ => false) (fun _ => rfl) (.of_access fun l => by rw [stFx, Lane.storeAt_eq]; exact ⟨_, _, _, _, rfl⟩) fun _ => rfl

theorem stl_runs (x : StlArg) : RunsBy (.stl x) x.gd.holds fun _ => stlFx x :=
  .of_issueMem (ends := fun s => s.widerThanTeam x.scope) (fun _ => rfl) (.of_access fun l => by rw [stlFx, Lane.storeAt_eq]; exact ⟨_, _, _, _, rfl⟩) fun _ => rfl

theorem atom_runs (x : AtomArg) : RunsBy (.atom x) x.gd.holds fun _ => atomFx x :=
  .of_issueMem (ends := fun s => s.widerThanTeam x.scope) (fun _ => rfl) (fun l _ h => l.atomAt_own _ _ _ _ _ _ _ _ _ _ h) fun _ => rfl

theorem red_runs (x : RedArg) : RunsBy (.red x) x.gd.holds fun _ => redFx x :=
  .of_issueMem (ends := fun s => s.widerThanTeam x.scope) (fun _ => rfl) (fun l _ h => l.atomAt_own _ _ _ _ _ _ _ _ _ _ h) fun _ => rfl

/-! ### Faults at issue -/

theorem Lane.opVa_of_ne {l : Lane} {sp : Space} (h : sp ≠ .k) (va : DWord) : l.opVa sp va = va := by
  cases sp
  case k => exact absurd rfl h
  all_goals rfl

theorem Lane.rangeFault_g {l : Lane} {a n : Nat} (h : a < 2 ^ 55) : l.rangeFault .g a n = none := if_neg (Nat.not_le.2 h)

theorem scrSpace_ne_k (scr : Bool) : (if scr then Space.s else .g) ≠ .k := by cases scr <;> decide

/-- A scratchpad address from 2^24 on is nowhere (R179). -/
theorem Lane.rangeFault_s_high {l : Lane} {a n : Nat} (h : 2 ^ 24 ≤ a) : l.rangeFault .s a n = some 0x18 := by
  have : l.scrPlace a n = none := by
    unfold Lane.scrPlace
    dsimp only
    rw [if_pos (.inl (by omega))]
  simp only [Lane.rangeFault, this, Option.isNone_none, if_true]

/-- Settles O26: the checks in their order, each with what comes before it passed. -/
theorem memoryWordsFault : Obligations.MemoryWordsFault := by
  dsimp only [Obligations.MemoryWordsFault]
  refine ⟨fun x hsp => ?_, fun x hsp => ?_, fun x hsp => ?_, fun x hsp => ?_, fun x => ?_, fun x => ?_, fun x hscr => ?_, fun x c hsp h1 h2 => ?_⟩
  · refine .of_runs (ld_runs x) (by decide) fun s k t b _ h => ?_
    specialize h b
    rw [ldFx, Lane.addr_eq_at, Lane.loadAt_eq]
    rw [hsp] at h ⊢
    exact ⟨_, Lane.access_range (fun h => by cases h) (if_pos h)⟩
  · refine .of_runs (st_runs x) (by decide) fun s k t b _ h => ?_
    specialize h b
    rw [stFx, Lane.addr_eq_at, Lane.storeAt_eq]
    rw [hsp] at h ⊢
    exact ⟨_, Lane.access_range (fun h => by cases h) (Lane.rangeFault_s_high h)⟩
  · refine .of_runs (ld_runs x) (by decide) fun s k t b _ h => ?_
    specialize h b
    rw [ldFx, Lane.addr_eq_at, Lane.loadAt_eq]
    rw [hsp] at h ⊢
    exact ⟨_, Lane.access_range (fun h => by cases h) (if_pos h)⟩
  · refine .of_runs (lda_runs x) (by decide) fun s k t b _ h => ?_
    rw [ldaFx, Lane.addr_eq_at, Lane.loadAt_eq, Lane.access_misaligned _ _ _ _ _ rfl (h b)]
    exact ⟨_, congrArg (LaneRes.fault _ · _ _) (Lane.opVa_of_ne hsp _)⟩
  · refine .of_runs (stl_runs x) (by decide) fun s k t b _ h => ?_
    rw [stlFx, Lane.addr_eq_at, Lane.storeAt_eq, Lane.access_misaligned _ _ _ _ _ rfl (h b).1]
    exact ⟨_, congrArg (LaneRes.fault _ · _ _) (Lane.opVa_of_ne (h b).2 _)⟩
  · refine .of_runs (atom_runs x) (by decide) fun s k t b _ h => ?_
    refine ⟨true, Lane.atomAt_of_fault fun more => (Lane.access_misaligned _ _ _ _ _ rfl (h b)).trans ?_⟩
    exact congrArg (LaneRes.fault _ · _ _) (Lane.opVa_of_ne (scrSpace_ne_k x.scr) _)
  · refine .of_runs (red_runs x) (by decide) fun s k t b _ h => ?_
    obtain ⟨h1, h2, h3⟩ := h b
    refine ⟨true, Lane.atomAt_of_fault fun more => ?_⟩
    rw [hscr]
    exact Lane.access_denied (w := atomWant ..) (fun _ => h1) (Lane.rangeFault_g h2) h3
  · refine .of_runs (ld_runs x) ⟨h1, h2⟩ fun s k t b _ h => ?_
    obtain ⟨h1, h2⟩ := h b
    rw [ldFx, Lane.addr_eq_at, Lane.loadAt_eq]
    rw [hsp] at h1 h2 ⊢
    exact ⟨_, Lane.access_met (sc := .team) (fun h => by cases h) (Lane.rangeFault_g h1) rfl h2⟩

/-! ### Where scratchpad addresses lead -/

/-- The place of an address below 2^24 (R180). -/
theorem Lane.scrPlace_of_team {l : Lane} {m : Team} (hm : l.s.team? l.t.team = some m) {x : Nat} (n : Nat) (hx : x < 2 ^ 24) :
    l.scrPlace x n =
      if 2 ^ 18 < x % 2 ^ 18 + n then none
      else if x < 2 ^ 23 then
        if x < 2 ^ 18 ∧ m.argp ≤ x % 2 ^ 18 ∧ x % 2 ^ 18 + n ≤ m.argp + m.region then some (.scr (l.slot / 512) (x % 2 ^ 18) false) else none
      else if x / 2 ^ 18 % 32 < 24 then some (.scr (l.slot / 512 / 24 * 24 + x / 2 ^ 18 % 32) (x % 2 ^ 18) true) else none := by
  have own : (decide (x / 2 ^ 18 % 32 = 0) && m.holds (x % 2 ^ 18) n) = true
      ↔ x / 2 ^ 18 % 32 = 0 ∧ m.argp ≤ x % 2 ^ 18 ∧ x % 2 ^ 18 + n ≤ m.argp + m.region := by
    rw [Bool.and_eq_true, decide_eq_true_eq, Team.holds_iff]
  unfold Lane.scrPlace
  rw [hm]
  dsimp only
  rw [show scrBytes = 2 ^ 18 from rfl]
  by_cases hfit : 2 ^ 18 < x % 2 ^ 18 + n
  · rw [if_pos (.inr hfit), if_pos hfit]
  · rw [if_neg (by omega), if_neg hfit]
    by_cases hlow : x < 2 ^ 23
    · rw [if_pos (by omega), if_pos hlow]
      have : x / 2 ^ 18 % 32 = 0 ↔ x < 2 ^ 18 := by omega
      exact if_congr (own.trans (and_congr_left' this)) rfl rfl
    · rw [if_neg (by omega), if_neg hlow]
      rfl

theorem Lane.reaches_s {l : Lane} {x n : Nat} {p : Place} (hx : x < 2 ^ 64) (h : l.scrPlace x n = some p) :
    l.reaches .s (BitVec.ofNat 64 x) n .read p := by
  unfold Lane.reaches
  rw [BitVec.toNat_ofNat, Nat.mod_eq_of_lt hx]
  exact ⟨by simp [Lane.rangeFault, h], [], by simp [Lane.find, h]⟩

theorem Lane.rangeFault_s {l : Lane} {x n : Nat} (h : l.scrPlace x n = none) : l.rangeFault .s x n = some 0x18 := by
  simp [Lane.rangeFault, h]

theorem scratchpadAddresses : Rules.ScratchpadAddresses := by
  intro l m x n hm _
  refine ⟨Lane.rangeFault_s_high, fun hx => ?_, fun hlo hhi => ?_⟩
  · have hp := Lane.scrPlace_of_team hm n (show x < 2 ^ 24 by omega)
    rw [if_pos hx] at hp
    split
    · next h =>
      rw [if_neg (by omega), if_pos (by omega), Nat.mod_eq_of_lt h.1] at hp
      exact Lane.reaches_s (by omega) hp
    · next h =>
      refine Lane.rangeFault_s (hp.trans ?_)
      split
      · rfl
      · exact if_neg (by omega)
  · have hp := Lane.scrPlace_of_team hm n hhi
    rw [if_neg (show ¬ x < 2 ^ 23 by omega)] at hp
    split
    · next h =>
      rw [if_neg (by omega), if_pos h.1] at hp
      exact Lane.reaches_s (by omega) hp
    · next h =>
      refine Lane.rangeFault_s (hp.trans ?_)
      split
      · rfl
      · exact if_neg (by omega)

/-! ### What an access issues -/

theorem bytesNat_leBytes (n v : Nat) : bytesNat (leBytes n v) = v % 2 ^ (8 * n) := by
  induction n generalizing v with
  | zero => rw [Nat.mul_zero, Nat.pow_zero, Nat.mod_one]; rfl
  | succ n ih =>
    rw [leBytes, bytesNat, ih, BitVec.toNat_ofNat, show 8 * (n + 1) = 8 + 8 * n by omega, Nat.pow_add, Nat.mod_mul]

theorem bytesNat_leBytes_word (v : Word) : bytesNat (leBytes 4 v.toNat) = v.toNat := by
  rw [bytesNat_leBytes]
  exact Nat.mod_eq_of_lt (by simpa using v.isLt)

theorem leBytes_length (n v : Nat) : (leBytes n v).length = n := by
  induction n generalizing v with
  | zero => rfl
  | succ n ih => rw [leBytes, List.length_cons, ih]

theorem bytesNat_append (a b : List Byte) : bytesNat (a ++ b) = bytesNat a + 2 ^ (8 * a.length) * bytesNat b := by
  induction a with
  | nil => simp [bytesNat]
  | cons x a ih =>
    rw [List.cons_append, bytesNat, bytesNat, ih, List.length_cons, show 8 * (a.length + 1) = 8 + 8 * a.length by omega, Nat.pow_add]
    ring

/-- The operation an access issues, as a lane's part gives it. -/
theorem Lane.accessOp_sends {l : Lane} {w : Want} {va : DWord} {n : Nat} {p : Place} {sc : Scope} {tlb : List Tlb} :
    SendsOne l (.ok { ops := [l.accessOp w va n p sc], tlb := tlb }) (l.accessOp w va n p sc) :=
  ⟨_, rfl, rfl, rfl, rfl, rfl, rfl, rfl, rfl⟩

theorem length_words (v : Nat → Word) (n : Nat) : ((List.range n).flatMap (fun j => leBytes 4 (v j).toNat)).length = 4 * n := by
  simp [List.length_flatMap, leBytes_length, Nat.mul_comm]

/-- Words side by side are the digits of a number to the base 2^32. -/
theorem bytesNat_words (v : Nat → Word) (n : Nat) : bytesNat ((List.range n).flatMap (fun j => leBytes 4 (v j).toNat))
    = ((List.range n).map (fun j => (v j).toNat * 2 ^ (32 * j))).sum := by
  induction n with
  | zero => rfl
  | succ n ih =>
    rw [List.range_succ, List.flatMap_append, List.map_append, List.sum_append, bytesNat_append, ih, length_words,
      List.flatMap_singleton, bytesNat_leBytes_word, List.map_singleton, List.sum_singleton, Nat.mul_comm (v n).toNat,
      show 8 * (4 * n) = 32 * n by omega]

theorem Lane.storeData_length (l : Lane) (mw : MW) (x : Src) : (l.storeData mw x).length = mw.bytes := by
  unfold Lane.storeData
  split
  · simp [leBytes_length, MW.bytes]
  · exact leBytes_length _ _

/-- What a store writes, but for four registers at once: its operand's low bytes (R195). -/
theorem Lane.bytesNat_storeData (l : Lane) {mw : MW} {x : Src} (h : (∀ i, x ≠ .g i) ∨ mw ≠ .q) :
    bytesNat (l.storeData mw x) = (l.src 3 (mw == .d) x).toNat % 2 ^ (8 * mw.bytes) := by
  have hw : mw.wide = (mw == .d) := by cases mw <;> rfl
  unfold Lane.storeData
  split
  · next i => exact (h.elim (fun h => absurd rfl (h i)) fun h => absurd rfl h)
  · rw [bytesNat_leBytes, hw]

theorem Lane.bytesNat_storeData_q (l : Lane) (i : BitVec 8) : bytesNat (l.storeData .q (.g i))
    = ((List.range 4).map (fun j => (l.g 3 (i.toNat + j)).toNat * 2 ^ (32 * j))).sum :=
  bytesNat_words _ 4

/-- A lane's access passes its checks at issue. -/
structure Lane.Passes (l : Lane) (w : Want) (va : DWord) (n : Nat) (p : Place) (sc : Scope) : Prop where
  reach : l.reaches w.sp va n w.need p
  aligned : w.aligned = true → va.toNat % n = 0
  scope : l.wantScope w = some sc

theorem Lane.Passes.access {l : Lane} {w : Want} {va : DWord} {n : Nat} {p : Place} {sc : Scope} (h : l.Passes w va n p sc)
    (hp : w.hostPath = true) : SendsOne l (l.access w va n fun _ => none) (l.accessOp w va n p sc) := by
  obtain ⟨tlb, hf⟩ := h.reach.2
  rw [Lane.access_here h.aligned h.reach.1 h.scope (hp ▸ hf) rfl]
  exact Lane.accessOp_sends

/-- The premises of the statement about the accesses that issue, for a word that asks for `w`. -/
theorem Lane.passes_of {l : Lane} {w : Want} {va : DWord} {n : Nat}
    (h : ∃ p, l.reaches w.sp va n w.need p ∧ (w.aligned = true → va.toNat % n = 0) ∧ ∀ y, w.scope = some y → (l.s.scopeOf l.part y).isSome = true) :
    ∃ p sc, l.Passes w va n p sc ∧ ∀ y, w.scope = some y → l.s.scopeOf l.part y = some sc := by
  obtain ⟨p, h1, h2, h3⟩ := h
  cases hw : w.scope with
  | none => exact ⟨p, .team, ⟨h1, h2, by rw [Lane.wantScope, hw]⟩, fun y hy => by cases hy⟩
  | some y =>
    obtain ⟨sc, hsc⟩ := Option.isSome_iff_exists.1 (h3 y hw)
    exact ⟨p, sc, ⟨h1, h2, by rw [Lane.wantScope, hw]; exact hsc⟩, fun z hz => by cases hz; exact hsc⟩

/-- As `Lane.passes_of`, for the part of an atomic outside a reduction window. -/
theorem Lane.atomAt_passes {l : Lane} {scr dbl : Bool} {op : AOp} {order : Order} {scope : Scope} {d : Option LDst} {va b c : DWord}
    (h : ∃ p, l.reaches (if scr then .s else .g) va (if dbl then 8 else 4) .write p ∧ (true = true → va.toNat % (if dbl then 8 else 4) = 0)
      ∧ ∀ y, some scope = some y → (l.s.scopeOf l.part y).isSome = true)
    (hfree : (scr = true ∨ (l.s.part l.part).rwinAt va.toNat = none)
      ∧ ∀ ld a, l.reaches (if scr then .s else .g) va (if dbl then 8 else 4) .write (.host ld a) →
        op ∈ [.add, .xchg, .cas] ∨ l.s.canFallBack l.part = true) :
    ∃ p sc, l.reaches (if scr then .s else .g) va (if dbl then 8 else 4) .write p ∧ l.s.scopeOf l.part scope = some sc
      ∧ ∀ red, ∃ cxl, SendsOne l (l.atomAt red scr dbl op order scope d va b c)
        { l.accessOp (atomWant red scr dbl op order scope d b c) va (if dbl then 8 else 4) p sc with viaCxl := cxl } := by
  obtain ⟨p, hp, ha, hsc⟩ := h
  obtain ⟨sc, hsc⟩ := Option.isSome_iff_exists.1 (hsc _ rfl)
  obtain ⟨tlb, hf⟩ := hp.2
  have hwin : (if scr then none else (l.s.part l.part).rwinAt va.toNat) = none := by
    cases scr
    · exact hfree.1.resolve_left Bool.false_ne_true
    · rfl
  refine ⟨p, sc, hp, hsc, fun red => ?_⟩
  obtain ⟨cxl, o, rfl, h⟩ := Lane.atomAt_here (red := red) (op := op) (order := order) (d := d) (b := b) (c := c) hwin
    (fun ld a e => hfree.2 ld a (e ▸ hp)) (ha rfl) hp.1 hsc hf
  exact ⟨cxl, _, h, rfl, rfl, rfl, rfl, rfl, rfl, rfl⟩

theorem memoryWordsIssue : Rules.MemoryWordsIssue := by
  unfold Rules.MemoryWordsIssue
  intro nb fits shape free awide
  have hnb : nb = MW.bytes := by funext _; cases ‹MW› <;> rfl
  clear_value nb
  subst hnb
  refine ⟨fun x => ?_, fun x => ?_, fun x => ?_, fun x => ?_, fun x => ?_, fun x => ?_⟩
  · refine .of_runs (ld_runs x) fun s k t b _ h => ?_
    rw [ldFx, Lane.addr_eq_at, Lane.loadAt_eq]
    obtain ⟨p, sc, hp, -⟩ := Lane.passes_of (w := loadWant x.d x.w x.sp x.sx x.yld x.hint none) (h b)
    exact ⟨_, hp.access rfl, fun u n d hu => ⟨⟨rfl, rfl, rfl, rfl, p, hp.reach, rfl⟩, rfl, rfl, rfl, rfl, rfl, hu⟩⟩
  · refine .of_runs (lda_runs x) fun s k t b _ h => ?_
    rw [ldaFx, Lane.addr_eq_at, Lane.loadAt_eq]
    obtain ⟨p, sc, hp, hsc⟩ := Lane.passes_of (w := loadWant x.d x.w x.sp false x.yld x.hint (some x.scope)) (h b)
    exact ⟨_, hp.access rfl, fun u n d hu => ⟨⟨rfl, rfl, rfl, rfl, p, hp.reach, rfl⟩, rfl, rfl, rfl, (hsc _ rfl).symm, rfl, hu⟩⟩
  · refine .of_runs (st_runs x) fun s k t b _ h => ?_
    rw [stFx, Lane.addr_eq_at, Lane.storeAt_eq]
    obtain ⟨p, sc, hp, hsc⟩ := Lane.passes_of (w := storeWant ((s.laneAt k t b).storeData x.w x.data) x.sp x.hint none) (h b)
    refine ⟨_, hp.access rfl, fun u n d hu => ⟨⟨rfl, rfl, rfl, rfl, p, hp.reach, rfl⟩, rfl, rfl, rfl, rfl, hu, _, rfl,
      Lane.storeData_length _ _ _, Lane.bytesNat_storeData _, fun i hi hq => ?_⟩⟩
    rw [hi, hq]
    exact Lane.bytesNat_storeData_q _ i
  · refine .of_runs (stl_runs x) fun s k t b _ h => ?_
    rw [stlFx, Lane.addr_eq_at, Lane.storeAt_eq]
    obtain ⟨p, sc, hp, hsc⟩ := Lane.passes_of (w := storeWant ((s.laneAt k t b).storeData x.w x.data) x.sp x.hint (some x.scope)) (h b)
    exact ⟨_, hp.access rfl, fun u n d hu => ⟨⟨rfl, rfl, rfl, rfl, p, hp.reach, rfl⟩, rfl, rfl, rfl, (hsc _ rfl).symm, hu, _, rfl,
      Lane.storeData_length _ _ _, Lane.bytesNat_storeData _⟩⟩
  · refine .of_runs (atom_runs x) fun s k t b _ ⟨h, hfree⟩ => ?_
    obtain ⟨p, sc, hp, hsc, hs⟩ := Lane.atomAt_passes (order := x.order) (d := x.d) (b := (s.laneAt k t b).atomB x.op x.w x.b)
      (c := (x.c.map ((s.laneAt k t b).src 2 x.w)).getD 0) (h b) (hfree b)
    obtain ⟨cxl, hs⟩ := hs false
    refine ⟨_, hs, fun u n d hu => ⟨⟨rfl, rfl, rfl, rfl, p, hp, rfl⟩, rfl, rfl, by cases x.d <;> rfl, ?_, ?_, hu⟩⟩
    · rw [hsc]
      exact if_congr decide_eq_true_iff rfl rfl
    · rw [hsc]
      exact if_congr decide_eq_true_iff rfl rfl
  · refine .of_runs (red_runs x) fun s k t b _ ⟨h, hfree⟩ => ?_
    obtain ⟨p, sc, hp, hsc, hs⟩ := Lane.atomAt_passes (order := if x.rel then .rel else .rlx) (d := none)
      (b := (s.laneAt k t b).atomB x.op x.w x.b) (c := 0) (h b) (hfree b)
    obtain ⟨cxl, hs⟩ := hs true
    refine ⟨_, hs, fun u n d hu => ⟨⟨rfl, rfl, rfl, rfl, p, hp, rfl⟩, rfl, rfl, rfl, ?_, ?_, hu⟩⟩
    · cases x.rel <;> rfl
    · rw [hsc]
      cases x.rel <;> rfl

/-- Settles O25: where scratchpad addresses lead, and each word's access through its checks. -/
theorem memoryAddressesAndIssue : Obligations.MemoryAddressesAndIssue := ⟨scratchpadAddresses, memoryWordsIssue⟩

end Sys2Proof.Machine
end

section
/-!
The words of the queue unit and of automata issue one request each (11 R270, 12 R297 to R301).
-/

namespace Sys2Proof.Machine

theorem OpsOwn.of_slots {f : Lane → LaneRes} (h : ∀ l fx, f l = .ok fx → fx.ops.map (·.slot) = [l.slot]) : OpsOwn f := by
  intro l fx hfx x hx
  have := List.mem_map_of_mem (f := fun o : Op => o.slot) hx
  rw [h l fx hfx] at this
  exact List.mem_singleton.1 this

/-! ### Queues -/

theorem streamOf_eq (ds : Bool) (n : Nat) :
    streamOf ds n = if n < (if ds then 16384 else 131072) then some (if ds then 131072 + n else n) else none := by
  cases ds <;> rfl

theorem streamOf_near {ds : Bool} {n : Nat} (h : n < if ds then 16384 else 131072) :
    streamOf ds n = some (if ds then 131072 + n else n) := by rw [streamOf_eq, if_pos h]

theorem streamOf_far {ds : Bool} {n : Nat} (h : (if ds then 16384 else 131072) ≤ n) : streamOf ds n = none := by
  rw [streamOf_eq, if_neg (Nat.not_lt.2 h)]

theorem emit_runs (x : QueArg) : RunsBy (.emit x) x.gd.holds fun _ => emitFx x := by
  refine .of_issueMem (ends := fun _ => true) (fun _ => rfl) (.of_slots fun l fx h => ?_) fun _ => rfl
  unfold emitFx at h
  dsimp only at h
  split at h <;> cases h
  rfl

theorem qrd_runs (x : QueArg) : RunsBy (.qrd x) x.gd.holds fun _ => qrdFx x := by
  refine .of_issueMem (ends := fun _ => false) (fun _ => rfl) (.of_slots fun l fx h => ?_) fun _ => rfl
  unfold qrdFx at h
  dsimp only at h
  split at h <;> cases h
  rfl

theorem qlen_runs (x : QlenArg) : RunsBy (.qlen x) x.gd.holds fun _ => qlenFx x := by
  refine .of_issueMem (ends := fun _ => false) (fun _ => rfl) (.of_slots fun l fx h => ?_) fun _ => rfl
  unfold qlenFx at h
  dsimp only at h
  split at h <;> cases h
  rfl

theorem queueWordsIssue : Rules.QueueWordsIssue := by
  dsimp only [Rules.QueueWordsIssue]
  refine ⟨fun x => ?_, fun x => ?_, fun x => ?_, fun x => ?_, fun x => ?_, fun x => ?_⟩
  · refine .of_runs (emit_runs x) fun s k t b _ h => ?_
    rw [emitFx, streamOf_near (h b)]
    exact ⟨_, ⟨_, rfl, rfl, rfl, rfl, rfl, rfl, rfl, rfl⟩, fun u n d hu => ⟨rfl, rfl, rfl, rfl, hu⟩⟩
  · refine .of_runs (qrd_runs x) fun s k t b _ h => ?_
    rw [qrdFx, streamOf_near (h b)]
    exact ⟨_, ⟨_, rfl, rfl, rfl, rfl, rfl, rfl, rfl, rfl⟩, fun u n d hu => ⟨rfl, rfl, rfl, rfl, hu⟩⟩
  · refine .of_runs (qlen_runs x) fun s k t b _ h => ?_
    rw [qlenFx, streamOf_near (h b)]
    exact ⟨_, ⟨_, rfl, rfl, rfl, rfl, rfl, rfl, rfl, rfl⟩, fun u n d hu => ⟨rfl, rfl, rfl, rfl, hu⟩⟩
  · refine .of_runs (emit_runs x) (by decide) fun s k t b _ h => ?_
    rw [emitFx, streamOf_far (h b)]
    exact ⟨_, rfl⟩
  · refine .of_runs (qrd_runs x) (by decide) fun s k t b _ h => ?_
    rw [qrdFx, streamOf_far (h b)]
    exact ⟨_, rfl⟩
  · refine .of_runs (qlen_runs x) (by decide) fun s k t b _ h => ?_
    rw [qlenFx, streamOf_far (h b)]
    exact ⟨_, rfl⟩

/-! ### Automata -/

theorem Lane.toSlot_near {l : Lane} {x : Src} {f : Nat → LaneRes} (h : (l.src32 0 x).toNat < 4096) :
    l.toSlot x f = f (l.src32 0 x).toNat := by
  exact if_neg (Nat.not_le.2 h)

theorem Lane.toSlot_far {l : Lane} {x : Src} {f : Nat → LaneRes} (h : 4096 ≤ (l.src32 0 x).toNat) :
    l.toSlot x f = .fault 0x12 ((l.src32 0 x).setWidth 64) 0 false := by
  exact if_pos h

theorem Lane.toSlot_own {x : Src} {f : Lane → Nat → LaneRes} (h : ∀ l n fx, f l n = .ok fx → fx.ops.map (·.slot) = [l.slot]) :
    OpsOwn fun l => l.toSlot x (f l) := by
  refine .of_slots fun l fx hfx => ?_
  unfold Lane.toSlot at hfx
  dsimp only at hfx
  split at hfx
  · cases hfx
  · exact h l _ fx hfx

/-- The parts of MARM, MDIS and MSTAT, one request to the unit of a slot (R297). -/
def slotFx (cls : Cls) (kind : Lane → Nat → OpKind) (marks : List RegId) (a : Src) (l : Lane) : LaneRes :=
  l.toSlot a fun n => .ok { ops := [l.op cls (kind l n) 0 .later 0 marks] }

theorem slotFx_own (cls : Cls) (kind : Lane → Nat → OpKind) (marks : List RegId) (a : Src) : OpsOwn (slotFx cls kind marks a) :=
  Lane.toSlot_own fun l n fx h => by cases h; rfl

theorem marm_runs (x : SlotArg) : RunsBy (.marm x) x.gd.holds fun _ => slotFx .st (fun _ n => .marm n) [] x.a :=
  .of_issueMem (ends := fun _ => true) (fun _ => rfl) (slotFx_own _ _ _ _) fun _ => rfl

theorem mdis_runs (x : SlotArg) : RunsBy (.mdis x) x.gd.holds fun _ => slotFx .st (fun _ n => .mdis n) [] x.a :=
  .of_issueMem (ends := fun _ => true) (fun _ => rfl) (slotFx_own _ _ _ _) fun _ => rfl

theorem mstat_runs (x : MstatArg) : RunsBy (.mstat x) x.gd.holds fun _ =>
    slotFx .ld (fun l n => .mstat n x.d.toNat (l.src32 1 x.b).toNat) (latId :: gOf x.d true) x.a :=
  .of_issueMem (ends := fun _ => false) (fun _ => rfl) (slotFx_own _ _ _ _) fun _ => rfl

theorem mload_runs (x : MloadArg) : RunsBy (.mload x) x.gd.holds fun _ => mloadFx x := by
  refine .of_issueMem (ends := fun _ => true) (fun _ => rfl) (Lane.toSlot_own fun l n fx h => ?_) fun _ => rfl
  dsimp only at h
  split_ifs at h
  cases h
  rfl

theorem Issues.of_slotFx {i : Instr} {gd : Thread → Bool} {cls : Cls} {kind : Lane → Nat → OpKind} {marks : List RegId} {a : Src}
    (h : RunsBy i gd fun _ => slotFx cls kind marks a) :
    Issues i (fun s k t => ∀ b, ((s.laneAt k t b).src32 0 a).toNat < 4096) fun l u o =>
      o.kind = kind l (l.src32 0 a).toNat ∧ o.cls = cls ∧ o.marks = marks ∧ SentTo l.t u cls marks := by
  refine .of_runs h fun s k t b _ hn => ?_
  rw [slotFx, Lane.toSlot_near (hn b)]
  exact ⟨_, ⟨_, rfl, rfl, rfl, rfl, rfl, rfl, rfl, rfl⟩, fun u n d hu => ⟨rfl, rfl, rfl, hu⟩⟩

theorem Traps.of_slotFx {i : Instr} {gd : Thread → Bool} {cls : Cls} {kind : Lane → Nat → OpKind} {marks : List RegId} {a : Src}
    (h : RunsBy i gd fun _ => slotFx cls kind marks a) :
    Traps i (fun s k t => ∀ b, 4096 ≤ ((s.laneAt k t b).src32 0 a).toNat) 0x12 (fun l => (l.src32 0 a).setWidth 64) (fun _ => 0) := by
  refine .of_runs h (by decide) fun s k t b _ hn => ?_
  rw [slotFx, Lane.toSlot_far (hn b)]
  exact ⟨_, rfl⟩

theorem automatonWordsIssue : Rules.AutomatonWordsIssue := by
  dsimp only [Rules.AutomatonWordsIssue]
  refine ⟨fun x => ?_, fun x => .of_slotFx (marm_runs x), fun x => .of_slotFx (mdis_runs x), fun x => ?_, fun x => ⟨?_, ?_, ?_⟩,
    fun x => ⟨.of_slotFx (marm_runs x), .of_slotFx (mdis_runs x)⟩, fun x => .of_slotFx (mstat_runs x)⟩
  · refine .of_runs (mload_runs x) fun s k t b _ ⟨hn, hv⟩ => ?_
    rw [mloadFx, Lane.toSlot_near (hn b)]
    dsimp only
    rw [if_neg (not_not.2 (hv b).1), if_neg (Nat.not_le.2 (hv b).2)]
    exact ⟨_, ⟨_, rfl, rfl, rfl, rfl, rfl, rfl, rfl, rfl⟩, fun u n d hu => ⟨rfl, rfl, rfl, hu⟩⟩
  · intro s k t ht hC
    obtain ⟨s', b, u, hrun, hthread, o, hin, hslot, hid, hpc, hpart, hkind, hcls, hmarks, hsent⟩ := Issues.of_slotFx (mstat_runs x) s k t ht hC
    exact ⟨s', b, u, hrun, hthread, o, hin, hslot, hid, hpc, hpart, hkind, hcls, hmarks, hmarks ▸ hsent⟩
  · refine .of_runs (mload_runs x) (by decide) fun s k t b _ hn => ?_
    rw [mloadFx, Lane.toSlot_far (hn b)]
    exact ⟨_, rfl⟩
  · refine .of_runs (mload_runs x) (by decide) fun s k t b _ ⟨hn, hv⟩ => ?_
    rw [mloadFx, Lane.toSlot_near (hn b)]
    dsimp only
    rw [if_pos (hv b)]
    exact ⟨_, rfl⟩
  · refine .of_runs (mload_runs x) (by decide) fun s k t b _ ⟨hn, hv⟩ => ?_
    rw [mloadFx, Lane.toSlot_near (hn b)]
    dsimp only
    rw [if_neg (not_not.2 (hv b).1), if_pos (hv b).2]
    exact ⟨_, rfl⟩

/-- Settles O34: each word's part is one request, or the first of its checks that fails. -/
theorem unitWordsIssue : Obligations.UnitWordsIssue := ⟨queueWordsIssue, automatonWordsIssue⟩

end Sys2Proof.Machine
end

section
/-!
Fences, prefetches and line operations at issue (08 R203 to R205, 10 R236, R237), and the order of a lane's operations (10 R232, R235).
-/

namespace Sys2Proof.Machine

/-! ### What the memory hierarchy brings in -/

/-- Two states differ in what `CacheFrame` names and in the L1 sectors at most. -/
def MemFrame (s s' : State) : Prop :=
  s' = { s with mem := s'.mem, keyTags := s'.keyTags, bad := s'.bad, l2 := s'.l2, stamp := s'.stamp, tlb := s'.tlb, icache := s'.icache
                fresh := s'.fresh, heat := s'.heat, l1 := s'.l1 }

theorem MemFrame.refl (s : State) : MemFrame s s := rfl

theorem MemFrame.trans {s s' s'' : State} (h : MemFrame s s') (h' : MemFrame s' s'') : MemFrame s s'' := by
  unfold MemFrame at *
  rw [h', h]

theorem CacheFrame.memFrame {s s' : State} (h : CacheFrame s s') : MemFrame s s' := by
  unfold CacheFrame MemFrame at *
  rw [h]

theorem MemFrame.foldl {β : Type} {f : State → β → State} (hf : ∀ s b, MemFrame s (f s b)) (l : List β) (s : State) :
    MemFrame s (l.foldl f s) := by
  induction l generalizing s with
  | nil => exact .refl s
  | cons b l ih => exact (hf s b).trans (ih _)

theorem MemFrame.ite {c : Prop} [Decidable c] {s a b : State} (ha : MemFrame s a) (hb : MemFrame s b) : MemFrame s (if c then a else b) := by
  split
  · exact ha
  · exact hb

theorem MemFrame.threads {s s' : State} (h : MemFrame s s') : s'.threads = s.threads := by rw [h]

theorem MemFrame.thread? {s s' : State} (h : MemFrame s s') (k : Nat) : s'.thread? k = s.thread? k := by
  rw [State.thread?, State.thread?, h.threads]

theorem State.l1Cap_memFrame (s : State) (dom pa : Nat) : MemFrame s (s.l1Cap dom pa) := by
  unfold State.l1Cap
  dsimp only
  split
  · exact .refl s
  · split <;> exact rfl

theorem State.l1Hint_memFrame (s : State) (dom pa : Nat) (h : Hint) : MemFrame s (s.l1Hint dom pa h) := by
  unfold State.l1Hint
  split
  · exact .refl s
  · dsimp only
    split
    · exact MemFrame.trans (s' := { s with l1 := _, stamp := _ }) rfl (State.l1Cap_memFrame _ _ _)
    · exact rfl

theorem State.l1Room_memFrame (s : State) (dom pa : Nat) : MemFrame s (s.l1Room dom pa) := by
  unfold State.l1Room
  split
  · exact .refl s
  · split
    · exact .refl s
    · split <;> exact rfl

theorem State.l1Fill_memFrame (s : State) (dom : Nat) (a : Acc) : MemFrame s (s.l1Fill dom a) := by
  unfold State.l1Fill
  exact (s.l1Room_memFrame dom a.pa).trans
    (MemFrame.trans (s' := { s.l1Room dom a.pa with l1 := _, stamp := _ }) rfl (State.l1Hint_memFrame _ _ _ _))

theorem State.prefetch_memFrame (s : State) (core : Nat) (l2 : Bool) (a : Acc) : MemFrame s (s.prefetch core l2 a) := by
  have lines (z : State) (dom : Nat) : MemFrame z ((List.range 4).foldl (fun s i =>
      if (s.l1.find? (l1Key dom (a.at (lineOf a.pa + 32 * i)).pa)).isSome then
        s.l1Hint dom (a.at (lineOf a.pa + 32 * i)).pa (a.at (lineOf a.pa + 32 * i)).hint
      else s.l1Fill dom (a.at (lineOf a.pa + 32 * i))) z) := by
    refine .foldl (fun s i => ?_) _ z
    split
    · exact State.l1Hint_memFrame _ _ _ _
    · exact State.l1Fill_memFrame _ _ _
  unfold State.prefetch
  exact .ite (.refl s) (.ite (s.touch_cacheFrame a).memFrame ((s.touch_cacheFrame a).memFrame.trans (lines _ _)))

/-! ### FENCE, PREF, DISC and CLEAN -/

theorem State.stampStore_thread? (s : State) (id k : Nat) : (s.stampStore id).thread? k = s.thread? k := rfl

theorem State.letPass_thread? (s : State) (slot n k : Nat) : (s.letPass slot n).thread? k = s.thread? k := by
  have stamped (l : List Op) : (l.foldl (fun (s : State) p => if s.mayGo true p then s.stampStore p.id else s) s).thread? k = s.thread? k := by
    refine State.foldl_thread? (fun (s : State) (p : Op) => if s.mayGo true p then s.stampStore p.id else s) k _ (fun p _ z => ?_) s
    split <;> rfl
  unfold State.letPass
  dsimp only
  split
  · exact stamped _
  · exact stamped _

theorem fence_runs (x : FenceArg) : RunsIn (fun _ _ => True) (.fence x) x.gd.holds fun _ => fenceFx x := by
  refine ⟨fun _ => rfl, fun _ => .of_nil fun l fx h => ?_, fun s => ⟨_, rfl, fun k => ?_, trivial⟩⟩
  · unfold fenceFx at h
    split at h <;> cases h
    rfl
  · split
    · exact State.noteIntervals_thread? _ _ _ k
    · refine (State.foldl_thread? _ k _ (fun j _ z => ?_) _).trans (State.noteIntervals_thread? _ _ _ k)
      split
      · rfl
      · split
        · rfl
        · exact State.letPass_thread? _ _ _ k

theorem pref_runs (x : PrefArg) : RunsIn (fun _ _ => True) (.pref x) x.gd.holds fun _ _ => .ok {} := by
  refine ⟨fun _ => rfl, fun _ => .of_nil fun l fx h => ?_, fun s => ⟨_, rfl, fun k => ?_, trivial⟩⟩
  · cases h
    rfl
  · exact (MemFrame.foldl (fun s a => s.prefetch_memFrame _ _ a) _ _).thread? k

theorem Lane.lineAt_own (l : Lane) (disc : Bool) (va : DWord) {fx : Fx} (h : l.lineAt disc va = .ok fx) : ∀ x ∈ fx.ops, x.slot = l.slot := by
  unfold Lane.lineAt at h
  dsimp only at h
  split at h
  · next fx' hfx =>
    cases h
    intro x hx
    obtain ⟨y, hy, rfl⟩ := List.mem_map.1 hx
    exact l.access_own _ _ _ _ hfx y (List.mem_filter.1 hy).1
  · next hno => exact absurd h (hno fx)

/-- DISC or CLEAN, as its part runs. -/
theorem line_runs (x : LineArg) (disc : Bool) : RunsBy (if disc then .disc x else .clean x) x.gd.holds fun _ l =>
    l.lineAt disc (l.addr .g x.base x.off) := by
  cases disc
  · exact .of_issueMem (ends := fun _ => false) (fun _ => rfl) (fun l _ h => l.lineAt_own _ _ h) fun _ => rfl
  · exact .of_issueMem (ends := fun _ => true) (fun _ => rfl) (fun l _ h => l.lineAt_own _ _ h) fun _ => rfl

/-- What DISC and CLEAN ask for. -/
def lineWant (disc : Bool) : Want where
  cls := .st
  kind := if disc then .disc else .clean
  sp := .g
  need := if disc then .write else .read
  hostPath := false

theorem Lane.lineAt_here {l : Lane} {disc : Bool} {va : DWord} {p : Place} {tlb : List Tlb} (hp : p ≠ .later) (hva : va.toNat < 2 ^ 55)
    (hf : l.find .g va.toNat 1 (if disc then .write else .read) false = .here p tlb) :
    SendsOne l (l.lineAt disc va) { l.accessOp (lineWant disc) va 1 p .team with arb := if disc then 1 else 3 } := by
  have h := Lane.access_here (w := lineWant disc) (more := fun _ => none) (fun h => by cases h) (Lane.rangeFault_g hva) rfl hf rfl
  unfold Lane.lineAt
  unfold lineWant at h ⊢
  dsimp only at h ⊢
  rw [h]
  have hne : (p != .later) = true := bne_iff_ne.2 hp
  refine ⟨_, rfl, ?_, rfl, rfl, rfl, rfl, rfl, rfl⟩
  dsimp only [Lane.accessOp, Lane.op]
  rw [List.filter_cons]
  dsimp only
  rw [if_pos hne]
  rfl

/-! ### What a fence notes, and whom it holds -/

/-- A fence's note of the operations before it, by what its scope covers (R203, R237). -/
def Lane.noted (l : Lane) (sc : Scope) (p : Bool) (v : FenceN) : FenceN :=
  if !p then v
  else if !l.s.beyondL1 (coreOf l.slot) sc then { v with near := l.s.nextOp }
  else if devScope (some sc) then { v with dev := l.s.nextOp }
  else if sc == .sys then { v with sys := l.s.nextOp }
  else { v with fab := l.s.nextOp }

theorem Lane.noted_eq (l : Lane) (sc : Scope) (p : Bool) (v : FenceN) : l.noted sc p v =
    if ¬ p = true then v
    else if l.s.beyondL1 (l.slot / 512) sc = false then { v with near := l.s.nextOp }
    else if sc.code.toNat ≤ 5 then { v with dev := l.s.nextOp }
    else if sc = .sys then { v with sys := l.s.nextOp }
    else { v with fab := l.s.nextOp } := by
  unfold Lane.noted devScope
  simp only [Bool.not_eq_true', Bool.not_eq_true, decide_eq_true_eq, beq_iff_eq]
  rfl

section
variable {s : State} {k : Nat} {t : Thread} {i : Instr} {o : Op}

/-- An operation of a lane below a number that a scope covers holds what waits for it. -/
theorem State.belowIn_of_mem {j n : Nat} (ho : o ∈ s.ops) (hk : o.slot = k) (hn : o.id < n) (hord : o.kind.ordered = true)
    (hw : o.within j = true) : s.belowIn j k n = true := by
  unfold State.belowIn
  rw [Bool.or_eq_true]
  exact .inl (List.any_eq_true.2 ⟨o, ho, by simp [hk, hn, hord, hw]⟩)

/-- The condition under which a fence's note holds an access that lies `r` out. -/
def heldBy (v : FenceN) (r : Nat) (o : Op) : Prop := o.kind.ordered = true
  ∧ (o.id < v.fab ∨ (o.id < v.sys ∧ r ≤ 1 ∧ o.onFar = false) ∨ (o.id < v.dev ∧ r = 0 ∧ o.onHost = false)
    ∨ (o.id < v.near ∧ r = 0 ∧ o.onHost = false ∧ o.seen = false))

theorem heldBy.zero {v : FenceN} {r : Nat} (h : heldBy v r o) : heldBy v 0 o :=
  ⟨h.1, h.2.imp_right (.imp (fun h => ⟨h.1, Nat.zero_le 1, h.2.2⟩) (.imp (fun h => ⟨h.1, rfl, h.2.2⟩) fun h => ⟨h.1, rfl, h.2.2⟩))⟩

theorem State.fenceBelow_of_held {v : FenceN} {r : Nat} (ho : o ∈ s.ops) (hk : o.slot = k) (h : heldBy v r o) :
    s.fenceBelow k v r = true := by
  obtain ⟨hord, hcase⟩ := h
  unfold State.fenceBelow
  rcases hcase with h | ⟨h, hr, hfar⟩ | ⟨h, rfl, hhost⟩ | ⟨h, rfl, hhost, hseen⟩
  · rw [State.accessBelow, State.belowIn_of_mem ho hk h hord rfl]
    rfl
  · rw [State.belowIn_of_mem ho hk h hord (j := 1) (by simp [Op.within, hfar]), decide_eq_true hr]
    simp
  · rw [State.belowIn_of_mem ho hk h hord (j := 0) (by simp [Op.within, hhost])]
    simp
  · have : s.l1Below k v.near = true := List.any_eq_true.2 ⟨o, ho, by simp [hk, h, hord, hseen, hhost]⟩
    rw [this]
    simp

theorem State.acqHolds_of_read (r : Nat) (ho : o ∈ s.ops) (hk : o.slot = k) (hr : o.kind.reads = true)
    (hn : o.id < t.fAcq.last ∨ o.id < t.fAr.last) : s.acqHolds k t r = true := by
  have : s.readBelow k (max t.fAcq.last t.fAr.last) = true :=
    List.any_eq_true.2 ⟨o, ho, by simp [hk, hr, hn]⟩
  rw [State.acqHolds, this]
  rfl

theorem State.acqHolds_of_held {r : Nat} (ho : o ∈ s.ops) (hk : o.slot = k) (h : heldBy t.fAr r o) : s.acqHolds k t r = true := by
  rw [State.acqHolds, State.fenceBelow_of_held ho hk h, Bool.or_true]

theorem State.not_passes_of_acq (hl : landingOk i t = true) (hf : (i.useOn t).fenced = true) (h0 : s.acqHolds k t 0 = true)
    (hr : s.acqHolds k t (s.wordReach k t i) = true) : s.passes k t i = false := by
  unfold State.passes
  rw [hl, hf, h0, hr]
  simp

theorem State.not_passes_of_rel (hl : landingOk i t = true) (hf : i.useOn t = .store) (h0 : s.relHolds k t 0 = true)
    (hr : s.relHolds k t (s.wordReach k t i) = true) : s.passes k t i = false := by
  unfold State.passes
  rw [hl, hf, h0, hr]
  simp

/-- A lane whose word does not pass is not of the issue. -/
theorem State.not_issued_of_not_passes (ht : s.thread? k = some t) (h : s.passes k t i = false) : s.passes k t i = false ∧ k ∉ s.issueSet i := by
  refine ⟨h, fun hk => ?_⟩
  obtain ⟨-, -, -, hp⟩ := State.of_mem_issueSet s i k t hk ht
  rw [h] at hp
  cases hp

end

theorem fencesAndLineWords : Rules.FencesAndLineWords := by
  unfold Rules.FencesAndLineWords
  intro put held waits
  have hput (l : Lane) (sc : Scope) (q : Prop) [Decidable q] (p : Bool) (v : FenceN) (h : p = true ↔ q) : put l sc q v = l.noted sc p v := by
    rw [l.noted_eq sc p v]
    exact if_congr (not_congr h.symm) rfl rfl
  have hheld (s : State) (k : Nat) (t : Thread) (i : Instr) (o : Op) (v : FenceN) : held s k t i o v = heldBy v (s.wordReach k t i) o := rfl
  clear_value put held
  refine ⟨fun x => ?_, ?_, ?_, ?_, fun x => ?_, fun x => ?_, fun x disc => ?_⟩
  · refine .of_runs (fence_runs x) fun s k t b _ h => ?_
    obtain ⟨sc, hsc⟩ := Option.isSome_iff_exists.1 h
    have hsc : (s.laneAt k t b).s.scopeOf (s.laneAt k t b).part x.scope = some sc := hsc
    rw [fenceFx, hsc]
    refine ⟨_, rfl, rfl, rfl, rfl, sc, rfl, ?_⟩
    rw [hput _ _ _ (x.order != .acq) _ bne_iff_ne, hput _ _ _ (x.order != .rel) _ bne_iff_ne, hput _ _ _ (x.order == .ar) _ beq_iff_eq]
    rfl
  · intro s k i t o ht hl ho hk ⟨hf, hr, hn⟩
    exact State.not_issued_of_not_passes ht (State.not_passes_of_acq hl hf (State.acqHolds_of_read 0 ho hk hr hn) (State.acqHolds_of_read _ ho hk hr hn))
  · intro s k i t o ht hl ho hk ⟨hf, h⟩
    rw [hheld] at h
    exact State.not_issued_of_not_passes ht (State.not_passes_of_rel hl hf (State.fenceBelow_of_held ho hk h.zero) (State.fenceBelow_of_held ho hk h))
  · intro s k i t o ht hl ho hk ⟨hf, h⟩
    rw [hheld] at h
    exact State.not_issued_of_not_passes ht (State.not_passes_of_acq hl hf (State.acqHolds_of_held ho hk h.zero) (State.acqHolds_of_held ho hk h))
  · refine .of_runs (fence_runs x) (by decide) fun s k t b _ h => ?_
    have hsc : (s.laneAt k t b).s.scopeOf (s.laneAt k t b).part x.scope = none := h
    rw [fenceFx, hsc]
    exact ⟨_, rfl⟩
  · exact .of_when (.of_runs (pref_runs x) fun s k t b _ _ => ⟨_, rfl, rfl, rfl, rfl, rfl⟩)
  · refine .of_runs (line_runs x disc) fun s k t b _ h => ?_
    obtain ⟨p, tlb, hp, hva, hf⟩ := h b
    rw [Lane.addr_eq_at]
    exact ⟨_, Lane.lineAt_here hp hva hf, fun u n d hu => ⟨rfl, rfl, rfl, rfl, hu⟩⟩

/-! ### The order of a lane's operations -/

theorem outOfScope_iff (sc : Scope) (o p : Op) : outOfScope (some sc) o p = true ↔
    (sc.code.toNat ≤ 5 ∧ (o.onHost = true ∨ p.onHost = true)) ∨ (sc = .sys ∧ (o.onFar = true ∨ p.onFar = true)) := by
  simp only [outOfScope, leavesOut, devScope, Bool.or_eq_true, Bool.and_eq_true, decide_eq_true_eq, beq_iff_eq, Option.some.injEq]
  tauto

theorem OpKind.forwards_of_isLoad {k : OpKind} (h : k.isLoad = true) : k.forwards = true := by
  cases k
  case load => rfl
  all_goals cases h

/-- What R232 and R235 put before an operation. -/
def State.comesFirst (s : State) (o p : Op) : Prop :=
  (p.kind.inPo = true ∧ overlaps o p = true ∧ ¬ (o.kind.isLoad = true ∧ p.seen = true ∧ p.stood = false))
    ∨ (∃ sc, p.acq = some sc ∧ outOfScope (some sc) o p = false)
    ∨ (∃ sc, o.rel = some sc ∧ outOfScope (some sc) o p = false ∧ p.kind.ordered = true
      ∧ (s.beyondL1 (o.slot / 512) sc = true ∨ p.seen = false))

theorem holdsUp_iff (s : State) {o : Op} (ho : o.kind.inPo = true) (p : Op) :
    holdsUp false (s.nearRel o) o p = true ↔ p.slot = o.slot ∧ p.id < o.id ∧ s.comesFirst o p := by
  have hacq : (p.acq.isSome && !outOfScope p.acq o p) = true ↔ ∃ sc, p.acq = some sc ∧ outOfScope (some sc) o p = false := by
    cases p.acq <;> simp
  have hrel : (o.rel.isSome && p.kind.ordered && !(s.nearRel o && p.seen) && !outOfScope o.rel o p) = true ↔
      ∃ sc, o.rel = some sc ∧ outOfScope (some sc) o p = false ∧ p.kind.ordered = true
        ∧ (s.beyondL1 (o.slot / 512) sc = true ∨ p.seen = false) := by
    unfold State.nearRel
    cases o.rel with
    | none => simp
    | some sc =>
      have : coreOf o.slot = o.slot / 512 := rfl
      simp [this]
      tauto
  have hfwd : ((false || o.kind.isLoad) && o.kind.forwards && p.seen && !p.stood) = true ↔
      o.kind.isLoad = true ∧ p.seen = true ∧ p.stood = false := by
    have := o.kind.forwards_of_isLoad
    simp only [Bool.false_or, Bool.and_eq_true, Bool.not_eq_true']
    tauto
  have hown : (p.kind.inPo && overlaps o p && !((false || o.kind.isLoad) && o.kind.forwards && p.seen && !p.stood)) = true ↔
      p.kind.inPo = true ∧ overlaps o p = true ∧ ¬ (o.kind.isLoad = true ∧ p.seen = true ∧ p.stood = false) := by
    rw [Bool.and_eq_true, Bool.and_eq_true, Bool.not_eq_true', ← Bool.not_eq_true, hfwd, and_assoc]
  unfold holdsUp State.comesFirst
  rw [ho, Bool.and_true, Bool.and_eq_true, Bool.and_eq_true, Bool.or_eq_true, Bool.or_eq_true, beq_iff_eq, decide_eq_true_eq, hown, hacq, hrel,
    and_assoc, or_assoc]

theorem State.mayPerform_iff (s : State) {o : Op} (ho : o.kind.inPo = true) : s.mayPerform o = true ↔
    o.held = none ∧ (∀ p ∈ s.ops, p.slot = o.slot → p.id < o.id → ¬ s.comesFirst o p)
      ∧ ∀ sc, o.rel = some sc → s.beyondL1 (o.slot / 512) sc = true → outOfScope (some sc) o o = false → s.earlyBelow o.slot o.id = false := by
  have hrel : (o.rel.isNone || s.nearRel o || outOfScope o.rel o o || !s.earlyBelow o.slot o.id) = true ↔
      ∀ sc, o.rel = some sc → s.beyondL1 (o.slot / 512) sc = true → outOfScope (some sc) o o = false → s.earlyBelow o.slot o.id = false := by
    unfold State.nearRel
    cases o.rel with
    | none => simp
    | some sc =>
      have : coreOf o.slot = o.slot / 512 := rfl
      simp [this]
      grind
  unfold State.mayPerform State.mayGo
  rw [Bool.and_eq_true, Bool.and_eq_true, hrel, Option.isNone_iff_eq_none, Bool.not_eq_true', List.any_eq_false, and_assoc]
  simp only [holdsUp_iff s ho, not_and]

/-- The step that would perform an operation that is held up changes nothing. -/
theorem State.letRelease_of_none (s : State) {o : Op} (h : o.rel = none) : s.letRelease o = s := by
  simp [State.letRelease, State.nearRel, h]

theorem State.storePerformed_held (s : State) {o : Op} (ho : s.op? o.id = some o) (hr : o.rel = none) (hm : s.mayPerform o = false) :
    exec (.storePerformed o.id) s = .next s := by
  change execStorePerformed o.id s = _
  unfold execStorePerformed
  rw [ho]
  dsimp only
  split
  · simp [State.performStore, *, State.letRelease_of_none]
  · simp [State.performAtom, *, State.letRelease_of_none]
  · simp [State.performLine, *]
  · simp [State.performLine, *]
  all_goals simp [State.performBar, *, State.letRelease_of_none]

theorem State.atomicPerformed_held (s : State) {o : Op} (ho : s.op? o.id = some o) (hr : o.rel = none) (hm : s.mayPerform o = false) :
    exec (.atomicPerformed o.id) s = .next s := by
  change execAtomicPerformed o.id s = _
  unfold execAtomicPerformed
  rw [ho]
  dsimp only
  split
  · simp [State.performAtom, *, State.letRelease_of_none]
  · rfl

theorem State.loadComplete_held (s : State) {o : Op} (ho : s.op? o.id = some o) (hm : s.mayPerform o = false)
    (hs : s.storesOf (s.domain (o.slot / 512)) = []) : exec (.loadComplete o.id) s = .next s := by
  have hsee : s.letSee o = s := by
    unfold State.letSee
    rw [show coreOf o.slot = o.slot / 512 from rfl, hs]
    rfl
  change execLoadComplete o.id s = _
  unfold execLoadComplete
  rw [ho]
  dsimp only
  split
  · simp [State.performLoad, *]
  · rfl

theorem operationsKeepOrder : Rules.OperationsKeepOrder := by
  unfold Rules.OperationsKeepOrder
  intro out after
  have hout (sc : Scope) (o p : Op) : ¬ out sc o p ↔ outOfScope (some sc) o p = false := by
    rw [← Bool.not_eq_true, outOfScope_iff]
  have hafter (s : State) (o p : Op) : after s o p ↔ s.comesFirst o p :=
    or_congr .rfl (or_congr (exists_congr fun sc => and_congr_right' (hout sc o p))
      (exists_congr fun sc => and_congr_right' (and_congr_left' (hout sc o p))))
  clear_value out after
  refine ⟨fun s o ho => ?_, fun o s h => ?_, fun o s h => ?_⟩
  · simp only [s.mayPerform_iff ho, hout, hafter]
  · obtain ⟨ho, -, -, hr, hm⟩ := h
    refine ⟨s, ?_, rfl⟩
    split
    · exact s.storePerformed_held ho hr hm
    · exact s.atomicPerformed_held ho hr hm
  · obtain ⟨ho, -, hm, hs⟩ := h
    exact ⟨s, s.loadComplete_held ho hm hs, rfl⟩

end Sys2Proof.Machine
end

section
/-!
The tags of teams: what exceptions and issues leave of them, and the words that read them (09 R206 to R210, R223, R224).
-/

namespace Sys2Proof.Machine

/-! ### What leaves tags, copy queues and teams' tag maps as they were -/

/-- Where a team stands, and the core's tags that its numbers name. -/
def Team.tagging (m : Team) : Nat × List Nat := (m.core, m.tags)

structure TagFrame (s s' : State) : Prop where
  tags : ∀ c, (s'.core c).tags = (s.core c).tags
  cq : ∀ c, (s'.core c).cq = (s.core c).cq
  team : ∀ k, (s'.team? k).map Team.tagging = (s.team? k).map Team.tagging

theorem TagFrame.refl (s : State) : TagFrame s s := ⟨fun _ => rfl, fun _ => rfl, fun _ => rfl⟩

theorem TagFrame.trans {s s' s'' : State} (h : TagFrame s s') (h' : TagFrame s' s'') : TagFrame s s'' :=
  ⟨fun c => (h'.tags c).trans (h.tags c), fun c => (h'.cq c).trans (h.cq c), fun k => (h'.team k).trans (h.team k)⟩

theorem TagFrame.foldl {β : Type} {f : State → β → State} (hf : ∀ s b, TagFrame s (f s b)) (l : List β) (s : State) : TagFrame s (l.foldl f s) := by
  induction l generalizing s with
  | nil => exact .refl s
  | cons b l ih => exact (hf s b).trans (ih _)

theorem TagFrame.team_of {s s' : State} (h : TagFrame s s') {k : Nat} {m : Team} (hm : s.team? k = some m) :
    ∃ m', s'.team? k = some m' ∧ m'.tagging = m.tagging := by
  have := h.team k
  rw [hm, Option.map_some, Option.map_eq_some_iff] at this
  exact this

theorem TagFrame.of_eq {s s' : State} (hc : s'.cores = s.cores) (ht : s'.teams = s.teams) : TagFrame s s' :=
  ⟨fun c => by rw [State.core_of_cores hc], fun c => by rw [State.core_of_cores hc], fun k => by rw [State.team?, State.team?, ht]⟩

theorem CacheFrame.tagFrame {s s' : State} (h : CacheFrame s s') : TagFrame s s' := by
  rw [h]
  exact .of_eq rfl rfl

theorem State.updCore_tagFrame (s : State) (c : Nat) (f : CoreSt → CoreSt) (h : ∀ x, (f x).tags = x.tags ∧ (f x).cq = x.cq) :
    TagFrame s (s.updCore c f) := by
  refine ⟨fun d => ?_, fun d => ?_, fun _ => rfl⟩ <;> rw [State.core_updCore] <;> split
  · next e => rw [e, (h _).1]
  · rfl
  · next e => rw [e, (h _).2]
  · rfl

theorem State.updTeam_tagFrame (s : State) (k : Nat) (f : Team → Team) (h : ∀ m, (f m).tagging = m.tagging) : TagFrame s (s.updTeam k f) := by
  refine ⟨fun _ => rfl, fun _ => rfl, fun j => ?_⟩
  by_cases hj : j = k
  · rw [hj, State.team?, State.updTeam, SMap.find?_upd_same, Option.map_map]
    exact congrArg (Option.map · _) (funext h)
  · rw [State.team?, State.updTeam, SMap.find?_upd_other _ _ _ _ hj]
    rfl

theorem State.endRecov_tagFrame (s : State) (m : Nat) : TagFrame s (s.endRecov m) := s.updTeam_tagFrame m _ fun _ => rfl

theorem State.updPart_tagFrame (s : State) (p : Nat) (f : Partition → Partition) : TagFrame s (s.updPart p f) := .of_eq rfl rfl

theorem State.updThread_tagFrame (s : State) (k : Nat) (f : Thread → Thread) : TagFrame s (s.updThread k f) := .of_eq rfl rfl

theorem TagFrame.updPart {s z : State} (h : TagFrame s z) (p : Nat) (f : Partition → Partition) : TagFrame s (z.updPart p f) :=
  h.trans (z.updPart_tagFrame p f)

theorem TagFrame.updCore {s z : State} (h : TagFrame s z) (c : Nat) (f : CoreSt → CoreSt) (hf : ∀ x, (f x).tags = x.tags ∧ (f x).cq = x.cq) :
    TagFrame s (z.updCore c f) := h.trans (z.updCore_tagFrame c f hf)

theorem TagFrame.updTeam {s z : State} (h : TagFrame s z) (k : Nat) (f : Team → Team) (hf : ∀ m, (f m).tagging = m.tagging) :
    TagFrame s (z.updTeam k f) := h.trans (z.updTeam_tagFrame k f hf)

theorem State.usedAnswer_tagFrame (s : State) (who : Asker) : TagFrame s (s.usedAnswer who) := by
  unfold State.usedAnswer
  split
  · exact .refl s
  · exact .of_eq rfl rfl

theorem State.askHost_tagFrame (s : State) (who : Asker) (part vpn : Nat) (wr : Bool) : TagFrame s (s.askHost who part vpn wr) := by
  unfold State.askHost
  dsimp only
  split <;> exact .of_eq rfl rfl

theorem State.noteWrite_tagFrame (s : State) (a : Acc) (wr : Option Nat) : TagFrame s (s.noteWrite a wr) := by
  refine .foldl (fun z e => ?_) _ s
  have logged (q : Nat) (la : Nat) (old : List Byte) (x y : Acc) (bs : List Byte) (f : Partition → Partition) :
      TagFrame z (((z.poke x bs).poke y old).updPart q f) :=
    (((z.poke_cacheFrame x bs).trans (State.poke_cacheFrame _ y old)).tagFrame).trans (State.updPart_tagFrame _ _ _)
  split
  · exact .refl z
  · split
    · exact .refl z
    · dsimp only
      split
      · split
        · exact .refl z
        · split
          · exact z.endRecov_tagFrame _
          · exact logged _ (lineOf a.pa) _ _ _ _ _
      · split
        · exact z.endRecov_tagFrame _
        · exact .refl z

theorem State.devWrite_tagFrame (s : State) (a : Acc) (bs : List Byte) : TagFrame s (s.devWrite a bs).1 := by
  have h : TagFrame s ((s.heatReq a).enter a).1 := ((s.heatReq_cacheFrame a).trans (State.enter_cacheFrame _ a)).tagFrame
  unfold State.devWrite
  dsimp only
  split
  · exact h
  · have hn := h.trans (State.noteWrite_tagFrame _ a a.team)
    refine TagFrame.trans ?_ (State.poke_cacheFrame _ a bs).tagFrame
    split
    · exact hn.trans (.of_eq rfl rfl)
    · exact hn

theorem State.engineWrite_tagFrame (s : State) (who : Asker) (p va : Nat) (bs : List Byte) : TagFrame s (s.engineWrite who p va bs).1 := by
  have fold (f : State × Bool → Nat × Nat → State × Bool) (hf : ∀ a x, TagFrame a.1 (f a x).1) (l : List (Nat × Nat)) (a : State × Bool) :
      TagFrame a.1 (l.foldl f a).1 := by
    induction l generalizing a with
    | nil => exact .refl _
    | cons x l ih => exact (hf a x).trans (ih _)
  refine fold _ (fun a x => ?_) _ (s, true)
  dsimp only
  split
  · exact .refl _
  · have h := (a.1.translate_cacheFrame who p (va + x.1) .write true).tagFrame
    split
    · exact h.trans (State.devWrite_tagFrame _ _ _)
    · exact h.trans (.of_eq rfl rfl)
    · exact h.trans (State.askHost_tagFrame _ _ _ _ _)
    · exact h

theorem State.ringOverflow_tagFrame (s : State) (p va e : Nat) : TagFrame s (s.ringOverflow p va e) := by
  unfold State.ringOverflow
  split
  · exact .refl s
  · exact .of_eq rfl rfl

theorem State.writeRec_tagFrame (s : State) (p : Nat) (r : FRec) : TagFrame s (s.writeRec p r).1 := by
  have h := (s.engineWrite_tagFrame (.unit fbEngine p) p ((s.part p).fbBase + 32 * ((s.part p).tail.toNat % 2 ^ (s.part p).fbLog)) r.bytes).trans
    (State.usedAnswer_tagFrame _ (.unit fbEngine p))
  unfold State.writeRec
  dsimp only
  split
  · split
    · exact h.trans (State.ringOverflow_tagFrame _ _ _ _)
    · exact h
  · dsimp only
    exact (h.updPart _ _).updCore _ _ fun _ => ⟨rfl, rfl⟩

theorem State.drainRecs_tagFrame (s : State) (p n : Nat) : TagFrame s (s.drainRecs p n) := by
  induction n generalizing s with
  | zero => exact .refl s
  | succ n ih =>
    unfold State.drainRecs
    dsimp only
    split
    · exact .refl s
    · next r _ =>
      split
      · exact (State.updPart_tagFrame _ _ _).trans (ih _)
      · split
        · exact .refl s
        · have h := s.writeRec_tagFrame p r
          split
          · next e =>
            rw [e] at h
            exact h
          · next e =>
            rw [e] at h
            exact h.trans ((State.updPart_tagFrame _ _ _).trans (ih _))

theorem State.report_tagFrame (s : State) (p : Nat) (x : Rep) : TagFrame s (s.report p x).1 := by
  unfold State.report
  dsimp only
  split
  · exact .refl s
  · exact TagFrame.trans (s' := s.addRec p x) (.of_eq rfl rfl) (State.drainRecs_tagFrame _ _ _)

theorem State.reportLanes_tagFrame (s : State) (c : Nat) (all ls : List LFault) : TagFrame s (s.reportLanes c all ls).1 := by
  induction ls with
  | nil => exact .refl s
  | cons l ls ih =>
    unfold State.reportLanes
    dsimp only
    split
    · exact ih
    · split
      · exact ih
      · exact ih.trans (State.report_tagFrame _ _ _)

theorem State.meets_tagFrame (s : State) (k : Nat) (c : BitVec 8) (va : DWord) : TagFrame s (s.meets k c va) := by
  unfold State.meets
  split
  · exact .refl s
  · exact State.updTeam_tagFrame _ _ _ fun _ => rfl

theorem State.leaveRegroup_tagFrame (s : State) (k : Nat) : TagFrame s (s.leaveRegroup k) := State.updCore_tagFrame _ _ _ fun _ => ⟨rfl, rfl⟩

theorem State.parkGroup_tagFrame (s : State) (core b : Nat) (ls : List LFault) (recs : List (Nat × Nat)) : TagFrame s (s.parkGroup core b ls recs) := by
  have each (g : LFault → Thread → Thread) (z : State) : TagFrame z (ls.foldl (fun s (m : LFault) => s.updThread m.slot (g m)) z) :=
    .foldl (fun s (m : LFault) => s.updThread_tagFrame m.slot (g m)) ls z
  unfold State.parkGroup
  split
  · exact .refl s
  · split
    · next n _ =>
      have parked (x : CoreSt → CoreSt) (hx : ∀ c, (x c).tags = c.tags ∧ (x c).cq = c.cq) (g) := (s.updCore_tagFrame core x hx).trans (each g _)
      dsimp only
      split
      · refine TagFrame.trans ?_ (.foldl (fun s (m : LFault) => s.leaveRegroup_tagFrame m.slot) _ _)
        refine parked _ ?_ _
        exact fun _ => ⟨rfl, rfl⟩
      · refine parked _ ?_ _
        exact fun _ => ⟨rfl, rfl⟩
    · refine TagFrame.trans ?_ (each _ _)
      exact State.updCore_tagFrame _ _ _ fun _ => ⟨rfl, rfl⟩

theorem State.fault_tagFrame (s : State) (core b : Nat) (ls : List LFault) : TagFrame s (s.fault core b ls) := by
  unfold State.fault
  split
  · exact .refl s
  · dsimp only
    refine TagFrame.trans ?_ (.foldl (fun z c => (z.reportLanes_tagFrame _ _ _).trans (State.parkGroup_tagFrame _ _ _ _ _)) _ _)
    refine TagFrame.trans (.foldl (fun z (l : LFault) => z.usedAnswer_tagFrame (.lane l.slot)) ls s) (.foldl (fun z (l : LFault) => ?_) _ _)
    exact (z.meets_tagFrame _ _ _).trans (State.updTeam_tagFrame _ _ _ fun _ => rfl)

/-! ### Through an issue -/

theorem State.onward_tagFrame (s : State) (k : Nat) : TagFrame s (s.onward k) := by
  unfold State.onward
  dsimp only
  split
  · exact s.usedAnswer_tagFrame _
  · exact (s.usedAnswer_tagFrame _).trans (.of_eq rfl rfl)

theorem State.renewed_tagFrame (s : State) (o : Op) : TagFrame s (s.renewed o) := by
  unfold State.renewed
  split
  · exact .refl s
  · split
    · exact .of_eq rfl rfl
    · exact .refl s

theorem State.applyLane_tagFrame (s : State) (k : Nat) (o : LaneOut) : TagFrame s (s.applyLane k o) := by
  cases o with
  | off => exact (s.onward_tagFrame k).trans (.of_eq rfl rfl)
  | fault l => exact s.onward_tagFrame k
  | ask vpn w iss =>
    exact (s.usedAnswer_tagFrame (.lane k)).trans (TagFrame.trans (s' := { (s.usedAnswer (.lane k)).updThread k fun t =>
      { t with hold := .xlate vpn } with late := s.late.put k iss }) (.of_eq rfl rfl) (State.askHost_tagFrame _ _ _ _ _))
  | ok fx =>
    refine (s.onward_tagFrame k).trans (TagFrame.trans (s' := (s.onward k).updThread k fun t => match fx.jump with
      | none => (fx.th t).next
      | some pc => (fx.th t).setPc pc) (.of_eq rfl rfl) ?_)
    refine (TagFrame.foldl (f := fun s o => s.issueOp o) (fun s o => (s.renewed_tagFrame o).trans (.of_eq rfl rfl)) fx.ops _).trans ?_
    simp only [State.applyLane]
    cases fx.req <;> exact .of_eq rfl rfl

theorem State.noteDeps_tagFrame (s s0 : State) (i : Instr) (outs : List (Nat × LaneOut)) : TagFrame s (s.noteDeps s0 i outs) := by
  unfold State.noteDeps
  split
  · exact .refl s
  · refine .foldl (fun z e => ?_) _ s
    split
    · exact .refl z
    · exact .foldl (f := fun (s : State) (f : List RegId × Nat) => s.setDeps e.1 f.1 f.2) (fun z f => .of_eq rfl rfl) _ z

theorem State.charge_tagFrame (s : State) (i : Instr) (l : List Nat) : TagFrame s (s.charge i l) := by
  unfold State.charge
  split
  · exact .refl s
  · exact State.updCore_tagFrame _ _ _ fun _ => ⟨rfl, rfl⟩

theorem State.runLanes_tagFrame (s : State) (i : Instr) (gd : Thread → Bool) (f : Lane → LaneRes) : TagFrame s (s.runLanes i gd f).s := by
  unfold State.runLanes
  dsimp only
  have h := ((s.charge_tagFrame i (s.issueSet i)).trans (.foldl (f := fun (s : State) (e : Nat × LaneOut) => s.applyLane e.1 e.2)
    (fun z e => z.applyLane_tagFrame e.1 e.2) (s.outcomes i gd f s.fresh (s.issueSet i)) _)).trans
    (State.noteDeps_tagFrame _ s i (s.outcomes i gd f s.fresh (s.issueSet i)))
  refine TagFrame.trans ?_ (State.fault_tagFrame _ _ _ _)
  exact h.trans (.of_eq rfl rfl)

theorem State.stepTraps_tagFrame (s : State) (pc : DWord) (ks : List Nat) : TagFrame s (s.stepTraps pc ks) := State.fault_tagFrame _ _ _ _

/-! ### WAITANY, WAITALL and FFR -/

theorem Lane.src_laneAt (s : State) (k : Nat) (t : Thread) (b pos : Nat) (w : Bool) (x : Src) :
    (s.laneAt k t b).src pos w x = Lane.src ⟨s, k, t, b⟩ pos w x := by cases x <;> rfl

section
variable {s : State} {k : Nat} {t : Thread} {m : DWord}

theorem State.tagsBeyond_iff : s.tagsBeyond t.team m = true ↔ 2 ^ s.tagCount t.team ≤ m.toNat := decide_eq_true_iff

theorem State.not_tagsBeyond_iff : s.tagsBeyond t.team m = false ↔ m.toNat < 2 ^ s.tagCount t.team := by
  rw [← Bool.not_eq_true, State.tagsBeyond_iff, Nat.not_le]

/-- A lane that takes a WAITANY in its mask has a tag of it ready (R223). -/
theorem Takes.waitany {x : TagArg} (h : Takes s (.waitany x) k t) (hm : ∀ b, Lane.src ⟨s, k, t, b⟩ 0 true x.a = m)
    (hin : s.tagsBeyond t.team m = false) (h0 : m ≠ 0) : s.tagBits t.team &&& m ≠ 0 := by
  obtain ⟨-, -, -, hp⟩ := State.of_mem_issueSet s _ k t h.mem h.thread
  unfold State.passes at hp
  simp only [h.landing, h.on, hm, hin, Bool.and_eq_true, Bool.or_eq_true, Bool.not_true, Bool.false_eq_true, false_or, beq_iff_eq, bne_iff_ne] at hp
  exact hp.2.resolve_left h0

theorem Takes.waitall {x : TagArg} (h : Takes s (.waitall x) k t) (hm : ∀ b, Lane.src ⟨s, k, t, b⟩ 0 true x.a = m)
    (hin : s.tagsBeyond t.team m = false) : s.tagBits t.team &&& m = m := by
  obtain ⟨-, -, -, hp⟩ := State.of_mem_issueSet s _ k t h.mem h.thread
  unfold State.passes at hp
  simp only [h.landing, h.on, hm, hin, Bool.and_eq_true, Bool.or_eq_true, Bool.not_true, Bool.false_eq_true, false_or, beq_iff_eq] at hp
  exact hp.2

end

theorem tagWaitFx_ops {any : Bool} {x : TagArg} {l : Lane} {fx : Fx} (h : tagWaitFx any x l = .ok fx) : fx.ops = [] := by
  unfold tagWaitFx at h
  dsimp only at h
  split_ifs at h
  cases h
  rfl

theorem waitany_runs (x : TagArg) : RunsBy (.waitany x) x.gd.holds fun _ => tagWaitFx true x :=
  .of_issue (fun _ => rfl) (fun _ => .of_nil fun _ _ h => tagWaitFx_ops h) fun _ => rfl

theorem waitall_runs (x : TagArg) : RunsBy (.waitall x) x.gd.holds fun _ => tagWaitFx false x :=
  .of_issue (fun _ => rfl) (fun _ => .of_nil fun _ _ h => tagWaitFx_ops h) fun _ => rfl

/-- Where the mask names tags of the team alone, a tag wait observes the ready copies; elsewhere it faults. -/
theorem tagWaitFx_eq (any : Bool) (x : TagArg) (s : State) (k : Nat) (t : Thread) (b : Nat) {m : DWord}
    (hm : ∀ b, Lane.src ⟨s, k, t, b⟩ 0 true x.a = m) : tagWaitFx any x (s.laneAt k t b) =
      if s.tagsBeyond t.team m || (any && m == 0) then .fault 0x24 0 0 false else .ok { th := fun t => { t with acqStamp := s.stamp } } := by
  unfold tagWaitFx
  rw [Lane.src_laneAt, hm]
  rfl

theorem ffrFx_ops {x : FfrArg} {l : Lane} {fx : Fx} (h : ffrFx x l = .ok fx) : fx.ops = [] := by
  unfold ffrFx at h
  dsimp only at h
  split at h <;> cases h
  rfl

theorem State.updTeamTag_thread? (s : State) (team j k : Nat) (f : TagSt → TagSt) : (s.updTeamTag team j f).thread? k = s.thread? k := by
  unfold State.updTeamTag
  split
  · rfl
  · split <;> rfl

/-- `.clr` on one lane: the tag that its FFR found is no longer ready (R224). -/
def State.clearTag (r z : State) (k : Nat) : State := match r.thread? k with
  | none => z
  | some t => z.updTeamTag t.team t.lat.toNat (fun g => { g with rdy := false })

section
variable (r z : State) (ks : List Nat) (k : Nat)

theorem State.clearTag_thread? (j : Nat) : (r.clearTag z k).thread? j = z.thread? j := by
  unfold State.clearTag
  split
  · rfl
  · exact State.updTeamTag_thread? _ _ _ _ _

theorem State.updTeamTag_teams (s : State) (team j : Nat) (f : TagSt → TagSt) : (s.updTeamTag team j f).teams = s.teams := by
  unfold State.updTeamTag
  split
  · rfl
  · split <;> rfl

theorem State.clearTag_teams : (r.clearTag z k).teams = z.teams := by
  unfold State.clearTag
  split
  · rfl
  · exact State.updTeamTag_teams _ _ _ _

theorem CoreSt.tag_updTag (c : CoreSt) (j g : Nat) (f : TagSt → TagSt) : (c.updTag j f).tag g = if g = j then f (c.tag j) else c.tag g := by
  unfold CoreSt.tag CoreSt.updTag
  split
  · next h => rw [h]; exact SMap.get_set_same _ _ _ _
  · next h => exact SMap.get_set_other _ _ _ _ _ h

theorem State.clearTag_keeps {c g : Nat} (h : ((z.core c).tag g).rdy = false) : (((r.clearTag z k).core c).tag g).rdy = false := by
  unfold State.clearTag State.updTeamTag
  split
  · exact h
  · split
    · exact h
    · split
      · exact h
      · rw [State.core_updCore]
        split
        · next e =>
          rw [CoreSt.tag_updTag]
          split
          · rfl
          · exact e ▸ h
        · exact h

theorem State.clearTag_clears {u : Thread} {m : Team} {g : Nat} (hu : r.thread? k = some u) (hm : z.team? u.team = some m)
    (hg : m.tags[u.lat.toNat]? = some g) : (((r.clearTag z k).core m.core).tag g).rdy = false := by
  unfold State.clearTag State.updTeamTag
  rw [hu]
  dsimp only
  rw [hm]
  dsimp only
  rw [hg]
  dsimp only
  rw [State.core_updCore_same, CoreSt.tag_updTag, if_pos rfl]

theorem State.foldl_clearTag_keeps {c g : Nat} (h : ((z.core c).tag g).rdy = false) :
    (((ks.foldl r.clearTag z).core c).tag g).rdy = false := by
  induction ks generalizing z with
  | nil => exact h
  | cons j ks ih => exact ih _ (r.clearTag_keeps z j h)

theorem State.foldl_clearTag_clears {u : Thread} {m : Team} {g : Nat} (hk : k ∈ ks) (hu : r.thread? k = some u) (hm : z.team? u.team = some m)
    (hg : m.tags[u.lat.toNat]? = some g) : (((ks.foldl r.clearTag z).core m.core).tag g).rdy = false := by
  induction ks generalizing z with
  | nil => cases hk
  | cons j ks ih =>
    rcases List.mem_cons.1 hk with rfl | hk
    · exact State.foldl_clearTag_keeps r _ ks (r.clearTag_clears z _ hu hm hg)
    · exact ih _ hk ((congrArg (SMap.find? · u.team) (r.clearTag_teams z j)).trans hm)

theorem State.foldl_clearTag_thread? (j : Nat) : (ks.foldl r.clearTag z).thread? j = z.thread? j :=
  State.foldl_thread? r.clearTag j ks (fun k _ y => r.clearTag_thread? y k j) z

end

theorem execFfr_eq (x : FfrArg) (s : State) : exec (.ffr x) s =
    .next ((if !x.clr then (s.runLanes (.ffr x) x.gd.holds (ffrFx x)).s
        else (s.runLanes (.ffr x) x.gd.holds (ffrFx x)).took.foldl (s.runLanes (.ffr x) x.gd.holds (ffrFx x)).s.clearTag
          (s.runLanes (.ffr x) x.gd.holds (ffrFx x)).s).stepTraps s.cur.pc
      ((s.runLanes (.ffr x) x.gd.holds (ffrFx x)).took ++ (s.runLanes (.ffr x) x.gd.holds (ffrFx x)).off)) := rfl

theorem ffr_runs (x : FfrArg) : RunsIn (fun _ _ => True) (.ffr x) x.gd.holds fun _ => ffrFx x := by
  refine ⟨fun _ => rfl, fun _ => .of_nil fun _ _ h => ffrFx_ops h, fun s => ⟨_, execFfr_eq x s, fun k => ?_, trivial⟩⟩
  split
  · rfl
  · exact State.foldl_clearTag_thread? _ _ _ _

/-- A thread after FFR found a number: where it names a tag, the thread observes the copies on it (R210, R224). -/
def Thread.found (t : Thread) (x : FfrArg) (n stamp : Nat) : Thread :=
  if n < 64 then { t.result false x.d (BitVec.ofNat 64 n) with acqStamp := stamp } else t.result false x.d (BitVec.ofNat 64 n)

theorem Thread.found_eq (t : Thread) (x : FfrArg) (n stamp : Nat) :
    ∃ a, t.found x n stamp = { t.result false x.d (BitVec.ofNat 64 n) with acqStamp := a } := by
  unfold Thread.found
  split
  · exact ⟨_, rfl⟩
  · exact ⟨_, rfl⟩

/-- What FFR leaves of its thread, but for the stamp of an observed copy (R224). -/
theorem Thread.found_puts (t : Thread) (x : FfrArg) {n : Nat} (stamp : Nat) (hn : n ≤ 64) :
    (∃ u, Puts t u false x.d (BitVec.ofNat 64 n) 0
      ∧ (t.found x n stamp).next = { u with acqStamp := (t.found x n stamp).next.acqStamp })
    ∧ (t.found x n stamp).next.lat = BitVec.ofNat 64 n ∧ (t.found x n stamp).next.team = t.team
    ∧ (t.found x n stamp).next.step = t.step := by
  have hputs := t.result_puts0 false x.d (BitVec.ofNat 64 n)
  rw [extW_ofNat (w := false) (n := n) (by change n < 2 ^ 32; omega)] at hputs
  obtain ⟨a, ha⟩ := t.found_eq x n stamp
  rw [ha]
  have hteam := congrArg Thread.team hputs.rest
  have hstep := congrArg Thread.step hputs.rest
  exact ⟨⟨_, hputs, rfl⟩, hputs.latch, hteam, hstep⟩

/-- The number that FFR finds: the lowest ready tag of its mask, or 64 (R224). -/
theorem Lane.ffr_spec (l : Lane) (m : DWord) : l.ffr m ≤ 64 ∧ (∀ i < l.ffr m, (l.s.tagBits l.t.team &&& m).getLsbD i = false)
    ∧ (l.ffr m < 64 → (l.s.tagBits l.t.team &&& m).getLsbD (l.ffr m) = true) := by
  unfold Lane.ffr
  cases h : (List.range 64).find? (fun k => (l.s.tagBits l.t.team &&& m).getLsbD k) with
  | none =>
    refine ⟨le_rfl, fun i hi => ?_, fun h => absurd h (lt_irrefl 64)⟩
    simpa using List.find?_eq_none.1 h i (List.mem_range.2 hi)
  | some n =>
    rw [List.find?_range_eq_some] at h
    obtain ⟨hn, hlt, hlow⟩ := h
    exact ⟨(List.mem_range.1 hlt).le, fun i hi => by simpa only [Bool.not_eq_true'] using hlow i hi, fun _ => hn⟩

theorem ffrFx_eq (x : FfrArg) (s : State) (k : Nat) (t : Thread) (b : Nat) {m : DWord} (hm : ∀ b, Lane.src ⟨s, k, t, b⟩ 0 true x.a = m) :
    ffrFx x (s.laneAt k t b) =
      if s.tagsBeyond t.team m then .fault 0x24 0 0 false else .ok { th := fun t' => t'.found x ((s.laneAt k t b).ffr m) s.stamp } := by
  unfold ffrFx
  rw [Lane.src_laneAt, hm]
  rfl

theorem tagWaits : Rules.TagWaits := by
  unfold Rules.TagWaits
  intro mask tags
  have htags (s : State) (t : Thread) : tags s t = s.tagCount t.team := rfl
  clear_value tags
  refine ⟨fun x => ?_, fun x => ?_, fun x => ?_, fun x => ?_, fun x => ?_, fun x => ?_⟩
  · refine .of_runs (waitany_runs x) fun s k t b ht ⟨m, hm, h0, hin⟩ => ?_
    rw [htags, ← State.not_tagsBeyond_iff] at hin
    rw [tagWaitFx_eq _ _ _ _ _ _ hm, hin, beq_eq_false_iff_ne.2 h0]
    refine ⟨_, rfl, rfl, rfl, rfl, rfl, ?_⟩
    rw [Lane.src_laneAt, hm]
    exact ht.waitany hm hin h0
  · refine .of_runs (waitall_runs x) fun s k t b ht ⟨m, hm, hin⟩ => ?_
    rw [htags, ← State.not_tagsBeyond_iff] at hin
    rw [tagWaitFx_eq _ _ _ _ _ _ hm, hin]
    refine ⟨_, rfl, rfl, rfl, rfl, rfl, ?_⟩
    rw [Lane.src_laneAt, hm]
    exact ht.waitall hm hin
  · intro s k t ht ⟨m, hm, hin⟩
    rw [htags, ← State.not_tagsBeyond_iff] at hin
    have hfx (b : Nat) : ffrFx x (s.laneAt k t b) = .ok { th := fun t' => t'.found x ((s.laneAt k t b).ffr m) s.stamp } := by
      rw [ffrFx_eq _ _ _ _ _ hm, hin]
      rfl
    obtain ⟨hk, b, fx, hb, hthread⟩ := s.runLanes_takes (.ffr x) x.gd.holds (ffrFx x) k t ht rfl (.of_nil fun _ _ h => ffrFx_ops h)
      fun b => ⟨_, hfx b, rfl, rfl⟩
    cases (hfx b).symm.trans hb
    obtain ⟨hle, hlow, hready⟩ := (s.laneAt k t b).ffr_spec m
    obtain ⟨hputs, hlat, hteam, hstep⟩ := t.found_puts x s.stamp hle
    have hv : (BitVec.ofNat 64 ((s.laneAt k t b).ffr m)).toNat = (s.laneAt k t b).ffr m := by
      rw [BitVec.toNat_ofNat]
      exact Nat.mod_eq_of_lt (by omega)
    have hframe := s.runLanes_tagFrame (.ffr x) x.gd.holds (ffrFx x)
    have hexec := execFfr_eq x s
    change (s.runLanes (.ffr x) x.gd.holds (ffrFx x)).s.thread? k = some (t.found x ((s.laneAt k t b).ffr m) s.stamp).next at hthread
    generalize s.runLanes (.ffr x) x.gd.holds (ffrFx x) = r at hk hthread hframe hexec
    refine ⟨_, b, (t.found x ((s.laneAt k t b).ffr m) s.stamp).next, hexec, ?_, ?_⟩
    · have hz : (if !x.clr then r.s else r.took.foldl r.s.clearTag r.s).thread? k = r.s.thread? k := by
        split
        · rfl
        · exact State.foldl_clearTag_thread? _ _ _ _
      refine (State.stepTraps_thread? _ _ _ k fun v h => ?_).trans (hz.trans hthread)
      rw [← Option.some.inj ((hz.trans hthread).symm.trans h)]
      exact hstep.trans ht.free
    · dsimp only
      rw [Lane.src_laneAt, hm]
      refine ⟨_, hputs, ?_⟩
      rw [hv]
      refine ⟨hle, hlow, hready, fun hclr hlt m' g hm' hg => ?_⟩
      rw [hclr, CoreSt.tag, (State.stepTraps_tagFrame _ _ _).tags]
      obtain ⟨m2, hm2, htag⟩ := hframe.team_of hm'
      obtain ⟨hcore, htags⟩ := Prod.mk.injEq .. ▸ htag
      rw [← hcore]
      refine State.foldl_clearTag_clears r.s r.s r.took k hk hthread (hteam ▸ hm2) ?_
      rw [hlat, hv, htags]
      exact hg
  · refine .of_runs (waitany_runs x) (by decide) fun s k t b ht ⟨m, hm, hout⟩ => ?_
    rw [htags, ← State.tagsBeyond_iff] at hout
    rw [tagWaitFx_eq _ _ _ _ _ _ hm, if_pos]
    · exact ⟨_, rfl⟩
    · rw [Bool.or_eq_true, Bool.true_and, beq_iff_eq]
      exact hout.symm
  · refine .of_runs (waitall_runs x) (by decide) fun s k t b ht ⟨m, hm, hout⟩ => ?_
    rw [htags, ← State.tagsBeyond_iff] at hout
    rw [tagWaitFx_eq _ _ _ _ _ _ hm, hout]
    exact ⟨_, rfl⟩
  · refine .of_runs (ffr_runs x) (by decide) fun s k t b ht ⟨m, hm, hout⟩ => ?_
    rw [htags, ← State.tagsBeyond_iff] at hout
    rw [ffrFx_eq _ _ _ _ _ hm, hout]
    exact ⟨_, rfl⟩

/-- Settles O32: fences and line words, the order of a lane's operations, and tag waits. -/
theorem fencesLinesAndTags : Obligations.FencesLinesAndTags := ⟨fencesAndLineWords, operationsKeepOrder, tagWaits⟩

end Sys2Proof.Machine
end

/-! # A number used again

Several statements say of an operation that ends that no operation of its number is left, and ask for no thread that waits to
reissue one except of the operation's own thread. `State.finishOp` lets every lane of the core that waits so go on, and the
operation it reissues takes `nextOp`. Where `nextOp` is the number of the operation that ends, which no hypothesis of these
statements keeps out, the reissued one stands under the same number, and the statement fails. -/
section
namespace Sys2Proof.Machine

/-- An operation 0 of slot 0 with nothing but its class, kind and place. -/
def bareOp (cls : Cls) (kind : OpKind) (place : Place) : Op where
  id := 0
  slot := 0
  part := 0
  pc := 0
  cls := cls
  kind := kind
  va := 0
  place := place
  n := 4
  marks := []
  rel := none
  acq := none
  l1 := none
  held := none
  hva := 0
  failed := none
  arb := 0
  since := 0
  after := 0
  todo := [(0, 4)]
  buf := [0, 0, 0, 0]
  sent := false
  viaCxl := false
  iss := 0
  dep := 0
  again := false
  shown := false
  bypass := false
  stood := false
  heated := []
  got := 0

/-- The operation is outstanding for a thread in slot 0, another thread of the core waits to reissue one of its own, and the next
number to give is the operation's. -/
def reusedNumber (o : Op) : State where
  __ := State.reset
  ops := [o]
  nextOp := o.id
  threads := [(0, Thread.placed 0 0 1 0 0), (1, { Thread.placed 0 0 1 0 0 with hold := .replay { o with slot := 1 } })]

/-- After the step an operation of the number is there. -/
def leavesOp (i : Instr) (s : State) (n : Nat) : Bool := match exec i s with
  | .next s' => (s'.op? n).isSome
  | _ => false

/-- A step that leaves an operation of a number refutes a statement by which none is left. -/
theorem Happens.not_of_leavesOp {i : Instr} {C : State → Prop} {P : State → State → Prop} {s : State} {n : Nat}
    (hl : leavesOp i s n = true) (hc : C s) (hp : ∀ s', P s s' → s'.op? n = none) : ¬ Happens i C P := by
  intro h
  obtain ⟨s', he, hs'⟩ := h s hc
  simp [leavesOp, he, hp s' hs'] at hl

/-- The thread in slot 0. -/
def aThread : Thread := Thread.placed 0 0 1 0 0

theorem aThread_noReplay : aThread.noReplay := by intro o h; cases h

/-- The BARI that is performed. -/
def aBari : Op := bareOp .st (.bari 1) (.scr 0 0 false)

/-- Refutes O31: a thread of the core that waits to reissue an operation takes the number of the BARI that is performed, where
that number is the next to be given. -/
theorem not_barriersAct : ¬ Obligations.BarriersAct := by
  rintro ⟨-, hbari, -⟩
  refine Happens.not_of_leavesOp (s := reusedNumber aBari) (n := 0) (by decide) ?_ (fun _ h => h.2.1)
    (hbari aBari 1 0 0 aThread (by decide) (by decide))
  exact ⟨by decide, by decide, by decide, by decide, by decide, by decide, by decide, aThread_noReplay, by decide⟩

/-- The EMIT whose queue, 0, is not its partition's. -/
def anEmit : Op := bareOp .st (.emit 0 []) .later

/-- Refutes O33: the EMIT is deferred with 0x12, and a thread of the core that waits to reissue an operation takes its number. -/
theorem not_queuesAct : ¬ Obligations.QueuesAct := by
  rintro ⟨⟨hemit, -⟩, -⟩
  obtain ⟨-, -, -, -, hlost⟩ := hemit anEmit 0 [] aThread rfl rfl
  refine Happens.not_of_leavesOp (s := reusedNumber anEmit) (n := 0) (by decide) ?_ (fun _ h => h.1) hlost
  exact ⟨⟨⟨by decide, by decide, by decide, aThread_noReplay, by decide⟩, by decide⟩, by decide⟩

/-- The MDIS whose slot, 0, is not its partition's. -/
def anMdis : Op := bareOp .st (.mdis 0) .later

/-- Refutes O35: the MDIS is deferred with 0x12, and a thread of the core that waits to reissue an operation takes its number. -/
theorem not_automatonUnitActs : ¬ Obligations.AutomatonUnitActs := by
  rintro ⟨-, -, hmdis, -⟩
  refine Happens.not_of_leavesOp (s := reusedNumber anMdis) (n := 0) (by decide) ?_ (fun _ h => h.1)
    (hmdis anMdis 0 aThread rfl).2
  exact ⟨⟨by decide, by decide, by decide, by decide, by decide, aThread_noReplay, by decide⟩, by decide⟩

/-- The load of a word of the scratchpad into o0. -/
def aLoad : Op := bareOp .ld (.load (.o 0) .w false false .none) (.scr 0 0 false)

/-- Refutes O27: the load completes, and a thread of the core that waits to reissue an operation takes its number. -/
theorem not_loadsComplete : ¬ Obligations.LoadsComplete := by
  intro h
  refine Happens.not_of_leavesOp (s := reusedNumber aLoad) (n := 0) (by decide) ?_ (fun _ h => h.1)
    (h aLoad (.o 0) .w false false .none aThread [0, 0, 0, 0])
  exact ⟨by decide, by decide, by decide, by decide, by decide, by decide, by decide, by decide, by decide, aThread_noReplay,
    by decide, ⟨by decide, by decide, by decide⟩, by decide⟩

/-- The store of a word of the scratchpad. -/
def aStore : Op := bareOp .st (.store [0, 0, 0, 0] .none) (.scr 0 0 false)

/-- Refutes O28: the store is performed, and a thread of the core that waits to reissue an operation takes its number. -/
theorem not_storesAndAtomicsPerform : ¬ Obligations.StoresAndAtomicsPerform := by
  rintro ⟨hstore, -⟩
  refine Happens.not_of_leavesOp (s := reusedNumber aStore) (n := 0) (by decide) ?_ (fun _ h => h.1)
    (hstore aStore [0, 0, 0, 0] .none aThread)
  exact ⟨by decide, by decide, by decide, by decide, by decide, by decide, by decide, by decide, by decide, aThread_noReplay,
    by decide, fun h => absurd h (by decide)⟩

/-- The LDFR of which the first of four times 16 bytes are left to come. -/
def anLdfr : Op := { bareOp .tl (.frag false false 0 0 .s) (.scr 0 0 false) with todo := [(0, 16)], buf := List.replicate 64 0 }

/-- Refutes O17: the LDFR ends, and a thread of the core that waits to reissue an operation takes its number. -/
theorem not_fragmentAccesses : ¬ Obligations.FragmentAccesses := by
  rintro ⟨-, hends⟩
  refine Happens.not_of_leavesOp (s := reusedNumber anLdfr) (n := 0) (by decide) ?_ (fun _ h => h.1)
    (hends anLdfr false 0 0 0 aThread)
  exact ⟨by decide, by decide, by decide, by decide, by decide, by decide, by decide, by decide, aThread_noReplay, by decide⟩

/-- A copy of no bytes, on tag 0. -/
def emptyCopy : CpyArg := ⟨.always, .g 0, .g 1, .imm 0, true, .s, none, 0⟩

/-- Lane 0 of a team is about to issue a word; another thread of the core waits to reissue an operation of slot 0. -/
def besideReplay : State where
  __ := State.reset
  teams := [(0, Team.placed 1 0 0 0 1 0 1024 [0])]
  threads := [(0, aThread), (1, { aThread with hold := .replay aStore })]
  cur := { core := 0, bough := 0, slots := [0], pc := 0 }

/-- After the step an operation of slot 0 is there. -/
def leavesOpOfSlot0 (i : Instr) (s : State) : Bool := match exec i s with
  | .next s' => s'.ops.any (fun o => o.slot == 0)
  | _ => false

theorem takes_emptyCopy : Takes besideReplay (.cpy emptyCopy) 0 aThread :=
  ⟨by decide, by decide, by decide, by decide, by decide, by decide, by decide⟩

/-- Refutes O29: the copy of no bytes ends at once, and by its end the thread that waits to reissue an operation of slot 0 does so,
where there was none. -/
theorem not_copyWords : ¬ Obligations.CopyWords := by
  rintro ⟨⟨-, -, -, hempty, -⟩, -⟩
  obtain ⟨s', b, u, he, -, -, hops⟩ := hempty emptyCopy besideReplay 0 aThread takes_emptyCopy
    ⟨aThread_noReplay, fun b => ⟨rfl, rfl, fun _ h => nomatch h⟩⟩
  have hl : leavesOpOfSlot0 (.cpy emptyCopy) besideReplay = true := by decide
  rw [leavesOpOfSlot0, he] at hl
  obtain ⟨o, ho, hslot⟩ := List.any_eq_true.1 hl
  obtain ⟨p, hp, -⟩ := hops o ho (by simpa using hslot : o.slot = 0)
  exact nomatch hp

end Sys2Proof.Machine
end

/-! # Corners that a statement's hypotheses leave open

Each refutation here names a state that meets the hypotheses of one clause and from which the step does something that the clause
excludes: an access that finds no room in its core, a regroup record that a save dissolves, a mailbox command that ends when the
device goes off, a slot that the list of threads holds twice. -/
section
namespace Sys2Proof.Machine

/-- The reduction on host memory that waits for its host's answer. -/
def aRed : Op := { bareOp .st (.red false .add 0) (.host 0 0) with sent := true }

/-- Refutes O49: the host completes the AtomicOp, and a thread of the core that waits to reissue an operation takes its number. -/
theorem not_outsideAccesses : ¬ Obligations.OutsideAccesses := by
  rintro ⟨-, ⟨hatomic, -⟩, -⟩
  obtain ⟨hdone, -⟩ := hatomic aRed false .add 0 0 0 0 aThread
  refine Happens.not_of_leavesOp (s := reusedNumber aRed) (n := 0) (by decide) ?_ (fun _ h => h.1) hdone
  exact ⟨⟨by decide, by decide, by decide, by decide, aThread_noReplay, by decide⟩, .inr ⟨rfl, by decide⟩, by decide, rfl⟩

/-! ### A core without room for one request more -/

/-- The deferred fault of the load of a word. -/
def aDefer : Defer := ⟨0x11, 0, 0, .ld, [], aLoad⟩

/-- What the lane that met it records. -/
def aPark : Park := ⟨0x11, 0, 0, 0, 0, some aDefer, false, none⟩

/-- The parked thread of slot 0. -/
def parkedThread : Thread := { aThread with st := .parked, park := some aPark }

/-- Slot 0 is parked under record 0 of its core, and the core's 512 requests are outstanding, for another slot. -/
def withoutRoom : State where
  __ := State.reset
  threads := [(0, parkedThread)]
  cores := [(0, { CoreSt.reset with pkcmdm := 1, recs := [(0, ⟨true, 0x11, 0, 0, 0, 0, [0]⟩)] })]
  ops := List.replicate 512 { aLoad with id := 1, slot := 1 }

theorem withoutRoom_marked : (withoutRoom.core 0).pkcmdm.getLsbD (0 % 512) = true := by
  rw [show (withoutRoom.core 0).pkcmdm = 1#512 from rfl]
  simp

/-- After the step the thread of slot 0 is held. -/
def leavesHeld (i : Instr) (s : State) : Bool := match exec i s with
  | .next s' => (s'.thread? 0).any (fun t => t.hold != .none)
  | _ => false

/-- Refutes O41: REPLAY of a deferred load where the core's 512 requests are outstanding leaves the thread held until there is
room. -/
theorem not_parksAndRepliesResolve : ¬ Obligations.ParksAndRepliesResolve := by
  rintro ⟨⟨-, hdeferred, -⟩, -⟩
  obtain ⟨hreplay, -⟩ := hdeferred 0 0 0 parkedThread aPark aDefer rfl
  obtain ⟨s', he, -, ⟨u, hu, hueq⟩, -⟩ := hreplay (.o 0) .w false false .none rfl rfl rfl withoutRoom
    ⟨⟨rfl, rfl, rfl, withoutRoom_marked, ⟨true, 0x11, 0, 0, 0, 0, [0]⟩, by decide, rfl, rfl⟩, by decide, by decide⟩
  have hl : leavesHeld (.pkcmdReplay 0 0) withoutRoom = true := by decide +kernel
  have hold : u.hold = .none := by rw [hueq]
  simp [leavesHeld, he, hu, hold] at hl

/-! ### A save dissolves a regroup record -/

/-- The team of one lane in slot 0, whose context is to be saved while a regroup record gathers its thread. -/
def savedWhileSpawned : State where
  __ := State.reset
  threads := [(0, { aThread with st := .spawned })]
  teams := [(0, Team.placed 1 0 0 0 1 0 1024 [])]
  grids := [(1, ⟨1, 0, [], 0, 1, 1, 0, none, 0, 0, 0, [], false, 0⟩)]
  cores := [(0, { CoreSt.reset with regroup := [(0, ⟨1, 0, [0], 0, false⟩)] })]
  parts := [(0, { Partition.reset with swap := some (0, false) })]

/-- After the step the thread of slot 0 is ready. -/
def leavesReady (i : Instr) (s : State) : Bool := match exec i s with
  | .next s' => (s'.thread? 0).any (fun t => t.st == .ready)
  | _ => false

/-- Refutes O45: the save of a context dissolves the record that gathers a team's spawned thread, which comes back to its slot. -/
theorem not_savesAndRollbacks : ¬ Obligations.SavesAndRollbacks := by
  rintro ⟨⟨-, -, hsave, -⟩, -⟩
  obtain ⟨s', he, -, hthreads⟩ := hsave 0 0 0 (Team.placed 1 0 0 0 1 0 1024 []) ⟨1, 0, [], 0, 1, 1, 0, none, 0, 0, 0, [], false, 0⟩
    savedWhileSpawned ⟨by decide, by decide, by decide, by decide, rfl, rfl⟩
  have hl : leavesReady (.contextSave 0 0) savedWhileSpawned = true := by decide
  have hthread : s'.thread? 0 = savedWhileSpawned.thread? 0 := by rw [State.thread?, hthreads]; rfl
  rw [leavesReady, show exec (.contextSave 0 0) savedWhileSpawned = .next s' from he] at hl
  simp only [hthread] at hl
  exact absurd hl (by decide)

/-! ### The last virtual function that asks for power goes -/

/-- Logical device 0 asks for no power, and logical device 1, which does not answer, has a mailbox command that waits. -/
def lastFunction : State where
  __ := State.reset
  dev := { State.reset.dev with state := 1 }
  lds := [(0, { LDev.reset with v := true }), (1, { LDev.reset with v := true, reqState := 3, mbHeld := some (0, 0) })]

/-- After the step no mailbox command of logical device 1 waits. -/
def leavesNoMailbox (i : Instr) (s : State) : Bool := match exec i s with
  | .next s' => (s'.ld 1).mbHeld.isNone
  | _ => false

/-- Refutes O48: with the function of logical device 0 gone the device takes the state that the others ask for and goes off, and a
mailbox command of another logical device waits no longer. -/
theorem not_bringUpAndTables : ¬ Obligations.BringUpAndTables := by
  rintro ⟨-, -, -, -, hvf⟩
  obtain ⟨s', he, -, -, hothers, -⟩ := hvf 0 0 (by decide) lastFunction (by decide : lastFunction.dev.state ≠ 5)
  have hl : leavesNoMailbox (.partitionTableWrite (.vf 0 0)) lastFunction = true := by decide
  have hheld : (s'.ld 1).mbHeld = (lastFunction.ld 1).mbHeld := by rw [hothers 1 (by decide) (by decide)]
  simp only [leavesNoMailbox, he, hheld] at hl
  exact absurd hl (by decide)

/-! ### A slot that the list of threads holds twice -/

/-- The copy within a scratchpad, of whose bytes the last 16 are left. -/
def aCopy : Op := { bareOp .cp (.copy [(64, 0, 16)] none 16 64 0 true .s 0 none true) .later with todo := [(0, 16)] }

/-- Slot 0 stands twice: a ready thread, which is the one found, and one that waits on phase 5 of the barrier object under the copy's
destination. -/
def twiceListed : State where
  __ := State.reset
  threads := [(0, aThread), (0, { aThread with st := .waiting, bwait := some (0, 5) })]
  teams := [(0, Team.placed 1 0 0 0 1 0 1024 [0])]
  ops := [aCopy]

theorem twiceListed_noReplay : ∀ e ∈ twiceListed.threads, e.2.noReplay := by
  simp [twiceListed, Thread.noReplay, aThread, Thread.placed]

/-- After the step the thread of slot 0 is past its word. -/
def leavesPassed (i : Instr) (s : State) : Bool := match exec i s with
  | .next s' => (s'.thread? 0).any (fun t => t.pcw == 1)
  | _ => false

/-- Refutes O30: the bytes that the copy writes end the phase that the second thread waits on, and the thread found in its slot goes on
to the next word. -/
theorem not_copiesComplete : ¬ Obligations.CopiesComplete := by
  rintro ⟨-, hcopy, -⟩
  obtain ⟨s', he, -, hthread, -⟩ := hcopy aCopy 64 0 16 0 0 0 aThread (Team.placed 1 0 0 0 1 0 1024 [0]) twiceListed
    ⟨by decide, rfl, rfl, rfl, rfl, rfl, by decide, by decide, by decide, by decide, by decide, twiceListed_noReplay, rfl, by decide, by decide,
      by decide⟩
  have hl : leavesPassed (.copyComplete 0) twiceListed = true := by decide
  rw [leavesPassed, show exec (.copyComplete 0) twiceListed = .next s' from he] at hl
  simp only [show s'.thread? 0 = _ from hthread] at hl
  exact absurd hl (by decide)

end Sys2Proof.Machine
end

/-! # Clock, voltage and power

Each rule is one function of the power unit; the power cap writes the groves one after the other, each once. -/
section
namespace Sys2Proof.Machine

theorem State.rail_updRail_same (s : State) (r : Nat) (f : Rail → Rail) : (s.updRail r f).rail r = f (s.rail r) := SMap.get_set_same _ _ _ _

theorem State.rail_updRail_other (s : State) {r q : Nat} (f : Rail → Rail) (h : q ≠ r) : (s.updRail r f).rail q = s.rail q :=
  SMap.get_set_other _ _ _ _ _ h

theorem State.grove_updGrove_other (s : State) {g q : Nat} (f : GroveSt → GroveSt) (h : q ≠ g) : (s.updGrove g f).grove q = s.grove q :=
  SMap.get_set_other _ _ _ _ _ h

/-- Groves changed one after the other, each once. -/
theorem State.grove_foldl_updGrove (f : GroveSt → GroveSt) {l : List Nat} (hl : l.Nodup) (s : State) (g : Nat) :
    (l.foldl (fun z x => z.updGrove x f) s).grove g = if g ∈ l then f (s.grove g) else s.grove g := by
  induction l generalizing s with
  | nil => rfl
  | cons x l ih =>
    obtain ⟨hx, hl⟩ := List.nodup_cons.1 hl
    rw [List.foldl_cons, ih hl]
    by_cases h : g = x
    · subst h
      rw [if_neg hx, if_pos List.mem_cons_self, State.grove_updGrove_same]
    · rw [State.grove_updGrove_other s f h]
      simp [h]

theorem Rail.step_rise {x : Rail} {now : Nat} (hdue : x.due.isSome = true) (h : x.clk < x.goal) :
    x.step now = { x with clk := x.goal, due := if x.volt = x.goal then none else x.due } := by
  obtain ⟨d, hd⟩ := Option.isSome_iff_exists.1 hdue
  simp [Rail.step, hd, h]

theorem Rail.step_fall {x : Rail} {now d : Nat} (hdue : x.due = some d) (h : ¬ x.clk < x.goal) :
    x.step now = if d ≤ now then { x with volt := x.goal, due := none } else x := by
  simp [Rail.step, hdue, h]

theorem rateFor_lt (c : Nat) : rateFor c < 2 ^ 11 := by
  rw [rateFor]
  omega

theorem rateFor_eq (c : Nat) : (rateFor c : Int) = max 1 (min 1536 (1536 * ((c : Int) - 1240) / 560)) := by
  rw [rateFor]
  omega

theorem clamp_eq (w : Nat) : max 600 (min 1800 w) = if w < 600 then 600 else if 1800 < w then 1800 else w := by
  split <;> [skip; split] <;> omega

/-- RATE written in a grove's configuration: the field holds it, and the other bits are as before. -/
theorem setBits_rate (v : DWord) (c : Nat) : ((setBits v 16 11 (rateFor c)).extractLsb' 16 11).toNat = rateFor c
    ∧ ∀ i < 64, (i < 16 ∨ 27 ≤ i) → (setBits v 16 11 (rateFor c)).getLsbD i = v.getLsbD i := by
  refine ⟨?_, fun i hi h => ?_⟩
  · rw [BitVec.extractLsb'_toNat, Nat.shiftRight_eq_div_pow]
    exact bits_setBits v (by decide) (rateFor_lt c)
  · rw [setBits_testBit v 16 11 _ i hi, if_neg (by omega)]

theorem exec_powerCapWrite {s : State} {watts : Nat} (h : s.dev.state ≠ 5) :
    exec (.powerCapWrite watts) s = .next ((List.range 32).foldl
      (fun s g => s.updGrove g (fun x => { x with cfgNext := some (setBits x.cfg 16 11 (rateFor (max 600 (min 1800 watts)))) }))
      { s with dev := { s.dev with
          cap := BitVec.ofNat 16 (max 600 (min 1800 watts)), unmet := decide (max 600 (min 1800 watts) < 1240) } }) := by
  have hr : s.recovering = false := beq_eq_false_iff_ne.2 h
  change execPowerCapWrite watts s = _
  simp [execPowerCapWrite, hr]

/-- Settles O47: rule by rule, from the equation of each step. -/
theorem powerFollows : Obligations.PowerFollows := by
  refine ⟨fun reg => ⟨?_, fun d => ?_, fun d => ?_⟩, fun watts s h => ?_, fun watts s h => ?_, fun temp => ⟨fun s h => ?_, fun s h => ?_⟩,
    fun port mode width rate => ⟨fun s h => ?_, fun s _ => ?_, fun s h => ?_⟩, fun s _ => ?_, fun s hag hpow => ?_⟩
  · rintro s ⟨hdue, hlt⟩
    exact ⟨_, rfl, (State.rail_updRail_same _ _ _).trans (Rail.step_rise hdue hlt), fun r hr => State.rail_updRail_other _ _ hr, rfl⟩
  · rintro s ⟨hdue, hlt, hd⟩
    exact ⟨_, rfl, (State.rail_updRail_same _ _ _).trans ((Rail.step_fall hdue hlt).trans (if_pos hd)),
      fun r hr => State.rail_updRail_other _ _ hr, rfl⟩
  · rintro s ⟨hdue, hlt, hd⟩
    exact ⟨_, rfl, (State.rail_updRail_same _ _ _).trans ((Rail.step_fall hdue hlt).trans (if_neg (Nat.not_le.2 hd))),
      fun r hr => State.rail_updRail_other _ _ hr, rfl⟩
  · have hr : s.recovering = true := beq_iff_eq.2 h
    exact ⟨s, if_pos hr, rfl⟩
  · refine ⟨_, exec_powerCapWrite h, ?_⟩
    rw [← clamp_eq watts]
    refine ⟨?_, fun g hg => ⟨setBits (s.grove g).cfg 16 11 (rateFor (max 600 (min 1800 watts))), ?_, ?_, ?_⟩⟩
    · rw [State.foldl_updGrove_frame (fun _ _ x => { x with cfgNext := some (setBits x.cfg 16 11 (rateFor (max 600 (min 1800 watts)))) })]
    · rw [State.grove_foldl_updGrove _ List.nodup_range, if_pos (List.mem_range.2 hg)]
      rfl
    · rw [(setBits_rate _ _).1, rateFor_eq]
    · exact (setBits_rate _ _).2
  · refine ⟨_, if_neg (Nat.not_lt.2 h), rfl, ?_, rfl⟩
    rw [BitVec.toNat_ofNat]
    omega
  · exact ⟨s, if_pos h, rfl⟩
  · obtain ⟨hmode, hw, hr⟩ := h
    refine ⟨_, (if_neg hmode).trans (if_pos ?_), SMap.find?_put_same _ _ _, fun q hq => SMap.find?_put_other _ _ _ _ hq, rfl⟩
    rw [Bool.and_eq_true, List.contains_iff_mem, List.contains_iff_mem]
    exact ⟨hw, hr⟩
  · exact ⟨{ s with ports := s.ports.put port.val ⟨.down, 0, 0⟩ }, rfl, SMap.find?_put_same _ _ _, fun q hq => SMap.find?_put_other _ _ _ _ hq, rfl⟩
  · obtain ⟨hmode, hno⟩ := h
    refine ⟨s, (if_neg hmode).trans (if_neg ?_), rfl⟩
    rw [Bool.and_eq_true, List.contains_iff_mem, List.contains_iff_mem]
    exact hno
  · exact ⟨_, rfl, rfl, rfl, rfl, rfl, rfl, rfl, rfl, rfl, rfl, rfl, rfl, rfl, rfl, rfl, rfl, rfl⟩
  · simp [step, hag, hpow]

end Sys2Proof.Machine
end

/-! # The commands of the control window

LBCMD changes the launch table of its partition alone. SLCMD does its operation where the partition reaches the slot, and its end writes
the partition's registers of the command. -/
section
namespace Sys2Proof.Machine

/-! ### The launch table -/

/-- The answer of a launch-table command: its word and its result. -/
def Partition.answer (q : Partition) (cmd res : DWord) : Partition := { q with lbcmd := cmd, lbres := res }

theorem Partition.answer_lbres (q : Partition) (cmd res : DWord) : (q.answer cmd res).lbres = res := rfl
theorem Partition.answer_ltab (q : Partition) (cmd res : DWord) : (q.answer cmd res).ltab = q.ltab := rfl
theorem Partition.answer_lentry (q : Partition) (cmd res : DWord) (i : Nat) : (q.answer cmd res).lentry i = q.lentry i := rfl
theorem Partition.answer_named (q : Partition) (cmd res : DWord) (h : BitVec 32) : (q.answer cmd res).named h = q.named h := rfl

theorem Partition.lentry_updLentry_other (p : Partition) {i j : Nat} (f : LEntry → LEntry) (h : j ≠ i) :
    (p.updLentry i f).lentry j = p.lentry j := SMap.get_set_other _ _ _ _ _ h

theorem State.bindRecord_refused {s : State} {p i : Nat} {r : List Byte} {c : BitVec 16} {code : Nat}
    (h : bindCode (s.part p).groveList.length r = code) (h0 : code ≠ 0) : s.bindRecord p r c i = some (s, code, 0) := by
  simp [State.bindRecord, h, h0]

theorem State.bindRecord_full {s : State} {p i : Nat} {r : List Byte} {c : BitVec 16}
    (h : bindCode (s.part p).groveList.length r = 0) (hfull : ∀ j < 4096, ((s.part p).lentry j).b = true) :
    s.bindRecord p r c i = some (s, 7, 0) := by
  have hall : ((List.range 4096).all fun j => ((s.part p).lentry j).b) = true := List.all_eq_true.2 fun j hj => hfull j (List.mem_range.1 hj)
  rw [State.bindRecord, h, if_neg (not_not.2 rfl), if_pos hall]

theorem State.bindRecord_free {s : State} {p i : Nat} {r : List Byte} {c : BitVec 16}
    (h : bindCode (s.part p).groveList.length r = 0) (hi : i < 4096) (hfree : ((s.part p).lentry i).b = false) :
    s.bindRecord p r c i = some (s.updPart p (fun p => p.updLentry i (fun e => { e with bytes := r, b := true, ctx := c, live := 0 })), 0,
      handleOf i ((s.part p).lentry i)) := by
  have hall : ((List.range 4096).all fun j => ((s.part p).lentry j).b) ≠ true := fun h =>
    Bool.false_ne_true (hfree.symm.trans (List.all_eq_true.1 h i (List.mem_range.2 hi)))
  have hno : (decide (4096 ≤ i) || ((s.part p).lentry i).b) ≠ true := by simp [hfree, Nat.not_le.2 hi]
  rw [State.bindRecord, h, if_neg (not_not.2 rfl), if_neg hall, if_neg hno]

theorem handleOf_toNat {i : Nat} (hi : i < 4096) (e : LEntry) : (handleOf i e).toNat = e.gen.toNat * 2 ^ 12 + i := by
  have := e.gen.isLt
  rw [handleOf, BitVec.toNat_ofNat, Nat.mod_eq_of_lt]
  omega

theorem exec_lbcmdBind {s s1 : State} {p e code : Nat} {c : BitVec 16} {h : BitVec 32}
    (hb : s.bindRecord p (s.physBytes p ((s.part p).lbaddr.toNat % 2 ^ 52) 128) c e = some (s1, code, h)) :
    exec (.lbcmdBind p c e) s = .next (s1.updPart p fun q =>
      q.answer (BitVec.ofNat 64 (c.toNat * 2 ^ 32)) (BitVec.ofNat 64 (code * 2 ^ 32 + h.toNat))) := by
  have hbits : bits (s.part p).lbaddr 0 52 = (s.part p).lbaddr.toNat % 2 ^ 52 := by rw [bits, Nat.pow_zero, Nat.div_one]
  change execLbcmdBind p c e s = _
  rw [execLbcmdBind, hbits, hb]
  rfl

theorem exec_lbcmdUnbind {s s1 : State} {p code : Nat} (hu : s.unbindHandle p ((s.part p).lbaddr.setWidth 32) = (s1, code)) :
    exec (.lbcmdUnbind p) s = .next (s1.updPart p fun q => q.answer (BitVec.ofNat 64 (2 ^ 63)) (BitVec.ofNat 64 (code * 2 ^ 32))) := by
  change execLbcmdUnbind p s = _
  rw [execLbcmdUnbind, hu]
  rfl

theorem State.unbindHandle_unnamed {s : State} {p : Nat} {h : BitVec 32} (hn : (s.part p).named h = none) : s.unbindHandle p h = (s, 9) := by
  simp [State.unbindHandle, hn]

theorem State.unbindHandle_inUse {s : State} {p : Nat} {h : BitVec 32} (hn : ((s.part p).named h).isSome = true)
    (hu : s.handleInUse p h = true) : s.unbindHandle p h = (s, 8) := by
  rw [State.unbindHandle, if_neg (by simp [Option.isNone_eq_false_iff.2 hn]), if_pos hu]

theorem State.unbindHandle_free {s : State} {p : Nat} {h : BitVec 32} (hn : ((s.part p).named h).isSome = true)
    (hu : s.handleInUse p h = false) : s.unbindHandle p h = (s.updPart p (fun q => q.updLentry (h.toNat % 4096) (fun e =>
      { e with b := false, gen := e.gen + 1, live := 0 })), 0) := by
  rw [State.unbindHandle, if_neg (by simp [Option.isNone_eq_false_iff.2 hn]), if_neg (by simp [hu])]

theorem State.handleInUse_of_mem {s : State} {p : Nat} {h : BitVec 32} {e : Nat × Slot} (he : e ∈ s.slots) (hlo : 2 ≤ e.2.st)
    (hhi : e.2.st ≤ 5) (hp : e.2.part.toNat = p) (hh : h ∈ patHandles e.2.pat) : s.handleInUse p h = true := by
  refine List.any_eq_true.2 ⟨e, he, ?_⟩
  simp [Slot.live, hlo, hhi, hp, hh]

theorem Partition.named_of_unbound {p : Partition} {h : BitVec 32} (hb : (p.lentry (h.toNat % 4096)).b = false) : p.named h = none := by
  rw [Partition.named]
  exact if_neg fun hn => Bool.false_ne_true (hb.symm.trans hn.2.1)

theorem lbres_refused (code : Nat) : BitVec.ofNat 64 (code * 2 ^ 32 + (0#32).toNat) = BitVec.ofNat 64 (code * 2 ^ 32 + 0) := by
  rw [show (0#32).toNat = 0 from rfl]

theorem launchTableCommands : Rules.LaunchTableCommands := by
  refine ⟨fun p e c => ⟨?_, fun s h => ?_, ?_⟩, fun p => ⟨?_, ?_, fun s h => ?_⟩⟩
  · rintro s ⟨hcode, he, hfree⟩
    refine ⟨_, exec_lbcmdBind (State.bindRecord_free hcode he hfree), ?_⟩
    dsimp only
    rw [State.part_updPart_same, State.part_updPart_same, Partition.answer_lbres, Partition.answer_lentry, handleOf_toNat he]
    refine ⟨rfl, Partition.lentry_updLentry_same _ _ _, fun i hi => ?_⟩
    rw [Partition.answer_lentry, Partition.lentry_updLentry_other _ _ hi]
  · refine ⟨_, exec_lbcmdBind (State.bindRecord_refused (code := 1) ?_ Nat.one_ne_zero), ?_⟩
    · rw [bindCode, if_pos (.inl h)]
    · dsimp only
      rw [State.part_updPart_same, Partition.answer_lbres, Partition.answer_ltab]
      exact ⟨lbres_refused 1, rfl⟩
  · rintro s ⟨hcode, hfull⟩
    refine ⟨_, exec_lbcmdBind (State.bindRecord_full hcode hfull), ?_⟩
    dsimp only
    rw [State.part_updPart_same, Partition.answer_lbres, Partition.answer_ltab]
    exact ⟨lbres_refused 7, rfl⟩
  · rintro s ⟨hn, hu⟩
    refine ⟨_, exec_lbcmdUnbind (State.unbindHandle_free hn hu), ?_⟩
    dsimp only
    rw [State.part_updPart_same, State.part_updPart_same, Partition.answer_lbres, Partition.answer_lentry, Partition.answer_named]
    have hentry := Partition.lentry_updLentry_same (s.part p) (((s.part p).lbaddr.setWidth 32).toNat % 4096)
      fun e => { e with b := false, gen := e.gen + 1, live := 0 }
    exact ⟨congrArg (BitVec.ofNat 64) (Nat.add_zero _).symm, hentry, Partition.named_of_unbound (congrArg LEntry.b hentry)⟩
  · rintro s ⟨hn, e, he, hlo, hhi, hp, hh⟩
    refine ⟨_, exec_lbcmdUnbind (State.unbindHandle_inUse hn (State.handleInUse_of_mem he hlo hhi hp hh)), ?_⟩
    dsimp only
    rw [State.part_updPart_same, Partition.answer_lbres, Partition.answer_ltab]
    exact ⟨congrArg (BitVec.ofNat 64) (Nat.add_zero _).symm, rfl⟩
  · refine ⟨_, exec_lbcmdUnbind (State.unbindHandle_unnamed h), ?_⟩
    dsimp only
    rw [State.part_updPart_same, Partition.answer_lbres, Partition.answer_ltab]
    exact ⟨congrArg (BitVec.ofNat 64) (Nat.add_zero _).symm, rfl⟩

/-! ### Slot commands -/

/-- The command's word in SLCMD. -/
def Partition.command (q : Partition) (w : DWord) : Partition := { q with slcmd := w }

/-- The end of a command, with its code. -/
def Partition.ended (q : Partition) (c : BitVec 8) : Partition := { q with slBusy := false, slst := c, slHeld := none }

theorem Partition.ended_busy (q : Partition) (c : BitVec 8) : (q.ended c).slBusy = false ∧ (q.ended c).slst = c := ⟨rfl, rfl⟩

theorem State.slEnd_slots (s : State) (p : Nat) (r : UnitDone) : (s.slEnd p r).slots = s.slots := rfl

theorem State.part_slEnd_ok (s : State) (p : Nat) :
    (s.slEnd p .ok).part p = (s.part p).ended 0 := State.part_updPart_same _ _ _

theorem State.part_slEnd_code (s : State) (p : Nat) (c : BitVec 8) :
    (s.slEnd p (.code c)).part p = (s.part p).ended c := State.part_updPart_same _ _ _

/-- A slot that is its partition's, or no partition's. -/
theorem Slot.reached_of {x : Slot} {p : Nat} (h : x.own = true → x.part.toNat = p) : x.reached p = true := by
  rw [Slot.reached]
  cases hx : x.own with
  | false => rfl
  | true => simp [h hx]

section
variable {s : State} {p op a : Nat}

/-- A command acts where BUSY is clear: on a slot that the partition reaches, or with code 0x12. -/
theorem State.slcmd_eq (f : State → State × UnitDone) (ha : a < 4096) (hb : (s.part p).slBusy = false) :
    s.slcmd p op a f =
      let s1 := s.updPart p fun q => q.command (slWord op a)
      let r := if (s.slot a).reached p then f s1 else (s1, .code 0x12)
      r.1.slEnd p r.2 := by
  have hg : ¬ (decide (slotCount ≤ a) || (s.part p).slBusy) = true := by
    rw [hb, Bool.or_false, decide_eq_true_eq]
    exact Nat.not_le.2 ha
  rw [State.slcmd, if_neg hg]
  rfl

theorem State.slcmd_acts (f : State → State × UnitDone) (ha : a < 4096) (hb : (s.part p).slBusy = false)
    (hown : (s.slot a).own = true → (s.slot a).part.toNat = p) {r : State × UnitDone}
    (hf : f (s.updPart p fun q => q.command (slWord op a)) = r) : s.slcmd p op a f = r.1.slEnd p r.2 := by
  rw [State.slcmd_eq f ha hb]
  dsimp only
  rw [if_pos (Slot.reached_of hown), hf]

theorem State.slcmd_other (f : State → State × UnitDone) (ha : a < 4096) (hb : (s.part p).slBusy = false)
    (hown : (s.slot a).own = true) (hp : (s.slot a).part.toNat ≠ p) :
    s.slcmd p op a f = (s.updPart p fun q => q.command (slWord op a)).slEnd p (.code 0x12) := by
  rw [State.slcmd_eq f ha hb]
  dsimp only
  rw [if_neg (by simp [Slot.reached, hown, hp])]

theorem State.slcmd_busy (f : State → State × UnitDone) (hb : (s.part p).slBusy = true) : s.slcmd p op a f = s := by
  rw [State.slcmd]
  dsimp only
  rw [hb, Bool.or_true, if_pos rfl]

theorem exec_slcmdMload (h : ¬ ((s.part p).slBusy = true ∧ (s.part p).slcmd = slWord 0 a)) :
    exec (.slcmdMload p a) s = .next (s.slcmd p 0 a fun s' => s'.mloadFor p a (s.part p).slarg.toNat) := by
  change execSlcmdMload p a s = _
  rw [execSlcmdMload, if_neg]
  simp only [Bool.and_eq_true, beq_iff_eq]
  exact fun hh => h ⟨hh.1.1, hh.2⟩

/-- An MLOAD through SLCMD whose answer is a code ends with it. -/
theorem exec_slcmdMload_code {c : BitVec 8} (ha : a < 4096) (hb : (s.part p).slBusy = false)
    (hown : (s.slot a).own = true → (s.slot a).part.toNat = p)
    (hf : ∀ s' : State, s'.slot a = s.slot a → s'.mloadFor p a (s.part p).slarg.toNat = (s', .code c)) :
    ∃ s', exec (.slcmdMload p a) s = .next s' ∧ ((s'.part p).slBusy = false ∧ (s'.part p).slst = c) ∧ s'.slots = s.slots := by
  refine ⟨_, (exec_slcmdMload (by simp [hb])).trans (congrArg _ (State.slcmd_acts _ ha hb hown (hf _ rfl))), ?_, rfl⟩
  rw [State.part_slEnd_code]
  exact ⟨rfl, rfl⟩

end

theorem State.mloadFor_misaligned (s : State) {p a va : Nat} (h : va % 128 ≠ 0) : s.mloadFor p a va = (s, .code 0x10) := by
  rw [State.mloadFor, if_pos h]

theorem State.mloadFor_beyond (s : State) {p a va : Nat} (h : va % 128 = 0) (hva : 2 ^ 55 ≤ va) : s.mloadFor p a va = (s, .code 0x12) := by
  rw [State.mloadFor, if_neg (not_not.2 h), if_pos hva]

theorem State.mloadFor_armed (s : State) {p a va : Nat} (h : va % 128 = 0) (hva : va < 2 ^ 55) (hst : 1 < (s.slot a).st) :
    s.mloadFor p a va = (s, .code 0x31) := by
  rw [State.mloadFor, if_neg (not_not.2 h), if_neg (Nat.not_le.2 hva), State.mload, if_pos hst]

/-- A slot that has been loaded. -/
def Slot.loaded (x : Slot) (pat : List Byte) : Slot := { x with pat := pat, st := 1, code := 0 }

theorem State.mloadFor_reads {s s1 : State} {p a va : Nat} {pat : List Byte} (h : va % 128 = 0) (hva : va < 2 ^ 55)
    (hst : (s.slot a).st ≤ 1) (hread : s.readPattern p a va 19 [] = (s1, .inl pat)) (hok : patternOk (s1.part p) pat = true) :
    s.mloadFor p a va = (s1.updSlot a (fun x => x.loaded pat), .ok) := by
  rw [State.mloadFor, if_neg (not_not.2 h), if_neg (Nat.not_le.2 hva), State.mload, if_neg (Nat.not_lt.2 hst), hread]
  simp only [hok, if_true]
  rfl

theorem distinct_all {α : Type} [DecidableEq α] {l : List α} {u : α} (hne : l ≠ []) (h : ∀ x ∈ l, x = u) : distinct l = [u] := by
  induction l with
  | nil => exact absurd rfl hne
  | cons x l ih =>
    obtain rfl := h x List.mem_cons_self
    rw [distinct]
    cases l with
    | nil => rfl
    | cons y l =>
      rw [if_pos (by rw [← h y (List.mem_cons_of_mem _ List.mem_cons_self)]; exact List.mem_cons_self)]
      exact ih (List.cons_ne_nil _ _) fun z hz => h z (List.mem_cons_of_mem _ hz)

theorem State.armable_of {s : State} {x : Slot} {u : BitVec 2} (hne : patSids x.pat ≠ []) (h : ∀ j ∈ patSids x.pat,
    (s.queue j).v = true ∧ (s.queue j).part = x.part ∧ (s.queue j).cmode = false ∧ (s.queue j).mtch = u) : s.armable x = true := by
  have hall : (((patSids x.pat).map s.queue).all fun q => q.v && q.part == x.part && !q.cmode) = true := by
    refine List.all_eq_true.2 fun q hq => ?_
    obtain ⟨j, hj, rfl⟩ := List.mem_map.1 hq
    obtain ⟨hv, hp, hc, -⟩ := h j hj
    simp [hv, hp, hc]
  have hone : distinct (((patSids x.pat).map s.queue).map (·.mtch)) = [u] := by
    refine distinct_all (by simpa using hne) fun m hm => ?_
    obtain ⟨q, hq, rfl⟩ := List.mem_map.1 hm
    obtain ⟨j, hj, rfl⟩ := List.mem_map.1 hq
    exact (h j hj).2.2.2
  rw [State.armable, hall, hone]
  rfl

theorem headD_map_all {α β : Type} {l : List α} {f : α → β} {u d : β} (hne : l ≠ []) (h : ∀ x ∈ l, f x = u) : (l.map f).headD d = u := by
  cases l with
  | nil => exact absurd rfl hne
  | cons x l => exact h x List.mem_cons_self

/-! ### Streams with nothing in the ring -/

/-- Nothing but queues has changed, and no ring count. -/
def RingFrame (s s' : State) : Prop := s' = { s with queues := s'.queues } ∧ ∀ j, (s'.queue j).rcnt = (s.queue j).rcnt

theorem RingFrame.refl (s : State) : RingFrame s s := ⟨rfl, fun _ => rfl⟩

theorem RingFrame.trans {s s1 s2 : State} (h : RingFrame s s1) (h' : RingFrame s1 s2) : RingFrame s s2 := by
  refine ⟨?_, fun j => (h'.2 j).trans (h.2 j)⟩
  rw [h'.1, h.1]

theorem RingFrame.updQueue (s : State) (j : Nat) {f : Queue → Queue} (hf : ∀ q, (f q).rcnt = q.rcnt) : RingFrame s (s.updQueue j f) := by
  refine ⟨rfl, fun i => ?_⟩
  by_cases hi : i = j
  · subst hi
    exact (congrArg Queue.rcnt (SMap.get_set_same _ _ _ _)).trans (hf _)
  · exact congrArg Queue.rcnt (SMap.get_set_other _ _ _ _ _ hi)

theorem State.leaveQ_ringFrame (s : State) (j : Nat) : RingFrame s (s.leaveQ j) := by
  rw [State.leaveQ]
  split
  · exact .refl s
  · exact .updQueue s j fun _ => rfl

/-- A queue with nothing in its ring refills nothing. -/
theorem State.refillAll_ringFrame {s : State} {j : Nat} (h : (s.queue j).rcnt = 0) : RingFrame s (s.refillAll j) := by
  have settle (t : State) (ht : (t.queue j).rcnt = 0) : RingFrame t (t.settleQ j ((t.queue j).rcnt.toNat + 1)) := by
    have hl := ((t.leaveQ_ringFrame j).2 j).trans ht
    rw [State.settleQ]
    simp only [hl]
    rw [show (0 : BitVec 25).toNat = 0 from rfl, State.refillQ, if_pos hl]
    exact t.leaveQ_ringFrame j
  rw [State.refillAll]
  split
  · have hf : RingFrame s (s.updQueue j fun q => { q with stuck := false }) := .updQueue s j fun _ => rfl
    exact hf.trans (settle _ ((hf.2 j).trans h))
  · exact settle s h

theorem State.settleStreams_ringFrame {s : State} {l : List Nat} (h : ∀ j ∈ l, (s.queue j).rcnt = 0) :
    RingFrame s (s.settleStreams l) := by
  induction l generalizing s with
  | nil => exact .refl s
  | cons j l ih =>
    have hf := State.refillAll_ringFrame (h j List.mem_cons_self)
    exact hf.trans (ih fun i hi => (hf.2 i).trans (h i (List.mem_cons_of_mem _ hi)))

/-- An emit of the slot's automaton that waited at its queue waits no longer. -/
def State.unstalled (s : State) (a : Nat) : State := match (s.slot a).held with
  | none => s
  | some it => match it.doing with
    | some (.emit _ j _) => s.updQueue j (fun q => { q with stalled := q.stalled.filter (fun e => e != Sum.inr a) })
    | _ => s

theorem State.unstalled_ringFrame (s : State) (a : Nat) : RingFrame s (s.unstalled a) := by
  rw [State.unstalled]
  split
  · exact .refl s
  · split
    · exact .updQueue s _ fun _ => rfl
    · exact .refl s

/-- The images of a partition without a slot's automaton. -/
def Partition.withoutAuto (p : Partition) (a : Nat) : Partition :=
  { p with images := p.images.map (fun i => { i with autos := i.autos.filter (fun e => e.1 != a) }) }

/-- A slot whose automaton has stopped. -/
def Slot.stopped (x : Slot) : Slot := { x with st := 1, cands := [], cursors := [], held := none, saved := false }

theorem State.mdis_eq {s : State} {a : Nat} (hst : (s.slot a).st ≠ 0) : s.mdis a =
    (((s.unstalled a).updPart (s.slot a).part.toNat fun p => p.withoutAuto a).updSlot a Slot.stopped).settleStreams (patSids (s.slot a).pat) := by
  rw [State.mdis, if_neg hst]
  rfl

/-- MDIS of a slot whose streams have nothing in the ring stops its automaton. -/
theorem State.mdis_of_empty {s : State} {a : Nat} (hst : (s.slot a).st ≠ 0) (h : ∀ j ∈ patSids (s.slot a).pat, (s.queue j).rcnt = 0) :
    (s.mdis a).slot a = (s.slot a).stopped := by
  have hu := s.unstalled_ringFrame a
  have hframe := State.settleStreams_ringFrame
    (s := ((s.unstalled a).updPart (s.slot a).part.toNat fun p => p.withoutAuto a).updSlot a Slot.stopped)
    (l := patSids (s.slot a).pat) fun j hj => (hu.2 j).trans (h j hj)
  rw [State.mdis_eq hst, State.slot, hframe.1]
  refine (State.slot_updSlot_same _ _ _).trans ?_
  change ((s.unstalled a).slot a).stopped = _
  rw [hu.1]
  rfl

/-- MARM of a loaded slot whose streams serve arms it at their ends. -/
theorem State.marm_of_streams {s : State} {a : Nat} {u : BitVec 2} (hst : (s.slot a).st = 1) (hne : patSids (s.slot a).pat ≠ [])
    (hq : ∀ j ∈ patSids (s.slot a).pat,
      (s.queue j).v = true ∧ (s.queue j).part = (s.slot a).part ∧ (s.queue j).cmode = false ∧ (s.queue j).mtch = u) :
    ∃ s1, s.marm a = (s1, .ok) ∧ (s1.slot a).st = 2 ∧ (s1.slot a).unit = u ∧ (s1.slot a).cands = []
      ∧ (s1.slot a).cursors = (patSids (s.slot a).pat).map (fun j => (s.queue j).seq) := by
  have hlive : ¬ (s.slot a).live = true := by simp [Slot.live, hst]
  rw [State.marm, if_neg hlive, if_neg (by simp [hst, State.armable_of hne hq])]
  refine ⟨_, rfl, ?_⟩
  rw [State.slot_updSlot_same]
  refine ⟨rfl, ?_, rfl, List.map_map⟩
  rw [List.map_map]
  exact headD_map_all hne fun j hj => (hq j hj).2.2.2

theorem slotCommandsAct : Rules.SlotCommandsAct := by
  have ended (s1 : State) (p : Nat) : ((s1.slEnd p .ok).part p).slBusy = false ∧ ((s1.slEnd p .ok).part p).slst = 0 := by
    rw [State.part_slEnd_ok]
    exact Partition.ended_busy _ _
  refine ⟨fun p a s1 pat => ?_, fun p a => ⟨?_, ?_, ?_⟩, fun p a u => ?_, fun p a => ?_, fun p a => ?_, fun p a i hi => ⟨?_, ?_⟩⟩
  · rintro s ⟨⟨ha, hb, hown⟩, hal, hva, hst, hread, hok⟩
    exact ⟨_, (exec_slcmdMload (by simp [hb])).trans (congrArg Host.Outcome.next (State.slcmd_acts _ ha hb hown
      (State.mloadFor_reads hal hva hst hread hok))), ended _ p, State.slot_updSlot_same s1 a fun x => x.loaded pat⟩
  · rintro s ⟨⟨ha, hb, hown⟩, hmis⟩
    exact exec_slcmdMload_code ha hb hown fun s' _ => s'.mloadFor_misaligned hmis
  · rintro s ⟨⟨ha, hb, hown⟩, hal, hva⟩
    exact exec_slcmdMload_code ha hb hown fun s' _ => s'.mloadFor_beyond hal hva
  · rintro s ⟨⟨ha, hb, hown⟩, hal, hva, hst⟩
    exact exec_slcmdMload_code ha hb hown fun s' hs => s'.mloadFor_armed hal hva (by rwa [hs])
  · rintro s ⟨⟨ha, hb, hown⟩, hst, hne, hq⟩
    obtain ⟨s1, hmarm, hs1⟩ := State.marm_of_streams (s := s.updPart p fun q => q.command (slWord 1 a)) hst hne hq
    exact ⟨_, congrArg Host.Outcome.next (State.slcmd_acts _ ha hb hown hmarm), ended s1 p, hs1⟩
  · rintro s ⟨⟨ha, hb, hown⟩, hst, hq⟩
    exact ⟨_, congrArg Host.Outcome.next (State.slcmd_acts _ ha hb hown rfl), ended _ p,
      State.mdis_of_empty (s := s.updPart p fun q => q.command (slWord 2 a)) hst hq⟩
  · rintro s ⟨ha, hb, hown⟩
    refine ⟨_, congrArg Host.Outcome.next (State.slcmd_acts _ ha hb hown rfl), ended _ p, rfl, ?_⟩
    dsimp only
    rw [State.part_slEnd_ok, State.part_updPart_same, State.part_updPart_same]
    rfl
  · rintro s ⟨ha, hb, hown, hp⟩
    have ends (op : Nat) (f : State → State × UnitDone) : ∃ s', Host.Outcome.next (s.slcmd p op a f) = (.next s' : Host.Outcome State Fault Refusal)
        ∧ ((s'.part p).slBusy = false ∧ (s'.part p).slst = 0x12) ∧ s'.slots = s.slots := by
      refine ⟨_, congrArg Host.Outcome.next (State.slcmd_other f ha hb hown hp), ?_, rfl⟩
      rw [State.part_slEnd_code]
      exact Partition.ended_busy _ _
    simp only [List.mem_cons, List.not_mem_nil, or_false] at hi
    rcases hi with rfl | rfl | rfl | rfl
    · rw [exec_slcmdMload (by simp [hb])]
      exact ends 0 _
    · exact ends 1 _
    · exact ends 2 _
    · exact ends 3 _
  · rintro s ⟨hb, hword⟩
    have stays (op : Nat) (f : State → State × UnitDone) : ∃ s', Host.Outcome.next (s.slcmd p op a f) = (.next s' : Host.Outcome State Fault Refusal)
        ∧ s' = s := ⟨_, rfl, State.slcmd_busy f hb⟩
    simp only [List.mem_cons, List.not_mem_nil, or_false] at hi
    rcases hi with rfl | rfl | rfl | rfl
    · rw [exec_slcmdMload fun h => hword h.2]
      exact stays 0 _
    · exact stays 1 _
    · exact stays 2 _
    · exact stays 3 _

/-- Settles O43: the launch table's commands, then the slots'. -/
theorem launchTableAndSlotCommands : Obligations.LaunchTableAndSlotCommands := ⟨launchTableCommands, slotCommandsAct⟩

end Sys2Proof.Machine
end

/-! # The quantum table and VACATE

The scheduler's choice where it is due, over the entries in round-robin order; and the teams of the cores that VACATE names, each of which
moves within its grove or is to be saved. -/
section
namespace Sys2Proof.Machine

/-! ### The scheduler -/

theorem State.schedule_quanta (s : State) (p q : Nat) : ((s.schedule p).part q).quanta = (s.part q).quanta := by
  have upd (f : Partition → Partition) (hf : ∀ x, (f x).quanta = x.quanta) : ((s.updPart p f).part q).quanta = (s.part q).quanta := by
    by_cases h : q = p
    · subst h
      rw [State.part_updPart_same, hf]
    · rw [State.part_updPart_other _ _ h]
  have hleave (c : BitVec 16) := upd (·.leaveCtx c) fun _ => rfl
  rw [State.schedule]
  split
  · rfl
  · split
    · exact hleave _
    · split
      · rfl
      · split
        · split
          · exact upd _ fun _ => rfl
          · exact hleave _
        · exact hleave _

section
variable {s : State} {p k j : Nat} {c : BitVec 16}

theorem Partition.entryStands_iff {q : Partition} : q.entryStands c = true ↔ (q.quantum q.chosen).v = true ∧ (q.quantum q.chosen).ctx = c := by
  rw [Partition.entryStands, Bool.and_eq_true, beq_iff_eq]

theorem State.schedule_left (hr : (s.part p).resident = some c) (h : (s.part p).entryStands c = false) :
    s.schedule p = s.updPart p (·.leaveCtx c) := by
  simp [State.schedule, hr, h]

theorem State.schedule_stays (hr : (s.part p).resident = some c) (h : (s.part p).entryStands c = true) (hm : s.mustChoose p = false) :
    s.schedule p = s := by
  simp [State.schedule, hr, h, hm]

theorem State.schedule_chooses (hr : (s.part p).resident = some c) (h : (s.part p).entryStands c = true) (hm : s.mustChoose p = true)
    (hk : s.chooseEntry p = some k) : s.schedule p = if ((s.part p).quantum k).ctx = c
      then s.updPart p (fun q => { q with chosen := k, quantStart := s.time }) else s.updPart p (·.leaveCtx c) := by
  simp [State.schedule, hr, h, hm, hk]

theorem State.mustChoose_of_over (h : (s.part p).quantStart + max 1 ((s.part p).quantum (s.part p).chosen).quant.toNat * 1000 ≤ s.time) :
    s.mustChoose p = true := by
  simp [State.mustChoose, h]

/-- The valid entries in round-robin order, by which numbers they have. -/
theorem Partition.roundRobin_eq {q : Partition} {P : Nat → Bool} (h : ∀ i < 8, (q.quantum i).v = P i) :
    q.roundRobin = ((List.range 8).map (fun i => (q.chosen + 1 + i) % 8)).filter P := by
  refine List.filter_congr fun i hi => ?_
  obtain ⟨x, -, rfl⟩ := List.mem_map.1 hi
  exact h _ (Nat.mod_lt _ (by decide))

theorem Partition.roundRobin_one {q : Partition} (hk : q.chosen = k) (hk8 : k < 8) (h : ∀ i < 8, (q.quantum i).v = true ↔ i = k) :
    q.roundRobin = [k] := by
  have fixed : ∀ k < 8, ((List.range 8).map (fun i => (k + 1 + i) % 8)).filter (fun i => decide (i = k)) = [k] := by decide
  rw [Partition.roundRobin_eq (P := fun i => decide (i = k)) fun i hi => Bool.eq_iff_iff.2 ((h i hi).trans decide_eq_true_iff.symm), hk,
    fixed k hk8]

theorem Partition.roundRobin_two {q : Partition} (hk : q.chosen = k) (hk8 : k < 8) (hj8 : j < 8) (hne : j ≠ k)
    (h : ∀ i < 8, (q.quantum i).v = true ↔ i = k ∨ i = j) : q.roundRobin = [j, k] := by
  have fixed : ∀ k < 8, ∀ j < 8, j ≠ k →
      ((List.range 8).map (fun i => (k + 1 + i) % 8)).filter (fun i => decide (i = k ∨ i = j)) = [j, k] := by decide
  rw [Partition.roundRobin_eq (P := fun i => decide (i = k ∨ i = j)) fun i hi => Bool.eq_iff_iff.2 ((h i hi).trans decide_eq_true_iff.symm),
    hk, fixed k hk8 j hj8 hne]

/-- With one valid entry, the resident's, the scheduler chooses it, be it ready or not. -/
theorem State.chooseEntry_one (hr : (s.part p).resident = some ((s.part p).quantum k).ctx) (h : (s.part p).roundRobin = [k]) :
    s.chooseEntry p = some k := by
  rw [State.chooseEntry, h]
  cases hg : s.ctxHasGrid p ((s.part p).quantum k).ctx <;> simp [hg, hr, Partition.topPrio]

/-- Of two valid entries the one that comes first, when it is ready and of no lower PRIO. -/
theorem State.chooseEntry_two (h : (s.part p).roundRobin = [j, k]) (hg : s.ctxHasGrid p ((s.part p).quantum j).ctx = true)
    (hprio : ((s.part p).quantum k).prio ≤ ((s.part p).quantum j).prio) : s.chooseEntry p = some j := by
  rw [State.chooseEntry, h]
  cases hk : s.ctxHasGrid p ((s.part p).quantum k).ctx <;> simp [hk, hg, Partition.topPrio, BitVec.not_lt.2 hprio]

end

/-! ### Cores withheld and teams -/

theorem SMap.mem_of_find? {α : Type} {m : SMap α} {k : Nat} {x : α} (h : SMap.find? m k = some x) : (k, x) ∈ m := by
  induction m with
  | nil => cases h
  | cons e m ih =>
    rw [SMap.find?] at h
    split at h
    · next hk =>
      injection h with hx
      subst hk hx
      exact List.mem_cons_self
    · exact List.mem_cons_of_mem _ (ih h)

/-- The teams are as they were, and the same cores are withheld. -/
def HeldFrame (s s' : State) : Prop := s'.teams = s.teams ∧ ∀ c, (s'.core c).withheld = (s.core c).withheld

theorem HeldFrame.refl (s : State) : HeldFrame s s := ⟨rfl, fun _ => rfl⟩

theorem HeldFrame.trans {s s1 s2 : State} (h : HeldFrame s s1) (h' : HeldFrame s1 s2) : HeldFrame s s2 :=
  ⟨h'.1.trans h.1, fun c => (h'.2 c).trans (h.2 c)⟩

theorem HeldFrame.foldl {β : Type} {f : State → β → State} (hf : ∀ s x, HeldFrame s (f s x)) (l : List β) (s : State) :
    HeldFrame s (l.foldl f s) := by
  induction l generalizing s with
  | nil => exact .refl s
  | cons x l ih => exact (hf s x).trans (ih (f s x))

theorem HeldFrame.of_eq {s s' : State} (ht : s'.teams = s.teams) (hc : s'.cores = s.cores) : HeldFrame s s' :=
  ⟨ht, fun c => by rw [State.core_of_cores hc]⟩

theorem HeldFrame.updCore (s : State) (c : Nat) {f : CoreSt → CoreSt} (hf : ∀ x, (f x).withheld = x.withheld) :
    HeldFrame s (s.updCore c f) := by
  refine ⟨rfl, fun d => ?_⟩
  rw [State.core_updCore]
  split
  · next h =>
    subst h
    exact hf _
  · rfl

theorem CoreSt.foldl_updBough_withheld (f : CoreSt → Nat → CoreSt) (hf : ∀ k b, (f k b).withheld = k.withheld) (l : List Nat) (k : CoreSt) :
    (l.foldl f k).withheld = k.withheld := by
  induction l generalizing k with
  | nil => rfl
  | cons b l ih => rw [List.foldl_cons, ih, hf]

theorem State.leaveRegroup_heldFrame (s : State) (k : Nat) : HeldFrame s (s.leaveRegroup k) := .updCore _ _ fun _ => rfl

theorem State.unspawn_heldFrame (s : State) (l : List Nat) : HeldFrame s (s.unspawn l) := by
  rw [State.unspawn]
  exact HeldFrame.foldl (f := fun s k => s.updThread k fun t => { t with st := if t.st = .spawned then .ready else t.st })
    (fun _ _ => .of_eq rfl rfl) l s

theorem State.dissolve_heldFrame (s : State) (m : Team) : HeldFrame s (s.dissolve m) := by
  have leave (l : List Nat) (s : State) : HeldFrame s (l.foldl (fun s k => s.leaveRegroup k) s) :=
    .foldl (fun s k => s.leaveRegroup_heldFrame k) l s
  exact (HeldFrame.foldl (fun s (r : Regroup) => (s.unspawn_heldFrame r.slots).trans (leave r.slots _)) _ s).trans (leave m.slots _)

theorem State.bindBoughs_heldFrame (s : State) (c g f n : Nat) : HeldFrame s (s.bindBoughs c g f n) := by
  rw [State.bindBoughs]
  split
  · exact .refl s
  · refine .updCore _ _ fun x => CoreSt.foldl_updBough_withheld _ (fun k b => ?_) _ x
    split <;> rfl

theorem State.unbindBoughs_heldFrame (s : State) (c : Nat) : HeldFrame s (s.unbindBoughs c) := by
  rw [State.unbindBoughs]
  refine .updCore _ _ fun x => CoreSt.foldl_updBough_withheld _ (fun k b => ?_) _ x
  split
  · rfl
  · rfl

/-! ### Teams that leave their core -/

/-- The team is there, on its core. -/
def State.stands (s : State) (id c : Nat) : Prop := ∃ m, s.team? id = some m ∧ m.core = c

/-- The team is there, on its core, and is to be saved or to move to a core of its grove that is not withheld. -/
def State.goes (s : State) (id c : Nat) : Prop := ∃ m, s.team? id = some m ∧ m.core = c
  ∧ (m.leaving = true ∨ ∃ d f, m.moving = some (d, f) ∧ d / 24 = c / 24 ∧ (s.core d).withheld = false)

theorem State.stands_of_goes {s : State} {id c : Nat} (h : s.goes id c) : s.stands id c :=
  let ⟨m, hm, hc, _⟩ := h
  ⟨m, hm, hc⟩

theorem HeldFrame.team? {s s' : State} (h : HeldFrame s s') (id : Nat) : s'.team? id = s.team? id := by rw [State.team?, h.1, State.team?]

theorem HeldFrame.goes {s s' : State} (h : HeldFrame s s') {id c : Nat} (hg : s.goes id c) : s'.goes id c := by
  obtain ⟨m, hm, hc, hgo⟩ := hg
  refine ⟨m, (h.team? id).trans hm, hc, hgo.imp_right ?_⟩
  rintro ⟨d, f, hd, hg, hw⟩
  exact ⟨d, f, hd, hg, (h.2 d).trans hw⟩

theorem HeldFrame.stands {s s' : State} (h : HeldFrame s s') {id c : Nat} (hs : s.stands id c) : s'.stands id c :=
  let ⟨m, hm, hc⟩ := hs
  ⟨m, (h.team? id).trans hm, hc⟩

theorem State.team?_updTeam_same (s : State) (id : Nat) (f : Team → Team) : (s.updTeam id f).team? id = (s.team? id).map f :=
  SMap.find?_upd_same _ _ _

theorem State.team?_updTeam_other (s : State) {id i : Nat} (f : Team → Team) (h : i ≠ id) : (s.updTeam id f).team? i = s.team? i :=
  SMap.find?_upd_other _ _ _ _ h

/-- A change of a team that leaves its core leaves it there. -/
theorem State.stands_updTeam {s : State} {id c i : Nat} {f : Team → Team} (hf : ∀ m, (f m).core = m.core) (h : s.stands id c) :
    (s.updTeam i f).stands id c := by
  obtain ⟨m, hm, hc⟩ := h
  by_cases hi : id = i
  · subst hi
    exact ⟨f m, by rw [State.team?_updTeam_same, hm]; rfl, (hf m).trans hc⟩
  · exact ⟨m, (State.team?_updTeam_other s f hi).trans hm, hc⟩

theorem State.goes_updTeam_other {s : State} {id c i : Nat} {f : Team → Team} (hi : id ≠ i) (h : s.goes id c) : (s.updTeam i f).goes id c := by
  obtain ⟨m, hm, hc, hgo⟩ := h
  exact ⟨m, (State.team?_updTeam_other s f hi).trans hm, hc, hgo⟩

theorem State.unmove_stands {s : State} {id c i : Nat} (h : s.stands id c) : (s.unmove i).stands id c := by
  rw [State.unmove]
  split
  · exact h
  · exact (State.unbindBoughs_heldFrame _ _).stands (State.stands_updTeam (fun _ => rfl) h)

theorem State.unmove_goes_other {s : State} {id c i : Nat} (hi : id ≠ i) (h : s.goes id c) : (s.unmove i).goes id c := by
  rw [State.unmove]
  split
  · exact h
  · exact (State.unbindBoughs_heldFrame _ _).goes (State.goes_updTeam_other hi h)

/-- A refuge is a core of the team's grove that is not withheld. -/
theorem State.refuge_spec {s : State} {m : Team} {c f : Nat} (h : s.refuge m = some (c, f)) :
    c / 24 = m.core / 24 ∧ (s.core c).withheld = false := by
  have key (l : List (Nat × Nat)) (x : Nat × Nat) (hx : (if l.length ≤ 1 then l.head? else l[Config.freeNat s.fresh % l.length]?) = some x) :
      x ∈ l := by
    split at hx
    · exact List.mem_of_mem_head? hx
    · exact List.mem_of_getElem? hx
  have hmem := key _ _ h
  rw [List.mem_filterMap] at hmem
  obtain ⟨d, hd, hx⟩ := hmem
  rw [List.mem_map] at hd
  obtain ⟨i, hi, rfl⟩ := hd
  have hi24 : i < 24 := List.mem_range.1 hi
  split at hx
  · cases hx
  · next hno =>
    obtain ⟨y, -, hy⟩ := Option.map_eq_some_iff.1 hx
    injection hy with hc hf
    subst hc
    simp only [Bool.or_eq_true, not_or, Bool.not_eq_true] at hno
    refine ⟨?_, hno.1.2⟩
    rw [groveOf, show coresPerGrove = 24 from rfl]
    omega

theorem State.evict_stands {s : State} {id c i : Nat} (h : s.stands id c) : (s.evict i).stands id c := by
  have hu := State.unmove_stands (i := i) h
  rw [State.evict]
  split
  · exact hu
  · next m hm =>
    split
    · exact (State.bindBoughs_heldFrame _ _ _ _ _).stands (State.stands_updTeam (fun _ => rfl)
        ((State.dissolve_heldFrame _ _).stands ((HeldFrame.of_eq rfl rfl).stands hu)))
    · rw [State.beginSave, hm]
      exact State.stands_updTeam (fun _ => rfl) ((State.dissolve_heldFrame _ _).stands hu)

theorem State.evict_goes_other {s : State} {id c i : Nat} (hi : id ≠ i) (h : s.goes id c) : (s.evict i).goes id c := by
  have hu := State.unmove_goes_other hi h
  rw [State.evict]
  split
  · exact hu
  · next m hm =>
    split
    · exact (State.bindBoughs_heldFrame _ _ _ _ _).goes (State.goes_updTeam_other hi
        ((State.dissolve_heldFrame _ _).goes ((HeldFrame.of_eq rfl rfl).goes hu)))
    · rw [State.beginSave, hm]
      exact State.goes_updTeam_other hi ((State.dissolve_heldFrame _ _).goes hu)

/-- A team that leaves its core moves within its grove or is to be saved. -/
theorem State.evict_goes {s : State} {id c : Nat} (h : s.stands id c) : (s.evict id).goes id c := by
  obtain ⟨m, hm, hc⟩ := State.unmove_stands (i := id) h
  rw [State.evict, hm]
  dsimp only
  generalize s.unmove id = s1 at hm ⊢
  split
  · next d f hd =>
    obtain ⟨hg, hw⟩ := State.refuge_spec hd
    have hframe : HeldFrame s1 ((s1.takeFresh 1).dissolve m) := HeldFrame.trans (.of_eq rfl rfl) (State.dissolve_heldFrame _ _)
    refine (State.bindBoughs_heldFrame _ _ _ _ _).goes ⟨{ m with moving := some (d, f) }, ?_, hc, .inr ⟨d, f, rfl, hc ▸ hg, ?_⟩⟩
    · rw [State.team?_updTeam_same, hframe.team?, hm]
      rfl
    · exact (hframe.2 d).trans hw
  · rw [State.beginSave, hm]
    refine ⟨{ m with leaving := true }, ?_, hc, .inl rfl⟩
    rw [State.team?_updTeam_same, (State.dissolve_heldFrame s1 m).team?, hm]
    rfl

/-- After all teams of a list have left their cores, one of them goes. -/
theorem State.foldl_evict_goes {l : List Nat} {s : State} {id c : Nat} (hid : id ∈ l) (h : s.stands id c) :
    (l.foldl (fun s i => s.evict i) s).goes id c := by
  have rest (l : List Nat) (s : State) (hg : s.goes id c) : (l.foldl (fun s i => s.evict i) s).goes id c := by
    induction l generalizing s with
    | nil => exact hg
    | cons i l ih =>
      refine ih _ ?_
      by_cases hi : id = i
      · subst hi
        exact State.evict_goes (State.stands_of_goes hg)
      · exact State.evict_goes_other hi hg
  induction l generalizing s with
  | nil => cases hid
  | cons i l ih =>
    rw [List.foldl_cons]
    by_cases hi : id = i
    · subst hi
      exact rest l _ (State.evict_goes h)
    · exact ih ((List.mem_cons.1 hid).resolve_left hi) (State.evict_stands h)

theorem State.evict_withheld (s : State) (i c : Nat) : ((s.evict i).core c).withheld = (s.core c).withheld := by
  have hu : ((s.unmove i).core c).withheld = (s.core c).withheld := by
    rw [State.unmove]
    split
    · rfl
    · exact (State.unbindBoughs_heldFrame _ _).2 c
  rw [← hu, State.evict]
  split
  · rfl
  · next m hm =>
    split
    · exact ((State.bindBoughs_heldFrame _ _ _ _ _).2 c).trans ((State.dissolve_heldFrame ((s.unmove i).takeFresh 1) m).2 c)
    · rw [State.beginSave, hm]
      exact (State.dissolve_heldFrame (s.unmove i) m).2 c

theorem State.foldl_evict_withheld (l : List Nat) (s : State) (c : Nat) :
    ((l.foldl (fun s i => s.evict i) s).core c).withheld = (s.core c).withheld := by
  induction l generalizing s with
  | nil => rfl
  | cons i l ih => rw [List.foldl_cons, ih, State.evict_withheld]

/-! ### The cores that a word of VACATE names -/

theorem State.mem_vacated {s : State} {p : Nat} {v : DWord} {c : Nat} : c ∈ s.vacated p v ↔ ∃ g i,
    (s.part p).groveList[(v.extractLsb' 48 5).toNat]? = some g ∧ i < 24 ∧ v.getLsbD i = true ∧ c = g * 24 + i := by
  have hbits : bits v 48 5 = (v.extractLsb' 48 5).toNat := by rw [BitVec.extractLsb'_toNat, Nat.shiftRight_eq_div_pow, bits]
  rw [State.vacated, hbits]
  constructor
  · intro h
    split at h
    · cases h
    · next g hg =>
      obtain ⟨i, hi, rfl⟩ := List.mem_map.1 h
      obtain ⟨hi24, hb⟩ := List.mem_filter.1 hi
      exact ⟨g, i, hg, List.mem_range.1 hi24, hb, rfl⟩
  · rintro ⟨g, i, hg, hi, hb, rfl⟩
    rw [hg]
    exact List.mem_map.2 ⟨i, List.mem_filter.2 ⟨List.mem_range.2 hi, hb⟩, rfl⟩

/-- Cores changed one after the other, by a change that does no more when repeated. -/
theorem State.core_foldl_updCore {f : CoreSt → CoreSt} (hf : ∀ x, f (f x) = f x) (l : List Nat) (s : State) (c : Nat) :
    (l.foldl (fun s d => s.updCore d f) s).core c = if c ∈ l then f (s.core c) else s.core c := by
  induction l generalizing s with
  | nil => rfl
  | cons d l ih =>
    rw [List.foldl_cons, ih, State.core_updCore]
    by_cases hd : c = d
    · subst hd
      simp [hf]
    · simp [hd]

/-- A core withheld, or given back. -/
def CoreSt.hold (b : Bool) (x : CoreSt) : CoreSt := { x with withheld := b }

theorem State.teams_foldl_updCore (f : CoreSt → CoreSt) (l : List Nat) (s : State) : (l.foldl (fun s d => s.updCore d f) s).teams = s.teams := by
  induction l generalizing s with
  | nil => rfl
  | cons d l ih => rw [List.foldl_cons, ih]; rfl

/-- Settles O44: the scheduler's choice case by case, then the teams that VACATE sends off, one after the other. -/
theorem quantaAndVacate : Obligations.QuantaAndVacate := by
  refine ⟨fun p k v hk s _ => ?_, fun p k j c => ?_, fun p k c => ?_, fun p k c => ?_, fun p k c => ?_, fun p v s _ => ?_, fun p v s _ => ?_⟩
  · refine ⟨_, if_neg (Nat.not_le.2 hk), ?_, fun j hj => ?_⟩
    · dsimp only
      rw [State.writeQuantum, State.schedule_quanta, State.part_updPart_same]
      refine (SMap.get_set_same _ _ _ _).trans ?_
      rw [QEntry.ofWord, shiftRight_setWidth, shiftRight_setWidth, shiftRight_setWidth, shiftRight_setWidth]
      rfl
    · dsimp only
      rw [State.writeQuantum, State.schedule_quanta, State.part_updPart_same]
      exact SMap.get_set_other _ _ _ _ _ hj
  · rintro s ⟨hr, hk, hj, hkc, hjc, hvalid, hch, hover, hgrid, hprio⟩
    have hne : j ≠ k := fun h => hjc (h ▸ hkc)
    refine ⟨_, congrArg Host.Outcome.next ((State.schedule_chooses hr (Partition.entryStands_iff.2 ?_) (State.mustChoose_of_over ?_)
      (State.chooseEntry_two (Partition.roundRobin_two hch hk hj hne hvalid) hgrid hprio)).trans (if_neg hjc)), State.part_updPart_same _ _ _⟩
    · rw [hch]
      exact ⟨(hvalid k hk).2 (.inl rfl), hkc⟩
    · rw [hch]
      exact hover
  · rintro s ⟨hr, hk, hkc, hvalid, hch, hover⟩
    refine ⟨_, congrArg Host.Outcome.next ((State.schedule_chooses hr (Partition.entryStands_iff.2 ?_) (State.mustChoose_of_over ?_)
      (State.chooseEntry_one (hr.trans (congrArg some hkc.symm)) (Partition.roundRobin_one hch hk hvalid))).trans (if_pos hkc)),
      State.part_updPart_same _ _ _⟩
    · rw [hch]
      exact ⟨(hvalid k hk).2 rfl, hkc⟩
    · rw [hch]
      exact hover
  · rintro s ⟨hr, hk, hkc, hvalid, hch, hover⟩
    refine ⟨_, congrArg Host.Outcome.next (State.schedule_stays hr (Partition.entryStands_iff.2 ?_) ?_), rfl⟩
    · rw [hch]
      exact ⟨(hvalid k hk).2 rfl, hkc⟩
    · rw [State.mustChoose, hch, Bool.or_eq_false_iff, decide_eq_false_iff_not, List.any_eq_false]
      refine ⟨Nat.not_le.2 hover, fun i hi => ?_⟩
      simp only [Bool.and_eq_true, decide_eq_true_eq, not_and]
      rintro ⟨hv, hlt⟩
      obtain rfl := (hvalid i (List.mem_range.1 hi)).1 hv
      exact absurd hlt (BitVec.lt_irrefl _)
  · rintro s ⟨hr, hch, hleft⟩
    refine ⟨_, congrArg Host.Outcome.next (State.schedule_left hr ?_), State.part_updPart_same _ _ _⟩
    rw [← Bool.not_eq_true, Partition.entryStands_iff, hch]
    rintro ⟨hv, hc⟩
    exact hleft.elim (fun h => Bool.false_ne_true (h.symm.trans hv)) fun h => h hc
  · refine ⟨_, rfl, fun c hc => ?_, fun id m hm hcore hmov hleave => ?_⟩
    · rw [State.foldl_evict_withheld]
      exact congrArg CoreSt.withheld
        ((State.core_foldl_updCore (f := CoreSt.hold true) (fun _ => rfl) _ _ c).trans (if_pos (State.mem_vacated.2 hc)))
    · refine (State.foldl_evict_goes (c := m.core) ?_ ⟨m, ?_, rfl⟩ :)
      · refine List.mem_map.2 ⟨(id, m), List.mem_filter.2 ⟨?_, ?_⟩, rfl⟩
        · rw [State.teams_foldl_updCore]
          exact SMap.mem_of_find? hm
        · simp only [hleave, hmov, Bool.not_false, Bool.true_and, List.contains_iff_mem]
          exact State.mem_vacated.2 hcore
      · rw [State.team?, State.teams_foldl_updCore]
        exact hm
  · refine ⟨_, rfl, fun c hc => ?_, fun c hc => ?_, State.teams_foldl_updCore _ _ _⟩
    · exact congrArg CoreSt.withheld
        ((State.core_foldl_updCore (f := CoreSt.hold false) (fun _ => rfl) _ _ c).trans (if_pos (State.mem_vacated.2 hc)))
    · exact (State.core_foldl_updCore (f := CoreSt.hold false) (fun _ => rfl) _ _ c).trans (if_neg (mt State.mem_vacated.1 hc))

end Sys2Proof.Machine
end

/-! # Automata take their items

An item is taken in stages: candidates whose bound lies before it go, the candidates that remain meet it, its initial transition makes a
candidate, and its cursor passes. Each lemma says what one stage does to the slot; none but the queues and the slot change. -/
section
namespace Sys2Proof.Machine

/-! ### A listed entry replaced -/

/-- Of a sorted map, an entry that is there is replaced in place. -/
theorem SMap.map_put_of_find? {α β : Type} {g : α → β} {m : SMap α} {lo : Option Nat} {k : Nat} {x y : α}
    (hs : SMap.sortedFrom lo m = true) (hx : SMap.find? m k = some x) (hg : g y = g x) :
    (SMap.put m k y).map (fun e => g e.2) = m.map (fun e => g e.2) := by
  induction m generalizing lo with
  | nil => cases hx
  | cons e m ih =>
    obtain ⟨j, v⟩ := e
    have htail : SMap.sortedFrom (some j) m = true := (Bool.and_eq_true_iff.1 hs).2
    rw [SMap.find?] at hx
    rw [SMap.put]
    split at hx
    · next hk =>
      subst hk
      injection hx with hv
      subst hv
      rw [if_neg (Nat.lt_irrefl _), if_pos rfl, List.map_cons, List.map_cons, hg]
    · next hk =>
      have hlt := SMap.lt_of_mem htail (SMap.mem_of_find? hx)
      rw [if_neg (by omega), if_neg hk, List.map_cons, List.map_cons, ih htail hx]

/-- What a slot takes of the pool. -/
def Slot.share (x : Slot) : BitVec 5 × Nat := (x.part, x.onDie)

theorem State.onDieAll_eq (s : State) : s.onDieAll = ((s.slots.map fun e => e.2.share).map (·.2)).sum := by
  rw [State.onDieAll, List.map_map]
  rfl

theorem State.onDieOf_eq (s : State) (p : Nat) :
    s.onDieOf p = (((s.slots.map fun e => e.2.share).filter fun x => x.1.toNat == p).map (·.2)).sum := by
  rw [State.onDieOf, List.filter_map, List.map_map]
  rfl

/-- A slot in use changed without its share of the pool leaves the shares. -/
theorem State.share_updSlot {s : State} {a : Nat} {f : Slot → Slot} (hwf : SMap.wf Slot.reset s.slots = true)
    (hne : s.slot a ≠ Slot.reset) (hf : f (s.slot a) ≠ Slot.reset) (hshare : (f (s.slot a)).share = (s.slot a).share) :
    (s.updSlot a f).slots.map (fun e => e.2.share) = s.slots.map (fun e => e.2.share) := by
  obtain ⟨hs, -⟩ := Bool.and_eq_true_iff.1 hwf
  have hfind : SMap.find? s.slots a = some (s.slot a) := by
    cases h : SMap.find? s.slots a with
    | none => exact absurd (by rw [State.slot, SMap.get, h]; rfl) hne
    | some x => rw [State.slot, SMap.get, h]; rfl
  have hset : (s.updSlot a f).slots = SMap.put s.slots a (f (s.slot a)) := if_neg hf
  rw [hset]
  exact SMap.map_put_of_find? hs hfind hshare

theorem State.poolRoom_updSlot {s : State} {a : Nat} {f : Slot → Slot} (hwf : SMap.wf Slot.reset s.slots = true)
    (hne : s.slot a ≠ Slot.reset) (hf : f (s.slot a) ≠ Slot.reset) (hshare : (f (s.slot a)).share = (s.slot a).share)
    (hpat : (f (s.slot a)).pat = (s.slot a).pat) : (s.updSlot a f).poolRoom a = s.poolRoom a := by
  have hpart : (f (s.slot a)).part = (s.slot a).part := congrArg Prod.fst hshare
  have hdie : (f (s.slot a)).onDie = (s.slot a).onDie := congrArg Prod.snd hshare
  rw [State.poolRoom, State.poolRoom, State.slot_updSlot_same, State.onDieAll_eq, State.onDieOf_eq, State.share_updSlot hwf hne hf hshare, ← State.onDieAll_eq, ← State.onDieOf_eq, hpat, hpart, hdie]
  rfl

theorem Slot.ne_reset_of_st {x : Slot} (h : x.st ≠ 0) : x ≠ Slot.reset := fun hx => h (hx ▸ rfl)

/-! ### The stages of an item -/

theorem sat64_of_lt {n : Nat} (h : n + 1 < 2 ^ 64) : sat64 n = n + 1 := if_pos h

/-- No candidate's bound lies before the time. -/
theorem Slot.expireBefore_none {x : Slot} {t : Nat} (h : ∀ c ∈ x.cands, c.expires x.pat t = false) : x.expireBefore t = x := by
  have hgone : x.cands.filter (fun c => c.expires x.pat t) = [] := List.filter_eq_nil_iff.2 fun c hc => by simp [h c hc]
  have hkept : x.cands.filter (fun c => !c.expires x.pat t) = x.cands := List.filter_eq_self.2 fun c hc => by simp [h c hc]
  rw [Slot.expireBefore, hgone, hkept]
  rfl

/-- A candidate moved on by a transition that does not accept. -/
def Cand.moved (c : Cand) (p : List Byte) (i t : Nat) : Cand := { c.reset p i t with state := trTo p i, since := t }

section
variable {s : State} {a t i seq : Nat} {c : Cand} {ev : Option EvRec}

/-- A transition that captures nothing and does not accept moves its candidate, one that is not spilled, on. -/
theorem State.applyTr_moves (hc : (s.slot a).cand? seq = some c) (hce : trCe (s.slot a).pat i = false ∨ ev = none)
    (hacc : trAcc (s.slot a).pat i = false) (hspill : c.spill = none) :
    s.applyTr a t ev (.capture seq i) = (s.updSlot a fun x => x.updCand seq fun c => c.moved (s.slot a).pat i t, none) := by
  have hnone : (if trCe (s.slot a).pat i then ev else none) = none := by
    rcases hce with h | h <;> simp [h]
  have hseq : c.seq = seq := by
    have := List.find?_some hc
    exact beq_iff_eq.1 this
  have hmove : s.moveOn a t i c = (s.updSlot a fun x => x.updCand seq fun c => c.moved (s.slot a).pat i t, none) := by
    rw [State.moveOn, if_neg (by rw [hacc]; exact Bool.false_ne_true), hseq, hspill]
    rfl
  rw [State.applyTr, State.phases, State.phase]
  dsimp only
  rw [hc]
  dsimp only
  rw [hnone]
  dsimp only
  rw [hmove]

/-- A creation where the pool has room. -/
theorem State.create_pooled {key : Word} (h : s.poolRoom a = true) :
    s.create a t key = (s.updSlot a fun x => x.addCand t key none x.freeBlock, .ok (some (s.slot a).nextSeq)) := by
  rw [State.create, State.candRoom, if_pos h]

theorem State.initial_none {e : EvRec} (h : patMatch (s.slot a).pat 0 e (fun _ => 0) = none) : s.initial a t e = (s, none) := by
  rw [State.initial, h]

/-- A slot with one candidate more, in the state to which the initial transition leads. -/
def Slot.withInitial (x : Slot) (t i : Nat) (key : Word) : Slot :=
  { x with
    cands := x.cands ++ [⟨trTo x.pat i, 0, key, t, t, t, t, x.nextSeq, x.freeBlock, none, t⟩]
    nextSeq := x.nextSeq + 1
    created := sat64 x.created }

/-- An initial transition that captures nothing and does not accept makes a candidate, where the pool has room. -/
theorem State.initial_creates {e : EvRec} (hi : patMatch (s.slot a).pat 0 e (fun _ => 0) = some i) (hce : trCe (s.slot a).pat i = false)
    (hacc : trAcc (s.slot a).pat i = false) (hroom : s.poolRoom a = true) (hnew : ∀ c ∈ (s.slot a).cands, c.seq ≠ (s.slot a).nextSeq) :
    ∃ s', s.initial a t e = (s', none) ∧ s'.slot a = (s.slot a).withInitial t i (e.getD 1 0) ∧ s'.queues = s.queues := by
  let s1 := s.updSlot a fun x => x.addCand t (e.getD 1 0) none x.freeBlock
  have hslot : s1.slot a = (s.slot a).addCand t (e.getD 1 0) none (s.slot a).freeBlock := State.slot_updSlot_same _ _ _
  have hmiss : (s.slot a).cands.find? (fun c => c.seq == (s.slot a).nextSeq) = none :=
    List.find?_eq_none.2 fun c hc => by simpa using hnew c hc
  have hcand : (s1.slot a).cand? (s.slot a).nextSeq
      = some ⟨0, 0, e.getD 1 0, t, t, t, t, (s.slot a).nextSeq, (s.slot a).freeBlock, none, t⟩ := by
    rw [hslot, Slot.cand?, Slot.addCand, List.find?_append, hmiss, Option.none_or, List.find?_cons_of_pos]
    exact beq_self_eq_true _
  have happly := State.applyTr_moves (ev := some e) (t := t) (i := i) hcand (.inl (by rw [hslot]; exact hce)) (by rw [hslot]; exact hacc) rfl
  refine ⟨s1.updSlot a fun x => x.updCand (s.slot a).nextSeq fun c => c.moved (s1.slot a).pat i t, ?_, ?_, rfl⟩
  · rw [State.initial, hi]
    dsimp only
    rw [State.create_pooled hroom]
    dsimp only
    rw [happly]
  · rw [State.slot_updSlot_same, hslot, Slot.updCand, Slot.withInitial, Slot.addCand]
    dsimp only
    rw [List.map_append, List.map_singleton, if_pos (beq_self_eq_true _), Cand.moved, Cand.reset]
    simp only [ite_self]
    congr 2
    refine (List.map_congr_left fun c hc => if_neg ?_).trans (List.map_id _)
    simpa using hnew c hc

end

theorem RingFrame.slot {s s' : State} (h : RingFrame s s') (a : Nat) : s'.slot a = s.slot a := by
  rw [h.1]
  rfl

/-- The cursor of a stream passes a record. -/
def Slot.passed (x : Slot) (j n : Nat) : Slot :=
  { x with held := none, cursors := (patSids x.pat).zipWith (fun k c => if k = j then n + 1 else c) x.cursors }

/-- An event's item done, where the record's queue has nothing in its ring. -/
theorem State.itemDone_event {s : State} {a t j n : Nat} {e : EvRec} (h : (s.queue j).rcnt = 0) :
    (s.itemDone a (.event t j n e)).slot a = (s.slot a).passed j n := by
  have hf := State.refillAll_ringFrame (s := s.updSlot a fun x => x.passed j n) h
  exact (hf.slot a).trans (State.slot_updSlot_same _ _ _)

/-- An event met by no candidate, whose initial transition is still to come. -/
theorem State.runItem_initial {s s' : State} {a t j n : Nat} {e : EvRec} (h : s.initial a t e = (s', none)) :
    s.runItem a ⟨.event t j n e, [], true, none, none⟩ = s'.itemDone a (.event t j n e) := by
  rw [State.runItem]
  dsimp only [State.meetAll]
  rw [if_pos rfl, h]

theorem State.runItem_passes (s : State) (a t j n : Nat) (e : EvRec) :
    s.runItem a ⟨.event t j n e, [], false, none, none⟩ = s.itemDone a (.event t j n e) := by
  rw [State.runItem]
  dsimp only [State.meetAll]
  rw [if_neg Bool.false_ne_true]

/-! ### Beginning an item -/

section
variable {s : State} {a : Nat}

theorem State.mayTake_of (hst : (s.slot a).st = 2) (hsaved : (s.slot a).saved = false) (hheld : (s.slot a).held = none)
    (hreq : ∀ r ∈ s.greqs, r.auto ≠ some a) : s.mayTake a = true := by
  have hany : (s.greqs.any fun r => r.auto == some a) = false := List.any_eq_false.2 fun r hr => by simpa using hreq r hr
  simp [State.mayTake, hst, hsaved, hheld, hany]

theorem State.resume?_none (hheld : (s.slot a).held = none) (b : Bool) : s.resume? a b = none := by
  rw [State.resume?, hheld]

theorem exec_rowanTakeEvent {t j n : Nat} {e : EvRec} (hheld : (s.slot a).held = none) (hmay : s.mayTake a = true)
    (hnext : s.nextItem a = some (.event t j n e)) : exec (.rowanTakeEvent a) s = .next (s.takeItem a (.event t j n e)) := by
  change execRowanTakeEvent a s = _
  rw [execRowanTakeEvent, State.resume?_none hheld]
  dsimp only
  rw [hmay, if_neg (by decide), hnext]

theorem exec_rowanTakeTimer {d q i : Nat} (hheld : (s.slot a).held = none) (hmay : s.mayTake a = true)
    (hnext : s.nextItem a = some (.timer d q i)) : exec (.rowanTakeTimer a) s = .next (s.takeItem a (.timer d q i)) := by
  change execRowanTakeTimer a s = _
  rw [execRowanTakeTimer, State.resume?_none hheld]
  dsimp only
  rw [hmay, if_neg (by decide), hnext]

/-- A slot that takes an event. -/
def Slot.takes (x : Slot) (t : Nat) : Slot := { x with lastTime := t, taken := sat64 x.taken }

/-- An event taken by an automaton without candidates. -/
theorem State.takeItem_event {t j n : Nat} {e : EvRec} (hcands : (s.slot a).cands = []) :
    ∃ s1, s.takeItem a (.event t j n e) = s1.runItem a ⟨.event t j n e, [], true, none, none⟩
      ∧ s1 = s.timeRead.updSlot a (fun x => (x.takes t).expireBefore t) ∧ s1.slot a = (s.slot a).takes t := by
  have hslot : (s.timeRead.updSlot a (fun x => (x.takes t).expireBefore t)).slot a = (s.slot a).takes t :=
    (State.slot_updSlot_same _ _ _).trans (Slot.expireBefore_none fun c hc => absurd hc (by
      change c ∉ (s.slot a).cands
      rw [hcands]
      exact List.not_mem_nil))
  refine ⟨_, ?_, rfl, hslot⟩
  have hseqs : ((s.timeRead.updSlot a (fun x => (x.takes t).expireBefore t)).slot a).cands.map (·.seq) = [] := by
    rw [hslot]
    change (s.slot a).cands.map _ = []
    rw [hcands]
    rfl
  have htake : s.takeItem a (.event t j n e) = (s.timeRead.updSlot a (fun x => (x.takes t).expireBefore t)).runItem a
      ⟨.event t j n e, ((s.timeRead.updSlot a (fun x => (x.takes t).expireBefore t)).slot a).cands.map (·.seq), true, none, none⟩ := rfl
  rw [htake, hseqs]

end

/-! ### A record placed in a queue -/

/-- What producers and consumers of a queue see. -/
def Queue.face (q : Queue) : Bool × List (Nat ⊕ Nat) × Nat × List (Nat × EvRec) := (q.cmode, q.stalled, q.seq, q.pool)

/-- A queue that QRD reads, with nothing in its ring: it refills nothing, and nothing of it changes but that it is not stuck. -/
theorem State.refillAll_consumed {s : State} {j : Nat} (hc : (s.queue j).cmode = true) (h : (s.queue j).rcnt = 0) (k : Nat) :
    ((s.refillAll j).queue k).face = (s.queue k).face := by
  have settle (t : State) (hc : (t.queue j).cmode = true) (ht : (t.queue j).rcnt = 0) : t.settleQ j ((t.queue j).rcnt.toNat + 1) = t := by
    have hl : t.leaveQ j = t := by
      rw [State.leaveQ, hc, Bool.or_true]
      exact if_pos rfl
    rw [State.settleQ, hl]
    simp only [ht]
    rw [show (0 : BitVec 25).toNat = 0 from rfl, State.refillQ, if_pos ht]
  rw [State.refillAll]
  split
  · have hq : (s.updQueue j fun q => { q with stuck := false }).queue j = { s.queue j with stuck := false } := SMap.get_set_same _ _ _ _
    rw [settle _ (by rw [hq]; exact hc) (by rw [hq]; exact h)]
    by_cases hk : k = j
    · subst hk
      rw [hq]
      rfl
    · rw [show (s.updQueue j fun q => { q with stuck := false }).queue k = s.queue k from SMap.get_set_other _ _ _ _ _ hk]
  · rw [settle s hc h]

theorem State.refillAll_other {s : State} {j k : Nat} (h : (s.queue j).rcnt = 0) (hk : k ≠ j) : (s.refillAll j).queue k = s.queue k := by
  have upd (t : State) (f : Queue → Queue) : (t.updQueue j f).queue k = t.queue k := SMap.get_set_other _ _ _ _ _ hk
  have settle (t : State) (ht : (t.queue j).rcnt = 0) : (t.settleQ j ((t.queue j).rcnt.toNat + 1)).queue k = t.queue k := by
    have hl := ((t.leaveQ_ringFrame j).2 j).trans ht
    have hleave : (t.leaveQ j).queue k = t.queue k := by
      rw [State.leaveQ]
      split
      · rfl
      · exact upd _ _
    rw [State.settleQ]
    simp only [hl]
    rw [show (0 : BitVec 25).toNat = 0 from rfl, State.refillQ, if_pos hl, hleave]
  rw [State.refillAll]
  split
  · have hq : (s.updQueue j fun q => { q with stuck := false }).queue j = { s.queue j with stuck := false } := SMap.get_set_same _ _ _ _
    rw [settle _ (by rw [hq]; exact h), upd]
  · exact settle s h

/-- A queue that takes one record more. -/
def Queue.taking (q : Queue) (r : EvRec) : Queue := { q with pool := q.pool ++ [(q.seq, r)], seq := q.seq + 1 }

/-- The first stalled request of a queue gone. -/
def Queue.popped (q : Queue) : Queue := { q with stalled := q.stalled.drop 1 }

theorem State.placeRec_pooled {s : State} {j src : Nat} {r : EvRec} (h : (s.queue j).rcnt = 0) (hheld : (s.queue j).held = false)
    (hadm : s.admits j = true) : s.placeRec j r src
      = ({ s.updQueue j fun q => q.taking (stampRec r s.time src false) with stamped := s.time }, .ok) := by
  rw [State.placeRec, if_pos ⟨h, by simp [hheld], hadm⟩]
  rfl

/-- The stalled emit of an automaton, first at its queue, is placed in the pool. -/
theorem State.admitStalled_emit {s : State} {a k q : Nat} {r : EvRec} {it : HeldItem} (hst : (s.queue k).stalled = [.inr a])
    (hheld : (s.slot a).held = some it) (hdoing : it.doing = some (.emit q k r)) (hv : (s.queue k).v = true)
    (hp : (s.queue k).part = (s.slot a).part) (h : (s.queue k).rcnt = 0) (hqh : (s.queue k).held = false) (hadm : s.admits k = true) :
    s.admitStalled k = (State.refillAll (State.updQueue
      { s.updQueue k fun q => q.taking (stampRec r s.time 2 false) with stamped := s.time } k Queue.popped) k).emitTaken a := by
  have hemit : (s.slot a).heldEmit = some r := by
    rw [Slot.heldEmit, hheld]
    dsimp only
    rw [hdoing]
  have hown : s.ownsQueue k (s.slot a).part.toNat = true := by simp [State.ownsQueue, hv, hp]
  rw [State.admitStalled, hst]
  dsimp only
  rw [hemit]
  dsimp only
  rw [if_neg (by simp [hown]), State.placeRec_pooled h hqh hadm]
  rfl

/-- A slot that goes on after it was held. -/
def Slot.resumed (x : Slot) : Slot := { x with st := 2 }

/-- A slot whose candidate has accepted. -/
def Slot.accepting (x : Slot) (q : Nat) : Slot := { x.dropCand q with accepted := sat64 x.accepted }

/-- The emit that an automaton held is accepted, and the rest of its item passes. -/
theorem State.emitTaken_slot {s : State} {a t j n q k : Nat} {e r : EvRec}
    (hheld : (s.slot a).held = some ⟨.event t j n e, [], false, some (.emit q k r), none⟩) (h : (s.queue j).rcnt = 0) :
    (s.emitTaken a).slot a = ((s.slot a).accepting q).resumed.passed j n
      ∧ ∃ s1 : State, s.emitTaken a = s1.refillAll j ∧ s1.queues = s.queues := by
  obtain ⟨s1, hs1⟩ : ∃ s1, s1 = (s.updSlot a fun x => x.accepting q).updSlot a Slot.resumed := ⟨_, rfl⟩
  have hqueues : s1.queues = s.queues := by rw [hs1]; rfl
  have hslot : s1.slot a = ((s.slot a).accepting q).resumed := by rw [hs1, State.slot_updSlot_same, State.slot_updSlot_same]
  have htaken : s.emitTaken a = s1.itemDone a (.event t j n e) := by
    rw [State.emitTaken, hheld, hs1]
    exact State.runItem_passes _ a t j n e
  have hq1 : (s1.queue j).rcnt = 0 := by
    rw [State.queue, hqueues]
    exact h
  refine ⟨?_, s1.updSlot a fun x => x.passed j n, htaken, hqueues⟩
  rw [htaken, State.itemDone_event hq1, hslot]

/-- The emit that an automaton held is accepted at its queue. -/
theorem rowanEmitAccepted_acts {s : State} {a t j n q k : Nat} {e r : EvRec} (hst : (s.slot a).st = 5)
    (hheld : (s.slot a).held = some ⟨.event t j n e, [], false, some (.emit q k r), none⟩) (hv : (s.queue k).v = true)
    (hp : (s.queue k).part = (s.slot a).part) (hstall : (s.queue k).stalled = [.inr a]) (hcm : (s.queue k).cmode = true)
    (hq : (s.queue k).rcnt = 0) (hqh : (s.queue k).held = false) (hadm : s.admits k = true) (hqj : (s.queue j).rcnt = 0) :
    ∃ s', exec (.rowanEmitAccepted a) s = .next s'
      ∧ s'.slot a = ((s.slot a).accepting q).resumed.passed j n
      ∧ (s'.queue k).face = ((s.queue k).taking (stampRec r s.time 2 false)).popped.face := by
  have hexec : exec (.rowanEmitAccepted a) s = .next (s.admitStalled k) := by
    change execRowanEmitAccepted a s = _
    rw [execRowanEmitAccepted, hheld]
    dsimp only
    rw [if_neg (not_not.2 hst), if_pos (by rw [hstall]; rfl)]
  obtain ⟨s2, hs2⟩ : ∃ s2, s2 = State.updQueue { s.updQueue k fun q => q.taking (stampRec r s.time 2 false) with stamped := s.time }
    k Queue.popped := ⟨_, rfl⟩
  have hq2 : s2.queue k = ((s.queue k).taking (stampRec r s.time 2 false)).popped := by
    rw [hs2]
    exact (SMap.get_set_same _ _ _ _).trans (congrArg Queue.popped (SMap.get_set_same _ _ _ _))
  have hother (i : Nat) (hi : i ≠ k) : s2.queue i = s.queue i := by
    rw [hs2]
    exact (SMap.get_set_other _ _ _ _ _ hi).trans (SMap.get_set_other _ _ _ _ _ hi)
  have hslot2 : s2.slot a = s.slot a := by
    rw [hs2]
    rfl
  have hadmit : s.admitStalled k = (s2.refillAll k).emitTaken a := by
    rw [hs2]
    exact State.admitStalled_emit hstall hheld rfl hv hp hq hqh hadm
  have hr2 : (s2.queue k).rcnt = 0 := by rw [hq2]; exact hq
  have hf := State.refillAll_ringFrame hr2
  have hj2 : (s2.queue j).rcnt = 0 := by
    by_cases hjk : j = k
    · rw [hjk, hr2]
    · rw [hother j hjk, hqj]
  have hj3 : ((s2.refillAll k).queue j).rcnt = 0 := (hf.2 j).trans hj2
  have hslot : (s2.refillAll k).slot a = s.slot a := (hf.slot a).trans hslot2
  obtain ⟨htaken, s4, hs4, hqueues⟩ := State.emitTaken_slot (s := s2.refillAll k) (hslot ▸ hheld) hj3
  have hface : (((s2.refillAll k).emitTaken a).queue k).face = (s2.queue k).face := by
    have hk2 := State.refillAll_consumed (s := s2) (j := k) (by rw [hq2]; exact hcm) hr2 k
    have hk4 : s4.queue k = (s2.refillAll k).queue k := by
      rw [State.queue, hqueues]
      rfl
    have hj4 : (s4.queue j).rcnt = 0 := by
      rw [State.queue, hqueues]
      exact hj3
    rw [hs4]
    by_cases hjk : j = k
    · have hcm4 : (s4.queue j).cmode = true := by
        rw [hjk, hk4]
        refine (congrArg Prod.fst hk2).trans ?_
        rw [hq2]
        exact hcm
      rw [State.refillAll_consumed hcm4 hj4 k, hk4, hk2]
    · rw [State.refillAll_other hj4 (Ne.symm hjk), hk4, hk2]
  rw [hq2] at hface
  exact ⟨_, hexec.trans (congrArg _ hadmit), by rw [htaken, hslot], hface⟩

/-- Settles O36: each kind of item, stage by stage. -/
theorem automataTakeItems : Obligations.AutomataTakeItems := by
  refine ⟨fun a t j n i e => ?_, fun a t j n e => ?_, fun a d q i c => ?_, fun a => ?_, fun a t j n i e => ?_,
    fun a t j n q k e r => ?_, fun a q place c s1 bs => ?_⟩
  · rintro s ⟨⟨hst, hsaved, hheld, hreq, hwf⟩, hnext, hcands, hq, hmatch, hce, hacc, hroom, htaken, hcreated⟩
    obtain ⟨s1, htake, hs1, hslot⟩ := State.takeItem_event (t := t) (j := j) (n := n) (e := e) hcands
    have hpool : s1.poolRoom a = true := by
      rw [hs1, State.poolRoom_updSlot (s := s.timeRead) hwf (Slot.ne_reset_of_st (by rw [show s.timeRead.slot a = s.slot a from rfl, hst]; decide))]
      · exact hroom
      all_goals rw [← State.slot_updSlot_same s.timeRead a fun x => (x.takes t).expireBefore t, ← hs1, hslot]
      · exact Slot.ne_reset_of_st (by rw [Slot.takes, hst]; decide)
      · rfl
      · rfl
    obtain ⟨s2, hinit, hs2, hqueues⟩ := State.initial_creates (s := s1) (a := a) (t := t) (i := i) (e := e) (by rw [hslot]; exact hmatch)
      (by rw [hslot]; exact hce) (by rw [hslot]; exact hacc) hpool (by rw [hslot, Slot.takes, hcands]; exact fun c hc => nomatch hc)
    refine ⟨_, (exec_rowanTakeEvent hheld (State.mayTake_of hst hsaved hheld hreq) hnext).trans
      (congrArg _ (htake.trans (State.runItem_initial hinit))), ?_⟩
    have hq2 : (s2.queue j).rcnt = 0 := by
      rw [State.queue, hqueues, hs1]
      exact hq
    refine (State.itemDone_event hq2).trans ?_
    rw [hs2, hslot]
    simp only [Slot.passed, Slot.withInitial, Slot.takes, Slot.freeBlock, hcands, sat64_of_lt htaken, sat64_of_lt hcreated, List.nil_append, hheld]
  · rintro s ⟨⟨hst, hsaved, hheld, hreq, hwf⟩, hnext, hcands, hq, hmatch, htaken⟩
    obtain ⟨s1, htake, hs1, hslot⟩ := State.takeItem_event (t := t) (j := j) (n := n) (e := e) hcands
    refine ⟨_, (exec_rowanTakeEvent hheld (State.mayTake_of hst hsaved hheld hreq) hnext).trans
      (congrArg _ (htake.trans (State.runItem_initial (State.initial_none (by rw [hslot]; exact hmatch))))), ?_⟩
    have hq1 : (s1.queue j).rcnt = 0 := by
      rw [hs1]
      exact hq
    refine (State.itemDone_event hq1).trans ?_
    rw [hslot]
    simp only [Slot.passed, Slot.takes, sat64_of_lt htaken, hheld]
  · rintro s ⟨⟨hst, hsaved, hheld, hreq, hwf⟩, hnext, hexp, hc, hspill, hacc⟩
    let s1 := s.timeRead.updSlot a fun x => ({ x with lastTime := d } : Slot).expireBefore d
    have hslot : s1.slot a = { s.slot a with lastTime := d } := (State.slot_updSlot_same _ _ _).trans (Slot.expireBefore_none hexp)
    have happly := State.applyTr_moves (s := s1) (a := a) (t := d) (i := i) (ev := none) (by rw [hslot]; exact hc) (.inr rfl)
      (by rw [hslot]; exact hacc) hspill
    have hrun : s.takeItem a (.timer d q i) = (s1.updSlot a fun x => x.updCand q fun c => c.moved (s1.slot a).pat i d).itemDone a (.timer d q i) := by
      rw [show s.takeItem a (.timer d q i) = s1.runItem a ⟨.timer d q i, [], false, some (.capture q i), none⟩ from rfl, State.runItem]
      dsimp only
      rw [happly]
    refine ⟨_, (exec_rowanTakeTimer hheld (State.mayTake_of hst hsaved hheld hreq) hnext).trans (congrArg _ hrun), ?_⟩
    refine (State.slot_updSlot_same _ _ _).trans ?_
    rw [State.slot_updSlot_same, hslot]
    simp only [Slot.updCand, hheld]
    rfl
  · rintro s ⟨⟨hst, hsaved, hheld, hreq, hwf⟩, hempty, hnext, hlate⟩
    refine ⟨s.updSlot a fun x => x.expireBefore (s.time - patLate (s.slot a).pat), if_neg ?_, ?_, rfl⟩
    · have hall : (s.offers a).all (·.isEmpty) = true := List.all_eq_true.2 hempty
      simp [State.mayTake_of hst hsaved hheld hreq, hall, hnext, Nat.not_lt.2 hlate]
    · rw [State.slot_updSlot_same]
      rfl
  · rintro s ⟨hst, hheld, hroom, hwf, hq, hmatch, hce, hacc, hcreated, hnew⟩
    let s1 := s.updSlot a fun x => { x with st := 2 }
    have hslot : s1.slot a = { s.slot a with st := 2 } := State.slot_updSlot_same _ _ _
    have hpool : s1.poolRoom a = true := by
      rw [State.poolRoom_updSlot hwf (Slot.ne_reset_of_st (by rw [hst]; decide)) (Slot.ne_reset_of_st (Nat.succ_ne_zero 1)) rfl rfl]
      exact hroom
    obtain ⟨s2, hinit, hs2, hqueues⟩ := State.initial_creates (s := s1) (a := a) (t := t) (i := i) (e := e) (by rw [hslot]; exact hmatch)
      (by rw [hslot]; exact hce) (by rw [hslot]; exact hacc) hpool (by rw [hslot]; exact hnew)
    have hexec : exec (.rowanRoomFreed a) s = .next (s1.runItem a ⟨.event t j n e, [], true, none, none⟩) := by
      change execRowanRoomFreed a s = _
      rw [execRowanRoomFreed, hheld]
      refine if_neg ?_
      simp [hst, State.candRoom, hroom]
    refine ⟨_, hexec.trans (congrArg _ (State.runItem_initial hinit)), ?_⟩
    have hq2 : (s2.queue j).rcnt = 0 := by
      rw [State.queue, hqueues]
      exact hq
    refine (State.itemDone_event hq2).trans ?_
    rw [hs2, hslot]
    simp only [Slot.passed, Slot.withInitial, Slot.freeBlock, sat64_of_lt hcreated]
  · rintro s ⟨hst, hheld, hv, hp, hstall, hcm, hq, hqh, hadm, hqj, hacc⟩
    obtain ⟨s', hexec, hslot, hface⟩ := rowanEmitAccepted_acts hst hheld hv hp hstall hcm hq hqh hadm hqj
    rw [Queue.face, Queue.face, Prod.mk.injEq, Prod.mk.injEq, Prod.mk.injEq] at hface
    obtain ⟨-, hst4, hseq4, hpool4⟩ := hface
    refine ⟨s', hexec, ?_, ?_, hseq4, ?_⟩
    · refine hslot.trans ?_
      simp only [Slot.passed, Slot.resumed, Slot.accepting, Slot.dropCand, sat64_of_lt hacc]
    · refine hst4.trans ?_
      rw [Queue.popped, Queue.taking, hstall]
      rfl
    · refine (congrArg List.length hpool4).trans ?_
      rw [Queue.popped, Queue.taking, List.length_append]
      rfl
  · rintro s ⟨⟨hst, hsaved, hheld, hreq, hwf⟩, hc, hspill, hplace, hacc⟩
    refine ⟨s1.updSlot a fun x => x.updCand q fun c => { c with spill := some place }, ?_, State.slot_updSlot_same _ _ _⟩
    change execCandidateMove a q s = _
    rw [execCandidateMove, show (s.slot a).cand? q = some c from hc]
    dsimp only
    rw [State.mayTake_of hst hsaved hheld hreq, if_neg (by decide), hspill, hplace]
    dsimp only
    rw [show (s.slot a).spillVa place = patSbase (s.slot a).pat + 64 * place from rfl, hacc]

end Sys2Proof.Machine
end

/-! # Translations and page heat

The host's answers, the invalidations, the page requests and the heat table, rule by rule. -/
section
namespace Sys2Proof.Machine

/-! ### Fields -/

theorem bits_eq {n : Nat} (v : BitVec n) (lo len : Nat) : bits v lo len = (v.extractLsb' lo len).toNat := by
  rw [BitVec.extractLsb'_toNat, Nat.shiftRight_eq_div_pow, bits]

theorem keep_getLsbD (v : DWord) {l : List (Nat × Nat)} (h : Descending l) (i : Nat) : (keep v l).getLsbD i
    = (v.getLsbD i && l.any fun (f : Nat × Nat) => decide (f.1 ≤ i) && decide (i < f.1 + f.2)) := by
  by_cases hi : i < 64
  · rw [keep, BitVec.getLsbD_ofNat, decide_eq_true hi, Bool.true_and, keep_sum v h]
    rfl
  · rw [BitVec.getLsbD_of_ge _ _ (Nat.not_lt.1 hi), BitVec.getLsbD_of_ge _ _ (Nat.not_lt.1 hi), Bool.false_and]

/-- The bits that stay of a word of which fields are kept. -/
theorem keep_masked (v : DWord) {l : List (Nat × Nat)} (h : Descending l) {P : Nat → Bool}
    (hP : ∀ i, P i = true ↔ ∃ f ∈ l, f.1 ≤ i ∧ i < f.1 + f.2) (i : Nat) : (keep v l).getLsbD i = (v.getLsbD i && P i) := by
  rw [keep_getLsbD v h]
  congr 1
  refine Bool.eq_iff_iff.2 ((List.any_eq_true).trans ?_)
  rw [hP]
  simp only [Bool.and_eq_true, decide_eq_true_eq]

/-- A field that is kept. -/
theorem keep_field (v : DWord) {l : List (Nat × Nat)} (h : Descending l) {lo len : Nat} (hf : (lo, len) ∈ l) :
    (keep v l).extractLsb' lo len = v.extractLsb' lo len := by
  refine BitVec.eq_of_getLsbD_eq fun i hi => ?_
  rw [BitVec.getLsbD_extractLsb', BitVec.getLsbD_extractLsb', keep_getLsbD v h]
  have hany : (l.any fun (f : Nat × Nat) => decide (f.1 ≤ lo + i) && decide (lo + i < f.1 + f.2)) = true :=
    List.any_eq_true.2 ⟨_, hf, by simp [hi]⟩
  rw [hany, Bool.and_true]

/-! ### TLBI -/

theorem tlbiRange_eq (v : DWord) : tlbiRange v = if v.getLsbD 63 = true ∨ 43 < (v.extractLsb' 57 6).toNat then (0, 2 ^ 55)
    else (v.toNat % 2 ^ 43 / 2 ^ (v.extractLsb' 57 6).toNat * 2 ^ (12 + (v.extractLsb' 57 6).toNat), 2 ^ (12 + (v.extractLsb' 57 6).toNat)) := by
  have h43 : bits v 0 43 = v.toNat % 2 ^ 43 := by rw [bits, Nat.pow_zero, Nat.div_one]
  rw [tlbiRange, ← bits_eq, h43]
  refine if_congr ?_ rfl rfl
  rw [Bool.or_eq_true, decide_eq_true_eq]
  rfl

theorem meet_eq_false {a n b m : Nat} : meet a n b m = false ↔ a + n ≤ b ∨ b + m ≤ a := by
  rw [meet, Bool.and_eq_false_iff, decide_eq_false_iff_not, decide_eq_false_iff_not]
  omega

/-- No access uses the range of a TLBI. -/
theorem State.usesRange_of_apart {s : State} {p : Nat} {r : Nat × Nat} (h : ∀ o ∈ s.ops, o.part = p →
    (∃ a k c b h, o.place = .dev a k c b h) ∨ (∃ d a, o.place = .host d a) → o.va.toNat + max 1 o.n ≤ r.1 ∨ r.1 + r.2 ≤ o.va.toNat) :
    s.usesRange p r = false := by
  refine List.any_eq_false.2 fun o ho => ?_
  have hno : o.usesRange p r = false := by
    by_cases hp : o.part = p
    · rw [Op.usesRange]
      cases hplace : o.place with
      | dev a k c b he => rw [meet_eq_false.2 (h o ho hp (.inl ⟨a, k, c, b, he, hplace⟩)), Bool.and_false, Bool.false_and]
      | host d a => rw [meet_eq_false.2 (h o ho hp (.inr ⟨d, a, hplace⟩)), Bool.and_false, Bool.false_and]
      | rwin | scr | later => exact Bool.and_false _
    · rw [Op.usesRange, beq_eq_false_iff_ne.2 hp, Bool.false_and, Bool.false_and, Bool.false_and]
  rw [hno, Bool.false_and]
  exact Bool.false_ne_true

/-- With every record written there is none to write. -/
theorem State.drainRecs_written {s : State} {p : Nat} (h : ∀ r ∈ (s.part p).frecs, r.written = true) (n : Nat) : s.drainRecs p n = s := by
  cases n with
  | zero => rfl
  | succ n =>
    rw [State.drainRecs, List.find?_eq_none.2 fun r hr => by simp [h r hr]]

/-- A TLBI over, and no other waiting. -/
def Partition.tlbiDone (p : Partition) : Partition := match p.tlbQ with
  | [] => { p with tlbBusy := false }
  | v :: l => { p with tlbi := v, tlbQ := l }

theorem Partition.tlbiDone_of {p : Partition} (h : p.tlbQ = []) : p.tlbiDone = { p with tlbBusy := false } := by
  rw [Partition.tlbiDone]
  split
  · rfl
  · next hv => exact nomatch h.symm.trans hv

/-- The operations that go on without their translation of a range. -/
def State.untranslated (s : State) (p : Nat) (r : Nat × Nat) : State :=
  { s with ops := s.ops.map (fun (o : Op) => if o.usesRange p r then { o with again := true } else o) }

theorem exec_tlbiComplete {s : State} {p : Nat} (hb : (s.part p).tlbBusy = true) (hu : s.usesRange p (tlbiRange (s.part p).tlbi) = false)
    (hq : (s.part p).tlbQ = []) (hr : ∀ r ∈ (s.part p).frecs, r.written = true) : exec (.tlbiComplete p) s
      = .next (((s.untranslated p (tlbiRange (s.part p).tlbi)).dropTlb p (tlbiRange (s.part p).tlbi)).updPart p Partition.tlbiDone) := by
  have hexec : exec (.tlbiComplete p) s = .next (State.drainRecs
      (((s.untranslated p (tlbiRange (s.part p).tlbi)).dropTlb p (tlbiRange (s.part p).tlbi)).updPart p Partition.tlbiDone) p
      (State.part (((s.untranslated p (tlbiRange (s.part p).tlbi)).dropTlb p (tlbiRange (s.part p).tlbi)).updPart p Partition.tlbiDone) p).frecs.length) :=
    if_neg (by simp [hb, hu])
  rw [hexec, State.drainRecs_written]
  intro r hr'
  rw [State.part_updPart_same] at hr'
  refine hr r ?_
  rwa [Partition.tlbiDone, show ((s.untranslated p (tlbiRange (s.part p).tlbi)).dropTlb p (tlbiRange (s.part p).tlbi)).part p = s.part p from rfl,
    hq] at hr'

/-! ### The host's translations -/

theorem State.mem_usedAnswer {s : State} {who : Asker} {x : Asker × Denial} (hw : x.1 ≠ who) (h : x ∈ s.xans) : x ∈ (s.usedAnswer who).xans := by
  rw [State.usedAnswer]
  split
  · exact h
  · exact List.mem_filter.2 ⟨h, by simpa using hw⟩

/-- One who asked still waits for the answer about a page. -/
def State.wants (s : State) (who : Asker) (vpn : Nat) : Bool := match who with
  | .lane slot => match s.thread? slot with
    | none => false
    | some t => t.hold == .xlate vpn || t.hold == .coll
  | .op _ id => (s.op? id).isSome
  | .unit _ _ => true

theorem State.giveAnswer_eq (s : State) (who : Asker) (x : Denial) : s.giveAnswer who x =
    if s.wants who x.vpn then { s.usedAnswer who with xans := (s.usedAnswer who).xans ++ [(who, x)] } else s := by
  cases who <;> rfl

/-- What answers leave: the threads, the operations and the other requests. -/
def AnswerFrame (s s' : State) : Prop := s' = { s with xans := s'.xans }

theorem State.giveAnswer_frame (s : State) (who : Asker) (x : Denial) : AnswerFrame s (s.giveAnswer who x) := by
  rw [State.giveAnswer_eq]
  split
  · rw [State.usedAnswer]
    split <;> rfl
  · rfl

theorem AnswerFrame.trans {s s1 s2 : State} (h : AnswerFrame s s1) (h' : AnswerFrame s1 s2) : AnswerFrame s s2 := by
  unfold AnswerFrame at *
  rw [h', h]

/-- The same answer for several who waited. -/
def State.giveAll (s : State) (l : List (Asker × Bool)) (x : Denial) : State := l.foldl (fun s w => s.giveAnswer w.1 x) s

theorem State.giveAll_frame (s : State) (l : List (Asker × Bool)) (x : Denial) : AnswerFrame s (s.giveAll l x) := by
  induction l generalizing s with
  | nil => rfl
  | cons w l ih => exact (s.giveAnswer_frame w.1 x).trans (ih _)

/-- The lane waits for the answer to its request of a page. -/
def State.awaits (s : State) (k vpn : Nat) : Prop := ∃ t, s.thread? k = some t ∧ t.hold = .xlate vpn

theorem AnswerFrame.awaits {s s' : State} (h : AnswerFrame s s') {k vpn : Nat} (hw : s.awaits k vpn) : s'.awaits k vpn := by
  rw [h]
  exact hw

theorem State.giveAnswer_mem {s : State} {k : Nat} {x : Denial} (h : s.awaits k x.vpn) : (Asker.lane k, x) ∈ (s.giveAnswer (.lane k) x).xans := by
  obtain ⟨t, ht, hhold⟩ := h
  rw [State.giveAnswer_eq, if_pos (by simp [State.wants, ht, hhold])]
  exact List.mem_append_right _ List.mem_cons_self

theorem State.mem_giveAnswer_other {s : State} {k : Nat} {who : Asker} {x y : Denial} (hw : who ≠ .lane k) (h : (Asker.lane k, y) ∈ s.xans) :
    (Asker.lane k, y) ∈ (s.giveAnswer who x).xans := by
  rw [State.giveAnswer_eq]
  split
  · exact List.mem_append_left _ (State.mem_usedAnswer (Ne.symm hw) h)
  · exact h

/-- An answer that a lane has, where those that are answered further are others, or it gets the same again. -/
theorem State.mem_giveAll {s : State} {k : Nat} {l : List (Asker × Bool)} {x y : Denial} (hwait : s.awaits k x.vpn)
    (hsame : y = x ∨ ∀ w ∈ l, w.1 ≠ .lane k) (h : (Asker.lane k, y) ∈ s.xans) : (Asker.lane k, y) ∈ (s.giveAll l x).xans := by
  induction l generalizing s with
  | nil => exact h
  | cons w l ih =>
    refine ih ((s.giveAnswer_frame w.1 x).awaits hwait) (hsame.imp_right fun hno v hv => hno v (List.mem_cons_of_mem _ hv)) ?_
    by_cases hw : w.1 = .lane k
    · rcases hsame with rfl | hno
      · have hgive := State.giveAnswer_mem hwait
        rw [← hw] at hgive ⊢
        exact hgive
      · exact absurd hw (hno w List.mem_cons_self)
    · exact State.mem_giveAnswer_other hw h

/-- A lane among those that are answered has the answer. -/
theorem State.giveAll_mem {s : State} {k : Nat} {l : List (Asker × Bool)} {x : Denial} {b : Bool} (hwait : s.awaits k x.vpn)
    (hk : (Asker.lane k, b) ∈ l) : (Asker.lane k, x) ∈ (s.giveAll l x).xans := by
  induction l generalizing s with
  | nil => cases hk
  | cons w l ih =>
    have hwait' := (s.giveAnswer_frame w.1 x).awaits hwait
    rcases List.mem_cons.1 hk with rfl | hk
    · exact State.mem_giveAll (s := s.giveAnswer (.lane k) x) hwait' (.inl rfl) (State.giveAnswer_mem hwait)
    · exact ih hwait' hk

section
variable {s : State} {ld pasid vpn : Nat} {x : XReq}

/-- The entry is of the page. -/
def Atc.isFor (ld pasid vpn : Nat) (b : Atc) : Bool := b.ld == ld && b.pasid == pasid && b.vpn == vpn

/-- The request that the host has answered is gone. -/
def State.answered (s : State) (x : XReq) : State := { s with xreqs := s.xreqs.filter (fun y => y != x) }

/-- The ATC without the entry of a page. -/
def State.withoutAtc (s : State) (ld pasid vpn : Nat) : State := { s with atc := s.atc.filter (fun b => !b.isFor ld pasid vpn) }

/-- The ATC with an entry in the place of the page's old one. -/
def State.withAtc (s : State) (b : Atc) : State :=
  { s.withoutAtc b.ld b.pasid b.vpn with atc := (s.withoutAtc b.ld b.pasid b.vpn).atc ++ [b] }

theorem State.not_mem_answered (s : State) (x : XReq) : x ∉ (s.answered x).xreqs := fun h => by
  simpa using (List.mem_filter.1 h).2

theorem State.mem_withoutAtc {a : Atc} : a ∈ (s.withoutAtc ld pasid vpn).atc ↔ a ∈ s.atc ∧ ¬ (a.ld = ld ∧ a.pasid = pasid ∧ a.vpn = vpn) := by
  refine List.mem_filter.trans (and_congr_right fun _ => ?_)
  simp only [Atc.isFor, Bool.not_eq_true', ← Bool.not_eq_true, Bool.and_eq_true, beq_iff_eq, and_assoc]

/-- What a host's answer leaves before those that waited for the page go on. -/
def State.completed (s : State) (ld pasid vpn : Nat) (x : XReq) : XAns → State
  | .refused => ((s.answered x).withoutAtc ld pasid vpn).giveAll x.waiters ⟨vpn, true, none⟩
  | .granted frame r w =>
    if !r then ((s.answered x).withoutAtc ld pasid vpn).giveAll x.waiters ⟨vpn, false, none⟩
    else if w || x.waiters.all (fun q => !q.2) then
      { (s.answered x).withoutAtc ld pasid vpn with atc := ((s.answered x).withoutAtc ld pasid vpn).atc ++ [⟨ld, pasid, vpn, frame, w⟩] }
    else (((s.answered x).withoutAtc ld pasid vpn).giveAll (x.waiters.filter (fun q => !q.2)) ⟨vpn, false, some frame⟩).giveAll
      (x.waiters.filter (·.2)) ⟨vpn, false, none⟩

theorem exec_translationCompletion (hx : s.xreqs.find? (fun x => x.ld == ld && x.pasid == pasid && x.vpn == vpn) = some x)
    (hstale : x.stale = false) (ans : XAns) :
    exec (.translationCompletion ld pasid vpn ans) s = .next ((s.completed ld pasid vpn x ans).wakeXlate ld pasid vpn) := by
  change execTranslationCompletion ld pasid vpn ans s = _
  rw [execTranslationCompletion, hx]
  dsimp only
  rw [hstale]
  cases ans <;> rfl

theorem exec_translationCompletion_stale (hx : s.xreqs.find? (fun x => x.ld == ld && x.pasid == pasid && x.vpn == vpn) = some x)
    (hstale : x.stale = true) (ans : XAns) :
    exec (.translationCompletion ld pasid vpn ans) s = .next ((s.answered x).wakeXlate ld pasid vpn) := by
  change execTranslationCompletion ld pasid vpn ans s = _
  rw [execTranslationCompletion, hx]
  dsimp only
  rw [hstale]
  rfl

end

/-- A thread of a slot when a page's answer has come. -/
def State.woken (s : State) (ld pasid vpn k : Nat) (t : Thread) : Thread :=
  if t.hold == .xlate vpn && s.ldOf (s.partOf k) == ld && bits (s.part (s.partOf k)).trc 43 20 == pasid then { t with hold := .none } else t

theorem State.wakeXlate_threads (s : State) (ld pasid vpn : Nat) :
    (s.wakeXlate ld pasid vpn).threads = s.threads.map fun (e : Nat × Thread) => (e.1, s.woken ld pasid vpn e.1 e.2) := rfl

/-- A thread that waits for a page goes on. -/
theorem State.wakeXlate_thread? {s : State} {ld pasid vpn k : Nat} {t : Thread} (ht : s.thread? k = some t) (hhold : t.hold = .xlate vpn)
    (hld : s.ldOf (s.partOf k) = ld) (hp : bits (s.part (s.partOf k)).trc 43 20 = pasid) :
    (s.wakeXlate ld pasid vpn).thread? k = some { t with hold := .none } := by
  rw [State.thread?, State.wakeXlate_threads,
    SMap.find?_map (fun (e : Nat × Thread) => (e.1, s.woken ld pasid vpn e.1 e.2)) fun _ => rfl,
    show SMap.find? s.threads k = some t from ht, Option.map_some, State.woken, if_pos (by simp [hhold, hld, hp])]

theorem State.completed_granted {s : State} {ld pasid vpn frame : Nat} {w : Bool} {x : XReq}
    (h : w = true ∨ ∀ q ∈ x.waiters, q.2 = false) : s.completed ld pasid vpn x (.granted frame true w)
      = (s.answered x).withAtc ⟨ld, pasid, vpn, frame, w⟩ := by
  have hw : (w || x.waiters.all (fun q => !q.2)) = true := by
    rcases h with rfl | h
    · rfl
    · rw [List.all_eq_true.2 fun q hq => by rw [h q hq]; rfl, Bool.or_true]
  rw [State.completed, if_neg (by decide), if_pos hw]
  rfl

/-- An answer that denies an access leaves no entry of the page, and no request. -/
theorem AnswerFrame.completed {s s' : State} {ld pasid vpn : Nat} {x : XReq} (h : AnswerFrame ((s.answered x).withoutAtc ld pasid vpn) s') :
    (∀ a, a ∈ (s'.wakeXlate ld pasid vpn).atc ↔ a ∈ s.atc ∧ ¬ (a.ld = ld ∧ a.pasid = pasid ∧ a.vpn = vpn))
      ∧ x ∉ (s'.wakeXlate ld pasid vpn).xreqs := by
  rw [h]
  exact ⟨fun a => State.mem_withoutAtc, s.not_mem_answered x⟩

/-! ### Invalidations -/

/-- The first of a list that meets a condition, where all before it fail it. -/
theorem findIdx?_of_split {α : Type} {P : α → Bool} {pre rest : List α} {l : α} (hpre : ∀ q ∈ pre, P q = false) (hl : P l = true) :
    (pre ++ l :: rest).findIdx? P = some pre.length := by
  rw [List.findIdx?_append, List.findIdx?_eq_none_iff.2 hpre, Option.none_or, List.findIdx?_cons, hl]
  simp

/-! ### The heat table -/

theorem State.part_of_parts {s s' : State} (h : s'.parts = s.parts) (p : Nat) : s'.part p = s.part p := by
  rw [State.part, h, State.part]

theorem CacheFrame.parts {s s' : State} (h : CacheFrame s s') : s'.parts = s.parts := by
  unfold CacheFrame at h
  rw [h]

theorem CacheFrame.l2Key {s s' : State} (h : CacheFrame s s') (a : Acc) : s'.l2Key a = s.l2Key a := by
  rw [h]
  rfl

/-- The data of the lines in the slices. -/
def State.l2Data (s : State) (k : Nat) : Option (List Byte) := (s.l2.find? k).map (·.data)

theorem State.capLast_l2Data (s : State) (k j : Nat) : (s.capLast k).l2Data j = s.l2Data j := by
  rw [State.capLast]
  split
  · rfl
  · split
    · rfl
    · next i _ =>
      rw [State.l2Data, State.l2Data]
      dsimp only
      by_cases hj : j = i
      · subst hj
        rw [SMap.find?_upd_same, Option.map_map]
        rfl
      · rw [SMap.find?_upd_other _ _ _ _ hj]

/-- An access to a line that is in its slice changes no data. -/
theorem State.enter_l2Data {s : State} {a : Acc} {ln : L2Line} (h : s.l2.find? (s.l2Key a) = some ln) (j : Nat) :
    (s.enter a).1.l2Data j = s.l2Data j := by
  rw [State.enter]
  dsimp only
  rw [h]
  dsimp only
  rw [State.capLast_l2Data, State.l2Data, State.l2Data]
  dsimp only
  by_cases hj : j = s.l2Key a
  · subst hj
    rw [SMap.find?_put_same, h]
    rfl
  · rw [SMap.find?_put_other _ _ _ _ hj]

/-- Bytes stored in a line that is in its slice: its data, and those of every other line. -/
theorem State.poke_l2Data {s : State} {a : Acc} {ln : L2Line} (h : s.l2.find? (s.l2Key a) = some ln) (bs : List Byte) (j : Nat) :
    (s.poke a bs).l2Data j = if j = s.l2Key a
      then some (ln.data.take (a.pa % 128) ++ bs ++ ln.data.drop (a.pa % 128 + bs.length)) else s.l2Data j := by
  have hent := State.enter_l2Data h (s.l2Key a)
  rw [State.l2Data, State.l2Data, h, Option.map_some, Option.map_eq_some_iff] at hent
  obtain ⟨ln1, hln1, hdata⟩ := hent
  rw [State.poke]
  dsimp only
  rw [show ((s.enter a).1.dropCode a.pa).l2 = (s.enter a).1.l2 from rfl, hln1]
  dsimp only
  rw [State.l2Data]
  dsimp only
  by_cases hj : j = s.l2Key a
  · subst hj
    rw [SMap.find?_put_same, if_pos rfl, Option.map_some, hdata]
  · rw [SMap.find?_put_other _ _ _ _ hj, if_neg hj, ← State.enter_l2Data h j]
    rfl

theorem State.peekLine_of_l2Data {s : State} {a : Acc} {d : List Byte} (h : s.l2Data (s.l2Key a) = some d) : s.peekLine a = d := by
  obtain ⟨ln, hln, rfl⟩ := Option.map_eq_some_iff.1 h
  rw [State.peekLine, hln]

theorem leNat_eq_bytesNat (bs : List Byte) : leNat bs = bytesNat bs := by
  induction bs with
  | nil => rfl
  | cons b bs ih => rw [leNat, bytesNat, ih]

/-- The bytes of a line have one place in a slice. -/
theorem State.l2Key_within (s : State) (p : Nat) {la i : Nat} (hla : la % 128 = 0) (hi : i < 128) :
    s.l2Key (Acc.plain p (la + i)) = s.l2Key (Acc.plain p la) := by
  have hline : lineOf (la + i) = lineOf la := by
    rw [lineOf, lineOf]
    omega
  have hhbm : inHbm (la + i) = inHbm la := by
    rw [inHbm, inHbm]
    exact decide_eq_decide.2 (by omega)
  have hslice : s.sliceOf p (la + i) = s.sliceOf p la := by
    rw [State.sliceOf, State.sliceOf, hhbm, show (la + i) / 0x180000000 = la / 0x180000000 by omega, show (la + i) / 128 = la / 128 by omega]
  rw [State.l2Key, State.l2Key]
  change s.sliceOf p (la + i) * 2 ^ 52 + lineOf (la + i) = s.sliceOf p la * 2 ^ 52 + lineOf la
  rw [hline, hslice]

/-- One byte of a line as the heat table reads it. -/
theorem State.heatByte_of_l2Data {s : State} {p la i : Nat} {d : List Byte} (hlost : (s.part p).heatLost = false)
    (hla : ((s.part p).heatBase + la) % 128 = 0) (hi : i < 128) (hlen : d.length = 128)
    (h : s.l2Data (s.l2Key (Acc.plain p ((s.part p).heatBase + la))) = some d) :
    s.heatByte p (la + i) = (d.getD i 0).toNat := by
  have hmod : ((s.part p).heatBase + la + i) % 128 = i := by omega
  rw [State.heatByte, hlost, if_neg Bool.false_ne_true, State.peek, ← Nat.add_assoc]
  rw [State.peekLine_of_l2Data (d := d) (by rw [State.l2Key_within s p hla hi]; exact h)]
  change leNat ((d.drop (((s.part p).heatBase + la + i) % 128)).take 1) = _
  have hlt : i < d.length := hlen ▸ hi
  rw [hmod, List.drop_eq_getElem_cons hlt, List.getD_eq_getElem _ _ hlt]
  exact Nat.add_zero _

/-- The halvings that a line of the heat table owes. -/
def State.heatOwed (s : State) (p line : Nat) : Nat :=
  (s.time / (s.part p).heatH + 2 ^ 16 - leNat (s.peek (Acc.plain p ((s.part p).heatBase + 0x1800000 + 2 * line)) 2)) % 2 ^ 16

/-- A line of the heat table with its bytes halved. -/
def State.heatHalved (s : State) (p line : Nat) : List Byte :=
  (s.peek (Acc.plain p ((s.part p).heatBase + 128 * line)) 128).map fun b => BitVec.ofNat 8 (halve (min (s.heatOwed p line) 8) b.toNat)

theorem State.heatSettle_eq {s : State} {p line : Nat} (hlost : (s.part p).heatLost = false) : s.heatSettle p (128 * line) =
    if s.heatOwed p line = 0 then s
    else (s.poke (Acc.plain p ((s.part p).heatBase + 128 * line)) (s.heatHalved p line)).poke
      (Acc.plain p ((s.part p).heatBase + 0x1800000 + 2 * line)) (leBytes 2 (s.time / (s.part p).heatH % 2 ^ 16)) := by
  have hline : 128 * line / 128 = line := Nat.mul_div_cancel_left _ (by decide)
  rw [State.heatSettle, hlost, hline, Nat.mul_comm line 128]
  rfl

/-- A line of the heat table and the line with its epoch have different places. -/
theorem State.heat_l2Key_ne (s : State) {p base line : Nat} (hbase : base % 2 ^ 25 = 0) (hb : base < 2 ^ 52) (hline : line < 0x30000) :
    s.l2Key (Acc.plain p (base + 128 * line)) ≠ s.l2Key (Acc.plain p (base + 0x1800000 + 2 * line)) := by
  rw [State.l2Key, State.l2Key]
  change s.sliceOf p (base + 128 * line) * 2 ^ 52 + lineOf (base + 128 * line)
    ≠ s.sliceOf p (base + 0x1800000 + 2 * line) * 2 ^ 52 + lineOf (base + 0x1800000 + 2 * line)
  generalize s.sliceOf p (base + 128 * line) = x
  generalize s.sliceOf p (base + 0x1800000 + 2 * line) = y
  rw [lineOf, lineOf]
  intro h
  have hmod := congrArg (· % 2 ^ 52) h
  simp only [Nat.mul_add_mod_self_right] at hmod
  rw [Nat.mod_eq_of_lt (by omega), Nat.mod_eq_of_lt (by omega)] at hmod
  omega

/-- The heat of a line's frames after its halvings, where the line and its epoch are in the slices. -/
theorem State.heatSettle_heatByte {s : State} {p line i : Nat} {ln le : L2Line} (hlost : (s.part p).heatLost = false) (hline : line < 0x30000)
    (hln : s.l2.find? (s.l2Key (Acc.plain p ((s.part p).heatBase + 128 * line))) = some ln) (hlen : ln.data.length = 128)
    (hle : s.l2.find? (s.l2Key (Acc.plain p ((s.part p).heatBase + 0x1800000 + 2 * line))) = some le) (hi : i < 128) :
    (s.heatSettle p (128 * line)).heatByte p (128 * line + i) = s.heatByte p (128 * line + i) / 2 ^ min (s.heatOwed p line) 8 := by
  have hb25 : (s.part p).heatBase % 2 ^ 25 = 0 := Nat.mul_mod_left _ _
  have hb : (s.part p).heatBase < 2 ^ 52 := by
    have := Nat.mod_lt ((s.part p).htc.toNat / 2 ^ 25) (show 0 < 2 ^ 27 by decide)
    rw [Partition.heatBase, bits]
    omega
  have hla : ((s.part p).heatBase + 128 * line) % 128 = 0 := by omega
  have hdata : s.l2Data (s.l2Key (Acc.plain p ((s.part p).heatBase + 128 * line))) = some ln.data := by rw [State.l2Data, hln]; rfl
  rw [State.heatByte_of_l2Data hlost hla hi hlen hdata, State.heatSettle_eq hlost]
  split
  · next h0 =>
    rw [State.heatByte_of_l2Data hlost hla hi hlen hdata, h0]
    exact (Nat.div_one _).symm
  · next h0 =>
    have hpeek : s.peek (Acc.plain p ((s.part p).heatBase + 128 * line)) 128 = ln.data := by
      rw [State.peek, State.peekLine_of_l2Data hdata]
      change (ln.data.drop (((s.part p).heatBase + 128 * line) % 128)).take 128 = _
      rw [hla, List.drop_zero, List.take_of_length_le hlen.le]
    have hhalved : (s.heatHalved p line).length = 128 := by rw [State.heatHalved, List.length_map, hpeek, hlen]
    have hpoke1 := State.poke_l2Data hln (s.heatHalved p line)
    obtain ⟨s1, hs1⟩ : ∃ s1, s1 = s.poke (Acc.plain p ((s.part p).heatBase + 128 * line)) (s.heatHalved p line) := ⟨_, rfl⟩
    rw [← hs1] at hpoke1 ⊢
    have hframe : CacheFrame s s1 := hs1 ▸ s.poke_cacheFrame _ _
    have hkne := s.heat_l2Key_ne (p := p) hb25 hb hline
    obtain ⟨le1, hle1⟩ : ∃ le1, s1.l2.find? (s1.l2Key (Acc.plain p ((s.part p).heatBase + 0x1800000 + 2 * line))) = some le1 := by
      have h := hpoke1 (s.l2Key (Acc.plain p ((s.part p).heatBase + 0x1800000 + 2 * line)))
      rw [if_neg hkne.symm, State.l2Data, State.l2Data, hle, Option.map_some, Option.map_eq_some_iff] at h
      obtain ⟨le1, hle1, -⟩ := h
      exact ⟨le1, by rw [hframe.l2Key]; exact hle1⟩
    have hpoke2 := State.poke_l2Data hle1 (leBytes 2 (s.time / (s.part p).heatH % 2 ^ 16))
    obtain ⟨s2, hs2⟩ : ∃ s2, s2 = s1.poke (Acc.plain p ((s.part p).heatBase + 0x1800000 + 2 * line))
      (leBytes 2 (s.time / (s.part p).heatH % 2 ^ 16)) := ⟨_, rfl⟩
    rw [← hs2] at hpoke2 ⊢
    have hframe2 : CacheFrame s s2 := hframe.trans (hs2 ▸ s1.poke_cacheFrame _ _)
    have hpart : s2.part p = s.part p := State.part_of_parts hframe2.parts p
    have hdata2 : s2.l2Data (s2.l2Key (Acc.plain p ((s2.part p).heatBase + 128 * line))) = some (s.heatHalved p line) := by
      rw [hpart, hframe2.l2Key, hpoke2, if_neg (by rw [hframe.l2Key]; exact hkne), hpoke1, if_pos rfl]
      change some (ln.data.take (((s.part p).heatBase + 128 * line) % 128) ++ s.heatHalved p line
        ++ ln.data.drop (((s.part p).heatBase + 128 * line) % 128 + (s.heatHalved p line).length)) = _
      rw [hla, hhalved, List.take_zero, List.nil_append, List.drop_of_length_le (by omega), List.append_nil]
    rw [State.heatByte_of_l2Data (hpart ▸ hlost) (hpart ▸ hla) hi hhalved hdata2, State.heatHalved, hpeek]
    have hlt : i < ln.data.length := hlen ▸ hi
    rw [List.getD_eq_getElem _ _ (by rwa [List.length_map]), List.getElem_map, List.getD_eq_getElem _ _ hlt, BitVec.toNat_ofNat, halve]
    refine Nat.mod_eq_of_lt ((Nat.div_le_self _ _).trans_lt (BitVec.isLt _))

theorem mem_setBitsOf {w n i : Nat} {v : BitVec w} : i ∈ setBitsOf v n ↔ i < n ∧ v.getLsbD i = true := by
  rw [setBitsOf, List.mem_filter, List.mem_range]

theorem State.loseHeat_cacheFrame (s : State) (p : Nat) : CacheFrame s (s.loseHeat p) :=
  .foldl (fun s _ => (s.takeFresh_cacheFrame 128).trans ((s.takeFresh 128).poke_cacheFrame _ _)) _ s

/-- Counters of slices, all loaded with one value. -/
theorem State.foldl_heat (n : Nat) (l : List Nat) (s : State) :
    (l.foldl (fun s sl => { s with heat := s.heat.put sl n }) s).parts = s.parts
      ∧ ∀ sl ∈ l, SMap.find? (l.foldl (fun s sl => { s with heat := s.heat.put sl n }) s).heat sl = some n := by
  have kept (l : List Nat) (s : State) (sl : Nat) (h : SMap.find? s.heat sl = some n) :
      SMap.find? (l.foldl (fun s sl => { s with heat := s.heat.put sl n }) s).heat sl = some n := by
    induction l generalizing s with
    | nil => exact h
    | cons x l ih =>
      refine ih _ ?_
      by_cases hx : sl = x
      · subst hx
        exact SMap.find?_put_same _ _ _
      · exact (SMap.find?_put_other _ _ _ _ hx).trans h
  induction l generalizing s with
  | nil => exact ⟨rfl, fun sl h => nomatch h⟩
  | cons x l ih =>
    refine ⟨(ih _).1, fun sl h => ?_⟩
    rcases List.mem_cons.1 h with rfl | h
    · exact kept l _ _ (SMap.find?_put_same _ _ _)
    · exact (ih _).2 sl h

/-- A partition's HTC written. -/
def Partition.wroteHtc (p : Partition) (v : DWord) : Partition :=
  { p with
    htc := keep v [(63, 1), (25, 27), (12, 4), (0, 4)], heatLost := p.heatOn && (p.heatLost || bits p.htc 0 4 != bits v 0 4) }

theorem Partition.wroteHtc_slices (p : Partition) (v : DWord) : (p.wroteHtc v).slices = p.slices := by rw [Partition.wroteHtc]

/-- The state once HTC is written, before the slices load their counters. -/
def State.htcSet (s : State) (p : Nat) (v : DWord) : State :=
  if (s.part p).heatOn && bits (s.part p).htc 0 4 != bits v 0 4 then (s.updPart p fun q => q.wroteHtc v).loseHeat p
  else s.updPart p fun q => q.wroteHtc v

theorem State.writeHtc_eq (s : State) (p : Nat) (v : DWord) : s.writeHtc p v
    = (setBitsOf ((s.htcSet p v).part p).slices 64).foldl (fun z sl => { z with heat := z.heat.put sl ((s.htcSet p v).part p).heatP })
      (s.htcSet p v) := rfl

theorem State.htcSet_part (s : State) (p : Nat) (v : DWord) : (s.htcSet p v).part p = (s.part p).wroteHtc v := by
  rw [State.htcSet]
  split
  · exact (State.part_of_parts (State.loseHeat_cacheFrame _ _).parts p).trans (State.part_updPart_same _ _ _)
  · exact State.part_updPart_same _ _ _

theorem State.writeHtc_part (s : State) (p : Nat) (v : DWord) : (s.writeHtc p v).part p = (s.part p).wroteHtc v := by
  refine (State.part_of_parts ?_ p).trans (s.htcSet_part p v)
  rw [State.writeHtc_eq]
  exact (State.foldl_heat _ _ _).1

theorem State.writeHtc_heat (s : State) (p : Nat) (v : DWord) {sl : Nat} (hsl : sl < 64) (hb : (s.part p).slices.getLsbD sl = true) :
    SMap.find? (s.writeHtc p v).heat sl = some ((s.part p).wroteHtc v).heatP := by
  have hmem : sl ∈ setBitsOf ((s.htcSet p v).part p).slices 64 := by
    rw [s.htcSet_part p v, Partition.wroteHtc_slices]
    exact mem_setBitsOf.2 ⟨hsl, hb⟩
  rw [State.writeHtc_eq, ← s.htcSet_part p v]
  exact (State.foldl_heat _ _ _).2 sl hmem

/-- What a TLBI word keeps. -/
def tlbiWord (v : DWord) : DWord := keep v [(57, 7), (0, 43)]

/-- What a page request's word keeps. -/
def priWord (v : DWord) : DWord := keep v [(62, 2), (0, 52)]

theorem tlbiWord_masked (v : DWord) (i : Nat) : (tlbiWord v).getLsbD i = (v.getLsbD i && decide (i < 43 ∨ (57 ≤ i ∧ i < 64))) := by
  refine keep_masked (l := [(57, 7), (0, 43)]) (P := fun i => decide (i < 43 ∨ (57 ≤ i ∧ i < 64))) v (by decide) (fun i => ?_) i
  simp only [decide_eq_true_eq, List.mem_cons, List.not_mem_nil, or_false, exists_eq_or_imp, exists_eq_left]
  omega

theorem priWord_masked (v : DWord) (i : Nat) : (priWord v).getLsbD i = (v.getLsbD i && decide (i < 52 ∨ (62 ≤ i ∧ i < 64))) := by
  refine keep_masked (l := [(62, 2), (0, 52)]) (P := fun i => decide (i < 52 ∨ (62 ≤ i ∧ i < 64))) v (by decide) (fun i => ?_) i
  simp only [decide_eq_true_eq, List.mem_cons, List.not_mem_nil, or_false, exists_eq_or_imp, exists_eq_left]
  omega

theorem htcWord_masked (v : DWord) (i : Nat) : (keep v [(63, 1), (25, 27), (12, 4), (0, 4)]).getLsbD i
    = (v.getLsbD i && decide (i < 4 ∨ (12 ≤ i ∧ i < 16) ∨ (25 ≤ i ∧ i < 52) ∨ i = 63)) := by
  refine keep_masked (P := fun i => decide (i < 4 ∨ (12 ≤ i ∧ i < 16) ∨ (25 ≤ i ∧ i < 52) ∨ i = 63)) v (by decide) (fun i => ?_) i
  simp only [decide_eq_true_eq, List.mem_cons, List.not_mem_nil, or_false, exists_eq_or_imp, exists_eq_left]
  omega

/-- The group of a page request that is sent or selected. -/
theorem priGroup_priWord (v : DWord) : priGroup (priWord v) = priGroup v := by
  have hlow (w : DWord) : priGroup w = (w.extractLsb' 43 9).toNat := bits_eq w 43 9
  rw [hlow, hlow]
  congr 1
  refine BitVec.eq_of_getLsbD_eq fun i hi => ?_
  rw [BitVec.getLsbD_extractLsb', BitVec.getLsbD_extractLsb', priWord_masked]
  simp [hi]
  omega

/-- A partition whose page request for a group is sent, or not. -/
def Partition.priSent (q : Partition) (v : DWord) (beyond : Bool) : Partition :=
  if q.priPend.contains (priGroup v) || beyond then { q with prireq := priWord v }
  else { q with prireq := priWord v, priPend := q.priPend ++ [priGroup v], priAns := q.priAns.erase (priGroup v) }

/-- The state of a page request that is sent, or not. -/
def State.priSent (s : State) (p : Nat) (v : DWord) : State := s.updPart p fun q => q.priSent v (s.priBeyond p (priGroup v))

theorem State.priSent_part (s : State) (p : Nat) (v : DWord) :
    (s.priSent p v).part p = (s.part p).priSent v (s.priBeyond p (priGroup v)) := State.part_updPart_same _ _ _

/-- The halvings owed by a line, in the terms of the table's registers. -/
theorem State.heatOwed_eq (s : State) (p line : Nat) : s.heatOwed p line
    = (s.time / (2 ^ min 10 ((s.part p).htc.toNat % 16) * 1000000) + 2 ^ 16
      - bytesNat (s.peek (Acc.plain p ((s.part p).htc.toNat / 2 ^ 25 % 2 ^ 27 * 2 ^ 25 + 0x1800000 + 2 * line)) 2)) % 2 ^ 16 := by
  rw [State.heatOwed, leNat_eq_bytesNat, Partition.heatH, Partition.heatBase, bits, bits, Nat.pow_zero, Nat.div_one,
    show 2 ^ 4 = 16 from rfl]

/-- The epoch of a written HTC, and whether HLOG is changed. -/
theorem bits_ne_iff (v w : DWord) (lo len : Nat) : (bits v lo len != bits w lo len) = (v.extractLsb' lo len != w.extractLsb' lo len) := by
  rw [bits_eq, bits_eq, Bool.eq_iff_iff, bne_iff_ne, bne_iff_ne, ne_eq, ne_eq, BitVec.toNat_inj]

theorem State.heatTaken_parts (s : State) (p : Nat) : (s.heatTaken p).parts = s.parts := by
  rw [State.heatTaken]
  split <;> rfl

/-- Settles O42: rule by rule. -/
theorem translationsFollow : Obligations.TranslationsFollow := by
  unfold Obligations.TranslationsFollow
  intro range masked tl pri only grp gone
  have hrange : range = tlbiRange := funext fun v => (tlbiRange_eq v).symm
  clear_value range
  subst hrange
  refine ⟨fun p v => ⟨fun s h => ?_, fun s h => ?_⟩, fun p => ?_, fun ld pasid vpn frame k w x t => ?_, fun ld pasid vpn k ans x t b hans => ?_,
    fun ld pasid vpn frame k x t b => ?_, fun ld pasid vpn ans x => ?_, fun ld pasid vpn log => ?_, fun ld l pre rest => ?_, fun p v => ?_,
    fun p g ans => ?_, fun p v s _ => ?_, fun p line ln le => ?_, fun p line => ?_, fun p s _ => ?_⟩
  · refine ⟨_, rfl, tlbiWord v, tlbiWord_masked v, (State.part_updPart_same _ _ _).trans (if_neg ?_), rfl⟩
    rw [h]
    exact Bool.false_ne_true
  · refine ⟨_, rfl, tlbiWord v, tlbiWord_masked v, (State.part_updPart_same _ _ _).trans (if_pos h), rfl⟩
  · rintro s ⟨hb, hq, hr, hops⟩
    refine ⟨_, exec_tlbiComplete hb (State.usesRange_of_apart hops) hq hr, (State.part_updPart_same _ _ _).trans ?_, fun e he hp => ?_,
      fun e he hp => ?_⟩
    · exact Partition.tlbiDone_of hq
    · have hdrop := (List.mem_filter.1 he).2
      rw [hp, beq_self_eq_true, Bool.true_and, Bool.not_eq_true', meet_eq_false] at hdrop
      exact hdrop
    · exact List.mem_filter.2 ⟨he, by rw [beq_eq_false_iff_ne.2 hp]; rfl⟩
  · rintro s ⟨hx, hstale, hw, ht, hhold, hld, hp⟩
    have hans' : s.completed ld pasid vpn x (.granted frame true w) = (s.answered x).withAtc ⟨ld, pasid, vpn, frame, w⟩ :=
      State.completed_granted hw
    refine ⟨((s.answered x).withAtc ⟨ld, pasid, vpn, frame, w⟩).wakeXlate ld pasid vpn,
      (exec_translationCompletion hx hstale _).trans (by rw [hans']), ?_, s.not_mem_answered x, ?_, ?_, State.wakeXlate_thread? ht hhold hld ((bits_eq _ _ _).trans hp)⟩
    · exact List.mem_append_right _ List.mem_cons_self
    · intro a ha hald hap hav
      rcases List.mem_append.1 ha with ha | ha
      · exact absurd ⟨hald, hap, hav⟩ (State.mem_withoutAtc.1 ha).2
      · exact List.mem_singleton.1 ha
    · intro a ha hne
      refine List.mem_append_left _ (State.mem_withoutAtc.2 ⟨ha, ?_⟩)
      rintro ⟨rfl, rfl, rfl⟩
      simp at hne
  · rintro s ⟨hx, hstale, ht, hhold, hk⟩
    have hans' : s.completed ld pasid vpn x ans
        = ((s.answered x).withoutAtc ld pasid vpn).giveAll x.waiters ⟨vpn, decide (ans = .refused), none⟩ := by
      cases ans with
      | refused => rfl
      | granted frame r w =>
        obtain rfl : r = false := hans
        rfl
    refine ⟨_, (exec_translationCompletion hx hstale ans).trans (by rw [hans']), ?_, ?_, ?_⟩
    · exact (State.giveAll_frame _ _ _).completed.1
    · exact (State.giveAll_frame _ _ _).completed.2
    · exact State.giveAll_mem (x := ⟨vpn, decide (ans = .refused), none⟩) ⟨t, ht, hhold⟩ hk
  · rintro s ⟨hx, hstale, ht, hhold, hk, hnot, q, hq, hq2⟩
    have hno : (false || x.waiters.all fun q => !q.2) = false := by
      rw [Bool.false_or]
      exact List.all_eq_false.2 ⟨q, hq, by rw [hq2]; decide⟩
    have hans' : s.completed ld pasid vpn x (.granted frame true false)
        = (((s.answered x).withoutAtc ld pasid vpn).giveAll (x.waiters.filter (fun q => !q.2)) ⟨vpn, false, some frame⟩).giveAll
          (x.waiters.filter (·.2)) ⟨vpn, false, none⟩ := by
      rw [State.completed, if_neg (by decide), if_neg (by rw [hno]; decide)]
    have hframe := (State.giveAll_frame ((s.answered x).withoutAtc ld pasid vpn) (x.waiters.filter (fun q => !q.2)) ⟨vpn, false, some frame⟩)
    have hwait : ((s.answered x).withoutAtc ld pasid vpn).awaits k vpn := ⟨t, ht, hhold⟩
    refine ⟨_, (exec_translationCompletion hx hstale _).trans (by rw [hans']), ?_, ?_, ?_⟩
    · exact (hframe.trans (State.giveAll_frame _ _ _)).completed.1
    · exact (hframe.trans (State.giveAll_frame _ _ _)).completed.2
    · cases b with
      | true => exact State.giveAll_mem (x := ⟨vpn, false, none⟩) (hframe.awaits hwait) (List.mem_filter.2 ⟨hk, rfl⟩)
      | false =>
        refine State.mem_giveAll (x := ⟨vpn, false, none⟩) (hframe.awaits hwait) (.inr fun w hw hlane => hnot ?_)
          (State.giveAll_mem (x := ⟨vpn, false, some frame⟩) hwait (List.mem_filter.2 ⟨hk, rfl⟩))
        obtain ⟨hmem, hw2⟩ := List.mem_filter.1 hw
        obtain ⟨who, c⟩ := w
        obtain rfl : who = .lane k := hlane
        obtain rfl : c = true := hw2
        exact hmem
  · rintro s ⟨hx, hstale⟩
    exact ⟨_, exec_translationCompletion_stale hx hstale ans, rfl, s.not_mem_answered x⟩
  · rintro covers s -
    refine ⟨_, rfl, fun a => ?_, fun y hy hld hc => ?_, _, congrArg LDev.invs (State.ld_updLd_same _ _ _), fun o ho => ?_⟩
    · refine List.mem_filter.trans (and_congr_right fun _ => ?_)
      simp only [Bool.not_eq_true', ← Bool.not_eq_true, Bool.and_eq_true, beq_iff_eq, covers]
    · obtain ⟨z, -, rfl⟩ := List.mem_map.1 hy
      by_cases hz : (z.ld == ld && (z.pasid == pasid && z.vpn / 2 ^ log == vpn / 2 ^ log)) = true
      · rw [if_pos hz]
      · rw [if_neg hz] at hld hc
        exact absurd (by simpa only [Bool.and_eq_true, beq_iff_eq] using ⟨hld, hc⟩) hz
    · rw [State.usersOf, List.mem_map]
      refine exists_congr fun q => ?_
      rw [List.mem_filter, and_assoc, and_comm (b := q.id = o.id)]
      refine and_congr_right fun _ => and_congr_right fun _ => ?_
      cases hplace : q.place with
      | host d h =>
        simp only [List.any_eq_true, List.mem_filter, Bool.and_eq_true, beq_iff_eq, bits_eq, Place.host.injEq, covers, and_assoc]
        constructor
        · rintro ⟨a, ha, hald, hcp, hcv, hd, hp, hv, hf⟩
          exact ⟨d, h, rfl, rfl, a, ha, hald, hcp, hcv, hd, hp, hv, hf⟩
        · rintro ⟨d', h', rfl, rfl, a, ha, hald, hcp, hcv, hd, hp, hv, hf⟩
          exact ⟨a, ha, hald, hcp, hcv, hd, hp, hv, hf⟩
      | dev | rwin | scr | later =>
        refine iff_of_false (by simp) ?_
        rintro ⟨d, h, hh, -⟩
        cases hh
  · rintro s ⟨hinvs, hpre, hl⟩
    have hfind : (s.ld ld).invs.findIdx? (fun l => !s.ops.any (fun (o : Op) => l.contains o.id && o.place != .later)) = some pre.length := by
      rw [hinvs]
      refine findIdx?_of_split (fun q hq => ?_) ?_
      · obtain ⟨o, ho, hoq, hplace⟩ := hpre q hq
        rw [Bool.not_eq_false', List.any_eq_true]
        exact ⟨o, ho, by simp [hoq, hplace]⟩
      · rw [Bool.not_eq_true', List.any_eq_false]
        intro o ho
        rcases hl o ho with h | h <;> simp [h]
    refine ⟨s.updLd ld (fun d => { d with invs := d.invs.eraseIdx pre.length }), ?_, ?_, rfl⟩
    · change execInvalidationCompletion ld s = _
      rw [execInvalidationCompletion, hfind]
    · refine (congrArg LDev.invs (State.ld_updLd_same _ _ _)).trans ?_
      dsimp only
      rw [hinvs, List.eraseIdx_append_of_length_le le_rfl, Nat.sub_self]
      rfl
  · have hgrp : grp v = priGroup v := (bits_eq v 43 9).symm
    rw [hgrp]
    refine ⟨fun s h => ?_, fun s h => ?_, fun s h => ?_, fun s _ => ?_⟩
    · obtain ⟨hnew, halloc⟩ := h
      have hno : ((s.part p).priPend.contains (priGroup v) || s.priBeyond p (priGroup v)) = false := by
        simp [hnew, State.priBeyond, halloc]
      have hpart := s.priSent_part p v
      rw [Partition.priSent, hno, if_neg Bool.false_ne_true] at hpart
      refine ⟨s.priSent p v, rfl, priWord v, priWord_masked v, ⟨?_, rfl⟩, ?_⟩
      · rw [hpart]
      · rw [hpart]
        exact SMap.find?_erase_same _ _
    · refine ⟨_, rfl, priWord v, priWord_masked v, (State.part_updPart_same _ _ _).trans (if_pos ?_), rfl⟩
      simp [h]
    · have hbeyond : s.priBeyond p (priGroup v) = true := decide_eq_true h
      have hpart := s.priSent_part p v
      rw [Partition.priSent, hbeyond, Bool.or_true, if_pos rfl] at hpart
      refine ⟨s.priSent p v, rfl, ⟨priWord v, priWord_masked v, hpart, rfl⟩, if_pos ?_⟩
      rw [hpart, State.priBeyond, State.ldOf, hpart]
      dsimp only
      rw [priGroup_priWord]
      exact hbeyond
    · exact ⟨_, rfl, priWord v, priWord_masked v, State.part_updPart_same _ _ _, rfl⟩
  · rintro s hg
    refine ⟨_, if_neg (by simp [hg]), ?_, ?_⟩
    · rw [State.part_updPart_same]
      simp
    · rw [State.part_updPart_same]
      refine (SMap.find?_put_same _ _ _).trans ?_
      cases ans <;> rfl
  · refine ⟨_, rfl, ⟨_, htcWord_masked v, (s.writeHtc_part p v).trans ?_⟩, fun sl hsl hb => (s.writeHtc_heat p v hsl hb).trans ?_⟩
    · rw [Partition.wroteHtc, bits_ne_iff]
      rfl
    · rw [Partition.wroteHtc, Partition.heatP, bits_eq, keep_field v (by decide) (by decide)]
  · rintro base owed s ⟨hon, hlost, hline, -, hln, hlen, hle, -⟩
    have hbase : base s = (s.part p).heatBase := by rw [Partition.heatBase, bits]
    have howed : owed s = s.heatOwed p line := by rw [State.heatOwed_eq]
    rw [hbase] at hln hle
    refine ⟨s.heatSettle p (128 * line), ?_, fun i hi => ?_⟩
    · change execHeatSweep p line s = _
      rw [execHeatSweep, Partition.heatOn, bit, hon, decide_eq_true hline, Bool.true_or]
      exact congrArg Host.Outcome.next (if_pos rfl)
    · rw [howed]
      exact State.heatSettle_heatByte hlost hline hln hlen hle hi
  · rintro s ⟨hoff, hbase⟩
    refine ⟨s, ?_, rfl⟩
    change execHeatSweep p line s = _
    rw [execHeatSweep, Partition.heatOn, bit, hoff, Partition.heatBase, bits, hbase]
    exact congrArg _ (if_neg (by simp))
  · refine ⟨_, rfl, ?_⟩
    dsimp only
    rw [State.part_of_parts (State.heatTaken_parts _ _), State.part_updPart_same, bits, Nat.pow_zero, Nat.div_one]

end Sys2Proof.Machine
end

/-! # The Canopy engine (O51) -/

section
namespace Sys2Proof.Machine

/-! ### Accesses of the engine -/

@[simp] theorem State.unitAccess_control (s : State) (who : Asker) (p va n : Nat) (wr : Option (List Byte)) (counted : Bool) :
    (s.unitAccess who p va n wr counted).1.control = s.control := by
  have ht := s.translate_control who p va (if wr.isSome then .write else .read) true
  rw [State.unitAccess]
  generalize s.translate who p va (if wr.isSome then .write else .read) = r at ht ⊢
  obtain ⟨s1, x⟩ := r
  cases x with
  | ask vpn => exact (s1.askHost_control who p vpn _).trans ht
  | fault c => exact (s1.usedAnswer_control who).trans ht
  | tier10 => exact ht
  | host ld addr => cases wr <;> exact (s1.usedAnswer_control who).trans ht
  | dev pa key comp bix he log =>
    cases wr with
    | some bs => exact ((State.devWrite_control _ _ _).trans (s1.usedAnswer_control who)).trans ht
    | none =>
      refine Eq.trans ?_ (((State.devRead_control (s1.usedAnswer who) ⟨p, pa, key, comp, bix, he && counted, .none, none⟩ n).trans
        (s1.usedAnswer_control who)).trans ht)
      dsimp only
      split <;> rfl

theorem State.canPieces_control (s : State) (k p va : Nat) (wr : Option (List Byte)) (src : Nat) (l : List (Nat × Nat)) (got : List Byte) :
    (s.canPieces k p va wr src l got).1.control = s.control := by
  induction l generalizing s got with
  | nil => rfl
  | cons x l ih =>
    have hu := s.unitAccess_control (.unit 9 k) p (va + x.1) x.2 (wr.map fun bs => (bs.drop x.1).take x.2) false
    rw [State.canPieces]
    generalize s.unitAccess (.unit 9 k) p (va + x.1) x.2 (wr.map fun bs => (bs.drop x.1).take x.2) false = r at hu ⊢
    obtain ⟨s1, y⟩ := r
    cases y with
    | ok bs => exact (ih s1 _).trans hu
    | ask vpn => exact hu
    | fault c =>
      dsimp only
      split
      · exact hu
      · exact (State.report_control _ _ _).trans hu

theorem State.canRead_control (s : State) (o : CanOp) (va n : Nat) : (s.canRead o va n).1.control = s.control := s.canPieces_control ..
theorem State.canWrite_control (s : State) (o : CanOp) (va : Nat) (bs : List Byte) : (s.canWrite o va bs).1.control = s.control :=
  s.canPieces_control ..

theorem State.control_canops {s t : State} (h : t.control = s.control) : t.canops = s.canops := congrArg (fun x => x.canops) h
theorem State.control_redparts {s t : State} (h : t.control = s.control) : t.redparts = s.redparts := congrArg (fun x => x.redparts) h
theorem State.control_can? {s t : State} (h : t.control = s.control) (n : Nat) : t.can? n = s.can? n :=
  congrArg (fun l : List CanOp => l.find? (fun (o : CanOp) => o.id == n)) (State.control_canops h)
theorem State.control_queue {s t : State} (h : t.control = s.control) (j : Nat) : t.queue j = s.queue j :=
  congrArg (fun m : SMap Queue => m.get Queue.reset j) (State.control_queues h)

/-! ### Operations of the engine -/

theorem State.id_of_can? {s : State} {n : Nat} {o : CanOp} (h : s.can? n = some o) : o.id = n := by
  have := List.find?_some h
  simpa using this

theorem State.can?_updCan {s : State} {n : Nat} {o : CanOp} {f : CanOp → CanOp} (h : s.can? n = some o) (hf : ∀ o, o.id = n → (f o).id = n) :
    (s.updCan n f).can? n = some (f o) := by
  have hkey (o : CanOp) : ((if o.id == n then f o else o : CanOp).id == n) = (o.id == n) := by
    split
    · next ho => rw [hf o (eq_of_beq ho), ho, beq_self_eq_true]
    · rfl
  rw [State.can?, State.updCan, List.find?_map]
  simp only [Function.comp_def, hkey]
  rw [show s.canops.find? (fun o => o.id == n) = some o from h, Option.map_some, if_pos (by simp [State.id_of_can? h])]

theorem State.can?_dropCan (s : State) (n : Nat) : (s.dropCan n).can? n = none := by
  refine List.find?_eq_none.2 fun o ho => ?_
  simpa using (List.mem_filter.1 ho).2

/-- The memories and the L2 of a state are those of another. -/
def QuietMem (s s' : State) : Prop := s'.mem = s.mem ∧ s'.host = s.host ∧ s'.l2 = s.l2

/-- A write of an operation that is done leaves the next one, or the operation ends. -/
theorem State.canStep_ok {s s3 : State} {o : CanOp} {w : Nat × List Byte} {rest : List (Nat × List Byte)} {got : List Byte}
    (ho : o.writes = w :: rest) (hw : s.canWrite o w.1 w.2 = (s3, .ok got)) :
    s.canStep o = if rest.isEmpty then s3.dropCan o.id else s3.updCan o.id (fun o => { o with writes := rest }) := by
  rw [State.canStep, ho]
  dsimp only
  rw [hw]

theorem State.canStep_more {s s3 : State} {o : CanOp} {n : Nat} {w w' : Nat × List Byte} {rest : List (Nat × List Byte)} {got : List Byte}
    (hs : s.can? n = some o) (ho : o.writes = w :: w' :: rest) (hw : s.canWrite o w.1 w.2 = (s3, .ok got)) :
    QuietMem s3 (s.canStep o) ∧ (s.canStep o).can? n = some { o with writes := w' :: rest } := by
  obtain rfl := State.id_of_can? hs
  have hc := s.canWrite_control o w.1 w.2
  rw [hw] at hc
  rw [State.canStep_ok ho hw, List.isEmpty_cons, if_neg Bool.false_ne_true]
  exact ⟨⟨rfl, rfl, rfl⟩, State.can?_updCan (f := fun o => { o with writes := w' :: rest }) ((State.control_can? hc _).trans hs) fun _ h => h⟩

theorem State.canStep_last {s s3 : State} {o : CanOp} {n : Nat} {w : Nat × List Byte} {got : List Byte}
    (hs : s.can? n = some o) (ho : o.writes = [w]) (hw : s.canWrite o w.1 w.2 = (s3, .ok got)) :
    QuietMem s3 (s.canStep o) ∧ (s.canStep o).can? n = none := by
  rw [State.canStep_ok ho hw, List.isEmpty_nil, if_pos rfl, State.id_of_can? hs]
  exact ⟨⟨rfl, rfl, rfl⟩, s3.can?_dropCan n⟩

/-- An all-reduce whose participants are one operation ends with a status. -/
theorem State.endMates_alone {s : State} {o : CanOp} {d : List Byte} {n : Nat} (hs : s.can? n = some o) (hm : s.mates o = [o])
    (hc : o.cls = 2) (hd : o.desc = some d) (hh : o.held = none) (st : Nat) :
    QuietMem s (s.endMates o st) ∧ (s.endMates o st).can? n = some { o with writes := [canWord 2 d st] } := by
  have he : s.endMates o st = s.updCan n (fun o => { o with writes := [canWord 2 d st], held := none }) := by
    rw [State.endMates, hm, List.foldl_cons, List.foldl_nil, State.endCan, hd]
    dsimp only
    rw [hc, if_pos (by decide), State.id_of_can? hs]
  rw [he]
  refine ⟨⟨rfl, rfl, rfl⟩, (State.can?_updCan hs (by intro _ h; exact h)).trans ?_⟩
  rw [hh]

/-! ### The rules of the operations -/

section
variable {s : State} {p i j x : Nat} {r : EvRec} {rest : List (Nat × EvRec)}

/-- A record stands at the head of a CANQ stream. -/
def State.canHead (s : State) (p i j x : Nat) (r : EvRec) (rest : List (Nat × EvRec)) : Prop :=
  (s.part p).canStream i = some j ∧ (s.queue j).v = true ∧ (s.queue j).part.toNat = p
    ∧ (s.queue j).cmode = true ∧ (s.queue j).rcnt = 0 ∧ (s.queue j).pool = (x, r) :: rest

/-- The head of a CANQ stream is consumed. -/
def State.canTaken (s : State) (j : Nat) (rest : List (Nat × EvRec)) : State := s.updQueue j fun q => { q with pool := rest }

theorem State.canTaken_queue (s : State) (j : Nat) (rest : List (Nat × EvRec)) :
    (s.canTaken j rest).queue j = { s.queue j with pool := rest } := SMap.get_set_same _ _ _ _

/-- The operation that a record starts. -/
def State.canStarted (s : State) (p j : Nat) (r : EvRec) : CanOp :=
  ⟨s.nextOp, p, (s.part p).resident.getD 0, evClass r - 0x7F00, (r.getD 4 0).toNat + 2 ^ 32 * (r.getD 5 0).toNat, none, s.time, [], none, j⟩

/-- A new operation of the engine. -/
def State.withCan (s : State) (o : CanOp) : State := { s with canops := s.canops ++ [o], nextOp := s.nextOp + 1 }

theorem State.canTaken_refillAll (h : s.canHead p i j x r rest) : RingFrame (s.canTaken j rest) ((s.canTaken j rest).refillAll j) := by
  obtain ⟨-, -, -, -, hr, -⟩ := h
  exact State.refillAll_ringFrame (by rw [s.canTaken_queue]; exact hr)

theorem Queue.pool_of_face {q q' : Queue} (h : q.face = q'.face) : q.pool = q'.pool := by
  simp only [Queue.face, Prod.mk.injEq] at h
  exact h.2.2.2

/-- A queue that a consumer reads, with an empty ring, and its head taken. -/
theorem State.canTaken_pool (h : s.canHead p i j x r rest) : (((s.canTaken j rest).refillAll j).queue j).pool = rest := by
  obtain ⟨-, -, -, hc, hr, -⟩ := h
  have hface := State.refillAll_consumed (s := s.canTaken j rest) (j := j) (by rw [s.canTaken_queue]; exact hc)
    (by rw [s.canTaken_queue]; exact hr) j
  rw [s.canTaken_queue] at hface
  exact Queue.pool_of_face hface

theorem exec_canopyOpStart (h : s.canHead p i j x r rest) : exec (.canopyOpStart p i) s
    = .next (if evClass r ≠ 0x7F01 ∧ evClass r ≠ 0x7F02 then (s.canTaken j rest).refillAll j
      else State.readDesc (((s.canTaken j rest).refillAll j).withCan (s.canStarted p j r)) (s.canStarted p j r)) := by
  have hf := (State.canTaken_refillAll h).1
  obtain ⟨hi, hv, hp, hc, hr, hpool⟩ := h
  change execCanopyOpStart p i s = _
  rw [execCanopyOpStart, hi]
  dsimp only
  rw [State.ownsQueue, hv, hp, hc, if_neg (by simp), hpool]
  obtain ⟨u, hu⟩ : ∃ u, u = (s.canTaken j rest).refillAll j := ⟨_, rfl⟩
  have hu' : State.refillAll (s.updQueue j fun q => { q with pool := rest }) j = u := hu.symm
  rw [← hu] at hf ⊢
  dsimp only
  rw [hu']
  have hn : u.nextOp = s.nextOp := by rw [hf]; rfl
  have ht : u.time = s.time := by rw [hf]; rfl
  rw [State.withCan, State.canStarted, hn, ht]
  split <;> rfl

end

/-- A descriptor that is read and right stays with its operation. -/
theorem State.readDesc_ok {s s2 : State} {o : CanOp} {d : List Byte} (hr : s.canRead o o.daddr 64 = (s2, .ok d)) (hok : canOk o.cls d = true) :
    s.readDesc o = s2.updCan o.id fun o => { o with desc := some d } := by
  rw [State.readDesc, hr]
  dsimp only
  rw [if_pos hok]

/-- Nothing of a queue with an empty ring that a consumer reads, and that is not stuck, is refilled. -/
theorem State.refillAll_idle {s : State} {j : Nat} (hc : (s.queue j).cmode = true) (hr : (s.queue j).rcnt = 0) (hs : (s.queue j).stuck = false) :
    s.refillAll j = s := by
  have hl : s.leaveQ j = s := by
    rw [State.leaveQ]
    exact if_pos (by simp [hc])
  have h0 : (s.queue j).rcnt.toNat = 0 := by rw [hr]; rfl
  rw [State.refillAll, hs, if_neg Bool.false_ne_true, State.settleQ, hl, h0, State.refillQ]
  exact if_pos rfl

theorem canopyOpStart_acts (p i j x : Nat) (r : EvRec) (rest : List (Nat × EvRec)) :
    Happens (.canopyOpStart p i) (fun s => s.canHead p i j x r rest ∧ evClass r ≠ 0x7F01 ∧ evClass r ≠ 0x7F02)
        (fun s s' => (s'.queue j).pool = rest ∧ s' = { s with queues := s'.queues })
      ∧ ∀ (s2 : State) (d : List Byte), Happens (.canopyOpStart p i)
        (fun s => s.canHead p i j x r rest ∧ (s.queue j).stuck = false ∧ (evClass r = 0x7F01 ∨ evClass r = 0x7F02)
          ∧ canOk (evClass r - 0x7F00) d = true
          ∧ State.canRead ((s.canTaken j rest).withCan (s.canStarted p j r)) (s.canStarted p j r) (s.canStarted p j r).daddr 64 = (s2, .ok d))
        fun s s' => QuietMem s2 s' ∧ (s'.queue j).pool = rest ∧ { s.canStarted p j r with desc := some d } ∈ s'.canops := by
  refine ⟨fun s ⟨hh, h1, h2⟩ => ?_, fun s2 d s ⟨hh, hstuck, hc, hok, hread⟩ => ?_⟩
  · refine ⟨_, (exec_canopyOpStart hh).trans (congrArg _ (if_pos ⟨h1, h2⟩)), State.canTaken_pool hh, ?_⟩
    have hf := (State.canTaken_refillAll hh).1
    generalize (s.canTaken j rest).refillAll j = u at hf ⊢
    rw [hf]
    rfl
  · have hidle : (s.canTaken j rest).refillAll j = s.canTaken j rest := by
      obtain ⟨-, -, -, hcm, hr, -⟩ := hh
      refine State.refillAll_idle ?_ ?_ ?_ <;> rw [s.canTaken_queue] <;> assumption
    have hctl := State.canRead_control ((s.canTaken j rest).withCan (s.canStarted p j r)) (s.canStarted p j r) (s.canStarted p j r).daddr 64
    rw [hread] at hctl
    refine ⟨s2.updCan (s.canStarted p j r).id fun o => { o with desc := some d }, ?_, ⟨rfl, rfl, rfl⟩, ?_, ?_⟩
    · rw [exec_canopyOpStart hh, if_neg (by rintro ⟨h1, h2⟩; exact hc.elim h1 h2), hidle, State.readDesc_ok hread hok]
    · refine (congrArg Queue.pool (State.control_queue hctl j)).trans ?_
      exact congrArg Queue.pool (s.canTaken_queue j rest)
    · refine List.mem_map.2 ⟨s.canStarted p j r, ?_, if_pos (by simp)⟩
      rw [State.control_canops hctl]
      exact List.mem_append_right _ List.mem_cons_self

section
variable {s : State} {n : Nat} {o : CanOp} {d : List Byte}

/-- A put that has its payload to read. -/
def State.puts (s : State) (n : Nat) (o : CanOp) (d : List Byte) : Prop :=
  s.can? n = some o ∧ o.held = none ∧ o.cls = 1 ∧ o.desc = some d ∧ o.writes = []

theorem exec_canopyPutComplete (h : s.puts n o d) {s1 : State} {bs : List Byte} (hr : s.canRead o (canSrc d) (canLen d) = (s1, .ok bs)) :
    exec (.canopyPutComplete n) s = .next (match s1.landing (canDpk d) (s1.part o.part).fabTag with
      | none => s1.dropCan n
      | some q => State.canStep (s1.updCan n fun _ => { o with cls := 0, part := q, writes := [(canDst d, bs), canWord 1 d 0] })
        { o with cls := 0, part := q, writes := [(canDst d, bs), canWord 1 d 0] }) := by
  obtain ⟨hn, hh, hc, hd, hw⟩ := h
  change execCanopyPutComplete n s = _
  rw [execCanopyPutComplete, hn]
  dsimp only
  rw [if_neg (by simp [hh, hc]), hd]
  dsimp only
  rw [if_neg (by simp [hw]), hr]
  dsimp only
  generalize s1.landing (canDpk d) (s1.part o.part).fabTag = q
  cases q <;> rfl

/-- An operation that has only writes left takes its next one. -/
theorem exec_canopyPutComplete_writes (hn : s.can? n = some o) (hh : o.held = none) (hc : o.cls = 0) {w : Nat × List Byte} (hw : o.writes = [w]) :
    exec (.canopyPutComplete n) s = .next (s.canStep o) := by
  change execCanopyPutComplete n s = _
  rw [execCanopyPutComplete, hn]
  dsimp only
  rw [if_neg (by simp [hh, hc])]
  split
  · exact if_pos (by simp [hc])
  · exact if_pos (by simp [hw])

/-- An all-reduce of one participant here, with nothing written yet. -/
def State.reducesAlone (s : State) (n : Nat) (o : CanOp) (d : List Byte) : Prop :=
  s.can? n = some o ∧ o.held = none ∧ o.cls = 2 ∧ o.desc = some d ∧ o.writes = [] ∧ s.mates o = [o]

theorem exec_canopyAllreduceComplete_none (h : s.reducesAlone n o d) :
    exec (.canopyAllreduceComplete n none) s = .next (s.endMates o 0x50) := by
  obtain ⟨hn, hh, hc, hd, hw, -⟩ := h
  change execCanopyAllreduceComplete n none s = _
  rw [execCanopyAllreduceComplete, hn]
  dsimp only
  rw [if_neg (by simp [hh, hc]), hd]
  dsimp only
  rw [if_neg (by simp [hw])]

/-- The participant's two writes: the combined buffer, then the completion word. -/
def CanOp.combined (o : CanOp) (d : List Byte) (v : List Word) : CanOp :=
  { o with writes := [(canDst d, v.flatMap fun w => leBytes 4 w.toNat), canWord 2 d 0] }

/-- A participant's writes of a result. -/
def CanOp.withResult (o : CanOp) (v : List Word) : CanOp := match o.desc with
  | none => o
  | some e => o.combined e v

theorem State.pick_value {α : Type} [DecidableEq α] (s : State) (a b : α) : (s.pick a b).2 = a ∨ (s.pick a b).2 = b := by
  rw [State.pick]
  split
  · exact .inl rfl
  · dsimp only
    split
    · exact .inl rfl
    · exact .inr rfl

theorem State.pick_quietMem {α : Type} [DecidableEq α] (s : State) (a b : α) : QuietMem s (s.pick a b).1 := by
  rw [State.pick]
  split <;> exact ⟨rfl, rfl, rfl⟩

theorem exec_canopyAllreduceComplete (h : s.reducesAlone n o d) {os : List (List Word)} (hlen : 1 + os.length = canN d)
    (hos : ∀ b ∈ os, 4 * b.length = canLen d) {s1 : State} {bs : List Byte} (hr : s.canRead o (canSrc d) (canLen d) = (s1, .ok bs)) :
    ∃ (v : List Word) (s2 : State), (v = combineAll (canFn d) (toWords bs :: os) ∨ v = combineAll (canFn d) (os ++ [toWords bs]))
      ∧ QuietMem s1 s2 ∧ s2.can? n = some (o.combined d v)
      ∧ exec (.canopyAllreduceComplete n (some os)) s = .next (s2.canStep (o.combined d v)) := by
  obtain ⟨hn, hh, hc, hd, hw, hm⟩ := h
  have hid := State.id_of_can? hn
  have hctl := s.canRead_control o (canSrc d) (canLen d)
  rw [hr] at hctl
  have hmates : s.readMates [o] [] = (s1, some [toWords bs]) := by
    rw [State.readMates, hd]
    dsimp only
    rw [hr]
    rfl
  have hpick := s1.pick_control (combineAll (canFn d) (toWords bs :: os)) (combineAll (canFn d) (os ++ [toWords bs]))
  have hval := s1.pick_value (combineAll (canFn d) (toWords bs :: os)) (combineAll (canFn d) (os ++ [toWords bs]))
  have hquiet := s1.pick_quietMem (combineAll (canFn d) (toWords bs :: os)) (combineAll (canFn d) (os ++ [toWords bs]))
  obtain ⟨u, v, huv⟩ : ∃ u v, s1.pick (combineAll (canFn d) (toWords bs :: os)) (combineAll (canFn d) (os ++ [toWords bs])) = (u, v) := ⟨_, _, rfl⟩
  rw [huv] at hpick hval hquiet
  have hu : u.can? o.id = some o := by rw [State.control_can? hpick, State.control_can? hctl, hid, hn]
  have hfin : (u.updCan o.id fun q => q.withResult v).can? n = some (o.combined d v) := by
    rw [← hid, State.can?_updCan hu (by intro q hq; rw [CanOp.withResult]; split <;> exact hq), CanOp.withResult, hd]
  refine ⟨v, u.updCan o.id (fun q => q.withResult v), hval, hquiet, hfin, ?_⟩
  change execCanopyAllreduceComplete n (some os) s = _
  rw [execCanopyAllreduceComplete, hn]
  dsimp only
  rw [if_neg (by simp [hh, hc]), hd]
  dsimp only
  rw [if_neg (by simp [hw]), hm]
  refine (if_neg (by simpa [hlen, hh, hd] using hos)).trans ?_
  rw [hmates]
  dsimp only
  rw [List.singleton_append, huv]
  change Host.Outcome.next (match (u.updCan o.id fun q => q.withResult v).can? n with
    | none => u.updCan o.id fun q => q.withResult v
    | some q => (u.updCan o.id fun q => q.withResult v).canStep q) = _
  rw [hfin]

/-- A collective that has not ended within its time. -/
theorem exec_canopyTimeout_alone (h : s.reducesAlone n o d) (h2 : 2 ≤ canN d) : exec (.canopyTimeout n) s = .next (s.endMates o 0x51) := by
  obtain ⟨hn, hh, hc, hd, hw, hm⟩ := h
  change execCanopyTimeout n s = _
  rw [execCanopyTimeout, hn]
  dsimp only
  rw [hd]
  dsimp only
  rw [if_neg (by simp [hw]), if_neg (by simp [hc]), hm]
  refine congrArg Host.Outcome.next (if_pos ?_)
  simp only [Bool.or_eq_true, decide_eq_true_eq, List.length_singleton]
  omega

theorem exec_canopyTimeout_put (hn : s.can? n = some o) (hc : o.cls = 1) (hd : o.desc = some d) (hw : o.writes = []) :
    exec (.canopyTimeout n) s = .next (if o.start + 100000000 ≤ s.time then s.endCan o 0x51 else s) := by
  change execCanopyTimeout n s = _
  rw [execCanopyTimeout, hn]
  dsimp only
  rw [hd]
  dsimp only
  rw [if_neg (by simp [hw]), if_pos (by simp [hc])]
  simp only [decide_eq_true_eq]

end

/-- The rules of the engine's operations (R385, R394 to R396). -/
theorem canopyOperationsAct : Rules.CanopyOperationsAct := by
  unfold Rules.CanopyOperationsAct
  intro quietMem word
  refine ⟨fun p i j x r rest => canopyOpStart_acts p i j x r rest, fun n o d s1 bs => ⟨fun q s3 got => ?_, ?_⟩, fun n o w s3 got => ?_,
    fun x => ⟨fun s h => ?_, fun q s3 got => ?_⟩, fun n o d => ⟨fun os s1 bs => ?_, fun s h => ?_, fun s h => ?_⟩,
    fun n o d => ⟨fun s h => ?_, fun q s h => ?_⟩⟩
  · rintro o' s ⟨⟨hn, hh, hc, hd, hw, hr⟩, hl, hwr⟩
    have hput : s.puts n o d := ⟨hn, hh, hc, hd, hw⟩
    have hctl := s.canRead_control o (canSrc d) (canLen d)
    rw [hr] at hctl
    have hs1 : s1.can? n = some o := (State.control_can? hctl n).trans hn
    have hexec := exec_canopyPutComplete hput hr
    rw [hl] at hexec
    obtain rfl := State.id_of_can? hn
    exact ⟨_, hexec, State.canStep_more (w' := canWord 1 d 0) (State.can?_updCan (f := fun _ => o') hs1 fun _ _ => rfl) rfl hwr⟩
  · rintro s ⟨⟨hn, hh, hc, hd, hw, hr⟩, hl⟩
    have hput : s.puts n o d := ⟨hn, hh, hc, hd, hw⟩
    have hexec := exec_canopyPutComplete hput hr
    rw [hl] at hexec
    exact ⟨_, hexec, ⟨rfl, rfl, rfl⟩, s1.can?_dropCan n⟩
  · rintro s ⟨hn, hh, hc, hw, hwr⟩
    exact ⟨_, exec_canopyPutComplete_writes hn hh hc hw, State.canStep_last hn hw hwr⟩
  · refine ⟨s, ?_, rfl⟩
    change execCanopyTransferIn x s = _
    rw [execCanopyTransferIn, h]
  · rintro o s ⟨hl, hnew, hwr⟩
    have hop : State.can? { s with canops := s.canops ++ [o s], nextOp := s.nextOp + 1, fresh := s.fresh + 1 } s.nextOp = some (o s) := by
      rw [State.can?, List.find?_append, show s.canops.find? (fun o => o.id == s.nextOp) = none from hnew]
      rw [Option.none_or]
      exact List.find?_cons_of_pos (p := fun (o : CanOp) => o.id == s.nextOp) (beq_self_eq_true _)
    obtain ⟨hq, hs'⟩ := State.canStep_more (w' := (x.cva.toNat, word 0 0)) hop rfl hwr
    refine ⟨_, ?_, hq, _, hs', rfl, rfl⟩
    change execCanopyTransferIn x s = _
    rw [execCanopyTransferIn, hl]
    rfl
  · rintro mine s ⟨⟨hn, hh, hc, hd, hw, hm⟩, hlen, hos, hr⟩
    obtain ⟨v, s2, hv, hq, hs2, hexec⟩ := exec_canopyAllreduceComplete ⟨hn, hh, hc, hd, hw, hm⟩ hlen hos hr
    refine ⟨_, hexec, v, s2, hv.imp id fun hv => ?_, hq, hs2, rfl⟩
    rw [hv]
    cases os with
    | nil => exact ⟨_, _, rfl, rfl⟩
    | cons b l => exact ⟨b, l ++ [mine], rfl, rfl⟩
  · have ⟨hn, hh, hc, hd, _, hm⟩ := h
    exact ⟨_, exec_canopyAllreduceComplete_none h, State.endMates_alone hn hm hc hd hh _⟩
  · have ⟨⟨hn, hh, hc, hd, _, hm⟩, h2⟩ := h
    exact ⟨_, exec_canopyTimeout_alone h.1 h2, State.endMates_alone hn hm hc hd hh _⟩
  · obtain ⟨⟨hn, hc, hd, hw⟩, ht⟩ := h
    exact ⟨s, (exec_canopyTimeout_put hn hc hd hw).trans (congrArg _ (if_neg (Nat.not_le.2 ht))), rfl⟩
  · obtain ⟨⟨hn, hc, hd, hw⟩, ht, hl⟩ := h
    refine ⟨_, (exec_canopyTimeout_put hn hc hd hw).trans (congrArg _ (if_pos ht)), ?_⟩
    have hend : s.endCan o 0x51 = s.updCan o.id fun o => { o with cls := 0, part := q, writes := [canWord 1 d 0x51], held := none } := by
      rw [State.endCan, hd]
      dsimp only
      rw [if_neg (by simp [hc]), hl]
    obtain rfl := State.id_of_can? hn
    rw [hend]
    exact ⟨⟨rfl, rfl, rfl⟩, State.can?_updCan hn (by intro _ h; exact h)⟩

/-! ### Reduction windows -/

/-- A translation that leads to a host page leaves everything but what is cached of walks, and the free numbers. -/
theorem State.translate_host {s s1 : State} {who : Asker} {p va ld a : Nat} {need : Need} {hostPath : Bool}
    (h : s.translate who p va need hostPath = (s1, .host ld a)) : s1 = { s with tlb := s1.tlb, fresh := s1.fresh } := by
  have hwalk : (s.walkPick who.cache p va).1 = { s with tlb := (s.walkPick who.cache p va).1.tlb, fresh := (s.walkPick who.cache p va).1.fresh } := by
    rw [State.walkPick]
    dsimp only
    repeat' split
    all_goals try rw [State.cacheWalk]
    all_goals try split
    all_goals rfl
  rw [State.translate] at h
  split at h
  · cases h
  · generalize s.walkPick who.cache p va = r at h hwalk
    obtain ⟨u, w⟩ := r
    cases w with
    | leaf log e =>
      obtain ⟨rfl, -⟩ := Prod.mk.inj h
      exact hwalk
    | absent => cases h
    | malformed => cases h
    | error table c => cases h

theorem leBytes_mod (n v : Nat) : leBytes n (v % 2 ^ (8 * n)) = leBytes n v := by
  induction n generalizing v with
  | zero => rfl
  | succ n ih =>
    have h8 : 2 ^ (8 * (n + 1)) = 256 * 2 ^ (8 * n) := by rw [Nat.mul_add, Nat.pow_add, Nat.mul_comm]
    rw [leBytes, leBytes, h8, Nat.mod_mul_right_div_self, ih]
    congr 1
    refine BitVec.eq_of_toNat_eq ?_
    rw [BitVec.toNat_ofNat, BitVec.toNat_ofNat, Nat.mod_mul_right_mod]

theorem leBytes_congr {n v w : Nat} (h : v % 2 ^ (8 * n) = w % 2 ^ (8 * n)) : leBytes n v = leBytes n w := by
  rw [← leBytes_mod, h, leBytes_mod]

theorem extW_mod (dbl : Bool) (v : DWord) : (extW dbl v).toNat % 2 ^ (if dbl then 64 else 32) = v.toNat % 2 ^ (if dbl then 64 else 32) := by
  cases dbl
  · simp [extW, low32]
  · rfl

/-- The signed value of a number of `w` bits, as the rule of atomics has it. -/
theorem intOf_of_lt {w n : Nat} (h : n < 2 ^ w) : intOf w true n = if 2 ^ (w - 1) ≤ n then (n : Int) - 2 ^ w else n := by
  rw [intOf, Nat.mod_eq_of_lt h]
  simp

theorem ite_toNat_mod {P : Prop} [Decidable P] (b old : DWord) (m : Nat) :
    (if P then b else old).toNat % m = (if P then b.toNat % m else old.toNat) % m := by
  split <;> simp

/-- The operations of a reduction window give the value of the rule of atomics. -/
theorem AOp.apply_of_window {op : AOp} {dbl : Bool} {old b : DWord} (hop : op ∈ [AOp.add, .fadd, .mins, .maxs, .minz, .maxz])
    (hf : op = .fadd → dbl = false) (hold : old.toNat < 2 ^ (if dbl then 64 else 32)) :
    ∃ v, op.apply dbl old b 0 = some v ∧ v.toNat % 2 ^ (if dbl then 64 else 32)
      = atomNew op (if dbl then 64 else 32) old.toNat (b.toNat % 2 ^ (if dbl then 64 else 32)) 0 % 2 ^ (if dbl then 64 else 32) := by
  have hmod : old.toNat % 2 ^ (if dbl then 64 else 32) = old.toNat := Nat.mod_eq_of_lt hold
  simp only [List.mem_cons, List.not_mem_nil, or_false] at hop
  rcases hop with rfl | rfl | rfl | rfl | rfl | rfl
  · refine ⟨_, rfl, ?_⟩
    rw [extW_mod, atomNew]
    cases dbl <;> simp [BitVec.toNat_add]
  · obtain rfl := hf rfl
    refine ⟨_, rfl, ?_⟩
    have hw : (if false = true then 64 else 32) = 32 := rfl
    have ho : BitVec.ofNat 32 old.toNat = old.setWidth 32 := BitVec.eq_of_toNat_eq (by simp)
    have hb : BitVec.ofNat 32 (b.toNat % 2 ^ 32) = b.setWidth 32 := BitVec.eq_of_toNat_eq (by simp)
    rw [hw, atomNew, ho, hb, BitVec.toNat_setWidth, Nat.mod_mod_of_dvd _ (by decide)]
    rfl
  all_goals
    refine ⟨_, rfl, ?_⟩
    rw [extW_mod, atomNew, ite_toNat_mod]
    beta_reduce
    rw [hmod]
  · rw [intOf_of_lt (Nat.mod_lt _ (Nat.two_pow_pos _)), intOf_of_lt hold]
  · rw [intOf_of_lt (Nat.mod_lt _ (Nat.two_pow_pos _)), intOf_of_lt hold]

theorem leNat_lt (bs : List Byte) : leNat bs < 2 ^ (8 * bs.length) := by
  induction bs with
  | nil => decide
  | cons b bs ih =>
    rw [leNat, List.length_cons, Nat.mul_add, Nat.pow_add]
    have := b.isLt
    omega

section
variable {s : State} {p n : Nat} {x : RedIn} {r : RedPart}

/-- The window's combination goes to this package's memory. -/
def State.isHome (s : State) (p n : Nat) : Prop :=
  ((s.part p).window n).extractLsb' 16 8 = ((s.part p).fabcfg.extractLsb' 0 8 : BitVec 8)

theorem State.isHome_iff : s.isHome p n ↔ bits ((s.part p).window n) 16 8 = (s.part p).pkg := by
  rw [Partition.pkg, bits_eq, bits_eq, State.isHome]
  exact BitVec.toNat_inj.symm

/-- An operation that a window admits, of the width that it has. -/
def RedPart.legal (r : RedPart) : Prop := r.op ∈ [AOp.add, .fadd, .mins, .maxs, .minz, .maxz] ∧ (r.op = .fadd → r.dbl = false)

/-- The width of a combination. -/
def RedPart.width (r : RedPart) : Nat := if r.dbl then 64 else 32

/-- The element with the combination in it. -/
def RedPart.stored (r : RedPart) (s : State) (k : Nat) : List Byte :=
  leBytes (r.width / 8) (atomNew r.op r.width (bytesNat (Memory.readN s.host k (r.width / 8))) (r.val.toNat % 2 ^ r.width) 0)

theorem RedPart.width_eq (r : RedPart) : r.width = if r.dbl then 64 else 32 := rfl

theorem RedPart.width_div (r : RedPart) : r.width / 8 = if r.dbl then 8 else 4 := by
  rw [RedPart.width_eq]
  cases r.dbl <;> rfl

theorem RedPart.mul_width (r : RedPart) : 8 * (if r.dbl then 8 else 4) = r.width := by
  rw [RedPart.width_eq]
  cases r.dbl <;> rfl

/-- What is left of a delivery to a host page: the element in its place, and the combination gone. -/
def RedPart.wrote (r : RedPart) (k : Nat) (s s' : State) : Prop :=
  Memory.holds s.host s'.host k (r.stored s k) ∧ r ∉ s'.redparts ∧ s'.mem = s.mem ∧ s'.l2 = s.l2

/-- A combination written to a host page. -/
theorem State.redWrite_host (hr : r.legal) {s1 : State} {ld a : Nat}
    (ht : s.translate (.unit 9 (2 ^ 55 + r.addr)) r.part r.addr .write = (s1, .host ld a)) :
    ∃ s2, s.redWrite r = (s2, .done) ∧ Memory.holds s.host s2.host (ld * 2 ^ 64 + a) (r.stored s (ld * 2 ^ 64 + a))
      ∧ s2.mem = s.mem ∧ s2.l2 = s.l2 ∧ s2.redparts = s.redparts ∧ s2.parts = s.parts := by
  have hs1 := State.translate_host ht
  have hhost : s1.host = s.host := by rw [hs1]
  obtain ⟨s2, hs2⟩ : ∃ s2, s2 = s1.usedAnswer (.unit 9 (2 ^ 55 + r.addr)) := ⟨_, rfl⟩
  have hused : s2 = { s1 with xans := s2.xans } := by
    rw [hs2, State.usedAnswer]
    split <;> rfl
  obtain ⟨old, hold⟩ : ∃ old, old = leNat (Memory.readN s.host (ld * 2 ^ 64 + a) (if r.dbl then 8 else 4)) := ⟨_, rfl⟩
  have hlt : old < 2 ^ r.width := by
    have h := leNat_lt (Memory.readN s.host (ld * 2 ^ 64 + a) (if r.dbl then 8 else 4))
    rwa [Memory.length_readN, RedPart.mul_width, ← hold] at h
  have hold64 : (BitVec.ofNat 64 old).toNat = old := by
    rw [BitVec.toNat_ofNat]
    refine Nat.mod_eq_of_lt (hlt.trans_le (Nat.pow_le_pow_right (by decide) ?_))
    rw [RedPart.width]
    split <;> decide
  obtain ⟨v, hv, hval⟩ := AOp.apply_of_window (old := BitVec.ofNat 64 old) (b := r.val) hr.1 hr.2 (by rw [hold64]; exact hlt)
  refine ⟨{ s2 with host := Memory.writeN s.host (ld * 2 ^ 64 + a) (leBytes (if r.dbl then 8 else 4) v.toNat) }, ?_, ?_, ?_⟩
  · rw [State.redWrite, ht]
    dsimp only
    rw [hhost, ← hold, hv, ← hs2]
  · have hstored : r.stored s (ld * 2 ^ 64 + a) = leBytes (if r.dbl then 8 else 4) v.toNat := by
      rw [RedPart.stored, RedPart.width_div, ← leNat_eq_bytesNat, ← hold]
      refine leBytes_congr ?_
      rw [RedPart.mul_width]
      rw [hold64] at hval
      exact hval.symm
    rw [hstored]
    exact Memory.holds_writeN _ _ _
  · rw [hused, hs1]
    exact ⟨rfl, rfl, rfl, rfl⟩

/-- A combination that is gone. -/
def State.redGone (s : State) (r : RedPart) : State := { s with redparts := s.redparts.filter (fun q => q != r) }

theorem State.not_mem_redGone (s : State) (r : RedPart) : r ∉ (s.redGone r).redparts := fun h => by
  simpa using (List.mem_filter.1 h).2

theorem State.deliver_away (hr : r.held = none) (hh : ¬ s.isHome r.part r.n) : s.deliver r = s.redGone r := by
  rw [State.deliver, hr]
  exact (if_neg Bool.false_ne_true).trans (if_pos fun h => hh (State.isHome_iff.2 h))

theorem State.deliver_home (hr : r.held = none) (hh : s.isHome r.part r.n) {s2 : State} (hw : s.redWrite r = (s2, .done)) :
    s.deliver r = s2.redGone r := by
  rw [State.deliver, hr]
  refine (if_neg Bool.false_ne_true).trans ((if_neg fun h => h (State.isHome_iff.1 hh)).trans ?_)
  rw [hw]
  rfl

/-- A combination of an element that a delivery finds. -/
def RedPart.isOf (p n : Nat) (x : RedIn) (r : RedPart) : Bool :=
  r.part == p && r.n == n && r.addr == x.elem.toNat && r.op == x.op && r.dbl == x.dbl && r.held.isNone

theorem RedPart.isOf_iff : r.isOf p n x = true
    ↔ r.part = p ∧ r.n = n ∧ r.addr = x.elem.toNat ∧ r.op = x.op ∧ r.dbl = x.dbl ∧ r.held = none := by
  simp only [RedPart.isOf, Bool.and_eq_true, beq_iff_eq, Option.isNone_iff_eq_none, and_assoc]

/-- A combination with contributions of other packages added. -/
def RedPart.with (r : RedPart) (x : RedIn) : RedPart :=
  { r with val := (x.op.apply x.dbl r.val x.val 0).getD r.val, count := r.count + x.count }

/-- The combination is found again once contributions are added. -/
theorem RedPart.find?_with {l : List RedPart} (h : l.find? (fun r => r.isOf p n x) = some r) :
    (l.map fun q => if q = r then r.with x else q).find? (fun r => r.isOf p n { x with count := 0 }) = some (r.with x) := by
  have hof : ((r.with x).isOf p n { x with count := 0 }) = r.isOf p n x := rfl
  have hkey (q : RedPart) : ((if q = r then r.with x else q).isOf p n { x with count := 0 }) = q.isOf p n x := by
    split
    · next hq => rw [hq, hof]
    · rfl
  rw [List.find?_map]
  simp only [Function.comp_def, hkey, h, Option.map_some, if_true]

/-- A delivery that finds a combination: not beyond the window's number, and of a window that is open just that number. -/
theorem exec_reductionDeliver (hf : s.redparts.find? (fun r => r.isOf p n x) = some r) : exec (.reductionDeliver p n x) s =
    if decide (s.redN p n < r.count + x.count) || (bit ((s.part p).rwin.get 0 n) 63 && r.count + x.count != s.redN p n) then .next s
    else if x.count == 0 then .next (s.deliver r)
    else .next (State.deliver { s with redparts := s.redparts.map (fun q => if q == r then
        { r with val := (x.op.apply x.dbl r.val x.val 0).getD r.val, count := r.count + x.count } else q) }
      { r with val := (x.op.apply x.dbl r.val x.val 0).getD r.val, count := r.count + x.count }) := by
  change execReductionDeliver p n x s = _
  rw [execReductionDeliver]
  dsimp only
  rw [show s.redparts.find? (fun r => r.part == p && r.n == n && r.addr == x.elem.toNat && r.op == x.op && r.dbl == x.dbl
    && r.held.isNone) = some r from hf]

theorem exec_reductionDeliver_none (hf : s.redparts.find? (fun r => r.isOf p n x) = none)
    (ho : bit ((s.part p).rwin.get 0 n) 63 = false) (h0 : 0 < x.count) (hle : x.count ≤ s.redN p n) :
    exec (.reductionDeliver p n x) s = .next (State.deliver { s with redparts := s.redparts ++
      [⟨p, n, x.elem.toNat, x.op, x.dbl, x.val, x.count, none⟩] } ⟨p, n, x.elem.toNat, x.op, x.dbl, x.val, x.count, none⟩) := by
  change execReductionDeliver p n x s = _
  rw [execReductionDeliver]
  dsimp only
  rw [show s.redparts.find? (fun r => r.part == p && r.n == n && r.addr == x.elem.toNat && r.op == x.op && r.dbl == x.dbl
    && r.held.isNone) = none from hf, ho]
  refine if_neg ?_
  simp only [Bool.false_and, Bool.or_false, Bool.or_eq_true, beq_iff_eq, decide_eq_true_eq, not_or]
  omega

/-- A new contribution that is beyond its window's time leaves for its home. -/
theorem exec_reductionDeliver_lost (hf : s.redparts.find? (fun r => r.isOf p n x) = none)
    (ho : bit ((s.part p).rwin.get 0 n) 63 = false) (h0 : 0 < x.count) (hle : x.count ≤ s.redN p n) (hh : ¬ s.isHome p n) :
    exec (.reductionDeliver p n x) s = .next s := by
  obtain ⟨r, hr⟩ : ∃ r : RedPart, r = ⟨p, n, x.elem.toNat, x.op, x.dbl, x.val, x.count, none⟩ := ⟨_, rfl⟩
  have hof : r.isOf p n x = true := by
    rw [hr, RedPart.isOf_iff]
    exact ⟨rfl, rfl, rfl, rfl, rfl, rfl⟩
  have hheld : r.held = none := by rw [hr]
  have haway : ¬ State.isHome { s with redparts := s.redparts ++ [r] } r.part r.n := by
    rw [hr]
    exact hh
  have hnot : ∀ q ∈ s.redparts, (q != r) = true := fun q hq => bne_iff_ne.2 fun heq =>
    List.find?_eq_none.1 hf q hq (heq ▸ hof)
  rw [exec_reductionDeliver_none hf ho h0 hle, ← hr, State.deliver_away hheld haway, State.redGone]
  dsimp only
  rw [List.filter_append, List.filter_eq_self.2 hnot, List.filter_cons_of_neg (by simp), List.filter_nil, List.append_nil]

end

/-- A window whose V is cleared, with what it was kept for the combinations of it. -/
def Partition.rwClosed (q : Partition) (n : Nat) : Partition :=
  { q with rwas := q.rwas.put n (q.window n), rwin := q.rwin.upd n (fun v => setBits v 63 1 0) }

theorem Partition.rwClosed_rwin (q : Partition) (n : Nat) : ((q.rwClosed n).rwin.get 0 n).getLsbD 63 = false := by
  rw [SMap.get, Partition.rwClosed, SMap.find?_upd_same]
  cases SMap.find? q.rwin n with
  | none => rfl
  | some v =>
    refine (setBits_testBit v 63 1 0 63 (by decide)).trans ?_
    rw [if_pos (by decide)]
    exact Nat.zero_testBit _

theorem Partition.rwClosed_window (q : Partition) (n : Nat) : (q.rwClosed n).window n = q.window n := by
  rw [Partition.window, bit, Partition.rwClosed_rwin, if_neg Bool.false_ne_true]
  exact congrArg (Option.getD · 0) (SMap.find?_put_same _ _ _)

/-- The state with a window's V cleared, before its combinations are delivered. -/
def State.rwClosed (s : State) (p n : Nat) : State := s.updPart p fun q => q.rwClosed n

theorem State.rwClosed_part (s : State) (p n : Nat) : (s.rwClosed p n).part p = (s.part p).rwClosed n := State.part_updPart_same _ _ _

theorem exec_rwinClear {s : State} {p n : Nat} (hn : n < 4) : exec (.rwinClear p n) s
    = .next ((s.redparts.filter (fun r => r.part == p && r.n == n)).foldl State.deliver (s.rwClosed p n)) :=
  congrArg Host.Outcome.next (if_neg (Nat.not_le.2 hn))

/-- The rules of the reduction windows (R397). -/
theorem reductionsDelivered : Rules.ReductionsDelivered := by
  unfold Rules.ReductionsDelivered
  intro found isOpen full home legal wrote
  have hfull (p n : Nat) (s : State) : s.redN p n = full p n s := bits_eq _ _ _
  have hwrote : wrote = fun r ld a => r.wrote (ld * 2 ^ 64 + a) := rfl
  have hhome : home = fun p n s => s.isHome p n := rfl
  have hlegal : legal = RedPart.legal := rfl
  clear_value wrote home legal
  subst hwrote hhome hlegal
  refine ⟨fun p n x r => ⟨fun s ⟨hf, ho, hne⟩ => ?_, fun s ⟨hf, ho, heq, h0⟩ => ?_, fun s1 ld a s ⟨hf, ho, heq, h0, hh, hl, ht⟩ => ?_,
    fun s ⟨hf, ho, heq, h0, hh⟩ => ?_, fun s ⟨hf, ho, h0, hle, hh⟩ => ?_⟩, fun p n hn => ?_⟩
  · obtain ⟨hp, hn, -, -, -, hheld⟩ := RedPart.isOf_iff.1 (List.find?_some hf)
    refine ⟨s, (exec_reductionDeliver hf).trans (if_pos ?_), rfl⟩
    rw [hfull, show bit ((s.part p).rwin.get 0 n) 63 = true from ho]
    simp [hne]
  · have hn := (exec_reductionDeliver hf).trans (if_neg (by rw [hfull, heq]; simp))
    refine ⟨_, hn.trans (if_neg (by simp; omega)), ?_⟩
    have hmap : (s.redparts.map fun q => if q = r then r.with x else q) = s.redparts.map fun q => if q == r then r.with x else q :=
      List.map_congr_left fun q _ => if_congr beq_iff_eq.symm rfl rfl
    have hf' := RedPart.find?_with hf
    have hexec := exec_reductionDeliver (s := { s with redparts := s.redparts.map fun q => if q = r then r.with x else q }) hf'
    refine hexec.trans ((if_neg ?_).trans ((if_pos rfl).trans ?_))
    · have hc : (r.with x).count + 0 = full p n s := heq
      change ¬ (decide (s.redN p n < (r.with x).count + 0) || (bit ((s.part p).rwin.get 0 n) 63 && (r.with x).count + 0 != s.redN p n)) = true
      rw [hfull, hc]
      simp
    · rw [hmap]
      rfl
  · obtain ⟨hp, hrn, -, -, -, hheld⟩ := RedPart.isOf_iff.1 (List.find?_some hf)
    obtain ⟨s2, hw, hhost, hmem, hl2, -, -⟩ := State.redWrite_host hl (hp ▸ ht)
    refine ⟨s2.redGone r, ?_, hhost, s2.not_mem_redGone r, hmem, hl2⟩
    refine (exec_reductionDeliver hf).trans ((if_neg ?_).trans ((if_pos (by simp [h0])).trans ?_))
    · rw [hfull, heq, h0]
      simp
    · rw [State.deliver_home hheld (by rw [hp, hrn]; exact hh) hw]
  · obtain ⟨hp, hrn, -, -, -, hheld⟩ := RedPart.isOf_iff.1 (List.find?_some hf)
    refine ⟨s.redGone r, ?_, s.not_mem_redGone r, rfl⟩
    refine (exec_reductionDeliver hf).trans ((if_neg ?_).trans ((if_pos (by simp [h0])).trans ?_))
    · rw [hfull, heq, h0]
      simp
    · rw [State.deliver_away hheld (by rw [hp, hrn]; exact hh)]
  · have ho' : bit ((s.part p).rwin.get 0 n) 63 = false := Bool.eq_false_iff.2 ho
    exact ⟨s, exec_reductionDeliver_lost hf ho' h0 (by rw [hfull]; exact hle) hh, rfl⟩
  · intro cleared
    refine ⟨fun s h => ⟨s.rwClosed p n, ?_, ?_, rfl⟩, fun r s1 ld a s ⟨hr, hheld, hh, hl, ht⟩ => ?_⟩
    · have hnil : s.redparts.filter (fun r => r.part == p && r.n == n) = [] :=
        List.filter_eq_nil_iff.2 fun r hr => by simpa using h r hr
      rw [exec_rwinClear hn, hnil]
      rfl
    · change ¬ (((s.rwClosed p n).part p).rwin.get 0 n).getLsbD 63 = true
      rw [State.rwClosed_part, Partition.rwClosed_rwin]
      exact Bool.false_ne_true
    · obtain ⟨hp, hrn⟩ : r.part = p ∧ r.n = n := by
        have := (List.mem_filter.1 (hr ▸ List.mem_cons_self : r ∈ s.redparts.filter _)).2
        simpa using this
      obtain ⟨s2, hw, hhost, hmem, hl2, -, hparts⟩ := State.redWrite_host (s := s.rwClosed p n) hl (hp ▸ ht)
      have hhome : (s.rwClosed p n).isHome r.part r.n := by
        rw [State.isHome, hp, hrn, State.rwClosed_part, Partition.rwClosed_window]
        exact hh
      refine ⟨s2.redGone r, ?_, ⟨hhost, s2.not_mem_redGone r, hmem, hl2⟩, ?_⟩
      · rw [exec_rwinClear hn, hr, List.foldl_cons, List.foldl_nil, State.deliver_home hheld hhome hw]
      · change ¬ ((s2.part p).rwin.get 0 n).getLsbD 63 = true
        rw [State.part_of_parts hparts, State.rwClosed_part, Partition.rwClosed_rwin]
        exact Bool.false_ne_true

/-- Settles O51: the engine's operations, and the reduction windows. -/
theorem canopyActs : Obligations.CanopyActs := ⟨canopyOperationsAct, reductionsDelivered⟩

end Sys2Proof.Machine
end

/-! # What keeps the grids and the KILLST registers (O46) -/

section
namespace Sys2Proof.Machine

/-- The grids are as they were, and so is KILLST of every partition. -/
def KillFrame (s s' : State) : Prop := s'.grids = s.grids ∧ ∀ p, (s'.part p).killst = (s.part p).killst

namespace KillFrame

theorem refl (s : State) : KillFrame s s := ⟨rfl, fun _ => rfl⟩

theorem trans {s s1 s2 : State} (h : KillFrame s s1) (h' : KillFrame s1 s2) : KillFrame s s2 :=
  ⟨h'.1.trans h.1, fun p => (h'.2 p).trans (h.2 p)⟩

theorem of_eq {s s' : State} (hg : s'.grids = s.grids) (hp : s'.parts = s.parts) : KillFrame s s' :=
  ⟨hg, fun p => by rw [State.part_of_parts hp]⟩

theorem foldl {β : Type} {f : State → β → State} (hf : ∀ s x, KillFrame s (f s x)) (l : List β) (s : State) : KillFrame s (l.foldl f s) := by
  induction l generalizing s with
  | nil => exact refl s
  | cons x l ih => exact (hf s x).trans (ih (f s x))

theorem updPart (s : State) (p : Nat) {f : Partition → Partition} (hf : ∀ q, (f q).killst = q.killst) : KillFrame s (s.updPart p f) := by
  refine ⟨rfl, fun q => ?_⟩
  by_cases hq : q = p
  · subst hq
    rw [State.part_updPart_same, hf]
  · rw [State.part_updPart_other _ _ hq]

theorem then_eq {s u s' : State} (h : KillFrame s u) (hg : s'.grids = u.grids) (hp : s'.parts = u.parts) : KillFrame s s' :=
  h.trans (of_eq hg hp)

theorem then_updPart {s u : State} (h : KillFrame s u) {p : Nat} {f : Partition → Partition} (hf : ∀ q, (f q).killst = q.killst) :
    KillFrame s (u.updPart p f) := h.trans (updPart u p hf)

theorem of_cacheFrame {s s' : State} (h : CacheFrame s s') : KillFrame s s' := by
  refine of_eq ?_ h.parts
  rw [h]

end KillFrame

section
variable (s : State)

/-! ### Accesses -/

theorem State.usedAnswer_killFrame (who : Asker) : KillFrame s (s.usedAnswer who) := by
  rw [State.usedAnswer]
  split <;> exact .of_eq rfl rfl

theorem State.askHost_killFrame (who : Asker) (p v : Nat) (wr : Bool) : KillFrame s (s.askHost who p v wr) := by
  rw [State.askHost]
  dsimp only
  split <;> exact .of_eq rfl rfl

theorem State.noteWrite_killFrame (a : Acc) (wr : Option Nat) : KillFrame s (s.noteWrite a wr) := by
  rw [State.noteWrite]
  refine .foldl (fun s e => ?_) _ s
  have hend : KillFrame s (s.endRecov e.1) := .of_eq rfl rfl
  split
  · exact .refl s
  · next i _ =>
    dsimp only
    split
    · exact .refl s
    · split
      · split
        · exact .refl s
        · split
          · exact hend
          · refine KillFrame.then_updPart (.of_cacheFrame ((s.poke_cacheFrame _ _).trans (State.poke_cacheFrame _ _ _))) (by intro; rfl)
      · split
        · exact hend
        · exact .refl s

theorem State.devRead_killFrame (a : Acc) (n : Nat) : KillFrame s (s.devRead a n).1 := by
  rw [State.devRead]
  dsimp only
  split <;> exact .of_cacheFrame ((s.heatReq_cacheFrame a).trans (State.touch_cacheFrame _ a))

theorem State.devWrite_killFrame (a : Acc) (bs : List Byte) : KillFrame s (s.devWrite a bs).1 := by
  have henter : KillFrame s ((s.heatReq a).enter a).1 := .of_cacheFrame ((s.heatReq_cacheFrame a).trans (State.enter_cacheFrame _ a))
  rw [State.devWrite]
  dsimp only
  split
  · exact henter
  · have hn := henter.trans (State.noteWrite_killFrame _ a a.team)
    generalize State.noteWrite ((s.heatReq a).enter a).1 a a.team = u at hn
    refine KillFrame.trans ?_ (.of_cacheFrame (State.poke_cacheFrame _ _ _))
    split
    · exact hn.then_eq rfl rfl
    · exact hn

theorem State.translate_killFrame (who : Asker) (p va : Nat) (need : Need) (hp : Bool) : KillFrame s (s.translate who p va need hp).1 := by
  rw [State.translate]
  split
  · exact .refl s
  · have hw := s.walkPick_cacheFrame who.cache p va
    generalize s.walkPick who.cache p va = r at hw ⊢
    obtain ⟨u, w⟩ := r
    cases w with
    | error table c => exact .of_cacheFrame (hw.trans (State.touch_cacheFrame _ _))
    | _ => exact .of_cacheFrame hw

theorem State.unitAccess_killFrame (who : Asker) (p va n : Nat) (wr : Option (List Byte)) (counted : Bool) :
    KillFrame s (s.unitAccess who p va n wr counted).1 := by
  have ht := s.translate_killFrame who p va (if wr.isSome then .write else .read) true
  rw [State.unitAccess]
  generalize s.translate who p va (if wr.isSome then .write else .read) = r at ht ⊢
  obtain ⟨s1, x⟩ := r
  have hu := ht.trans (s1.usedAnswer_killFrame who)
  cases x with
  | ask vpn => exact ht.trans (s1.askHost_killFrame who p vpn _)
  | fault c => exact hu
  | tier10 => exact ht
  | host ld addr =>
    cases wr with
    | some bs => exact hu.trans (.of_eq rfl rfl)
    | none => exact hu
  | dev pa key comp bix he log =>
    cases wr with
    | some bs => exact hu.trans (State.devWrite_killFrame _ _ _)
    | none =>
      refine hu.trans (Eq.mp ?_ ((s1.usedAnswer who).devRead_killFrame ⟨p, pa, key, comp, bix, he && counted, .none, none⟩ n))
      dsimp only
      congr 1
      split <;> rfl

/-! ### Fault records -/

theorem State.engineWrite_killFrame (who : Asker) (p va : Nat) (bs : List Byte) : KillFrame s (s.engineWrite who p va bs).1 := by
  have fold {f : State × Bool → Nat × Nat → State × Bool} (hf : ∀ a x, KillFrame a.1 (f a x).1) (l : List (Nat × Nat)) (a : State × Bool) :
      KillFrame a.1 (l.foldl f a).1 := by
    induction l generalizing a with
    | nil => exact .refl _
    | cons x l ih => exact (hf a x).trans (ih _)
  rw [State.engineWrite]
  refine fold (fun a x => ?_) _ (s, true)
  have ht := a.1.translate_killFrame who p (va + x.1) .write true
  dsimp only
  split
  · exact .refl _
  · generalize a.1.translate who p (va + x.1) .write = r at ht ⊢
    obtain ⟨u, y⟩ := r
    cases y with
    | dev pa key comp bix he log => exact ht.trans (State.devWrite_killFrame _ _ _)
    | host ld addr => exact ht.trans (.of_eq rfl rfl)
    | ask vpn => exact ht.trans (State.askHost_killFrame _ _ _ _ _)
    | fault c => exact ht
    | tier10 => exact ht

theorem State.addRec_killFrame (p : Nat) (x : Rep) : KillFrame s (s.addRec p x) :=
  (KillFrame.updPart s p (f := fun q => { q with frecs := q.frecs ++ [_] }) fun _ => rfl).then_eq rfl rfl

theorem State.ringOverflow_killFrame (p va e : Nat) : KillFrame s (s.ringOverflow p va e) := by
  rw [State.ringOverflow]
  split
  · exact .refl s
  · exact s.addRec_killFrame p _

theorem State.writeRec_killFrame (p : Nat) (r : FRec) : KillFrame s (s.writeRec p r).1 := by
  rw [State.writeRec]
  dsimp only
  have he := (s.engineWrite_killFrame (.unit fbEngine p) p ((s.part p).fbBase + 32 * ((s.part p).tail.toNat % 2 ^ (s.part p).fbLog)) r.bytes).trans
    (State.usedAnswer_killFrame _ (.unit fbEngine p))
  split
  · split
    · exact he.trans (State.ringOverflow_killFrame _ _ _ _)
    · exact he
  · exact KillFrame.then_eq (u := State.updPart _ p fun q => { q with tail := q.tail + 1 }) (he.then_updPart fun _ => rfl) rfl rfl

theorem State.drainRecs_killFrame (p n : Nat) : KillFrame s (s.drainRecs p n) := by
  induction n generalizing s with
  | zero => exact .refl s
  | succ n ih =>
    rw [State.drainRecs]
    dsimp only
    split
    · exact .refl s
    · next r _ =>
      split
      · exact KillFrame.trans (.updPart s p (by intro; rfl)) (ih _)
      · split
        · exact .refl s
        · have hw := s.writeRec_killFrame p r
          generalize s.writeRec p r = x at hw ⊢
          obtain ⟨u, b⟩ := x
          cases b with
          | false => exact hw
          | true => exact KillFrame.trans (hw.then_updPart (by intro; rfl)) (ih _)

theorem State.report_killFrame (p : Nat) (x : Rep) : KillFrame s (s.report p x).1 := by
  rw [State.report]
  dsimp only
  split
  · exact .refl s
  · exact (s.addRec_killFrame p x).trans (State.drainRecs_killFrame _ _ _)

/-! ### Queues -/

theorem State.updQueue_killFrame (j : Nat) (f : Queue → Queue) : KillFrame s (s.updQueue j f) := .of_eq rfl rfl

theorem State.leaveQ_killFrame (j : Nat) : KillFrame s (s.leaveQ j) := by
  rw [State.leaveQ]
  split
  · exact .refl s
  · exact s.updQueue_killFrame j _

theorem State.refillQ_killFrame (j n : Nat) : KillFrame s (s.refillQ j n) := by
  induction n generalizing s with
  | zero => exact .refl s
  | succ n ih =>
    rw [State.refillQ]
    dsimp only
    split
    · exact .refl s
    · have hu : KillFrame s (s.ringAccess j (s.queue j) (s.queue j).rhead.toNat none).1 := s.unitAccess_killFrame _ _ _ _ _ _
      generalize s.ringAccess j (s.queue j) (s.queue j).rhead.toNat none = r at hu ⊢
      obtain ⟨u, y⟩ := r
      have hq (f : Queue → Queue) : KillFrame s (u.updQueue j f) := hu.trans (u.updQueue_killFrame j f)
      cases y with
      | ok bs => exact (hq _).trans (ih _)
      | ask vpn => exact hq _
      | fault c =>
        dsimp only
        split
        · exact hq _
        · have hr : KillFrame s (u.reportQueue j 6 c ((s.queue j).ringVa (s.queue j).rhead.toNat)).1 := hu.trans (u.report_killFrame _ _)
          split
          · exact hr.trans (State.updQueue_killFrame _ _ _)
          · exact (hr.trans (State.updQueue_killFrame _ _ _)).trans (ih _)

theorem State.settleQ_killFrame (j n : Nat) : KillFrame s (s.settleQ j n) := by
  induction n generalizing s with
  | zero => exact s.leaveQ_killFrame j
  | succ n ih =>
    have hr := (s.leaveQ_killFrame j).trans (State.refillQ_killFrame _ j ((s.leaveQ j).queue j).rcnt.toNat)
    rw [State.settleQ]
    split
    · exact hr
    · exact hr.trans (ih _)

theorem State.refillAll_killFrame (j : Nat) : KillFrame s (s.refillAll j) := by
  rw [State.refillAll]
  split
  · exact (s.updQueue_killFrame j _).trans (State.settleQ_killFrame _ _ _)
  · exact s.settleQ_killFrame _ _

theorem State.settleStreams_killFrame (l : List Nat) : KillFrame s (s.settleStreams l) := .foldl (fun s j => s.refillAll_killFrame j) l s

/-! ### Teams, automata and collectives that go -/

theorem State.updCore_killFrame (c : Nat) (f : CoreSt → CoreSt) : KillFrame s (s.updCore c f) := .of_eq rfl rfl
theorem State.updThread_killFrame (k : Nat) (f : Thread → Thread) : KillFrame s (s.updThread k f) := .of_eq rfl rfl
theorem State.freeThread_killFrame (k : Nat) : KillFrame s (s.freeThread k) := .of_eq rfl rfl
theorem State.leaveRegroup_killFrame (k : Nat) : KillFrame s (s.leaveRegroup k) := s.updCore_killFrame _ _

theorem State.unbindBoughs_killFrame (c : Nat) : KillFrame s (s.unbindBoughs c) := by
  rw [State.unbindBoughs]
  exact s.updCore_killFrame _ _

theorem State.unmove_killFrame (id : Nat) : KillFrame s (s.unmove id) := by
  rw [State.unmove]
  split
  · exact .refl s
  · exact KillFrame.trans (.of_eq rfl rfl) (State.unbindBoughs_killFrame _ _)

theorem State.dissolve_killFrame (m : Team) : KillFrame s (s.dissolve m) := by
  have leave (l : List Nat) (s : State) : KillFrame s (l.foldl (fun s k => s.leaveRegroup k) s) := .foldl (fun s k => s.leaveRegroup_killFrame k) l s
  have unspawn (l : List Nat) (s : State) : KillFrame s (s.unspawn l) :=
    KillFrame.foldl (f := fun s k => s.updThread k fun t => { t with st := if t.st = .spawned then .ready else t.st }) (fun s k => s.updThread_killFrame k _) l s
  exact (KillFrame.foldl (fun s (r : Regroup) => (unspawn r.slots s).trans (leave r.slots _)) _ s).trans (leave m.slots _)

theorem State.vacateTeam_killFrame (id : Nat) (m : Team) : KillFrame s (s.vacateTeam id m) := by
  rw [State.vacateTeam]
  have free (l : List Nat) (s : State) : KillFrame s (l.foldl (fun s k => s.freeThread k) s) := .foldl (fun s k => s.freeThread_killFrame k) l s
  refine KillFrame.trans ?_ (State.unbindBoughs_killFrame _ _)
  generalize hu : m.slots.foldl (fun (s : State) k => s.freeThread k) _ = u
  have hfree : KillFrame s u := hu ▸ KillFrame.trans (.of_eq rfl rfl) (free m.slots _)
  exact hfree.then_eq rfl rfl

theorem State.killTeam_killFrame (id : Nat) : KillFrame s (s.killTeam id) := by
  rw [State.killTeam]
  split
  · exact .refl s
  · next m _ =>
    dsimp only
    refine KillFrame.trans ?_ (State.vacateTeam_killFrame _ _ _)
    have hd : KillFrame s ((s.unmove id).dissolve m) := (s.unmove_killFrame id).trans (State.dissolve_killFrame _ m)
    have ho (l : List Op) (s : State) : KillFrame s (l.foldl (fun s (o : Op) =>
        s.updCore (coreOf o.slot) (fun c => { c with cq := c.cq.filter (fun i => i != o.id) })) s) := .foldl (fun s _ => s.updCore_killFrame _ _) l s
    generalize hu : (s.opsOf m).foldl _ (((((s.unmove id).dissolve m).withdraw (s.opsOf m)).withdrawAsks m).leavePermits m) = u
    have hw : KillFrame s u := hu ▸ (hd.then_eq rfl rfl).trans (ho (s.opsOf m) _)
    split
    · exact hw.then_eq rfl rfl
    · refine KillFrame.then_updPart ?_ fun _ => ?_
      · exact hw.then_eq rfl rfl
      · rfl

theorem State.withdrawSlot_killFrame (a : Nat) : KillFrame s (s.withdrawSlot a) := by
  rw [State.withdrawSlot]
  split
  · exact .refl s
  · exact s.updQueue_killFrame _ _

theorem State.killAuto_killFrame (a : Nat) (code : BitVec 8) : KillFrame s (s.killAuto a code) :=
  ((s.withdrawSlot_killFrame a).trans (.of_eq rfl rfl)).trans (State.settleStreams_killFrame _ _)

theorem State.endCan_killFrame (o : CanOp) (st : Nat) : KillFrame s (s.endCan o st) := by
  rw [State.endCan]
  split
  · exact .of_eq rfl rfl
  · split
    · exact .of_eq rfl rfl
    · split <;> exact .of_eq rfl rfl

theorem State.abortCan_killFrame (p : Nat) (c : BitVec 16) : KillFrame s (s.abortCan p c) := by
  have hends (f : State → CanOp → List CanOp) (l : List CanOp) (s : State) :
      KillFrame s (l.foldl (fun s o => (f s o).foldl (fun s m => s.endCan m 0x50) s) s) :=
    .foldl (fun s o => .foldl (fun s m => s.endCan_killFrame m 0x50) _ s) l s
  have hpick (s : State) (l l' : List CanOp) : KillFrame s { (s.pick l l').1 with canops := (s.pick l l').2 } := by
    have h := s.pick_cacheFrame l l'
    exact (KillFrame.of_cacheFrame h).then_eq rfl rfl
  rw [State.abortCan]
  generalize hu : List.foldl _ s _ = u
  have hends : KillFrame s u := hu ▸ hends _ _ s
  exact (hends.trans (.of_eq rfl rfl)).trans (hpick _ _ _)

end

/-! ### A context killed -/

/-- The word that KILLST takes. -/
def killWord (ctx : BitVec 16) (code : BitVec 8) : DWord := BitVec.ofNat 64 (2 ^ 63 + ctx.toNat * 2 ^ 47 + code.toNat)

/-- A killed context has no grid left in its partition, which says so; no grid is new, and no other partition's KILLST changes. -/
theorem State.killContext_kills (s : State) (p : Nat) (ctx : BitVec 16) (code : BitVec 8) :
    (s.killContext p ctx code).grids = s.grids.filter (fun e => !(e.2.part == p && e.2.ctx == ctx))
      ∧ ((s.killContext p ctx code).part p).killst = killWord ctx code
      ∧ ∀ q, q ≠ p → ((s.killContext p ctx code).part q).killst = (s.part q).killst := by
  have hteams (l : List Nat) (s : State) : KillFrame s (l.foldl (fun s id => s.killTeam id) s) := .foldl (fun s id => s.killTeam_killFrame id) l s
  have hautos (l : List Nat) (s : State) : KillFrame s (l.foldl (fun s a => s.killAuto a code) s) := .foldl (fun s a => s.killAuto_killFrame a code) l s
  rw [State.killContext]
  dsimp only
  generalize hu : (s.teamsOfCtx p ctx).foldl (fun (s : State) id => s.killTeam id) s = u
  have hu : KillFrame s u := hu ▸ hteams _ s
  generalize hw : (s.autosOf p ctx).foldl (fun (s : State) a => s.killAuto a code) _ = w
  have hframe := hw ▸ hautos (s.autosOf p ctx) _
  have hgrids : w.grids = s.grids.filter (fun e => !(e.2.part == p && e.2.ctx == ctx)) := by
    rw [hframe.1, ← hu.1]
  have hkill (q : Nat) : (w.part q).killst = (s.part q).killst := (hframe.2 q).trans (hu.2 q)
  generalize hv : w.updPart p _ = v
  have hvg : v.grids = w.grids := hv ▸ rfl
  have hvp : (v.part p).killst = killWord ctx code := by
    rw [← hv, State.part_updPart_same]
    rfl
  have hvo (q : Nat) (hq : q ≠ p) : (v.part q).killst = (s.part q).killst := by
    rw [← hv, State.part_updPart_other _ _ hq]
    exact hkill q
  have hab := v.abortCan_killFrame p ctx
  refine ⟨(hab.1.trans hvg).trans hgrids, (hab.2 p).trans hvp, fun q hq => (hab.2 q).trans (hvo q hq)⟩

end Sys2Proof.Machine
end

/-! # The host mailbox (O46)

A command that is taken does its work and leaves its answer in MBST and MBRSP; each command's work is a lemma of its own. -/

section
namespace Sys2Proof.Machine

/-! ### A command taken, and its answer -/

/-- A command of a logical device is taken: nothing holds it, no append is on its way, and the device has power. -/
def State.hasCommand (s : State) (ld : Nat) : Prop := (s.ld ld).v = true ∧ (s.ld ld).go = true ∧ (s.ld ld).mbHeld = none
  ∧ s.dev.powered = true ∧ ∀ e ∈ s.queues, e.2.hostq ≠ [] → s.reaches ld e.1 = false

/-- Heartwood runs, and a command is taken. -/
def State.obeys (s : State) (ld : Nat) : Prop := s.hasCommand ld ∧ s.dev.state ≠ 4 ∧ s.dev.state ≠ 5

/-- A command has ended, with its code, its result and the response. -/
def State.ended (s : State) (ld code sts : Nat) (rsp : List Byte) : Prop := (s.ld ld).go = false
  ∧ (s.ld ld).cmd = BitVec.ofNat 16 code ∧ (s.ld ld).sts = BitVec.ofNat 16 sts
  ∧ ∀ i < rsp.length, rsp[i]? = some (Memory.read (s.ld ld).bar (0x200 + i))

/-- The partition is one of the device's. -/
def State.isOf (s : State) (ld p : Nat) : Prop := p < 32 ∧ (s.ld ld).parts.getLsbD p = true

/-- `n` bytes of the request from an offset, as a number. -/
def State.asks (s : State) (ld off n : Nat) : Nat := bytesNat (Memory.readN (s.ld ld).bar (0x100 + off) n)

section
variable {s : State} {ld : Nat}

theorem State.reqNat_eq (s : State) (ld off n : Nat) : (s.ld ld).reqNat off n = s.asks ld off n := leNat_eq_bytesNat _

theorem State.mem_partsOf {p : Nat} : p ∈ s.partsOf ld ↔ s.isOf ld p := mem_setBitsOf

theorem State.partsOf_contains {p : Nat} : (s.partsOf ld).contains p = true ↔ s.isOf ld p := by
  rw [List.contains_iff_mem, State.mem_partsOf]

theorem State.taking_of (h : s.hasCommand ld) (h4 : s.dev.state ≠ 4) : s.taking ld = true := by
  obtain ⟨hv, hgo, hheld, hp, hq⟩ := h
  have happ : s.appendHeld ld = false := by
    rw [State.appendHeld, List.any_eq_false]
    intro e he hbad
    simp only [Bool.and_eq_true, Bool.not_eq_true', List.isEmpty_eq_false_iff] at hbad
    exact Bool.false_ne_true ((hq e he hbad.1).symm.trans hbad.2)
  have hst : s.dev.state.toNat ≠ 4 := fun h => h4 (BitVec.eq_of_toNat_eq h)
  simp [State.taking, hv, hgo, hheld, hp, happ, hst]

theorem State.command_of (h : s.obeys ld) (code : Nat) (f : State → State) : s.command ld code f = f s := by
  obtain ⟨hc, h4, h5⟩ := h
  rw [State.command, State.taking_of hc h4]
  exact (if_neg (by decide)).trans (if_neg h5)

theorem State.command_recovery (h : s.hasCommand ld) (h5 : s.dev.state = 5) (code : Nat) (f : State → State) :
    s.command ld code f = s.answer ld code 2 [] := by
  rw [State.command, State.taking_of h (by rw [h5]; decide)]
  exact (if_neg (by decide)).trans (if_pos h5)

theorem State.answer_ld (s : State) (ld code sts : Nat) (rsp : List Byte) : (s.answer ld code sts rsp).ld ld = { s.ld ld with
    bar := Memory.writeN (s.ld ld).bar 0x200 ((rsp ++ List.replicate 256 0).take 256)
    cmd := BitVec.ofNat 16 code, sts := BitVec.ofNat 16 sts, go := false, mbHeld := none } := State.ld_updLd_same _ _ _

theorem State.answer_ended (s : State) (ld code sts : Nat) {rsp : List Byte} (h : rsp.length ≤ 256) :
    (s.answer ld code sts rsp).ended ld code sts rsp := by
  rw [State.ended, State.answer_ld]
  refine ⟨rfl, rfl, rfl, fun i hi => ?_⟩
  have hlen : ((rsp ++ List.replicate 256 (0 : Byte)).take 256).length = 256 := by
    rw [List.length_take, List.length_append, List.length_replicate]
    omega
  dsimp only
  rw [Memory.read_writeN_inside _ _ _ _ (by omega), List.getElem?_eq_getElem hi]
  rw [List.getElem_take, List.getElem_append_left hi]

theorem State.answer_parts (s : State) (ld code sts : Nat) (rsp : List Byte) : (s.answer ld code sts rsp).parts = s.parts := rfl

theorem State.answer_part (s : State) (ld code sts : Nat) (rsp : List Byte) (p : Nat) : (s.answer ld code sts rsp).part p = s.part p := rfl

/-! ### SET_OP -/

/-- The votes of some partitions. -/
def State.castVotes (s : State) (l : List Nat) (op : BitVec 3) : State := l.foldl (fun s p => s.updPart p fun q => { q with vote := op }) s

theorem State.castVotes_part {l : List Nat} {op : BitVec 3} (s : State) (p : Nat) :
    (s.castVotes l op).part p = if p ∈ l then { s.part p with vote := op } else s.part p := by
  induction l generalizing s with
  | nil => rfl
  | cons x l ih =>
    refine (ih _).trans ?_
    by_cases hx : p = x
    · subst hx
      rw [State.part_updPart_same, if_pos List.mem_cons_self, ite_self]
    · rw [State.part_updPart_other _ _ hx]
      simp [hx]

theorem State.aimRails_parts (s : State) : s.aimRails.parts = s.parts := by
  have fold (f : State → Nat → State) (hf : ∀ s r, (f s r).parts = s.parts) (l : List Nat) (s : State) : (l.foldl f s).parts = s.parts := by
    induction l generalizing s with
    | nil => rfl
    | cons x l ih => exact (ih _).trans (hf s x)
  refine fold _ (fun s r => ?_) _ s
  dsimp only
  split <;> rfl

/-- The partitions that a SET_OP names. -/
theorem mem_votes {n p : Nat} : p ∈ setBitsOf (BitVec.ofNat 32 n) partitions ↔ p < 32 ∧ n.testBit p = true := by
  rw [mem_setBitsOf]
  refine and_congr_right fun hp => ?_
  have h32 : p < 32 := hp
  rw [BitVec.getLsbD_ofNat, decide_eq_true h32, Bool.true_and]

theorem State.setOp_refused_iff (s : State) (ld n : Nat) : (BitVec.ofNat 32 n &&& ~~~(s.ld ld).parts != 0) = true
    ↔ ∃ p < 32, n.testBit p = true ∧ ¬ s.isOf ld p := by
  have hbit (p : Nat) (hp : p < 32) : (BitVec.ofNat 32 n &&& ~~~(s.ld ld).parts).getLsbD p = true ↔ n.testBit p = true ∧ ¬ s.isOf ld p := by
    rw [BitVec.getLsbD_and, BitVec.getLsbD_ofNat, BitVec.getLsbD_not, State.isOf]
    simp [hp]
  rw [bne_iff_ne]
  constructor
  · intro hne
    by_contra hno
    refine hne (BitVec.eq_of_getLsbD_eq fun p hp => ?_)
    refine (Bool.eq_false_iff.2 ?_).trans BitVec.getLsbD_zero.symm
    exact fun hb => hno ⟨p, hp, (hbit p hp).1 hb⟩
  · rintro ⟨p, hp, hb⟩ h0
    have h := (hbit p hp).2 hb
    rw [h0] at h
    exact Bool.false_ne_true (BitVec.getLsbD_zero.symm.trans h)

theorem exec_setOp (h : s.obeys ld) : exec (.setOp ld) s = .next
    (if BitVec.ofNat 32 (s.asks ld 0 4) &&& ~~~(s.ld ld).parts != 0 then s.answer ld 1 1 []
    else (s.castVotes (setBitsOf (BitVec.ofNat 32 (s.asks ld 0 4)) partitions) (BitVec.ofNat 3 (s.asks ld 4 1))).aimRails.answer ld 1 0 []) := by
  change execSetOp ld s = _
  rw [execSetOp, State.command_of h]
  dsimp only
  rw [s.reqNat_eq, s.reqNat_eq]
  rfl

theorem setOp_votes : Happens (.setOp ld) (fun s => s.obeys ld ∧ ∀ p < 32, (s.asks ld 0 4).testBit p = true → s.isOf ld p)
    fun s s' => s'.ended ld 1 0 [] ∧ ∀ p, s'.part p = if p < 32 ∧ (s.asks ld 0 4).testBit p = true
      then { s.part p with vote := BitVec.ofNat 3 (s.asks ld 4 1) } else s.part p := by
  rintro s ⟨h, hmine⟩
  refine ⟨_, (exec_setOp h).trans (congrArg _ (if_neg ?_)), State.answer_ended _ _ _ _ (by decide), fun p => ?_⟩
  · rw [State.setOp_refused_iff]
    rintro ⟨p, hp, hb, hno⟩
    exact hno (hmine p hp hb)
  · rw [State.answer_part, State.part_of_parts (State.aimRails_parts _), State.castVotes_part]
    simp only [mem_votes]

theorem setOp_refused : Happens (.setOp ld) (fun s => s.obeys ld ∧ ∃ p < 32, (s.asks ld 0 4).testBit p = true ∧ ¬ s.isOf ld p)
    fun s s' => s'.ended ld 1 1 [] ∧ s'.parts = s.parts := by
  rintro s ⟨h, hno⟩
  exact ⟨_, (exec_setOp h).trans (congrArg _ (if_pos ((s.setOp_refused_iff ld _).2 hno))), State.answer_ended _ _ _ _ (by decide), rfl⟩

/-! ### BIND, UNBIND and QTAB -/

theorem exec_bind {e : Nat} (h : s.obeys ld) : exec (.bind ld e) s = .next
    (if !(s.partsOf ld).contains (s.asks ld 128 1) then s.answer ld 3 1 []
    else match s.bindRecord (s.asks ld 128 1) (Memory.readN (s.ld ld).bar 0x100 128) (BitVec.ofNat 16 (s.asks ld 130 2)) e with
      | none => s
      | some (s, code, h) => s.answer ld 3 code (leBytes 4 h.toNat)) := by
  change execBind ld e s = _
  rw [execBind, State.command_of h]
  dsimp only
  rw [s.reqNat_eq, s.reqNat_eq]
  rfl

theorem exec_bind_of {e code : Nat} {s1 : State} {hd : BitVec 32} (h : s.obeys ld) (hmine : s.isOf ld (s.asks ld 128 1))
    (hb : s.bindRecord (s.asks ld 128 1) (Memory.readN (s.ld ld).bar 0x100 128) (BitVec.ofNat 16 (s.asks ld 130 2)) e = some (s1, code, hd)) :
    exec (.bind ld e) s = .next (s1.answer ld 3 code (leBytes 4 hd.toNat)) := by
  rw [exec_bind h, State.partsOf_contains.2 hmine, hb]
  rfl

theorem bind_binds {e p : Nat} : Happens (.bind ld e) (fun s => s.obeys ld ∧ s.asks ld 128 1 = p ∧ s.isOf ld p ∧ e < 4096
      ∧ ((s.part p).lentry e).b = false ∧ bindCode (s.part p).groveList.length (Memory.readN (s.ld ld).bar 0x100 128) = 0)
    fun s s' => s'.ended ld 3 0 (leBytes 4 (((s.part p).lentry e).gen.toNat * 4096 + e))
      ∧ (s'.part p).lentry e = { (s.part p).lentry e with
          bytes := Memory.readN (s.ld ld).bar 0x100 128, b := true, ctx := BitVec.ofNat 16 (s.asks ld 130 2), live := 0 }
      ∧ ∀ i, i ≠ e → (s'.part p).lentry i = (s.part p).lentry i := by
  rintro s ⟨h, rfl, hmine, he, hfree, hcode⟩
  have hb := exec_bind_of h hmine (State.bindRecord_free (c := BitVec.ofNat 16 (s.asks ld 130 2)) hcode he hfree)
  rw [handleOf_toNat he] at hb
  refine ⟨_, hb, State.answer_ended _ _ _ _ (by rw [leBytes_length]; decide), ?_, fun i hi => ?_⟩
  · rw [State.answer_part, State.part_updPart_same, Partition.lentry_updLentry_same]
  · rw [State.answer_part, State.part_updPart_same, Partition.lentry_updLentry_other _ _ hi]

theorem bind_refused {e p : Nat} : Happens (.bind ld e) (fun s => s.obeys ld ∧ s.asks ld 128 1 = p ∧ ¬ s.isOf ld p)
    fun s s' => s'.ended ld 3 1 [] ∧ s'.parts = s.parts := by
  rintro s ⟨h, rfl, hno⟩
  refine ⟨_, (exec_bind h).trans (congrArg _ (if_pos ?_)), State.answer_ended _ _ _ _ (by decide), rfl⟩
  rw [Bool.not_eq_true', ← Bool.not_eq_true, State.partsOf_contains]
  exact hno

theorem exec_unbind (h : s.obeys ld) {hd : BitVec 32} (hh : s.asks ld 0 4 = hd.toNat) : exec (.unbind ld) s = .next
    (match (s.partsOf ld).find? (fun p => ((s.part p).named hd).isSome) with
    | none => s.answer ld 4 3 []
    | some p => (s.unbindHandle p hd).1.answer ld 4 (if (s.unbindHandle p hd).2 = 0 then 0 else 3) []) := by
  have hofNat : BitVec.ofNat 32 hd.toNat = hd := BitVec.ofNat_toNat ..
  change execUnbind ld s = _
  rw [execUnbind, State.command_of h]
  dsimp only
  rw [s.reqNat_eq, hh, hofNat] <;> rfl

/-- The lowest partition of the device that knows a handle. -/
theorem State.find_named {p : Nat} {hd : BitVec 32} (hmine : s.isOf ld p) (hn : ((s.part p).named hd).isSome = true)
    (hlow : ∀ q < p, s.isOf ld q → (s.part q).named hd = none) :
    (s.partsOf ld).find? (fun p => ((s.part p).named hd).isSome) = some p := by
  rw [State.partsOf, setBitsOf, List.find?_filter, List.find?_range_eq_some]
  refine ⟨by rw [hmine.2, hn]; rfl, List.mem_range.2 hmine.1, fun q hq => ?_⟩
  by_cases hb : (s.ld ld).parts.getLsbD q = true
  · rw [hlow q hq ⟨hq.trans hmine.1, hb⟩]
    simp
  · simp [hb]

theorem unbind_none (hd : BitVec 32) : Happens (.unbind ld)
    (fun s => s.obeys ld ∧ s.asks ld 0 4 = hd.toNat ∧ ∀ q, s.isOf ld q → (s.part q).named hd = none)
    fun s s' => s'.ended ld 4 3 [] ∧ s'.parts = s.parts := by
  rintro s ⟨h, hh, hno⟩
  have hfind : (s.partsOf ld).find? (fun p => ((s.part p).named hd).isSome) = none := by
    rw [List.find?_eq_none]
    intro p hp
    rw [hno p (State.mem_partsOf.1 hp)]
    exact Bool.false_ne_true
  refine ⟨_, (exec_unbind h hh).trans (by rw [hfind]), State.answer_ended _ _ _ _ (by decide), rfl⟩

/-- A handle is the lowest known one of the device's partitions, and is to be unbound. -/
def State.unbinds (s : State) (ld p : Nat) (hd : BitVec 32) : Prop :=
  s.obeys ld ∧ s.asks ld 0 4 = hd.toNat ∧ s.isOf ld p ∧ ((s.part p).named hd).isSome = true
    ∧ ∀ q < p, s.isOf ld q → (s.part q).named hd = none

theorem exec_unbind_of {p : Nat} {hd : BitVec 32} (h : s.unbinds ld p hd) {s1 : State} {code : Nat} (hu : s.unbindHandle p hd = (s1, code)) :
    exec (.unbind ld) s = .next (s1.answer ld 4 (if code = 0 then 0 else 3) []) := by
  obtain ⟨ho, hh, hmine, hn, hlow⟩ := h
  rw [exec_unbind ho hh, State.find_named hmine hn hlow]
  dsimp only
  rw [hu]

theorem unbind_unbinds (p : Nat) (hd : BitVec 32) : Happens (.unbind ld) (fun s => s.unbinds ld p hd ∧ s.handleInUse p hd = false)
    fun _ s' => s'.ended ld 4 0 [] ∧ (s'.part p).named hd = none ∧ ((s'.part p).lentry (hd.toNat % 4096)).b = false := by
  rintro s ⟨h, huse⟩
  have hn := h.2.2.2.1
  have hexec := exec_unbind_of h (State.unbindHandle_free hn huse)
  refine ⟨_, hexec, State.answer_ended _ _ _ _ (by decide), ?_⟩
  have hentry := Partition.lentry_updLentry_same (s.part p) (hd.toNat % 4096) fun e => { e with b := false, gen := e.gen + 1, live := 0 }
  rw [State.answer_part, State.part_updPart_same]
  exact ⟨Partition.named_of_unbound (congrArg LEntry.b hentry), congrArg LEntry.b hentry⟩

theorem unbind_inUse (p : Nat) (hd : BitVec 32) : Happens (.unbind ld) (fun s => s.unbinds ld p hd ∧ s.handleInUse p hd = true)
    fun s s' => s'.ended ld 4 3 [] ∧ s'.parts = s.parts := by
  rintro s ⟨h, huse⟩
  exact ⟨_, exec_unbind_of h (State.unbindHandle_inUse h.2.2.2.1 huse), State.answer_ended _ _ _ _ (by decide), rfl⟩

theorem exec_qtab (h : s.obeys ld) : exec (.qtab ld) s = .next
    (if !(s.partsOf ld).contains (s.asks ld 0 1) then s.answer ld 8 1 []
    else if 7 < s.asks ld 1 1 ∨ bits (BitVec.ofNat 64 (s.asks ld 8 8) : DWord) 0 18 ≠ 0 then s.answer ld 8 3 []
    else (s.writeQuantum (s.asks ld 0 1) (s.asks ld 1 1) (BitVec.ofNat 64 (s.asks ld 8 8))).answer ld 8 0 []) := by
  change execQtab ld s = _
  rw [execQtab, State.command_of h]
  dsimp only
  rw [s.reqNat_eq, s.reqNat_eq, s.reqNat_eq]

theorem qtab_refused : Happens (.qtab ld) (fun s => s.obeys ld ∧ ¬ s.isOf ld (s.asks ld 0 1))
    fun s s' => s'.ended ld 8 1 [] ∧ s'.parts = s.parts := by
  rintro s ⟨h, hno⟩
  refine ⟨_, (exec_qtab h).trans (congrArg _ (if_pos ?_)), State.answer_ended _ _ _ _ (by decide), rfl⟩
  rw [Bool.not_eq_true', ← Bool.not_eq_true, State.partsOf_contains]
  exact hno

/-- The low 18 bits of a quantum-table word. -/
theorem bits18_eq_zero (v : DWord) : bits v 0 18 = 0 ↔ v.extractLsb' 0 18 = 0 := by
  rw [bits_eq]
  exact BitVec.toNat_inj (y := 0)

theorem qtab_invalid : Happens (.qtab ld) (fun s => s.obeys ld ∧ s.isOf ld (s.asks ld 0 1)
      ∧ (7 < s.asks ld 1 1 ∨ (BitVec.ofNat 64 (s.asks ld 8 8) : DWord).extractLsb' 0 18 ≠ 0))
    fun s s' => s'.ended ld 8 3 [] ∧ s'.parts = s.parts := by
  rintro s ⟨h, hmine, hbad⟩
  refine ⟨_, (exec_qtab h).trans (congrArg _ ((if_neg ?_).trans (if_pos ?_))), State.answer_ended _ _ _ _ (by decide), rfl⟩
  · rw [State.partsOf_contains.2 hmine]
    decide
  · rwa [Ne, bits18_eq_zero]

theorem qtab_writes : Happens (.qtab ld) (fun s => s.obeys ld ∧ s.isOf ld (s.asks ld 0 1) ∧ s.asks ld 1 1 ≤ 7
      ∧ (BitVec.ofNat 64 (s.asks ld 8 8) : DWord).extractLsb' 0 18 = 0)
    fun s s' => s'.ended ld 8 0 [] ∧ (s'.part (s.asks ld 0 1)).quantum (s.asks ld 1 1) = QEntry.ofWord (BitVec.ofNat 64 (s.asks ld 8 8))
      ∧ ∀ i, i ≠ s.asks ld 1 1 → (s'.part (s.asks ld 0 1)).quantum i = (s.part (s.asks ld 0 1)).quantum i := by
  rintro s ⟨h, hmine, hk, hlow⟩
  refine ⟨_, (exec_qtab h).trans (congrArg _ ((if_neg ?_).trans (if_neg ?_))), State.answer_ended _ _ _ _ (by decide), ?_, fun i hi => ?_⟩
  · rw [State.partsOf_contains.2 hmine]
    decide
  · rw [Ne, bits18_eq_zero]
    exact fun hbad => hbad.elim (Nat.not_lt.2 hk) fun h => h hlow
  · rw [State.answer_part, Partition.quantum, State.writeQuantum, State.schedule_quanta, State.part_updPart_same]
    exact SMap.get_set_same _ _ _ _
  · rw [State.answer_part, Partition.quantum, State.writeQuantum, State.schedule_quanta, State.part_updPart_same]
    exact SMap.get_set_other _ _ _ _ _ hi

/-! ### KILL -/

/-- A context killed in some partitions leaves none of its grids there, and each says so. -/
theorem State.foldl_killContext (c : BitVec 16) (code : BitVec 8) (l : List Nat) (s : State) :
    (∀ e ∈ (l.foldl (fun s p => s.killContext p c code) s).grids, e ∈ s.grids ∧ ¬ (e.2.part ∈ l ∧ e.2.ctx = c))
      ∧ (∀ p ∈ l, ((l.foldl (fun s p => s.killContext p c code) s).part p).killst = killWord c code)
      ∧ ∀ p ∉ l, ((l.foldl (fun s p => s.killContext p c code) s).part p).killst = (s.part p).killst := by
  induction l generalizing s with
  | nil => exact ⟨fun e he => ⟨he, fun h => (nomatch h.1)⟩, fun p h => (nomatch h), fun p _ => rfl⟩
  | cons x l ih =>
    obtain ⟨hg, hk, ho⟩ := s.killContext_kills x c code
    obtain ⟨ihg, ihk, iho⟩ := ih (s.killContext x c code)
    refine ⟨fun e he => ?_, fun p hp => ?_, fun p hp => ?_⟩
    · obtain ⟨hmem, hnot⟩ := ihg e he
      rw [hg, List.mem_filter] at hmem
      refine ⟨hmem.1, fun ⟨hp, hc⟩ => ?_⟩
      rcases List.mem_cons.1 hp with hx | hl
      · simp [hx, hc] at hmem
      · exact hnot ⟨hl, hc⟩
    · by_cases hl : p ∈ l
      · exact ihk p hl
      · obtain rfl : p = x := (List.mem_cons.1 hp).resolve_right hl
        exact (iho p hl).trans hk
    · rw [List.mem_cons, not_or] at hp
      exact (iho p hp.2).trans (ho p hp.1)

theorem exec_kill (h : s.obeys ld) {c : BitVec 16} (hc : s.asks ld 0 2 = c.toNat) : ∃ code : Byte, exec (.kill ld) s = .next
    (((s.partsOf ld).foldl (fun s p => s.killContext p c code) (s.takeFresh 1)).answer ld 7 0 []) := by
  have hofNat : BitVec.ofNat 16 c.toNat = c := BitVec.ofNat_toNat ..
  refine ⟨Config.freeByte s.fresh, ?_⟩
  change execKill ld s = _
  rw [execKill, State.command_of h]
  dsimp only
  rw [s.reqNat_eq, hc, hofNat]

theorem kill_kills (c : BitVec 16) : Happens (.kill ld) (fun s => s.obeys ld ∧ s.asks ld 0 2 = c.toNat)
    fun s s' => s'.ended ld 7 0 [] ∧ ∃ code : Byte, ∀ p, s.isOf ld p → (s'.part p).killst = killWord c code
      ∧ ∀ e ∈ s'.grids, ¬ (e.2.part = p ∧ e.2.ctx = c) := by
  rintro s ⟨h, hc⟩
  obtain ⟨code, hexec⟩ := exec_kill h hc
  obtain ⟨hg, hk, -⟩ := State.foldl_killContext c code (s.partsOf ld) (s.takeFresh 1)
  refine ⟨_, hexec, State.answer_ended _ _ _ _ (by decide), code, fun p hp => ⟨hk p (State.mem_partsOf.2 hp), fun e he hbad => ?_⟩⟩
  exact (hg e he).2 ⟨hbad.1 ▸ State.mem_partsOf.2 hp, hbad.2⟩

/-! ### QSET -/

/-- The queue entry that a QSET asks for. -/
def Queue.asSet (q : Queue) (drops rbase word : DWord) : Queue := ((q.takeWord 0 drops).takeWord 2 rbase).takeWord 3 word

/-- The doubleword `k` of a QSET's entry. -/
def State.qsetWord (s : State) (ld k : Nat) : DWord := BitVec.ofNat 64 (s.asks ld (8 * k) 8)

/-- The queue that a QSET makes of the present one. -/
def State.qsetQueue (s : State) (ld j : Nat) : Queue := (s.queue j).asSet (s.qsetWord ld 0) (s.qsetWord ld 2) (s.qsetWord ld 3)

/-- A queue that is valid is of one of the device's partitions. -/
def State.holdsQueue (s : State) (ld : Nat) (q : Queue) : Prop := q.v = true → s.isOf ld q.part.toNat

theorem exec_qset (h : s.obeys ld) : exec (.qset ld) s = .next
    (if streams ≤ s.asks ld 32 4 then s.answer ld 5 3 []
    else if !(!(s.queue (s.asks ld 32 4)).v || (s.partsOf ld).contains (s.queue (s.asks ld 32 4)).part.toNat)
        || !(!(s.qsetQueue ld (s.asks ld 32 4)).v || (s.partsOf ld).contains (s.qsetQueue ld (s.asks ld 32 4)).part.toNat) then s.answer ld 5 1 []
    else match s.writeQueue (s.asks ld 32 4) (fun q => q.asSet (s.qsetWord ld 0) (s.qsetWord ld 2) (s.qsetWord ld 3)) with
      | none => s.answer ld 5 3 []
      | some s => s.answer ld 5 0 []) := by
  change execQset ld s = _
  rw [execQset, State.command_of h]
  dsimp only
  simp only [s.reqNat_eq]
  rfl

theorem State.holdsQueue_iff {q : Queue} : (!q.v || (s.partsOf ld).contains q.part.toNat) = true ↔ s.holdsQueue ld q := by
  rw [State.holdsQueue, Bool.or_eq_true, State.partsOf_contains]
  cases q.v <;> simp

/-- Following a queue to its unit changes no queue. -/
theorem State.followUnit_queues (s : State) (j : Nat) : (s.followUnit j).queues = s.queues := by
  have fold (f : State → Nat → State) (hf : ∀ s a, (f s a).queues = s.queues) (l : List Nat) (s : State) : (l.foldl f s).queues = s.queues := by
    induction l generalizing s with
    | nil => rfl
    | cons x l ih => exact (ih _).trans (hf s x)
  refine fold _ (fun s a => ?_) _ s
  dsimp only
  split <;> rfl

theorem State.queue_of_queues {s s' : State} (h : s'.queues = s.queues) (j : Nat) : s'.queue j = s.queue j := by
  rw [State.queue, h, State.queue]

/-- A queue with no record goes to its new consumer as it is. -/
theorem State.handOver_of_empty {j : Nat} (h : (s.queue j).pool = []) : s.handOver j = s := by
  have hl : ((s.leaveQ j).queue j).pool = [] := by
    rw [State.leaveQ]
    dsimp only
    split
    · exact h
    · refine (congrArg Queue.pool (SMap.get_set_same _ _ _ _)).trans ?_
      dsimp only
      rw [h, List.filter_nil]
  rw [State.handOver, hl, h]
  exact if_pos rfl

/-- The guarantees of the other valid queues. -/
def State.otherMins (s : State) (j : Nat) : Nat := ((s.queues.filter (fun e => e.1 != j && e.2.v)).map (fun e => e.2.min.toNat)).sum

theorem State.writeQueue_refused {j : Nat} {f : Queue → Queue} (h : (f (s.queue j)).cap < (f (s.queue j)).min
    ∨ (f (s.queue j)).v = true ∧ 262144 < s.otherMins j + (f (s.queue j)).min.toNat) : s.writeQueue j f = none := by
  rw [State.writeQueue]
  exact if_pos h

theorem State.writeQueue_empty {j : Nat} {f : Queue → Queue} (hv : (f (s.queue j)).v = true) (hp : (f (s.queue j)).pool = [])
    (hcap : (f (s.queue j)).min ≤ (f (s.queue j)).cap) (hsum : s.otherMins j + (f (s.queue j)).min.toNat ≤ 262144) :
    ∃ s1, s.writeQueue j f = some s1 ∧ s1.queue j = f (s.queue j) := by
  have hset : (s.updQueue j fun _ => f (s.queue j)).queue j = f (s.queue j) := SMap.get_set_same _ _ _ _
  have hno : ¬ ((f (s.queue j)).cap < (f (s.queue j)).min ∨ (f (s.queue j)).v = true ∧ 262144 < s.otherMins j + (f (s.queue j)).min.toNat) := by
    rintro (h | ⟨-, h⟩)
    · exact absurd h (BitVec.not_lt.2 hcap)
    · omega
  refine ⟨_, if_neg hno, ?_⟩
  rw [hv, Bool.not_true, Bool.and_false, if_neg Bool.false_ne_true]
  split
  · exact hset
  · have hq := State.followUnit_queues (s.updQueue j fun _ => f (s.queue j)) j
    rw [State.handOver_of_empty, State.queue_of_queues hq, hset]
    rw [State.queue_of_queues hq, hset]
    exact hp

/-- A QSET of a queue that the device may write, which makes it valid. -/
def State.qsets (s : State) (ld j : Nat) : Prop := s.obeys ld ∧ s.asks ld 32 4 = j ∧ j < 147456 ∧ s.holdsQueue ld (s.queue j)
  ∧ (s.qsetWord ld 3).getLsbD 63 = true ∧ s.isOf ld ((s.qsetWord ld 3).extractLsb' 58 5).toNat

theorem Queue.asSet_eq (q : Queue) (drops rbase word : DWord) : q.asSet drops rbase word = { q with
    drops := drops.setWidth 32, rbase := rbase.extractLsb' 21 43
    v := word.getLsbD 63, part := word.extractLsb' 58 5, cmode := word.getLsbD 57, mtch := word.extractLsb' 55 2
    pol := word.extractLsb' 53 2, min := word.extractLsb' 35 18, cap := word.extractLsb' 17 18, rlog := word.extractLsb' 12 5 } := by
  simp only [Queue.asSet, Queue.takeWord, shiftRight_setWidth]
  rfl

/-- The drops that a QSET's first doubleword gives. -/
theorem State.qsetWord_drops (s : State) (ld : Nat) : (s.qsetWord ld 0).setWidth 32 = BitVec.ofNat 32 (s.asks ld 0 4) := by
  have hsplit (m : Memory) (a : Nat) : Memory.readN m a 8 = Memory.readN m a 4 ++ Memory.readN m (a + 4) 4 := rfl
  refine BitVec.eq_of_toNat_eq ?_
  rw [State.qsetWord, State.asks, State.asks, BitVec.toNat_setWidth, BitVec.toNat_ofNat, BitVec.toNat_ofNat,
    Nat.mod_mod_of_dvd _ (by decide), hsplit, bytesNat_append, Memory.length_readN, Nat.mul_zero]
  omega

theorem exec_qset_of {j : Nat} (h : s.qsets ld j) : exec (.qset ld) s = .next
    (match s.writeQueue j (fun q => q.asSet (s.qsetWord ld 0) (s.qsetWord ld 2) (s.qsetWord ld 3)) with
      | none => s.answer ld 5 3 []
      | some s => s.answer ld 5 0 []) := by
  obtain ⟨ho, rfl, hj, hold, hv, hnew⟩ := h
  have hnew' : s.holdsQueue ld (s.qsetQueue ld (s.asks ld 32 4)) := fun _ => by
    rw [State.qsetQueue, Queue.asSet_eq]
    exact hnew
  rw [exec_qset ho, if_neg (show ¬ streams ≤ s.asks ld 32 4 from Nat.not_le.2 hj), State.holdsQueue_iff.2 hold, State.holdsQueue_iff.2 hnew']
  rfl

theorem qset_writes (j : Nat) : Happens (.qset ld) (fun s => s.qsets ld j ∧ (s.queue j).pool = [] ∧ (s.queue j).rcnt = 0
      ∧ (s.qsetWord ld 3).extractLsb' 35 18 ≤ (s.qsetWord ld 3).extractLsb' 17 18
      ∧ s.otherMins j + ((s.qsetWord ld 3).extractLsb' 35 18).toNat ≤ 262144)
    fun s s' => s'.ended ld 5 0 [] ∧ s'.queue j = (s.queue j).asSet (s.qsetWord ld 0) (s.qsetWord ld 2) (s.qsetWord ld 3) := by
  rintro s ⟨h, hpool, -, hcap, hsum⟩
  have hv := h.2.2.2.2.1
  obtain ⟨s1, hw, hq⟩ := State.writeQueue_empty (s := s) (j := j) (f := fun q => q.asSet (s.qsetWord ld 0) (s.qsetWord ld 2) (s.qsetWord ld 3))
    (by rw [Queue.asSet_eq]; exact hv) (by rw [Queue.asSet_eq]; exact hpool) (by rw [Queue.asSet_eq]; exact hcap)
    (by rw [Queue.asSet_eq]; exact hsum)
  exact ⟨_, (exec_qset_of h).trans (by rw [hw]), State.answer_ended _ _ _ _ (by decide), hq⟩

theorem qset_refused (j : Nat) : Happens (.qset ld) (fun s => s.qsets ld j
      ∧ ((s.qsetWord ld 3).extractLsb' 17 18 < (s.qsetWord ld 3).extractLsb' 35 18
        ∨ 262144 < s.otherMins j + ((s.qsetWord ld 3).extractLsb' 35 18).toNat))
    fun s s' => s'.ended ld 5 3 [] ∧ s'.queues = s.queues := by
  rintro s ⟨h, hbad⟩
  have hv := h.2.2.2.2.1
  have hw := State.writeQueue_refused (s := s) (j := j) (f := fun q => q.asSet (s.qsetWord ld 0) (s.qsetWord ld 2) (s.qsetWord ld 3))
    (by rw [Queue.asSet_eq]; exact hbad.imp_right fun h => ⟨hv, h⟩)
  exact ⟨_, (exec_qset_of h).trans (by rw [hw]), State.answer_ended _ _ _ _ (by decide), rfl⟩

theorem qset_foreign (j : Nat) : Happens (.qset ld) (fun s => s.obeys ld ∧ s.asks ld 32 4 = j ∧ j < 147456 ∧ (s.queue j).v = true
      ∧ ¬ s.isOf ld (s.queue j).part.toNat)
    fun s s' => s'.ended ld 5 1 [] ∧ s'.queues = s.queues := by
  rintro s ⟨h, rfl, hj, hv, hno⟩
  have hold : (!(s.queue (s.asks ld 32 4)).v || (s.partsOf ld).contains (s.queue (s.asks ld 32 4)).part.toNat) = false :=
    Bool.eq_false_iff.2 fun hold => hno (State.holdsQueue_iff.1 hold hv)
  refine ⟨_, (exec_qset h).trans (congrArg _ ((if_neg (Nat.not_le.2 hj)).trans (if_pos ?_))), State.answer_ended _ _ _ _ (by decide), rfl⟩
  rw [hold]
  rfl

/-! ### SET_STATE -/

/-- Whether each logical device is enabled, and the state that it requests. -/
def State.requests (s : State) : List (Bool × BitVec 2) := s.lds.map fun e => (e.2.v, e.2.reqState)

/-- The least of two requests, where there is one before. -/
def leastAsked (m : Option (BitVec 2)) (r : BitVec 2) : Option (BitVec 2) := match m with
  | none => some r
  | some q => some (if r < q then r else q)

theorem State.asked_eq (s : State) : s.asked = ((s.requests.filter (·.1)).map (·.2)).foldl leastAsked none := by
  rw [State.asked, State.requests, List.filter_map, List.map_map, List.foldl_map]
  rfl

theorem foldl_leastAsked (l : List (BitVec 2)) (m : BitVec 2) : ∃ q, l.foldl leastAsked (some m) = some q ∧ (q = m ∨ q ∈ l)
    ∧ q.toNat ≤ m.toNat ∧ ∀ r ∈ l, q.toNat ≤ r.toNat := by
  induction l generalizing m with
  | nil => exact ⟨m, rfl, .inl rfl, le_rfl, fun r h => (nomatch h)⟩
  | cons x l ih =>
    obtain ⟨q, hq, hmem, hle, hall⟩ := ih (if x < m then x else m)
    refine ⟨q, hq, ?_, ?_, fun r hr => ?_⟩
    · rcases hmem with h | h
      · split at h
        · exact .inr (h ▸ List.mem_cons_self)
        · exact .inl h
      · exact .inr (List.mem_cons_of_mem _ h)
    · refine hle.trans ?_
      split
      · next h => exact Nat.le_of_lt h
      · exact le_rfl
    · rcases List.mem_cons.1 hr with rfl | hr
      · refine hle.trans ?_
        split
        · exact le_rfl
        · next h => exact Nat.not_lt.1 h
      · exact hall r hr

/-- The state asked for is the least request of an enabled device. -/
theorem State.asked_least {r : BitVec 2} (h : (true, r) ∈ s.requests) : ∃ q, s.asked = some q ∧ (true, q) ∈ s.requests
    ∧ ∀ x, (true, x) ∈ s.requests → q.toNat ≤ x.toNat := by
  have hiff (x : BitVec 2) : x ∈ (s.requests.filter (·.1)).map (·.2) ↔ (true, x) ∈ s.requests := by
    simp [List.mem_map, List.mem_filter]
  rw [State.asked_eq]
  have hr := (hiff r).2 h
  revert hr hiff
  generalize (s.requests.filter (·.1)).map (·.2) = l
  intro hiff hr
  cases l with
  | nil => cases hr
  | cons m l =>
    obtain ⟨q, hq, hmem, hle, hall⟩ := foldl_leastAsked l m
    refine ⟨q, hq, (hiff q).1 (List.mem_cons.2 hmem), fun x hx => ?_⟩
    rcases List.mem_cons.1 ((hiff x).2 hx) with rfl | hx
    · exact hle
    · exact hall x hx

theorem State.mem_requests {x : Bool × BitVec 2} : x ∈ s.requests ↔ ∃ e ∈ s.lds, e.2.v = x.1 ∧ e.2.reqState = x.2 := by
  rw [State.requests, List.mem_map]
  refine exists_congr fun e => and_congr_right fun _ => ?_
  rw [Prod.ext_iff]

/-- A change of an enabled device that leaves it enabled stands in its place. -/
theorem State.updLd_put {f : LDev → LDev} (hv : (f (s.ld ld)).v = true) : (s.updLd ld f).lds = s.lds.put ld (f (s.ld ld)) := by
  have hne : f (s.ld ld) ≠ LDev.reset := fun h => by
    rw [h] at hv
    exact Bool.false_ne_true hv
  exact if_neg hne

theorem State.find?_ld (hv : (s.ld ld).v = true) : SMap.find? s.lds ld = some (s.ld ld) := by
  rw [State.ld, SMap.get] at *
  cases h : SMap.find? s.lds ld with
  | some d => rfl
  | none =>
    rw [h] at hv
    exact absurd hv Bool.false_ne_true

/-- A command's end asks nothing new. -/
theorem State.answer_requests (hs : SMap.sortedFrom none s.lds = true) (hv : (s.ld ld).v = true) (code sts : Nat) (rsp : List Byte) :
    (s.answer ld code sts rsp).requests = s.requests := by
  rw [State.requests, State.answer, State.updLd_put, State.requests]
  · refine SMap.map_put_of_find? (g := fun d => (d.v, d.reqState)) hs (State.find?_ld hv) ?_
    rfl
  · exact hv

/-- The groves at the rate of the cap. -/
def State.rated (s : State) : State :=
  (List.range 32).foldl (fun s g => s.updGrove g (fun x => { x with rate := rateFor s.dev.cap.toNat })) s

theorem State.rated_frame (s : State) : ∃ g, s.rated = { s with groves := g } := by
  have fold (f : State → Nat → State) (hf : ∀ s g, ∃ x, f s g = { s with groves := x }) (l : List Nat) (s : State) :
      ∃ x, l.foldl f s = { s with groves := x } := by
    induction l generalizing s with
    | nil => exact ⟨s.groves, rfl⟩
    | cons y l ih =>
      obtain ⟨x, hx⟩ := hf s y
      obtain ⟨z, hz⟩ := ih (f s y)
      exact ⟨z, by rw [List.foldl_cons, hz, hx]⟩
  exact fold _ (fun s g => ⟨_, rfl⟩) _ s

theorem State.aimRails_frame (s : State) : ∃ x, s.aimRails = { s with rails := x } := by
  have fold (f : State → Nat → State) (hf : ∀ s g, ∃ x, f s g = { s with rails := x }) (l : List Nat) (s : State) :
      ∃ x, l.foldl f s = { s with rails := x } := by
    induction l generalizing s with
    | nil => exact ⟨s.rails, rfl⟩
    | cons y l ih =>
      obtain ⟨x, hx⟩ := hf s y
      obtain ⟨z, hz⟩ := ih (f s y)
      exact ⟨z, by rw [List.foldl_cons, hz, hx]⟩
  refine fold _ (fun s r => ?_) _ s
  dsimp only
  split
  · exact ⟨s.rails, rfl⟩
  · exact ⟨_, rfl⟩

/-- The logical devices of a device that goes off. -/
def offLds (m : SMap LDev) : SMap LDev := m.map fun (e : Nat × LDev) => (e.1, { e.2 with parts := 0, mbHeld := none })

theorem sortedFrom_offLds (m : SMap LDev) (lo : Option Nat) (h : SMap.sortedFrom lo m = true) : SMap.sortedFrom lo (offLds m) = true := by
  induction m generalizing lo with
  | nil => rfl
  | cons e m ih =>
    obtain ⟨h0, h1⟩ := Bool.and_eq_true_iff.1 h
    exact Bool.and_eq_true_iff.2 ⟨h0, ih _ h1⟩

/-- What is left when the device goes off: nothing of its memories but the pool of the CXL tier, no thread, and the logical devices
with no partition. -/
theorem State.goOff_left (s : State) : s.goOff.mem = s.mem.filter (fun e => decide (2 ^ 52 ≤ e.1)) ∧ s.goOff.scr = [] ∧ s.goOff.l2 = []
    ∧ s.goOff.threads = [] ∧ s.goOff.lds = offLds s.lds ∧ s.goOff.dev = s.dev := by
  obtain ⟨u, hu, hmem, hscr, hl2, hthreads, hlds, hdev⟩ : ∃ u : State, s.goOff = u.rated ∧ u.mem = s.mem.filter (fun e => decide (2 ^ 52 ≤ e.1))
      ∧ u.scr = [] ∧ u.l2 = [] ∧ u.threads = [] ∧ u.lds = offLds s.lds ∧ u.dev = s.dev :=
    ⟨_, rfl, rfl, rfl, rfl, rfl, rfl, rfl⟩
  obtain ⟨g, hg⟩ := u.rated_frame
  rw [hu, hg]
  exact ⟨hmem, hscr, hl2, hthreads, hlds, hdev⟩

theorem exec_setState {r : BitVec 2} (h : s.obeys ld) (hr : s.asks ld 0 1 = r.toNat) :
    exec (.setState ld) s = .next ((s.updLd ld fun d => { d with reqState := r }).settleState.answer ld 2 0 []) := by
  have hofNat : BitVec.ofNat 2 r.toNat = r := BitVec.ofNat_toNat ..
  have hreq : BitVec.ofNat 2 ((s.ld ld).reqNat 0 1) = r := by rw [s.reqNat_eq, hr, hofNat]
  change execSetState ld s = _
  rw [execSetState, State.command_of h, State.updLd, hreq]
  rfl

/-- What is left in the state that is settled: the device's state is the least request, and where it goes off nothing is kept. -/
theorem State.settleState_eq (s : State) {q : BitVec 2} (h4 : s.dev.state.toNat < 4) (hq : s.asked = some q) :
    (s.settleState.dev.state = q.setWidth 4)
      ∧ (s.settleState.lds = s.lds ∨ s.settleState.lds = offLds s.lds)
      ∧ (q = 3 → s.dev.state ≠ 3 → s.settleState.mem = s.mem.filter (fun e => decide (2 ^ 52 ≤ e.1)) ∧ s.settleState.scr = []
        ∧ s.settleState.l2 = [] ∧ s.settleState.threads = []) := by
  obtain ⟨u, hu⟩ : ∃ u : State, u = { s with dev := { s.dev with state := q.setWidth 4 } } := ⟨_, rfl⟩
  have hsettle : s.settleState = if q = 3 && s.dev.state ≠ 3 then u.goOff.aimRails else u := by
    rw [State.settleState, if_neg (Nat.not_le.2 h4), hq, hu]
  have hst : u.dev.state = q.setWidth 4 := by rw [hu]
  have hlds : u.lds = s.lds := by rw [hu]
  have hmem : u.mem = s.mem := by rw [hu]
  by_cases h : (q = 3 && s.dev.state ≠ 3) = true
  · obtain ⟨hm, hscr, hl2, hthreads, hl, hdev⟩ := u.goOff_left
    obtain ⟨x, hx⟩ := u.goOff.aimRails_frame
    rw [hsettle, if_pos h, hx]
    dsimp only
    rw [hm, hscr, hl2, hthreads, hl, hdev, hmem, hlds]
    exact ⟨hst, .inr rfl, fun _ _ => ⟨rfl, rfl, rfl, rfl⟩⟩
  · rw [hsettle, if_neg h]
    exact ⟨hst, .inl hlds, fun h3 hs => absurd (Bool.and_eq_true_iff.2 ⟨decide_eq_true h3, decide_eq_true hs⟩) h⟩

theorem offLds_requests (m : SMap LDev) : (offLds m).map (fun e => (e.2.v, e.2.reqState)) = m.map fun e => (e.2.v, e.2.reqState) := by
  rw [offLds, List.map_map]
  rfl

theorem offLds_ld (m : SMap LDev) (ld : Nat) {d : LDev} (h : SMap.find? m ld = some d) :
    SMap.find? (offLds m) ld = some { d with parts := 0, mbHeld := none } := by
  rw [offLds, SMap.find?_map (fun (e : Nat × LDev) => (e.1, { e.2 with parts := 0, mbHeld := none })) fun _ => rfl, h]
  rfl

theorem setState_sets (r : BitVec 2) : Happens (.setState ld)
    (fun s => s.obeys ld ∧ s.dev.state.toNat < 4 ∧ SMap.sortedFrom none s.lds = true ∧ s.asks ld 0 1 = r.toNat)
    fun s s' => s'.ended ld 2 0 [] ∧ (s'.ld ld).reqState = r
      ∧ (∀ e ∈ s'.lds, e.2.v = true → s'.dev.state.toNat ≤ e.2.reqState.toNat)
      ∧ (∃ e ∈ s'.lds, e.2.v = true ∧ s'.dev.state.toNat = e.2.reqState.toNat)
      ∧ (s'.dev.state = 3 → s.dev.state ≠ 3 → s'.mem = s.mem.filter (fun e => decide (2 ^ 52 ≤ e.1)) ∧ s'.scr = [] ∧ s'.l2 = [] ∧ s'.threads = []) := by
  rintro s ⟨h, h4, hsorted, hr⟩
  have hv : (s.ld ld).v = true := h.1.1
  obtain ⟨u, hu⟩ : ∃ u, u = s.updLd ld fun d => { d with reqState := r } := ⟨_, rfl⟩
  have hlds : u.lds = s.lds.put ld { s.ld ld with reqState := r } := by rw [hu]; exact State.updLd_put hv
  have hsu : SMap.sortedFrom none u.lds = true := by
    rw [hlds]
    exact SMap.sortedFrom_put _ _ _ _ hsorted fun a h => (nomatch h)
  have hfu : SMap.find? u.lds ld = some { s.ld ld with reqState := r } := by rw [hlds, SMap.find?_put_same]
  have hasks : (true, r) ∈ u.requests := State.mem_requests.2 ⟨_, SMap.mem_of_find? hfu, hv, rfl⟩
  obtain ⟨q, hq, hmem, hleast⟩ := State.asked_least hasks
  have hdev : u.dev = s.dev := by rw [hu]; rfl
  obtain ⟨hstate, hlds', hoff⟩ := State.settleState_eq u (by rw [hdev]; exact h4) hq
  have hqn : u.settleState.dev.state.toNat = q.toNat := by
    rw [hstate, BitVec.toNat_setWidth]
    have := q.isLt
    omega
  have hreqs : u.settleState.requests = u.requests := by
    rw [State.requests]
    rcases hlds' with h | h <;> rw [h]
    · rfl
    · exact offLds_requests _
  have hsorted' : SMap.sortedFrom none u.settleState.lds = true := by
    rcases hlds' with h | h <;> rw [h]
    · exact hsu
    · exact sortedFrom_offLds _ _ hsu
  have hld' : (u.settleState.ld ld).v = true ∧ (u.settleState.ld ld).reqState = r := by
    rw [State.ld, SMap.get]
    rcases hlds' with h | h <;> rw [h]
    · rw [hfu]
      exact ⟨hv, rfl⟩
    · rw [offLds_ld _ _ hfu]
      exact ⟨hv, rfl⟩
  have hans := State.answer_requests hsorted' hld'.1 2 0 []
  refine ⟨_, exec_setState h hr, ?_⟩
  rw [← hu]
  refine ⟨State.answer_ended _ _ _ _ (by decide), by rw [State.answer_ld]; exact hld'.2, fun e he hev => ?_, ?_, fun h3 hs3 => ?_⟩
  · refine hqn.le.trans (hleast _ ?_)
    rw [← hreqs, ← hans]
    exact State.mem_requests.2 ⟨e, he, hev, rfl⟩
  · rw [← hreqs, ← hans, State.mem_requests] at hmem
    obtain ⟨e, he, hev, her⟩ := hmem
    exact ⟨e, he, hev, hqn.trans (congrArg BitVec.toNat her.symm)⟩
  · have h3' : u.settleState.dev.state = 3 := h3
    rw [h3'] at hqn
    have hq3 : q = 3 := BitVec.eq_of_toNat_eq hqn.symm
    obtain ⟨h1, h2, h5, h6⟩ := hoff hq3 (hdev ▸ hs3)
    refine ⟨h1.trans ?_, h2, h5, h6⟩
    rw [hu]
    rfl

/-! ### IMAGE, and recovery -/

/-- The state with bytes of the image written. -/
def State.withImage (s : State) (a : Nat) (bs : List Byte) : State := { s with dev := { s.dev with image := Memory.writeN s.dev.image a bs } }

theorem State.withImage_image (s : State) (a : Nat) (bs : List Byte) : (s.withImage a bs).dev.image = Memory.writeN s.dev.image a bs := rfl

theorem State.answer_dev (s : State) (ld code sts : Nat) (rsp : List Byte) : (s.answer ld code sts rsp).dev = s.dev := rfl

theorem exec_image (h : s.hasCommand ld) (h5 : s.dev.state = 5) :
    exec (.image ld) s = .next ((s.withImage (s.asks ld 0 4) ((s.ld ld).req 4 252)).answer ld 0xF0 0 []) := by
  have htaking := State.taking_of h (by rw [h5]; decide)
  change execImage ld s = _
  rw [execImage, htaking, if_neg (by decide), if_neg (not_not.2 h5), ← s.reqNat_eq]
  rfl

theorem image_recovers : Happens (.image ld) (fun s => s.hasCommand ld ∧ s.dev.state = 5)
    fun s s' => s'.ended ld 0xF0 0 [] ∧ Memory.holds s.dev.image s'.dev.image (s.asks ld 0 4) ((s.ld ld).req 4 252) := by
  rintro s ⟨h, h5⟩
  refine ⟨_, exec_image h h5, State.answer_ended _ _ _ _ (by decide), ?_⟩
  rw [State.answer_dev, State.withImage_image]
  exact Memory.holds_writeN _ _ _

theorem image_unknown : Happens (.image ld) (fun s => s.obeys ld) fun s s' => s'.ended ld 0xF0 2 [] ∧ s'.dev = s.dev := by
  rintro s ⟨h, h4, h5⟩
  have htaking := State.taking_of h h4
  refine ⟨s.answer ld 0xF0 2 [], ?_, State.answer_ended _ _ _ _ (by decide), rfl⟩
  change execImage ld s = _
  rw [execImage, htaking, if_neg (by decide), if_pos h5]

/-- The commands that recovery does not know, with their codes. -/
theorem recovery_refuses {x : Instr × Nat} (hx : x ∈ [(Instr.setOp ld, 1), (.setState ld, 2), (.bind ld 0, 3), (.unbind ld, 4), (.qset ld, 5),
      (.slotMload ld, 6), (.slotMarm ld, 6), (.slotMdis ld, 6), (.slotMstat ld, 6), (.kill ld, 7), (.qtab ld, 8)]) :
    Happens x.1 (fun s => s.hasCommand ld ∧ s.dev.state = 5) fun s s' => s'.ended ld x.2 2 [] ∧ s' = { s with lds := s'.lds } := by
  rintro s ⟨h, h5⟩
  refine ⟨s.answer ld x.2 2 [], ?_, State.answer_ended _ _ _ _ (by decide), rfl⟩
  have hrefuse (code : Nat) (f : State → State) : Host.Outcome.next (s.command ld code f) = (.next (s.answer ld code 2 []) :
      Host.Outcome State Fault Refusal) := congrArg _ (State.command_recovery h h5 code f)
  simp only [List.mem_cons, List.not_mem_nil, or_false] at hx
  rcases hx with rfl | rfl | rfl | rfl | rfl | rfl | rfl | rfl | rfl | rfl | rfl <;> exact hrefuse _ _

/-! ### SLOT -/

/-- A SLOT command of an operation, on a slot, with its argument. -/
def State.slotAsks (s : State) (ld op a v : Nat) : Prop := s.obeys ld ∧ s.asks ld 0 1 = op ∧ s.asks ld 4 4 = a ∧ a < 4096 ∧ s.asks ld 8 8 = v

/-- The slot is of one of the device's partitions. -/
def State.slotIsOf (s : State) (ld a : Nat) : Prop := (s.slot a).own = true ∧ (s.ld ld).parts.getLsbD (s.slot a).part.toNat = true

theorem State.slotIsOf_partsOf {a : Nat} (h : s.slotIsOf ld a) : (s.partsOf ld).contains (s.slot a).part.toNat = true :=
  State.partsOf_contains.2 ⟨(s.slot a).part.isLt, h.2⟩

/-- The end of a SLOT command of a partition: answered, held, or still waiting for the host. -/
def State.slotEnd (s : State) (ld part : Nat) (rsp : List Byte) : UnitDone → State
  | .ok => s.answer ld 6 0 rsp
  | .code c => s.answer ld 6 c.toNat []
  | .held idx => s.updLd ld (fun d => { d with cmd := 6, mbHeld := some (part, idx) })
  | .host => s

/-- A SLOT command on a slot of one of the device's partitions, and its end. -/
theorem State.slotCommand_of {op a v : Nat} (h : s.slotAsks ld op a v) (hm : s.slotIsOf ld a)
    {f : State → Nat → Nat → Nat → State × UnitDone × List Byte} {s1 : State} {d : UnitDone} {rsp : List Byte}
    (hf : f s (s.slot a).part.toNat a v = (s1, d, rsp)) : s.slotCommand ld op f = s1.slotEnd ld (s.slot a).part.toNat rsp d := by
  obtain ⟨ho, hop, ha, hlt, hv⟩ := h
  have hne : (s.partsOf ld).isEmpty = false := by
    rw [List.isEmpty_eq_false_iff]
    rintro h
    have := State.slotIsOf_partsOf hm
    rw [h] at this
    exact Bool.false_ne_true this
  rw [State.slotCommand, State.command_of ho]
  dsimp only
  rw [s.reqNat_eq, s.reqNat_eq, s.reqNat_eq, hop, ha, hv, if_neg (not_not.2 rfl), if_neg (show ¬ slotCount ≤ a from Nat.not_le.2 hlt), hne,
    State.slotIsOf_partsOf hm, hm.1]
  refine (if_neg (by decide)).trans ?_
  rw [if_pos rfl, hf]
  cases d <;> rfl

/-- A SLOT command on a slot of a partition that is not the device's. -/
theorem State.slotCommand_foreign {op a v : Nat} (h : s.slotAsks ld op a v) (hown : (s.slot a).own = true)
    (hno : (s.ld ld).parts.getLsbD (s.slot a).part.toNat = false) (f : State → Nat → Nat → Nat → State × UnitDone × List Byte) :
    s.slotCommand ld op f = s.answer ld 6 1 [] := by
  obtain ⟨ho, hop, ha, hlt, hv⟩ := h
  have hc : (s.partsOf ld).contains (s.slot a).part.toNat = false := Bool.eq_false_iff.2 fun h => by
    rw [State.partsOf_contains] at h
    exact Bool.false_ne_true (hno.symm.trans h.2)
  rw [State.slotCommand, State.command_of ho]
  dsimp only
  rw [s.reqNat_eq, s.reqNat_eq, hop, ha, if_neg (not_not.2 rfl), if_neg (show ¬ slotCount ≤ a from Nat.not_le.2 hlt), hown, hc]
  exact if_pos (by simp)

theorem exec_slotMload {a v : Nat} (h : s.slotAsks ld 0 a v) (hm : s.slotIsOf ld a) {s1 : State} {d : UnitDone}
    (hd : s.mloadFor (s.slot a).part.toNat a v = (s1, d)) :
    exec (.slotMload ld) s = .next (s1.slotEnd ld (s.slot a).part.toNat [] d) :=
  congrArg Host.Outcome.next (State.slotCommand_of h hm (by rw [hd]))

theorem exec_slotMarm {a v : Nat} (h : s.slotAsks ld 1 a v) (hm : s.slotIsOf ld a) {s1 : State} {d : UnitDone} (hd : s.marm a = (s1, d)) :
    exec (.slotMarm ld) s = .next (s1.slotEnd ld (s.slot a).part.toNat [] d) :=
  congrArg Host.Outcome.next (State.slotCommand_of h hm (by rw [hd]))

theorem exec_slotMdis {a v : Nat} (h : s.slotAsks ld 2 a v) (hm : s.slotIsOf ld a) :
    exec (.slotMdis ld) s = .next ((s.mdis a).answer ld 6 0 []) := 
  congrArg Host.Outcome.next (State.slotCommand_of (s1 := s.mdis a) (d := .ok) (rsp := []) h hm rfl)

theorem exec_slotMstat {a v : Nat} (h : s.slotAsks ld 3 a v) (hm : s.slotIsOf ld a) :
    exec (.slotMstat ld) s = .next (s.answer ld 6 0 (leBytes 8 ((s.slot a).stat v).toNat)) :=
  congrArg Host.Outcome.next (State.slotCommand_of (s1 := s) (d := .ok) h hm rfl)

theorem State.answer_slot (s : State) (ld code sts : Nat) (rsp : List Byte) (a : Nat) : (s.answer ld code sts rsp).slot a = s.slot a := rfl

/-- An arming of streams that do not all serve. -/
theorem State.marm_invalid {a j : Nat} (hst : (s.slot a).st = 1) (hj : j ∈ patSids (s.slot a).pat) (hv : (s.queue j).v = false) :
    s.marm a = (s, .code 0x31) := by
  have hlive : ¬ (s.slot a).live = true := by simp [Slot.live, hst]
  have harm : s.armable (s.slot a) = false := by
    have hall : (((patSids (s.slot a).pat).map s.queue).all fun q => q.v && q.part == (s.slot a).part && !q.cmode) = false := by
      rw [List.all_eq_false]
      exact ⟨s.queue j, List.mem_map.2 ⟨j, hj, rfl⟩, by simp [hv]⟩
    rw [State.armable, hall]
    simp
  rw [State.marm, if_neg hlive]
  exact if_pos (.inr (by rw [harm]; rfl))

end

/-- The rules of the SLOT commands (R298 to R301, R390). -/
theorem mailboxSlotCommands : Rules.MailboxSlotCommands := by
  unfold Rules.MailboxSlotCommands
  intro req ready mine ends
  have hready {ld op a v : Nat} {s : State} (h : ready ld op a v s) : s.slotAsks ld op a v := by
    obtain ⟨hv, hgo, hheld, hq, hp, h4, h5, hop, ha, hlt, hv'⟩ := h
    exact ⟨⟨⟨hv, hgo, hheld, hp, hq⟩, h4, h5⟩, hop, ha, hlt, hv'⟩
  have hends {ld : Nat} (s : State) (sts : Nat) {rsp : List Byte} (h : rsp.length ≤ 256) : ends ld (s.answer ld 6 sts rsp) sts rsp :=
    State.answer_ended _ _ _ _ h
  refine ⟨fun ld a v s1 pat => ?_, fun ld a v => ⟨?_, ?_, ?_⟩, fun ld a v u => ?_, fun ld a v => ?_, fun ld a v => ?_, fun ld a v => ?_,
    fun ld a v op i hi => ?_⟩
  · rintro s ⟨h, hm, hal, hva, hst, hread, hok⟩
    exact ⟨_, exec_slotMload (hready h) hm (State.mloadFor_reads hal hva hst hread hok), hends _ 0 (by decide),
      State.slot_updSlot_same s1 a fun x => x.loaded pat⟩
  · rintro s ⟨h, hm, hmis⟩
    exact ⟨_, exec_slotMload (hready h) hm (s.mloadFor_misaligned hmis), hends _ _ (by decide), rfl⟩
  · rintro s ⟨h, hm, hal, hva⟩
    exact ⟨_, exec_slotMload (hready h) hm (s.mloadFor_beyond hal hva), hends _ _ (by decide), rfl⟩
  · rintro s ⟨h, hm, hal, hva, hst⟩
    exact ⟨_, exec_slotMload (hready h) hm (s.mloadFor_armed hal hva hst), hends _ _ (by decide), rfl⟩
  · rintro s ⟨h, hm, hst, hne, hq⟩
    obtain ⟨s1, hmarm, hs1⟩ := State.marm_of_streams hst hne hq
    exact ⟨_, exec_slotMarm (hready h) hm hmarm, hends _ 0 (by decide), hs1⟩
  · rintro s ⟨h, hm, hst, j, hj, hv⟩
    exact ⟨_, exec_slotMarm (hready h) hm (State.marm_invalid hst hj hv), hends _ _ (by decide), rfl⟩
  · rintro s ⟨h, hm, hst, hq⟩
    exact ⟨_, exec_slotMdis (hready h) hm, hends _ 0 (by decide), State.mdis_of_empty hst hq⟩
  · rintro s ⟨h, hm⟩
    exact ⟨_, exec_slotMstat (hready h) hm, hends _ 0 (by rw [leBytes_length]; decide), rfl⟩
  · rintro s ⟨h, hown, hno⟩
    have hforeign (f : State → Nat → Nat → Nat → State × UnitDone × List Byte) : Host.Outcome.next (s.slotCommand ld op f)
        = (.next (s.answer ld 6 1 []) : Host.Outcome State Fault Refusal) :=
      congrArg _ (State.slotCommand_foreign (hready h) hown hno f)
    refine ⟨s.answer ld 6 1 [], ?_, hends _ _ (by decide), rfl⟩
    simp only [List.mem_cons, List.not_mem_nil, or_false, Prod.mk.injEq] at hi
    rcases hi with ⟨rfl, rfl⟩ | ⟨rfl, rfl⟩ | ⟨rfl, rfl⟩ | ⟨rfl, rfl⟩ <;> exact hforeign _

/-- The rules of the other commands (R389, R390). -/
theorem mailboxCommands : Rules.MailboxCommands := by
  unfold Rules.MailboxCommands
  intro taken ready ends req mine
  have htaken : taken = fun ld s => s.hasCommand ld := rfl
  have hready : ready = fun ld s => s.obeys ld := rfl
  have hends : ends = fun ld s' code sts rsp => s'.ended ld code sts rsp := rfl
  have hreq : req = State.asks := rfl
  have hmine : mine = State.isOf := rfl
  clear_value taken ready ends req mine
  subst htaken hready hends hreq hmine
  refine ⟨fun ld => ⟨setOp_votes, setOp_refused⟩, fun ld r => setState_sets r, fun ld e p => ⟨bind_binds, bind_refused⟩,
    fun ld p h => ?_, fun ld j => ?_, fun ld c => kill_kills c, fun ld p k => ?_, fun ld => ⟨image_recovers, image_unknown, fun x hx => recovery_refuses hx⟩⟩
  · intro knows
    exact ⟨unbind_unbinds p h, unbind_inUse p h, unbind_none h⟩
  · intro word sum ours
    refine ⟨fun s hs => ?_, qset_refused j, qset_foreign j⟩
    obtain ⟨s', hexec, hend, hq⟩ := qset_writes j s hs
    refine ⟨s', hexec, hend, hq.trans ((Queue.asSet_eq _ _ _ _).trans ?_)⟩
    have hv : (s.qsetWord ld 3).getLsbD 63 = true := hs.1.2.2.2.2.1
    rw [State.qsetWord_drops, hv]
    rfl
  · intro word
    refine ⟨?_, ?_, ?_⟩
    · rintro s ⟨h, rfl, hmine, rfl, hk, hlow⟩
      obtain ⟨s', hexec, hend, hq, hother⟩ := qtab_writes s ⟨h, hmine, hk, hlow⟩
      refine ⟨s', hexec, hend, hq.trans ?_, hother⟩
      rw [QEntry.ofWord, shiftRight_setWidth, shiftRight_setWidth, shiftRight_setWidth, shiftRight_setWidth]
      rfl
    · rintro s ⟨h, rfl, hmine, rfl, hbad⟩
      exact qtab_invalid s ⟨h, hmine, hbad⟩
    · rintro s ⟨h, rfl, hno⟩
      exact qtab_refused s ⟨h, hno⟩

/-- Settles O46: the commands, then those on slots. -/
theorem mailboxActs : Obligations.MailboxActs := ⟨mailboxCommands, mailboxSlotCommands⟩

end Sys2Proof.Machine
end

section
/-!
Grids are made, teams placed, and both retire (02 R44 to R46, R55, R56; 07 R177; 13 R307, R309 to R312).
-/

namespace Sys2Proof.Machine

theorem State.greqs_of_unthreaded {s t : State} (h : t.unthreaded = s.unthreaded) : t.greqs = s.greqs := congrArg (fun x => x.greqs) h

/-! ### Requests for grids that a run of lanes makes -/

/-- What asks for grids only adds requests. -/
theorem State.applyLane_greqs (s : State) (k : Nat) (o : LaneOut) {r : GReq} (hr : r ∈ s.greqs) : r ∈ (s.applyLane k o).greqs := by
  have ho (s : State) (k : Nat) : (s.onward k).greqs = s.greqs := by
    unfold State.onward
    dsimp only
    split <;> exact congrArg (fun z => z.greqs) (State.usedAnswer_control s (.lane k))
  have hi (l : List Op) (s : State) : (l.foldl (fun s o => s.issueOp o) s).greqs = s.greqs := by
    induction l generalizing s with
    | nil => rfl
    | cons o l ih =>
      refine (ih _).trans ?_
      have hrn : (s.renewed o).greqs = s.greqs := by
        unfold State.renewed
        split
        · rfl
        · split_ifs <;> rfl
      exact hrn
  cases o with
  | off => exact (ho s k).symm ▸ hr
  | fault l => exact (ho s k).symm ▸ hr
  | ask vpn w iss =>
    have := congrArg (fun z => z.greqs) (State.askHost_control { (s.usedAnswer (.lane k)).updThread k fun t =>
      { t with hold := .xlate vpn } with late := s.late.put k iss } (.lane k) (s.partOf k) vpn w)
    exact (this.trans (congrArg (fun z => z.greqs) (State.usedAnswer_control s (.lane k)))).symm ▸ hr
  | ok fx =>
    have hz := (hi fx.ops ((s.onward k).updThread k fun t => match fx.jump with
      | none => (fx.th t).next
      | some pc => (fx.th t).setPc pc)).trans (ho s k)
    simp only [State.applyLane]
    cases fx.req with
    | none => exact hz.symm ▸ hr
    | some q => exact List.mem_append_left _ (hz.symm ▸ hr)

theorem State.foldl_applyLane_greqs (outs : List (Nat × LaneOut)) {s : State} {r : GReq} (hr : r ∈ s.greqs) :
    r ∈ (outs.foldl (fun s e => s.applyLane e.1 e.2) s).greqs := by
  induction outs generalizing s with
  | nil => exact hr
  | cons e outs ih => exact ih (s.applyLane_greqs e.1 e.2 hr)

section
variable {s : State} {i : Instr} {gd : Thread → Bool} {f : Lane → LaneRes} {k : Nat} {t : Thread}

/-- A lane that asks for a grid is held under its request's number. -/
theorem State.applyLane_asks {fx : Fx} {r : GReq} (ht : s.thread? k = some t) (ho : fx.ops = []) (hr : fx.req = some r) :
    ∃ n a, (s.applyLane k (.ok fx)).thread? k = some { fx.after t with hold := .glaunch n }
      ∧ { r with id := n, after := a } ∈ (s.applyLane k (.ok fx)).greqs := by
  refine ⟨(s.onward k).nextEnt, (s.onward k).nextOp, ?_, ?_⟩
  · simp only [State.applyLane, ho, hr, List.foldl_nil]
    refine (State.thread?_updThread_same _ k _).trans ?_
    rw [State.thread?_updThread_same, State.onward_thread?, ht, Fx.after, ho]
    rfl
  · simp only [State.applyLane, ho, hr, List.foldl_nil]
    exact List.mem_append_right _ (List.mem_singleton_self _)

theorem State.foldl_applyLane_asks {outs : List (Nat × LaneOut)} (hn : (outs.map (·.1)).Nodup)
    (hops : ∀ e ∈ outs, ∀ fx, e.2 = .ok fx → ∀ x ∈ fx.ops, x.slot = e.1) {fx : Fx} {r : GReq} (hmem : (k, .ok fx) ∈ outs)
    (ht : s.thread? k = some t) (ho : fx.ops = []) (hr : fx.req = some r) :
    ∃ n a, (outs.foldl (fun s e => s.applyLane e.1 e.2) s).thread? k = some { fx.after t with hold := .glaunch n }
      ∧ { r with id := n, after := a } ∈ (outs.foldl (fun s e => s.applyLane e.1 e.2) s).greqs := by
  induction outs generalizing s with
  | nil => cases hmem
  | cons e outs ih =>
    obtain ⟨he, hn⟩ := List.nodup_cons.1 hn
    rcases List.mem_cons.1 hmem with rfl | hmem
    · obtain ⟨n, a, hthread, hreq⟩ := State.applyLane_asks ht ho hr
      rw [List.foldl_cons]
      refine ⟨n, a, (State.foldl_thread? _ k _ (fun e' he' z => ?_) _).trans hthread, State.foldl_applyLane_greqs outs hreq⟩
      exact z.applyLane_other k e'.1 e'.2 (fun h => he (List.mem_map.2 ⟨e', he', h.symm⟩)) (hops e' (List.mem_cons_of_mem _ he'))
    · refine ih hn (fun e' he' => hops e' (List.mem_cons_of_mem _ he')) hmem ((s.applyLane_other k e.1 e.2 ?_
        (hops e List.mem_cons_self)).trans ht)
      rintro rfl
      exact he (List.mem_map.2 ⟨_, hmem, rfl⟩)

theorem State.noteDeps_greqs (s s0 : State) (i : Instr) (outs : List (Nat × LaneOut)) : (s.noteDeps s0 i outs).greqs = s.greqs := by
  have hfold {β : Type} (g : State → β → State) (hg : ∀ s b, (g s b).greqs = s.greqs) (l : List β) (s : State) :
      (l.foldl g s).greqs = s.greqs := by
    induction l generalizing s with
    | nil => rfl
    | cons b l ih => exact (ih _).trans (hg s b)
  unfold State.noteDeps
  split
  · rfl
  · refine hfold _ (fun s e => ?_) _ s
    split
    · rfl
    · exact hfold (fun s (f : List RegId × Nat) => s.setDeps e.1 f.1 f.2) (fun _ _ => rfl) _ s

/-- A lane that asks for a grid as it takes its word stands held, and its request is made (R177). -/
theorem State.runLanes_asks (h : Takes s i k t) (hg : gd t = i.on t) (hops : OpsOwn f)
    (hok : ∀ b, ∃ fx r, f (s.laneAt k t b) = .ok fx ∧ fx.ops = [] ∧ fx.req = some r) :
    ∃ b fx r n a, f (s.laneAt k t b) = .ok fx ∧ fx.req = some r
      ∧ (s.runLanes i gd f).s.thread? k = some { fx.after t with hold := .glaunch n }
      ∧ { r with id := n, after := a } ∈ (s.runLanes i gd f).s.greqs := by
  obtain ⟨b, hmem, honly, -⟩ := State.outcomes_thread s i gd f k t _ (s.issueSet_nodup i h.once) h.mem h.thread s.fresh
    (hops.laneOut s i gd)
  obtain ⟨fx, r, hfx, ho, hr⟩ := hok b
  have hlane : s.laneOut i gd f b k t = .ok fx := by
    rw [h.laneOut gd f b hg]
    change (match f (s.laneAt k t b) with | .ok fx => _ | .fault c va aux w => _ | .ask vpn w => _) = _
    rw [hfx]
    cases fx
    cases ho
    rfl
  rw [hlane] at hmem honly
  have hslots (e : Nat × LaneOut) (he : e ∈ s.outcomes i gd f s.fresh (s.issueSet i)) :
      ∃ u c, e.2 = s.laneOut i gd f c e.1 u := by
    obtain ⟨-, u, c, -, hc⟩ := State.mem_outcomes s i gd f _ _ e he
    exact ⟨u, c, hc⟩
  obtain ⟨n, a, hthread, hreq⟩ := State.foldl_applyLane_asks
    (outs := s.outcomes i gd f s.fresh (s.issueSet i)) (s := s.charge i (s.issueSet i))
    ((s.issueSet_nodup i h.once).sublist (outcomes_fst s i gd f _ _))
    (fun e he fx' hfx' x hx => by
      obtain ⟨u, c, hc⟩ := hslots e he
      exact hops.laneOut s i gd e.1 c u fx' (hc ▸ hfx') x hx)
    hmem (by simpa using h.thread) ho hr
  refine ⟨b, fx, r, n, a, hfx, hr, ?_, ?_⟩
  · refine Eq.trans ?_ hthread
    unfold State.runLanes
    dsimp only
    rw [State.fault_thread?]
    · exact State.noteDeps_thread? _ _ i _ k
    · apply faultsOf_slot
      · intro e he l hl
        obtain ⟨u, c, hc⟩ := hslots e he
        exact State.laneOut_fault_slot s i gd f c e.1 u l (hc ▸ hl)
      · intro e he hek l hl
        cases (honly e he hek).symm.trans hl
  · unfold State.runLanes
    dsimp only
    rw [State.greqs_of_unthreaded (State.fault_unthreaded _ _ _ _)]
    exact (State.noteDeps_greqs _ _ _ _).symm ▸ hreq

end

/-! ### GLAUNCH -/

theorem State.endIntervals_greqs (s : State) (ks : List Nat) : (s.endIntervals ks).greqs = s.greqs := by
  unfold State.endIntervals
  induction ks generalizing s with
  | nil => rfl
  | cons k ks ih =>
    refine (ih _).trans ?_
    dsimp only
    split <;> rfl

theorem Thread.setPc_pc (t : Thread) : t.setPc t.pc = t := by
  have h : pcOf t.pc = t.pcw := by
    refine BitVec.eq_of_getLsbD_eq fun i hi => ?_
    simp only [pcOf, Thread.pc, BitVec.getLsbD_extractLsb', BitVec.getLsbD_shiftLeft, BitVec.getLsbD_setWidth, hi, decide_true, Bool.true_and,
      Nat.add_sub_cancel_left]
    rw [decide_eq_true (by omega), decide_eq_false (by omega), decide_eq_true (by omega)]
    rfl
  exact congrArg (fun w => { t with pcw := w }) h

theorem Memory.readN_eq_map (m : Memory) (a n : Nat) : Memory.readN m a n = (List.range n).map fun i => m.read (a + i) := by
  induction n generalizing a with
  | zero => rfl
  | succ n ih =>
    rw [List.range_succ_eq_map, List.map_cons, List.map_map, Memory.readN, ih]
    exact congrArg₂ _ rfl (List.map_congr_left fun i _ => congrArg m.read (by rw [Nat.succ_eq_add_one]; omega))

section
variable {x : TxchArg} {l : Lane}

theorem glaunchFx_other (h : l.t.lane ≠ 0) : glaunchFx x l = .ok { th := fun t => t.result false x.d 0 } := if_pos h

/-- The request that a leader makes of its GLAUNCH (R177). -/
def Lane.gridReq (l : Lane) (x : TxchArg) (m : Team) (g : Grid) : GReq :=
  ⟨0, l.part, l.src32 0 x.a, g.depth + 1, some m.grid, Memory.readN l.s.scr (scrKey (coreOf l.slot) (l.z 1 false x.b)) 128,
    some l.slot, none, x.d, 0, none⟩

theorem Lane.src32_toNat (l : Lane) (p : Nat) (y : Src) : (l.src32 p y).toNat = l.z p false y := by
  have h : (l.src p false y).toNat < 2 ^ 32 := by
    cases y <;> simp only [Lane.src, extW, low32, Bool.false_eq_true, if_false, BitVec.toNat_setWidth] <;> omega
  exact (BitVec.toNat_setWidth ..).trans (Nat.mod_eq_of_lt h)

theorem glaunchFx_leader {m : Team} {g : Grid} (hl : l.t.lane = 0) (hm : l.s.team? l.t.team = some m) (hg : l.s.grid? m.grid = some g)
    (hd : g.depth ≠ 10) (ho : l.z 1 false x.b % 16 = 0) (hin : m.argp ≤ l.z 1 false x.b ∧ l.z 1 false x.b + 128 ≤ m.argp + m.region) :
    glaunchFx x l = .ok { jump := some l.t.pc, req := some (l.gridReq x m g) } := by
  have hgrid : l.s.gridOf l.t = some g := by
    unfold State.gridOf
    rw [hm]
    exact hg
  have hh : m.holds (l.z 1 false x.b) 128 = true := (Team.holds_iff ..).2 hin
  unfold glaunchFx
  simp only [hl, hgrid, hm, Lane.src32_toNat, ho, hh, Option.map_some, Option.getD_some, if_neg hd, ne_eq, not_true_eq_false, if_false,
    Bool.not_true, Bool.false_eq_true]
  rfl

theorem glaunchFx_deep {m : Team} {g : Grid} (hl : l.t.lane = 0) (hm : l.s.team? l.t.team = some m) (hg : l.s.grid? m.grid = some g)
    (hd : g.depth = 10) : glaunchFx x l = .fault 0x21 0 0 false := by
  have hgrid : l.s.gridOf l.t = some g := by
    unfold State.gridOf
    rw [hm]
    exact hg
  unfold glaunchFx
  simp only [hl, hgrid, Option.map_some, Option.getD_some, hd, ne_eq, not_true_eq_false, if_false, if_true]

theorem glaunchFx_ops {fx : Fx} (h : glaunchFx x l = .ok fx) : fx.ops = [] := by
  unfold glaunchFx at h
  dsimp only at h
  split_ifs at h
  · cases h
    rfl
  · split at h
    · cases h
    · split_ifs at h
      cases h
      rfl

theorem glaunchFx_own (x : TxchArg) : OpsOwn (glaunchFx x) := .of_nil fun _ _ => glaunchFx_ops

/-- A lane that did not take or pass GLAUNCH by is not among those that may trap after it. -/
theorem State.mem_launchers {r : State} {took off : List Nat} {k : Nat}
    (h : k ∈ took.filter (fun k => r.laneOf k != 0) ++ off) : k ∈ took ++ off := by
  rcases List.mem_append.1 h with h | h
  · exact List.mem_append_left _ (List.mem_filter.1 h).1
  · exact List.mem_append_right _ h

theorem exec_glaunch (x : TxchArg) (s : State) : ∃ ks, (∀ k ∈ ks, k ∈ (s.runLanes (.glaunch x) x.gd.holds (glaunchFx x)).took
      ++ (s.runLanes (.glaunch x) x.gd.holds (glaunchFx x)).off)
    ∧ exec (.glaunch x) s = .next (((s.runLanes (.glaunch x) x.gd.holds (glaunchFx x)).s.endIntervals
      (s.runLanes (.glaunch x) x.gd.holds (glaunchFx x)).took).stepTraps s.cur.pc ks) :=
  ⟨_, fun _ h => State.mem_launchers h, rfl⟩

theorem glaunchZeros (x : TxchArg) : CompletesWhen (.glaunch x) (fun _ _ t => t.lane ≠ 0) fun l u => Puts l.t u false x.d 0 0 := by
  intro s k t ht hlane
  obtain ⟨ks, -, hx⟩ := exec_glaunch x s
  obtain ⟨-, b, fx, hfx, hk⟩ := s.runLanes_takes (.glaunch x) x.gd.holds (glaunchFx x) k t ht rfl (glaunchFx_own x)
    fun b => ⟨_, glaunchFx_other (l := s.laneAt k t b) hlane, rfl, rfl⟩
  cases hfx.symm.trans (glaunchFx_other (l := s.laneAt k t b) hlane)
  have hk := (State.endIntervals_thread? _ (s.runLanes (.glaunch x) x.gd.holds (glaunchFx x)).took k).trans hk
  refine ⟨_, b, _, hx, (State.stepTraps_thread? _ _ _ k fun v hv => ?_).trans hk, ?_⟩
  · cases hk.symm.trans hv
    exact (Thread.result_step ..).trans ht.free
  · have := t.result_puts0 false x.d 0
    rwa [show extW false (0 : DWord) = 0 from extW_zero false] at this

theorem glaunchAsks (x : TxchArg) (m : Team) (g : Grid) : CompletesIn (.glaunch x)
    (fun s k t => t.lane = 0 ∧ s.team? t.team = some m ∧ s.grid? m.grid = some g ∧ g.depth ≠ 10
      ∧ ∀ b, ∀ o, o = (s.laneAt k t b).z 1 false x.b → o % 16 = 0 ∧ m.argp ≤ o ∧ o + 128 ≤ m.argp + m.region)
    fun l s' u => ∃ r ∈ s'.greqs, u = { l.t with hold := .glaunch r.id } ∧ r.part = l.part
      ∧ r.handle = l.src32 0 x.a ∧ r.depth = g.depth + 1 ∧ r.parent = some m.grid ∧ r.slot = some l.slot ∧ r.d = x.d
      ∧ r.args = (List.range 128).map (fun i => Memory.read l.s.scr (l.slot / 512 * 2 ^ 18 + l.z 1 false x.b + i)) := by
  rintro s k t ht ⟨hlane, hm, hg, hd, hb⟩
  have hf (b : Nat) : glaunchFx x (s.laneAt k t b) = .ok { jump := some t.pc, req := some ((s.laneAt k t b).gridReq x m g) } :=
    glaunchFx_leader hlane hm hg hd (hb b _ rfl).1 (hb b _ rfl).2
  obtain ⟨ks, -, hx⟩ := exec_glaunch x s
  obtain ⟨b, fx, r, n, a, hfx, hr, hk, hreq⟩ := State.runLanes_asks (gd := x.gd.holds) ht rfl (glaunchFx_own x)
    fun b => ⟨_, _, hf b, rfl, rfl⟩
  cases hfx.symm.trans (hf b)
  cases hr
  have hk := (State.endIntervals_thread? _ (s.runLanes (.glaunch x) x.gd.holds (glaunchFx x)).took k).trans hk
  refine ⟨_, b, _, hx, (State.stepTraps_thread? _ _ _ k fun v hv => ?_).trans hk,
    { (s.laneAt k t b).gridReq x m g with id := n, after := a }, ?_, ?_, rfl, rfl, rfl, rfl, rfl, rfl,
    Memory.readN_eq_map ..⟩
  · cases hk.symm.trans hv
    exact ht.free
  · rw [State.greqs_of_unthreaded (State.stepTraps_unthreaded _ _ _), State.endIntervals_greqs]
    exact hreq
  · exact congrArg (fun t => { t with hold := .glaunch n }) (Thread.setPc_pc t)

theorem glaunchTooDeep (x : TxchArg) : Traps (.glaunch x) (fun s _ t => t.lane = 0 ∧ ∃ m g, s.team? t.team = some m
    ∧ s.grid? m.grid = some g ∧ g.depth = 10) 0x21 (fun _ => 0) (fun _ => 0) := by
  rintro s k t ht ⟨hlane, m, g, hm, hg, hd⟩
  obtain ⟨ks, hks, hx⟩ := exec_glaunch x s
  obtain ⟨b, hb⟩ := s.runLanes_laneFault (.glaunch x) x.gd.holds (glaunchFx x) k t ht.once ht.mem ht.thread
    ((glaunchFx_own x).laneOut s _ _)
  obtain ⟨hk, u, hu, -, hex⟩ := hb _ (ht.laneOut_fault rfl (glaunchFx_deep (l := s.laneAt k t b) hlane hm hg hd)) (show (0x21 : BitVec 8) ≠ 0x40 by decide)
    (show (0x21 : BitVec 8) ≠ 0x17 by decide) rfl
  refine ⟨_, b, u, hx, ?_, hex⟩
  exact (State.stepTraps_other _ _ _ k fun h => hk (hks k h)).trans ((State.endIntervals_thread? _ _ k).trans hu)

end

/-! ### GRID_CREATE -/

theorem extW_false_setWidth (v : Word) : extW false (v.setWidth 64) = v.setWidth 64 := by
  rw [extW, if_neg (by decide), low32, BitVec.setWidth_setWidth_of_le v (show 32 ≤ 64 by decide), BitVec.setWidth_eq]

theorem State.schedule_frame (s : State) (p : Nat) : (s.schedule p).threads = s.threads ∧ (s.schedule p).grids = s.grids := by
  unfold State.schedule
  dsimp only
  split
  · exact ⟨rfl, rfl⟩
  · split_ifs
    · exact ⟨rfl, rfl⟩
    · exact ⟨rfl, rfl⟩
    · split
      · split_ifs <;> exact ⟨rfl, rfl⟩
      · exact ⟨rfl, rfl⟩

theorem State.stepTrapsHome_unthreaded (s : State) (pc : DWord) (ks : List Nat) : (s.stepTrapsHome pc ks).unthreaded = s.unthreaded :=
  State.foldl_unthreaded _ (fun _ _ => State.fault_unthreaded _ _ _ _) _ s

/-- Step traps leave a lane that is not stepped. -/
theorem State.stepTrapsHome_thread? (s : State) (pc : DWord) (ks : List Nat) (k : Nat) (h : ∀ t, s.thread? k = some t → t.step = false) :
    (s.stepTrapsHome pc ks).thread? k = s.thread? k := by
  unfold State.stepTrapsHome
  generalize boughsOf ks = bs
  induction bs generalizing s with
  | nil => rfl
  | cons b bs ih =>
    have hb : (s.stepTrapsOn (coreOf ((ks.filter (fun k => boughOf k == b)).headD 0)) b pc (ks.filter (fun k => boughOf k == b))).thread? k
        = s.thread? k := by
      refine State.fault_thread? _ _ _ _ _ fun f hf => ?_
      obtain ⟨j, -, hj⟩ := List.mem_filterMap.1 hf
      split at hj
      · cases hj
      next t ht =>
        split_ifs at hj with hc
        cases hj
        rintro rfl
        simp [h t ht] at hc
    exact (ih _ fun t ht => h t (hb ▸ ht)).trans hb

/-- A leader that leaves its GLAUNCH has its grid's id, and stands held no more (R177). -/
theorem State.launched_thread? {s : State} {k : Nat} {t : Thread} (d : Dst) (gid : BitVec 32) (ht : s.thread? k = some t) (hs : t.step = false) :
    (s.launched k d gid).thread? k = some { (t.result false d (gid.setWidth 64)).next with hold := .none } := by
  have hu : (s.updThread k fun t => { (t.result false d (gid.setWidth 64)).next with hold := .none }).thread? k
      = some { (t.result false d (gid.setWidth 64)).next with hold := .none } := by
    rw [State.thread?_updThread_same, ht]
    rfl
  refine (State.stepTrapsHome_thread? _ _ _ k fun v hv => ?_).trans hu
  cases hu.symm.trans hv
  exact (Thread.result_step ..).trans hs

theorem State.launched_grids (s : State) (k : Nat) (d : Dst) (gid : BitVec 32) : (s.launched k d gid).grids = s.grids :=
  congrArg (fun z => z.grids) (State.stepTrapsHome_unthreaded (s.updThread k _) _ _)

theorem State.createGrid_threads (s : State) (r : GReq) (l : List Byte) (ctx : BitVec 16) (gid : BitVec 32) :
    (s.createGrid r l ctx gid).threads = s.threads := by
  unfold State.createGrid
  cases r.parent <;> rfl

/-- The grid of a request, as it stands when it has come to be (R309). -/
def State.gridMade (s : State) (r : GReq) (l : List Byte) (ctx : BitVec 16) (gid : BitVec 32) : Grid :=
  { Grid.ofRecord gid r.part l ctx (((s.part r.part).gridAge + 1) % 2 ^ 48) with
    depth := r.depth, parent := r.parent, handle := r.handle, args := r.args, since := s.time }

theorem State.createGrid_grid? {s : State} {r : GReq} {l : List Byte} {ctx : BitVec 16} {gid : BitVec 32}
    (hp : ∀ k, r.parent = some k → gridKey r.part gid ≠ k) :
    (s.createGrid r l ctx gid).grid? (gridKey r.part gid) = some (s.gridMade r l ctx gid) := by
  unfold State.createGrid
  cases h : r.parent with
  | none => 
    dsimp only
    refine (SMap.find?_put_same _ _ _).trans ?_
    simp only [State.gridMade, h]
  | some k =>
    dsimp only
    refine (SMap.find?_upd_other _ _ _ _ (hp k h)).trans ((SMap.find?_put_same _ _ _).trans ?_)
    simp only [State.gridMade, h]

theorem gridCreated (n : Nat) (gid : BitVec 32) (r : GReq) (e : LEntry) (k : Nat) (t : Thread) : Happens (.gridCreate n gid)
    (fun s => s.greqs.find? (fun q => q.id == n) = some r ∧ r.slot = some k ∧ s.accessBelow k r.after = false
      ∧ s.pendingGrids r.part < 65536 ∧ s.gidFree r.part gid = true ∧ (s.part r.part).named r.handle = some e
      ∧ (∃ p g, r.parent = some p ∧ s.grid? p = some g ∧ g.ctx = e.ctx ∧ p ≠ r.part * 2 ^ 32 + gid.toNat)
      ∧ s.thread? k = some t ∧ t.step = false)
    fun s s' => (∃ u, s'.thread? k = some { u with hold := .none } ∧ Puts t u false r.d (gid.setWidth 64) 0)
      ∧ ∃ g, s'.grid? (r.part * 2 ^ 32 + gid.toNat) = some g ∧ g.gid = gid ∧ g.lrec = e.bytes ∧ g.depth = r.depth
        ∧ g.parent = r.parent ∧ g.args = r.args ∧ g.ctx = e.ctx ∧ g.pending = true ∧ g.children = 0 ∧ g.next = 0
        ∧ g.remaining = lrTeams e.bytes ∧ g.age = ((s.part r.part).gridAge + 1) % 2 ^ 48 := by
  rintro s ⟨hfind, hslot, hblock, hpend, hfree, hnamed, ⟨p, g, hp, hg, hctx, hne⟩, ht, hstep⟩
  have hmade : s.madeOf r = some (e.bytes, e.ctx) := by
    simp [State.madeOf, hslot, hnamed, hp, hg, hctx]
  have hx : exec (.gridCreate n gid) s
      = .next ((((s.updPart r.part (·.countLive r.handle)).createGrid r e.bytes e.ctx gid).launched k r.d gid).schedule r.part) := by
    change execGridCreate n gid s = _
    unfold execGridCreate
    simp only [hfind, hslot, hblock, hfree, hmade, Nat.not_le.2 hpend, decide_false, Bool.false_or, Bool.not_true, Bool.false_eq_true, if_false]
  have hage : ((s.updPart r.part (·.countLive r.handle)).part r.part).gridAge = (s.part r.part).gridAge :=
    (congrArg Partition.gridAge (State.part_updPart_same s r.part (·.countLive r.handle))).trans rfl
  refine ⟨_, hx, ⟨(t.result false r.d (gid.setWidth 64)).next, ?_, ?_⟩,
    State.gridMade (s.updPart r.part (·.countLive r.handle)) r e.bytes e.ctx gid, ?_, rfl, rfl, rfl, rfl, rfl, rfl, rfl, rfl, rfl, rfl, ?_⟩
  · rw [State.thread?, (State.schedule_frame _ _).1]
    refine State.launched_thread? r.d gid ?_ hstep
    rw [State.thread?, State.createGrid_threads]
    exact ht
  · have hput := t.result_puts0 false r.d (gid.setWidth 64)
    rwa [extW_false_setWidth] at hput
  · rw [State.grid?, (State.schedule_frame _ _).2, State.launched_grids]
    exact State.createGrid_grid? fun q hq => by
      cases hp.symm.trans hq
      exact fun h => hne h.symm
  · exact congrArg (fun a => (a + 1) % 2 ^ 48) hage

theorem launchesCreateGrids : Rules.LaunchesCreateGrids := ⟨glaunchZeros, glaunchAsks, glaunchTooDeep, gridCreated⟩

/-! ### Placing a team -/

/-- What a placement of a team does not touch while its cores and claims are brought up to date. -/
structure GridFrame (s s' : State) : Prop where
  grids : s'.grids = s.grids
  threads : s'.threads = s.threads
  teams : s'.teams = s.teams
  time : s'.time = s.time

theorem GridFrame.trans {s s' s'' : State} (h : GridFrame s s') (h' : GridFrame s' s'') : GridFrame s s'' :=
  ⟨h'.grids.trans h.grids, h'.threads.trans h.threads, h'.teams.trans h.teams, h'.time.trans h.time⟩

theorem State.setMode_gridFrame (s : State) (g : Nat) (b : Bool) : GridFrame s (s.setMode g b) := by
  unfold State.setMode
  split <;> exact ⟨rfl, rfl, rfl, rfl⟩

theorem State.bindBoughs_gridFrame (s : State) (c g f n : Nat) : GridFrame s (s.bindBoughs c g f n) := by
  unfold State.bindBoughs
  split <;> exact ⟨rfl, rfl, rfl, rfl⟩

/-- A thread for each of `n` lanes from slot `base` up. -/
def State.standUp (s : State) (base n : Nat) (f : Nat → State → Thread) : State :=
  (List.range n).foldl (fun s i => s.setThread (base + i) (f i s)) s

theorem State.standUp_succ (s : State) (base n : Nat) (f : Nat → State → Thread) :
    s.standUp base (n + 1) f = (s.standUp base n f).setThread (base + n) (f n (s.standUp base n f)) := by
  unfold State.standUp
  rw [List.range_succ, List.foldl_append]
  rfl

theorem State.standUp_frame (s : State) (base n : Nat) (f : Nat → State → Thread) :
    (s.standUp base n f).grids = s.grids ∧ (s.standUp base n f).teams = s.teams ∧ (s.standUp base n f).time = s.time := by
  induction n with
  | zero => exact ⟨rfl, rfl, rfl⟩
  | succ n ih => rw [State.standUp_succ]; exact ih

theorem State.standUp_thread? (s : State) (base n : Nat) (f : Nat → State → Thread) {i : Nat} (hi : i < n) :
    ∃ z, (s.standUp base n f).thread? (base + i) = some (f i z) := by
  induction n with
  | zero => omega
  | succ n ih =>
    rw [State.standUp_succ]
    rcases Nat.lt_succ_iff_lt_or_eq.1 hi with h | rfl
    · obtain ⟨z, hz⟩ := ih h
      exact ⟨z, (SMap.find?_put_other _ _ _ _ (by omega)).trans hz⟩
    · exact ⟨_, SMap.find?_put_same ..⟩

/-- The state in which a placed team's lanes stand up: the grove's mode is the record's, the region is clear or has the grid's arguments. -/
def State.regionReady (s : State) (g : Grid) (x : Room) : State :=
  let s := (s.setMode (groveOf x.core) (lrFuse g.lrec)).clearScr x.core x.argp (regionSpan (needOf g.lrec).region)
  if g.next = 0 then { s with scr := Memory.writeN s.scr (scrKey x.core x.argp) g.args } else s

theorem State.regionReady_frame (s : State) (g : Grid) (x : Room) : GridFrame s (s.regionReady g x) := by
  unfold State.regionReady
  dsimp only
  split
  · exact (s.setMode_gridFrame _ _).trans ⟨rfl, rfl, rfl, rfl⟩
  · exact (s.setMode_gridFrame _ _).trans ⟨rfl, rfl, rfl, rfl⟩

/-- A lane of a grid's next team as it stands up (R46). -/
def State.laneUp (s : State) (g : Grid) (x : Room) (i : Nat) (z : State) : Thread :=
  { Thread.placed s.nextTeam i (lrTeam g.lrec) (BitVec.ofNat 64 (lrEntry g.lrec))
      (-((s.setMode (groveOf x.core) (lrFuse g.lrec)).cycleOf x.core : Int)) with acqStamp := z.stamp }

/-- The lanes of a grid's next team stand up on a core (R46). -/
def State.lanesUp (s : State) (g : Grid) (x : Room) : State :=
  (s.regionReady g x).standUp (x.core * 512 + x.first) (lrTeam g.lrec) (s.laneUp g x)

/-- The team that the placer makes of a grid, with no rollback segment. -/
def State.teamMade (s : State) (key : Nat) (g : Grid) (x : Room) : Team :=
  Team.placed key g.next x.core x.first (lrTeam g.lrec) x.argp (max (lrScr g.lrec) 128)
    ((s.setMode (groveOf x.core) (lrFuse g.lrec)).freeTags x.core (needOf g.lrec).tags)

/-- The team stands, its boughs and tags bound to it. -/
def State.teamBound (s : State) (key : Nat) (g : Grid) (x : Room) : State :=
  (State.bindBoughs { s.lanesUp g x with
    teams := (s.lanesUp g x).teams.put s.nextTeam (s.teamMade key g x), nextTeam := s.nextTeam + 1,
    stamp := (s.lanesUp g x).stamp + 1 } x.core key x.first (lrTeam g.lrec)).updCore x.core fun c =>
      (s.teamMade key g x).tags.foldl (fun c t => c.updTag t (fun _ => { TagSt.reset with owner := some s.nextTeam })) c

theorem State.placeTeam_eq (s : State) (key : Nat) (g : Grid) (x : Room) : s.placeTeam key g x none
    = ((s.teamBound key g x).updGrid key fun q => { q with
        next := q.next + 1, pending := decide (q.next + 1 < lrTeams g.lrec), since := (s.teamBound key g x).time }).updPart g.part fun p =>
          { p with resv := match p.resv with
            | none => none
            | some y => if y.1 = key then none else some y } := by
  unfold State.placeTeam State.teamBound State.teamMade State.lanesUp State.regionReady State.standUp
  dsimp only
  rfl

theorem State.teamBound_teams (s : State) (key : Nat) (g : Grid) (x : Room) :
    (s.teamBound key g x).teams = s.teams.put s.nextTeam (s.teamMade key g x) := by
  refine (State.bindBoughs_gridFrame _ _ _ _ _).teams.trans (congrArg (fun m => SMap.put m _ _) ?_)
  exact (State.standUp_frame _ _ _ _).2.1.trans (s.regionReady_frame g x).teams

theorem State.teamBound_grids (s : State) (key : Nat) (g : Grid) (x : Room) : (s.teamBound key g x).grids = s.grids :=
  (State.bindBoughs_gridFrame _ _ _ _ _).grids.trans
    ((State.standUp_frame _ _ _ _).1.trans (s.regionReady_frame g x).grids)

theorem State.teamBound_threads (s : State) (key : Nat) (g : Grid) (x : Room) : (s.teamBound key g x).threads = (s.lanesUp g x).threads :=
  (State.bindBoughs_gridFrame _ _ _ _ _).threads

theorem State.teamBound_time (s : State) (key : Nat) (g : Grid) (x : Room) : (s.teamBound key g x).time = s.time :=
  (State.bindBoughs_gridFrame _ _ _ _ _).time.trans
    ((State.standUp_frame _ _ _ _).2.2.trans (s.regionReady_frame g x).time)

theorem placerPlacesTeams : Rules.PlacerPlacesTeams := by
  rintro p key i g rest x s ⟨hv, hresv, horder, hrb, hroom, hg, hi⟩
  have hx : exec (.placerStep p) s = .next (s.placeTeam key g x none) := by
    change execPlacerStep p s = _
    unfold execPlacerStep
    simp only [hv, hresv, horder, State.placeFirst, hrb, hroom, Bool.not_true, Bool.false_eq_true, if_false, Bool.not_false, Bool.true_or,
      if_true, List.find?_nil, ite_self, Option.getD_some]
  rw [State.placeTeam_eq] at hx
  obtain ⟨w, hw⟩ := (s.regionReady g x).standUp_thread? (x.core * 512 + x.first) (lrTeam g.lrec) (s.laneUp g x) hi
  refine ⟨_, hx, ⟨s.teamMade key g x, ?_, rfl, rfl, rfl, rfl, rfl, rfl, rfl, rfl⟩, ?_, s.laneUp g x i w, ?_, rfl, rfl, rfl,
    rfl, rfl, rfl, fun j => ⟨rfl, rfl⟩, rfl, rfl, rfl, rfl, rfl, rfl, rfl⟩
  · exact (congrArg (fun m => SMap.find? m s.nextTeam) (s.teamBound_teams key g x)).trans (SMap.find?_put_same ..)
  · refine (SMap.find?_upd_same _ _ _).trans ?_
    rw [s.teamBound_grids, s.teamBound_time, show SMap.find? s.grids key = some g from hg]
    rfl
  · exact (congrArg (fun m => SMap.find? m (x.core * 512 + x.first + i)) (s.teamBound_threads key g x)).trans hw

/-! ### Retirement -/

theorem State.foldl_freeThread (ks : List Nat) (s : State) (k : Nat) :
    (ks.foldl (fun s k => s.freeThread k) s).thread? k = if k ∈ ks then none else s.thread? k := by
  induction ks generalizing s with
  | nil => rfl
  | cons j ks ih =>
    refine (ih _).trans ?_
    by_cases hk : k ∈ ks
    · rw [if_pos hk, if_pos (List.mem_cons_of_mem _ hk)]
    · rw [if_neg hk]
      by_cases hj : k = j
      · subst hj
        exact (SMap.find?_erase_same _ _).trans (if_pos List.mem_cons_self).symm
      · rw [if_neg fun h => (List.mem_cons.1 h).elim hj hk]
        exact SMap.find?_erase_other _ _ _ hj

theorem State.foldl_freeThread_frame (ks : List Nat) (s : State) : (ks.foldl (fun s k => s.freeThread k) s).grids = s.grids
    ∧ (ks.foldl (fun s k => s.freeThread k) s).teams = s.teams ∧ (ks.foldl (fun s k => s.freeThread k) s).scr = s.scr
    ∧ (ks.foldl (fun s k => s.freeThread k) s).mem = s.mem := by
  induction ks generalizing s with
  | nil => exact ⟨rfl, rfl, rfl, rfl⟩
  | cons j ks ih => exact ih (s.freeThread j)

/-- A team that leaves its core takes its threads with it, and leaves grids and memories. -/
theorem State.vacateTeam_spec (s : State) (id : Nat) (m : Team) : (s.vacateTeam id m).team? id = none
    ∧ (∀ k, (s.vacateTeam id m).thread? k = if k ∈ m.slots then none else s.thread? k) ∧ (s.vacateTeam id m).grids = s.grids
    ∧ (s.vacateTeam id m).scr = s.scr ∧ (s.vacateTeam id m).mem = s.mem := by
  obtain ⟨hgrids, -, hscr, hmem⟩ := State.foldl_freeThread_frame m.slots
    ({ s with icache := s.icache.filter (fun c => !(c.core == m.core && c.ld.isSome && c.team == id)) }.dropAskers m.slots)
  exact ⟨SMap.find?_erase_same _ _, State.foldl_freeThread m.slots _, hgrids, hscr, hmem⟩

theorem teamRetires (id : Nat) (m : Team) (g : Grid) : Happens (.teamRetire id)
    (fun s => s.team? id = some m ∧ s.grid? m.grid = some g ∧ s.teamQuiet m = true
      ∧ ∀ k ∈ m.slots, ∀ t, s.thread? k = some t → t.st = .exited)
    fun s s' => s'.team? id = none ∧ (∀ k ∈ m.slots, s'.thread? k = none) ∧ (∀ k, k ∉ m.slots → s'.thread? k = s.thread? k)
      ∧ s'.grid? m.grid = some { g with remaining := g.remaining - 1 } ∧ s'.scr = s.scr ∧ s'.mem = s.mem := by
  rintro s ⟨hm, hg, hquiet, hdone⟩
  have hall : m.slots.all (fun k => match s.thread? k with
      | none => true
      | some t => t.st == .exited) = true := by
    refine List.all_eq_true.2 fun k hk => ?_
    split
    · rfl
    next t ht => exact beq_iff_eq.2 (hdone k hk t ht)
  obtain ⟨hteam, hthreads, hgrids, hscr, hmem⟩ := s.vacateTeam_spec id m
  have hgrid : SMap.find? ((s.vacateTeam id m).grids.upd m.grid fun g => { g with remaining := g.remaining - 1 }) m.grid
      = some { g with remaining := g.remaining - 1 } := by
    rw [SMap.find?_upd_same, hgrids, show SMap.find? s.grids m.grid = some g from hg]
    rfl
  have hx : ∃ z : State, exec (.teamRetire id) s = .next (z.updGrid m.grid fun g => { g with remaining := g.remaining - 1 })
      ∧ (z = s.vacateTeam id m ∨ ∃ p f, z = (s.vacateTeam id m).updPart p f) := by
    change ∃ z, execTeamRetire id s = _ ∧ _
    unfold execTeamRetire
    simp only [hm, hquiet, Bool.not_true, Bool.or_false]
    split_ifs with hd
    · cases hd.symm.trans (congrArg Bool.not hall)
    · cases m.seg with
      | none => exact ⟨_, rfl, .inl rfl⟩
      | some i => exact ⟨_, rfl, .inr ⟨_, _, rfl⟩⟩
  obtain ⟨z, hz, rfl | ⟨p, f, rfl⟩⟩ := hx
  · exact ⟨_, hz, hteam, fun k hk => (hthreads k).trans (if_pos hk), fun k hk => (hthreads k).trans (if_neg hk), hgrid, hscr, hmem⟩
  · exact ⟨_, hz, hteam, fun k hk => (hthreads k).trans (if_pos hk), fun k hk => (hthreads k).trans (if_neg hk), hgrid, hscr, hmem⟩

/-- A grid made from an entry's present binding counts no more (R307). -/
def Partition.gridEnded (p : Partition) (h : BitVec 32) : Partition :=
  p.updLentry (h.toNat % 4096) fun e => if e.gen.toNat = h.toNat / 4096 % 2 ^ 16 then { e with live := e.live - 1 } else e

theorem Partition.gridEnded_live (p : Partition) (h : BitVec 32) (n : Nat) : ((p.gridEnded h).lentry n).live
    = if n = h.toNat % 4096 ∧ (p.lentry n).gen.toNat = h.toNat / 4096 % 2 ^ 16 then (p.lentry n).live - 1 else (p.lentry n).live := by
  unfold Partition.gridEnded
  by_cases hn : n = h.toNat % 4096
  · subst hn
    rw [Partition.lentry_updLentry_same]
    simp only [true_and]
    split_ifs <;> rfl
  · rw [Partition.lentry_updLentry_other _ _ hn, if_neg fun h => hn h.1]

/-- A grid's parent counts one child less (R56). -/
def Grid.childEnded (q : Grid) : Grid := { q with children := q.children - 1 }

theorem execGridRetire_eq {s : State} {id k : Nat} {g : Grid} (hg : s.grid? id = some g) (hr : g.remaining = 0) (hc : g.children = 0)
    (hp : g.parent = some k) : exec (.gridRetire id) s
      = .next ((({ s with grids := s.grids.erase id }).updPart g.part (·.gridEnded g.handle)).updGrid k Grid.childEnded) := by
  change execGridRetire id s = _
  unfold execGridRetire
  simp only [hg, hr, hc, hp, ne_eq, not_true_eq_false, or_self, if_false]
  rfl

theorem gridRetires (id k : Nat) (g q : Grid) : Happens (.gridRetire id)
    (fun s => s.grid? id = some g ∧ g.remaining = 0 ∧ g.children = 0 ∧ g.parent = some k ∧ k ≠ id ∧ s.grid? k = some q)
    fun s s' => s'.grid? id = none ∧ s'.grid? k = some { q with children := q.children - 1 } ∧ s'.threads = s.threads
      ∧ s'.teams = s.teams
      ∧ ∀ n, ((s'.part g.part).lentry n).live = if n = g.handle.toNat % 4096
          ∧ ((s.part g.part).lentry n).gen.toNat = g.handle.toNat / 4096 % 2 ^ 16
        then ((s.part g.part).lentry n).live - 1 else ((s.part g.part).lentry n).live := by
  rintro s ⟨hg, hrem, hchild, hparent, hne, hq⟩
  refine ⟨_, execGridRetire_eq hg hrem hchild hparent, ?_, ?_, rfl, rfl, fun n => ?_⟩
  · exact (SMap.find?_upd_other _ _ _ _ (Ne.symm hne)).trans (SMap.find?_erase_same _ _)
  · refine (SMap.find?_upd_same _ _ _).trans (congrArg (Option.map Grid.childEnded) (a₂ := some q) ?_)
    exact (SMap.find?_erase_other s.grids id k hne).trans hq
  · refine Eq.trans ?_ ((s.part g.part).gridEnded_live g.handle n)
    exact congrArg (fun p => (Partition.lentry p n).live) (State.part_updPart_same { s with grids := s.grids.erase id } g.part (·.gridEnded g.handle))

theorem teamsAndGridsRetire : Rules.TeamsAndGridsRetire := ⟨teamRetires, gridRetires⟩

/-- Settles O24: what makes, places and retires grids and teams touches threads, teams and grids only where the rules say. -/
theorem gridsAndTeams : Obligations.GridsAndTeams := ⟨launchesCreateGrids, placerPlacesTeams, teamsAndGridsRetire⟩

end Sys2Proof.Machine
end

section
/-!
Pair and literal words (03 R70 to R78): each restricted operation gives what its full form gives.
-/

namespace Sys2Proof.Machine

/-! ### Restricted operations -/

/-- The value of a restricted integer operation (R76); the float operations have none. -/
def restrictedValue (op : RBin) (w : Bool) (a b : DWord) : Option DWord := match op with
  | .add => some (modW w (a.toNat + b.toNat))
  | .sub => some (modW w (a.toNat - b.toNat))
  | .mul => some (modW w (a.toNat * b.toNat))
  | .and => some (a &&& b)
  | .or => some (a ||| b)
  | .xor => some (a ^^^ b)
  | .andn => some (a &&& ~~~b)
  | .shl => some (modW w (a.toNat * 2 ^ (b.toNat % wid w) : Nat))
  | .shr => some (modW w (a.toNat / 2 ^ (b.toNat % wid w) : Nat))
  | .sar => some (modW w (sOf w a.toNat / (2 ^ (b.toNat % wid w) : Nat)))
  | .mins => some (if sOf w a.toNat ≤ sOf w b.toNat then a else b)
  | .minz => some (if a.toNat ≤ b.toNat then a else b)
  | .maxs => some (if sOf w a.toNat ≥ sOf w b.toNat then a else b)
  | .maxz => some (if a.toNat ≥ b.toNat then a else b)
  | _ => none

/-- The result of a restricted float operation. -/
def restrictedFloat (op : RBin) (a b : Word) : Word × Fl := match op with
  | .fadd => faddOf .rne a b
  | .fsub => fsubOf .rne a b
  | .fmul => fmulOf .rne a b
  | .fmin => fminmaxOf false a b
  | _ => fminmaxOf true a b

/-- What a restricted operation of two sources leaves of a thread. -/
def PutsRestricted (op : RBin) (w : Bool) (d : Dst) (a b : DWord) (af bf : Word) (t u : Thread) : Prop := match restrictedValue op w a b with
  | some v => Puts t u w d v 0
  | none => Puts t u false d ((restrictedFloat op af bf).1.setWidth 64) (restrictedFloat op af bf).2

section
variable {w : Bool} {a b : DWord}

theorem zv_of_extW (h : extW w a = a) : zv w a = a.toNat := by
  rw [zv, ← extW_toNat, h]

theorem sv_of_extW (h : extW w a = a) : sv w a = sOf w a.toNat := by
  simp [sv, sOf, zv_of_extW h]

theorem modW_toNat_of_extW (h : extW w a = a) : modW w a.toNat = a := by
  rw [← zv_of_extW h, modW_zv, h]

/-- The full form's result is the restricted operation's value, of sources of the width. -/
theorem extW_rint {op : RBin} {v : DWord} (ha : extW w a = a) (hb : extW w b = b) (h : restrictedValue op w a b = some v) :
    extW w (rint op w a b) = v := by
  cases op <;> cases h
  case add | sub | mul | shl | shr | sar =>
    simp only [rint, IOp.result, SOp.result, amount, nar_eq_modW, zv_of_extW ha, zv_of_extW hb, sv_of_extW ha, extW_modW, Nat.cast_add,
      Nat.cast_mul]
  case and =>
    simp only [rint, IOp.result, zv_and, nar_eq_modW, modW_zv, extW_and_left, ha]
  case or =>
    simp only [rint, IOp.result, zv_or, nar_eq_modW, modW_zv, extW_or, ha, hb]
  case xor =>
    simp only [rint, IOp.result, zv_xor, nar_eq_modW, modW_zv, extW_xor, ha, hb]
  case andn => simp only [rint, IOp.result, nar_eq_modW, modW_zv, extW_and_left, ha]
  case mins | maxs | minz | maxz =>
    simp only [rint, IOp.result, xv, zv_of_extW ha, zv_of_extW hb, sv_of_extW ha, sv_of_extW hb, reduceCtorEq, if_false, if_true, nar_eq_modW,
      modW_toNat_of_extW ha, modW_toNat_of_extW hb, apply_ite (extW w), ha, hb, Nat.cast_le, ge_iff_le]

theorem rfloat_eq (op : RBin) (w : Bool) (a b : DWord) (af bf : Word) :
    rfloat op af bf = if (restrictedValue op w a b).isSome then none else some (restrictedFloat op af bf) := by cases op <;> rfl

/-- A restricted operation of two sources on a lane. -/
theorem Lane.rbin_puts (l : Lane) (op : RBin) (w : Bool) (d : Dst) (x : Src) {b : DWord} (bf : Word) (hb : extW w b = b) (t : Thread) :
    PutsRestricted op w d (l.src 0 w x) b (l.srcF 0 x) bf t ((l.rbin op w d x b bf).th t).next := by
  unfold PutsRestricted Lane.rbin
  rw [rfloat_eq op w (l.src 0 w x) b]
  cases h : restrictedValue op w (l.src 0 w x) b with
  | none => exact t.fresult_puts d _
  | some v => exact extW_rint (extW_src l 0 w x) hb h ▸ t.result_puts0 w d _

theorem Lane.rbin_eq (l : Lane) (op : RBin) (w : Bool) (d : Dst) (x : Src) (b : DWord) (bf : Word) :
    l.rbin op w d x b bf = { th := (l.rbin op w d x b bf).th } := by
  unfold Lane.rbin
  split <;> rfl

theorem Lane.rbin_keeps (l : Lane) (op : RBin) (w : Bool) (d : Dst) (x : Src) (b : DWord) (bf : Word) :
    (∀ t, ((l.rbin op w d x b bf).th t).step = t.step) ∧ (∀ t, ((l.rbin op w d x b bf).th t).pcw = t.pcw)
      ∧ ∀ t, ((l.rbin op w d x b bf).th t).st = t.st := by
  unfold Lane.rbin
  split
  · exact ⟨fun t => t.fresult_step d _, fun t => t.result_pcw false d _, fun t => t.result_st false d _⟩
  · exact ⟨fun t => t.result_step w d _, fun t => t.result_pcw w d _, fun t => t.result_st w d _⟩

end

/-- What a restricted comparison says of its sources (R77). -/
def ComparesTo (c : RCmp) (a b : Nat) : Prop := match c with
  | .eq => a = b
  | .ne => a ≠ b
  | .lts => sOf false a < sOf false b
  | .ltz => a < b
  | .les => sOf false a ≤ sOf false b
  | .lez => a ≤ b
  | .gts => sOf false b < sOf false a
  | .gtz => b < a
  | .ges => sOf false b ≤ sOf false a
  | .gez => b ≤ a

theorem cmpOf_rcmp (c : RCmp) {a b : DWord} (ha : extW false a = a) (hb : extW false b = b) :
    cmpOf (rcmp c).1 (rcmp c).2 false a b = true ↔ ComparesTo c a.toNat b.toNat := by
  cases c <;> simp only [rcmp, cmpOf, ComparesTo, xv, zv_of_extW ha, zv_of_extW hb, sv_of_extW ha, sv_of_extW hb, reduceCtorEq, if_false, if_true,
    decide_eq_true_eq, beq_iff_eq, bne_iff_ne, Nat.cast_lt, Nat.cast_le]

/-- The value of a restricted operation of one source. -/
def restrictedUnary (op : RUn) (w : Bool) (v : DWord) : DWord := match op with
  | .mov => v
  | .not => modW w (2 ^ wid w - 1 - v.toNat)
  | .neg => modW w (-v.toNat)

theorem extW_runa (op : RUn) {w : Bool} {v : DWord} (h : extW w v = v) : extW w ((runa op).result w v) = restrictedUnary op w v := by
  cases op <;> simp [runa, UOp.result, restrictedUnary, zv_of_extW h, modW_toNat_of_extW h, h]

/-! ### Halves -/

/-- A 32-bit register named in a half (R71). -/
def halfReg (i : BitVec 5) : Src := .g (i.setWidth 8)

/-- What a half that neither branches nor accesses memory leaves of a thread. -/
def HalfDoes (h : Half) (l : Lane) (t u : Thread) : Prop := match h.op with
  | .two op d s => PutsRestricted op false d.toDst (l.src 0 false d.toSrc) (l.src 1 false s) (l.srcF 0 d.toSrc) (l.srcF 1 s) t u
  | .split op d a b => PutsRestricted op false d (l.src 0 false (halfReg a)) (l.src 1 false (halfReg b)) (l.srcF 0 (halfReg a))
      (l.srcF 1 (halfReg b)) t u
  | .cmp c p a b => ∃ y, PutsPred t u p y 0 ∧ (y = true ↔ ComparesTo c (l.src 0 false (halfReg a)).toNat (l.src 1 false (halfReg b)).toNat)
  | .una op d s => Puts t u false d (restrictedUnary op false (l.src 0 false s)) 0
  | _ => False

/-- A half that neither branches nor accesses memory. -/
def IsInner (h : Half) : Prop := match h.op with
  | .two .. | .split .. | .cmp .. | .una .. => True
  | _ => False

/-- The part of an inner half is a change of the thread alone, nothing where its guard is false. -/
theorem Lane.half_inner (l : Lane) {h : Half} (hi : IsInner h) : ∃ f : Thread → Thread, l.half h = .ok { th := f }
    ∧ ∀ t, (f t).step = t.step ∧ (f t).pcw = t.pcw ∧ (f t).st = t.st
      ∧ if RGuard.holds h.gd l.t then HalfDoes h l t (f t).next else f t = t := by
  obtain ⟨gd, op⟩ := h
  unfold Lane.half
  by_cases hg : RGuard.holds gd l.t = true
  · rw [if_neg (by simp [hg])]
    simp only [hg, if_true]
    cases op with
    | two op d s =>
      obtain ⟨h1, h2, h3⟩ := l.rbin_keeps op false d.toDst d.toSrc (l.src 1 false s) (l.srcF 1 s)
      exact ⟨_, congrArg LaneRes.ok (l.rbin_eq ..), fun t => ⟨h1 t, h2 t, h3 t, l.rbin_puts op false _ _ _ (extW_src ..) t⟩⟩
    | split op d a b =>
      obtain ⟨h1, h2, h3⟩ := l.rbin_keeps op false d (halfReg a) (l.src 1 false (halfReg b)) (l.srcF 1 (halfReg b))
      exact ⟨_, congrArg LaneRes.ok (l.rbin_eq ..), fun t => ⟨h1 t, h2 t, h3 t, l.rbin_puts op false _ _ _ (extW_src ..) t⟩⟩
    | cmp c p a b =>
      exact ⟨_, rfl, fun t => ⟨rfl, rfl, rfl, _, t.predResult_puts0 p _, cmpOf_rcmp c (extW_src ..) (extW_src ..)⟩⟩
    | una op d s =>
      refine ⟨_, rfl, fun t => ⟨t.result_step .., t.result_pcw .., t.result_st .., ?_⟩⟩
      have hput := t.result_puts0 false d ((runa op).result false (l.src 0 false s))
      rwa [extW_runa op (extW_src l 0 false s)] at hput
    | ld | st | bra | ret => cases hi
  · rw [if_pos (by simp [hg])]
    simp only [hg, Bool.false_eq_true, if_false]
    exact ⟨_, rfl, fun t => ⟨rfl, rfl, rfl, rfl⟩⟩

theorem Lane.rload_eq (l : Lane) (dbl : Bool) (sp : Space) (d : LDst) (base : Base) (o : DWord) : l.rload dbl sp d base o
    = l.access (loadWant d (rwidth dbl) sp false false .none none) (l.addrOff sp base o) (rwidth dbl).bytes fun _ => none := rfl

theorem Lane.rstore_eq (l : Lane) (dbl scr : Bool) (data : Src) (base : Base) (o : DWord) : l.rstore dbl scr data base o
    = l.access (storeWant (l.storeData (rwidth dbl) data) (if scr then .s else .g) .none none)
      (l.addrOff (if scr then .s else .g) base o) (rwidth dbl).bytes fun _ => none := rfl

theorem Lane.rload_own {l : Lane} {dbl : Bool} {sp : Space} {d : LDst} {base : Base} {o : DWord} {fx : Fx}
    (h : l.rload dbl sp d base o = .ok fx) : ∀ x ∈ fx.ops, x.slot = l.slot := l.access_own _ _ _ _ ((l.rload_eq ..).symm.trans h)

theorem Lane.rstore_own {l : Lane} {dbl scr : Bool} {data : Src} {base : Base} {o : DWord} {fx : Fx}
    (h : l.rstore dbl scr data base o = .ok fx) : ∀ x ∈ fx.ops, x.slot = l.slot := l.access_own _ _ _ _ ((l.rstore_eq ..).symm.trans h)

theorem jumpTo_own {a : DWord} {th : Thread → Thread} {fx : Fx} {k : Nat} (h : jumpTo a th = .ok fx) : ∀ x ∈ fx.ops, x.slot = k := by
  rw [jumpTo_ops h]
  exact fun x hx => by cases hx

theorem Lane.half_own {l : Lane} {h : Half} {fx : Fx} (hf : l.half h = .ok fx) : ∀ x ∈ fx.ops, x.slot = l.slot := by
  obtain ⟨gd, op⟩ := h
  unfold Lane.half at hf
  split at hf
  · cases hf
    exact fun x hx => by cases hx
  · cases op with
    | ld => exact Lane.rload_own hf
    | st => exact Lane.rstore_own hf
    | ret => exact jumpTo_own hf
    | cmp | una | bra =>
      cases hf
      exact fun x hx => by cases hx
    | two op d y =>
      cases hf
      rw [Lane.rbin_eq]
      exact fun x hx => by cases hx
    | split op d a b =>
      cases hf
      rw [Lane.rbin_eq]
      exact fun x hx => by cases hx

theorem pairFx_own (h k : Half) : OpsOwn (pairFx h k) := by
  intro l fx hf
  unfold pairFx at hf
  split at hf <;> cases hf
  next hx hy =>
    intro z hz
    exact (List.mem_append.1 hz).elim (l.half_own hx z) (l.half_own hy z)

theorem litFx_own (x : LitWord) : OpsOwn (litFx x) := by
  intro l fx hf
  unfold litFx at hf
  dsimp only at hf
  split at hf
  · cases hf
    rw [Lane.rbin_eq]
    exact fun x hx => by cases hx
  · cases hf
    exact fun x hx => by cases hx
  · cases hf
    exact fun x hx => by cases hx
  · exact Lane.rload_own hf
  · exact Lane.rstore_own hf
  · cases hf
    exact fun x hx => by cases hx

/-- A pair of halves whose parts both succeed. -/
theorem pairFx_ok {h k : Half} {l : Lane} {x y : Fx} (hx : l.half h = .ok x) (hy : l.half k = .ok y) : pairFx h k l = .ok (x.both y) := by
  unfold pairFx
  rw [hx, hy]

theorem Fx.after_both (f : Thread → Thread) (j : Option DWord) (t : Thread) : (Fx.both { th := f } { jump := j }).after t = match j with
    | none => (f t).next
    | some pc => (f t).setPc pc := by cases j <;> rfl

/-! ### Issue of a word that may branch or access memory -/

theorem RunsBy.of_issueMixed {i : Instr} {gd bgd : Thread → Bool} {f : Lane → LaneRes} (hg : ∀ t, gd t = i.on t) (hops : OpsOwn f)
    (hx : ∀ s, exec i s = s.issueMixed i gd bgd false f) : RunsBy i gd fun _ => f :=
  ⟨hg, fun _ => hops, fun s => ⟨_, hx s, State.noteIntervals_thread? _ _ _, State.noteIntervals_ops _ _ _⟩⟩

/-- A branching word completes where its part only changes the lane's thread, which may be respawned. -/
theorem CompletesWhen.of_issueMixed {i : Instr} {gd bgd : Thread → Bool} {f : Lane → LaneRes} {C : State → Nat → Thread → Prop}
    {P : Lane → Thread → Prop} (hx : ∀ s, exec i s = s.issueMixed i gd bgd true f) (hg : ∀ t, gd t = i.on t) (hops : OpsOwn f)
    (hf : ∀ s k t b, Takes s i k t → C s k t → ∃ fx, f (s.laneAt k t b) = .ok fx ∧ fx.ops = [] ∧ fx.req = none
      ∧ (fx.after t).step = t.step ∧ ∀ u, RespawnedOf (fx.after t) u → P (s.laneAt k t b) u) : CompletesWhen i C P := by
  intro s k t ht hC
  obtain ⟨-, b, fx, hfx, hk⟩ := s.runLanes_takes i gd f k t ht (hg t) hops fun b => by
    obtain ⟨fx, h, ho, hr, -⟩ := hf s k t b ht hC
    exact ⟨fx, h, ho, hr⟩
  obtain ⟨fx', hfx', -, -, hs, hP⟩ := hf s k t b ht hC
  cases hfx.symm.trans hfx'
  have hk' := (State.noteIntervals_thread? _ s.nextOp [] k).trans hk
  have hk'' : (((s.runLanes i gd f).s.noteIntervals s.nextOp []).stepTraps s.cur.pc
      ((s.runLanes i gd f).took ++ (s.runLanes i gd f).off)).thread? k = some (fx.after t) := by
    refine (State.stepTraps_thread? _ _ _ k fun v hv => ?_).trans hk'
    rw [← Option.some.inj (hk'.symm.trans hv)]
    exact hs.trans ht.free
  obtain ⟨u, hu, hr⟩ := State.respawn_thread? _ _ _ k _ hk''
  exact ⟨_, b, u, hx s, hu, hP u hr⟩

theorem rwidth_bytes (dbl : Bool) : (rwidth dbl).bytes = if dbl then 8 else 4 := by cases dbl <;> rfl

/-- A restricted load whose address leads to a place issues its access (R75, R76). -/
theorem Lane.rload_sends {l : Lane} {dbl : Bool} {sp : Space} {d : LDst} {base : Base} {o : DWord} {p : Place}
    (h : l.reaches sp (l.addrOff sp base o) (if dbl then 8 else 4) .read p) : ∃ tlb, l.rload dbl sp d base o = .ok
      { ops := [l.accessOp (loadWant d (rwidth dbl) sp false false .none none) (l.addrOff sp base o) (if dbl then 8 else 4) p .team]
        tlb := tlb } := by
  obtain ⟨hr, tlb, hf⟩ := h
  rw [Lane.rload_eq, rwidth_bytes]
  exact ⟨tlb, Lane.access_here (w := loadWant ..) (fun h => by cases h) hr rfl hf rfl⟩

theorem Lane.rstore_sends {l : Lane} {dbl scr : Bool} {data : Src} {base : Base} {o : DWord} {p : Place}
    (h : l.reaches (if scr then .s else .g) (l.addrOff (if scr then .s else .g) base o) (if dbl then 8 else 4) .write p) :
    ∃ tlb, l.rstore dbl scr data base o = .ok
      { ops := [l.accessOp (storeWant (l.storeData (rwidth dbl) data) (if scr then .s else .g) .none none)
          (l.addrOff (if scr then .s else .g) base o) (if dbl then 8 else 4) p .team]
        tlb := tlb } := by
  obtain ⟨hr, tlb, hf⟩ := h
  rw [Lane.rstore_eq, rwidth_bytes]
  exact ⟨tlb, Lane.access_here (w := storeWant ..) (fun h => by cases h) hr rfl hf rfl⟩

theorem Lane.addrOff_zero (l : Lane) (sp : Space) (base : Base) : l.addrOff sp base 0 = l.src 0 (sp == .g) base.toSrc := by
  cases sp
  case g => exact BitVec.add_zero _
  all_goals exact (congrArg low32 (BitVec.add_zero _)).trans (extW_src l 0 false base.toSrc)

/-! ### Pair words -/

/-- A lane's thread after the first half alone: at the word still. -/
def FirstDoes (h : Half) (l : Lane) (v : Thread) : Prop :=
  if RGuard.holds h.gd l.t then ∃ v', HalfDoes h l l.t v' ∧ v = { v' with pcw := l.t.pcw } else v = l.t

/-- The first half's part of an inner half, as the second half finds the thread. -/
theorem Lane.first_inner (l : Lane) {h : Half} (hi : IsInner h) : ∃ f : Thread → Thread, l.half h = .ok { th := f }
    ∧ FirstDoes h l (f l.t) ∧ (f l.t).step = l.t.step ∧ (f l.t).pcw = l.t.pcw ∧ (f l.t).st = l.t.st := by
  obtain ⟨f, hf, h1⟩ := l.half_inner hi
  obtain ⟨hstep, hpcw, hst, hdoes⟩ := h1 l.t
  refine ⟨f, hf, ?_, hstep, hpcw, hst⟩
  unfold FirstDoes
  split_ifs at hdoes ⊢
  · exact ⟨_, hdoes, congrArg (fun w => { f l.t with pcw := w }) hpcw⟩
  · exact hdoes

theorem pairInner (h k : Half) (hi : IsInner h) (ki : IsInner k) : Completes (.pairFormWord h k) fun l u => ∃ v, FirstDoes h l v
    ∧ if RGuard.holds k.gd l.t then HalfDoes k l v u else u = { v with pcw := l.t.pcw + 1 } := by
  have hb : HalfOp.branches k.op = false := by
    obtain ⟨gd, op⟩ := k
    cases op with
    | ld | st | bra | ret => cases ki
    | two | split | cmp | una => rfl
  refine .of_when (.of_runs (RunsBy.of_issueMixed (gd := fun _ => true) (bgd := RGuard.holds k.gd) (fun _ => rfl) (pairFx_own h k)
    fun s => hb ▸ rfl) fun s w t b ht _ => ?_)
  obtain ⟨f, hf, hfirst, hstep, hpcw, -⟩ := (s.laneAt w t b).first_inner hi
  obtain ⟨g, hg, hdoes⟩ := (s.laneAt w t b).half_inner ki
  obtain ⟨hstep', hpcw', -, hdoes⟩ := hdoes (f t)
  refine ⟨_, pairFx_ok hf hg, rfl, rfl, hstep'.trans hstep, f t, hfirst, ?_⟩
  split_ifs at hdoes ⊢
  · exact hdoes
  · exact (congrArg Thread.next hdoes).trans (congrArg (fun w => { f t with pcw := w + 1 }) hpcw)

theorem pairBranch (h : Half) (gd : RGuard) (imm : BitVec 8) (hi : IsInner h) : Completes (.pairFormWord h ⟨gd, .bra imm⟩) fun l u =>
    ∃ v st, FirstDoes h l v ∧ (st = .ready ∨ st = .spawned) ∧ u = { v with
      pcw := if RGuard.holds gd l.t then pcOf (l.t.pc + BitVec.ofInt 64 (8 * imm.toInt)) else l.t.pcw + 1, st := st } := by
  refine .of_when (CompletesWhen.of_issueMixed (gd := fun _ => true) (bgd := RGuard.holds gd) (fun _ => rfl) (fun _ => rfl)
    (pairFx_own h ⟨gd, .bra imm⟩) fun s w t b ht _ => ?_)
  obtain ⟨f, hf, hfirst, hstep, hpcw, hst⟩ := (s.laneAt w t b).first_inner hi
  have hg : (s.laneAt w t b).half ⟨gd, .bra imm⟩
      = .ok { jump := if RGuard.holds gd t then some (relTarget t.pc imm.toInt) else none } := by
    unfold Lane.half
    cases hgd : RGuard.holds gd t <;> simp [hgd, State.laneAt]
  refine ⟨_, pairFx_ok hf hg, rfl, rfl, ?_, fun u ⟨st, hst', hu⟩ => ⟨f t, st, hfirst, ?_, hu.trans ?_⟩⟩
  · rw [Fx.after_both]
    split <;> exact hstep
  · have hst'' : st = t.st ∨ st = .spawned := by
      refine hst'.imp_left fun h => h.trans ?_
      rw [Fx.after_both]
      split <;> exact hst
    simpa using readyOrSpawned ht hst''
  · rw [Fx.after_both]
    have hpcw : (f t).pcw = t.pcw := hpcw
    change _ = { f t with pcw := if RGuard.holds gd t then pcOf (t.pc + BitVec.ofInt 64 (8 * imm.toInt)) else t.pcw + 1, st := st }
    rw [← hpcw]
    cases RGuard.holds gd t <;> rfl

theorem pairReturn (h : Half) (gd : RGuard) (hi : IsInner h) : CompletesWhen (.pairFormWord h ⟨gd, .ret⟩)
    (fun _ _ t => RGuard.holds gd t = true → t.lk.toNat < 2 ^ 55 ∧ t.lk.toNat % 8 = 0) fun l u =>
    ∃ v, FirstDoes h l v ∧ u = { v with pcw := if RGuard.holds gd l.t then pcOf l.t.lk else l.t.pcw + 1 } := by
  refine CompletesWhen.of_runs (RunsBy.of_issueMixed (gd := fun _ => true) (bgd := RGuard.holds gd) (fun _ => rfl)
    (pairFx_own h ⟨gd, .ret⟩) fun s => rfl) fun s w t b ht hC => ?_
  obtain ⟨f, hf, hfirst, hstep, hpcw, -⟩ := (s.laneAt w t b).first_inner hi
  have hg : (s.laneAt w t b).half ⟨gd, .ret⟩ = .ok { jump := if RGuard.holds gd t then some t.lk else none } := by
    unfold Lane.half
    cases hgd : RGuard.holds gd t
    · simp [hgd, State.laneAt]
    · simpa [hgd, State.laneAt] using jumpTo_good (fun t => t) (hC hgd)
  refine ⟨_, pairFx_ok hf hg, rfl, rfl, ?_, f t, hfirst, ?_⟩
  · rw [Fx.after_both]
    split <;> exact hstep
  · rw [Fx.after_both]
    have hpcw : (f t).pcw = t.pcw := hpcw
    change _ = { f t with pcw := if RGuard.holds gd t then pcOf t.lk else t.pcw + 1 }
    rw [← hpcw]
    cases RGuard.holds gd t <;> rfl

theorem pairLoad (h : Half) (gd : RGuard) (dbl : Bool) (sp : Space) (d : LDst) (base : Base) (hi : IsInner h) :
    Issues (.pairFormWord h ⟨gd, .ld dbl sp d base⟩) (fun s k t => RGuard.holds gd t = true
      ∧ ∀ b, ∃ p, (s.laneAt k t b).reaches sp ((s.laneAt k t b).src 0 (sp == .g) base.toSrc) (if dbl then 8 else 4) .read p) fun l u o =>
    o.kind = .load d (if dbl then .d else .w) false false .none ∧ o.cls = .ld ∧ o.n = (if dbl then 8 else 4)
      ∧ o.marks = d.ids (if dbl then .d else .w) ∧ l.reaches sp (l.src 0 (sp == .g) base.toSrc) (if dbl then 8 else 4) .read o.place
      ∧ ∃ v, FirstDoes h l v ∧ SentTo v u .ld o.marks := by
  refine .of_runs_writing (RunsBy.of_issueMixed (gd := fun _ => true) (bgd := RGuard.holds gd) (fun _ => rfl)
    (pairFx_own h ⟨gd, .ld dbl sp d base⟩) fun s => rfl) fun s w t b ht ⟨hgd, hreach⟩ => ?_
  obtain ⟨f, hf, hfirst, hstep, hpcw, -⟩ := (s.laneAt w t b).first_inner hi
  obtain ⟨p, hp⟩ := hreach b
  have hg : (s.laneAt w t b).half ⟨gd, .ld dbl sp d base⟩ = (s.laneAt w t b).rload dbl sp d base 0 := by
    unfold Lane.half
    exact if_neg (by simp [State.laneAt, hgd])
  rw [← Lane.addrOff_zero] at hp
  obtain ⟨tlb, hload⟩ := Lane.rload_sends (d := d) hp
  refine ⟨_, _, pairFx_ok hf (hg.trans hload), rfl, rfl, rfl, hstep, rfl, rfl, rfl, fun u n dep hsent => ?_⟩
  rw [← Lane.addrOff_zero]
  exact ⟨rfl, rfl, rfl, rfl, hp, f t, hfirst, hsent⟩

/-! ### Literal words -/

/-- A literal as an operation of width W reads it (R75). -/
def litValue (dbl : Bool) (lit : BitVec 32) : DWord := if dbl then lit.signExtend 64 else lit.setWidth 64

theorem litValue_eq (dbl : Bool) (lit : BitVec 32) : extW dbl (lit.signExtend 64) = litValue dbl lit := by
  cases dbl
  · exact congrArg (BitVec.setWidth 64) (setWidth_signExtend lit)
  · rfl

theorem extW_litValue (dbl : Bool) (lit : BitVec 32) : extW dbl (litValue dbl lit) = litValue dbl lit := by
  rw [← litValue_eq, extW_extW]

theorem literalInner (x : LitWord) (hi : match x.op with
      | .bin .. | .cmp .. | .una .. => True
      | _ => False) :
    Completes (.literalFormWord x) fun l u => match x.op with
      | .bin op dbl d a lit => PutsRestricted op dbl d (l.src 0 dbl a) (litValue dbl lit) (l.srcF 0 a) lit l.t u
      | .cmp c p a lit => ∃ y, PutsPred l.t u p y 0 ∧ (y = true ↔ ComparesTo c (l.src 0 false a).toNat lit.toNat)
      | .una op dbl d lit => Puts l.t u dbl d (restrictedUnary op dbl (litValue dbl lit)) 0
      | _ => False := by
  obtain ⟨gd, op⟩ := x
  cases op with
  | bin op dbl d a lit =>
    refine .of_when (.of_runs (RunsBy.of_issueMixed (gd := RGuard.holds gd) (bgd := RGuard.holds gd) (fun _ => rfl) (litFx_own _)
      fun s => rfl) fun s k t b ht _ => ?_)
    refine ⟨_, congrArg LaneRes.ok (Lane.rbin_eq ..), rfl, rfl, (Lane.rbin_keeps ..).1 t, ?_⟩
    rw [litValue_eq]
    exact (s.laneAt k t b).rbin_puts op dbl d a lit (extW_litValue dbl lit) t
  | cmp c p a lit =>
    refine .of_when (.of_runs (RunsBy.of_issueMixed (gd := RGuard.holds gd) (bgd := RGuard.holds gd) (fun _ => rfl) (litFx_own _)
      fun s => rfl) fun s k t b ht _ => ?_)
    have hlit : (lit.setWidth 64).toNat = lit.toNat := by
      rw [BitVec.toNat_setWidth]
      omega
    exact ⟨_, rfl, rfl, rfl, rfl, _, t.predResult_puts0 p _, hlit ▸ cmpOf_rcmp c (extW_src ..) (extW_false_setWidth lit)⟩
  | una op dbl d lit =>
    refine .of_when (.of_runs (RunsBy.of_issueMixed (gd := RGuard.holds gd) (bgd := RGuard.holds gd) (fun _ => rfl) (litFx_own _)
      fun s => rfl) fun s k t b ht _ => ?_)
    refine ⟨_, rfl, rfl, rfl, t.result_step .., ?_⟩
    have hv : extW dbl ((runa op).result dbl (extW dbl (lit.signExtend 64))) = restrictedUnary op dbl (litValue dbl lit) := by
      rw [litValue_eq]
      exact extW_runa op (extW_litValue dbl lit)
    have hput := t.result_puts0 dbl d ((runa op).result dbl (extW dbl (lit.signExtend 64)))
    rwa [hv] at hput
  | ld | st | bra => cases hi

theorem literalBranch (gd : RGuard) (lit : BitVec 32) : Completes (.literalFormWord ⟨gd, .bra lit⟩) fun l u =>
    ∃ st, (st = .ready ∨ st = .spawned) ∧ u = { l.t with pcw := pcOf (l.t.pc + lit.signExtend 64), st := st } := by
  refine .of_when (CompletesWhen.of_issueMixed (gd := RGuard.holds gd) (bgd := RGuard.holds gd) (fun _ => rfl) (fun _ => rfl)
    (litFx_own _) fun s k t b ht _ => ⟨_, rfl, rfl, rfl, rfl, fun u ⟨st, hst, hu⟩ => ⟨st, ?_, hu⟩⟩)
  simpa using readyOrSpawned ht hst

theorem Lane.addrOff_literal (l : Lane) (sp : Space) (base : Base) (lit : BitVec 32) : l.addrOff sp base (lit.signExtend 64)
    = if sp = .g then l.src 0 true base.toSrc + lit.signExtend 64 else (l.src32 0 base.toSrc + lit).setWidth 64 := by
  have h : low32 (l.base false base + lit.signExtend 64) = (l.src32 0 base.toSrc + lit).setWidth 64 := by
    unfold low32
    rw [BitVec.setWidth_add _ _ (show 32 ≤ 64 by decide), setWidth_signExtend]
    rfl
  cases sp
  case g => rfl
  all_goals exact h

theorem literalLoad (gd : RGuard) (dbl : Bool) (sp : Space) (d : LDst) (base : Base) (lit : BitVec 32) :
    Issues (.literalFormWord ⟨gd, .ld dbl sp d base lit⟩)
      (fun s k t => ∀ b, ∃ p, (s.laneAt k t b).reaches sp ((s.laneAt k t b).addrOff sp base (lit.signExtend 64)) (if dbl then 8 else 4) .read p)
      fun l u o => o.kind = .load d (if dbl then .d else .w) false false .none ∧ o.cls = .ld ∧ o.n = (if dbl then 8 else 4)
        ∧ o.marks = d.ids (if dbl then .d else .w)
        ∧ l.reaches sp (l.addrOff sp base (lit.signExtend 64)) (if dbl then 8 else 4) .read o.place ∧ SentTo l.t u .ld o.marks := by
  refine .of_runs_writing (RunsBy.of_issueMixed (gd := RGuard.holds gd) (bgd := RGuard.holds gd) (fun _ => rfl)
    (litFx_own _) fun s => rfl) fun s k t b ht hreach => ?_
  obtain ⟨p, hp⟩ := hreach b
  obtain ⟨tlb, hload⟩ := Lane.rload_sends (d := d) hp
  exact ⟨_, _, hload, rfl, rfl, rfl, rfl, rfl, rfl, rfl, fun u n dep hsent => ⟨rfl, rfl, rfl, rfl, hp, hsent⟩⟩

theorem literalStore (gd : RGuard) (dbl scr : Bool) (data : Src) (base : Base) (lit : BitVec 32) :
    Issues (.literalFormWord ⟨gd, .st dbl scr data base lit⟩)
      (fun s k t => ∀ b, ∃ p, (s.laneAt k t b).reaches (if scr then .s else .g)
        ((s.laneAt k t b).addrOff (if scr then .s else .g) base (lit.signExtend 64)) (if dbl then 8 else 4) .write p)
      fun l u o => (∃ bs, o.kind = .store bs .none ∧ bs.length = (if dbl then 8 else 4) ∧ bytesNat bs = (l.src 3 dbl data).toNat) ∧ o.cls = .st
        ∧ o.n = (if dbl then 8 else 4) ∧ o.marks = []
        ∧ l.reaches (if scr then .s else .g) (l.addrOff (if scr then .s else .g) base (lit.signExtend 64)) (if dbl then 8 else 4) .write o.place
        ∧ SentTo l.t u .st [] := by
  refine .of_runs_writing (RunsBy.of_issueMixed (gd := RGuard.holds gd) (bgd := RGuard.holds gd) (fun _ => rfl)
    (litFx_own _) fun s => rfl) fun s k t b ht hreach => ?_
  obtain ⟨p, hp⟩ := hreach b
  obtain ⟨tlb, hstore⟩ := Lane.rstore_sends (data := data) hp
  have hlen := (s.laneAt k t b).storeData_length (rwidth dbl) data
  rw [rwidth_bytes] at hlen
  have hbytes : bytesNat ((s.laneAt k t b).storeData (rwidth dbl) data) = ((s.laneAt k t b).src 3 dbl data).toNat := by
    rw [Lane.bytesNat_storeData _ (.inr (by cases dbl <;> decide))]
    have h : ((s.laneAt k t b).src 3 dbl data).toNat % 2 ^ wid dbl = ((s.laneAt k t b).src 3 dbl data).toNat := by
      rw [← extW_toNat, extW_src]
    cases dbl <;> exact h
  exact ⟨_, _, hstore, rfl, rfl, rfl, rfl, rfl, rfl, rfl, fun u n dep hsent => ⟨⟨_, rfl, hlen, hbytes⟩, rfl, rfl, rfl, hp, hsent⟩⟩

/-- Settles O40: the second half's part runs on what the first half's leaves, and a restricted operation is its full form. -/
theorem pairAndLiteralResults : Obligations.PairAndLiteralResults := by
  dsimp only [Obligations.PairAndLiteralResults]
  refine ⟨pairInner, pairBranch, pairReturn, pairLoad, literalInner, literalBranch, fun gd dbl sp d base lit => ?_,
    fun gd dbl scr data base lit => ?_⟩
  · simpa only [Lane.addrOff_literal] using literalLoad gd dbl sp d base lit
  · have h := literalStore gd dbl scr data base lit
    cases scr <;> simpa only [Lane.addrOff_literal, Bool.false_eq_true, if_false, if_true, reduceCtorEq] using h

end Sys2Proof.Machine
end

section
/-!
What the matrix engine computes (06 R137, R148, R153): elements of D as chains of accumulation steps, and the transpose.
-/

namespace Sys2Proof.Machine

/-- A register of the lane at a position of an entry's quarter; an absent lane's reads zero (R137). -/
def State.laneReg (s : State) (e : MEnt) (q i : Nat) : Word := match e.slots.getD q none with
  | none => 0
  | some k => match s.thread? k with
    | none => 0
    | some t => t.gVal i

/-- No lane of an entry holds a value that the engine may still read in place of a newer one (R142). -/
def State.settled (s : State) (e : MEnt) : Prop :=
  ∀ k ∈ e.slots, ∀ i, k = some i → ∀ t, s.thread? i = some t → ∀ w ∈ t.wins, w.olds = []

section
variable {s : State} {e : MEnt} (h : s.settled e)
include h

theorem State.engineReg_eq (q role i : Nat) : s.engineReg e q role i = s.laneReg e q i := by
  unfold State.engineReg State.laneReg
  cases hk : e.slots.getD q none with
  | none => rfl
  | some k =>
    have hmem : some k ∈ e.slots := by
      rw [List.getD_eq_getElem?_getD] at hk
      cases hq : e.slots[q]? with
      | none => simp [hq] at hk
      | some x =>
        rw [hq] at hk
        exact hk ▸ List.mem_of_getElem? hq
    dsimp only
    cases ht : s.thread? k with
    | none => rfl
    | some t =>
      dsimp only
      cases hw : t.wins.find? (fun w => !w.store && w.entry == e.id) with
      | none => rfl
      | some w =>
        simp [h _ hmem k rfl t ht w (List.mem_of_find?_eq_some hw)]

/-- An element of a fragment of a width (R137). -/
def State.tileElem (s : State) (e : MEnt) (w base m k : Nat) : Nat :=
  bits (s.laneReg e (m / 2) (base + 8 * (m % 2) + k / (32 / w))) (w * (k % (32 / w))) w

theorem State.fragElem_eq (role base w m k : Nat) : s.fragElem e role base w m k = s.tileElem e w base m k := by
  unfold State.fragElem State.tileElem
  rw [State.engineReg_eq h]
  rfl

/-- A scale byte of a row or column (R116, R148). -/
def State.scaleByte (s : State) (e : MEnt) (r m k : Nat) : Nat := bits (s.laneReg e (m / 2) r) (8 * (2 * (m % 2) + k / 32)) 8

theorem State.scaleAt_eq (r m k : Nat) : s.scaleAt e r m (k / 32)
    = if s.scaleByte e r m k = 255 then none else some ((s.scaleByte e r m k : Int) - 127) := by
  have hlt : s.scaleByte e r m k < 256 := Nat.mod_lt _ (by decide)
  unfold State.scaleAt
  rw [State.engineReg_eq h]
  change scaleExp (s.scaleByte e r m k) = _
  rw [scaleExp, Nat.mod_eq_of_lt hlt]

/-- The power of two that scales a product: none where one of its two bytes is 0xFF (R116). -/
def State.scalePower (s : State) (e : MEnt) (sc : Option Nat) (m n k : Nat) : Option Int := match sc with
  | none => some 0
  | some r => if s.scaleByte e r m k = 255 ∨ s.scaleByte e (r + 1) n k = 255 then none
      else some ((s.scaleByte e r m k : Int) - 127 + ((s.scaleByte e (r + 1) n k : Int) - 127))

theorem State.addExp_scales (r m n k : Nat) :
    addExp (s.scaleAt e r m (k / 32)) (s.scaleAt e (r + 1) n (k / 32)) = s.scalePower e (some r) m n k := by
  rw [State.scaleAt_eq h, State.scaleAt_eq h]
  unfold State.scalePower
  by_cases h1 : s.scaleByte e r m k = 255 <;> by_cases h2 : s.scaleByte e (r + 1) n k = 255 <;> simp [h1, h2, addExp]

/-- The chain of accumulation steps of element `j` of a position (R115, R148). -/
def State.elemChain (s : State) (e : MEnt) (fa fb : NFmt) (a b : Nat) (c sc : Option Nat) (pos j : Nat) : Word × Fl :=
  let acc : Word := match c with
    | none => 0
    | some c => s.laneReg e pos (c + j)
  (List.range (256 / fa.width)).foldl (fun v k => accStep v fa fb (s.tileElem e fa.width a (2 * pos + j / 16) k)
    (s.tileElem e fa.width b (j % 16) k) (s.scalePower e sc (2 * pos + j / 16) (j % 16) k)) (acc, flIf (snanWord acc) nv)

omit h in
theorem dotSteps_map_eq_foldl (acc : Word × Fl) (fa fb : NFmt) (a b : Nat → Nat) (k : Nat → Option Int) (l : List Nat) :
    dotSteps acc fa fb (l.map fun i => (a i, b i, k i)) = l.foldl (fun acc i => accStep acc fa fb (a i) (b i) (k i)) acc := by
  induction l generalizing acc with
  | nil => rfl
  | cons i l ih => exact ih _

theorem State.mmaElem_eq (fa fb : NFmt) (a b : Nat) (c sc : Option Nat) (pos : Nat) {j : Nat} (hj : j < 32) :
    s.mmaElem e fa fb a b c sc (2 * pos + j / 16) (j % 16) = s.elemChain e fa fb a b c sc pos j := by
  have hm : (2 * pos + j / 16) / 2 = pos := by omega
  have hr (c : Nat) : c + 16 * ((2 * pos + j / 16) % 2) + j % 16 = c + j := by omega
  unfold State.mmaElem State.elemChain
  simp only [State.fragElem_eq h, dotSteps_map_eq_foldl]
  cases sc with
  | none =>
    cases c with
    | none => rfl
    | some c => simp only [State.engineReg_eq h, hm, hr, readFl_f32, State.scalePower]
  | some r =>
    simp only [State.addExp_scales h]
    cases c with
    | none => rfl
    | some c => simp only [State.engineReg_eq h, hm, hr, readFl_f32]

omit h in
theorem foldl_or_getLsbD (l : List Fl) (f : Fl) (i : Nat) :
    (l.foldl (fun f x => f ||| x) f).getLsbD i = true ↔ f.getLsbD i = true ∨ ∃ x ∈ l, x.getLsbD i = true := by
  induction l generalizing f with
  | nil => simp
  | cons x l ih => simp [ih, or_assoc]

/-- The D registers of a position, and the flags of its elements. -/
theorem State.mmaRows_spec (fa fb : NFmt) (d a b : Nat) (c sc : Option Nat) (pos : Nat) :
    (∀ j < 32, (d + j, (s.elemChain e fa fb a b c sc pos j).1) ∈ (s.mmaRows e fa fb d a b c sc pos).1)
      ∧ ∀ i, (s.mmaRows e fa fb d a b c sc pos).2.getLsbD i = true ↔ ∃ j < 32, (s.elemChain e fa fb a b c sc pos j).2.getLsbD i = true := by
  have hl : (List.range 32).map (fun j => (d + j, s.mmaElem e fa fb a b c sc (2 * pos + j / 16) (j % 16)))
      = (List.range 32).map fun j => (d + j, s.elemChain e fa fb a b c sc pos j) :=
    List.map_congr_left fun j hj => congrArg (Prod.mk (d + j)) (State.mmaElem_eq h fa fb a b c sc pos (List.mem_range.1 hj))
  unfold State.mmaRows
  rw [hl]
  refine ⟨fun j hj => ?_, fun i => ?_⟩
  · exact List.mem_map.2 ⟨_, List.mem_map.2 ⟨j, List.mem_range.2 hj, rfl⟩, rfl⟩
  · dsimp only
    rw [← List.foldl_map (f := fun (x : Nat × Word × Fl) => x.2.2) (g := fun f x => f ||| x), foldl_or_getLsbD]
    simp

end

theorem matrixProducts : Rules.MatrixProducts := by
  intro s e fa fb d a b pos c sc hpos hop hw hfmt holds
  have hres : (s.entryRes e pos) = s.mmaRows e fa fb d a b c sc pos := by
    unfold State.entryRes
    rcases hop with ⟨x, hx, rfl, rfl, rfl, rfl, rfl, rfl, rfl⟩ | ⟨x, hx, rfl, rfl, rfl, rfl, rfl, rfl, rfl⟩ <;> rw [hx]
  obtain ⟨hd, hf⟩ := State.mmaRows_spec (e := e) holds fa fb d a b c sc pos
  rw [hres]
  exact ⟨hd, fun i _ => hf i⟩

theorem elemBits_lt (w e : Nat) (x : Word) : elemBits w e x < 2 ^ w := Nat.mod_lt _ (by positivity)

/-- The halves of a register of two 16-bit elements. -/
theorem bits_pair {x y i : Nat} (hx : x < 2 ^ 16) (hy : y < 2 ^ 16) (hi : i < 2) :
    bits (BitVec.ofNat 32 (x + 2 ^ 16 * y)) (16 * i) 16 = if i = 0 then x else y := by
  have hv : (BitVec.ofNat 32 (x + 2 ^ 16 * y)).toNat = x + 2 ^ 16 * y := by
    rw [BitVec.toNat_ofNat]
    omega
  rw [bits, hv]
  rcases Nat.lt_succ_iff_lt_or_eq.1 hi with h | rfl
  · rw [Nat.lt_one_iff.1 h, if_pos rfl]
    omega
  · rw [if_neg (by decide)]
    omega

theorem transposesTiles : Rules.TransposesTiles := by
  intro s e x m n hx hm hn holds
  have hres (p : Nat) : (s.entryRes e p).1 = s.mtrnRegs e x.w32 x.d.toNat x.a.toNat p := by
    unfold State.entryRes
    rw [hx]
  dsimp only
  rw [hres]
  unfold State.mtrnRegs
  simp only [State.engineReg_eq holds]
  split_ifs with hw
  · refine List.mem_map.2 ⟨16 * (m % 2) + n, List.mem_range.2 (by omega), ?_⟩
    have h1 : (16 * (m % 2) + n) % 16 = n := by omega
    have h2 : 2 * (m / 2) + (16 * (m % 2) + n) / 16 = m := by omega
    rw [h1, h2, ← Nat.add_assoc]
    rfl
  · have h1 : (8 * (m % 2) + n / 2) % 8 = n / 2 := by omega
    have h2 : 2 * (m / 2) + (8 * (m % 2) + n / 2) / 8 = m := by omega
    refine ⟨_, List.mem_map.2 ⟨8 * (m % 2) + n / 2, List.mem_range.2 (by omega), by rw [← Nat.add_assoc]⟩, ?_⟩
    rw [h1, h2, bits_pair (elemBits_lt ..) (elemBits_lt ..) (Nat.mod_lt n (by decide))]
    rcases Nat.mod_two_eq_zero_or_one n with h3 | h3
    · rw [if_pos h3, Nat.mul_div_cancel_left _ (by decide : 0 < 2), Nat.mul_mod_right, h3]
      rfl
    · rw [if_neg (by omega), show (2 * (n / 2) + 1) / 2 = n / 2 by omega, show (2 * (n / 2) + 1) % 2 = n % 2 by omega]
      rfl

/-- Settles O16: the engine's element is the chain of steps over k, and MTRN's is the element across the diagonal. -/
theorem matrixResults : Obligations.MatrixResults := ⟨matrixProducts, transposesTiles⟩

end Sys2Proof.Machine
end

section
/-!
Matrix entries are admitted, granted and completed (06 R140, R143, R144).
-/

namespace Sys2Proof.Machine

/-! ### Admission -/

theorem distinct_eq_dedup {α : Type} [DecidableEq α] (l : List α) : distinct l = l.dedup := by
  induction l with
  | nil => rfl
  | cons a l ih =>
    unfold distinct
    split_ifs with h
    · rw [ih, List.dedup_cons_of_mem h]
    · rw [ih, List.dedup_cons_of_notMem h]

theorem State.placesUsed_eq (s : State) (p : Nat) : s.placesUsed p
    = ((s.ments.filter (fun e => e.core / 4 == p && e.stage != .queued)).map (·.grp)).dedup.length := by
  rw [State.placesUsed, distinct_eq_dedup]
  rfl

/-- The entries of one group change, and no other. -/
def State.updGroup (s : State) (g : Nat) (f : MEnt → MEnt) : State := { s with ments := s.ments.map fun e => if e.grp = g then f e else e }

section
variable {s : State} {g : Nat} {f : MEnt → MEnt} {e : MEnt}

theorem State.mem_updGroup (he : e ∈ s.ments) (hg : e.grp = g) : f e ∈ (s.updGroup g f).ments :=
  List.mem_map.2 ⟨e, he, if_pos hg⟩

theorem State.mem_updGroup_other (he : e ∈ s.ments) (hg : e.grp ≠ g) : e ∈ (s.updGroup g f).ments :=
  List.mem_map.2 ⟨e, he, if_neg hg⟩

end

theorem entryAdmitted (c : Nat) (e : MEnt) : Happens (.matrixEntryAdmit c)
    (fun s => ((s.ments.filter (fun e => e.core / 4 == c / 4 && e.stage != .queued)).map (·.grp)).dedup.length < 64
      ∧ s.ments.find? (fun f => f.core == c && f.stage == .queued) = some e)
    fun s s' => { e with stage := .admitted, since := s.cycleOf c } ∈ s'.ments
      ∧ (∀ f ∈ s.ments, f.grp = e.grp → { f with stage := .admitted, since := s.cycleOf c } ∈ s'.ments)
      ∧ (∀ f ∈ s.ments, f.grp ≠ e.grp → f ∈ s'.ments) ∧ s' = { s with ments := s'.ments } := by
  rintro s ⟨hfree, he⟩
  have hx : exec (.matrixEntryAdmit c) s = .next (s.updGroup e.grp fun f => { f with stage := .admitted, since := s.cycleOf c }) := by
    change execMatrixEntryAdmit c s = _
    unfold execMatrixEntryAdmit
    rw [he]
    exact if_neg (by rw [State.placesUsed_eq]; exact Nat.not_le.2 hfree)
  exact ⟨_, hx, State.mem_updGroup (List.mem_of_find?_eq_some he) rfl, fun f hf hg => State.mem_updGroup hf hg,
    fun f hf hg => State.mem_updGroup_other hf hg, rfl⟩

theorem entryWaits (c : Nat) : Happens (.matrixEntryAdmit c)
    (fun s => 64 ≤ ((s.ments.filter (fun e => e.core / 4 == c / 4 && e.stage != .queued)).map (·.grp)).dedup.length) fun s s' => s' = s := by
  intro s hfull
  refine ⟨s, ?_, rfl⟩
  change execMatrixEntryAdmit c s = _
  unfold execMatrixEntryAdmit
  split
  · rfl
  · exact if_pos (by rw [State.placesUsed_eq]; exact hfull)

/-! ### The arbiter -/

section
variable {now : Nat}

theorem grantBefore_iff {a b : MEnt} : grantBefore now a b = true ↔
    if a.since + 2048 ≤ now ∨ b.since + 2048 ≤ now then a.since ≤ b.since
    else b.prio < a.prio ∨ (b.prio = a.prio ∧ a.since ≤ b.since) := by
  unfold grantBefore
  simp only [Bool.or_eq_true, decide_eq_true_eq, bne_iff_ne, ne_eq]
  split_ifs with h1 h2 <;> simp only [decide_eq_true_eq] <;> omega

theorem grantBefore_total {a b : MEnt} (h : ¬ grantBefore now a b = true) : grantBefore now b a = true := by
  rw [grantBefore_iff] at h ⊢
  split_ifs at h ⊢ <;> omega

theorem grantBefore_trans {a b c : MEnt} (h : grantBefore now a b = true) (h' : grantBefore now b c = true) : grantBefore now a c = true := by
  rw [grantBefore_iff] at h h' ⊢
  split_ifs at h h' ⊢ <;> omega

theorem grantBefore_refl (a : MEnt) : grantBefore now a a = true := by
  rw [grantBefore_iff]
  split_ifs <;> simp

/-- The arbiter's choice is before every other that it might grant (R144). -/
theorem firstGrant_spec {l : List MEnt} (hl : l ≠ []) : ∃ e ∈ l, firstGrant now l = some e ∧ ∀ f ∈ l, grantBefore now e f = true := by
  induction l with
  | nil => exact absurd rfl hl
  | cons a l ih =>
    unfold firstGrant
    by_cases hn : l = []
    · subst hn
      exact ⟨a, List.mem_cons_self, rfl, fun f hf => by rw [List.mem_singleton.1 hf]; exact grantBefore_refl a⟩
    · obtain ⟨b, hb, hfirst, hall⟩ := ih hn
      rw [hfirst]
      dsimp only
      split_ifs with h
      · exact ⟨a, List.mem_cons_self, rfl, fun f hf => (List.mem_cons.1 hf).elim (fun h' => h'.symm ▸ grantBefore_refl a)
          fun hf => grantBefore_trans h (hall f hf)⟩
      · exact ⟨b, List.mem_cons_of_mem _ hb, rfl, fun f hf => (List.mem_cons.1 hf).elim (fun h' => h' ▸ grantBefore_total h) (hall f)⟩

end

/-- An entry that the arbiter of a copse may grant (R140, R143). -/
def GrantReady (p : Nat) (s : State) (e : MEnt) : Prop := e ∈ s.ments ∧ e.core / 4 = p ∧ e.stage = .admitted
  ∧ ∀ f ∈ s.ments, f.grp = e.grp → s.grantable f = true

theorem State.groupReady_iff (s : State) (e : MEnt) : s.groupReady e = true ↔ ∀ f ∈ s.ments, f.grp = e.grp → s.grantable f = true := by
  simp only [State.groupReady, List.all_eq_true, Bool.or_eq_true, bne_iff_ne, ne_eq, ← imp_iff_not_or]

theorem State.mem_grantReady (s : State) (p : Nat) (e : MEnt) :
    e ∈ s.ments.filter (fun e => copseOf e.core == p && e.stage == .admitted && s.groupReady e) ↔ GrantReady p s e := by
  rw [List.mem_filter, Bool.and_eq_true, Bool.and_eq_true, State.groupReady_iff, beq_iff_eq, beq_iff_eq, and_assoc]
  rfl

theorem entryGranted (p : Nat) : Happens (.matrixGrant p) (fun s => ∃ e, GrantReady p s e)
    fun s s' => ∃ e, GrantReady p s e
      ∧ (∀ f ∈ s.ments, f.grp = e.grp →
          { f with stage := .granted, res := f.contributors.map (fun pk => (pk.2, s.entryRes f pk.1)) } ∈ s'.ments)
      ∧ (∀ f ∈ s.ments, f.grp ≠ e.grp → f ∈ s'.ments)
      ∧ (∀ f, GrantReady p s f →
          if e.since + 2048 ≤ s.cycleOf (4 * p) ∨ f.since + 2048 ≤ s.cycleOf (4 * p) then e.since ≤ f.since
          else f.prio < e.prio ∨ (f.prio = e.prio ∧ e.since ≤ f.since))
      ∧ s' = { s with ments := s'.ments, fresh := s'.fresh } := by
  rintro s ⟨e0, h0⟩
  obtain ⟨e, he, hfirst, hall⟩ := firstGrant_spec (now := s.cycleOf (4 * p)) (List.ne_nil_of_mem ((s.mem_grantReady p e0).2 h0))
  have hx : exec (.matrixGrant p) s = .next ((s.takeFresh 8192).updGroup e.grp fun f =>
      { f with stage := .granted, res := f.contributors.map (fun pk => (pk.2, s.entryRes f pk.1)) }) := by
    change execMatrixGrant p s = _
    unfold execMatrixGrant
    dsimp only
    rw [hfirst]
    rfl
  refine ⟨_, hx, e, (s.mem_grantReady p e).1 he, fun f hf hg => State.mem_updGroup (s := s.takeFresh 8192) hf hg,
    fun f hf hg => State.mem_updGroup_other (s := s.takeFresh 8192) hf hg, fun f hf => ?_, rfl⟩
  exact grantBefore_iff.1 (hall f ((s.mem_grantReady p f).2 hf))

/-! ### Completion -/

theorem Thread.completed_eq_got (t : Thread) (c : Cls) (marks : List RegId) : t.completed c marks = t.got c marks := by
  unfold Thread.completed Thread.got dropMarks
  cases c <;> rfl

theorem Thread.gVal_wrD (t : Thread) (i j : Nat) (v : Word) : (t.wrD i v).gVal j = if j = i then v else t.gVal j := by
  unfold Thread.gVal Thread.wrD
  split_ifs with h
  · subst h
    exact SMap.get_set_same _ _ _ _
  · exact SMap.get_set_other _ _ _ _ _ h

/-- D's registers as the engine writes them, each once. -/
theorem Thread.foldl_wrD {regs : List (Nat × Word)} (hn : (regs.map (·.1)).Nodup) (t : Thread) :
    ∃ u, regs.foldl (fun t x => t.wrD x.1 x.2) t = u ∧ (∀ x ∈ regs, u.gVal x.1 = x.2) ∧ (∀ i, i ∉ regs.map (·.1) → u.gVal i = t.gVal i)
      ∧ u = { t with g := u.g, wins := u.wins, olds := u.olds } := by
  induction regs generalizing t with
  | nil => exact ⟨t, rfl, (fun x hx => nomatch hx), fun _ _ => rfl, rfl⟩
  | cons x regs ih =>
    obtain ⟨hx, hn⟩ := List.nodup_cons.1 hn
    obtain ⟨u, hu, hin, hout, hrest⟩ := ih hn (t.wrD x.1 x.2)
    refine ⟨u, hu, fun y hy => ?_, fun i hi => ?_, hrest⟩
    · rcases List.mem_cons.1 hy with rfl | hy
      · rw [hout _ hx, Thread.gVal_wrD, if_pos rfl]
      · exact hin y hy
    · obtain ⟨h1, h2⟩ := not_or.1 fun h => hi (List.mem_cons.2 h)
      rw [hout i h2, Thread.gVal_wrD, if_neg h1]

/-- A lane whose windows nothing spoilt takes an entry's results as the engine computed them (R140, R141). -/
theorem Thread.matDone_clean {t : Thread} {regs : List (Nat × Word)} (hn : (regs.map (·.1)).Nodup)
    (hw : ∀ w ∈ t.wins, w.spoiltLane = false ∧ w.spoiltRegs = []) (entry free : Nat) (fl : Fl) :
    ∃ u, t.matDone entry free false (regs, fl) = u ∧ (∀ x ∈ regs, u.gVal x.1 = x.2) ∧ (∀ i, i ∉ regs.map (·.1) → u.gVal i = t.gVal i)
      ∧ u = { t.got .tl [] with g := u.g, wins := u.wins, olds := u.olds, fflags := t.fflags ||| fl } := by
  obtain ⟨v, hv, hin, hout, hrest⟩ := Thread.foldl_wrD hn { t with wins := t.wins.filter (fun w => w.store || w.entry != entry) }
  refine ⟨(v.orFl fl).completed .tl [], ?_, hin, hout, ?_⟩
  · unfold Thread.matDone
    cases hf : t.wins.find? (fun w => !w.store && w.entry == entry) with
    | none =>
      simp only [Bool.or_self, Bool.false_eq_true, if_false]
      rw [hv]
    | some w =>
      obtain ⟨h1, h2⟩ := hw w (List.mem_of_find?_eq_some hf)
      simp only [h1, h2, List.contains_nil, Bool.or_self, Bool.false_eq_true, if_false]
      rw [hv]
  · rw [Thread.completed_eq_got, hrest]
    rfl

/-- A fold whose steps each change one thread, that of a key: the thread of a key that stands once. -/
theorem State.foldl_thread_at {β : Type} {f : State → β → State} (key : β → Nat) {k : Nat}
    (hf : ∀ s x, key x ≠ k → (f s x).thread? k = s.thread? k) {l : List β} (hn : (l.map key).Nodup) {x : β} (hx : x ∈ l) (hk : key x = k)
    (s : State) : ∃ s', s'.thread? k = s.thread? k ∧ (l.foldl f s).thread? k = (f s' x).thread? k := by
  induction l generalizing s with
  | nil => cases hx
  | cons y l ih =>
    obtain ⟨hy, hn⟩ := List.nodup_cons.1 hn
    rcases List.mem_cons.1 hx with rfl | hx
    · refine ⟨s, rfl, State.foldl_thread? f k l (fun b hb s' => hf s' b fun h => hy ?_) _⟩
      exact List.mem_map.2 ⟨b, hb, h.trans hk.symm⟩
    · obtain ⟨s', hs', h⟩ := ih hn hx (f s y)
      exact ⟨s', hs'.trans (hf s y fun h => hy (List.mem_map.2 ⟨x, hx, hk.trans h.symm⟩)), h⟩

theorem State.matDeps_frame (s : State) (k : Nat) (op : MatOp) : (s.matDeps k op).threads = s.threads ∧ (s.matDeps k op).ments = s.ments := by
  unfold State.matDeps
  split <;> exact ⟨rfl, rfl⟩

/-- One contributor's results are written; `s` is the state in which the entry completes. -/
def State.writeRes (s : State) (e : MEnt) (z : State) (x : (Nat × List (Nat × Word) × Fl) × Nat) : State :=
  (z.updThread x.1.1 (fun t => t.matDone e.id (s.fresh + 256 * x.2) (s.quarterSpoilt e) x.1.2)).matDeps x.1.1 e.op

section
variable {s z : State} {e : MEnt} {x : (Nat × List (Nat × Word) × Fl) × Nat}

theorem State.writeRes_other {k : Nat} (h : k ≠ x.1.1) : (s.writeRes e z x).thread? k = z.thread? k :=
  (congrArg (fun m => SMap.find? m k) (State.matDeps_frame _ _ _).1).trans (State.thread?_updThread_other z k x.1.1 _ h)

theorem State.writeRes_same : (s.writeRes e z x).thread? x.1.1
    = (z.thread? x.1.1).map fun t => t.matDone e.id (s.fresh + 256 * x.2) (s.quarterSpoilt e) x.1.2 :=
  (congrArg (fun m => SMap.find? m x.1.1) (State.matDeps_frame _ _ _).1).trans (State.thread?_updThread_same z x.1.1 _)

theorem State.foldl_writeRes_ments (l : List ((Nat × List (Nat × Word) × Fl) × Nat)) (z : State) :
    (l.foldl (s.writeRes e) z).ments = z.ments := by
  induction l generalizing z with
  | nil => rfl
  | cons x l ih => exact (ih _).trans (State.matDeps_frame _ _ _).2

theorem execMatrixComplete_eq {p : Nat} (he : s.ments.find? (fun f => f.id == e.id && f.core / 4 == p && f.stage == .granted) = some e) :
    exec (.matrixComplete p e.id) s = .next { (e.res.zip (List.range 8)).foldl (s.writeRes e) (s.takeFresh 2048) with
      ments := ((e.res.zip (List.range 8)).foldl (s.writeRes e) (s.takeFresh 2048)).ments.filter (fun f => f.id != e.id) } := by
  change execMatrixComplete p e.id s = _
  unfold execMatrixComplete
  rw [show s.ments.find? (fun f => f.id == e.id && copseOf f.core == p && f.stage == .granted) = some e from he]
  rfl

end

theorem entryCompletes (p k : Nat) (e : MEnt) (t : Thread) (regs : List (Nat × Word)) (fl : Fl) : Happens (.matrixComplete p e.id)
    (fun s => s.ments.find? (fun f => f.id == e.id && f.core / 4 == p && f.stage == .granted) = some e
      ∧ (k, regs, fl) ∈ e.res ∧ e.res.length ≤ 8 ∧ (e.res.map (·.1)).Nodup ∧ (regs.map (·.1)).Nodup
      ∧ s.thread? k = some t ∧ s.quarterSpoilt e = false
      ∧ ∀ w ∈ t.wins, w.spoiltLane = false ∧ w.spoiltRegs = [])
    fun s s' => (∀ f ∈ s'.ments, f ∈ s.ments ∧ f.id ≠ e.id) ∧ ∃ u, s'.thread? k = some u
      ∧ (∀ x ∈ regs, u.gVal x.1 = x.2) ∧ (∀ i, i ∉ regs.map (·.1) → u.gVal i = t.gVal i)
      ∧ u = { t.got .tl [] with g := u.g, wins := u.wins, olds := u.olds, fflags := t.fflags ||| fl } := by
  rintro s ⟨he, hres, hlen, hnodup, hregs, ht, hspoilt, hwins⟩
  have hfst : (e.res.zip (List.range 8)).map (·.1) = e.res := List.map_fst_zip (by simpa using hlen)
  have hkeys : ((e.res.zip (List.range 8)).map (fun x => x.1.1)).Nodup := by
    rw [← hfst, List.map_map] at hnodup
    exact hnodup
  obtain ⟨⟨x, i⟩, hx, rfl⟩ := List.mem_map.1 (hfst.symm ▸ hres)
  obtain ⟨z, hz, hfold⟩ := State.foldl_thread_at (k := k)
    (f := s.writeRes e) (fun x => x.1.1) (fun z x hne => State.writeRes_other (Ne.symm hne)) hkeys hx rfl (s.takeFresh 2048)
  obtain ⟨u, hu, hspec⟩ := Thread.matDone_clean hregs hwins e.id (s.fresh + 256 * i) fl
  have hments : ((e.res.zip (List.range 8)).foldl (s.writeRes e) (s.takeFresh 2048)).ments = s.ments :=
    State.foldl_writeRes_ments _ _
  refine ⟨_, execMatrixComplete_eq he, fun f hf => ?_, u, ?_, hspec⟩
  · obtain ⟨hf, hid⟩ := List.mem_filter.1 hf
    exact ⟨hments ▸ hf, by simpa using hid⟩
  · refine hfold.trans ((State.writeRes_same ..).trans ?_)
    rw [hz.trans ht, hspoilt]
    exact congrArg some hu

/-- Settles O15: one place for a fused group, the arbiter's total order, and each contributor's results written once. -/
theorem matrixEntriesRun : Obligations.MatrixEntriesRun :=
  ⟨entryAdmitted, entryWaits, entryGranted, entryCompletes⟩

end Sys2Proof.Machine
end

/-! # A lane that its team awaits and that arrives elsewhere

`Gathers` asks of every lane that a team or sub-team awaits that it issues the word now. It does not ask that the lane's thread
is of that team and sub-team itself. A lane of the list whose thread stands in another sub-team arrives there, and the collective
does not complete. -/
section
namespace Sys2Proof.Machine

/-- The lane in slot 0. -/
def gatheredLane : Thread := Thread.placed 0 0 2 0 0

/-- A team of two lanes issues a word. Its own context awaits both; the thread of lane 1 stands in sub-team 5. -/
def strayCrew : State where
  __ := State.reset
  teams := [(0, Team.placed 1 0 0 0 2 0 1024 [])]
  threads := [(0, gatheredLane), (1, { gatheredLane with lane := 1, plane := 1, ctx := 5 })]
  cur := { core := 0, bough := 0, slots := [0, 1], pc := 0 }

/-- What a word leaves of the thread in slot 0. -/
def leftInSlot0 (i : Instr) (s : State) : Option Thread := match exec i s with
  | .next s' => s'.thread? 0
  | _ => none

theorem leftInSlot0_of {i : Instr} {s s' : State} (h : exec i s = .next s') : leftInSlot0 i s = s'.thread? 0 := by
  rw [leftInSlot0, h]

theorem State.apart_of_none {s : State} (h : ∀ e ∈ s.teams, ∀ x ∈ e.2.ctxs, x.2.idle = [] ∧ x.2.coll = none) (k : Nat) : s.apart k := by
  intro e he x hx
  obtain ⟨hidle, hcoll⟩ := h e he x hx
  rw [hidle, hcoll]
  exact ⟨List.not_mem_nil, fun r hr => nomatch hr⟩

/-- A word of the crew that both lanes issue, and nothing stands in the way of. -/
structure IssuedByAll (s : State) (i : Instr) : Prop where
  word : decodeWord 256 ((encode i).getD 0) = .ok i
  lanes : s.issueSet i = [0, 1]
  clear : ∀ e ∈ s.threads, landingOk i e.2 = true ∧ deferHit i e.2 = none ∧ e.2.step = false
  on : i.on gatheredLane = true

section
variable {i : Instr} (h : IssuedByAll strayCrew i)
include h

theorem IssuedByAll.takes : Takes strayCrew i 0 gatheredLane := by
  obtain ⟨h1, h2, h3⟩ := h.clear (0, gatheredLane) (by decide)
  exact ⟨by decide, by simp [h.lanes], by decide, h1, h2, h.on, h3⟩

theorem IssuedByAll.gathers : Gathers strayCrew i gatheredLane where
  word := h.word
  quiet := ⟨by decide, fun k _ t ht => h.clear (k, t) (SMap.mem_of_find? ht)⟩
  apart := fun j _ => State.apart_of_none (by decide) j
  own := by decide
  lanes := by
    have hlane (j : Nat) (hj : j ∈ strayCrew.issueSet i) (u : Thread) (hu : strayCrew.thread? j = some u) : u.lane = j := by
      rw [h.lanes] at hj
      fin_cases hj <;> cases hu <;> rfl
    exact fun j hj j' hj' u u' hu hu' _ _ _ he => (hlane j hj u hu).symm.trans (he.trans (hlane j' hj' u' hu'))
  team := by
    refine ⟨Team.placed 1 0 0 0 2 0 1024 [], CtxEnt.own [0, 1], rfl, rfl, rfl, by decide, fun j hj => .inr ?_⟩
    rw [h.lanes]
    exact hj

/-- Lane 0 contributes alone: lane 1 is of another sub-team. -/
theorem IssuedByAll.contributes {j : Nat} {u : Thread} (hc : strayCrew.contributes i gatheredLane j u) : u = gatheredLane := by
  obtain ⟨hj, hu, -, hctx, -⟩ := hc
  rw [h.lanes] at hj
  fin_cases hj <;> cases hu
  · rfl
  · cases hctx

end

theorem tbar_issued : IssuedByAll strayCrew (.tbar ⟨.always⟩) := ⟨by decide, by decide, by decide, by decide⟩

/-- Refutes O20: the TBAR's record stays open, as the lane of sub-team 5 arrives at no record of the team's own context. -/
theorem not_collectivesAct : ¬ Obligations.CollectivesAct := by
  rintro ⟨⟨hbar, -⟩, -⟩
  obtain ⟨s', b, u, he, hu, hP⟩ := hbar ⟨.always⟩ strayCrew 0 gatheredLane tbar_issued.takes tbar_issued.gathers
  have hl : (leftInSlot0 (.tbar ⟨.always⟩) strayCrew).map (·.hold) = some .coll := by decide
  rw [leftInSlot0_of he, hu, hP] at hl
  cases hl

/-- A call of two callees. -/
def aCall : TcallArg := ⟨.always, .g 0, .g 2, 1, 1⟩

theorem aCall_issued : IssuedByAll strayCrew (.tcall aCall) := ⟨by decide, by decide, by decide, by decide⟩

/-- Refutes O21: the call is wider than FAN, which is 0, and yet no lane faults, as the call is not complete. -/
theorem not_callsShareAndSplit : ¬ Obligations.CallsShareAndSplit := by
  rintro ⟨-, -, -, -, hfan, -⟩
  obtain ⟨s', b, u, he, hu, hex⟩ := hfan aCall strayCrew 0 gatheredLane aCall_issued.takes ⟨aCall_issued.gathers, by decide⟩
  have hl : (leftInSlot0 (.tcall aCall) strayCrew).map (fun t => (t.st, t.retry)) = some (.ready, none) := by decide
  rw [leftInSlot0_of he, hu] at hl
  obtain ⟨hst, hretry⟩ := Prod.mk.inj (Option.some.inj hl)
  rcases hex.held with ⟨hparked, -⟩ | ⟨-, -, hwaits⟩
  · cases hst.symm.trans hparked
  · rw [hretry] at hwaits
    cases hwaits

/-- A move to core 0 of the grove, where the team stands. -/
def aMove : TmigrArg := ⟨.always, .imm 0⟩

theorem aMove_issued : IssuedByAll strayCrew (.tmigr aMove) := ⟨by decide, by decide, by decide, by decide⟩

/-- Refutes O23: the TMIGR to the team's own core does not complete. -/
theorem not_teamMigration : ¬ Obligations.TeamMigration := by
  rintro ⟨⟨hown, -⟩, -⟩
  obtain ⟨s', b, u, he, hu, hP, -⟩ := hown aMove 0 (Team.placed 1 0 0 0 2 0 1024 []) strayCrew 0 gatheredLane aMove_issued.takes
    ⟨⟨aMove_issued.gathers, rfl, fun j u hc => (aMove_issued.contributes hc).symm ▸ le_rfl, by decide, fun k b => rfl⟩, rfl, by decide, rfl⟩
  have hl : (leftInSlot0 (.tmigr aMove) strayCrew).map (·.hold) = some .coll := by decide
  rw [leftInSlot0_of he, hu, hP] at hl
  cases hl

/-! ### A sub-team with no sub-teams of its own that waits for them -/

/-- The lane that returns, in sub-team 2. -/
def returningLane : Thread := { gatheredLane with ctx := 2, pushed := [(5, 7)] }

/-- The team's own context and sub-team 1 are in a call. Sub-team 1, to which the lane belongs too, has called none that is left; sub-team
2 awaits lane 1. -/
def idleCall : State where
  __ := State.reset
  teams := [(0, { Team.placed 1 0 0 0 2 0 1024 [] with ctxs := [(0, { CtxEnt.own [0, 1] with state := 2 }),
    (1, { CtxEnt.own [0] with state := 2, level := 1 }), (2, { CtxEnt.own [0, 1] with level := 5, parent := 9 })] })]
  threads := [(0, returningLane), (1, { gatheredLane with lane := 1, plane := 1, ctx := 2 })]
  cur := { core := 0, bough := 0, slots := [0], pc := 0 }

theorem takes_tret : Takes idleCall (.tret ⟨.always⟩) 0 returningLane :=
  ⟨by decide, by decide, by decide, by decide, by decide, by decide, by decide⟩

/-- Refutes O22: sub-team 1, which awaits nothing, goes on, and then the team's own context, all of whose sub-teams have returned,
brings the lane back. -/
theorem not_returnsRejoin : ¬ Obligations.ReturnsRejoin := by
  rintro ⟨hwaits, -⟩
  obtain ⟨s', b, u, he, hu, hP⟩ := hwaits ⟨.always⟩ idleCall 0 returningLane takes_tret
    ⟨by decide, State.apart_of_none (by decide) 0, by decide, _, _, 1, rfl, by decide, rfl, by decide, by decide,
      by decide, by decide, by decide⟩
  have hl : (leftInSlot0 (.tret ⟨.always⟩) idleCall).map (·.st) = some .ready := by decide
  rw [leftInSlot0_of he, hu, hP] at hl
  cases hl

end Sys2Proof.Machine
end

section
/-!
Boost leases (15 R357, R358), the amber ring (15 R352 to R354) and arbitration (13 R316).
-/

namespace Sys2Proof.Machine

/-! ### What a fetch does not depend on -/

/-- The state with other contents of cores and groves. -/
def State.ambered (s : State) (c : SMap CoreSt) (g : SMap GroveSt) : State := { s with cores := c, groves := g }

theorem State.cacheWalk_ambered (s : State) (c : SMap CoreSt) (g : SMap GroveSt) (u part va log : Nat) (e : DWord) :
    (s.ambered c g).cacheWalk u part va log e = (s.cacheWalk u part va log e).ambered c g := by
  unfold State.cacheWalk
  dsimp only
  rw [show (s.ambered c g).tlb = s.tlb from rfl]
  split
  · rfl
  · rfl

theorem State.walkPick_ambered (s : State) (c : SMap CoreSt) (g : SMap GroveSt) (u part va : Nat) :
    (s.ambered c g).walkPick u part va = ((s.walkPick u part va).1.ambered c g, (s.walkPick u part va).2) := by
  have hl : ((s.ambered c g).walkNow part va ++ ((s.ambered c g).cached u part va).map (fun t => Walk.leaf t.log t.leaf)).dedup
      = (s.walkNow part va ++ (s.cached u part va).map (fun t => Walk.leaf t.log t.leaf)).dedup := rfl
  unfold State.walkPick
  rw [hl]
  generalize (s.walkNow part va ++ (s.cached u part va).map (fun t => Walk.leaf t.log t.leaf)).dedup = l
  rcases l with - | ⟨w, - | ⟨w', l⟩⟩
  · rfl
  · cases w with
    | leaf log e => exact congrArg (·, Walk.leaf log e) (s.cacheWalk_ambered c g u part va log e)
    | _ => rfl
  · dsimp only
    rw [show (s.ambered c g).fresh = s.fresh from rfl]
    generalize (w :: w' :: l).getD _ w = v
    cases v with
    | leaf log e => exact congrArg (·, Walk.leaf log e) ((s.takeFresh 1).cacheWalk_ambered c g u part va log e)
    | _ => rfl
 
/-- The word that a thread fetches does not depend on what cores and groves hold. -/
theorem State.fetchBytes_ambered (s : State) (c : SMap CoreSt) (g : SMap GroveSt) (k m : Nat) (pc : DWord) :
    ((s.ambered c g).fetchBytes k m pc).2 = (s.fetchBytes k m pc).2 := by
  unfold State.fetchBytes State.translate
  simp only [State.walkPick_ambered, show (s.ambered c g).partOf k = s.partOf k from rfl]
  by_cases hva : 2 ^ 55 ≤ pc.toNat
  · rw [if_pos hva, if_pos hva]
  · rw [if_neg hva, if_neg hva]
    generalize s.walkPick (Asker.lane k).cache (s.partOf k) pc.toNat = r
    obtain ⟨z, w⟩ := r
    cases w with
    | absent => rfl
    | malformed => rfl
    | error table code => rfl
    | leaf log e =>
      dsimp only
      rw [show (z.ambered c g).useLeaf (Asker.lane k) (s.partOf k) pc.toNat .fetch true log e
        = z.useLeaf (Asker.lane k) (s.partOf k) pc.toNat .fetch true log e from rfl]
      cases z.useLeaf (Asker.lane k) (s.partOf k) pc.toNat .fetch true log e with
      | fault code => rfl
      | ask vpn => rfl
      | tier10 => rfl
      | host ld addr =>
        dsimp only
        rw [show (z.ambered c g).codeLine (coreOf k) (some ld) (lineOf addr) m = z.codeLine (coreOf k) (some ld) (lineOf addr) m from rfl]
        cases z.codeLine (coreOf k) (some ld) (lineOf addr) m with
        | none => rfl
        | some l =>
          dsimp only [State.pick]
          rw [show (z.ambered c g).host = z.host from rfl]
          split
          · rfl
          · rfl
      | dev pa key comp bix he log =>
        dsimp only
        rw [show (z.ambered c g).codeLine (coreOf k) none (lineOf pa) m = z.codeLine (coreOf k) none (lineOf pa) m from rfl]
        split
        · rfl
        · rw [show (z.ambered c g).lineErr ⟨s.partOf k, pa, key, comp, bix, he, .none, none⟩
            = z.lineErr ⟨s.partOf k, pa, key, comp, bix, he, .none, none⟩ from rfl]
          split
          · rfl
          · rfl

theorem State.fetch_ambered (s : State) (c : SMap CoreSt) (g : SMap GroveSt) (k : Nat) (t : Thread) :
    ((s.ambered c g).fetch k t).2 = (s.fetch k t).2 := by
  unfold State.fetch
  have h := s.fetchBytes_ambered c g k t.team t.pc
  dsimp only
  rw [show (s.ambered c g).regsOf k = s.regsOf k from rfl]
  generalize (s.ambered c g).fetchBytes k t.team t.pc = r at *
  generalize s.fetchBytes k t.team t.pc = r' at *
  obtain ⟨z, w⟩ := r
  obtain ⟨z', w'⟩ := r'
  cases h
  cases w with
  | error e => rfl
  | ok w =>
    dsimp only
    split <;> rfl

/-! ### Boost leases (15 R357, R358) -/

theorem Thread.result_next (t : Thread) (w : Bool) (d : Dst) (v : DWord) : t.next.result w d v = (t.result w d v).next := by
  cases d <;> cases w <;> rfl

/-- A result that stands where another of the same word stood hides it. -/
theorem Puts.of_result {t u : Thread} {w : Bool} {d : Dst} {v v' : DWord} {fl : Fl} (h : Puts (t.result w d v') u w d v fl) :
    Puts t u w d v fl where
  main i := by
    refine (h.main i).trans ?_
    have hold : (t.result w d v').gVal i = placedG t w d (extW w v') i := (t.result_puts0 w d v').main i
    unfold placedG at hold ⊢
    cases d with
    | g j =>
      dsimp only at hold ⊢
      split
      · rfl
      · next h1 =>
        split
        · rfl
        · next h2 => rw [hold, if_neg h1, if_neg h2]
    | _ => exact hold
  operand i := by
    refine (h.operand i).trans ?_
    have hold : (t.result w d v').oVal i = placedO t d (extW w v') i := (t.result_puts0 w d v').operand i
    unfold placedO at hold ⊢
    cases d with
    | o j =>
      dsimp only at hold ⊢
      split
      · rfl
      · next h1 => rw [hold, if_neg h1]
    | _ => exact hold
  latch := h.latch
  rest := by
    have hr := (t.result_puts0 w d v').rest
    have h' := h.rest
    generalize t.result w d v' = t' at *
    cases t
    cases t'
    cases u
    simp only [Thread.next, Thread.mk.injEq] at hr h' ⊢
    simp_all

theorem filterMap_zipIdx_single {α β : Type} {k : α} {v : β} {f : α × Nat → Option β} {l : List α} (hk : k ∈ l) (hnd : l.Nodup)
    (hf : ∀ n, f (k, n) = some v) (ho : ∀ j ∈ l, j ≠ k → ∀ n, f (j, n) = none) (n : Nat) : (l.zipIdx n).filterMap f = [v] := by
  induction l generalizing n with
  | nil => cases hk
  | cons j l ih =>
    obtain ⟨hj, hnd⟩ := List.nodup_cons.1 hnd
    rw [List.zipIdx_cons]
    by_cases h : j = k
    · subst h
      rw [List.filterMap_cons_some (hf n), List.filterMap_eq_nil_iff.2]
      rintro ⟨i, m⟩ hi
      have hi := List.fst_mem_of_mem_zipIdx hi
      exact ho i (List.mem_cons_of_mem _ hi) (fun h => hj (h ▸ hi)) m
    · rw [List.filterMap_cons_none (ho j List.mem_cons_self h n)]
      exact ih ((List.mem_cons.1 hk).resolve_left (Ne.symm h)) hnd (fun i hi => ho i (List.mem_cons_of_mem _ hi)) _

/-- What the running lease of a context gives back. -/
def Partition.givenBack (p : Partition) (c : Nat) : Nat := match p.lease.find? c with
  | none => p.allow.get 0 c
  | some ns => min (p.allow.get 0 c + ns / 1000) boostCap

theorem Partition.lend_spec (p : Partition) (c r : Nat) :
    (p.lend c r).2 = min (min r boostCap) (p.givenBack c)
      ∧ (p.lend c r).1.allow.get 0 c = p.givenBack c - (p.lend c r).2
      ∧ (p.lend c r).1.lease.find? c = if (p.lend c r).2 = 0 then none else some ((p.lend c r).2 * 1000) := by
  refine ⟨rfl, SMap.get_set_same _ _ _ _, ?_⟩
  change SMap.find? (if (p.lend c r).2 = 0 then p.lease.erase c else p.lease.put c ((p.lend c r).2 * 1000)) c = _
  split
  · exact SMap.find?_erase_same _ _
  · exact SMap.find?_put_same _ _ _

theorem State.part_of_still {s z : State} (h : z.still = s.still) (p : Nat) : z.part p = s.part p := by
  unfold State.part
  rw [show z.parts = s.parts from congrArg (fun w => w.parts) h]

/-- The requests of the leaders among the lanes that took a BOOST. -/
def boostLeaders (x : F1) (s : State) (took : List Nat) : List (Nat × Nat) :=
  took.zipIdx.filterMap (fun (k, j) => match s.thread? k with
    | none => none
    | some t => if t.lane = 0 then some (k, (Lane.src32 ⟨s, k, t, s.fresh + laneFree * j⟩ 0 x.a).toNat) else none)

/-- The lanes of a BOOST, before its leaders are lent anything. -/
def State.boostLanes (s : State) (x : F1) : Issued := s.runLanes (.boost x) x.gd.holds (regFx (fun _ t => t.result false x.d 0))

theorem exec_boost (x : F1) (s : State) : exec (.boost x) s = .next
    (((boostLeaders x s (s.boostLanes x).took).foldl (fun z e => z.boostFor e.1 x.d e.2) (s.boostLanes x).s).stepTraps s.cur.pc
      ((s.boostLanes x).took ++ (s.boostLanes x).off)) := rfl

theorem boostFx_regPart (x : F1) (l : Lane) : RegPart (regFx (fun _ t => t.result false x.d 0) l) := .ok fun t => t.result_step false x.d 0

theorem State.boostFor_other (s : State) (d : Dst) (r : Nat) {j k : Nat} (h : k ≠ j) : (s.boostFor j d r).thread? k = s.thread? k := by
  unfold State.boostFor
  split
  · rfl
  · exact State.thread?_updThread_other _ _ _ _ h

/-- The lanes of an issue are each taken once. -/
theorem State.took_nodup (s : State) (i : Instr) (gd : Thread → Bool) (f : Lane → LaneRes) (h : s.cur.slots.Nodup) :
    (s.runLanes i gd f).took.Nodup := by
  have hsub : ∀ (l : List Nat) (b : Nat), ((s.outcomes i gd f b l).map (·.1)).Sublist l := by
    intro l
    induction l with
    | nil => exact fun _ => .slnil
    | cons k l ih =>
      intro b
      unfold State.outcomes
      split
      · exact (ih _).cons k
      · exact (ih _).cons_cons k
  exact (((List.filter_sublist).map _).trans (hsub _ _)).nodup (s.issueSet_nodup i h)

theorem State.boostLanes_took {s : State} {x : F1} {k : Nat} {t : Thread} (ht : Takes s (.boost x) k t) :
    k ∈ (s.boostLanes x).took ∧ (s.boostLanes x).s.thread? k = some (t.result false x.d 0).next := by
  obtain ⟨hk, b, fx, hfx, h⟩ := s.runLanes_takes (.boost x) x.gd.holds (regFx (fun _ t => t.result false x.d 0)) k t ht rfl
    (.of_nil fun _ _ h => by cases h; rfl) fun _ => ⟨_, rfl, rfl, rfl⟩
  cases hfx
  exact ⟨hk, h⟩

theorem State.of_mem_took {s : State} {i : Instr} {gd : Thread → Bool} {f : Lane → LaneRes} {k : Nat} (h : k ∈ (s.runLanes i gd f).took) :
    k ∈ s.issueSet i ∧ ∃ t, s.thread? k = some t := by
  simp only [State.runLanes, List.mem_map, List.mem_filter] at h
  obtain ⟨e, ⟨he, -⟩, rfl⟩ := h
  obtain ⟨hm, t, -, ht, -⟩ := State.mem_outcomes s i gd f _ _ e he
  exact ⟨hm, t, ht⟩

theorem Lane.src32_laneAt (s : State) (k : Nat) (t : Thread) (b pos : Nat) (x : Src) :
    (s.laneAt k t b).src32 pos x = Lane.src32 ⟨s, k, t, b⟩ pos x := by
  cases x <;> rfl

/-- Lanes that are no leaders get zero. -/
theorem boost_nonleader (x : F1) : CompletesWhen (.boost x) (fun _ _ t => t.lane ≠ 0) fun l u => Puts l.t u false x.d 0 0 := by
  intro s k t ht hlane
  obtain ⟨hk, hthread⟩ := State.boostLanes_took ht
  have hfold : ((boostLeaders x s (s.boostLanes x).took).foldl (fun z e => z.boostFor e.1 x.d e.2) (s.boostLanes x).s).thread? k
      = some (t.result false x.d 0).next := by
    refine (State.foldl_thread? _ _ _ (fun e he z => ?_) _).trans hthread
    refine z.boostFor_other x.d e.2 ?_
    rintro rfl
    obtain ⟨⟨j, n⟩, -, hj⟩ := List.mem_filterMap.1 he
    dsimp only at hj
    split at hj
    · cases hj
    · next u hu =>
      split at hj
      · next h0 => cases hj; exact hlane (Option.some.inj (ht.thread.symm.trans hu) ▸ h0)
      · cases hj
  refine ⟨_, 0, _, exec_boost x s, (State.stepTraps_thread? _ _ _ k fun v hv => ?_).trans hfold, ?_⟩
  · rw [← Option.some.inj (hfold.symm.trans hv)]
    exact (t.result_step false x.d 0).trans ht.free
  · have h := t.result_puts0 false x.d 0
    exact h

/-- A leader is lent what its context's allowance holds. -/
theorem boost_leader (x : F1) (g : Grid) (r : Nat) : CompletesIn (.boost x)
      (fun s k t => t.lane = 0 ∧ s.gridOf t = some g ∧ (∀ j ∈ s.issueSet (.boost x), ∀ u, s.thread? j = some u → j ≠ k → u.lane ≠ 0)
        ∧ (∀ j ∈ s.issueSet (.boost x), ∀ u, s.thread? j = some u → landingOk (.boost x) u = true ∧ deferHit (.boost x) u = none)
        ∧ ∀ b, ((s.laneAt k t b).src32 0 x.a).toNat = r)
      fun l s' u =>
        let n := min (min r boostCap) ((l.s.part g.part).givenBack g.ctx.toNat)
        Puts l.t u false x.d (BitVec.ofNat 64 n) 0
          ∧ (s'.part g.part).allow.get 0 g.ctx.toNat = (l.s.part g.part).givenBack g.ctx.toNat - n
          ∧ (s'.part g.part).lease.find? g.ctx.toNat = if n = 0 then none else some (n * 1000) := by
  rintro s k t ht ⟨hlane, hgrid, hothers, hclean, hr⟩
  obtain ⟨hk, hthread⟩ := State.boostLanes_took ht
  have hstill : (s.boostLanes x).s.still = s.still := State.runLanes_still hclean _ _ (boostFx_regPart x)
  have hlead : boostLeaders x s (s.boostLanes x).took = [(k, r)] := by
    refine filterMap_zipIdx_single hk (s.took_nodup _ _ _ ht.once) (fun n => ?_) (fun j hj hjk n => ?_) 0
    · dsimp only
      rw [ht.thread]
      dsimp only
      rw [if_pos hlane, ← Lane.src32_laneAt, hr]
    · obtain ⟨hmem, u, hu⟩ := State.of_mem_took hj
      dsimp only
      rw [hu]
      exact if_neg (hothers j hmem u hu hjk)
  generalize hz : (s.boostLanes x).s = z at hthread hstill
  have hbind : (z.thread? k).bind z.gridOf = some g := by
    rw [hthread]
    have hteams : z.teams = s.teams := congrArg (fun w => w.teams) hstill
    have hgrids : z.grids = s.grids := congrArg (fun w => w.grids) hstill
    refine Eq.trans ?_ hgrid
    unfold State.gridOf State.team? State.grid?
    rw [hteams, hgrids, Option.bind_some, show (t.result false x.d 0).next.team = t.team from t.result_team false x.d 0]
  have hpart : z.part g.part = s.part g.part := State.part_of_still hstill _
  obtain ⟨hn, hallow, hlease⟩ := (s.part g.part).lend_spec g.ctx.toNat r
  have hboost : z.boostFor k x.d r = (z.updPart g.part (fun _ => ((s.part g.part).lend g.ctx.toNat r).1)).updThread k
      (fun t => t.result false x.d (BitVec.ofNat 64 ((s.part g.part).lend g.ctx.toNat r).2)) := by
    unfold State.boostFor
    rw [hbind]
    dsimp only
    rw [hpart]
  have hthread' : (z.boostFor k x.d r).thread? k
      = some (((t.result false x.d 0).result false x.d (BitVec.ofNat 64 ((s.part g.part).lend g.ctx.toNat r).2)).next) := by
    rw [hboost, State.thread?_updThread_same, show (State.updPart z g.part _).thread? k = z.thread? k from rfl, hthread]
    exact congrArg some (Thread.result_next _ _ _ _)
  have hexec := exec_boost x s
  rw [hlead, hz] at hexec
  refine ⟨_, 0, _, hexec, (State.stepTraps_thread? _ _ _ k fun v hv => ?_).trans hthread', ?_⟩
  · rw [← Option.some.inj (hthread'.symm.trans hv)]
    exact (Thread.result_step _ _ _ _).trans ((t.result_step false x.d 0).trans ht.free)
  · have hp : ((z.boostFor k x.d r).stepTraps s.cur.pc ((s.boostLanes x).took ++ (s.boostLanes x).off)).part g.part
        = ((s.part g.part).lend g.ctx.toNat r).1 := by
      refine (State.part_of_still (State.stepTrapsOn_still _ _ _ _ _) _).trans ?_
      rw [hboost]
      exact SMap.get_set_same _ _ _ _
    dsimp only [List.foldl]
    rw [hp]
    rw [hn] at hallow hlease
    refine ⟨?_, hallow, hlease⟩
    have hval : extW false (BitVec.ofNat 64 ((s.part g.part).lend g.ctx.toNat r).2)
        = BitVec.ofNat 64 (min (min r boostCap) ((s.part g.part).givenBack g.ctx.toNat)) := by
      rw [hn]
      have hlt : min (min r boostCap) ((s.part g.part).givenBack g.ctx.toNat) ≤ boostCap := (min_le_left _ _).trans (min_le_right _ _)
      generalize min (min r boostCap) ((s.part g.part).givenBack g.ctx.toNat) = n at hlt
      unfold boostCap at hlt
      unfold extW low32
      refine BitVec.eq_of_toNat_eq ?_
      simp only [Bool.false_eq_true, if_false, BitVec.toNat_setWidth, BitVec.toNat_ofNat]
      omega
    have h := Thread.result_puts0 (t.result false x.d 0) false x.d (BitVec.ofNat 64 ((s.part g.part).lend g.ctx.toNat r).2)
    rw [hval] at h
    exact h.of_result

/-! ### Refill and expiry (15 R357) -/

/-- Each millisecond the allowances of a partition's quantum entries grow. -/
def Partition.grown (p : Partition) : Partition :=
  p.quanta.foldl (fun p e =>
    if e.2.v then { p with allow := p.allow.set 0 e.2.ctx.toNat (min (p.allow.get 0 e.2.ctx.toNat + 4 * e.2.weight.toNat) boostCap) }
    else p) p

/-- Of the entries of a list, the only valid one of a context grows its allowance. -/
theorem foldl_grow (c : BitVec 16) (l : List (Nat × QEntry)) (p : Partition) :
    ((l.filter fun q => q.2.v && q.2.ctx == c) = [] →
        (l.foldl (fun (p : Partition) (e : Nat × QEntry) => if e.2.v then
          { p with allow := p.allow.set 0 e.2.ctx.toNat (min (p.allow.get 0 e.2.ctx.toNat + 4 * e.2.weight.toNat) boostCap) }
          else p) p).allow.get 0 c.toNat = p.allow.get 0 c.toNat)
      ∧ ∀ k e, (l.filter fun q => q.2.v && q.2.ctx == c) = [(k, e)] →
        (l.foldl (fun (p : Partition) (e : Nat × QEntry) => if e.2.v then
          { p with allow := p.allow.set 0 e.2.ctx.toNat (min (p.allow.get 0 e.2.ctx.toNat + 4 * e.2.weight.toNat) boostCap) }
          else p) p).allow.get 0 c.toNat = min (p.allow.get 0 c.toNat + 4 * e.weight.toNat) boostCap := by
  induction l generalizing p with
  | nil => exact ⟨fun _ => rfl, fun _ _ h => by cases h⟩
  | cons q l ih =>
    rw [List.foldl_cons]
    by_cases hv : q.2.v = true
    · rw [if_pos hv]
      by_cases hc : q.2.ctx = c
      · have hq : (q.2.v && q.2.ctx == c) = true := by simp [hv, hc]
        refine ⟨fun h => by simp [hq] at h, fun k e h => ?_⟩
        rw [List.filter_cons, if_pos hq] at h
        obtain ⟨h1, h2⟩ := List.cons.inj h
        subst h1
        dsimp only at hc ⊢
        rw [hc, (ih _).1 h2, SMap.get_set_same]
      · have hq : ¬ (q.2.v && q.2.ctx == c) = true := by simp [hc]
        rw [List.filter_cons, if_neg hq]
        have hne : c.toNat ≠ q.2.ctx.toNat := fun h => hc (BitVec.eq_of_toNat_eq h.symm)
        refine ⟨fun h => ((ih _).1 h).trans (SMap.get_set_other _ _ _ _ _ hne), fun k e h => ((ih _).2 k e h).trans ?_⟩
        rw [SMap.get_set_other _ _ _ _ _ hne]
    · rw [if_neg hv]
      have hq : ¬ (q.2.v && q.2.ctx == c) = true := by simp [hv]
      rw [List.filter_cons, if_neg hq]
      exact ih p

theorem State.part_map_parts (s : State) (f : Partition → Partition) (hf : f Partition.reset = Partition.reset) (n p : Nat) :
    State.part { s with refill := n, parts := s.parts.map (fun e => (e.1, f e.2)) } p = f (s.part p) := by
  unfold State.part SMap.get
  refine (congrArg (Option.getD · Partition.reset) (SMap.find?_map (fun e => (e.1, f e.2)) (fun _ => rfl) s.parts p)).trans ?_
  cases SMap.find? s.parts p with
  | none => exact hf.symm
  | some v => rfl

/-- R357, R358: boost leases. -/
theorem boostLeases : Rules.BoostLeases := by
  dsimp only [Rules.BoostLeases]
  refine ⟨boost_nonleader, fun x g r => boost_leader x g r, ?_, ?_⟩
  · rintro p k e s ⟨hdue, hone⟩
    refine ⟨{ s with refill := s.refill + 1000000, parts := s.parts.map (fun e => (e.1, e.2.grown)) },
      if_neg (Nat.not_lt.2 hdue), ?_, rfl, rfl⟩
    rw [State.part_map_parts s Partition.grown rfl]
    exact (foldl_grow e.ctx _ _).2 k e hone
  · intro p c s h
    refine ⟨_, if_pos h, ?_, ?_, rfl⟩
    · rw [State.part_updPart_same]
      exact SMap.find?_erase_same _ _
    · rw [State.part_updPart_same]

/-! ### Withdrawals (15 R354) -/

theorem State.price_ambered (s : State) {c : SMap CoreSt} {g : SMap GroveSt} (he : ∀ n, ((s.ambered c g).grove n).en = (s.grove n).en)
    (core : Nat) (i : Instr) (ks : List Nat) : (s.ambered c g).price core i ks = s.price core i ks := by
  unfold State.price
  dsimp only
  rw [he (groveOf core)]
  rfl

/-- Whether a bough wants amber depends on the cores' regroup records and the words they fetch again, and on the groves' enables. -/
theorem State.wantsAmber_ambered (s : State) {c : SMap CoreSt} {g : SMap GroveSt}
    (hr : ∀ n, ((s.ambered c g).core n).regroup = (s.core n).regroup)
    (hw : ∀ n b, (((s.ambered c g).core n).bough b).want = ((s.core n).bough b).want)
    (he : ∀ n, ((s.ambered c g).grove n).en = (s.grove n).en) (core b : Nat) :
    (s.ambered c g).wantsAmber core b = s.wantsAmber core b := by
  have hb (k : Nat) : (s.ambered c g).issueBough k = s.issueBough k := by
    unfold State.issueBough
    rw [hr]
  unfold State.wantsAmber
  simp only [hb, hw, State.fetch_ambered, State.price_ambered s he]
  rfl

/-- What withdrawals leave of the amber state: some entries, those whose boughs want amber among them, and some reservations. -/
structure Withdrawn (s z : State) : Prop where
  frame : z = s.ambered z.cores z.groves
  core (n : Nat) : (z.core n).pool = (s.core n).pool ∧ (z.core n).regroup = (s.core n).regroup
    ∧ ((z.core n).resv = (s.core n).resv ∨ (z.core n).resv = none) ∧ ∀ b, ((z.core n).bough b).want = ((s.core n).bough b).want
  grove (g : Nat) : ∃ p : Nat × Nat → Bool, z.grove g = { s.grove g with needy := (s.grove g).needy.filter p }
    ∧ ∀ e, s.wantsAmber (g * coresPerGrove + e.1) e.2 = true → p e = true

theorem Withdrawn.refl (s : State) : Withdrawn s s :=
  ⟨rfl, fun _ => ⟨rfl, rfl, .inl rfl, fun _ => rfl⟩, fun g => ⟨fun _ => true, by rw [List.filter_true], fun _ _ => rfl⟩⟩

theorem Withdrawn.wants {s z : State} (h : Withdrawn s z) (core b : Nat) : z.wantsAmber core b = s.wantsAmber core b := by
  have hc (n : Nat) : (s.ambered z.cores z.groves).core n = z.core n := rfl
  have hg (n : Nat) : (s.ambered z.cores z.groves).grove n = z.grove n := rfl
  rw [h.frame]
  refine s.wantsAmber_ambered (fun n => ?_) (fun n b => ?_) (fun n => ?_) core b
  · rw [hc]
    exact (h.core n).2.1
  · rw [hc]
    exact (h.core n).2.2.2 b
  · obtain ⟨p, hp, -⟩ := h.grove n
    rw [hg, hp]

theorem CoreSt.bough_updBough (c : CoreSt) (b n : Nat) (f : Bough → Bough) :
    (c.updBough b f).bough n = if n = b then f (c.bough b) else c.bough n := by
  split
  · next h => subst h; exact SMap.get_set_same _ _ _ _
  · next h => exact SMap.get_set_other _ _ _ _ _ h

/-- A core's reservation goes, or none does, and a bough counts its waits anew. -/
theorem Withdrawn.reset {s z : State} (h : Withdrawn s z) (n b : Nat) (f : CoreSt → CoreSt)
    (hf : ∀ c : CoreSt, f c = c.updBough b (fun b => { b with wait := 0, short := [] })
      ∨ f c = { c.updBough b (fun b => { b with wait := 0, short := [] }) with resv := none }) : Withdrawn s (z.updCore n f) where
  frame := by
    rw [h.frame]
    rfl
  core m := by
    obtain ⟨hpool, hreg, hresv, hwant⟩ := h.core m
    have hb (b' : Nat) : ((CoreSt.updBough (z.core m) b (fun b => { b with wait := 0, short := [] })).bough b').want
        = ((z.core m).bough b').want := by
      rw [CoreSt.bough_updBough]
      split
      · next h => rw [h]
      · rfl
    by_cases hm : m = n
    · subst hm
      rw [State.core_updCore_same]
      rcases hf (z.core m) with h' | h' <;> rw [h']
      · exact ⟨hpool, hreg, hresv, fun b' => (hb b').trans (hwant b')⟩
      · exact ⟨hpool, hreg, .inr rfl, fun b' => (hb b').trans (hwant b')⟩
    · rw [State.core_updCore, if_neg hm]
      exact ⟨hpool, hreg, hresv, hwant⟩
  grove := h.grove

theorem Withdrawn.dropEntry {s z : State} (h : Withdrawn s z) (g : Nat) (e : Nat × Nat)
    (he : s.wantsAmber (g * coresPerGrove + e.1) e.2 = false) :
    Withdrawn s (z.updGrove g (fun x => { x with needy := x.needy.filter (fun y => y != e) })) where
  frame := by
    rw [h.frame]
    rfl
  core := h.core
  grove n := by
    obtain ⟨p, hp, hall⟩ := h.grove n
    by_cases hn : n = g
    · subst hn
      refine ⟨fun y => (y != e) && p y, ?_, fun y hy => ?_⟩
      · refine (SMap.get_set_same _ _ _ _).trans ?_
        rw [hp]
        dsimp only
        rw [List.filter_filter]
      · refine Bool.and_eq_true_iff.2 ⟨bne_iff_ne.2 ?_, hall y hy⟩
        rintro rfl
        exact absurd (he.symm.trans hy) (by decide)
    · exact ⟨p, (SMap.get_set_other _ _ _ _ _ hn).trans hp, hall⟩

theorem State.withdrawAmber_withdrawn (s : State) : Withdrawn s s.withdrawAmber := by
  unfold State.withdrawAmber
  refine List.foldlRecOn (motive := Withdrawn s) _ _ (List.foldlRecOn (motive := Withdrawn s) _ _ (.refl s) fun z hz x _ =>
    List.foldlRecOn (motive := Withdrawn s) _ _ hz fun z hz e _ => ?_) fun z hz e _ => ?_
  · dsimp only
    split
    · exact hz
    · next hw =>
      rw [hz.wants] at hw
      exact (hz.dropEntry x.1 e (Bool.eq_false_iff.2 hw)).reset _ e.2 _ fun _ => .inl rfl
  · split
    · exact hz
    · split
      · exact hz
      · exact hz.reset _ _ _ fun _ => .inr rfl

/-! ### A revolution of the ring (15 R353, R354) -/

/-- Two states hold the same amber: the pools and reservations of cores, the floats and revolutions of groves. -/
structure SameAmber (s z : State) : Prop where
  core (n : Nat) : (z.core n).pool = (s.core n).pool ∧ (z.core n).resv = (s.core n).resv
  grove (g : Nat) : (z.grove g).float = (s.grove g).float ∧ (z.grove g).lastRev = (s.grove g).lastRev

theorem SameAmber.refl (s : State) : SameAmber s s := ⟨fun _ => ⟨rfl, rfl⟩, fun _ => ⟨rfl, rfl⟩⟩

theorem SameAmber.trans {s z w : State} (h : SameAmber s z) (h' : SameAmber z w) : SameAmber s w :=
  ⟨fun n => ⟨(h'.core n).1.trans (h.core n).1, (h'.core n).2.trans (h.core n).2⟩,
    fun g => ⟨(h'.grove g).1.trans (h.grove g).1, (h'.grove g).2.trans (h.grove g).2⟩⟩

theorem SameAmber.updBough (s : State) (n b : Nat) (f : Bough → Bough) : SameAmber s (s.updCore n fun c => c.updBough b f) where
  core m := by
    rw [State.core_updCore]
    split
    · next h => subst h; exact ⟨rfl, rfl⟩
    · exact ⟨rfl, rfl⟩
  grove _ := ⟨rfl, rfl⟩

theorem State.grove_updGrove (s : State) (g n : Nat) (f : GroveSt → GroveSt) :
    (s.updGrove g f).grove n = if n = g then f (s.grove g) else s.grove n := by
  split
  · next h => subst h; exact SMap.get_set_same _ _ _ _
  · next h => exact SMap.get_set_other _ _ _ _ _ h

theorem SameAmber.foldl {β : Type} {f : State → β → State} (hf : ∀ s b, SameAmber s (f s b)) (l : List β) (s : State) :
    SameAmber s (l.foldl f s) :=
  List.foldlRecOn (motive := SameAmber s) l f (.refl s) fun _ hz b _ => hz.trans (hf _ b)

theorem State.noteShort_sameAmber (s : State) : SameAmber s s.noteShort := by
  unfold State.noteShort
  exact SameAmber.foldl (fun (z : State) (e : Nat × Nat) => SameAmber.updBough z e.1 e.2 _) _ s

theorem State.noteShort_grove (s : State) (g : Nat) : s.noteShort.grove g = s.grove g := by
  unfold State.noteShort
  exact List.foldlRecOn (motive := fun (z : State) => z.grove g = s.grove g) _ _ rfl fun _ hz _ _ => hz

theorem State.waitMore_sameAmber (s : State) (g : Nat) (e : Nat × Nat) : SameAmber s (s.waitMore g e) := by
  unfold State.waitMore
  dsimp only
  split
  · exact SameAmber.updBough s e.1 e.2 _
  · split
    · refine (SameAmber.updBough s e.1 e.2 _).trans ⟨fun _ => ⟨rfl, rfl⟩, fun n => ?_⟩
      rw [State.grove_updGrove]
      split
      · next h => subst h; exact ⟨rfl, rfl⟩
      · exact ⟨rfl, rfl⟩
    · exact SameAmber.updBough s e.1 e.2 _

theorem State.amberNow_core (s : State) (n : Nat) : (s.amberNow.core n).pool = (s.core n).pool
    ∧ ((s.core n).resv = none → (s.amberNow.core n).resv = none) := by
  obtain ⟨hp, hr⟩ := s.withdrawAmber.noteShort_sameAmber.core n
  obtain ⟨hp', -, hr', -⟩ := s.withdrawAmber_withdrawn.core n
  refine ⟨hp.trans hp', fun h => hr.trans ?_⟩
  rcases hr' with h' | h'
  · exact h'.trans h
  · exact h'

theorem State.amberNow_grove (s : State) (g : Nat) : ∃ p : Nat × Nat → Bool,
    s.amberNow.grove g = { s.grove g with needy := (s.grove g).needy.filter p }
      ∧ ∀ e, s.wantsAmber (g * coresPerGrove + e.1) e.2 = true → p e = true := by
  obtain ⟨p, hp, h⟩ := s.withdrawAmber_withdrawn.grove g
  exact ⟨p, (s.withdrawAmber.noteShort_grove g).trans hp, h⟩

/-! ### The ring's visits -/

/-- A core gets `n` of the float. -/
def State.fed (s : State) (g c n : Nat) : State :=
  if n = 0 then s
  else (s.updGrove g (fun x => { x with float := x.float - n })).updCore (g * coresPerGrove + c) (fun k => { k with pool := k.pool + n })

theorem State.fed_grove (s : State) (g c n : Nat) : (s.fed g c n).grove g = { s.grove g with float := (s.grove g).float - n } := by
  unfold State.fed
  split
  · next h => rw [h]; rfl
  · change (s.updGrove g (fun x => { x with float := x.float - n })).grove g = _
    rw [State.grove_updGrove, if_pos rfl]

theorem State.fed_core (s : State) (g c n : Nat) : (s.fed g c n).core (g * coresPerGrove + c)
    = { s.core (g * coresPerGrove + c) with pool := (s.core (g * coresPerGrove + c)).pool + n } := by
  unfold State.fed
  split
  · next h => rw [h]; rfl
  · rw [State.core_updCore_same]
    rfl

theorem State.fed_core_other (s : State) (g c k n : Nat) (h : n ≠ g * coresPerGrove + c) : (s.fed g c k).core n = s.core n := by
  unfold State.fed
  split
  · rfl
  · rw [State.core_updCore, if_neg h]
    rfl

theorem State.visit_core_other (s : State) (g c n : Nat) (h : n ≠ g * coresPerGrove + c) : (s.visit g c).core n = s.core n := by
  have hfill (z : State) : (z.fillEnds g c).core n = z.core n := by
    unfold State.fillEnds
    dsimp only
    split
    · rfl
    · split
      · rw [State.core_updCore, if_neg h]
        rfl
      · rfl
  exact (hfill _).trans (s.fed_core_other g c _ n h)

/-- With no core in need, a core takes its share. -/
theorem State.visit_calm {s : State} {g : Nat} (h : (s.grove g).needy = []) (c : Nat) : s.visit g c
    = s.fed g c (min (min (s.grove g).float (s.grove g).shareNow) (64 - (s.core (g * coresPerGrove + c)).pool)) := by
  unfold State.visit
  dsimp only
  rw [h]
  have hfill (n : Nat) : (s.fed g c n).fillEnds g c = s.fed g c n := by
    unfold State.fillEnds
    dsimp only
    rw [State.fed_grove]
    dsimp only
    rw [h]
  exact hfill _

/-- The core at the head of the needy queue alone takes of the float. -/
theorem State.visit_passed {s : State} {g d b : Nat} (h : (s.grove g).needy = [(d, b)]) {c : Nat} (hc : c ≠ d) : s.visit g c = s := by
  have hv : s.visit g c = (s.fed g c (if d = c then min (s.grove g).float (64 - (s.core (g * coresPerGrove + c)).pool) else 0)).fillEnds g c := by
    unfold State.visit
    dsimp only
    rw [h]
    rfl
  rw [hv, if_neg (Ne.symm hc), show s.fed g c 0 = s from if_pos rfl]
  unfold State.fillEnds
  dsimp only
  rw [h]
  dsimp only
  rw [decide_eq_false (Ne.symm hc)]
  rfl

/-- The core at the head of the needy queue takes what it lacks; full, it holds the reservation for its bough. -/
theorem State.visit_needy {s : State} {g d b : Nat} (h : (s.grove g).needy = [(d, b)])
    (hr : (s.core (g * coresPerGrove + d)).resv = none) :
    let n := (s.core (g * coresPerGrove + d)).pool + min (s.grove g).float (64 - (s.core (g * coresPerGrove + d)).pool)
    ((s.visit g d).core (g * coresPerGrove + d)).pool = n
      ∧ ((s.visit g d).core (g * coresPerGrove + d)).resv = if n = 64 then some b else none := by
  have hv : s.visit g d = (s.fed g d (if d = d then min (s.grove g).float (64 - (s.core (g * coresPerGrove + d)).pool) else 0)).fillEnds g d := by
    unfold State.visit
    dsimp only
    rw [h]
    rfl
  rw [hv, if_pos rfl]
  generalize min (s.grove g).float (64 - (s.core (g * coresPerGrove + d)).pool) = n
  unfold State.fillEnds
  dsimp only
  rw [State.fed_grove, State.fed_core]
  dsimp only
  rw [h, hr]
  dsimp only
  by_cases hn : (s.core (g * coresPerGrove + d)).pool + n = 64
  · rw [if_pos (by simp [hn]), State.core_updCore_same, if_pos hn]
    exact ⟨congrArg CoreSt.pool (s.fed_core g d n), rfl⟩
  · rw [if_neg (by simp [hn]), State.fed_core, if_neg hn]
    exact ⟨rfl, hr⟩

/-- What the cores before core `c` of a grove take of a float, each up to the share and to what its pool lacks. -/
def takenBefore (float share : Nat) (pool : Nat → Nat) : Nat → Nat
  | 0 => 0
  | c + 1 => takenBefore float share pool c + min (min (float - takenBefore float share pool c) share) (64 - pool c)

/-- What core `c` takes. -/
def takenBy (float share : Nat) (pool : Nat → Nat) (c : Nat) : Nat :=
  min (min (float - takenBefore float share pool c) share) (64 - pool c)

theorem sum_takenBy (float share : Nat) (pool : Nat → Nat) (c : Nat) :
    ((List.range c).map (takenBy float share pool)).sum = takenBefore float share pool c := by
  induction c with
  | zero => rfl
  | succ c ih => rw [List.range_succ, List.map_append, List.sum_append, ih]; rfl

/-- A round of visits with no core in need. -/
theorem State.visits_calm {s : State} {g : Nat} (h : (s.grove g).needy = []) (m : Nat) :
    ((List.range m).foldl (fun s c => s.visit g c) s).grove g = { s.grove g with
        float := (s.grove g).float - takenBefore (s.grove g).float (s.grove g).shareNow (fun c => (s.core (g * coresPerGrove + c)).pool) m }
      ∧ ∀ c, (((List.range m).foldl (fun s c => s.visit g c) s).core (g * coresPerGrove + c)).pool
          = (s.core (g * coresPerGrove + c)).pool + if c < m then
            takenBy (s.grove g).float (s.grove g).shareNow (fun c => (s.core (g * coresPerGrove + c)).pool) c else 0 := by
  induction m with
  | zero => exact ⟨rfl, fun c => rfl⟩
  | succ m ih =>
    rw [List.range_succ, List.foldl_append, List.foldl_cons, List.foldl_nil]
    generalize (List.range m).foldl (fun s c => s.visit g c) s = z at ih ⊢
    obtain ⟨hg, hc⟩ := ih
    have hv := State.visit_calm (s := z) (g := g) (by rw [hg]; exact h) m
    have hm := hc m
    rw [if_neg (Nat.lt_irrefl m), Nat.add_zero] at hm
    rw [hg, hm] at hv
    change z.visit g m = z.fed g m (takenBy (s.grove g).float (s.grove g).shareNow (fun c => (s.core (g * coresPerGrove + c)).pool) m) at hv
    refine ⟨?_, fun c => ?_⟩
    · rw [hv, State.fed_grove, hg]
      exact congrArg (fun n => { s.grove g with float := n }) (Nat.sub_sub _ _ _)
    · by_cases hcm : c = m
      · subst hcm
        rw [hv, State.fed_core, if_pos (Nat.lt_succ_self c)]
        exact congrArg (· + _) hm
      · rw [State.visit_core_other _ _ _ _ (by omega), hc c]
        by_cases hlt : c < m
        · rw [if_pos hlt, if_pos (by omega)]
        · rw [if_neg hlt, if_neg (by omega)]

/-- A round of visits with one core in need. -/
theorem State.visits_needy {s : State} {g d b : Nat} (h : (s.grove g).needy = [(d, b)]) {m : Nat} (hm : d < m) (c : Nat) (hc : c ≤ d) :
    ((List.range m).foldl (fun s c => s.visit g c) s).core (g * coresPerGrove + c) = (s.visit g d).core (g * coresPerGrove + c) := by
  have hbefore (n : Nat) (hn : n ≤ d) : (List.range n).foldl (fun s c => s.visit g c) s = s := by
    induction n with
    | zero => rfl
    | succ n ih =>
      rw [List.range_succ, List.foldl_append, ih (by omega)]
      exact State.visit_passed h (by omega)
  induction m with
  | zero => cases hm
  | succ m ih =>
    rw [List.range_succ, List.foldl_append, List.foldl_cons, List.foldl_nil]
    by_cases hdm : d = m
    · subst hdm
      rw [hbefore d le_rfl]
    · rw [State.visit_core_other _ _ _ _ (by omega), ih (by omega)]

theorem State.op?_updOp_same (s : State) (n : Nat) (f : Op → Op) (hf : ∀ o, (f o).id = o.id) :
    (s.updOp n f).op? n = (s.op? n).map f := by
  have hp : (fun o : Op => o.id == n) ∘ (fun o => if o.id == n then f o else o) = fun o => o.id == n := by
    funext o
    dsimp only [Function.comp]
    split
    · rw [hf]
    · rfl
  unfold State.op? State.updOp
  dsimp only
  rw [List.find?_map, hp]
  cases ho : s.ops.find? (fun o => o.id == n) with
  | none => rfl
  | some o => exact congrArg some (if_pos (List.find?_some ho))

/-! ### AMBER_REVOLUTION -/

/-- The state as a revolution's visits begin. -/
def State.revolving (s : State) (g : Nat) : State := s.amberNow.updGrove g (fun x =>
  let x := x.takeCfg
  { x with float := min (x.float + x.rateNow) x.fmaxNow, lastRev := x.lastRev + 24 })

theorem exec_amberRevolution {s : State} {g : Nat} (h : (s.grove g).lastRev + 24 ≤ (s.grove g).cycle) :
    ∃ s', exec (.amberRevolution g) s = .next s' ∧ SameAmber ((List.range coresPerGrove).foldl (fun s c => s.visit g c) (s.revolving g)) s' :=
  ⟨_, if_neg (Nat.not_lt.2 h), (State.noteShort_sameAmber _).trans (SameAmber.foldl (fun z e => z.waitMore_sameAmber g e) _ _)⟩

theorem State.revolving_grove {s : State} {g : Nat} (h : (s.grove g).cfgNext = none) : ∃ p : Nat × Nat → Bool,
    (s.revolving g).grove g = { s.grove g with
        needy := (s.grove g).needy.filter p, lastRev := (s.grove g).lastRev + 24
        float := min ((s.grove g).float + (s.grove g).rateNow) (s.grove g).fmaxNow }
      ∧ ∀ e, s.wantsAmber (g * coresPerGrove + e.1) e.2 = true → p e = true := by
  obtain ⟨p, hp, hw⟩ := s.amberNow_grove g
  refine ⟨p, ?_, hw⟩
  unfold State.revolving
  rw [State.grove_updGrove, if_pos rfl, hp]
  unfold GroveSt.takeCfg
  dsimp only
  rw [h]
  rfl

/-- R316, R353, R354, R360: amber's revolution, the stretch of the clock, and arbitration. -/
theorem amberAndArbitration : Rules.AmberAndArbitration := by
  dsimp only [Rules.AmberAndArbitration]
  refine ⟨?_, ?_, fun g s h => ⟨s, if_pos h, rfl⟩, fun g s _ => ⟨_, rfl, (State.grove_updGrove _ _ _ _).trans (if_pos rfl), rfl⟩, ?_⟩
  · rintro g s ⟨hdue, hcfg, hneedy⟩
    obtain ⟨s', hexec, hsame⟩ := exec_amberRevolution hdue
    obtain ⟨p, hg, -⟩ := State.revolving_grove hcfg
    obtain ⟨hgrove, hcore⟩ := State.visits_calm (s := s.revolving g) (g := g) (by rw [hg, hneedy]; rfl) coresPerGrove
    have hpool : (fun c => ((s.revolving g).core (g * coresPerGrove + c)).pool) = fun c => (s.core (g * coresPerGrove + c)).pool :=
      funext fun c => (s.amberNow_core _).1
    rw [hpool, hg] at hgrove hcore
    refine ⟨s', hexec, takenBy (min ((s.grove g).float + (s.grove g).rateNow) (s.grove g).fmaxNow) (s.grove g).shareNow
      (fun c => (s.core (g * coresPerGrove + c)).pool), fun c hc => ⟨?_, ?_⟩, ?_, ?_⟩
    · rw [sum_takenBy, Nat.mul_comm 24 g]
      rfl
    · rw [Nat.mul_comm 24 g, (hsame.core _).1]
      refine (hcore c).trans ?_
      rw [if_pos (show c < coresPerGrove from hc), show (s.revolving g).core _ = s.amberNow.core _ from rfl, (s.amberNow_core _).1]
      rfl
    · rw [sum_takenBy, (hsame.grove g).1, hgrove]
      rfl
    · rw [(hsame.grove g).2, hgrove]
  · rintro g d b s ⟨hdue, hcfg, hneedy, hd, hwants, hresv, hpool⟩
    obtain ⟨s', hexec, hsame⟩ := exec_amberRevolution hdue
    obtain ⟨p, hg, hp⟩ := State.revolving_grove hcfg
    rw [Nat.mul_comm 24 g] at hwants hresv hpool ⊢
    have hqueue : ((s.revolving g).grove g).needy = [(d, b)] := by
      rw [hg, hneedy]
      exact List.filter_eq_self.2 fun e he => hp e (List.mem_singleton.1 he ▸ hwants)
    have hcore (n : Nat) : (s.revolving g).core n = s.amberNow.core n := rfl
    have hvisits := State.visits_needy hqueue (m := coresPerGrove) hd
    obtain ⟨hfull, hheld⟩ := State.visit_needy hqueue ((s.amberNow_core _).2 hresv)
    rw [hcore, (s.amberNow_core _).1, hg] at hfull hheld
    refine ⟨s', hexec, ?_, ?_, fun c hc => ?_⟩
    · exact (hsame.core _).1.trans ((congrArg CoreSt.pool (hvisits d le_rfl)).trans hfull)
    · exact (hsame.core _).2.trans ((congrArg CoreSt.resv (hvisits d le_rfl)).trans hheld)
    · refine (hsame.core _).1.trans ((congrArg CoreSt.pool (hvisits c hc.le)).trans ?_)
      rw [State.visit_core_other _ _ _ _ (by omega), hcore]
      exact (s.amberNow_core _).1
  · rintro o s ⟨ho, harb, hsince⟩
    refine ⟨s.updOp o.id (fun p => { p with arb := p.arb - 1, since := s.cycleOf (coreOf o.slot) }), ?_, ?_, rfl⟩
    · change execArbitrationEscalate o.id s = _
      unfold execArbitrationEscalate
      rw [ho]
      dsimp only
      rw [if_neg (not_or.2 ⟨harb, Nat.not_lt.2 (show o.since + 4096 ≤ s.cycleOf (coreOf o.slot) from hsince)⟩)]
    · rw [State.op?_updOp_same s o.id (fun p => { p with arb := p.arb - 1, since := s.cycleOf (coreOf o.slot) }) (fun _ => rfl), ho]
      rfl

/-- Settles O38: a leader's allowance, the refill, and a revolution core by core. -/
theorem amberAndBoost : Obligations.AmberAndBoost := ⟨boostLeases, amberAndArbitration⟩

end Sys2Proof.Machine
end

section
/-!
Every memory stays in its canonical form (08 R190): the operations of state, memory and translation.

A lemma `f_memOk` says that `f` keeps `State.memOk`, and its proof goes through the lemmas of the functions that `f` calls. Only writes
of bytes touch the memories, and `Memory.wf_writeN` is what they rest on. Lemmas stand in an order of their dependences that lets
independent ones be checked side by side.
-/

namespace Sys2Proof.Machine

variable {s s' : State}

theorem State.memOk_iff (s : State) :
    s.memOk = true ↔ Memory.wf s.mem = true ∧ Memory.wf s.scr = true ∧ Memory.wf s.host = true := by
  simp [State.memOk, and_assoc]

theorem State.takeFresh_memOk {n : Nat} (hs : s.memOk) : (s.takeFresh n).memOk := hs

/-- A fold whose step keeps the memories keeps them, in the form that `grind` uses: a step that does not is exhibited. -/
theorem State.foldl_memOk {β : Type} (f : State → β → State) (p : State) (l : List β) :
    (∃ p b, p.memOk ∧ ¬ (f p b).memOk) ∨ ¬ p.memOk ∨ (l.foldl f p).memOk := by
  by_cases h : ∃ p b, p.memOk ∧ ¬ (f p b).memOk
  · exact .inl h
  · by_cases hp : p.memOk
    · push Not at h
      exact .inr (.inr (List.foldlRecOn (motive := fun p => p.memOk) l f hp (fun b hb a _ => h b a hb)))
    · exact .inr (.inl hp)

theorem State.updTeam_memOk {k : Nat} {f : Team → Team} (hs : s.memOk) : (s.updTeam k f).memOk := hs

theorem State.writeBack_memOk {la : Nat} {ln : L2Line} (hs : s.memOk) : (s.writeBack la ln).memOk := by
  unfold State.writeBack
  grind [State.memOk_iff, Memory.wf_writeN]

theorem State.capLast_memOk {k : Nat} (hs : s.memOk) : (s.capLast k).memOk := by
  unfold State.capLast
  grind [State.memOk_iff]

theorem State.dropCode_memOk {pa : Nat} (hs : s.memOk) : (s.dropCode pa).memOk := by
  unfold State.dropCode
  grind [State.memOk_iff]

theorem State.l1Upd_memOk {dom pa : Nat} {f : Sector → Sector} (hs : s.memOk) : (s.l1Upd dom pa f).memOk := by
  unfold State.l1Upd
  grind [State.memOk_iff]

theorem State.makeRoom_memOk {k : Nat} (hs : s.memOk) : (s.makeRoom k).memOk := by
  unfold State.makeRoom
  grind [State.memOk_iff, State.writeBack_memOk]

theorem State.heatTaken_memOk {part : Nat} (hs : s.memOk) : (s.heatTaken part).memOk := by
  unfold State.heatTaken
  grind [State.takeFresh_memOk]

theorem State.l1DropLine_memOk {dom pa : Nat} (hs : s.memOk) : (s.l1DropLine dom pa).memOk := by
  unfold State.l1DropLine
  grind [State.memOk_iff]

theorem State.l1Cap_memOk {dom pa : Nat} (hs : s.memOk) : (s.l1Cap dom pa).memOk := by
  unfold State.l1Cap
  grind [State.l1Upd_memOk]

theorem State.enter_memOk {a : Acc} (hs : s.memOk) : (s.enter a).1.memOk := by
  unfold State.enter
  grind [State.memOk_iff, State.capLast_memOk, State.makeRoom_memOk]

theorem State.cacheWalk_memOk {unit part va log : Nat} {e : DWord} (hs : s.memOk) : (s.cacheWalk unit part va log e).memOk := by
  unfold State.cacheWalk
  grind [State.memOk_iff]

theorem State.l1Room_memOk {dom pa : Nat} (hs : s.memOk) : (s.l1Room dom pa).memOk := by
  unfold State.l1Room
  grind [State.l1DropLine_memOk]

theorem State.l1Hint_memOk {dom pa : Nat} {h : Hint} (hs : s.memOk) : (s.l1Hint dom pa h).memOk := by
  unfold State.l1Hint
  grind [State.memOk_iff, State.l1Upd_memOk, State.l1Cap_memOk]

theorem State.poke_memOk {a : Acc} {bs : List Byte} (hs : s.memOk) : (s.poke a bs).memOk := by
  unfold State.poke
  grind [State.memOk_iff, State.dropCode_memOk, State.enter_memOk]

theorem State.touch_memOk {a : Acc} (hs : s.memOk) : (s.touch a).1.memOk := by
  unfold State.touch
  grind [State.memOk_iff, State.enter_memOk]

theorem State.updPart_memOk {p : Nat} {f : Partition → Partition} (hs : s.memOk) : (s.updPart p f).memOk := hs

theorem State.endRecov_memOk {team : Nat} (hs : s.memOk) : (s.endRecov team).memOk := State.updTeam_memOk hs

theorem State.pick_memOk {α : Type} [DecidableEq α] {a b : α} (hs : s.memOk) : (s.pick a b).1.memOk := by
  unfold State.pick
  grind [State.memOk_iff]

theorem State.l1Fill_memOk {dom : Nat} {a : Acc} (hs : s.memOk) : (s.l1Fill dom a).memOk := by
  unfold State.l1Fill
  apply_rules [State.l1Room_memOk, State.l1Hint_memOk, hs]

theorem State.walkPick_memOk {unit part va : Nat} (hs : s.memOk) : (s.walkPick unit part va).1.memOk := by
  unfold State.walkPick
  grind [State.takeFresh_memOk, State.cacheWalk_memOk]

theorem State.heatSettle_memOk {part f : Nat} (hs : s.memOk) : (s.heatSettle part f).memOk := by
  unfold State.heatSettle
  simp only []
  split <;> grind [State.takeFresh_memOk, State.poke_memOk]

theorem State.noteWrite_memOk {a : Acc} {wr : Option Nat} (hs : s.memOk) : (s.noteWrite a wr).memOk := by
  unfold State.noteWrite
  grind [State.endRecov_memOk, State.poke_memOk, State.updPart_memOk, State.foldl_memOk]

theorem State.usedAnswer_memOk {who : Asker} (hs : s.memOk) : (s.usedAnswer who).memOk := by
  unfold State.usedAnswer
  grind [State.memOk_iff]

theorem State.heatReq_memOk {a : Acc} (hs : s.memOk) : (s.heatReq a).memOk := by
  unfold State.heatReq
  grind [State.memOk_iff, State.heatSettle_memOk, State.heatTaken_memOk, State.poke_memOk]

theorem State.unpoison_memOk {a : Acc} (hs : s.memOk) : (s.unpoison a).memOk := by
  unfold State.unpoison
  grind [State.memOk_iff]

theorem State.loseHeat_memOk {part : Nat} (hs : s.memOk) : (s.loseHeat part).memOk := by
  unfold State.loseHeat
  grind [State.poke_memOk, State.takeFresh_memOk, State.foldl_memOk]

theorem State.l1DropSector_memOk {dom pa : Nat} (hs : s.memOk) : (s.l1DropSector dom pa).memOk := by
  unfold State.l1DropSector
  grind [State.memOk_iff]

theorem State.clean_memOk {a : Acc} (hs : s.memOk) : (s.clean a).memOk := by
  unfold State.clean
  grind [State.memOk_iff, State.writeBack_memOk]

theorem State.devRead_memOk {a : Acc} {n : Nat} (hs : s.memOk) : (s.devRead a n).1.memOk := by
  unfold State.devRead
  grind [State.touch_memOk, State.heatReq_memOk]

theorem State.devWrite_memOk {a : Acc} {bs : List Byte} (hs : s.memOk) : (s.devWrite a bs).1.memOk := by
  unfold State.devWrite
  grind [State.memOk_iff, State.enter_memOk, State.heatReq_memOk, State.noteWrite_memOk, State.poke_memOk]

theorem State.flushKey_memOk {part key : Nat} (hs : s.memOk) : (s.flushKey part key).memOk := by
  unfold State.flushKey
  grind [State.memOk_iff, State.writeBack_memOk, State.foldl_memOk]

theorem State.l1Read_memOk {dom acq : Nat} {a : Acc} {n : Nat} (hs : s.memOk) : (s.l1Read dom acq a n).1.memOk := by
  unfold State.l1Read
  grind [State.pick_memOk, State.l1Hint_memOk, State.devRead_memOk, State.l1Fill_memOk]

theorem State.leaveMemory_memOk {groves : BitVec 32} {slices : BitVec 64} (hs : s.memOk) : (s.leaveMemory groves slices).memOk := by
  unfold State.leaveMemory
  grind [State.memOk_iff, State.writeBack_memOk, State.foldl_memOk]

theorem State.pokeN_memOk {part pa : Nat} {bs : List Byte} (hs : s.memOk) : (s.pokeN part pa bs).memOk := by
  unfold State.pokeN
  grind [State.poke_memOk, State.noteWrite_memOk, State.foldl_memOk]

theorem State.walkAhead_memOk {unit part va : Nat} (hs : s.memOk) : (s.walkAhead unit part va).memOk := by
  unfold State.walkAhead
  grind [State.cacheWalk_memOk]

theorem State.translate_memOk {who : Asker} {part va : Nat} {need : Need} {hostPath : Bool} (hs : s.memOk) :
    (s.translate who part va need hostPath).1.memOk := by
  unfold State.translate
  grind [State.walkPick_memOk, State.touch_memOk]

theorem State.askHost_memOk {who : Asker} {part vpn : Nat} {wr : Bool} (hs : s.memOk) : (s.askHost who part vpn wr).memOk := by
  unfold State.askHost
  grind [State.memOk_iff]

theorem State.moveAskers_memOk {f : Nat → Nat} (hs : s.memOk) : (s.moveAskers f).memOk := by
  unfold State.moveAskers
  grind [State.memOk_iff]

theorem State.dropAskers_memOk {slots : List Nat} (hs : s.memOk) : (s.dropAskers slots).memOk := by
  unfold State.dropAskers
  grind [State.memOk_iff]

theorem State.giveAnswer_memOk {who : Asker} {x : Denial} (hs : s.memOk) : (s.giveAnswer who x).memOk := by
  unfold State.giveAnswer
  grind [State.memOk_iff, State.usedAnswer_memOk]

theorem State.memOk_of_eq {s t : State} (hs : s.memOk) (hm : t.mem = s.mem) (hc : t.scr = s.scr) (hh : t.host = s.host) :
    t.memOk := by
  rw [State.memOk_iff] at *
  rwa [hm, hc, hh]

theorem State.memOk_foldl {β : Type} {f : State → β → State} {l : List β} {s : State} (hs : s.memOk)
    (step : ∀ t b, t.memOk → (f t b).memOk) : (l.foldl f s).memOk :=
  List.foldlRecOn (motive := fun t => State.memOk t = true) l f hs (fun t ht b _ => step t b ht)

theorem State.memOk_foldl_fst {α β : Type} {f : State × α → β → State × α} {l : List β} {p : State × α} (hs : p.1.memOk)
    (step : ∀ p b, p.1.memOk → (f p b).1.memOk) : (l.foldl f p).1.memOk :=
  List.foldlRecOn (motive := fun p => State.memOk p.1 = true) l f hs (fun t ht b _ => step t b ht)

theorem State.foldl_fst_memOk {α β : Type} (f : State × α → β → State × α) (p : State × α) (l : List β) :
    (∃ p b, p.1.memOk ∧ ¬ (f p b).1.memOk) ∨ ¬ p.1.memOk ∨ (l.foldl f p).1.memOk := by
  by_cases h : ∃ p b, p.1.memOk ∧ ¬ (f p b).1.memOk
  · exact .inl h
  · by_cases hp : p.1.memOk
    · push Not at h
      exact .inr (.inr (List.foldlRecOn (motive := fun p => p.1.memOk) l f hp (fun b hb a _ => h b a hb)))
    · exact .inr (.inl hp)

theorem State.memOk_getD {o : Option State} {s : State} (hs : s.memOk) (ho : ∀ t, o = some t → t.memOk) : (o.getD s).memOk := by
  cases o with
  | none => exact hs
  | some t => exact ho t rfl

theorem State.memOk_ite {c : Prop} [Decidable c] {s t : State} (hs : s.memOk) (ht : t.memOk) : (if c then s else t).memOk := by
  split
  · exact hs
  · exact ht

theorem State.memOk_writeScr {s : State} (hs : s.memOk) (k : Nat) (bs : List Byte) :
    State.memOk { s with scr := Memory.writeN s.scr k bs } := by
  rw [State.memOk_iff] at *
  exact ⟨hs.1, Memory.wf_writeN _ _ _ hs.2.1, hs.2.2⟩

theorem State.memOk_writeHost {s : State} (hs : s.memOk) (k : Nat) (bs : List Byte) :
    State.memOk { s with host := Memory.writeN s.host k bs } := by
  rw [State.memOk_iff] at *
  exact ⟨hs.1, hs.2.1, Memory.wf_writeN _ _ _ hs.2.2⟩

theorem State.setThread_memOk {k : Nat} {t : Thread} (hs : s.memOk) : (s.setThread k t).memOk := hs

theorem State.updThread_memOk {k : Nat} {f : Thread → Thread} (hs : s.memOk) : (s.updThread k f).memOk := hs

theorem State.freeThread_memOk {k : Nat} (hs : s.memOk) : (s.freeThread k).memOk := hs

theorem State.updGrid_memOk {k : Nat} {f : Grid → Grid} (hs : s.memOk) : (s.updGrid k f).memOk := hs

theorem State.updCore_memOk {c : Nat} {f : CoreSt → CoreSt} (hs : s.memOk) : (s.updCore c f).memOk := hs

theorem State.updGrove_memOk {g : Nat} {f : GroveSt → GroveSt} (hs : s.memOk) : (s.updGrove g f).memOk := hs

theorem State.updQueue_memOk {j : Nat} {f : Queue → Queue} (hs : s.memOk) : (s.updQueue j f).memOk := hs

theorem State.updSlot_memOk {a : Nat} {f : Slot → Slot} (hs : s.memOk) : (s.updSlot a f).memOk := hs

theorem State.updLd_memOk {v : Nat} {f : LDev → LDev} (hs : s.memOk) : (s.updLd v f).memOk := hs

theorem State.updRail_memOk {r : Nat} {f : Rail → Rail} (hs : s.memOk) : (s.updRail r f).memOk := hs

theorem State.updOp_memOk {id : Nat} {f : Op → Op} (hs : s.memOk) : (s.updOp id f).memOk := hs

theorem State.dropOp_memOk {id : Nat} (hs : s.memOk) : (s.dropOp id).memOk := hs

theorem State.l1Store_memOk {dom pa : Nat} {bs : List Byte} {h : Hint} (hs : s.memOk) : (s.l1Store dom pa bs h).memOk :=
  State.l1Hint_memOk hs

theorem State.discard_memOk {s : State} {g : Nat} {a : Acc} (hs : s.memOk) : (s.discard g a).memOk := by
  unfold State.discard
  extract_lets s1 k
  have h1 : s1.memOk := State.memOk_foldl hs (fun t d => State.l1DropLine_memOk)
  split
  · exact h1
  · split
    next s2 data e =>
      have h2 : s2.memOk := by
        have h := congrArg (fun p : State × List Byte => p.1.memOk) e
        exact h ▸ State.memOk_foldl_fst h1 (fun p i => State.pick_memOk)
      extract_lets s3
      have h3 : s3.memOk := by
        unfold s3
        split
        · exact h2
        · exact State.writeBack_memOk h2
      exact State.memOk_of_eq h3 rfl rfl rfl

theorem State.setDeps_memOk {slot : Nat} {l : List RegId} {n : Nat} (hs : s.memOk) : (s.setDeps slot l n).memOk := hs

end Sys2Proof.Machine

end

section
/-!
Every memory stays in its canonical form: issue, lanes, copies, the matrix core and the events of memory.
-/

namespace Sys2Proof.Machine

variable {s s' : State}

theorem State.addRec_memOk {part : Nat} {x : Rep} (hs : s.memOk) : (s.addRec part x).memOk := hs

theorem State.engineWrite_memOk {s : State} {who : Asker} {part : Nat} {va : Nat} {bs : List Byte} (hs : s.memOk) :
    (s.engineWrite who part va bs).1.memOk := by
  refine State.memOk_foldl_fst hs (fun p x hp => ?_)
  have ht := State.translate_memOk (who := who) (part := part) (va := va + x.1) (need := .write) (hostPath := true) hp
  split
  · exact hp
  · split
    next s' r e =>
      rw [e] at ht
      split
      · exact State.devWrite_memOk ht
      · exact State.memOk_writeHost ht _ _
      · exact State.askHost_memOk ht
      · exact ht

theorem State.renewed_memOk {o : Op} (hs : s.memOk) : (s.renewed o).memOk := by
  unfold State.renewed
  grind [State.updThread_memOk]

theorem State.updTeamTag_memOk {team k : Nat} {f : TagSt → TagSt} (hs : s.memOk) : (s.updTeamTag team k f).memOk := by
  unfold State.updTeamTag
  grind [State.updCore_memOk]

theorem State.leaveRegroup_memOk {slot : Nat} (hs : s.memOk) : (s.leaveRegroup slot).memOk := hs

theorem State.ringOverflow_memOk {part va engine : Nat} (hs : s.memOk) : (s.ringOverflow part va engine).memOk := by
  unfold State.ringOverflow
  grind [State.addRec_memOk]

theorem State.parkGroup_memOk {core bough : Nat} {ls : List LFault} {recs : List (Nat × Nat)} (hs : s.memOk) :
    (s.parkGroup core bough ls recs).memOk := by
  unfold State.parkGroup
  grind [State.updCore_memOk, State.leaveRegroup_memOk, State.updThread_memOk, State.foldl_memOk]

theorem State.meets_memOk {slot : Nat} {code : BitVec 8} {va : DWord} (hs : s.memOk) : (s.meets slot code va).memOk := by
  unfold State.meets
  grind [State.updTeam_memOk]

theorem State.issueOp_memOk {o : Op} (hs : s.memOk) : (s.issueOp o).memOk := by
  unfold State.issueOp
  grind [State.memOk_iff, State.updThread_memOk, State.renewed_memOk]

theorem State.writeRec_memOk {part : Nat} {r : FRec} (hs : s.memOk) : (s.writeRec part r).1.memOk := by
  unfold State.writeRec
  grind [State.engineWrite_memOk, State.usedAnswer_memOk, State.ringOverflow_memOk, State.updPart_memOk, State.updCore_memOk]

theorem State.enqueueCopy_memOk {o : Op} (hs : s.memOk) : (s.enqueueCopy o).memOk := by
  unfold State.enqueueCopy
  grind [State.updCore_memOk, State.updTeamTag_memOk]

theorem State.stampStore_memOk {id : Nat} (hs : s.memOk) : (s.stampStore id).memOk := hs

theorem State.noteHeat_memOk {o : Op} {wr : Bool} {a : Acc} (hs : s.memOk) : (s.noteHeat o wr a).memOk := by
  unfold State.noteHeat
  grind [State.updOp_memOk]

theorem State.drainRecs_memOk {part a : Nat} (hs : s.memOk) : (s.drainRecs part a).memOk := by
  fun_induction State.drainRecs s part a <;> grind [State.updPart_memOk, ! . State.writeRec_memOk]

theorem State.letPass_memOk {slot n : Nat} (hs : s.memOk) : (s.letPass slot n).memOk := by
  unfold State.letPass
  grind [State.memOk_iff, State.stampStore_memOk, State.foldl_memOk]

theorem State.tryReplay_memOk {slot : Nat} (hs : s.memOk) : (s.tryReplay slot).memOk := by
  unfold State.tryReplay
  grind [State.updThread_memOk, State.enqueueCopy_memOk, State.issueOp_memOk]

theorem State.engineAt_memOk {o : Op} {scr : Bool} {row k n : Nat} {need : Need} (hs : s.memOk) :
    (s.engineAt o scr row k n need).1.memOk :=
    by
  unfold State.engineAt
  grind [State.translate_memOk, State.usedAnswer_memOk]

theorem State.report_memOk {part : Nat} {x : Rep} (hs : s.memOk) : (s.report part x).1.memOk := by
  unfold State.report
  grind [State.addRec_memOk, State.drainRecs_memOk]

theorem State.letRelease_memOk {o : Op} (hs : s.memOk) : (s.letRelease o).memOk := by
  unfold State.letRelease
  grind [State.letPass_memOk]

theorem State.tryReplays_memOk {o : Op} (hs : s.memOk) : (s.tryReplays o).memOk := by
  unfold State.tryReplays
  grind [State.tryReplay_memOk, State.foldl_memOk]

theorem State.onward_memOk {slot : Nat} (hs : s.memOk) : (s.onward slot).memOk := by
  unfold State.onward
  grind [State.memOk_iff, State.usedAnswer_memOk]

theorem State.reportLanes_memOk {core : Nat} {all a : List LFault} (hs : s.memOk) : (s.reportLanes core all a).1.memOk := by
  fun_induction State.reportLanes s core all a <;> grind [! . State.report_memOk]

theorem State.noteDep_memOk {i : Instr} {slot : Nat} {t : Thread} (hs : s.memOk) : (s.noteDep i slot t).memOk := by
  unfold State.noteDep
  grind [State.setDeps_memOk, State.foldl_memOk]

theorem State.finishOp_memOk {o : Op} (hs : s.memOk) : (s.finishOp o).memOk := by
  unfold State.finishOp
  apply_rules [State.tryReplays_memOk, State.updThread_memOk, State.dropOp_memOk, hs]

theorem State.reachL1_memOk {p : Op} (hs : s.memOk) : (s.reachL1 p).memOk := by
  unfold State.reachL1
  grind [State.letRelease_memOk, State.stampStore_memOk]

theorem State.fault_memOk {core bough : Nat} {ls : List LFault} (hs : s.memOk) : (s.fault core bough ls).memOk := by
  unfold State.fault
  grind [State.usedAnswer_memOk, State.updTeam_memOk, State.meets_memOk, State.reportLanes_memOk, State.parkGroup_memOk,
    State.foldl_memOk]

theorem State.stepTrapsOn_memOk {core bough : Nat} {pc : DWord} {lanes : List Nat} (hs : s.memOk) :
    (s.stepTrapsOn core bough pc lanes).memOk := State.fault_memOk hs

theorem State.barReturn_memOk {slot : Nat} (hs : s.memOk) : (s.barReturn slot).memOk := by
  unfold State.barReturn
  grind [State.memOk_iff, State.setThread_memOk, State.stepTrapsOn_memOk]

theorem State.scrWrite_memOk {s : State} {core : Nat} {off : Nat} {bs : List Byte} (hs : s.memOk) :
    (s.scrWrite core off bs).memOk :=
  State.memOk_foldl (State.memOk_writeScr hs _ _) (fun _ _ => State.barReturn_memOk)

theorem State.setBar_memOk {core off : Nat} {o : BarObj} (hs : s.memOk) : (s.setBar core off o).memOk := State.scrWrite_memOk hs

theorem State.barDone_memOk {core off : Nat} {o : BarObj} (hs : s.memOk) : (s.barDone core off o).memOk := State.setBar_memOk hs

theorem State.credit_memOk {slot x total : Nat} (hs : s.memOk) : (s.credit slot x total).1.memOk := by
  unfold State.credit
  grind [State.setBar_memOk, State.barDone_memOk]

theorem State.engineStore_memOk {o : Op} {p : Place} {bs : List Byte} (hs : s.memOk) : (s.engineStore o p bs).1.memOk := by
  unfold State.engineStore
  grind [State.memOk_iff, State.endRecov_memOk, State.devWrite_memOk, State.noteHeat_memOk, State.l1DropLine_memOk,
    State.scrWrite_memOk, Memory.wf_writeN]

theorem State.reportOp_memOk {o : Op} {engine : Nat} {code : BitVec 8} {wr : Bool} {va : DWord} (hs : s.memOk) :
    (s.reportOp o engine code wr va).1.memOk := by
  unfold State.reportOp
  grind [State.report_memOk, State.takeFresh_memOk]

theorem State.writePiece_memOk {o : Op} {off : Nat} {bs : List Byte} {hint : Hint} (hs : s.memOk) :
    (s.writePiece o off bs hint).1.memOk :=
    by
  unfold State.writePiece
  grind [State.memOk_iff, State.devWrite_memOk, State.noteHeat_memOk, State.l1Store_memOk, State.scrWrite_memOk, Memory.wf_writeN]

theorem State.engineRead_memOk {o : Op} {p : Place} {n : Nat} (hs : s.memOk) : (s.engineRead o p n).1.memOk := by
  unfold State.engineRead
  grind [State.devRead_memOk, State.noteHeat_memOk]

theorem State.cleared_memOk {o : Op} {p : Place} {whole : Bool} (hs : s.memOk) : (s.cleared o p whole).memOk := by
  unfold State.cleared
  grind [State.unpoison_memOk]

theorem State.askGrid_memOk {slot : Nat} {r : GReq} (hs : s.memOk) : (s.askGrid slot r).memOk := hs

theorem State.show_memOk {w : List Nat} (hs : s.memOk) : (s.show w).memOk := hs

theorem State.endCopy_memOk {o : Op} {met : Option (BitVec 8 × DWord)} (hs : s.memOk) : (s.endCopy o met).memOk := by
  unfold State.endCopy
  grind [State.updCore_memOk, State.updTeamTag_memOk, State.finishOp_memOk, State.credit_memOk, State.updThread_memOk,
    State.meets_memOk]

theorem State.scramble_memOk {o : Op} {dscr : Bool} {rows : List (Nat × Nat × Nat)} {a : List (Nat × Nat)} (hs : s.memOk) :
    (s.scramble o dscr rows a).1.memOk := by
  fun_induction State.scramble s o dscr rows a <;> grind [State.memOk_iff, ! . State.engineAt_memOk, ! . State.engineStore_memOk,
    State.takeFresh_memOk, State.askHost_memOk]

theorem State.deferOp_memOk {o : Op} {code : BitVec 8} {va : DWord} (hs : s.memOk) : (s.deferOp o code va).memOk := by
  unfold State.deferOp
  grind [State.updThread_memOk, State.finishOp_memOk, State.meets_memOk, State.usedAnswer_memOk]

theorem State.holdOp_memOk {o : Op} {idx : Nat} (hs : s.memOk) : (s.holdOp o idx).memOk := by
  unfold State.holdOp
  grind [State.updOp_memOk, State.usedAnswer_memOk]

theorem State.charge_memOk {i : Instr} {lanes : List Nat} (hs : s.memOk) : (s.charge i lanes).memOk := by
  unfold State.charge
  grind [State.updCore_memOk]

theorem State.applyLane_memOk {slot : Nat} {o : LaneOut} (hs : s.memOk) : (s.applyLane slot o).memOk := by
  unfold State.applyLane
  grind [State.memOk_iff, State.updThread_memOk, State.onward_memOk, State.askHost_memOk, State.usedAnswer_memOk,
    State.issueOp_memOk, State.askGrid_memOk, State.foldl_memOk]

theorem State.noteDeps_memOk {s0 : State} {i : Instr} {outs : List (Nat × LaneOut)} (hs : s.memOk) :
    (s.noteDeps s0 i outs).memOk := by
  unfold State.noteDeps
  grind [State.noteDep_memOk, State.foldl_memOk]

theorem State.letSee_memOk {o : Op} (hs : s.memOk) : (s.letSee o).memOk := by
  unfold State.letSee
  grind [State.reachL1_memOk, State.pick_memOk, State.foldl_memOk]

theorem State.noteEarlyTl_memOk {o : Op} {l : List (Nat × Nat)} (hs : s.memOk) : (s.noteEarlyTl o l).memOk := by
  unfold State.noteEarlyTl
  grind [State.updThread_memOk, State.show_memOk]

theorem State.readPiece_memOk {o : Op} {acq off n : Nat} {hint : Hint} (hs : s.memOk) : (s.readPiece o acq off n hint).1.memOk := by
  unfold State.readPiece
  grind [State.devRead_memOk, State.l1DropLine_memOk, State.noteHeat_memOk, State.l1Read_memOk]

theorem State.holdWrite_memOk {o : Op} {off : Nat} (hs : s.memOk) : (s.holdWrite o off).memOk := by
  unfold State.holdWrite
  apply_rules [State.reportOp_memOk, State.updOp_memOk, hs]

theorem State.atomStep_memOk {o : Op} {op : AOp} {dbl : Bool} {b c : DWord} (hs : s.memOk) : (s.atomStep o op dbl b c).1.memOk := by
  unfold State.atomStep
  grind [State.writePiece_memOk, State.devRead_memOk, State.l1DropSector_memOk, State.noteHeat_memOk]

theorem State.movePiece_memOk {o : Op} {rows : List (Nat × Nat × Nat)} {dscr : Bool} {ssp : Space} {off : Nat} (hs : s.memOk) :
    (s.movePiece o rows dscr ssp off).1.memOk := by
  unfold State.movePiece
  simp only []
  split <;> grind [! . State.reportOp_memOk, ! . State.engineAt_memOk, State.askHost_memOk, ! . State.engineRead_memOk,
    ! . State.engineStore_memOk, State.takeFresh_memOk, State.cleared_memOk]

theorem State.closeEntry_memOk {s : State} {team : Nat} {e : QEnt} (hs : s.memOk) : (s.closeEntry team e).memOk := by
  unfold State.closeEntry
  split
  · exact hs
  · exact State.memOk_foldl (State.memOk_of_eq hs rfl rfl rfl) (fun _ _ => State.updThread_memOk)

theorem State.acquired_memOk {o : Op} (hs : s.memOk) : (s.acquired o).memOk := hs

theorem State.endIntervals_memOk {slots : List Nat} (hs : s.memOk) : (s.endIntervals slots).memOk := by
  unfold State.endIntervals
  grind [State.endRecov_memOk, State.foldl_memOk]

theorem State.failOn_memOk {o : Op} {dscr : Bool} {rows : List (Nat × Nat × Nat)} {todo : List (Nat × Nat)}
    {met : Option (BitVec 8 × DWord)} (hs : s.memOk) : (s.failOn o dscr rows todo met).memOk := by
  unfold State.failOn
  grind [State.scramble_memOk, State.usedAnswer_memOk, State.endCopy_memOk, State.updOp_memOk]

theorem State.closeAll_memOk {team : Nat} {l : List QEnt} (hs : s.memOk) : (s.closeAll team l).memOk := by
  unfold State.closeAll
  grind [State.closeEntry_memOk, State.foldl_memOk]

theorem State.runLanes_memOk {i : Instr} {gd : Thread → Bool} {f : Lane → LaneRes} (hs : s.memOk) :
    (s.runLanes i gd f).s.memOk := by
  unfold State.runLanes
  grind [State.memOk_iff, State.noteDeps_memOk, State.applyLane_memOk, State.charge_memOk, State.fault_memOk, State.foldl_memOk]

theorem State.noteEarly_memOk {o : Op} {l : List (Nat × Nat)} (hs : s.memOk) : (s.noteEarly o l).memOk := by
  unfold State.noteEarly
  grind [State.updThread_memOk, State.show_memOk]

theorem State.placed_memOk {o : Op} (hs : s.memOk) : (s.placed o).1.memOk := by
  unfold State.placed
  grind [State.translate_memOk, State.reportOp_memOk, State.holdOp_memOk, State.deferOp_memOk, State.askHost_memOk,
    State.finishOp_memOk, State.updOp_memOk, State.usedAnswer_memOk, State.endRecov_memOk]

theorem State.somePieces_memOk {o : Op} (hs : s.memOk) : (s.somePieces o).1.memOk := by
  unfold State.somePieces
  grind [State.takeFresh_memOk]

theorem State.readPieces_memOk {o : Op} {acq : Nat} {hint : Hint} {a : List (Nat × Nat)} (hs : s.memOk) :
    (s.readPieces o acq hint a).1.memOk := by
  fun_induction State.readPieces s o acq hint a <;> grind [! . State.readPiece_memOk]

theorem State.writePieces_memOk {o : Op} {data : List Byte} {hint : Hint} {a : List (Nat × Nat)} (hs : s.memOk) :
    (s.writePieces o data hint a).1.memOk := by
  fun_induction State.writePieces s o data hint a <;> grind [! . State.writePiece_memOk, State.updOp_memOk]

theorem State.doAtom_memOk {o : Op} (hs : s.memOk) : (s.doAtom o).memOk := by
  unfold State.doAtom
  grind [State.atomStep_memOk, State.deferOp_memOk, State.holdWrite_memOk, State.setDeps_memOk, State.updThread_memOk,
    State.finishOp_memOk, State.acquired_memOk]

theorem State.contribute_memOk {part n : Nat} {op : AOp} {dbl : Bool} {va : Nat} {b : DWord} (hs : s.memOk) :
    (s.contribute part n op dbl va b).memOk := by
  unfold State.contribute
  grind [State.memOk_iff]

theorem State.smear_memOk {o : Op} {rows : List (Nat × Nat × Nat)} {dscr : Bool} {ssp : Space} (hs : s.memOk) :
    (s.smear o rows dscr ssp).memOk := by
  unfold State.smear
  grind [State.engineAt_memOk, State.engineRead_memOk, State.engineStore_memOk, State.takeFresh_memOk, State.foldl_memOk]

theorem State.movePieces_memOk {o : Op} {rows : List (Nat × Nat × Nat)} {dscr : Bool} {ssp : Space} {a : List (Nat × Nat)}
    (hs : s.memOk) : (s.movePieces o rows dscr ssp a).1.memOk := by
  fun_induction State.movePieces s o rows dscr ssp a <;> grind [! . State.movePiece_memOk, State.updOp_memOk]

theorem State.fragPiece_memOk {o : Op} {store cd : Bool} {r : Nat} {stride : Int} {sp : Space} {off : Nat} (hs : s.memOk) :
    (s.fragPiece o store cd r stride sp off).1.memOk := by
  unfold State.fragPiece
  grind [State.reportOp_memOk, State.updOp_memOk, State.engineAt_memOk, State.askHost_memOk, State.engineStore_memOk,
    State.takeFresh_memOk, State.cleared_memOk, State.readPiece_memOk, State.letSee_memOk, State.updThread_memOk,
    State.noteEarlyTl_memOk]

theorem State.stepTraps_memOk {pc : DWord} {lanes : List Nat} (hs : s.memOk) : (s.stepTraps pc lanes).memOk :=
  State.stepTrapsOn_memOk hs

theorem State.noteIntervals_memOk {from' : Nat} {always : List Nat} (hs : s.memOk) : (s.noteIntervals from' always).memOk := by
  unfold State.noteIntervals
  apply_rules [State.endIntervals_memOk, hs]

theorem State.failCopy_memOk {o : Op} {dscr : Bool} {rows : List (Nat × Nat × Nat)} {met : Option (BitVec 8 × DWord)}
    (hs : s.memOk) : (s.failCopy o dscr rows met).memOk := State.failOn_memOk hs

theorem State.arriveMat_memOk {slot : Nat} {contrib : Bool} {word pc : DWord} {op : MatOp} (hs : s.memOk) :
    (s.arriveMat slot contrib word pc op).memOk := by
  unfold State.arriveMat
  grind [State.memOk_iff, State.updTeam_memOk, State.updThread_memOk]

theorem State.closeFull_memOk {team : Nat} (hs : s.memOk) : (s.closeFull team).memOk := by
  unfold State.closeFull
  grind [State.closeAll_memOk]

theorem State.issue_memOk {i : Instr} {gd : Thread → Bool} {f : Lane → LaneRes} (hs : s.memOk) (e : s.issue i gd f = .next s') :
    s'.memOk :=
    by
  unfold State.issue at e
  grind [State.runLanes_memOk, State.stepTraps_memOk]

theorem State.performLoad_memOk {o : Op} (hs : s.memOk) : (s.performLoad o).memOk := by
  unfold State.performLoad
  grind [State.letSee_memOk, State.placed_memOk, State.deferOp_memOk, State.somePieces_memOk, State.readPieces_memOk,
    State.noteEarly_memOk, State.updOp_memOk, State.updThread_memOk, State.setDeps_memOk, State.finishOp_memOk,
    State.acquired_memOk]

theorem State.performStore_memOk {o : Op} (hs : s.memOk) : (s.performStore o).memOk := by
  unfold State.performStore
  grind [State.letRelease_memOk, State.placed_memOk, State.deferOp_memOk, State.somePieces_memOk, State.writePieces_memOk,
    State.holdWrite_memOk, State.finishOp_memOk]

theorem State.performAtom_memOk {o : Op} (hs : s.memOk) : (s.performAtom o).memOk := by
  unfold State.performAtom
  grind [State.letRelease_memOk, State.placed_memOk, State.deferOp_memOk, State.updOp_memOk, State.finishOp_memOk,
    State.contribute_memOk, State.doAtom_memOk]

theorem State.performLine_memOk {o : Op} (hs : s.memOk) : (s.performLine o).memOk := by
  unfold State.performLine
  grind [State.placed_memOk, State.finishOp_memOk, State.discard_memOk, State.clean_memOk]

theorem State.prefetch_memOk {core : Nat} {l2 : Bool} {a : Acc} (hs : s.memOk) : (s.prefetch core l2 a).memOk := by
  unfold State.prefetch
  grind [State.touch_memOk, State.l1Hint_memOk, State.l1Fill_memOk, State.foldl_memOk]

theorem State.performBar_memOk {o : Op} (hs : s.memOk) : (s.performBar o).memOk := by
  unfold State.performBar
  grind [State.letRelease_memOk, State.deferOp_memOk, State.setBar_memOk, State.barDone_memOk, State.setDeps_memOk,
    State.updThread_memOk, State.finishOp_memOk, State.acquired_memOk]

theorem State.performCopy_memOk {o : Op} (hs : s.memOk) : (s.performCopy o).memOk := by
  unfold State.performCopy
  grind [State.failOn_memOk, State.somePieces_memOk, State.movePieces_memOk, State.updOp_memOk, State.failCopy_memOk,
    State.endCopy_memOk, State.smear_memOk]

theorem State.startCopy_memOk {o : Op} (hs : s.memOk) : (s.startCopy o).memOk := by
  unfold State.startCopy
  grind [State.updOp_memOk, State.failCopy_memOk]

theorem State.matDeps_memOk {slot : Nat} {op : MatOp} (hs : s.memOk) : (s.matDeps slot op).memOk := by
  unfold State.matDeps
  grind [State.setDeps_memOk]

theorem State.nameStores_memOk {from' : Nat} (hs : s.memOk) : (s.nameStores from').memOk := by
  unfold State.nameStores
  grind [State.updThread_memOk, State.foldl_memOk]

theorem State.fragPieces_memOk {o : Op} {store cd : Bool} {r : Nat} {stride : Int} {sp : Space} {a : List (Nat × Nat)}
    (hs : s.memOk) : (s.fragPieces o store cd r stride sp a).1.memOk := by
  fun_induction State.fragPieces s o store cd r stride sp a <;> grind [! . State.fragPiece_memOk]

theorem State.endFrag_memOk {o : Op} {store cd : Bool} {r : Nat} {stride : Int} {sp : Space} {met : Option (BitVec 8 × Nat)}
    (hs : s.memOk) : (s.endFrag o store cd r stride sp met).memOk := by
  unfold State.endFrag
  grind [State.setDeps_memOk, State.updThread_memOk, State.takeFresh_memOk, State.engineAt_memOk, State.engineStore_memOk,
    State.finishOp_memOk, State.meets_memOk, State.foldl_memOk]

theorem State.poisonFill_memOk {a : Acc} (hs : s.memOk) : (s.poisonFill a).memOk := by
  unfold State.poisonFill
  grind [State.memOk_iff, State.makeRoom_memOk, State.capLast_memOk]

theorem State.fuse_memOk {s : State} {before : List MEnt} (hs : s.memOk) : (s.fuse before).memOk := by
  unfold State.fuse
  refine State.memOk_foldl hs (fun t b ht => ?_)
  simp only []
  split
  · split
    · exact State.memOk_of_eq ht rfl rfl rfl
    · exact ht
  · exact ht

theorem State.issueMem_memOk {i : Instr} {gd : Thread → Bool} {ends : Bool} {f : Lane → LaneRes} (hs : s.memOk)
    (e : s.issueMem i gd ends f = .next s') : s'.memOk := by
  unfold State.issueMem at e
  grind [State.runLanes_memOk, State.stepTraps_memOk, State.noteIntervals_memOk]

theorem State.issueCopy_memOk {i : Instr} {gd : Thread → Bool} {req : Lane → CopyReq} (hs : s.memOk)
    (e : s.issueCopy i gd req = .next s') : s'.memOk := by
  unfold State.issueCopy at e
  grind [State.runLanes_memOk, State.enqueueCopy_memOk, State.endIntervals_memOk, State.endCopy_memOk, State.stepTraps_memOk,
    State.foldl_memOk]

theorem State.issueQuarter_memOk {i : Instr} {gd : Thread → Bool} {op : MatOp} {check : Lane → Option (BitVec 8)} (hs : s.memOk)
    (e : s.issueQuarter i gd op check = .next s') : s'.memOk := by
  unfold State.issueQuarter at e
  grind [State.runLanes_memOk, State.arriveMat_memOk, State.stepTraps_memOk, State.fuse_memOk, State.closeFull_memOk,
    State.foldl_memOk]

theorem execFence_memOk {x : FenceArg} (hs : s.memOk) (e : execFence x s = .next s') : s'.memOk := by
  unfold execFence at e
  grind [State.runLanes_memOk, State.noteIntervals_memOk, State.letPass_memOk, State.stepTraps_memOk, State.foldl_memOk]

theorem execPref_memOk {x : PrefArg} (hs : s.memOk) (e : execPref x s = .next s') : s'.memOk := by
  unfold execPref at e
  grind [State.runLanes_memOk, State.stepTraps_memOk, State.prefetch_memOk, State.foldl_memOk]

theorem execFfr_memOk {x : FfrArg} (hs : s.memOk) (e : execFfr x s = .next s') : s'.memOk := by
  unfold execFfr at e
  grind [State.runLanes_memOk, State.updTeamTag_memOk, State.stepTraps_memOk, State.foldl_memOk]

theorem execCopyStart_memOk {core : Nat} (hs : s.memOk) (e : execCopyStart core s = .next s') : s'.memOk := by
  unfold execCopyStart at e
  grind [State.startCopy_memOk]

theorem execCopyComplete_memOk {op : Nat} (hs : s.memOk) (e : execCopyComplete op s = .next s') : s'.memOk := by
  unfold execCopyComplete at e
  grind [State.performCopy_memOk]

theorem State.closeCtx_memOk {team ctx : Nat} (hs : s.memOk) : (s.closeCtx team ctx).memOk := by
  unfold State.closeCtx
  grind [State.closeAll_memOk]

theorem execMatrixEntryAdmit_memOk {core : Nat} (hs : s.memOk) (e : execMatrixEntryAdmit core s = .next s') : s'.memOk := by
  unfold execMatrixEntryAdmit at e
  grind [State.memOk_iff]

theorem execMatrixGrant_memOk {copse : Nat} (hs : s.memOk) (e : execMatrixGrant copse s = .next s') : s'.memOk := by
  unfold execMatrixGrant at e
  grind [State.memOk_iff, State.takeFresh_memOk]

theorem execMatrixComplete_memOk {copse entry : Nat} (hs : s.memOk) (e : execMatrixComplete copse entry s = .next s') :
    s'.memOk := by
  unfold execMatrixComplete at e
  grind [State.memOk_iff, State.matDeps_memOk, State.updThread_memOk, State.takeFresh_memOk, State.foldl_memOk]

theorem execStfr_memOk {x : FragArg} (hs : s.memOk) (e : execStfr x s = .next s') : s'.memOk := by
  unfold execStfr at e
  grind [State.runLanes_memOk, State.stepTraps_memOk, State.nameStores_memOk]

theorem execFragmentAccessComplete_memOk {op : Nat} (hs : s.memOk) (e : execFragmentAccessComplete op s = .next s') : s'.memOk := by
  unfold execFragmentAccessComplete at e
  grind [State.somePieces_memOk, State.fragPieces_memOk, State.updOp_memOk, State.endFrag_memOk]

theorem execLoadComplete_memOk {op : Nat} (hs : s.memOk) (e : execLoadComplete op s = .next s') : s'.memOk := by
  unfold execLoadComplete at e
  grind [State.performLoad_memOk]

theorem execStorePerformed_memOk {op : Nat} (hs : s.memOk) (e : execStorePerformed op s = .next s') : s'.memOk := by
  unfold execStorePerformed at e
  grind [State.performStore_memOk, State.performAtom_memOk, State.performLine_memOk, State.performBar_memOk]

theorem execAtomicPerformed_memOk {op : Nat} (hs : s.memOk) (e : execAtomicPerformed op s = .next s') : s'.memOk := by
  unfold execAtomicPerformed at e
  grind [State.performAtom_memOk]

theorem execAtomicopCompletion_memOk {op : Nat} {ok : Bool} (hs : s.memOk) (e : execAtomicopCompletion op ok s = .next s') :
    s'.memOk := by
  unfold execAtomicopCompletion at e
  grind [State.doAtom_memOk, State.updOp_memOk, State.deferOp_memOk]

theorem execCxlCacheOwnership_memOk {op : Nat} {granted : Bool} (hs : s.memOk) (e : execCxlCacheOwnership op granted s = .next s') :
    s'.memOk := by
  unfold execCxlCacheOwnership at e
  grind [State.memOk_iff, State.deferOp_memOk, State.doAtom_memOk]

theorem execCxlSnoop_memOk {ld line : Nat} (hs : s.memOk) (e : execCxlSnoop ld line s = .next s') : s'.memOk := by
  unfold execCxlSnoop at e
  grind [State.memOk_iff]

theorem execUioTimeout_memOk {op : Nat} (hs : s.memOk) (e : execUioTimeout op s = .next s') : s'.memOk := by
  unfold execUioTimeout at e
  simp only [] at e
  split at e <;> grind [State.deferOp_memOk, State.poisonFill_memOk, State.failCopy_memOk, State.endFrag_memOk]

theorem execSets_memOk {x : SetsArg} (hs : s.memOk) (e : execSets x s = .next s') : s'.memOk := by
  cases e
  apply_rules [State.issue_memOk, hs]

theorem State.timeRead_memOk (hs : s.memOk) : (s.timeRead).memOk := hs

theorem execLd_memOk {x : LdArg} (hs : s.memOk) (e : execLd x s = .next s') : s'.memOk := State.issueMem_memOk hs e

theorem execSt_memOk {x : StArg} (hs : s.memOk) (e : execSt x s = .next s') : s'.memOk := State.issueMem_memOk hs e

theorem execLda_memOk {x : LdaArg} (hs : s.memOk) (e : execLda x s = .next s') : s'.memOk := State.issueMem_memOk hs e

theorem execStl_memOk {x : StlArg} (hs : s.memOk) (e : execStl x s = .next s') : s'.memOk := State.issueMem_memOk hs e

theorem execAtom_memOk {x : AtomArg} (hs : s.memOk) (e : execAtom x s = .next s') : s'.memOk := State.issueMem_memOk hs e

theorem execRed_memOk {x : RedArg} (hs : s.memOk) (e : execRed x s = .next s') : s'.memOk := State.issueMem_memOk hs e

theorem execDisc_memOk {x : LineArg} (hs : s.memOk) (e : execDisc x s = .next s') : s'.memOk := State.issueMem_memOk hs e

theorem execClean_memOk {x : LineArg} (hs : s.memOk) (e : execClean x s = .next s') : s'.memOk := State.issueMem_memOk hs e

theorem execBari_memOk {x : BarArg} (hs : s.memOk) (e : execBari x s = .next s') : s'.memOk := State.issueMem_memOk hs e

theorem execBara_memOk {x : BaraArg} (hs : s.memOk) (e : execBara x s = .next s') : s'.memOk := State.issueMem_memOk hs e

theorem execBarx_memOk {x : BarArg} (hs : s.memOk) (e : execBarx x s = .next s') : s'.memOk := State.issueMem_memOk hs e

theorem execBarw_memOk {x : BarArg} (hs : s.memOk) (e : execBarw x s = .next s') : s'.memOk := State.issueMem_memOk hs e

theorem execWaitany_memOk {x : TagArg} (hs : s.memOk) (e : execWaitany x s = .next s') : s'.memOk := State.issue_memOk hs e

theorem execWaitall_memOk {x : TagArg} (hs : s.memOk) (e : execWaitall x s = .next s') : s'.memOk := State.issue_memOk hs e

theorem execCpy_memOk {x : CpyArg} (hs : s.memOk) (e : execCpy x s = .next s') : s'.memOk := State.issueCopy_memOk hs e

theorem execCpyt_memOk {x : CpydArg} (hs : s.memOk) (e : execCpyt x s = .next s') : s'.memOk := State.issueCopy_memOk hs e

theorem execCpyg_memOk {x : CpydArg} (hs : s.memOk) (e : execCpyg x s = .next s') : s'.memOk := State.issueCopy_memOk hs e

theorem execMma_memOk {x : MmaArg} (hs : s.memOk) (e : execMma x s = .next s') : s'.memOk := State.issueQuarter_memOk hs e

theorem execMmas_memOk {x : MmasArg} (hs : s.memOk) (e : execMmas x s = .next s') : s'.memOk := State.issueQuarter_memOk hs e

theorem execMtrn_memOk {x : MtrnArg} (hs : s.memOk) (e : execMtrn x s = .next s') : s'.memOk := State.issueQuarter_memOk hs e

theorem execMzero_memOk {x : MzeroArg} (hs : s.memOk) (e : execMzero x s = .next s') : s'.memOk := State.issue_memOk hs e

theorem execMfence_memOk {x : GOnly} (hs : s.memOk) (e : execMfence x s = .next s') : s'.memOk := State.issue_memOk hs e

theorem execMcvt_memOk {x : McvtArg} (hs : s.memOk) (e : execMcvt x s = .next s') : s'.memOk := State.issue_memOk hs e

theorem execLdfr_memOk {x : FragArg} (hs : s.memOk) (e : execLdfr x s = .next s') : s'.memOk := State.issue_memOk hs e

theorem execGets_memOk {x : GetsArg} (hs : s.memOk) (e : execGets x s = .next s') : s'.memOk := State.issue_memOk hs e

end Sys2Proof.Machine

end

section
/-!
Every memory stays in its canonical form: placement, teams, control, grids, queues, automata and tables.
-/

namespace Sys2Proof.Machine

variable {s s' : State}

theorem State.unitAccess_memOk {who : Asker} {part va n : Nat} {wr : Option (List Byte)} {counted : Bool}
    (hs : s.memOk) : (s.unitAccess who part va n wr counted).1.memOk := by
  unfold State.unitAccess
  grind [State.memOk_iff, State.translate_memOk, State.askHost_memOk, State.usedAnswer_memOk, State.devWrite_memOk,
    State.devRead_memOk, Memory.wf_writeN]

theorem State.reportQueue_memOk {j engine : Nat} {code : BitVec 8} {va : Nat} (hs : s.memOk) :
    (s.reportQueue j engine code va).1.memOk :=
    by
  unfold State.reportQueue
  grind [State.report_memOk]

theorem State.ringAccess_memOk {j : Nat} {q : Queue} {i : Nat} {wr : Option EvRec} (hs : s.memOk) :
    (s.ringAccess j q i wr).1.memOk := State.unitAccess_memOk hs

theorem State.leaveQ_memOk {j : Nat} (hs : s.memOk) : (s.leaveQ j).memOk := by
  unfold State.leaveQ
  grind [State.updQueue_memOk]

theorem State.reportSlot_memOk {part a engine : Nat} {code : BitVec 8} {wr : Bool} {va : Nat} (hs : s.memOk) :
    (s.reportSlot part a engine code wr va).1.memOk := State.report_memOk hs

theorem State.moveOn_memOk {a t i : Nat} {c : Cand} (hs : s.memOk) : (s.moveOn a t i c).1.memOk := by
  unfold State.moveOn
  grind [State.updSlot_memOk]

theorem State.slotAccess_memOk {a va n : Nat} {wr : Option (List Byte)} {engine : Nat} (hs : s.memOk) :
    (s.slotAccess a va n wr engine).1.memOk := by
  unfold State.slotAccess
  grind [State.unitAccess_memOk, State.reportSlot_memOk]

theorem State.refillQ_memOk {j a : Nat} (hs : s.memOk) : (s.refillQ j a).memOk := by
  fun_induction State.refillQ s j a <;> grind [! . State.ringAccess_memOk, State.updQueue_memOk, ! . State.reportQueue_memOk]

theorem State.spillRec_memOk {j : Nat} {r : EvRec} {src : Nat} (hs : s.memOk) : (s.spillRec j r src).1.memOk := by
  unfold State.spillRec
  grind [State.memOk_iff, State.ringAccess_memOk, State.updQueue_memOk, State.reportQueue_memOk]

theorem State.askLaunch_memOk {a : Nat} {handle : BitVec 32} {args : List Byte} (hs : s.memOk) :
    (s.askLaunch a handle args).memOk := by
  unfold State.askLaunch
  grind [State.memOk_iff, State.updPart_memOk]

theorem State.settleQ_memOk {j a : Nat} (hs : s.memOk) : (s.settleQ j a).memOk := by
  fun_induction State.settleQ s j a <;> grind [State.leaveQ_memOk, State.refillQ_memOk]

theorem State.placeRec_memOk {j : Nat} {r : EvRec} {src : Nat} (hs : s.memOk) : (s.placeRec j r src).1.memOk := by
  unfold State.placeRec
  grind [State.memOk_iff, State.updQueue_memOk, State.spillRec_memOk]

theorem State.tableEntry_memOk {slot off : Nat} (hs : s.memOk) : (s.tableEntry slot off).1.memOk := by
  unfold State.tableEntry
  simp only []
  split <;> grind [! . State.readPieces_memOk, State.takeFresh_memOk]

theorem State.accepted_memOk {a seq : Nat} (hs : s.memOk) : (s.accepted a seq).memOk := hs

theorem State.stepTrapsHome_memOk {pc : DWord} {slots : List Nat} (hs : s.memOk) : (s.stepTrapsHome pc slots).memOk := by
  unfold State.stepTrapsHome
  grind [State.stepTrapsOn_memOk, State.foldl_memOk]

theorem State.faultHome_memOk {code : BitVec 8} {va : Nat} {slots : List Nat} (hs : s.memOk) :
    (s.faultHome code va slots).memOk := by
  unfold State.faultHome
  grind [State.updThread_memOk, State.fault_memOk, State.foldl_memOk]

theorem State.refillAll_memOk {j : Nat} (hs : s.memOk) : (s.refillAll j).memOk := by
  unfold State.refillAll
  grind [State.updQueue_memOk, State.settleQ_memOk]

theorem State.unspawn_memOk {slots : List Nat} (hs : s.memOk) : (s.unspawn slots).memOk := by
  unfold State.unspawn
  grind [State.updThread_memOk, State.foldl_memOk]

theorem State.tableEntries_memOk {slot base : Nat} {a : List Nat} (hs : s.memOk) : (s.tableEntries slot base a).1.memOk := by
  fun_induction State.tableEntries s slot base a <;> grind [! . State.tableEntry_memOk]

theorem State.updCtx_memOk {team ctx : Nat} {f : CtxEnt → CtxEnt} (hs : s.memOk) : (s.updCtx team ctx f).memOk := hs

theorem State.bindBoughs_memOk {c grid first n : Nat} (hs : s.memOk) : (s.bindBoughs c grid first n).memOk := by
  unfold State.bindBoughs
  grind [State.updCore_memOk]

theorem State.offerRec_memOk {j : Nat} {r : EvRec} {src : Nat} (hs : s.memOk) : (s.offerRec j r src).1.memOk := by
  unfold State.offerRec
  grind [State.placeRec_memOk, State.refillAll_memOk, State.updQueue_memOk]

theorem State.releaseColl_memOk {team ctx : Nat} {r : Coll} {f : Arr → Thread → Thread} (hs : s.memOk) :
    (s.releaseColl team ctx r f).memOk := by
  unfold State.releaseColl
  grind [State.updCtx_memOk, State.updThread_memOk, State.stepTrapsHome_memOk, State.foldl_memOk]

theorem State.dissolve_memOk {m : Team} (hs : s.memOk) : (s.dissolve m).memOk := by
  unfold State.dissolve
  grind [State.leaveRegroup_memOk, State.unspawn_memOk, State.foldl_memOk]

theorem State.callFault_memOk {team ctx : Nat} {con : List Arr} {code : BitVec 8} {va : Nat} (hs : s.memOk) :
    (s.callFault team ctx con code va).memOk := by
  unfold State.callFault
  grind [State.updCtx_memOk, State.faultHome_memOk]

theorem State.phase_memOk {a t : Nat} {ev : Option EvRec} {d : Doing} (hs : s.memOk) : (s.phase a t ev d).1.memOk := by
  unfold State.phase
  simp only []
  split <;> grind [! . State.moveOn_memOk, ! . State.slotAccess_memOk, State.updSlot_memOk, State.accepted_memOk,
    State.askLaunch_memOk, ! . State.reportSlot_memOk, ! . State.offerRec_memOk, State.updQueue_memOk]

theorem State.split_memOk {team ctx : Nat} {c : CtxEnt} {r : Coll} {tag : BitVec 8} {subs : List (Nat × Nat × DWord × List Nat)}
    (hs : s.memOk) : (s.split team ctx c r tag subs).memOk := by
  unfold State.split
  grind [State.closeCtx_memOk, State.updCtx_memOk, State.updTeam_memOk, State.updThread_memOk, State.stepTrapsHome_memOk,
    State.foldl_memOk]

theorem State.callEntries_memOk {r : Coll} {a : Arr} {called : List Nat} (hs : s.memOk) : (s.callEntries r a called).1.memOk := by
  unfold State.callEntries
  grind [State.tableEntries_memOk]

theorem State.waitCall_memOk {team ctx : Nat} {pcs : Option (List DWord)} (hs : s.memOk) : (s.waitCall team ctx pcs).memOk := hs

theorem State.phases_memOk {a t : Nat} {ev : Option EvRec} {a4 : Nat} {a5 : Doing} (hs : s.memOk) :
    (s.phases a t ev a4 a5).1.memOk := by
  fun_induction State.phases s a t ev a4 a5 <;> grind [! . State.phase_memOk]

theorem State.applyTr_memOk {a t : Nat} {ev : Option EvRec} {d : Doing} (hs : s.memOk) : (s.applyTr a t ev d).1.memOk :=
  State.phases_memOk hs

theorem State.completeMigr_memOk {team ctx : Nat} {m : Team} {r : Coll} (hs : s.memOk) : (s.completeMigr team ctx m r).memOk := by
  unfold State.completeMigr
  grind [State.releaseColl_memOk, State.faultHome_memOk, State.dissolve_memOk, State.bindBoughs_memOk, State.updTeam_memOk]

theorem State.create_memOk {a t : Nat} {key : Word} (hs : s.memOk) : (s.create a t key).1.memOk := by
  unfold State.create
  grind [State.updSlot_memOk, State.reportSlot_memOk]

theorem State.completeCall_memOk {team ctx : Nat} {m : Team} {c : CtxEnt} {r : Coll} {byWeight : Bool} {cnt : Nat} {tag : BitVec 8}
    (hs : s.memOk) : (s.completeCall team ctx m c r byWeight cnt tag).memOk := by
  unfold State.completeCall
  grind [State.callFault_memOk, State.releaseColl_memOk, State.closeCtx_memOk, State.callEntries_memOk, State.usedAnswer_memOk,
    State.waitCall_memOk, State.askHost_memOk, State.split_memOk]

theorem State.meetEvent_memOk {a t : Nat} {e : EvRec} {seq : Nat} (hs : s.memOk) : (s.meetEvent a t e seq).1.memOk := by
  unfold State.meetEvent
  simp only []
  split <;> grind [! . State.slotAccess_memOk, State.updSlot_memOk, ! . State.applyTr_memOk]

theorem State.settleStreams_memOk {sids : List Nat} (hs : s.memOk) : (s.settleStreams sids).memOk := by
  unfold State.settleStreams
  grind [State.refillAll_memOk, State.foldl_memOk]

theorem State.initial_memOk {a t : Nat} {e : EvRec} (hs : s.memOk) : (s.initial a t e).1.memOk := by
  unfold State.initial
  grind [State.create_memOk, State.applyTr_memOk]

theorem State.completeColl_memOk {team ctx : Nat} {m : Team} {c : CtxEnt} {r : Coll} (hs : s.memOk) :
    (s.completeColl team ctx m c r).memOk := by
  unfold State.completeColl
  grind [State.releaseColl_memOk, State.closeCtx_memOk, State.updTeam_memOk, State.completeMigr_memOk, State.completeCall_memOk]

theorem State.meetAll_memOk {a t : Nat} {e : EvRec} {a4 : List Nat} (hs : s.memOk) : (s.meetAll a t e a4).1.memOk := by
  fun_induction State.meetAll s a t e a4 <;> grind [! . State.meetEvent_memOk]

theorem State.halt_memOk {a : Nat} {h : Halt} {it : HeldItem} (hs : s.memOk) : (s.halt a h it).memOk := by
  unfold State.halt
  grind [State.updSlot_memOk, State.settleStreams_memOk]

theorem State.itemDone_memOk {a : Nat} {it : Item} (hs : s.memOk) : (s.itemDone a it).memOk := by
  unfold State.itemDone
  grind [State.refillAll_memOk, State.updSlot_memOk]

theorem State.readPattern_memOk {part a va a4 : Nat} {a5 : List Byte} (hs : s.memOk) : (s.readPattern part a va a4 a5).1.memOk := by
  fun_induction State.readPattern s part a va a4 a5 <;> grind [! . State.unitAccess_memOk, ! . State.reportSlot_memOk]

theorem State.tryColl_memOk {team ctx : Nat} (hs : s.memOk) : (s.tryColl team ctx).memOk := by
  unfold State.tryColl
  grind [State.completeColl_memOk]

theorem State.tryRejoin_memOk {team ctx : Nat} (hs : s.memOk) : (s.tryRejoin team ctx).memOk := by
  unfold State.tryRejoin
  grind [State.updThread_memOk, State.updTeam_memOk, State.foldl_memOk]

theorem State.runItem_memOk {a : Nat} {it : HeldItem} (hs : s.memOk) : (s.runItem a it).memOk := by
  unfold State.runItem
  grind [State.applyTr_memOk, State.halt_memOk, State.itemDone_memOk, State.meetAll_memOk, State.initial_memOk]

theorem State.mload_memOk {part a va : Nat} (hs : s.memOk) : (s.mload part a va).1.memOk := by
  unfold State.mload
  grind [State.readPattern_memOk, State.updSlot_memOk]

theorem State.joinColl_memOk {word pc : DWord} {a : Arr} (hs : s.memOk) : (s.joinColl word pc a).memOk := by
  unfold State.joinColl
  grind [State.leaveRegroup_memOk, State.updCtx_memOk]

theorem State.spawn_memOk {pc : DWord} {slots : List Nat} (hs : s.memOk) : (s.spawn pc slots).memOk := by
  unfold State.spawn
  grind [State.updCore_memOk, State.updThread_memOk, State.foldl_memOk]

theorem State.tickOnce_memOk {ns : Nat} (hs : s.memOk) : (s.tickOnce ns).memOk := by
  unfold State.tickOnce
  grind [State.memOk_iff, State.updGrove_memOk, State.foldl_memOk]

theorem State.unbindBoughs_memOk {c : Nat} (hs : s.memOk) : (s.unbindBoughs c).memOk := by
  unfold State.unbindBoughs
  grind [State.updCore_memOk]

theorem State.settleTeam_memOk {team : Nat} (hs : s.memOk) : (s.settleTeam team).memOk := by
  unfold State.settleTeam
  grind [State.closeFull_memOk, State.tryColl_memOk, State.tryRejoin_memOk, State.foldl_memOk]

theorem State.schedule_memOk {part : Nat} (hs : s.memOk) : (s.schedule part).memOk := by
  unfold State.schedule
  grind [State.updPart_memOk]

theorem State.emitTaken_memOk {a : Nat} (hs : s.memOk) : (s.emitTaken a).memOk := by
  unfold State.emitTaken
  grind [State.runItem_memOk, State.updSlot_memOk, State.accepted_memOk]

theorem State.finishUnit_memOk {o : Op} {r : UnitDone} (hs : s.memOk) : (s.finishUnit o r).memOk := by
  unfold State.finishUnit
  grind [State.finishOp_memOk, State.deferOp_memOk, State.holdOp_memOk]

theorem State.mloadFor_memOk {part a va : Nat} (hs : s.memOk) : (s.mloadFor part a va).1.memOk := by
  unfold State.mloadFor
  grind [State.mload_memOk]

theorem State.writeShadow_memOk {part seg : Nat} {img : TeamImg} (hs : s.memOk) : (s.writeShadow part seg img).memOk := by
  unfold State.writeShadow
  grind [State.poke_memOk, State.foldl_memOk]

theorem State.setMode_memOk {g : Nat} {fused : Bool} (hs : s.memOk) : (s.setMode g fused).memOk := by
  unfold State.setMode
  grind [State.memOk_iff, State.updGrove_memOk]

theorem State.arriveColl_memOk {i : Instr} (hs : s.memOk) : (s.arriveColl i).1.memOk := by
  unfold State.arriveColl
  grind [State.runLanes_memOk, State.joinColl_memOk, State.foldl_memOk]

theorem State.respawn_memOk {took off : List Nat} (hs : s.memOk) : (s.respawn took off).memOk := by
  unfold State.respawn
  grind [State.spawn_memOk, State.foldl_memOk]

theorem State.tickN_memOk {ns a : Nat} (hs : s.memOk) : (s.tickN ns a).memOk := by
  fun_induction State.tickN s ns a <;> grind [State.tickOnce_memOk]

theorem State.holdCode_memOk {c : ILine} (hs : s.memOk) : (s.holdCode c).memOk := hs

theorem State.clearStarveOf_memOk {on : Nat → Nat → Bool} (hs : s.memOk) : (s.clearStarveOf on).memOk := by
  unfold State.clearStarveOf
  grind [State.memOk_iff]

theorem State.offerHost_memOk {j : Nat} {r : EvRec} (hs : s.memOk) (e : s.offerHost j r = some s') : s'.memOk := by
  unfold State.offerHost at e
  grind [State.placeRec_memOk, State.reportQueue_memOk, State.updQueue_memOk, State.refillAll_memOk]

theorem State.dropQueue_memOk {j : Nat} (hs : s.memOk) : (s.dropQueue j).memOk := by
  unfold State.dropQueue
  grind [State.updQueue_memOk, State.deferOp_memOk, State.updSlot_memOk, State.halt_memOk, State.reportSlot_memOk,
    State.foldl_memOk]

theorem State.followUnit_memOk {j : Nat} (hs : s.memOk) : (s.followUnit j).memOk := by
  unfold State.followUnit
  grind [State.updSlot_memOk, State.foldl_memOk]

theorem State.handOver_memOk {j : Nat} (hs : s.memOk) : (s.handOver j).memOk := by
  unfold State.handOver
  grind [State.refillAll_memOk]

theorem State.slEnd_memOk {part : Nat} {r : UnitDone} (hs : s.memOk) : (s.slEnd part r).memOk := hs

theorem State.departed_memOk {slots : List Nat} (hs : s.memOk) : (s.departed slots).memOk := by
  unfold State.departed
  grind [State.leaveRegroup_memOk, State.settleTeam_memOk, State.foldl_memOk]

theorem State.fetchBytes_memOk {slot team : Nat} {pc : DWord} (hs : s.memOk) : (s.fetchBytes slot team pc).1.memOk := by
  unfold State.fetchBytes
  grind [State.translate_memOk, State.pick_memOk, State.holdCode_memOk, State.touch_memOk, State.heatReq_memOk]

theorem State.createGrid_memOk {r : GReq} {lrec : List Byte} {ctx : BitVec 16} {gid : BitVec 32} (hs : s.memOk) :
    (s.createGrid r lrec ctx gid).memOk := by
  unfold State.createGrid
  grind [State.memOk_iff, State.updPart_memOk, State.updGrid_memOk]

theorem State.launched_memOk {slot : Nat} {d : Dst} {gid : BitVec 32} (hs : s.memOk) : (s.launched slot d gid).memOk := by
  unfold State.launched
  grind [State.updThread_memOk, State.stepTrapsHome_memOk]

theorem State.vacateTeam_memOk {id : Nat} {m : Team} (hs : s.memOk) : (s.vacateTeam id m).memOk := by
  unfold State.vacateTeam
  grind [State.memOk_iff, State.freeThread_memOk, State.dropAskers_memOk, State.updCore_memOk, State.unbindBoughs_memOk,
    State.foldl_memOk]

theorem State.resolveQueue_memOk {j : Nat} {code : Option (BitVec 8)} (hs : s.memOk) : (s.resolveQueue j code).memOk := by
  unfold State.resolveQueue
  grind [State.updQueue_memOk, State.ringAccess_memOk, State.reportQueue_memOk, State.refillAll_memOk]

theorem State.takeItem_memOk {a : Nat} {i : Item} (hs : s.memOk) : (s.takeItem a i).memOk := by
  unfold State.takeItem
  grind [State.updSlot_memOk, State.timeRead_memOk, State.runItem_memOk]

theorem State.resume?_memOk {a : Nat} {event : Bool} (hs : s.memOk) (e : s.resume? a event = some s') : s'.memOk := by
  unfold State.resume? at e
  grind [State.runItem_memOk]

theorem State.admitStalled_memOk {j : Nat} (hs : s.memOk) : (s.admitStalled j).memOk := by
  unfold State.admitStalled
  grind [State.updQueue_memOk, State.placeRec_memOk, State.refillAll_memOk, State.finishOp_memOk, State.halt_memOk,
    State.reportSlot_memOk, State.emitTaken_memOk]

theorem State.marm_memOk {a : Nat} (hs : s.memOk) : (s.marm a).1.memOk := by
  unfold State.marm
  grind [State.updSlot_memOk]

theorem State.mdis_memOk {a : Nat} (hs : s.memOk) : (s.mdis a).memOk := by
  unfold State.mdis
  grind [State.updQueue_memOk, State.updPart_memOk, State.settleStreams_memOk, State.updSlot_memOk]

theorem State.atUnit_memOk {op : Nat} {ordered : Bool} {f : Op → State × UnitDone} (hf : ∀ o, (f o).1.memOk) (hs : s.memOk)
    (e : s.atUnit op ordered f = .next s') : s'.memOk := by
  unfold State.atUnit at e
  grind [State.finishUnit_memOk]

theorem State.slcmd_memOk {part op a : Nat} {f : State → State × UnitDone} (hf : ∀ t, t.memOk → (f t).1.memOk) (hs : s.memOk) :
    (s.slcmd part op a f).memOk := by
  unfold State.slcmd
  grind [State.updPart_memOk, State.slEnd_memOk]

theorem State.slAgain_memOk {part : Nat} (hs : s.memOk) : (s.slAgain part).memOk := by
  unfold State.slAgain
  apply_rules [State.mloadFor_memOk, State.slEnd_memOk, hs]

theorem State.unbindHandle_memOk {part : Nat} {h : BitVec 32} (hs : s.memOk) : (s.unbindHandle part h).1.memOk := by
  unfold State.unbindHandle
  grind [State.updPart_memOk]

theorem State.writeQuantum_memOk {part k : Nat} {v : DWord} (hs : s.memOk) : (s.writeQuantum part k v).memOk := by
  unfold State.writeQuantum
  apply_rules [State.schedule_memOk, State.updPart_memOk, hs]

theorem State.clearScr_memOk {s : State} {core : Nat} {off : Nat} {len : Nat} (hs : s.memOk) : (s.clearScr core off len).memOk := by
  rw [State.memOk_iff] at *
  exact ⟨hs.1, SMap.wf_filter _ _ _ hs.2.1, hs.2.2⟩

theorem State.placeTeam_memOk {s : State} {grid : Nat} {g : Grid} {x : Room} {seg : Option Nat} (hs : s.memOk) :
    (s.placeTeam grid g x seg).memOk := by
  unfold State.placeTeam
  extract_lets r need id s1 tags m0 m off s2 s3 s4 s5 s6 s7 s8 s9
  have h2 : s2.memOk := State.clearScr_memOk (State.setMode_memOk hs)
  have h3 : s3.memOk := by
    unfold s3
    split
    · exact State.memOk_writeScr h2 _ _
    · exact h2
  have h4 : s4.memOk := State.memOk_foldl h3 (fun _ _ => State.setThread_memOk)
  have h6 : (s5.bindBoughs x.core grid x.first need.n).memOk := State.bindBoughs_memOk (State.memOk_of_eq h4 rfl rfl rfl)
  have h9 : s9.memOk := State.memOk_of_eq h6 rfl rfl rfl
  split
  · exact h9
  · exact State.writeShadow_memOk (State.memOk_of_eq h9 rfl rfl rfl)

theorem State.issueColl_memOk {i : Instr} (hs : s.memOk) (e : s.issueColl i = .next s') : s'.memOk := by
  unfold State.issueColl at e
  grind [State.arriveColl_memOk, State.settleTeam_memOk, State.foldl_memOk]

theorem State.issueBranch_memOk {i : Instr} {gd : Thread → Bool} {f : Lane → LaneRes} (hs : s.memOk)
    (e : s.issueBranch i gd f = .next s') : s'.memOk := by
  unfold State.issueBranch at e
  grind [State.runLanes_memOk, State.respawn_memOk, State.stepTraps_memOk]

theorem State.tick_memOk {ns : Nat} (hs : s.memOk) : (s.tick ns).memOk := State.tickN_memOk hs

theorem State.clearStarve_memOk (hs : s.memOk) : (s.clearStarve).memOk := State.clearStarveOf_memOk hs

theorem State.placeFirst_memOk {s : State} {part : Nat} {before : List (Nat × Grid)} {l : List (Nat × Grid)} (hs : s.memOk)
    {s' : State} (e : s.placeFirst part before l = some s') : s'.memOk := by
  induction l generalizing before s with
  | nil => cases e
  | cons kg l ih =>
    unfold State.placeFirst at e
    have hu {f} : (s.updPart part f).memOk := State.updPart_memOk hs
    dsimp only at e
    split at e
    · exact ih hs e
    · split at e
      · cases e; exact State.placeTeam_memOk hs
      · split at e
        · cases e; exact State.placeTeam_memOk hs
        · split at e
          · cases e; exact State.placeTeam_memOk hu
          · rcases Option.or_eq_some_iff.mp e with h | ⟨-, h⟩
            · exact ih hu h
            · cases h; exact hu

theorem State.rearm_memOk {slot : Nat} (hs : s.memOk) : (s.rearm slot).memOk := by
  unfold State.rearm
  grind [State.barReturn_memOk]

theorem State.takePermits_memOk {core : Nat} {f : Nat → Nat} {l : List ParkRec} (hs : s.memOk) :
    (s.takePermits core f l).memOk := by
  unfold State.takePermits
  grind [State.updCore_memOk, State.foldl_memOk]

theorem State.hostRec_memOk {s : State} {j : Nat} {r : EvRec} (hs : s.memOk) : (s.hostRec j r).memOk := by
  unfold State.hostRec
  split
  · exact State.memOk_getD (State.updQueue_memOk hs) (fun t => State.offerHost_memOk hs)
  · exact State.updQueue_memOk hs

theorem State.retryHeld_memOk {s : State} {j : Nat} (hs : s.memOk) : (s.retryHeld j).memOk := by
  unfold State.retryHeld
  split
  · exact State.memOk_getD hs (fun t => State.offerHost_memOk (State.updQueue_memOk hs))
  · exact State.refillAll_memOk hs

theorem State.writeQueue_memOk {j : Nat} {f : Queue → Queue} (hs : s.memOk) (e : s.writeQueue j f = some s') : s'.memOk := by
  unfold State.writeQueue at e
  grind [State.updQueue_memOk, State.dropQueue_memOk, State.handOver_memOk, State.followUnit_memOk]

theorem State.bindRecord_memOk {part : Nat} {r : List Byte} {ctx : BitVec 16} {i : Nat} (hs : s.memOk) {p}
    (e : s.bindRecord part r ctx i = some p) : p.1.memOk := by
  unfold State.bindRecord at e
  grind [State.updPart_memOk]

theorem execTret_memOk {x : GOnly} (hs : s.memOk) (e : execTret x s = .next s') : s'.memOk := by
  unfold execTret at e
  grind [State.runLanes_memOk, State.stepTraps_memOk, State.departed_memOk]

theorem execExit_memOk {x : GOnly} (hs : s.memOk) (e : execExit x s = .next s') : s'.memOk := by
  unfold execExit at e
  grind [State.runLanes_memOk, State.stepTraps_memOk, State.departed_memOk]

theorem execTcallEntryGrant_memOk {team ctx : Nat} (hs : s.memOk) (e : execTcallEntryGrant team ctx s = .next s') : s'.memOk := by
  unfold execTcallEntryGrant at e
  grind [State.completeColl_memOk]

theorem execRegroupReadmit_memOk {core rec' : Nat} (hs : s.memOk) (e : execRegroupReadmit core rec' s = .next s') : s'.memOk := by
  unfold execRegroupReadmit at e
  grind [State.updCore_memOk, State.unspawn_memOk]

theorem execRejoin_memOk {x : GOnly} (hs : s.memOk) (e : execRejoin x s = .next s') : s'.memOk := by
  unfold execRejoin at e
  grind [State.runLanes_memOk, State.leaveRegroup_memOk, State.updThread_memOk, State.stepTraps_memOk, State.foldl_memOk]

theorem execRejoinHoldTimeout_memOk {slot : Nat} (hs : s.memOk) (e : execRejoinHoldTimeout slot s = .next s') : s'.memOk := by
  unfold execRejoinHoldTimeout at e
  grind [State.updThread_memOk]

theorem execYieldBackoffEnd_memOk {slot : Nat} (hs : s.memOk) (e : execYieldBackoffEnd slot s = .next s') : s'.memOk := by
  unfold execYieldBackoffEnd at e
  grind [State.updThread_memOk]

theorem execPollBackoffEnd_memOk {slot : Nat} (hs : s.memOk) (e : execPollBackoffEnd slot s = .next s') : s'.memOk := by
  unfold execPollBackoffEnd at e
  grind [State.updThread_memOk]

theorem execPermitRetry_memOk {slot : Nat} (hs : s.memOk) (e : execPermitRetry slot s = .next s') : s'.memOk := by
  unfold execPermitRetry at e
  grind [State.updThread_memOk, State.stepTrapsOn_memOk, State.foldl_memOk]

theorem State.fetch_memOk {slot : Nat} {t : Thread} (hs : s.memOk) : (s.fetch slot t).1.memOk := by
  unfold State.fetch
  grind [State.fetchBytes_memOk]

theorem State.noteHolds_memOk (hs : s.memOk) : (s.noteHolds).memOk := by
  unfold State.noteHolds
  grind [State.updThread_memOk, State.foldl_memOk]

theorem State.idle_memOk {ns : Nat} (hs : s.memOk) : (s.idle ns).memOk := by
  unfold State.idle
  apply_rules [State.tick_memOk, State.clearStarve_memOk, hs]

theorem State.fetchAsk_memOk {vpn : Nat} (hs : s.memOk) : (s.fetchAsk vpn).memOk := by
  unfold State.fetchAsk
  grind [State.askHost_memOk, State.updThread_memOk, State.foldl_memOk]

theorem execGlaunch_memOk {x : TxchArg} (hs : s.memOk) (e : execGlaunch x s = .next s') : s'.memOk := by
  unfold execGlaunch at e
  grind [State.runLanes_memOk, State.stepTraps_memOk, State.endIntervals_memOk]

theorem execGridCreate_memOk {req : Nat} {gid : BitVec 32} (hs : s.memOk) (e : execGridCreate req gid s = .next s') : s'.memOk := by
  unfold execGridCreate at e
  grind [State.memOk_iff, State.schedule_memOk, State.createGrid_memOk, State.launched_memOk, State.updPart_memOk,
    State.faultHome_memOk]

theorem execTeamRetire_memOk {team : Nat} (hs : s.memOk) (e : execTeamRetire team s = .next s') : s'.memOk := by
  unfold execTeamRetire at e
  grind [State.vacateTeam_memOk, State.updPart_memOk, State.updGrid_memOk]

theorem execGridRetire_memOk {grid : Nat} (hs : s.memOk) (e : execGridRetire grid s = .next s') : s'.memOk := by
  unfold execGridRetire at e
  grind [State.memOk_iff, State.updPart_memOk, State.updGrid_memOk]

theorem execPlacerStep_memOk {part : Nat} {s : State} (hs : s.memOk) {s' : State} (e : execPlacerStep part s = .next s') :
    s'.memOk := by
  unfold execPlacerStep at e
  simp only [] at e
  split at e
  · cases e; exact hs
  · cases e
    refine State.memOk_getD ?_ (fun t => State.placeFirst_memOk ?_)
    all_goals grind [State.updPart_memOk]

theorem execEmitAccept_memOk {op : Nat} (hs : s.memOk) (e : execEmitAccept op s = .next s') : s'.memOk := by
  unfold execEmitAccept at e
  grind [State.deferOp_memOk, State.offerRec_memOk, State.finishOp_memOk, State.updQueue_memOk, State.updOp_memOk]

theorem execQrdServe_memOk {op : Nat} (hs : s.memOk) (e : execQrdServe op s = .next s') : s'.memOk := by
  unfold execQrdServe at e
  grind [State.memOk_iff, State.deferOp_memOk, State.finishOp_memOk, State.updThread_memOk, State.refillAll_memOk,
    State.updQueue_memOk, State.endIntervals_memOk]

theorem execQlenSample_memOk {op : Nat} (hs : s.memOk) (e : execQlenSample op s = .next s') : s'.memOk := by
  unfold execQlenSample at e
  grind [State.deferOp_memOk, State.finishOp_memOk, State.updThread_memOk]

theorem execHostAppend_memOk {ld stream off : Nat} {data : List Byte} (hs : s.memOk)
    (e : execHostAppend ld stream off data s = .next s') : s'.memOk := by
  unfold execHostAppend at e
  grind [State.hostRec_memOk]

theorem execRowanTakeEvent_memOk {a : Nat} (hs : s.memOk) (e : execRowanTakeEvent a s = .next s') : s'.memOk := by
  unfold execRowanTakeEvent at e
  grind [State.resume?_memOk, State.takeItem_memOk]

theorem execRowanTakeTimer_memOk {a : Nat} (hs : s.memOk) (e : execRowanTakeTimer a s = .next s') : s'.memOk := by
  unfold execRowanTakeTimer at e
  grind [State.resume?_memOk, State.takeItem_memOk]

theorem execWatermarkExpire_memOk {a : Nat} (hs : s.memOk) (e : execWatermarkExpire a s = .next s') : s'.memOk := by
  unfold execWatermarkExpire at e
  grind [State.updSlot_memOk]

theorem execRowanRoomFreed_memOk {a : Nat} (hs : s.memOk) (e : execRowanRoomFreed a s = .next s') : s'.memOk := by
  unfold execRowanRoomFreed at e
  grind [State.runItem_memOk, State.updSlot_memOk]

theorem execCandidateMove_memOk {a seq : Nat} (hs : s.memOk) (e : execCandidateMove a seq s = .next s') : s'.memOk := by
  unfold execCandidateMove at e
  grind [State.slotAccess_memOk, State.updSlot_memOk, State.halt_memOk]

theorem execStalledAppendAdmit_memOk {stream : Nat} (hs : s.memOk) (e : execStalledAppendAdmit stream s = .next s') : s'.memOk := by
  unfold execStalledAppendAdmit at e
  grind [State.resolveQueue_memOk, State.retryHeld_memOk, State.admitStalled_memOk]

theorem execRowanEmitAccepted_memOk {a : Nat} (hs : s.memOk) (e : execRowanEmitAccepted a s = .next s') : s'.memOk := by
  unfold execRowanEmitAccepted at e
  grind [State.admitStalled_memOk, State.halt_memOk, State.reportSlot_memOk]

theorem execMloadAtUnit_memOk {op : Nat} (hs : s.memOk) (e : execMloadAtUnit op s = .next s') : s'.memOk := by
  unfold execMloadAtUnit at e
  grind [State.atUnit_memOk, State.mload_memOk]

theorem execMarmAtUnit_memOk {op : Nat} (hs : s.memOk) (e : execMarmAtUnit op s = .next s') : s'.memOk := by
  unfold execMarmAtUnit at e
  grind [State.atUnit_memOk, State.marm_memOk]

theorem execMdisAtUnit_memOk {op : Nat} (hs : s.memOk) (e : execMdisAtUnit op s = .next s') : s'.memOk := by
  unfold execMdisAtUnit at e
  grind [State.atUnit_memOk, State.mdis_memOk]

theorem execMstatSample_memOk {op : Nat} (hs : s.memOk) (e : execMstatSample op s = .next s') : s'.memOk := by
  unfold execMstatSample at e
  grind [State.atUnit_memOk, State.updThread_memOk]

theorem State.resolveSlot_memOk {a : Nat} {code : Option (BitVec 8)} (hs : s.memOk) : (s.resolveSlot a code).memOk := by
  unfold State.resolveSlot
  grind [State.updSlot_memOk, State.settleStreams_memOk]

theorem State.writeSlot_memOk {part a : Nat} {v : DWord} (hs : s.memOk) : (s.writeSlot part a v).memOk := by
  unfold State.writeSlot
  grind [State.updSlot_memOk, State.mdis_memOk]

theorem execSlcmdMload_memOk {part a : Nat} (hs : s.memOk) (e : execSlcmdMload part a s = .next s') : s'.memOk := by
  unfold execSlcmdMload at e
  grind [State.slAgain_memOk, State.slcmd_memOk, State.mloadFor_memOk]

theorem execSlcmdMarm_memOk {part a : Nat} (hs : s.memOk) (e : execSlcmdMarm part a s = .next s') : s'.memOk := by
  unfold execSlcmdMarm at e
  grind [State.slcmd_memOk, State.marm_memOk]

theorem execSlcmdMdis_memOk {part a : Nat} (hs : s.memOk) (e : execSlcmdMdis part a s = .next s') : s'.memOk := by
  unfold execSlcmdMdis at e
  grind [State.slcmd_memOk, State.mdis_memOk]

theorem execSlcmdMstat_memOk {part a : Nat} (hs : s.memOk) (e : execSlcmdMstat part a s = .next s') : s'.memOk := by
  unfold execSlcmdMstat at e
  grind [State.slcmd_memOk, State.updPart_memOk]

theorem State.writeLentry_memOk {part i : Nat} {v : DWord} (hs : s.memOk) : (s.writeLentry part i v).memOk := by
  unfold State.writeLentry
  grind [State.updPart_memOk, State.unbindHandle_memOk]

theorem execLbcmdUnbind_memOk {part : Nat} (hs : s.memOk) (e : execLbcmdUnbind part s = .next s') : s'.memOk := by
  cases e
  apply_rules [State.unbindHandle_memOk, State.updPart_memOk, hs]

theorem execQuantumEntryWrite_memOk {part k : Nat} {v : DWord} (hs : s.memOk) (e : execQuantumEntryWrite part k v s = .next s') :
    s'.memOk := by
  unfold execQuantumEntryWrite at e
  grind [State.writeQuantum_memOk]

theorem execQuantumExpire_memOk {part : Nat} (hs : s.memOk) (e : execQuantumExpire part s = .next s') : s'.memOk := by
  cases e
  apply_rules [State.schedule_memOk, hs]

theorem State.leavePermits_memOk {m : Team} (hs : s.memOk) : (s.leavePermits m).memOk := hs

theorem execTcall_memOk {x : TcallArg} (hs : s.memOk) (e : execTcall x s = .next s') : s'.memOk := State.issueColl_memOk hs e

theorem execTcalls_memOk {x : TcallArg} (hs : s.memOk) (e : execTcalls x s = .next s') : s'.memOk := State.issueColl_memOk hs e

theorem execTbar_memOk {x : GOnly} (hs : s.memOk) (e : execTbar x s = .next s') : s'.memOk := State.issueColl_memOk hs e

theorem execTvote_memOk {x : TvoteArg} (hs : s.memOk) (e : execTvote x s = .next s') : s'.memOk := State.issueColl_memOk hs e

theorem execTxch_memOk {x : TxchArg} (hs : s.memOk) (e : execTxch x s = .next s') : s'.memOk := State.issueColl_memOk hs e

theorem execTmigr_memOk {x : TmigrArg} (hs : s.memOk) (e : execTmigr x s = .next s') : s'.memOk := State.issueColl_memOk hs e

theorem execBra_memOk {x : BraArg} (hs : s.memOk) (e : execBra x s = .next s') : s'.memOk := State.issueBranch_memOk hs e

theorem execCall_memOk {x : BraArg} (hs : s.memOk) (e : execCall x s = .next s') : s'.memOk := State.issue_memOk hs e

theorem execBrx_memOk {x : BrxArg} (hs : s.memOk) (e : execBrx x s = .next s') : s'.memOk := State.issueBranch_memOk hs e

theorem execCallx_memOk {x : BrxArg} (hs : s.memOk) (e : execCallx x s = .next s') : s'.memOk := State.issue_memOk hs e

theorem execRet_memOk {x : GOnly} (hs : s.memOk) (e : execRet x s = .next s') : s'.memOk := State.issue_memOk hs e

theorem execPad_memOk {x : PadArg} (hs : s.memOk) (e : execPad x s = .next s') : s'.memOk := State.issue_memOk hs e

theorem execYld_memOk {x : YieldArg} (hs : s.memOk) (e : execYld x s = .next s') : s'.memOk := State.issue_memOk hs e

theorem execNop_memOk {x : GOnly} (hs : s.memOk) (e : execNop x s = .next s') : s'.memOk := State.issue_memOk hs e

theorem State.notePick_memOk {i : Issue} (hs : s.memOk) : (s.notePick i).memOk := hs

theorem State.encodingFault_memOk {code : BitVec 8} (hs : s.memOk) : (s.encodingFault code).memOk := State.fault_memOk hs

theorem State.fetchFault_memOk {code : BitVec 8} (hs : s.memOk) : (s.fetchFault code).memOk := State.fault_memOk hs

theorem execTeamMigration_memOk {team : Nat} {s : State} (hs : s.memOk) {s' : State} (e : execTeamMigration team s = .next s') :
    s'.memOk :=
    by
  unfold execTeamMigration at e
  split at e
  · cases e; exact hs
  · split at e
    · cases e; exact hs
    · extract_lets recs s1 img old f fs tags s2 s3 s4 s5 s6 s7 s8 s9 at e
      split at e
      · cases e; exact hs
      · cases e
        have h4 : s4.memOk := State.memOk_writeScr (s := s3) (State.vacateTeam_memOk (State.moveAskers_memOk (State.leavePermits_memOk (State.dissolve_memOk hs)))) _ _
        have h5 : s5.memOk := State.memOk_foldl h4 (fun _ _ => State.setThread_memOk)
        have h9 : s9.memOk := State.bindBoughs_memOk (State.takePermits_memOk (State.memOk_of_eq h5 rfl rfl rfl))
        exact State.memOk_foldl h9 (fun _ _ => State.rearm_memOk)

theorem execEmit_memOk {x : QueArg} (hs : s.memOk) (e : execEmit x s = .next s') : s'.memOk := State.issueMem_memOk hs e

theorem execQrd_memOk {x : QueArg} (hs : s.memOk) (e : execQrd x s = .next s') : s'.memOk := State.issueMem_memOk hs e

theorem execQlen_memOk {x : QlenArg} (hs : s.memOk) (e : execQlen x s = .next s') : s'.memOk := State.issueMem_memOk hs e

theorem execMload_memOk {x : MloadArg} (hs : s.memOk) (e : execMload x s = .next s') : s'.memOk := State.issueMem_memOk hs e

theorem execMarm_memOk {x : SlotArg} (hs : s.memOk) (e : execMarm x s = .next s') : s'.memOk := State.issueMem_memOk hs e

theorem execMdis_memOk {x : SlotArg} (hs : s.memOk) (e : execMdis x s = .next s') : s'.memOk := State.issueMem_memOk hs e

theorem execMstat_memOk {x : MstatArg} (hs : s.memOk) (e : execMstat x s = .next s') : s'.memOk := State.issueMem_memOk hs e

theorem execQueueTableWrite_memOk {part : Nat} {stream : Nat} {k : Nat} {v : DWord} {s : State} (hs : s.memOk) {s' : State}
    (e : execQueueTableWrite part stream k v s = .next s') : s'.memOk := by
  unfold execQueueTableWrite at e
  simp only [] at e
  split at e <;> cases e
  · exact hs
  · exact State.memOk_getD hs (fun t => State.writeQueue_memOk hs)

theorem execLbcmdBind_memOk {part : Nat} {ctx : BitVec 16} {entry : Nat} {s : State} (hs : s.memOk) {s' : State}
    (e : execLbcmdBind part ctx entry s = .next s') : s'.memOk := by
  unfold execLbcmdBind at e
  split at e
  · cases e; exact hs
  · next h => cases e; exact State.updPart_memOk (State.bindRecord_memOk hs h)

end Sys2Proof.Machine

end

section
/-!
Every memory stays in its canonical form: the window of parked threads, translation, contexts, power and the outside.
-/

namespace Sys2Proof.Machine

variable {s s' : State}

theorem State.redWrite_memOk {r : RedPart} (hs : s.memOk) : (s.redWrite r).1.memOk := by
  unfold State.redWrite
  grind [State.memOk_iff, State.report_memOk, State.takeFresh_memOk, State.translate_memOk, State.askHost_memOk,
    State.usedAnswer_memOk, State.devRead_memOk, State.devWrite_memOk, Memory.wf_writeN]

theorem State.imgAccess_memOk {a : Nat} {x : Slot} {engine va n : Nat} {wr : Option (List Byte)} (hs : s.memOk) :
    (s.imgAccess a x engine va n wr).1.memOk := by
  unfold State.imgAccess
  grind [State.unitAccess_memOk, State.reportSlot_memOk, State.updPart_memOk]

theorem State.updCan_memOk {n : Nat} {f : CanOp → CanOp} (hs : s.memOk) : (s.updCan n f).memOk := hs

theorem State.dropCan_memOk {n : Nat} (hs : s.memOk) : (s.dropCan n).memOk := hs

theorem State.unmove_memOk {id : Nat} (hs : s.memOk) : (s.unmove id).memOk := by
  unfold State.unmove
  grind [State.unbindBoughs_memOk, State.updTeam_memOk]

theorem State.endCan_memOk {o : CanOp} {status : Nat} (hs : s.memOk) : (s.endCan o status).memOk := by
  unfold State.endCan
  grind [State.dropCan_memOk, State.updCan_memOk]

theorem State.deliver_memOk {r : RedPart} (hs : s.memOk) : (s.deliver r).memOk := by
  unfold State.deliver
  grind [State.memOk_iff, State.redWrite_memOk]

theorem State.withdrawSlot_memOk {a : Nat} (hs : s.memOk) : (s.withdrawSlot a).memOk := by
  unfold State.withdrawSlot
  grind [State.updQueue_memOk]

theorem State.writeCaps_memOk {a : Nat} {x : Slot} {c : Cand} {blk : List Byte} {a5 : List Nat} (hs : s.memOk) :
    (s.writeCaps a x c blk a5).1.memOk := by
  fun_induction State.writeCaps s a x c blk a5 <;> grind [! . State.imgAccess_memOk]

theorem State.endMates_memOk {o : CanOp} {status : Nat} (hs : s.memOk) : (s.endMates o status).memOk := by
  unfold State.endMates
  grind [State.endCan_memOk, State.foldl_memOk]

theorem State.clearRwin_memOk {part n : Nat} (hs : s.memOk) : (s.clearRwin part n).memOk := by
  unfold State.clearRwin
  grind [State.updPart_memOk, State.deliver_memOk, State.foldl_memOk]

theorem State.withdraw_memOk {l : List Op} (hs : s.memOk) : (s.withdraw l).memOk := hs

theorem State.withdrawAsks_memOk {m : Team} (hs : s.memOk) : (s.withdrawAsks m).memOk := hs

theorem State.reissue_memOk {d : Defer} (hs : s.memOk) : (s.reissue d).memOk := by
  unfold State.reissue
  grind [State.tryReplay_memOk, State.updThread_memOk, State.fault_memOk]

theorem State.skipWord_memOk {slot : Nat} (hs : s.memOk) : (s.skipWord slot).memOk := by
  unfold State.skipWord
  grind [State.updThread_memOk, State.settleTeam_memOk, State.joinColl_memOk, State.closeFull_memOk, State.arriveMat_memOk]

theorem State.withdrawEmits_memOk {slot : Nat} (hs : s.memOk) : (s.withdrawEmits slot).memOk := by
  unfold State.withdrawEmits
  grind [State.finishOp_memOk, State.withdraw_memOk, State.foldl_memOk]

theorem State.captures_memOk {a : Nat} {x : Slot} {c : Cand} {a4 : List Nat} {a5 : List Byte} (hs : s.memOk) :
    (s.captures a x c a4 a5).1.memOk := by
  fun_induction State.captures s a x c a4 a5 <;> grind [! . State.imgAccess_memOk]

theorem State.stopAuto_memOk {a : Nat} {code : BitVec 8} (hs : s.memOk) : (s.stopAuto a code).memOk := by
  unfold State.stopAuto
  grind [State.settleStreams_memOk, State.updSlot_memOk, State.withdrawSlot_memOk]

theorem State.seatCands_memOk {a : Nat} {a2 : List Cand} (hs : s.memOk) : (s.seatCands a a2).1.memOk := by
  fun_induction State.seatCands s a a2 <;> grind [State.updSlot_memOk]

theorem State.putCands_memOk {a : Nat} {a2 : List (Cand × List Byte)} (hs : s.memOk) : (s.putCands a a2).1.memOk := by
  fun_induction State.putCands s a a2 <;> grind [! . State.imgAccess_memOk, ! . State.writeCaps_memOk, State.updSlot_memOk]

theorem State.killTeam_memOk {id : Nat} (hs : s.memOk) : (s.killTeam id).memOk := by
  unfold State.killTeam
  grind [State.memOk_iff, State.leavePermits_memOk, State.withdrawAsks_memOk, State.withdraw_memOk, State.dissolve_memOk,
    State.unmove_memOk, State.updCore_memOk, State.updPart_memOk, State.vacateTeam_memOk, State.foldl_memOk]

theorem State.aimRails_memOk (hs : s.memOk) : (s.aimRails).memOk := by
  unfold State.aimRails
  grind [State.updRail_memOk, State.foldl_memOk]

theorem State.resolveCan_memOk {part : Nat} {rids : List Nat} {code : Option (BitVec 8)} (hs : s.memOk) :
    (s.resolveCan part rids code).memOk := by
  unfold State.resolveCan
  simp only []
  split <;> grind [State.updCan_memOk, State.endMates_memOk, State.endCan_memOk, State.dropCan_memOk, State.foldl_memOk]

theorem State.failOp_memOk {o : Op} {code : BitVec 8} (hs : s.memOk) : (s.failOp o code).memOk := by
  unfold State.failOp
  grind [State.failCopy_memOk, State.endFrag_memOk, State.deferOp_memOk]

theorem State.failParked_memOk {part : Nat} {rids : List Nat} {code : BitVec 8} (hs : s.memOk) :
    (s.failParked part rids code).memOk := by
  unfold State.failParked
  grind [State.updThread_memOk, State.updCore_memOk, State.updPart_memOk, State.foldl_memOk]

theorem State.resolveSwap_memOk {part : Nat} {rids : List Nat} {code : Option (BitVec 8)} (hs : s.memOk) :
    (s.resolveSwap part rids code).memOk := by
  unfold State.resolveSwap
  grind [State.memOk_iff, State.updPart_memOk, State.resolveSlot_memOk]

theorem State.canPieces_memOk {k part va : Nat} {wr : Option (List Byte)} {src : Nat} {a : List (Nat × Nat)} {a7 : List Byte}
    (hs : s.memOk) : (s.canPieces k part va wr src a a7).1.memOk := by
  fun_induction State.canPieces s k part va wr src a a7 <;> grind [! . State.unitAccess_memOk, ! . State.report_memOk]

theorem State.goOff_memOk {s : State} (hs : s.memOk) : (s.goOff).memOk := by
  refine State.memOk_foldl ?_ (fun _ _ => State.updGrove_memOk)
  rw [State.memOk_iff] at *
  exact ⟨SMap.wf_filter _ _ _ hs.1, rfl, hs.2.2⟩

theorem State.answer_memOk {ld code sts : Nat} {rsp : List Byte} (hs : s.memOk) : (s.answer ld code sts rsp).memOk := hs

theorem State.reclaim_memOk {ld addr n : Nat} (hs : s.memOk) : (s.reclaim ld addr n).memOk := hs

theorem State.writeRwin_memOk {part n hi : Nat} {v : DWord} (hs : s.memOk) : (s.writeRwin part n hi v).memOk := by
  unfold State.writeRwin
  grind [State.updPart_memOk, State.clearRwin_memOk]

theorem State.resume_memOk {act slot : Nat} (hs : s.memOk) : (s.resume act slot).memOk := by
  unfold State.resume
  grind [State.departed_memOk, State.updThread_memOk, State.withdrawEmits_memOk, State.reissue_memOk, State.skipWord_memOk]

theorem State.beginSave_memOk {id : Nat} (hs : s.memOk) : (s.beginSave id).memOk := by
  unfold State.beginSave
  grind [State.updTeam_memOk, State.dissolve_memOk]

theorem State.captureAll_memOk {a : Nat} {x : Slot} {a3 : List Cand} {a4 : List (List Byte)} (hs : s.memOk) :
    (s.captureAll a x a3 a4).1.memOk := by
  fun_induction State.captureAll s a x a3 a4 <;> grind [! . State.captures_memOk]

theorem State.restoreAuto_memOk {e : Nat × Slot × List (List Byte)} (hs : s.memOk) : (s.restoreAuto e).1.memOk := by
  unfold State.restoreAuto
  grind [State.updSlot_memOk, State.seatCands_memOk, State.putCands_memOk, State.updQueue_memOk, State.stopAuto_memOk]

theorem State.applyLog_memOk {part team : Nat} {a : List RbEnt} (hs : s.memOk) : (s.applyLog part team a).1.memOk := by
  fun_induction State.applyLog s part team a <;> grind [! . State.devWrite_memOk]

theorem State.unwind_memOk {team : Nat} {m : Team} {x : TeamImg} (hs : s.memOk) : (s.unwind team m x).memOk := by
  unfold State.unwind
  grind [State.memOk_iff, State.scrWrite_memOk, State.setThread_memOk, State.updCore_memOk, State.foldl_memOk]

theorem State.settleState_memOk (hs : s.memOk) : (s.settleState).memOk := by
  unfold State.settleState
  grind [State.memOk_iff, State.aimRails_memOk, State.goOff_memOk]

theorem State.syncParts_memOk (hs : s.memOk) : (s.syncParts).memOk := by
  unfold State.syncParts
  grind [State.updLd_memOk, State.foldl_memOk]

theorem State.rotateKeys_memOk {p : Nat} (hs : s.memOk) : (s.rotateKeys p).memOk := by
  unfold State.rotateKeys
  grind [State.memOk_iff, State.updPart_memOk, State.flushKey_memOk, State.foldl_memOk]

theorem State.dropPartition_memOk {p : Nat} (hs : s.memOk) : (s.dropPartition p).memOk := by
  unfold State.dropPartition
  grind [State.memOk_iff, State.killTeam_memOk, State.updSlot_memOk, State.mdis_memOk, State.updPart_memOk, State.leaveMemory_memOk,
    State.foldl_memOk]

theorem State.command_memOk {ld code : Nat} {f : State → State} (hf : ∀ t, t.memOk → (f t).memOk) (hs : s.memOk) :
    (s.command ld code f).memOk := by
  unfold State.command
  grind [State.answer_memOk]

theorem State.hostWrite_memOk {ld addr : Nat} {data : List Byte} (hs : s.memOk) : (s.hostWrite ld addr data).memOk := by
  unfold State.hostWrite
  grind [State.memOk_iff, State.reclaim_memOk, Memory.wf_writeN]

theorem State.fillEnds_memOk {g c : Nat} (hs : s.memOk) : (s.fillEnds g c).memOk := by
  unfold State.fillEnds
  grind [State.updCore_memOk, State.updGrove_memOk]

theorem State.withdrawAmber_memOk (hs : s.memOk) : (s.withdrawAmber).memOk := by
  unfold State.withdrawAmber
  grind [State.updCore_memOk, State.updGrove_memOk, State.foldl_memOk]

theorem State.noteShort_memOk (hs : s.memOk) : (s.noteShort).memOk := by
  unfold State.noteShort
  grind [State.updCore_memOk, State.foldl_memOk]

theorem State.writeKey_memOk {part k j : Nat} {v : DWord} (hs : s.memOk) : (s.writeKey part k j v).memOk := by
  unfold State.writeKey
  grind [State.updPart_memOk, State.flushKey_memOk]

theorem State.resolveRed_memOk {s : State} {part : Nat} {rids : List Nat} {code : Option (BitVec 8)} (hs : s.memOk) :
    (s.resolveRed part rids code).memOk := by
  unfold State.resolveRed
  split
  · exact State.memOk_of_eq hs rfl rfl rfl
  · exact State.memOk_foldl (State.memOk_of_eq hs rfl rfl rfl) (fun t b => State.deliver_memOk)

theorem State.mbStatus_memOk {ld : Nat} {sts : BitVec 16} (hs : s.memOk) : (s.mbStatus ld sts).memOk := hs

theorem State.release_memOk {o : Op} (hs : s.memOk) : (s.release o).memOk := hs

theorem State.resolveSaved_memOk {part : Nat} {rids : List Nat} {code : Option (BitVec 8)} (hs : s.memOk) :
    (s.resolveSaved part rids code).memOk := hs

theorem State.resolveTeams_memOk {rids : List Nat} {code : Option (BitVec 8)} (hs : s.memOk) :
    (s.resolveTeams rids code).memOk := hs

theorem State.resolveRec_memOk {s : State} {part : Nat} {idx : Nat} {code : Option (BitVec 8)} (hs : s.memOk) {s' : State}
    (e : State.resolveRec s part idx code = some s') : s'.memOk := by
  unfold State.resolveRec at e
  split at e
  · cases e
  · extract_lets rids s1 s2 s3 s4 s5 s6 s7 s8 s9 at e
    cases e
    have h1 : s1.memOk := hs
    have h2 : s2.memOk := State.memOk_foldl h1 (fun t o ht => by
      cases code with
      | none => exact State.release_memOk ht
      | some c => exact State.failOp_memOk (State.release_memOk ht))
    have h3 : s3.memOk := State.memOk_foldl h2 (fun _ _ => State.resolveQueue_memOk)
    have h4 : s4.memOk := State.memOk_foldl h3 (fun _ _ => State.resolveSlot_memOk)
    have h6 : s6.memOk := State.resolveTeams_memOk (State.resolveSwap_memOk (State.resolveRed_memOk (State.resolveCan_memOk (State.resolveSaved_memOk h4))))
    have h7 : s7.memOk := by
      unfold s7
      split
      · split
        · exact State.slAgain_memOk h6
        · exact State.slEnd_memOk h6
      · exact h6
    have h8 : s8.memOk := State.memOk_foldl h7 (fun t v ht => by
      cases code with
      | none => exact ht
      | some c => exact State.mbStatus_memOk ht)
    have h9 : s9.memOk := by
      unfold s9
      split
      · exact h8
      · exact State.failParked_memOk h8
    exact State.drainRecs_memOk h9

theorem State.writeFbdone_memOk {s : State} {part : Nat} {v : DWord} (hs : s.memOk) : (s.writeFbdone part v).memOk := by
  have hu {f} : (s.updPart part f).memOk := State.updPart_memOk hs
  unfold State.writeFbdone
  simp only []
  split
  · exact State.memOk_getD hu (fun t => State.resolveRec_memOk hu)
  · split
    · exact hu
    · exact State.memOk_getD hu (fun t => State.resolveRec_memOk hu)
  · exact hu

theorem State.canRead_memOk {o : CanOp} {va n : Nat} (hs : s.memOk) : (s.canRead o va n).1.memOk := State.canPieces_memOk hs

theorem State.canWrite_memOk {o : CanOp} {va : Nat} {bs : List Byte} (hs : s.memOk) : (s.canWrite o va bs).1.memOk :=
  State.canPieces_memOk hs

theorem State.abortCan_memOk {part : Nat} {ctx : BitVec 16} (hs : s.memOk) : (s.abortCan part ctx).memOk := by
  unfold State.abortCan
  grind [State.memOk_iff, State.endCan_memOk, State.pick_memOk, State.foldl_memOk]

theorem State.leaveRec_memOk {core n : Nat} {l : List Nat} (hs : s.memOk) : (s.leaveRec core n l).memOk := hs

theorem State.killAuto_memOk {a : Nat} {code : BitVec 8} (hs : s.memOk) : (s.killAuto a code).memOk := by
  unfold State.killAuto
  apply_rules [State.withdrawSlot_memOk, State.settleStreams_memOk, State.updSlot_memOk, hs]

theorem State.dropMet_memOk {met : List Nat} (hs : s.memOk) : (s.dropMet met).memOk := hs

theorem State.remeasure_memOk (hs : s.memOk) : (s.remeasure).memOk := hs

theorem State.writeReg_memOk {s : State} {part : Nat} {off : Nat} {v : DWord} (hs : s.memOk) : (s.writeReg part off v).memOk := by
  have hp {f} : (s.updPart part f).memOk := hs
  have hd {f n} : ((s.updPart part f).drainRecs part n).memOk := State.drainRecs_memOk hs
  open State in
  exact memOk_ite hp (memOk_ite hp (memOk_ite hp (memOk_ite hp (memOk_ite hd (memOk_ite (writeFbdone_memOk hs) (memOk_ite hp
    (memOk_ite hp (memOk_ite hp (memOk_ite hp (memOk_ite hp (memOk_ite hp (memOk_ite (writeRwin_memOk hs) (memOk_ite hp (memOk_ite hp
      (memOk_ite hp (memOk_ite hp hs))))))))))))))))

theorem State.canStep_memOk {o : CanOp} (hs : s.memOk) : (s.canStep o).memOk := by
  unfold State.canStep
  grind [State.canWrite_memOk, State.dropCan_memOk, State.updCan_memOk]

theorem State.readDesc_memOk {o : CanOp} (hs : s.memOk) : (s.readDesc o).memOk := by
  unfold State.readDesc
  grind [State.canRead_memOk, State.updCan_memOk, State.dropCan_memOk, State.report_memOk, State.endCan_memOk]

theorem State.pkcmd_memOk {core : Nat} {n : Fin 4} {act : Nat} (hs : s.memOk) : (s.pkcmd core n act).memOk := by
  unfold State.pkcmd
  grind [State.resume_memOk, State.leaveRec_memOk, State.foldl_memOk]

theorem State.writeHtc_memOk {part : Nat} {v : DWord} (hs : s.memOk) : (s.writeHtc part v).memOk := by
  unfold State.writeHtc
  grind [State.memOk_iff, State.updPart_memOk, State.loseHeat_memOk, State.foldl_memOk]

theorem State.physWrite_memOk {part pa key : Nat} {data : List Byte} (hs : s.memOk) : (s.physWrite part pa key data).memOk := by
  unfold State.physWrite
  grind [State.memOk_iff, State.devWrite_memOk, State.foldl_memOk, Memory.wf_writeN]

theorem State.evict_memOk {id : Nat} (hs : s.memOk) : (s.evict id).memOk := by
  unfold State.evict
  grind [State.unmove_memOk, State.bindBoughs_memOk, State.updTeam_memOk, State.dissolve_memOk, State.takeFresh_memOk,
    State.beginSave_memOk]

theorem State.readAutos_memOk {a : List Nat} {a2 : List (Nat × Slot × List (List Byte))} (hs : s.memOk) :
    (s.readAutos a a2).1.memOk := by
  fun_induction State.readAutos s a a2 <;> grind [! . State.captureAll_memOk, State.stopAuto_memOk]

theorem State.leaveAutos_memOk {l : List Nat} (hs : s.memOk) : (s.leaveAutos l).memOk := by
  unfold State.leaveAutos
  grind [State.updSlot_memOk, State.withdrawSlot_memOk, State.foldl_memOk]

theorem State.restoreAutos_memOk {a : List (Nat × Slot × List (List Byte))} (hs : s.memOk) : (s.restoreAutos a).1.memOk := by
  fun_induction State.restoreAutos s a <;> grind [! . State.restoreAuto_memOk]

theorem State.rollLog_memOk {team : Nat} {m : Team} {i : Nat} {x : TeamImg} (hs : s.memOk) : (s.rollLog team m i x).memOk := by
  unfold State.rollLog
  grind [State.applyLog_memOk, State.unwind_memOk, State.leavePermits_memOk, State.dissolve_memOk, State.dropMet_memOk,
    State.updPart_memOk, State.report_memOk, State.takeFresh_memOk, State.updTeam_memOk]

theorem State.writePart_memOk {p : Nat} {e : BitVec 256} (hs : s.memOk) : (s.writePart p e).memOk := by
  unfold State.writePart
  grind [State.dropPartition_memOk, State.leaveMemory_memOk, State.updPart_memOk, State.rotateKeys_memOk, State.remeasure_memOk,
    State.aimRails_memOk, State.syncParts_memOk]

theorem State.writeVf_memOk {v : Nat} {e : DWord} (hs : s.memOk) : (s.writeVf v e).memOk := by
  unfold State.writeVf
  grind [State.remeasure_memOk, State.settleState_memOk, State.syncParts_memOk, State.updLd_memOk]

theorem State.barWrite_memOk {ld off : Nat} {v : DWord} (hs : s.memOk) : (s.barWrite ld off v).memOk := by
  unfold State.barWrite
  grind [State.updLd_memOk]

theorem State.slotCommand_memOk {ld op : Nat} {f : State → Nat → Nat → Nat → State × UnitDone × List Byte}
    (hf : ∀ t a b c, t.memOk → (f t a b c).1.memOk) (hs : s.memOk) : (s.slotCommand ld op f).memOk := by
  unfold State.slotCommand
  grind [State.command_memOk, State.answer_memOk, State.updLd_memOk]

theorem State.badCommand_memOk {ld code : Nat} (hs : s.memOk) : (s.badCommand ld code).memOk := by
  unfold State.badCommand
  grind [State.answer_memOk]

theorem State.hostAtomic_memOk {ld addr : Nat} {dbl : Bool} {op : AOp} {b c : DWord} (hs : s.memOk) :
    (s.hostAtomic ld addr dbl op b c).memOk := by
  unfold State.hostAtomic
  grind [State.reclaim_memOk, State.hostWrite_memOk]

theorem State.memError_memOk {pa : Nat} (hs : s.memOk) : (s.memError pa).memOk := by
  unfold State.memError
  grind [State.memOk_iff]

theorem State.recover_memOk (hs : s.memOk) : (s.recover).memOk := by
  unfold State.recover
  grind [State.memOk_iff, State.remeasure_memOk]

theorem State.boostFor_memOk {slot : Nat} {d : Dst} {r : Nat} (hs : s.memOk) : (s.boostFor slot d r).memOk := by
  unfold State.boostFor
  grind [State.updThread_memOk, State.updPart_memOk]

theorem State.visit_memOk {g c : Nat} (hs : s.memOk) : (s.visit g c).memOk := by
  unfold State.visit
  grind [State.updCore_memOk, State.updGrove_memOk, State.fillEnds_memOk]

theorem State.amberNow_memOk (hs : s.memOk) : (s.amberNow).memOk := by
  unfold State.amberNow
  apply_rules [State.noteShort_memOk, State.withdrawAmber_memOk, hs]

theorem State.waitMore_memOk {g : Nat} {e : Nat × Nat} (hs : s.memOk) : (s.waitMore g e).memOk := by
  unfold State.waitMore
  grind [State.updCore_memOk, State.updGrove_memOk]

theorem State.writeWindow_memOk {part off : Nat} {v : DWord} (hs : s.memOk) : (s.writeWindow part off v).memOk := by
  unfold State.writeWindow
  grind [State.writeReg_memOk, State.updGrove_memOk, State.writeKey_memOk, State.writeLentry_memOk, State.writeSlot_memOk]

theorem State.writeParkReg_memOk {core off : Nat} {v : DWord} (hs : s.memOk) : (s.writeParkReg core off v).memOk := by
  unfold State.writeParkReg
  grind [State.updCore_memOk]

theorem State.readMates_memOk {a : List CanOp} {a2 : List (List Word)} (hs : s.memOk) : (s.readMates a a2).1.memOk := by
  fun_induction State.readMates s a a2 <;> grind [! . State.canRead_memOk, State.updCan_memOk, State.endCan_memOk,
    State.foldl_memOk]

theorem State.dropTlb_memOk {part : Nat} {r : Nat × Nat} (hs : s.memOk) : (s.dropTlb part r).memOk := hs

theorem State.land_memOk {s : State} {x : TeamImg} {core : Nat} {first : Nat} {argp : Nat} (hs : s.memOk) :
    (s.land x core first argp).memOk := by
  unfold State.land
  extract_lets m f tags s1 s2 s3 s4 s5 s6
  have h1 : s1.memOk := State.memOk_writeScr hs _ _
  have h2 : s2.memOk := State.memOk_foldl h1 (fun _ _ => State.setThread_memOk)
  have h5 : s5.memOk := State.bindBoughs_memOk (State.takePermits_memOk (State.memOk_of_eq h2 rfl rfl rfl))
  have h6 : s6.memOk := State.memOk_foldl h5 (fun _ _ ht => State.memOk_of_eq ht rfl rfl rfl)
  exact State.memOk_foldl h6 (fun _ _ => State.rearm_memOk)

theorem State.reside_memOk {part : Nat} {c : BitVec 16} (hs : s.memOk) : (s.reside part c).memOk := hs

theorem State.killContext_memOk {s : State} {part : Nat} {ctx : BitVec 16} {code : BitVec 8} (hs : s.memOk) :
    (s.killContext part ctx code).memOk := by
  unfold State.killContext
  extract_lets autos s1 p here away gs segs s2 s3 word s4 s5
  have h1 : s1.memOk := State.memOk_foldl hs (fun _ _ => State.killTeam_memOk)
  have h3 : s3.memOk := State.memOk_foldl (State.memOk_of_eq h1 rfl rfl rfl) (fun _ _ => State.killAuto_memOk)
  have h5 : s5.memOk := State.abortCan_memOk h3
  exact State.memOk_of_eq h5 rfl rfl rfl

theorem State.outlive_memOk {s : State} (hs : s.memOk) : (s.outlive).memOk := by
  rw [State.memOk_iff] at *
  exact ⟨SMap.wf_filter _ _ _ hs.1, rfl, hs.2.2⟩

theorem State.allocPri_memOk {ld n : Nat} (hs : s.memOk) : (s.allocPri ld n).memOk := hs

theorem State.sliceError_memOk {part pa : Nat} (hs : s.memOk) : (s.sliceError part pa).memOk := hs

theorem State.setSize_memOk {la : Nat} {code : BitVec 2} (hs : s.memOk) : (s.setSize la code).memOk := hs

theorem State.temps_memOk {hbm die : Nat} (hs : s.memOk) : (s.temps hbm die).memOk := hs

theorem State.loadPlugin_memOk {digest : BitVec 384} (hs : s.memOk) : (s.loadPlugin digest).memOk := hs

theorem State.issueMixed_memOk {i : Instr} {gd bgd : Thread → Bool} {branch : Bool} {f : Lane → LaneRes} (hs : s.memOk)
    (e : s.issueMixed i gd bgd branch f = .next s') : s'.memOk := by
  unfold State.issueMixed at e
  grind [State.runLanes_memOk, State.stepTraps_memOk, State.noteIntervals_memOk, State.respawn_memOk]

theorem execCanopyOpStart_memOk {part i : Nat} (hs : s.memOk) (e : execCanopyOpStart part i s = .next s') : s'.memOk := by
  unfold execCanopyOpStart at e
  grind [State.memOk_iff, State.refillAll_memOk, State.updQueue_memOk, State.readDesc_memOk]

theorem execCanopyPutComplete_memOk {n : Nat} (hs : s.memOk) (e : execCanopyPutComplete n s = .next s') : s'.memOk := by
  unfold execCanopyPutComplete at e
  simp only [] at e
  split at e <;> grind [State.canStep_memOk, State.readDesc_memOk, ! . State.canRead_memOk, State.updCan_memOk, State.endCan_memOk,
    State.dropCan_memOk]

theorem execCanopyTransferIn_memOk {x : CanopyIn} (hs : s.memOk) (e : execCanopyTransferIn x s = .next s') : s'.memOk := by
  unfold execCanopyTransferIn at e
  grind [State.memOk_iff, State.canStep_memOk, State.takeFresh_memOk]

theorem execCanopyTimeout_memOk {n : Nat} (hs : s.memOk) (e : execCanopyTimeout n s = .next s') : s'.memOk := by
  unfold execCanopyTimeout at e
  simp only [] at e
  (repeat' split at e) <;> grind [State.endCan_memOk, State.endMates_memOk]

theorem execReductionDeliver_memOk {part n : Nat} {x : RedIn} (hs : s.memOk) (e : execReductionDeliver part n x s = .next s') :
    s'.memOk :=
    by
  unfold execReductionDeliver at e
  grind [State.memOk_iff, State.deliver_memOk]

theorem execRwinClear_memOk {part n : Nat} (hs : s.memOk) (e : execRwinClear part n s = .next s') : s'.memOk := by
  unfold execRwinClear at e
  grind [State.clearRwin_memOk]

theorem execFbptrHeadWrite_memOk {part : Nat} {head : BitVec 32} (hs : s.memOk) (e : execFbptrHeadWrite part head s = .next s') :
    s'.memOk := by
  unfold execFbptrHeadWrite at e
  grind [State.updPart_memOk, State.drainRecs_memOk]

theorem execPkcmdReplay_memOk {core : Nat} {n : Fin 4} (hs : s.memOk) (e : execPkcmdReplay core n s = .next s') : s'.memOk := by
  cases e
  apply_rules [State.pkcmd_memOk, hs]

theorem execPkcmdSkip_memOk {core : Nat} {n : Fin 4} (hs : s.memOk) (e : execPkcmdSkip core n s = .next s') : s'.memOk := by
  cases e
  apply_rules [State.pkcmd_memOk, hs]

theorem execPkcmdKill_memOk {core : Nat} {n : Fin 4} (hs : s.memOk) (e : execPkcmdKill core n s = .next s') : s'.memOk := by
  cases e
  apply_rules [State.pkcmd_memOk, hs]

theorem execPkcmdDetach_memOk {core : Nat} {n : Fin 4} (hs : s.memOk) (e : execPkcmdDetach core n s = .next s') : s'.memOk := by
  unfold execPkcmdDetach at e
  grind [State.updThread_memOk, State.leaveRec_memOk, State.foldl_memOk]

theorem execPkipClear_memOk {core : Nat} {v : DWord} (hs : s.memOk) (e : execPkipClear core v s = .next s') : s'.memOk := by
  cases e
  apply_rules [State.updCore_memOk, hs]

theorem execThreadViewWrite_memOk {core off : Nat} {v : DWord} {wide : Bool} (hs : s.memOk)
    (e : execThreadViewWrite core off v wide s = .next s') : s'.memOk := by
  unfold execThreadViewWrite at e
  grind [State.setThread_memOk]

theorem execSvreplyDeliver_memOk {part : Nat} {v : DWord} (hs : s.memOk) (e : execSvreplyDeliver part v s = .next s') :
    s'.memOk := by
  unfold execSvreplyDeliver at e
  grind [State.updPart_memOk, State.scrWrite_memOk, State.updThread_memOk]

theorem execTlbiStart_memOk {part : Nat} {v : DWord} (hs : s.memOk) (e : execTlbiStart part v s = .next s') : s'.memOk := by
  cases e
  apply_rules [State.updPart_memOk, hs]

theorem execTlbiComplete_memOk {part : Nat} (hs : s.memOk) (e : execTlbiComplete part s = .next s') : s'.memOk := by
  unfold execTlbiComplete at e
  grind [State.memOk_iff, State.updPart_memOk, State.dropTlb_memOk, State.drainRecs_memOk]

theorem execInvalidateRequest_memOk {ld pasid vpn log : Nat} (hs : s.memOk)
    (e : execInvalidateRequest ld pasid vpn log s = .next s') : s'.memOk := by
  cases e
  apply_rules [State.updLd_memOk, hs]

theorem execInvalidationCompletion_memOk {ld : Nat} (hs : s.memOk) (e : execInvalidationCompletion ld s = .next s') : s'.memOk := by
  unfold execInvalidationCompletion at e
  grind [State.updLd_memOk]

theorem execPriReqSend_memOk {part : Nat} {v : DWord} (hs : s.memOk) (e : execPriReqSend part v s = .next s') : s'.memOk := by
  cases e
  apply_rules [State.updPart_memOk, hs]

theorem execPriReqSelect_memOk {part : Nat} {v : DWord} (hs : s.memOk) (e : execPriReqSelect part v s = .next s') : s'.memOk := by
  cases e
  apply_rules [State.updPart_memOk, hs]

theorem execPrgResponse_memOk {part prg : Nat} {ans : PriAns} (hs : s.memOk) (e : execPrgResponse part prg ans s = .next s') :
    s'.memOk :=
    by
  unfold execPrgResponse at e
  grind [State.updPart_memOk]

theorem execHeatSweep_memOk {part line : Nat} (hs : s.memOk) (e : execHeatSweep part line s = .next s') : s'.memOk := by
  unfold execHeatSweep at e
  grind [State.heatSettle_memOk]

theorem execHtcWrite_memOk {part : Nat} {v : DWord} (hs : s.memOk) (e : execHtcWrite part v s = .next s') : s'.memOk := by
  cases e
  apply_rules [State.writeHtc_memOk, hs]

theorem execHrdvRead_memOk {part : Nat} (hs : s.memOk) (e : execHrdvRead part s = .next s') : s'.memOk := by
  unfold execHrdvRead at e
  grind [State.heatSettle_memOk, State.heatTaken_memOk, State.updPart_memOk]

theorem execInstructionFetch_memOk {slot : Nat} (hs : s.memOk) (e : execInstructionFetch slot s = .next s') : s'.memOk := by
  unfold execInstructionFetch at e
  grind [State.memOk_iff, State.fetch_memOk, State.fetchFault_memOk, State.fetchAsk_memOk]

theorem execCompanionCoreWrite_memOk {dst : CoreAddr} {key : Fin 16} {data : List Byte} (hs : s.memOk)
    (e : execCompanionCoreWrite dst key data s = .next s') : s'.memOk := by
  unfold execCompanionCoreWrite at e
  grind [State.drainRecs_memOk, State.physWrite_memOk]

theorem execVacateGo_memOk {part : Nat} {v : DWord} (hs : s.memOk) (e : execVacateGo part v s = .next s') : s'.memOk := by
  unfold execVacateGo at e
  grind [State.updPart_memOk, State.updCore_memOk, State.evict_memOk, State.foldl_memOk]

theorem execVacateRelease_memOk {part : Nat} {v : DWord} (hs : s.memOk) (e : execVacateRelease part v s = .next s') : s'.memOk := by
  unfold execVacateRelease at e
  grind [State.updCore_memOk, State.updPart_memOk, State.foldl_memOk]

theorem execTeamSave_memOk {team : Nat} (hs : s.memOk) (e : execTeamSave team s = .next s') : s'.memOk := by
  unfold execTeamSave at e
  grind [State.dissolve_memOk, State.vacateTeam_memOk, State.leavePermits_memOk, State.withdrawAsks_memOk, State.withdraw_memOk,
    State.updPart_memOk]

theorem execTeamRestore_memOk {part : Nat} (hs : s.memOk) (e : execTeamRestore part s = .next s') : s'.memOk := by
  unfold execTeamRestore at e
  grind [State.setMode_memOk, State.updPart_memOk, State.land_memOk]

theorem execContextSave_memOk {part ctx : Nat} (hs : s.memOk) (e : execContextSave part ctx s = .next s') : s'.memOk := by
  unfold execContextSave at e
  grind [State.memOk_iff, State.beginSave_memOk, State.unmove_memOk, State.readAutos_memOk, State.leaveAutos_memOk,
    State.updPart_memOk, State.foldl_memOk]

theorem execContextRestore_memOk {part ctx : Nat} (hs : s.memOk) (e : execContextRestore part ctx s = .next s') : s'.memOk := by
  unfold execContextRestore at e
  grind [State.memOk_iff, State.restoreAutos_memOk, State.reside_memOk, State.updPart_memOk, State.foldl_memOk]

theorem execRollbackCheckpoint_memOk {team : Nat} (hs : s.memOk) (e : execRollbackCheckpoint team s = .next s') : s'.memOk := by
  unfold execRollbackCheckpoint at e
  grind [State.updTeam_memOk, State.writeShadow_memOk, State.updPart_memOk]

theorem execRollback_memOk {team : Nat} (hs : s.memOk) (e : execRollback team s = .next s') : s'.memOk := by
  unfold execRollback at e
  grind [State.killContext_memOk, State.rollLog_memOk]

theorem execRailTransitionStep_memOk {reg : Fin 4} (hs : s.memOk) (e : execRailTransitionStep reg s = .next s') : s'.memOk := by
  cases e
  apply_rules [State.updRail_memOk, hs]

theorem execPartitionTableWrite_memOk {x : TableWrite} (hs : s.memOk) (e : execPartitionTableWrite x s = .next s') : s'.memOk := by
  unfold execPartitionTableWrite at e
  grind [State.writePart_memOk, State.writeVf_memOk]

theorem execSvnCommand_memOk (hs : s.memOk) (e : execSvnCommand s = .next s') : s'.memOk := by
  unfold execSvnCommand at e
  grind [State.memOk_iff]

theorem execSpdmRequest_memOk {x : SpdmReq} (hs : s.memOk) (e : execSpdmRequest x s = .next s') : s'.memOk := by
  unfold execSpdmRequest at e
  grind [State.memOk_iff, State.takeFresh_memOk, State.updLd_memOk]

theorem execDeviceReset_memOk {img : Option BootImage} (hs : s.memOk) (e : execDeviceReset img s = .next s') : s'.memOk := by
  unfold execDeviceReset at e
  grind [State.memOk_iff, State.outlive_memOk, State.remeasure_memOk]

theorem execThermalTrip_memOk {temp : Nat} (hs : s.memOk) (e : execThermalTrip temp s = .next s') : s'.memOk := by
  unfold execThermalTrip at e
  grind [State.memOk_iff]

theorem execPowerRemoval_memOk (hs : s.memOk) (e : execPowerRemoval s = .next s') : s'.memOk := by
  cases e
  apply_rules [State.outlive_memOk, hs]

theorem execLinkTrain_memOk {port : Fin 4} {mode : PortMode} {speed : LinkSpeed} (hs : s.memOk)
    (e : execLinkTrain port mode speed s = .next s') : s'.memOk := by
  unfold execLinkTrain at e
  grind [State.memOk_iff]

theorem execSetOp_memOk {ld : Nat} (hs : s.memOk) (e : execSetOp ld s = .next s') : s'.memOk := by
  unfold execSetOp at e
  grind [State.command_memOk, State.answer_memOk, State.aimRails_memOk, State.updPart_memOk, State.foldl_memOk]

theorem execSetState_memOk {ld : Nat} (hs : s.memOk) (e : execSetState ld s = .next s') : s'.memOk := by
  unfold execSetState at e
  grind [State.command_memOk, State.answer_memOk, State.settleState_memOk, State.updLd_memOk]

theorem execBind_memOk {ld entry : Nat} (hs : s.memOk) (e : execBind ld entry s = .next s') : s'.memOk := by
  unfold execBind at e
  simp only [] at e
  grind [State.command_memOk, State.answer_memOk, → State.bindRecord_memOk]

theorem execUnbind_memOk {ld : Nat} (hs : s.memOk) (e : execUnbind ld s = .next s') : s'.memOk := by
  unfold execUnbind at e
  grind [State.command_memOk, State.answer_memOk, State.unbindHandle_memOk]

theorem execQset_memOk {ld : Nat} (hs : s.memOk) (e : execQset ld s = .next s') : s'.memOk := by
  unfold execQset at e
  grind [State.command_memOk, State.answer_memOk, State.writeQueue_memOk]

theorem execSlotMload_memOk {ld : Nat} (hs : s.memOk) (e : execSlotMload ld s = .next s') : s'.memOk := by
  unfold execSlotMload at e
  grind [State.slotCommand_memOk, State.mloadFor_memOk]

theorem execSlotMarm_memOk {ld : Nat} (hs : s.memOk) (e : execSlotMarm ld s = .next s') : s'.memOk := by
  unfold execSlotMarm at e
  grind [State.slotCommand_memOk, State.marm_memOk]

theorem execSlotMdis_memOk {ld : Nat} (hs : s.memOk) (e : execSlotMdis ld s = .next s') : s'.memOk := by
  unfold execSlotMdis at e
  grind [State.slotCommand_memOk, State.mdis_memOk]

theorem execSlotMstat_memOk {ld : Nat} (hs : s.memOk) (e : execSlotMstat ld s = .next s') : s'.memOk := by
  unfold execSlotMstat at e
  grind [State.slotCommand_memOk]

theorem execKill_memOk {ld : Nat} (hs : s.memOk) (e : execKill ld s = .next s') : s'.memOk := by
  unfold execKill at e
  grind [State.command_memOk, State.answer_memOk, State.killContext_memOk, State.takeFresh_memOk, State.foldl_memOk]

theorem execQtab_memOk {ld : Nat} (hs : s.memOk) (e : execQtab ld s = .next s') : s'.memOk := by
  unfold execQtab at e
  grind [State.command_memOk, State.answer_memOk, State.writeQuantum_memOk]

theorem execImage_memOk {ld : Nat} (hs : s.memOk) (e : execImage ld s = .next s') : s'.memOk := by
  unfold execImage at e
  grind [State.memOk_iff, State.answer_memOk]

theorem execHostCxlMemAccess_memOk {ld hpa : Nat} {x : CxlAccess} (hs : s.memOk) (e : execHostCxlMemAccess ld hpa x s = .next s') :
    s'.memOk := by
  unfold execHostCxlMemAccess at e
  grind [State.physWrite_memOk, State.devRead_memOk, State.foldl_memOk]

theorem execHostAtomicopToBar_memOk {_ld : Nat} (hs : s.memOk) (e : execHostAtomicopToBar _ld s = .next s') : s'.memOk := by
  unfold execHostAtomicopToBar at e
  grind

theorem State.act_memOk {a : Turn} (hs : s.memOk) : (s.act a).memOk := by
  unfold State.act
  grind [State.idle_memOk, State.hostWrite_memOk, State.hostAtomic_memOk, State.allocPri_memOk, State.badCommand_memOk,
    State.memError_memOk, State.sliceError_memOk, State.temps_memOk, State.setSize_memOk, State.walkAhead_memOk,
    State.recover_memOk, State.loadPlugin_memOk]

theorem execBoost_memOk {x : F1} (hs : s.memOk) (e : execBoost x s = .next s') : s'.memOk := by
  unfold execBoost at e
  grind [State.runLanes_memOk, State.stepTraps_memOk, State.boostFor_memOk, State.foldl_memOk]

theorem execBoostRefill_memOk (hs : s.memOk) (e : execBoostRefill s = .next s') : s'.memOk := by
  unfold execBoostRefill at e
  grind [State.memOk_iff]

theorem execBoostLeaseExpire_memOk {part ctx : Nat} (hs : s.memOk) (e : execBoostLeaseExpire part ctx s = .next s') : s'.memOk := by
  unfold execBoostLeaseExpire at e
  grind [State.updPart_memOk]

theorem execDroopStretch_memOk {grove : Nat} (hs : s.memOk) (e : execDroopStretch grove s = .next s') : s'.memOk := by
  cases e
  apply_rules [State.updGrove_memOk, hs]

theorem execAmberRevolution_memOk {g : Nat} (hs : s.memOk) (e : execAmberRevolution g s = .next s') : s'.memOk := by
  unfold execAmberRevolution at e
  grind [State.updGrove_memOk, State.amberNow_memOk, State.noteShort_memOk, State.visit_memOk, State.waitMore_memOk,
    State.foldl_memOk]

theorem execArbitrationEscalate_memOk {op : Nat} (hs : s.memOk) (e : execArbitrationEscalate op s = .next s') : s'.memOk := by
  unfold execArbitrationEscalate at e
  grind [State.updOp_memOk]

theorem execControlRegisterWrite_memOk {part off : Nat} {v : DWord} (hs : s.memOk)
    (e : execControlRegisterWrite part off v s = .next s') : s'.memOk := by
  unfold execControlRegisterWrite at e
  simp only [] at e
  (repeat' split at e) <;> grind [State.memOk_iff, State.writeWindow_memOk, State.barWrite_memOk, State.updLd_memOk,
    State.writeParkReg_memOk]

theorem execServ_memOk {x : ServArg} (hs : s.memOk) (e : execServ x s = .next s') : s'.memOk := by
  unfold execServ at e
  grind [State.runLanes_memOk, State.stepTraps_memOk, State.endIntervals_memOk]

theorem State.wroteFbdone_memOk {part act : Nat} {code : BitVec 8} {idx : BitVec 32} (hs : s.memOk) :
    (s.wroteFbdone part act code idx).memOk := hs

theorem State.wakeXlate_memOk {ld pasid vpn : Nat} (hs : s.memOk) : (s.wakeXlate ld pasid vpn).memOk := hs

theorem execCanopyAllreduceComplete_memOk {n : Nat} {others : Option (List (List Word))} {s : State} (hs : s.memOk) {s' : State}
    (e : execCanopyAllreduceComplete n others s = .next s') : s'.memOk := by
  unfold execCanopyAllreduceComplete at e
  split at e
  · cases e; exact hs
  next o ho =>
  split at e
  · cases e; exact hs
  split at e
  · cases e; exact State.readDesc_memOk hs
  next d hd =>
  split at e
  · cases e; exact State.canStep_memOk hs
  split at e
  · cases e; exact State.endMates_memOk hs
  next os =>
  have hr : (s.readMates (s.mates o) []).1.memOk := State.readMates_memOk hs
  simp only [] at e
  split at e
  · cases e; exact hs
  split at e
  next s1 h1 => cases e; rw [h1] at hr; exact hr
  next s1 bs h1 =>
  rw [h1] at hr
  have hp : (s1.pick (combineAll (canFn d) (bs ++ os)) (combineAll (canFn d) (os ++ bs))).1.memOk := State.pick_memOk hr
  cases e
  split
  · exact State.memOk_foldl hp (fun _ _ => State.updCan_memOk)
  · exact State.canStep_memOk (State.memOk_foldl hp (fun _ _ => State.updCan_memOk))

theorem execFbdoneReplay_memOk {part : Nat} {idx : BitVec 32} {s : State} (hs : s.memOk) {s' : State}
    (e : execFbdoneReplay part idx s = .next s') : s'.memOk := by
  cases e
  exact State.memOk_getD (State.wroteFbdone_memOk hs) (fun t => State.resolveRec_memOk (State.wroteFbdone_memOk hs))

theorem execFbdoneFail_memOk {part : Nat} {idx : BitVec 32} {code : BitVec 8} {s : State} (hs : s.memOk) {s' : State}
    (e : execFbdoneFail part idx code s = .next s') : s'.memOk := by
  cases e
  split
  · exact State.wroteFbdone_memOk hs
  · exact State.memOk_getD (State.wroteFbdone_memOk hs) (fun t => State.resolveRec_memOk (State.wroteFbdone_memOk hs))

theorem execTranslationCompletion_memOk {ld : Nat} {pasid : Nat} {vpn : Nat} {ans : XAns} {s : State} (hs : s.memOk) {s' : State}
    (e : execTranslationCompletion ld pasid vpn ans s = .next s') : s'.memOk := by
  unfold execTranslationCompletion at e
  split at e
  · cases e; exact hs
  · extract_lets s1 give others s2 at e
    cases e
    have hg {t : State} {l x} (ht : t.memOk) : (give t l x).memOk := State.memOk_foldl ht (fun _ _ => State.giveAnswer_memOk)
    have h1 {f} : State.memOk { s1 with atc := f } := hs
    refine State.wakeXlate_memOk ?_
    unfold s2
    split
    · exact hs
    · exact hg h1
    · split
      · exact hg h1
      · split
        · exact h1
        · exact hg (hg h1)

theorem execPowerCapWrite_memOk {watts : Nat} {s : State} (hs : s.memOk) {s' : State} (e : execPowerCapWrite watts s = .next s') :
    s'.memOk :=
    by
  unfold execPowerCapWrite at e
  split at e <;> cases e
  · exact hs
  · exact State.memOk_foldl (State.memOk_of_eq hs rfl rfl rfl) (fun _ _ => State.updGrove_memOk)

theorem execWait_memOk {x : WaitArg} (hs : s.memOk) (e : execWait x s = .next s') : s'.memOk := State.issue_memOk hs e

theorem execCntr_memOk {x : DOnly} (hs : s.memOk) (e : execCntr x s = .next s') : s'.memOk := State.issue_memOk hs e

theorem execAmb_memOk {x : DOnly} (hs : s.memOk) (e : execAmb x s = .next s') : s'.memOk := State.issue_memOk hs e

theorem execPairFormWord_memOk {h k : Half} (hs : s.memOk) (e : execPairFormWord h k s = .next s') : s'.memOk :=
  State.issueMixed_memOk hs e

theorem execLiteralFormWord_memOk {x : LitWord} (hs : s.memOk) (e : execLiteralFormWord x s = .next s') : s'.memOk :=
  State.issueMixed_memOk hs e

theorem execTrap_memOk {x : TrapArg} (hs : s.memOk) (e : execTrap x s = .next s') : s'.memOk := State.issue_memOk hs e

theorem execBrk_memOk {x : BrkArg} (hs : s.memOk) (e : execBrk x s = .next s') : s'.memOk := State.issue_memOk hs e

end Sys2Proof.Machine

end

section
/-!
Every memory stays in its canonical form: one instruction, and the step.
-/

namespace Sys2Proof.Machine

variable {s s' : State}

theorem exec_memOk_of_registerOnly {i : Instr} (h : i.registerOnly = true) (hs : s.memOk) (e : exec i s = .next s') : s'.memOk := by
  obtain ⟨gd, f, hf, -⟩ := regWord_of_registerOnly h
  exact State.issue_memOk hs (hf s ▸ e)

/-- An instruction, of a thread or of an agent, leaves every memory in its canonical form. -/
theorem exec_memOk {i : Instr} (hs : s.memOk) (e : exec i s = .next s') : s'.memOk := by
  cases i with
  | gets _ => exact execGets_memOk hs e
  | sets _ => exact execSets_memOk hs e
  | mma _ => exact execMma_memOk hs e
  | mmas _ => exact execMmas_memOk hs e
  | mzero _ => exact execMzero_memOk hs e
  | mfence _ => exact execMfence_memOk hs e
  | ldfr _ => exact execLdfr_memOk hs e
  | stfr _ => exact execStfr_memOk hs e
  | mcvt _ => exact execMcvt_memOk hs e
  | mtrn _ => exact execMtrn_memOk hs e
  | bra _ => exact execBra_memOk hs e
  | call _ => exact execCall_memOk hs e
  | brx _ => exact execBrx_memOk hs e
  | callx _ => exact execCallx_memOk hs e
  | ret _ => exact execRet_memOk hs e
  | pad _ => exact execPad_memOk hs e
  | rejoin _ => exact execRejoin_memOk hs e
  | yld _ => exact execYld_memOk hs e
  | nop _ => exact execNop_memOk hs e
  | exit _ => exact execExit_memOk hs e
  | tcall _ => exact execTcall_memOk hs e
  | tcalls _ => exact execTcalls_memOk hs e
  | tret _ => exact execTret_memOk hs e
  | tbar _ => exact execTbar_memOk hs e
  | tvote _ => exact execTvote_memOk hs e
  | txch _ => exact execTxch_memOk hs e
  | tmigr _ => exact execTmigr_memOk hs e
  | glaunch _ => exact execGlaunch_memOk hs e
  | ld _ => exact execLd_memOk hs e
  | st _ => exact execSt_memOk hs e
  | lda _ => exact execLda_memOk hs e
  | stl _ => exact execStl_memOk hs e
  | atom _ => exact execAtom_memOk hs e
  | red _ => exact execRed_memOk hs e
  | fence _ => exact execFence_memOk hs e
  | pref _ => exact execPref_memOk hs e
  | disc _ => exact execDisc_memOk hs e
  | clean _ => exact execClean_memOk hs e
  | cpy _ => exact execCpy_memOk hs e
  | cpyt _ => exact execCpyt_memOk hs e
  | cpyg _ => exact execCpyg_memOk hs e
  | bari _ => exact execBari_memOk hs e
  | bara _ => exact execBara_memOk hs e
  | barx _ => exact execBarx_memOk hs e
  | barw _ => exact execBarw_memOk hs e
  | waitany _ => exact execWaitany_memOk hs e
  | waitall _ => exact execWaitall_memOk hs e
  | ffr _ => exact execFfr_memOk hs e
  | emit _ => exact execEmit_memOk hs e
  | qrd _ => exact execQrd_memOk hs e
  | qlen _ => exact execQlen_memOk hs e
  | mload _ => exact execMload_memOk hs e
  | marm _ => exact execMarm_memOk hs e
  | mdis _ => exact execMdis_memOk hs e
  | mstat _ => exact execMstat_memOk hs e
  | wait _ => exact execWait_memOk hs e
  | cntr _ => exact execCntr_memOk hs e
  | amb _ => exact execAmb_memOk hs e
  | boost _ => exact execBoost_memOk hs e
  | trap _ => exact execTrap_memOk hs e
  | brk _ => exact execBrk_memOk hs e
  | serv _ => exact execServ_memOk hs e
  | pairFormWord _ _ => exact execPairFormWord_memOk hs e
  | literalFormWord _ => exact execLiteralFormWord_memOk hs e
  | permitRetry _ => exact execPermitRetry_memOk hs e
  | loadComplete _ => exact execLoadComplete_memOk hs e
  | storePerformed _ => exact execStorePerformed_memOk hs e
  | atomicPerformed _ => exact execAtomicPerformed_memOk hs e
  | fragmentAccessComplete _ => exact execFragmentAccessComplete_memOk hs e
  | matrixEntryAdmit _ => exact execMatrixEntryAdmit_memOk hs e
  | matrixGrant _ => exact execMatrixGrant_memOk hs e
  | matrixComplete _ _ => exact execMatrixComplete_memOk hs e
  | copyStart _ => exact execCopyStart_memOk hs e
  | copyComplete _ => exact execCopyComplete_memOk hs e
  | tcallEntryGrant _ _ => exact execTcallEntryGrant_memOk hs e
  | regroupReadmit _ _ => exact execRegroupReadmit_memOk hs e
  | rejoinHoldTimeout _ => exact execRejoinHoldTimeout_memOk hs e
  | yieldBackoffEnd _ => exact execYieldBackoffEnd_memOk hs e
  | pollBackoffEnd _ => exact execPollBackoffEnd_memOk hs e
  | teamMigration _ => exact execTeamMigration_memOk hs e
  | teamRetire _ => exact execTeamRetire_memOk hs e
  | gridRetire _ => exact execGridRetire_memOk hs e
  | gridCreate _ _ => exact execGridCreate_memOk hs e
  | placerStep _ => exact execPlacerStep_memOk hs e
  | amberRevolution _ => exact execAmberRevolution_memOk hs e
  | boostRefill => exact execBoostRefill_memOk hs e
  | boostLeaseExpire _ _ => exact execBoostLeaseExpire_memOk hs e
  | droopStretch _ => exact execDroopStretch_memOk hs e
  | arbitrationEscalate _ => exact execArbitrationEscalate_memOk hs e
  | hostAppend _ _ _ _ => exact execHostAppend_memOk hs e
  | emitAccept _ => exact execEmitAccept_memOk hs e
  | stalledAppendAdmit _ => exact execStalledAppendAdmit_memOk hs e
  | qrdServe _ => exact execQrdServe_memOk hs e
  | qlenSample _ => exact execQlenSample_memOk hs e
  | queueTableWrite _ _ _ _ => exact execQueueTableWrite_memOk hs e
  | fbptrHeadWrite _ _ => exact execFbptrHeadWrite_memOk hs e
  | fbdoneReplay _ _ => exact execFbdoneReplay_memOk hs e
  | fbdoneFail _ _ _ => exact execFbdoneFail_memOk hs e
  | mloadAtUnit _ => exact execMloadAtUnit_memOk hs e
  | marmAtUnit _ => exact execMarmAtUnit_memOk hs e
  | mdisAtUnit _ => exact execMdisAtUnit_memOk hs e
  | mstatSample _ => exact execMstatSample_memOk hs e
  | rowanTakeEvent _ => exact execRowanTakeEvent_memOk hs e
  | rowanTakeTimer _ => exact execRowanTakeTimer_memOk hs e
  | watermarkExpire _ => exact execWatermarkExpire_memOk hs e
  | rowanEmitAccepted _ => exact execRowanEmitAccepted_memOk hs e
  | rowanRoomFreed _ => exact execRowanRoomFreed_memOk hs e
  | candidateMove _ _ => exact execCandidateMove_memOk hs e
  | tlbiStart _ _ => exact execTlbiStart_memOk hs e
  | tlbiComplete _ => exact execTlbiComplete_memOk hs e
  | translationCompletion _ _ _ _ => exact execTranslationCompletion_memOk hs e
  | invalidateRequest _ _ _ _ => exact execInvalidateRequest_memOk hs e
  | invalidationCompletion _ => exact execInvalidationCompletion_memOk hs e
  | priReqSend _ _ => exact execPriReqSend_memOk hs e
  | priReqSelect _ _ => exact execPriReqSelect_memOk hs e
  | prgResponse _ _ _ => exact execPrgResponse_memOk hs e
  | heatSweep _ _ => exact execHeatSweep_memOk hs e
  | htcWrite _ _ => exact execHtcWrite_memOk hs e
  | hrdvRead _ => exact execHrdvRead_memOk hs e
  | pkcmdReplay _ _ => exact execPkcmdReplay_memOk hs e
  | pkcmdSkip _ _ => exact execPkcmdSkip_memOk hs e
  | pkcmdKill _ _ => exact execPkcmdKill_memOk hs e
  | pkcmdDetach _ _ => exact execPkcmdDetach_memOk hs e
  | pkipClear _ _ => exact execPkipClear_memOk hs e
  | threadViewWrite _ _ _ _ => exact execThreadViewWrite_memOk hs e
  | svreplyDeliver _ _ => exact execSvreplyDeliver_memOk hs e
  | slcmdMload _ _ => exact execSlcmdMload_memOk hs e
  | slcmdMarm _ _ => exact execSlcmdMarm_memOk hs e
  | slcmdMdis _ _ => exact execSlcmdMdis_memOk hs e
  | slcmdMstat _ _ => exact execSlcmdMstat_memOk hs e
  | lbcmdBind _ _ _ => exact execLbcmdBind_memOk hs e
  | lbcmdUnbind _ => exact execLbcmdUnbind_memOk hs e
  | vacateGo _ _ => exact execVacateGo_memOk hs e
  | vacateRelease _ _ => exact execVacateRelease_memOk hs e
  | quantumEntryWrite _ _ _ => exact execQuantumEntryWrite_memOk hs e
  | quantumExpire _ => exact execQuantumExpire_memOk hs e
  | contextSave _ _ => exact execContextSave_memOk hs e
  | contextRestore _ _ => exact execContextRestore_memOk hs e
  | teamSave _ => exact execTeamSave_memOk hs e
  | teamRestore _ => exact execTeamRestore_memOk hs e
  | rollbackCheckpoint _ => exact execRollbackCheckpoint_memOk hs e
  | rollback _ => exact execRollback_memOk hs e
  | setOp _ => exact execSetOp_memOk hs e
  | setState _ => exact execSetState_memOk hs e
  | bind _ _ => exact execBind_memOk hs e
  | unbind _ => exact execUnbind_memOk hs e
  | qset _ => exact execQset_memOk hs e
  | slotMload _ => exact execSlotMload_memOk hs e
  | slotMarm _ => exact execSlotMarm_memOk hs e
  | slotMdis _ => exact execSlotMdis_memOk hs e
  | slotMstat _ => exact execSlotMstat_memOk hs e
  | kill _ => exact execKill_memOk hs e
  | qtab _ => exact execQtab_memOk hs e
  | image _ => exact execImage_memOk hs e
  | railTransitionStep _ => exact execRailTransitionStep_memOk hs e
  | powerCapWrite _ => exact execPowerCapWrite_memOk hs e
  | partitionTableWrite _ => exact execPartitionTableWrite_memOk hs e
  | svnCommand => exact execSvnCommand_memOk hs e
  | spdmRequest _ => exact execSpdmRequest_memOk hs e
  | deviceReset _ => exact execDeviceReset_memOk hs e
  | thermalTrip _ => exact execThermalTrip_memOk hs e
  | linkTrain _ _ _ => exact execLinkTrain_memOk hs e
  | hostCxlMemAccess _ _ _ => exact execHostCxlMemAccess_memOk hs e
  | hostAtomicopToBar ld => exact execHostAtomicopToBar_memOk (_ld := ld) hs e
  | cxlSnoop _ _ => exact execCxlSnoop_memOk hs e
  | atomicopCompletion _ _ => exact execAtomicopCompletion_memOk hs e
  | uioTimeout _ => exact execUioTimeout_memOk hs e
  | canopyOpStart _ _ => exact execCanopyOpStart_memOk hs e
  | canopyPutComplete _ => exact execCanopyPutComplete_memOk hs e
  | canopyAllreduceComplete _ _ => exact execCanopyAllreduceComplete_memOk hs e
  | canopyTimeout _ => exact execCanopyTimeout_memOk hs e
  | canopyTransferIn _ => exact execCanopyTransferIn_memOk hs e
  | reductionDeliver _ _ _ => exact execReductionDeliver_memOk hs e
  | rwinClear _ _ => exact execRwinClear_memOk hs e
  | controlRegisterWrite _ _ _ => exact execControlRegisterWrite_memOk hs e
  | instructionFetch _ => exact execInstructionFetch_memOk hs e
  | cxlCacheOwnership _ _ => exact execCxlCacheOwnership_memOk hs e
  | companionCoreWrite _ _ _ => exact execCompanionCoreWrite_memOk hs e
  | powerRemoval => exact execPowerRemoval_memOk hs e
  | _ => exact exec_memOk_of_registerOnly rfl hs e

theorem State.firstEffect_memOk {a : List Instr} (hs : s.memOk) (e : s.firstEffect a = some s') : s'.memOk := by
  fun_induction State.firstEffect s a <;> grind [→ exec_memOk]

theorem State.autoEvent_memOk (hs : s.memOk) (e : s.autoEvent = some s') : s'.memOk := State.firstEffect_memOk hs e

theorem State.runIssue_memOk {i : Issue} {w : Fetched} (hs : s.memOk) (e : s.runIssue i w = .next s') : s'.memOk := by
  unfold State.runIssue at e
  grind [State.tick_memOk, State.noteHolds_memOk, State.notePick_memOk, State.fetch_memOk, exec_memOk, State.encodingFault_memOk,
    State.fetchFault_memOk, State.fetchAsk_memOk]

theorem State.ownStep_memOk (hs : s.memOk) (e : s.ownStep = .next s') : s'.memOk := by
  unfold State.ownStep at e
  grind [State.amberNow_memOk, State.autoEvent_memOk, State.idle_memOk, State.runIssue_memOk]

theorem State.portStep_memOk {key : Nat} (hs : s.memOk) (e : s.portStep key = .next s') : s'.memOk := by
  unfold State.portStep at e
  grind [State.amberNow_memOk, State.runIssue_memOk, State.clearStarveOf_memOk]

theorem step_memOk (hs : s.memOk) (e : step s = .next s') : s'.memOk := by
  unfold step at e
  grind [State.memOk_iff, exec_memOk, State.amberNow_memOk, State.portStep_memOk, State.ownStep_memOk, State.act_memOk]

/-- Settles O55: each function of the model keeps the memories, `exec` by its arms, and `step` by `exec`. -/
theorem stepKeepsMemOk : Obligations.StepKeepsMemOk :=
  fun _ _ hs e => step_memOk hs e

end Sys2Proof.Machine

end

section
/-!
An exited thread stays as it is (07 R163): what a team's other lanes bring about by arriving, returning or exiting writes nothing of
it but its place in the team. A lemma `f_left` says that `f` keeps `State.left`.
-/

namespace Sys2Proof.Machine

/-- A slot stands in no record of a context-table entry, and idles at no call of it. -/
def CtxEnt.apart (c : CtxEnt) (k : Nat) : Prop := k ∉ c.idle ∧ ∀ r, c.coll = some r → ∀ a ∈ r.arrs, a.slot ≠ k

/-- The same of every entry of a team: `State.apart` asks it of every team. -/
def Team.apart (m : Team) (k : Nat) : Prop := ∀ x ∈ m.ctxs, x.2.apart k

/-- A thread has exited, and is otherwise as another up to what a rejoin and the matrix core may still write of it. -/
def Thread.exitOf (u t : Thread) : Prop :=
  u.st = .exited ∧ u = { t with st := u.st, lane := u.lane, tsize := u.tsize, ctx := u.ctx, pushed := u.pushed, tcret := u.tcret
                                qseq := u.qseq }

/-- The thread of a slot has exited, as `Thread.exitOf` says, and no team has it in an open record. -/
def LeftIn (k : Nat) (t : Thread) (teams : SMap Team) (threads : SMap Thread) : Prop :=
  (∀ e ∈ teams, e.2.apart k) ∧ ∃ u, SMap.find? threads k = some u ∧ u.exitOf t

def State.left (s : State) (k : Nat) (t : Thread) : Prop := LeftIn k t s.teams s.threads

/-- A fold whose step keeps `State.left` keeps it, in the form that `grind` uses. -/
theorem State.foldl_left {β : Type} (k : Nat) (t : Thread) (f : State → β → State) (p : State) (l : List β) :
    (∃ p b, p.left k t ∧ ¬ (f p b).left k t) ∨ ¬ p.left k t ∨ (l.foldl f p).left k t := by
  by_cases h : ∃ p b, p.left k t ∧ ¬ (f p b).left k t
  · exact .inl h
  · by_cases hp : p.left k t
    · push Not at h
      exact .inr (.inr (List.foldlRecOn (motive := fun p => p.left k t) l f hp (fun b hb a _ => h b a hb)))
    · exact .inr (.inl hp)

theorem State.foldl_fst_left {α β : Type} (k : Nat) (t : Thread) (f : State × α → β → State × α) (p : State × α) (l : List β) :
    (∃ p b, p.1.left k t ∧ ¬ (f p b).1.left k t) ∨ ¬ p.1.left k t ∨ (l.foldl f p).1.left k t := by
  by_cases h : ∃ p b, p.1.left k t ∧ ¬ (f p b).1.left k t
  · exact .inl h
  · by_cases hp : p.1.left k t
    · push Not at h
      exact .inr (.inr (List.foldlRecOn (motive := fun p => p.1.left k t) l f hp (fun b hb a _ => h b a hb)))
    · exact .inr (.inl hp)

variable {s : State} {q : Nat} {v : Thread}

theorem State.writeBack_left {la : Nat} {ln : L2Line} (hs : s.left q v) : (s.writeBack la ln).left q v := hs

theorem State.capLast_left {k : Nat} (hs : s.left q v) : (s.capLast k).left q v := by
  unfold State.capLast
  grind [State.left]

theorem State.dropCode_left {pa : Nat} (hs : s.left q v) : (s.dropCode pa).left q v := hs

theorem State.takeFresh_left {n : Nat} (hs : s.left q v) : (s.takeFresh n).left q v := hs

theorem State.makeRoom_left {k : Nat} (hs : s.left q v) : (s.makeRoom k).left q v := by
  have h (j : Nat) : (match s.l2.find? j with
      | none => s
      | some ln => if ln.dirty || ln.poison || ln.err then s.writeBack (j % 2 ^ 52) ln else s).left q v := by
    grind [State.writeBack_left]
  unfold State.makeRoom
  split
  · exact hs
  · split
    · exact hs
    · exact h _

theorem State.enter_left {a : Acc} (hs : s.left q v) : (s.enter a).1.left q v := by
  unfold State.enter
  dsimp only
  split
  · exact State.capLast_left hs
  · exact State.capLast_left (State.makeRoom_left hs)

theorem State.poke_left {a : Acc} {bs : List Byte} (hs : s.left q v) : (s.poke a bs).left q v := by
  have h : ((s.enter a).1.dropCode a.pa).left q v := State.dropCode_left (State.enter_left hs)
  unfold State.poke
  dsimp only
  split <;> exact h

theorem State.heatTaken_left {part : Nat} (hs : s.left q v) : (s.heatTaken part).left q v := by
  unfold State.heatTaken
  grind [State.left, State.takeFresh_left]

theorem State.heatSettle_left {part f : Nat} (hs : s.left q v) : (s.heatSettle part f).left q v := by
  unfold State.heatSettle
  simp only []
  split <;> grind [State.left, State.takeFresh_left, State.poke_left]

theorem State.cacheWalk_left {unit part va log : Nat} {e : DWord} (hs : s.left q v) :
    (s.cacheWalk unit part va log e).left q v := by
  unfold State.cacheWalk
  grind [State.left]

theorem State.l1Upd_left {dom pa : Nat} {f : Sector → Sector} (hs : s.left q v) : (s.l1Upd dom pa f).left q v := hs

theorem State.l1DropLine_left {dom pa : Nat} (hs : s.left q v) : (s.l1DropLine dom pa).left q v := hs

theorem State.heatReq_left {a : Acc} (hs : s.left q v) : (s.heatReq a).left q v := by
  unfold State.heatReq
  grind [State.left, State.heatSettle_left, State.heatTaken_left, State.poke_left]

theorem State.l1Cap_left {dom pa : Nat} (hs : s.left q v) : (s.l1Cap dom pa).left q v := by
  unfold State.l1Cap
  grind [State.left, State.l1Upd_left]

theorem State.touch_left {a : Acc} (hs : s.left q v) : (s.touch a).1.left q v := by
  have h : (s.enter a).1.left q v := State.enter_left hs
  unfold State.touch
  dsimp only
  split
  · exact h
  · split <;> exact h

theorem State.l1Room_left {dom pa : Nat} (hs : s.left q v) : (s.l1Room dom pa).left q v := by
  unfold State.l1Room
  grind [State.left, State.l1DropLine_left]

theorem State.walkPick_left {unit part va : Nat} (hs : s.left q v) : (s.walkPick unit part va).1.left q v := by
  unfold State.walkPick
  grind [State.left, State.takeFresh_left, State.cacheWalk_left]

theorem State.pick_left {α : Type} [DecidableEq α] {a b : α} (hs : s.left q v) : (s.pick a b).1.left q v := by
  unfold State.pick
  grind [State.left]

theorem State.devRead_left {a : Acc} {n : Nat} (hs : s.left q v) : (s.devRead a n).1.left q v := by
  unfold State.devRead
  grind [State.left, State.touch_left, State.heatReq_left]

theorem SMap.mem_upd {α : Type} {m : SMap α} {k : Nat} {f : α → α} {e : Nat × α} (h : e ∈ SMap.upd m k f) :
    e ∈ m ∨ ∃ x, (k, x) ∈ m ∧ e = (k, f x) := by
  unfold SMap.upd at h
  split at h
  · exact .inl h
  next x hx => exact (SMap.mem_put _ _ _ _ h).elim (fun h => .inr ⟨x, SMap.mem_of_find? hx, h⟩) .inl

theorem State.updTeam_left {j : Nat} {f : Team → Team} (hf : ∀ m, m.apart q → (f m).apart q) (hs : s.left q v) :
    (s.updTeam j f).left q v := by
  refine ⟨fun e he => ?_, hs.2⟩
  rcases SMap.mem_upd he with h | ⟨m, hm, rfl⟩
  · exact hs.1 e h
  · exact hf m (hs.1 _ hm)

theorem State.updPart_left {p : Nat} {f : Partition → Partition} (hs : s.left q v) : (s.updPart p f).left q v := hs

theorem State.endRecov_left {team : Nat} (hs : s.left q v) : (s.endRecov team).left q v :=
  State.updTeam_left (fun _ h => h) hs

theorem State.noteWrite_left {a : Acc} {wr : Option Nat} (hs : s.left q v) : (s.noteWrite a wr).left q v := by
  unfold State.noteWrite
  grind [State.left, State.endRecov_left, State.poke_left, State.updPart_left, State.foldl_left, State.foldl_fst_left]

theorem State.translate_left {who : Asker} {part va : Nat} {need : Need} {hostPath : Bool} (hs : s.left q v) :
    (s.translate who part va need hostPath).1.left q v := by
  unfold State.translate
  grind [State.left, State.walkPick_left, State.touch_left]

theorem State.askHost_left {who : Asker} {part vpn : Nat} {wr : Bool} (hs : s.left q v) : (s.askHost who part vpn wr).left q v := by
  unfold State.askHost
  grind [State.left]

theorem State.addRec_left {part : Nat} {x : Rep} (hs : s.left q v) : (s.addRec part x).left q v := hs

theorem State.usedAnswer_left {who : Asker} (hs : s.left q v) : (s.usedAnswer who).left q v := by
  unfold State.usedAnswer
  grind [State.left]

theorem State.ringOverflow_left {part va engine : Nat} (hs : s.left q v) : (s.ringOverflow part va engine).left q v := by
  unfold State.ringOverflow
  grind [State.left, State.addRec_left]

theorem State.l1Hint_left {dom pa : Nat} {h : Hint} (hs : s.left q v) : (s.l1Hint dom pa h).left q v := by
  unfold State.l1Hint
  split
  · exact hs
  · dsimp only
    split
    · exact State.l1Cap_left hs
    · exact hs

theorem State.updOp_left {id : Nat} {f : Op → Op} (hs : s.left q v) : (s.updOp id f).left q v := hs

theorem State.l1Fill_left {dom : Nat} {a : Acc} (hs : s.left q v) : (s.l1Fill dom a).left q v :=
  State.l1Hint_left (s := { s.l1Room dom a.pa with l1 := _, stamp := _ }) (State.l1Room_left (s := s) hs)

theorem State.noteHeat_left {o : Op} {wr : Bool} {a : Acc} (hs : s.left q v) : (s.noteHeat o wr a).left q v := by
  unfold State.noteHeat
  grind [State.left, State.updOp_left]

theorem State.l1Read_left {dom acq : Nat} {a : Acc} {n : Nat} (hs : s.left q v) : (s.l1Read dom acq a n).1.left q v := by
  unfold State.l1Read
  grind [State.left, State.touch_left, State.pick_left, State.l1Hint_left, State.devRead_left, State.l1Fill_left]

theorem State.devWrite_left {a : Acc} {bs : List Byte} (hs : s.left q v) : (s.devWrite a bs).1.left q v := by
  have h1 : (((s.heatReq a).enter a).1).left q v := State.enter_left (State.heatReq_left hs)
  have h2 : (((s.heatReq a).enter a).1.noteWrite a a.team).left q v := State.noteWrite_left h1
  unfold State.devWrite
  dsimp only
  split
  · exact h1
  · refine State.poke_left ?_
    split <;> exact h2

theorem State.updCore_left {c : Nat} {f : CoreSt → CoreSt} (hs : s.left q v) : (s.updCore c f).left q v := hs

theorem State.engineWrite_left {who : Asker} {part va : Nat} {bs : List Byte} (hs : s.left q v) :
    (s.engineWrite who part va bs).1.left q v := by
  refine List.foldlRecOn (motive := fun p : State × Bool => p.1.left q v) _ _ hs (fun p hp x _ => ?_)
  have ht := State.translate_left (who := who) (part := part) (va := va + x.1) (need := .write) (hostPath := true) hp
  split
  · exact hp
  · split
    next s' r e =>
      rw [e] at ht
      split
      · exact State.devWrite_left ht
      · exact ht
      · exact State.askHost_left ht
      · exact ht

theorem State.updThread_left {j : Nat} {f : Thread → Thread}
    (hf : j = q → ∀ u, u.exitOf v → (f u).exitOf v) (hs : s.left q v) : (s.updThread j f).left q v := by
  obtain ⟨ht, u, hu, hx⟩ := hs
  refine ⟨ht, ?_⟩
  by_cases h : j = q
  · subst h
    exact ⟨f u, (SMap.find?_upd_same ..).trans (hu ▸ rfl), hf rfl u hx⟩
  · exact ⟨u, (SMap.find?_upd_other _ _ _ _ (Ne.symm h)).trans hu, hx⟩

theorem State.left_foldl {β : Type} {f : State → β → State} {l : List β} (hs : s.left q v)
    (step : ∀ t, ∀ b ∈ l, t.left q v → (f t b).left q v) : (l.foldl f s).left q v :=
  List.foldlRecOn (motive := fun t => State.left t q v) l f hs (fun t ht b hb => step t b hb ht)

theorem State.leaveRegroup_left {slot : Nat} (hs : s.left q v) : (s.leaveRegroup slot).left q v := hs

theorem State.writeRec_left {part : Nat} {r : FRec} (hs : s.left q v) : (s.writeRec part r).1.left q v := by
  unfold State.writeRec
  grind [State.left, State.engineWrite_left, State.usedAnswer_left, State.translate_left, State.ringOverflow_left,
    State.updPart_left, State.updCore_left]

theorem State.foldl_updThread_left {β : Type} {f : β → Nat} {g : β → Thread → Thread} {l : List β} (hl : ∀ b ∈ l, f b ≠ q)
    (hs : s.left q v) : (l.foldl (fun s b => s.updThread (f b) (g b)) s).left q v :=
  State.left_foldl hs (fun _ b hb => State.updThread_left (fun h => absurd h (hl b hb)))

theorem State.parkGroup_left {core b : Nat} {ls : List LFault} {recs : List (Nat × Nat)} (hl : ∀ l ∈ ls, l.slot ≠ q)
    (hs : s.left q v) : (s.parkGroup core b ls recs).left q v := by
  unfold State.parkGroup
  split
  · exact hs
  next l ls =>
    split
    · dsimp only
      split
      · exact State.left_foldl (State.foldl_updThread_left hl hs) (fun _ _ _ => State.leaveRegroup_left)
      · exact State.foldl_updThread_left hl hs
    · exact State.foldl_updThread_left hl hs

theorem State.meets_left {slot : Nat} {code : BitVec 8} {va : DWord} (hs : s.left q v) : (s.meets slot code va).left q v := by
  unfold State.meets
  split
  · exact hs
  · exact State.updTeam_left (fun _ h => h) hs

theorem Thread.exitOf_qseq {u t : Thread} (h : u.exitOf t) (n : Nat) : Thread.exitOf { u with qseq := n } t := by
  obtain ⟨hx, he⟩ := h
  refine ⟨hx, ?_⟩
  rw [he]

theorem State.closeEntry_left {team : Nat} {e : QEnt} (hs : s.left q v) : (s.closeEntry team e).left q v := by
  unfold State.closeEntry
  split
  · exact hs
  next m hm =>
    have h1 : (s.updTeam team (fun m => { m with opens := m.opens.filter (fun f => f.id != e.id) })).left q v :=
      State.updTeam_left (fun _ h => h) hs
    refine State.left_foldl h1 (fun t k _ => State.updThread_left (fun _ u hu => ?_))
    split
    · exact Thread.exitOf_qseq hu _
    · exact hu

theorem State.closeAll_left {team : Nat} {l : List QEnt} (hs : s.left q v) : (s.closeAll team l).left q v :=
  State.left_foldl hs (fun _ _ _ => State.closeEntry_left)

theorem State.readPiece_left {o : Op} {acq off n : Nat} {hint : Hint} (hs : s.left q v) :
    (s.readPiece o acq off n hint).1.left q v := by
  unfold State.readPiece
  grind [State.left, State.devRead_left, State.l1DropLine_left, State.noteHeat_left, State.l1Read_left]

theorem State.bindBoughs_left {c grid first n : Nat} (hs : s.left q v) : (s.bindBoughs c grid first n).left q v := by
  unfold State.bindBoughs
  grind [State.left, State.updCore_left, State.foldl_left, State.foldl_fst_left]

theorem State.closeCtx_left {team ctx : Nat} (hs : s.left q v) : (s.closeCtx team ctx).left q v := by
  unfold State.closeCtx
  grind [State.left, State.closeAll_left]

theorem State.drainRecs_left {part a : Nat} (hs : s.left q v) : (s.drainRecs part a).left q v := by
  fun_induction State.drainRecs s part a <;> grind [State.updPart_left, ! . State.writeRec_left]

theorem State.readPieces_left {o : Op} {acq : Nat} {hint : Hint} {a : List (Nat × Nat)} (hs : s.left q v) :
    (s.readPieces o acq hint a).1.left q v := by
  fun_induction State.readPieces s o acq hint a <;> grind [! . State.readPiece_left]

theorem State.closeFull_left {team : Nat} (hs : s.left q v) : (s.closeFull team).left q v := by
  unfold State.closeFull
  grind [State.left, State.closeAll_left]

theorem mem_insertBy {α : Type} {f : α → Nat} {a b : α} {l : List α} (h : b ∈ insertBy f a l) : b = a ∨ b ∈ l := by
  induction l with
  | nil => exact .inl (List.mem_singleton.1 h)
  | cons c l ih =>
    unfold insertBy at h
    split at h
    · exact List.mem_cons.1 h
    · rcases List.mem_cons.1 h with rfl | h
      · exact .inr List.mem_cons_self
      · exact (ih h).imp_right (List.mem_cons_of_mem _)

theorem Team.apart_updCtx {m : Team} {k : Nat} {f : CtxEnt → CtxEnt} (hf : ∀ c : CtxEnt, c.apart q → (f c).apart q) (h : m.apart q) :
    Team.apart { m with ctxs := SMap.upd m.ctxs k f } q := by
  intro x hx
  rcases SMap.mem_upd hx with h' | ⟨c, hc, rfl⟩
  · exact h x h'
  · exact hf c (h _ hc)

theorem mem_sortBy {α : Type} {f : α → Nat} {b : α} {l : List α} (h : b ∈ sortBy f l) : b ∈ l := by
  induction l with
  | nil => exact h
  | cons c l ih =>
    rcases mem_insertBy h with rfl | h
    · exact List.mem_cons_self
    · exact List.mem_cons_of_mem _ (ih h)

theorem State.updCtx_left {team ctx : Nat} {f : CtxEnt → CtxEnt} (hf : ∀ c : CtxEnt, c.apart q → (f c).apart q) (hs : s.left q v) :
    (s.updCtx team ctx f).left q v := State.updTeam_left (fun _ => Team.apart_updCtx hf) hs

theorem State.unspawn_left {slots : List Nat} (hs : s.left q v) : (s.unspawn slots).left q v := by
  refine State.left_foldl hs (fun t k _ => State.updThread_left (fun _ u hu => ?_))
  rw [if_neg (by rw [hu.1]; decide)]
  exact hu

theorem State.report_left {part : Nat} {x : Rep} (hs : s.left q v) : (s.report part x).1.left q v := by
  unfold State.report
  grind [State.left, State.addRec_left, State.drainRecs_left]

theorem State.mem_arrs_of_mem_contributors {r : Coll} {a : Arr} (h : a ∈ s.contributors r) : a ∈ r.arrs :=
  (List.mem_filter.1 (mem_sortBy h)).1

theorem mem_of_mem_cutInto {α : Type} {ns : List Nat} {l p : List α} {x : α} (hp : p ∈ cutInto ns l) (hx : x ∈ p) : x ∈ l := by
  induction ns generalizing l with
  | nil => exact nomatch hp
  | cons n ns ih =>
    rcases List.mem_cons.1 hp with rfl | hp
    · exact List.mem_of_mem_take hx
    · exact List.mem_of_mem_drop (ih hp)

theorem State.dissolve_left {m : Team} (hs : s.left q v) : (s.dissolve m).left q v := by
  refine State.left_foldl (State.left_foldl hs fun t r _ ht => ?_) (fun _ _ _ => State.leaveRegroup_left)
  exact State.left_foldl (State.unspawn_left ht) (fun _ _ _ => State.leaveRegroup_left)

theorem State.not_mem_contributors {r : Coll} (hr : ∀ a ∈ r.arrs, a.slot ≠ q) : q ∉ (s.contributors r).map (·.slot) := by
  intro h
  obtain ⟨a, ha, he⟩ := List.mem_map.1 h
  exact hr a (State.mem_arrs_of_mem_contributors ha) he

theorem State.waitCall_left {team ctx : Nat} {pcs : Option (List DWord)} (hs : s.left q v) :
    (s.waitCall team ctx pcs).left q v := by
  refine State.updCtx_left (fun c h => ⟨h.1, fun r' hr' => ?_⟩) hs
  obtain ⟨r, hr, rfl⟩ := Option.map_eq_some_iff.1 hr'
  exact h.2 r hr

theorem State.tableEntry_left {slot off : Nat} (hs : s.left q v) : (s.tableEntry slot off).1.left q v := by
  unfold State.tableEntry
  simp only []
  split <;> grind [State.left, ! . State.readPieces_left, State.takeFresh_left]

theorem mem_of_mem_callParts {w : Bool} {n i k : Nat} {con : List Arr} (h : k ∈ (callParts w n con).getD i []) : k ∈ con.map
    (·.slot) := by
  have hp : ∀ p ∈ callParts w n con, k ∈ p → k ∈ con.map (·.slot) := by
    unfold callParts
    split
    · exact fun p hp hk => mem_of_mem_cutInto hp hk
    · intro p hp hk
      obtain ⟨c, -, rfl⟩ := List.mem_map.1 hp
      obtain ⟨a, ha, rfl⟩ := List.mem_map.1 hk
      exact List.mem_map_of_mem (List.mem_filter.1 ha).1
  rw [List.getD_eq_getElem?_getD] at h
  cases e : (callParts w n con)[i]? with
  | none => rw [e] at h; exact nomatch h
  | some p => rw [e] at h; exact hp p (List.mem_of_getElem? e) h

theorem Thread.exitOf_rejoined {u t : Thread} (h : u.exitOf t) (ctx : Nat) (called : BitVec 8) (ret : DWord) :
    (u.rejoined ctx called ret).exitOf t := by
  obtain ⟨hx, he⟩ := h
  unfold Thread.rejoined
  split
  · exact ⟨hx, he⟩
  · have hn : u.st ≠ .returned := by rw [hx]; decide
    rw [if_neg hn, if_neg hn]
    refine ⟨hx, ?_⟩
    rw [he]

theorem State.left_ctx {team ctx : Nat} {m : Team} {c : CtxEnt} (hs : s.left q v) (hm : s.team? team = some m)
    (hc : SMap.find? m.ctxs ctx = some c) : c.apart q := hs.1 _ (SMap.mem_of_find? hm) _ (SMap.mem_of_find? hc)

theorem State.tryRejoin_left {team ctx : Nat} (hs : s.left q v) : (s.tryRejoin team ctx).left q v := by
  unfold State.tryRejoin
  split
  · exact hs
  next m hm =>
    split
    · exact hs
    next c hc =>
      extract_lets subs s1 s2
      split
      · exact hs
      · have h1 : s1.left q v := State.left_foldl hs fun t e _ ht => State.left_foldl ht fun t' k _ =>
          State.updThread_left (fun _ u hu => Thread.exitOf_rejoined hu _ _ _)
        have h2 : s2.left q v :=
          State.foldl_updThread_left (fun k hk h => (State.left_ctx hs hm hc).1 (h ▸ hk)) h1
        refine State.updTeam_left (fun m' hm' => ?_) h2
        refine Team.apart_updCtx (m := { m' with ctxs := _ }) (fun c h => ⟨List.not_mem_nil, h.2⟩) (fun x hx => hm' x (List.mem_filter.1 hx).1)

theorem State.timeRead_left (hs : s.left q v) : (s.timeRead).left q v := hs

theorem State.reportLanes_left {core : Nat} {all a : List LFault} (hs : s.left q v) : (s.reportLanes core all a).1.left q v := by
  fun_induction State.reportLanes s core all a <;> grind [! . State.report_left]

theorem State.fault_left {c b : Nat} {ls : List LFault} (hl : ∀ l ∈ ls, l.slot ≠ q) (hs : s.left q v) :
    (s.fault c b ls).left q v := by
  unfold State.fault
  split
  · exact hs
  · refine State.left_foldl (State.left_foldl (State.left_foldl hs (fun _ _ _ => State.usedAnswer_left)) fun t l _ ht => ?_) fun t c _ ht => ?_
    · exact State.updTeam_left (fun _ h => h) (State.meets_left ht)
    · refine State.parkGroup_left (fun l h => hl l ?_) (State.reportLanes_left ht)
      exact (List.mem_filter.1 (List.mem_filter.1 h).1).1

theorem State.stepTrapsOn_left {core b : Nat} {pc : DWord} {lanes : List Nat} (hs : s.left q v) :
    (s.stepTrapsOn core b pc lanes).left q v := by
  refine State.fault_left (fun l hl => ?_) hs
  obtain ⟨-, u, hu, hx, -⟩ := hs
  obtain ⟨k, -, hk⟩ := List.mem_filterMap.1 hl
  rintro rfl
  split at hk
  · cases hk
  next t ht =>
    split at hk
    next hr =>
      cases hk
      obtain rfl : u = t := Option.some.inj (hu.symm.trans ht)
      simp [hx] at hr
    · cases hk

theorem State.faultHome_left {code : BitVec 8} {va : Nat} {slots : List Nat} (hl : q ∉ slots) (hs : s.left q v) :
    (s.faultHome code va slots).left q v := by
  have hne : ∀ k ∈ slots, k ≠ q := fun k hk h => hl (h ▸ hk)
  refine State.left_foldl (State.foldl_updThread_left hne hs) (fun t b _ => State.fault_left (fun l hm => ?_))
  obtain ⟨k, hk, hkl⟩ := List.mem_filterMap.1 hm
  obtain ⟨u, -, rfl⟩ := Option.map_eq_some_iff.1 hkl
  exact hne k (List.mem_filter.1 hk).1

theorem State.stepTrapsHome_left {pc : DWord} {slots : List Nat} (hs : s.left q v) : (s.stepTrapsHome pc slots).left q v := by
  unfold State.stepTrapsHome
  grind [State.left, State.stepTrapsOn_left, State.foldl_left, State.foldl_fst_left]

theorem State.releaseColl_left {team ctx : Nat} {r : Coll} {f : Arr → Thread → Thread} (hr : ∀ a ∈ r.arrs, a.slot ≠ q)
    (hs : s.left q v) : (s.releaseColl team ctx r f).left q v :=
  State.stepTrapsHome_left (State.foldl_updThread_left hr (State.updCtx_left (fun _ h => ⟨h.1, fun _ h => nomatch h⟩) hs))

theorem State.callFault_left {team ctx : Nat} {con : List Arr} {code : BitVec 8} {va : Nat} (hc : q ∉ con.map (·.slot))
    (hs : s.left q v) : (s.callFault team ctx con code va).left q v := by
  refine State.faultHome_left hc (State.updCtx_left (fun c h => ⟨h.1, fun r' hr' => ?_⟩) hs)
  obtain ⟨r, hr, rfl⟩ := Option.map_eq_some_iff.1 hr'
  exact fun a ha => h.2 r hr a (List.mem_filter.1 ha).1

theorem State.split_left {team ctx : Nat} {c : CtxEnt} {r : Coll} {tag : BitVec 8} {subs : List (Nat × Nat × DWord × List Nat)}
    (hr : ∀ a ∈ r.arrs, a.slot ≠ q) (hu : ∀ x ∈ subs, q ∉ x.2.2.2) (hs : s.left q v) :
    (s.split team ctx c r tag subs).left q v := by
  have hi : ∀ k ∈ (r.arrs.map (·.slot)).filter (fun k => !subs.any (fun x => x.2.2.2.contains k)), k ≠ q := by
    intro k hk
    obtain ⟨a, ha, rfl⟩ := List.mem_map.1 (List.mem_filter.1 hk).1
    exact hr a ha
  unfold State.split
  extract_lets inSub idle s1 s2 s3 s4
  have h2 : s2.left q v := State.updCtx_left (fun c h => ⟨fun h => hi q h rfl, fun _ h => nomatch h⟩) (State.closeCtx_left hs)
  have h3 : s3.left q v := by
    refine State.left_foldl h2 (fun t x hx ht => ?_)
    refine State.left_foldl (State.updTeam_left (fun m hm y hy => ?_) ht) (fun t' y hy => State.updThread_left (fun h => ?_))
    · rcases SMap.mem_put _ _ _ _ hy with rfl | hy
      · exact ⟨List.not_mem_nil, fun _ h => nomatch h⟩
      · exact hm y hy
    · exact absurd (List.fst_mem_of_mem_zipIdx hy) (h ▸ hu x hx)
  exact State.stepTrapsHome_left (State.foldl_updThread_left hi h3)

theorem State.tableEntries_left {slot base : Nat} {a : List Nat} (hs : s.left q v) : (s.tableEntries slot base a).1.left q v := by
  fun_induction State.tableEntries s slot base a <;> grind [! . State.tableEntry_left]

theorem State.completeMigr_left {team ctx : Nat} {m : Team} {r : Coll} (hr : ∀ a ∈ r.arrs, a.slot ≠ q) (hs : s.left q v) :
    (s.completeMigr team ctx m r).left q v := by
  have hg {t : State} (ht : t.left q v) {f : Arr → Thread → Thread} : (t.releaseColl team ctx r f).left q v := State.releaseColl_left hr ht
  have hc : q ∉ (s.contributors r).map (·.slot) := State.not_mem_contributors hr
  unfold State.completeMigr
  dsimp only
  split
  · exact hg hs
  next a l e =>
    split
    · exact hg hs
    · split
      · exact State.faultHome_left hc (State.releaseColl_left (fun a ha => hr a (List.mem_filter.1 ha).1) hs)
      · exact State.bindBoughs_left (State.updTeam_left (fun _ h => h) (State.dissolve_left (hg hs)))

theorem State.stepTraps_left {pc : DWord} {lanes : List Nat} (hs : s.left q v) : (s.stepTraps pc lanes).left q v :=
  State.stepTrapsOn_left hs

theorem State.callEntries_left {r : Coll} {a : Arr} {called : List Nat} (hs : s.left q v) :
    (s.callEntries r a called).1.left q v := by
  unfold State.callEntries
  grind [State.left, State.tableEntries_left]

theorem State.completeCall_left {team ctx : Nat} {m : Team} {c : CtxEnt} {r : Coll} {w : Bool} {n : Nat} {tag : BitVec 8}
    (hr : ∀ a ∈ r.arrs, a.slot ≠ q) (hs : s.left q v) : (s.completeCall team ctx m c r w n tag).left q v := by
  have hc : q ∉ (s.contributors r).map (·.slot) := State.not_mem_contributors hr
  unfold State.completeCall
  extract_lets rec' con parts called first
  have he : (s.callEntries r first called).1.left q v := State.callEntries_left hs
  split
  · exact State.callFault_left hc hs
  · split
    · exact State.releaseColl_left hr (State.closeCtx_left hs)
    · split
      next e => rw [e] at he; exact State.callFault_left hc (State.usedAnswer_left he)
      next e => rw [e] at he; exact State.waitCall_left (State.askHost_left he)
      next e => rw [e] at he; exact he
      next e =>
        rw [e] at he
        split
        · exact State.waitCall_left he
        · refine State.split_left hr (fun x hx hq => ?_) he
          obtain ⟨y, -, rfl⟩ := List.mem_map.1 hx
          exact hc (mem_of_mem_callParts hq)

theorem State.completeColl_left {team ctx : Nat} {m : Team} {c : CtxEnt} {r : Coll} (hr : ∀ a ∈ r.arrs, a.slot ≠ q)
    (hs : s.left q v) : (s.completeColl team ctx m c r).left q v := by
  have hg {t : State} (ht : t.left q v) {f : Arr → Thread → Thread} : (t.releaseColl team ctx r f).left q v := State.releaseColl_left hr ht
  unfold State.completeColl
  extract_lets con
  split
  · have h1 {f : Arr → Thread → Thread} : ((s.closeCtx team ctx).releaseColl team ctx r f).left q v := hg (State.closeCtx_left hs)
    split
    · exact State.updTeam_left (fun _ h => h) h1
    · exact h1
  · exact hg hs
  · exact hg hs
  · exact State.completeMigr_left hr hs
  · exact State.completeCall_left hr hs
  · exact State.completeCall_left hr hs
  · exact hs

theorem State.tryColl_left {team ctx : Nat} (hs : s.left q v) : (s.tryColl team ctx).left q v := by
  unfold State.tryColl
  split
  · exact hs
  next m hm =>
    split
    · exact hs
    next c hc =>
      split
      · exact hs
      next r hr =>
        split
        · exact hs
        · exact State.completeColl_left ((State.left_ctx hs hm hc).2 r hr) hs

theorem State.settleTeam_left {team : Nat} (hs : s.left q v) : (s.settleTeam team).left q v :=
  State.left_foldl (State.left_foldl (State.closeFull_left hs) (fun _ _ _ => State.tryColl_left)) (fun _ _ _ => State.tryRejoin_left)

end Sys2Proof.Machine

end

section
/-!
Threads that leave, and the waits of a core that end (07 R162, R163, R165, 08 R201, 16 R363).
-/

namespace Sys2Proof.Machine

/-! ### EXIT -/

/-- EXIT on a lane: the thread has exited, at the word's own PC. -/
def exitFx (l : Lane) : LaneRes := .ok { th := fun t => { t with st := .exited }, jump := some l.t.pc }

theorem exec_exit (x : GOnly) (s : State) : exec (.exit x) s = .next (((s.runLanes (.exit x) x.gd.holds exitFx).s.departed
    (s.runLanes (.exit x) x.gd.holds exitFx).took).stepTraps s.cur.pc (s.runLanes (.exit x) x.gd.holds exitFx).off) := rfl

theorem exitFx_opsOwn : OpsOwn exitFx := .of_nil fun l fx h => by cases h; rfl

section
variable {s : State} {i : Instr} {gd : Thread → Bool}

/-- A lane of EXIT exits, passes the word by, or meets a fault of its own. -/
theorem State.laneOut_exitFx (b k : Nat) (t : Thread) : (s.laneOut i gd exitFx b k t = .off ∨ ∃ fx, s.laneOut i gd exitFx b k t = .ok fx
    ∧ fx.ops = [] ∧ fx.tlb = [] ∧ fx.req = none) ∨ ∃ l, s.laneOut i gd exitFx b k t = .fault l := by
  unfold State.laneOut
  split
  · exact .inr ⟨_, rfl⟩
  · split
    · exact .inr ⟨_, rfl⟩
    · split
      · exact .inl (.inl rfl)
      · exact .inl (.inr ⟨_, rfl, rfl, rfl, rfl⟩)

theorem State.applyLane_exitFx_still (s' : State) {e : Nat × LaneOut} (he : e ∈ s.outcomes i gd exitFx s.fresh (s.issueSet i)) :
    (s'.applyLane e.1 e.2).still = s'.still := by
  obtain ⟨-, t, b, -, ho⟩ := State.mem_outcomes _ _ _ _ _ _ _ he
  rw [ho]
  rcases State.laneOut_exitFx b e.1 t with h | ⟨l, h⟩
  · exact State.applyLane_plain _ _ _ h
  · rw [h]
    unfold State.applyLane State.onward
    dsimp only
    split <;> exact s'.usedAnswer_still _

theorem State.faultsOf_exitFx_slot {k : Nat} {t : Thread} (ht : Takes s i k t) (hg : gd t = i.on t) {l : LFault}
    (hl : l ∈ faultsOf (s.outcomes i gd exitFx s.fresh (s.issueSet i))) : l.slot ≠ k := by
  obtain ⟨j, hj⟩ := (mem_faultsOf_iff _ _).1 hl
  obtain ⟨-, u, b, hu, ho⟩ := State.mem_outcomes _ _ _ _ _ _ _ hj
  rintro rfl
  obtain rfl : l.slot = j := State.laneOut_fault_slot _ _ _ _ _ _ _ _ ho.symm
  obtain rfl : t = u := Option.some.inj (ht.thread.symm.trans hu)
  rw [ht.laneOut gd exitFx b hg] at ho
  exact nomatch ho

/-- A lane that takes EXIT has left, and the word's other lanes do not change that. -/
theorem State.runLanes_exitFx_left {k : Nat} {t : Thread} (ht : Takes s i k t) (hg : gd t = i.on t) (ha : s.apart k) :
    k ∈ (s.runLanes i gd exitFx).took ∧ (s.runLanes i gd exitFx).s.left k t := by
  obtain ⟨htook, b, fx, hfx, hk⟩ := s.runLanes_takes i gd exitFx k t ht hg exitFx_opsOwn fun b => ⟨_, rfl, rfl, rfl⟩
  cases hfx
  have hne := fun l hl => State.faultsOf_exitFx_slot (l := l) ht hg hl
  refine ⟨htook, ?_⟩
  unfold State.runLanes at hk ⊢
  dsimp only at hk ⊢
  rw [State.fault_thread? _ _ _ _ _ hne] at hk
  refine State.fault_left hne ⟨fun e he => ha e ?_, _, hk, ?_⟩
  · have hfold : ((s.outcomes i gd exitFx s.fresh (s.issueSet i)).foldl (fun s e => s.applyLane e.1 e.2) (s.charge i (s.issueSet i))).still
        = s.still :=
      List.foldlRecOn (motive := fun z : State => z.still = s.still) _ _ (State.charge_still s i _)
        fun z hz e he => (State.applyLane_exitFx_still z he).trans hz
    have hteams := congrArg State.teams ((State.noteDeps_still _ s i (s.outcomes i gd exitFx s.fresh (s.issueSet i))).trans hfold)
    exact hteams ▸ he
  · exact ⟨rfl, congrArg (fun u : Thread => { u with st := .exited }) (Thread.setPc_pc t)⟩

end

theorem State.departed_left {s : State} {q : Nat} {v : Thread} {slots : List Nat} (hs : s.left q v) : (s.departed slots).left q v :=
  State.left_foldl (State.left_foldl hs fun _ _ _ => State.leaveRegroup_left) fun _ _ _ => State.settleTeam_left

/-- EXIT ends the thread of a lane that takes it (07 R163). -/
theorem exit_completes (x : GOnly) : CompletesWhen (.exit x) (fun s k _ => s.apart k) fun l u => u.st = .exited
    ∧ u = { l.t with st := u.st, lane := u.lane, tsize := u.tsize, ctx := u.ctx, pushed := u.pushed, tcret := u.tcret
                     qseq := u.qseq } := by
  intro s k t ht ha
  obtain ⟨-, hleft⟩ := State.runLanes_exitFx_left (gd := x.gd.holds) ht rfl ha
  obtain ⟨-, u, hu, hx⟩ := State.stepTraps_left (pc := s.cur.pc) (lanes := (s.runLanes (.exit x) x.gd.holds exitFx).off)
    (State.departed_left (slots := (s.runLanes (.exit x) x.gd.holds exitFx).took) hleft)
  exact ⟨_, 0, u, exec_exit x s, hu, hx⟩

/-! ### Ends of waits -/

theorem State.onlyThread_updThread {s : State} {k : Nat} {t : Thread} (ht : s.thread? k = some t) (f : Thread → Thread) :
    OnlyThread s (s.updThread k f) k (f t) := by
  refine ⟨?_, fun j hj => State.thread?_updThread_other s j k f hj, rfl⟩
  rw [State.thread?_updThread_same, ht]
  rfl

theorem yieldBackoffEnd_happens (k c : Nat) (t : Thread) : Happens (.yieldBackoffEnd k)
    (fun s => s.thread? k = some t ∧ t.yieldUntil = some c ∧ c ≤ s.cycleOf (k / 512))
    fun s s' => OnlyThread s s' k { t with yieldUntil := none } := by
  rintro s ⟨ht, hy, hc⟩
  refine ⟨_, ?_, State.onlyThread_updThread ht fun t => { t with yieldUntil := none }⟩
  change execYieldBackoffEnd k s = _
  unfold execYieldBackoffEnd
  rw [ht, Option.bind_some, hy]
  exact if_pos hc

theorem pollBackoffEnd_happens (k c : Nat) (t : Thread) : Happens (.pollBackoffEnd k)
    (fun s => s.thread? k = some t ∧ t.pollUntil = some c ∧ c ≤ s.cycleOf (k / 512))
    fun s s' => OnlyThread s s' k { t with pollUntil := none } := by
  rintro s ⟨ht, hy, hc⟩
  refine ⟨_, ?_, State.onlyThread_updThread ht fun t => { t with pollUntil := none }⟩
  change execPollBackoffEnd k s = _
  unfold execPollBackoffEnd
  rw [ht, Option.bind_some, hy]
  exact if_pos hc

theorem rejoinHoldTimeout_happens (k c : Nat) (t : Thread) : Happens (.rejoinHoldTimeout k)
    (fun s => s.thread? k = some t ∧ t.rejoinSince = some c ∧ c + 256 ≤ s.cycleOf (k / 512))
    fun s s' => OnlyThread s s' k { t with rejoinDone := true } := by
  rintro s ⟨ht, hy, hc⟩
  refine ⟨_, ?_, State.onlyThread_updThread ht fun t => { t with rejoinDone := true }⟩
  change execRejoinHoldTimeout k s = _
  unfold execRejoinHoldTimeout
  rw [ht]
  dsimp only
  rw [hy]
  exact if_pos hc

theorem permitRetry_happens (k c : Nat) (t : Thread) : Happens (.permitRetry k)
    (fun s => s.thread? k = some t ∧ t.st = .ready ∧ t.due = none ∧ t.retry = some c ∧ c ≤ s.cycleOf (k / 512))
    fun s s' => OnlyThread s s' k { t with retry := none } := by
  rintro s ⟨ht, hr, hd, hy, hc⟩
  have hc' : decide (c ≤ s.cycleOf (coreOf k)) = true := decide_eq_true hc
  refine ⟨_, ?_, State.onlyThread_updThread ht fun t => { t with retry := none }⟩
  change execPermitRetry k s = _
  unfold execPermitRetry
  rw [ht]
  dsimp only
  rw [hr, hy, hd]
  exact if_neg (by simp [hc'])

/-! ### A regroup record that is full or old (R165) -/

/-- A spawned thread comes back. -/
def Thread.unspawned (t : Thread) : Thread := { t with st := if t.st = .spawned then .ready else t.st }

theorem Thread.unspawned_unspawned (t : Thread) : t.unspawned.unspawned = t.unspawned := by
  unfold Thread.unspawned
  by_cases h : t.st = .spawned
  · simp [h]
  · simp [h]

theorem State.unspawn_cons (s : State) (k : Nat) (l : List Nat) : s.unspawn (k :: l) = (s.updThread k Thread.unspawned).unspawn l := rfl

theorem State.unspawn_thread? (s : State) (l : List Nat) (k : Nat) :
    (s.unspawn l).thread? k = if k ∈ l then (s.thread? k).map Thread.unspawned else s.thread? k := by
  induction l generalizing s with
  | nil => rfl
  | cons j l ih =>
    rw [State.unspawn_cons, ih]
    by_cases hj : k = j
    · subst hj
      rw [State.thread?_updThread_same, if_pos (List.mem_cons_self (a := k)), Option.map_map,
        show Thread.unspawned ∘ Thread.unspawned = Thread.unspawned from funext Thread.unspawned_unspawned]
      exact ite_self _
    · rw [State.thread?_updThread_other s k j _ hj]
      simp only [List.mem_cons, hj, false_or]

theorem State.unspawn_rest (s : State) (l : List Nat) : s.unspawn l = { s with threads := (s.unspawn l).threads } := by
  induction l generalizing s with
  | nil => rfl
  | cons j l ih => exact ih _

/-- A bough bound to a grid. -/
def Bough.boundTo (b : Bough) (grid : Nat) (g : Option Grid) : Bough :=
  { b with grid := some grid, prio := (g.map (fun g => lrPrio g.lrec)).getD 0, age := (g.map (·.age)).getD 0 }

/-- The record is admitted, and its regrouped bough bound to its grid. -/
def CoreSt.readmit (x : CoreSt) (n : Nat) (r : Regroup) (g : Option Grid) : CoreSt :=
  { x.updBough (16 + n) (fun b => b.boundTo r.grid g) with
    regroup := x.regroup.put n { r with admitted := true } }

theorem CoreSt.readmit_regroup (x : CoreSt) (n : Nat) (r : Regroup) (g : Option Grid) :
    SMap.find? (x.readmit n r g).regroup n = some { r with admitted := true } := SMap.find?_put_same _ _ _

theorem CoreSt.readmit_bough (x : CoreSt) (n : Nat) (r : Regroup) (g : Option Grid) :
    ((x.readmit n r g).bough (16 + n)).grid = some r.grid := congrArg Bough.grid
    (CoreSt.bough_updBough_same x (16 + n) fun b => b.boundTo r.grid g)

theorem regroupReadmit_happens (c n : Nat) (r : Regroup) : Happens (.regroupReadmit c n)
    (fun s => SMap.find? (s.core c).regroup n = some r ∧ r.admitted = false ∧ (32 ≤ r.slots.length ∨ r.since + 256 ≤ s.cycleOf c))
    fun s s' => SMap.find? (s'.core c).regroup n = some { r with admitted := true }
      ∧ ((s'.core c).bough (16 + n)).grid = some r.grid
      ∧ (∀ k ∈ r.slots, ∀ t, s.thread? k = some t → s'.thread? k = some { t with st := if t.st = .spawned then .ready else t.st })
      ∧ (∀ k, k ∉ r.slots → s'.thread? k = s.thread? k) ∧ s' = { s with threads := s'.threads, cores := s'.cores } := by
  rintro s ⟨hr, had, hfull⟩
  have hdue : (r.admitted || !(decide (32 ≤ r.slots.length) || decide (r.since + 256 ≤ s.cycleOf c) || r.slots.any s.collOpen)) = false := by
    rw [had]
    rcases hfull with h | h
    · simp [h]
    · simp [h]
  refine ⟨(s.updCore c fun x => x.readmit n r (s.grid? r.grid)).unspawn r.slots, ?_, ?_⟩
  · change execRegroupReadmit c n s = _
    unfold execRegroupReadmit
    rw [hr]
    dsimp only
    rw [hdue]
    rfl
  · rw [State.unspawn_rest]
    refine ⟨?_, ?_, fun k hk t ht => ?_, fun k hk => ?_, ?_⟩
    · change SMap.find? ((s.updCore c fun x => x.readmit n r (s.grid? r.grid)).core c).regroup n = _
      rw [State.core_updCore_same]
      exact CoreSt.readmit_regroup _ _ _ _
    · change (((s.updCore c fun x => x.readmit n r (s.grid? r.grid)).core c).bough (16 + n)).grid = _
      rw [State.core_updCore_same]
      exact CoreSt.readmit_bough _ _ _ _
    · exact (State.unspawn_thread? _ _ _).trans ((if_pos hk).trans (congrArg (Option.map Thread.unspawned) ht))
    · exact (State.unspawn_thread? _ _ _).trans (if_neg hk)
    · rfl

/-- Settles O19: an exited lane stands in no record, so no collective, call or rejoin that its leaving completes writes it but for its
place in the team; the waits are their own events. -/
theorem threadsLeaveAndResume : Obligations.ThreadsLeaveAndResume :=
  ⟨exit_completes, yieldBackoffEnd_happens, pollBackoffEnd_happens, rejoinHoldTimeout_happens, permitRetry_happens, regroupReadmit_happens⟩

end Sys2Proof.Machine

end
